-- ==== Sys2Proof/Word.lean ====
section
/-! DEFINITION. Bytes, hub times and sparse tables: the plain types every other file uses. -/

namespace Sys2Proof

/-- One byte of a frame, a payload, a record or a memory. -/
abbrev Byte := BitVec 8

/-- A string of bytes, the first byte (offset 0) first. -/
abbrev Bytes := List Byte

/-- A Hub Time as a TS96 says it (Table TIME-2), held as ONE number in units of 2^-16 ns counted from
Hub Time 0, so that times compare and subtract as numbers. -/
abbrev T16 := Nat

/-- A table of numbered objects: only the objects that differ from their reset value are listed, in
strictly rising number. -/
abbrev Tbl (α : Type) := List (Nat × α)

/-- The 16-bit, 32-bit, 48-bit and 64-bit registers and counters. -/
abbrev W16 := BitVec 16
abbrev W32 := BitVec 32
abbrev W48 := BitVec 48
abbrev W64 := BitVec 64

end Sys2Proof
end

