-- ==== Sys2Proof/Syntax.lean ====
section
/-! DEFINITION. The commands the hub takes: one constructor of Instr for every row of spec/opcode_table.json,
with the operands a command brings from outside. Rows that are HCP requests carry the request itself (Req);
rows that are happenings carry what the outside world supplies: a written word, a measured stamp, a received
frame. Docstrings give the row's mnemonic and the rule that governs it. -/

namespace Sys2Proof

/-- The time-quality codes of Table TIME-3 (R81): UNSET 0, FREE 1, HOLDOVER 2, LOCKED 3. -/
inductive Quality where
  | unset | free | holdover | locked
  deriving DecidableEq, Repr

/-- The eight rails of Table BOOT-1 (R410). -/
inductive Rail where
  | aon | safe | core | sram | sda | sdh | io18 | io33
  deriving DecidableEq, Repr

/-- The three register spaces a plain write can reach: BAR0 (Table HCP-2), the SPI address space
(Table HCP-6) and the vendor-specific configuration capability (Table BOOT-7). -/
inductive RegSpace where
  | bar0 | spi | vsec
  deriving DecidableEq, Repr

/-- The input-link kinds of LINK_ALIGN (Table INP-9): 1 JESD, 2 BGL, 3 SCP. -/
inductive LinkKind where
  | jesd | bgl | scp
  deriving DecidableEq, Repr

/-- A port that carries PTP (Table XFER-12): an uplink port, the management port or a Bamgiusk Link. -/
inductive PtpPort where
  | uplink (n : Fin 48)
  | mgmt
  | bgl (n : Fin 64)
  deriving DecidableEq, Repr

/-- How a datagram came to the management port: its source and destination address (4 bytes IPv4, 16 bytes IPv6) and the
id of its IEEE 802.1Q tag, where it carries one (R43). -/
structure MgmtHead where
  src : Bytes
  dst : Bytes
  vlan : Option (BitVec 12)
  deriving DecidableEq, Repr

/-- The source and destination port of a UDP datagram. -/
structure UdpPorts where
  sport : Nat
  dport : Nat
  deriving DecidableEq, Repr

/-- An access to a register space: bytes written, or a number of bytes read (R37). -/
inductive RegAccess where
  | write (data : Bytes)
  | read (size : Nat)
  deriving DecidableEq, Repr

/-- A pass of the scrubber over a region of memory, and how long it took in ns (R23). -/
structure ScrubPass where
  region : Fin 6
  ns : Nat
  deriving DecidableEq, Repr

/-- A rate word that the firmware writes, at once or at a Hub Time (R74, R75). -/
structure RateWrite where
  word : W48
  at_ : Option T16
  deriving DecidableEq, Repr

/-- A frame of a Serial Converter Port: its number and the bits of each data line (R180). -/
structure ScpFrame where
  index : Int
  lines : List (List Bool)
  deriving DecidableEq, Repr

/-- Why an uplink port leaves UP (cause field of UPL_EVENT, Table UPL-7; cause 2 and 3 come with commands
of their own). -/
inductive PortCause where
  | localFault | remoteFault | lockLost
  deriving DecidableEq, Repr

/-- An HCP request whose frame has passed checks 1 to 4 of Table HCP-10: the mailbox it came on and the
header fields of Table HCP-8 that its execution uses. `time` holds the ten bytes of the at field. -/
structure Req where
  mb : Fin 10
  flags : Byte
  hostSeq : W32
  tag : W32
  time : Bytes
  payload : Bytes
  deriving DecidableEq, Repr

/-- A received PTP message as it stood in its frame (Table XFER-1): the transport, 0 EtherType 0x88F7, 1 UDP over IPv4, 2 UDP over
IPv6, another number for any other; the VLAN ids of its 802.1Q tags, outermost first; the message. -/
structure PtpFrame where
  transport : Nat
  tags : List Nat
  msg : Bytes
  deriving DecidableEq, Repr

/-- The stamps of a delay request-response exchange on a PTP port, in 2^-16 ns: the master's Sync leaves at t1 and arrives at t2, the
Delay_Req leaves at t3 and arrives at the master at t4. -/
structure PtpExchange where
  port : PtpPort
  t1 : Int
  t2 : Int
  t3 : Int
  t4 : Int
  deriving DecidableEq, Repr

/-- What a once-per-second servo estimate has to go on beside the stamps and records that the hub holds (R115, R120, R123): a PTP
exchange, the offset that the heartbeat stamps give to within 2 ns, whether a source is qualified, and a newly selected
grandmaster. The spec does not say how the firmware forms the last three. -/
structure ServoInput where
  exchange : Option PtpExchange
  coarse : Int
  qualified : Bool
  newMaster : Option (W64 × W16 × Byte)
  deriving DecidableEq, Repr

/-- What the alignment procedure of Table INP-7 found on a JESD link: one arrival stamp a[i] per logical lane, whether the
configuration octets matched, and when every lane had reached code-group synchronisation. The other kinds find what
they need in the frames they receive. -/
structure AlignFound where
  stamps : List T16
  configMatches : Bool
  synced : T16
  deriving DecidableEq, Repr

/-- A received 66-bit block: whether its sync header is that of a control block, and its 8 bytes. -/
structure Block where
  control : Bool
  bytes : Bytes
  deriving DecidableEq, Repr

/-- A received Bamgiusk frame: the blocks of each logical lane in order of position, and the arrival stamp. -/
structure BglFrame where
  lanes : List (List Block)
  arrival : T16
  deriving DecidableEq, Repr

/-- A word of a JESD link in its elastic buffers: the number of its launch boundary counted from Hub Time 0 in multiframe
periods, its frame and sample in the multiframe, and the container (R184). Other kinds of source do not look at it. -/
structure JesdWord where
  multiframe : Int
  frame : Nat
  sample : Nat
  word : W32
  deriving DecidableEq, Repr

/-- The line that an entry of an uncorrectable-line log names (Table FLT-5): region, owner, byte address, id and detail. -/
structure UncorrLine where
  region : Fin 6
  owner : Byte
  address : W32
  id : W32
  detail : W64
  deriving DecidableEq, Repr

/-- The bits of a memory line, or of a 64-bit word where a region has no outer code, that differ from what was written: of
its data bytes, by byte of the line; of the 8 check bits of its words, by word; of the 16 check symbols of its outer
code (R19, R20). -/
structure Upset where
  data : List (Nat × Byte) := []
  inner : List (Nat × Byte) := []
  outer : List (Nat × Byte) := []
  deriving DecidableEq, Repr

/-- Where a memory fault was met (Table FLT-5) and what was read there. `place`: for stream memory the byte of the packet,
for delay memory the sample of the pipe's delay line, newest 0, at which the line begins. -/
structure MemRead where
  owner : Byte
  address : W32
  id : W32
  detail : W64
  upset : Upset
  place : Nat
  deriving DecidableEq, Repr

/-- The commands: one constructor per row of spec/opcode_table.json. -/
inductive Instr where
  /-- MB_SESSION_OPEN (R40). -/
  | mbSessionOpen (m : Fin 8) (v2 pause irqEn : Bool)
  /-- MB_SESSION_CLOSE (R40). -/
  | mbSessionClose (m : Fin 8)
  /-- MB_PAUSE_SET (R41). -/
  | mbPauseSet (m : Fin 8)
  /-- MB_PAUSE_CLEAR (R41). -/
  | mbPauseClear (m : Fin 8)
  /-- MB_IRQ_EN_WRITE (R42). -/
  | mbIrqEnWrite (m : Fin 8) (en : Bool)
  /-- RING_BASE_WRITE (R41). -/
  | ringBaseWrite (m : Fin 8) (rsp : Bool) (addr : W64)
  /-- REQ_PI_DOORBELL (R38). -/
  | reqPiDoorbell (m : Fin 8) (v : W16)
  /-- RSP_CI_WRITE (R38). -/
  | rspCiWrite (m : Fin 8) (v : W16)
  /-- RING_ERR_CLEAR (R37). -/
  | ringErrClear (m : Fin 8)
  /-- REGISTER_WRITE_PLAIN (R37): an access that has no row of its own; the reads of BAR0 stand here too. -/
  | registerWritePlain (space : RegSpace) (offset : Nat) (access : RegAccess)
  /-- REQUEST_TAKE (R57). -/
  | requestTake (slot : Bytes)
  /-- RESPONSE_WRITE (R39). -/
  | responseWrite (m : Fin 10)
  /-- NOTICE_WRITE (R58). -/
  | noticeWrite (m : Fin 10)
  /-- NOTICES_LOST (R60). -/
  | noticesLost (m : Fin 10)
  /-- MGMT_DATAGRAM_RX (R43). -/
  | mgmtDatagramRx (h : MgmtHead) (ports : UdpPorts) (udpLen : Nat) (data : Bytes)
  /-- MGMT_FRAGMENT_RX (R44). -/
  | mgmtFragmentRx (h : MgmtHead) (id offset : Nat) (more : Bool) (data : Bytes)
  /-- MGMT_FRAGMENT_TIMEOUT (R44). -/
  | mgmtFragmentTimeout (src : Bytes) (id : Nat)
  /-- SPI_TRANSACTION (R46). -/
  | spiTransaction (write : Bool) (addr : BitVec 24) (count : Nat) (data : Bytes)
  /-- SPI_MB_GO (R47). -/
  | spiMbGo
  /-- SPI_RSP_READY_CLEAR (R47). -/
  | spiRspReadyClear
  /-- SPI_MB_OPEN (R47). -/
  | spiMbOpen
  /-- SPI_MB_CLOSE (R47). -/
  | spiMbClose
  /-- TIME_NOW_CAPTURE_READ (R68). -/
  | timeNowCaptureRead
  /-- SESSION_INFO (R61). -/
  | sessionInfo (r : Req)
  /-- NOTICE_FETCH (R62). -/
  | noticeFetch (r : Req)
  /-- NOTICE_SUBSCRIBE (R61). -/
  | noticeSubscribe (r : Req)
  /-- VDD_AON_UP (R25). -/
  | vddAonUp
  /-- VDD_AON_LOSS (R25). -/
  | vddAonLoss
  /-- CORE_RAILS_UP (R25). -/
  | coreRailsUp
  /-- VDD_CORE_LOSS (R25). -/
  | vddCoreLoss (sram : Bool)
  /-- LANE_IO_RAIL_LOSS (R412). -/
  | laneIoRailLoss (rail : Rail)
  /-- RAIL_ORDER_BREACH (R412). -/
  | railOrderBreach (rail : Rail)
  /-- RESET_N_ASSERT (R414). -/
  | resetNAssert (lowNs : Nat)
  /-- RESET_N_RELEASE (R25). -/
  | resetNRelease (straps : Byte) (testMode : Bool)
  /-- CHIP_RESET_END (R414). -/
  | chipResetEnd (straps : Byte) (testMode : Bool)
  /-- BOOT_IMAGE_LOADED (R421). -/
  | bootImageLoaded (readOk : Bool) (image : Bytes)
  /-- BOOT_COMPLETE (R422). -/
  | bootComplete (selfTestOk : Bool)
  /-- BOOT_WATCHDOG_EXPIRY (R29). -/
  | bootWatchdogExpiry
  /-- PARITY_ERROR (R385). -/
  | parityError (block : Fin 17) (offset : Nat)
  /-- FW_HEARTBEAT_WRITE (R32). -/
  | fwHeartbeatWrite (value : W32)
  /-- FW_STALL_DETECT (R31). -/
  | fwStallDetect
  /-- DSP_PLL_UNLOCK (R16). -/
  | dspPllUnlock
  /-- DSP_PLL_RELOCK (R16). -/
  | dspPllRelock
  /-- SCRUB_PASS_LATE (R23): a scrub pass of a region ends. -/
  | scrubPassLate (pass : ScrubPass)
  /-- RATE_WORD_WRITE (R74). -/
  | rateWordWrite (w : RateWrite)
  /-- RATE_SLEW_STEP (R75). -/
  | rateSlewStep
  /-- TIME_QUALITY_WRITE (R82). -/
  | timeQualityWrite (q : Quality)
  /-- LEASE_RENEW (R82). -/
  | leaseRenew
  /-- LEASE_EXPIRY (R82). -/
  | leaseExpiry
  /-- REF_LOST (R84). -/
  | refLost
  /-- TPLL_UNLOCK (R84). -/
  | tpllUnlock
  /-- REF_RETURN (R84). -/
  | refReturn (within10ppm : Bool)
  /-- PPS_OUT_EDGE (R86). -/
  | ppsOutEdge
  /-- PPS_IN_EDGE (R88). -/
  | ppsInEdge (falling : Bool) (crossing : T16) (ptpSecond : Option Nat)
  /-- PPS_IN_TIMEOUT (R88). -/
  | ppsInTimeout
  /-- TRIG_IN_EDGE (R89). -/
  | trigInEdge (input : Fin 8) (falling : Bool) (crossing : T16)
  /-- CALENDAR_FIRE (R95). -/
  | calendarFire
  /-- FIRE_RECORD_NOTICE (R101). -/
  | fireRecordNotice
  /-- TIME_GET (R104). -/
  | timeGet (r : Req)
  /-- TIME_STEP (R105). -/
  | timeStep (r : Req)
  /-- PPS_CONFIG (R106). -/
  | ppsConfig (r : Req)
  /-- TRIG_IN_CONFIG (R106). -/
  | trigInConfig (r : Req)
  /-- TRIG_IN_READ (R104). -/
  | trigInRead (r : Req)
  /-- CAL_STATUS (R104). -/
  | calStatus (r : Req)
  /-- CAL_CANCEL (R103). -/
  | calCancel (r : Req)
  /-- PTP_FRAME_RX (R108). -/
  | ptpFrameRx (port : PtpPort) (crossing : T16) (frame : PtpFrame)
  /-- PTP_MESSAGE_TX (R109). -/
  | ptpMessageTx (port : PtpPort) (crossing : T16) (msg : Bytes)
  /-- PHASE_MEASURE (R112). -/
  | phaseMeasure (lane : Fin 160) (phase : BitVec 21) (freq : Int) (slipped : Bool)
  /-- ESMC_MESSAGE (R113). -/
  | esmcMessage (port : Fin 48) (received : Option Nat)
  /-- SERVO_ESTIMATE (R120). -/
  | servoEstimate (est : ServoInput)
  /-- ANNOUNCE_TIMEOUT (R120). -/
  | announceTimeout
  /-- HOLDOVER_LIMIT_EXPIRY (R120). -/
  | holdoverLimitExpiry
  /-- EASEL_HEARTBEAT_RX (R126). -/
  | easelHeartbeatRx (link : Fin 8) (frame : Bytes) (arrival : T16)
  /-- EASEL_SLOT_MISSED (R129). -/
  | easelSlotMissed
  /-- SNAPSHOT_TX (R128). -/
  | snapshotTx
  /-- SNAPSHOT_RX (R128). -/
  | snapshotRx (link : Fin 8) (handover : Bool) (snap : Bytes)
  /-- KEEPER_LISTEN_END (R132). -/
  | keeperListenEnd
  /-- HANDOVER_PARTNER_ABSENT (R134). -/
  | handoverPartnerAbsent
  /-- XFER_CONFIG (R136). -/
  | xferConfig (r : Req)
  /-- XFER_STATUS (R135). -/
  | xferStatus (r : Req)
  /-- PTP_PORT_CONFIG (R135). -/
  | ptpPortConfig (r : Req)
  /-- ASYM_WRITE (R122). -/
  | asymWrite (r : Req)
  /-- ASYM_READ (R122). -/
  | asymRead (r : Req)
  /-- PHASE_READ (R112). -/
  | phaseRead (r : Req)
  /-- KEEPER_HANDOVER (R134). -/
  | keeperHandover (r : Req)
  /-- LANE_CONFIG (R140). -/
  | laneConfig (r : Req)
  /-- LANE_STATUS (R160). -/
  | laneStatus (r : Req)
  /-- LANE_POWER (R155). -/
  | lanePower (r : Req)
  /-- LANE_WAKE_COMPLETE (R155). -/
  | laneWakeComplete (lane : Fin 160) (rx : Bool)
  /-- LANE_REEQ (R146). -/
  | laneReeq (r : Req)
  /-- REEQ_COMPLETE (R147). -/
  | reeqComplete (lane : Fin 160) (ctle eyeH eyeV : Byte)
  /-- LANE_ACQUIRED (R142). -/
  | laneAcquired (lane : Fin 160) (inverted : Bool) (ctle eyeH eyeV : Byte)
  /-- LANE_LOCK_LOST (R142). -/
  | laneLockLost (lane : Fin 160) (cdr : Bool)
  /-- BGL_LINK_CONFIG (R161). -/
  | bglLinkConfig (r : Req)
  /-- BGL_LINK_STATUS (R160). -/
  | bglLinkStatus (r : Req)
  /-- BGL_MARKER_TX (R149). -/
  | bglMarkerTx (link : Fin 64)
  /-- BGL_LANES_LOCKED (R153), with the type octet of the training or marker block that arrived on each lane. -/
  | bglLanesLocked (link : Fin 64) (octets : Bytes)
  /-- BGL_TRAINING_RESULT (R150): of the training block read on each physical lane the lane number, the width, the link_id and
  the last four bytes. -/
  | bglTrainingResult (link : Fin 64) (order widths linkIds : Bytes) (rest : List Bytes)
  /-- BGL_WIRING_WAIT_END (R150). -/
  | bglWiringWaitEnd (link : Fin 64)
  /-- BGL_LINK_UP (R153). -/
  | bglLinkUp (link : Fin 64) (skewPs : Nat) (readyRx : Bool) (sender : W16)
  /-- BGL_DESKEW_TIMEOUT (R153). -/
  | bglDeskewTimeout (link : Fin 64)
  /-- BGL_LINK_DOWN (R153). -/
  | bglLinkDown (link : Fin 64)
  /-- LANE_BITSLIP (R154). -/
  | laneBitslip (r : Req)
  /-- LANE_RAW_CAPTURE (R154). -/
  | laneRawCapture (r : Req)
  /-- LANE_RAW_COMMIT (R152). -/
  | laneRawCommit (r : Req)
  /-- PRBS_CONFIG (R158). -/
  | prbsConfig (r : Req)
  /-- PRBS_READ (R159). -/
  | prbsRead (r : Req)
  /-- PRBS_LOCK (R159). -/
  | prbsLock (lane : Fin 160) (bits : List Bool)
  /-- PRBS_LOCK_LOSS (R159): the bits in error since the last count, and those of the last 1,024 bits. -/
  | prbsLockLoss (lane : Fin 160) (errors lastErrors : Nat)
  /-- DCLK_CONFIG (R167). -/
  | dclkConfig (r : Req)
  /-- DCLK_RESTART (R167). -/
  | dclkRestart (output : Fin 32)
  /-- SREF_CONFIG (R168). -/
  | srefConfig (r : Req)
  /-- JESD_LINK_CONFIG (R171). -/
  | jesdLinkConfig (r : Req)
  /-- BGL_INPUT_CONFIG (R176). -/
  | bglInputConfig (r : Req)
  /-- SCP_CONFIG (R179). -/
  | scpConfig (r : Req)
  /-- LINK_ALIGN (R183). -/
  | linkAlign (r : Req)
  /-- LINK_ALIGN_DONE (R184). -/
  | linkAlignDone (kind : LinkKind) (link : Fin 64) (found : AlignFound)
  /-- ALIGN_BOUND_EXPIRY (R183). -/
  | alignBoundExpiry (kind : LinkKind) (link : Fin 64)
  /-- LINK_STATUS (R191). -/
  | linkStatus (r : Req)
  /-- INPUT_LINK_LOST (R173). -/
  | inputLinkLost (kind : LinkKind) (link : Fin 64)
  /-- MULTIFRAME_BOUNDARY_STAMP (R184). -/
  | multiframeBoundaryStamp (link : Fin 64) (stamps : List T16)
  /-- BGL_FRAME_RX (R177). -/
  | bglFrameRx (link : Fin 64) (frame : BglFrame)
  /-- BGL_MESSAGE_RX (R178): the start block of a message and the blocks of its stream after it. -/
  | bglMessageRx (link : Fin 64) (stream : Bool) (start : Bytes) (rest : List Bytes)
  /-- SCP_FRAME_RX (R180). -/
  | scpFrameRx (port : Fin 16) (frame : ScpFrame)
  /-- INPUT_WORD_RELEASE (R187). -/
  | inputWordRelease (channel : Fin 512) (jesd : JesdWord)
  /-- CHANNEL_BIND (R187). -/
  | channelBind (r : Req)
  /-- CHANNEL_START (R188). -/
  | channelStart (r : Req)
  /-- CHANNEL_STOP (R188). -/
  | channelStop (r : Req)
  /-- CHANNEL_STATUS (R191). -/
  | channelStatus (r : Req)
  /-- BGL_MESSAGE (R178). -/
  | bglMessage (r : Req)
  /-- PIPE_CONFIG (R225). -/
  | pipeConfig (r : Req)
  /-- PIPE_START (R228). -/
  | pipeStart (r : Req)
  /-- PIPE_STOP (R228). -/
  | pipeStop (r : Req)
  /-- PIPE_STATUS (R227). -/
  | pipeStatus (r : Req)
  /-- PIPE_RETUNE (R213). -/
  | pipeRetune (r : Req)
  /-- DC_SET (R202). -/
  | dcSet (r : Req)
  /-- DC_VARNISH (R202). -/
  | dcVarnish (r : Req)
  /-- DC_THAW (R202). -/
  | dcThaw (r : Req)
  /-- DC_PRESET (R202). -/
  | dcPreset (r : Req)
  /-- DC_READ (R202). -/
  | dcRead (r : Req)
  /-- DELAY_SEGMENT (R208). -/
  | delaySegment (r : Req)
  /-- DELAY_FLUSH (R210). -/
  | delayFlush (r : Req)
  /-- DELAY_STATUS (R227). -/
  | delayStatus (r : Req)
  /-- REQUANT_SET (R221). -/
  | requantSet (r : Req)
  /-- DELAY_UPDATE_POINT (R204). -/
  | delayUpdatePoint (pipe : Fin 1024)
  /-- MODEL_EXPIRY (R209). -/
  | modelExpiry (channel : Fin 512)
  /-- PIPE_OUTPUT_SAMPLE (R236). -/
  | pipeOutputSample (pipe : Fin 1024)
  /-- PROFILE_WRITE (R232). -/
  | profileWrite (r : Req)
  /-- PROFILE_COMMIT (R231). -/
  | profileCommit (r : Req)
  /-- PROFILE_DELETE (R232). -/
  | profileDelete (r : Req)
  /-- PROFILE_INFO (R250). -/
  | profileInfo (r : Req)
  /-- BANK_LOAD (R239). -/
  | bankLoad (r : Req)
  /-- BANK_SWAP (R246). -/
  | bankSwap (r : Req)
  /-- BANK_CLEAR (R241). -/
  | bankClear (r : Req)
  /-- BANK_STATUS (R250). -/
  | bankStatus (r : Req)
  /-- ADM_STATUS (R267). -/
  | admStatus (r : Req)
  /-- ADM_BOUND_READ (R267). -/
  | admBoundRead (r : Req)
  /-- ADM_LIMIT (R265). -/
  | admLimit (r : Req)
  /-- ADM_PROBE (R268). -/
  | admProbe (r : Req)
  /-- CAP_WINDOW_CONFIG (R271). -/
  | capWindowConfig (r : Req)
  /-- CAP_COND_CONFIG (R273). -/
  | capCondConfig (r : Req)
  /-- CAP_ARM (R289). -/
  | capArm (r : Req)
  /-- CAP_ARM_EFFECT (R289). -/
  | capArmEffect (window : Fin 16)
  /-- CAP_DISARM (R289). -/
  | capDisarm (r : Req)
  /-- CAP_DISARM_EFFECT (R289). -/
  | capDisarmEffect (window : Fin 16)
  /-- CAP_TRIGGER (R276). -/
  | capTrigger (r : Req)
  /-- CAP_STATUS (R297). -/
  | capStatus (r : Req)
  /-- CAP_RECORD_READ (R297). -/
  | capRecordRead (r : Req)
  /-- CAP_DUMP (R295). -/
  | capDump (r : Req)
  /-- CAP_RELEASE (R289). -/
  | capRelease (r : Req)
  /-- CAP_MISSED_READ (R288). -/
  | capMissedRead (r : Req)
  /-- TRIG_OUT_CONFIG (R296). -/
  | trigOutConfig (r : Req)
  /-- CAPTURE_FRAME_WRITE (R272). -/
  | captureFrameWrite (window : Fin 16)
  /-- NETWORK_TRIGGER_RX (R281). -/
  | networkTriggerRx (port : Fin 49) (msg : Bytes)
  /-- DUMP_PACKET (R295). -/
  | dumpPacket (dump : Fin 4)
  /-- DUMP_END (R295). -/
  | dumpEnd (dump : Fin 4)
  /-- COMP_STREAM_CONFIG (R311). -/
  | compStreamConfig (r : Req)
  /-- COMP_STREAM_STATUS (R324). -/
  | compStreamStatus (r : Req)
  /-- COMP_JOB (R319). -/
  | compJob (r : Req)
  /-- COMP_JOB_STATUS (R324). -/
  | compJobStatus (r : Req)
  /-- COMP_JOB_CANCEL (R320). -/
  | compJobCancel (r : Req)
  /-- JOB_START (R320). -/
  | jobStart (unit : Fin 3)
  /-- JOB_END (R320). -/
  | jobEnd (unit : Fin 3) (hostSrc : Bytes)
  /-- COMP_AUTO_EVAL (R313). -/
  | compAutoEval (stream : Fin 1024)
  /-- COMP_BLOCK_COMPLETE (R312). -/
  | compBlockComplete (stream : Fin 1024)
  /-- PACKETISER_BEAT (R342). -/
  | packetiserBeat
  /-- STREAM_CONFIG (R327). -/
  | streamConfig (r : Req)
  /-- STREAM_STATUS (R351). -/
  | streamStatus (r : Req)
  /-- STREAM_FLUSH (R345). -/
  | streamFlush (r : Req)
  /-- STREAM_FLUSH_NOW (R347). -/
  | streamFlushNow (r : Req)
  /-- STREAM_WATERMARK (R348). -/
  | streamWatermark (r : Req)
  /-- PACKET_COMMIT (R331). -/
  | packetCommit (stream : Fin 1024)
  /-- FRAME_TX_START (R364). -/
  | frameTxStart (port : Fin 48)
  /-- FRAME_TX_END (R329). -/
  | frameTxEnd (port : Fin 48)
  /-- CONTROL_FRAME_TX (R364). -/
  | controlFrameTx (port : Fin 48) (frame : Bytes)
  /-- UPLINK_FRAME_RX (R366). -/
  | uplinkFrameRx (port : Fin 48) (fcsOk : Bool) (frame : Bytes)
  /-- UPL_GROUP_CONFIG (R354). -/
  | uplGroupConfig (r : Req)
  /-- UPL_PORT_ADDR (R355). -/
  | uplPortAddr (r : Req)
  /-- UPL_DEST_WRITE (R356). -/
  | uplDestWrite (r : Req)
  /-- UPL_STREAM_MAP (R369). -/
  | uplStreamMap (r : Req)
  /-- UPL_PORT_ENABLE (R361). -/
  | uplPortEnable (r : Req)
  /-- UPL_PORT_DISABLE (R368). -/
  | uplPortDisable (r : Req)
  /-- UPL_PORT_STATUS (R369). -/
  | uplPortStatus (r : Req)
  /-- PORT_UP (R361). -/
  | portUp (port : Fin 48)
  /-- PORT_DOWN (R361). -/
  | portDown (port : Fin 48) (cause : PortCause)
  /-- FAULT_DETECT (R373): `at_` counts for the sources of memory faults only. -/
  | faultDetect (block : Fin 17) (source : Fin 64) (unit : Nat) (at_ : MemRead)
  /-- BLOCK_RESET_END (R377). -/
  | blockResetEnd (block : Fin 17) (unit : Nat)
  /-- GATE_END (R381). -/
  | gateEnd (block : Fin 17) (unit : Nat)
  /-- FLT_READ (R390). -/
  | fltRead (r : Req)
  /-- FLT_CLEAR (R371). -/
  | fltClear (r : Req)
  /-- FLT_REACT_SET (R379). -/
  | fltReactSet (r : Req)
  /-- FLT_LOCK (R380). -/
  | fltLock (r : Req)
  /-- FLT_BLOCK_RELEASE (R378). -/
  | fltBlockRelease (r : Req)
  /-- UNCORR_READ (R384). -/
  | uncorrRead (r : Req)
  /-- FLT_RECORD_READ (R386). -/
  | fltRecordRead (r : Req)
  /-- FLT_INJECT (R389). -/
  | fltInject (r : Req)
  /-- SAFE_ISLAND_POWER_UP (R405). -/
  | safeIslandPowerUp (swT swC : W16)
  /-- SAFE_ISLAND_BOOT_DONE (R405). -/
  | safeIslandBootDone (selfTestsOk : Bool)
  /-- SAFE_ISLAND_BOOT_TIMEOUT (R405). -/
  | safeIslandBootTimeout
  /-- VDD_SAFE_LOSS (R393). -/
  | vddSafeLoss
  /-- ISLAND_TICK (R406). -/
  | islandTick (srb : BitVec 4) (srstHigh : Bool)
  /-- TEST_PULSE (R394). -/
  | testPulse (tpo : Fin 8) (reached : Bool) (stuckHigh crossLow : W16)
  /-- INPUT_RECOGNISED (R396): the levels of the input at its latest samples, one every 100 us, the newest first. -/
  | inputRecognised (input : Fin 16) (samples : List Bool)
  /-- DISCREPANCY_TIMEOUT (R397). -/
  | discrepancyTimeout (pair : Fin 8)
  /-- TWO_HAND_TIMEOUT (R398). -/
  | twoHandTimeout
  /-- RESET_PRESS_RELEASE (R400). -/
  | resetPressRelease
  /-- RESET_STUCK (R400). -/
  | resetStuck
  /-- CONFIG_CHANGE (R399). -/
  | configChange (swT swC : W16)
  /-- READBACK_TIMEOUT (R403). -/
  | readbackTimeout (output : Fin 4)
  /-- OUTPUT_TEST_PULSE (R404). -/
  | outputTestPulse (output : Fin 4) (seenLowThenHigh : Bool)
  /-- SAFE_DIAG_FAIL (R405). -/
  | safeDiagFail
  /-- SAFE_STATUS_UPDATE (R407). -/
  | safeStatusUpdate
  /-- SAFE_LIVE_TIMEOUT (R407). -/
  | safeLiveTimeout
  /-- SAFE_STATUS_READ (R409). -/
  | safeStatusRead (r : Req)
  /-- SAFE_CONFIG_READ (R409). -/
  | safeConfigRead (r : Req)
  /-- SAFE_LOG_READ (R409). -/
  | safeLogRead (r : Req)
  /-- SAFE_WRITE_OPCODE (R409). -/
  | safeWriteOpcode (low : Fin 64) (r : Req)
  /-- SYS_RESET (R415). -/
  | sysReset (r : Req)
  /-- BOOT_INFO (R432). -/
  | bootInfo (r : Req)
  /-- CONFIG_WRITE (R425). -/
  | configWrite (r : Req)
  /-- CONFIG_READ (R432). -/
  | configRead (r : Req)
  /-- FW_IMAGE_WRITE (R426). -/
  | fwImageWrite (r : Req)
  /-- FLASH_ERASE_DONE (R432). -/
  | flashEraseDone
  /-- FW_IMAGE_CHECK (R426). -/
  | fwImageCheck (r : Req)
  /-- FW_ACTIVATE (R426). -/
  | fwActivate (r : Req)
  /-- FW_COMMIT (R426). -/
  | fwCommit (r : Req)
  /-- PALETTE_LOAD (R427). -/
  | paletteLoad (r : Req)
  /-- TEST_UNLOCK (R427). -/
  | testUnlock (r : Req)
  /-- UNIT3_REQUEST_DONE (R421). -/
  | unit3RequestDone (readOk : Bool) (image : Bytes)
  /-- PUSH_GO (R423). -/
  | pushGo (image : Bytes)
  /-- PUSH_CHUNK_GO (R423). -/
  | pushChunkGo (last : Bool)
  /-- PUSH_COMPLETE (R423). -/
  | pushComplete
  /-- QUIET_DECLARE (R428). -/
  | quietDeclare (r : Req)
  /-- QUIET_CANCEL (R428). -/
  | quietCancel (r : Req)
  /-- CLK_CALIBRATE (R429). -/
  | clkCalibrate (r : Req)
  /-- CALIBRATION_DONE (R429). -/
  | calibrationDone (errors : List Int)
  /-- SELFTEST_STATUS (R432). -/
  | selftestStatus (r : Req)
  /-- SELFTEST_BANK_DONE (R430). -/
  | selftestBankDone (bank : Fin 24) (passed : Bool)
  /-- THERM_WARN (R443). -/
  | thermWarn (asserted : Bool)
  /-- THERM_TRIP (R444). -/
  | thermTrip
  /-- THERM_TRIP_RELEASE (R444). -/
  | thermTripRelease
  /-- JTAG_INSTRUCTION (R461). -/
  | jtagInstruction (ir : Nat) (drivesPins : Bool)
  /-- LANE_IO_RAILS_RETURN (R412). -/
  | laneIoRailsReturn (straps : Byte) (testMode : Bool)
  /-- PCIE_LINK_TRAINED (R414). -/
  | pcieLinkTrained
  deriving DecidableEq, Repr

end Sys2Proof
end

