-- ==== Sys2Proof/Config.lean ====
section
/-! DEFINITION. What one die fixes and what the spec leaves open: constants without a body, so that no proof can
see their values. -/

namespace Sys2Proof.Config

/-- CHIP_ID.STEPPING, "per die" (Table HCP-16). -/
opaque stepping : Byte

/-- The security version fused at production, 0-63 (R421 check 5); FW_COMMIT may raise it (State.boot.secVersion). -/
opaque fusedSec : BitVec 6

/-- Whether fused key slot k is revoked (R421 check 4). -/
opaque keyRevoked : Nat → Bool

/-- Ed25519 verification of a message under fused key slot k with a signature (R420): RFC 8032's function, not
repeated by the spec; left uninterpreted. -/
opaque verify : Nat → Bytes → Bytes → Bool

/-- Whether entry i of the quarter-wave sine table of R212 is the integer above sin(2π i / 2^20) · (2^17 − 1) or the one
below: the rule says "scaled to 2^17 − 1" and not how the entries are rounded. -/
opaque sineUp : Nat → Bool

/-- Raw line bits that a capture at no alignment returns (R154): index drawn, lane and word. -/
opaque lineBits : Nat → BitVec 64

/-- Bits checked and errors counted by a running PRBS checker since its last event (R159), by draw. -/
opaque prbsErrors : Nat → W64

/-- A value the spec does not state for a payload or a field, by draw. -/
opaque freeWord : Nat → W64

/-- The literal runs and matches into which a DICT encoder cuts a block behind a history: pairs of a length and a distance, 0 for
a literal run. Which matches it takes is open (R307). -/
opaque dictParse : Bytes → Bytes → List (Nat × Nat)

/-- What unit 3, which checks no codes, writes for a payload whose codes are illegal (R317): wrong bytes, which the spec does not
state. -/
opaque loaderBytes : Bytes → Bytes

/-- The servo's integrator after an estimate: from the integrator, the offset e and the source's frequency (R113, R120 name the
firmware's servo and leave its filter open). -/
opaque servoInteg : Int → Int → Int → Int

/-- The target rate word that the servo asks for: from the integrator, the offset e and the source's frequency. -/
opaque servoRate : Int → Int → Int → Int

end Sys2Proof.Config
end

