-- ==== Sys2Proof/Machine/State.lean ====
section
/-! DEFINITION. The state of the CHT7256 hub: every register, log, queue, counter and mode the spec names,
as plain data, and the state right after reset. Objects that the hub has many of (lanes, channels, pipes,
streams, ...) stand in tables that list only what differs from the object's `init` value. -/

namespace Sys2Proof.Machine

/-- Why a command stops the machine. -/
inductive Fault where
  /-- FAULT_DETECT names a source that Table FLT-4 does not give the block (R382: "and no others"): no such
  event exists. Raised by FAULT_DETECT only. A safe stop: the model stops where the hub has no event. -/
  | noSuchSource
  deriving DecidableEq, Repr

/-- Why the model gives no answer. -/
inductive Refusal where
  /-- The arm of a row that has no meaning yet (raised by the dispatcher only; a safe stop). -/
  | notModelled (mnemonic : String)
  deriving DecidableEq, Repr

/-! ## Small shared records -/

/-- A job whose completion notice is owed (R58): the mailbox, host_seq, opcode and tag of its request and the
notification slot it holds. -/
structure JobRef where
  mb : Nat
  hostSeq : W32
  opcode : Nat
  tag : W32
  slot : Nat
  deriving DecidableEq, Repr

/-- What leaves the chip as the effect of one command. -/
inductive Emission where
  | ringWrite (mb slot : Nat) (frame : Bytes)        -- a response or notice written into host memory
  | datagram (peer : Bytes) (port : Nat) (fragments : List Bytes)
  | spiRead (data : Bytes)
  | barRead (offset : Nat) (data : Bytes)
  | unsupported (offset : Nat)                       -- an unsupported-request completion (R37)
  | msix (vector : Nat)
  | uplinkFrame (port : Nat) (frame : Bytes) (aborted : Bool)
  | remoteFault (port : Nat) (sends : Bool)          -- a port begins, or ends, sending a remote fault sequence (R361)
  | ptp (port : PtpPort) (transport vlan : Nat) (zeroChecksum : Bool) (msg : Bytes)
  | esmc (port : Nat) (ql : Nat)
  | easel (link : Nat) (blocks : List Bytes)         -- the message blocks of a heartbeat
  | snapshot (link : Nat) (handover : Option W16) (blocks : List Bytes)   -- with the hand-over mark for a partner (R134)
  | bglMarker (link : Nat) (lanes : List Nat) (block : Bytes)   -- the marker, on each lane that sends
  | bglTraining (link : Nat) (blocks : List Bytes)   -- the training block of each logical lane, sent between the markers
  | prbsFlip (lane : Nat)                            -- one transmitted bit of the pattern is flipped (R158)
  | bglFrames (link : Nat) (frames : List (Bytes × Bytes))      -- header and message block of each frame of an interval
  | dclk (output : Nat) (edge64 : Int)               -- first rising edge after a restart, in 2^-16 ns
  | frameSync (port : Nat) (edge64 : Int) (activeLow : Bool)    -- first FS edge after a start
  | syncHigh (output : Nat) (at_ : Int)              -- SYNC~ goes high during an alignment
  | ppsEdge (at_ : Int) (widthNs : Nat) (truncates : Bool)   -- a rising edge; it ends a pulse that is still high (R86)
  | sysref (output : Nat) (edge64 : Int)             -- rising edge, in 2^-16 ns
  | trigPulse (output : Nat) (at_ : T16) (widthNs : Nat)
  | tpoPulse (tpo : Nat)                             -- a test-pulse output goes low for 400 us
  | hostWrite (addr : Nat) (data : Bytes)            -- dump or job output in host memory
  | flashWrite (offset : Nat) (data : Bytes)
  deriving DecidableEq, Repr

/-- The slots and pages a run of samples is made of: one sample, real and imaginary part (0 for real data). -/
abbrev Smp := Int × Int

/-! ## Chip state, power and boot (01_architecture, 16_power_boot, 17_electrical, 18_package) -/

/-- What the chip state of Table ARCH-6 is computed from: READY, RUNNING and DEGRADED are `serving`, told apart
by the enables and the conditions of Table ARCH-8 (R25). -/
inductive Phase where
  | off | reset | boot | serving | safe
  deriving DecidableEq, Repr

/-- Which rails are within limits (R410, R411). -/
structure Rails where
  aon : Bool := false
  safe : Bool := false
  core : Bool := false
  sram : Bool := false
  sda : Bool := false
  sdh : Bool := false
  io18 : Bool := false
  io33 : Bool := false
  deriving DecidableEq, Repr

structure Chip where
  phase : Phase
  bootStatus : Nat := 0              -- Table HCP-17 BOOT_STATUS, 3 bits
  testMode : Bool := false           -- TEST_MODE latched at BOOT
  straps : Byte := 0                 -- STRAP0-7 latched at BOOT (Table BOOT-3)
  hubId : W16 := 0                   -- CHIP_ID.HUB_ID
  heartbeat : W32 := 0               -- FW_HEARTBEAT
  beatTick : Nat := 0                -- TIME tick of its last change (R31)
  fwRunning : Bool := false          -- the firmware has started
  fwStalled : Bool := false          -- cause bit 2 of Table ARCH-8
  rails : Rails := {}
  resetNLow : Bool := true           -- level of RESET_N
  resetTick : Nat := 0               -- tick on which the present reset began (its 20 us hold, R414)
  holdBreach : Bool := false         -- RESET held by a breach of the rail order (R412)
  holdRails : Bool := false          -- RESET held by a lane or I/O rail loss (R412)
  dspLocked : Bool := true           -- DSP PLL locked (R16)
  owedHoldover : Bool := false       -- HOLDOVER_BY_RESET is set when the core region leaves RESET (Table TIME-4)
  pcieUp : Bool := false             -- PCI Express link in L0 (R414)
  bootTick : Nat := 0                -- tick of entry to BOOT (boot watchdog, R29)
  thermWarn : Bool := false          -- THERM_WARN_N asserted (R443)
  thermTrip : Bool := false          -- THERM_TRIP_N latched (R444)
  jtagIr : Nat := 0                  -- IEEE 1149.1 instruction register (R461)
  sysResetOwed : Bool := false       -- SYS_RESET answered, the chip reset follows the response (R415)
  deriving DecidableEq, Repr

/-- One copy of the boot directory (R419). -/
structure Directory where
  slot : Bool                        -- preferred slot: false A, true B
  trial : Bool
  seq : W32
  deriving DecidableEq, Repr

/-- An image slot in flash (R426). -/
structure ImageSlot where
  written : Bool := false            -- written since its last check
  reason : Option Nat := none        -- code of its last check, Table BOOT-6
  sec : Nat := 0                     -- sec_version read by that check
  version : W32 := 0
  header : Bytes := List.replicate 32 0xFF  -- its first 32 bytes as last read or written; erased flash reads 0xFF
  deriving DecidableEq, Repr

/-- The request that unit 3 works on (R421, R426, R427). -/
structure Unit3 where
  opcode : Nat
  slot : Nat                         -- flash slot, for FW_IMAGE_CHECK
  address : Nat
  length : Nat
  pages : Nat                        -- staging pages charged (Table ADM-2 bit 3)
  job : JobRef
  deriving DecidableEq, Repr

/-- A declared quiet window (R428). -/
structure Quiet where
  start : T16
  stop : T16
  isOpen : Bool := false
  deriving DecidableEq, Repr

/-- A calibration accepted or deferred and not ended (R429). -/
structure Calib where
  mask : W32
  window : Nat                       -- quiet window that it runs in or awaits; 8 while none is declared
  job : JobRef
  deriving DecidableEq, Repr

structure Boot where
  tries : Nat := 0                   -- BOOT_TRIES, always-on region
  slotBooted : Nat := 0xFF           -- 0 A, 1 B, 0xFF after a push
  slotTrying : Nat := 0              -- slot the sequencer is loading
  triedBoth : Bool := false
  loaded : Bool := false             -- firmware decoded, cores started
  reasonA : Nat := 0
  reasonB : Nat := 0
  trial : Bool := false
  rolledBack : Bool := false
  seqError : Bool := false
  unlocked : Bool := false           -- test unlock (R389)
  secVersion : Nat := 0              -- fused security version as raised by FW_COMMIT
  fwVersion : W32 := 0
  fwSec : Nat := 0                   -- sec_version of the running image
  dir0 : Option Directory := none
  dir1 : Option Directory := none
  cfg0 : Option Bytes := none        -- configuration record copies in flash (valid copies only)
  cfg1 : Option Bytes := none
  cfgUse : Bytes := []               -- record in use; empty: the all-zero record (R424)
  slotA : ImageSlot := {}
  slotB : ImageSlot := {}
  erasing : Option (Nat × JobRef) := none
  unit3 : Option Unit3 := none
  pushAddr : W64 := 0                -- Table BOOT-7
  pushLen : W32 := 0
  chunkLen : W16 := 0
  chunkOff : W32 := 0
  dataWindow : List Host.Cell := []  -- SPI data window, 61,440 bytes
  pushGo : Bool := false
  pushLast : Bool := false
  pushState : Nat := 0               -- 0 IDLE, 1 BUSY, 2 ACCEPTED, 3 REJECTED
  pushReason : Nat := 0
  pushImage : List Host.Cell := []   -- image staged by a push
  pushEnd : Nat := 0                 -- its length
  quiet : Tbl Quiet := []            -- windows 0-7
  calib : Option Calib := none
  selfFailed : BitVec 24 := 0        -- FAILED banks (R430)
  selfTesting : BitVec 24 := 0       -- place of the rotating bank test
  selfPasses : W32 := 0
  selfLast : T16 := 0
  deriving DecidableEq, Repr

/-! ## Mailboxes (02_mailboxes) -/

/-- SESSION of MB_STATUS (Table HCP-5). -/
inductive Session where
  | closed | opened | paused
  deriving DecidableEq, Repr

/-- A response or notice that waits to be written to its mailbox. `slot` is the notification slot that the
writing of a completion notice returns (R58). -/
structure Entry where
  isNotice : Bool
  hubSeq : W32
  frame : Bytes
  slot : Option Nat := none
  deriving DecidableEq, Repr

/-- The stored response of the last accepted request, for replay (R55). -/
structure Stored where
  opcode : Nat
  status : Nat
  tag : W32
  detail : W32
  payload : Bytes
  deriving DecidableEq, Repr

structure Mailbox where
  enable : Bool := false
  v2 : Bool := false
  pause : Bool := false
  irqEn : Bool := false
  session : Session := .closed
  seqSet : Bool := false
  ringErr : Bool := false
  version2 : Bool := false
  reqBase : W64 := 0
  rspBase : W64 := 0
  reqPi : W16 := 0
  reqCi : W16 := 0
  rspPi : W16 := 0
  rspCi : W16 := 0
  lastSeq : W32 := 0xFFFFFFFF        -- last accepted host_seq (Table HCP-18)
  lastCrc : W32 := 0
  stored : Option Stored := none
  hubSeq : W32 := 0                  -- NEXT_HUB_SEQ
  mask : W16 := 0                    -- subscription mask
  lost : W32 := 0                    -- lost-notice counter
  lostOwed : Bool := false           -- a NOTICES_LOST notice is owed (R60)
  waiting : List Entry := []         -- generated, not yet written, in hub_seq order
  slots : List Nat := []             -- notification slots not returned to the ledger
  deriving DecidableEq, Repr

/-- An entry of the notice log (R60). `pinSlot`: it sits in the reserve entry of that notification slot of its
mailbox. `pinWait`: an unsolicited notice that waits to be written. -/
structure LogEntry where
  mb : Nat
  hubSeq : W32
  frame : Bytes
  pinSlot : Option Nat
  pinWait : Bool
  deriving DecidableEq, Repr

/-- A partially received datagram (R44). -/
structure Partial where
  src : Bytes
  id : Nat
  parts : List (Nat × Bool × Bytes)  -- offset, more fragments, data
  since : Nat                        -- tick of the first fragment
  deriving DecidableEq, Repr

/-- A notice that waits for the firmware to run again (R101, R374). -/
inductive Held where
  | unsolicited (opcode : Nat) (payload : Bytes)
  | completion (job : JobRef) (status detail : Nat) (payload : Bytes)
  deriving DecidableEq, Repr

/-- The MSI-X table at reset: every vector masked and all else 0, as PCI Express resets it (PRESUMED, log entry 5). -/
def msixReset : List Host.Cell := (List.range 9).map fun v => (16 * v + 12, 1)

structure Hcp where
  held : List Held := []             -- oldest first
  mbs : Tbl Mailbox := []            -- mailboxes 0-9
  served : Nat := 9                  -- mailbox served last (R57)
  log : List LogEntry := []          -- oldest first
  msixTable : List Host.Cell := msixReset   -- nine vectors of 16 bytes (Table HCP-2)
  pba : BitVec 9 := 0                -- MSI-X pending bits
  captured : T16 := 0                -- Hub Time held in TIME_NOW0-3 (R68)
  capturedQ : Quality := .unset
  spiGo : Bool := false
  spiReady : Bool := false
  spiReq : List Host.Cell := []
  spiRsp : List Host.Cell := []
  peer : Option (Bytes × Nat) := none    -- address and port for mailbox 8 notices (R45)
  mgmtQueue : List (Bytes × Nat × Bytes) := []  -- frames received for mailbox 8
  replyTo : Option (Bytes × Nat) := none -- source of the request being answered
  partials : List Partial := []
  mgmtErrors : W32 := 0
  deriving DecidableEq, Repr

/-! ## Hub Time and the event calendar (03_hub_time) -/

structure TrigIn where
  mode : Nat := 0                    -- 0 off, 1 rising, 2 falling, 3 both
  skew : Int := 0
  last : Option T16 := none          -- last stamped edge
  fifo : List (T16 × Bool) := []     -- stamp, falling
  overflow : W32 := 0
  deriving DecidableEq, Repr

structure TimeSt where
  sec : Nat := 0
  ns : Nat := 0
  frac40 : Nat := 0
  rateTarget : W48 := 0x010000000000#48
  rateEff : W48 := 0x010000000000#48
  slewTicks : Nat := 0               -- ticks since the target was last written (R75)
  quality : Quality := .unset
  lease : Nat := 0                   -- lock lease left, in TIME ticks (R82)
  refLost : Bool := false
  tpllUnlock : Bool := false
  ppsLost : Bool := false
  ppsWidth : Nat := 100000000
  outSkew : Int := 0
  inFalling : Bool := false
  inSkew : Int := 0
  ppsCount : W32 := 0
  ppsStamp : T16 := 0
  ppsRaw : Option T16 := none        -- crossing of the last stamped edge (8 ns rule, R87)
  ppsTick : Nat := 0                 -- tick of the last stamped edge
  ppsOver : W32 := 0
  secMiss : Nat := 0                 -- consecutive PPS_IN edges with another PTP second count (R121)
  lastPulse : Int := 0               -- the second boundary PPS_OUT marked last
  pulseEnd : Nat := 0                -- tick on which the present PPS_OUT pulse ends
  stepTime : T16 := 0
  stepCount : W32 := 0
  stepNs : Int := 0
  stepFrac : W16 := 0
  trig : Tbl TrigIn := []            -- TRIG_IN0-7
  deriving DecidableEq, Repr

/-- What a calendar entry does when it fires (Table TIME-7). -/
inductive Action where
  | offsetStep (ns : Int) (frac : W16)
  | rateChange (word : W48)
  | swap (pipe : Nat)
  | retune (pipe : Nat) (w : W48) (setPhase : Bool) (p : W32)
  | dclk (output : Nat) (en : Bool) (phase freq : Nat)
  | sysref (output : Nat)
  | segment (channel : Nat) (start : T16)
  | capArm (window : Nat)
  | capDisarm (window : Nat) (abort : Bool)
  | capTrigger (window cond : Nat)
  | trigOut (output : Nat)
  | chanStart (first count : Nat)
  | chanStop (first count : Nat)
  | pipeStart (first count : Nat)
  | pipeStop (first count : Nat)
  | heartbeat
  | quietOpen (id : Nat)
  | quietClose (id : Nat)
  | handover (hubId : W16)
  deriving DecidableEq, Repr

/-- A calendar entry (R91). `period` 0 marks a one-shot entry; `reps` counts the occurrences left, none meaning
until cancelled. `fw` entries sit in the firmware's reserve of 32 (R90). -/
structure CalEntry where
  time : T16
  cls : Nat
  ins : Nat
  action : Action
  period : Nat := 0
  reps : Option Nat := none
  job : Option JobRef := none
  fw : Bool := false
  deriving DecidableEq, Repr

/-- A hardware fire record (Table TIME-9, R101) with the request it completes and that opcode's own
completion payload. -/
structure FireRec where
  ins : Nat                          -- insertion number of its entry
  time : T16
  outcome : Nat
  cls : Nat
  chipState : Nat
  job : Option JobRef
  extra : Bytes
  deriving DecidableEq, Repr

structure Calendar where
  entries : List CalEntry := []
  nextIns : Nat := 0
  fired : W32 := 0
  afterStep : W32 := 0
  discarded : W32 := 0
  fireLog : List FireRec := []
  deriving DecidableEq, Repr

/-! ## Time transfer and the keeper pair (04_time_transfer) -/

/-- Table XFER-3. -/
inductive Role where
  | host | standalone | keeper | partner | follower
  deriving DecidableEq, Repr

/-- Table XFER-14. -/
inductive Servo where
  | idle | acquire | stepPending | steer | track | holdover
  deriving DecidableEq, Repr

/-- Table XFER-12 settings of one PTP port, and its counters (R107, R109). -/
structure PtpCfg where
  settings : Bytes := []             -- the twelve bytes of Table XFER-12; empty: disabled
  errors : W32 := 0
  fifo : List (T16 × W16) := []      -- egress stamps with sequenceId, at most 16
  stampsLost : W32 := 0
  received : List (T16 × Bytes) := []-- stamped messages passed to the firmware, newest first
  deriving DecidableEq, Repr

/-- What was last heard on an Easel link (Table XFER-6). `ago`: slots since a valid frame arrived. -/
structure EaselHeard where
  frame : Bytes := []
  arrival : T16 := 0
  ago : Nat := 3
  deriving DecidableEq, Repr

/-- A phase record of a lane (Table XFER-13). -/
structure Phase12 where
  valid : Bool := false
  slip : Bool := false
  phase : BitVec 21 := 0
  time : T16 := 0
  freq : Int := 0
  deriving DecidableEq, Repr

structure Xfer where
  roleCfg : Role := .host
  roleAct : Role := .host
  refMode : Nat := 0
  priority : Byte := 255
  easel : Byte := 0
  holdoverLimit : W32 := 0
  domain : Byte := 0
  servo : Servo := .idle
  e : Int := 0
  integ : Int := 0
  gmId : W64 := 0
  gmPort : W16 := 0
  mismatch : Bool := false
  mismatchCount : Nat := 0
  clamped : Bool := false
  qualCount : Nat := 0               -- consecutive estimates with a qualified source
  lockCount : Nat := 0               -- consecutive estimates that meet the lock criterion
  bigCount : Nat := 0                -- consecutive estimates with |e| > 1 us in TRACK
  holdoverTick : Nat := 0            -- tick of entry to servo HOLDOVER
  ptp : Tbl PtpCfg := []             -- uplink 0-47, management 48, Bamgiusk Link 64 + n
  asym : Tbl Bytes := []             -- asymmetry entries 0-31, 16 bytes each
  heard : Tbl EaselHeard := []       -- Easel links 0-7
  following : Bool := false
  hubIdF : W16 := 0
  priorityF : Byte := 0
  missed : Nat := 0
  snaps : List Bytes := []           -- last two snapshots stored, newer first
  snapsWait : List Bytes := []       -- snapshots that await the firmware of a stalled hub, newer first (R128)
  snapSeq : W16 := 0
  snapTime : T16 := 0
  takeovers : W32 := 0
  stepbacks : W32 := 0
  listening : Bool := false
  listenTick : Nat := 0
  heardKeeper : Bool := false
  handoverTo : Option W16 := none    -- partner that a fired hand-over waits for
  handoverSlots : Nat := 0
  handoverJob : Option FireRec := none  -- the hand-over whose completion notice waits for its result (R134)
  phases : Tbl Phase12 := []         -- lanes 0-159
  esmcRx : Tbl Nat := []             -- quality level received per uplink port
  qlSource : Nat := 0                -- quality level heard last on a receive-source port
  qlHeard : Bool := false            -- one has been heard
  deriving DecidableEq, Repr

/-! ## Lanes (05_lanes) -/

structure Prbs where
  tx : Nat := 0
  rx : Nat := 0
  locked : Bool := false
  inverted : Bool := false
  losses : W32 := 0
  bits : W64 := 0
  errors : W64 := 0
  since : T16 := 0
  countTick : Nat := 0               -- tick up to which the checked bits are counted
  deriving DecidableEq, Repr

structure Lane where
  protocol : Nat := 0
  rate : Nat := 0                    -- kbit/s
  txInvert : Bool := false
  pre : Nat := 0
  main : Nat := 0
  post : Nat := 0
  txPower : Nat := 2                 -- Table LANE-5: 0 ACTIVE, 1 STANDBY, 2 OFF
  rxPower : Nat := 2
  txWaking : Bool := false
  rxWaking : Option Nat := none      -- waking from STANDBY (1) or OFF (2)
  signal : Bool := false
  cdr : Bool := false
  aligned : Bool := false
  inverted : Bool := false
  reeq : Option JobRef := none
  losses : W32 := 0
  codeErrors : W32 := 0
  ctle : Byte := 0
  eyeH : Byte := 0
  eyeV : Byte := 0
  slip : Nat := 0                    -- bit-slip offset (R154)
  prbs : Prbs := {}
  deriving DecidableEq, Repr

/-- Table LANE-4. -/
inductive BglState where
  | disabled | locking | training | deskew | up | rawAlign
  deriving DecidableEq, Repr

structure Bgl where
  state : BglState := .disabled
  mode : Nat := 0
  width : Nat := 0
  start : Nat := 0
  first : Nat := 0
  easel : Nat := 0
  rate : Nat := 0
  linkId : Byte := 0
  wiring : Bytes := []
  reversed : Bool := false
  mismatch : Bool := false
  wiringWait : Option Nat := none    -- tick on which the 10 ms wait began
  readyTx : Bool := false
  readyRx : Bool := false
  skew : W16 := 0
  sender : W16 := 0
  downs : W16 := 0
  upTime : T16 := 0
  stateTick : Nat := 0
  out1 : List Bytes := []            -- message blocks queued on stream 1 (R178)
  lastMarker : Nat := 0              -- number of the marker sent last
  msgBad : W32 := 0                  -- messages discarded for a failed check (R178)
  msgLong : W32 := 0                 -- BGL_MESSAGE_IN bodies dropped
  deriving DecidableEq, Repr

/-! ## Inputs and channels (06_inputs) -/

structure Dclk where
  enabled : Bool := false
  freq : Nat := 0                    -- 0: none programmed since chip reset
  phase : Nat := 0
  held : Bool := false               -- held low before a restart
  started : Nat := 0                 -- counts the starts (R183)
  deriving DecidableEq, Repr

structure Sref where
  mode : Nat := 0
  width : Nat := 0
  dclk : Nat := 0
  lead : Nat := 2048
  count : Nat := 0
  first : T16 := 0
  period : Nat := 0
  pulsed : List Nat := []            -- `started` of every device clock at the last pulse emitted
  pulseNo : Nat := 0                 -- pulses emitted so far, all configurations
  deriving DecidableEq, Repr

/-- Table INP-6. -/
inductive LinkState where
  | unconfigured | configured | aligning | aligned | lost
  deriving DecidableEq, Repr

/-- What the three kinds of input link share (Table INP-14). -/
structure LinkBase where
  state : LinkState := .unconfigured
  wasLost : Bool := false            -- ALIGNING was entered from LOST
  flags : Byte := 0
  release : Nat := 0                 -- ns
  measured : Bool := false           -- a measured release latency is held (R264)
  boundary : T16 := 0
  lats : List Int := []              -- present lane latencies, 2^-16 ns
  latsAligned : List Int := []       -- those at alignment, which R184 measures a shift against
  errors : W32 := 0
  badFrames : W32 := 0
  losses : W32 := 0
  alignTick : Nat := 0
  job : Option JobRef := none
  deriving DecidableEq, Repr

structure Jesd where
  base : LinkBase := {}
  version : Nat := 0
  l : Nat := 0
  m : Nat := 0
  f : Nat := 0
  s : Nat := 0
  n : Nat := 0
  np : Nat := 0
  cs : Nat := 0
  ke : Nat := 0
  flags : Byte := 0
  sync : Nat := 255
  dclk : Nat := 0
  sref : Nat := 0
  q : Nat := 0
  fs : Nat := 0
  lambda : Nat := 0
  lanes : List Nat := []
  pulseMark : Nat := 0               -- `pulseNo` of its SREF output when it was configured
  deriving DecidableEq, Repr

structure BglIn where
  base : LinkBase := {}
  m : Nat := 0
  n : Nat := 0
  cs : Nat := 0
  fs : Nat := 0
  lambda : Nat := 0
  lambdaAux : Nat := 0
  auxMask : W32 := 0
  auxN : Nat := 0
  auxCs : Nat := 0
  auxFs : List Nat := []
  timeLocked : Bool := false         -- the digitiser's flag in the last header (Table INP-3)
  good : Nat := 0                    -- consecutive good frames since LINK_ALIGN
  mark : Option (Int × T16) := none  -- absolute index and arrival of the first frame of the alignment
  nextIndex : Option Int := none     -- absolute index the next frame must begin with
  auxNext : Tbl Int := []            -- next absolute index per auxiliary slot, plus one
  badRun : Nat := 0
  deriving DecidableEq, Repr

structure Scp where
  base : LinkBase := {}
  standard : Nat := 0
  lines : Nat := 0
  slots : Nat := 0
  slotBits : Nat := 0
  n : Nat := 0
  cs : Nat := 0
  flags : Byte := 0
  fs : Nat := 0
  sclk : Nat := 0
  lag : Nat := 0
  checkPos : Nat := 255
  checkMask : W32 := 0
  checkValue : W32 := 0
  testWord : W32 := 0
  slip : Tbl Nat := []               -- bit-slip offset per line
  startFrame : Int := 0              -- the absolute frame that SCLK and FS start on (Table INP-7)
  good : Nat := 0                    -- matching frames in a row while ALIGNING
  badRun : Nat := 0
  deriving DecidableEq, Repr

/-- A delay-model segment (Tables PIPE-2 and PIPE-10). -/
structure Segment where
  start : T16
  lenUs : Nat
  c0 : Int
  c1 : Int
  c2 : Int
  c3 : Int
  released : Bool := false           -- its class-4 entry has fired (R209)
  deriving DecidableEq, Repr

/-- Table INP-8. -/
inductive ChanState where
  | unbound | bound | armed | running | lost
  deriving DecidableEq, Repr

structure Channel where
  state : ChanState := .unbound
  kind : Nat := 0
  source : Nat := 0
  position : Nat := 0
  offBin : Bool := false
  fs : Nat := 0
  cal : Nat := 0                     -- C, 2^-16 ns
  epoch : Nat := 0                   -- seconds of E
  kFirst : Int := 0
  kNext : Int := 0
  kLast : Option Int := none         -- last index of a stop whose words are still to be released
  startAt : T16 := 0                 -- time of the pending or last start
  substituted : W64 := 0
  overRange : W32 := 0
  substituting : Bool := false
  arrived : List (Int × W32) := []   -- words received for release, by channel index (kinds 2 to 4 of Table INP-1)
  segs : List Segment := []          -- queued segments, in rising start
  activated : List Segment := []     -- segments already active on a pipe, newest first
  expired : Bool := false            -- MODEL_EXPIRED (sticky, cleared by DELAY_STATUS)
  expiredSeg : Option T16 := none    -- start of the segment whose expiry was reported
  deriving DecidableEq, Repr

/-! ## Pipes and palettes (07_channel_pipe, 08_palettes) -/

/-- Table PIPE-5. -/
inductive PipeState where
  | free | bound | armed | running | draining
  deriving DecidableEq, Repr

/-- Table PAL-6. -/
inductive BankState where
  | empty | loaded | pending | preroll | fading
  deriving DecidableEq, Repr

/-- The history of a filter stage's OUTPUT: the next output index it will produce and the outputs before it,
newest first, as far as a later stage can reach back. -/
structure Hist where
  next : Int := 0
  vals : List Smp := []
  deriving DecidableEq, Repr

/-- A swap or fade accepted and not completed (Table PAL-6, Table PAL-11). -/
structure Swap where
  mode : Nat
  k : Nat
  ts : Option T16                    -- scheduled time T_s
  armed : Bool                       -- its calendar entry has fired, or it is immediate
  fire : Option FireRec := none      -- the fire record that its notice begins with
  job : Option JobRef
  landing : Option Int := none
  stampOld : Int := 0
  stampNew : Int := 0
  unsettled : Nat := 0
  deriving DecidableEq, Repr

structure Pipe where
  state : PipeState := .free
  channel : Nat := 0
  profileA : Nat := 0
  profileB : Nat := 0
  bank : BankState := .empty
  mixer : Bool := false
  early : Bool := false
  track : Bool := false
  orAsSat : Bool := false
  orMask : Nat := 0
  align : Nat := 0
  dMax : Nat := 0
  upd : Nat := 4
  format : Nat := 1
  rqShift : Int := 0
  rqTrunc : Bool := false
  rqSym : Bool := false
  rqNext : Option (Int × Bool × Bool) := none  -- REQUANT_SET, from the next packet (R221)
  dcK : Nat := 0
  dcAuto : Bool := false
  dcWindows : W16 := 0
  dcM : Int := 0                     -- estimate, units of 2^-24
  dcPreset : Int := 0
  dcManual : Bool := false
  w : W48 := 0
  p : W32 := 0
  retunes : List (T16 × W48 × Option W32) := []  -- retunes not reached yet, in acting order
  satCount : W32 := 0
  satMask : BitVec 10 := 0
  satSince : Bool := false           -- a stage saturated since the previous output
  delayRange : Bool := false
  rangeTold : Bool := false          -- its PIPE_EVENT has been sent since the last read
  startAt : T16 := 0                 -- T of the pending or last start
  startK : Int := 0                  -- index of the first word consumed
  waiting : Bool := false            -- RUNNING, not begun: it awaits its channel or the end of a block reset
  restart : Bool := false            -- it begins as a restart after a block reset
  nFirst : Int := 0
  nNext : Int := 0
  nLast : Option Int := none         -- last output of a stop
  d : Nat := 0
  phi : Nat := 0
  updates : List (Int × Nat) := []   -- update points (first-stage index, q), newest first
  seg : Option Segment := none       -- segment active on this pipe
  lastM : Int := 0
  lastEval : T16 := 0
  line : List Smp := []              -- delay line, newest first
  lineNext : Int := 0                -- channel index of the next word it takes
  hist : List Hist := []             -- one per filter stage, bank A
  histB : List Hist := []            -- bank B while it computes alongside
  bRun : Nat := 0                    -- outputs that bank B has computed
  orWords : W32 := 0
  orPending : List Int := []         -- over-range words not yet consumed
  orLeft : Nat := 0                  -- outputs still to be marked over-range
  marks : List (Int × Nat) := []     -- unsettled ranges: first output, number
  changes : List Int := []           -- input changes at these indices, first affected output not reached
  bad : List Int := []               -- indices of substituted words that an output may still reach, newest first
  d0 : Nat := 0                      -- coarse delay at the first update point
  swap : Option Swap := none
  lastLanding : Int := 0
  epoch : Byte := 0
  fadeDone : Nat := 0
  deriving DecidableEq, Repr

/-- Table PAL-4. -/
inductive ProfState where
  | empty | staging | valid
  deriving DecidableEq, Repr

structure Profile where
  state : ProfState := .empty
  image : List Host.Cell := []       -- staged or valid image bytes
  extent : Nat := 0                  -- highest staged offset plus length
  deriving DecidableEq, Repr

/-! ## Admission (09_admission) -/

structure Ledger where
  peak : Tbl Nat := []               -- key 4096 * bit + index
  ceiling : Tbl Nat := []            -- ns per stream
  exceeded : Tbl Bool := []          -- BOUND_EXCEEDED per stream
  deriving DecidableEq, Repr

/-! ## Capture (10_capture) -/

/-- Table CAP-4, code 7 RELEASED being the sketch's only. -/
inductive WinState where
  | unconfigured | idle | arming | armed | filling | frozen | dumping
  deriving DecidableEq, Repr

/-- A trigger condition (Table CAP-14) with its running state. -/
structure Cond where
  kind : Nat := 0
  flags : Byte := 0
  pipe : Nat := 0
  length : Nat := 0
  metric : Nat := 0
  input : Nat := 0
  id : Nat := 0
  compMask : Byte := 0
  compK : Nat := 0
  threshold : Nat := 0
  span : Nat := 0
  recent : List (Nat × Bool) := []   -- last L metrics, newest first, with their unsettled marks
  held : Bool := false               -- the comparison held at the previous output
  lastHit : Option Rat := none       -- time of the latest unconsumed hit, for combinations (2^-16 ns)
  deriving DecidableEq, Repr

/-- A hit of a condition: the condition, its exact trigger time in 2^-16 ns and the components of a combination. -/
structure Hit where
  cond : Nat
  time : Rat
  comps : Byte := 0
  deriving DecidableEq, Repr

/-- Table CAP-13. -/
structure Missed where
  time : T16
  cond : Nat
  reason : Nat
  sketch : W32
  deriving DecidableEq, Repr

/-- Table CAP-9. -/
structure CapEvent where
  kind : Nat
  member : Nat
  count : Nat
  index : Int                        -- frame index; the ordinal follows from `first`
  value : Int
  deriving DecidableEq, Repr

/-- Table CAP-8, as it stood at ordinal 0, noted when each frame is written. -/
structure MemberNote where
  member : Nat
  channel : Nat
  cal : Nat
  gamma : Int
  model : Int
  epoch : Byte
  nominal : Bool
  deriving DecidableEq, Repr

/-- What the record keeps of one written frame beside its bytes. -/
structure FrameNote where
  index : Int
  members : List MemberNote := []
  deriving DecidableEq, Repr

/-- A sample that a member has delivered and no frame holds yet. `marked`: a substituted word (RAW) or an unsettled
output (FILTERED). -/
structure Feed where
  index : Int
  value : Smp
  marked : Bool
  note : MemberNote
  deriving DecidableEq, Repr

structure Window where
  state : WinState := .unconfigured
  source : Nat := 0
  flags : Byte := 0
  announceId : Nat := 0
  firstPage : Nat := 0
  pages : Nat := 0
  pre : Nat := 0
  post : Nat := 0
  members : List Nat := []
  conds : Tbl Cond := []
  sketch : W32 := 0
  h : Nat := 0
  armAt : T16 := 0                   -- arm time T
  nArm : Option Int := none          -- n_a
  nNew : Int := 0                    -- n_w
  nTrig : Int := 0
  first : Int := 0
  frozenLast : Int := 0              -- last frame of a frozen record
  writeNext : Int := 0               -- next frame index to write
  capFrom : Int := 0                 -- frame index that stands at the region's first byte
  quality0 : Quality := .unset
  quality1 : Quality := .unset
  cause : Nat := 0
  firstCause : Nat := 0xFF
  causeMask : Byte := 0
  compMask : Byte := 0
  recFlags : W16 := 0
  tTrig : T16 := 0
  tArm : T16 := 0
  tDecide : T16 := 0
  tFreeze : T16 := 0
  missedTotal : W32 := 0
  missedFill : W32 := 0
  missedLog : List Missed := []      -- oldest first, at most 256
  missTold : Bool := false
  uncorr : W32 := 0
  events : List CapEvent := []
  notes : List FrameNote := []       -- newest first
  feeds : List Feed := []            -- delivered samples not yet framed
  pendArm : Bool := false            -- a scheduled arm is pending
  pendDisarm : Bool := false
  delayArm : Option T16 := none      -- an immediate arm takes effect at this time
  delayDisarm : Option (T16 × Bool) := none
  cycle : List Hit := []             -- hits of the present DSP cycle, not judged yet (R280)
  cycleFail : Bool := false          -- the condition state failed its check in this cycle (CONDITION_CHECK, R382)
  decided : Option Nat := none       -- tick of the decision that filled the present sketch
  fw : Nat := 0                      -- f_w, S/s
  epoch : Nat := 0
  format : Nat := 0
  frameBytes : Nat := 0
  deriving DecidableEq, Repr

/-- A running dump (R295). -/
structure Dump where
  window : Nat
  dest : Nat                         -- 0 PCI Express, 1 A, 2 B, 3 A+B
  releaseAfter : Bool
  entry : Nat
  offset : Nat
  length : Nat
  sent : Nat := 0
  rate : Nat
  address : Nat
  portA : Option Nat
  portB : Option Nat
  uncorr : Nat := 0
  job : JobRef
  deriving DecidableEq, Repr

structure TrigOut where
  mode : Nat := 0
  low : Bool := false
  windows : W16 := 0
  count : Nat := 0
  width : Nat := 0
  period : Nat := 0
  first : T16 := 0
  pulseEnd : Nat := 0                -- tick at which the present pulse ends
  syncLow : Bool := false            -- driven low as SYNC~ during an alignment (R172)
  deriving DecidableEq, Repr

structure Cap where
  windows : Tbl Window := []
  memory : List Host.Cell := []      -- capture memory, 192 MiB
  dumps : Tbl (Option Dump) := []    -- dumps 0-3
  trigOut : Tbl TrigOut := []
  netSeen : List (W16 × W32 × Nat) := []  -- sender, sequence, tick of acceptance
  announceSeq : W32 := 0
  netErrors : Tbl Nat := []          -- per port, 48 for the management port
  deriving DecidableEq, Repr

/-! ## Compression (11_compression) -/

structure Job where
  ref : JobRef
  unit : Nat
  op : Nat
  mode : Nat
  format : Nat
  srcKind : Nat
  window : Nat
  chain : Bool
  block : Nat
  src : Nat
  srcLen : Nat
  dst : Nat
  dstCap : Nat
  slot : Nat                         -- job state slot
  sketch : W32 := 0                  -- sketch sequence of a sketch source
  uncorr : Nat := 0                  -- uncorrectable lines met in it
  base : Nat := 0                    -- input consumed before this job (resumed jobs)
  history : Bytes := []
  cancelled : Bool := false
  deriving DecidableEq, Repr

structure CompStream where
  enable : Bool := false
  mode : Nat := 0
  order : Nat := 255
  comp : Nat := 255
  block : Nat := 1
  active : Nat := 0
  orig : W64 := 0
  coded : W64 := 0
  trial : W64 := 0
  blocks : W32 := 0
  stored : W32 := 0
  orders : List Nat := [0, 0, 0, 0]
  recent : List (Nat × Nat × Nat) := []   -- blocks of the last second: tick, original bytes, bytes of PRED-RICE (R313)
  deriving DecidableEq, Repr

structure Comp where
  streams : Tbl CompStream := []
  queues : Tbl (List Job) := []      -- queued jobs per unit, oldest first
  running : Tbl (Option Job) := []
  stopped : Tbl (Option Job) := []   -- STOPPED jobs per state slot
  gens : Tbl Nat := []               -- generation of each job state slot
  stops : Tbl Bytes := []            -- completion payloads of the STOPPED jobs, per state slot
  deriving DecidableEq, Repr

/-! ## Streams (12_streams) -/

/-- Table STRM-1. -/
inductive StreamState where
  | unconfigured | idle | active | closing | emptying
  deriving DecidableEq, Repr

/-- A packet being filled or closed and not yet committed. -/
structure Packet where
  first : Int
  samples : List Smp := []           -- newest first
  count : Nat := 0
  quality : Quality
  unsettled : Nat := 0
  saturated : Bool := false
  fade : Bool := false
  nominal : Bool := false
  epoch : Byte := 0
  time : Int := 0
  model : Int := 0
  cal : Nat := 0
  eos : Bool := false
  closed : Bool := false
  coded : Nat := 0                   -- samples already coded into blocks
  modes : List (Nat × Nat) := []     -- mode and order with which each block has started (R313)
  buffers : List Bytes := []         -- completed blocks waiting in the compressor, oldest first
  moved : Bytes := []                -- payload bytes already in stream memory
  movedHere : Nat := 0               -- bytes of the oldest block already moved
  blocks : Nat := 0
  pages : Nat := 0                   -- credits spent
  deriving DecidableEq, Repr

/-- A committed packet (R331): its bytes from the stream packet header on, and the pages whose claim each group
still holds (R329). -/
structure Committed where
  seq : Nat
  bytes : Bytes
  pages : Nat
  leftA : Nat
  leftB : Nat
  begunA : Bool := false
  begunB : Bool := false
  order : Nat                        -- commit order across all streams (R364)
  deriving DecidableEq, Repr

structure Stream where
  state : StreamState := .unconfigured
  pages : Nat := 0
  perPacket : Nat := 0
  high : Nat := 0
  low : Nat := 0xFFFF
  hitHigh : Bool := false
  hitLow : Bool := false
  creditFault : Bool := false
  holdover : Bool := false           -- HOLDOVER_SINCE_START
  credits : Nat := 0
  peak : Nat := 0
  discOwed : Bool := false           -- the next commit carries DISCONTINUITY
  starved : Bool := false            -- no packet opens until credits for a full one (R330)
  opened : List Packet := []         -- open packet and closed packets not committed, oldest first
  queue : List Committed := []       -- oldest first
  packets : W64 := 0
  bytes : W64 := 0
  rewinds : W32 := 0
  discarded : W32 := 0
  unsettled : W64 := 0
  inA : Bool := false
  inB : Bool := false
  entry : Nat := 0
  portA : Nat := 255
  portB : Nat := 255
  placeA : Option Nat := none        -- port of A while charged (R256)
  placeB : Option Nat := none
  placeC : Option Nat := none        -- compressor while charged
  sendA : Option Nat := none         -- port of A that the queue's packets leave by
  sendB : Option Nat := none
  deriving DecidableEq, Repr

structure Strm where
  streams : Tbl Stream := []
  seqs : Tbl Nat := []               -- next sequence number per stream, always-on region (R333)
  served : Nat := 15                 -- compressor served last (R342)
  coded : List (Nat × Nat) := []     -- completed blocks not yet moved: compressor, stream, in completion order
  order : Nat := 0                   -- commits so far
  deriving DecidableEq, Repr

/-! ## Uplinks (13_uplinks) -/

/-- Table UPL-3. -/
inductive PortState where
  | unconfigured | disabled | down | up
  deriving DecidableEq, Repr

/-- The frame a port is sending. -/
inductive Sending where
  | packet (stream seq left : Nat) (frame : Bytes)
  | dump (frame : Bytes)
  | control (frame : Bytes)
  | message (length : Nat)             -- a PTP or ESMC message of the firmware, shown when it began; its frame's bytes
  deriving DecidableEq, Repr

structure Port where
  state : PortState := .unconfigured
  protocol : Nat := 0
  firstLane : Nat := 0
  addrFlags : Byte := 0
  mac : Bytes := [0, 0, 0, 0, 0, 0]
  ipv4 : Bytes := [0, 0, 0, 0]
  ipv6 : Bytes := [0, 0, 0, 0, 0, 0, 0, 0, 0, 0, 0, 0, 0, 0, 0, 0]
  localFault : Bool := false
  remoteFault : Bool := false
  goodTick : Nat := 0                -- tick since which it may qualify (R361)
  frames : W64 := 0
  bytes : W64 := 0
  aborted : W32 := 0
  downs : W32 := 0
  pause : W32 := 0
  fcs : W32 := 0
  other : W32 := 0
  changed : T16 := 0
  sending : Option Sending := none
  control : List Bytes := []
  dumps : List (Nat × Bytes) := []   -- released dump packets: commit order, frame
  lastControl : Bool := false        -- a control frame has gone since no stream or dump frame waited (R364)
  remoteTx : Bool := false           -- sends a remote fault sequence (R361)
  inbox : List Bytes := []           -- frames passed to the firmware, newest first
  deriving DecidableEq, Repr

structure Upl where
  quadsA : List Nat := []
  quadsB : List Nat := []
  ports : Tbl Port := []
  dests : Tbl Bytes := []            -- entries of Table UPL-4, 80 bytes
  announce : Option Nat := none
  deriving DecidableEq, Repr

/-! ## Faults (14_faults) -/

/-- A gate that a block reset holds on upstream-dependent sources (R381): the unit in reset, the units it feeds by
dependent block, and the tick on which it left reset. -/
structure Gate where
  unit : Nat
  feeds : List (Nat × List Nat)
  left : Option Nat := none
  deriving DecidableEq, Repr

structure FaultBlock where
  sticky : W64 := 0
  firstUnit : Nat := 0
  firstSrc : Nat := 0
  firstValid : Bool := false
  react : Tbl Byte := []             -- reaction bytes that differ from the default
  inReset : List Nat := []
  held : List Nat := []
  starts : List (Nat × T16) := []    -- block resets begun in the last second: unit, Hub Time
  gates : List Gate := []            -- gates that resets of this block hold
  events : List (T16 × Nat × Nat) := []  -- last 16: time, source, unit, oldest first
  deriving DecidableEq, Repr

structure FaultRecord where
  cause : Nat := 0
  again : Bool := false
  wasRead : Bool := false
  testMode : Bool := false
  block : Nat := 0
  source : Nat := 0
  unit : Nat := 0
  time : T16 := 0
  quality : Quality := .unset
  state : Nat := 0
  hubId : W16 := 0
  count : W32 := 0
  chipState : W32 := 0
  copies : Tbl (W64 × W64) := []     -- FAULT_COPY of the blocks that were not all zero
  deriving DecidableEq, Repr

/-- Table FLT-5. -/
structure Uncorr where
  time : T16
  line : UncorrLine
  acked : Bool
  deriving DecidableEq, Repr

/-- A fault event of the present cycle (R373): block, source, unit, and the line of a memory fault. -/
structure Detected where
  block : Nat
  source : Nat
  unit : Nat
  line : Option UncorrLine := none
  deriving DecidableEq, Repr

/-- `detected`: the fault events of the command that runs, not yet acted on; empty between commands. -/
structure Flt where
  detected : List Detected := []
  blocks : Tbl FaultBlock := []
  locked : Bool := false
  record : FaultRecord := {}
  logs : Tbl (List Uncorr) := []     -- per region, oldest first, at most 32
  corrected : Tbl Nat := []          -- corrected-error counter per region (R19)
  outer : Tbl Nat := []              -- outer corrections per region (R21)
  upsets : Tbl Upset := []           -- lines of the memories with flipped bits: key 2^32 * region + address (R18-R23)
  standing : List (Nat × Nat × Nat) := []  -- detected conditions that may persist (R373): block, source, unit
  ledgerBad : Bool := false          -- LEDGER_CHECK since the chip reset (R383)
  deriving DecidableEq, Repr

/-! ## Safety island (15_safety) -/

/-- Table SAFE-6. -/
inductive IslandState where
  | off | boot | run | configFault | lockout
  deriving DecidableEq, Repr

structure Island where
  state : IslandState := .off
  bootTick : Nat := 0
  cycleTick : Nat := 0               -- TIME tick on which the first 20 ms cycle of the test pulses began
  swT : W16 := 0
  swC : W16 := 0
  word : W16 := 0                    -- latched at island boot
  wordValid : Bool := false
  sin : W16 := 0                     -- recognised levels
  discrepancy : Byte := 0            -- latched pair faults
  crossShort : Byte := 0
  stuckHigh : Byte := 0
  openSeen : Byte := 0               -- pairs seen open with the fault's cause gone since a fault was latched (R397)
  stuckNow : W16 := 0                -- inputs that stayed high through their latest own test pulse
  crossNow : Tbl Nat := []           -- per TPO: inputs that its latest pulse pulled low, as a mask
  disagree : Tbl Nat := []           -- TIME tick at which a pair began to disagree, plus one
  readyX : Bool := false
  readyY : Bool := false
  thStarted : Bool := false
  thTimeout : Bool := false
  thOpen : Bool := false             -- both buttons released together since the last start or late onset
  thReleased : Bool := false         -- the same, and since READY was last set (R398)
  thOnset : Option Nat := none       -- TIME tick of the first onset
  srstSeen : Bool := false           -- SRST_N seen high for 100 ms since BOOT
  srstHighSince : Option Nat := none
  pressSince : Option Nat := none    -- TIME tick at which the present press began
  resetStuck : Bool := false
  cfgChanged : Bool := false
  cfgInvalid : Bool := false
  outputFault : Bool := false
  internalFault : Bool := false
  tpoFault : Bool := false
  sout : BitVec 4 := 0
  srb : BitVec 4 := 0
  srbHighSince : Tbl Nat := []       -- TIME tick since which SRBn reads high, plus one
  soutSince : Tbl Nat := []          -- TIME tick of the last change of SOUTn
  presses : W32 := 0
  status : W64 := 0                  -- SAFE_STATUS in the core region
  statusTick : Nat := 0              -- tick of the last update
  log : List (T16 × W64) := []       -- oldest first, at most 64
  overwritten : W32 := 0
  deriving DecidableEq, Repr

/-! ## The whole machine -/

/-- The state of the hub. `pending`: the commands that wait, first in, first out. `tick`: the idle
steps counted, TIME ticks while VDD_AON is held: the measure of every elapsed-time condition. `freeCount`: how many free values have been drawn.
`emitted`: what the latest command sent out of the chip. The last three are the model's own fields. -/
structure State where
  chip : Chip
  boot : Boot := {}
  hcp : Hcp := {}
  time : TimeSt := {}
  cal : Calendar := {}
  xfer : Xfer := {}
  lanes : Tbl Lane := []
  bgls : Tbl Bgl := []
  dclks : Tbl Dclk := []
  srefs : Tbl Sref := []
  jesds : Tbl Jesd := []
  bglIns : Tbl BglIn := []
  scps : Tbl Scp := []
  channels : Tbl Channel := []
  pipes : Tbl Pipe := []
  profiles : Tbl Profile := []
  ledger : Ledger := {}
  cap : Cap := {}
  comp : Comp := {}
  strm : Strm := {}
  upl : Upl := {}
  flt : Flt := {}
  island : Island := {}
  tick : Nat := 0
  freeCount : Nat := 0
  emitted : List Emission := []
  pending : List Instr := []
  deriving DecidableEq, Repr

/-- The machine right after reset: every rail is up and the chip is in RESET with RESET_N asserted, as CHIP_STATE
resets to 0x1 (Table HCP-17); Hub Time counts from 0 with quality UNSET (Table TIME-4); every other field is at the
value that its table's Reset column gives, or that log entry 2 names. -/
def State.reset : State :=
  { chip := { phase := .reset, rails := ⟨true, true, true, true, true, true, true, true⟩ } }

end Sys2Proof.Machine
end

