-- ==== Sys2Proof/Machine/Ops.lean ====
section
/-! DEFINITION. The named operations over tables, byte strings, memories and times, and the accessors of State:
every read and write of an object goes through them. -/

namespace Sys2Proof.Machine

/-! ## Tables and memories -/

/-- Entry k of a table whose unlisted entries are `d`. -/
def tget {α : Type} (d : α) : Tbl α → Nat → α
  | [], _ => d
  | (k', v) :: t, k => if k' = k then v else tget d t k

/-- Lists entry k. -/
def tput {α : Type} : Tbl α → Nat → α → Tbl α
  | [], k, v => [(k, v)]
  | p :: t, k, v => if k < p.1 then (k, v) :: p :: t else if k = p.1 then (k, v) :: t else p :: tput t k v

/-- Writes entry k, keeping the canonical form: keys strictly rise and no entry equals `d`. -/
def tset {α : Type} [DecidableEq α] (d : α) (t : Tbl α) (k : Nat) (v : α) : Tbl α :=
  if v = d then t.filter fun p => p.1 != k else tput t k v

/-- The canonical form from key `lo` on. -/
def twfFrom {α : Type} [DecidableEq α] (d : α) : Nat → Tbl α → Bool
  | _, [] => true
  | lo, (k, v) :: t => decide (lo ≤ k) && decide (v ≠ d) && twfFrom d (k + 1) t

/-- The canonical form of a table. -/
def twf {α : Type} [DecidableEq α] (d : α) (t : Tbl α) : Bool := twfFrom d 0 t

/-- What an unlisted byte of a memory or buffer reads as: 0 (DESIGN CHOICE, log entry 3; Tables HCP-6 and BOOT-7
give 0 for the buffers that have a reset value). -/
def memDefault : Byte := 0

def memGet (m : List Host.Cell) (a : Nat) : Byte := tget memDefault m a

def memSet (m : List Host.Cell) (a : Nat) (b : Byte) : List Host.Cell := tset memDefault m a b

/-- The canonical form of a memory: addresses strictly rise, no byte listed that an unlisted address reads as. -/
def memWf (m : List Host.Cell) : Bool := twf memDefault m

/-- Writes a byte string from address a upwards. -/
def memWrite (m : List Host.Cell) (a : Nat) : Bytes → List Host.Cell
  | [] => m
  | b :: bs => memWrite (memSet m a b) (a + 1) bs

/-- Reads n bytes from address a upwards. -/
def memRead (m : List Host.Cell) (a : Nat) : Nat → Bytes
  | 0 => []
  | n + 1 => memGet m a :: memRead m (a + 1) n

/-! ## Byte strings (R4: little-endian) -/

/-- The n bytes of v, least significant first. -/
def le : Nat → Nat → Bytes
  | 0, _ => []
  | n + 1, v => BitVec.ofNat 8 v :: le n (v / 256)

/-- The number that a byte string spells, least significant byte first. -/
def ofLe : Bytes → Nat
  | [] => 0
  | b :: bs => b.toNat + 256 * ofLe bs

/-- The n bytes of v, most significant first (fields of published standards, R4). -/
def be (n v : Nat) : Bytes := (le n v).reverse

def ofBe (b : Bytes) : Nat := ofLe b.reverse

/-- Two's complement of an integer over n bytes. -/
def leI (n : Nat) (v : Int) : Bytes := le n (v % (2 ^ (8 * n) : Nat)).toNat

def zeros (n : Nat) : Bytes := List.replicate n 0

/-- n bytes from offset o, bytes beyond the end reading 0. -/
def sub (b : Bytes) (o n : Nat) : Bytes :=
  let x := (b.drop o).take n
  x ++ zeros (n - x.length)

def getU (b : Bytes) (o n : Nat) : Nat := ofLe (sub b o n)

/-- The signed value of an unsigned n-bit number. -/
def signed (bits v : Nat) : Int := if v < 2 ^ (bits - 1) then (v : Int) else (v : Int) - (2 ^ bits : Nat)

def getI (b : Bytes) (o n : Nat) : Int := signed (8 * n) (getU b o n)

/-- Whether n bytes from offset o are all 0. -/
def isZero (b : Bytes) (o n : Nat) : Bool := getU b o n == 0

/-- Padding with zeros to n bytes. -/
def padTo (n : Nat) (b : Bytes) : Bytes := b ++ zeros (n - b.length)

/-- A bit of a number. -/
def bit (v n : Nat) : Bool := v.testBit n

def b2n (b : Bool) : Nat := if b then 1 else 0

/-- The number whose bit i is the i-th Boolean. -/
def mask : List Bool → Nat
  | [] => 0
  | b :: bs => b2n b + 2 * mask bs

/-- The numbers below n at which p holds. -/
def below (n : Nat) (p : Nat → Bool) : List Nat := (List.range n).filter p

/-! ## CRC-32C (R50) -/

def crcBit (c : Nat) : Nat := if c % 2 = 1 then (c / 2) ^^^ 0x82F63B78 else c / 2

def crcByte (c : Nat) (b : Byte) : Nat :=
  crcBit (crcBit (crcBit (crcBit (crcBit (crcBit (crcBit (crcBit (c ^^^ b.toNat))))))))

/-- The CRC-32C of a byte string: polynomial 0x1EDC6F41 reflected, initial value and final exclusive-or all ones. -/
def crc32c (b : Bytes) : Nat := (b.foldl crcByte 0xFFFFFFFF) ^^^ 0xFFFFFFFF

/-! ## Times (R70, R72) -/

/-- 2^-16 ns in a second. -/
def unitsPerSec : Nat := 65536000000000

def us10 : Nat := 655360000        -- 10 us in 2^-16 ns

/-- TS80 of Table TIME-1. -/
def ts80 (t : T16) : Bytes := le 6 (t / unitsPerSec) ++ le 4 (t % unitsPerSec / 65536)

/-- TS96 of Table TIME-2. -/
def ts96 (t : T16) : Bytes := ts80 t ++ le 2 (t % 65536)

/-- TS96 of an output's stamp, which the arithmetic of R236 may place before Hub Time 0: there the seconds wrap
(R71). -/
def ts96I (t : Int) : Bytes := ts96 (t % ((2 ^ 48 * unitsPerSec : Nat) : Int)).toNat

/-- Whether ten bytes are a TS80 that R73 allows. -/
def ts80Ok (b : Bytes) : Bool := getU b 6 4 < 1000000000

/-- The time a TS80 spells. -/
def ofTs80 (b : Bytes) : T16 := getU b 0 6 * unitsPerSec + getU b 6 4 * 65536

/-- The time a TS96 spells. -/
def ofTs96 (b : Bytes) : T16 := ofTs80 b + getU b 10 2

/-- Hub Time as reported (R70): bits [39:24] of the internal fraction are the visible fraction. -/
def TimeSt.now (t : TimeSt) : T16 := (t.sec * 1000000000 + t.ns) * 65536 + t.frac40 / 16777216

def State.now (s : State) : T16 := s.time.now

/-- Whole nanoseconds of a time, on which the calendar compares (R94). -/
def nsOf (t : T16) : Nat := t / 65536

/-- The code of Table TIME-3. -/
def qCode : Quality → Nat
  | .unset => 0
  | .free => 1
  | .holdover => 2
  | .locked => 3

/-! ## Rounding (exact rationals) -/

/-- Division rounded half to even, of an integer by a positive number. -/
def rhe (n : Int) (d : Nat) : Int :=
  let q := n / (d : Int)
  let r := n % (d : Int)
  if 2 * r < d then q else if 2 * r > d then q + 1 else if q % 2 = 0 then q else q + 1

def rheR (x : Rat) : Int := rhe x.num x.den

/-- Rounding up. -/
def ceilR (x : Rat) : Int := -((-x.num) / (x.den : Int))

def floorR (x : Rat) : Int := x.num / (x.den : Int)

/-- Division rounded up. -/
def cdiv (a b : Nat) : Nat := (a + (b - 1)) / b

/-- Saturation of an integer to [lo, hi]. -/
def clampI (lo hi x : Int) : Int := if x < lo then lo else if hi < x then hi else x

/-! ## Accessors -/

def State.emit (s : State) (e : Emission) : State := { s with emitted := s.emitted ++ [e] }

/-- Draws a free value: the number of the draw, and the state that has drawn it. -/
def State.draw (s : State) : Nat × State := (s.freeCount, { s with freeCount := s.freeCount + 1 })

def State.mb (s : State) (m : Nat) : Mailbox := tget {} s.hcp.mbs m
def State.setMb (s : State) (m : Nat) (x : Mailbox) : State :=
  { s with hcp := { s.hcp with mbs := tset {} s.hcp.mbs m x } }

def State.lane (s : State) (l : Nat) : Lane := tget {} s.lanes l
def State.setLane (s : State) (l : Nat) (x : Lane) : State := { s with lanes := tset {} s.lanes l x }

def State.bgl (s : State) (l : Nat) : Bgl := tget {} s.bgls l
def State.setBgl (s : State) (l : Nat) (x : Bgl) : State := { s with bgls := tset {} s.bgls l x }

def State.dclk (s : State) (n : Nat) : Dclk := tget {} s.dclks n
def State.setDclk (s : State) (n : Nat) (x : Dclk) : State := { s with dclks := tset {} s.dclks n x }

def State.sref (s : State) (n : Nat) : Sref := tget {} s.srefs n
def State.setSref (s : State) (n : Nat) (x : Sref) : State := { s with srefs := tset {} s.srefs n x }

def State.jesd (s : State) (l : Nat) : Jesd := tget {} s.jesds l
def State.setJesd (s : State) (l : Nat) (x : Jesd) : State := { s with jesds := tset {} s.jesds l x }

def State.bglIn (s : State) (l : Nat) : BglIn := tget {} s.bglIns l
def State.setBglIn (s : State) (l : Nat) (x : BglIn) : State := { s with bglIns := tset {} s.bglIns l x }

def State.scp (s : State) (p : Nat) : Scp := tget {} s.scps p
def State.setScp (s : State) (p : Nat) (x : Scp) : State := { s with scps := tset {} s.scps p x }

def State.chan (s : State) (c : Nat) : Channel := tget {} s.channels c
def State.setChan (s : State) (c : Nat) (x : Channel) : State := { s with channels := tset {} s.channels c x }

def State.pipe (s : State) (p : Nat) : Pipe := tget {} s.pipes p
def State.setPipe (s : State) (p : Nat) (x : Pipe) : State := { s with pipes := tset {} s.pipes p x }

def State.prof (s : State) (p : Nat) : Profile := tget {} s.profiles p
def State.setProf (s : State) (p : Nat) (x : Profile) : State := { s with profiles := tset {} s.profiles p x }

def State.win (s : State) (w : Nat) : Window := tget {} s.cap.windows w
def State.setWin (s : State) (w : Nat) (x : Window) : State :=
  { s with cap := { s.cap with windows := tset {} s.cap.windows w x } }

def State.dump (s : State) (d : Nat) : Option Dump := tget none s.cap.dumps d
def State.setDump (s : State) (d : Nat) (x : Option Dump) : State :=
  { s with cap := { s.cap with dumps := tset none s.cap.dumps d x } }

def State.trigOut (s : State) (o : Nat) : TrigOut := tget {} s.cap.trigOut o
def State.setTrigOut (s : State) (o : Nat) (x : TrigOut) : State :=
  { s with cap := { s.cap with trigOut := tset {} s.cap.trigOut o x } }

def State.trigIn (s : State) (i : Nat) : TrigIn := tget {} s.time.trig i
def State.setTrigIn (s : State) (i : Nat) (x : TrigIn) : State :=
  { s with time := { s.time with trig := tset {} s.time.trig i x } }

def State.cstream (s : State) (n : Nat) : CompStream := tget {} s.comp.streams n
def State.setCstream (s : State) (n : Nat) (x : CompStream) : State :=
  { s with comp := { s.comp with streams := tset {} s.comp.streams n x } }

def State.stream (s : State) (n : Nat) : Stream := tget {} s.strm.streams n
def State.setStream (s : State) (n : Nat) (x : Stream) : State :=
  { s with strm := { s.strm with streams := tset {} s.strm.streams n x } }

def State.port (s : State) (p : Nat) : Port := tget {} s.upl.ports p
def State.setPort (s : State) (p : Nat) (x : Port) : State :=
  { s with upl := { s.upl with ports := tset {} s.upl.ports p x } }

def State.blk (s : State) (b : Nat) : FaultBlock := tget {} s.flt.blocks b
def State.setBlk (s : State) (b : Nat) (x : FaultBlock) : State :=
  { s with flt := { s.flt with blocks := tset {} s.flt.blocks b x } }

/-- Applies a state change for each number of a list, in its order. -/
def forEach {α : Type} (xs : List α) (f : α → State → State) (s : State) : State :=
  xs.foldl (fun t x => f x t) s

/-- The number of TIME ticks in a second. -/
def secTicks : Nat := 1000000000

end Sys2Proof.Machine
end

