-- ==== Sys2Proof/Machine/Flags.lean ====
section
/-! DEFINITION. The status words and codes that are computed from the state: chip state, DEGRADED causes, FAULT_N,
fault sources and their reactions, mailbox status. -/

namespace Sys2Proof.Machine

/-! ## Fault sources (Table FLT-4) -/

/-- A row of Table FLT-4: block, bit, upstream blocks, default reaction byte. -/
structure SourceRow where
  block : Nat
  source : Nat
  up : List Nat
  dflt : Byte

def sourceTable : List SourceRow :=
  [⟨0, 0, [], 0x01⟩, ⟨0, 1, [], 0x01⟩, ⟨0, 2, [], 0x01⟩, ⟨0, 3, [], 0x05⟩, ⟨0, 4, [], 0x05⟩, ⟨0, 5, [], 0x01⟩,
   ⟨0, 6, [], 0x01⟩, ⟨0, 7, [], 0x01⟩,
   ⟨1, 0, [], 0x01⟩, ⟨1, 1, [], 0x05⟩,
   ⟨2, 0, [], 0x01⟩, ⟨2, 1, [4], 0x01⟩, ⟨2, 2, [], 0x01⟩, ⟨2, 3, [4], 0x01⟩,
   ⟨3, 0, [], 0x05⟩, ⟨3, 1, [], 0x05⟩, ⟨3, 2, [], 0x05⟩, ⟨3, 3, [], 0x05⟩, ⟨3, 4, [], 0x24⟩,
   ⟨4, 0, [], 0x01⟩, ⟨4, 1, [], 0x01⟩, ⟨4, 2, [], 0x01⟩, ⟨4, 3, [], 0x05⟩,
   ⟨5, 0, [3, 4], 0x01⟩, ⟨5, 1, [3, 4], 0x01⟩, ⟨5, 2, [4], 0x01⟩, ⟨5, 3, [3], 0x01⟩, ⟨5, 4, [4], 0x01⟩] ++
  [⟨6, 0, [], 0x15⟩, ⟨6, 1, [], 0x01⟩, ⟨6, 2, [5], 0x05⟩,
   ⟨7, 0, [6], 0x05⟩,
   ⟨8, 0, [5, 6], 0x05⟩, ⟨8, 1, [5, 6], 0x01⟩, ⟨8, 2, [], 0x05⟩,
   ⟨9, 0, [6], 0x15⟩, ⟨9, 1, [11], 0x15⟩, ⟨9, 2, [], 0x11⟩,
   ⟨10, 0, [], 0x11⟩, ⟨10, 1, [16], 0x11⟩, ⟨10, 2, [], 0x01⟩,
   ⟨11, 0, [12], 0x05⟩, ⟨11, 1, [9], 0x05⟩,
   ⟨12, 0, [4], 0x01⟩, ⟨12, 1, [11, 14], 0x05⟩,
   ⟨13, 0, [], 0x05⟩,
   ⟨14, 0, [], 0x01⟩, ⟨14, 1, [], 0x01⟩, ⟨14, 2, [], 0x00⟩, ⟨14, 3, [], 0x01⟩, ⟨14, 4, [], 0x01⟩, ⟨14, 5, [], 0x05⟩,
   ⟨15, 0, [], 0x14⟩, ⟨15, 1, [], 0x14⟩, ⟨15, 2, [], 0x20⟩, ⟨15, 3, [], 0x00⟩,
   ⟨16, 0, [], 0x01⟩, ⟨16, 1, [], 0x01⟩, ⟨16, 2, [], 0x01⟩, ⟨16, 3, [], 0x00⟩, ⟨16, 4, [], 0x01⟩]

def findSource : List SourceRow → Nat → Nat → Option SourceRow
  | [], _, _ => none
  | r :: rs, b, n => if r.block = b ∧ r.source = n then some r else findSource rs b n

/-- Whether Table FLT-4 gives block b a source n; RESET_HELD and RESET_DONE exist in every block. -/
def sourceExists (b n : Nat) : Bool :=
  decide (b < 17) && ((findSource sourceTable b n).isSome || n == 62 || n == 63)

def defaultReaction (b n : Nat) : Byte :=
  if n = 62 then 0x05 else if n = 63 then 0x01 else
  match findSource sourceTable b n with
  | some r => r.dflt
  | none => 0

/-- The memory region of the line that a source reports (R22, Table ARCH-5): 0 capture, 1 stream, 2 delay, 3 coefficient and
state, 4 control, 5 engine memory. -/
def lineRegion (b n : Nat) : Option (Fin 6) :=
  if b = 14 ∧ n = 0 then some 0 else if b = 14 ∧ n = 1 then some 1
  else if b = 6 ∧ n = 1 then some 2 else if b = 6 ∧ n = 0 then some 3
  else if b = 15 ∧ n = 1 then some 4
  else if (b = 9 ∧ n = 2) ∨ (b = 10 ∧ n = 0) then some 5 else none

/-- The reaction byte of source n of block b (FLT_REACT n). -/
def State.reaction (s : State) (b n : Nat) : Byte := tget (defaultReaction b n) (s.blk b).react n

/-- The scope of a block reset (Table FLT-1): the unit of the event, the whole block, or not resettable. -/
inductive Scope where
  | byUnit | whole | never
  deriving DecidableEq, Repr

def scopeOf (b : Nat) : Scope :=
  if b ∈ [4, 5, 9, 10, 12, 16] then .byUnit else if b ∈ [0, 1, 13, 14] then .never else .whole

/-- The unit that is counted, reset and held for an event of a unit (R378): unit 0 for a whole block. -/
def resetUnit (b u : Nat) : Nat := if scopeOf b = .byUnit then u else 0

/-- The unit number by which the model marks the DSP-domain reset of R16 in a block's list of units in reset. -/
def dspUnit : Nat := 0x10000

/-- The blocks that the DSP-domain reset resets (R377). -/
def dspBlocks : List Nat := [5, 6, 7, 8, 9, 11]

/-- Whether unit u of block b is in reset or held. -/
def State.inReset (s : State) (b u : Nat) : Bool :=
  let f := s.blk b
  f.inReset.contains (resetUnit b u) || f.held.contains (resetUnit b u) || f.inReset.contains dspUnit

/-- A gate acts on every object of the dependent blocks: the whole block is in reset. -/
def wholeGate (b : Nat) (g : Gate) : Bool := scopeOf b == .whole || g.unit == dspUnit

/-- The units of block b that a gate of another block gates. -/
def Gate.fed (g : Gate) (b : Nat) : List Nat := (g.feeds.filter fun x => x.1 == b).flatMap (·.2)

/-- A source of a unit is gated (R381). -/
def State.gated (s : State) (b n u : Nat) : Bool :=
  match findSource sourceTable b n with
  | some r => r.up.any fun k => (s.blk k).gates.any fun g => wholeGate k g || (g.fed b).contains u
  | none => false

/-- Some source of block b is gated for some unit. -/
def State.gatedNow (s : State) (b : Nat) : Bool :=
  sourceTable.any fun r => r.block == b && r.up.any fun k =>
    (s.blk k).gates.any fun g => wholeGate k g || !(g.fed b).isEmpty

/-- FLT_STATE of Table FLT-2; a unit in HELD has passed its reset (R378). -/
def State.fltState (s : State) (b : Nat) : Nat :=
  let f := s.blk b
  f.firstUnit + f.firstSrc * 2 ^ 16 + b2n f.firstValid * 2 ^ 22
    + b2n (!(f.inReset.isEmpty && f.held.isEmpty)) * 2 ^ 24 + b2n (f.held.any fun u => !f.inReset.contains u) * 2 ^ 25
    + b2n (s.gatedNow b) * 2 ^ 26 + b2n s.flt.locked * 2 ^ 27
    + min 255 (f.starts.filter (fun p => s.now ≤ p.2 + unitsPerSec)).length * 2 ^ 32

/-- FAULT_ANY of Table HCP-15. -/
def State.faultAny (s : State) : Nat := mask ((List.range 17).map fun b => decide ((s.blk b).sticky ≠ 0))

/-! ## Links, groups, enables -/

def linkCode : LinkState → Nat
  | .unconfigured => 0
  | .configured => 1
  | .aligning => 2
  | .aligned => 3
  | .lost => 4

/-- The shared part of an input link: 1 JESD, 2 BGL, 3 SCP (Table INP-14). -/
def State.link (s : State) (kind n : Nat) : LinkBase :=
  if kind = 1 then (s.jesd n).base else if kind = 2 then (s.bglIn n).base else (s.scp n).base

def State.setLink (s : State) (kind n : Nat) (x : LinkBase) : State :=
  if kind = 1 then s.setJesd n { s.jesd n with base := x }
  else if kind = 2 then s.setBglIn n { s.bglIn n with base := x }
  else s.setScp n { s.scp n with base := x }

/-- The link kind behind a channel's source kind (Table INP-1): both BGL kinds use the Bamgiusk Link. -/
def linkKind (kind : Nat) : Nat := if kind = 4 then 3 else if kind = 3 then 2 else kind

/-- The input link that feeds a channel. -/
def State.chanLink (s : State) (c : Nat) : LinkBase := s.link (linkKind (s.chan c).kind) (s.chan c).source

/-- The channels bound to a link, in ascending number. -/
def State.linkChans (s : State) (kind n : Nat) : List Nat :=
  (s.channels.filter fun p => decide (p.2.state ≠ .unbound) && linkKind p.2.kind == kind && p.2.source == n).map (·.1)

/-- A channel is enabled in ARMED, RUNNING and LOST (R187). -/
def Channel.enabled (c : Channel) : Bool := c.state == .armed || c.state == .running || c.state == .lost

/-- Whether a link feeds an enabled channel (R182). -/
def State.linkFeeds (s : State) (kind n : Nat) : Bool := (s.linkChans kind n).any fun c => (s.chan c).enabled

/-- A pipe is enabled in ARMED, RUNNING and DRAINING (R222). -/
def Pipe.enabled (p : Pipe) : Bool := p.state == .armed || p.state == .running || p.state == .draining

/-- The pipes bound to a channel, in ascending number. -/
def State.chanPipes (s : State) (c : Nat) : List Nat :=
  (s.pipes.filter fun p => decide (p.2.state ≠ .free) && p.2.channel == c).map (·.1)

/-- A stream is enabled in ACTIVE and CLOSING (R327). -/
def Stream.enabled (t : Stream) : Bool := t.state == .active || t.state == .closing

/-- Group of an uplink port number: 0 A, 1 B (R352). -/
def groupOf (port : Nat) : Nat := port / 24

/-- A group is up while at least one of its ports is UP (R361). -/
def State.groupUp (s : State) (g : Nat) : Bool :=
  s.upl.ports.any fun p => groupOf p.1 == g && p.2.state == .up

def Stream.inGroup (t : Stream) (g : Nat) : Bool := if g = 0 then t.inA else t.inB

/-- The uplink port number on which a stream is placed in a group. -/
def Stream.place (t : Stream) (g : Nat) : Option Nat := if g = 0 then t.placeA else t.placeB

def State.enabledIn (s : State) (g : Nat) : Bool := s.strm.streams.any fun p => p.2.enabled && p.2.inGroup g

/-- A link that has lost synchronisation and has not restored it (cause bit 4 of Table ARCH-8). -/
def LinkBase.unsynced (l : LinkBase) : Bool := l.state == .lost || (l.state == .aligning && l.wasLost)

/-! ## Chip state (Tables ARCH-6, ARCH-8, HCP-17) -/

/-- The cause bits of Table ARCH-8, as a mask. -/
def State.causes (s : State) : Nat :=
  if s.chip.phase = .off ∨ s.chip.phase = .reset then 0 else
  mask [(!s.groupUp 0 && s.enabledIn 0) || (!s.groupUp 1 && s.enabledIn 1),
        s.flt.blocks.any fun p => !(p.2.inReset.isEmpty && p.2.held.isEmpty),
        s.chip.fwStalled,
        s.flt.logs.any fun p => p.2.any fun e => !e.acked,
        s.pipes.any fun p => p.2.enabled && (s.chanLink p.2.channel).unsynced]

/-- A capture window that keeps the chip RUNNING: armed, filling or dumping (Table ARCH-6). -/
def Window.busy (w : Window) : Bool :=
  w.state == .arming || w.state == .armed || w.state == .filling || w.state == .dumping

def State.busy (s : State) : Bool :=
  (s.strm.streams.any fun p => p.2.enabled) || s.cap.windows.any fun p => p.2.busy

/-- The chip state code of Table ARCH-6. -/
def State.chipCode (s : State) : Nat :=
  match s.chip.phase with
  | .off => 0
  | .reset => 1
  | .boot => 2
  | .safe => 6
  | .serving => if s.causes ≠ 0 then 5 else if s.busy then 4 else 3

/-- A sticky bit is set whose reaction has FAULT_N. -/
def State.faultNAsked (s : State) : Bool :=
  s.flt.blocks.any fun p => (List.range 64).any fun n => p.2.sticky.getLsbD n && (s.reaction p.1 n).getLsbD 2

/-- A source of the safety island asks for FAULT_N: FAULT_REQ 1 or LIVE 0 (R407). -/
def State.islandAsks (s : State) : Bool := s.island.status.getLsbD 56 || !s.island.status.getLsbD 3

/-- FAULT_N asserted (R375). -/
def State.faultN (s : State) : Bool := decide (s.chip.phase ≠ .serving) || s.faultNAsked || s.islandAsks

/-- CHIP_STATE of Table HCP-17. -/
def State.chipState (s : State) : Nat :=
  s.chipCode + s.causes * 2 ^ 8 + s.chip.bootStatus * 2 ^ 16 + b2n s.chip.testMode * 2 ^ 20 + b2n s.faultN * 2 ^ 21

/-- CHIP_ID of Table HCP-16. -/
def State.chipId (s : State) : Nat := 0x7256 + Config.stepping.toNat * 2 ^ 16 + s.chip.hubId.toNat * 2 ^ 32

/-- Raises MSI-X vector v (R42). A vector whose mask bit is set in the MSI-X table is held in the pending-bit array
instead of being sent, as PCI Express has it (PRESUMED, log entry 5); nothing leaves while the link is down. -/
def State.raiseMsix (s : State) (v : Nat) : State :=
  if (memGet s.hcp.msixTable (16 * v + 12)).getLsbD 0 then
    { s with hcp := { s.hcp with pba := s.hcp.pba ||| BitVec.ofNat 9 (2 ^ v) } }
  else if s.chip.pcieUp then s.emit (.msix v) else s

/-- MSI-X vector 8 is raised when CHIP_STATE[12:0] changes or FAULT_N becomes asserted (R42). -/
def settle (old new : State) : State :=
  if (new.chipState % 2 ^ 13 ≠ old.chipState % 2 ^ 13) ∨ (new.faultN && !old.faultN) then
    new.raiseMsix 8
  else new

/-! ## Mailbox status (Tables HCP-4, HCP-5, HCP-18) -/

def sessionCode : Session → Nat
  | .closed => 0
  | .opened => 1
  | .paused => 2

def mbCtrl (m : Mailbox) : Nat := b2n m.enable + 2 * b2n m.v2 + 4 * b2n m.pause + 8 * b2n m.irqEn

def mbStatus (m : Mailbox) : Nat :=
  sessionCode m.session + 4 * b2n m.seqSet + 8 * b2n m.ringErr + 16 * b2n m.version2

/-- Ring area of mailbox m (Table HCP-18). -/
def ringArea (i : Nat) (m : Mailbox) : Bytes :=
  (if i < 8 then le 2 m.reqPi.toNat ++ le 2 m.reqCi.toNat ++ le 2 m.rspPi.toNat ++ le 2 m.rspCi.toNat else zeros 8)
    ++ le 4 m.lastSeq.toNat ++ le 4 m.hubSeq.toNat

/-- The last-breath window (Table HCP-15), its TIME_NOW fields as held. -/
def State.lastBreath (s : State) : Bytes :=
  le 8 s.chipId ++ le 4 s.chipState ++ le 4 s.chip.heartbeat.toNat ++ zeros 16
    ++ le 4 (s.hcp.captured % 65536 + qCode s.hcp.capturedQ * 65536) ++ le 4 (s.hcp.captured / 65536 % 1000000000)
    ++ le 8 (s.hcp.captured / unitsPerSec) ++ le 8 s.island.status.toNat ++ le 8 s.faultAny ++ zeros 0xC0
    ++ ((List.range 10).flatMap fun i => ringArea i (s.mb i)) ++ zeros 0x260
    ++ ((List.range 17).flatMap fun b => le 8 (s.blk b).sticky.toNat ++ le 8 (s.fltState b))
    ++ zeros (0x400 - 17 * 16) ++ zeros 0x800

/-- The all-zero configuration record that serves without a valid copy (R424). -/
def emptyConfig : Bytes := zeros 0x30

/-- The configuration record in use. -/
def State.config (s : State) : Bytes := if s.boot.cfgUse.isEmpty then emptyConfig else s.boot.cfgUse

/-- Hub Time and its quality are captured into TIME_NOW0-3 (R68). -/
def State.captureTime (s : State) : State :=
  { s with hcp := { s.hcp with captured := s.now, capturedQ := s.time.quality } }

end Sys2Proof.Machine
end

