-- ==== Sys2Proof/Machine/Operands.lean ====
section
/-! DEFINITION. HCP requests: reading a payload's fields, the answers of Table HCP-11, frames (Tables HCP-8 and
HCP-9), and what an opcode's definition consists of. -/

namespace Sys2Proof

/-! ## Fields of a request -/

def Req.u8 (r : Req) (o : Nat) : Nat := Machine.getU r.payload o 1
def Req.u16 (r : Req) (o : Nat) : Nat := Machine.getU r.payload o 2
def Req.u32 (r : Req) (o : Nat) : Nat := Machine.getU r.payload o 4
def Req.u64 (r : Req) (o : Nat) : Nat := Machine.getU r.payload o 8
def Req.i8 (r : Req) (o : Nat) : Int := Machine.getI r.payload o 1
def Req.i32 (r : Req) (o : Nat) : Int := Machine.getI r.payload o 4
def Req.i64 (r : Req) (o : Nat) : Int := Machine.getI r.payload o 8

/-- n payload bytes from offset o. -/
def Req.bytes (r : Req) (o n : Nat) : Bytes := Machine.sub r.payload o n

def Req.ts96 (r : Req) (o : Nat) : T16 := Machine.ofTs96 (r.bytes o 12)

/-- SCHEDULED and LEGACY of the flags byte (Table HCP-8). -/
def Req.sched (r : Req) : Bool := r.flags.getLsbD 0
def Req.legacy (r : Req) : Bool := r.flags.getLsbD 1

/-- The time of the at field. -/
def Req.at_ (r : Req) : T16 := Machine.ofTs80 r.time

namespace Machine

/-! ## Answers (Table HCP-11) -/

structure Ans where
  status : Nat
  detail : Nat := 0
  payload : Bytes := []
  deriving DecidableEq, Repr

/-- A condition that must hold, and the answer where it fails. -/
abbrev Check := Bool × Ans

def ansDone (p : Bytes) : Ans := ⟨0x0000, 0, p⟩
def ansAccepted (slot : Nat) : Ans := ⟨0x0001, slot, []⟩
def ansDeferred (t : T16) : Ans := ⟨0x0002, 0, ts80 t ++ zeros 2⟩
def ansBadOpcode : Ans := ⟨0x0100, 0, []⟩
def ansBadLength (n : Nat) : Ans := ⟨0x0101, n, []⟩
/-- BAD_FIELD for the payload field at offset o: the detail is its offset in the frame. -/
def ansBadField (o : Nat) : Ans := ⟨0x0102, 0x20 + o, []⟩
/-- BAD_FIELD for the header field at offset o. -/
def ansBadHeader (o : Nat) : Ans := ⟨0x0102, o, []⟩
def ansState (s : State) : Ans := ⟨0x0301, s.chipCode, []⟩
def ansBusy : Ans := ⟨0x0302, 0, []⟩
def ansTooLate (short : Nat) : Ans := ⟨0x0303, min short 0xFFFFFFFF, []⟩
def ansSealed : Ans := ⟨0x0304, 0, []⟩
/-- R383: the ledger cannot judge. -/
def ansLedgerFault : Ans := ⟨0x0400, 0x0D000000, []⟩
def ansLegacy : Ans := ⟨0x0401, 0, []⟩

/-- The answer of the first check that fails (R52). -/
def firstBad : List Check → Option Ans
  | [] => none
  | (ok, a) :: cs => if ok then firstBad cs else some a

/-- A field within range. -/
def fieldLe (o v hi : Nat) : Check := (decide (v ≤ hi), ansBadField o)
def fieldIn (o v lo hi : Nat) : Check := (decide (lo ≤ v) && decide (v ≤ hi), ansBadField o)
/-- Reserved bytes are 0 (R6); the detail names the first that is not. -/
def reserved (r : Req) (o : Nat) : Nat → List Check
  | 0 => []
  | n + 1 => (isZero r.payload o 1, ansBadField o) :: reserved r (o + 1) n
/-- Reserved bits: no bit at or above bit n of the byte at o. -/
def flagBits (r : Req) (o n : Nat) : Check := (decide (r.u8 o < 2 ^ n), ansBadField o)
/-- A TS80 or TS96 that R73 allows. -/
def timeField (r : Req) (o : Nat) : Check := (ts80Ok (r.bytes o 10), ansBadField o)

/-! ## Frames -/

/-- Appends the crc of R50 to header bytes 0x00-0x1B and puts the payload behind it. -/
def sealFrame (head payload : Bytes) : Bytes := head ++ le 4 (crc32c (head ++ payload)) ++ payload

/-- A request frame (Table HCP-8). -/
def reqFrame (version opcode : Nat) (r : Req) : Bytes :=
  sealFrame (le 2 0x4843 ++ le 1 version ++ le 1 r.flags.toNat ++ le 4 r.hostSeq.toNat ++ le 2 opcode
    ++ le 2 r.payload.length ++ le 4 r.tag.toNat ++ r.time ++ zeros 2) r.payload

/-- A response or notice frame (Table HCP-9). -/
def rspFrame (version : Nat) (replay : Bool) (hostSeq hubSeq : W32) (opcode status : Nat) (tag : W32) (detail : Nat)
    (payload : Bytes) : Bytes :=
  sealFrame (le 2 0x4843 ++ le 1 version ++ le 1 (b2n replay) ++ le 4 hostSeq.toNat ++ le 4 hubSeq.toNat ++ le 2 opcode
    ++ le 2 status ++ le 4 tag.toNat ++ le 2 payload.length ++ zeros 2 ++ le 4 detail) payload

def Mailbox.version (m : Mailbox) : Nat := if m.version2 then 2 else 3

/-! ## Opcodes -/

/-- Whether an opcode accepts SCHEDULED (R51). -/
inductive Sched where
  | never | maybe | always
  deriving DecidableEq, Repr

/-- What a functional chapter says of one opcode: its payload length (`len` answers the required or maximum length
where a length does not fit), whether it is schedulable, its v2 layout's limits where it has one, whether it only
reads (R30), its field checks (check 8), its state checks (checks 9 and 10), what holds the object (check 12),
whether the ledger judges it (check 13), and its effect. -/
structure Op where
  code : Nat
  len : Bytes → Option Nat
  sched : Sched := .never
  v2 : Option (Req → List Check) := none
  reads : Req → State → Bool := fun _ _ => false
  fields : Req → State → List Check
  state : Req → State → List Check := fun _ _ => []
  hold : Req → State → List Check := fun _ _ => []
  ledger : Bool := false
  effect : Req → State → State × Ans

/-- A payload of exactly n bytes. -/
def exactly (n : Nat) (p : Bytes) : Option Nat := if p.length = n then none else some n

/-- Nanoseconds by which a time lies closer than 10 us to now (R99), on whole nanoseconds. -/
def shortfall (s : State) (t : T16) : Nat := nsOf s.now + 10000 - nsOf t

/-- Check 5: reserved header bits and the at field (R63, R73). -/
def headerChecks (v2 : Bool) (r : Req) : List Check :=
  [(decide (r.flags.toNat < 4) && !(v2 && r.flags != 0), ansBadHeader 3),
   (if r.sched then ts80Ok r.time else isZero r.time 0 10, ansBadHeader 0x10)]

/-- Checks 6 to 12 of Table HCP-10. -/
def opChecks (op : Op) (v2 : Bool) (r : Req) (s : State) : List Check :=
  let old := v2 || r.legacy
  [(!old || op.v2.isSome, ansLegacy),
   ((op.len r.payload).isNone, ansBadLength ((op.len r.payload).getD 0)),
   (match op.sched with
     | .never => !r.sched
     | .maybe => true
     | .always => r.sched, ansBadHeader 3)]
  ++ (if old then (op.v2.map fun f => f r).getD [] else [])
  ++ op.fields r s
  ++ [(decide (s.chip.phase ≠ .safe) || op.reads r s, ansState s)]
  ++ op.state r s
  ++ [(!r.sched || shortfall s r.at_ == 0, ansTooLate (shortfall s r.at_))]
  ++ op.hold r s

end Machine

end Sys2Proof
end

