-- ==== Sys2Proof/Machine/Profiles.lean ====
section
/-! DEFINITION. Filter profiles: the image of Table PAL-1, and the exact quantities of R195, R217, R234 and R235 that
follow from a stage layout. -/

namespace Sys2Proof.Machine

/-- A stage of a profile (Table PAL-2). -/
structure Stage where
  type : Nat
  d : Nat
  u : Nat
  shift : Nat
  taps : Nat
  trunc : Bool
  deriving DecidableEq, Repr

/-- Bytes of a profile image. -/
def Profile.byte (p : Profile) (o n : Nat) : Nat := ofLe (memRead p.image o n)

def Profile.stageAt (p : Profile) (i : Nat) : Stage :=
  let o := 0x20 + 8 * i
  { type := p.byte o 1, d := p.byte (o + 1) 1, u := p.byte (o + 2) 1, shift := p.byte (o + 3) 1,
    taps := p.byte (o + 4) 2, trunc := bit (p.byte (o + 6) 1) 0 }

/-- The stages of a valid profile, first to last. -/
def Profile.stages (p : Profile) : List Stage := (List.range (min 6 (p.byte 2 1))).map p.stageAt

def Profile.nominal (p : Profile) : Bool := p.byte 3 1 == 1

/-- The 18-bit coefficient of word i (R230). -/
def Profile.coef (p : Profile) (i : Nat) : Int := signed 18 (p.byte (0x50 + 4 * i) 4 % 2 ^ 18)

/-- Image length by R230. -/
def Profile.imageLength (p : Profile) : Nat := 80 + 4 * p.byte 4 4

/-- Stored size (R233): the image length rounded up to 256; while STAGING, of what is staged. -/
def Profile.stored (p : Profile) : Nat :=
  match p.state with
  | .empty => 0
  | .staging => cdiv p.extent 256 * 256
  | .valid => cdiv p.imageLength 256 * 256

def Stage.ratio (g : Stage) : Rat := (g.d : Rat) / (g.u : Rat)

/-- The cumulative ratio after every stage (R195). -/
def ratios : Rat → List Stage → List Rat
  | _, [] => []
  | r, g :: gs => (r * g.ratio) :: ratios (r * g.ratio) gs

/-- R_out: the cumulative ratio after the last stage. -/
def ratioOut (gs : List Stage) : Rat := gs.foldl (fun r g => r * g.ratio) 1

/-- The span S, the sum of the reaches (R234). -/
def spanFrom : Rat → List Stage → Rat
  | _, [] => 0
  | r, g :: gs => ((g.taps : Rat) - 1) * r / (g.u : Rat) + spanFrom (r * g.ratio) gs

def Profile.span (p : Profile) : Rat := spanFrom 1 p.stages

/-- The group delay G in channel samples (R234). -/
def Profile.gd (p : Profile) : Rat := if p.nominal then (p.byte 8 8 : Rat) / 65536 else p.span / 2

/-- The group delay Γ in 2^-16 ns, rounded half to even (R234). -/
def Profile.gamma (p : Profile) (fin : Nat) : Int := rheR (p.gd * 65536000000000 / (fin : Rat))

/-- The exact group delay in ns. -/
def Profile.gammaNs (p : Profile) (fin : Nat) : Rat := p.gd * 1000000000 / (fin : Rat)

/-- The unsettled count U = ⌈S / R_out⌉ (R235). -/
def Profile.unsettled (p : Profile) : Nat := (ceilR (p.span / ratioOut p.stages)).toNat

/-- R195 for a channel rate: every stage's output rate is a whole number of samples per second, at least 1. -/
def ratesOk (fin : Nat) (gs : List Stage) : Bool :=
  (ratios 1 gs).all fun r => decide (((fin : Rat) / r).den = 1) && decide (1 ≤ (fin : Rat) / r)

/-- The output rate f_out in S/s. -/
def outRate (fin : Nat) (gs : List Stage) : Nat := ((fin : Rat) / ratioOut gs).num.toNat

/-- The first decimation D_1. -/
def firstD (gs : List Stage) : Nat := match gs with | [] => 1 | g :: _ => g.d

def firstT (gs : List Stage) : Nat := match gs with | [] => 1 | g :: _ => g.taps

/-- Multiplies per output sample (Table PIPE-3). -/
def Stage.mults (g : Stage) : Nat := if g.type = 3 then cdiv g.taps g.u else g.taps

/-- The filter-engine cost in MAC/ns (R217), the stages' data being complex from stage `cplx` on. -/
def costFrom (fin : Nat) (first rest : Bool) : Rat → List Stage → Rat
  | _, [] => 0
  | r, g :: gs =>
    let r' := r * g.ratio
    (g.mults : Rat) * ((fin : Rat) / r') / 1000000000 * (if first then 2 else 1) + costFrom fin rest rest r' gs

/-- Σ T × k over the cascade (Table ADM-2, pipe bank). -/
def cascadeTaps (gs : List Stage) : Nat := (gs.drop 1).foldl (fun n g => n + g.taps) 0

/-- The index of stage i's first coefficient word (R230): the 64 phase sets of the first stage, then each cascade
stage. -/
def coefBase (gs : List Stage) (i : Nat) : Nat :=
  if i = 0 then 0 else 64 * firstT gs + ((gs.drop 1).take (i - 1)).foldl (fun n g => n + g.taps) 0

/-! ## Commit checks (Table PAL-3) -/

def stageTapsOk (g : Stage) : Bool :=
  if g.type = 1 then decide (1 ≤ g.taps ∧ g.taps ≤ 96)
  else if g.type = 2 then decide (3 ≤ g.taps ∧ g.taps ≤ 63 ∧ g.taps % 4 = 3)
  else decide (1 ≤ g.taps ∧ g.taps ≤ 256)

def stageRatesOk (g : Stage) : Bool :=
  decide (g.shift ≤ 31) &&
  (if g.type = 1 then decide (1 ≤ g.d ∧ g.d ≤ 8 ∧ g.u = 1)
   else if g.type = 2 then decide (g.d = 2 ∧ g.u = 1)
   else decide (1 ≤ g.d ∧ g.d ≤ 16 ∧ 1 ≤ g.u ∧ g.u ≤ 16 ∧ g.u ≤ g.d))

def stageFieldOk (g : Stage) : Bool := stageRatesOk g && stageTapsOk g

/-- The offset of the word that breaks LAYOUT of Table PAL-3, if one does. -/
def layoutBad (p : Profile) : Option Nat :=
  let n := p.byte 2 1
  (((decide (p.byte 0 2 = 0x5046) && decide (1 ≤ n ∧ n ≤ 6) && decide (p.byte 3 1 ≤ 1), 0) ::
    (p.nominal || decide (p.byte 8 8 = 0), 8) ::
    (decide (p.byte 0x14 4 = 0), 0x14) :: (decide (p.byte 0x18 4 = 0), 0x18) :: (decide (p.byte 0x1C 4 = 0), 0x1C) ::
    (List.range 6).flatMap fun i =>
      let o := 0x20 + 8 * i
      if i < n then
        [(decide (if i = 0 then p.byte o 1 = 1 else p.byte o 1 = 2 ∨ p.byte o 1 = 3), o),
         (decide (p.byte (o + 6) 1 < 2) && decide (p.byte (o + 7) 1 = 0), o + 4)]
      else [(decide (p.byte o 4 = 0), o), (decide (p.byte (o + 4) 4 = 0), o + 4)]).find? fun c => !c.1).map (·.2)

/-- The image with its crc field taken as 0. -/
def Profile.crcOk (p : Profile) : Bool :=
  p.byte 0x10 4 == crc32c (memRead p.image 0 0x10 ++ zeros 4 ++ memRead p.image 0x14 (p.extent - 0x14))

/-- Coefficient words at which stage i's half-band rule is broken, as word indices. -/
def halfBandBad (p : Profile) (gs : List Stage) (i : Nat) (g : Stage) : List Nat :=
  if g.type = 2 then
    let c := (g.taps - 1) / 2
    (below g.taps fun j => j ≠ c && (if j < c then (c - j) % 2 == 0 else (j - c) % 2 == 0)
      && p.coef (coefBase gs i + j) ≠ 0).map (coefBase gs i + ·)
  else []

def asymmetric (p : Profile) (base taps : Nat) : List Nat :=
  (below taps fun j => p.coef (base + j) ≠ p.coef (base + taps - 1 - j)).map (base + ·)

/-- The result code of PROFILE_COMMIT and the image offset of the first offending word (R231): 0 VALID. -/
def commitResult (p : Profile) (length : Nat) : Nat × Nat :=
  let gs := p.stages
  let word := fun i => 0x50 + 4 * i
  let bad := fun (c : Nat) (ws : List Nat) (k : Nat × Nat) => match ws with | [] => k | w :: _ => (c, word w)
  if length ≠ p.extent then (2, 0)
  else if !p.crcOk then (1, 0x10)
  else if length ≠ p.imageLength
      ∨ p.byte 4 4 ≠ 64 * firstT gs + cascadeTaps gs then (2, 4)
  else if (layoutBad p).isSome then (3, (layoutBad p).getD 0)
  else if !gs.all stageFieldOk then
    (4, 0x20 + 8 * (gs.takeWhile stageFieldOk).length
      + if stageRatesOk ((gs.find? fun g => !stageFieldOk g).getD ⟨0, 0, 0, 32, 0, false⟩) then 4 else 0)
  else bad 5 ((gs.zipIdx).flatMap fun (g, i) => halfBandBad p gs i g)
    (bad 6 (below (p.byte 4 4) fun i =>
        let w := p.byte (word i) 4
        w / 2 ^ 17 ≠ 0 && w / 2 ^ 17 ≠ 2 ^ 15 - 1)
      (if p.nominal then (0, 0) else
        bad 7 (asymmetric p 0 (firstT gs)
          ++ ((gs.zipIdx).drop 1).flatMap fun (g, i) => asymmetric p (coefBase gs i) g.taps) (0, 0)))

end Sys2Proof.Machine
end

