-- ==== Sys2Proof/Machine/Ledger.lean ====
section
/-! DEFINITION. The admission ledger (09_admission): charges computed from the objects that hold them, placement,
queue minimum, delivery bounds, and the judgement of a change. -/

namespace Sys2Proof.Machine

/-- 1.0005, by which a rate-derived charge is multiplied (R253). -/
def rateFactor : Rat := 10005 / 10000

/-! ## Rates and formats -/

/-- Bits per sample of an output format (Table PIPE-4). -/
def formatBits (f : Nat) : Nat :=
  if f = 0x01 then 8 else if f = 0x02 then 12 else if f = 0x03 then 16 else if f = 0x04 then 24
  else if f = 0x05 then 32 else if f = 0x11 then 8 else if f = 0x12 then 16 else if f = 0x13 then 32
  else if f = 0x14 then 48 else 0

def formatComplex (f : Nat) : Bool := decide (0x11 ≤ f)

/-- Width w per part. -/
def formatWidth (f : Nat) : Nat := if formatComplex f then formatBits f / 2 else formatBits f

def State.profA (s : State) (p : Nat) : Profile := s.prof (s.pipe p).profileA
def State.profB (s : State) (p : Nat) : Profile := s.prof (s.pipe p).profileB

/-- The channel rate f_in of a pipe. -/
def State.fin (s : State) (p : Nat) : Nat := (s.chan (s.pipe p).channel).fs

/-- f_out of a pipe under bank A. -/
def State.fout (s : State) (p : Nat) : Nat := outRate (s.fin p) (s.profA p).stages

/-- Cost of a bank in MAC/ns (R217). -/
def bankCost (pp : Pipe) (fin : Nat) (p : Profile) : Rat :=
  costFrom fin (pp.mixer && pp.early) pp.mixer 1 p.stages

/-- Coefficient and state memory of a pipe bank (Table ADM-2 bit 1). -/
def bankMemory (pp : Pipe) (p : Profile) : Nat :=
  cdiv (256 + 4 * (cascadeTaps p.stages * (if pp.mixer then 2 else 1))) 256 * 256

/-- Filter-engine charge of a pipe in 2^-16 MAC/ns (Table ADM-2 bit 0): bank A; the larger bank while bank B is not
EMPTY; the sum from acceptance of a faded swap to its last fade sample. -/
def State.engineCharge (s : State) (n : Nat) : Nat :=
  let pp := s.pipe n
  let unit := fun (c : Rat) => (ceilR (c * 65536 * rateFactor)).toNat
  let a := bankCost pp (s.fin n) (s.profA n)
  let b := bankCost pp (s.fin n) (s.profB n)
  if pp.state = .free then 0
  else match pp.bank with
    | .empty => unit a
    | .loaded | .pending => unit (max a b)
    | .preroll | .fading => unit (a + b)

/-- The part of a pipe's charge that is fade headroom. -/
def State.fadeCharge (s : State) (n : Nat) : Nat :=
  let pp := s.pipe n
  match pp.bank with
  | .preroll | .fading =>
    s.engineCharge n - (ceilR (max (bankCost pp (s.fin n) (s.profA n)) (bankCost pp (s.fin n) (s.profB n))
      * 65536 * rateFactor)).toNat
  | _ => 0

/-! ## Streams -/

/-- ASC blocks in a full packet. -/
def blocksPer (t : Stream) (c : CompStream) : Nat := if c.enable then cdiv t.perPacket c.block else 0

/-- P_w, the worst payload of a packet in bytes (R254). -/
def State.worstPayload (s : State) (n : Nat) : Nat :=
  let t := s.stream n
  cdiv (t.perPacket * formatBits (s.pipe n).format) 8 + 20 * blocksPer t (s.cstream n)

/-- The destination entry of a stream (Table UPL-4). -/
def State.dest (s : State) (e : Nat) : Bytes := tget [] s.upl.dests e

def destEncap (d : Bytes) : Nat := getU d 1 1

/-- H, the per-frame overhead of Table ADM-3. -/
def overhead (d : Bytes) : Nat :=
  64 + (if destEncap d = 2 then 28 else if destEncap d = 3 then 48 else 0) + 38 + 4 * getU d 3 1

def State.overheadOf (s : State) (n : Nat) : Nat := overhead (s.dest (s.stream n).entry)

/-- Line rate of a port in bit/ns (Table UPL-1). -/
def lineRate (protocol : Nat) : Nat := if protocol = 3 then 10 else if protocol = 4 then 25 else if protocol = 5 then 100 else 0

/-- Ledger capacity of a port in kbit/s (Table UPL-1). -/
def portCapacity (protocol : Nat) : Nat :=
  if protocol = 3 then 9900000 else if protocol = 4 then 24900000 else if protocol = 5 then 99900000 else 0

/-- Uplink charge of a stream on each of its ports, kbit/s (Table ADM-2 bits 5, 6). -/
def State.uplinkCharge (s : State) (n : Nat) : Nat :=
  (ceilR ((s.fout n : Rat) / ((s.stream n).perPacket : Rat)
    * ((s.worstPayload n + s.overheadOf n : Nat) : Rat) * 8 * rateFactor / 1000)).toNat

/-- Compressor charge of a stream, kbit/s (Table ADM-2 bit 4). -/
def State.compCharge (s : State) (n : Nat) : Nat :=
  (ceilR ((s.fout n : Rat) * (formatBits (s.pipe n).format : Rat) * rateFactor / 1000)).toNat

/-- The streams whose placement is charged, in ascending number. -/
def State.charged (s : State) : List Nat :=
  (s.strm.streams.filter fun p => p.2.placeA.isSome || p.2.placeB.isSome).map (·.1)

/-- The streams placed on an uplink port. -/
def State.placedOn (s : State) (port : Nat) : List Nat :=
  (s.strm.streams.filter fun p => p.2.place (groupOf port) == some port).map (·.1)

def State.placedComp (s : State) (c : Nat) : List Nat :=
  (s.strm.streams.filter fun p => p.2.placeC == some c).map (·.1)

def sumOf (xs : List Nat) (f : Nat → Nat) : Nat := xs.foldl (fun n x => n + f x) 0

/-- Rate charges of the uplink dumps on a port, kbit/s. -/
def State.dumpCharge (s : State) (port : Nat) : Nat :=
  sumOf (List.range 4) fun d => match s.dump d with
    | some x => if x.portA = some port ∨ x.portB = some port then x.rate else 0
    | none => 0

/-- Write slots of a window (Table ADM-2 bit 7), charged from arming until it is idle, frozen or released. -/
def windowSlots (w : Window) : Nat := cdiv (w.frameBytes * w.fw) 1000000000

def windowCharged (w : Window) : Bool :=
  w.state == .arming || w.state == .armed || w.state == .filling || w.pendArm || w.delayArm.isSome

/-! ## Use of each resource (Tables ADM-1 and ADM-2) -/

/-- The present charge of resource b at an index. -/
def State.used (s : State) (b i : Nat) : Nat :=
  match b with
  | 0 => sumOf (s.pipes.map (·.1)) s.engineCharge
  | 1 => sumOf (s.profiles.map (·.1)) (fun p => (s.prof p).stored)
      + sumOf (s.pipes.map (·.1)) fun n =>
          let pp := s.pipe n
          if pp.state = .free then 0
          else bankMemory pp (s.profA n) + (if pp.bank = .empty then 0 else bankMemory pp (s.profB n))
  | 2 => sumOf (s.pipes.map (·.1)) fun n =>
      if (s.pipe n).state = .free then 0 else cdiv (((s.pipe n).dMax + 128) * 4) 1024
  | 3 => sumOf (s.strm.streams.map (·.1)) (fun n => (s.stream n).pages)
      + (match s.boot.unit3 with | some u => u.pages | none => 0)
  | 4 => sumOf (s.placedComp i) s.compCharge
  | 5 => sumOf (s.placedOn i) s.uplinkCharge + s.dumpCharge i
  | 6 => sumOf (s.placedOn (24 + i)) s.uplinkCharge + s.dumpCharge (24 + i)
  | 7 => sumOf (s.cap.windows.map (·.1)) fun w => if windowCharged (s.win w) then windowSlots (s.win w) else 0
  | 8 => sumOf (s.cap.windows.map (·.1)) fun w => if (s.win w).state = .unconfigured then 0 else (s.win w).pages
  | 9 => (s.cal.entries.filter fun e => !e.fw).length
  | 10 => (s.mb i).slots.length
  | _ => 0

/-- The capacity of resource b at an index (Table ADM-1). -/
def State.capacity (s : State) (b i : Nat) : Nat :=
  match b with
  | 0 => 12288 * 65536
  | 1 => 8388608
  | 2 => 16384
  | 3 => 8192
  | 4 => 64000000
  | 5 => portCapacity (s.port i).protocol
  | 6 => portCapacity (s.port (24 + i)).protocol
  | 7 => 96
  | 8 => 3072
  | 9 => 4064
  | 10 => 256
  | _ => 0

/-- The indices of a resource (Table ADM-1, last column). -/
def indices (b : Nat) : List Nat :=
  if b = 4 then List.range 16 else if b = 5 ∨ b = 6 then List.range 24 else if b = 10 then List.range 10 else [0]

/-! ## Source latency (R185, R264) -/

/-- T_mf in ns (R171). -/
def Jesd.tmf (j : Jesd) : Rat :=
  if j.version = 1 then (j.ke * j.s : Nat) * 1000000000 / (j.fs : Rat)
  else (256 * j.ke * j.s : Nat) * 1000000000 / ((j.f * j.fs : Nat) : Rat)

/-- Samples per multiframe. -/
def Jesd.spm (j : Jesd) : Nat := if j.version = 1 then j.ke * j.s else 256 * j.ke * j.s / j.f

/-- ρ_s in ns of a channel's source, and whether it is PROVISIONAL. -/
def State.rho (s : State) (c : Nat) : Rat × Bool :=
  let ch := s.chan c
  if ch.kind = 1 then
    let j := s.jesd ch.source
    let q := (j.q : Rat) * 1000000000 / (j.fs : Rat)
    if j.base.measured then ((j.base.release : Rat) + q, false)
    else ((j.lambda : Rat) / 65536 + j.tmf / 4 + 105 + q, false)
  else if ch.kind = 4 then
    let p := s.scp ch.source
    (((p.lag + 1 : Nat) : Rat) * 1000000000 / (p.fs : Rat) + 3, false)
  else
    let b := s.bglIn ch.source
    if b.base.measured then ((b.base.release : Rat), false)
    else (((if ch.kind = 3 then b.lambdaAux else b.lambda : Nat) : Rat) / 65536 + 64, true)

/-! ## The delivery bound (R262, R263, Table ADM-5) -/

/-- The terms of a stream's bound, in ns. -/
structure Bound where
  src : Rat
  gd : Rat
  eng : Rat
  fill : Rat
  comp : Rat
  waitA : Rat
  waitB : Rat
  beta : Nat
  prov : Bool
  deriving DecidableEq

/-- The port-wait term on an uplink port. -/
def State.portWait (s : State) (port : Nat) : Rat :=
  rateFactor * 8 * ((sumOf (s.placedOn port) (fun n => s.worstPayload n + 2 * s.overheadOf n) + 256 : Nat) : Rat)
    / (lineRate (s.port port).protocol : Rat)

def State.waitIn (s : State) (n g : Nat) : Rat :=
  match (s.stream n).place g with
  | some p => s.portWait p
  | none => 0

/-- Input bits of a full block of a stream. -/
def State.blockBits (s : State) (n : Nat) : Nat :=
  min (s.cstream n).block (s.stream n).perPacket * formatBits (s.pipe n).format

def State.bound (s : State) (n : Nat) : Bound :=
  let pp := s.pipe n
  let c := s.chan pp.channel
  let gs := (s.profA n).stages
  let (rho, prov) := s.rho pp.channel
  let src := rho + 2 - (c.cal : Rat) / 65536
  let ga := (s.profA n).gammaNs c.fs
  let gd := if pp.bank = .empty then ga else max ga ((s.profB n).gammaNs c.fs)
  let eng := (firstD gs : Rat) * 1000000000 / (c.fs : Rat) + 40 + 8 * (gs.length : Rat)
  let fill := (((s.stream n).perPacket - 1 : Nat) : Rat) * 1000000000 / (s.fout n : Rat)
  let comp := match (s.stream n).placeC with
    | some k => 64 + (sumOf (s.placedComp k) s.blockBits : Rat) / 64
    | none => 0
  let wa := s.waitIn n 0
  let wb := s.waitIn n 1
  { src := src, gd := gd, eng := eng, fill := fill, comp := comp, waitA := wa, waitB := wb, prov := prov,
    beta := (ceilR (src + gd + eng + fill + comp + 128 + max wa wb + 256)).toNat }

/-- Γ of the bound in 2^-16 ns. -/
def Bound.gamma (b : Bound) : Int := rheR (b.gd * 65536)

/-- β and Γ as ADM_BOUNDS compares them: nothing while the stream is not charged. -/
def State.betaGamma (s : State) (n : Nat) : Nat × Rat :=
  if s.charged.contains n then ((s.bound n).beta, (s.bound n).gd) else (0, 0)

/-- Q_min of a charged stream (R261). -/
def State.qMin (s : State) (n : Nat) : Nat :=
  let size := 64 + s.worstPayload n
  let rb : Rat := (size * s.fout n : Nat) / ((s.stream n).perPacket : Rat)
  2 * cdiv size 4096 + (ceilR (rb * (max (s.waitIn n 0) (s.waitIn n 1) + 1000) / (1000000000 * 4096))).toNat

/-! ## Admission (R257, R260) -/

/-- A short resource of Table ADM-4: bit, index (0xFFFF for none), need, capacity. -/
structure Short where
  bit : Nat
  index : Nat
  need : Nat
  capacity : Nat
  deriving DecidableEq, Repr

/-- Resources 0 to 10 that a state charges beyond capacity. -/
def overCharged (s : State) (b : Nat) : List Short :=
  ((indices b).filter fun i => decide (s.capacity b i < s.used b i)).map fun i =>
    ⟨b, if indices b = [0] then 0xFFFF else i, s.used b i, s.capacity b i⟩

/-- Streams whose queue lies below Q_min: those charged anew and those whose port wait the change raises (R257). -/
def belowQMin (old new : State) : List Short :=
  let wait := fun (t : State) n => max (t.waitIn n 0) (t.waitIn n 1)
  (new.charged.filter fun n =>
    (!old.charged.contains n || decide (wait old n < wait new n)) && decide ((new.stream n).pages < new.qMin n)).map
    fun n => ⟨3, n, new.qMin n, (new.stream n).pages⟩

def State.ceiling (s : State) (n : Nat) : Nat := tget 0 s.ledger.ceiling n

/-- The largest β of a charged stream until its accepted swap, if it has one, has landed: bank B then governs the engine
term (R258). -/
def State.worstBeta (s : State) (n : Nat) : Nat :=
  let pp := s.pipe n
  if !s.charged.contains n then 0
  else match pp.bank with
    | .pending | .preroll | .fading =>
      max (s.bound n).beta
        ((s.setPipe n { pp with profileA := pp.profileB, profileB := pp.profileA }).bound n).beta
    | _ => (s.bound n).beta

/-- Streams whose bound the change raises above their ceiling, at once or when a swap lands (R257, R265). -/
def overCeiling (old new : State) : List Short :=
  (new.charged.filter fun n =>
    decide (new.ceiling n ≠ 0) && decide (new.ceiling n < new.worstBeta n)
      && decide (old.worstBeta n < new.worstBeta n)).map
    fun n => ⟨11, n, new.worstBeta n, new.ceiling n⟩

/-- Everything that a change leaves short, in ascending bit and then index (R260). -/
def shorts (old new : State) : List Short :=
  overCharged new 0 ++ overCharged new 1 ++ overCharged new 2 ++ belowQMin old new ++ overCharged new 3
    ++ overCharged new 4 ++ overCharged new 5 ++ overCharged new 6 ++ overCharged new 7 ++ overCharged new 8
    ++ overCharged new 9 ++ overCharged new 10 ++ overCeiling old new

/-- The REFUSED_CAPACITY answer: the mask of short resources and the payload of Table ADM-4. -/
def ansCapacity (xs : List Short) : Ans :=
  let ys := xs.take 64
  ⟨0x0300, mask ((List.range 12).map fun b => xs.any fun x => x.bit == b),
   le 2 ys.length ++ zeros 2 ++ ys.flatMap fun x =>
     le 1 x.bit ++ zeros 1 ++ le 2 x.index ++ zeros 4 ++ le 8 x.need ++ le 8 x.capacity⟩

def peakKey (b i : Nat) : Nat := 4096 * b + i

/-- Raises every peak below the present charge (Table ADM-7). -/
def notePeaks (s : State) : State :=
  forEach ((List.range 11).flatMap fun b => (indices b).map fun i => (b, i))
    (fun bi t =>
      if tget 0 t.ledger.peak (peakKey bi.1 bi.2) < t.used bi.1 bi.2 then
        { t with ledger := { t.ledger with peak := tset 0 t.ledger.peak (peakKey bi.1 bi.2) (t.used bi.1 bi.2) } }
      else t) s

/-- Check 13: the change is admitted as a whole, or the answer is REFUSED_CAPACITY and nothing changes (R257). -/
def admitChange (old : State) (x : State × Ans) : State × Ans :=
  match shorts old x.1 with
  | [] => (notePeaks x.1, x.2)
  | xs => (old, ansCapacity xs)

/-- A request after its frame checks (checks 5 to 13): the state and the answer. -/
def perform (op : Op) (v2 : Bool) (r : Req) (s : State) : State × Ans :=
  match firstBad (headerChecks v2 r ++ opChecks op v2 r s) with
  | some a => (s, a)
  | none =>
    if op.ledger then (if s.flt.ledgerBad then (s, ansLedgerFault) else admitChange s (op.effect r s))
    else op.effect r s

/-! ## Placement (R256) -/

/-- The least-loaded of some indices, the lowest number among equals. -/
def leastBy (f : Nat → Nat) : List Nat → Option Nat
  | [] => none
  | x :: xs => match leastBy f xs with
    | none => some x
    | some y => if f x ≤ f y then some x else some y

/-- The ports of a group, by number within the group. -/
def State.groupPorts (s : State) (g : Nat) : List Nat :=
  below 24 fun p => decide ((s.port (24 * g + p)).state ≠ .unconfigured)

def State.choosePort (s : State) (g named : Nat) : Option Nat :=
  if named ≠ 255 then some (24 * g + named)
  else (leastBy (s.used (5 + g)) (s.groupPorts g)).map (24 * g + ·)

/-- Places one stream on its ports and its compressor. -/
def placeStream (n : Nat) (s : State) : State :=
  let t := s.stream n
  let c := s.cstream n
  let a := if t.inA then s.choosePort 0 t.portA else none
  let b := if t.inB then s.choosePort 1 t.portB else none
  s.setStream n { t with
    placeA := a, placeB := b, sendA := a, sendB := b
    placeC := if c.enable then (if c.comp = 255 then leastBy (s.used 4) (List.range 16) else some c.comp) else none }

/-- Releases a stream's charges (the pipe returns to BOUND). -/
def unplaceStream (n : Nat) (s : State) : State :=
  s.setStream n { s.stream n with placeA := none, placeB := none, placeC := none }

/-! ## ADM_BOUNDS (R265, Table ADM-6) -/

/-- Flags of Table ADM-8. -/
def State.boundFlags (s : State) (n : Nat) : Nat :=
  mask [s.charged.contains n && (s.bound n).prov, (s.stream n).inA, (s.stream n).inB,
    tget false s.ledger.exceeded n, s.charged.contains n]

def boundEntry (s : State) (n : Nat) : Bytes :=
  let (b, g) := s.betaGamma n
  le 2 n ++ le 1 (s.boundFlags n) ++ zeros 5 ++ le 8 b ++ leI 8 (rheR (g * 65536))

/-- The streams whose β or Γ a change alters, ascending. -/
def changedBounds (old new : State) : List Nat :=
  ((old.strm.streams.map (·.1)).filter fun n => old.charged.contains n && !new.charged.contains n
      || new.charged.contains n && decide (old.betaGamma n ≠ new.betaGamma n))
  ++ ((new.strm.streams.map (·.1)).filter fun n =>
      !(old.strm.streams.map (·.1)).contains n && new.charged.contains n)

/-- The payloads that list the changed streams, up to nine in each (R265). -/
def boundsPayloads (new : State) (hostSeq : Nat) (total : Nat) : Nat → List Nat → List Bytes
  | 0, _ => []
  | k + 1, ns =>
    if ns.isEmpty then [] else
    (le 2 (ns.take 9).length ++ le 2 total ++ le 4 hostSeq ++ (ns.take 9).flatMap (boundEntry new))
      :: boundsPayloads new hostSeq total k (ns.drop 9)

end Sys2Proof.Machine
end

