-- ==== Sys2Proof/Machine/Notices.lean ====
section
/-! DEFINITION. Responses, notices and the notice log (02_mailboxes, R49-R60), the reservation of notification slots,
and the serving of one request from its checks to its stored response. -/

namespace Sys2Proof.Machine

/-- The firmware runs: it has started, has not stalled, and its cores are not in reset (R101, R374). -/
def State.fwRuns (s : State) : Bool := s.chip.fwRunning && !s.chip.fwStalled && !s.inReset 15 0

def State.mbOpen (s : State) (m : Nat) : Bool := decide ((s.mb m).session ≠ .closed)

/-! ## The notice log (R60) -/

/-- Entries of the log outside the 2,560 that the notification slots keep. -/
def freeLogEntries : Nat := 1536

def unslotted (log : List LogEntry) : Nat := (log.filter fun e => e.pinSlot.isNone).length

/-- Evicts the oldest unpinned entry. -/
def evictOldest : List LogEntry → List LogEntry
  | [] => []
  | e :: es => if e.pinSlot.isNone && !e.pinWait then es else e :: evictOldest es

/-- The log after an entry has come unpinned: the slot takes its new reserve entry from the oldest unpinned one. -/
def trimLog (log : List LogEntry) : List LogEntry :=
  if freeLogEntries < unslotted log then evictOldest log else log

/-- Whether the log can take one more unsolicited notice: an entry is unused or can be evicted. -/
def logRoom (log : List LogEntry) : Bool :=
  decide (unslotted log < freeLogEntries) || log.any fun e => e.pinSlot.isNone && !e.pinWait

def addUnsolicited (log : List LogEntry) (e : LogEntry) : List LogEntry :=
  (if unslotted log < freeLogEntries then log else evictOldest log) ++ [e]

/-! ## Generating entries -/

/-- Whether an entry generated for mailbox m waits to be written to it: it is open, and mailbox 8 has a peer (R45). -/
def State.deliverable (s : State) (m : Nat) : Bool := s.mbOpen m && (decide (m ≠ 8) || s.hcp.peer.isSome)

/-- Gives an entry the mailbox's next hub_seq (R56). -/
def State.nextSeq (s : State) (m : Nat) : W32 := (s.mb m).hubSeq

/-- Generates one unsolicited notice for mailbox m, or counts it lost (R60). -/
def notifyOne (opcode : Nat) (payload : Bytes) (m : Nat) (s : State) : State :=
  let b := s.mb m
  if logRoom s.hcp.log then
    let f := rspFrame b.version false 0xFFFFFFFF b.hubSeq opcode 0 0 0 payload
    let waits := s.deliverable m
    let s := s.setMb m { b with
      hubSeq := b.hubSeq + 1
      waiting := if waits then b.waiting ++ [{ isNotice := true, hubSeq := b.hubSeq, frame := f }] else b.waiting }
    { s with hcp := { s.hcp with log := addUnsolicited s.hcp.log ⟨m, b.hubSeq, f, none, waits⟩ } }
  else s.setMb m { b with lost := b.lost + 1, lostOwed := true }

/-- The open mailboxes whose subscription mask includes a group (R59). -/
def State.subscribers (s : State) (group : Nat) : List Nat :=
  below 10 fun m => s.mbOpen m && (s.mb m).mask.getLsbD group

/-- Sends an unsolicited notice to every subscribed open mailbox; while the firmware does not run, or has not yet started
in BOOT, it waits. -/
def notify (opcode : Nat) (payload : Bytes) (s : State) : State :=
  if s.fwRuns then forEach (s.subscribers (opcode / 256)) (notifyOne opcode payload) s
  else if s.chip.fwRunning || s.chip.phase == .boot then
    { s with hcp := { s.hcp with held := s.hcp.held ++ [.unsolicited opcode payload] } }
  else s

/-- The log once the entry that a slot of mailbox m holds is unpinned. -/
def unpinSlot (m slot : Nat) (log : List LogEntry) : List LogEntry :=
  trimLog (log.map fun e => if e.mb = m ∧ e.pinSlot = some slot then { e with pinSlot := none } else e)

/-- Returns a notification slot to the ledger (R58). -/
def returnSlot (m slot : Nat) (s : State) : State :=
  let b := s.mb m
  let s := s.setMb m { b with slots := b.slots.filter (· ≠ slot) }
  { s with hcp := { s.hcp with log := unpinSlot m slot s.hcp.log } }

/-- Generates the completion notice of a job (R58): it enters the log entry its slot keeps and waits for the mailbox
where that is open; otherwise its slot returns at once. -/
def completeNow (j : JobRef) (status detail : Nat) (payload : Bytes) (s : State) : State :=
  let b := s.mb j.mb
  let f := rspFrame b.version false 0xFFFFFFFF b.hubSeq j.opcode status j.tag detail payload
  let waits := s.deliverable j.mb
  let s := s.setMb j.mb { b with
    hubSeq := b.hubSeq + 1
    waiting := if waits then b.waiting ++ [{ isNotice := true, hubSeq := b.hubSeq, frame := f, slot := some j.slot }]
      else b.waiting }
  let s := { s with hcp := { s.hcp with log := s.hcp.log ++ [⟨j.mb, b.hubSeq, f, some j.slot, false⟩] } }
  if waits then s else returnSlot j.mb j.slot s

/-- The completion of a job, generated when the firmware runs. -/
def complete (j : JobRef) (status detail : Nat) (payload : Bytes) (s : State) : State :=
  if s.fwRuns then completeNow j status detail payload s
  else { s with hcp := { s.hcp with held := s.hcp.held ++ [.completion j status detail payload] } }

/-- The completion of a job that ends within the request that starts it: it is generated behind that request's response
(Table HCP-11: completion follows by notice). -/
def completeAfter (j : JobRef) (status detail : Nat) (payload : Bytes) (s : State) : State :=
  { s with hcp := { s.hcp with held := s.hcp.held ++ [.completion j status detail payload] } }

/-- The notices that wait behind the first n, oldest first. -/
def releaseFrom (n : Nat) (s : State) : State :=
  forEach (s.hcp.held.drop n) (fun h t => match h with
    | .unsolicited o p => notify o p t
    | .completion j st d p => complete j st d p t) { s with hcp := { s.hcp with held := s.hcp.held.take n } }

/-- The notices that waited for the firmware. -/
def releaseHeld (s : State) : State := releaseFrom 0 s

/-! ## Accepting jobs -/

/-- The lowest notification slot of mailbox m that is not in use; 256 when all are. -/
def State.freeSlot (s : State) (m : Nat) : Nat :=
  ((List.range 256).find? fun n => !(s.mb m).slots.contains n).getD 256

/-- Reserves a notification slot for a job (R58). -/
def takeJob (opcode : Nat) (r : Req) (s : State) : JobRef × State :=
  let n := s.freeSlot r.mb.val
  let b := s.mb r.mb.val
  (⟨r.mb.val, r.hostSeq, opcode, r.tag, n⟩, s.setMb r.mb.val { b with slots := b.slots ++ [n] })

/-! ## ADM_BOUNDS (R265) -/

/-- ADM_BOUNDS of some streams: to the subscribers of group 0x06 and, after a request, to its mailbox. -/
def tellStreams (hostSeq : Nat) (issuer : Option Nat) (ns : List Nat) (new : State) : State :=
  let ps := boundsPayloads new hostSeq ns.length ns.length ns
  forEach ps (fun p t =>
    if t.fwRuns then
      let t := match issuer with
        | some m => if t.mbOpen m then notifyOne 0x0680 p m t else t
        | none => t
      forEach ((t.subscribers 6).filter fun m => some m ≠ issuer) (notifyOne 0x0680 p) t
    else notify 0x0680 p t) new

/-- ADM_BOUNDS of the streams whose β or Γ a change alters. -/
def tellBounds (hostSeq : Nat) (issuer : Option Nat) (old new : State) : State :=
  tellStreams hostSeq issuer (changedBounds old new) new

/-- ADM_BOUNDS after a release or recomputation by the ledger unit (R259, R264). -/
def ledgerNotice (old new : State) : State := tellBounds 0xFFFFFFFF none old new

/-! ## Serving a request -/

/-- R65: what a v2 session reports for three statuses. -/
def v2Answer (v2 : Bool) (a : Ans) : Ans :=
  if v2 && (a.status == 0x0303 || a.status == 0x0304 || a.status == 0x0401) then ⟨0x0102, a.status, a.payload⟩ else a

/-- Generates a response entry (R56). Responses are not logged. -/
def respond (m : Nat) (hostSeq tag : W32) (opcode : Nat) (replay : Bool) (a : Ans) (s : State) : State :=
  let b := s.mb m
  let f := rspFrame b.version replay hostSeq b.hubSeq opcode a.status tag a.detail a.payload
  s.setMb m { b with hubSeq := b.hubSeq + 1
                     waiting := b.waiting ++ [{ isNotice := false, hubSeq := b.hubSeq, frame := f }] }

/-- A request is accepted: its host_seq and crc become the mailbox's last (R52, R55). -/
def acceptReq (opcode : Nat) (r : Req) (s : State) : State :=
  let b := s.mb r.mb.val
  s.setMb r.mb.val { b with seqSet := true, lastSeq := r.hostSeq
                            lastCrc := BitVec.ofNat 32 (getU (reqFrame b.version opcode r) 0x1C 4) }

/-- The response of an accepted request is generated and stored for replay (R52). -/
def storeAnswer (opcode : Nat) (r : Req) (a : Ans) (s : State) : State :=
  let s := respond r.mb.val r.hostSeq r.tag opcode false a s
  s.setMb r.mb.val { s.mb r.mb.val with
    stored := some ⟨opcode, a.status, r.tag, BitVec.ofNat 32 a.detail, a.payload⟩ }

/-- Serves a request that has passed checks 1 to 4: checks 5 to 13, its effect, its response, and the bounds that it
changed. -/
def serve (op : Op) (r : Req) (s : State) : State :=
  let s := acceptReq op.code r s
  let v2 := (s.mb r.mb.val).version2
  let (t, a) := perform op v2 r s
  let t := releaseFrom s.hcp.held.length (storeAnswer op.code r (v2Answer v2 a) t)
  if op.ledger then tellBounds r.hostSeq.toNat (some r.mb.val) s t else t

/-- Whether the response path of mailbox m has room for one more response: a ring of 64 slots, of one for mailbox 9
(R39, R47); mailbox 8 has no ring, and its next request is taken once the last response has gone to its source
(R45). -/
def State.responseRoom (s : State) (m : Nat) : Bool :=
  let b := s.mb m
  if m = 8 then b.waiting.all fun e => e.isNotice
  else if m = 9 then !s.hcp.spiReady && b.waiting.isEmpty
  else decide ((b.rspPi - b.rspCi).toNat + b.waiting.length < 64)

/-- Mailbox m can have a request taken: its session is OPEN, the firmware serves it, and its response has room. -/
def State.canTake (s : State) (m : Nat) : Bool :=
  (s.mb m).session == .opened && s.responseRoom m

/-- The hub serves requests at all: after BOOT, with the firmware running (R13, R29). -/
def State.serves (s : State) : Bool := (s.chip.phase == .serving || s.chip.phase == .safe) && s.fwRuns

/-- A request arrives at a mailbox that takes it; otherwise nothing happens (log entry 8). -/
def serveRow (op : Op) (r : Req) (s : State) : State :=
  if s.serves && s.canTake r.mb.val then
    (if r.mb.val = 8 then serve op r { s with hcp := { s.hcp with peer := s.hcp.replyTo.or s.hcp.peer } } else serve op r s)
  else s

end Sys2Proof.Machine
end

