-- ==== Sys2Proof/Machine/Admission.lean ====
section
/-! DEFINITION. The admission opcodes ADM_STATUS, ADM_BOUND_READ and ADM_LIMIT (R267; ADM_PROBE stands with the
service of requests). -/

namespace Sys2Proof.Machine

/-- The highest index that a resource has in Table ADM-6. -/
def indexTop (b : Nat) : Nat := if b = 4 then 15 else if b = 5 ∨ b = 6 then 23 else if b = 10 then 9 else 0

def opAdmStatus : Op :=
  { code := 0x0601
    len := exactly 4
    reads := fun _ _ => true
    fields := fun r _ => [fieldLe 0 (r.u8 0) 10] ++ reserved r 1 1 ++ [fieldLe 2 (r.u16 2) (indexTop (r.u8 0))]
    state := fun r s =>
      [(!(r.u8 0 == 5 || r.u8 0 == 6) || (s.port (24 * (r.u8 0 - 5) + r.u16 2)).state != .unconfigured, ansState s)]
    effect := fun r s =>
      let b := r.u8 0
      let i := r.u16 2
      let u := s.used b i
      ({ s with ledger := { s.ledger with peak := tset 0 s.ledger.peak (peakKey b i) u } },
       ansDone (le 1 b ++ zeros 1 ++ le 2 i ++ zeros 4 ++ le 8 (s.capacity b i) ++ le 8 u
         ++ le 8 (max u (tget 0 s.ledger.peak (peakKey b i)))
         ++ le 8 (if b = 0 then sumOf (s.pipes.map (·.1)) s.fadeCharge else 0))) }

/-- A term in 2^-16 ns, rounded up. -/
def termUnits (x : Rat) : Bytes := leI 8 (ceilR (x * 65536))

/-- ADM_BOUND_READ (Table ADM-8). -/
def boundPayload (s : State) (n : Nat) : Bytes :=
  let t := s.stream n
  let c := s.charged.contains n
  let b := s.bound n
  let term := fun (x : Rat) => if c then termUnits x else zeros 8
  let port := fun (g : Nat) => match t.place g with
    | some p => le 1 (p - 24 * g)
    | none => [0xFF]
  le 2 n ++ le 1 (s.boundFlags n) ++ port 0 ++ port 1 ++ le 1 (t.placeC.getD 0xFF) ++ zeros 2
    ++ le 8 (if c then b.beta else 0) ++ (if c then leI 8 b.gamma else zeros 8) ++ le 8 (s.ceiling n)
    ++ term b.src ++ term b.eng ++ term b.fill ++ term b.comp ++ term b.waitA ++ term b.waitB

def opAdmBoundRead : Op :=
  { code := 0x0602
    len := exactly 4
    reads := fun _ _ => true
    fields := fun r _ => [fieldLe 0 (r.u16 0) 1023] ++ reserved r 2 2
    effect := fun r s =>
      ({ s with ledger := { s.ledger with exceeded := tset false s.ledger.exceeded (r.u16 0) false } },
       ansDone (boundPayload s (r.u16 0))) }

def opAdmLimit : Op :=
  { code := 0x0603
    len := exactly 0x10
    ledger := true
    fields := fun r _ => [fieldLe 0 (r.u16 0) 1023] ++ reserved r 2 6
    effect := fun r s =>
      let n := r.u16 0
      let b := (s.betaGamma n).1
      if r.u64 8 ≠ 0 ∧ r.u64 8 < b then (s, ansCapacity [⟨11, n, b, r.u64 8⟩])
      else ({ s with ledger := { s.ledger with ceiling := tset 0 s.ledger.ceiling n (r.u64 8) } }, ansDone []) }

end Sys2Proof.Machine
end

