-- ==== Sys2Proof/Machine/Clock.lean ====
section
/-! DEFINITION. The TIME tick: what Hub Time and the counts of elapsed ticks do by themselves (R70, R71, R75, R82). -/

namespace Sys2Proof.Machine

/-- Hub Time after an advance of `inc` units of 2^-40 ns, less than a second (R71). -/
def TimeSt.advance (t : TimeSt) (inc : Nat) : TimeSt :=
  let f := t.frac40 + inc
  let ns := t.ns + f / 2 ^ 40
  { t with
    frac40 := f % 2 ^ 40
    ns := ns % 1000000000
    sec := (t.sec + ns / 1000000000) % 2 ^ 48 }

/-- One TIME tick: Hub Time advances by the effective rate word; the ticks of the slew and of the lock lease count. -/
def TimeSt.tick (t : TimeSt) : TimeSt :=
  let u := t.advance t.rateEff.toNat
  { u with slewTicks := u.slewTicks + 1, lease := u.lease - b2n (u.quality == .locked) }

/-- Hub Time and the count of ticks stay: they advance with the idle steps and move with offset steps and power alone (log
entry 11). -/
def keepClock (old new : State) : State :=
  { new with tick := old.tick
             time := { new.time with sec := old.time.sec, ns := old.time.ns, frac40 := old.time.frac40 } }

/-- One TIME tick passes; without VDD_AON there is no time base, and the tick counts for the island's own oscillator only
(DESIGN CHOICE, log entry 1). -/
def State.passTick (s : State) : State :=
  { s with time := if s.chip.rails.aon then s.time.tick else s.time, tick := s.tick + 1 }

end Sys2Proof.Machine
end

