-- ==== Sys2Proof/Machine/CalOps.lean ====
section
/-! DEFINITION. The calendar's own operations (R90-R103): insertion, scheduled requests, the firmware's entries; and
the named way to detect a fault (R373). -/

namespace Sys2Proof.Machine

/-- Source `src` of block b detects an event of a unit (R373); the reactions follow when the command's own effect is
complete (R376: all sources of one cycle act as one event). -/
def raise (b src unit : Nat) (s : State) : State :=
  { s with flt := { s.flt with detected := s.flt.detected ++ [⟨b, src, unit, none⟩] } }

/-- A memory fault detected with the line it concerns. -/
def raiseLine (b src unit : Nat) (line : UncorrLine) (s : State) : State :=
  { s with flt := { s.flt with detected := s.flt.detected ++ [⟨b, src, unit, some line⟩] } }

/-- The entry takes the next insertion number (R93). -/
def insertEntry (e : CalEntry) (s : State) : State :=
  { s with cal := { s.cal with entries := s.cal.entries ++ [{ e with ins := s.cal.nextIns }], nextIns := s.cal.nextIns + 1 } }

/-- Acceptance of a scheduled request: a notification slot, a calendar entry, ACCEPTED (R51, R90). -/
def schedule (opcode cls : Nat) (action : Action) (r : Req) (s : State) : State × Ans :=
  let (j, s) := takeJob opcode r s
  (insertEntry { time := r.at_, cls := cls, ins := 0, action := action, job := some j } s, ansAccepted j.slot)

/-- An entry of the firmware's own reserve of 32 (R90); where the reserve is full it is not inserted. -/
def firmwareEntry (cls : Nat) (time : T16) (action : Action) (period : Nat) (s : State) : State :=
  if (s.cal.entries.filter (·.fw)).length < 32 then
    insertEntry { time := time, cls := cls, ins := 0, action := action, period := period, fw := true } s
  else s

/-- The first whole second at least 10 us ahead (R99, R121). -/
def State.nextSecond (s : State) : T16 := cdiv ((nsOf s.now + 10000) * 65536) unitsPerSec * unitsPerSec

/-- Whether an offset step is queued, of any kind or with a sub-second part (R78, Table TIME-11). -/
def CalEntry.isStep (e : CalEntry) : Bool := match e.action with
  | .offsetStep _ _ => true
  | _ => false

def CalEntry.isSubStep (e : CalEntry) : Bool := match e.action with
  | .offsetStep ns fr => !(ns % 1000000000 == 0 && fr == 0)
  | _ => false

def State.stepQueued (s : State) : Bool := s.cal.entries.any (·.isStep)
def State.subStepQueued (s : State) : Bool := s.cal.entries.any (·.isSubStep)

/-- Whether some channel is enabled (R78). -/
def State.anyChannel (s : State) : Bool := s.channels.any fun c => c.2.enabled

/-! ## The time base (R74, R82) -/

/-- A write of the target rate word: within 500 ppm it is taken and the slew's ticks count from it; otherwise it is
ignored and sets RATE_RANGE (R74). -/
def writeRate (word : Nat) (s : State) : State :=
  if 2 ^ 40 ≤ word + 549755813 ∧ word ≤ 2 ^ 40 + 549755813 then
    { s with time := { s.time with rateTarget := BitVec.ofNat 48 word, slewTicks := 0 } }
  else raise 0 0 0 s

/-- LOCKED becomes HOLDOVER, the lease cleared; any other quality stays (Table TIME-4). -/
def dropLock (s : State) : State :=
  if s.time.quality = .locked then { s with time := { s.time with quality := .holdover, lease := 0 } } else s

/-- A time-quality write by the firmware (Table TIME-4). -/
def writeQuality (q : Quality) (s : State) : State :=
  match s.time.quality, q with
  | .free, .locked => { s with time := { s.time with quality := .locked, lease := 1500000000 } }
  | .holdover, .locked => { s with time := { s.time with quality := .locked, lease := 1500000000 } }
  | .locked, .holdover => { s with time := { s.time with quality := .holdover, lease := 0 } }
  | .holdover, .free => { s with time := { s.time with quality := .free } }
  | _, _ => raise 0 1 0 s

/-- A lease renewal by the firmware (Table TIME-4). -/
def renewLease (s : State) : State :=
  if s.time.quality = .locked then { s with time := { s.time with lease := 1500000000 } } else raise 0 1 0 s

end Sys2Proof.Machine
end

