-- ==== Sys2Proof/Machine/Ecc.lean ====
section
/-! DEFINITION. The error-correcting codes of the on-chip memories (01_architecture, R18-R23): the sizes of the regions, the
SECDED code of a 64-bit word, the Reed-Solomon code of a 512-byte line, and what a controller makes of a line whose
stored bits are upset. Both codes are linear and the written arrays hold code words, so what a read meets is given by
the flipped bits alone. -/

namespace Sys2Proof.Machine

/-! ## Regions (Table ARCH-5, R18) -/

/-- Data bytes of a region; check bits and check symbols occupy none of them. No command changes a size. -/
def regionBytes : Nat → Nat
  | 0 => 192 * 2 ^ 20
  | 1 => 32 * 2 ^ 20
  | 2 => 16 * 2 ^ 20
  | 3 => 8 * 2 ^ 20
  | 4 => 6 * 2 ^ 20
  | 5 => 2 * 2 ^ 20
  | _ => 0

/-- Capture and stream memory carry the outer code too. -/
def hasOuter (region : Nat) : Bool := region == 0 || region == 1

/-- Bytes of what one log entry names: a line, or a 64-bit word where there is no outer code (Table FLT-5). -/
def lineBytes (region : Nat) : Nat := if hasOuter region then 512 else 8

/-! ## The inner code (R19) -/

/-- Flipped bits of a mask. -/
def popcount (b : Byte) : Nat := ((List.range 8).filter fun i => b.getLsbD i).length

/-- The flips of one place among several. -/
def flipAt (xs : List (Nat × Byte)) (i : Nat) : Byte := (xs.filter fun x => x.1 == i).foldl (fun b x => b ^^^ x.2) 0

/-- Flipped bits of a 64-bit word of the line, its 8 check bits included. -/
def wordFlips (u : Upset) (w : Nat) : Nat :=
  ((List.range 8).map fun i => popcount (flipAt u.data (8 * w + i))).sum + popcount (flipAt u.inner w)

/-- The word is corrected on the access: one bit is flipped. -/
def wordFixed (u : Upset) (w : Nat) : Bool := wordFlips u w == 1

/-- The word is reported uncorrectable: two bits are flipped, or more (DESIGN CHOICE for more, log entry 96). -/
def wordLost (u : Upset) (w : Nat) : Bool := decide (2 ≤ wordFlips u w)

/-- The words of a line. -/
def lineWords (region : Nat) : List Nat := List.range (lineBytes region / 8)

/-! ## The field of the outer code (R20): GF(2^8) with x^8 + x^4 + x^3 + x^2 + 1 -/

/-- Multiplication by x. -/
def gfX (a : Nat) : Nat := if 128 ≤ a then (2 * a) ^^^ 0x11D else 2 * a

/-- The product of a with the low n bits of b. -/
def gfMulN (a b : Nat) : Nat → Nat
  | 0 => 0
  | n + 1 => (if b.testBit 0 then a else 0) ^^^ gfMulN (gfX a) (b / 2) n

def gfMul (a b : Nat) : Nat := gfMulN a b 8

/-- The n-th power of x, which generates the field. -/
def gfExp : Nat → Nat
  | 0 => 1
  | n + 1 => gfX (gfExp n)

/-- The inverse, a^254 = a^2 a^4 ... a^128. -/
def gfInv (a : Nat) : Nat :=
  let sq := fun (x : Nat) => gfMul x x
  let a2 := sq a
  let a4 := sq a2
  let a8 := sq a4
  let a16 := sq a8
  let a32 := sq a16
  let a64 := sq a32
  gfMul a2 (gfMul a4 (gfMul a8 (gfMul a16 (gfMul a32 (gfMul a64 (sq a64))))))

/-! ## The outer code (R20) -/

/-- Symbols of a code word: 128 data symbols and 4 check symbols. -/
def rsLength : Nat := 132

/-- The errors of code word c of a line, by symbol: byte i of the line is symbol i / 4 of code word i mod 4, and check symbol j
of the line's 16 is symbol 128 + j / 4 of code word j mod 4. A word that the inner code corrects brings none. -/
def rsErrors (u : Upset) (c : Nat) : List (Nat × Nat) :=
  let e := fun (i : Nat) =>
    if i < 128 then (if wordLost u ((4 * i + c) / 8) then (flipAt u.data (4 * i + c)).toNat else 0)
    else (flipAt u.outer (4 * (i - 128) + c)).toNat
  (List.range rsLength).filterMap fun i => if e i = 0 then none else some (i, e i)

/-- Syndrome j: the received word at the root x^j; symbol i has the weight x^(131 - i). The roots are 1, x, x^2 and x^3
(DESIGN CHOICE, log entry 96). -/
def syndrome (es : List (Nat × Nat)) (j : Nat) : Nat :=
  es.foldl (fun t e => t ^^^ gfMul e.2 (gfExp (j * (rsLength - 1 - e.1)))) 0

/-- One error: its locator is s1 / s0. -/
def rsSingle (s0 s1 s2 s3 : Nat) : Option (List (Nat × Nat)) :=
  let x := gfMul s1 (gfInv s0)
  if s0 ≠ 0 ∧ gfMul s1 x = s2 ∧ gfMul s2 x = s3 then
    ((List.range rsLength).find? fun i => gfExp (rsLength - 1 - i) == x).map fun i => [(i, s0)]
  else none

/-- Two errors: their locators are the roots of X^2 + a X + b, where s2 = a s1 + b s0 and s3 = a s2 + b s1. -/
def rsDouble (s0 s1 s2 s3 : Nat) : Option (List (Nat × Nat)) :=
  let det := gfMul s1 s1 ^^^ gfMul s0 s2
  let a := gfMul (gfMul s1 s2 ^^^ gfMul s0 s3) (gfInv det)
  let b := gfMul (gfMul s2 s2 ^^^ gfMul s1 s3) (gfInv det)
  let roots := (List.range rsLength).filter fun i =>
    let x := gfExp (rsLength - 1 - i)
    gfMul x x ^^^ gfMul a x ^^^ b == 0
  match roots with
  | [i, j] =>
    let x := gfExp (rsLength - 1 - i)
    let y := gfExp (rsLength - 1 - j)
    let e := gfMul (s1 ^^^ gfMul y s0) (gfInv (x ^^^ y))
    if det = 0 then none else some [(i, e), (j, e ^^^ s0)]
  | _ => none

/-- What the decoder corrects: the errors of symbols, up to two. -/
def rsDecode (es : List (Nat × Nat)) : Option (List (Nat × Nat)) :=
  let s := syndrome es
  if s 0 = 0 ∧ s 1 = 0 ∧ s 2 = 0 ∧ s 3 = 0 then some []
  else (rsSingle (s 0) (s 1) (s 2) (s 3)).orElse fun _ => rsDouble (s 0) (s 1) (s 2) (s 3)

/-- Code word c is repaired: at most 2 of its symbols are in error, and the decoder finds them. -/
def rsRepairs (u : Upset) (c : Nat) : Bool :=
  let es := rsErrors u c
  decide (es.length ≤ 2) && rsDecode es == some es

/-! ## A controller's reading of a line (R19, R21, R22) -/

/-- What comes of reading a line: every word is right, or was corrected on the access; the outer code repairs it; neither
code can. -/
inductive LineRead where
  | fine | repaired | uncorrectable
  deriving DecidableEq, Repr

def readUpset (u : Upset) (region : Nat) : LineRead :=
  if (lineWords region).all fun w => !wordLost u w then .fine
  else if hasOuter region && (List.range 4).all (rsRepairs u) then .repaired
  else .uncorrectable

/-- Words corrected on the access. -/
def fixedWords (u : Upset) (region : Nat) : Nat := ((lineWords region).filter (wordFixed u)).length

/-- The flips that stay in byte i of the line as it is delivered: only a line that neither code can repair has any, in
the words that the inner code did not correct. -/
def leftFlips (u : Upset) (region i : Nat) : Byte :=
  if readUpset u region = .uncorrectable ∧ wordLost u (i / 8) then flipAt u.data i else 0

/-- What a write-back leaves of an upset (R21, R23): of an uncorrectable line everything but what the inner code corrects,
of any other nothing. -/
def writtenBack (u : Upset) (region : Nat) : Upset :=
  if readUpset u region = .uncorrectable then
    { u with data := u.data.filter fun x => !wordFixed u (x.1 / 8), inner := u.inner.filter fun x => !wordFixed u x.1 }
  else {}

/-! ## Upset lines of the memories -/

/-- The key of a line in the table of upset lines. -/
def lineKey (region address : Nat) : Nat := region * 2 ^ 32 + address / lineBytes region * lineBytes region

/-- The flipped bits of the line at a byte address of a region. -/
def State.upset (s : State) (region address : Nat) : Upset := tget {} s.flt.upsets (lineKey region address)

def State.setUpset (s : State) (region address : Nat) (u : Upset) : State :=
  { s with flt := { s.flt with upsets := tset {} s.flt.upsets (lineKey region address) u } }

/-- The byte at an address of a region as a read delivers it, where `b` was written. -/
def State.delivered (s : State) (region address : Nat) (b : Byte) : Byte :=
  let u := s.upset region address
  if u = {} then b else b ^^^ leftFlips u region (address % lineBytes region)

/-- The upset lines of a region that lie in a range of addresses. -/
def State.upsetLines (s : State) (region lo len : Nat) : List Nat :=
  (s.flt.upsets.filter fun x => decide (x.1 / 2 ^ 32 = region) && decide (x.1 % 2 ^ 32 < lo + len)
    && decide (lo < x.1 % 2 ^ 32 + lineBytes region)).map fun x => x.1 % 2 ^ 32

/-! ## What a controller does with a line that it reads (R19, R21, R22) -/

/-- Adds to the corrected-error counter of a region (R19). -/
def countCorrected (region n : Nat) (s : State) : State :=
  { s with flt := { s.flt with corrected := tset 0 s.flt.corrected region ((tget 0 s.flt.corrected region + n) % 2 ^ 64) } }

/-- Counts an outer correction of a region (R21). -/
def countOuter (region : Nat) (s : State) : State :=
  { s with flt := { s.flt with outer := tset 0 s.flt.outer region ((tget 0 s.flt.outer region + 1) % 2 ^ 64) } }

/-- The fault source of an uncorrectable line: the controller's own for the memories with an outer code (R22), the owning
block's for the others (Table FLT-4); its unit is `owner` there. -/
def lineSource (region owner : Nat) : Nat × Nat × Nat :=
  match region with
  | 0 => (14, 0, 0)
  | 1 => (14, 1, 1)
  | 2 => (6, 1, owner)
  | 3 => (6, 0, owner)
  | 4 => (15, 1, 0)
  | _ => if owner < 16 then (9, 2, owner) else (10, 0, owner - 16)

/-- A controller reads a line: words that the inner code corrects are counted, a line that the outer code repairs is written
back and counted, a line that neither repairs is reported with `line`. -/
def meetLine (region address : Nat) (line : UncorrLine) (s : State) : State :=
  let u := s.upset region address
  let s := countCorrected region (fixedWords u region) s
  match readUpset u region with
  | .fine => s
  | .repaired => raise 14 2 region (countOuter region (s.setUpset region address {}))
  | .uncorrectable =>
    let x := lineSource region line.id.toNat
    raiseLine x.1 x.2.1 x.2.2 line s

end Sys2Proof.Machine
end

