-- ==== Sys2Proof/Machine/Frames.lean ====
section
/-! DEFINITION. The Bamgiusk Link's blocks, frames and messages (Tables LANE-3, INP-3, INP-4, R174-R178), the frames of
Serial Converter Ports (R179, R180), the index rules of the source kinds (R165), and the edges of the hub's clocks
(R166, R180). -/

namespace Sys2Proof.Machine

/-! ## Control blocks (Tables LANE-3 and INP-3) -/

def xorBytes (b : Bytes) : Byte := b.foldl (· ^^^ ·) 0

/-- A control block with its check byte. -/
def controlBlock (b : Bytes) : Bytes := b ++ [xorBytes b]

/-- The check byte of a received block holds. -/
def checkHolds (b : Bytes) : Bool := b.length == 8 && xorBytes b == 0

/-- A control block of a type whose check holds; one whose check fails is ignored (R149, R174). -/
def isControl (type : Nat) (x : Block) : Bool := x.control && checkHolds x.bytes && getU x.bytes 0 1 == type

def markerBlock (sender : W16) (ready : Bool) : Bytes := controlBlock (le 1 0xB8 ++ zeros 3 ++ le 2 sender.toNat ++ le 1 (b2n ready))

def trainingBlock (lane width : Nat) (linkId : Byte) (sender : W16) (ready : Bool) : Bytes :=
  controlBlock (le 1 0xB7 ++ le 1 lane ++ le 1 width ++ [linkId] ++ le 2 sender.toNat ++ le 1 (b2n ready))

/-- The header of a hub's frame: 0xBC with the marker number in a marker frame, else 0xBB with the sender's time quality
and the frame number. -/
def hubHeader (quality frame : Nat) : Bytes :=
  if frame % 1024 = 0 then controlBlock (le 1 0xBC ++ le 6 (frame / 1024 % 2 ^ 48))
  else controlBlock (le 1 0xBB ++ le 1 quality ++ le 5 (frame % 2 ^ 40))

/-! ## Messages (R178) -/

/-- The message that a type and a body make. -/
def messageBytes (type : Nat) (body : Bytes) : Bytes := le 1 type ++ zeros 1 ++ le 2 body.length ++ body

/-- One message block; `data` has at most 5 bytes. -/
def messageBlock (stream : Nat) (first last : Bool) (data : Bytes) : Bytes :=
  controlBlock (le 1 0xBF ++ le 1 (data.length + 8 * b2n first + 16 * b2n last + 32 * stream) ++ padTo 5 data)

/-- A message block of a frame in which nothing is sent. -/
def idleMessageBlock : Bytes := messageBlock 0 false false []

/-- The blocks of a message, from its start block to its end block. -/
def messageBlocks (stream : Nat) (m : Bytes) : List Bytes :=
  let n := cdiv m.length 5
  (List.range n).map fun i => messageBlock stream (i == 0) (i + 1 == n) ((m.drop (5 * i)).take 5)

/-- The block belongs to a stream. A block whose check fails cannot say to which: it counts to the one that is read. -/
def ofStream (stream : Nat) (b : Bytes) : Bool := !checkHolds b || (getU b 0 1 == 0xBF && getU b 1 1 / 32 % 2 == stream)

/-- The message that a run of received blocks carries on a stream: every check holds, the first block alone starts it and
the last alone ends it. -/
def readMessage (stream : Nat) (blocks : List Bytes) : Option Bytes :=
  let bs := blocks.filter (ofStream stream)
  let flags := bs.map fun b => getU b 1 1
  if bs.all checkHolds && !bs.isEmpty
      && flags.map (fun a => bit a 3) == (List.range bs.length).map (· == 0)
      && flags.map (fun a => bit a 4) == (List.range bs.length).map (fun i => i + 1 == bs.length)
      && flags.all fun a => decide (a % 8 ≤ 5) then
    some (bs.flatMap fun b => sub b 2 (getU b 1 1 % 8))
  else none

/-! ## Upstream frames (R174, R175) -/

/-- The block at a position of a logical lane. -/
def blockAt (f : BglFrame) (lane pos : Nat) : Block := ((f.lanes.getD lane []).getD pos ⟨false, zeros 8⟩)

/-- A marker frame: its first block is the marker on logical lane 0. -/
def isMarkerFrame (f : BglFrame) : Bool := isControl 0xB8 (blockAt f 0 0)

/-- The frame-header block, where it arrived. -/
def frameHeader (f : BglFrame) : Option Bytes :=
  let x := blockAt f 0 (b2n (isMarkerFrame f))
  if isControl 0xBA x then some x.bytes else none

/-- The payload: the data blocks in time order of position and, within one, in logical-lane order. -/
def framePayload (width blocks : Nat) (f : BglFrame) : Bytes :=
  let k := b2n (isMarkerFrame f)
  (List.range blocks).flatMap fun p => ((List.range width).filter fun i =>
    decide (k ≤ p) && !(i == 0 && decide (p < k + 2))).flatMap fun i => (blockAt f i p).bytes

/-- The CRC-32C in the last four bytes holds. -/
def payloadCrc (b : Bytes) : Bool := getU b (b.length - 4) 4 == crc32c (b.take (b.length - 4))

/-- The sample word of sample time j of converter m, among `width` converters. -/
def sampleWord (b : Bytes) (width j m : Nat) : Nat := getU b (2 * (width * j + m)) 2

/-- The auxiliary entries from an offset on, up to the entry 0xFF: slot, low index, container. `fuel` bounds their number. -/
def auxEntries : Nat → Bytes → List (Nat × Nat × Nat)
  | 0, _ => []
  | fuel + 1, b => if b.length < 8 ∨ getU b 0 1 = 0xFF then [] else (getU b 0 1, getU b 2 2, getU b 4 4) :: auxEntries fuel (b.drop 8)

/-! ## Frames of a Serial Converter Port (R179, R180) -/

/-- Bits of a frame on one line. -/
def Scp.frameBits (p : Scp) : Nat := p.sclk / max 1 p.fs

/-- The word of a slot, most significant bit first, from the bits captured on a line after the FS edge: the first bit of slot 0
lies on the capture edge numbered offset + 1. Bits beyond the end of the frame read as 0. -/
def Scp.slotWord (p : Scp) (line slot : Nat) (bits : List Bool) : Nat :=
  let frame := bits.take p.frameBits
  (List.range p.slotBits).foldl (fun v i => 2 * v + b2n (frame.getD (tget 0 p.slip line + p.slotBits * slot + i) false)) 0

/-- The FS edge of absolute frame j, in 2^-16 ns; `activeLow` tells whether FS falls or rises there. -/
def Scp.fsEdge (p : Scp) (j : Int) : Rat := (j : Rat) * unitsPerSec / ((max 1 p.fs : Nat) : Rat)
def Scp.activeLow (p : Scp) : Bool := p.flags.getLsbD 1

/-! ## Clock edges (R166) -/

/-- The rising edges of a running device clock: n periods and the phase after the whole second `sec`. -/
def Dclk.edge (d : Dclk) (sec : Nat) (n : Int) : Rat :=
  ((sec * unitsPerSec : Nat) : Rat) + ((4096 * n + d.phase : Int) : Rat) * unitsPerSec / ((4096 * max 1 d.freq : Nat) : Rat)

/-- The first rising edge at or after a time. -/
def Dclk.nextEdge (d : Dclk) (t : T16) : Rat :=
  let sec := t / unitsPerSec
  d.edge sec (ceilR (((t % unitsPerSec : Nat) : Rat) * ((max 1 d.freq : Nat) : Rat) / unitsPerSec - (d.phase : Rat) / 4096))

/-! ## Absolute indices (R165, Table INP-1) -/

/-- The absolute index with given low bits whose instant is nearest to a time (R177). -/
def extendIndex (bits low fs : Nat) (t : Rat) : Int :=
  let target := t * (fs : Rat) / (unitsPerSec : Rat)
  (low : Int) + (2 ^ bits : Nat) * rheR ((target - (low : Rat)) / ((2 ^ bits : Nat) : Rat))

/-- The word of a frame and sample of the multiframe launched at the boundary numbered b: b x fs - Q + S x f + s (R184). -/
def Jesd.index (j : Jesd) (w : JesdWord) : Int := w.multiframe * (j.spm : Int) - (j.q : Int) + ((j.s * w.frame + w.sample : Nat) : Int)

/-- The absolute sample of the words of absolute frame j (R180). -/
def Scp.index (p : Scp) (j : Int) : Int := j - (p.lag : Int)

/-- A channel's index of an absolute index (R163). -/
def Channel.ofAbs (c : Channel) (k : Int) : Int := k - ((c.epoch * c.fs : Nat) : Int)

/-- A word has arrived for a channel that still has to release it. -/
def Channel.arrive (c : Channel) (abs : Int) (word : W32) : Channel :=
  let k := c.ofAbs abs
  if c.kNext ≤ k then { c with arrived := c.arrived ++ [(k, word)] } else c

end Sys2Proof.Machine
end

