-- ==== Sys2Proof/Machine/LaneOps.lean ====
section
/-! DEFINITION. Which lanes belong to what, and when a lane is in use or carries admitted traffic (R137-R141). -/

namespace Sys2Proof.Machine

/-- Lanes of an uplink port: four for 100GBASE-R, otherwise one (R352). -/
def Port.lanes (p : Port) : List Nat :=
  if p.state = .unconfigured then [] else if p.protocol = 5 then (List.range 4).map (p.firstLane + ·) else [p.firstLane]

/-- The uplink port that a lane is a member of. -/
def State.lanePort (s : State) (l : Nat) : Option Nat := (s.upl.ports.find? fun p => p.2.lanes.contains l).map (·.1)

/-- Lanes of a Bamgiusk Link that is not disabled. -/
def Bgl.lanes (b : Bgl) : List Nat := if b.state = .disabled then [] else (List.range b.width).map (b.first + ·)

/-- The Bamgiusk Link, not disabled, that a lane is a member of. -/
def State.laneBgl (s : State) (l : Nat) : Option Nat := (s.bgls.find? fun p => p.2.lanes.contains l).map (·.1)

/-- The JESD input link that a lane is configured for. -/
def State.laneJesd (s : State) (l : Nat) : Option Nat :=
  (s.jesds.find? fun p => decide (p.2.base.state ≠ .unconfigured) && p.2.lanes.contains l).map (·.1)

/-- Settings of a PTP port: uplink n, management 48, Bamgiusk Link 64 + n. -/
def State.ptp (s : State) (k : Nat) : PtpCfg := tget {} s.xfer.ptp k
def State.setPtp (s : State) (k : Nat) (x : PtpCfg) : State :=
  { s with xfer := { s.xfer with ptp := tset {} s.xfer.ptp k x } }

def ptpKey : PtpPort → Nat
  | .uplink n => n.val
  | .mgmt => 48
  | .bgl n => 64 + n.val

/-- Whether an uplink port has Synchronous-Ethernet transmit enabled. -/
def State.syncTx (s : State) (p : Nat) : Bool := bit (getU (s.ptp p).settings 9 1) 1

/-- The transmit PLL of a quad runs: a lane of it has its transmit direction in ACTIVE or STANDBY (R155). -/
def State.txPll (s : State) (quad : Nat) : Bool := (List.range 4).any fun i => (s.lane (4 * quad + i)).txPower != 2

/-- The transmit PLL of a quad is time-locked (R138): it runs, and a lane of the quad is a member of a Bamgiusk Link or of a
port with Synchronous-Ethernet transmit. A lane of protocol 6 or 7 counts from the moment its link is configured
(DESIGN CHOICE, log entry 103). -/
def State.timeLocked (s : State) (quad : Nat) : Bool :=
  s.txPll quad && (List.range 4).any fun i =>
    (s.laneBgl (4 * quad + i)).isSome || (match s.lanePort (4 * quad + i) with
      | some p => s.syncTx p
      | none => false)

def State.anyTimeLocked (s : State) : Bool := (List.range 40).any s.timeLocked

/-- Whether Easel link n is enabled in XFER_CONFIG. -/
def State.easelOn (s : State) (n : Nat) : Bool := bit s.xfer.easel.toNat n

/-- The Bamgiusk Link in peer mode that is Easel link n. -/
def State.easelBgl (s : State) (n : Nat) : Option Nat :=
  (s.bgls.find? fun p => decide (p.2.state ≠ .disabled) && p.2.mode == 2 && p.2.easel == n).map (·.1)

/-- Easel link n is brought up in peer mode (R136). -/
def State.easelUp (s : State) (n : Nat) : Bool := match s.easelBgl n with
  | some b => (s.bgl b).state == .up
  | none => false

/-- The lane of Easel link n, the unit of its faults. -/
def State.easelLane (s : State) (n : Nat) : Nat := match s.easelBgl n with
  | some b => (s.bgl b).first
  | none => 0

/-- A lane is in use (R141): bound to a converter link in the channel table, a member of an uplink port, or of a
Bamgiusk Link that is not disabled. A lane is bound where its JESD link has a channel bound to it (DEDUCED, log entry 12). -/
def State.laneInUse (s : State) (l : Nat) : Bool :=
  (match s.laneJesd l with
    | some j => !(s.linkChans 1 j).isEmpty
    | none => false) || (s.lanePort l).isSome || (s.laneBgl l).isSome

/-- A link feeds a channel that is bound to an enabled pipe. -/
def State.feedsPipe (s : State) (kind n : Nat) : Bool :=
  (s.linkChans kind n).any fun c => (s.chanPipes c).any fun p => (s.pipe p).enabled

/-- A lane in use carries admitted traffic (R141). -/
def State.laneTraffic (s : State) (l : Nat) : Bool :=
  (match s.laneJesd l with
    | some j => s.feedsPipe 1 j
    | none => false) ||
  (match s.lanePort l with
    | some p => s.enabledIn (groupOf p)
    | none => false) ||
  (match s.laneBgl l with
    | some b => s.feedsPipe 2 b || (decide ((s.bgl b).mode = 2) && s.easelOn (s.bgl b).easel)
    | none => false)

end Sys2Proof.Machine
end

