-- ==== Sys2Proof/Machine/Transfer.lean ====
section
/-! DEFINITION. Time transfer and the keeper pair (04_time_transfer): PTP stamps, phase measurement, the servo of
Table XFER-4, Easel heartbeats, snapshots, and their opcodes. -/

namespace Sys2Proof.Machine

def roleCode : Role → Nat
  | .host => 0
  | .standalone => 1
  | .keeper => 2
  | .partner => 3
  | .follower => 4

def roleOf (n : Nat) : Role :=
  if n = 0 then .host else if n = 1 then .standalone else if n = 2 then .keeper else if n = 3 then .partner else .follower

def servoCode : Servo → Nat
  | .idle => 0
  | .acquire => 1
  | .stepPending => 2
  | .steer => 3
  | .track => 4
  | .holdover => 5

def servoOf (n : Nat) : Servo :=
  if n = 1 then .acquire else if n = 2 then .stepPending else if n = 3 then .steer else if n = 4 then .track
  else if n = 5 then .holdover else .idle

def State.setXfer (s : State) (x : Xfer) : State := { s with xfer := x }

/-- XFER_STATUS response payload (Table XFER-11). -/
def xferStatusPayload (s : State) : Bytes :=
  let x := s.xfer
  le 1 (roleCode x.roleCfg) ++ le 1 (roleCode x.roleAct) ++ le 1 (servoCode x.servo) ++ le 1 (qCode s.time.quality)
    ++ le 2 x.hubIdF.toNat ++ le 1 x.priorityF.toNat
    ++ le 1 (mask [!x.snaps.isEmpty, x.mismatch, x.clamped, x.following])
    ++ leI 8 x.e ++ leI 8 x.integ ++ le 8 x.gmId.toNat ++ le 2 x.gmPort.toNat ++ le 1 x.domain.toNat
    ++ le 1 (min x.missed 3) ++ le 2 x.snapSeq.toNat ++ zeros 2 ++ ts96 x.snapTime
    ++ le 4 x.takeovers.toNat ++ le 4 x.stepbacks.toNat ++ zeros 4

/-- The notices of R135, for whatever a change altered: acting role, grandmaster, servo state. -/
def tellTransfer (old : Xfer) (s : State) : State :=
  let s := if old.roleAct = s.xfer.roleAct then s else notify 0x0AC0 (xferStatusPayload s) s
  let s := if old.gmId = s.xfer.gmId ∧ old.gmPort = s.xfer.gmPort then s else notify 0x0AC1 (xferStatusPayload s) s
  if old.servo = s.xfer.servo then s else notify 0x0AC2 (xferStatusPayload s) s

/-! ## Asymmetry table (R122) -/

def State.asymEntry (s : State) (i : Nat) : Bytes := tget (zeros 16) s.xfer.asym i
def State.setAsym (s : State) (i : Nat) (e : Bytes) : State :=
  s.setXfer { s.xfer with asym := tset (zeros 16) s.xfer.asym i e }

/-- The entry that applies to a path of this hub. -/
def State.asymFor (s : State) (kind index : Nat) : Option Bytes :=
  (s.xfer.asym.find? fun p => getU p.2 0 2 == s.chip.hubId.toNat && getU p.2 2 1 == kind && getU p.2 3 1 == index).map (·.2)

/-- The path of a PTP port in the asymmetry table; a converter-mode link has none. -/
def ptpPath (s : State) : PtpPort → Option (Nat × Nat)
  | .uplink n => some (0, n.val)
  | .mgmt => some (1, 0)
  | .bgl n => if (s.bgl n.val).mode = 2 then some (2, (s.bgl n.val).easel) else none

/-- A signed field of the asymmetry entry of a path: delay asymmetry at offset 4, ingress at 8, egress at 12; 0 without an
entry. -/
def State.asymField (s : State) (path : Option (Nat × Nat)) (o : Nat) : Int :=
  match path.bind fun p => s.asymFor p.1 p.2 with
  | some e => getI e o 4
  | none => 0

/-- A stamp with the ingress (offset 8) or egress (offset 12) adjustment of its path, at Hub Time 0 or later. -/
def adjusted (s : State) (p : PtpPort) (o : Nat) (t : T16) : T16 := ((t : Int) + s.asymField (ptpPath s p) o).toNat

/-! ## PTP (R107-R109) -/

/-- The unit of a PTP port's faults: the first lane it uses (the management port has no lane unit; log entry 14). -/
def ptpUnit (s : State) : PtpPort → Nat
  | .uplink n => (s.port n.val).firstLane
  | .mgmt => 0
  | .bgl n => (s.bgl n.val).first

/-- The port is enabled for PTP and its medium is up; in SAFE the uplinks carry none (Table UPL-6). -/
def ptpOn (s : State) (p : PtpPort) : Bool :=
  decide (getU (s.ptp (ptpKey p)).settings 2 1 ≠ 0) && (s.chip.phase == .serving || s.chip.phase == .safe) &&
  (match p with
    | .uplink n => (s.port n.val).state == .up && decide (s.chip.phase ≠ .safe)
    | .mgmt => true
    | .bgl n => (s.bgl n.val).state == .up)

/-- Octets of a message before its TLVs, by messageType: Announce 64, Delay_Resp 54, the others 44. -/
def tlvStart (type : Nat) : Nat := if type = 11 then 64 else if type = 9 then 54 else 44

/-- The types of the TLVs behind a message, `fuel` at most. -/
def tlvTypes : Nat → Bytes → List Nat
  | 0, _ => []
  | fuel + 1, b => if b.length < 4 then [] else ofBe (sub b 0 2) :: tlvTypes fuel (b.drop (4 + ofBe (sub b 2 2)))

def tlvsOf (msg : Bytes) : List Nat := tlvTypes msg.length (msg.drop (tlvStart (getU msg 0 1 % 16)))

/-- The port is an uplink port with Synchronous-Ethernet transmit enabled, which supports the L1Sync option (Table XFER-1). -/
def State.l1Sync (s : State) : PtpPort → Bool
  | .uplink n => s.syncTx n.val
  | _ => false

/-- Whether a PTP message uses a feature that Table XFER-1 does not support: another PTP version, peer delay, signalling but for
L1Sync where the port has it, another domain, another transport, a second 802.1Q tag, a security TLV (PRESUMED codes and header
layout of IEEE 1588-2019, log entry 14). -/
def ptpUnsupported (s : State) (p : PtpPort) (f : PtpFrame) : Bool :=
  let ty := getU f.msg 0 1 % 16
  decide (getU f.msg 1 1 % 16 ≠ 2) || ty == 2 || ty == 3 || ty == 10 || decide (getU f.msg 4 1 ≠ s.xfer.domain.toNat)
    || (ty == 12 && !(s.l1Sync p && (tlvsOf f.msg).contains 0x8001))
    || decide (f.transport ≠ getU (s.ptp (ptpKey p)).settings 3 1) || decide (1 < f.tags.length)
    || (tlvsOf f.msg).any fun x => x == 0x8009 || x == 0x2000

/-- PTP_FRAME_RX: a message of the port's VLAN is stamped and passed to the firmware; one that uses an unsupported feature is counted;
management messages are ignored. -/
def ptpFrameRx (p : PtpPort) (crossing : T16) (f : PtpFrame) (s : State) : State :=
  let c := s.ptp (ptpKey p)
  if !ptpOn s p then s
  else if ptpUnsupported s p f then s.setPtp (ptpKey p) { c with errors := c.errors + 1 }
  else if getU f.msg 0 1 % 16 = 13 ∨ f.tags.headD 0 ≠ getU c.settings 10 2 % 4096 then s
  else s.setPtp (ptpKey p) { c with received := (adjusted s p 8 crossing, f.msg) :: c.received }

/-- The two octets that keep a UDP checksum correct after a field of the message has been replaced (R109): the
ones'-complement difference of the old and the new words. -/
def checksumFix (old new : Bytes) : Bytes :=
  let sum := fun (b : Bytes) => ((List.range (cdiv b.length 2)).foldl (fun n i => n + ofBe (sub b (2 * i) 2)) 0) % 65535
  be 2 ((sum old + 65535 - sum new) % 65535)

/-- originTimestamp of IEEE 1588-2019: 48-bit seconds and 32-bit nanoseconds, most significant octet first. -/
def ptpTimestamp (t : T16) : Bytes := be 6 (t / unitsPerSec) ++ be 4 (t % unitsPerSec / 65536)

/-- The acting role disciplines the hub towards the network (Table XFER-3). -/
def Xfer.network (x : Xfer) : Bool := x.roleAct == .standalone || x.roleAct == .keeper

/-- The firmware takes the egress stamps while it runs (DESIGN CHOICE, log entry 15). -/
def drainStamps (s : State) : State :=
  forEach (s.xfer.ptp.map (·.1)) (fun k t => t.setPtp k { t.ptp k with fifo := [] }) s

/-! ## Phase measurement (R112) and ESMC (R113) -/

def State.phase12 (s : State) (l : Nat) : Phase12 := tget {} s.xfer.phases l
/-- The phase word of Table XFER-6: VALID, and the phase; a receiver in STANDBY or OFF gives no measurement (R156). -/
def State.phaseWord (s : State) (l : Nat) : Nat :=
  (s.phase12 l).phase.toNat + 2 ^ 31 * b2n ((s.phase12 l).valid && (s.lane l).rxPower == 0)

def State.setPhase12 (s : State) (l : Nat) (x : Phase12) : State :=
  s.setXfer { s.xfer with phases := tset {} s.xfer.phases l x }

/-- The lane's partner transmits time-locked: it is a lane of a peer-mode link (R111), or of a converter-mode link whose digitiser says
that it is (Table INP-3). -/
def State.partnerLocked (s : State) (l : Nat) : Bool := match s.laneBgl l with
  | some b => (s.bgl b).mode == 2 || (s.bglIn b).timeLocked
  | none => false

/-- A loss of lock or a slip during the averaging (R112). -/
def slipPhase (lane : Nat) (s : State) : State :=
  raise 2 1 lane (s.setPhase12 lane { s.phase12 lane with valid := false, slip := true })

/-- PHASE_MEASURE: the mean of 1,024 boundaries of a receiver that measures. -/
def phaseMeasure (lane : Nat) (phase : BitVec 21) (freq : Int) (slipped : Bool) (s : State) : State :=
  let x := s.phase12 lane
  if (s.lane lane).rxPower ≠ 0 then s
  else if slipped then slipPhase lane s
  else if !(s.lane lane).cdr then s
  else s.setPhase12 lane { x with
    valid := true
    phase := if s.partnerLocked lane then phase else phase &&& 0x3FF#21
    time := s.now / (64 * 65536) * (64 * 65536)
    freq := freq }

/-- Quality levels of ITU-T G.8264 option I that R113 names: QL-SEC and QL-DNU (PRESUMED values, log entry 18). While LOCKED on a
Synchronous-Ethernet source the level is that heard from it, the latest of the receive-source ports; what level any other source
has the spec does not say: a free value (DESIGN CHOICE, log entry 108). -/
def announcedQl (s : State) : Nat × State :=
  match s.time.quality with
  | .locked =>
    if s.xfer.network && decide (s.xfer.refMode = 1) && s.xfer.qlHeard then (s.xfer.qlSource, s)
    else
      let (d, s) := s.draw
      ((Config.freeWord d).toNat % 16, s)
  | .holdover => (0xB, s)
  | _ => (0xF, s)

/-! ## The servo (R114, R120, R121) -/

def setServo (v : Servo) (s : State) : State := s.setXfer { s.xfer with servo := v }

/-- Writes HOLDOVER if LOCKED. -/
def holdIfLocked (s : State) : State := if s.time.quality = .locked then writeQuality .holdover s else s

/-- ±5 ppm and ±500 ppm in rate-word units. -/
def ppm5 : Int := 5497558
def ppm500 : Int := 549755813

/-- A target rate word of the servo: a correction clamped to `lim` rate-word units, and to 100 ppm while any lane is
time-locked (R114), where the clamp sets STEER_CLAMPED. -/
def steerRate (wanted lim : Int) (s : State) : State :=
  let dev := clampI (-lim) lim (wanted - 2 ^ 40)
  let dev' := if s.anyTimeLocked then clampI (-109951162) 109951162 dev else dev
  writeRate (2 ^ 40 + dev').toNat (s.setXfer { s.xfer with clamped := decide (dev' ≠ dev) })

/-- A target rate word outside ±100 ppm is pulled in while any lane is time-locked (R114). -/
def holdRate (s : State) : State :=
  let dev := (s.time.rateTarget.toNat : Int) - 2 ^ 40
  if 109951162 < dev.natAbs ∧ s.anyTimeLocked then steerRate s.time.rateTarget.toNat ppm500 s else s

/-- An offset step of d units of 2^-16 ns at the first whole second at least 10 us ahead (R77). -/
def scheduleStep (d : Int) (s : State) : State :=
  firmwareEntry 1 s.nextSecond (.offsetStep (d / 65536) (BitVec.ofInt 16 (d % 65536))) 0 s

/-- Whole seconds in an offset, toward zero. -/
def wholeSeconds (e : Int) : Int := (e.natAbs / unitsPerSec : Nat) * e.sign

/-- 1 us, 1 ns, 50 ns and 100 ps in 2^-16 ns (100 ps is 6.55 units). -/
def us1 : Nat := 65536000

/-- The source is lost (Table XFER-4). -/
def sourceLost (s : State) : State :=
  let x := s.xfer
  if x.servo = .acquire ∨ x.servo = .steer ∨ x.servo = .track then
    let s := steerRate (2 ^ 40 + x.integ) ppm500 s
    let s := holdIfLocked s
    tellTransfer x (s.setXfer { s.xfer with servo := .holdover, holdoverTick := s.tick, lockCount := 0, bigCount := 0
                                            qualCount := 0 })
  else s

/-- The consecutive estimates that have been counted count no more. -/
def Xfer.anew (x : Xfer) : Xfer := { x with lockCount := 0, bigCount := 0, qualCount := 0 }

/-- The lock criterion of R120 on one estimate e. -/
def lockMet (x : Xfer) (e : Int) (secondsAgree keeperLocked : Bool) : Bool :=
  if x.network then
    (if x.refMode = 0 then decide (e.natAbs ≤ 65536) && secondsAgree else decide (e.natAbs ≤ 50 * 65536))
  else decide (e.natAbs ≤ 6) && keeperLocked

/-- Consecutive estimates that the criterion asks for. -/
def lockNeeds (x : Xfer) : Nat := if x.network then (if x.refMode = 0 then 16 else 64) else 1

/-- The keeper followed, as last heard. -/
def State.heardOn (s : State) (n : Nat) : EaselHeard := tget {} s.xfer.heard n

def beatHub (f : Bytes) : Nat := getU f 0 2
def beatRole (f : Bytes) : Nat := getU f 2 1
def beatPriority (f : Bytes) : Nat := getU f 3 1
def beatStalled (f : Bytes) : Bool := bit (getU f 4 1) 2
def beatFollowing (f : Bytes) : Bool := bit (getU f 4 1) 4

/-- Enabled Easel links on which a valid frame arrived in the last 3 slots. -/
def State.heardLinks (s : State) : List Nat :=
  below 8 fun n => s.easelOn n && decide ((s.heardOn n).ago < 3) && !(s.heardOn n).frame.isEmpty

/-- The followed keeper reports LOCKED. -/
def State.keeperLocked (s : State) : Bool :=
  s.xfer.following && s.heardLinks.any fun n =>
    beatHub (s.heardOn n).frame == s.xfer.hubIdF.toNat && getU (s.heardOn n).frame 4 1 % 4 == 3

/-! ### What e is formed from (R115, R118, R123) -/

/-- The offset of the hub from a PTP master, as IEEE 1588-2019 has it: half the difference of the two directions, less the delay
asymmetry of the port's path (R122). -/
def ptpOffset (s : State) (x : PtpExchange) : Int :=
  ((x.t2 - x.t1) - (x.t4 - x.t3)) / 2 - s.asymField (ptpPath s x.port) 4

/-- Whole seconds nearest to an offset, and what is left of it within the second. -/
def nearSeconds (d : Int) : Int := (d + unitsPerSec / 2) / unitsPerSec
def withinSecond (d : Int) : Int := d - nearSeconds d * unitsPerSec

/-- The phase within the second that the last PPS_IN stamp gives, after its skew: the hub leads where it is positive. -/
def State.ppsPhase (s : State) : Option Int :=
  if s.time.ppsLost ∨ s.time.ppsCount = 0 then none else some (withinSecond s.time.ppsStamp)

/-- UI in a 64 ns frame of a lane (R111). -/
def frameUi (rate : Nat) : Nat := if rate = 25781250 then 1650 else 660

/-- The Easel link on which the followed keeper was heard last. -/
def State.keeperLink (s : State) : Option Nat :=
  if s.xfer.following then s.heardLinks.find? fun n => beatHub (s.heardOn n).frame == s.xfer.hubIdF.toNat else none

/-- The keeper's Hub Time minus this hub's, from the phases p and q of an Easel link and its asymmetry a:
((p - q) mod 64 ns + a) / 2, which holds modulo 32 ns; the heartbeat stamps say which (R123). In 2^-16 ns. -/
def easelTheta (s : State) (n : Nat) (coarse : Int) : Option Rat :=
  let l := s.easelLane n
  let q := getU (s.heardOn n).frame 12 4
  if !bit (s.phaseWord l) 31 ∨ !bit q 31 then none
  else
    let ui : Rat := 4194304 / ((1024 * frameUi (s.lane l).rate : Nat) : Rat)
    let d := (((s.phaseWord l % 2 ^ 21 : Nat) : Rat) - ((q % 2 ^ 21 : Nat) : Rat)) * ui
    let half := (d - ((floorR (d / 4194304) : Int) : Rat) * 4194304 + (s.asymField (some (2, n)) 4 : Rat)) / 2
    some (half + ((rheR (((coarse : Rat) - half) / 2097152) : Int) : Rat) * 2097152)

/-- The offset e of the hub from its source, where the source's measurements are there (Table XFER-2): PPS_IN stamps for the phase and
PTP for the seconds; PTP; or Easel phase. That the estimate is the measurement itself is the model's choice of filter (log entry
17). -/
def State.offsetOf (s : State) (est : ServoInput) : Option Int :=
  if s.xfer.network then
    if s.xfer.refMode = 0 then s.ppsPhase.map fun p => p + match est.exchange with
      | some x => nearSeconds (ptpOffset s x - p) * unitsPerSec
      | none => 0
    else est.exchange.map (ptpOffset s)
  else match s.keeperLink with
    | some n => (easelTheta s n est.coarse).map fun th => -(rheR th)
    | none => none

/-- PTP agrees with the second count of Hub Time. -/
def State.secondsAgree (s : State) (est : ServoInput) : Bool := match est.exchange, s.ppsPhase with
  | some x, some p => nearSeconds (ptpOffset s x - p) == 0
  | _, _ => false

/-- PTP offset and PPS_IN differ by more than 100 ns within the second (Table XFER-2). -/
def State.crossMismatch (s : State) (est : ServoInput) : Bool := match est.exchange, s.ppsPhase with
  | some x, some p => s.xfer.network && s.xfer.refMode == 0 && decide (100 * 65536 < (withinSecond (ptpOffset s x - p)).natAbs)
  | _, _ => false

/-- The frequency of the source against Hub Time that the phase records give: of the lane of a Synchronous-Ethernet receive source in
network mode (R113); REF's, which is the hub's own, otherwise (R118). -/
def State.sourceFreq (s : State) : Int :=
  if s.xfer.network && decide (s.xfer.refMode = 1) then
    match (List.range 48).find? fun p => bit (getU (s.ptp p).settings 9 1) 0 && (s.port p).state == .up with
    | some p => (s.phase12 (s.port p).firstLane).freq
    | none => 0
  else 0

/-- What an estimate leaves in the record of the servo before its state is judged. -/
def noteEstimate (e : Int) (est : ServoInput) (s : State) : Xfer :=
  let x := s.xfer
  { x with
    e := e, integ := Config.servoInteg x.integ e s.sourceFreq
    mismatch := s.crossMismatch est
    mismatchCount := if s.crossMismatch est then x.mismatchCount + 1 else 0
    qualCount := if est.qualified then x.qualCount + 1 else 0
    gmId := match est.newMaster with
      | some (g, _, _) => g
      | none => x.gmId
    gmPort := match est.newMaster with
      | some (_, p, _) => p
      | none => x.gmPort }

/-- TRACK (Table XFER-4). -/
def trackEstimate (e wanted : Int) (est : ServoInput) (s : State) : State :=
  if est.newMaster.isSome then setServo .acquire (holdIfLocked (s.setXfer s.xfer.anew))
  else
    let agree := s.secondsAgree est
    let s := steerRate wanted ppm500 s
    if us1 < e.natAbs then
      let n := s.xfer.bigCount + 1
      if n = 4 then setServo .acquire (holdIfLocked (s.setXfer s.xfer.anew))
      else s.setXfer { s.xfer with bigCount := n, lockCount := 0 }
    else if lockMet s.xfer e agree s.keeperLocked then
      let n := s.xfer.lockCount + 1
      let s := s.setXfer { s.xfer with bigCount := 0, lockCount := n }
      if n < lockNeeds s.xfer then s
      else if s.time.quality = .locked then renewLease s else writeQuality .locked s
    else s.setXfer { s.xfer with bigCount := 0, lockCount := 0 }

/-- The servo's state on an estimate (Table XFER-4). -/
def servoState (e : Int) (est : ServoInput) (s : State) : State :=
  let wanted := Config.servoRate s.xfer.integ e s.sourceFreq
  let big := decide (us1 < e.natAbs)
  match s.xfer.servo with
  | .idle => setServo .acquire (s.setXfer s.xfer.anew)
  | .acquire =>
    if s.xfer.qualCount < 16 then s
    else if !big then setServo .track s
    else if s.anyChannel then
      let n := wholeSeconds e
      let s := if n = 0 then s else scheduleStep (-(n * unitsPerSec)) s
      setServo .steer (steerRate wanted ppm5 s)
    else setServo .stepPending (scheduleStep (-e) s)
  | .stepPending => s
  | .steer => if big then steerRate wanted ppm5 s else setServo .track (steerRate wanted ppm500 s)
  | .track => trackEstimate e wanted est s
  | .holdover => if est.qualified then setServo .acquire s else s

/-- SERVO_ESTIMATE: formed once per second by the running firmware of a hub whose role is not HOST (R120). A second whose measurements
are not there breaks every run of consecutive seconds. -/
def servoEstimate (est : ServoInput) (s : State) : State :=
  let old := s.xfer
  if !s.fwRuns ∨ old.roleAct = .host then s
  else match s.offsetOf est with
    | none => s.setXfer old.anew
    | some e =>
      let t := s.setXfer (noteEstimate e est s)
      tellTransfer old (if 3 ≤ t.xfer.mismatchCount then sourceLost t else servoState e est t)

def announceTimeout (s : State) : State := if s.fwRuns && s.xfer.network then sourceLost s else s

/-- Holdover has lasted for the holdover limit (R120): the firmware writes FREE. -/
def holdoverLimitExpiry (s : State) : State :=
  let x := s.xfer
  if s.fwRuns && x.servo == .holdover && decide (x.holdoverLimit ≠ 0) && s.time.quality == .holdover
      && decide (x.holdoverTick + x.holdoverLimit.toNat * secTicks ≤ s.tick) then writeQuality .free s
  else s

/-! ## Ranking and roles (R126-R132, Table XFER-8) -/

/-- Rank (R126): lower priority first, then lower hub id. -/
def ranksAbove (p h p' h' : Nat) : Bool := decide (p < p') || (p == p' && decide (h < h'))

/-- Links with a keeper announcement in the last 3 slots. -/
def State.announcers (s : State) : List Nat :=
  s.heardLinks.filter fun n => beatRole (s.heardOn n).frame == 2 && !beatStalled (s.heardOn n).frame

/-- The best-ranked announcement. -/
def bestOf (s : State) : List Nat → Option Nat
  | [] => none
  | n :: ns => match bestOf s ns with
    | none => some n
    | some m =>
      let f := (s.heardOn n).frame
      let g := (s.heardOn m).frame
      if ranksAbove (beatPriority g) (beatHub g) (beatPriority f) (beatHub f) then some m else some n

/-- A follower or partner follows the best-ranked keeper announced (R126). -/
def follow (s : State) : State :=
  if s.xfer.roleAct = .partner ∨ s.xfer.roleAct = .follower then
    match bestOf s s.announcers with
    | none => s
    | some n =>
      let f := (s.heardOn n).frame
      let same := s.xfer.following && s.xfer.hubIdF.toNat == beatHub f
      s.setXfer { s.xfer with following := true, hubIdF := BitVec.ofNat 16 (beatHub f),
                              priorityF := BitVec.ofNat 8 (beatPriority f), missed := if same then s.xfer.missed else 0 }
  else s

/-- The hub enters its configured KEEPER role: it listens for 10 ms, acting as PARTNER meanwhile (R132; that it
announces nothing is the rule, the role code is log entry 16). -/
def startListening (s : State) : State :=
  s.setXfer { s.xfer with roleAct := .partner, listening := true, listenTick := s.tick
                          heardKeeper := false }

/-- Entry to a configured role. -/
def enterRole (role : Role) (s : State) : State :=
  match role with
  | .host =>
    let s := holdRate { s with time := { s.time with rateTarget := s.time.rateEff } }
    s.setXfer { s.xfer.anew with roleAct := .host, servo := .idle, listening := false, following := false, missed := 0 }
  | .keeper =>
    let s := startListening (s.setXfer s.xfer.anew)
    if s.xfer.servo = .idle then setServo .acquire s else s
  | r =>
    let s := s.setXfer { s.xfer.anew with
      roleAct := r, listening := false, missed := 0, following := s.xfer.following && r != .standalone }
    let s := if s.xfer.servo = .idle then setServo .acquire s else s
    follow s

/-- KEEPER steps back to PARTNER and follows the keeper of that priority and hub id (R131). -/
def stepBack (priority hub : Nat) (s : State) : State :=
  s.setXfer { s.xfer.anew with
    roleAct := .partner, stepbacks := s.xfer.stepbacks + 1, missed := 0
    following := true, hubIdF := BitVec.ofNat 16 hub, priorityF := BitVec.ofNat 8 priority }

/-- Adds the entries of a snapshot that carry this hub's id to the asymmetry table: over an entry of the same path,
else in the first unused place. -/
def loadAsym (es : List Bytes) (s : State) : State :=
  forEach (es.filter fun e => getU e 0 2 == s.chip.hubId.toNat) (fun e t =>
    match (List.range 32).find? fun i => sub (t.asymEntry i) 0 4 == sub e 0 4 && !(t.asymEntry i == zeros 16) with
    | some i => t.setAsym i e
    | none => match (List.range 32).find? fun i => t.asymEntry i == zeros 16 with
      | some i => t.setAsym i e
      | none => t) s

def snapAsym (b : Bytes) : List Bytes := (List.range (getU b 7 1)).map fun i => sub b (0x40 + 16 * i) 16

/-- Takes the keeper role from the newer snapshot (R129), or with an empty servo where none is held (R130). -/
def takeKeeper (s : State) : State :=
  let x := s.xfer
  match x.snaps with
  | [] =>
    let s := holdIfLocked s
    s.setXfer { s.xfer.anew with
      roleAct := .keeper, servo := .acquire, e := 0, integ := 0, gmId := 0, gmPort := 0, mismatch := false, mismatchCount := 0
      following := false, missed := 0 }
  | b :: _ =>
    let s := holdRate (writeRate (if x.refMode = 0 then getU b 0x18 6 else s.time.rateEff.toNat) s)
    let s := loadAsym (snapAsym b) s
    s.setXfer { s.xfer.anew with
      roleAct := .keeper, servo := servoOf (getU b 5 1), e := getI b 0x20 8, integ := getI b 0x28 8
      gmId := BitVec.ofNat 64 (getU b 0x30 8), gmPort := BitVec.ofNat 16 (getU b 0x38 2), following := false, missed := 0 }

/-- The heartbeat frame of a slot (Table XFER-6); STALLED is the hardware's (R125). -/
def heartbeatFrame (s : State) (link : Nat) (slot : T16) : Bytes :=
  let x := s.xfer
  let b := le 2 s.chip.hubId.toNat ++ le 1 (roleCode x.roleAct) ++ le 1 x.priority.toNat
    ++ le 1 (qCode s.time.quality + 4 * b2n s.chip.fwStalled + 8 * b2n (!x.snaps.isEmpty) + 16 * b2n x.following)
    ++ le 1 x.priorityF.toNat ++ le 2 x.hubIdF.toNat ++ le 4 s.chip.heartbeat.toNat
    ++ le 4 (s.phaseWord (s.easelLane link)) ++ ts96 slot ++ le 2 x.snapSeq.toNat ++ zeros 2
  b ++ le 4 (crc32c b)

/-- Ends a hand-over that waits for its result: 0 DONE, 1 PARTNER_ABSENT (R134). -/
def fireRecord (f : FireRec) : Bytes := ts96 f.time ++ le 1 f.outcome ++ le 1 f.cls ++ zeros 2

def endHandover (result : Nat) (s : State) : State :=
  let x := s.xfer
  let s := s.setXfer { x with handoverTo := none, handoverSlots := 0, handoverJob := none }
  match x.handoverJob.bind (·.job), x.handoverJob with
  | some j, some f => complete j 0 0 (fireRecord f ++ le 1 result ++ zeros 3) s
  | _, _ => s

/-- What the running firmware makes of a valid heartbeat on a link. -/
def hearBeat (n : Nat) (s : State) : State :=
  let f := (s.heardOn n).frame
  let ann := beatRole f == 2 && !beatStalled f
  let s := if s.xfer.listening && ann then s.setXfer { s.xfer with heardKeeper := true } else s
  let s := if ann && s.xfer.handoverTo == some (BitVec.ofNat 16 (beatHub f)) then endHandover 0 s else s
  let me := s.chip.hubId.toNat
  let pr := s.xfer.priority.toNat
  let s := if s.xfer.roleAct ≠ .keeper then follow s
    else if ann && ranksAbove (beatPriority f) (beatHub f) pr me then stepBack (beatPriority f) (beatHub f) s
    else if beatRole f == 4 && beatFollowing f && ranksAbove (getU f 5 1) (getU f 6 2) pr me then stepBack (getU f 5 1) (getU f 6 2) s
    else s
  if s.xfer.following && s.xfer.hubIdF.toNat == beatHub f && !beatStalled f then
    s.setXfer { s.xfer with missed := 0 } else s

def easelHeartbeatRx (n : Nat) (frame : Bytes) (arrival : T16) (s : State) : State :=
  let old := s.xfer
  if !(s.easelOn n && s.easelUp n) then s
  else if frame.length ≠ 36 ∨ getU frame 32 4 ≠ crc32c (sub frame 0 32) then raise 2 3 (s.easelLane n) s
  else
    let s := s.setXfer { s.xfer with heard := tset {} s.xfer.heard n {
      frame := frame, arrival := ((arrival : Int) + s.asymField (some (2, n)) 8).toNat, ago := 0 } }
    if s.fwRuns then tellTransfer old (hearBeat n s) else s

/-- The followed keeper has been heard, unstalled, in the present slot. -/
def State.keeperHeard (s : State) : Bool :=
  below 8 (fun n => s.easelOn n && decide ((s.heardOn n).ago = 0)
    && beatHub (s.heardOn n).frame == s.xfer.hubIdF.toNat && !beatStalled (s.heardOn n).frame) ≠ []

/-- A slot ends without a valid frame from the followed keeper (R129). At the third, a hub that hears another keeper
follows that one; otherwise a partner takes over, and a follower's servo goes to HOLDOVER (Table XFER-8). -/
def easelSlotMissed (s : State) : State :=
  let old := s.xfer
  if !(s.fwRuns && old.following && (old.roleAct == .partner || old.roleAct == .follower) && !old.listening)
      || s.keeperHeard then s
  else
    let s := s.setXfer { old with missed := old.missed + 1 }
    if s.xfer.missed < 3 then s
    else if (bestOf s (s.announcers.filter fun n => beatHub (s.heardOn n).frame ≠ old.hubIdF.toNat)).isSome then
      tellTransfer old (follow (s.setXfer { s.xfer with following := false }))
    else if old.roleAct = .partner then
      let s := takeKeeper s
      tellTransfer old (s.setXfer { s.xfer with takeovers := s.xfer.takeovers + 1 })
    else
      tellTransfer old (sourceLost (s.setXfer { s.xfer with following := false, missed := 3 }))

/-! ## Snapshots (R128) -/

/-- Table XFER-7, held at a time. -/
def snapshotBytes (s : State) (seq : W16) (t : T16) : Bytes :=
  let x := s.xfer
  let es := x.asym.map (·.2)
  let b := le 2 s.chip.hubId.toNat ++ le 2 seq.toNat ++ le 1 x.refMode ++ le 1 (servoCode x.servo)
    ++ le 1 (qCode s.time.quality) ++ le 1 es.length ++ ts96 t ++ zeros 4 ++ le 8 s.time.rateTarget.toNat
    ++ leI 8 x.e ++ leI 8 x.integ ++ le 8 x.gmId.toNat ++ le 2 x.gmPort.toNat ++ le 1 x.domain.toNat ++ zeros 5
    ++ es.flatten
  b ++ le 4 (crc32c b)

/-- Sends a snapshot on every enabled Easel link on which a PARTNER or KEEPER has been heard in the last 3 slots; a final one carries
the hand-over mark for a partner. -/
def sendSnapshot (mark : Option W16) (s : State) : State :=
  let seq := s.xfer.snapSeq + 1
  let b := snapshotBytes s seq s.now
  let ls := s.heardLinks.filter fun n =>
    beatRole (s.heardOn n).frame == 2 || beatRole (s.heardOn n).frame == 3
  let s := s.setXfer { s.xfer with snapSeq := seq, snapTime := s.now }
  forEach ls (fun n t => t.emit (.snapshot n mark (messageBlocks 1 (messageBytes 3 b)))) s

/-- The tick on which Hub Time passes 500 ms of a second. -/
def State.atHalfSecond (s : State) : Bool :=
  decide (((s.time.ns + 500000000) % 1000000000) * 2 ^ 40 + s.time.frac40 < s.time.rateEff.toNat)

def snapshotTx (s : State) : State :=
  if s.fwRuns && s.xfer.roleAct == .keeper && s.atHalfSecond && decide (s.xfer.snapTime ≠ s.now) then sendSnapshot none s
  else s

def snapshotOk (b : Bytes) : Bool :=
  let n := 0x40 + 16 * getU b 7 1
  b.length == n + 4 && getU b n 4 == crc32c (sub b 0 n)

/-- The firmware stores snapshots, newer first: the last two are kept, the newest is reported. -/
def storeSnaps (new : List Bytes) (s : State) : State :=
  match new with
  | [] => s
  | b :: _ => s.setXfer { s.xfer with
    snaps := (new ++ s.xfer.snaps).take 2, snapSeq := BitVec.ofNat 16 (getU b 2 2), snapTime := ofTs96 (sub b 8 12) }

/-- A received snapshot: a partner stores it, the last two kept; one that carries the hand-over mark for this hub makes
it keeper (R134). While the firmware does not run, a partner's and a keeper's snapshots wait for it (R128). -/
def snapshotRx (n : Nat) (handover : Bool) (b : Bytes) (s : State) : State :=
  let old := s.xfer
  if !(s.easelOn n && s.easelUp n) then s
  else if !snapshotOk b then raise 2 3 (s.easelLane n) s
  else if !s.fwRuns then
    (if old.roleAct = .partner ∨ old.roleAct = .keeper then s.setXfer { old with snapsWait := (b :: old.snapsWait).take 2 } else s)
  else if old.roleAct = .partner then
    let s := storeSnaps [b] s
    if handover then tellTransfer old (takeKeeper (s.setXfer { s.xfer with listening := false })) else s
  else s

/-- The firmware runs again and stores what has waited for it. -/
def storeWaiting (s : State) : State := storeSnaps s.xfer.snapsWait (s.setXfer { s.xfer with snapsWait := [] })

/-- The firmware runs again after its cores were in reset or it had stalled: it takes the stamps, sends what waited and stores
the snapshots that came meanwhile (R58, R101, R128, R374). -/
def fwAgain (s : State) : State := storeWaiting (releaseHeld (drainStamps s))

/-- 10 ms of listening have passed (R132). -/
def keeperListenEnd (s : State) : State :=
  let x := s.xfer
  if !(s.fwRuns && x.listening && decide (x.listenTick + 10000000 ≤ s.tick)) then s
  else
    let s := s.setXfer { x with listening := false }
    let s := if x.heardKeeper then follow s
      else s.setXfer { s.xfer with roleAct := .keeper, following := false, missed := 0 }
    tellTransfer x s

/-- Five slots after a hand-over its partner has not announced (R134). -/
def handoverPartnerAbsent (s : State) : State :=
  let x := s.xfer
  if s.fwRuns && x.handoverTo.isSome && decide (5 ≤ x.handoverSlots) then
    startListening (endHandover 1 s)
  else s

/-! ## Opcodes (Table XFER-9) -/

/-- The heartbeat entry of R124: one while an Easel link is enabled, in every role (log entry 19). -/
def CalEntry.isBeat (e : CalEntry) : Bool := match e.action with
  | .heartbeat => true
  | _ => false

def syncHeartbeat (s : State) : State :=
  let want := decide (s.xfer.easel ≠ 0)
  let has := s.cal.entries.any (·.isBeat)
  if want && !has then
    firmwareEntry 7 (cdiv ((nsOf s.now + 10000) * 65536) (1000000 * 65536) * (1000000 * 65536)) .heartbeat 1000000 s
  else if !want && has then
    { s with cal := { s.cal with entries := s.cal.entries.filter fun e => !e.isBeat } }
  else s

/-- The acting keeper has a follower heartbeat on an Easel link (R136). -/
def State.hasFollower (s : State) : Bool := s.heardLinks.any fun n => beatRole (s.heardOn n).frame == 4

def opXferConfig : Op :=
  { code := 0x0A41
    len := exactly 12
    fields := fun r s =>
      [fieldLe 0 (r.u8 0) 4, fieldLe 1 (r.u8 1) 1,
       ((below 8 fun n => bit (r.u8 3) n && !s.easelUp n) == [], ansBadField 3),
       fieldLe 8 (r.u8 8) 127] ++ reserved r 9 3
    state := fun r s =>
      [(!(s.xfer.roleAct == .keeper && decide (roleOf (r.u8 0) ≠ s.xfer.roleCfg) && s.hasFollower), ansState s)]
    effect := fun r s =>
      let old := s.xfer
      let role := roleOf (r.u8 0)
      let s := s.setXfer { old with
        roleCfg := role, refMode := r.u8 1, priority := BitVec.ofNat 8 (r.u8 2), easel := BitVec.ofNat 8 (r.u8 3)
        holdoverLimit := BitVec.ofNat 32 (r.u32 4), domain := BitVec.ofNat 8 (r.u8 8) }
      let s := if old.roleCfg = role then s else enterRole role s
      (tellTransfer old (syncHeartbeat s), ansDone []) }

def opXferStatus : Op :=
  { code := 0x0A42
    len := exactly 0
    reads := fun _ _ => true
    fields := fun _ _ => []
    effect := fun _ s => (s, ansDone (xferStatusPayload s)) }

def opPtpPortConfig : Op :=
  { code := 0x0A43
    len := exactly 12
    fields := fun r _ =>
      [fieldLe 0 (r.u8 0) 2,
       fieldLe 1 (r.u8 1) (if r.u8 0 = 0 then 47 else if r.u8 0 = 1 then 0 else 63),
       fieldLe 2 (r.u8 2) 2, fieldLe 3 (r.u8 3) 2, fieldLe 4 (r.u8 4) 1,
       (decide (-7 ≤ r.i8 5) && decide (r.i8 5 ≤ 4), ansBadField 5),
       (decide (-3 ≤ r.i8 6) && decide (r.i8 6 ≤ 4), ansBadField 6),
       (decide (-7 ≤ r.i8 7) && decide (r.i8 7 ≤ 4), ansBadField 7),
       fieldIn 8 (r.u8 8) 2 10, flagBits r 9 2, fieldLe 10 (r.u16 10) 0xFFF]
    state := fun r s =>
      [(r.u8 0 == 1 || (if r.u8 0 = 0 then decide ((s.port (r.u8 1)).state ≠ .unconfigured)
        else decide ((s.bgl (r.u8 1)).state ≠ .disabled)), ansState s)]
    effect := fun r s =>
      let k := if r.u8 0 = 0 then r.u8 1 else if r.u8 0 = 1 then 48 else 64 + r.u8 1
      (holdRate (s.setPtp k { s.ptp k with settings := r.bytes 0 12 }), ansDone []) }

/-- Length of a payload of a 4-byte head and entries of `w` bytes, their number in byte 1 and at most `n`. -/
def counted (w n : Nat) (p : Bytes) : Option Nat := exactly (4 + w * min (getU p 1 1) n) p

def asymRange (r : Req) : List Check :=
  [fieldLe 0 (r.u8 0) 31, (decide (1 ≤ r.u8 1) && decide (r.u8 0 + r.u8 1 ≤ 32), ansBadField 1)] ++ reserved r 2 2

def opAsymWrite : Op :=
  { code := 0x0A44
    len := counted 16 32
    fields := fun r _ => asymRange r ++ (List.range (r.u8 1)).flatMap fun i =>
      let o := 4 + 16 * i
      [fieldLe (o + 2) (r.u8 (o + 2)) 2,
       fieldLe (o + 3) (r.u8 (o + 3)) (if r.u8 (o + 2) = 0 then 47 else if r.u8 (o + 2) = 1 then 0 else 7)]
    effect := fun r s =>
      (forEach (List.range (r.u8 1)) (fun i t => t.setAsym (r.u8 0 + i) (r.bytes (4 + 16 * i) 16)) s, ansDone []) }

def opAsymRead : Op :=
  { code := 0x0A45
    len := exactly 4
    reads := fun _ _ => true
    fields := fun r _ => asymRange r
    effect := fun r s => (s, ansDone ((List.range (r.u8 1)).flatMap fun i => s.asymEntry (r.u8 0 + i))) }

def opPhaseRead : Op :=
  { code := 0x0A46
    len := exactly 4
    reads := fun _ _ => true
    fields := fun r _ => [fieldLe 0 (r.u16 0) 159] ++ reserved r 2 2
    effect := fun r s =>
      let l := r.u16 0
      let p := s.phase12 l
      let valid := p.valid && decide ((s.lane l).rxPower = 0)
      (s.setPhase12 l { p with slip := false },
       ansDone (le 2 l ++ le 1 (mask [valid, p.slip, s.partnerLocked l]) ++ zeros 1 ++ le 4 p.phase.toNat
         ++ ts96 p.time ++ zeros 4 ++ leI 8 p.freq)) }

/-- A time lies inside a declared quiet window (R134, R428). -/
def State.inQuiet (s : State) (t : T16) : Bool :=
  s.boot.quiet.any fun q => decide (q.2.start ≤ t) && decide (t < q.2.stop)

def opKeeperHandover : Op :=
  { code := 0x0A47
    len := exactly 4
    sched := .always
    ledger := true
    fields := fun r _ => reserved r 2 2
    state := fun r s =>
      [(s.xfer.roleAct == .keeper, ansState s),
       (s.heardLinks.any fun n => beatHub (s.heardOn n).frame == r.u16 0 && beatRole (s.heardOn n).frame == 3, ansState s),
       (s.inQuiet r.at_, ansState s)]
    effect := fun r s => schedule 0x0A47 7 (.handover (BitVec.ofNat 16 (r.u16 0))) r s }

end Sys2Proof.Machine
end

