-- ==== Sys2Proof/Machine/HubTime.lean ====
section
/-! DEFINITION. The time base's happenings and the time opcodes (03_hub_time), but for the firing of the calendar. -/

namespace Sys2Proof.Machine

/-- The firmware writes the target rate word, directly or through a rate-change event of the calendar (R75). -/
def rateWordWrite (w : RateWrite) (s : State) : State :=
  if !s.fwRuns then s
  else match w.at_ with
    | none => holdRate (writeRate w.word.toNat s)
    | some t => if shortfall s t = 0 then firmwareEntry 1 t (.rateChange w.word) 0 s else s

/-- On every hundredth tick the effective rate word moves 1 unit towards the target (R75). -/
def rateSlewStep (s : State) : State :=
  let t := s.time
  if t.slewTicks < 100 then s
  else
    let eff := if t.rateEff.toNat < t.rateTarget.toNat then t.rateEff + 1
      else if t.rateTarget.toNat < t.rateEff.toNat then t.rateEff - 1 else t.rateEff
    { s with time := { t with rateEff := eff, slewTicks := t.slewTicks - 100 } }

/-- The firmware never writes LOCKED in HOST role (R117). -/
def timeQualityWrite (q : Quality) (s : State) : State :=
  if s.fwRuns && !(s.xfer.roleAct == .host && q == .locked) then writeQuality q s else s

def leaseRenew (s : State) : State := if s.fwRuns then renewLease s else s

/-- The lease has counted down (R82). -/
def leaseExpiry (s : State) : State :=
  if s.time.quality = .locked ∧ s.time.lease = 0 then raise 0 2 0 (dropLock s) else s

/-- REF lost (R84). -/
def refLost (s : State) : State :=
  if s.chip.rails.aon && !s.time.refLost then
    raise 0 3 0 (dropLock { s with time := { s.time with refLost := true } })
  else s

/-- The time PLL unlocked (R84). -/
def tpllUnlock (s : State) : State :=
  if s.chip.rails.aon && !s.time.tpllUnlock then
    raise 0 4 0 (dropLock { s with time := { s.time with tpllUnlock := true } })
  else s

/-- REF returns; the time PLL relocks without a phase step if its frequency error is at most 10 ppm (R84). -/
def refReturn (within10ppm : Bool) (s : State) : State :=
  if s.chip.rails.aon && within10ppm then { s with time := { s.time with refLost := false, tpllUnlock := false } } else s

/-- Hub Time in 2^-40 ns, moved by the PPS_OUT skew. -/
def TimeSt.skewed (t : TimeSt) : Int := (((t.sec * 1000000000 + t.ns) * 2 ^ 40 + t.frac40 : Nat) : Int) + t.outSkew * 2 ^ 24

/-- The second boundary that PPS_OUT marks at a tick, the skew advancing its edge, if the latest advance has passed it
(R86). -/
def State.ppsBoundary (s : State) : Option Int :=
  let x := s.time.skewed
  if 0 ≤ x ∧ x % (1000000000 * 2 ^ 40) < s.time.rateEff.toNat then some (x / (1000000000 * 2 ^ 40)) else none

/-- PPS_OUT_EDGE: a pulse that is still high ends where the next one begins (R86). -/
def ppsOutEdge (s : State) : State :=
  match s.ppsBoundary with
  | some b =>
    if s.chip.rails.aon && decide (s.time.quality ≠ .unset) && decide (s.time.ppsWidth ≠ 0) && decide (s.time.lastPulse ≠ b) then
      { s with time := { s.time with lastPulse := b, pulseEnd := s.tick + s.time.ppsWidth } }.emit
        (.ppsEdge (b * unitsPerSec - s.time.outSkew) s.time.ppsWidth (decide (s.tick < s.time.pulseEnd)))
    else s
  | none => s

/-- A stamp at the ball, minus the input's skew (R87). -/
def stampOf (crossing : T16) (skew : Int) : T16 := (((crossing : Int) - skew) % ((2 ^ 48 * unitsPerSec : Nat) : Int)).toNat

/-- An edge lies less than 8 ns after the previous stamped edge (R87). -/
def tooClose (last : Option T16) (crossing : T16) : Bool := match last with
  | some t => decide (crossing < t + 8 * 65536) && decide (t ≤ crossing)
  | none => false

/-- In station reference mode, a PTP second count that differs from Hub Time's at three PPS_IN edges in a row makes the
firmware schedule a whole-second step (R121). -/
def secondCount (stamp : T16) (ptp : Option Nat) (s : State) : State :=
  match ptp with
  | none => { s with time := { s.time with secMiss := 0 } }
  | some p =>
    if s.fwRuns && s.xfer.network && decide (s.xfer.refMode = 0) then
      let hub := (stamp + unitsPerSec / 2) / unitsPerSec
      if hub = p then { s with time := { s.time with secMiss := 0 } }
      else if s.time.secMiss + 1 = 3 then
        scheduleStep (((p : Int) - hub) * unitsPerSec) { s with time := { s.time with secMiss := 0 } }
      else { s with time := { s.time with secMiss := s.time.secMiss + 1 } }
    else { s with time := { s.time with secMiss := 0 } }

def ppsInEdge (falling : Bool) (crossing : T16) (ptpSecond : Option Nat) (s : State) : State :=
  let t := s.time
  if !s.chip.rails.aon ∨ falling ≠ t.inFalling then s
  else if tooClose t.ppsRaw crossing then raise 2 2 168 { s with time := { t with ppsOver := t.ppsOver + 1 } }
  else
    let st := stampOf crossing t.inSkew
    secondCount st ptpSecond { s with time := { t with
      ppsStamp := st, ppsRaw := some crossing, ppsTick := s.tick, ppsCount := t.ppsCount + 1, ppsLost := false } }

/-- No PPS_IN edge stamped for 1.5 s (R88); in station reference mode the servo's source is then lost (R120). -/
def ppsInTimeout (s : State) : State :=
  if s.chip.rails.aon && !s.time.ppsLost && decide (s.time.ppsTick + 1500000000 ≤ s.tick) then
    let s := raise 0 5 0 { s with time := { s.time with ppsLost := true } }
    if s.fwRuns && s.xfer.network && decide (s.xfer.refMode = 0) then sourceLost s else s
  else s

/-- A TRIG_IN edge is stamped and entered in the input's FIFO (R87, R89): the stamp, where it is stamped at all. -/
def trigStamp (i : Nat) (falling : Bool) (crossing : T16) (s : State) : Option T16 × State :=
  let x := s.trigIn i
  let selected := x.mode == 3 || (x.mode == 1 && !falling) || (x.mode == 2 && falling)
  if !s.chip.rails.aon ∨ !selected then (none, s)
  else if tooClose x.last crossing then
    (none, raise 2 2 (160 + i) (s.setTrigIn i { x with overflow := x.overflow + 1 }))
  else
    let st := stampOf crossing x.skew
    if x.fifo.length < 64 then (some st, s.setTrigIn i { x with last := some crossing, fifo := x.fifo ++ [(st, falling)] })
    else (some st, raise 2 2 (160 + i) (s.setTrigIn i { x with last := some crossing, overflow := x.overflow + 1 }))

/-! ## Opcodes (Table TIME-10) -/

/-- TIME_GET. The lease in ms is rounded down (DESIGN CHOICE, log entry 107). -/
def opTimeGet : Op :=
  { code := 0x0201
    len := exactly 0
    reads := fun _ _ => true
    fields := fun _ _ => []
    effect := fun _ s =>
      let t := s.time
      (s, ansDone (ts96 s.now ++ le 1 (qCode t.quality)
        ++ le 1 (mask [t.refLost, t.tpllUnlock, t.ppsLost, s.stepQueued, s.subStepQueued])
        ++ le 2 (if t.quality = .locked then t.lease / 1000000 else 0)
        ++ le 8 t.rateTarget.toNat ++ le 8 t.rateEff.toNat ++ ts96 t.stepTime ++ le 4 t.stepCount.toNat
        ++ leI 8 t.stepNs ++ le 2 t.stepFrac.toNat ++ zeros 2 ++ le 4 t.ppsCount.toNat
        ++ ts96 t.ppsStamp ++ zeros 4)) }

/-- Hub Time at the scheduled second after the step stays within 48-bit seconds (R77). -/
def stepFits (at_ : T16) (ns : Int) (frac : Nat) : Bool :=
  let t := (at_ : Int) + ns * 65536 + frac
  decide (0 ≤ t) && decide (t < ((2 ^ 48 * unitsPerSec : Nat) : Int))

def opTimeStep : Op :=
  { code := 0x0202
    len := exactly 12
    sched := .always
    ledger := true
    fields := fun r _ =>
      [(decide (getU r.time 6 4 = 0), ansBadHeader 0x10), (stepFits r.at_ (r.i64 0) (r.u16 8), ansBadField 0)]
        ++ reserved r 10 2
    state := fun r s =>
      [(s.xfer.roleAct == .host, ansState s),
       (decide (r.i64 0 % 1000000000 = 0 ∧ r.u16 8 = 0) || !s.anyChannel, ansState s)]
    effect := fun r s => schedule 0x0202 1 (.offsetStep (r.i64 0) (BitVec.ofNat 16 (r.u16 8))) r s }

def opPpsConfig : Op :=
  { code := 0x0203
    len := exactly 16
    fields := fun r _ =>
      [(decide (r.u32 0 = 0) || decide (1000 ≤ r.u32 0 ∧ r.u32 0 ≤ 500000000), ansBadField 0), fieldLe 4 (r.u8 4) 1]
        ++ reserved r 5 3
    effect := fun r s =>
      ({ s with time := { s.time with ppsWidth := r.u32 0, inFalling := r.u8 4 == 1, inSkew := r.i32 8
                                      outSkew := r.i32 12 } }, ansDone []) }

def opTrigInConfig : Op :=
  { code := 0x0204
    len := exactly 8
    fields := fun r _ => [fieldLe 0 (r.u8 0) 7, fieldLe 1 (r.u8 1) 3] ++ reserved r 2 2
    effect := fun r s =>
      (s.setTrigIn (r.u8 0) { s.trigIn (r.u8 0) with mode := r.u8 1, skew := r.i32 4 }, ansDone []) }

/-- Table TIME-6. -/
def stampRecord (input : Nat) (x : T16 × Bool) : Bytes := ts96 x.1 ++ le 1 (b2n x.2) ++ le 1 input ++ zeros 2

def opTrigInRead : Op :=
  { code := 0x0205
    len := exactly 4
    reads := fun _ _ => true
    fields := fun r _ => [fieldLe 0 (r.u8 0) 7, fieldIn 1 (r.u8 1) 1 64] ++ reserved r 2 2
    effect := fun r s =>
      let x := s.trigIn (r.u8 0)
      let out := x.fifo.take (r.u8 1)
      (s.setTrigIn (r.u8 0) { x with fifo := x.fifo.drop (r.u8 1) },
       ansDone (le 2 out.length ++ zeros 2 ++ le 4 x.overflow.toNat ++ out.flatMap (stampRecord (r.u8 0)))) }

def opCalStatus : Op :=
  { code := 0x0206
    len := exactly 0
    reads := fun _ _ => true
    fields := fun _ _ => []
    effect := fun _ s =>
      let es := s.cal.entries
      (s, ansDone (le 2 (4064 - (es.filter fun e => !e.fw).length) ++ le 2 (32 - (es.filter (·.fw)).length)
        ++ ((List.range 7).flatMap fun k => le 2 (es.filter fun e => e.cls == k + 1).length) ++ zeros 2
        ++ le 4 s.cal.fired.toNat ++ le 4 s.cal.afterStep.toNat ++ le 4 s.cal.discarded.toNat)) }

end Sys2Proof.Machine
end

