-- ==== Sys2Proof/Machine/Asc.lean ====
section
/-! DEFINITION. The Apbeder Sample Codec (11_compression, R298-R310) and the sample packing of Table STRM-5. -/

namespace Sys2Proof.Machine

/-! ## Bit strings -/

/-- n bits of v, least significant first. -/
def bitsLsb : Nat → Nat → List Bool
  | 0, _ => []
  | n + 1, v => (v % 2 == 1) :: bitsLsb n (v / 2)

/-- n bits of v, most significant first. -/
def bitsMsb (n v : Nat) : List Bool := (bitsLsb n v).reverse

/-- Two's complement of an integer over w bits. -/
def twos (w : Nat) (v : Int) : Nat := (v % (2 ^ w : Nat)).toNat

/-- The number of a bit string, most significant first. -/
def ofMsb (bs : List Bool) : Nat := bs.foldl (fun n b => 2 * n + b2n b) 0

/-- Bytes whose bits are a string, the first bit least significant, zero-filled. -/
def packLsb : List Bool → Bytes
  | a :: b :: c :: d :: e :: f :: g :: h :: t => BitVec.ofNat 8 (mask [a, b, c, d, e, f, g, h]) :: packLsb t
  | [] => []
  | t => [BitVec.ofNat 8 (mask t)]

/-- Bytes whose bits are a string, the first bit most significant, zero-filled. -/
def packMsb : List Bool → Bytes
  | a :: b :: c :: d :: e :: f :: g :: h :: t => BitVec.ofNat 8 (mask [h, g, f, e, d, c, b, a]) :: packMsb t
  | [] => []
  | t => [BitVec.ofNat 8 (mask ((t ++ List.replicate (8 - t.length) false).reverse))]

def unpackLsb (b : Bytes) : List Bool := b.flatMap fun x => bitsLsb 8 x.toNat
def unpackMsb (b : Bytes) : List Bool := b.flatMap fun x => bitsMsb 8 x.toNat

/-! ## Sample packing (R340, Table STRM-5) -/

def sampleBits (format : Nat) (x : Smp) : List Bool :=
  let w := formatWidth format
  bitsLsb w (twos w x.1) ++ if formatComplex format then bitsLsb w (twos w x.2) else []

def packSamples (format : Nat) (xs : List Smp) : Bytes := packLsb (xs.flatMap (sampleBits format))

/-- The samples that a packed string of `count` samples holds. -/
def unpackSamples (format count : Nat) (b : Bytes) : List Smp :=
  let bits := unpackLsb b
  let w := formatWidth format
  let part := fun (o : Nat) => signed w (mask ((bits.drop o).take w))
  (List.range count).map fun i =>
    if formatComplex format then (part (2 * w * i), part (2 * w * i + w)) else (part (w * i), 0)

/-! ## PRED-RICE (R303, R304, R306) -/

/-- P[n] of Table ASC-3 from the three values before, newest first. -/
def predict (p : Nat) (a b c : Int) : Int :=
  if p = 0 then 0 else if p = 1 then a else if p = 2 then 2 * a - b else 3 * a - 3 * b + c

/-- The residuals of a sequence from value p on. -/
def residualsFrom (p : Nat) : Nat → Int → Int → Int → List Int → List Int
  | _, _, _, _, [] => []
  | n, a, b, c, x :: xs =>
    if n < p then residualsFrom p (n + 1) x a b xs
    else (x - predict p a b c) :: residualsFrom p (n + 1) x a b xs

def residuals (p : Nat) (xs : List Int) : List Int := residualsFrom p 0 0 0 0 xs

/-- u of R304. -/
def zigzag (e : Int) : Nat := if 0 ≤ e then 2 * e.toNat else (-2 * e - 1).toNat

def unzigzag (u : Nat) : Int := if u % 2 = 0 then (u / 2 : Nat) else -((u / 2 : Nat) : Int) - 1

/-- A list in runs of at most n. -/
def chunksOf {α : Type} (n : Nat) : Nat → List α → List (List α)
  | 0, _ => []
  | k + 1, xs => if xs.isEmpty then [] else xs.take n :: chunksOf n k (xs.drop n)

/-- Bits of a group coded with k, where every quotient fits. -/
def groupCost (w k : Nat) (us : List Nat) : Option Nat :=
  if k = 31 then some (5 + us.length * (w + 3))
  else if us.all fun u => decide (u / 2 ^ k ≤ 255) then some (us.foldl (fun n u => n + u / 2 ^ k + 1 + k) 5)
  else none

/-- The k of 0-31 with the fewest bits, the lowest among equals (R306). -/
def bestK (w : Nat) (us : List Nat) : Nat :=
  ((List.range 32).foldl (fun (best : Option (Nat × Nat)) k =>
    match groupCost w k us, best with
    | some c, some (_, c') => if c < c' then some (k, c) else best
    | some c, none => some (k, c)
    | none, _ => best) none).elim 31 (·.1)

def groupBits (w : Nat) (us : List Nat) : List Bool :=
  let k := bestK w us
  bitsMsb 5 k ++ us.flatMap fun u =>
    if k = 31 then bitsMsb (w + 3) u else List.replicate (u / 2 ^ k) true ++ [false] ++ bitsMsb k (u % 2 ^ k)

def sequenceBits (w p : Nat) (xs : List Int) : List Bool :=
  (xs.take p).flatMap (fun x => bitsMsb w (twos w x))
    ++ (chunksOf 16 xs.length ((residuals p xs).map zigzag)).flatMap (groupBits w)

/-- The payload of a PRED-RICE block of order p. -/
def ricePayload (format p : Nat) (xs : List Smp) : Bytes :=
  let w := formatWidth format
  packMsb (sequenceBits w p (xs.map (·.1)) ++ if formatComplex format then sequenceBits w p (xs.map (·.2)) else [])

/-! ## Blocks (R298-R302) -/

def blockHeader (mode format params orig coded count : Nat) : Bytes :=
  let h := le 1 0xA5 ++ le 1 (mode + 16) ++ le 1 format ++ le 1 params ++ le 4 orig ++ le 4 coded ++ le 2 count
  h ++ le 2 (crc32c h % 65536)

def wrapBlock (mode format params count : Nat) (data payload : Bytes) : Bytes :=
  blockHeader mode format params data.length payload.length count ++ payload ++ le 4 (crc32c data)

def storedBlock (format count : Nat) (data : Bytes) : Bytes := wrapBlock 0 format 0 count data data

/-- The order and payload that the encoder takes: `order` 0-3 fixed, otherwise the shortest, the lowest among equals
(R306); none where a fixed order exceeds the count. -/
def riceChoice (format order : Nat) (xs : List Smp) : Option (Nat × Bytes) :=
  let try_ := fun p => if p ≤ xs.length then some (p, ricePayload format p xs) else none
  if order ≤ 3 then try_ order
  else (List.range 4).foldl (fun best p => match try_ p, best with
    | some (p, b), some (_, b') => if b.length < b'.length then some (p, b) else best
    | some x, none => some x
    | none, _ => best) none

/-- A block of samples in PRED-RICE, STORED where that does not shrink it (R301). The answer says which order was
used. -/
def riceBlock (format order : Nat) (xs : List Smp) : Option Nat × Bytes :=
  let data := packSamples format xs
  match riceChoice format order xs with
  | some (p, b) =>
    if b.length < data.length then (some p, wrapBlock 1 format p xs.length data b)
    else (none, storedBlock format xs.length data)
  | none => (none, storedBlock format xs.length data)

/-! ## Decoding (R305, R309, R310) -/

/-- What a decoder makes of a block: the original data, or an error code of Table ASC-2 with the bit offset of the
failing code in the payload. -/
inductive Decoded where
  | data (b : Bytes)
  | error (code bit : Nat)
  deriving DecidableEq, Repr

/-- One-bits at the head of a string, and the rest. -/
def onesOf : List Bool → Nat × List Bool
  | true :: t => let (n, r) := onesOf t; (n + 1, r)
  | bs => (0, bs)

/-- n raw bits, most significant first. -/
def rawBits (n : Nat) (bs : List Bool) : Option (Nat × List Bool) :=
  if bs.length < n then none else some (ofMsb (bs.take n), bs.drop n)

/-- A state of the PRED-RICE decoder: the bits left, and the values so far, newest first. -/
abbrev RiceState := List Bool × List Int

/-- The next residual code under k; the error says ILLEGAL_CODE or TRUNCATED_INPUT. -/
def riceCode (w k : Nat) (bs : List Bool) : Except Nat (Nat × List Bool) :=
  if k = 31 then match rawBits (w + 3) bs with
    | some x => .ok x
    | none => .error 4
  else
    let (q, t) := onesOf bs
    if 255 < q then .error 1
    else match t with
      | [] => .error 4
      | _ :: t => match rawBits k t with
        | some (low, t) => if q * 2 ^ k + low < 2 ^ (w + 3) then .ok (q * 2 ^ k + low, t) else .error 1
        | none => .error 4

/-- Decodes m further residuals; `j` counts those of the sequence so far, `total` the bits of the payload. -/
def riceResiduals (w p total : Nat) : Nat → Nat → Nat → RiceState → Except (Nat × Nat) RiceState
  | 0, _, _, st => .ok st
  | m + 1, j, k, (bs, xs) =>
    let start := if j % 16 = 0 then rawBits 5 bs else some (k, bs)
    match start with
    | none => .error (4, total - bs.length)
    | some (k, bs) =>
      match riceCode w k bs with
      | .error c => .error (c, total - bs.length)
      | .ok (u, t) =>
        let x := predict p (xs.getD 0 0) (xs.getD 1 0) (xs.getD 2 0) + unzigzag u
        if x < -(2 ^ (w - 1) : Nat) ∨ ((2 ^ (w - 1) : Nat) : Int) ≤ x then .error (1, total - bs.length)
        else riceResiduals w p total m (j + 1) k (t, x :: xs)

/-- Decodes p warm-up values. -/
def riceWarmup (w total : Nat) : Nat → RiceState → Except (Nat × Nat) RiceState
  | 0, st => .ok st
  | n + 1, (bs, xs) => match rawBits w bs with
    | some (v, t) => riceWarmup w total n (t, signed w v :: xs)
    | none => .error (4, total - bs.length)

/-- Decodes one sequence of `count` values, in order. -/
def riceSequence (w p count total : Nat) (bs : List Bool) : Except (Nat × Nat) (List Bool × List Int) :=
  match riceWarmup w total p (bs, []) with
  | .error e => .error e
  | .ok st => match riceResiduals w p total (count - p) 0 0 st with
    | .error e => .error e
    | .ok (t, xs) => .ok (t, xs.reverse)

/-- The end of a payload: zero fill to a whole byte and nothing more (R305). -/
def riceEnd (total : Nat) (bs : List Bool) (xs : List Smp) : Except (Nat × Nat) (List Smp) :=
  if 8 ≤ bs.length ∨ bs.any id then .error (1, total - bs.length) else .ok xs

/-- The values of a payload's bits, and the bits behind the last sequence. -/
def riceValues (format p count : Nat) (bits : List Bool) : Except (Nat × Nat) (List Bool × List Smp) :=
  let w := formatWidth format
  match riceSequence w p count bits.length bits with
  | .error e => .error e
  | .ok (t, re) =>
    if formatComplex format then
      match riceSequence w p count bits.length t with
      | .error e => .error e
      | .ok (t, im) => .ok (t, re.zip im)
    else .ok (t, re.map fun x => (x, 0))

def riceDecode (format p count : Nat) (payload : Bytes) : Except (Nat × Nat) (List Smp) :=
  let bits := unpackMsb payload
  match riceValues format p count bits with
  | .error e => .error e
  | .ok (t, xs) => riceEnd bits.length t xs

/-- Copies m bytes from distance d behind the end of an output held newest first (R307). -/
def copyBack (d : Nat) : Nat → Bytes → Bytes
  | 0, out => out
  | m + 1, out => copyBack d m (out.getD (d - 1) 0 :: out)

/-- A match of length m at distance d, the output held newest first: `own` bytes of it are the block's. -/
def dictMatch (orig own m d : Nat) (out : Bytes) : Except Nat Bytes :=
  if out.length < d then .error 2 else if orig < own + m then .error 3 else .ok (copyBack d m out)

/-- The items of a DICT payload (R307): `pos` is the byte offset in the payload, `own` the bytes produced so far. -/
def dictItems (orig : Nat) : Nat → Nat → Nat → Bytes → Bytes → Except (Nat × Nat) Bytes
  | 0, pos, _, _, _ => .error (4, 8 * pos)
  | fuel + 1, pos, own, b, out =>
    if own = orig then (if b.isEmpty then .ok out else .error (1, 8 * pos))
    else match b with
      | [] => .error (4, 8 * pos)
      | c :: t =>
        let c := c.toNat
        if c < 0x80 then
          if t.length < c + 1 then .error (4, 8 * pos)
          else if orig < own + (c + 1) then .error (3, 8 * pos)
          else dictItems orig fuel (pos + 2 + c) (own + (c + 1)) (t.drop (c + 1)) ((t.take (c + 1)).reverse ++ out)
        else
          let extra := if c < 0xC0 then 1 else if c < 0xFF then 2 else 4
          if t.length < extra then .error (4, 8 * pos)
          else
            let m := if c < 0xC0 then c / 8 % 8 + 3 else if c < 0xFF then c - 0xC0 + 3 else getU t 0 2 + 66
            let d := if c < 0xC0 then c % 8 * 256 + getU t 0 1 + 1 else if c < 0xFF then getU t 0 2 + 1 else getU t 2 2 + 1
            match dictMatch orig own m d out with
            | .error e => .error (e, 8 * pos)
            | .ok out => dictItems orig fuel (pos + 1 + extra) (own + m) (t.drop extra) out

/-- A DICT payload with the history that precedes it, newest byte first. -/
def dictDecode (orig : Nat) (history payload : Bytes) : Except (Nat × Nat) Bytes :=
  match dictItems orig (payload.length + 1) 0 0 payload (history.take 65536) with
  | .ok out => .ok ((out.take orig).reverse)
  | .error e => .error e

/-- The header fields of a block. -/
structure BlockHead where
  mode : Nat
  version : Nat
  format : Nat
  params : Nat
  orig : Nat
  coded : Nat
  count : Nat
  check : Nat

def blockHead (b : Bytes) : BlockHead :=
  { mode := getU b 1 1 % 16, version := getU b 1 1 / 16, format := getU b 2 1, params := getU b 3 1, orig := getU b 4 4
    coded := getU b 8 4, count := getU b 12 2, check := getU b 14 2 }

/-- R300. -/
def headBad (b : Bytes) : Bool :=
  let h := blockHead b
  let formatOk := decide (formatBits h.format ≠ 0)
  let samples := formatOk && decide (1 ≤ h.count ∧ h.count ≤ 4096)
    && decide (h.orig = cdiv (h.count * formatBits h.format) 8)
  !(getU b 0 1 == 0xA5 && h.version == 1 && decide (h.mode ≤ 2) && h.check == crc32c (sub b 0 14) % 65536
    && decide (1 ≤ h.orig ∧ h.orig ≤ 65536)
    && (match h.mode with
      | 0 => h.params == 0 && (if h.format = 0 then h.count == 0 else samples) && h.coded == h.orig
      | 1 => decide (h.params < 4) && samples && decide (h.coded < h.orig) && decide (h.params ≤ h.count)
      | _ => decide (h.params < 2) && h.format == 0 && h.count == 0 && decide (h.coded < h.orig)))

/-- The payload of a block decoded by its mode. -/
def payloadDecode (h : BlockHead) (history payload : Bytes) : Except (Nat × Nat) Bytes :=
  match h.mode with
  | 0 => .ok payload
  | 1 => match riceDecode h.format (h.params % 4) h.count payload with
    | .ok xs => .ok (packSamples h.format xs)
    | .error e => .error e
  | _ => dictDecode h.orig (if h.params % 2 = 1 then history else []) payload

/-- Decodes the block at the head of an input in the order of R310; `history` holds what the job has produced before,
newest byte first. -/
def blockDecode (history input : Bytes) : Decoded :=
  let h := blockHead input
  if input.length < 16 then .error 4 0
  else if headBad input then .error 5 0
  else if input.length < 16 + h.coded + 4 then .error 4 0
  else match payloadDecode h history (sub input 16 h.coded) with
    | .error (c, bit) => .error c bit
    | .ok d => if crc32c d = getU input (16 + h.coded) 4 then .data d else .error 6 0

/-- Bytes of the block at the head of an input. -/
def blockLength (input : Bytes) : Nat := 20 + (blockHead input).coded

/-- What unit 3 writes for a payload, checking no codes: bits and bytes left over are passed by, and where a code has no meaning
the bytes are wrong ones, as many as the header says (R317). -/
def loaderPayload (h : BlockHead) (history payload : Bytes) : Bytes :=
  let wrong := padTo h.orig ((Config.loaderBytes payload).take h.orig)
  match h.mode with
  | 0 => payload
  | 1 => match riceValues h.format (h.params % 4) h.count (unpackMsb payload) with
    | .ok (_, xs) => packSamples h.format xs
    | .error _ => wrong
  | _ =>
    let past := if h.params % 2 = 1 then history else []
    match dictDecode h.orig past payload with
    | .ok d => d
    | .error (1, bit) => match dictDecode h.orig past (payload.take (bit / 8)) with
      | .ok d => d
      | .error _ => wrong
    | .error _ => wrong

/-- Unit 3 (R317) decodes a string of blocks within its input; it ends in CHECK_MISMATCH where a block's bytes do not match the
check value behind it. -/
def loaderDecode : Nat → Bytes → Bytes → Option Bytes
  | 0, _, _ => none
  | fuel + 1, out, input =>
    if input.isEmpty then some out.reverse
    else
      let h := blockHead input
      let d := loaderPayload h out (sub input 16 h.coded)
      if crc32c d = getU input (16 + h.coded) 4 ∧ blockLength input ≤ input.length
      then loaderDecode fuel (d.reverse ++ out) (input.drop (blockLength input)) else none

/-! ## DICT encoding: which matches are taken is open, their kinds are not (R307) -/

/-- An item of a DICT payload: a literal run of the next bytes of the data, or a match by the shortest kind that can express it. -/
def dictItem (data : Bytes) (m d : Nat) : Bytes :=
  if d = 0 then le 1 (m - 1) ++ data.take m
  else if 3 ≤ m ∧ m ≤ 10 ∧ d ≤ 2048 then [BitVec.ofNat 8 (0x80 + 8 * (m - 3) + (d - 1) / 256), BitVec.ofNat 8 (d - 1)]
  else if 3 ≤ m ∧ m ≤ 65 then le 1 (0xC0 + (m - 3)) ++ le 2 (d - 1)
  else [0xFF] ++ le 2 (m - 66) ++ le 2 (d - 1)

/-- The payload of some items over the data they stand for. -/
def dictPayload : List (Nat × Nat) → Bytes → Bytes
  | [], _ => []
  | (m, d) :: xs, data => dictItem data m d ++ dictPayload xs (data.drop m)

/-- A DICT block of some data behind a history (newest byte first): the encoder's payload where it decodes to the data
and is shorter, else STORED (R301). -/
def dictBlock (chain : Bool) (history data : Bytes) : Bool × Bytes :=
  let past := if chain then history else []
  let payload := dictPayload (Config.dictParse past data) data
  match dictDecode data.length past payload with
  | .ok d =>
    if d = data ∧ payload.length < data.length then (true, wrapBlock 2 0 (b2n chain) 0 data payload)
    else (false, storedBlock 0 0 data)
  | .error _ => (false, storedBlock 0 0 data)

/-- Bytes of the engine working memory (Table ASC-4): two block buffers of each of the 16 compressors, 16 job state slots, the staging
buffers of units 0-3. -/
def engineMemory : List Nat := [16 * 2 * (4096 * 48 / 8 + 20), 16 * 65536, 261504]

end Sys2Proof.Machine
end

