-- ==== Sys2Proof/Machine/Streams.lean ====
section
/-! DEFINITION. Stream queues and stream packets (12_streams): credits, closing, commit, rewinding, flushing, and the
stream opcodes. -/

namespace Sys2Proof.Machine

/-! ## Level and watermarks (R348, R349) -/

/-- The stream's queue is in use: its credits count. -/
def Stream.live (t : Stream) : Bool := t.state == .active || t.state == .closing || t.state == .emptying

/-- Pages whose credit is out. -/
def Stream.level (t : Stream) : Nat := if t.live then t.pages - t.credits else 0

/-- STREAM_EVENT (Table STRM-8). -/
def streamEvent (n event first last count : Nat) (s : State) : State :=
  let t := s.stream n
  notify 0x0980 (le 2 n ++ le 1 event ++ le 1 (mask [t.hitHigh, t.hitLow]) ++ ts96 s.now ++ le 8 first ++ le 8 last
    ++ le 4 count ++ le 2 t.level ++ zeros 2) s

/-- The credits of a stream change: its peak and watermarks follow the level. -/
def setCredits (n credits : Nat) (s : State) : State :=
  let t := s.stream n
  let t' := { t with credits := credits }
  let old := t.level
  let new := t'.level
  let high := decide (t.high ≠ 0) && decide (old < t.high) && decide (t.high ≤ new)
  let low := decide (t.low ≠ 0xFFFF) && decide (t.low < old) && decide (new ≤ t.low)
  let s := s.setStream n { t' with peak := max t.peak new, hitHigh := t.hitHigh || high, hitLow := t.hitLow || low }
  if (high && !t.hitHigh) || (low && !t.hitLow) then streamEvent n 2 0 0 0 s else s

/-! ## Starting, rewinding, closing -/

/-- The stream becomes ACTIVE (R327, R328, R334). -/
def activateStream (n : Nat) (s : State) : State :=
  let t := s.stream n
  s.setStream n { t with
    state := .active, credits := t.pages, discOwed := true, starved := false, creditFault := false, holdover := false
    opened := [], queue := [], packets := 0, bytes := 0, rewinds := 0, discarded := 0, unsettled := 0 }

/-- Drops the completed blocks of a stream that wait in the compressors. -/
def dropCoded (n : Nat) (s : State) : State :=
  { s with strm := { s.strm with coded := s.strm.coded.filter fun x => x.2 ≠ n } }

/-- Every uncommitted packet of a stream, END_OF_STREAM apart, is rewound (R332). -/
def rewindStream (n : Nat) (s : State) : State :=
  let t := s.stream n
  let gone := t.opened.filter fun p => !p.eos
  if gone.isEmpty then s
  else
    let s := s.setStream n { t with opened := t.opened.filter (·.eos), discOwed := true
                                    rewinds := t.rewinds + BitVec.ofNat 32 gone.length }
    let s := setCredits n (t.credits + gone.foldl (fun k p => k + p.pages) 0) (dropCoded n s)
    forEach gone (fun _ u => streamEvent n 3 0 0 0 u) s

/-- Closes the open packet, if one is open (R335). -/
def closePacket (n : Nat) (s : State) : State :=
  let t := s.stream n
  s.setStream n { t with opened := t.opened.map fun p => { p with closed := true } }

/-- Pages that a full packet of a stream occupies. -/
def State.fullPages (s : State) (n : Nat) : Nat := cdiv (64 + s.worstPayload n) 4096

/-- Pages of a packet with a payload of some bytes. -/
def pagesOf (payload : Nat) : Nat := cdiv (64 + payload) 4096

/-- Applies a change to the packet at the front or at the back of the uncommitted ones. -/
def mapLast {α : Type} (f : α → α) : List α → List α
  | [] => []
  | [x] => [f x]
  | x :: xs => x :: mapLast f xs

def mapFirst {α : Type} (f : α → α) : List α → List α
  | [] => []
  | x :: xs => f x :: xs

/-- CREDIT_FAULT (R330): the word is dropped, the packet rewound, and no packet opens until credits for a full one are
held. -/
def creditFault (n : Nat) (s : State) : State :=
  let s := s.setStream n { s.stream n with creditFault := true, starved := true }
  rewindStream n (streamEvent n 5 0 0 0 (raise 11 0 n s))

/-- Spends credits for pages that a packet newly begins; `ix` tells the packet by its position. -/
def spendPages (n more : Nat) (s : State) : State := setCredits n ((s.stream n).credits - more) s

/-- An output as the packetiser receives it: index, sample, stamp, delays, marks. -/
structure OutWord where
  index : Int
  value : Smp
  time : Int
  model : Int
  cal : Nat
  epoch : Byte
  nominal : Bool
  saturated : Bool
  unsettled : Bool
  fade : Bool
  deriving DecidableEq, Repr

/-- The compressor of a stream is in block reset. -/
def State.compressorHeld (s : State) (n : Nat) : Bool := (s.cstream n).enable && (match (s.stream n).placeC with
  | some k => s.inReset 9 k
  | none => false)

/-- The packetiser takes outputs of a stream: not in SAFE, not in reset (Table STRM-7), nor while the stream's compressor is, which
starts anew with the next packet (R314). -/
def State.packetises (s : State) (n : Nat) : Bool :=
  decide (s.chip.phase = .serving) && !s.inReset 11 0 && !s.compressorHeld n && ((s.stream n).state == .active || (s.stream n).state == .closing)

/-- A starved stream holds credits for a full packet again (R330). -/
def State.fed (s : State) (n : Nat) : Bool := !(s.stream n).starved || decide (s.fullPages n ≤ (s.stream n).credits)

/-- Whether a packet is open. -/
def Stream.isOpen (t : Stream) : Bool := t.opened.any fun p => !p.closed

/-- Opens a packet with an output (R338). -/
def openPacket (n : Nat) (w : OutWord) (s : State) : State :=
  let t := s.stream n
  let q := s.time.quality
  s.setStream n { t with
    starved := false
    holdover := t.holdover || q == .holdover || q == .free
    opened := t.opened ++ [{ first := w.index, quality := q, time := w.time, model := w.model, cal := w.cal
                             epoch := w.epoch, nominal := w.nominal }] }

/-- The open packet with one more sample. -/
def Packet.add (p : Packet) (w : OutWord) : Packet :=
  { p with
    samples := w.value :: p.samples, count := p.count + 1, saturated := p.saturated || w.saturated
    unsettled := p.unsettled + b2n w.unsettled, fade := p.fade || w.fade }

/-- Payload bytes of an uncompressed packet of k samples. -/
def State.plainBytes (s : State) (n k : Nat) : Nat := cdiv (k * formatBits (s.pipe n).format) 8

/-- The mode in effect for a compressed stream: 0 STORED, 1 PRED-RICE. -/
def CompStream.inEffect (c : CompStream) : Nat := if c.mode = 2 then c.active else c.mode

/-- A sample that is the first of a block starts it with the mode and order now in effect (R312, R313). -/
def Packet.start (p : Packet) (c : CompStream) : Packet :=
  if c.enable ∧ p.count % c.block = 0 then { p with modes := p.modes ++ [(c.inEffect, c.order)] } else p

/-- The packetiser takes one output of a stream (R335, R330). -/
def takeOutput (n : Nat) (w : OutWord) (s : State) : State :=
  if !s.packetises n || !s.fed n then s
  else
    let s := if (s.stream n).isOpen then s else openPacket n w s
    let p := ((s.stream n).opened.getLast?).getD { first := w.index, quality := .unset }
    let want := if (s.cstream n).enable then p.pages else pagesOf (s.plainBytes n (p.count + 1))
    if (s.stream n).credits < want - p.pages then creditFault n s
    else
      let full := decide ((s.stream n).perPacket ≤ p.count + 1)
      let s := s.setStream n { s.stream n with
        opened := mapLast (fun q => { (q.start (s.cstream n)).add w with pages := want, closed := full }) (s.stream n).opened }
      if want = p.pages then s else spendPages n (want - p.pages) s

/-- The END_OF_STREAM packet joins the uncommitted ones (R346, R339). -/
def appendEos (n : Nat) (w : OutWord) (s : State) : State :=
  let t := s.stream n
  let q := s.time.quality
  s.setStream n { t with
    holdover := t.holdover || q == .holdover || q == .free
    opened := t.opened ++ [{ first := w.index, quality := q, time := w.time, model := w.model, cal := w.cal
                             epoch := w.epoch, nominal := w.nominal, eos := true, closed := true }] }

/-! ## Compressed blocks (R312, R342) -/

/-- The uncommitted packet with samples to code, by position: a whole block is there, or the packet has closed. -/
def codable (block : Nat) : Nat → List Packet → Option Nat
  | _, [] => none
  | i, p :: ps =>
    if p.coded < p.count then
      (if p.closed || decide (block ≤ p.count - p.coded) then some i else none)
    else codable block (i + 1) ps

def setAt {α : Type} (f : α → α) : Nat → List α → List α
  | _, [] => []
  | 0, x :: xs => f x :: xs
  | i + 1, x :: xs => x :: setAt f i xs

def bumpAt (i : Nat) : List Nat → List Nat := setAt (· + 1) i

/-- Codes the next block of a stream's oldest packet that has one (R312, R313): the block and what it counts. -/
def codeBlock (n : Nat) (s : State) : Option (Bytes × CompStream × State) :=
  let t := s.stream n
  let c := s.cstream n
  match codable c.block 0 t.opened with
  | none => none
  | some i =>
    match t.opened[i]? with
    | none => none
    | some p =>
      let xs := (p.samples.reverse.drop p.coded).take c.block
      let f := (s.pipe n).format
      let data := packSamples f xs
      let how := (p.modes[p.coded / c.block]?).getD (c.inEffect, c.order)
      let rice := riceBlock f how.2 xs
      let out := if how.1 = 1 then rice else (none, storedBlock f xs.length data)
      let c' := { c with
        orig := c.orig + BitVec.ofNat 64 data.length, coded := c.coded + BitVec.ofNat 64 out.2.length
        trial := c.trial + BitVec.ofNat 64 rice.2.length, blocks := c.blocks + 1
        stored := if out.1.isNone then c.stored + 1 else c.stored
        orders := match out.1 with
          | some p => bumpAt p c.orders
          | none => c.orders
        recent := (c.recent.filter fun x => decide (s.tick < x.1 + 1000000000)) ++ [(s.tick, data.length, rice.2.length)] }
      let t' := { t with opened := setAt (fun q => { q with
        coded := q.coded + xs.length, buffers := q.buffers ++ [out.2], blocks := q.blocks + 1 }) i t.opened }
      some (out.2, c', s.setStream n t')

/-- Completed blocks that wait in a compressor's output buffers (R315). -/
def State.buffered (s : State) (k : Nat) : Nat := (s.strm.coded.filter fun x => x.1 == k).length

/-- A compressor completes a block of a stream; it codes into one of its two block buffers (R343). -/
def compBlockComplete (n : Nat) (s : State) : State :=
  let c := s.cstream n
  match (s.stream n).placeC with
  | none => s
  | some k =>
    if !c.enable || s.inReset 9 k || !(s.stream n).live || decide (2 ≤ s.buffered k) then s
    else match codeBlock n s with
      | none => s
      | some (_, c', s) =>
        let s := s.setCstream n c'
        { s with strm := { s.strm with coded := s.strm.coded ++ [(k, n)] } }

/-- The next compressor with a completed block, round-robin after the one served last (R342). -/
def State.nextCompressor (s : State) : Option Nat :=
  ((List.range 16).map fun i => (s.strm.served + 1 + i) % 16).find? fun k => s.strm.coded.any fun x => x.1 == k

/-- The position of the packet whose oldest block waits. -/
def waitingPacket (ps : List Packet) : Option Nat := ps.findIdx? fun p => !p.buffers.isEmpty

/-- Moves up to `beat` bytes of a stream's oldest waiting block into stream memory. -/
def moveBeat (n beat : Nat) (s : State) : State :=
  let t := s.stream n
  match waitingPacket t.opened with
  | none => s
  | some i => match t.opened[i]? with
    | none => s
    | some p =>
      let b := p.buffers.headD []
      let part := (b.drop p.movedHere).take beat
      let done := decide (b.length ≤ p.movedHere + part.length)
      let want := pagesOf (p.moved.length + part.length)
      if t.credits < want - p.pages then creditFault n s
      else
        let s := s.setStream n { t with opened := setAt (fun q => { q with
          moved := q.moved ++ part, movedHere := if done then 0 else q.movedHere + part.length
          buffers := if done then q.buffers.drop 1 else q.buffers, pages := want }) i t.opened }
        let s := if want = p.pages then s else spendPages n (want - p.pages) s
        if done then { s with strm := { s.strm with coded := s.strm.coded.eraseP fun x => x.2 == n } } else s

/-- One beat of 256 bytes (R342). -/
def packetiserBeat (s : State) : State :=
  if s.inReset 11 0 || decide (s.chip.phase ≠ .serving) then s
  else match s.nextCompressor with
    | none => s
    | some k => match s.strm.coded.find? fun x => x.1 == k with
      | none => s
      | some (_, n) => moveBeat n 256 { s with strm := { s.strm with served := k } }

/-! ## Commit (R331-R341) -/

/-- The stream's next sequence number, held in the always-on region (R333). -/
def State.nextSeqNo (s : State) (n : Nat) : Nat := tget 0 s.strm.seqs n

/-- 10^9 x 2^32 / f_out, rounded half to even (R337). -/
def intervalOf (fout : Nat) : Nat := (rheR ((1000000000 * 4294967296 : Nat) / (fout : Rat))).toNat

/-- The stream packet header with its hcrc (Table STRM-3). -/
def packetHeader (s : State) (n seq : Nat) (t : Stream) (p : Packet) (payload : Nat) : Bytes :=
  let comp := (s.cstream n).enable
  let flags := mask [decide (p.unsettled ≠ 0), p.saturated, comp, p.fade, t.discOwed, p.eos, p.nominal && !p.eos, s.chip.testMode]
    + qCode p.quality * 256 + b2n t.holdover * 1024
  let h := le 1 3 ++ le 1 64 ++ le 2 flags ++ le 2 s.chip.hubId.toNat ++ le 2 n ++ le 6 seq ++ le 2 p.unsettled
    ++ ts96I p.time ++ le 2 p.count ++ le 1 (s.pipe n).format ++ le 1 p.epoch.toNat ++ le 8 (intervalOf (s.fout n))
    ++ leI 4 p.model ++ le 4 p.cal ++ le 4 payload ++ le 2 (if comp then p.blocks else 0) ++ zeros 2
  h ++ le 4 (crc32c h) ++ zeros 4

/-- The group's port of a stream is UP (R362). -/
def State.carried (s : State) (port : Option Nat) : Bool := match port with
  | some p => (s.port p).state == .up
  | none => false

/-- Whether the oldest uncommitted packet is complete. -/
def Packet.ready (p : Packet) (compressed : Bool) : Bool :=
  p.closed && (!compressed || p.eos || (p.coded == p.count && p.buffers.isEmpty))

/-- An EMPTYING stream whose credits have all returned becomes IDLE (R327). -/
def checkEmpty (n : Nat) (s : State) : State :=
  let t := s.stream n
  if t.state = .emptying ∧ t.queue.isEmpty then
    streamEvent n 1 0 0 0 (s.setStream n { t with state := .idle, credits := t.pages })
  else s

/-- PIPE_EVENT (Table PIPE-6). -/
def pipeEvent (event n : Nat) (index : Int) (s : State) : State :=
  notify 0x0580 (le 1 event ++ zeros 1 ++ le 2 n ++ ts96 s.now ++ leI 8 index) s

/-- The pipe has produced everything of its stop: it is BOUND, its start's charges are released (R223, Table ADM-2). -/
def endPipe (n : Nat) (s : State) : State :=
  let s := s.setPipe n { s.pipe n with state := .bound, waiting := false, nLast := none, updates := [] }
  pipeEvent 1 n 0 (unplaceStream n s)

/-- Commits the oldest uncommitted packet of a stream (R331). -/
def commitOldest (n : Nat) (s : State) : State :=
  let t := s.stream n
  match t.opened with
  | [] => s
  | p :: rest =>
    let comp := (s.cstream n).enable
    let payload := if p.eos then [] else if comp then p.moved else packSamples (s.pipe n).format p.samples.reverse
    let seq := s.nextSeqNo n
    let pages := if p.eos then 1 else p.pages
    let a := if s.carried t.sendA then pages else 0
    let b := if s.carried t.sendB then pages else 0
    let bytes := packetHeader s n seq t p payload.length ++ payload
    let entry : Committed := { seq := seq, bytes := bytes, pages := pages, leftA := a, leftB := b, order := s.strm.order }
    let s := s.setStream n { t with
      opened := rest, discOwed := false, packets := t.packets + 1, bytes := t.bytes + BitVec.ofNat 64 bytes.length
      unsettled := t.unsettled + BitVec.ofNat 64 p.unsettled
      queue := if a = 0 ∧ b = 0 then t.queue else t.queue ++ [entry] }
    let s := { s with strm := { s.strm with seqs := tset 0 s.strm.seqs n ((seq + 1) % 2 ^ 48), order := s.strm.order + 1 } }
    let c := t.credits - (if p.eos then 1 else 0)
    let s := if p.eos then setCredits n c s else s
    let s := if a = 0 ∧ b = 0 then setCredits n (c + pages) s else s
    if p.eos then
      let old := s
      let s := endPipe n (s.setStream n { s.stream n with state := .emptying })
      checkEmpty n (ledgerNotice old (streamEvent n 0 0 0 0 s))
    else s

/-- The oldest packet is committed. The END_OF_STREAM packet begins its page then: it waits until a starved stream is fed, and
without a credit its word is a credit fault, and it is rewound to be written anew (R328, R330, R332). -/
def commitFront (n : Nat) (s : State) : State :=
  if !((s.stream n).opened.take 1).any (·.eos) then commitOldest n s
  else if !s.fed n then s
  else if (s.stream n).credits = 0 then
    let s := creditFault n s
    let t := s.stream n
    streamEvent n 3 0 0 0 (s.setStream n { t with rewinds := t.rewinds + 1, discOwed := true })
  else commitOldest n (s.setStream n { s.stream n with starved := false })

/-- PACKET_COMMIT: the oldest packet is closed and complete. -/
def packetCommit (n : Nat) (s : State) : State :=
  let t := s.stream n
  match t.opened with
  | [] => s
  | p :: _ =>
    if p.ready (s.cstream n).enable && t.live && !s.inReset 11 0 && decide (s.chip.phase = .serving) then commitFront n s else s

/-- Codes and moves everything of a stream's packets that waits in its compressor. -/
def drainPackets : Nat → Nat → State → State
  | 0, _, s => s
  | k + 1, n, s =>
    match codeBlock n s with
    | some (_, c', s) => drainPackets k n (s.setCstream n c')
    | none => if (waitingPacket (s.stream n).opened).isSome then drainPackets k n (moveBeat n 0x10000 s) else s

/-- Commits every closed packet of a stream at once (Table STRM-2, whole-second step). -/
def commitAll : Nat → Nat → State → State
  | 0, _, s => s
  | k + 1, n, s => match (s.stream n).opened with
    | [] => s
    | p :: _ => if p.closed then commitAll k n (commitFront n s) else s

/-- Before a whole-second step acts, a stream's open packet closes short and commits; the next packet carries
DISCONTINUITY (R335, R79). -/
def stepStream (n : Nat) (s : State) : State :=
  let s := closePacket n s
  let s := if (s.cstream n).enable && !s.compressorHeld n then drainPackets 0x40000 n s else s
  let s := commitAll (s.stream n).opened.length n s
  if (s.stream n).live then s.setStream n { s.stream n with discOwed := true } else s

/-! ## Claims (R329) -/

def Committed.left (c : Committed) : Nat := max c.leftA c.leftB

/-- A change of a stream's committed packets returns the credits of the pages whose last claim it clears; packets
without claims leave the queue. -/
def changeQueue (n : Nat) (f : Committed → Committed) (s : State) : State :=
  let t := s.stream n
  let q := t.queue.map f
  let back := (t.queue.foldl (fun k c => k + c.left) 0) - (q.foldl (fun k c => k + c.left) 0)
  let s := s.setStream n { t with queue := q.filter fun c => c.left ≠ 0 }
  checkEmpty n (if back = 0 then s else setCredits n (t.credits + back) s)

/-- A group's claims on a stream's pages clear (R329, R361). -/
def clearClaims (n g : Nat) (s : State) : State :=
  changeQueue n (fun c => if g = 0 then { c with leftA := 0 } else { c with leftB := 0 }) s

/-- The streams whose packets leave by a port. -/
def State.sentBy (s : State) (port : Nat) : List Nat :=
  (s.strm.streams.filter fun p => p.2.sendA == some port || p.2.sendB == some port).map (·.1)

/-- Packets of a stream that a group has not begun to send. -/
def Stream.depth (t : Stream) (g : Nat) : Nat :=
  (t.queue.filter fun c => if g = 0 then decide (c.leftA ≠ 0) && !c.begunA else decide (c.leftB ≠ 0) && !c.begunB).length

/-! ## Flushing (R345-R347) -/

/-- Flush-now: the open packet is rewound, every committed packet discarded, every credit returned. The ports end the
frames of discarded packets by themselves (13_uplinks). -/
def flushNow (n : Nat) (s : State) : State :=
  let s := rewindStream n s
  let t := s.stream n
  let gone := t.queue
  let s := s.setStream n { t with
    queue := [], discarded := t.discarded + BitVec.ofNat 32 gone.length, discOwed := true }
  let s := setCredits n t.pages s
  let s := streamEvent n 4 ((gone.head?.map (·.seq)).getD 0) ((gone.getLast?.map (·.seq)).getD 0) gone.length s
  checkEmpty n s

/-! ## Opcodes (Table STRM-8) -/

/-- R326: the stream is UNCONFIGURED or IDLE and its pipe FREE or BOUND. -/
def State.streamIdle (s : State) (n : Nat) : Bool :=
  ((s.stream n).state == .unconfigured || (s.stream n).state == .idle)
    && ((s.pipe n).state == .free || (s.pipe n).state == .bound)

def opStreamConfig : Op :=
  { code := 0x0901
    len := exactly 8
    ledger := true
    fields := fun r _ => [fieldLe 0 (r.u16 0) 1023, fieldLe 2 (r.u16 2) 8192, (decide (r.u16 4 ≠ 0), ansBadField 4)]
      ++ reserved r 6 2
    state := fun r s => [(s.streamIdle (r.u16 0), ansState s)]
    effect := fun r s =>
      let n := r.u16 0
      let t := s.stream n
      if r.u16 2 = 0 then (s.setStream n { t with state := .unconfigured, pages := 0, perPacket := 0, credits := 0 }, ansDone [])
      else (s.setStream n { t with state := .idle, pages := r.u16 2, perPacket := r.u16 4, credits := 0 }, ansDone []) }

def streamCode : StreamState → Nat
  | .unconfigured => 0
  | .idle => 1
  | .active => 2
  | .closing => 3
  | .emptying => 4

def streamStatusPayload (s : State) (n : Nat) : Bytes :=
  let t := s.stream n
  le 2 n ++ le 1 (streamCode t.state) ++ le 1 (mask [t.hitHigh, t.hitLow, t.creditFault, t.holdover, t.inA, t.inB])
    ++ le 2 t.pages ++ le 2 t.perPacket ++ le 2 t.level ++ le 2 t.peak ++ le 2 t.high ++ le 2 t.low
    ++ le 2 t.credits ++ le 2 (if t.inA then t.depth 0 else 0)
    ++ le 2 (if t.inB then t.depth 1 else 0) ++ zeros 2 ++ le 8 (s.nextSeqNo n) ++ le 8 t.packets.toNat
    ++ le 8 t.bytes.toNat ++ le 4 t.rewinds.toNat ++ le 4 t.discarded.toNat ++ le 8 t.unsettled.toNat

def opStreamStatus : Op :=
  { code := 0x0902
    len := exactly 4
    v2 := some fun r => [fieldLe 0 (r.u16 0) 255]
    reads := fun _ _ => true
    fields := fun r _ => [fieldLe 0 (r.u16 0) 1023] ++ reserved r 2 2
    effect := fun r s =>
      let t := s.stream (r.u16 0)
      (s.setStream (r.u16 0) { t with hitHigh := false, hitLow := false, peak := t.level },
       ansDone (streamStatusPayload s (r.u16 0))) }

/-- What both forms of STREAM_FLUSH check (R345, R347). -/
def flushFields (r : Req) : List Check := [fieldLe 0 (r.u16 0) 1023, flagBits r 2 1] ++ reserved r 3 1

def flushStates (r : Req) (s : State) : List Check :=
  let t := s.stream (r.u16 0)
  [(if bit (r.u8 2) 0 then t.live else t.state == .active, ansState s)]

def opStreamWatermark : Op :=
  { code := 0x0904
    len := exactly 8
    fields := fun r s =>
      let p := (s.stream (r.u16 0)).pages
      [fieldLe 0 (r.u16 0) 1023, fieldLe 2 (r.u16 2) p,
       (r.u16 4 == 0xFFFF || (decide (r.u16 4 + 1 ≤ p) && (r.u16 2 == 0 || decide (r.u16 4 < r.u16 2))), ansBadField 4)]
        ++ reserved r 6 2
    effect := fun r s =>
      (s.setStream (r.u16 0) { s.stream (r.u16 0) with high := r.u16 2, low := r.u16 4 }, ansDone []) }

end Sys2Proof.Machine
end

