-- ==== Sys2Proof/Machine/Uplinks.lean ====
section
/-! DEFINITION. Uplink groups and ports, frames on the wire, and the uplink and stream-flush opcodes
(13_uplinks; R345, R347). -/

namespace Sys2Proof.Machine

/-! ## Checksums of published standards (PRESUMED, log entry 22) -/

def fcsBit (c : Nat) : Nat := if c % 2 = 1 then (c / 2) ^^^ 0xEDB88320 else c / 2

def fcsByte (c : Nat) (b : Byte) : Nat :=
  fcsBit (fcsBit (fcsBit (fcsBit (fcsBit (fcsBit (fcsBit (fcsBit (c ^^^ b.toNat))))))))

/-- The frame check sequence of IEEE 802.3. -/
def fcs (b : Bytes) : Nat := (b.foldl fcsByte 0xFFFFFFFF) ^^^ 0xFFFFFFFF

/-- The sum of 16-bit words in network order. -/
def sum16 : Bytes → Nat
  | [] => 0
  | [a] => a.toNat * 256
  | a :: b :: r => a.toNat * 256 + b.toNat + sum16 r

/-- The ones' complement checksum of the Internet protocols. -/
def inetSum (b : Bytes) : Nat :=
  let s := sum16 b
  let s := s % 65536 + s / 65536
  let s := s % 65536 + s / 65536
  65535 - s

/-! ## Frames (R357, R358) -/

/-- A destination entry's part for a group (Table UPL-5). -/
def destPart (d : Bytes) (g : Nat) : Bytes := sub d (0x10 + 32 * g) 32

def ipv4Header (d part : Bytes) (src : Bytes) (len : Nat) : Bytes :=
  let h := fun (c : Nat) => [0x45, BitVec.ofNat 8 (4 * getU d 6 1)] ++ be 2 (20 + 8 + len) ++ zeros 2 ++ [0x40, 0]
    ++ [BitVec.ofNat 8 (getU d 7 1), 17] ++ be 2 c ++ src ++ sub part 0x10 4
  h (inetSum (h 0))

def ipv6Header (d part : Bytes) (src : Bytes) (flow len : Nat) : Bytes :=
  be 4 (6 * 2 ^ 28 + 4 * getU d 6 1 * 2 ^ 20 + flow) ++ be 2 (8 + len) ++ [17, BitVec.ofNat 8 (getU d 7 1)]
    ++ src ++ sub part 0x10 16

/-- A UDP header; a computed checksum of 0 is sent as all ones. -/
def udpHeader (d pseudo body : Bytes) (summed : Bool) : Bytes :=
  let ports := be 2 (getU d 8 2) ++ be 2 (getU d 0xA 2) ++ be 2 (8 + body.length)
  let c := inetSum (pseudo ++ be 2 (8 + body.length) ++ [0, 17] ++ ports ++ zeros 2 ++ body)
  ports ++ be 2 (if summed then (if c = 0 then 0xFFFF else c) else 0)

/-- The tags of an entry (R358). -/
def frameTags (d part : Bytes) : Bytes :=
  (if 1 ≤ getU d 3 1 then be 2 (getU d 0xC 2) ++ be 2 (getU part 6 2) else [])
    ++ (if 2 ≤ getU d 3 1 then be 2 0x8100 ++ be 2 (getU part 8 2) else [])

/-- A frame as it leaves a port, preamble and gap excluded: `raw` is the EtherType of raw encapsulation and `flow` the
IPv6 flow label. -/
def buildFrame (d : Bytes) (p : Port) (g raw flow : Nat) (body : Bytes) : Bytes :=
  let part := destPart d g
  let head := sub part 0 6 ++ p.mac ++ frameTags d part
  let f := head ++
    (if destEncap d = 2 then
      be 2 0x0800 ++ ipv4Header d part p.ipv4 body.length
        ++ udpHeader d (p.ipv4 ++ sub part 0x10 4) body (bit (getU d 2 1) 1) ++ body
    else if destEncap d = 3 then
      be 2 0x86DD ++ ipv6Header d part p.ipv6 flow body.length
        ++ udpHeader d (p.ipv6 ++ sub part 0x10 16) body true ++ body
    else be 2 raw ++ body)
  f ++ le 4 (fcs f)

/-- The same frame with the complement of its frame check sequence (R363). -/
def corruptFcs (f : Bytes) : Bytes := f.take (f.length - 4) ++ (f.drop (f.length - 4)).map (~~~ ·)

def Sending.frame : Sending → Bytes
  | .packet _ _ _ f => f
  | .dump f => f
  | .control f => f
  | .message n => zeros n

/-! ## Port and group states (Table UPL-3) -/

def portCode : PortState → Nat
  | .unconfigured => 0
  | .disabled => 1
  | .down => 2
  | .up => 3

/-- UPL_EVENT (Table UPL-7); `port` 0xFF for an event of a group. -/
def uplEvent (event port group cause : Nat) (s : State) : State :=
  notify 0x0A80 (le 1 event ++ le 1 port ++ le 1 group ++ le 1 cause ++ ts96 s.now
    ++ le 2 (if port = 0xFF then 0 else (s.placedOn port).length) ++ zeros 2) s

/-- GROUP_UP or GROUP_DOWN where a change of ports altered a group. -/
def tellGroup (old : State) (g : Nat) (s : State) : State :=
  if old.groupUp g && !s.groupUp g then uplEvent 2 0xFF g 0xFF s
  else if !old.groupUp g && s.groupUp g then uplEvent 3 0xFF g 0xFF s
  else s

/-- The frame that a port is sending is aborted (R363). -/
def abortFrame (p : Nat) (s : State) : State :=
  let x := s.port p
  match x.sending with
  | none => s
  | some f => (s.setPort p { x with sending := none, aborted := x.aborted + 1 }).emit (.uplinkFrame p (corruptFcs f.frame) true)

/-- A port begins or ends sending a remote fault sequence (R361); in SAFE it sends idle only (Table UPL-6). -/
def sendRemote (p : Nat) (on : Bool) (s : State) : State :=
  let on := on && decide (s.chip.phase ≠ .safe)
  if (s.port p).remoteTx = on then s else (s.setPort p { s.port p with remoteTx := on }).emit (.remoteFault p on)

/-- A port leaves UP: its frame is aborted, its group's claims of the streams it sends clear, and UPL_EVENT tells the
cause (R361). -/
def portLeave (p cause : Nat) (after : PortState) (s : State) : State :=
  let old := s
  let s := abortFrame p s
  let x := s.port p
  let s := s.setPort p { x with state := after, downs := x.downs + 1, changed := s.now, goodTick := s.tick }
  let s := forEach (s.sentBy p) (fun n t => clearClaims n (groupOf p) t) s
  raise 12 0 p (tellGroup old (groupOf p) (uplEvent 0 p (groupOf p) cause s))

/-- A port in UP goes DOWN; in another state nothing changes. -/
def portDropped (p cause : Nat) (s : State) : State :=
  if (s.port p).state = .up then portLeave p cause .down s else s

/-- A lane of the port is being re-equalised. -/
def State.portReeq (s : State) (p : Nat) : Bool := (s.port p).lanes.any fun l => (s.lane l).reeq.isSome

/-- PORT_UP: every lane locked, no fault sequence, for 1 ms. -/
def portUp (p : Nat) (s : State) : State :=
  let x := s.port p
  if x.state == .down && (x.lanes.all fun l => (s.lane l).aligned) && !s.portReeq p && !s.inReset 12 p
      && decide (x.goodTick + 1000000 ≤ s.tick) then
    let t := s.setPort p { x with state := .up, changed := s.now, localFault := false, remoteFault := false }
    tellGroup s (groupOf p) (uplEvent 1 p (groupOf p) 0xFF (sendRemote p false t))
  else s

/-- PORT_DOWN: a fault sequence is received, or lock is lost. A port that is not disabled answers a local fault with remote fault
sequences until it is UP again. -/
def portDown (p : Nat) (cause : PortCause) (s : State) : State :=
  let x := s.port p
  if x.state = .unconfigured then s
  else
    let s := s.setPort p { x with
      goodTick := s.tick, localFault := x.localFault || cause == .localFault
      remoteFault := x.remoteFault || cause == .remoteFault }
    let s := portDropped p (match cause with
      | .lockLost => 1
      | _ => 0) s
    if cause = .localFault ∧ x.state ≠ .disabled then sendRemote p true s else s

/-! ## Transmission (R364) -/

/-- The group's pages of a committed packet that have not left, and whether its sending has begun. -/
def Committed.leftIn (c : Committed) (g : Nat) : Nat := if g = 0 then c.leftA else c.leftB
def Committed.begun (c : Committed) (g : Nat) : Bool := if g = 0 then c.begunA else c.begunB

/-- The first packet of a stream that a group has still to begin. -/
def Stream.nextOut (t : Stream) (g : Nat) : Option Committed :=
  t.queue.find? fun c => decide (c.leftIn g ≠ 0) && !c.begun g

/-- Candidates of a port in commit order: commit order number, stream, packet. -/
def State.waitingOn (s : State) (p : Nat) : List (Nat × Nat × Committed) :=
  (s.sentBy p).filterMap fun n =>
    let t := s.stream n
    if (if groupOf p = 0 then t.sendA else t.sendB) = some p then
      (t.nextOut (groupOf p)).map fun c => (c.order, n, c)
    else none

def firstCommitted : List (Nat × Nat × Committed) → Option (Nat × Nat × Committed)
  | [] => none
  | x :: xs => match firstCommitted xs with
    | none => some x
    | some y => if x.1 ≤ y.1 then some x else some y

/-- A port's transmitter sends frames: UP, not in SAFE, its MAC not in reset, nothing in progress. -/
def State.mayStart (s : State) (p : Nat) : Bool :=
  (s.port p).state == .up && decide (s.chip.phase = .serving) && !s.inReset 12 p && (s.port p).sending.isNone

/-- A stream or dump frame waits on a port. -/
def State.dataWaits (s : State) (p : Nat) : Bool := !(s.waitingOn p).isEmpty || !(s.port p).dumps.isEmpty

/-- A frame begins. After a control frame no other goes while a stream or dump frame waits: that all of them go first is what the
single control frame of Table ADM-5's port wait asks (DEDUCED, log entry 119). -/
def startSending (p : Nat) (f : Sending) (s : State) : State :=
  s.setPort p { s.port p with sending := some f, lastControl := match f with
    | .packet .. => (s.port p).lastControl && s.dataWaits p
    | .dump _ => (s.port p).lastControl && s.dataWaits p
    | _ => true }

/-- A control frame may begin on a port now (R364). -/
def State.mayControl (s : State) (p : Nat) : Bool := s.mayStart p && !((s.port p).lastControl && s.dataWaits p)

/-- Begins a stream packet: its frame is built, and the group has begun it. -/
def startPacket (p n : Nat) (c : Committed) (s : State) : State :=
  let g := groupOf p
  let t := s.stream n
  let f := buildFrame (s.dest t.entry) (s.port p) g 0x88B5 n c.bytes
  let s := s.setStream n { t with queue := t.queue.map fun x =>
    if x.seq = c.seq ∧ x.order = c.order then (if g = 0 then { x with begunA := true } else { x with begunB := true }) else x }
  startSending p (.packet n c.seq (c.leftIn g) f) s

/-- Begins the stream or dump packet that was committed first. -/
def startData (p : Nat) (s : State) : State :=
  match firstCommitted (s.waitingOn p), (s.port p).dumps with
  | some b, [] => startPacket p b.2.1 b.2.2 s
  | some b, (o, d) :: ds =>
    if b.1 < o then startPacket p b.2.1 b.2.2 s else startSending p (.dump d) (s.setPort p { s.port p with dumps := ds })
  | none, (_, d) :: ds => startSending p (.dump d) (s.setPort p { s.port p with dumps := ds })
  | none, [] => s

/-- FRAME_TX_START: a control frame where one may go, else the stream or dump packet committed first. -/
def frameTxStart (p : Nat) (s : State) : State :=
  if !s.mayStart p then s
  else match (s.port p).control with
    | f :: rest =>
      if s.mayControl p then startSending p (.control f) (s.setPort p { s.port p with control := rest }) else startData p s
    | [] => startData p s

/-- The frame in progress has left: it is counted. -/
def countFrame (p n : Nat) (s : State) : State :=
  let x := s.port p
  s.setPort p { x with sending := none, frames := x.frames + 1, bytes := x.bytes + BitVec.ofNat 64 n }

def endFrame (p : Nat) (f : Bytes) (s : State) : State := (countFrame p f.length s).emit (.uplinkFrame p f false)

/-- One page of a packet has left a group's port (R329). -/
def pageLeft (n g seq : Nat) (s : State) : State :=
  changeQueue n (fun c => if c.seq = seq then
    (if g = 0 then { c with leftA := c.leftA - 1 } else { c with leftB := c.leftB - 1 }) else c) s

/-- FRAME_TX_END: the last byte of the frame's next page, or of the frame, has left. -/
def frameTxEnd (p : Nat) (s : State) : State :=
  match (s.port p).sending with
  | none => s
  | some (.packet n seq left f) =>
    let s := if left ≤ 1 then endFrame p f s else s.setPort p { s.port p with sending := some (.packet n seq (left - 1) f) }
    pageLeft n (groupOf p) seq s
  | some (.dump f) => endFrame p f s
  | some (.control f) => endFrame p f s
  | some (.message n) => countFrame p n s

/-- Bytes that a frame takes on the wire beside those given: FCS, preamble and gap. -/
def wireExtra : Nat := 24

/-- A control frame is queued on a port that is UP (R364); the firmware sends none in SAFE. -/
def queueControl (p : Nat) (f : Bytes) (s : State) : State :=
  let x := s.port p
  if x.state = .up ∧ s.chip.phase = .serving ∧ f.length + wireExtra ≤ 256 then
    s.setPort p { x with control := x.control ++ [f ++ le 4 (fcs f)] }
  else s

def controlFrameTx (p : Nat) (f : Bytes) (s : State) : State := if s.fwRuns then queueControl p f s else s

/-! ## PTP and ESMC messages (R109, R113, R364) -/

/-- Bytes of the frame around a message: Ethernet header, a tag where the port has a VLAN, the IP and UDP headers of the transport;
at least the 60 of IEEE 802.3, and the frame check sequence (PRESUMED, log entry 22). -/
def messageFrame (transport vlan n : Nat) : Nat :=
  max 60 (14 + (if vlan = 0 then 0 else 4) + (match transport with
    | 0 => 0
    | 1 => 28
    | _ => 48) + n) + 4

/-- A message of the firmware leaves a port: an uplink port sends it as a control frame, of at most 256 bytes on the wire, when one
may go. -/
def sendMessage (p : PtpPort) (length : Nat) (e : Emission) (s : State) : State :=
  match p with
  | .uplink n => startSending n.val (.message length) (s.emit e)
  | _ => s.emit e

/-- The message can leave the port now. -/
def State.maySend (s : State) (p : PtpPort) (length : Nat) : Bool := match p with
  | .uplink n => s.mayControl n.val && decide (length + 20 ≤ 256)
  | _ => true

/-- The octets as which a message leaves a port: a one-step Sync with its originTimestamp and, over UDP on IPv6, the two octets that
keep the checksum correct (R109). -/
def ptpOut (set msg : Bytes) (t : T16) : Bytes :=
  if getU msg 0 1 % 16 = 0 ∧ getU set 4 1 = 1 then
    sub msg 0 34 ++ ptpTimestamp t ++ msg.drop 44
      ++ (if getU set 3 1 = 2 then checksumFix (sub msg 34 10) (ptpTimestamp t) else [])
  else msg

/-- The egress stamp of a two-step Sync or a Delay_Req enters the port's FIFO (R109). -/
def enterStamp (p : PtpPort) (t : T16) (msg : Bytes) (s : State) : State :=
  let c := s.ptp (ptpKey p)
  if c.fifo.length < 16 then s.setPtp (ptpKey p) { c with fifo := c.fifo ++ [(t, BitVec.ofNat 16 (ofBe (sub msg 30 2)))] }
  else raise 2 0 (ptpUnit s p) (s.setPtp (ptpKey p) { c with stampsLost := c.stampsLost + 1 })

/-- PTP_MESSAGE_TX: a message of the firmware crosses the ball. Delay_Req messages are those of its PTP client, which runs in the roles
that discipline themselves towards the network (R131, R133). A one-step Sync over UDP on IPv4 has a UDP checksum of 0. -/
def ptpMessageTx (p : PtpPort) (crossing : T16) (msg : Bytes) (s : State) : State :=
  let set := (s.ptp (ptpKey p)).settings
  let t := adjusted s p 12 crossing
  let ty := getU msg 0 1 % 16
  let oneStep := ty == 0 && getU set 4 1 == 1
  let out := ptpOut set msg t
  let vlan := getU set 10 2 % 4096
  let n := messageFrame (getU set 3 1) vlan out.length
  if !(ptpOn s p && s.fwRuns && s.maySend p n) ∨ (ty = 1 ∧ !s.xfer.network) then s
  else
    let s := sendMessage p n (.ptp p (getU set 3 1) vlan (oneStep && getU set 3 1 == 1) out) s
    if (ty == 0 || ty == 1) && !oneStep then enterStamp p t msg s else s

/-- ESMC_MESSAGE: one that an uplink port has received, or one that it sends. -/
def esmcMessage (port : Fin 48) (received : Option Nat) (s : State) : State :=
  let set := (s.ptp port).settings
  if (s.port port).state ≠ .up ∨ s.chip.phase = .safe ∨ getU set 9 1 = 0 ∨ !s.fwRuns then s
  else match received with
    | some q =>
      let s := s.setXfer { s.xfer with esmcRx := tset 0 s.xfer.esmcRx port q }
      if bit (getU set 9 1) 0 then s.setXfer { s.xfer with qlSource := q, qlHeard := true } else s
    | none =>
      if !s.maySend (.uplink port) 64 then s
      else
        let (q, s) := announcedQl s
        sendMessage (.uplink port) 64 (.esmc port q) s

/-! ## Uplink opcodes (Table UPL-7) -/

/-- A stream of a group holds, or will hold, charges on its ports (R354). -/
def State.groupInUse (s : State) (g : Nat) : Bool :=
  (s.strm.streams.any fun p => p.2.inGroup g
      && (p.2.live || (p.2.state == .idle && (s.pipe p.1).state == .armed)))
    || (List.range 4).any fun d => match s.dump d with
      | some x => (if g = 0 then x.portA else x.portB).isSome
      | none => false

def quadLanesOk (s : State) (q : Nat) : Bool :=
  (List.range 4).all fun i =>
    let k := (s.lane (4 * q + i)).protocol
    k == 0 || k == 3 || k == 4 || k == 5

/-- Whether a quad carries protocol 5 (lane 0 tells, R140). -/
def State.quadWide (s : State) (q : Nat) : Bool := (s.lane (4 * q)).protocol == 5

/-- First lanes and protocols of the ports that quads form, in ascending first lane (R352). -/
def formedPorts (s : State) (quads : List Nat) : List (Nat × Nat) :=
  (below 40 fun q => quads.contains q).flatMap fun q =>
    if s.quadWide q then [(4 * q, 5)]
    else ((List.range 4).map fun i => (4 * q + i, (s.lane (4 * q + i)).protocol)).filter fun x => x.2 == 3 || x.2 == 4

/-- Checks of the quad list. -/
def quadChecks (r : Req) (s : State) : List Check :=
  let n := r.u8 1
  let other := if r.u8 0 = 0 then s.upl.quadsB else s.upl.quadsA
  (List.range 6).map fun i =>
    let q := r.u8 (4 + i)
    (if i < n then decide (q ≤ 39) && quadLanesOk s q && !other.contains q
        && !((List.range i).any fun j => r.u8 (4 + j) == q)
      else q == 0xFF, ansBadField (4 + i))

def opUplGroupConfig : Op :=
  { code := 0x0A01
    len := exactly 12
    fields := fun r s => [fieldLe 0 (r.u8 0) 1, fieldLe 1 (r.u8 1) 6] ++ reserved r 2 2 ++ quadChecks r s ++ reserved r 10 2
    state := fun r s =>
      [(!s.groupInUse (r.u8 0) && ((List.range 24).all fun p => !s.portReeq (24 * r.u8 0 + p)), ansState s)]
    effect := fun r s =>
      let g := r.u8 0
      let quads := (List.range (r.u8 1)).map fun i => r.u8 (4 + i)
      let ports := formedPorts s quads
      let t := forEach (List.range 24) (fun p u => (sendRemote (24 * g + p) false u).setPort (24 * g + p) {}) s
      let t := forEach ports.zipIdx (fun x u => u.setPort (24 * g + x.2)
        { state := .down, protocol := x.1.2, firstLane := x.1.1, changed := s.now, goodTick := s.tick }) t
      let t := { t with upl := if g = 0 then { t.upl with quadsA := quads } else { t.upl with quadsB := quads } }
      (tellGroup s g (holdRate t), ansDone (le 1 ports.length ++ zeros 3)) }

def portExists (s : State) (p : Nat) : Bool := decide ((s.port p).state ≠ .unconfigured)

def opUplPortAddr : Op :=
  { code := 0x0A02
    len := exactly 28
    fields := fun r _ => [fieldLe 0 (r.u8 0) 47, flagBits r 1 3, (!bit (r.u8 2) 0, ansBadField 2)]
    state := fun r s => [(portExists s (r.u8 0), ansState s)]
    effect := fun r s =>
      (s.setPort (r.u8 0) { s.port (r.u8 0) with
        addrFlags := BitVec.ofNat 8 (r.u8 1), mac := r.bytes 2 6, ipv4 := r.bytes 8 4, ipv6 := r.bytes 12 16 }, ansDone []) }

/-- Checks of an entry in use (Tables UPL-4 and UPL-5). -/
def destChecks (r : Req) : List Check :=
  let encap := r.u8 1
  let tags := r.u8 3
  let raw := encap == 1
  [fieldLe 3 tags 2, fieldIn 4 (r.u16 4) 1500 9000,
   (if raw then r.u8 7 == 0 else decide (1 ≤ r.u8 7), ansBadField 7),
   (!raw || r.u16 8 == 0, ansBadField 8), (!raw || r.u16 10 == 0, ansBadField 10),
   (if tags = 0 then r.u16 12 == 0 else r.u16 12 == 0x8100 || r.u16 12 == 0x88A8, ansBadField 12)]
  ++ (List.range 2).flatMap fun g =>
    let o := 0x10 + 32 * g
    [(decide (tags ≠ 0) || r.u16 (o + 6) == 0, ansBadField (o + 6)),
     (decide (tags = 2) || r.u16 (o + 8) == 0, ansBadField (o + 8)),
     (if raw then isZero r.payload (o + 16) 16 else if encap = 2 then isZero r.payload (o + 20) 12 else true,
       ansBadField (o + 16))]

/-- An entry is named by a stream that sends or is about to, or by a running dump (R356). -/
def State.entryInUse (s : State) (e : Nat) : Bool :=
  (s.strm.streams.any fun p => p.2.entry == e && (p.2.inA || p.2.inB)
      && (p.2.live || (p.2.state == .idle && (s.pipe p.1).state == .armed)))
    || (List.range 4).any fun d => match s.dump d with
      | some x => decide (x.dest ≠ 0) && x.entry == e
      | none => false

def opUplDestWrite : Op :=
  { code := 0x0A03
    len := exactly 80
    fields := fun r _ =>
      [fieldLe 1 (r.u8 1) 3, flagBits r 2 2, (decide (r.u8 1 ≠ 0) || !bit (r.u8 2) 0, ansBadField 2), flagBits r 6 6]
        ++ reserved r 14 2 ++ reserved r 0x1A 6 ++ reserved r 0x3A 6 ++ (if r.u8 1 = 0 then [] else destChecks r)
    state := fun r s => [(!s.entryInUse (r.u8 0), ansState s)]
    effect := fun r s =>
      let e := r.u8 0
      ({ s with upl := { s.upl with
          dests := tset [] s.upl.dests e (r.bytes 0 80)
          announce := if bit (r.u8 2) 0 then some e else if s.upl.announce = some e then none else s.upl.announce } },
        ansDone []) }

def opUplStreamMap : Op :=
  { code := 0x0A04
    len := exactly 8
    fields := fun r _ =>
      let port := fun o => ((decide (r.u8 o ≤ 23) || r.u8 o == 0xFF, ansBadField o) : Check)
      [fieldLe 0 (r.u16 0) 1023, flagBits r 2 2, port 4, port 5] ++ reserved r 6 2
    state := fun r s => [(s.streamIdle (r.u16 0), ansState s)]
    effect := fun r s =>
      (s.setStream (r.u16 0) { s.stream (r.u16 0) with
        inA := bit (r.u8 2) 0, inB := bit (r.u8 2) 1, entry := r.u8 3, portA := r.u8 4, portB := r.u8 5 }, ansDone []) }

/-- What R368 asks of a port's disabling, or LANE_REEQ of an uplink lane (R146): the other group carries every enabled
stream of this one, and none of its ports is away. -/
def State.otherCarries (s : State) (p : Nat) : Bool :=
  let g := groupOf p
  (s.strm.streams.all fun x => !(x.2.enabled && x.2.inGroup g) || x.2.inGroup (1 - g))
    && (List.range 24).all fun i =>
      let q := 24 * (1 - g) + i
      (s.port q).state != .down && (s.port q).state != .disabled && !s.portReeq q

/-- UPL_PORT_CONTROL, both forms. -/
def opUplPortControl : Op :=
  { code := 0x0A05
    len := exactly 4
    fields := fun r _ => [fieldLe 0 (r.u8 0) 47, fieldLe 1 (r.u8 1) 1, flagBits r 2 1] ++ reserved r 3 1
    state := fun r s =>
      [(portExists s (r.u8 0), ansState s),
       (r.u8 1 == 0 || bit (r.u8 2) 0 || s.otherCarries (r.u8 0), ansState s)]
    effect := fun r s =>
      let p := r.u8 0
      let x := s.port p
      if r.u8 1 = 0 then
        (if x.state = .disabled then s.setPort p { x with state := .down, changed := s.now, goodTick := s.tick } else s, ansDone [])
      else if x.state = .up then (portLeave p 3 .disabled s, ansDone [])
      else if x.state = .down then
        (sendRemote p false (s.setPort p { x with state := .disabled, changed := s.now }), ansDone [])
      else (s, ansDone []) }

/-- UPL_PORT_STATUS response (Table UPL-9). -/
def portStatusPayload (s : State) (p : Nat) : Bytes :=
  let x := s.port p
  if x.state = .unconfigured then le 1 p ++ zeros 71
  else
    le 1 p ++ le 1 (portCode x.state) ++ le 1 x.protocol
      ++ le 1 (mask [x.localFault, x.remoteFault, s.portReeq p, s.syncTx p]) ++ le 2 x.firstLane
      ++ le 2 (s.placedOn p).length ++ le 8 (s.used (5 + groupOf p) (p % 24)) ++ le 8 x.frames.toNat ++ le 8 x.bytes.toNat
      ++ le 4 x.aborted.toNat ++ le 4 x.downs.toNat ++ le 4 x.pause.toNat ++ le 4 x.fcs.toNat ++ le 4 x.other.toNat
      ++ zeros 4 ++ ts96 x.changed ++ zeros 4

def opUplPortStatus : Op :=
  { code := 0x0A06
    len := exactly 4
    reads := fun _ _ => true
    fields := fun r _ => [fieldLe 0 (r.u8 0) 47, flagBits r 1 1] ++ reserved r 2 2
    effect := fun r s =>
      let p := r.u8 0
      (if bit (r.u8 1) 0 then
        s.setPort p { s.port p with frames := 0, bytes := 0, aborted := 0, downs := 0, pause := 0, fcs := 0, other := 0 }
      else s, ansDone (portStatusPayload s p)) }

/-! ## STREAM_FLUSH (R345, R347) -/

/-- The frames of a stream that ports are sending. -/
def State.sendingOf (s : State) (n : Nat) : List Nat :=
  (s.upl.ports.filter fun p => match p.2.sending with
    | some (.packet m _ _ _) => m == n
    | _ => false).map (·.1)

/-- STREAM_FLUSH, both forms. -/
def opStreamFlush : Op :=
  { code := 0x0903
    len := exactly 4
    fields := fun r _ => flushFields r
    state := flushStates
    effect := fun r s =>
      let n := r.u16 0
      if bit (r.u8 2) 0 then (flushNow n (forEach (s.sendingOf n) abortFrame s), ansDone [])
      else (closePacket n s, ansDone []) }

end Sys2Proof.Machine
end

