-- ==== Sys2Proof/Machine/Windows.lean ====
section
/-! DEFINITION. Capture windows (10_capture): frames, arming, trigger conditions, the judging of hits, freezing, and
the record image. -/

namespace Sys2Proof.Machine

/-! ## Frames (R270, R271, R278, R283) -/

/-- Capacity of a window in frames (R271). -/
def Window.cap (w : Window) : Nat := 65536 * w.pages / w.frameBytes

/-- F(n), in 2^-16 ns. -/
def Window.frameTime (w : Window) (n : Int) : Rat := (w.epoch * unitsPerSec : Nat) + (n : Rat) * unitsPerSec / (w.fw : Rat)

/-- The first frame whose frame time is at or after a time. -/
def Window.frameAt (w : Window) (t : Rat) : Int :=
  ceilR ((t - ((w.epoch * unitsPerSec : Nat) : Rat)) * (w.fw : Rat) / (unitsPerSec : Rat))

/-- n_o. Before the first frame is written it is the first frame that may be (log entry 24). -/
def Window.oldest (w : Window) : Int := match w.nArm with
  | none => w.frameAt (w.armAt : Rat)
  | some a => max a (w.nNew - w.cap + 1)

/-- n_w. -/
def Window.newest (w : Window) : Int := match w.nArm with
  | none => w.oldest - 1
  | some _ => w.nNew

/-- The states in which the controller writes frames (R272). -/
def Window.writes (w : Window) : Bool := w.state == .arming || w.state == .armed || w.state == .filling

/-- The states in which conditions are evaluated (R273). -/
def Window.evaluates (w : Window) : Bool := w.writes || w.state == .frozen || w.state == .dumping

def Window.frozenOrDumping (w : Window) : Bool := w.state == .frozen || w.state == .dumping

def winCode : WinState → Nat
  | .unconfigured => 0
  | .idle => 1
  | .arming => 2
  | .armed => 3
  | .filling => 4
  | .frozen => 5
  | .dumping => 6

/-! ## Records (R293, R294) -/

/-- The last frame of the record. -/
def Window.last (w : Window) : Int :=
  if w.frozenOrDumping then w.frozenLast else min (w.nTrig + w.post - 1) w.newest

/-- Frames of the record: of a record being filled, those written (log entry 34). -/
def Window.frames (w : Window) : Nat :=
  if w.frozenOrDumping || w.state == .filling then (w.last - w.first + 1).toNat else 0

def Window.dataOffset (w : Window) : Nat := 0x100 + 32 * w.members.length + 2048

def Window.length (w : Window) : Nat := w.dataOffset + w.frames * w.frameBytes

/-- An event as the record shows it: kind, member, count, ordinal, value; a run is clipped to the record. -/
def clipEvent (first last : Int) (e : CapEvent) : Option (Nat × Nat × Nat × Int × Int) :=
  if e.kind = 1 ∨ e.kind = 2 ∨ e.kind = 6 then
    let lo := max e.index first
    let hi := min (e.index + e.count - 1) last
    if lo ≤ hi then some (e.kind, e.member, (hi - lo + 1).toNat, lo - first, e.value) else none
  else if first ≤ e.index ∧ e.index ≤ last then some (e.kind, e.member, e.count, e.index - first, e.value)
  else none

/-- By ordinal and then by kind; equal ones in the order of their entry. -/
def placeEvent (x : Nat × Nat × Nat × Int × Int) : List (Nat × Nat × Nat × Int × Int) → List (Nat × Nat × Nat × Int × Int)
  | [] => [x]
  | y :: ys =>
    if y.2.2.2.1 < x.2.2.2.1 ∨ (y.2.2.2.1 = x.2.2.2.1 ∧ y.1 < x.1) then y :: placeEvent x ys else x :: y :: ys

def Window.recorded (w : Window) : List (Nat × Nat × Nat × Int × Int) :=
  if w.frames = 0 then [] else (w.events.filterMap (clipEvent w.first w.last)).foldr placeEvent []

def Window.headerFlags (w : Window) : Nat :=
  let es := w.recorded
  let has := fun k => es.any fun e => e.1 == k
  w.recFlags.toNat + mask [has 1, has 2, has 3, has 4, has 6, decide (64 < es.length)] * 16

/-- The record header (Table CAP-7), its state field as given. -/
def sketchHeader (s : State) (n code : Nat) : Bytes :=
  let w := s.win n
  let noTrig := w.recFlags.getLsbD 3 || w.state == .arming || w.state == .armed || w.state == .idle
  let h := le 2 0x4B53 ++ le 1 1 ++ le 1 n ++ le 2 s.chip.hubId.toNat ++ le 1 w.source ++ le 1 code ++ le 4 w.sketch.toNat
    ++ le 2 w.headerFlags ++ le 1 w.cause ++ le 1 w.firstCause ++ le 1 w.causeMask.toNat ++ le 1 w.compMask.toNat
    ++ le 1 w.format ++ le 1 (qCode w.quality0 + 4 * qCode w.quality1) ++ le 2 w.members.length ++ le 2 w.frameBytes
    ++ le 4 w.fw ++ le 4 w.pre ++ le 4 w.post ++ le 4 (if noTrig then 0 else (w.nTrig - w.first).toNat)
    ++ le 8 w.epoch ++ leI 8 (if noTrig then 0 else w.nTrig) ++ leI 8 w.first ++ le 8 w.frames
    ++ ts96 w.tTrig ++ ts96 w.tArm ++ ts96 w.tDecide ++ ts96 w.tFreeze ++ le 4 w.dataOffset
    ++ le 4 (min 64 w.recorded.length) ++ le 8 w.length ++ le 4 w.missedFill.toNat ++ le 4 w.uncorr.toNat ++ le 4 w.h
    ++ le 4 w.cap ++ zeros 100
  h ++ le 4 (crc32c h)

/-- The note of the record's first frame. -/
def Window.note0 (w : Window) (m : Nat) : Option MemberNote :=
  match w.notes.find? fun f => f.index == w.first with
  | some f => f.members.find? fun x => x.member == m
  | none => none

/-- A member entry (Table CAP-8). -/
def memberEntry (w : Window) (m : Nat) : Bytes :=
  let es := w.recorded
  let has := fun k => es.any fun e => e.1 == k && e.2.1 == m
  let x := (w.note0 m).getD { member := m, channel := 0, cal := 0, gamma := 0, model := 0, epoch := 0, nominal := false }
  le 2 m ++ le 2 x.channel ++ le 4 x.cal ++ leI 8 x.gamma ++ leI 4 x.model ++ le 1 x.epoch.toNat
    ++ le 1 (mask [x.nominal, has 1, has 2]) ++ zeros 10

/-- An event entry (Table CAP-9). -/
def eventEntry (e : Nat × Nat × Nat × Int × Int) : Bytes :=
  le 1 e.1 ++ zeros 1 ++ le 2 e.2.1 ++ le 4 e.2.2.1 ++ leI 8 e.2.2.2.1 ++ leI 8 e.2.2.2.2 ++ zeros 8

/-- The record image before its frames. -/
def recordMeta (s : State) (n : Nat) : Bytes :=
  let w := s.win n
  let es := w.recorded.take 64
  sketchHeader s n (winCode w.state) ++ w.members.flatMap (memberEntry w) ++ es.flatMap eventEntry
    ++ zeros (32 * (64 - es.length))

/-- The capture-memory address of frame i. -/
def Window.address (w : Window) (i : Int) : Nat :=
  65536 * w.firstPage + ((i - w.capFrom) % (max 1 w.cap : Nat)).toNat * w.frameBytes

/-- The record offset of a byte of capture memory, where a frame of the record holds it. -/
def Window.recordOffset (w : Window) (x : Nat) : Option Nat :=
  let k := x - 65536 * w.firstPage
  let j := ((((k / w.frameBytes : Nat) : Int) - (w.first - w.capFrom)) % (max 1 w.cap : Nat)).toNat
  if x < 65536 * w.firstPage ∨ w.cap ≤ k / w.frameBytes ∨ w.frames ≤ j then none
  else some (w.dataOffset + j * w.frameBytes + k % w.frameBytes)

/-- The entry of an uncorrectable capture-memory line that holds bytes of a window's record (Table FLT-5). -/
def captureLine (s : State) (n a : Nat) : UncorrLine :=
  let os := (List.range 512).filterMap fun i => (s.win n).recordOffset (a + i)
  ⟨0, 1, BitVec.ofNat 32 a, BitVec.ofNat 32 (n * 2 ^ 28 + (s.win n).sketch.toNat % 2 ^ 28),
    BitVec.ofNat 64 (os.headD 0 + 2 ^ 32 * os.length)⟩

/-- A read of `len` bytes of a record image from an offset meets the upset lines that hold them (R21, R22): how many are
uncorrectable, and the state after. -/
def meetRecord (n off len : Nat) (s : State) : Nat × State :=
  let w := s.win n
  (s.upsetLines 0 (65536 * w.firstPage) (65536 * w.pages)).foldl (fun acc a =>
    if (List.range 512).any fun i => match w.recordOffset (a + i) with
        | some o => decide (off ≤ o) && decide (o < off + len)
        | none => false then
      (acc.1 + b2n (readUpset (acc.2.upset 0 a) 0 == .uncorrectable), meetLine 0 a (captureLine s n a) acc.2)
    else acc) (0, s)

/-- `len` bytes of a record image from an offset, as the codes deliver them (R22). -/
def recordRange (s : State) (n off len : Nat) : Bytes :=
  let w := s.win n
  let m := recordMeta s n
  (List.range len).map fun i =>
    let o := off + i
    if o < w.dataOffset then m.getD o 0
    else
      let k := o - w.dataOffset
      let a := w.address (w.first + (k / w.frameBytes : Nat)) + k % w.frameBytes
      s.delivered 0 a (memGet s.cap.memory a)

/-! ## Notices -/

/-- SKETCH_EVENT (Table CAP-11), with the header where the event carries it. -/
def sketchEvent (n event : Nat) (head : Bytes) (s : State) : State :=
  notify 0x0780 (le 1 n ++ le 1 event ++ zeros 2 ++ le 4 (s.win n).sketch.toNat ++ ts96 s.now ++ zeros 4
    ++ padTo 128 (head.take 128)) s

/-- A missed hit is logged (R288). -/
def miss (n reason : Nat) (h : Hit) (s : State) : State :=
  let w := s.win n
  let e : Missed := { time := (rheR h.time).toNat, cond := h.cond, reason := reason, sketch := w.sketch }
  let s := s.setWin n { w with
    missedTotal := w.missedTotal + 1, missedFill := if w.state = .filling then w.missedFill + 1 else w.missedFill
    missedLog := (w.missedLog ++ [e]).drop (w.missedLog.length + 1 - 256), missTold := true }
  if w.missTold then s
  else notify 0x0781 (le 1 n ++ zeros 3 ++ ts96 e.time ++ le 1 e.cond ++ le 1 reason ++ zeros 2 ++ le 4 w.sketch.toNat
    ++ zeros 4) s

/-! ## State changes (Table CAP-4) -/

/-- The window leaves its sketch for IDLE: CAP_STATUS goes on telling of it until the next arming. -/
def Window.toIdle (w : Window) : Window :=
  { w with state := .idle, feeds := [], events := [], notes := [], delayDisarm := none, cycle := [], cycleFail := false }

/-- What Table CAP-8 shows of a member whose first frame the record does not hold: its present binding and profile. -/
def State.presentNote (s : State) (source m : Nat) : MemberNote :=
  if source = 1 then
    { member := m, channel := m, cal := (s.chan m).cal, gamma := 0, model := 0, epoch := 0, nominal := false }
  else
    let p := s.pipe m
    { member := m, channel := p.channel, cal := (s.chan p.channel).cal, gamma := (s.profA m).gamma (s.chan p.channel).fs
      model := 0, epoch := p.epoch, nominal := (s.profA m).nominal }

/-- Freezes the sketch at once (R293). -/
def freeze (n cause : Nat) (flags : Nat) (s : State) : State :=
  let w := s.win n
  let open_ := w.state == .arming || w.state == .armed
  let first := if open_ then w.oldest else w.first
  let note := (w.notes.filter fun f => f.index == first).headD
    { index := first, members := w.members.map (s.presentNote w.source) }
  let w' := { w with
    state := .frozen, cause := cause, first := first, frozenLast := if open_ then w.newest else min (w.nTrig + w.post - 1) w.newest
    recFlags := w.recFlags ||| BitVec.ofNat 16 (if open_ then 8 else flags), tFreeze := s.now, quality1 := s.time.quality
    feeds := [], delayDisarm := none, notes := [note] }
  let s := s.setWin n w'
  sketchEvent n 2 (sketchHeader s n 5) s

/-- Headroom h of a window (R284). -/
def State.headroom (s : State) (n : Nat) : Nat :=
  let w := s.win n
  let term := fun (c : Cond) =>
    if c.kind = 1 ∧ (s.pipe c.pipe).state ≠ .free then
      let gs := (s.profA c.pipe).stages
      let fin := s.fin c.pipe
      let g := (s.profA c.pipe).gammaNs fin
      let g := if (s.pipe c.pipe).bank = .empty then g else max g ((s.profB c.pipe).gammaNs fin)
      g + (firstD gs : Rat) * 1000000000 / (fin : Rat) + 40 + 8 * (gs.length : Rat)
    else 0
  let lam := w.conds.foldl (fun m c => max m (term c.2)) 0
  (ceilR ((w.fw : Rat) * (lam + 64) / 1000000000)).toNat + 1

/-- Arms an IDLE window from an arm time: a new sketch begins (R285). -/
def armWindow (n : Nat) (at_ : T16) (s : State) : State :=
  let w := s.win n
  s.setWin n { w with
    state := .arming, sketch := w.sketch + 1, h := s.headroom n, armAt := at_, nArm := none, nNew := 0, nTrig := 0
    first := 0, frozenLast := 0, writeNext := 0, capFrom := 0, quality0 := .unset, quality1 := .unset, cause := 0
    firstCause := 0xFF, causeMask := 0, compMask := 0, recFlags := if s.chip.testMode then 0x800 else 0, tTrig := 0
    tArm := 0, tDecide := 0, tFreeze := 0, missedFill := 0, uncorr := 0, events := [], notes := [], feeds := []
    cycle := [], cycleFail := false, decided := none
    conds := w.conds.map fun c => (c.1, { c.2 with recent := [], held := false, lastHit := none }) }

/-! ## Writing frames (R272) -/

/-- The window stands still for a block reset of the pipe engine, of the capture controller, or of an aligner unit that
feeds a member (Table CAP-6). -/
def State.windowHalted (s : State) (n : Nat) : Bool :=
  let w := s.win n
  s.inReset 6 0 || s.inReset 8 0 || w.members.any fun m =>
    let c := s.chan (if w.source = 1 then m else (s.pipe m).channel)
    s.inReset 5 (64 * (linkKind c.kind - 1) + c.source)

/-- A member delivers a sample to the windows that hold it. -/
def feedWindows (source member : Nat) (f : Feed) (s : State) : State :=
  forEach (s.cap.windows.map (·.1)) (fun n t =>
    let w := t.win n
    if w.source = source ∧ w.writes ∧ w.members.contains member ∧ !t.windowHalted n
        ∧ (if w.nArm.isSome then w.writeNext ≤ f.index else w.oldest ≤ f.index) then
      t.setWin n { w with feeds := w.feeds ++ [f] }
    else t) s

/-- The samples of a frame in ascending member, once every member has delivered it. -/
def Window.frameRow (w : Window) (i : Int) : Option (List Feed) :=
  w.members.mapM fun m => w.feeds.find? fun f => f.note.member == m && f.index == i

/-- The frame to write next: the one after the newest, or the first that every member has delivered (R272). -/
def Window.nextFrame (w : Window) : Int :=
  if w.nArm.isSome then w.writeNext
  else
    let is := (w.feeds.map (·.index)).filter fun i => decide (w.oldest ≤ i) && (w.frameRow i).isSome
    is.foldl min (is.headD w.oldest)

/-- Enters one frame's mark of a member: a run grows or begins. -/
def extendRun (kind member : Nat) (i : Int) : List CapEvent → List CapEvent
  | [] => [⟨kind, member, 1, i, 0⟩]
  | e :: es =>
    if e.kind = kind ∧ e.member = member ∧ e.index + e.count = i then { e with count := e.count + 1 } :: es
    else e :: extendRun kind member i es

/-- The events that a frame brings: runs of marked samples (Table CAP-9). -/
def frameEvents (w : Window) (i : Int) (row : List Feed) : List CapEvent :=
  row.foldl (fun es f => if f.marked then extendRun (if w.source = 1 then 1 else 2) f.note.member i es else es) w.events

/-- The capture-memory lines of some bytes. -/
def capLines (a len : Nat) : List Nat := (List.range (len / 512 + 2)).map fun i => (a / 512 + i) * 512

/-- A write of `len` bytes: what it covers holds what is written, without flipped bits, and the check bits and check symbols
of its words and lines are new. -/
def clearUpsets (a len : Nat) (s : State) : State :=
  if s.flt.upsets.isEmpty then s
  else
    let keep := fun (l i : Nat) => decide (l + i < a) || decide (a + len ≤ l + i)
    forEach (capLines a len) (fun l t =>
      let u := t.upset 0 l
      t.setUpset 0 l { u with data := u.data.filter fun x => keep l x.1, inner := u.inner.filter fun x => keep l (8 * x.1)
                              outer := if a + len ≤ l ∨ l + 512 ≤ a then u.outer else [] }) s

/-- Writes frame i. -/
def writeFrame (n : Nat) (i : Int) (row : List Feed) (s : State) : State :=
  let w := s.win n
  let w1 : Window := if w.nArm.isSome then w else
    { w with nArm := some i, capFrom := i, tArm := (rheR (w.frameTime i)).toNat
             first := if w.state = .filling then max w.first i else w.first }
  let data := packSamples w.format (row.map (·.value))
  let s := clearUpsets (w1.address i) data.length s
  let s := { s with cap := { s.cap with memory := memWrite s.cap.memory (w1.address i) data } }
  let w2 : Window := { w1 with
    nNew := i, writeNext := i + 1, feeds := w.feeds.filter fun f => i < f.index
    events := (frameEvents w i row).filter fun e => i < e.index + e.count + w.cap
    notes := ({ index := i, members := row.map (·.note) } :: w.notes).take w.cap }
  let s := s.setWin n w2
  if w2.state = .arming ∧ ((w2.pre + w2.h : Nat) : Int) ≤ i - w2.nArm.getD i + 1 then
    sketchEvent n 0 [] (s.setWin n { w2 with state := .armed })
  else if w2.state = WinState.filling ∧ w2.nTrig + (w2.post : Int) - 1 ≤ i then freeze n 0 0 s
  else s

/-- CAPTURE_FRAME_WRITE: every member has delivered its sample of the next frame. -/
def captureFrameWrite (n : Nat) (s : State) : State :=
  let w := s.win n
  if !w.writes || w.members.isEmpty || s.inReset 8 0 then s
  else match w.frameRow w.nextFrame with
    | some row => writeFrame n w.nextFrame row s
    | none => s

/-- An event that a member's setting causes from some frame on (Table CAP-9). -/
def memberEvent (source member : Nat) (kind count : Nat) (index value : Int) (s : State) : State :=
  forEach (s.cap.windows.map (·.1)) (fun n t =>
    let w := t.win n
    if w.source = source ∧ w.writes ∧ w.members.contains member then
      t.setWin n { w with events := w.events ++ [⟨kind, member, count, index, value⟩] }
    else t) s

/-! ## Network trigger messages (R281, R282) -/

/-- A network trigger message (Table CAP-3). -/
def triggerMessage (s : State) (n : Nat) (seq : W32) : Bytes :=
  let w := s.win n
  let m := le 2 0x5443 ++ le 1 1 ++ zeros 1 ++ le 2 0xFFFF ++ le 2 s.chip.hubId.toNat ++ le 4 seq.toNat
    ++ le 1 w.announceId ++ le 1 n ++ le 1 w.firstCause ++ le 1 (qCode s.time.quality) ++ ts96 w.tTrig ++ zeros 16
  m ++ le 4 (crc32c m)

/-- The lowest port of a group that is UP. -/
def State.upPort (s : State) (g : Nat) : Option Nat :=
  ((List.range 24).map (24 * g + ·)).find? fun p => (s.port p).state == .up

/-- Announces a window's freeze on every group that has a port up (R282, log entry 25). -/
def announce (n : Nat) (s : State) : State :=
  match s.upl.announce with
  | none => s
  | some e =>
    if !s.fwRuns ∨ ((s.upPort 0).isNone ∧ (s.upPort 1).isNone) then s
    else
      let m := triggerMessage s n s.cap.announceSeq
      let send := fun g (t : State) => match t.upPort g with
        | some p =>
          let f := buildFrame (t.dest e) (t.port p) g 0x88B5 0 m
          queueControl p (f.take (f.length - 4)) t
        | none => t
      let s := send 1 (send 0 s)
      { s with cap := { s.cap with announceSeq := s.cap.announceSeq + 1 } }

/-! ## Hits (R273-R280, R286) -/

/-- The freeze pulse of every trigger output whose mask names the window (R296). -/
def freezePulses (n : Nat) (s : State) : State :=
  forEach (List.range 8) (fun o t =>
    let x := t.trigOut o
    if x.mode = 1 ∧ x.windows.getLsbD n ∧ t.chip.phase = .serving then
      (t.setTrigOut o { x with pulseEnd := t.tick + x.width }).emit (.trigPulse o t.now x.width)
    else t) s

/-- The earliest trigger frame of some hits. -/
def earliest (w : Window) : List Hit → Int
  | [] => 0
  | [h] => w.frameAt h.time
  | h :: hs => min (w.frameAt h.time) (earliest w hs)

/-- The hit of the lowest condition. -/
def lowest : List Hit → Option Hit
  | [] => none
  | h :: hs => match lowest hs with
    | none => some h
    | some x => if h.cond ≤ x.cond then some h else some x

/-- A hit that Table CAP-5 accepts: FILLING, with the record's first frame and flag. -/
def fill (n : Nat) (nt first : Int) (flag : Nat) (hs : List Hit) (s : State) : State :=
  match lowest hs with
  | none => s
  | some h =>
    let w := s.win n
    let s := s.setWin n { w with
      state := .filling, nTrig := nt, first := first, recFlags := w.recFlags ||| BitVec.ofNat 16 flag
      firstCause := h.cond, causeMask := hs.foldl (fun m x => m ||| BitVec.ofNat 8 (2 ^ x.cond)) 0, compMask := h.comps
      tTrig := (rheR h.time).toNat, tDecide := s.now, decided := some s.tick, quality0 := s.time.quality }
    let s := freezePulses n s
    let s := sketchEvent n 1 (sketchHeader s n 4) s
    let s := if w.flags.getLsbD 2 && decide ((tget {} w.conds h.cond).kind ≠ 3) then announce n s else s
    if nt + w.post - 1 ≤ (s.win n).newest then freeze n 0 0 s else s

/-- Hits at the trigger frame of a decision of the same cycle enter its cause mask (R280). -/
def joinCause (n : Nat) (hits : List Hit) (s : State) : State :=
  let w := s.win n
  s.setWin n { w with
    causeMask := hits.foldl (fun m x => m ||| BitVec.ofNat 8 (2 ^ x.cond)) w.causeMask
    firstCause := hits.foldl (fun m x => min m x.cond) w.firstCause }

/-- Judges the hits of a window that are decided together (R280, R286). -/
def judge (n : Nat) (hits : List Hit) (s : State) : State :=
  let w := s.win n
  if hits.isEmpty ∨ !w.evaluates then s
  else if w.cycleFail then forEach hits (miss n 3) s
  else if w.decided = some s.tick ∧ (w.state = .filling ∨ w.frozenOrDumping) then
    let here := fun (h : Hit) => w.frameAt h.time == w.nTrig
    forEach (hits.filter fun h => !here h) (miss n 3) (joinCause n (hits.filter here) s)
  else if w.state = .filling then forEach hits (miss n 1) s
  else if w.frozenOrDumping then forEach hits (miss n 2) s
  else
    let nt := earliest w hits
    let here := hits.filter fun h => w.frameAt h.time == nt
    let s := forEach (hits.filter fun h => w.frameAt h.time != nt) (miss n 3) s
    let no := w.oldest
    if nt < no then forEach here (miss n 4) s
    else if no ≤ nt - w.pre then fill n nt (nt - w.pre) 0 here s
    else if w.state = .armed then fill n nt no 2 here s
    else if w.flags.getLsbD 0 then fill n nt no 1 here s
    else forEach here (miss n 0) s

/-- The kinds that a combination may name (R277). -/
def componentKind (k : Nat) : Bool := k == 1 || k == 2 || k == 4

/-- The components of a combination that lie within its span before the latest hit that satisfies it (R277): their
times and numbers. -/
def combine (w : Window) (c : Cond) : Option (List (Nat × Rat)) :=
  let hs := (below 8 fun i => c.compMask.getLsbD i && componentKind (tget {} w.conds i).kind).filterMap fun i =>
    (tget {} w.conds i).lastHit.map fun t => (i, t)
  let span : Rat := (c.span * 65536 : Nat)
  let set := fun (t : Rat) => hs.filter fun h => decide (t - span ≤ h.2) && decide (h.2 ≤ t)
  let good := hs.filter fun h => decide (c.compK ≤ (set h.2).length)
  match good with
  | [] => none
  | g :: gs => some (set (gs.foldl (fun t h => max t h.2) g.2))

def minTime : List (Nat × Rat) → Rat
  | [] => 0
  | [h] => h.2
  | h :: hs => min h.2 (minTime hs)

/-- A new hit of a component: it is kept, and each combination that names it may hit, consuming its set. -/
def componentHit (w : Window) (h : Hit) : Window × List Hit :=
  let w := { w with conds := tset {} w.conds h.cond { tget {} w.conds h.cond with lastHit := some h.time } }
  (List.range 8).foldl (fun (acc : Window × List Hit) k =>
    let c := tget {} acc.1.conds k
    if c.kind = 5 ∧ c.compMask.getLsbD h.cond ∧ componentKind (tget {} acc.1.conds h.cond).kind then
      match combine acc.1 c with
      | some set =>
        let w := { acc.1 with conds := set.foldl (fun t x => tset {} t x.1 { tget {} t x.1 with lastHit := none }) acc.1.conds }
        (w, if c.flags.getLsbD 0 then
          acc.2 ++ [{ cond := k, time := minTime set, comps := set.foldl (fun m x => m ||| BitVec.ofNat 8 (2 ^ x.1)) 0 }]
          else acc.2)
      | none => acc
    else acc) (w, [])

/-- Hits of a window's own conditions, with the combinations they complete, join those of the present DSP cycle. -/
def takeHits (n : Nat) (hits : List Hit) (s : State) : State :=
  if hits.isEmpty ∨ !(s.win n).evaluates ∨ s.inReset 7 0 then s
  else
    let x := hits.foldl (fun (acc : Window × List Hit) h =>
      let r := componentHit acc.1 h
      (r.1, (if (tget {} acc.1.conds h.cond).flags.getLsbD 0 then acc.2 ++ [h] else acc.2) ++ r.2)) (s.win n, [])
    s.setWin n { x.1 with cycle := x.1.cycle ++ x.2 }

/-- The decision of a window on the hits of the present DSP cycle (R279, R280). -/
def decideWindow (n : Nat) (s : State) : State :=
  let w := s.win n
  let t := judge n w.cycle (s.setWin n { w with cycle := [] })
  t.setWin n { t.win n with cycleFail := false }

/-- Some window has hits that wait for its decision. -/
def State.hitsWait (s : State) : Bool := s.cap.windows.any fun w => !w.2.cycle.isEmpty || w.2.cycleFail

/-- The end of a DSP cycle: every window decides. -/
def decideAll (s : State) : State := forEach (s.cap.windows.map (·.1)) decideWindow s

/-! ## What meets a window (Tables CAP-4 and CAP-6) -/

/-- A CAP_DISARM acts. -/
def disarmWindow (n : Nat) (abort : Bool) (s : State) : State :=
  let s := decideWindow n s
  let w := s.win n
  if w.state = .arming ∨ w.state = .armed then sketchEvent n 4 [] (s.setWin n w.toIdle)
  else if w.state = .filling ∧ abort then freeze n 1 4 s
  else s

/-- A member stops (R290). -/
def memberStopped (source member : Nat) (s : State) : State :=
  forEach (s.cap.windows.map (·.1)) (fun n t =>
    let t := decideWindow n t
    let w := t.win n
    if w.source = source ∧ w.writes ∧ w.nArm.isSome ∧ w.members.contains member then
      let t := raise 8 1 n t
      if w.state = .filling then freeze n 2 4 t
      else sketchEvent n 5 (sketchHeader t n 1) (t.setWin n w.toIdle)
    else t) s

/-- The sketch is released: IDLE, or ARMING again with AUTO_REARM where the write slots admit it (log entry 31). -/
def releaseSketch (n : Nat) (s : State) : State :=
  let s := decideWindow n s
  let s := sketchEvent n 3 (sketchHeader s n 7) s
  let s := s.setWin n (s.win n).toIdle
  let w := s.win n
  let t := armWindow n (s.now + us10) s
  if w.flags.getLsbD 1 && decide (s.chip.phase = .serving) && decide (w.pre + w.post + s.headroom n ≤ w.cap)
      && decide (t.used 7 0 ≤ t.capacity 7 0) then notePeaks t else s

/-- A whole-second step of `sec` seconds shifts a window's indices (R291); `i` is the first frame sampled after it. -/
def stepWindow (sec : Int) (n : Nat) (s : State) : State :=
  let s := decideWindow n s
  let w := s.win n
  if !w.writes then s
  else
    let d := sec * (w.fw : Int)
    let i := w.frameAt (s.now : Rat)
    s.setWin n { w with
      nArm := w.nArm.map (· + d), nNew := w.nNew + d
      nTrig := if w.state = .filling then w.nTrig + d else w.nTrig, first := w.first + d, writeNext := w.writeNext + d
      capFrom := w.capFrom + d, armAt := ((w.armAt : Int) + sec * unitsPerSec).toNat
      tArm := if w.nArm.isSome then ((w.tArm : Int) + sec * unitsPerSec).toNat else w.tArm
      tTrig := if w.state = .filling then ((w.tTrig : Int) + sec * unitsPerSec).toNat else w.tTrig
      feeds := w.feeds.map fun f => { f with index := f.index + d }
      notes := w.notes.map fun f => { f with index := f.index + d }
      events := (w.events.map fun e => { e with index := e.index + d }) ++ [⟨4, 0xFFFF, 0, i, sec⟩] }

/-! ## LEVEL, EDGE and NETWORK conditions -/

/-- AMPLITUDE and POWER of an output (R274). -/
def metricOf (power complex : Bool) (y : Smp) : Nat :=
  if power then y.1.natAbs ^ 2 + (if complex then y.2.natAbs ^ 2 else 0)
  else if complex then max y.1.natAbs y.2.natAbs else y.1.natAbs

/-- A LEVEL condition takes one output: its state after, and whether it hits. A sum beyond 64 bits is a free value
(log entry 32). -/
def Cond.take (c : Cond) (metric : Nat) (unsettled : Bool) (draw : Nat) : Cond × Bool :=
  let recent := ((metric, unsettled) :: c.recent).take c.length
  let total := recent.foldl (fun a x => a + x.1) 0
  let a := if total < 2 ^ 64 then total else (Config.freeWord draw).toNat
  let made := decide (recent.length = c.length) && !(c.flags.getLsbD 2 && recent.any fun x => x.2)
  let holds := made && (if c.flags.getLsbD 1 then decide (a < c.threshold) else decide (c.threshold < a))
  ({ c with recent := recent, held := holds }, holds && !c.held)

/-- The LEVEL conditions of a window take one output of a pipe. -/
def levelWindow (pipe n : Nat) (y : Smp) (complex unsettled : Bool) (grid : Rat) (s : State) : State :=
  let w := s.win n
  if !w.evaluates ∨ s.inReset 7 0 ∨ (s.pipe pipe).state ≠ .running then s
  else
    let d := s.freeCount
    let s := if w.conds.any (fun c => c.2.kind == 1 && c.2.pipe == pipe) then { s with freeCount := d + 8 } else s
    let x := (List.range 8).foldl (fun (acc : Window × List Hit) k =>
      let c := tget {} acc.1.conds k
      if c.kind = 1 ∧ c.pipe = pipe then
        let r := c.take (metricOf (c.metric == 1) complex y) unsettled (d + k)
        ({ acc.1 with conds := tset {} acc.1.conds k r.1 }, if r.2 then acc.2 ++ [{ cond := k, time := grid }] else acc.2)
      else acc) (w, [])
    takeHits n x.2 (s.setWin n x.1)

/-- An edge is stamped on a trigger input (R275). -/
def edgeHits (input : Nat) (stamp : T16) (s : State) : State :=
  forEach (s.cap.windows.map (·.1)) (fun n t =>
    let w := t.win n
    takeHits n ((below 8 fun k => (tget {} w.conds k).kind == 2 && (tget {} w.conds k).input == input).map
      fun k => { cond := k, time := (stamp : Rat) }) t) s

def trigInEdge (i : Nat) (falling : Bool) (crossing : T16) (s : State) : State :=
  let x := trigStamp i falling crossing s
  match x.1 with
  | some st => edgeHits i st x.2
  | none => x.2

/-- A network trigger message is accepted or counted in the port's error counter (R281). -/
def networkTriggerRx (port : Nat) (m : Bytes) (s : State) : State :=
  if !s.fwRuns ∨ !(s.chip.phase == .serving || (port == 48 && s.chip.phase == .safe))
      ∨ (port < 48 ∧ (s.port port).state ≠ .up) then s
  else
    let key := (BitVec.ofNat 16 (getU m 6 2), BitVec.ofNat 32 (getU m 8 4))
    let fresh := s.cap.netSeen.filter fun x => decide (s.tick < x.2.2 + 2000000000)
    let t := ofTs96 (sub m 0x10 12)
    let ok := decide (0x30 ≤ m.length) && getU m 0 2 == 0x5443 && getU m 2 1 == 1 && getU m 0x2C 4 == crc32c (m.take 0x2C)
      && (getU m 4 2 == 0xFFFF || getU m 4 2 == s.chip.hubId.toNat) && ts80Ok (sub m 0x10 10)
      && !(fresh.any fun x => x.1 == key.1 && x.2.1 == key.2) && decide (t ≤ s.now + unitsPerSec)
    if ok then
      let s := { s with cap := { s.cap with netSeen := fresh ++ [(key.1, key.2, s.tick)] } }
      forEach (s.cap.windows.map (·.1)) (fun n u =>
        let w := u.win n
        takeHits n ((below 8 fun k =>
            let c := tget {} w.conds k
            c.kind == 3 && (c.id == 0xFF || c.id == getU m 12 1)).map fun k => { cond := k, time := (t : Rat) }) u) s
    else
      { s with cap := { s.cap with
          netSeen := fresh, netErrors := tset 0 s.cap.netErrors port (tget 0 s.cap.netErrors port + 1) } }

end Sys2Proof.Machine
end

