-- ==== Sys2Proof/Machine/Capture.lean ====
section
/-! DEFINITION. Dumps, trigger outputs and the capture opcodes (10_capture, Tables CAP-10 to CAP-17). -/

namespace Sys2Proof.Machine

/-! ## Dumps (R295) -/

/-- Compression jobs, queued or running, that read a sketch; each counts as a dump (11_compression). -/
def State.sketchJobs (s : State) : List Nat :=
  ((s.comp.queues.flatMap fun q => q.2) ++ s.comp.running.filterMap fun r => r.2).filterMap fun j =>
    if j.srcKind = 1 then some j.window else none

/-- The windows that running dumps read. -/
def State.dumpWindows (s : State) : List Nat :=
  ((List.range 4).filterMap fun d => (s.dump d).map (·.window)) ++ s.sketchJobs

/-- Whether one more dump fits: at most four run at once. -/
def State.dumpRoom (s : State) : Bool := decide (s.dumpWindows.length < 4)

/-- A dump of a window has ended: the last one frees or releases the sketch (Table CAP-4). -/
def dumpEnded (n : Nat) (release : Bool) (s : State) : State :=
  if s.dumpWindows.contains n ∨ (s.win n).state ≠ .dumping then s
  else if release then releaseSketch n s
  else s.setWin n { s.win n with state := .frozen }

/-- Ends dump d: result 0 DONE or 1 STOPPED_SAFE, its notice, and the sketch. -/
def endDump (d result : Nat) (s : State) : State :=
  match s.dump d with
  | none => s
  | some x =>
    let s := complete x.job 0 0 (le 1 result ++ zeros 3 ++ le 4 x.sent ++ le 4 x.uncorr ++ zeros 4) (s.setDump d none)
    dumpEnded x.window (x.releaseAfter && result == 0) s

/-- The packet header of an uplink dump (Table CAP-10) and the record bytes behind it. -/
def dumpPacketBytes (s : State) (x : Dump) (off len : Nat) : Bytes :=
  let w := s.win x.window
  let flags := b2n (decide (w.length ≤ off + len)) * 32 + b2n s.chip.testMode * 128 + qCode s.time.quality * 256
  let h := le 1 3 ++ le 1 64 ++ le 2 flags ++ le 2 s.chip.hubId.toNat ++ le 2 (0x400 + x.window)
    ++ le 6 (w.sketch.toNat % 2 ^ 24 * 2 ^ 24 + off / 8192) ++ zeros 2 ++ ts96 w.tTrig ++ zeros 4 ++ zeros 8 ++ zeros 8
    ++ le 4 len ++ zeros 4
  h ++ le 4 (crc32c h) ++ zeros 4 ++ recordRange s x.window off len

/-- A dump packet joins a port's frames in commit order; a port that is not UP does not carry it (log entry 30). -/
def queueDump (x : Dump) (body : Bytes) (port : Option Nat) (s : State) : State :=
  match port with
  | none => s
  | some p =>
    let q := s.port p
    if q.state = .up then
      s.setPort p { q with dumps := q.dumps ++
        [(s.strm.order, buildFrame (s.dest x.entry) q (groupOf p) 0x88B5 (0x400 + x.window) body)] }
    else s

/-- DUMP_PACKET: the pacing of an uplink dump releases its next packet. -/
def dumpPacket (d : Nat) (s : State) : State :=
  match s.dump d with
  | none => s
  | some x =>
    if x.dest = 0 ∨ x.length ≤ x.sent then s
    else
      let len := min 8192 (x.length - x.sent)
      let m := meetRecord x.window (x.offset + x.sent) len s
      let s := m.2
      let body := dumpPacketBytes s x (x.offset + x.sent) len
      let s := queueDump x body x.portB (queueDump x body x.portA s)
      let s := { s with strm := { s.strm with order := s.strm.order + 1 } }
      s.setDump d (some { x with sent := x.sent + len, uncorr := x.uncorr + m.1 })

/-- DUMP_END: everything has been delivered; a PCI Express dump has written its range to host memory. -/
def dumpEnd (d : Nat) (s : State) : State :=
  match s.dump d with
  | none => s
  | some x =>
    if x.dest = 0 then
      (if s.chip.pcieUp then
        let m := meetRecord x.window x.offset x.length s
        endDump d 0 ((m.2.setDump d (some { x with sent := x.length, uncorr := x.uncorr + m.1 })).emit
          (.hostWrite x.address (recordRange s x.window x.offset x.length)))
      else s)
    else if x.sent = x.length then endDump d 0 s
    else s

/-! ## Window and condition configuration -/

/-- The members a mask names, ascending. -/
def maskMembers (b : Bytes) : List Nat := below 1024 fun i => (b.getD (i / 8) 0).getLsbD (i % 8)

/-- Rate, epoch and format of a member of a RAW (1) or FILTERED (2) window, where it is bound; wideband and auxiliary
channels differ by their format. -/
def State.memberKind (s : State) (source m : Nat) : Option (Nat × Nat × Nat) :=
  if source = 1 then
    (if m < 512 ∧ (s.chan m).state ≠ .unbound then some ((s.chan m).fs, (s.chan m).epoch, if m < 256 then 0x03 else 0x05) else none)
  else if (s.pipe m).state ≠ .free then some (s.fout m, (s.chan (s.pipe m).channel).epoch, (s.pipe m).format)
  else none

/-- What the members of a window share, if R269 admits them. -/
def State.membersKind (s : State) (source : Nat) (ms : List Nat) : Option (Nat × Nat × Nat) :=
  match ms with
  | [] => none
  | m :: _ => match s.memberKind source m with
    | none => none
    | some k => if ms.length ≤ 256 ∧ ms.all (fun x => s.memberKind source x == some k) then some k else none

def State.regionFree (s : State) (n first pages : Nat) : Bool :=
  s.cap.windows.all fun x => x.1 == n || x.2.state == .unconfigured
    || decide (first + pages ≤ x.2.firstPage) || decide (x.2.firstPage + x.2.pages ≤ first)

/-- The window that a configuration asks for. -/
def newWindow (s : State) (r : Req) : Window :=
  let ms := maskMembers (r.bytes 16 128)
  let k := (s.membersKind (r.u8 1) ms).getD (0, 0, 0)
  { s.win (r.u8 0) with
    state := .idle, source := r.u8 1, flags := BitVec.ofNat 8 (r.u8 2), announceId := r.u8 3, firstPage := r.u16 4
    pages := r.u16 6, pre := r.u32 8, post := r.u32 12, members := ms, fw := k.1, epoch := k.2.1, format := k.2.2
    frameBytes := cdiv (ms.length * formatBits k.2.2) 8, missedTotal := 0, h := 0, nArm := none, nTrig := 0 }

/-- A region includes a page of a bank marked FAILED (R430); a bank has 128 pages. -/
def State.failedBankIn (s : State) (first pages : Nat) : Bool :=
  (List.range 24).any fun b => s.boot.selfFailed.getLsbD b && decide (first < 128 * (b + 1)) && decide (128 * b < first + pages)

def opCapWindowConfig : Op :=
  { code := 0x0701
    len := exactly 144
    ledger := true
    fields := fun r s =>
      let w := newWindow s r
      [fieldLe 0 (r.u8 0) 15, fieldLe 1 (r.u8 1) 2, flagBits r 2 3] ++
      (if r.u8 1 = 0 then [] else
        [fieldLe 3 (r.u8 3) 254,
         (decide (r.u16 4 ≤ 3071) && s.regionFree (r.u8 0) (r.u16 4) (r.u16 6), ansBadField 4),
         (decide (1 ≤ r.u16 6) && decide (r.u16 4 + r.u16 6 ≤ 3072)
           && decide (w.frameBytes * w.fw ≤ 8000000000 * max 1 (r.u16 6 / 128)), ansBadField 6),
         (w.frameBytes == 0 || decide (w.pre + w.post ≤ w.cap), ansBadField 8),
         (decide (1 ≤ r.u32 12), ansBadField 12),
         ((s.membersKind (r.u8 1) w.members).isSome, ansBadField 16)])
    state := fun r s =>
      let w := s.win (r.u8 0)
      [(w.state == .unconfigured || w.state == .idle, ansState s),
       (r.u8 1 == 0 || !s.failedBankIn (r.u16 4) (r.u16 6), ansState s)]
    hold := fun r s =>
      let w := s.win (r.u8 0)
      [(!(w.pendArm || w.pendDisarm || w.delayArm.isSome || w.delayDisarm.isSome), ansBusy)]
    effect := fun r s =>
      if r.u8 1 = 0 then
        let w := s.win (r.u8 0)
        (s.setWin (r.u8 0) { w.toIdle with state := .unconfigured, source := 0, members := [], pages := 0, frameBytes := 0
                                           fw := 0, h := 0, nArm := none, nTrig := 0 }, ansDone [])
      else (s.setWin (r.u8 0) (newWindow s r), ansDone []) }

/-- The condition that CAP_COND_CONFIG gives (Table CAP-14). -/
def newCond (r : Req) : Cond :=
  { kind := r.u8 2, flags := BitVec.ofNat 8 (r.u8 3), pipe := r.u16 4, length := r.u16 6, metric := r.u8 8, input := r.u8 9
    id := r.u8 10, compMask := BitVec.ofNat 8 (r.u8 11), compK := r.u8 12, threshold := r.u64 16, span := r.u32 24 }

def condChecks (r : Req) (s : State) : List Check :=
  let k := r.u8 2
  let only := fun (kind o v : Nat) (ok : Bool) => ((if k = kind then ok else v == 0, ansBadField o) : Check)
  let w := s.win (r.u8 0)
  let comps := below 8 fun i => bit (r.u8 11) i
  [fieldLe 0 (r.u8 0) 15, fieldLe 1 (r.u8 1) 7, fieldLe 2 k 5, flagBits r 3 3,
   only 1 4 (r.u16 4) (decide (r.u16 4 ≤ 1023)), only 1 6 (r.u16 6) (decide (1 ≤ r.u16 6 ∧ r.u16 6 ≤ 1024)),
   only 1 8 (r.u8 8) (decide (r.u8 8 ≤ 1)), only 2 9 (r.u8 9) (decide (r.u8 9 ≤ 7)), only 3 10 (r.u8 10) true,
   only 5 11 (r.u8 11) (comps.all fun i =>
     i != r.u8 1 && (tget {} w.conds i).kind != 5 && (tget {} w.conds i).kind != 3),
   only 5 12 (r.u8 12) (decide (1 ≤ r.u8 12 ∧ r.u8 12 ≤ 7 ∧ r.u8 12 ≤ comps.length))]
  ++ reserved r 13 3
  ++ [only 1 16 (r.u64 16) true, only 5 24 (r.u32 24) (decide (r.u32 24 ≤ 1000000))] ++ reserved r 28 4

def opCapCondConfig : Op :=
  { code := 0x0702
    len := exactly 32
    fields := condChecks
    state := fun r s =>
      let w := s.win (r.u8 0)
      [(w.state == .unconfigured || w.state == .idle, ansState s)]
    hold := fun r s =>
      let w := s.win (r.u8 0)
      [(!(w.pendArm || w.pendDisarm || w.delayArm.isSome || w.delayDisarm.isSome), ansBusy)]
    effect := fun r s =>
      let w := s.win (r.u8 0)
      (s.setWin (r.u8 0) { w with conds := tset {} w.conds (r.u8 1) (newCond r) }, ansDone []) }

/-! ## Arming, disarming, triggering -/

def opCapArm : Op :=
  { code := 0x0703
    len := exactly 4
    sched := .maybe
    ledger := true
    fields := fun r s =>
      let w := s.win (r.u8 0)
      [fieldLe 0 (r.u8 0) 15,
       (w.state == .unconfigured || decide (w.pre + w.post + s.headroom (r.u8 0) ≤ w.cap), ansBadField 0)] ++ reserved r 1 3
    state := fun r s => [((s.win (r.u8 0)).state == .idle, ansState s)]
    hold := fun r s =>
      let w := s.win (r.u8 0)
      [(!(w.pendArm || w.pendDisarm || w.delayArm.isSome || w.delayDisarm.isSome), ansBusy)]
    effect := fun r s =>
      let n := r.u8 0
      if r.sched then schedule 0x0703 5 (.capArm n) r (s.setWin n { s.win n with pendArm := true })
      else (s.setWin n { s.win n with delayArm := some (s.now + us10) }, ansDone []) }

/-- CAP_ARM_EFFECT: 10 us after the tick of an immediate CAP_ARM (R289); in SAFE the window stays IDLE. -/
def capArmEffect (n : Nat) (s : State) : State :=
  let w := s.win n
  match w.delayArm with
  | some t =>
    if t ≤ s.now then
      let s := s.setWin n { w with delayArm := none }
      if w.state = .idle ∧ s.chip.phase = .serving then armWindow n t s else s
    else s
  | none => s

def opCapDisarm : Op :=
  { code := 0x0704
    len := exactly 4
    sched := .maybe
    ledger := true
    fields := fun r _ => [fieldLe 0 (r.u8 0) 15, flagBits r 1 1] ++ reserved r 2 2
    state := fun r s =>
      let w := s.win (r.u8 0)
      [(w.writes || w.pendArm || w.pendDisarm || w.delayArm.isSome || w.delayDisarm.isSome, ansState s)]
    hold := fun r s =>
      let w := s.win (r.u8 0)
      [(!(w.pendArm || w.pendDisarm || w.delayArm.isSome || w.delayDisarm.isSome), ansBusy)]
    effect := fun r s =>
      let n := r.u8 0
      if r.sched then schedule 0x0704 5 (.capDisarm n (bit (r.u8 1) 0)) r (s.setWin n { s.win n with pendDisarm := true })
      else (s.setWin n { s.win n with delayDisarm := some (s.now + us10, bit (r.u8 1) 0) }, ansDone []) }

/-- CAP_DISARM_EFFECT. -/
def capDisarmEffect (n : Nat) (s : State) : State :=
  let w := s.win n
  match w.delayDisarm with
  | some (t, abort) =>
    if t ≤ s.now then disarmWindow n abort (s.setWin n { w with delayDisarm := none }) else s
  | none => s

/-- CAP_TRIGGERs of a window hit their conditions in one cycle (R280): the payload of each and the state after (R276,
Table CAP-11; log entry 26). -/
def capTriggerHits (n : Nat) (hits : List (Nat × T16)) (s : State) : List Bytes × State :=
  let w := s.win n
  let s' := decideWindow n (takeHits n (hits.map fun h => { cond := h.1, time := (h.2 : Rat) }) s)
  let w' := s'.win n
  (hits.map fun (k, t) =>
    let evaluated := w.evaluates && !s.inReset 7 0 && (tget {} w.conds k).flags.getLsbD 0
    let taken := w'.decided == some s.tick && w'.causeMask.getLsbD k && w.frameAt (t : Rat) == w'.nTrig
    let r := if !evaluated then 2 else if taken then 0 else 1
    le 1 r ++ zeros 3 ++ le 4 w.sketch.toNat ++ leI 8 (if evaluated then w.frameAt (t : Rat) else 0), s')

/-- One CAP_TRIGGER. -/
def capTriggerHit (n k : Nat) (t : T16) (s : State) : Bytes × State :=
  let x := capTriggerHits n [(k, t)] s
  (x.1.headD [], x.2)

def opCapTrigger : Op :=
  { code := 0x0705
    len := exactly 16
    sched := .maybe
    ledger := true
    fields := fun r s =>
      let k := (tget {} (s.win (r.u8 0)).conds (r.u8 1)).kind
      [(decide (k ≠ 3 ∧ k ≠ 4) || (r.sched == (k == 4)), ansBadHeader 3),
       fieldLe 0 (r.u8 0) 15, (decide (r.u8 1 ≤ 7) && (k == 3 || k == 4), ansBadField 1)] ++ reserved r 2 2
        ++ [(ts80Ok (r.bytes 4 10) && (if r.sched then isZero r.payload 4 12 else decide (r.ts96 4 ≤ s.now + unitsPerSec)),
             ansBadField 4)]
    effect := fun r s =>
      if r.sched then schedule 0x0705 5 (.capTrigger (r.u8 0) (r.u8 1)) r s
      else
        let x := capTriggerHit (r.u8 0) (r.u8 1) (if isZero r.payload 4 12 then s.now else r.ts96 4) s
        (x.2, ansDone x.1) }

/-! ## Reading -/

def opCapStatus : Op :=
  { code := 0x0706
    len := exactly 4
    reads := fun _ _ => true
    fields := fun r _ => [fieldLe 0 (r.u8 0) 15] ++ reserved r 1 3
    effect := fun r s =>
      let w := s.win (r.u8 0)
      (s, ansDone (le 1 (r.u8 0) ++ le 1 (winCode w.state) ++ le 1 w.source
        ++ le 1 (if windowCharged w then windowSlots w else 0) ++ le 2 w.members.length ++ le 2 w.frameBytes ++ le 4 w.cap
        ++ le 4 w.h ++ le 4 w.sketch.toNat ++ le 4 w.missedTotal.toNat
        ++ (match w.nArm with
          | some a => leI 8 (w.nNew - a + 1) ++ leI 8 w.nNew
          | none => zeros 16)
        ++ leI 8 w.nTrig ++ (if w.nArm.isSome then ts96 w.tArm else zeros 12) ++ le 4 w.fw)) }

def opCapRecordRead : Op :=
  { code := 0x0707
    len := exactly 12
    reads := fun _ _ => true
    fields := fun r s =>
      let w := s.win (r.u8 0)
      [fieldLe 0 (r.u8 0) 15] ++ reserved r 1 3 ++
      [(r.u32 4 % 4 == 0, ansBadField 4),
       (decide (4 ≤ r.u32 8 ∧ r.u32 8 ≤ 4032 ∧ r.u32 8 % 4 = 0)
         && (!w.frozenOrDumping || decide (r.u32 4 + r.u32 8 ≤ w.length)), ansBadField 8)]
    state := fun r s => [((s.win (r.u8 0)).frozenOrDumping, ansState s)]
    effect := fun r s =>
      ((meetRecord (r.u8 0) (r.u32 4) (r.u32 8) s).2, ansDone (recordRange s (r.u8 0) (r.u32 4) (r.u32 8))) }

/-- Length of the range that a dump asks for. -/
def dumpLength (w : Window) (off len : Nat) : Nat := if len = 0 then w.length - off else len

/-- The groups of a dump destination. -/
def destGroups (dest : Nat) : List Nat := if dest = 1 then [0] else if dest = 2 then [1] else if dest = 3 then [0, 1] else []

/-- The entry's MTU admits 8,192 record bytes (R359). -/
def dumpFits (d : Bytes) : Bool :=
  decide (8256 + (if destEncap d = 2 then 28 else if destEncap d = 3 then 48 else 0) ≤ getU d 4 2)

def opCapDump : Op :=
  { code := 0x0708
    len := exactly 24
    ledger := true
    reads := fun r _ => r.u8 1 == 0
    fields := fun r s =>
      let w := s.win (r.u8 0)
      let pcie := r.u8 1 == 0
      let off := r.u32 4
      let len := dumpLength w off (r.u32 8)
      let known := w.frozenOrDumping
      [fieldLe 0 (r.u8 0) 15, fieldLe 1 (r.u8 1) 3, flagBits r 2 1, (!pcie || r.u8 3 == 0, ansBadField 3),
       (off % (if pcie then 64 else 8192) == 0 && (!known || decide (off < w.length)), ansBadField 4),
       (!known || (decide (off + len ≤ w.length) && (!pcie || len % 64 == 0 || off + len == w.length)), ansBadField 8),
       (if pcie then r.u32 12 == 0 else decide (r.u32 12 ≠ 0), ansBadField 12),
       (if pcie then r.u64 16 % 64 == 0 else r.u64 16 == 0, ansBadField 16)]
    state := fun r s =>
      [((s.win (r.u8 0)).frozenOrDumping
        && (r.u8 1 == 0 || (decide (destEncap (s.dest (r.u8 3)) ≠ 0) && dumpFits (s.dest (r.u8 3))
          && (destGroups (r.u8 1)).all fun g => !(s.groupPorts g).isEmpty)), ansState s)]
    hold := fun _ s => [(s.dumpRoom, ansBusy)]
    effect := fun r s =>
      let n := r.u8 0
      let w := s.win n
      let (j, s) := takeJob 0x0708 r s
      let d := ((List.range 4).find? fun d => (s.dump d).isNone).getD 0
      let on := fun g => if (destGroups (r.u8 1)).contains g then s.choosePort g 255 else none
      let x : Dump :=
        { window := n, dest := r.u8 1, releaseAfter := bit (r.u8 2) 0, entry := r.u8 3, offset := r.u32 4
          length := dumpLength w (r.u32 4) (r.u32 8), rate := r.u32 12, address := r.u64 16, portA := on 0, portB := on 1
          job := j }
      ((s.setDump d (some x)).setWin n { w with state := .dumping }, ansAccepted j.slot) }

def opCapRelease : Op :=
  { code := 0x0709
    len := exactly 4
    ledger := true
    fields := fun r _ => [fieldLe 0 (r.u8 0) 15] ++ reserved r 1 3
    state := fun r s => [((s.win (r.u8 0)).frozenOrDumping, ansState s)]
    hold := fun r s => [((s.win (r.u8 0)).state != .dumping, ansBusy)]
    effect := fun r s => (releaseSketch (r.u8 0) s, ansDone []) }

def missedEntry (m : Missed) : Bytes :=
  ts96 m.time ++ le 1 m.cond ++ le 1 m.reason ++ zeros 2 ++ le 4 m.sketch.toNat ++ zeros 4

def opCapMissedRead : Op :=
  { code := 0x070A
    len := exactly 4
    reads := fun _ _ => true
    fields := fun r _ => [fieldLe 0 (r.u8 0) 15, fieldIn 1 (r.u8 1) 1 160] ++ reserved r 2 2
    effect := fun r s =>
      let w := s.win (r.u8 0)
      let out := w.missedLog.take (r.u8 1)
      (s.setWin (r.u8 0) { w with missedLog := w.missedLog.drop (r.u8 1), missTold := false },
       ansDone (le 2 out.length ++ zeros 2 ++ le 4 w.missedTotal.toNat ++ out.flatMap missedEntry)) }

/-! ## Trigger outputs (R296) -/

/-- A JESD204B link names the output as SYNC~. -/
def State.syncNamed (s : State) (o : Nat) : Bool :=
  s.jesds.any fun j => decide (j.2.base.state ≠ .unconfigured) && j.2.sync == o

def CalEntry.isTrain (e : CalEntry) (o : Nat) : Bool := match e.action with
  | .trigOut x => x == o
  | _ => false

/-- Ends the train of an output: its calendar entry leaves. -/
def dropTrain (o : Nat) (s : State) : State :=
  { s with cal := { s.cal with entries := s.cal.entries.filter fun e => !e.isTrain o } }

def opTrigOutConfig : Op :=
  { code := 0x070B
    len := exactly 32
    ledger := true
    fields := fun r _ =>
      let m := r.u8 1
      [fieldLe 0 (r.u8 0) 7, fieldLe 1 m 2, flagBits r 2 1] ++ reserved r 3 1 ++
      [(m == 1 || r.u16 4 == 0, ansBadField 4), (if m = 2 then decide (1 ≤ r.u16 6) else r.u16 6 == 0, ansBadField 6),
       fieldIn 8 (r.u32 8) 8 1000000,
       (if m = 2 then decide (1000 ≤ r.u32 12 ∧ r.u32 12 ≤ 1000000000) else r.u32 12 == 0, ansBadField 12),
       (if m = 2 then ts80Ok (r.bytes 16 10) else isZero r.payload 16 12, ansBadField 16)] ++ reserved r 28 4
    state := fun r s =>
      [(r.u8 1 == 0 || !s.syncNamed (r.u8 0), ansState s),
       (r.u8 1 != 2 || shortfall s (r.ts96 16) == 0, ansTooLate (shortfall s (r.ts96 16)))]
    effect := fun r s =>
      let o := r.u8 0
      let old := s.trigOut o
      let s := dropTrain o s
      let s := s.setTrigOut o { old with
        mode := r.u8 1, low := bit (r.u8 2) 0, windows := BitVec.ofNat 16 (r.u16 4), count := r.u16 6, width := r.u32 8
        period := r.u32 12, first := r.ts96 16, pulseEnd := 0 }
      (if r.u8 1 = 2 then
        insertEntry { time := r.ts96 16, cls := 5, ins := 0, action := .trigOut o, period := r.u32 12, reps := some (r.u16 6) } s
      else s, ansDone []) }

/-- A train's pulse (R296). -/
def trainPulse (o : Nat) (t : T16) (s : State) : State :=
  let x := s.trigOut o
  (s.setTrigOut o { x with pulseEnd := s.tick + x.width }).emit (.trigPulse o t x.width)

end Sys2Proof.Machine
end

