-- ==== Sys2Proof/Machine/Compression.lean ====
section
/-! DEFINITION. Stream compression settings, compression jobs and their opcodes (11_compression, R311-R324). -/

namespace Sys2Proof.Machine

/-! ## Job units -/

def State.jobQueue (s : State) (u : Nat) : List Job := tget [] s.comp.queues u
def State.setJobQueue (s : State) (u : Nat) (q : List Job) : State :=
  { s with comp := { s.comp with queues := tset [] s.comp.queues u q } }

def State.jobRunning (s : State) (u : Nat) : Option Job := tget none s.comp.running u
def State.setJobRunning (s : State) (u : Nat) (j : Option Job) : State :=
  { s with comp := { s.comp with running := tset none s.comp.running u j } }

/-- The STOPPED job that holds a state slot. -/
def State.jobStopped (s : State) (n : Nat) : Option Job := tget none s.comp.stopped n
def State.setJobStopped (s : State) (n : Nat) (j : Option Job) (payload : Bytes) : State :=
  { s with comp := { s.comp with stopped := tset none s.comp.stopped n j, stops := tset [] s.comp.stops n payload } }

def State.jobGen (s : State) (n : Nat) : Nat := tget 0 s.comp.gens n

/-- Every job that holds a state slot. -/
def State.jobs (s : State) : List Job :=
  (s.comp.queues.flatMap (·.2)) ++ s.comp.running.filterMap (·.2) ++ s.comp.stopped.filterMap (·.2)

/-- The lowest free job state slot of the 16. -/
def State.freeJobSlot (s : State) : Option Nat := (List.range 16).find? fun n => !(s.jobs.any fun j => j.slot == n)

/-- Jobs of a unit, queued and running. -/
def State.unitLoad (s : State) (u : Nat) : Nat := (s.jobQueue u).length + b2n (s.jobRunning u).isSome

/-- The unit of a job that names one, or the one with the fewest jobs (R319). -/
def State.chooseUnit (s : State) (named : Nat) : Nat :=
  if named ≠ 255 then named else (leastBy s.unitLoad [0, 1, 2]).getD 0

/-- Table ASC-11. -/
def jobPayload (result error unit token consumed produced blocks stored errOffset errBit uncorr : Nat) : Bytes :=
  le 1 result ++ le 1 error ++ le 1 unit ++ zeros 1 ++ le 4 token ++ le 8 consumed ++ le 8 produced ++ le 4 blocks
    ++ le 4 stored ++ le 8 errOffset ++ le 4 errBit ++ le 4 uncorr

/-- The resume token of a state slot. -/
def State.tokenOf (s : State) (n : Nat) : Nat := n + 16 * s.jobGen n

/-- The STOPPED job that a token names. -/
def State.tokenJob (s : State) (token : Nat) : Option Job :=
  if s.tokenOf (token % 16) = token then s.jobStopped (token % 16) else none

/-! ## Running a job (R318, R321) -/

/-- The progress of a run: input consumed, output (oldest block first), blocks, STORED blocks, history newest first, and
its end: 0 the source is exhausted, 1 the next block does not fit, 2 an error, 3 the block limit is reached. -/
structure JobRun where
  consumed : Nat := 0
  out : Bytes := []
  blocks : Nat := 0
  stored : Nat := 0
  history : Bytes := []
  stop : Nat := 0
  code : Nat := 0
  bit : Nat := 0

/-- Source bytes of one compress block. -/
def Job.blockBytes (j : Job) : Nat := if j.mode = 1 then j.block * formatBits j.format / 8 else j.block

/-- One coded block of a compress job: whether it is STORED, and its bytes. -/
def codeJobBlock (j : Job) (first : Bool) (history data : Bytes) : Bool × Bytes :=
  if j.mode = 1 then
    let x := riceBlock j.format 255 (unpackSamples j.format (data.length * 8 / formatBits j.format) data)
    (x.1.isNone, x.2)
  else if j.mode = 2 then
    let x := dictBlock (j.chain && !first) history data
    (!x.1, x.2)
  else (true, storedBlock 0 0 data)

/-- Codes up to `limit` blocks of a source. -/
def compressRun (j : Job) : Nat → Bytes → JobRun → JobRun
  | 0, _, r => { r with stop := 3 }
  | limit + 1, src, r =>
    if src.isEmpty then { r with stop := 0 }
    else
      let data := src.take j.blockBytes
      let x := codeJobBlock j (decide (j.base + r.consumed = 0)) r.history data
      if j.dstCap < r.out.length + x.2.length then { r with stop := 1 }
      else compressRun j limit (src.drop j.blockBytes)
        { r with consumed := r.consumed + data.length, out := r.out ++ x.2, blocks := r.blocks + 1
                 stored := r.stored + b2n x.1, history := (data.reverse ++ r.history).take 65536 }

/-- Decodes up to `limit` blocks of a source. -/
def decompressRun (j : Job) : Nat → Bytes → JobRun → JobRun
  | 0, _, r => { r with stop := 3 }
  | limit + 1, src, r =>
    if src.isEmpty then { r with stop := 0 }
    else if 16 ≤ src.length ∧ headBad src = false ∧ j.dstCap < r.out.length + (blockHead src).orig then { r with stop := 1 }
    else match blockDecode r.history src with
      | .error c b => { r with stop := 2, code := c, bit := b }
      | .data d => decompressRun j limit (src.drop (blockLength src))
          { r with consumed := r.consumed + blockLength src, out := r.out ++ d, blocks := r.blocks + 1
                   stored := r.stored + b2n ((blockHead src).mode == 0), history := (d.reverse ++ r.history).take 65536 }

/-- Runs a job over its remaining source, up to a number of blocks. -/
def runJob (j : Job) (limit : Nat) (src : Bytes) : JobRun :=
  if j.op = 0 then compressRun j limit src { history := j.history } else decompressRun j limit src { history := j.history }

/-- A job leaves its unit with a completion payload; its sketch is free of it. -/
def leaveUnit (j : Job) (payload : Bytes) (s : State) : State :=
  let s := complete j.ref 0 0 payload (s.setJobRunning j.unit none)
  if j.srcKind = 1 then dumpEnded j.window false s else s

/-- JOB_START (R320). -/
def jobStart (u : Nat) (s : State) : State :=
  match s.jobRunning u, s.jobQueue u with
  | none, j :: q => if s.inReset 10 u then s else (s.setJobQueue u q).setJobRunning u (some j)
  | _, _ => s

/-- JOB_END: the running job has worked through its source, or stops before it; `hostSrc` is what host memory holds from
the job's source address on. A cancelled job stops at a block boundary that the spec leaves open (log entry 37). -/
def jobEnd (u : Nat) (hostSrc : Bytes) (s : State) : State :=
  match s.jobRunning u with
  | none => s
  | some j =>
    if s.inReset 10 u ∨ !s.chip.pcieUp then s
    else
      let left := j.srcLen - j.base
      let src := if j.srcKind = 1 then recordRange s j.window (j.src + j.base) left else sub hostSrc j.base left
      let m := if j.srcKind = 1 then meetRecord j.window (j.src + j.base) left s else (0, s)
      let s := m.2
      let j := { j with uncorr := j.uncorr + m.1 }
      let (d, s) := if j.cancelled then s.draw else (0, s)
      let r := runJob j (left + 1) src
      let r := if j.cancelled then runJob j ((Config.freeWord d).toNat % (r.blocks + 1)) src else r
      let s := if r.out.isEmpty then s else s.emit (.hostWrite j.dst r.out)
      let pay := fun (result error token eo eb : Nat) =>
        jobPayload result error u token (j.base + r.consumed) r.out.length r.blocks r.stored eo eb j.uncorr
      if j.cancelled then leaveUnit j (pay 3 0 0 0 0) s
      else if r.stop = 1 then
        let gen := (s.jobGen j.slot + 1) % 2 ^ 28
        let s := { s with comp := { s.comp with gens := tset 0 s.comp.gens j.slot gen } }
        let p := pay 1 0 (s.tokenOf j.slot) 0 0
        leaveUnit j p (s.setJobStopped j.slot (some { j with base := j.base + r.consumed, history := r.history }) p)
      else if r.stop = 2 then leaveUnit j (pay 2 r.code 0 (j.base + r.consumed) r.bit) s
      else leaveUnit j (pay 0 0 0 0 0) s

/-- A block reset of a unit fails the job that runs on it (Table ASC-5). -/
def failUnit (u : Nat) (s : State) : State :=
  match s.jobRunning u with
  | some j => leaveUnit j (jobPayload 4 0 u 0 j.base 0 0 0 0 0 j.uncorr) s
  | none => s

/-! ## COMP_JOB (Table ASC-10) -/

def resumes (r : Req) : Bool := bit (r.u8 6) 1

def opFormat (f : Nat) : Bool := decide (formatBits f ≠ 0)

/-- Field checks of a new job. -/
def newJobChecks (r : Req) (s : State) : List Check :=
  let op := r.u8 1
  let mode := r.u8 2
  let rice := op == 0 && mode == 1
  let bits := formatBits (r.u8 3)
  let w := s.win (r.u8 5)
  let sketch := r.u8 4 == 1
  [(decide (r.u8 0 ≤ 2) || r.u8 0 == 255, ansBadField 0), fieldLe 1 op 1, fieldLe 2 mode (if op = 0 then 2 else 0),
   (if rice then opFormat (r.u8 3) else r.u8 3 == 0, ansBadField 3), fieldLe 4 (r.u8 4) 1,
   (if sketch then decide (r.u8 5 ≤ 15) else r.u8 5 == 0, ansBadField 5),
   (decide (r.u8 6 < 4) && (!bit (r.u8 6) 0 || (op == 0 && mode == 2)), ansBadField 6)] ++ reserved r 7 1 ++
  [(if op = 1 then r.u32 8 == 0
    else if rice then decide (1 ≤ r.u32 8 ∧ r.u32 8 ≤ 4096) && (bits != 12 || r.u32 8 % 2 == 0)
    else decide (1 ≤ r.u32 8 ∧ r.u32 8 ≤ 65536), ansBadField 8),
   (r.u32 12 == 0, ansBadField 12), (!sketch || !w.frozenOrDumping || decide (r.u64 16 < w.length), ansBadField 16),
   (decide (1 ≤ r.u64 24) && (!rice || r.u64 24 * 8 % (if bits = 12 then 24 else max 8 bits) == 0)
     && (!sketch || !w.frozenOrDumping || decide (r.u64 16 + r.u64 24 ≤ w.length)), ansBadField 24)]

/-- Field checks of a RESUME: everything but flags, token and destination is 0 (R322). -/
def resumeChecks (r : Req) (s : State) : List Check :=
  ((List.range 6).map fun o => ((isZero r.payload o 1, ansBadField o) : Check))
    ++ [(r.u8 6 == 2, ansBadField 6)] ++ reserved r 7 1
    ++ [(r.u32 8 == 0, ansBadField 8), ((s.tokenJob (r.u32 12)).isSome, ansBadField 12), (r.u64 16 == 0, ansBadField 16),
        (r.u64 24 == 0, ansBadField 24)]

/-- The job as saved or as asked for, before it has a request, a unit and a slot. -/
def jobOf (r : Req) (s : State) : Job :=
  let fresh : Job :=
    { ref := ⟨0, 0, 0, 0, 0⟩, unit := s.chooseUnit (r.u8 0), op := r.u8 1, mode := r.u8 2, format := r.u8 3, srcKind := r.u8 4
      window := r.u8 5, chain := bit (r.u8 6) 0, block := r.u32 8, src := r.u64 16, srcLen := r.u64 24, dst := r.u64 32
      dstCap := r.u64 40, slot := s.freeJobSlot.getD 0, sketch := (s.win (r.u8 5)).sketch }
  if resumes r then match s.tokenJob (r.u32 12) with
    | some j => { j with unit := 0, dst := r.u64 32, dstCap := r.u64 40, uncorr := 0 }
    | none => fresh
  else fresh

def opCompJob : Op :=
  { code := 0x0803
    len := exactly 48
    ledger := true
    reads := fun r s =>
      let j := jobOf r s
      j.op == 0 && j.srcKind == 1
    fields := fun r s => if resumes r then resumeChecks r s else newJobChecks r s
    state := fun r s =>
      let j := jobOf r s
      [(j.srcKind != 1 || ((s.win j.window).frozenOrDumping && (s.win j.window).sketch == j.sketch), ansState s)]
    hold := fun r s =>
      let j := jobOf r s
      [(decide ((s.jobQueue j.unit).length < 8) && (resumes r || s.freeJobSlot.isSome)
        && (j.srcKind != 1 || s.dumpRoom), ansBusy)]
    effect := fun r s =>
      let j := jobOf r s
      let (ref, s) := takeJob 0x0803 r s
      let s := if resumes r then s.setJobStopped j.slot none [] else s
      let s := s.setJobQueue j.unit (s.jobQueue j.unit ++ [{ j with ref := ref }])
      (if j.srcKind = 1 then s.setWin j.window { s.win j.window with state := .dumping } else s, ansAccepted ref.slot) }

/-- The jobs of a request, by mailbox and host_seq. -/
def Job.named (mb seq : Nat) (j : Job) : Bool := j.ref.mb == mb && j.ref.hostSeq.toNat == seq

/-- A job's completion payload so far. The progress of a running job is open (log entry 37). -/
def jobSoFar (s : State) (mb seq : Nat) : Option (Bytes × State) :=
  match s.comp.queues.flatMap (·.2) |>.find? (Job.named mb seq) with
  | some j => some (jobPayload 0xFF 0 j.unit 0 j.base 0 0 0 0 0 j.uncorr, s)
  | none => match (s.comp.running.filterMap (·.2)).find? (Job.named mb seq) with
    | some j =>
      let f := fun i => (Config.freeWord (s.freeCount + i)).toNat
      let s := { s with freeCount := s.freeCount + 4 }
      some (jobPayload 0xFF 0 j.unit 0 (f 0) (f 1) (f 2) (f 3) 0 0 j.uncorr, s)
    | none => match (s.comp.stopped.filterMap (·.2)).find? (Job.named mb seq) with
      | some j => some (tget [] s.comp.stops j.slot, s)
      | none => none

def opCompJobStatus : Op :=
  { code := 0x0804
    len := exactly 8
    reads := fun _ _ => true
    fields := fun r _ => [fieldLe 0 (r.u8 0) 9] ++ reserved r 1 3
    state := fun r s => [((jobSoFar s (r.u8 0) (r.u32 4)).isSome, ansState s)]
    effect := fun r s => match jobSoFar s (r.u8 0) (r.u32 4) with
      | some (p, s) => (s, ansDone p)
      | none => (s, ansState s) }

/-- A queued job is cancelled (Table ASC-5). -/
def cancelQueued (j : Job) (s : State) : State :=
  let s := s.setJobQueue j.unit ((s.jobQueue j.unit).filter fun x => x.ref != j.ref)
  let s := complete j.ref 0 0 (jobPayload 3 0 j.unit 0 j.base 0 0 0 0 0 j.uncorr) s
  if j.srcKind = 1 then dumpEnded j.window false s else s

def opCompJobCancel : Op :=
  { code := 0x0805
    len := exactly 8
    fields := fun r _ => [(decide (r.u8 0 ≤ 9) || r.u8 0 == 255, ansBadField 0)] ++ reserved r 1 3
    state := fun r s =>
      [(if r.u8 0 = 255 then (s.tokenJob (r.u32 4)).isSome
        else ((s.comp.queues.flatMap (·.2)) ++ s.comp.running.filterMap (·.2)).any (Job.named (r.u8 0) (r.u32 4)), ansState s)]
    effect := fun r s =>
      if r.u8 0 = 255 then (s.setJobStopped (r.u32 4 % 16) none [], ansDone [])
      else match (s.comp.queues.flatMap (·.2)).find? (Job.named (r.u8 0) (r.u32 4)) with
        | some j => (cancelQueued j s, ansDone [])
        | none => match (s.comp.running.filterMap (·.2)).find? (Job.named (r.u8 0) (r.u32 4)) with
          | some j => (s.setJobRunning j.unit (some { j with cancelled := true }), ansDone [])
          | none => (s, ansDone []) }

/-! ## Stream compression -/

def opCompStreamConfig : Op :=
  { code := 0x0801
    len := exactly 8
    fields := fun r s =>
      let n := (s.stream (r.u16 0)).perPacket
      [fieldLe 0 (r.u16 0) 1023, fieldLe 2 (r.u8 2) 1, fieldLe 3 (r.u8 3) 2,
       (decide (r.u8 4 ≤ 3) || r.u8 4 == 255, ansBadField 4), (decide (r.u8 5 ≤ 15) || r.u8 5 == 255, ansBadField 5),
       (decide (1 ≤ r.u16 6 ∧ r.u16 6 ≤ 4096) && (n == 0 || decide (r.u16 6 ≤ n)), ansBadField 6)]
    state := fun r s =>
      let c := s.cstream (r.u16 0)
      [((c.enable == (r.u8 2 == 1) && c.comp == r.u8 5 && c.block == r.u16 6) || s.streamIdle (r.u16 0), ansState s)]
    effect := fun r s =>
      let c := s.cstream (r.u16 0)
      (s.setCstream (r.u16 0) { c with
        enable := r.u8 2 == 1, mode := r.u8 3, order := r.u8 4, comp := r.u8 5, block := r.u16 6, active := c.inEffect },
       ansDone []) }

def opCompStreamStatus : Op :=
  { code := 0x0802
    len := exactly 4
    reads := fun _ _ => true
    fields := fun r _ => [fieldLe 0 (r.u16 0) 1023, flagBits r 2 1] ++ reserved r 3 1
    effect := fun r s =>
      let c := s.cstream (r.u16 0)
      (if bit (r.u8 2) 0 then
        s.setCstream (r.u16 0) { c with orig := 0, coded := 0, trial := 0, blocks := 0, stored := 0, orders := [0, 0, 0, 0] }
      else s,
       ansDone (le 2 (r.u16 0) ++ le 1 c.mode ++ le 1 (if c.enable then c.inEffect else 0xFF)
        ++ le 1 (if c.enable then (s.stream (r.u16 0)).placeC.getD c.comp else 0xFF) ++ zeros 3 ++ le 8 c.orig.toNat
        ++ le 8 c.coded.toNat ++ le 8 c.trial.toNat ++ le 4 c.blocks.toNat ++ le 4 c.stored.toNat
        ++ c.orders.flatMap (le 4))) }

/-- COMP_AUTO_EVAL: the counts of the last second decide (R313). -/
def compAutoEval (n : Nat) (s : State) : State :=
  let c := s.cstream n
  if !s.fwRuns ∨ !c.enable ∨ c.mode ≠ 2 then s
  else
    let last := c.recent.filter fun x => decide (s.tick < x.1 + 1000000000)
    let orig : Nat := last.foldl (fun k x => k + x.2.1) 0
    let saved : Nat := orig - last.foldl (fun k x => k + x.2.2) 0
    let now := if orig = 0 then c.active else if 2 * orig ≤ 100 * saved then 1 else if 100 * saved < orig then 0 else c.active
    let s := s.setCstream n { c with active := now }
    if now = c.active then s
    else notify 0x0880 (le 2 n ++ le 1 now ++ zeros 1 ++ le 4 (10000 * saved / orig)) s

end Sys2Proof.Machine
end

