-- ==== Sys2Proof/Machine/Dsp.lean ====
section
/-! DEFINITION. The arithmetic of a pipe's stages (07_channel_pipe): input format, DC block, mixer, delay-steered first
stage, decimation cascade, requantiser, fade. -/

namespace Sys2Proof.Machine

/-- Saturation to 24 bits, and whether it limited (R218). -/
def sat24 (v : Int) : Int := clampI (-8388608) 8388607 v

def limited (v : Int) : Bool := decide (sat24 v ≠ v)

/-- A right shift with half-to-even rounding or truncation towards -∞ (R218). -/
def shiftRound (trunc : Bool) (n : Nat) (v : Int) : Int := if trunc then v / (2 ^ n : Nat) else rhe v (2 ^ n)

/-- Saturates both parts; whether one of them was limited. -/
def satSmp (x : Smp) : Smp × Bool := ((sat24 x.1, sat24 x.2), limited x.1 || limited x.2)

/-! ## Input format (R197) -/

/-- The sample of an n-bit code: two's complement, or offset binary converted to it. -/
def codeValue (offBin : Bool) (n code : Nat) : Int :=
  if offBin then (code : Int) - (2 ^ (n - 1) : Nat) else signed n code

/-- The 24-bit path value of an n-bit sample, and whether it saturated. -/
def pathValue (n align : Nat) (x : Int) : Int × Bool :=
  let v := if n ≤ 24 then x * (2 ^ align : Nat) else rhe x (2 ^ (n - 24))
  (sat24 v, limited v)

/-! ## DC block (R200) -/

/-- The estimate after an update by sample v, in units of 2^-24. -/
def dcUpdate (k : Nat) (m v : Int) : Int := m + (v * 16777216 - m) / (2 ^ k : Nat)

/-- The output of the DC block for the estimate in force, and whether it saturated. -/
def dcOut (m v : Int) : Int × Bool :=
  let y := v - rhe m 16777216
  (sat24 y, limited y)

/-! ## Mixer (R211, R212) -/

/-- The alternating series x − x³/3! + x⁵/5! − … from term j on, whose value is t; fixed point with 100 fraction bits. -/
def sineSeries (x2 : Nat) : Nat → Nat → Nat → Int
  | 0, _, _ => 0
  | n + 1, j, t => (t : Int) - sineSeries x2 n (j + 1) (t * x2 / 2 ^ 100 / ((2 * j + 2) * (2 * j + 3)))

/-- ⌊sin(2π i / 2^20) · (2^17 − 1)⌋ for 0 < i < 2^18; the first factor is 2π with 100 fraction bits, and 17 terms leave an
error below 2^-90, far less than any entry's distance from a whole number. -/
def sineFloor (i : Nat) : Int :=
  let x := 7964883625991394727376702227904 * i / 2 ^ 20
  sineSeries (x * x / 2 ^ 100) 17 0 x * 131071 / 2 ^ 100

/-- Entry i of the quarter-wave table: exact at its ends, and otherwise one of the two whole numbers around the value. -/
def sineEntry (i : Nat) : Int :=
  if i = 0 then 0 else if 2 ^ 18 ≤ i then 131071 else sineFloor i + (b2n (Config.sineUp i) : Int)

/-- sin of a 20-bit angle from the quarter-wave table. -/
def sine (a : Nat) : Int :=
  let k := a % 2 ^ 18
  if a / 2 ^ 18 % 4 = 0 then sineEntry k else if a / 2 ^ 18 % 4 = 1 then sineEntry (2 ^ 18 - k)
  else if a / 2 ^ 18 % 4 = 2 then -sineEntry k else -sineEntry (2 ^ 18 - k)

def cosine (a : Nat) : Int := sine (a + 2 ^ 18)

/-- θ at channel position i, as its 48-bit numerator. -/
def theta (w p : Nat) (i : Int) : Nat := (((w : Int) * i + (p * 65536 : Nat)) % (2 ^ 48 : Nat)).toNat

/-- A real sample times e^(-j2πθ). -/
def mixSample (w p : Nat) (i x : Int) : Smp × Bool :=
  let a := theta w p i / 2 ^ 28
  satSmp (rhe (x * cosine a) 131072, rhe (-(x * sine a)) 131072)

/-! ## Delay-steered first stage (R203, R206) -/

/-- Coefficient j of phase set p, set 64 being set 0 one tap later. -/
def phaseCoef (f : Profile) (taps p j : Nat) : Int :=
  if p = 64 then (if j = 0 then 0 else f.coef (j - 1)) else f.coef (taps * p + j)

/-- Coefficient j of the set interpolated for a fine delay. -/
def fineCoef (f : Profile) (taps phi j : Nat) : Int :=
  let a := phaseCoef f taps (phi / 16) j
  let b := phaseCoef f taps (phi / 16 + 1) j
  rhe (16 * a + ((phi % 16 : Nat) : Int) * (b - a)) 16

/-- The word of the delay line at a channel index; words before the first consumed are zeros (R205). -/
def lineAt (line : List Smp) (next i : Int) : Smp :=
  if next ≤ i then (0, 0) else line.getD (next - 1 - i).toNat (0, 0)

def sumSmp (xs : List Smp) : Smp := xs.foldl (fun a x => (a.1 + x.1, a.2 + x.2)) (0, 0)

def scaleSmp (h : Int) (x : Smp) : Smp := (h * x.1, h * x.2)

/-- A stage's shift, rounding and saturation of its accumulator (R218). -/
def stageEnd (g : Stage) (acc : Smp) : Smp × Bool :=
  satSmp (shiftRound g.trunc g.shift acc.1, shiftRound g.trunc g.shift acc.2)

/-- First-stage output n1 under the quantised delay q. -/
def firstOut (f : Profile) (g : Stage) (line : List Smp) (next : Int) (n1 : Int) (q : Nat) : Smp × Bool :=
  stageEnd g (sumSmp ((List.range g.taps).map fun (j : Nat) =>
    scaleSmp (fineCoef f g.taps (q % 1024) j) (lineAt line next (n1 * (g.d : Int) - (q / 1024 : Nat) - (j : Int)))))

/-! ## Cascade (R216) -/

/-- The output of a stage at index i; zero outside what its history holds. -/
def Hist.at_ (h : Hist) (i : Int) : Smp := if h.next ≤ i then (0, 0) else h.vals.getD (h.next - 1 - i).toNat (0, 0)

/-- Output n of a cascade stage whose coefficients begin at word `base`. -/
def firOut (f : Profile) (base : Nat) (g : Stage) (src : Hist) (n : Int) : Smp × Bool :=
  stageEnd g (sumSmp ((List.range g.taps).map fun (j : Nat) =>
    let m := n * (g.d : Int) - (j : Int)
    if m % (g.u : Int) = 0 then scaleSmp (f.coef (base + j)) (src.at_ (m / (g.u : Int))) else (0, 0)))

/-! ## Stage indices (R196) -/

/-- The index of each stage's newest output that output n of the last stage uses. -/
def chain : List Stage → Int → List Int
  | [], _ => []
  | [_], n => [n]
  | _ :: g :: gs, n =>
    let rest := chain (g :: gs) n
    ((rest.headD 0) * (g.d : Int) / (g.u : Int)) :: rest

/-- The first-stage output that output n uses last: ⌊n R_out / D_1⌋. -/
def firstIndex (gs : List Stage) (n : Int) : Int := (chain gs n).headD n

/-- The oldest index of each stage's input that output n of the last stage uses, down to the first stage's output. -/
def oldestFirst : List Stage → Int → Int
  | [], n => n
  | [_], n => n
  | _ :: g :: gs, n => -(-((oldestFirst (g :: gs) n) * (g.d : Int) - ((g.taps : Int) - 1)) / (g.u : Int))

/-- Histories from which output n is the next: zeros before (R205, R244). -/
def freshHist (gs : List Stage) (n : Int) : List Hist := (chain gs (n - 1)).map fun i => { next := i + 1 }

/-! ## Running the stages -/

/-- Saturations that a run of the stages met: per filter stage, and in the mixer. -/
structure Sats where
  stages : List Nat := []
  mixer : Nat := 0
  deriving DecidableEq, Repr

/-- Produces k outputs of a stage; counts its saturations and the mixer's. -/
def produce (f : Int → Smp × Bool × Bool) : Nat → Hist → Nat × Nat → Hist × Nat × Nat
  | 0, h, c => (h, c)
  | k + 1, h, c =>
    let x := f h.next
    produce f k { next := h.next + 1, vals := x.1 :: h.vals } (c.1 + b2n x.2.1, c.2 + b2n x.2.2)

/-- Runs the cascade stages up to their targets: stages with their coefficient bases, histories, targets. -/
def runCascade (f : Profile) : Hist → List (Stage × Nat) → List Hist → List Int → List Hist × List Nat
  | src, (g, base) :: gs, h :: hs, i :: is =>
    let x := produce (fun n => let y := firOut f base g src n; (y.1, y.2, false)) (i + 1 - h.next).toNat h (0, 0)
    let rest := runCascade f x.1 gs hs is
    (x.1 :: rest.1, x.2.1 :: rest.2)
  | _, _, _, _ => ([], [])

/-- The value of the last stage. -/
def lastValue (hs : List Hist) (n : Int) : Smp := match hs.getLast? with
  | some h => h.at_ n
  | none => (0, 0)

/-- Output n of a bank: its histories after, its last-stage value, its saturations. `first` computes one first-stage
output, late mix included. -/
def runBank (f : Profile) (first : Stage → Int → Smp × Bool × Bool) (hs : List Hist) (n : Int) : List Hist × Smp × Sats :=
  let gs := f.stages
  match gs, hs, chain gs n with
  | g :: rest, h :: hrest, i :: is =>
    let x := produce (first g) (i + 1 - h.next).toNat h (0, 0)
    let bases := (rest.zipIdx).map fun (g, k) => (g, coefBase gs (k + 1))
    let y := runCascade f x.1 bases hrest is
    let out := x.1 :: y.1
    (out, lastValue out n, { stages := x.2.1 :: y.2, mixer := x.2.2 })
  | _, _, _ => (hs, (0, 0), {})

/-! ## Requantiser and fade (R220, R245) -/

/-- One part: shift, rounding, saturation to w bits. -/
def requantPart (shift : Int) (trunc sym : Bool) (w : Nat) (v : Int) : Int × Bool :=
  let x := if shift < 0 then v * (2 ^ (-shift).toNat : Nat) else shiftRound trunc shift.toNat v
  let hi : Int := (2 ^ (w - 1) : Nat) - 1
  let y := clampI (if sym then -hi else -hi - 1) hi x
  (y, decide (y ≠ x))

def requant (shift : Int) (trunc sym : Bool) (format : Nat) (x : Smp) : Smp × Bool :=
  let w := formatWidth format
  let a := requantPart shift trunc sym w x.1
  if formatComplex format then
    let b := requantPart shift trunc sym w x.2
    ((a.1, b.1), a.2 || b.2)
  else ((a.1, 0), a.2)

/-- Fade sample i of 2^k. -/
def fadePart (k i : Nat) (a b : Int) : Int := rhe (a * ((2 ^ k : Nat) - 1 - (i : Int)) + b * ((i : Int) + 1)) (2 ^ k)

def fadeSmp (k i : Nat) (a b : Smp) : Smp := (fadePart k i a.1 b.1, fadePart k i a.2 b.2)

end Sys2Proof.Machine
end

