-- ==== Sys2Proof/Machine/Sources.lean ====
section
/-! DEFINITION. Sources and channels (06_inputs): rates and word layouts of a source position, and a channel's index
arithmetic. -/

namespace Sys2Proof.Machine

/-- Kinds 1 and 2 of Table INP-1 carry wideband channels. -/
def wideKind (kind : Nat) : Bool := kind == 1 || kind == 2

/-- Sample bits N and control bits CS of a source (R175, R179, Table INP-2). -/
def State.srcBits (s : State) (kind src : Nat) : Nat × Nat :=
  if kind = 1 then ((s.jesd src).n, (s.jesd src).cs)
  else if kind = 2 then ((s.bglIn src).n, (s.bglIn src).cs)
  else if kind = 3 then ((s.bglIn src).auxN, (s.bglIn src).auxCs)
  else ((s.scp src).n, (s.scp src).cs)

/-- The rate of a source position, where the source is configured and has the position (Table INP-1). -/
def State.srcRate (s : State) (kind src pos : Nat) : Option Nat :=
  if (s.link (linkKind kind) src).state = .unconfigured then none
  else if kind = 1 then (if pos < (s.jesd src).m then some (s.jesd src).fs else none)
  else if kind = 2 then (if pos < (s.bglIn src).m then some (s.bglIn src).fs else none)
  else if kind = 3 then
    (if pos < 32 ∧ (s.bglIn src).auxMask.getLsbD pos then some ((s.bglIn src).auxFs.getD pos 0) else none)
  else if pos / 16 < (s.scp src).lines ∧ pos % 16 < (s.scp src).slots then some (s.scp src).fs
  else none

/-- Width of the container that a word arrives in: 16 bits for wideband, 32 for auxiliary sources (R175). -/
def containerBits (kind : Nat) : Nat := if wideKind kind then 16 else 32

/-- The n-bit sample code of a container, left-justified in it. -/
def sampleCode (kind n word : Nat) : Nat := word % 2 ^ containerBits kind / 2 ^ (containerBits kind - n)

/-- The control bits of a container, which follow the sample. -/
def controlBits (kind n cs word : Nat) : Nat := word / 2 ^ (containerBits kind - n - cs) % 2 ^ cs

/-- Nominal instant t_k in 2^-16 ns (R163). -/
def Channel.instant (c : Channel) (k : Int) : Rat := ((c.epoch * unitsPerSec : Nat) : Rat) + (k : Rat) * unitsPerSec / (c.fs : Rat)

/-- The smallest k with t_k at or after a time (R189). -/
def Channel.indexAt (c : Channel) (t : Rat) : Int :=
  ceilR ((t - ((c.epoch * unitsPerSec : Nat) : Rat)) * (c.fs : Rat) / (unitsPerSec : Rat))

/-- The sample bits of a channel. -/
def State.chanBits (s : State) (c : Nat) : Nat × Nat := s.srcBits (s.chan c).kind (s.chan c).source

end Sys2Proof.Machine
end

