-- ==== Sys2Proof/Machine/Pipes.lean ====
section
/-! DEFINITION. Pipes (07_channel_pipe, 08_palettes): output grid and time-stamps, the ends of swaps, starting, stopping
and restarting a pipe, and the taking of an input word. -/

namespace Sys2Proof.Machine

/-! ## Output grid and stamps (R196, R203, R235-R237) -/

/-- First-stage index ⌊n R_out / D_1⌋ of output n. -/
def newestFirst (gs : List Stage) (n : Int) : Int := floorR ((n : Rat) * ratioOut gs / (firstD gs : Rat))

/-- The quantised delay of the update point that governs first-stage output n1: the latest at or before it, else the
first. -/
def govern : List (Int × Nat) → Int → Nat
  | [], _ => 0
  | [x], _ => x.2
  | x :: xs, n => if x.1 ≤ n then x.2 else govern xs n

/-- n1* of R236. -/
def stampIndex (f : Profile) (n : Int) : Int :=
  floorR (((n : Rat) * ratioOut f.stages - (f.span - ((firstT f.stages : Rat) - 1)) / 2) / (firstD f.stages : Rat))

/-- The quantised delay q_u that output n's stamp takes under a profile. -/
def Pipe.stampQ (pp : Pipe) (f : Profile) (n : Int) : Nat := govern pp.updates (stampIndex f n)

/-- Grid instant of output n, in 2^-16 ns. -/
def gridAt (c : Channel) (gs : List Stage) (n : Int) : Rat :=
  ((c.epoch * unitsPerSec : Nat) : Rat) + (n : Rat) * ratioOut gs * unitsPerSec / (c.fs : Rat)

/-- T_n under a profile (R236), in 2^-16 ns. -/
def pipeStamp (c : Channel) (pp : Pipe) (f : Profile) (n : Int) : Int :=
  rheR (gridAt c f.stages n - f.gd * unitsPerSec / (c.fs : Rat)
    - (pp.stampQ f n : Rat) * unitsPerSec / ((1024 * c.fs : Nat) : Rat) + (c.cal : Rat))

/-- The model-delay field (R237). -/
def modelField (c : Channel) (q : Nat) : Int :=
  clampI (-2147483648) 2147483647 (rheR ((q : Rat) * unitsPerSec / ((1024 * c.fs : Nat) : Rat) - (c.cal : Rat)))

def State.stamp (s : State) (p : Nat) (f : Profile) (n : Int) : Int := pipeStamp (s.chan (s.pipe p).channel) (s.pipe p) f n

/-- U_start of R235; 0 before the first update point. -/
def State.uStart (s : State) (p : Nat) : Nat :=
  let pp := s.pipe p
  if pp.updates.isEmpty then 0
  else (s.profA p).unsettled + (ceilR ((pp.d0 : Rat) / ratioOut (s.profA p).stages)).toNat

/-- μ of R243, in ns. -/
def State.margin (s : State) (p : Nat) : Rat :=
  let c := (s.pipe p).channel
  (s.profA p).gammaNs (s.chan c).fs + (s.rho c).1 - ((s.chan c).cal : Rat) / 65536

/-- Output n as the packetiser takes it, its marks unset. -/
def State.wordOf (s : State) (p : Nat) (n : Int) : OutWord :=
  let pp := s.pipe p
  let c := s.chan pp.channel
  let f := s.profA p
  { index := n, value := (0, 0), time := pipeStamp c pp f n, model := modelField c (pp.stampQ f n), cal := c.cal
    epoch := pp.epoch, nominal := f.nominal, saturated := false, unsettled := false, fade := false }

/-! ## The end of a swap (Tables PAL-6, PAL-11) -/

/-- Swap completion payload (Table PAL-11): 0 LANDED, 1 NOT_LANDED, 2 ABANDONED. -/
def swapPayload (pp : Pipe) (w : Swap) (result : Nat) : Bytes :=
  let l := if result = 1 then 0 else w.landing.getD 0
  le 1 result ++ le 1 w.mode ++ le 1 pp.epoch.toNat ++ zeros 1 ++ le 2 pp.profileA ++ le 2 w.unsettled
    ++ leI 8 l ++ (if w.landing.isSome then ts96I w.stampOld ++ ts96I w.stampNew else zeros 24)
    ++ leI 8 (if w.mode = 2 ∧ w.landing.isSome then w.landing.getD 0 + (2 ^ w.k : Nat) - 1 else 0)

def isSwapOf (p : Nat) (e : CalEntry) : Bool := match e.action with
  | .swap q => q == p
  | _ => false

/-- A swap completes or ends: bank B is LOADED, its computation stops, and the completion notice is owed. The pending
calendar entry of an unfired swap is removed; its notice carries the fire record of a cancelled entry (log entry 39). -/
def endSwap (p result : Nat) (s : State) : State :=
  let pp := s.pipe p
  match pp.swap with
  | none => s
  | some w =>
    let pay := swapPayload pp w result
    let s := s.setPipe p { pp with
      swap := none, bank := .loaded, histB := [], bRun := 0, fadeDone := 0, lastLanding := w.landing.getD pp.lastLanding }
    match w.job with
    | none => s
    | some j => match w.fire with
      | some f => complete j 0 0 (fireRecord f ++ pay) s
      | none =>
        if w.ts.isSome then
          let s := { s with cal := { s.cal with entries := s.cal.entries.filter fun e => !isSwapOf p e } }
          complete j 0 0 (fireRecord ⟨0, s.now, 2, 2, s.chipCode, some j, []⟩ ++ pay) s
        else complete j 0 0 pay s

/-- A swap that its pipe's end or restart overtakes (Table PAL-6). -/
def dropSwap (p : Nat) (s : State) : State := endSwap p (if (s.pipe p).bank = .fading then 2 else 1) s

/-! ## Starting (R223, R224, Table PIPE-5) -/

/-- The engine's unit of every pipe is not in reset. -/
def State.pipesRun (s : State) : Bool := !s.inReset 6 0

/-- A RUNNING pipe begins with its first input word: filter state, delay line and DC estimate are initialised and the
first output is fixed. -/
def beginPipe (p : Nat) (s : State) : State :=
  let pp := s.pipe p
  let c := s.chan pp.channel
  let gs := (s.profA p).stages
  let k0 := max (c.indexAt (pp.startAt : Rat)) c.kFirst
  let n0 := ceilR ((k0 : Rat) / ratioOut gs)
  let s := s.setPipe p { pp with
    waiting := false, restart := false, startK := k0, nFirst := n0, nNext := n0, line := [], lineNext := k0
    hist := freshHist gs n0, histB := if pp.bank = .preroll then freshHist (s.profB p).stages n0 else [], bRun := 0
    updates := [], d := 0, phi := 0, d0 := 0
    seg := none, lastM := 0, lastEval := 0, orPending := [], orLeft := 0, marks := [], changes := [], bad := []
    satSince := false }
  pipeEvent (if pp.restart then 4 else 0) p n0 s

/-- A pipe that awaits its channel begins once the channel delivers and the engine runs. -/
def tryBegin (p : Nat) (s : State) : State :=
  let pp := s.pipe p
  let c := s.chan pp.channel
  if pp.state = .running ∧ pp.waiting ∧ s.pipesRun ∧ (c.state = .running ∨ c.state = .lost) then beginPipe p s else s

/-- A start at time T acts: the pipe is RUNNING with the estimate of its preset register (R202), and its stream is ACTIVE. -/
def startPipe (p : Nat) (t : T16) (s : State) : State :=
  let s := s.setPipe p { s.pipe p with
    state := .running, startAt := t, waiting := true, restart := false, nLast := none, epoch := 0, orWords := 0
    dcM := (s.pipe p).dcPreset, updates := [], lastM := 0, lastEval := 0 }
  tryBegin p (activateStream p s)

/-! ## Stopping (R223, R346) -/

/-- The last output of the stop has been produced: a swap still under way ends, and the stream closes with
END_OF_STREAM. -/
def finishPipe (p : Nat) (s : State) : State :=
  let s := closePacket p (dropSwap p s)
  let s := if (s.stream p).live then appendEos p (s.wordOf p (s.pipe p).nNext) s else s
  s.setPipe p { s.pipe p with nLast := none, waiting := false }

def finishIfDone (p : Nat) (s : State) : State :=
  let pp := s.pipe p
  match pp.nLast with
  | some l => if l < pp.nNext then finishPipe p s else s
  | none => s

/-- A stop at time T: DRAINING up to the last output whose grid instant is earlier than T; capture windows see the
member stop (R290). A swap ends with it (Table PAL-6); one whose entry has fired on the same tick may still land (R224, Table
PAL-7, log entry 40). -/
def stopPipe (p : Nat) (t : T16) (s : State) : State :=
  let pp := s.pipe p
  if pp.state ≠ .running then s
  else
    let c := s.chan pp.channel
    let fout : Rat := (c.fs : Rat) / ratioOut (s.profA p).stages
    let last := ceilR (((t : Rat) - ((c.epoch * unitsPerSec : Nat) : Rat)) * fout / (unitsPerSec : Rat)) - 1
    let last := if pp.waiting then pp.nNext - 1 else max last (pp.nNext - 1)
    let s := memberStopped 2 p (s.setPipe p { pp with state := .draining, nLast := some last })
    let s := s.setStream p { s.stream p with state := if (s.stream p).state = .active then .closing else (s.stream p).state }
    let s := match pp.swap with
      | some w => if w.fire.any (fun f => f.time == s.now) then s else dropSwap p s
      | none => s
    finishIfDone p s

/-- The pipe engine enters a block reset (Table PIPE-5, R332): the open packets are rewound, a DRAINING pipe ends, a
RUNNING one waits to restart (log entry 41). -/
def haltPipe (p : Nat) (s : State) : State :=
  let pp := s.pipe p
  if pp.state = .running ∧ !pp.waiting then (rewindStream p s).setPipe p { pp with waiting := true, restart := true }
  else if pp.state = .draining ∧ pp.nLast.isSome then finishPipe p (rewindStream p s)
  else s

/-- The pipe engine has left its block reset: a RUNNING pipe restarts on bank A, its swap ends (Table PAL-6), and the words sampled
from now on are consumed. One that has not begun yet tells its restart at once. -/
def resumePipe (p : Nat) (s : State) : State :=
  if (s.pipe p).state = .running ∧ (s.pipe p).waiting then
    let s := dropSwap p s
    let pp := s.pipe p
    let s := s.setPipe p { pp with dcM := pp.dcPreset, startAt := if pp.restart then max pp.startAt s.now else pp.startAt }
    tryBegin p (if pp.restart then s else pipeEvent 4 p 0 s)
  else s

/-! ## Retunes (R213) -/

/-- Retunes in acting order: by time, and those of one time as they were made (R214). -/
def placeRetune (x : T16 × W48 × Option W32) : List (T16 × W48 × Option W32) → List (T16 × W48 × Option W32)
  | [] => [x]
  | y :: ys => if x.1 < y.1 then x :: y :: ys else y :: placeRetune x ys

/-- A retune of time T is made. -/
def retunePipe (p : Nat) (t : T16) (w : W48) (ph : Option W32) (s : State) : State :=
  let pp := s.pipe p
  let gone := fun (y : T16 × W48 × Option W32) => decide (t ≤ y.1) && decide (nsOf y.1 ≤ nsOf s.now)
  let phase := ph.or ((pp.retunes.filter gone).filterMap (·.2.2)).getLast?
  if pp.state = .free ∨ !pp.mixer then s
  else s.setPipe p { pp with retunes := placeRetune (t, w, phase) (pp.retunes.filter fun y => !gone y) }

/-- The mixer word and phase at an instant. -/
def Pipe.wordAt (pp : Pipe) (t : Rat) : W48 × W32 :=
  pp.retunes.foldl (fun wp x => if (x.1 : Rat) ≤ t then (x.2.1, x.2.2.getD wp.2) else wp) (pp.w, pp.p)

/-- Retunes reached at an instant become the pipe's word and phase. -/
def Pipe.reach (pp : Pipe) (t : Rat) : Pipe :=
  let wp := pp.wordAt t
  { pp with w := wp.1, p := wp.2, retunes := pp.retunes.filter fun x => decide (t < (x.1 : Rat)) }

/-! ## Taking an input word (R197-R202, R205) -/

/-- A stage sample that saturated: bit of the stage mask, number of samples (R219). -/
def Pipe.noteSat (pp : Pipe) (bit n : Nat) : Pipe :=
  if n = 0 then pp else
  { pp with
    satCount := BitVec.ofNat 32 (min 0xFFFFFFFF (pp.satCount.toNat + n))
    satMask := pp.satMask ||| BitVec.ofNat 10 (2 ^ bit), satSince := true }

/-- Automatic varnish at channel index k: a window of the mask is FILLING and k lies at or after its trigger sample, the channel's
sample at its trigger frame (R201, R278). -/
def State.autoVarnish (s : State) (p : Nat) (k : Int) : Bool :=
  let pp := s.pipe p
  let c := s.chan pp.channel
  pp.dcAuto && (below 16 fun w => pp.dcWindows.getLsbD w).any fun w =>
    (s.win w).state == .filling && decide (c.indexAt ((s.win w).frameTime (s.win w).nTrig) ≤ k)

/-- The DC block takes a sample: the pipe with its new estimate, the output. -/
def Pipe.dcBlock (pp : Pipe) (varnished : Bool) (v : Int) : Pipe × Int :=
  if pp.dcK = 0 then (pp, v)
  else
    let m := if varnished then pp.dcM else dcUpdate pp.dcK pp.dcM v
    let y := dcOut m v
    ({ pp with dcM := m }.noteSat 1 (b2n y.2), y.1)

/-- A word as the aligner delivers it to a channel's pipes: index, sample, control bits, whether it is a zero word. -/
structure InWord where
  index : Int
  value : Int
  control : Nat
  zero : Bool
  deriving DecidableEq, Repr

/-- One pipe takes one input word: input format, DC block, early mix, delay line. -/
def pipeWord (bits : Nat) (x : InWord) (p : Nat) (s : State) : State :=
  let pp := s.pipe p
  if (pp.state ≠ .running ∧ pp.state ≠ .draining) ∨ pp.waiting ∨ x.index < pp.lineNext ∨ !s.pipesRun then s
  else
    let c := s.chan pp.channel
    let v := pathValue bits pp.align x.value
    let tooBig := !x.zero && decide (x.control &&& pp.orMask ≠ 0)
    let pp1 := { pp with orPending := if tooBig then pp.orPending ++ [x.index] else pp.orPending }.noteSat 0 (b2n v.2)
    let (pp2, y) := pp1.dcBlock (pp.dcManual || s.autoVarnish p x.index) v.1
    let t := c.instant x.index
    let hits := pp2.retunes.filter fun r => decide ((r.1 : Rat) ≤ t)
    let early := pp2.mixer && pp2.early
    let pp3 := if early then pp2.reach t else pp2
    let m := if early then mixSample pp3.w.toNat pp3.p.toNat x.index y else ((y, 0), false)
    let gap := List.replicate (x.index - pp3.lineNext).toNat ((0, 0) : Smp)
    let pp4 := { pp3 with
      line := m.1 :: (gap ++ pp3.line), lineNext := x.index + 1
      bad := if x.zero then x.index :: pp3.bad else pp3.bad
      changes := if early && !hits.isEmpty then pp3.changes ++ [x.index] else pp3.changes }.noteSat 2 (b2n m.2)
    let s := s.setPipe p pp4
    if early && !hits.isEmpty then
      memberEvent 2 p 5 0 (ceilR ((x.index : Rat) / ratioOut (s.profA p).stages)) pp4.w.toNat s
    else s

end Sys2Proof.Machine
end

