-- ==== Sys2Proof/Machine/Delays.lean ====
section
/-! DEFINITION. Delays (07_channel_pipe, R203-R210): update points, delay-model segments, and their opcodes. -/

namespace Sys2Proof.Machine

/-! ## The delay model (R207, R209) -/

/-- The end of a segment's validity. -/
def Segment.stop (g : Segment) : T16 := g.start + g.lenUs * 65536000

/-- M(t) of a segment in 2^-32 ns, held at its end, before the limit of R209. -/
def Segment.model (g : Segment) (t : Rat) : Int :=
  let u : Rat := (min t (g.stop : Rat) - (g.start : Rat)) / (unitsPerSec : Rat)
  rheR ((g.c0 : Rat) + (g.c1 : Rat) * u / 256 + (g.c2 : Rat) * u ^ 2 / 65536 + (g.c3 : Rat) * u ^ 3 / 16777216)

/-- The limit of R209: ±(2^31 - 1) x 2^-16 ns. -/
def modelMax : Int := 2147483647 * 65536

/-- The latest of some segments. -/
def latest : List Segment → Option Segment
  | [] => none
  | g :: gs => match latest gs with
    | none => some g
    | some h => if h.start < g.start then some g else some h

/-- The segment active on a pipe from an update point with evaluation time t on (R209): the latest released or activated
segment that has started, or the one active before; none once it has been flushed. -/
def activeSegment (c : Channel) (held : Option Segment) (t : Rat) : Option Segment :=
  let mine := match held with
    | some g => if c.activated.any (fun h => h.start == g.start) then [g] else []
    | none => []
  latest (mine ++ (c.activated ++ c.segs.filter (·.released)).filter fun g => decide ((g.start : Rat) ≤ t))

/-- A segment that becomes active leaves the queue. -/
def activate (c : Channel) (g : Segment) : Channel :=
  if c.activated.any (fun h => h.start == g.start) then c
  else { c with segs := c.segs.filter (fun h => h.start ≠ g.start), activated := g :: c.activated }

/-! ## Update points (R203, R204) -/

/-- Evaluation time of a first-stage output. -/
def evalTime (c : Channel) (gs : List Stage) (n1 : Int) : Rat := c.instant (n1 * (firstD gs : Int))

/-- The next update point of a pipe. The first is the latest one at or before the first-stage output that the pipe's
first output needs (log entry 42). -/
def nextPoint (pp : Pipe) (gs : List Stage) : Int :=
  match pp.updates with
  | [] => let n1 := newestFirst gs pp.nFirst; n1 - n1 % (2 ^ pp.upd : Nat)
  | u :: _ => u.1 + (2 ^ pp.upd : Nat)

/-- A pipe that has begun and has outputs to produce. -/
def State.producing (s : State) (p : Nat) : Bool :=
  let pp := s.pipe p
  (pp.state == .running || (pp.state == .draining && pp.nLast.isSome)) && !pp.waiting && s.pipesRun

/-- The next update point is due: it is the first, its evaluation time has come, or the next output needs it and its
input is there. -/
def State.pointDue (s : State) (p : Nat) : Bool :=
  let pp := s.pipe p
  let c := s.chan pp.channel
  let gs := (s.profA p).stages
  let v := nextPoint pp gs
  let n1 := newestFirst gs pp.nNext
  s.producing p && (pp.updates.isEmpty || decide (evalTime c gs v ≤ (s.now : Rat))
    || (decide (v ≤ n1) && decide (n1 * (firstD gs : Int) - (pp.d : Int) < pp.lineNext)))

/-- τ in input samples times 1,024, rounded (R204); m in 2^-32 ns. -/
def quantise (cal : Nat) (m : Int) (fs : Nat) : Int :=
  rheR (((cal * 65536 : Nat) : Rat) + (m : Rat) |> fun tau => tau * (fs : Rat) * 1024 / ((1000000000 * 4294967296 : Nat) : Rat))

/-- DELAY_RANGE is set; its first setting after a read is told. -/
def setDelayRange (p : Nat) (s : State) : State :=
  let pp := s.pipe p
  let s := s.setPipe p { pp with delayRange := true, rangeTold := true }
  if pp.rangeTold then s else pipeEvent 2 p 0 s

/-- What an update point finds: the active segment, M (limited), q (limited), whether a limit acted. -/
def evaluate (c : Channel) (pp : Pipe) (t : Rat) : Option Segment × Int × Nat × Bool :=
  let g := if pp.track then activeSegment c pp.seg t else none
  let m := match g with
    | some g => g.model t
    | none => 0
  let m' := clampI (-modelMax) modelMax m
  let q := quantise c.cal m' c.fs
  let q' := clampI 0 ((pp.dMax * 1024 + 1023 : Nat) : Int) q
  (g, m', q'.toNat, decide (m ≠ m') || decide (q ≠ q'))

/-- DELAY_UPDATE_POINT. -/
def delayUpdatePoint (p : Nat) (s : State) : State :=
  if !s.pointDue p then s
  else
    let pp := s.pipe p
    let c := s.chan pp.channel
    let f := s.profA p
    let gs := f.stages
    let v := nextPoint pp gs
    let t := evalTime c gs v
    let (g, m, q, range) := evaluate c pp t
    let s := match g with
      | some g => s.setChan pp.channel (activate c g)
      | none => s
    let jump := match pp.updates with
      | [] => false
      | u :: _ => decide (1024 < ((q : Int) - (u.2 : Int)).natAbs)
    let first := pp.updates.isEmpty
    let start := f.unsettled + (ceilR (((q / 1024 : Nat) : Rat) / ratioOut gs)).toNat
    let marks :=
      if first then [(pp.nFirst, start)]
      else if jump then [(ceilR ((v : Rat) * (firstD gs : Rat) / ratioOut gs), f.unsettled)] else []
    let s := s.setPipe p { pp with
      updates := (v, q) :: pp.updates, d := q / 1024, phi := q % 1024, d0 := if first then q / 1024 else pp.d0
      seg := g, lastM := m, lastEval := (rheR t).toNat, marks := pp.marks ++ marks }
    if range then setDelayRange p s else s

/-! ## Expiry (R209) -/

/-- The latest evaluation time of the channel's pipes. -/
def State.lastEval (s : State) (c : Nat) : T16 := (s.chanPipes c).foldl (fun t p => max t (s.pipe p).lastEval) 0

/-- MODEL_EXPIRY: the active segment's length has run out, and no queued segment has a start that the evaluation time
has reached. -/
def modelExpiry (n : Nat) (s : State) : State :=
  let c := s.chan n
  let t := s.lastEval n
  match c.activated with
  | [] => s
  | g :: _ =>
    if c.expiredSeg = some g.start ∨ t ≤ g.stop ∨ c.segs.any (fun h => decide (h.start ≤ t)) then s
    else pipeEvent 3 n 0 (s.setChan n { c with expired := true, expiredSeg := some g.start })

/-- The class-4 entry of a segment fires (R209): it is released. -/
def releaseSegment (n : Nat) (start : T16) (s : State) : State :=
  let c := s.chan n
  s.setChan n { c with segs := c.segs.map fun g => if g.start = start then { g with released := true } else g }

/-- A segment whose entry is discarded never becomes active. -/
def dropSegment (n : Nat) (start : T16) (s : State) : State :=
  let c := s.chan n
  s.setChan n { c with segs := c.segs.filter fun g => g.start ≠ start || g.released }

/-! ## Opcodes -/

/-- Segments queued, the active one counted. -/
def Channel.queueDepth (c : Channel) : Nat := c.segs.length + b2n (!c.activated.isEmpty)

/-- The start of the last segment queued or active. -/
def Channel.lastStart (c : Channel) : Option T16 := (latest (c.segs ++ c.activated)).map (·.start)

def opDelaySegment : Op :=
  { code := 0x0507
    len := exactly 0x38
    ledger := true
    fields := fun r s =>
      let c := s.chan (r.u16 0)
      [fieldLe 0 (r.u16 0) 511] ++ reserved r 2 2 ++
      [timeField r 4,
       (match c.lastStart with
         | some t => decide (t < r.ts96 4)
         | none => true, ansBadField 4),
       fieldIn 0x10 (r.u32 0x10) 1 10000000] ++ reserved r 0x14 4
    state := fun r s =>
      [(decide ((s.chan (r.u16 0)).state ≠ .unbound), ansState s),
       (shortfall s (r.ts96 4) == 0, ansTooLate (shortfall s (r.ts96 4)))]
    hold := fun r s => [(decide ((s.chan (r.u16 0)).queueDepth < 16), ansBusy)]
    effect := fun r s =>
      let n := r.u16 0
      let c := s.chan n
      let c' := { c with segs := c.segs ++ [{ start := r.ts96 4, lenUs := r.u32 0x10, c0 := r.i64 0x18, c1 := r.i64 0x20
                                              c2 := r.i64 0x28, c3 := r.i64 0x30 }] }
      (insertEntry { time := r.ts96 4, cls := 4, ins := 0, action := .segment n (r.ts96 4) } (s.setChan n c'),
       ansDone (le 1 c'.queueDepth ++ zeros 3)) }

def isSegmentOf (c : Nat) (start : T16) (e : CalEntry) : Bool := match e.action with
  | .segment n t => n == c && t == start
  | _ => false

def opDelayFlush : Op :=
  { code := 0x0508
    len := exactly 4
    ledger := true
    fields := fun r _ => [fieldLe 0 (r.u16 0) 511, flagBits r 2 1] ++ reserved r 3 1
    effect := fun r s =>
      let n := r.u16 0
      let c := s.chan n
      let s' := s.setChan n { c with segs := [], activated := if bit (r.u8 2) 0 then [] else c.activated }
      ({ s' with cal := { s'.cal with entries := s'.cal.entries.filter fun e => !c.segs.any fun g => isSegmentOf n g.start e } },
       ansDone (le 1 c.segs.length ++ zeros 3)) }

/-- The channel's lowest-numbered running pipe, if it has had an update point. -/
def State.evalPipe (s : State) (c : Nat) : Option Pipe :=
  (((s.chanPipes c).map s.pipe).find? fun pp => pp.state == .running).filter fun pp => !pp.updates.isEmpty

def opDelayStatus : Op :=
  { code := 0x0509
    len := exactly 4
    reads := fun _ _ => true
    fields := fun r _ => [fieldLe 0 (r.u16 0) 511] ++ reserved r 2 2
    effect := fun r s =>
      let n := r.u16 0
      let c := s.chan n
      let g := c.activated.head?
      let p := s.evalPipe n
      (s.setChan n { c with expired := false },
       ansDone (le 2 n ++ le 1 c.segs.length ++ le 1 (mask [g.isSome, c.expired])
         ++ (match g with
             | some g => ts96 g.start ++ le 4 g.lenUs
             | none => zeros 16)
         ++ zeros 4
         ++ (match p with
             | some p => leI 8 p.lastM ++ ts96 p.lastEval
             | none => zeros 20)
         ++ zeros 4)) }

end Sys2Proof.Machine
end

