-- ==== Sys2Proof/Machine/Outputs.lean ====
section
/-! DEFINITION. PIPE_OUTPUT_SAMPLE: the production of one output with its stamp and marks (R199, R216-R221, R236-R249). -/

namespace Sys2Proof.Machine

/-! ## Where a swap lands (R242-R245) -/

/-- Immediate and equinox landing at output n: the banks are exchanged, the cascade histories cleared, the packet closed
(R244). -/
def landSwap (p : Nat) (w : Swap) (n : Int) (s : State) : State :=
  let pp := s.pipe p
  let old := s.stamp p (s.profA p) n
  let s := closePacket p s
  let s := s.setPipe p { pp with profileA := pp.profileB, profileB := pp.profileA, epoch := pp.epoch + 1 }
  let f := s.profA p
  let s := s.setPipe p { s.pipe p with
    hist := freshHist f.stages n, marks := pp.marks ++ [(n, f.unsettled)]
    swap := some { w with landing := some n, stampOld := old, stampNew := s.stamp p f n, unsettled := f.unsettled } }
  endSwap p 0 (memberEvent 2 p 3 (pp.epoch + 1).toNat n (f.gamma (s.fin p)) s)

/-- A fade lands at output n: blending starts (R245). -/
def landFade (p : Nat) (w : Swap) (n : Int) (s : State) : State :=
  let pp := s.pipe p
  let u := (s.profB p).unsettled - pp.bRun
  let s := memberEvent 2 p 3 (pp.epoch + 1).toNat n ((s.profB p).gamma (s.fin p)) s
  (closePacket p s).setPipe p { pp with
    bank := .fading, epoch := pp.epoch + 1, marks := if u = 0 then pp.marks else pp.marks ++ [(n, u)], fadeDone := 0
    swap := some { w with landing := some n, stampOld := s.stamp p (s.profA p) n, stampNew := s.stamp p (s.profB p) n
                          unsettled := u } }

/-- Before output n is computed, a swap that is due lands on it. -/
def landCheck (p : Nat) (n : Int) (s : State) : State :=
  let pp := s.pipe p
  match pp.swap with
  | none => s
  | some w =>
    let due := match w.ts with
      | some t => w.armed && decide ((t : Int) ≤ s.stamp p (s.profA p) n)
      | none => decide (w.mode = 0) || decide ((s.profB p).unsettled ≤ pp.bRun)
    if !due then s
    else if pp.bank = .pending then landSwap p w n s
    else if pp.bank = .preroll then landFade p w n s
    else s

/-- After fade sample i the fade may be complete: the banks exchange with their histories kept (R245). -/
def fadeStep (p : Nat) (n : Int) (s : State) : State :=
  let pp := s.pipe p
  match pp.swap with
  | some w =>
    if pp.bank = .fading then
      let done := (n - w.landing.getD n).toNat + 1
      let s := s.setPipe p { pp with fadeDone := done }
      if 2 ^ w.k ≤ done then
        endSwap p 0 (s.setPipe p { s.pipe p with profileA := pp.profileB, profileB := pp.profileA, hist := pp.histB })
      else s
    else s
  | none => s

/-! ## Computing -/

/-- First-stage output n1 of a profile on a pipe, late mix included. -/
def Pipe.firstStage (pp : Pipe) (c : Channel) (f : Profile) (g : Stage) (n1 : Int) : Smp × Bool × Bool :=
  let x := firstOut f g pp.line pp.lineNext n1 (govern pp.updates n1)
  if pp.mixer && !pp.early then
    let i := n1 * (g.d : Int)
    let wp := pp.wordAt (c.instant i)
    let m := mixSample wp.1.toNat wp.2.toNat i x.1.1
    (m.1, x.2, m.2)
  else (x.1, x.2, false)

/-- Counts the saturations of a bank's run. -/
def Pipe.noteSats (pp : Pipe) (k : Sats) : Pipe :=
  (k.stages.zipIdx).foldl (fun q x => q.noteSat (3 + x.2) x.1) (pp.noteSat 2 k.mixer)

/-- The late-mix retunes that act on first-stage output n1 or have to act before it: those that the mixer has taken leave the
list (`passLate`). -/
def Pipe.lateRetunes (pp : Pipe) (c : Channel) (gs : List Stage) (n1 : Int) : List (T16 × W48 × Option W32) :=
  if pp.mixer && !pp.early then pp.retunes.filter fun x => decide ((x.1 : Rat) ≤ evalTime c gs n1) else []

/-- Happenings first met at output n (R248): input changes and late retunes become marks of U outputs; over-range words
that the first stage has consumed start the over-range marks (R199). -/
def Pipe.meet (pp : Pipe) (c : Channel) (f : Profile) (n : Int) : Pipe :=
  let gs := f.stages
  let n1 := newestFirst gs n
  let newest := n1 * (firstD gs : Int) - ((govern pp.updates n1 / 1024 : Nat) : Int)
  let ch := pp.changes.filter fun e => decide (e ≤ newest)
  let late := pp.lateRetunes c gs n1
  let big := pp.orPending.filter fun e => decide (e ≤ newest)
  { pp with
    changes := pp.changes.filter fun e => decide (newest < e)
    marks := pp.marks ++ ch.map (fun _ => (n, f.unsettled)) ++ late.map fun _ => (n, f.unsettled)
    orPending := pp.orPending.filter fun e => decide (newest < e)
    orWords := pp.orWords + BitVec.ofNat 32 big.length
    orLeft := if big.isEmpty then pp.orLeft else f.unsettled }

/-- Whether output n's computation includes a substituted word (R190). -/
def Pipe.usesZero (pp : Pipe) (gs : List Stage) (n : Int) : Bool :=
  let lo := oldestFirst gs n
  let hi := newestFirst gs n
  let d := fun (i : Int) => ((govern pp.updates i / 1024 : Nat) : Int)
  let low := lo * (firstD gs : Int) - d lo - ((firstT gs : Int) - 1)
  pp.bad.any fun k => decide (low ≤ k) && decide (k ≤ hi * (firstD gs : Int) - d hi)

/-- Output n can be computed: its update points are evaluated and its newest input is there. -/
def State.outputReady (s : State) (p : Nat) : Bool :=
  let pp := s.pipe p
  let gs := (s.profA p).stages
  let n1 := newestFirst gs pp.nNext
  s.producing p && !pp.updates.isEmpty && decide (n1 < nextPoint pp gs)
    && decide (n1 * (firstD gs : Int) - ((govern pp.updates n1 / 1024 : Nat) : Int) < pp.lineNext)

/-- What the stages make of output n: the pipe after, the last-stage value of both banks blended, whether the output is
a fade sample. -/
def Pipe.compute (pp : Pipe) (c : Channel) (fa fb : Profile) (n : Int) : Pipe × Smp × Bool :=
  let a := runBank fa (pp.firstStage c fa) pp.hist n
  let pp1 := { pp with hist := a.1 }.noteSats a.2.2
  if pp.bank = .preroll ∨ pp.bank = .fading then
    let b := runBank fb (pp.firstStage c fb) pp.histB n
    let pp2 := { pp1 with histB := b.1, bRun := pp1.bRun + 1 }.noteSats b.2.2
    match pp.bank, pp.swap with
    | .fading, some w => (pp2, fadeSmp w.k (n - w.landing.getD n).toNat a.2.1 b.2.1, true)
    | _, _ => (pp2, a.2.1, false)
  else (pp1, a.2.1, false)

/-- A pending requantiser setting acts from the first sample of the next packet (R221). -/
def Pipe.takeRequant (pp : Pipe) (packetOpen : Bool) : Pipe :=
  match pp.rqNext with
  | some x => if packetOpen then pp else { pp with rqShift := x.1, rqTrunc := x.2.1, rqSym := x.2.2, rqNext := none }
  | none => pp

/-- The output goes to the packetiser, the FILTERED tap and the trigger block. -/
def deliver (p : Nat) (w : OutWord) (grid : Rat) (s : State) : State :=
  let pp := s.pipe p
  let note : MemberNote := { member := p, channel := pp.channel, cal := w.cal
                             gamma := (s.profA p).gamma (s.chan pp.channel).fs, model := w.model, epoch := w.epoch
                             nominal := w.nominal }
  let s := takeOutput p w s
  let s := feedWindows 2 p { index := w.index, value := w.value, marked := w.unsettled, note := note } s
  forEach (s.cap.windows.map (·.1)) (fun n t =>
    levelWindow p n w.value (formatComplex pp.format) w.unsettled grid t) s

/-- The retunes of a late mixer that output n has passed take the place of its word. -/
def Pipe.passLate (pp : Pipe) (c : Channel) (gs : List Stage) (n : Int) : Pipe :=
  if pp.mixer && !pp.early then pp.reach (evalTime c gs (newestFirst gs n)) else pp

/-- RETUNE events of the capture record for late retunes met at output n. -/
def tellRetunes (p : Nat) (old : Pipe) (c : Channel) (gs : List Stage) (n : Int) (s : State) : State :=
  forEach (old.lateRetunes c gs (newestFirst gs n)) (fun x t => memberEvent 2 p 5 0 n x.2.1.toNat t) s

/-- Output n of a pipe, every check passed. -/
def produceOutput (p : Nat) (n : Int) (s : State) : State :=
  let pp := s.pipe p
  let c := s.chan pp.channel
  let fa := s.profA p
  let gs := fa.stages
  let s := tellRetunes p pp c gs n s
  let pp := (pp.meet c fa n).takeRequant (s.stream p).isOpen
  let (pp, v, fade) := pp.compute c fa (s.profB p) n
  let y := requant pp.rqShift pp.rqTrunc pp.rqSym pp.format v
  let pp := pp.noteSat 9 (b2n y.2)
  let tooBig := decide (0 < pp.orLeft)
  let unsettled := (pp.marks.any fun m => decide (m.1 ≤ n) && decide (n < m.1 + (m.2 : Int))) || pp.usesZero gs n
  let w : OutWord :=
    { index := n, value := y.1, time := pipeStamp c pp fa n, model := modelField c (pp.stampQ fa n), cal := c.cal
      epoch := pp.epoch, nominal := fa.nominal, saturated := pp.satSince || (tooBig && pp.orAsSat)
      unsettled := unsettled, fade := fade }
  let pp := { pp with
    nNext := n + 1, satSince := false, orLeft := pp.orLeft - 1
    marks := pp.marks.filter fun m => decide (n + 1 < m.1 + (m.2 : Int)) }.passLate c gs n
  let s := deliver p w (gridAt c gs n) (s.setPipe p pp)
  finishIfDone p (fadeStep p n s)

/-- PIPE_OUTPUT_SAMPLE. A swap that is due lands on the output first; the landing may change the bounds (R259). -/
def pipeOutputSample (p : Nat) (s : State) : State :=
  if !s.outputReady p then s
  else
    let n := (s.pipe p).nNext
    ledgerNotice s (produceOutput p n (landCheck p n s))

end Sys2Proof.Machine
end

