-- ==== Sys2Proof/Machine/PipeOps.lean ====
section
/-! DEFINITION. The pipe opcodes (Tables PIPE-6 to PIPE-9) but for the delay segments. -/

namespace Sys2Proof.Machine

/-! ## PIPE_CONFIG (R193, R195, R225, Table PIPE-7) -/

/-- A profile bound to a channel fits a bank-B profile: same D_1 and R_out, and R195 holds (R239). -/
def bankFits (fin : Nat) (a b : Profile) : Bool :=
  decide (firstD a.stages = firstD b.stages) && decide (ratioOut a.stages = ratioOut b.stages) && ratesOk fin b.stages

/-- The other pipes bound to a channel. -/
def State.otherPipes (s : State) (c p : Nat) : Nat := ((s.chanPipes c).filter (· ≠ p)).length

/-- A release looks at the reserved fields and flag bits alone (R6); what depends on a channel that is not bound is not judged, the
command being refused for its state (R9). -/
def pipeConfigChecks (r : Req) (s : State) : List Check :=
  let p := r.u16 0
  let ch := r.u16 2
  let c := s.chan ch
  let n := (s.chanBits ch).1
  let f := s.prof (r.u8 4)
  let fl := r.u8 5
  let mixer := bit fl 0
  let release := ch == 0xFFFF
  let free := release || c.state == .unbound
  [(release || (decide (ch ≤ 511) && decide (s.otherPipes ch p < 4)), ansBadField 2),
   (release || (decide (f.state = .valid) && (free || (ratesOk c.fs f.stages
      && (decide ((s.pipe p).bank = .empty) || bankFits c.fs f (s.profB p))))), ansBadField 4),
   (decide (fl < 16) && (release || mixer || !bit fl 1), ansBadField 5),
   (decide (r.u8 6 < 4), ansBadField 6),
   (release || decide (r.u8 7 ≤ 24 - n), ansBadField 7),
   (release || decide (r.u16 8 ≤ 32767), ansBadField 8),
   (release || (decide (4 ≤ r.u8 0xA) && decide (r.u8 0xA ≤ 8)), ansBadField 0xA),
   (release || (decide (formatBits (r.u8 0xB) ≠ 0) && (formatComplex (r.u8 0xB) == mixer)), ansBadField 0xB),
   (release || (decide (-8 ≤ r.i8 0xC) && decide (r.i8 0xC ≤ 23)), ansBadField 0xC),
   (decide (r.u8 0xD < 4), ansBadField 0xD),
   (release || r.u8 0xE == 0 || (decide (8 ≤ r.u8 0xE) && decide (r.u8 0xE ≤ 24)), ansBadField 0xE),
   (decide (r.u8 0xF < 2), ansBadField 0xF)] ++ reserved r 0x12 6 ++
  [(release || (decide (r.u64 0x18 < 2 ^ 48) && (mixer || r.u64 0x18 == 0)), ansBadField 0x18)] ++ reserved r 0x24 4

/-- What a pipe keeps through PIPE_CONFIG: the counters that only PIPE_STATUS clears (R204, R219). -/
def Pipe.kept (pp : Pipe) : Pipe :=
  { satCount := pp.satCount, satMask := pp.satMask, delayRange := pp.delayRange, rangeTold := pp.rangeTold }

def opPipeConfig : Op :=
  { code := 0x0501
    len := exactly 0x28
    ledger := true
    fields := fun r s => fieldLe 0 (r.u16 0) 1023 :: pipeConfigChecks r s
    state := fun r s =>
      [((s.pipe (r.u16 0)).state == .free || (s.pipe (r.u16 0)).state == .bound, ansState s),
       (r.u16 2 == 0xFFFF || decide ((s.chan (r.u16 2)).state ≠ .unbound), ansState s)]
    effect := fun r s =>
      let p := r.u16 0
      let pp := s.pipe p
      if r.u16 2 = 0xFFFF then (s.setPipe p pp.kept, ansDone [])
      else
        (s.setPipe p { pp.kept with
          state := .bound, channel := r.u16 2, profileA := r.u8 4, profileB := pp.profileB, bank := pp.bank
          mixer := bit (r.u8 5) 0, early := bit (r.u8 5) 1, track := bit (r.u8 5) 2, orAsSat := bit (r.u8 5) 3
          orMask := r.u8 6, align := r.u8 7, dMax := r.u16 8, upd := r.u8 0xA, format := r.u8 0xB, rqShift := r.i8 0xC
          rqTrunc := bit (r.u8 0xD) 0, rqSym := bit (r.u8 0xD) 1, dcK := r.u8 0xE, dcAuto := bit (r.u8 0xF) 0
          dcWindows := BitVec.ofNat 16 (r.u16 0x10), w := BitVec.ofNat 48 (r.u64 0x18), p := BitVec.ofNat 32 (r.u32 0x20) },
         ansDone []) }

/-! ## PIPE_START and PIPE_STOP (R223-R228, R360) -/

/-- The range of a request that names consecutive objects, of `total` objects. -/
def rangeFields (r : Req) (total : Nat) : List Check :=
  [fieldLe 0 (r.u16 0) (total - 1),
   (decide (1 ≤ r.u16 2) && decide (r.u16 2 ≤ total) && decide (r.u16 0 + r.u16 2 ≤ total), ansBadField 2)]

/-- The v2 layout's limit on the same range. -/
def rangeV2 (total : Nat) (r : Req) : List Check :=
  [fieldLe 0 (r.u16 0) (total - 1), (decide (r.u16 0 + r.u16 2 ≤ total), ansBadField 2)]

/-- The objects a range names. -/
def rangeOf (first count : Nat) : List Nat := (List.range count).map (first + ·)

/-- The checks of R360 and R326 on one stream of a start. -/
def State.streamStarts (s : State) (n : Nat) : Bool :=
  let t := s.stream n
  let d := s.dest t.entry
  let c := s.cstream n
  let groupOk := fun g named => named == 255 && !(s.groupPorts g).isEmpty
    || decide (named < 24) && decide ((s.port (24 * g + named)).state ≠ .unconfigured)
  decide (t.state ≠ .unconfigured) && (t.inA || t.inB) && decide (destEncap d ≠ 0)
    && (!t.inA || groupOk 0 t.portA) && (!t.inB || groupOk 1 t.portB)
    && decide (64 + s.worstPayload n + (if destEncap d = 2 then 28 else if destEncap d = 3 then 48 else 0) ≤ getU d 4 2)
    && (!c.enable || decide (320 ≤ min c.block t.perPacket * formatBits (s.pipe n).format))

def opPipeStart : Op :=
  { code := 0x0502
    len := exactly 4
    sched := .maybe
    v2 := some (rangeV2 256)
    ledger := true
    fields := fun r _ => rangeFields r 1024
    state := fun r s =>
      [((rangeOf (r.u16 0) (r.u16 2)).all fun p => (s.pipe p).state == .bound && s.streamStarts p, ansState s)]
    hold := fun r s =>
      [((rangeOf (r.u16 0) (r.u16 2)).all fun p => decide ((s.stream p).state ≠ .emptying), ansBusy)]
    effect := fun r s =>
      let ps := rangeOf (r.u16 0) (r.u16 2)
      let s := forEach ps placeStream s
      if r.sched then
        schedule 0x0502 6 (.pipeStart (r.u16 0) (r.u16 2)) r
          (forEach ps (fun p t => t.setPipe p { t.pipe p with state := .armed, startAt := r.at_ }) s)
      else (forEach ps (fun p t => startPipe p (s.now + us10) t) s, ansDone []) }

/-- A pipe that a stop may name (R228). -/
def stopsPipe (r : Req) (pp : Pipe) : Bool :=
  pp.state == .running || (r.sched && pp.state == .armed && decide (pp.startAt ≤ r.at_))

def opPipeStop : Op :=
  { code := 0x0503
    len := exactly 4
    sched := .maybe
    v2 := some (rangeV2 256)
    ledger := true
    fields := fun r _ => rangeFields r 1024
    state := fun r s => [((rangeOf (r.u16 0) (r.u16 2)).all fun p => stopsPipe r (s.pipe p), ansState s)]
    effect := fun r s =>
      if r.sched then schedule 0x0503 6 (.pipeStop (r.u16 0) (r.u16 2)) r s
      else (forEach (rangeOf (r.u16 0) (r.u16 2)) (fun p t => stopPipe p s.now t) s, ansDone []) }

/-! ## PIPE_STATUS (Table PIPE-8) -/

def pipeCode : PipeState → Nat
  | .free => 0
  | .bound => 1
  | .armed => 2
  | .running => 3
  | .draining => 4

/-- The DC block's estimate is held now (R201). -/
def State.varnished (s : State) (p : Nat) : Bool := (s.pipe p).dcManual || s.autoVarnish p (s.pipe p).lineNext

def pipeStatusPayload (s : State) (p : Nat) : Bytes :=
  let pp := s.pipe p
  let free := pp.state == .free
  le 2 p ++ le 1 (pipeCode pp.state)
    ++ le 1 (mask [pp.delayRange, s.varnished p, pp.dcManual, !free && (s.chan pp.channel).expired])
    ++ le 2 (if free then 0xFFFF else pp.channel) ++ le 2 pp.satMask.toNat ++ le 4 (if free then 0 else s.fout p)
    ++ le 4 pp.satCount.toNat ++ leI 8 pp.nFirst ++ leI 8 pp.nNext ++ le 2 pp.d ++ le 2 pp.phi ++ le 4 pp.orWords.toNat
    ++ leI 8 pp.dcM ++ le 8 pp.w.toNat ++ le 4 pp.p.toNat ++ zeros 4

def opPipeStatus : Op :=
  { code := 0x0504
    len := exactly 4
    v2 := some fun r => [fieldLe 0 (r.u16 0) 255]
    reads := fun _ _ => true
    fields := fun r _ => [fieldLe 0 (r.u16 0) 1023, flagBits r 2 1] ++ reserved r 3 1
    effect := fun r s =>
      let p := r.u16 0
      let pp := s.pipe p
      let read := { pp with rangeTold := false }
      (s.setPipe p (if bit (r.u8 2) 0 then { read with delayRange := false, satCount := 0, satMask := 0 } else read),
       ansDone (pipeStatusPayload s p)) }

/-! ## PIPE_RETUNE (R213) -/

def opPipeRetune : Op :=
  { code := 0x0505
    len := exactly 0x18
    sched := .maybe
    ledger := true
    fields := fun r _ => [fieldLe 0 (r.u16 0) 1023, flagBits r 2 1] ++ reserved r 3 5 ++
      [(decide (r.u64 8 < 2 ^ 48), ansBadField 8)] ++ reserved r 0x14 4
    state := fun r s =>
      let pp := s.pipe (r.u16 0)
      [(decide (pp.state ≠ .free) && pp.mixer, ansState s)]
    effect := fun r s =>
      let set := bit (r.u8 2) 0
      let w := BitVec.ofNat 48 (r.u64 8)
      let p := BitVec.ofNat 32 (r.u32 0x10)
      if r.sched then schedule 0x0505 3 (.retune (r.u16 0) w set p) r s
      else (retunePipe (r.u16 0) (s.now + us10) w (if set then some p else none) s, ansDone []) }

/-! ## DC_CONTROL (R202, Table PIPE-9) -/

/-- A signed 24.24 value, sign-extended to 64 bits. -/
def fits48 (v : Int) : Bool := decide (-(2 ^ 47 : Int) ≤ v) && decide (v < 2 ^ 47)

def dcAnswer (s : State) (p : Nat) : Ans :=
  ansDone (leI 8 (s.pipe p).dcM ++ le 1 (mask [(s.pipe p).dcManual, s.varnished p]) ++ zeros 3)

/-- The pipe after a DC_CONTROL operation: 0 SET, 1 VARNISH, 2 THAW, 3 PRESET, 4 READ. PRESET also writes the register
that a start loads (log entry 44). -/
def dcControl (r : Req) (pp : Pipe) : Pipe :=
  if r.u8 2 = 0 then { pp with dcK := r.u8 3, dcAuto := bit (r.u8 4) 0, dcWindows := BitVec.ofNat 16 (r.u16 6) }
  else if r.u8 2 = 1 then { pp with dcManual := true }
  else if r.u8 2 = 2 then { pp with dcManual := false }
  else if r.u8 2 = 3 then { pp with dcM := r.i64 8, dcPreset := r.i64 8 }
  else pp

def opDcControl : Op :=
  { code := 0x0506
    len := exactly 16
    reads := fun r _ => r.u8 2 == 4
    fields := fun r _ =>
      let set := r.u8 2 == 0
      [fieldLe 0 (r.u16 0) 1023, fieldLe 2 (r.u8 2) 4,
       (if set then r.u8 3 == 0 || (decide (8 ≤ r.u8 3) && decide (r.u8 3 ≤ 24)) else r.u8 3 == 0, ansBadField 3),
       (if set then decide (r.u8 4 < 2) else r.u8 4 == 0, ansBadField 4)] ++ reserved r 5 1 ++
      [(set || r.u16 6 == 0, ansBadField 6),
       (if r.u8 2 = 3 then fits48 (r.i64 8) else r.u64 8 == 0, ansBadField 8)]
    state := fun r s => [(decide ((s.pipe (r.u16 0)).state ≠ .free), ansState s)]
    effect := fun r s =>
      let p := r.u16 0
      let t := s.setPipe p (dcControl r (s.pipe p))
      (t, dcAnswer t p) }

/-! ## REQUANT_SET (R221) -/

/-- Of a RUNNING pipe the setting waits for the next packet; in BOUND and ARMED it acts at once (log entry 45). -/
def opRequantSet : Op :=
  { code := 0x050A
    len := exactly 4
    fields := fun r _ => [fieldLe 0 (r.u16 0) 1023, (decide (-8 ≤ r.i8 2) && decide (r.i8 2 ≤ 23), ansBadField 2),
      flagBits r 3 2]
    state := fun r s =>
      let st := (s.pipe (r.u16 0)).state
      [(decide (st ≠ .free) && decide (st ≠ .draining), ansState s)]
    effect := fun r s =>
      let p := r.u16 0
      let pp := s.pipe p
      let x := (r.i8 2, bit (r.u8 3) 0, bit (r.u8 3) 1)
      (s.setPipe p (if pp.state = .running then { pp with rqNext := some x }
        else { pp with rqShift := x.1, rqTrunc := x.2.1, rqSym := x.2.2, rqNext := none }), ansDone []) }

end Sys2Proof.Machine
end

