-- ==== Sys2Proof/Machine/Palettes.lean ====
section
/-! DEFINITION. The palette opcodes (08_palettes, Tables PAL-9 to PAL-12). -/

namespace Sys2Proof.Machine

/-! ## Profiles (R229-R233) -/

/-- Banks, A or B of any pipe, that name a profile (R232). -/
def State.refs (s : State) (n : Nat) : Nat :=
  (s.pipes.filter fun p => decide (p.2.state ≠ .free) && decide (p.2.profileA = n)).length
    + (s.pipes.filter fun p => decide (p.2.state ≠ .free) && decide (p.2.bank ≠ .empty) && decide (p.2.profileB = n)).length

/-- Data placed in a profile's staged image. -/
def stage (f : Profile) (first : Bool) (off : Nat) (data : Bytes) : Profile :=
  let b := if first then ({} : Profile) else f
  { state := .staging, image := memWrite b.image off data, extent := max b.extent (off + data.length) }

/-- PROFILE_COMMIT of a staged image (R231): the profile after, the result and the offset of the first offending word. -/
def commitProfile (f : Profile) (length : Nat) : Profile × Nat × Nat :=
  let x := commitResult f length
  (if x.1 = 0 then { f with state := .valid } else {}, x)

def opProfileWrite : Op :=
  { code := 0x0521
    len := fun p => if 12 ≤ p.length ∧ p.length ≤ 8 + 4056 then none else some (8 + 4056)
    ledger := true
    fields := fun r _ => [flagBits r 1 1] ++ reserved r 2 2 ++ [(r.u32 4 % 4 == 0, ansBadField 4)]
    state := fun r s => [(decide ((s.prof (r.u8 0)).state ≠ .valid) || bit (r.u8 1) 0, ansState s)]
    hold := fun r s => [(s.refs (r.u8 0) == 0, ansBusy)]
    effect := fun r s =>
      (s.setProf (r.u8 0) (stage (s.prof (r.u8 0)) (bit (r.u8 1) 0) (r.u32 4) (r.payload.drop 8)), ansDone []) }

def opProfileCommit : Op :=
  { code := 0x0522
    len := exactly 8
    ledger := true
    fields := fun r _ => reserved r 1 3
    state := fun r s => [((s.prof (r.u8 0)).state == .staging, ansState s)]
    effect := fun r s =>
      let x := commitProfile (s.prof (r.u8 0)) (r.u32 4)
      (s.setProf (r.u8 0) x.1, ansDone (le 1 x.2.1 ++ zeros 3 ++ le 4 x.2.2)) }

def opProfileDelete : Op :=
  { code := 0x0523
    len := exactly 4
    ledger := true
    fields := fun r _ => reserved r 1 3
    hold := fun r s => [(s.refs (r.u8 0) == 0, ansBusy)]
    effect := fun r s => (s.setProf (r.u8 0) {}, ansDone []) }

def profCode : ProfState → Nat
  | .empty => 0
  | .staging => 1
  | .valid => 2

/-- PROFILE_INFO (Table PAL-10); an EMPTY profile has no stages, and its ratio fields read 0 (log entry 46). -/
def profileInfoPayload (s : State) (n : Nat) : Bytes :=
  let f := s.prof n
  let valid := f.state == .valid
  let gs := f.stages
  le 1 n ++ le 1 (profCode f.state) ++ le 2 (s.refs n) ++ le 4 f.stored ++ le 4 f.extent ++ zeros 4
    ++ leI 8 (if valid then rheR (f.gd * 65536) else 0) ++ leI 8 (if valid then rheR (f.span * 65536) else 0)
    ++ le 4 (if f.state = .empty then 0 else gs.foldl (fun n g => n * g.d) 1)
    ++ le 4 (if f.state = .empty then 0 else gs.foldl (fun n g => n * g.u) 1) ++ memRead f.image 0 0x50

def opProfileInfo : Op :=
  { code := 0x0524
    len := exactly 4
    reads := fun _ _ => true
    fields := fun r _ => reserved r 1 3
    effect := fun r s => (s, ansDone (profileInfoPayload s (r.u8 0))) }

/-! ## Banks (R239-R246) -/

/-- Bank B has a swap under way. -/
def Pipe.swapping (pp : Pipe) : Bool := pp.bank == .pending || pp.bank == .preroll || pp.bank == .fading

def opBankLoad : Op :=
  { code := 0x0525
    len := exactly 4
    ledger := true
    fields := fun r s =>
      let p := r.u16 0
      let f := s.prof (r.u8 2)
      [fieldLe 0 p 1023,
       (decide (f.state = .valid) && (decide ((s.pipe p).state = .free) || bankFits (s.fin p) (s.profA p) f), ansBadField 2)]
        ++ reserved r 3 1
    state := fun r s => [(decide ((s.pipe (r.u16 0)).state ≠ .free), ansState s)]
    hold := fun r s => [(!(s.pipe (r.u16 0)).swapping, ansBusy)]
    effect := fun r s =>
      (s.setPipe (r.u16 0) { s.pipe (r.u16 0) with profileB := r.u8 2, bank := .loaded }, ansDone []) }

def opBankClear : Op :=
  { code := 0x0527
    len := exactly 4
    ledger := true
    fields := fun r _ => [fieldLe 0 (r.u16 0) 1023] ++ reserved r 2 2
    state := fun r s =>
      let pp := s.pipe (r.u16 0)
      [(decide (pp.state ≠ .free) && decide (pp.bank ≠ .empty), ansState s)]
    hold := fun r s => [(!(s.pipe (r.u16 0)).swapping, ansBusy)]
    effect := fun r s =>
      (s.setPipe (r.u16 0) { s.pipe (r.u16 0) with profileB := 0, bank := .empty }, ansDone []) }

/-- Both banks have the same group-delay kind and equal Γ (R245). -/
def State.sameDelay (s : State) (p : Nat) : Bool :=
  ((s.profA p).nominal == (s.profB p).nominal) && decide ((s.profA p).gd = (s.profB p).gd)

/-- The states of pipe and bank B in which a swap of a mode is taken (R246, R243). A DRAINING pipe takes none (log
entry 47). -/
def State.swapOk (s : State) (r : Req) : Bool :=
  let pp := s.pipe (r.u16 0)
  let mode := r.u8 2
  decide (pp.state ≠ .free) && decide (pp.state ≠ .draining) && decide (pp.bank ≠ .empty)
    && !(decide (mode ≠ 0) && pp.state == .bound) && !(mode == 2 && decide (pp.state ≠ .running))
    && (!r.sched || decide (16 ≤ s.margin (r.u16 0)))

/-- An accepted swap of a pipe that runs, or that awaits its start (R241, R245). -/
def beginSwap (r : Req) (s : State) : State × Ans :=
  let p := r.u16 0
  let pp := s.pipe p
  let w := fun (j : JobRef) => { mode := r.u8 2, k := r.u8 3, ts := if r.sched then some r.at_ else none
                                 armed := !r.sched, job := some j : Swap }
  let preroll := r.u8 2 == 2
  let set := fun (j : JobRef) (t : State) => t.setPipe p { pp with
    swap := some (w j), bank := if preroll then .preroll else .pending, bRun := 0, fadeDone := 0
    histB := if preroll then freshHist (s.profB p).stages pp.nNext else [] }
  let (j, t) := takeJob 0x0526 r s
  let t := set j t
  if r.sched then (insertEntry { time := r.at_, cls := 2, ins := 0, action := .swap p, job := some j } t, ansAccepted j.slot)
  else (t, ansAccepted j.slot)

def opBankSwap : Op :=
  { code := 0x0526
    len := exactly 4
    sched := .maybe
    ledger := true
    fields := fun r s =>
      let p := r.u16 0
      let mode := r.u8 2
      [(!(mode == 0 && r.sched) && !(mode == 1 && !r.sched), ansBadHeader 3), fieldLe 0 p 1023,
       (decide (mode ≤ 2) && (decide (mode ≠ 2) || decide ((s.pipe p).bank = .empty) || s.sameDelay p), ansBadField 2),
       (decide (r.u8 3 ≤ 12) && (mode == 2 || r.u8 3 == 0), ansBadField 3)]
    state := fun r s => [(s.swapOk r, ansState s)]
    hold := fun r s => [(!(s.pipe (r.u16 0)).swapping, ansBusy)]
    effect := fun r s =>
      let p := r.u16 0
      let pp := s.pipe p
      if r.u8 2 = 0 ∧ pp.state ≠ .running then
        (s.setPipe p { pp with profileA := pp.profileB, profileB := pp.profileA }, ansDone [])
      else beginSwap r s }

def bankCode : BankState → Nat
  | .empty => 0
  | .loaded => 1
  | .pending => 2
  | .preroll => 3
  | .fading => 4

/-- BANK_STATUS (Table PAL-12). -/
def bankStatusPayload (s : State) (p : Nat) : Bytes :=
  let pp := s.pipe p
  if pp.state = .free then le 2 p ++ le 2 0xFFFF ++ le 2 0xFFFF ++ zeros 0x3A
  else
    let fin := s.fin p
    let b := decide (pp.bank ≠ .empty)
    let land := match pp.swap with
      | some w => w.landing.getD pp.lastLanding
      | none => pp.lastLanding
    let ts := match pp.swap with
      | some w => if w.landing.isSome then none else w.ts
      | none => none
    le 2 p ++ le 2 pp.profileA ++ le 2 (if b then pp.profileB else 0xFFFF) ++ le 1 (bankCode pp.bank) ++ le 1 pp.epoch.toNat
      ++ le 2 (s.profA p).unsettled ++ le 2 (s.uStart p) ++ le 2 (if b then (s.profB p).unsettled else 0) ++ le 2 pp.fadeDone
      ++ leI 8 ((s.profA p).gamma fin) ++ leI 8 (if b then (s.profB p).gamma fin else 0) ++ leI 8 (rheR (s.margin p * 65536))
      ++ leI 8 land
      ++ (match ts with
          | some t => ts96 t
          | none => zeros 12)
      ++ zeros 4

def opBankStatus : Op :=
  { code := 0x0528
    len := exactly 4
    reads := fun _ _ => true
    fields := fun r _ => [fieldLe 0 (r.u16 0) 1023] ++ reserved r 2 2
    effect := fun r s => (s, ansDone (bankStatusPayload s (r.u16 0))) }

/-! ## The calendar's side of a swap (R243, R247) -/

/-- The class-2 entry of a swap fires: it is armed, and its fire record will head the completion notice. -/
def armSwap (p : Nat) (f : FireRec) (s : State) : State :=
  let pp := s.pipe p
  match pp.swap with
  | some w => s.setPipe p { pp with swap := some { w with armed := true, fire := some f } }
  | none => s

/-- The entry is cancelled or discarded: bank B stays LOADED; what is left to complete is the caller's. -/
def disarmSwap (p : Nat) (s : State) : State :=
  let pp := s.pipe p
  s.setPipe p { pp with swap := none, bank := if pp.swap.isSome then .loaded else pp.bank, histB := [], bRun := 0 }

end Sys2Proof.Machine
end

