-- ==== Sys2Proof/Machine/Clocks.lean ====
section
/-! DEFINITION. Device clocks and SYSREF outputs (06_inputs, R166-R169). -/

namespace Sys2Proof.Machine

/-- The output clocks: enabled and not held low before a restart. -/
def Dclk.running (d : Dclk) : Bool := d.enabled && !d.held

/-- A link that names a device clock feeds an enabled channel (R167). -/
def State.dclkFeeds (s : State) (o : Nat) : Bool :=
  s.jesds.any fun j => decide (j.2.base.state ≠ .unconfigured) && j.2.dclk == o && s.linkFeeds 1 j.1

/-- Steps between two phases, the shorter way round the circle. -/
def phaseSteps (a b : Nat) : Nat :=
  let d := (a + 4096 - b) % 4096
  min d (4096 - d)

/-- A DCLK_CONFIG acts: a stop drives the output low; a change of frequency and an enable from the stopped state hold it
low until it restarts; a change of phase alone moves the edges (R167). -/
def setDclkOut (o : Nat) (en : Bool) (phase freq : Nat) (s : State) : State :=
  let d := s.dclk o
  if !en then s.setDclk o { d with enabled := false, held := false }
  else s.setDclk o { d with enabled := true, freq := freq, phase := phase, held := d.held || !d.enabled || decide (d.freq ≠ freq) }

/-- DCLK_RESTART: an output held low starts again in the phase of R166. -/
def dclkRestart (o : Nat) (s : State) : State :=
  let d := s.dclk o
  if d.enabled && d.held && decide (s.chip.phase ≠ .off) then (s.setDclk o { d with held := false, started := d.started + 1 }).emit (.dclk o (rheR (d.nextEdge s.now)))
  else s

def opDclkConfig : Op :=
  { code := 0x0401
    len := exactly 8
    sched := .maybe
    ledger := true
    fields := fun r _ =>
      let en := bit (r.u8 1) 0
      [fieldLe 0 (r.u8 0) 31, flagBits r 1 1, (!en || decide (r.u16 2 ≤ 4095), ansBadField 2),
       (!en || (decide (10000000 ≤ r.u32 4) && decide (r.u32 4 ≤ 3200000000)), ansBadField 4)]
    state := fun r s =>
      let d := s.dclk (r.u8 0)
      let en := bit (r.u8 1) 0
      [(!s.dclkFeeds (r.u8 0)
        || (en && (!d.enabled || (decide (r.u32 4 = d.freq) && decide (phaseSteps (r.u16 2) d.phase ≤ 1024)))), ansState s)]
    effect := fun r s =>
      let en := bit (r.u8 1) 0
      if r.sched then schedule 0x0401 3 (.dclk (r.u8 0) en (r.u16 2) (r.u32 4)) r s
      else (setDclkOut (r.u8 0) en (r.u16 2) (r.u32 4) s, ansDone []) }

/-- A scheduled DCLK_CONFIG of an output is queued (R167). -/
def State.dclkQueued (s : State) (o : Nat) : Bool := s.cal.entries.any fun e => match e.action with
  | .dclk x _ _ _ => x == o
  | _ => false

/-! ## SYSREF (R168) -/

def CalEntry.isSysref (e : CalEntry) (o : Nat) : Bool := match e.action with
  | .sysref x => x == o
  | _ => false

def dropSysref (o : Nat) (s : State) : State :=
  { s with cal := { s.cal with entries := s.cal.entries.filter fun e => !e.isSysref o } }

/-- A time is a multiple of T_mf, counted from a whole second. -/
def Jesd.onBoundary (j : Jesd) (t : T16) : Bool := t % unitsPerSec * j.fs % (unitsPerSec * j.spm) == 0

/-- The first pulse and the period are multiples of T_mf of every JESD link that names the output. -/
def State.srefOk (s : State) (o : Nat) (first : T16) (period : Nat) : Bool × Bool :=
  let js := (s.jesds.filter fun j => decide (j.2.base.state ≠ .unconfigured) && j.2.sref == o).map (·.2)
  (js.all fun j => j.onBoundary first, js.all fun j => period * j.fs % (1000000000 * j.spm) == 0)

def opSrefConfig : Op :=
  { code := 0x0402
    len := exactly 24
    ledger := true
    fields := fun r s =>
      let m := r.u8 1
      let off := m == 0
      let k := s.srefOk (r.u8 0) (r.ts96 8) (r.u32 0x14)
      let one := m == 1 && r.u16 6 == 1
      [fieldLe 0 (r.u8 0) 31, fieldLe 1 m 2, (off || decide (1 ≤ r.u8 2), ansBadField 2),
       (off || decide (r.u8 3 ≤ 31), ansBadField 3), (off || decide (r.u16 4 ≤ 4095), ansBadField 4),
       (off || (if m = 1 then decide (1 ≤ r.u16 6) else r.u16 6 == 0), ansBadField 6),
       (off || (ts80Ok (r.bytes 8 10) && k.1), ansBadField 8),
       (off || ((if one then r.u32 0x14 == 0 else decide (1000 ≤ r.u32 0x14 ∧ r.u32 0x14 ≤ 1000000000)) && k.2), ansBadField 0x14)]
    state := fun r s => [(r.u8 1 == 0 || shortfall s (r.ts96 8) == 0, ansTooLate (shortfall s (r.ts96 8)))]
    effect := fun r s =>
      let o := r.u8 0
      let s := dropSysref o s
      if r.u8 1 = 0 then (s.setSref o { s.sref o with mode := 0 }, ansDone [])
      else
        let s := s.setSref o { s.sref o with
          mode := r.u8 1, width := r.u8 2, dclk := r.u8 3, lead := r.u16 4, count := r.u16 6, first := r.ts96 8
          period := r.u32 0x14 }
        (insertEntry { time := r.ts96 8, cls := 3, ins := 0, action := .sysref o, period := r.u32 0x14
                       reps := if r.u8 1 = 1 then some (r.u16 6) else none } s, ansDone []) }

/-- A pulse due at time T: it rises ℓ/4,096 of a period earlier, unless its device clock is stopped. -/
def sysrefPulse (o : Nat) (t : T16) (s : State) : State :=
  let x := s.sref o
  let d := s.dclk x.dclk
  if d.running then
    (s.setSref o { x with pulsed := (List.range 32).map (fun i => (s.dclk i).started), pulseNo := x.pulseNo + 1 }).emit
      (.sysref o (rheR ((t : Rat) - (x.lead : Rat) * unitsPerSec / ((4096 * d.freq : Nat) : Rat))))
  else s

/-- A SYSREF output has emitted a pulse since a device clock was last started (R183). -/
def State.pulsedSince (s : State) (o clock : Nat) : Bool :=
  match (s.sref o).pulsed[clock]? with
  | some k => k == (s.dclk clock).started
  | none => false

/-- A sub-second step restarts every device clock and SYSREF output (R80). -/
def rephaseClocks (s : State) : State :=
  { s with dclks := s.dclks.map fun d => (d.1, if d.2.enabled then { d.2 with held := true } else d.2) }

end Sys2Proof.Machine
end

