-- ==== Sys2Proof/Machine/Channels.lean ====
section
/-! DEFINITION. The channel table (06_inputs, R187-R192): binding, starting and stopping, the release of input words. -/

namespace Sys2Proof.Machine

/-! ## Link notices (Table INP-14) -/

/-- LINK_STATUS of a link: 1 JESD, 2 BGL, 3 SCP (Table INP-14). -/
def linkStatus (s : State) (kind n errors : Nat) : Bytes :=
  let b := s.link kind n
  let lat := fun (f : Int → Int → Int) => match b.lats with
    | [] => 0
    | x :: xs => xs.foldl f x
  le 1 kind ++ le 1 n ++ le 1 (linkCode b.state) ++ le 1 b.flags.toNat
    ++ le 4 (if kind = 1 ∧ b.state ≠ .unconfigured then (s.jesd n).spm else 0) ++ le 4 b.release ++ ts96 b.boundary
    ++ leI 4 (lat min) ++ leI 4 (lat max) ++ le 4 errors ++ le 4 b.badFrames.toNat ++ le 4 b.losses.toNat ++ zeros 4

/-- INPUT_EVENT: 0 ALIGNED, 1 ALIGN_FAILED, 2 LOST, 3 SUBST_START, 4 SUBST_END. -/
def inputEvent (event kind n : Nat) (s : State) : State :=
  notify 0x0480 (le 1 event ++ le 1 kind ++ le 1 n ++ zeros 1 ++ ts96 s.now
    ++ linkStatus s kind n (s.link kind n).errors.toNat) s

/-- The unit of an input link in block 5 (Table FLT-1). -/
def linkUnit (kind n : Nat) : Nat := 64 * (kind - 1) + n

/-! ## CHANNEL_BIND (R187, Table INP-15) -/

def sumFs (s : State) (wide : Bool) (but : Nat) : Nat :=
  sumOf ((s.channels.filter fun c => decide (c.2.state ≠ .unbound) && decide (c.1 ≠ but) && wideKind c.2.kind == wide).map (·.1))
    fun c => (s.chan c).fs

/-- A configured capture window names the channel, or (with pipes) a pipe bound to it, as a member. -/
def State.windowNames (s : State) (c : Nat) (pipesToo : Bool) : Bool :=
  s.cap.windows.any fun w => decide (w.2.state ≠ .unconfigured)
    && ((w.2.source == 1 && w.2.members.contains c)
      || (pipesToo && w.2.source == 2 && w.2.members.any fun p => (s.chanPipes c).contains p))

/-- Every profile in a bank of the channel's pipes satisfies R195 at a rate. -/
def State.pipesFit (s : State) (c fs : Nat) : Bool :=
  (s.chanPipes c).all fun p => ratesOk fs (s.profA p).stages
    && (decide ((s.pipe p).bank = .empty) || ratesOk fs (s.profB p).stages)

def bindFields (r : Req) (s : State) : List Check :=
  let c := r.u16 0
  let kind := r.u8 2
  let src := r.u8 3
  let pos := r.u8 4
  let fs := r.u32 8
  let wide := wideKind kind
  let rate := s.srcRate kind src pos
  if kind = 0 then
    [fieldLe 0 c 511, (src == 0, ansBadField 3), (pos == 0, ansBadField 4), (r.u8 5 == 0, ansBadField 5)] ++ reserved r 6 2
      ++ [(fs == 0, ansBadField 8), (r.u32 12 == 0, ansBadField 12), (r.u64 16 == 0, ansBadField 16)]
  else
    [fieldLe 0 c 511, (decide (kind ≤ 4) && (wide == decide (c < 256)), ansBadField 2),
     (decide (src < if kind = 4 then 16 else 64) && decide ((s.link (linkKind kind) src).state ≠ .unconfigured), ansBadField 3),
     (rate.isSome && !(s.channels.any fun x => decide (x.1 ≠ c) && decide (x.2.state ≠ .unbound) && x.2.kind == kind
        && x.2.source == src && x.2.position == pos), ansBadField 4),
     flagBits r 5 1] ++ reserved r 6 2 ++
    [(decide (rate = some fs) && decide (sumFs s wide c + fs ≤ if wide then 256000000000 else 256000000)
        && s.pipesFit c fs, ansBadField 8),
     (decide (r.u64 16 < 2 ^ 48), ansBadField 16)]

def bindStates (r : Req) (s : State) : List Check :=
  let c := s.chan (r.u16 0)
  let n := r.u16 0
  [(c.state == .unbound || c.state == .bound, ansState s),
   (if r.u8 2 = 0 then (s.chanPipes n).isEmpty && !s.windowNames n false
    else c.state == .unbound || (decide (c.fs = r.u32 8) && decide (c.epoch = r.u64 16)) || !s.windowNames n true, ansState s)]

def opChannelBind : Op :=
  { code := 0x0408
    len := exactly 24
    ledger := true
    fields := bindFields
    state := bindStates
    effect := fun r s =>
      let n := r.u16 0
      let c := s.chan n
      if r.u8 2 = 0 then
        (s.setChan n { segs := c.segs, activated := c.activated, expired := c.expired, expiredSeg := c.expiredSeg }, ansDone [])
      else
        (s.setChan n { c with
          state := .bound, kind := r.u8 2, source := r.u8 3, position := r.u8 4, offBin := bit (r.u8 5) 0, fs := r.u32 8
          cal := r.u32 12, epoch := r.u64 16, kLast := none, arrived := [] }, ansDone []) }

/-- The channel releases words: it runs, or the words before its stop are still to come. -/
def Channel.releases (c : Channel) : Bool :=
  c.state == .running || c.state == .lost
    || (c.state == .bound && match c.kLast with
      | some l => decide (c.kNext ≤ l)
      | none => false)

/-- Words of the channel are being substituted. -/
def Channel.substitutes (c : Channel) : Bool := c.substituting && c.releases

/-! ## Starting and stopping (R188, R189) -/

/-- A start at time T: RUNNING, or LOST where the source is not ALIGNED, from the first sample at or after T. -/
def startChannel (n : Nat) (t : T16) (s : State) : State :=
  let c := s.chan n
  let k := c.indexAt (t : Rat)
  let s := s.setChan n { c with
    state := if (s.chanLink n).state = .aligned then .running else .lost
    startAt := t, kFirst := k, kNext := k, kLast := none, substituted := 0, overRange := 0, substituting := false, arrived := [] }
  forEach (s.chanPipes n) tryBegin s

/-- A stop at time T: BOUND, with the last sample before T still to be released; its pipes stop with it and capture
windows see the member stop. -/
def stopChannel (n : Nat) (t : T16) (s : State) : State :=
  let c := s.chan n
  if c.state ≠ .running ∧ c.state ≠ .lost then s
  else
    let last := c.indexAt (t : Rat) - 1
    let s := s.setChan n { c with state := .bound, kLast := if last < c.kNext then none else some last }
    forEach (s.chanPipes n) (fun p u => stopPipe p t u) (memberStopped 1 n s)

/-- A start would enable a channel: no sub-second step is queued (R78), and no queued DCLK_CONFIG concerns the clock of
its link (R167). -/
def State.mayEnable (s : State) (n : Nat) : Bool :=
  !s.subStepQueued && !((s.chan n).kind == 1 && s.dclkQueued (s.jesd (s.chan n).source).dclk)

/-- The time at which a start or stop acts. -/
def State.startTime (s : State) (r : Req) : T16 := if r.sched then r.at_ else s.now + us10

def opChannelStart : Op :=
  { code := 0x0409
    len := exactly 4
    sched := .maybe
    v2 := some (rangeV2 128)
    ledger := true
    fields := fun r s => rangeFields r 512 ++
      [((rangeOf (r.u16 0) (r.u16 2)).all fun c => decide ((s.chan c).epoch * unitsPerSec ≤ s.startTime r),
        if r.sched then ansBadHeader 0x10 else ansBadField 0)]
    state := fun r s => [((rangeOf (r.u16 0) (r.u16 2)).all fun c =>
      (s.chan c).state == .bound && (r.sched || (s.chanLink c).state == .aligned) && s.mayEnable c, ansState s)]
    effect := fun r s =>
      let cs := rangeOf (r.u16 0) (r.u16 2)
      if r.sched then
        schedule 0x0409 6 (.chanStart (r.u16 0) (r.u16 2)) r
          (forEach cs (fun c t => t.setChan c { t.chan c with state := .armed, startAt := r.at_ }) s)
      else (forEach cs (fun c t => startChannel c (s.now + us10) t) s, ansDone []) }

/-- A channel that a stop may name. -/
def stopsChannel (r : Req) (c : Channel) : Bool :=
  c.state == .running || c.state == .lost || (r.sched && c.state == .armed && decide (c.startAt ≤ r.at_))

def opChannelStop : Op :=
  { code := 0x040A
    len := exactly 4
    sched := .maybe
    v2 := some (rangeV2 128)
    ledger := true
    fields := fun r _ => rangeFields r 512
    state := fun r s => [((rangeOf (r.u16 0) (r.u16 2)).all fun c => stopsChannel r (s.chan c), ansState s)]
    effect := fun r s =>
      if r.sched then schedule 0x040A 6 (.chanStop (r.u16 0) (r.u16 2)) r s
      else (forEach (rangeOf (r.u16 0) (r.u16 2)) (fun c t => stopChannel c s.now t) s, ansDone []) }

def chanCode : ChanState → Nat
  | .unbound => 0
  | .bound => 1
  | .armed => 2
  | .running => 3
  | .lost => 4

def opChannelStatus : Op :=
  { code := 0x040B
    len := exactly 4
    v2 := some fun r => [fieldLe 0 (r.u16 0) 127]
    reads := fun _ _ => true
    fields := fun r _ => [fieldLe 0 (r.u16 0) 511] ++ reserved r 2 2
    effect := fun r s =>
      let c := s.chan (r.u16 0)
      (s, ansDone (le 2 (r.u16 0) ++ le 1 (chanCode c.state) ++ le 1 c.kind ++ le 1 c.source ++ le 1 c.position
        ++ le 1 (mask [c.substitutes, c.offBin]) ++ zeros 1 ++ le 4 c.fs ++ le 4 c.cal ++ le 8 c.epoch
        ++ leI 8 c.kFirst ++ leI 8 c.kNext ++ le 8 c.substituted.toNat ++ le 4 c.overRange.toNat ++ zeros 4)) }

/-! ## INPUT_WORD_RELEASE (R165, R187, R190, R197-R199) -/

/-- The next word's release time, t_k + ρ_s, has come (R185). -/
def State.wordDue (s : State) (n : Nat) : Bool :=
  let c := s.chan n
  c.releases && decide (c.instant c.kNext + (s.rho n).1 * 65536 ≤ (s.now : Rat))

/-- The value that the RAW tap takes: sample and control bits left-justified in their container, two's complement
(R198, Table CAP-1). -/
def rawValue (kind n cs : Nat) (v : Int) (ctl : Nat) : Int :=
  let b := containerBits kind
  v * (2 ^ (b - n) : Nat) + (ctl * 2 ^ (b - n - cs) : Nat)

/-- A run of substituted words begins or ends at index k: it is an input change for every pipe of the channel that has
begun, and it is told once for all the channels of the source (R190). -/
def toggleSubst (n : Nat) (zero : Bool) (k : Int) (s : State) : State :=
  let c := s.chan n
  let others := (s.linkChans (linkKind c.kind) c.source).any fun m => m != n && (s.chan m).substitutes
  if c.substituting = zero then s
  else
    let s := s.setChan n { c with substituting := zero }
    let s := forEach (s.chanPipes n) (fun p t =>
      let pp := t.pipe p
      if (pp.state = .running ∨ pp.state = .draining) ∧ !pp.waiting ∧ pp.lineNext ≤ k then
        t.setPipe p { pp with changes := pp.changes ++ [k] }
      else t) s
    if others then s else inputEvent (if zero then 3 else 4) (linkKind c.kind) c.source s

/-- The receive data of some lanes is discarded: one of them is re-equalising (R147). -/
def State.discards (s : State) (lanes : List Nat) : Bool := lanes.any fun l => (s.lane l).reeq.isSome

/-- The word at a channel's next index, where its source delivers it (R165): a JESD word as the elastic buffers release it, else the
word that a good frame has brought. -/
def State.nextWord (s : State) (n : Nat) (w : JesdWord) : Option W32 :=
  let c := s.chan n
  if (s.chanLink n).state ≠ .aligned then none
  else if c.kind = 1 then (if s.discards (s.jesd c.source).lanes then none else some w.word)
  else (c.arrived.find? fun x => x.1 == c.kNext).map (·.2)

/-- A JESD word of another index than the channel's next is not the one that is released (R165, R184). -/
def State.placed (s : State) (n : Nat) (w : JesdWord) : Bool :=
  let c := s.chan n
  c.kind != 1 || decide ((s.chanLink n).state ≠ .aligned) || c.ofAbs ((s.jesd c.source).index w) == c.kNext

/-- INPUT_WORD_RELEASE: the word at the channel's next index goes to its pipes and to the RAW windows, or a zero word
in its place (R190). -/
def inputWordRelease (n : Nat) (w : JesdWord) (s : State) : State :=
  if !s.wordDue n || !s.placed n w then s
  else
    let c := s.chan n
    let k := c.kNext
    let (bits, cs) := s.chanBits n
    let zero := (s.nextWord n w).isNone
    let word := (s.nextWord n w).getD 0
    let v := if zero then 0 else codeValue c.offBin bits (sampleCode c.kind bits word.toNat)
    let ctl := if zero then 0 else controlBits c.kind bits cs word.toNat
    let s := toggleSubst n zero k s
    let c := s.chan n
    let s := s.setChan n { c with
      kNext := k + 1, arrived := c.arrived.filter fun x => decide (k < x.1)
      kLast := match c.kLast with
        | some l => if l ≤ k then none else some l
        | none => none
      substituted := if zero then c.substituted + 1 else c.substituted
      overRange := if ctl ≠ 0 then c.overRange + 1 else c.overRange }
    let s := feedWindows 1 n { index := k, value := (rawValue c.kind bits cs v ctl, 0), marked := zero
                               note := { member := n, channel := n, cal := c.cal, gamma := 0, model := 0, epoch := 0, nominal := false } } s
    forEach (s.chanPipes n) (fun p t => pipeWord bits ⟨k, v, ctl, zero⟩ p t) s

/-! ## Whole-second steps (R79, R186, R214) -/

def shiftHist (d : List Int) (hs : List Hist) : List Hist := (hs.zip d).map fun x => { x.1 with next := x.1.next + x.2 }

/-- A pipe's indices follow the stepped scale. -/
def stepPipe (sec : Int) (p : Nat) (s : State) : State :=
  let pp := s.pipe p
  let fs := s.fin p
  let gs := (s.profA p).stages
  let per := fun (r : Rat) => sec * ((fs : Rat) / r).num
  let dIn := sec * (fs : Int)
  let d1 := per (firstD gs : Rat)
  let dOut := per (ratioOut gs)
  s.setPipe p { pp with
    startK := pp.startK + dIn, nFirst := pp.nFirst + dOut, nNext := pp.nNext + dOut, nLast := pp.nLast.map (· + dOut)
    updates := pp.updates.map fun u => (u.1 + d1, u.2)
    lineNext := pp.lineNext + dIn
    hist := shiftHist ((ratios 1 gs).map per) pp.hist
    histB := shiftHist ((ratios 1 (s.profB p).stages).map per) pp.histB
    orPending := pp.orPending.map (· + dIn), marks := pp.marks.map fun m => (m.1 + dOut, m.2)
    changes := pp.changes.map (· + dIn), bad := pp.bad.map (· + dIn)
    swap := pp.swap.map fun w => { w with landing := w.landing.map (· + dOut) }
    lastEval := ((pp.lastEval : Int) + sec * unitsPerSec).toNat }

/-- A channel's indices, and those of its pipes that have begun, follow the stepped scale. -/
def stepChannel (sec : Int) (n : Nat) (s : State) : State :=
  let c := s.chan n
  let d := sec * (c.fs : Int)
  if !c.enabled && c.kLast.isNone then s
  else
    let s := s.setChan n { c with
      kFirst := c.kFirst + d, kNext := c.kNext + d, kLast := c.kLast.map (· + d), arrived := c.arrived.map fun x => (x.1 + d, x.2) }
    forEach (s.chanPipes n) (fun p t =>
      if ((t.pipe p).state = .running ∨ (t.pipe p).state = .draining) ∧ !(t.pipe p).waiting then stepPipe sec p t else t) s

end Sys2Proof.Machine
end

