-- ==== Sys2Proof/Machine/Links.lean ====
section
/-! DEFINITION. Input links (06_inputs, R170-R186): configuration, alignment, frames, loss, and their opcodes. -/

namespace Sys2Proof.Machine

/-! ## States (Table INP-6) -/

/-- The latency of a link is cleared. -/
def LinkBase.noLatency (b : LinkBase) : LinkBase := { b with measured := false, release := 0, boundary := 0, lats := [], latsAligned := [] }

/-- A link enters LOST: its running channels substitute, the loss is told (R182, R190). -/
def loseLink (kind n : Nat) (s : State) : State :=
  let b := s.link kind n
  if b.state ≠ .aligned then s
  else
    let s := s.setLink kind n { b with state := .lost, wasLost := false, losses := b.losses + 1 }
    let s := forEach (s.linkChans kind n) (fun c t =>
      if (t.chan c).state = .running then t.setChan c { t.chan c with state := .lost } else t) s
    inputEvent 2 kind n (raise 5 0 (linkUnit kind n) s)

/-- SYNC~ of an output goes high unless another link that shares it is still aligning (R172). -/
def endSync (n : Nat) (s : State) : State :=
  let j := s.jesd n
  if j.version ≠ 1 then s
  else if s.jesds.any fun x => decide (x.1 ≠ n) && x.2.base.state == .aligning && x.2.version == 1 && x.2.sync == j.sync then s
  else s.setTrigOut j.sync { s.trigOut j.sync with syncLow := false }

/-- A sub-second step, firing, returns every link to CONFIGURED (Table INP-6). A link that was ALIGNING completes its
request as a failed alignment (log entry 48). -/
def dropAlignment (kind n : Nat) (s : State) : State :=
  let b := s.link kind n
  if b.state = .unconfigured then s
  else
    let s := s.setLink kind n { b.noLatency with state := .configured, wasLost := false, job := none }
    let s := if kind = 1 then endSync n s else s
    match b.job with
    | some j => complete j 0 0 (linkStatus s kind n b.errors.toNat) s
    | none => s

/-- The alignment fails with a cause flag (Table INP-6). -/
def failAlign (kind n : Nat) (flag : Nat) (s : State) : State :=
  let b := s.link kind n
  let b' := { (if b.wasLost then b else b.noLatency) with
    state := if b.wasLost then .lost else .configured, wasLost := false, job := none, flags := b.flags ||| BitVec.ofNat 8 flag }
  let s := s.setLink kind n b'
  let s := inputEvent 1 kind n (if kind = 1 then endSync n s else s)
  match b.job with
  | some j => complete j 0 0 (linkStatus s kind n b'.errors.toNat) s
  | none => s

/-- The charged streams that an input link feeds. -/
def State.linkStreams (s : State) (kind n : Nat) : List Nat :=
  s.charged.filter fun p => (s.linkChans kind n).contains (s.pipe p).channel

/-- The bounds are recomputed after an alignment (R264): streams whose bound exceeds their ceiling are marked
BOUND_EXCEEDED, and ADM_BOUNDS tells of them and of every stream whose bound has changed. -/
def recompute (kind n : Nat) (old s : State) : State :=
  let above := (s.linkStreams kind n).filter fun p => decide (s.ceiling p ≠ 0) && decide (s.ceiling p < (s.bound p).beta)
  let s := forEach above (fun p t =>
    { t with ledger := { t.ledger with exceeded := tset false t.ledger.exceeded p true } }) s
  let ns := changedBounds old s
  tellStreams 0xFFFFFFFF none ((s.strm.streams.map (·.1)).filter fun p => ns.contains p || above.contains p) s

/-- The alignment succeeds: latency and boundary fixed, lost channels run again (Table INP-8), the bounds recomputed. -/
def endAlign (kind n : Nat) (release : Nat) (boundary : T16) (lats : List Int) (s : State) : State :=
  let old := s
  let b := s.link kind n
  let s := s.setLink kind n { b with
    state := .aligned, wasLost := false, job := none, measured := true, release := release, boundary := boundary, lats := lats
    latsAligned := lats }
  let s := forEach (s.linkChans kind n) (fun c t =>
    if (t.chan c).state = .lost then t.setChan c { t.chan c with state := .running } else t) s
  let s := inputEvent 0 kind n (if kind = 1 then endSync n s else s)
  let s := match b.job with
    | some j => complete j 0 0 (linkStatus s kind n b.errors.toNat) s
    | none => s
  recompute kind n old s

/-! ## Configuration checks shared by the kinds (R182) -/

/-- A configuration command's state check: the link feeds no enabled channel, and keeps every bound position at its
rate. `keeps` answers the new rate of a position. -/
def configStates (s : State) (kind n : Nat) (keeps : Nat → Nat → Option Nat) : List Check :=
  [(!s.linkFeeds kind n, ansState s),
   ((s.linkChans kind n).all fun c => keeps (s.chan c).kind (s.chan c).position == some (s.chan c).fs, ansState s)]

def configHold (s : State) (kind n : Nat) : List Check := [(decide ((s.link kind n).state ≠ .aligning), ansBusy)]

/-! ## JESD (R170, R171, Table INP-11) -/

def jesdOf (r : Req) (old : Jesd) : Jesd :=
  { base := old.base, version := r.u8 1, l := r.u8 2, m := r.u8 3, f := r.u8 4, s := r.u8 5, n := r.u8 6, np := r.u8 7
    cs := r.u8 8, ke := r.u8 9, flags := BitVec.ofNat 8 (r.u8 0xA), sync := r.u8 0xB, dclk := r.u8 0xC, sref := r.u8 0xD
    q := r.u16 0xE, fs := r.u32 0x10, lambda := r.u32 0x14
    lanes := (List.range (min 8 (r.u8 2))).map fun i => r.u16 (0x18 + 2 * i) }

/-- The line rate that R171 asks of every lane, in kbit/s. -/
def Jesd.laneRate (j : Jesd) : Nat :=
  (rheR ((j.m * j.np * j.fs : Nat) * (if j.version = 1 then (10 : Rat) / 8 else 66 / 64) / (j.l : Rat) / 1000)).toNat

/-- T_mf x f_d is an integer. -/
def Jesd.clockFits (j : Jesd) (fd : Nat) : Bool :=
  decide (fd ≠ 0) && (if j.version = 1 then j.ke * j.s * fd % j.fs == 0
    else decide (j.f ≠ 0) && 256 * j.ke * j.s * fd % (j.f * j.fs) == 0)

/-- Entry i of the lanes field names a lane of the right protocol with receive ACTIVE that no other link and no earlier
entry names, or 0xFFFF beyond l. -/
def jesdLaneOk (r : Req) (s : State) (i : Nat) : Bool :=
  let x := r.u16 (0x18 + 2 * i)
  if r.u8 2 ≤ i then x == 0xFFFF
  else
    let l := s.lane x
    decide (x < 160) && l.protocol == r.u8 1 && l.rxPower == 0
      && !(s.jesds.any fun j => decide (j.1 ≠ r.u8 0) && decide (j.2.base.state ≠ .unconfigured) && j.2.lanes.contains x)
      && !((List.range i).any fun k => r.u16 (0x18 + 2 * k) == x)

def jesdFields (r : Req) (s : State) : List Check :=
  let j := jesdOf r {}
  let b := j.version == 1
  let spmOk := if b then decide (j.ke * j.s ≠ 0) && j.fs % (j.ke * j.s) == 0
    else decide (j.f ≠ 0) && 256 * j.ke * j.s % j.f == 0 && j.fs % (max 1 j.spm) == 0
  [(decide (j.l ∈ [1, 2, 4, 8]), ansBadField 2), fieldIn 3 j.m 1 32,
   (decide (1 ≤ j.f) && decide (j.f ≤ if b then 16 else 32) && 8 * j.l * j.f == j.m * j.s * j.np, ansBadField 4),
   fieldIn 5 j.s 1 32, fieldIn 6 j.n 8 16, (decide (j.np ∈ [8, 12, 16]) && decide (j.n ≤ j.np), ansBadField 7),
   (decide (j.cs ≤ 2) && decide (j.n + j.cs ≤ j.np), ansBadField 8),
   (decide (1 ≤ j.ke) && decide (j.ke ≤ 32)
     && (if b then decide (17 ≤ j.f * j.ke) && decide (j.f * j.ke ≤ 1024) else 256 * j.ke % (max 1 j.f) == 0), ansBadField 9),
   (decide (r.u8 0xA < 8) && !(j.version == 2 && j.flags.getLsbD 1) && !(b && j.flags.getLsbD 2), ansBadField 0xA),
   (if b then decide (j.sync ≤ 7) else j.sync == 0xFF, ansBadField 0xB),
   (decide (j.dclk ≤ 31) && j.clockFits (s.dclk j.dclk).freq, ansBadField 0xC), fieldLe 0xD j.sref 31,
   (decide (10000000 ≤ j.fs) && decide (j.fs ≤ 2000000000) && spmOk
     && j.lanes.all (fun l => decide (160 ≤ l) || (s.lane l).rate == j.laneRate), ansBadField 0x10)]
  ++ (List.range 8).map fun i => (jesdLaneOk r s i, ansBadField (0x18 + 2 * i))

def opJesdLinkConfig : Op :=
  { code := 0x0403
    len := exactly 0x28
    ledger := true
    fields := fun r s =>
      [fieldLe 0 (r.u8 0) 63, fieldLe 1 (r.u8 1) 2] ++ if r.u8 1 = 0 then [flagBits r 0xA 3] else jesdFields r s
    state := fun r s => (configStates s 1 (r.u8 0) fun _ pos =>
        if r.u8 1 ≠ 0 ∧ pos < r.u8 3 then some (r.u32 0x10) else none)
      ++ [(r.u8 1 != 1 || (s.trigOut (r.u8 0xB)).mode == 0, ansState s)]
    hold := fun r s => configHold s 1 (r.u8 0)
    effect := fun r s =>
      let n := r.u8 0
      let old := s.jesd n
      let b := old.base.noLatency
      if r.u8 1 = 0 then (s.setJesd n { base := { b with state := .unconfigured, wasLost := false } }, ansDone [])
      else
        let j := jesdOf r old
        (s.setJesd n { j with
          base := { b with state := .configured, wasLost := false }, pulseMark := (s.sref j.sref).pulseNo }, ansDone []) }

/-! ## Bamgiusk converter mode (R176, Table INP-12) -/

def bglInOf (r : Req) (old : BglIn) : BglIn :=
  { base := old.base, m := r.u8 1, n := r.u8 2, cs := r.u8 3, fs := r.u32 4, lambda := r.u32 8, lambdaAux := r.u32 0xC
    auxMask := BitVec.ofNat 32 (r.u32 0x10), auxN := r.u8 0x14, auxCs := r.u8 0x15
    auxFs := (List.range 32).map fun i => r.u32 (0x18 + 4 * i) }

/-- Blocks a lane carries in a frame (25 at 25.78125 Gbit/s, 10 at 10.3125 Gbit/s). -/
def blocksPerFrame (rate : Nat) : Nat := if rate = 25781250 then 25 else 10

/-- The most samples per converter that a frame may carry (R176). -/
def frameCount (fs : Nat) : Nat := cdiv (fs * 64) 1000000000 + 1

def BglIn.slots (b : BglIn) : Nat := (below 32 fun i => b.auxMask.getLsbD i).length

/-- The payload rule of R176. -/
def BglIn.payloadOk (b : BglIn) (g : Bgl) : Bool :=
  let used := 2 * b.m * (if b.m = 0 then 0 else frameCount b.fs) + 8 * b.slots + 8
  decide (used + 4 + 8 * (g.width + 2) ≤ 8 * (g.width * blocksPerFrame g.rate))

def bglInFields (r : Req) (s : State) : List Check :=
  let b := bglInOf r {}
  let g := s.bgl (r.u8 0)
  let off := g.state == .disabled
  [(decide (r.u8 0 ≤ 63) && (off || g.mode == 1), ansBadField 0),
   (decide (b.m ≤ 32) && (off || b.payloadOk g), ansBadField 1), fieldIn 2 b.n 8 16,
   (decide (b.cs ≤ 2) && decide (b.n + b.cs ≤ 16), ansBadField 3),
   (if b.m = 0 then b.fs == 0 else decide (10000000 ≤ b.fs) && decide (b.fs ≤ 2000000000), ansBadField 4),
   fieldIn 0x14 b.auxN 8 32,
   (decide (b.auxCs ≤ 2) && decide (b.auxN + b.auxCs ≤ 32), ansBadField 0x15)] ++ reserved r 0x16 2
  ++ (List.range 32).map fun i =>
    (if b.auxMask.getLsbD i then decide (1000 ≤ b.auxFs.getD i 0) && decide (b.auxFs.getD i 0 ≤ 2000000)
      else b.auxFs.getD i 0 == 0, ansBadField (0x18 + 4 * i))

def opBglInputConfig : Op :=
  { code := 0x0404
    len := exactly 0x98
    ledger := true
    fields := bglInFields
    state := fun r s =>
      let b := bglInOf r {}
      (decide ((s.bgl (r.u8 0)).state ≠ .disabled), ansState s) :: configStates s 2 (r.u8 0) fun kind pos =>
        if kind = 2 then (if pos < b.m then some b.fs else none)
        else if b.auxMask.getLsbD pos then some (b.auxFs.getD pos 0) else none
    hold := fun r s => configHold s 2 (r.u8 0)
    effect := fun r s =>
      let n := r.u8 0
      let old := s.bglIn n
      (s.setBglIn n { bglInOf r old with
        base := { old.base.noLatency with state := .configured, wasLost := false } }, ansDone []) }

/-! ## Serial Converter Ports (R179, Table INP-13) -/

def scpOf (r : Req) (old : Scp) : Scp :=
  { base := old.base, standard := r.u8 1, lines := r.u8 2, slots := r.u8 3, slotBits := r.u8 4, n := r.u8 5, cs := r.u8 6
    flags := BitVec.ofNat 8 (r.u8 7), fs := r.u32 8, sclk := r.u32 0xC, lag := r.u8 0x10, checkPos := r.u8 0x11
    checkMask := BitVec.ofNat 32 (r.u32 0x14), checkValue := BitVec.ofNat 32 (r.u32 0x18)
    testWord := BitVec.ofNat 32 (r.u32 0x1C), slip := old.slip }

def scpFields (r : Req) : List Check :=
  let p := scpOf r {}
  [fieldIn 2 p.lines 1 4, fieldIn 3 p.slots 1 16, (decide (p.slotBits = 24 ∨ p.slotBits = 32), ansBadField 4),
   fieldIn 5 p.n 8 32, (decide (p.cs ≤ 2) && decide (p.n + p.cs ≤ p.slotBits), ansBadField 6), flagBits r 7 2,
   fieldIn 8 p.fs 1000 2000000,
   (decide (p.sclk ≤ 400000000) && p.sclk % (max 1 p.fs) == 0 && decide (p.slots * p.slotBits * p.fs ≤ p.sclk), ansBadField 0xC),
   fieldLe 0x10 p.lag 7,
   (p.checkPos == 0xFF || (decide (p.checkPos / 16 < p.lines) && decide (p.checkPos % 16 < p.slots)), ansBadField 0x11)]
  ++ reserved r 0x12 2

def opScpConfig : Op :=
  { code := 0x0405
    len := exactly 0x20
    ledger := true
    fields := fun r _ =>
      [fieldLe 0 (r.u8 0) 15, fieldLe 1 (r.u8 1) 3] ++ if r.u8 1 = 0 then flagBits r 7 2 :: reserved r 0x12 2 else scpFields r
    state := fun r s => configStates s 3 (r.u8 0) fun _ pos =>
      if r.u8 1 ≠ 0 ∧ pos / 16 < r.u8 2 ∧ pos % 16 < r.u8 3 then some (r.u32 8) else none
    hold := fun r s => configHold s 3 (r.u8 0)
    effect := fun r s =>
      let n := r.u8 0
      let old := s.scp n
      let b := old.base.noLatency
      if r.u8 1 = 0 then (s.setScp n { base := { b with state := .unconfigured, wasLost := false } }, ansDone [])
      else (s.setScp n { scpOf r old with base := { b with state := .configured, wasLost := false } }, ansDone []) }

/-! ## LINK_ALIGN (R183, Table INP-7) -/

def kindCode : LinkKind → Nat
  | .jesd => 1
  | .bgl => 2
  | .scp => 3

def linkFields (r : Req) : List Check :=
  [fieldIn 0 (r.u8 0) 1 3, fieldLe 1 (r.u8 1) (if r.u8 0 = 3 then 15 else 63)] ++ reserved r 2 2

/-- The three refusals of R183 for a JESD link. -/
def State.jesdReady (s : State) (n : Nat) : Bool :=
  let j := s.jesd n
  (s.dclk j.dclk).running && s.pulsedSince j.sref j.dclk && decide (j.pulseMark < (s.sref j.sref).pulseNo)
    && j.clockFits (s.dclk j.dclk).freq

/-- The links that are aligned together with a JESD204B link because they share its SYNC~ output (R172): those that R183
lets align and that are not aligning already. -/
def State.syncPartners (s : State) (n : Nat) : List Nat :=
  let j := s.jesd n
  if j.version ≠ 1 then []
  else (s.jesds.filter fun x => decide (x.1 ≠ n) && x.2.version == 1 && x.2.sync == j.sync
    && decide (x.2.base.state ≠ .unconfigured) && decide (x.2.base.state ≠ .aligning) && s.jesdReady x.1).map (·.1)

/-- A link that is ALIGNED and feeds an enabled channel is not aligned anew (R182). -/
def State.holdsAlign (s : State) (kind n : Nat) : Bool := (s.link kind n).state == .aligned && s.linkFeeds kind n

/-- The first absolute frame whose FS edge is yet to come. -/
def Scp.nextFrame (p : Scp) (t : T16) : Int := ceilR ((t : Rat) * ((max 1 p.fs : Nat) : Rat) / (unitsPerSec : Rat))

/-- A link enters ALIGNING (Table INP-7): a Serial Converter Port starts SCLK and FS on the next absolute frame, SYNC~ of a
JESD204B link goes low, a Bamgiusk Link awaits its next frame. -/
def beginAlign (kind n : Nat) (job : Option JobRef) (s : State) : State :=
  let b := s.link kind n
  let s := s.setLink kind n { b with state := .aligning, wasLost := b.state == .lost, alignTick := s.tick, job := job }
  if kind = 3 then
    let p := s.scp n
    let j := p.nextFrame s.now
    (s.setScp n { p with good := 0, badRun := 0, startFrame := j }).emit (.frameSync n (rheR (p.fsEdge j)) p.activeLow)
  else if kind = 2 then s.setBglIn n { s.bglIn n with nextIndex := none, auxNext := [], badRun := 0, good := 0, mark := none }
  else if (s.jesd n).version = 1 then s.setTrigOut (s.jesd n).sync { s.trigOut (s.jesd n).sync with syncLow := true }
  else s

def opLinkAlign : Op :=
  { code := 0x0406
    len := exactly 4
    ledger := true
    fields := fun r _ => linkFields r
    state := fun r s =>
      let b := s.link (r.u8 0) (r.u8 1)
      [(decide (b.state ≠ .unconfigured ∧ b.state ≠ .aligning) && !s.holdsAlign (r.u8 0) (r.u8 1)
        && (decide (r.u8 0 ≠ 1) || (s.jesdReady (r.u8 1) && (s.syncPartners (r.u8 1)).all fun m => !s.holdsAlign 1 m)), ansState s)]
    effect := fun r s =>
      let kind := r.u8 0
      let n := r.u8 1
      let (j, s) := takeJob 0x0406 r s
      let together := if kind = 1 then s.syncPartners n else []
      (forEach together (fun m t => beginAlign 1 m none t) (beginAlign kind n (some j) s), ansAccepted j.slot) }

/-- Ticks of the alignment bound: 10 ms, or 18 frame periods of a slow Serial Converter Port. -/
def State.alignBound (s : State) (kind n : Nat) : Nat :=
  if kind = 3 then max 10000000 (cdiv (18 * 1000000000) (max 1 (s.scp n).fs)) else 10000000

/-- ALIGN_BOUND_EXPIRY. -/
def alignBoundExpiry (k : LinkKind) (n : Nat) (s : State) : State :=
  let b := s.link (kindCode k) n
  if b.state = .aligning ∧ b.alignTick + s.alignBound (kindCode k) n ≤ s.tick then failAlign (kindCode k) n 0 s else s

/-- The hub multiframe boundary nearest to a time, as its number (R171, R184). -/
def Jesd.nearest (j : Jesd) (t : Rat) : Int := rheR (t * (j.fs : Rat) / ((unitsPerSec * j.spm : Nat) : Rat))

/-- The instant of a boundary, in 2^-16 ns. -/
def Jesd.boundary (j : Jesd) (i : Int) : Rat := (i : Rat) * ((unitsPerSec * j.spm : Nat) : Rat) / (j.fs : Rat)

/-- The first boundary at or after a time. -/
def Jesd.following (j : Jesd) (t : Rat) : Int := ceilR (t * (j.fs : Rat) / ((unitsPerSec * j.spm : Nat) : Rat))

def maxRat : List Rat → Rat
  | [] => 0
  | [x] => x
  | x :: xs => max x (maxRat xs)

def minRat : List Rat → Rat
  | [] => 0
  | [x] => x
  | x :: xs => min x (minRat xs)

/-- Release latency in ns after the largest lane latency (R184). -/
def releaseOf (lat : Rat) : Nat := (ceilR (lat / 65536)).toNat + 4

/-- A JESD link's alignment from its stamps (R184). SYNC~ of a JESD204B link goes high on the multiframe boundary after its lanes
have reached code-group synchronisation. -/
def alignJesd (n : Nat) (f : AlignFound) (s : State) : State :=
  let j := s.jesd n
  let a0 : Rat := ((f.stamps.headD 0 : Nat) : Rat)
  let b := j.boundary (j.nearest (a0 - (j.lambda : Rat)))
  let lats : List Rat := f.stamps.map fun (a : Nat) => (a : Rat) - b
  let d := a0 - b - (j.lambda : Rat)
  let s := if j.version = 1 then s.emit (.syncHigh j.sync (rheR (j.boundary (j.following (f.synced : Rat))))) else s
  if j.version = 1 ∧ !f.configMatches then failAlign 1 n 2 (raise 5 2 (linkUnit 1 n) s)
  else if j.tmf * 65536 / 4 < max d (-d) then failAlign 1 n 8 s
  else if 100 * 65536 < maxRat lats - minRat lats then failAlign 1 n 4 s
  else endAlign 1 n (releaseOf (maxRat lats)) (rheR b).toNat (lats.map rheR) s

/-- The rate in which a Bamgiusk Link's frame index counts: the wideband rate, or the lowest enabled slot's. -/
def BglIn.rate (b : BglIn) : Nat :=
  if b.m ≠ 0 then b.fs else match below 32 fun i => b.auxMask.getLsbD i with
    | i :: _ => b.auxFs.getD i 0
    | [] => 0

/-- A Bamgiusk Link's alignment, after 1,024 consecutive good frames: the arrival of the stamped header minus the instant of that
frame's first sample. -/
def alignBgl (n : Nat) (s : State) : State :=
  let b := s.bglIn n
  match b.mark with
  | some (index, arrival) =>
    let at0 : Rat := (index : Rat) * unitsPerSec / (b.rate : Rat)
    let lat := (arrival : Rat) - at0
    if (s.bgl n).state = .up ∧ 1024 ≤ b.good then endAlign 2 n (releaseOf lat) (rheR at0).toNat [rheR lat] s else s
  | none => s

/-- A Serial Converter Port's alignment: with a check position, after 16 matching frames. -/
def alignScp (n : Nat) (s : State) : State :=
  let p := s.scp n
  if p.checkPos ≠ 0xFF ∧ p.good < 16 then s else endAlign 3 n 3 (rheR (p.fsEdge p.startFrame)).toNat [] s

/-- LINK_ALIGN_DONE: what the procedure found. -/
def linkAlignDone (k : LinkKind) (n : Nat) (f : AlignFound) (s : State) : State :=
  let b := s.link (kindCode k) n
  if b.state ≠ .aligning ∨ s.inReset 5 (linkUnit (kindCode k) n) then s
  else match k with
    | .jesd => if f.stamps.length = (s.jesd n).l ∧ f.stamps ≠ [] then alignJesd n f s else s
    | .bgl => alignBgl n s
    | .scp => alignScp n s

/-! ## LINK_STATUS -/

/-- The error counter of a live JESD link counts beside the commands: its present value is free (log entry 49). -/
def State.linkErrors (s : State) (kind n : Nat) : W32 × State :=
  let b := s.link kind n
  if kind = 1 ∧ (b.state = .aligned ∨ b.state = .aligning) then
    let (d, s) := s.draw
    let e : W32 := BitVec.ofNat 32 (min 0xFFFFFFFF (b.errors.toNat + (Config.freeWord d).toNat))
    (e, s.setLink kind n { b with errors := e })
  else (b.errors, s)

def opLinkStatus : Op :=
  { code := 0x0407
    len := exactly 4
    reads := fun _ _ => true
    fields := fun r _ => linkFields r
    effect := fun r s =>
      let (e, s) := s.linkErrors (r.u8 0) (r.u8 1)
      let b := s.link (r.u8 0) (r.u8 1)
      (s.setLink (r.u8 0) (r.u8 1) { b with flags := b.flags &&& 0xE0 }, ansDone (linkStatus s (r.u8 0) (r.u8 1) e.toNat)) }

/-! ## Loss and drift (R173, R181, R184) -/

/-- INPUT_LINK_LOST. -/
def inputLinkLost (k : LinkKind) (n : Nat) (s : State) : State := loseLink (kindCode k) n s

/-- MULTIFRAME_BOUNDARY_STAMP: a boundary more than 2 ns off its place at alignment makes the link lost; smaller drift
shows in the latencies. -/
def boundaryStamp (n : Nat) (stamps : List T16) (s : State) : State :=
  let j := s.jesd n
  if j.base.state ≠ .aligned ∨ stamps.length ≠ j.base.latsAligned.length ∨ stamps = [] then s
  else
    let b := j.boundary (j.nearest (((stamps.headD 0 : Nat) : Rat) - ((j.base.latsAligned.headD 0 : Int) : Rat)))
    let lats := stamps.map fun (a : Nat) => rheR ((a : Rat) - b)
    if (lats.zip j.base.latsAligned).any fun x => decide (131072 < (x.1 - x.2).natAbs) then
      let s := s.setJesd n { j with base := { j.base with flags := j.base.flags ||| 1 } }
      loseLink 1 n (raise 5 1 (linkUnit 1 n) s)
    else s.setJesd n { j with base := { j.base with lats := lats } }

/-- A received sample reaches the channels of a source that release words. -/
def bring (kind n : Nat) (take : Nat → Channel → Channel) (s : State) : State :=
  forEach (s.linkChans kind n) (fun c t => if (t.chan c).releases then t.setChan c (take c (t.chan c)) else t) s

/-- The check position of a frame: four mismatches in a row set the flag (R181); a port that is ALIGNED is then lost. -/
def checkFrame (n : Nat) (matching : Bool) (s : State) : State :=
  let p := s.scp n
  if matching then s.setScp n { p with good := p.good + 1, badRun := 0 }
  else if p.badRun + 1 < 4 then s.setScp n { p with good := 0, badRun := p.badRun + 1 }
  else
    let s := s.setScp n { p with good := 0, badRun := 0, base := { p.base with flags := p.base.flags ||| 16 } }
    if p.base.state = .aligned then loseLink 3 n (raise 5 3 (linkUnit 3 n) s) else s

/-- SCP_FRAME_RX: absolute frame j, as the bits that each line brought after the FS edge. The word of a slot is absolute sample
j - lag; its slot is left-justified in the 32-bit container. -/
def scpFrameRx (n : Nat) (f : ScpFrame) (s : State) : State :=
  let j := f.index
  let p := s.scp n
  let word := fun (pos : Nat) => p.slotWord (pos / 16) (pos % 16) (f.lines.getD (pos / 16) [])
  if (p.base.state ≠ .aligning ∧ p.base.state ≠ .aligned) ∨ j < p.startFrame then s
  else
    let s := bring 3 n (fun _ c => c.arrive (p.index j) (BitVec.ofNat 32 (word c.position * 2 ^ (32 - p.slotBits)))) s
    if p.checkPos = 0xFF then s
    else checkFrame n (BitVec.ofNat 32 (word p.checkPos) &&& p.checkMask == p.checkValue) s

/-! ## Bamgiusk frames (R174-R177) -/

/-- The auxiliary entries of enabled slots: slot, absolute index, container. -/
def auxOf (b : BglIn) (arrival : T16) (es : List (Nat × Nat × Nat)) : List (Nat × Int × Nat) :=
  (es.filter fun e => decide (e.1 < 32) && b.auxMask.getLsbD e.1).map fun e =>
    (e.1, extendIndex 16 e.2.1 (max 1 (b.auxFs.getD e.1 0)) ((arrival : Rat) - (b.lambdaAux : Rat)), e.2.2)

/-- An auxiliary index is not the previous index of its slot plus 1. -/
def auxBreaks (b : BglIn) (aux : List (Nat × Int × Nat)) : Bool :=
  aux.any fun e => decide (tget 0 b.auxNext e.1 ≠ 0) && decide (tget 0 b.auxNext e.1 ≠ e.2.1 + 1)

/-- The frame's first index differs from the previous first index plus the previous count. -/
def indexBreaks (b : BglIn) (first : Int) : Bool := match b.nextIndex with
  | some i => decide (i ≠ first)
  | none => false

/-- The words of a good frame reach the channels of the link. -/
def deliverFrame (n : Nat) (b : BglIn) (payload : Bytes) (first : Int) (count : Nat) (aux : List (Nat × Int × Nat)) (s : State) : State :=
  bring 2 n (fun _ c =>
    if c.kind = 2 then
      (List.range count).foldl (fun c (i : Nat) => c.arrive (first + (i : Int)) (BitVec.ofNat 32 (sampleWord payload b.m i c.position))) c
    else (aux.filter fun e => e.1 == c.position).foldl (fun c e => c.arrive e.2.1 (BitVec.ofNat 32 e.2.2)) c) s

/-- What a frame leaves in its link: the indices that the next must continue, the run of good or bad frames, the counts. After a frame
without a header there is no index that the next must continue. -/
def BglIn.meet (b : BglIn) (bad crcOk header locked : Bool) (first : Int) (count : Nat) (aux : List (Nat × Int × Nat)) (arrival : T16) : BglIn :=
  { b with
    nextIndex := if header then some (first + (count : Int)) else none
    auxNext := aux.foldl (fun t e => tset 0 t e.1 (e.2.1 + 2)) b.auxNext
    badRun := if bad then b.badRun + 1 else 0
    good := if bad then 0 else b.good + 1
    timeLocked := locked
    mark := if b.base.state = .aligning ∧ b.good = 0 then (if bad then none else some (first, arrival)) else b.mark
    base := { b.base with
      badFrames := if bad then b.base.badFrames + 1 else b.base.badFrames
      errors := if crcOk then b.base.errors else BitVec.ofNat 32 (min 0xFFFFFFFF (b.base.errors.toNat + 1)) } }

/-- BGL_FRAME_RX: a frame of a converter link that is aligned or aligning. A bad frame delivers no words, so that its samples are
substituted when their release is due (R177, R190). -/
def bglFrameRx (n : Nat) (f : BglFrame) (s : State) : State :=
  let b := s.bglIn n
  let g := s.bgl n
  if (b.base.state ≠ .aligned ∧ b.base.state ≠ .aligning) ∨ g.state ≠ .up ∨ s.discards g.lanes then s
  else
    let p := framePayload g.width (blocksPerFrame g.rate) f
    let crcOk := payloadCrc p
    let h := frameHeader f
    let count := match h with
      | some x => getU x 1 1
      | none => 0
    let first := match h with
      | some x => extendIndex 32 (getU x 3 4) (max 1 b.rate) ((f.arrival : Rat) - (b.lambda : Rat))
      | none => 0
    let es := (p.drop (2 * b.m * count)).take (p.length - 4 - 2 * b.m * count)
    let aux := if crcOk && h.isSome then auxOf b f.arrival (auxEntries (es.length / 8) es) else []
    let bad := !crcOk || h.isNone || decide (frameCount b.fs < count) || indexBreaks b first || auxBreaks b aux
    let unlocked : Bool := match h with
      | some x => !bit (getU x 2 1) 0
      | none => false
    let b' := b.meet bad crcOk h.isSome (if h.isSome then !unlocked else b.timeLocked) first count aux f.arrival
    let s := s.setBglIn n b'
    let s := if bad then raise 5 4 (linkUnit 2 n) s else deliverFrame n b p first count aux s
    if 16 ≤ b'.badRun ∨ unlocked then loseLink 2 n s else s

/-- The boundary that a link was aligned on follows the stepped scale (R186). -/
def stepLink (sec : Int) (kind n : Nat) (s : State) : State :=
  let b := s.link kind n
  if b.measured then s.setLink kind n { b with boundary := ((b.boundary : Int) + sec * unitsPerSec).toNat } else s

/-- The absolute frame numbers of a port follow a whole-second step (R186). -/
def stepScp (sec : Int) (n : Nat) (s : State) : State :=
  let p := s.scp n
  s.setScp n { p with startFrame := p.startFrame + sec * (p.fs : Int) }

/-- The indices a Bamgiusk Link expects follow a whole-second step (R186). -/
def stepBgl (sec : Int) (n : Nat) (s : State) : State :=
  let b := s.bglIn n
  s.setBglIn n { b with
    nextIndex := b.nextIndex.map (· + sec * (b.rate : Int))
    mark := b.mark.map fun m => (m.1 + sec * (b.rate : Int), ((m.2 : Int) + sec * unitsPerSec).toNat)
    auxNext := b.auxNext.map fun e => (e.1, if e.2 = 0 then 0 else e.2 + sec * ((b.auxFs.getD e.1 0 : Nat) : Int)) }

/-! ## The message channel (R178) -/

/-- BGL_MESSAGE_RX: the message blocks received from the start block of a message to its end block. A digitiser message is passed to the
host; a message with a failed block is counted. -/
def bglMessageRx (n stream : Nat) (blocks : List Bytes) (s : State) : State :=
  let b := s.bgl n
  if b.state ≠ .up ∨ s.discards b.lanes then s
  else if !blocks.all checkHolds then s.setBgl n { b with msgBad := b.msgBad + 1 }
  else match readMessage stream blocks with
    | none => s
    | some m =>
      let len := getU m 2 2
      if getU m 0 1 ≠ 0x11 ∨ b.mode ≠ 1 ∨ m.length ≠ 4 + len then s
      else if 216 < len then s.setBgl n { b with msgLong := b.msgLong + 1 }
      else notify 0x0481 (le 1 n ++ zeros 1 ++ le 2 len ++ padTo (4 * cdiv len 4) (sub m 4 len)) s

def opBglMessage : Op :=
  { code := 0x040C
    len := fun p => if 8 ≤ p.length ∧ p.length ≤ 220 then none else some 220
    fields := fun r _ =>
      let n := r.u16 2
      [fieldLe 0 (r.u8 0) 63] ++ reserved r 1 1 ++
      [(decide (1 ≤ n) && decide (n ≤ 216) && decide (r.payload.length = 4 + 4 * cdiv n 4), ansBadField 2)]
        ++ reserved r (4 + n) (4 * cdiv n 4 - n)
    state := fun r s => [((s.bgl (r.u8 0)).state == .up && (s.bgl (r.u8 0)).mode == 1, ansState s)]
    effect := fun r s =>
      let b := s.bgl (r.u8 0)
      (s.setBgl (r.u8 0) { b with out1 := b.out1 ++ messageBlocks 1 (messageBytes 0x10 (r.bytes 4 (r.u16 2))) }, ansDone []) }

end Sys2Proof.Machine
end

