-- ==== Sys2Proof/Machine/Lanes.lean ====
section
/-! DEFINITION. Serial lanes and Bamgiusk Links (05_lanes): configuration, acquisition, power, re-equalisation,
link bring-up, bit-slip and PRBS checks, with their opcodes. -/

namespace Sys2Proof.Machine

/-! ## Protocols and rates (Table LANE-1, R138-R140) -/

def rate10 : Nat := 10312500
def rate25 : Nat := 25781250

/-- The line rates in kbit/s that a protocol allows. -/
def rateAllowed (protocol rate : Nat) : Bool :=
  match protocol with
  | 0 => rate == 0
  | 1 => decide (3125000 ≤ rate) && decide (rate ≤ 12500000)
  | 2 => decide (6375000 ≤ rate) && decide (rate ≤ 32500000)
  | 3 => rate == 0 || rate == rate10
  | 4 => rate == 0 || rate == rate25
  | 5 => rate == 0 || rate == rate25
  | 6 => rate == rate10 || rate == rate25
  | 7 => rate == rate10 || rate == rate25
  | _ => decide (3125000 ≤ rate) && decide (rate ≤ 32500000)

/-- The line rate that a lane of a protocol takes. -/
def rateTaken (protocol rate : Nat) : Nat :=
  if protocol = 3 then rate10 else if protocol = 4 ∨ protocol = 5 then rate25 else rate

/-- The protocol uses the transmit, the receive direction. -/
def usesTx (protocol : Nat) : Bool := decide (3 ≤ protocol)
def usesRx (protocol : Nat) : Bool := decide (1 ≤ protocol)

def isUplink (protocol : Nat) : Bool := decide (3 ≤ protocol) && decide (protocol ≤ 5)
def isConverter (protocol : Nat) : Bool := protocol == 1 || protocol == 2 || protocol == 6

/-- The transmit direction is not OFF, or on its way out of OFF. -/
def Lane.txOn (l : Lane) : Bool := l.txPower != 2 || l.txWaking

def quadLanes (l : Nat) : List Nat := (List.range 4).map (l / 4 * 4 + ·)

/-- The lanes that a LANE_CONFIG for lane l with a protocol sets (R140). -/
def State.configured (s : State) (l protocol : Nat) : List Nat :=
  if protocol = 5 ∨ (l % 4 = 0 ∧ (s.lane l).protocol = 5) then quadLanes l else [l]

/-- The protocol of lane x after that LANE_CONFIG. -/
def State.protocolAfter (s : State) (l protocol x : Nat) : Nat :=
  if (s.configured l protocol).contains x then (if protocol = 5 ∨ x = l then protocol else 0) else (s.lane x).protocol

/-- The transmit rate of a quad's other lanes agrees with a rate (R138). -/
def State.rateFits (s : State) (l rate : Nat) (but : List Nat) : Bool :=
  (quadLanes l).all fun x => but.contains x || !(s.lane x).txOn || (s.lane x).rate == rate

/-- R140: the limits, and one protocol in a quad that has an uplink lane. -/
def protocolFits (s : State) (l protocol : Nat) : Bool :=
  let after := s.protocolAfter l protocol
  decide ((below 160 fun x => isConverter (after x)).length ≤ 112)
    && decide ((below 160 fun x => isUplink (after x)).length ≤ 48)
    && (quadLanes l).all fun x => !isUplink (after x) || (quadLanes l).all fun y => after y == 0 || after y == after x

/-! ## LANE_EVENT and Table LANE-8 -/

/-- Draws the invalid characters met since the counter was last read. -/
def countCodes (l : Nat) (s : State) : State :=
  let x := s.lane l
  if x.rxPower = 0 ∧ 1 ≤ x.protocol ∧ x.protocol ≤ 7 then
    let (d, s) := s.draw
    s.setLane l { x with codeErrors := BitVec.ofNat 32 (min 0xFFFFFFFF (x.codeErrors.toNat + (Config.freeWord d).toNat % 2 ^ 32)) }
  else s

/-- State codes of Table LANE-4. -/
def bglCode : BglState → Nat
  | .disabled => 0
  | .locking => 1
  | .training => 2
  | .deskew => 3
  | .up => 4
  | .rawAlign => 5

/-- LANE_STATUS (Table LANE-8). -/
def laneStatus (s : State) (l : Nat) : Bytes :=
  let x := s.lane l
  let rx := mask [x.signal, x.cdr, x.aligned, x.inverted, s.laneInUse l, s.laneTraffic l, x.reeq.isSome, s.timeLocked (l / 4)]
  let link := match s.laneBgl l with
    | some n => le 1 n ++ le 1 (bglCode (s.bgl n).state)
    | none => [0xFF, 0xFF]
  le 2 l ++ le 1 x.protocol ++ le 1 (x.txPower + 4 * x.rxPower) ++ le 4 x.rate ++ le 1 rx ++ link ++ le 1 (b2n x.txInvert)
    ++ le 4 x.losses.toNat ++ le 4 x.codeErrors.toNat ++ [x.ctle] ++ le 1 x.pre ++ le 1 x.main ++ le 1 x.post
    ++ [x.eyeH, x.eyeV] ++ zeros 2

/-- LANE_EVENT: an event of a link or lane, with the lane's status. -/
def laneEvent (event link lane : Nat) (s : State) : State :=
  let s := countCodes lane s
  notify 0x0380 (le 1 event ++ le 1 link ++ le 2 lane ++ laneStatus s lane) s

/-! ## LANE_CONFIG (R140, R155) -/

/-- One lane takes a protocol, a rate and its transmit settings; a receiver that is ACTIVE acquires anew. Of protocol 8, which uses
"either or both" directions, LANE_CONFIG makes both ACTIVE (DESIGN CHOICE, log entry 111). -/
def setProtocol (l protocol rate flags pre main post : Nat) (s : State) : State :=
  let x := s.lane l
  s.setLane l { x with
    protocol := protocol, rate := rateTaken protocol rate, txInvert := bit flags 0, pre := pre, main := main, post := post
    txPower := if usesTx protocol then 0 else 2, rxPower := if usesRx protocol then 0 else 2, txWaking := false, rxWaking := none
    signal := false, cdr := false, aligned := false, inverted := false, slip := 0
    prbs := { x.prbs with tx := 0, rx := 0, locked := false, inverted := false } }

def laneConfigFields (r : Req) (s : State) : List Check :=
  let l := r.u16 0
  let p := r.u8 2
  let taps := if p ≤ 2 then
      [(r.u8 8 == 0, ansBadField 8), (r.u8 9 == 0, ansBadField 9), (r.u8 0xA == 0, ansBadField 0xA)]
    else [fieldLe 8 (r.u8 8) 15, fieldIn 9 (r.u8 9) 32 63, fieldLe 0xA (r.u8 0xA) 31,
      (decide (r.u8 8 + r.u8 0xA + 16 ≤ r.u8 9), ansBadField 8)]
  [(decide (l < 160) && (l % 4 == 0 || (s.lane l).protocol != 5), ansBadField 0),
   (decide (p ≤ 8) && (l % 4 == 0 || p != 5) && protocolFits s l p, ansBadField 2), flagBits r 3 1,
   (rateAllowed p (r.u32 4) && (!usesTx p || s.rateFits l (rateTaken p (r.u32 4)) (s.configured l p)), ansBadField 4)]
    ++ taps ++ reserved r 0xB 1

/-- A group names a quad. -/
def State.quadNamed (s : State) (q : Nat) : Bool := s.upl.quadsA.contains q || s.upl.quadsB.contains q

def opLaneConfig : Op :=
  { code := 0x0301
    len := exactly 0xC
    fields := laneConfigFields
    state := fun r s =>
      [((s.configured (r.u16 0) (r.u8 2)).all fun x => !s.laneInUse x, ansState s),
       (!s.quadNamed (r.u16 0 / 4) || r.u8 2 == 0 || isUplink (r.u8 2), ansState s)]
    hold := fun r s => [((s.configured (r.u16 0) (r.u8 2)).all fun x => (s.lane x).reeq.isNone, ansBusy)]
    effect := fun r s =>
      let l := r.u16 0
      let p := r.u8 2
      (forEach (s.configured l p) (fun x t =>
        if p = 5 ∨ x = l then setProtocol x p (r.u32 4) (r.u8 3) (r.u8 8) (r.u8 9) (r.u8 0xA) t
        else setProtocol x 0 0 0 0 0 0 t) s, ansDone []) }

/-! ## LANE_STATUS -/

def laneReadFields (r : Req) : List Check := [fieldLe 0 (r.u16 0) 159, flagBits r 2 1] ++ reserved r 3 1

def opLaneStatus : Op :=
  { code := 0x0302
    len := exactly 4
    reads := fun _ _ => true
    fields := fun r _ => laneReadFields r
    effect := fun r s =>
      let l := r.u16 0
      let s := countCodes l s
      let a := laneStatus s l
      (if bit (r.u8 2) 0 then s.setLane l { s.lane l with losses := 0, codeErrors := 0 } else s, ansDone a) }

/-! ## The PRBS checker's counts (R159) -/

/-- The checker's counts up to now. While it is locked and no re-equalisation suspends it, it has checked the bits that the line rate
brings (DESIGN CHOICE, log entry 105); how many of them were in error is free. -/
def countPrbs (l : Nat) (s : State) : State :=
  let x := s.lane l
  let p := x.prbs
  if p.locked ∧ x.reeq.isNone then
    let n := x.rate * s.tick / 1000000 - x.rate * p.countTick / 1000000
    { s with freeCount := s.freeCount + 1 }.setLane l { x with prbs := { p with
      bits := p.bits + BitVec.ofNat 64 n, errors := p.errors + BitVec.ofNat 64 (min n (Config.prbsErrors s.freeCount).toNat)
      countTick := s.tick } }
  else s

/-- A receiver that leaves ACTIVE, or whose checker starts anew, checks no more. -/
def stopChecker (l : Nat) (s : State) : State :=
  let s := countPrbs l s
  let x := s.lane l
  s.setLane l { x with prbs := { x.prbs with locked := false } }

/-! ## What follows a lane (R153, R361) -/

/-- LANE_EVENT of a link, with the status of its first lane. -/
def bglEvent (event n : Nat) (s : State) : State := laneEvent event n (s.bgl n).first s

/-- The Easel link that a Bamgiusk Link is goes down: the servo of a hub that follows a keeper heard on it alone has
lost its source (Table XFER-4). -/
def easelLost (n : Nat) (s : State) : State :=
  let b := s.bgl n
  let e := b.easel
  let hears := fun (k : Nat) => beatHub (s.heardOn k).frame == s.xfer.hubIdF.toNat
  if s.fwRuns && b.mode == 2 && s.easelOn e && s.xfer.following && !s.xfer.network && hears e
      && !((s.heardLinks.filter (· ≠ e)).any hears) then sourceLost s
  else s

/-- A link leaves UP: LINK_DOWN is told, its converter input is lost. -/
def bglLeaves (n : Nat) (after : BglState) (s : State) : State :=
  let b := s.bgl n
  let s := s.setBgl n { b with state := after, downs := b.downs + 1, readyTx := false, readyRx := false, stateTick := s.tick }
  easelLost n (loseLink 2 n (bglEvent 3 n s))

/-- The state that a link locks anew in. -/
def Bgl.restart (b : Bgl) : BglState := if b.start = 2 then .rawAlign else .locking

/-- BGL_LINK_DOWN. -/
def bglLinkDown (n : Nat) (s : State) : State :=
  if (s.bgl n).state = .up then bglLeaves n (s.bgl n).restart (raise 4 1 (256 + n) s) else s

/-- An aligned receiver has lost its alignment: the Bamgiusk Link in UP, or the uplink port, that it is a lane of goes down. -/
def laneGone (l : Nat) (s : State) : State :=
  let s := match s.laneBgl l with
    | some n => bglLinkDown n s
    | none => s
  match s.lanePort l with
  | some p => portDropped p 1 s
  | none => s

/-! ## Power (Table LANE-5, R155, R156) -/

/-- A used direction leaves ACTIVE. -/
def leavesActive (used : Bool) (power wanted : Nat) : Bool := used && power == 0 && wanted != 0 && wanted != 0xFF

def setTx (l q : Nat) (s : State) : State :=
  let x := s.lane l
  if q = 0xFF then s
  else if q = 0 then s.setLane l { x with txWaking := x.txPower != 0 }
  else s.setLane l { x with txPower := q, txWaking := false }

def setRx (l q : Nat) (s : State) : State :=
  let x := s.lane l
  if q = 0xFF then s
  else if q = 0 then s.setLane l { x with rxWaking := if x.rxPower = 0 then none else some x.rxPower }
  else
    let s := stopChecker l s
    let x := s.lane l
    if q = 2 then
      let t := s.setLane l { x with rxPower := 2, rxWaking := none, signal := false, cdr := false, aligned := false }
      if x.aligned then laneGone l t else t
    else s.setLane l { x with rxPower := 1, rxWaking := none }

def opLanePower : Op :=
  { code := 0x0303
    len := exactly 4
    fields := fun r s =>
      let l := r.u16 0
      let x := s.lane l
      let t := r.u8 2
      [fieldLe 0 l 159,
       ((decide (t ≤ 2) || t == 0xFF) && !((x.protocol == 1 || x.protocol == 2) && decide (t < 2))
         && (decide (2 ≤ t) || s.rateFits l x.rate [l]), ansBadField 2),
       (decide (r.u8 3 ≤ 2) || r.u8 3 == 0xFF, ansBadField 3)]
    state := fun r s =>
      let x := s.lane (r.u16 0)
      [(!s.laneTraffic (r.u16 0) || !(leavesActive (usesTx x.protocol) x.txPower (r.u8 2)
          || leavesActive (usesRx x.protocol) x.rxPower (r.u8 3)), ansState s)]
    hold := fun r s => [((s.lane (r.u16 0)).reeq.isNone, ansBusy)]
    effect := fun r s => (setRx (r.u16 0) (r.u8 3) (holdRate (setTx (r.u16 0) (r.u8 2) s)), ansDone []) }

/-- LANE_WAKE_COMPLETE: the direction is ACTIVE; a receiver from OFF then acquires anew, its alignment being lost. -/
def laneWakeComplete (l : Nat) (rx : Bool) (s : State) : State :=
  let x := s.lane l
  if rx then
    (if x.rxWaking.isSome then s.setLane l { x with rxPower := 0, rxWaking := none } else s)
  else if x.txWaking then holdRate (s.setLane l { x with txPower := 0, txWaking := false })
  else s

/-! ## Re-equalisation (R146, R147) -/

def opLaneReeq : Op :=
  { code := 0x0304
    len := exactly 4
    ledger := true
    fields := fun r _ => [fieldLe 0 (r.u16 0) 159] ++ reserved r 2 2
    state := fun r s =>
      [(!s.laneTraffic (r.u16 0) || (match s.lanePort (r.u16 0) with
          | some p => s.otherCarries p
          | none => false), ansState s)]
    hold := fun r s => [((s.lane (r.u16 0)).reeq.isNone, ansBusy)]
    effect := fun r s =>
      let (j, s) := takeJob 0x0304 r (countPrbs (r.u16 0) s)
      let s := s.setLane (r.u16 0) { s.lane (r.u16 0) with reeq := some j }
      (match s.lanePort (r.u16 0) with
        | some p => portDropped p 2 s
        | none => s, ansAccepted j.slot) }

/-- REEQ_COMPLETE: the lane has its new estimates, the port's hold ends and may qualify again. -/
def reeqComplete (l : Nat) (ctle eyeH eyeV : Byte) (s : State) : State :=
  let x := s.lane l
  match x.reeq with
  | none => s
  | some j =>
    let s := s.setLane l { x with
      reeq := none, ctle := ctle &&& 0x1F, eyeH := eyeH, eyeV := eyeV, prbs := { x.prbs with countTick := s.tick } }
    let s := match s.lanePort l with
      | some p => s.setPort p { s.port p with goodTick := s.tick }
      | none => s
    complete j 0 0 ([eyeH, eyeV] ++ zeros 2) s

/-! ## Acquisition (R142, R143) -/

/-- The lane belongs to a Bamgiusk Link in raw alignment, where nothing aligns by itself (R152). -/
def State.rawLane (s : State) (l : Nat) : Bool := match s.laneBgl l with
  | some n => (s.bgl n).state == .rawAlign
  | none => false

/-- A lane does not acquire while it, its link or its quad is in block reset (R377, R378, Table FLT-1). -/
def State.laneHeld (s : State) (l : Nat) : Bool :=
  s.inReset 4 l || s.inReset 4 (512 + l / 4) || (match s.laneBgl l with
    | some n => s.inReset 4 (256 + n)
    | none => false)

/-- LANE_ACQUIRED. -/
def laneAcquired (l : Nat) (inverted : Bool) (ctle eyeH eyeV : Byte) (s : State) : State :=
  let x := s.lane l
  if x.rxPower = 0 ∧ 1 ≤ x.protocol ∧ x.protocol ≤ 7 ∧ !x.aligned ∧ x.reeq.isNone ∧ !s.rawLane l ∧ !s.laneHeld l then
    let s := s.setLane l { x with
      signal := true, cdr := true, aligned := true, inverted := inverted, ctle := ctle &&& 0x1F, eyeH := eyeH, eyeV := eyeV }
    let s := match s.lanePort l with
      | some p => s.setPort p { s.port p with goodTick := s.tick }
      | none => s
    laneEvent 1 ((s.laneBgl l).getD 0xFF) l s
  else s

/-- LANE_LOCK_LOST: alignment is lost, or with it or after it (`cdr` false) clock-and-data recovery. -/
def laneLockLost (l : Nat) (cdr : Bool) (s : State) : State :=
  let x := s.lane l
  if x.rxPower = 0 ∧ 1 ≤ x.protocol ∧ x.protocol ≤ 7 ∧ (x.aligned ∨ (x.cdr ∧ !cdr)) then
    let s := s.setLane l { x with
      aligned := false, cdr := x.cdr && cdr, signal := x.signal && cdr, losses := if x.aligned then x.losses + 1 else x.losses }
    let t := laneEvent 0 ((s.laneBgl l).getD 0xFF) l (slipPhase l (raise 4 0 l s))
    if x.aligned then laneGone l t else t
  else s

/-! ## Bamgiusk Links (R148-R153, Table LANE-4) -/

/-- The wiring field is a permutation of the link's lanes. -/
def wiringOk (r : Req) (w : Nat) : Bool :=
  let v := (List.range w).map fun i => r.u8 (0xC + i)
  (List.range w).all (v.contains ·) && isZero r.payload (0xC + w) (16 - w)

/-- Two links may share lanes, or an Easel number: no rule refuses it (DESIGN CHOICE, log entry 109). -/
def bglConfigFields (r : Req) (s : State) : List Check :=
  let w := r.u8 2
  let peer := r.u8 1 == 2
  let first := r.u16 4
  let lanes := (List.range w).map (first + ·)
  let rate := if r.u8 7 = 0 then rate10 else rate25
  [fieldLe 0 (r.u8 0) 63, fieldLe 1 (r.u8 1) 2] ++
  (if r.u8 1 = 0 then [] else
    [(decide (w ∈ [1, 2, 4, 8, 16]) && (!peer || w == 1)
       && (peer || (s.bglIn (r.u8 0)).base.state == .unconfigured || (s.bglIn (r.u8 0)).payloadOk { width := w, rate := rate }),
      ansBadField 2),
     (decide (r.u8 3 ≤ 2) && (w != 16 || r.u8 3 == 1) && (!peer || r.u8 3 == 0), ansBadField 3),
     (first % (max 1 (min w 4)) == 0 && decide (first + w ≤ 160)
       && lanes.all (fun l => (s.lane l).protocol == if peer then 7 else 6), ansBadField 4),
     (decide (r.u8 6 ≤ if peer then 7 else 0), ansBadField 6),
     (decide (r.u8 7 ≤ 1) && lanes.all (fun l => (s.lane l).rate == rate), ansBadField 7)])
  ++ reserved r 9 3 ++
  (if r.u8 1 = 0 ∨ r.u8 3 = 0 then [] else [(wiringOk r w, ansBadField 0xC)])

/-- The link carries admitted traffic (R141). -/
def State.bglTraffic (s : State) (n : Nat) : Bool :=
  s.feedsPipe 2 n || (decide ((s.bgl n).state ≠ .disabled) && (s.bgl n).mode == 2 && s.easelOn (s.bgl n).easel)

/-- BGL_LINK_CONFIG. Of a link that is enabled already it is a disable followed by an enable (DESIGN CHOICE, log entry 110). -/
def opBglLinkConfig : Op :=
  { code := 0x0305
    len := exactly 0x1C
    fields := bglConfigFields
    state := fun r s => [(!s.bglTraffic (r.u8 0), ansState s)]
    effect := fun r s =>
      let n := r.u8 0
      let s := if (s.bgl n).state = .up then bglLeaves n .disabled s else s
      let b := s.bgl n
      if r.u8 1 = 0 then
        (s.setBgl n { b with state := .disabled, mode := 0, wiringWait := none, readyTx := false, readyRx := false
                             stateTick := s.tick, out1 := [] }, ansDone [])
      else
        (holdRate (s.setBgl n { b with
          state := if r.u8 3 = 2 then .rawAlign else .locking, mode := r.u8 1, width := r.u8 2, start := r.u8 3, first := r.u16 4
          easel := r.u8 6, rate := if r.u8 7 = 0 then rate10 else rate25, linkId := BitVec.ofNat 8 (r.u8 8)
          wiring := if r.u8 3 = 0 then [] else r.bytes 0xC 16, reversed := false, wiringWait := none, readyTx := false
          readyRx := false, stateTick := s.tick, lastMarker := nsOf s.now / 65536 }), ansDone []) }

/-- The physical lane of logical lane i as it is received: the order that training found, or the declared wiring (R150, R151). -/
def Bgl.physical (b : Bgl) (i : Nat) : Nat :=
  b.first + if b.start ≠ 0 then getU b.wiring i 1 else if b.reversed then b.width - 1 - i else i

/-- Bit i: logical lane i is received inverted (R143). -/
def State.polarity (s : State) (b : Bgl) : Nat := mask ((List.range b.width).map fun i => (s.lane (b.physical i)).inverted)

/-- BGL_LINK_STATUS (Table LANE-10). -/
def bglStatus (s : State) (n : Nat) : Bytes :=
  let b := s.bgl n
  le 1 n ++ le 1 (bglCode b.state) ++ le 1 b.mode ++ le 1 b.width ++ le 2 b.first ++ le 1 b.start
    ++ le 1 (mask [b.reversed, b.mismatch, b.readyRx]) ++ le 2 (s.polarity b) ++ le 2 b.skew.toNat ++ le 2 b.sender.toNat
    ++ le 2 b.downs.toNat ++ ts96 b.upTime ++ zeros 4

def opBglLinkStatus : Op :=
  { code := 0x0306
    len := exactly 4
    reads := fun _ _ => true
    fields := fun r _ => [fieldLe 0 (r.u8 0) 63] ++ reserved r 1 3
    effect := fun r s =>
      (s.setBgl (r.u8 0) { s.bgl (r.u8 0) with mismatch := false }, ansDone (bglStatus s (r.u8 0))) }

/-- The frames of a marker interval on a link that is UP: each has its header and its message block, and the blocks that wait on
stream 1 leave one a frame, those of the phase report last (R174, R178; DESIGN CHOICE, log entry 50). -/
def sendFrames (n m : Nat) (s : State) : State :=
  let b := s.bgl n
  let p := s.phase12 b.first
  let report := if b.mode = 1 then messageBlocks 1 (messageBytes 4 (le 4 (s.phaseWord b.first) ++ ts96 p.time)) else []
  let out := b.out1 ++ report
  let now := out.take 1024
  let blocks := now ++ List.replicate (1024 - now.length) idleMessageBlock
  (s.setBgl n { b with out1 := out.drop 1024 }).emit
    (.bglFrames n (((List.range 1024).map fun i => hubHeader (qCode s.time.quality) (1024 * m + i)).zip blocks))

/-- Lanes of a link whose transmit direction sends (Table LANE-5). -/
def State.sending (s : State) (b : Bgl) : List Nat := b.lanes.filter fun l => (s.lane l).txPower == 0

/-- BGL_MARKER_TX: at a new 65,536 ns interval of Hub Time the link sends its marker; in trained start, until it is UP, its training
blocks follow; on a link that is UP the frames of the interval do. -/
def bglMarkerTx (n : Nat) (s : State) : State :=
  let b := s.bgl n
  let m := nsOf s.now / 65536
  if b.state = .disabled ∨ m = b.lastMarker then s
  else
    let lanes := s.sending b
    let s := s.setBgl n { b with lastMarker := m }
    if lanes.isEmpty then s
    else
      let s := s.emit (.bglMarker n lanes (markerBlock s.chip.hubId b.readyTx))
      if b.state = .up then (if lanes.contains b.first then sendFrames n m s else s)
      else if b.start = 0 then
        s.emit (.bglTraining n (lanes.map fun l => trainingBlock (l - b.first) b.width b.linkId s.chip.hubId b.readyTx))
      else s

/-- The type octet that a lane's polarity is read from: the training block's, or in blind start the marker's (R150, R151). -/
def lockOctet (b : Bgl) : Byte := if b.start = 0 then 0xB7 else 0xB8

/-- BGL_LANES_LOCKED: every lane of a link in LOCKING is block-locked. The link moves on, and each lane on which the octet arrived
complemented is received inverted (R143). -/
def bglLanesLocked (n : Nat) (octets : Bytes) (s : State) : State :=
  let b := s.bgl n
  if b.state = .locking ∧ b.wiringWait.isNone ∧ (b.lanes.all fun l => (s.lane l).aligned) ∧ !s.inReset 4 (256 + n)
      ∧ octets.length = b.width ∧ (octets.all fun o => o == lockOctet b || o == ~~~lockOctet b) then
    let s := forEach (List.range b.width) (fun i t => t.setLane (b.first + i) { t.lane (b.first + i) with
      inverted := octets.getD i 0 != lockOctet b }) s
    s.setBgl n { b with state := if b.start = 0 then .training else .deskew, stateTick := s.tick }
  else s

/-- Training blocks put together from their fields (Table LANE-3). -/
def trainingBlocks (order widths linkIds : Bytes) (rest : List Bytes) : List Bytes :=
  (List.range rest.length).map fun i =>
    [0xB7, order.getD i 0, widths.getD i 0, linkIds.getD i 0] ++ rest.getD i []

/-- A training block whose check holds (R149). -/
def isTraining (b : Bytes) : Bool := checkHolds b && getU b 0 1 == 0xB7

/-- BGL_TRAINING_RESULT: the training block read on each physical lane of the link (R150). -/
def bglTrainingResult (n : Nat) (blocks : List Bytes) (s : State) : State :=
  let b := s.bgl n
  if b.state ≠ .training ∨ blocks.length ≠ b.width ∨ !blocks.all isTraining then s
  else
    let order := blocks.map fun x => getU x 1 1
    let straight := order == List.range b.width
    let back := order == (List.range b.width).reverse
    let same := blocks.all fun x => getU x 2 1 == b.width && getU x 3 1 == b.linkId.toNat
    let b := { b with sender := BitVec.ofNat 16 (getU (blocks.headD []) 4 2), stateTick := s.tick }
    if (straight || back) && same then s.setBgl n { b with state := .deskew, reversed := !straight }
    else
      bglEvent 4 n (raise 4 2 (256 + n) (s.setBgl n { b with state := .locking, mismatch := true, wiringWait := some s.tick }))

/-- BGL_WIRING_WAIT_END: 10 ms after the mismatch. -/
def bglWiringWaitEnd (n : Nat) (s : State) : State :=
  let b := s.bgl n
  match b.wiringWait with
  | some t => if b.state = .locking ∧ t + 10000000 ≤ s.tick then s.setBgl n { b with wiringWait := none } else s
  | none => s

/-- BGL_LINK_UP: the markers align within 40 ns. In trained start the link then sends READY, and it is UP once READY arrives on every
lane (R150). -/
def bglLinkUp (n skewPs : Nat) (readyRx : Bool) (sender : W16) (s : State) : State :=
  let b := s.bgl n
  if b.state ≠ .deskew ∨ 40000 < skewPs ∨ s.inReset 4 (256 + n) then s
  else if b.start ≠ 0 ∨ readyRx = true then
    bglEvent 2 n (s.setBgl n { b with
      state := .up, readyTx := true, readyRx := readyRx, skew := BitVec.ofNat 16 skewPs, sender := sender, upTime := s.now
      stateTick := s.tick })
  else s.setBgl n { b with readyTx := true, skew := BitVec.ofNat 16 skewPs, sender := sender }

/-- BGL_DESKEW_TIMEOUT: 1 ms in DESKEW without aligned markers. -/
def bglDeskewTimeout (n : Nat) (s : State) : State :=
  let b := s.bgl n
  if b.state = .deskew ∧ !b.readyTx ∧ b.stateTick + 1000000 ≤ s.tick then
    let s := s.setBgl n { b with state := b.restart, stateTick := s.tick }
    if b.start = 2 then bglEvent 5 n s else s
  else s

/-! ## Bit-slip and raw capture (R154) -/

/-- The target is one that R154 names: a lane of a link in RAW_ALIGN, or a data line of an idle port. -/
def State.slipTarget (s : State) (kind port n : Nat) : Bool :=
  if kind = 0 then s.rawLane n
  else decide ((s.scp port).base.state ≠ .unconfigured) && decide (n < (s.scp port).lines) && !s.feedsPipe 3 port

def State.slipAt (s : State) (kind port n : Nat) : Nat :=
  if kind = 0 then (s.lane n).slip else tget 0 (s.scp port).slip n

/-- The target moves later by a number of bits. -/
def slipBy (kind port n count : Nat) (s : State) : State :=
  if kind = 0 then s.setLane n { s.lane n with slip := ((s.lane n).slip + count) % 66 }
  else s.setScp port { s.scp port with slip := tset 0 (s.scp port).slip n ((s.slipAt 1 port n + count) % 64) }

def slipFields (r : Req) (lo hi : Nat) : List Check :=
  [fieldLe 0 (r.u8 0) 1, fieldLe 1 (r.u8 1) (if r.u8 0 = 0 then 0 else 15),
   fieldLe 2 (r.u16 2) (if r.u8 0 = 0 then 159 else 3), fieldIn 4 (r.u8 4) lo hi] ++ reserved r 5 3

def opLaneBitslip : Op :=
  { code := 0x0307
    len := exactly 8
    fields := fun r _ => slipFields r 1 65
    state := fun r s => [(s.slipTarget (r.u8 0) (r.u8 1) (r.u16 2), ansState s)]
    effect := fun r s =>
      let s := slipBy (r.u8 0) (r.u8 1) (r.u16 2) (r.u8 4) s
      (s, ansDone (le 1 (s.slipAt (r.u8 0) (r.u8 1) (r.u16 2)) ++ zeros 3)) }

/-- A number of n bits that nothing constrains. -/
def drawBits (n : Nat) (s : State) : Nat × State :=
  ((List.range (cdiv n 64)).foldl (fun v i => v + (Config.lineBits (s.freeCount + i)).toNat * 2 ^ (64 * i)) 0 % 2 ^ n,
   { s with freeCount := s.freeCount + cdiv n 64 })

/-- Four raw words: 66-bit blocks packed, or slot words in 32 bits each. -/
def rawWords (kind bits : Nat) (s : State) : Bytes × State :=
  if kind = 0 then
    let (v, s) := drawBits 264 s
    (padTo 36 (le 33 v), s)
  else
    let (v, s) := drawBits (4 * bits) s
    (padTo 36 ((List.range 4).flatMap fun i => le 4 (v / 2 ^ (bits * i) % 2 ^ bits)), s)

/-- On a data line the bits of byte 1 report which of the four words equal the test word (R181; DESIGN CHOICE, log entry 104). -/
def opLaneRawCapture : Op :=
  { code := 0x0308
    len := exactly 8
    reads := fun _ _ => true
    fields := fun r _ => slipFields r 0 0
    state := fun r s => [(s.slipTarget (r.u8 0) (r.u8 1) (r.u16 2), ansState s)]
    effect := fun r s =>
      let (w, t) := rawWords (r.u8 0) (s.scp (r.u8 1)).slotBits s
      let same := if r.u8 0 = 0 then 0 else mask ((List.range 4).map fun i => getU w (4 * i) 4 == (s.scp (r.u8 1)).testWord.toNat)
      (t, ansDone (le 1 (s.slipAt (r.u8 0) (r.u8 1) (r.u16 2)) ++ le 1 same ++ zeros 2 ++ w)) }

/-- Each lane fixes its polarity from the marker type octet; the octet that arrives is free (R152). -/
def fixPolarity (b : Bgl) (s : State) : State :=
  let (d, s) := s.draw
  forEach (List.range b.width) (fun i t => t.setLane (b.first + i) { t.lane (b.first + i) with
    signal := true, cdr := true, aligned := true, inverted := bit (Config.freeWord d).toNat i }) s

def opLaneRawCommit : Op :=
  { code := 0x0309
    len := exactly 4
    fields := fun r _ => [fieldLe 0 (r.u8 0) 63] ++ reserved r 1 3
    state := fun r s => [((s.bgl (r.u8 0)).state == .rawAlign, ansState s)]
    effect := fun r s =>
      let b := s.bgl (r.u8 0)
      ((fixPolarity b s).setBgl (r.u8 0) { b with state := .deskew, stateTick := s.tick }, ansDone []) }

/-! ## PRBS checks (R158, R159) -/

/-- Degree and tap of a pattern: x^7 + x^6 + 1, x^15 + x^14 + 1, x^23 + x^18 + 1, x^31 + x^28 + 1. -/
def prbsTaps : Nat → Nat × Nat
  | 1 => (7, 6)
  | 2 => (15, 14)
  | 3 => (23, 18)
  | _ => (31, 28)

/-- The bit that follows some bits of a pattern, newest first. -/
def prbsNext (pattern : Nat) (past : List Bool) : Bool :=
  (past.getD ((prbsTaps pattern).1 - 1) false).xor (past.getD ((prbsTaps pattern).2 - 1) false)

/-- n more bits of a generator behind some bits, newest first. -/
def prbsRun (pattern : Nat) : Nat → List Bool → List Bool
  | 0, past => past
  | n + 1, past => prbsRun pattern n (prbsNext pattern past :: past)

/-- A checker that seeds itself from the oldest of the received bits (first bit first) predicts every later one, 128 at least. -/
def prbsPredicts (pattern : Nat) (bits : List Bool) : Bool :=
  let n := (prbsTaps pattern).1
  decide (n + 128 ≤ bits.length) && prbsRun pattern (bits.length - n) (bits.take n).reverse == bits.reverse

def opPrbsConfig : Op :=
  { code := 0x030A
    len := exactly 0xC
    fields := fun r s =>
      let l := r.u16 0
      [fieldLe 0 l 159, fieldLe 2 (r.u8 2) 4, fieldLe 3 (r.u8 3) 4,
       (rateAllowed 8 (r.u32 4) && (!(s.lane l).txOn || s.rateFits l (r.u32 4) [l]), ansBadField 4), flagBits r 8 2]
        ++ reserved r 9 3
    state := fun r s => [((s.lane (r.u16 0)).protocol == 8, ansState s)]
    effect := fun r s =>
      let l := r.u16 0
      let s := countPrbs l s
      let x := s.lane l
      let same := x.prbs.rx == r.u8 3 && x.rate == r.u32 4
      let p := { x.prbs with
        tx := r.u8 2, rx := r.u8 3, locked := x.prbs.locked && same, inverted := x.prbs.inverted && same }
      let s := if bit (r.u8 8) 0 ∧ r.u8 2 ≠ 0 ∧ x.txPower = 0 then s.emit (.prbsFlip l) else s
      let p := if bit (r.u8 8) 1 then { p with losses := 0, bits := 0, errors := 0, since := s.now } else p
      (s.setLane l { x with rate := r.u32 4, prbs := p }, ansDone []) }

def opPrbsRead : Op :=
  { code := 0x030B
    len := exactly 4
    reads := fun _ _ => true
    fields := fun r _ => laneReadFields r
    state := fun r s => [((s.lane (r.u16 0)).protocol == 8, ansState s)]
    effect := fun r s =>
      let l := r.u16 0
      let s := countPrbs l s
      let x := s.lane l
      let p := x.prbs
      (if bit (r.u8 2) 0 then s.setLane l { x with prbs := { p with losses := 0, bits := 0, errors := 0, since := s.now } } else s,
       ansDone (le 2 l ++ le 1 (mask [p.locked, p.inverted]) ++ zeros 1 ++ le 4 p.losses.toNat ++ le 8 p.bits.toNat
         ++ le 8 p.errors.toNat ++ ts96 p.since ++ zeros 4)) }

/-- PRBS_LOCK: a checker with a pattern, in ACTIVE, not locked, has predicted 128 consecutive received bits, or their complement. -/
def prbsLock (l : Nat) (bits : List Bool) (s : State) : State :=
  let x := s.lane l
  let straight := prbsPredicts x.prbs.rx bits
  let inverted := prbsPredicts x.prbs.rx (bits.map not)
  if x.protocol = 8 ∧ x.rxPower = 0 ∧ x.prbs.rx ≠ 0 ∧ !x.prbs.locked ∧ !s.laneHeld l ∧ (straight || inverted) then
    s.setLane l { x with signal := true, cdr := true, inverted := !straight
                         prbs := { x.prbs with locked := true, inverted := !straight, countTick := s.tick } }
  else s

/-- PRBS_LOCK_LOSS: the bits checked since the counts were last brought up to date, and how many of them were in error. -/
def prbsLockLoss (l errors lastErrors : Nat) (s : State) : State :=
  let x := s.lane l
  let p := x.prbs
  if x.protocol = 8 ∧ p.locked ∧ x.reeq.isNone ∧ 256 ≤ lastErrors then
    let n := x.rate * s.tick / 1000000 - x.rate * p.countTick / 1000000
    s.setLane l { x with prbs := { p with
      locked := false, losses := p.losses + 1, bits := p.bits + BitVec.ofNat 64 n, errors := p.errors + BitVec.ofNat 64 (min n errors)
      countTick := s.tick } }
  else s

end Sys2Proof.Machine
end

