-- ==== Sys2Proof/Machine/Reset.lean ====
section
/-! DEFINITION. What chip reset, power loss and the entry to SAFE do to the state (R26, R85, R119, R292, R333, R387,
R414, Table BOOT-2). -/

namespace Sys2Proof.Machine

/-! ## Chip reset -/

/-- A window across a chip reset (R292, Table CAP-6): a sketch being recorded freezes with cause RESET; only windows
with a frozen sketch stay configured, marked RESET_SURVIVED, their conditions OFF; the missed-trigger log stays. -/
def Window.afterReset (w : Window) : Window :=
  if w.state = .frozen ∨ w.state = .dumping then
    { w with state := .frozen, recFlags := w.recFlags ||| 0x400, conds := [], pendArm := false, pendDisarm := false
             delayArm := none, delayDisarm := none }
  else { missedTotal := w.missedTotal, missedLog := w.missedLog, missTold := w.missTold, sketch := w.sketch }

/-- Windows that record freeze with a cause before anything else is cleared. -/
def freezeAll (cause : Nat) (s : State) : State :=
  forEach (s.cap.windows.map (·.1)) (fun n t =>
    let t := decideWindow n t
    if (t.win n).writes then freeze n cause 4 t else t) s

/-- The capture controller across a chip reset. -/
def Cap.afterReset (c : Cap) : Cap :=
  { windows := (c.windows.map fun w => (w.1, w.2.afterReset)).filter (fun w => decide (w.2 ≠ {})), memory := c.memory }

/-- Time across a loss of the core region or a reset (Table TIME-5, Table TIME-4): LOCKED becomes HOLDOVER, the stamps
of the trigger inputs are lost. -/
def TimeSt.afterReset (t : TimeSt) : TimeSt :=
  { t with quality := if t.quality = .locked then .holdover else t.quality, lease := if t.quality = .locked then 0 else t.lease
           trig := t.trig.map fun x => (x.1, { x.2 with fifo := [] }) }

/-- Time-transfer settings that the always-on region keeps (R119). -/
def Xfer.afterReset (x : Xfer) : Xfer :=
  { roleCfg := x.roleCfg, refMode := x.refMode, priority := x.priority, easel := x.easel, holdoverLimit := x.holdoverLimit
    domain := x.domain, ptp := (x.ptp.map fun p => (p.1, ({ settings := p.2.settings } : PtpCfg))).filter
      fun p => decide (p.2 ≠ {}) }

/-- What boot and firmware keep across a chip reset: the flash, the fuses, BOOT_TRIES, SEQ_ERROR and the marks of failed
banks. -/
def Boot.afterReset (b : Boot) : Boot :=
  { tries := b.tries, seqError := b.seqError, secVersion := b.secVersion, dir0 := b.dir0, dir1 := b.dir1, cfg0 := b.cfg0
    cfg1 := b.cfg1, slotA := b.slotA, slotB := b.slotB, selfFailed := b.selfFailed }

/-- The fault state across a chip reset (Table FLT-7): the last fault record, the log of capture memory, and that memory's
flipped bits. -/
def Flt.afterReset (f : Flt) : Flt :=
  { record := f.record, logs := f.logs.filter fun l => l.1 == 0, upsets := f.upsets.filter fun u => decide (u.1 < 2 ^ 32) }

/-- The mailboxes across a chip reset: everything but the MSI-X table, which belongs to the PCI Express function, and the
time that the last-breath window holds until the next read that captures (R68). -/
def Hcp.afterReset (h : Hcp) : Hcp := { msixTable := h.msixTable, captured := h.captured, capturedQ := h.capturedQ }

/-- The core region of the island's status (R407). -/
def Island.afterReset (i : Island) : Island := { i with status := 0, log := [], overwritten := 0, statusTick := 0 }

/-- The chip's own latches across a reset. -/
def Chip.afterReset (c : Chip) (tick : Nat) (owed : Bool) : Chip :=
  { c with phase := .reset, bootStatus := 0, heartbeat := 0, beatTick := 0, fwRunning := false, fwStalled := false
           resetTick := tick, dspLocked := true, owedHoldover := c.owedHoldover || owed, bootTick := 0, sysResetOwed := false }

/-- A chip reset begins (Table BOOT-2, Table STRM-7, Table UPL-6, R157, R259). -/
def chipReset (s : State) : State :=
  let s := freezeAll 5 s
  { chip := s.chip.afterReset s.tick (s.time.quality == .locked), boot := s.boot.afterReset, hcp := s.hcp.afterReset
    time := s.time.afterReset, xfer := s.xfer.afterReset, cap := s.cap.afterReset, strm := { seqs := s.strm.seqs }
    flt := s.flt.afterReset, island := s.island.afterReset, tick := s.tick, freeCount := s.freeCount, emitted := s.emitted
    pending := s.pending }

/-- The PCI Express link goes down: what its function holds is lost. -/
def pcieDown (s : State) : State :=
  { s with chip := { s.chip with pcieUp := false }, hcp := { s.hcp with msixTable := msixReset, pba := 0 }
           boot := { s.boot with pushAddr := 0, pushLen := 0 } }

/-- VDD_CORE or VDD_SRAM is lost while VDD_AON is held: as a chip reset, and capture memory, its log and every window
are lost (Table FLT-7, R292). -/
def coreLoss (s : State) : State :=
  let s := pcieDown (chipReset s)
  { s with chip := { s.chip with phase := .off, holdRails := false, jtagIr := 0 }, cap := {}
           boot := { s.boot with selfFailed := 0 }, flt := { record := s.flt.record } }

/-- VDD_AON is lost: what the always-on region holds is lost too (Table TIME-4, Table BOOT-2). -/
def aonLoss (s : State) : State :=
  let s := coreLoss s
  { s with time := {}, xfer := {}, flt := {}, strm := {}, hcp := {}, boot := { s.boot with tries := 0, seqError := false }
           chip := { s.chip with owedHoldover := false, holdBreach := false, testMode := false, straps := 0, hubId := 0
                                 thermWarn := false, thermTrip := false } }

/-! ## The safe state (R26) -/

/-- Uplink dumps stop with STOPPED_SAFE; dumps over PCI Express continue (Table CAP-6). -/
def stopDumps (s : State) : State :=
  forEach (List.range 4) (fun d t => match t.dump d with
    | some x => if x.dest = 0 then t else endDump d 1 t
    | none => t) s

/-- Trigger outputs are inactive (Table BOOT-9): pulses end, and no SYNC~ is driven low. -/
def quietTriggers (s : State) : State :=
  forEach (s.cap.trigOut.map (·.1)) (fun o t => t.setTrigOut o { t.trigOut o with pulseEnd := t.tick, syncLow := false }) s

/-- Entry to SAFE. -/
def enterSafe (s : State) : State :=
  let s := { s with chip := { s.chip with phase := .safe } }
  let s := forEach (s.upl.ports.map (·.1)) (fun p t => sendRemote p false (abortFrame p t)) s
  let s := freezeAll 4 s
  let s := stopDumps s
  let s := forEach (s.strm.streams.map (·.1)) rewindStream s
  quietTriggers s

/-! ## The last fault record (R386) -/

/-- FAULT_COPY of every block that is not all zero. -/
def faultCopies (s : State) : Tbl (W64 × W64) :=
  (List.range 17).foldl (fun t b => tset (0, 0) t b ((s.blk b).sticky, BitVec.ofNat 64 (s.fltState b))) []

/-- Writes the last fault record; `old` is the state before the event. -/
def writeRecord (cause block source unit : Nat) (old s : State) : State :=
  { s with flt := { s.flt with record := {
      cause := cause, testMode := s.chip.testMode, block := block, source := source, unit := unit, time := s.now
      quality := s.time.quality, state := old.chipCode, hubId := s.chip.hubId, count := s.flt.record.count + 1
      chipState := BitVec.ofNat 32 old.chipState, copies := faultCopies s } } }

end Sys2Proof.Machine
end

