-- ==== Sys2Proof/Machine/Faults.lean ====
section
/-! DEFINITION. Fault events and their reactions (14_faults, R371-R389): sticky bits, event logs, gating, block resets,
chip resets and the effects of a block reset on the objects of its block. -/

namespace Sys2Proof.Machine

/-! ## What a unit feeds (R381) -/

/-- Bamgiusk Links and JESD links built on some lanes, as units of block 5. -/
def linksOn (s : State) (lanes : List Nat) : List Nat :=
  ((s.jesds.filter fun j => decide (j.2.base.state ≠ .unconfigured) && j.2.lanes.any lanes.contains).map (·.1))
  ++ ((s.bgls.filter fun b => b.2.lanes.any lanes.contains).map (64 + ·.1))

def portsOn (s : State) (lanes : List Nat) : List Nat :=
  (s.upl.ports.filter fun p => p.2.lanes.any lanes.contains).map (·.1)

/-- The lanes of a unit of block 4: a lane, a Bamgiusk Link, a quad. -/
def unitLanes (s : State) (u : Nat) : List Nat :=
  if u < 160 then [u] else if 256 ≤ u ∧ u < 320 then (s.bgl (u - 256)).lanes
  else if 512 ≤ u ∧ u < 552 then quadLanes (4 * (u - 512)) else []

/-- The channels that an input link, a unit of block 5, feeds. -/
def unitChans (s : State) (u : Nat) : List Nat := s.linkChans (u / 64 + 1) (u % 64)

/-- The pipes bound to some channels. -/
def pipesOf (s : State) (cs : List Nat) : List Nat := cs.flatMap s.chanPipes

/-- The windows with a member among some channels or their pipes. -/
def windowsOf (s : State) (cs : List Nat) : List Nat :=
  (s.cap.windows.filter fun w => w.2.members.any ((if w.2.source = 1 then cs else pipesOf s cs).contains)).map (·.1)

/-- The units that a unit of a block feeds, by dependent block. -/
def unitFeeds (s : State) (b u : Nat) : List (Nat × List Nat) :=
  match b with
  | 4 =>
    let ls := unitLanes s u
    [(2, ls), (5, linksOn s ls), (12, portsOn s ls)]
  | 5 =>
    let cs := unitChans s u
    [(6, pipesOf s cs ++ cs.map (1024 + ·)), (8, windowsOf s cs)]
  | 9 => [(11, s.placedComp u)]
  | 12 => [(11, s.placedOn u)]
  | 16 => if u = 16 then [(10, List.range 4)] else []
  | _ => []

/-! ## Block resets and the objects of the block (R377) -/

/-- A window meets a block reset (Table CAP-6). -/
def resetWindow (n : Nat) (s : State) : State :=
  let s := decideWindow n s
  let w := s.win n
  if w.state = .filling then freeze n 3 4 s
  else if w.state = .arming ∨ w.state = .armed then
    s.setWin n { w with
      state := .arming, nArm := none, nNew := 0, writeNext := 0, capFrom := 0, armAt := max w.armAt s.now, tArm := 0
      feeds := [], events := [], notes := [] }
  else s

def allWindows (s : State) : List Nat := s.cap.windows.map (·.1)

/-- The unit enters reset. -/
def unitEnters (b u : Nat) (s : State) : State :=
  match b with
  | 4 =>
    let s := forEach (unitLanes s u) (fun l t => laneLockLost l false t) s
    if 256 ≤ u ∧ u < 320 then
      (let n := u - 256
       if (s.bgl n).state = .up then bglLinkDown n s
       else if (s.bgl n).state = .disabled then s
       else s.setBgl n { s.bgl n with state := (s.bgl n).restart, stateTick := s.tick })
    else s
  | 5 => forEach (windowsOf s (unitChans s u)) resetWindow (loseLink (u / 64 + 1) (u % 64) s)
  | 6 => forEach (s.pipes.map (·.1)) haltPipe (forEach (allWindows s) resetWindow s)
  | 8 => forEach (allWindows s) resetWindow s
  | 9 => forEach (s.placedComp u) rewindStream s
  | 10 => failUnit u s
  | 11 => forEach (s.strm.streams.map (·.1)) rewindStream s
  | 12 => portDropped u 4 s
  | 16 => if u = 16 ∧ s.chip.pcieUp then raise 16 0 16 (pcieDown s) else s
  | _ => s

/-- The unit has left reset: its restart steps. The sampling, CTRL and FAB PLLs lock again (DEDUCED, log entry 118), the
firmware starts. -/
def unitLeaves (b u : Nat) (s : State) : State :=
  match b with
  | 5 => forEach (windowsOf s (unitChans s u)) resetWindow s
  | 6 => forEach (s.pipes.map (·.1)) resumePipe (forEach (allWindows s) resetWindow s)
  | 8 => forEach (allWindows s) resetWindow s
  | 12 => s.setPort u { s.port u with goodTick := s.tick }
  | 3 => { s with flt := { s.flt with standing := s.flt.standing.filter fun x => x.1 != 3 || (x.2.1 != 2 && x.2.1 != 4) } }
  | 15 => if s.fwRuns then fwAgain s else s
  | _ => s

/-- Begins a block reset of a unit. A fourth one within a second keeps the unit held (R378); a reset of a unit that is
in reset already begins no second one (R376). -/
def beginReset (b u : Nat) (s : State) : State :=
  let k := resetUnit b u
  let f := s.blk b
  if scopeOf b = .never ∨ s.inReset b u then s
  else
    let starts := (f.starts.filter fun x => decide (s.now ≤ x.2 + unitsPerSec)) ++ [(k, s.now)]
    let held := decide (4 ≤ (starts.filter fun x => x.1 == k).length)
    let gates := (f.gates.filter fun g => g.unit != k) ++ [{ unit := k, feeds := if scopeOf b = .byUnit then unitFeeds s b k else [] }]
    unitEnters b k (s.setBlk b { f with
      starts := starts, inReset := f.inReset ++ [k], held := if held then f.held ++ [k] else f.held, gates := gates })

/-- A unit leaves reset or hold: RESET_DONE, and 256 cycles of gating begin (R377, R381). -/
def leaveReset (b k : Nat) (s : State) : State :=
  let f := s.blk b
  let s := s.setBlk b { f with
    inReset := f.inReset.filter (· ≠ k), held := f.held.filter (· ≠ k)
    gates := f.gates.map fun g => if g.unit = k then { g with left := some s.tick } else g }
  unitLeaves b k (raise b 63 k s)

/-- BLOCK_RESET_END: the 10 us are over; a unit to be held stays (R378). -/
def blockResetEnd (b u : Nat) (s : State) : State :=
  let f := s.blk b
  if !f.inReset.contains u || u == dspUnit then s
  else if f.held.contains u then raise b 62 u (s.setBlk b { f with inReset := f.inReset.filter (· ≠ u) })
  else leaveReset b u s

/-- GATE_END: 256 DSP cycles after the upstream unit has left reset. -/
def gateEnd (b u : Nat) (s : State) : State :=
  let f := s.blk b
  s.setBlk b { f with gates := f.gates.filter fun g =>
    !(g.unit == u && (match g.left with
      | some t => decide (t + 256 ≤ s.tick)
      | none => false)) }

/-! ## The DSP-domain reset (R16, R377) -/

/-- All links, streams, pipes and windows that the reset of whole DSP-domain blocks meets. -/
def dspEnters (s : State) : State :=
  let s := forEach (s.jesds.map (·.1)) (loseLink 1) s
  let s := forEach (s.bglIns.map (·.1)) (loseLink 2) s
  let s := forEach (s.scps.map (·.1)) (loseLink 3) s
  let s := unitEnters 6 0 s
  forEach (s.strm.streams.map (·.1)) rewindStream s

/-- The DSP PLL unlocks: blocks 5-9 and 11 are reset as a whole until it locks again. -/
def beginDsp (s : State) : State :=
  if !s.chip.dspLocked then s
  else
    let s := { s with chip := { s.chip with dspLocked := false } }
    let s := forEach dspBlocks (fun b t =>
      let f := t.blk b
      t.setBlk b { f with
        starts := (f.starts.filter fun x => decide (t.now ≤ x.2 + unitsPerSec)) ++ [(dspUnit, t.now)]
        inReset := f.inReset ++ [dspUnit]
        gates := (f.gates.filter fun g => g.unit != dspUnit) ++ [{ unit := dspUnit, feeds := [] }] }) s
    dspEnters s

/-- DSP_PLL_RELOCK: the DSP domain leaves reset; RESET_DONE is set in each of its blocks. -/
def dspPllRelock (s : State) : State :=
  if s.chip.dspLocked then s
  else
    let s := { s with chip := { s.chip with dspLocked := true } }
    let s := forEach dspBlocks (fun b t =>
      let f := t.blk b
      raise b 63 0 (t.setBlk b { f with
        inReset := f.inReset.filter (· ≠ dspUnit)
        gates := f.gates.map fun g => if g.unit = dspUnit then { g with left := some t.tick } else g })) s
    if s.inReset 6 0 then s else unitLeaves 6 0 s

/-! ## Events (R373, R384, R390) -/

/-- Table FLT-5. -/
def uncorrEntry (e : Uncorr) : Bytes :=
  ts96 e.time ++ le 1 e.line.region.val ++ [e.line.owner] ++ le 1 (b2n e.acked) ++ zeros 1 ++ le 4 e.line.address.toNat
    ++ le 4 e.line.id.toNat ++ le 8 e.line.detail.toNat

/-- FAULT_EVENT. -/
def faultEvent (d : Detected) (byte : Byte) (s : State) : State :=
  notify 0x0B80 (le 1 d.block ++ le 1 d.source ++ le 2 d.unit ++ ts96 s.now ++ le 8 (s.blk d.block).sticky.toNat
    ++ [byte] ++ zeros 3 ++ (match d.line with
      | some l => uncorrEntry ⟨s.now, l, false⟩
      | none => zeros 32)) s

/-- A line enters its region's log; the log overwrites its oldest entry when full (R384). -/
def logLine (d : Detected) (s : State) : State :=
  match d.line with
  | none => s
  | some l =>
    let r := l.region.val
    let log : List Uncorr := tget [] s.flt.logs r
    let lost := log.length == 32 && (log.take 1).any fun e => !e.acked
    let e : Uncorr := ⟨s.now, l, false⟩
    let s := { s with flt := { s.flt with logs := tset [] s.flt.logs r ((log ++ [e]).drop (log.length + 1 - 32)) } }
    if lost then raise 14 4 r s else s

/-- One fault event: the state, and the reaction byte where its sticky bit went from 0 to 1. -/
def setSource (d : Detected) (s : State) : State × Option Byte :=
  let s := logLine d s
  let s := if d.block = 13 ∧ d.source = 0 then { s with flt := { s.flt with ledgerBad := true } } else s
  if s.gated d.block d.source d.unit then (if d.line.isSome then faultEvent d 0 s else s, none)
  else
    let f := s.blk d.block
    let fresh := !f.sticky.getLsbD d.source
    let f' := { f with
      events := (f.events ++ [(s.now, d.source, d.unit)]).drop (f.events.length + 1 - 16)
      firstUnit := if f.sticky = 0 then d.unit else f.firstUnit, firstSrc := if f.sticky = 0 then d.source else f.firstSrc
      firstValid := true, sticky := f.sticky ||| BitVec.ofNat 64 (2 ^ d.source) }
    let s := s.setBlk d.block f'
    let byte := if fresh then s.reaction d.block d.source else 0
    let s := if byte.getLsbD 0 || byte.getLsbD 1 || d.line.isSome then faultEvent d byte s else s
    (s, if fresh then some byte else none)

/-- The RESET field of a reaction byte (Table FLT-3). -/
def resetField (b : Byte) : Nat := b.toNat / 16 % 4

/-- All fault events of one cycle: the state and the reactions that act, in block order (R376). -/
def setSources : List Detected → State → State × List (Detected × Byte)
  | [], s => (s, [])
  | d :: ds, s =>
    let (s, r) := setSource d s
    let (s, rs) := setSources ds s
    (s, match r with
      | some b => (d, b) :: rs
      | none => rs)

/-- The reaction of lowest block, then first, that asks for a chip reset. -/
def chipAsked (rs : List (Detected × Byte)) : Option Detected :=
  ((List.range 17).findSome? fun b => rs.find? fun r => r.1.block == b && resetField r.2 == 2).map (·.1)

/-- The chip state lets reactions reset: BOOT, READY, RUNNING or DEGRADED (Table ARCH-7, R376). -/
def State.mayReset (s : State) : Bool := s.chip.phase == .boot || s.chip.phase == .serving

/-- In OFF and RESET every fault register set is held at its reset values (R385). -/
def State.faultsHeld (s : State) : Bool := s.chip.phase == .off || s.chip.phase == .reset

/-- The fault events of a command and those that their reactions cause in turn act; `old` is the state before the
command. -/
def actFaults (old : State) : Nat → State → State
  | 0, s => { s with flt := { s.flt with detected := [] } }
  | fuel + 1, s =>
    match s.flt.detected with
    | [] => s
    | ds =>
      let s := { s with flt := { s.flt with detected := [] } }
      if s.faultsHeld then s
      else
        let (s, rs) := setSources ds s
        match (if s.mayReset then chipAsked rs else none) with
        | some d =>
          chipReset (writeRecord (if d.block = 15 ∧ d.source = 2 then 3 else 2) d.block d.source d.unit old s)
        | none =>
          let s := if s.mayReset then
              forEach (rs.filter fun r => resetField r.2 == 1) (fun r t => beginReset r.1.block r.1.unit t) s
            else s
          let s := if ds.any fun d => d.block == 3 && d.source == 3 then beginDsp s else s
          actFaults old fuel s

/-! ## A fault that its block detects (FAULT_DETECT, R373) -/

/-- An uncorrectable line of capture memory: the record that holds it carries the event (Table CAP-6, Table CAP-9), and
the dumps and jobs that read it count it. -/
def sketchLine (l : UncorrLine) (told : Bool) (s : State) : State :=
  let n := l.id.toNat / 2 ^ 28
  let w := s.win n
  if l.owner ≠ 1 ∨ w.sketch.toNat % 2 ^ 28 ≠ l.id.toNat % 2 ^ 28 ∨ w.frameBytes = 0 then s
  else
    let off := l.detail.toNat % 2 ^ 32 - w.dataOffset
    let len := max 1 (l.detail.toNat / 2 ^ 32)
    let o0 := off / w.frameBytes
    let o1 := (off + len - 1) / w.frameBytes
    let s := s.setWin n { w with uncorr := w.uncorr + 1, events := w.events ++ [⟨6, 0xFFFF, o1 - o0 + 1, w.first + (o0 : Nat), 0⟩] }
    if told then s
    else
      let from_ := l.detail.toNat % 2 ^ 32
      let meets := fun (o k : Nat) => decide (from_ < o + k) && decide (o < from_ + len)
      let s := forEach (List.range 4) (fun d t => match t.dump d with
        | some x => if x.window = n ∧ meets x.offset x.length then t.setDump d (some { x with uncorr := x.uncorr + 1 }) else t
        | none => t) s
      { s with comp := { s.comp with running := s.comp.running.map fun j => (j.1, j.2.map fun x =>
          if x.srcKind = 1 ∧ x.window = n ∧ meets x.src x.srcLen then { x with uncorr := x.uncorr + 1 } else x) } }

/-- The frame that missed its write slot is written as zeros, and its record is flagged (WRITE_OVERRUN). -/
def overrunFrame (n : Nat) (s : State) : State :=
  let w := s.win n
  if !w.writes then s
  else match w.frameRow w.nextFrame with
    | some row =>
      let s := s.setWin n { w with events := w.events ++ [⟨6, 0xFFFF, 1, w.nextFrame, 0⟩] }
      writeFrame n w.nextFrame (row.map fun f => { f with value := (0, 0) }) s
    | none => s

/-- A frame whose data came late is aborted (R363); its pages count as left, and it is not sent again (DESIGN CHOICE,
log entry 53). -/
def underrun (p : Nat) (s : State) : State :=
  let t := abortFrame p s
  match (s.port p).sending with
  | some (.packet n seq left _) => forEach (List.range left) (fun _ u => pageLeft n (groupOf p) seq u) t
  | _ => t

/-- The bytes of a line that stay wrong after both codes, from byte `place` of what the line holds (R22). -/
def spoil (u : Upset) (region place : Nat) (b : Bytes) : Bytes :=
  b.zipIdx.map fun x => if place ≤ x.2 ∧ x.2 < place + lineBytes region then x.1 ^^^ leftFlips u region (x.2 - place) else x.1

/-- A packet in stream memory is transmitted as the codes deliver it (R22). -/
def spoilPacket (m : MemRead) (s : State) : State :=
  let n := m.id.toNat
  let t := s.stream n
  s.setStream n { t with queue := t.queue.map fun c =>
    if c.seq = m.detail.toNat % 2 ^ 48 then { c with bytes := spoil m.upset 1 m.place c.bytes } else c }

/-- A number of 32 bits in two's complement with some of its bits flipped. -/
def flip32 (v : Int) (flips : Bytes) : Int := signed 32 ((v % (2 ^ 32 : Nat)).toNat ^^^ ofLe flips)

/-- A word of delay memory is used as read (DELAY_UNCORR): one sample of the pipe's delay line, its real part in the low and
its imaginary part in the high half (DESIGN CHOICE, log entry 97). -/
def spoilLine (m : MemRead) (s : State) : State :=
  let p := s.pipe m.id.toNat
  let f := (List.range 8).map (leftFlips m.upset 2)
  s.setPipe m.id.toNat { p with line := p.line.zipIdx.map fun x =>
    if x.2 = m.place then (flip32 x.1.1 (f.take 4), flip32 x.1.2 (f.drop 4)) else x.1 }

/-- The flipped bits that a memory fault was met with: they stay in the memory, and what a reader has of it shows them. -/
def keepUpset (region : Nat) (m : MemRead) (s : State) : State :=
  if m.upset = {} then s
  else
    let s := s.setUpset region m.address.toNat m.upset
    if region = 1 then spoilPacket m s else if region = 2 then spoilLine m s else s

/-- What goes with a fault source beside its sticky bit and reaction, where Table FLT-4 says so. -/
def sourceEffect (d : Detected) (m : MemRead) (s : State) : State :=
  let s := match d.line with
    | some l =>
      let s := if l.region.val = 0 then sketchLine l (decide (m.upset ≠ {})) s else s
      keepUpset l.region.val m s
    | none => s
  if d.block = 7 ∧ d.source = 0 then s.setWin d.unit { s.win d.unit with cycleFail := true }
  else if d.block = 8 ∧ d.source = 0 then overrunFrame d.unit s
  else if d.block = 11 ∧ d.source = 1 then rewindStream d.unit s
  else if d.block = 12 ∧ d.source = 1 then underrun d.unit s
  else if d.block = 14 ∧ d.source = 2 then countOuter d.unit (s.setUpset d.unit m.address.toNat {})
  else if d.block = 16 ∧ d.source = 0 then pcieDown s
  else s

/-- Sources whose condition, once detected, may go on (R373): the current limits and the unlocked PLLs. -/
def mayPersist (b n : Nat) : Bool := (b == 3 && n != 3) || (b == 4 && n == 3)

/-- FAULT_DETECT of a source that exists. A credit fault's own effects are those of R330. -/
def faultDetect (b n u : Nat) (m : MemRead) (s : State) : State :=
  let d : Detected := ⟨b, n, u, (lineRegion b n).map fun r => ⟨r, m.owner, m.address, m.id, m.detail⟩⟩
  if s.faultsHeld then s
  else if b = 11 ∧ n = 0 then creditFault u s
  else if b = 3 ∧ n = 3 ∧ !s.chip.dspLocked then s
  else
    let s := sourceEffect d m s
    let stays := (s.flt.standing.filter fun x => x != (b, n, u)) ++ (if mayPersist b n then [(b, n, u)] else [])
    { s with flt := { s.flt with detected := s.flt.detected ++ [d], standing := stays } }

/-- DSP_PLL_UNLOCK. -/
def dspPllUnlock (s : State) : State := if s.faultsHeld ∨ !s.chip.dspLocked then s else raise 3 3 33 s

/-- PARITY_ERROR: into SAFE with the last fault record, or PARITY_AGAIN (R385). -/
def parityError (b off : Nat) (s : State) : State :=
  if s.mayReset then enterSafe (writeRecord 1 b 0xFF off s s)
  else if s.chip.phase = .safe then { s with flt := { s.flt with record := { s.flt.record with again := true } } }
  else s

/-- What the scrubber reports of a line that neither code repairs: for capture memory the window whose record holds it. -/
def scrubLine (s : State) (region : Fin 6) (a : Nat) : UncorrLine :=
  match (if region = 0 then (s.cap.windows.map (·.1)).find? fun n =>
      (List.range 512).any fun i => ((s.win n).recordOffset (a + i)).isSome else none) with
  | some n => captureLine s n a
  | none => ⟨region, 0, BitVec.ofNat 32 a, 0, 0⟩

/-- A pass of the scrubber over a region: every line with flipped bits is read, corrected and written back; a pass of more
than 1 s is late (R23). -/
def scrubPass (p : ScrubPass) (s : State) : State :=
  let region := p.region
  let s := forEach (s.upsetLines region.val 0 (2 ^ 32)) (fun a t =>
    let u := t.upset region.val a
    (meetLine region.val a (scrubLine t region a) t).setUpset region.val a (writtenBack u region.val)) s
  if 1000000000 < p.ns then raise 14 3 region.val s else s

end Sys2Proof.Machine
end

