-- ==== Sys2Proof/Machine/Run.lean ====
section
/-! DEFINITION. The frame that every command runs in: its own effect, the reactions of the faults it has detected, the
hardware's notice of a changed chip state. -/

namespace Sys2Proof.Machine

/-- The fault events that reactions of one command can still cause; each sets a sticky bit that was clear. -/
def reactionDepth : Nat := 128

/-- The command queue is the model's own: a command leaves it as it found it (log entry 11). -/
def keepQueue (old new : State) : State := { new with pending := old.pending }

/-- A command's own effect, on a hub that has sent nothing yet. -/
def effectOf (f : State → State) (s : State) : State := f { s with emitted := [] }

/-- A command's effect with what follows it in hardware: fault reactions (R376), MSI-X vector 8 (R42). -/
def settled (f : State → State) (s : State) : State := settle s (actFaults s reactionDepth (effectOf f s))

/-- The state after a command that leaves the clock alone. -/
def after (f : State → State) (s : State) : State := keepQueue s (keepClock s (settled f s))

/-- Runs a command. -/
def run (f : State → State) (s : State) : Host.Outcome State Fault Refusal := .next (after f s)

/-- The state after a command that may set the clock: an offset step, the loss or return of VDD_AON. -/
def afterClock (f : State → State) (s : State) : State := keepQueue s (keepClock (effectOf f s) (settled f s))

def runClock (f : State → State) (s : State) : Host.Outcome State Fault Refusal := .next (afterClock f s)

/-- What the hub does while no command waits: the capture windows decide on the hits of the DSP cycle that ends (R280), and
one TIME tick passes. -/
def State.idle (s : State) : State :=
  (if s.hitsWait then after decideAll s else { s with emitted := [] }).passTick

/-- Runs an HCP request that has passed checks 1 to 4 of Table HCP-10. -/
def runReq (op : Op) (r : Req) (s : State) : Host.Outcome State Fault Refusal := run (serveRow op r) s

end Sys2Proof.Machine
end

