-- ==== Sys2Proof/Machine/FaultOps.lean ====
section
/-! DEFINITION. The fault opcodes (Table FLT-9). -/

namespace Sys2Proof.Machine

/-- A condition that was detected and may persist: whether it still does is a free value; one that has gone is forgotten. -/
def standingAgain (x : Nat × Nat × Nat) (s : State) : State :=
  if (s.blk x.1).sticky.getLsbD x.2.1 then s
  else
    let (d, s) := s.draw
    if (Config.freeWord d).getLsbD 0 then raise x.1 x.2.1 x.2.2 s
    else { s with flt := { s.flt with standing := s.flt.standing.filter fun y => y != x } }

/-- Sources whose condition persists set their bit again (R373): each is raised while its condition holds. -/
def raisePersisting (s : State) : State :=
  let again := fun (on : Bool) (b n u : Nat) (t : State) =>
    if on && !(t.blk b).sticky.getLsbD n then raise b n u t else t
  let s := again s.time.refLost 0 3 0 s
  let s := again s.time.tpllUnlock 0 4 0 s
  let s := again s.time.ppsLost 0 5 0 s
  let s := again (!s.chip.dspLocked) 3 3 33 s
  let s := again s.flt.ledgerBad 13 0 0 s
  forEach s.flt.standing standingAgain (again s.chip.fwStalled 15 3 0 s)

def opFltRead : Op :=
  { code := 0x0B01
    len := exactly 4
    reads := fun _ _ => true
    fields := fun r _ => [fieldLe 0 (r.u8 0) 16] ++ reserved r 1 3
    effect := fun r s =>
      let b := r.u8 0
      let log := (s.blk b).events.flatMap fun e => ts96 e.1 ++ le 1 e.2.1 ++ zeros 1 ++ le 2 e.2.2
      (s, ansDone (le 8 (s.blk b).sticky.toNat ++ le 8 (s.fltState b) ++ (List.range 64).map (s.reaction b) ++ padTo 256 log)) }

def opFltClear : Op :=
  { code := 0x0B02
    len := exactly 16
    fields := fun r _ => [fieldLe 0 (r.u8 0) 16] ++ reserved r 1 7
    effect := fun r s =>
      let b := r.u8 0
      let f := s.blk b
      let left := f.sticky &&& ~~~(BitVec.ofNat 64 (r.u64 8))
      let f := { f with sticky := left }
      let f := if left = 0 then { f with firstUnit := 0, firstSrc := 0, firstValid := false } else f
      (raisePersisting (s.setBlk b f), ansDone (le 8 left.toNat)) }

/-- R379: what a reaction byte may not be. -/
def reactionOk (b n r : Nat) : Bool :=
  !bit r 3 && decide (r < 64) && decide (r / 16 ≠ 3) && !(r / 16 == 1 && scopeOf b == .never)
    && !(b == 15 && n == 3 && r != 0 && r != 4) && !(b == 15 && n == 2 && r != 0x20) && !(decide (62 ≤ n) && decide (8 ≤ r))

def opFltReactSet : Op :=
  { code := 0x0B03
    len := exactly 4
    fields := fun r _ =>
      [fieldLe 0 (r.u8 0) 16, (sourceExists (r.u8 0) (r.u8 1), ansBadField 1),
       (reactionOk (r.u8 0) (r.u8 1) (r.u8 2), ansBadField 2)] ++ reserved r 3 1
    state := fun _ s => [(!s.flt.locked, ansState s)]
    effect := fun r s =>
      let f := s.blk (r.u8 0)
      (s.setBlk (r.u8 0) { f with react := tset (defaultReaction (r.u8 0) (r.u8 1)) f.react (r.u8 1) (BitVec.ofNat 8 (r.u8 2)) },
       ansDone []) }

def opFltLock : Op :=
  { code := 0x0B04
    len := exactly 0
    fields := fun _ _ => []
    effect := fun _ s => ({ s with flt := { s.flt with locked := true } }, ansDone []) }

def opFltBlockRelease : Op :=
  { code := 0x0B05
    len := exactly 4
    fields := fun r _ => [fieldLe 0 (r.u8 0) 16] ++ reserved r 1 1
    state := fun r s =>
      let f := s.blk (r.u8 0)
      [(f.held.contains (r.u16 2) && !f.inReset.contains (r.u16 2), ansState s)]
    effect := fun r s => (leaveReset (r.u8 0) (r.u16 2) s, ansDone []) }

/-- The corrected errors of a region up to now: beside those of the lines whose flipped bits a command names, what the
memories have counted since the last reading is free (log entry 57). -/
def drawCorrected (region : Nat) (s : State) : State :=
  let (d, s) := s.draw
  countCorrected region (Config.freeWord d).toNat s

def opUncorrRead : Op :=
  { code := 0x0B06
    len := exactly 4
    reads := fun _ _ => true
    fields := fun r _ => [fieldLe 0 (r.u8 0) 5, fieldIn 1 (r.u8 1) 1 32, flagBits r 2 1] ++ reserved r 3 1
    effect := fun r s =>
      let g := r.u8 0
      let s := drawCorrected g s
      let log : List Uncorr := tget [] s.flt.logs g
      let got := log.take (r.u8 1)
      let log' := if bit (r.u8 2) 0 then got.map (fun e => { e with acked := true }) ++ log.drop (r.u8 1) else log
      ({ s with flt := { s.flt with logs := tset [] s.flt.logs g log' } },
       ansDone (le 2 got.length ++ le 2 (log'.filter fun e => !e.acked).length ++ zeros 4
         ++ le 8 (tget 0 s.flt.corrected g) ++ le 8 (tget 0 s.flt.outer g) ++ got.flatMap uncorrEntry)) }

/-- Table FLT-6. -/
def recordBytes (f : FaultRecord) : Bytes :=
  le 2 0x4652 ++ le 1 f.cause ++ le 1 (mask [f.again, f.wasRead, f.testMode]) ++ le 1 f.block ++ le 1 f.source ++ le 2 f.unit
    ++ ts96 f.time ++ le 1 (qCode f.quality) ++ le 1 f.state ++ le 2 f.hubId.toNat ++ le 4 f.count.toNat
    ++ le 4 f.chipState.toNat ++ zeros 32
    ++ (List.range 64).flatMap fun b =>
      let c := tget (0, 0) f.copies b
      le 8 c.1.toNat ++ le 8 c.2.toNat

def opFltRecordRead : Op :=
  { code := 0x0B07
    len := exactly 0
    reads := fun _ _ => true
    fields := fun _ _ => []
    effect := fun _ s =>
      ({ s with flt := { s.flt with record := { s.flt.record with wasRead := true } } }, ansDone (recordBytes s.flt.record)) }

/-- FLT_INJECT: as a real event, or a parity error, whose register offset is the unit field (DESIGN CHOICE, log
entry 54). -/
def opFltInject : Op :=
  { code := 0x0B08
    len := exactly 4
    fields := fun r _ =>
      [fieldLe 0 (r.u8 0) 16, (r.u8 1 == 0xFF || sourceExists (r.u8 0) (r.u8 1), ansBadField 1)]
    state := fun _ s => [(s.chip.testMode && s.boot.unlocked, ansState s)]
    effect := fun r s =>
      (if r.u8 1 = 0xFF then parityError (r.u8 0) (r.u16 2) s else raise (r.u8 0) (r.u8 1) (r.u16 2) s, ansDone []) }

end Sys2Proof.Machine
end

