-- ==== Sys2Proof/Machine/Mailboxes.lean ====
section
/-! DEFINITION. Mailboxes and their host paths (02_mailboxes, R37-R47, R58-R62): session registers, rings, the management
Ethernet, the SPI management port, and the session opcodes. -/

namespace Sys2Proof.Machine

/-! ## Sessions (R40, R41) -/

/-- The core region is out of reset: its registers can be written. -/
def State.awake (s : State) : Bool := s.chip.phase == .boot || s.chip.phase == .serving || s.chip.phase == .safe

/-- The host can reach BAR0. -/
def State.barUp (s : State) : Bool := s.awake && s.chip.pcieUp

/-- All groups of Table HCP-12. -/
def allGroups : W16 := 0x3FFE

def Mailbox.baseMissing (b : Mailbox) : Bool := b.reqBase == 0 || b.rspBase == 0

/-- A session opens. -/
def openMb (m : Nat) (v2 pause irqEn : Bool) (s : State) : State :=
  let b := s.mb m
  s.setMb m { b with
    enable := true, v2 := v2, pause := pause, irqEn := irqEn, version2 := v2
    session := if pause || (decide (m < 8) && b.baseMissing) then .paused else .opened
    seqSet := false, reqPi := 0, reqCi := 0, rspPi := 0, rspCi := 0, lastSeq := 0xFFFFFFFF, lastCrc := 0, stored := none
    mask := if m = 0 then allGroups else 0, waiting := [] }

/-- The log once a mailbox's notices no longer wait. -/
def unpinWaiting (m : Nat) (log : List LogEntry) : List LogEntry :=
  log.map fun e => if e.mb = m then { e with pinWait := false } else e

/-- A session closes: what waits to be written is discarded, the slots of waiting completion notices return (R58). -/
def closeMb (m : Nat) (s : State) : State :=
  let b := s.mb m
  let slots := b.waiting.filterMap (·.slot)
  let s := s.setMb m { b with enable := false, session := .closed, waiting := [] }
  let s := forEach slots (returnSlot m) s
  { s with hcp := { s.hcp with log := unpinWaiting m s.hcp.log } }

def setPause (m : Nat) (s : State) : State :=
  let b := s.mb m
  s.setMb m { b with pause := true, session := if b.session = .opened then .paused else b.session }

def ringError (m : Nat) (s : State) : State := raise 16 2 m (s.setMb m { s.mb m with ringErr := true })

/-- PAUSE is cleared: a session without a ring base stays PAUSED and sets RING_ERR. A write of PAUSE = 0 where PAUSE is 0
already is one too: it opens a session that a missing base alone kept PAUSED (DESIGN CHOICE, log entry 91). -/
def clearPause (m : Nat) (s : State) : State :=
  let b := s.mb m
  let s := s.setMb m { b with pause := false }
  if b.session ≠ .paused then s
  else if b.baseMissing then ringError m s
  else s.setMb m { s.mb m with session := .opened }

/-- A write of MB_CTRL (Table HCP-4). -/
def writeCtrl (m v : Nat) (s : State) : State :=
  let b := s.mb m
  if !bit v 0 then
    (let s := if b.enable then closeMb m s else s
     s.setMb m { s.mb m with v2 := bit v 1, pause := bit v 2, irqEn := bit v 3 })
  else if !b.enable then openMb m (bit v 1) (bit v 2) (bit v 3) s
  else
    let s := s.setMb m { b with irqEn := bit v 3 }
    if bit v 2 then setPause m s else clearPause m s

def mbSessionOpen (m : Nat) (v2 pause irqEn : Bool) (s : State) : State :=
  if s.barUp then writeCtrl m (mask [true, v2, pause, irqEn]) s else s

def mbSessionClose (m : Nat) (s : State) : State := if s.barUp && (s.mb m).enable then closeMb m s else s

def mbPauseSet (m : Nat) (s : State) : State := if s.barUp then setPause m s else s

def mbPauseClear (m : Nat) (s : State) : State := if s.barUp then clearPause m s else s

def mbIrqEnWrite (m : Nat) (en : Bool) (s : State) : State :=
  if s.barUp then s.setMb m { s.mb m with irqEn := en } else s

/-- A ring base is written: in CLOSED, or in PAUSED with all indices returning to 0; elsewhere it is ignored and sets
RING_ERR. -/
def writeBase (m : Nat) (rsp : Bool) (addr : W64) (s : State) : State :=
  let b := s.mb m
  if b.session = .opened then ringError m s
  else
    let a := addr &&& ~~~0xFFF#64
    let b := if rsp then { b with rspBase := a } else { b with reqBase := a }
    s.setMb m (if b.session = .paused then { b with reqPi := 0, reqCi := 0, rspPi := 0, rspCi := 0 } else b)

def ringBaseWrite (m : Nat) (rsp : Bool) (addr : W64) (s : State) : State := if s.barUp then writeBase m rsp addr s else s

/-- The doorbell (R38). -/
def reqPiDoorbell (m : Nat) (v : W16) (s : State) : State :=
  if !s.barUp then s
  else if 64 < (v - (s.mb m).reqCi).toNat then ringError m s
  else s.setMb m { s.mb m with reqPi := v }

/-- The host has consumed entries of the response ring (R38). -/
def rspCiWrite (m : Nat) (v : W16) (s : State) : State :=
  let b := s.mb m
  if !s.barUp then s
  else if (b.rspPi - b.rspCi).toNat < (v - b.rspCi).toNat then ringError m s
  else s.setMb m { b with rspCi := v }

def ringErrClear (m : Nat) (s : State) : State :=
  if s.barUp then s.setMb m { s.mb m with ringErr := false } else s

/-! ## Writing entries (R39, R42, R45, R47, R58) -/

/-- The hub answers mailboxes: the firmware serves them, or BOOT refuses what comes (R29). -/
def State.answers (s : State) : Bool := s.chip.phase == .boot || s.serves

/-- The entry written last comes off the mailbox's queue; a completion notice returns its slot, an unsolicited notice
loses its pin. -/
def entryWritten (m : Nat) (e : Entry) (s : State) : State :=
  let b := s.mb m
  let s := s.setMb m { b with waiting := b.waiting.drop 1 }
  match e.slot with
  | some n => returnSlot m n s
  | none =>
    if e.isNotice then
      { s with hcp := { s.hcp with log := s.hcp.log.map fun x =>
          if x.mb = m ∧ x.hubSeq = e.hubSeq then { x with pinWait := false } else x } }
    else s

/-- A UDP datagram as IP packets at a path MTU of 1,500 bytes, of at most `size` datagram bytes each (R44). -/
def fragments (size : Nat) : Nat → Bytes → List Bytes
  | 0, _ => []
  | n + 1, b => if b.isEmpty then [] else b.take size :: fragments size n (b.drop size)

/-- The UDP datagram of a frame, from port 47,104. -/
def udpDatagram (port checksum : Nat) (frame : Bytes) : Bytes :=
  be 2 47104 ++ be 2 port ++ be 2 (8 + frame.length) ++ be 2 checksum ++ frame

/-- Bytes of a datagram that travel in one IP packet: over IPv4 1,480 behind its header of 20; over IPv6 1,460 behind its
header of 40 where the datagram goes whole, else 1,448 behind a fragment header too. -/
def fragmentBytes (dst : Bytes) (len : Nat) : Nat := if dst.length = 4 then 1480 else if len ≤ 1460 then 1460 else 1448

/-- Sends a frame. The spec does not say what its UDP checksum is: a free value (log entry 92). -/
def sendDatagram (dst : Bytes) (port : Nat) (frame : Bytes) (s : State) : State :=
  let (d, s) := s.draw
  let u := udpDatagram port ((Config.freeWord d).toNat % 65536) frame
  s.emit (.datagram dst port (fragments (fragmentBytes dst u.length) 4 u))

/-- The front entry of mailbox m is written, where its path has room. -/
def writeEntry (m : Nat) (e : Entry) (s : State) : State :=
  if m < 8 then
    let b := s.mb m
    if b.session ≠ .opened ∨ !s.chip.pcieUp ∨ 64 ≤ (b.rspPi - b.rspCi).toNat then s
    else
      let s := (s.setMb m { b with rspPi := b.rspPi + 1 }).emit (.ringWrite m (b.rspPi.toNat % 64) e.frame)
      entryWritten m e (if b.irqEn then s.raiseMsix m else s)
  else if m = 8 then
    match (if e.isNotice then s.hcp.peer else s.hcp.replyTo.or s.hcp.peer) with
    | some (a, p) => entryWritten m e (sendDatagram a p e.frame s)
    | none => entryWritten m e s
  else if s.hcp.spiReady then s
  else entryWritten m e { s with hcp := { s.hcp with spiReady := true, spiRsp := memWrite [] 0 e.frame } }

/-- A response to SYS_RESET has gone out: the chip reset begins (R415). -/
def resetAfter (e : Entry) (old s : State) : State :=
  if s.chip.sysResetOwed && getU e.frame 0xC 2 == 0x104 && getU e.frame 0xE 2 == 0
      && decide (old.hcp.mbs ≠ s.hcp.mbs) then chipReset s
  else s

/-- RESPONSE_WRITE: the front entry of a mailbox is a response. -/
def responseWrite (m : Nat) (s : State) : State :=
  match (s.mb m).waiting with
  | e :: _ => if e.isNotice || !s.answers then s else resetAfter e s (writeEntry m e s)
  | [] => s

/-- NOTICE_WRITE: the front entry of a mailbox is a notice. -/
def noticeWrite (m : Nat) (s : State) : State :=
  match (s.mb m).waiting with
  | e :: _ => if !e.isNotice || !s.serves then s else writeEntry m e s
  | [] => s

/-- NOTICES_LOST: the owed notice is generated once an entry of the log frees (R60). Its count is the mailbox's lost-notice
counter, all notices lost since the chip reset (DESIGN CHOICE, log entry 93). -/
def noticesLost (m : Nat) (s : State) : State :=
  if (s.mb m).lostOwed && s.fwRuns && logRoom s.hcp.log then
    notifyOne 0x0180 (le 4 (s.mb m).lost.toNat) m (s.setMb m { s.mb m with lostOwed := false })
  else s

/-! ## Management Ethernet (R43-R45) -/

/-- A datagram came to the hub's management address, in its VLAN (Table BOOT-8). -/
def State.mgmtMine (s : State) (h : MgmtHead) : Bool :=
  let c := s.config
  ((bit (getU c 6 1) 0 && h.dst == sub c 0x10 4) || (bit (getU c 6 1) 1 && h.dst == sub c 0x14 16))
    && h.dst.length == h.src.length
    && (match h.vlan with
      | none => getU c 0x0E 2 % 4096 == 0
      | some v => getU c 0x0E 2 % 4096 == v.toNat)

/-- A UDP payload for mailbox 8: one frame, or it is counted and discarded. -/
def takeDatagram (src : Bytes) (sport udpLen : Nat) (data : Bytes) (s : State) : State :=
  if !s.awake || !s.mbOpen 8 then s
  else if 32 ≤ data.length ∧ udpLen = 40 + getU data 0xA 2 ∧ data.length = udpLen - 8 then
    { s with hcp := { s.hcp with mgmtQueue := s.hcp.mgmtQueue ++ [(src, sport, data)] } }
  else raise 16 3 17 { s with hcp := { s.hcp with mgmtErrors := s.hcp.mgmtErrors + 1 } }

/-- MGMT_DATAGRAM_RX: a datagram to another address, VLAN or port is none of mailbox 8's. -/
def mgmtDatagramRx (h : MgmtHead) (ports : UdpPorts) (udpLen : Nat) (data : Bytes) (s : State) : State :=
  if s.mgmtMine h && ports.dport == 47104 then takeDatagram h.src ports.sport udpLen data s else s

/-- The length of a datagram whose fragments are all there. -/
def Partial.total (p : Partial) : Option Nat :=
  match p.parts.find? fun f => !f.2.1 with
  | none => none
  | some l =>
    let n := l.1 + l.2.2.length
    if n = 0 ∨ 4104 < n then none
    else if (List.range n).all fun i => p.parts.any fun f => decide (f.1 ≤ i) && decide (i < f.1 + f.2.2.length) then some n
    else none

/-- The first n bytes of a datagram, from its fragments. -/
def Partial.bytes (p : Partial) (n : Nat) : Bytes := memRead (p.parts.foldl (fun t f => memWrite t f.1 f.2.2) []) 0 n

def dropPartial (src : Bytes) (id : Nat) (s : State) : State :=
  { s with hcp := { s.hcp with partials := s.hcp.partials.filter fun p => !(p.src == src && p.id == id) } }

/-- MGMT_FRAGMENT_RX: a fragment of an IP datagram; `offset` counts bytes, and the first fragment begins with the UDP
header. At most eight datagrams are held (a ninth is not begun), and none longer than a UDP payload of 4,096 bytes. -/
def mgmtFragmentRx (h : MgmtHead) (id offset : Nat) (more : Bool) (data : Bytes) (s : State) : State :=
  if !s.awake || !s.mbOpen 8 || !s.mgmtMine h then s
  else
    let src := h.src
    let held := s.hcp.partials.find? fun p => p.src == src && p.id == id
    if held.isNone ∧ 8 ≤ s.hcp.partials.length then s
    else
      let p := held.getD { src := src, id := id, parts := [], since := s.tick }
      let p := { p with parts := p.parts ++ [(offset, more, data)] }
      let s := dropPartial src id s
      if 4104 < offset + data.length then s
      else match p.total with
        | none => { s with hcp := { s.hcp with partials := s.hcp.partials ++ [p] } }
        | some n =>
          let b := p.bytes n
          if ofBe (sub b 2 2) = 47104 then takeDatagram src (ofBe (sub b 0 2)) (ofBe (sub b 4 2)) (b.drop 8) s else s

/-- MGMT_FRAGMENT_TIMEOUT: 1 s after the first fragment. -/
def mgmtFragmentTimeout (src : Bytes) (id : Nat) (s : State) : State :=
  if s.hcp.partials.any fun p => p.src == src && p.id == id && decide (p.since + 1000000000 ≤ s.tick) then dropPartial src id s
  else s

/-! ## SPI management port (R46, R47) and plain register writes (R37) -/

def spiMbGo (s : State) : State := if s.awake then { s with hcp := { s.hcp with spiGo := true } } else s

def spiRspReadyClear (s : State) : State := if s.awake then { s with hcp := { s.hcp with spiReady := false } } else s

def spiMbOpen (s : State) : State := if s.awake && !(s.mb 9).enable then openMb 9 false false false s else s

def spiMbClose (s : State) : State := if s.awake && (s.mb 9).enable then closeMb 9 s else s

/-- A write of SPI_MB (Table HCP-7). A write of GO = 0 leaves GO as it is: only the hub clears it (DESIGN CHOICE, log
entry 94). -/
def writeSpiMb (v : Nat) (s : State) : State :=
  let s := if bit v 2 then spiMbOpen s else spiMbClose s
  let s := if bit v 1 then spiRspReadyClear s else s
  if bit v 0 then spiMbGo s else s

/-- The push registers can be used: BOOT, with a push strap and status 0, or FAILED (R423). -/
def State.pushOpen (s : State) : Bool :=
  s.chip.phase == .boot && (s.chip.bootStatus == 4
    || (s.chip.bootStatus == 0 && (s.chip.straps.toNat % 4 == 1 || s.chip.straps.toNat % 4 == 2)))

/-- The push registers answer: pushes are accepted, or one is in progress. -/
def State.pushSeen (s : State) : Bool := s.pushOpen || (s.chip.phase == .boot && s.chip.bootStatus == 5)

/-- One byte written at an SPI address (Table HCP-6, Table BOOT-7); GO takes a chunk only through PUSH_CHUNK_GO. -/
def spiPut (a : Nat) (v : Byte) (s : State) : State :=
  if !s.awake then s
  else if 0x1000 ≤ a ∧ a < 0x2000 then { s with hcp := { s.hcp with spiReq := memSet s.hcp.spiReq (a - 0x1000) v } }
  else if a = 0x3000 then writeSpiMb v.toNat s
  else if !s.pushSeen then s
  else if a = 0x100004 ∨ a = 0x100005 then
    let b := memSet (memWrite [] 0 (le 2 s.boot.chunkLen.toNat)) (a - 0x100004) v
    let n := BitVec.ofNat 16 (getU (memRead b 0 2) 0 2)
    { s with boot := { s.boot with chunkLen := n } }
  else if 0x100008 ≤ a ∧ a < 0x10000C then
    let b := memSet (memWrite [] 0 (le 4 s.boot.chunkOff.toNat)) (a - 0x100008) v
    let n := BitVec.ofNat 32 (getU (memRead b 0 4) 0 4)
    { s with boot := { s.boot with chunkOff := n } }
  else if 0x101000 ≤ a ∧ a < 0x110000 then
    { s with boot := { s.boot with dataWindow := memSet s.boot.dataWindow (a - 0x101000) v } }
  else s

/-- The push control register (Table BOOT-7). -/
def pushControl (s : State) : Nat :=
  if s.pushSeen then mask [s.boot.pushGo, s.boot.pushLast] + 4 * s.boot.pushState + 16 * s.boot.pushReason else 0

/-- One byte read at an SPI address. -/
def spiGet (s : State) (a : Nat) : Byte :=
  if a < 0x1000 then (if s.chip.phase = .off then 0 else s.lastBreath.getD a 0)
  else if !s.awake then 0
  else if a < 0x2000 then memGet s.hcp.spiReq (a - 0x1000)
  else if a < 0x3000 then memGet s.hcp.spiRsp (a - 0x2000)
  else if a = 0x3000 then BitVec.ofNat 8 (mask [s.hcp.spiGo, s.hcp.spiReady, (s.mb 9).enable])
  else if !s.pushSeen then 0
  else if 0x100000 ≤ a ∧ a < 0x100004 then (le 4 (pushControl s)).getD (a - 0x100000) 0
  else if 0x100004 ≤ a ∧ a < 0x100006 then (le 2 s.boot.chunkLen.toNat).getD (a - 0x100004) 0
  else if 0x100008 ≤ a ∧ a < 0x10000C then (le 4 s.boot.chunkOff.toNat).getD (a - 0x100008) 0
  else if 0x101000 ≤ a ∧ a < 0x110000 then memGet s.boot.dataWindow (a - 0x101000)
  else 0

/-- SPI_TRANSACTION: bytes at ascending 24-bit addresses, going on at 0 behind 0xFF_FFFF (DESIGN CHOICE, log entry 95); a
read that includes 0x020 captures Hub Time (R68), except in OFF, where the window does not answer. -/
def spiTransaction (write : Bool) (addr count : Nat) (data : Bytes) (s : State) : State :=
  let at_ := fun (i : Nat) => (addr + i) % 0x1000000
  if write then forEach ((List.range count).map fun i => (at_ i, data.getD i 0)) (fun x t => spiPut x.1 x.2 t) s
  else
    let s := if s.chip.phase ≠ .off ∧ (List.range count).any fun i => at_ i == 0x20 then s.captureTime else s
    s.emit (.spiRead ((List.range count).map fun i => spiGet s (at_ i)))

/-- A 32-bit write in BAR0 (Tables HCP-2 and HCP-3). -/
def barPut (a v : Nat) (s : State) : State :=
  let m := (a - 0x1000) / 0x100
  let b := s.mb m
  if 0x1000 ≤ a ∧ a < 0x1800 then
    match a % 0x100 with
    | 0x00 => writeCtrl m v s
    | 0x04 => if bit v 3 then ringErrClear m s else s
    | 0x08 => writeBase m false (BitVec.ofNat 64 (b.reqBase.toNat / 2 ^ 32 * 2 ^ 32 + v)) s
    | 0x0C => writeBase m false (BitVec.ofNat 64 (b.reqBase.toNat % 2 ^ 32 + v * 2 ^ 32)) s
    | 0x10 => writeBase m true (BitVec.ofNat 64 (b.rspBase.toNat / 2 ^ 32 * 2 ^ 32 + v)) s
    | 0x14 => writeBase m true (BitVec.ofNat 64 (b.rspBase.toNat % 2 ^ 32 + v * 2 ^ 32)) s
    | 0x18 => reqPiDoorbell m (BitVec.ofNat 16 v) s
    | 0x24 => rspCiWrite m (BitVec.ofNat 16 v) s
    | _ => s
  else if 0x2000 ≤ a ∧ a < 0x2090 then
    { s with hcp := { s.hcp with msixTable := memWrite s.hcp.msixTable (a - 0x2000) (le 4 v) } }
  else s

/-- A vector whose mask has been cleared while it was pending is sent (PRESUMED, log entry 5). -/
def sendPending (s : State) : State :=
  forEach (List.range 9) (fun v t =>
    if t.hcp.pba.getLsbD v && !(memGet t.hcp.msixTable (16 * v + 12)).getLsbD 0 then
      { t with hcp := { t.hcp with pba := t.hcp.pba &&& ~~~(BitVec.ofNat 9 (2 ^ v)) } }.raiseMsix v
    else t) s

/-- A 32-bit write in the vendor-specific capability (Table BOOT-7); GO acts only through PUSH_GO. -/
def vsecPut (a v : Nat) (s : State) : State :=
  if !s.pushSeen then s
  else match a with
    | 0x08 => { s with boot := { s.boot with pushAddr := BitVec.ofNat 64 (s.boot.pushAddr.toNat / 2 ^ 32 * 2 ^ 32 + v) } }
    | 0x0C => { s with boot := { s.boot with pushAddr := BitVec.ofNat 64 (s.boot.pushAddr.toNat % 2 ^ 32 + v * 2 ^ 32) } }
    | 0x10 => { s with boot := { s.boot with pushLen := BitVec.ofNat 32 v } }
    | _ => s

/-- An access that BAR0 accepts: 32 or 64 bits, aligned (R37). -/
def barAccess (offset size : Nat) : Bool := (size == 4 || size == 8) && offset % size == 0

/-- A 32-bit register of a mailbox (Table HCP-3), by its offset. -/
def mbReg (b : Mailbox) : Nat → Nat
  | 0x00 => mbCtrl b
  | 0x04 => mbStatus b
  | 0x08 => b.reqBase.toNat % 2 ^ 32
  | 0x0C => b.reqBase.toNat / 2 ^ 32
  | 0x10 => b.rspBase.toNat % 2 ^ 32
  | 0x14 => b.rspBase.toNat / 2 ^ 32
  | 0x18 => b.reqPi.toNat
  | 0x1C => b.reqCi.toNat
  | 0x20 => b.rspPi.toNat
  | 0x24 => b.rspCi.toNat
  | _ => 0

/-- One byte of BAR0 (Table HCP-2); reserved ranges read 0. -/
def barGet (s : State) (a : Nat) : Byte :=
  if a < 0x1000 then s.lastBreath.getD a 0
  else if a < 0x1800 then (le 4 (mbReg (s.mb ((a - 0x1000) / 0x100)) (a % 0x100 / 4 * 4))).getD (a % 4) 0
  else if 0x2000 ≤ a ∧ a < 0x2090 then memGet s.hcp.msixTable (a - 0x2000)
  else if 0x3000 ≤ a ∧ a < 0x3008 then (le 8 s.hcp.pba.toNat).getD (a - 0x3000) 0
  else 0

/-- A read access in BAR0 while the link is up (R37, R67); one that includes byte 0x020 captures Hub Time first (R68). -/
def barRead (offset size : Nat) (s : State) : State :=
  if !s.chip.pcieUp then s
  else if !barAccess offset size then s.emit (.unsupported offset)
  else
    let s := if offset ≤ 0x20 ∧ 0x20 < offset + size then s.captureTime else s
    s.emit (.barRead offset ((List.range size).map fun i => barGet s (offset + i)))

/-- TIME_NOW_CAPTURE_READ: the word at 0x020 is read. -/
def timeNowCaptureRead (s : State) : State := barRead 0x20 4 s

/-- A plain write: an aligned 32-bit or 64-bit write; any other access in BAR0 gets an unsupported-request
completion and changes nothing. -/
def plainWrite (space : RegSpace) (offset : Nat) (data : Bytes) (s : State) : State :=
  let aligned := barAccess offset data.length
  let words := (List.range (data.length / 4)).map fun i => (offset + 4 * i, getU data (4 * i) 4)
  match space with
  | .bar0 =>
    if !s.chip.pcieUp then s
    else if !aligned then s.emit (.unsupported offset)
    else if s.awake then sendPending (forEach words (fun x t => barPut x.1 x.2 t) s) else s
  | .vsec => if s.chip.pcieUp && aligned then forEach words (fun x t => vsecPut x.1 x.2 t) s else s
  | .spi => forEach ((List.range data.length).map fun i => (offset + i, data.getD i 0)) (fun x t => spiPut x.1 x.2 t) s

/-- REGISTER_WRITE_PLAIN: a plain write, or a read in BAR0. -/
def registerWritePlain (space : RegSpace) (offset : Nat) (access : RegAccess) (s : State) : State :=
  match access with
  | .write data => plainWrite space offset data s
  | .read size => if space = .bar0 then barRead offset size s else s

/-! ## Session opcodes (R61, R62) -/

/-- Notices of mailbox m in the log, oldest first. -/
def State.logged (s : State) (m : Nat) : List LogEntry := s.hcp.log.filter fun e => e.mb == m

/-- The hub_seq that follows the response being made. -/
def State.seqAfter (s : State) (m : Nat) : W32 := (s.mb m).hubSeq + 1

def State.oldestSeq (s : State) (m : Nat) : W32 :=
  match s.logged m with
  | e :: _ => e.hubSeq
  | [] => s.seqAfter m

def opSessionInfo : Op :=
  { code := 0x0101
    len := exactly 0
    reads := fun _ _ => true
    fields := fun _ _ => []
    effect := fun r s =>
      let m := r.mb.val
      let b := s.mb m
      (s, ansDone (le 4 r.hostSeq.toNat ++ le 4 (s.seqAfter m).toNat ++ le 4 (s.oldestSeq m).toNat ++ le 2 b.slots.length
        ++ le 2 (b.waiting.filter (·.isNotice)).length ++ le 4 b.lost.toNat ++ le 2 b.mask.toNat ++ le 1 b.version ++ le 1 m)) }

def opNoticeFetch : Op :=
  { code := 0x0102
    len := exactly 8
    reads := fun _ _ => true
    fields := fun r _ => [fieldIn 4 (r.u16 4) 1 15] ++ reserved r 6 2
    effect := fun r s =>
      let m := r.mb.val
      let age := fun (q : W32) => (s.seqAfter m - q).toNat
      let first := BitVec.ofNat 32 (r.u32 0)
      let es := ((s.logged m).filter fun e => decide (age e.hubSeq ≤ age first)).take (r.u16 4)
      (s, ⟨0, b2n (decide (age (s.oldestSeq m) < age first)),
        le 2 es.length ++ zeros 2 ++ le 4 (s.oldestSeq m).toNat ++ es.flatMap fun e => padTo 256 e.frame⟩) }

def opNoticeSubscribe : Op :=
  { code := 0x0103
    len := exactly 4
    reads := fun _ _ => true
    fields := fun r _ => [(decide (r.u16 0 % 2 = 0) && decide (r.u16 0 < 2 ^ 14), ansBadField 0)] ++ reserved r 2 2
    effect := fun r s => (s.setMb r.mb.val { s.mb r.mb.val with mask := BitVec.ofNat 16 (r.u16 0) }, ansDone []) }

end Sys2Proof.Machine
end

