-- ==== Sys2Proof/Machine/Calendar.lean ====
section
/-! DEFINITION. The firing of the event calendar (03_hub_time, R90-R103): the due rule, the order of firing, offset steps,
discards, fire records, CAL_CANCEL. -/

namespace Sys2Proof.Machine

/-! ## Offset steps (R77-R80, R186, R291) -/

/-- Hub Time moved by d units of 2^-16 ns, seconds kept within 48 bits. -/
def TimeSt.shift (t : TimeSt) (d : Int) : TimeSt :=
  let x := ((t.now : Int) + d) % ((2 ^ 48 * unitsPerSec : Nat) : Int)
  { t with
    sec := x.toNat / unitsPerSec, ns := x.toNat % unitsPerSec / 65536
    frac40 := x.toNat % 65536 * 16777216 + t.frac40 % 16777216 }

/-- A stamp that an elapsed-time rule compares moves with the scale. -/
def moveStamp (d : Int) (t : T16) : T16 := ((t : Int) + d).toNat

/-- Stamps that physical elapsed times are measured from (the 8 ns of R87, the second of R378). -/
def moveStamps (d : Int) (s : State) : State :=
  { s with
    time := { s.time with
      ppsRaw := s.time.ppsRaw.map (moveStamp d)
      trig := s.time.trig.map fun x => (x.1, { x.2 with last := x.2.last.map (moveStamp d) }) }
    flt := { s.flt with blocks := s.flt.blocks.map fun b =>
      (b.1, { b.2 with starts := b.2.starts.map fun x => (x.1, moveStamp d x.2) }) } }

/-- What a whole-second step does to the indices (R79, R186, R214, R291). -/
def stepIndices (sec : Int) (s : State) : State :=
  let s := forEach (s.channels.map (·.1)) (stepChannel sec) s
  let s := forEach (s.cap.windows.map (·.1)) (stepWindow sec) s
  let s := forEach (s.bglIns.map (·.1)) (fun n t => stepLink sec 2 n (stepBgl sec n t)) s
  let s := forEach (s.jesds.map (·.1)) (stepLink sec 1) s
  forEach (s.scps.map (·.1)) (fun n t => stepLink sec 3 n (stepScp sec n t)) s

/-- What a step with a sub-second part does: the clocks restart, every link returns to CONFIGURED (R80, Table INP-6). -/
def stepRestart (s : State) : State :=
  let s := rephaseClocks s
  let s := forEach (s.jesds.map (·.1)) (dropAlignment 1) s
  let s := forEach (s.bglIns.map (·.1)) (dropAlignment 2) s
  forEach (s.scps.map (·.1)) (dropAlignment 3) s

/-- The first step sets the quality FREE (Table TIME-4). -/
def firstSet (s : State) : State :=
  if s.time.quality = .unset then raise 0 7 0 { s with time := { s.time with quality := .free } } else s

/-- A servo that awaited the step goes on to acquire (Table XFER-4). -/
def servoStepped (s : State) : State :=
  if s.xfer.servo = .stepPending then tellTransfer s.xfer (setServo .acquire s) else s

/-- An offset step of `ns` nanoseconds and `frac` units fires. Its time, as TIME_GET reports it, is the stepped Hub Time (DESIGN CHOICE,
log entry 106). -/
def offsetStep (ns : Int) (frac : W16) (s : State) : State :=
  let d := ns * 65536 + (frac.toNat : Int)
  let whole := decide (d % unitsPerSec = 0)
  let s := if whole then forEach (s.strm.streams.map (·.1)) stepStream s else s
  let moved : State := { s with time := s.time.shift d }
  let s := moveStamps d moved
  let s := { s with time := { s.time with
    stepTime := s.now, stepCount := s.time.stepCount + 1, stepNs := ns, stepFrac := frac, lastPulse := -1 } }
  let s := if whole then stepIndices (d / unitsPerSec) s else stepRestart s
  keepClock moved (servoStepped (firstSet s))

/-! ## Heartbeat slots, quiet windows, hand-over -/

/-- A heartbeat frame goes out on every enabled Easel link that is up (R124), and a slot has passed since each link's
last frame. -/
def beatSlot (slot : T16) (s : State) : State :=
  let s := forEach (below 8 fun n => s.easelOn n && s.easelUp n)
    (fun n t => t.emit (.easel n (messageBlocks 0 (messageBytes 2 (heartbeatFrame s n slot))))) s
  s.setXfer { s.xfer with
    heard := s.xfer.heard.map fun h => (h.1, { h.2 with ago := min 3 (h.2.ago + 1) })
    handoverSlots := if s.xfer.handoverTo.isSome then s.xfer.handoverSlots + 1 else 0 }

/-- MAINT_EVENT (R428). -/
def maintEvent (event id : Nat) (s : State) : State :=
  notify 0x0D80 (le 1 event ++ le 1 id ++ zeros 2 ++ ts96 s.now) s

def State.quietWin (s : State) (id : Nat) : Option Quiet := (s.boot.quiet.find? fun q => q.1 == id).map (·.2)

/-- The declared window that begins first, one that has not opened. -/
def State.nextQuiet (s : State) : Option Nat :=
  (s.boot.quiet.foldl (fun (b : Option (Nat × Quiet)) q =>
    if q.2.isOpen then b else match b with
      | some p => if q.2.start < p.2.start then some q else some p
      | none => some q) none).map (·.1)

def openQuiet (id : Nat) (s : State) : State :=
  maintEvent 0 id { s with boot := { s.boot with quiet := s.boot.quiet.map fun q =>
    if q.1 = id then (q.1, { q.2 with isOpen := true }) else q } }

/-- A window leaves; a calibration that is not finished awaits the next one declared (R429). -/
def dropQuiet (id : Nat) (s : State) : State :=
  let s := { s with boot := { s.boot with quiet := s.boot.quiet.filter fun q => q.1 ≠ id } }
  match s.boot.calib with
  | some c => if c.window = id then { s with boot := { s.boot with calib := some { c with window := s.nextQuiet.getD 8 } } } else s
  | none => s

def closeQuiet (id : Nat) (s : State) : State := maintEvent 1 id (dropQuiet id s)

/-- A result byte that the spec does not state: 0 or 1. -/
def freeResult (s : State) : Nat × State :=
  let (d, s) := s.draw
  ((Config.freeWord d).toNat % 2, s)

/-- The hand-over fires on the acting keeper (R134, Table XFER-8): the final snapshot goes out, and the hub acts as
PARTNER until its partner has announced. The completion waits for that. -/
def fireHandover (to_ : W16) (f : FireRec) (s : State) : State :=
  let old := s.xfer
  let wait := fun (t : State) => t.setXfer { t.xfer with handoverTo := some to_, handoverSlots := 0, handoverJob := some f }
  if s.fwRuns && old.roleAct == .keeper then
    let s := sendSnapshot (some to_) s
    tellTransfer old (follow (wait (s.setXfer { s.xfer with roleAct := .partner, missed := 0 })))
  else wait s

/-! ## Fire records (R101, R102) -/

/-- The fire record of an entry, as it stands now. -/
def fireRec (e : CalEntry) (outcome : Nat) (extra : Bytes) (s : State) : FireRec :=
  { ins := e.ins, time := s.now, outcome := outcome, cls := e.cls, chipState := s.chipCode, job := e.job, extra := extra }

/-- Status and detail of a completion (Table TIME-8). -/
def outcomeStatus (f : FireRec) : Nat × Nat :=
  if f.outcome = 3 then (0x0301, 6) else if f.outcome = 4 then (0x0301, f.chipState) else (0, 0)

/-- Periodic entries and the firmware's own generate no notices (R102). -/
def completeFire (f : FireRec) (s : State) : State :=
  match f.job with
  | some j => complete j (outcomeStatus f).1 (outcomeStatus f).2 (fireRecord f ++ f.extra) s
  | none => s

/-- Records of the hardware log (R101). -/
def fireLogSize : Nat := 4096

/-- An entry that fires or is discarded leaves its record in the log, which holds one for each entry: a periodic entry's latest
(R101). Where all records are in use the oldest goes to its notice first (DESIGN CHOICE, log entry 101). -/
def logFire (e : CalEntry) (outcome : Nat) (extra : Bytes) (s : State) : State :=
  let log := s.cal.fireLog.filter fun f => f.ins != e.ins
  let x := fireRec e outcome extra s
  match log with
  | f :: fs =>
    if log.length < fireLogSize then { s with cal := { s.cal with fireLog := log ++ [x] } }
    else completeFire f { s with cal := { s.cal with fireLog := fs ++ [x] } }
  | [] => { s with cal := { s.cal with fireLog := [x] } }

/-- FIRE_RECORD_NOTICE: the running firmware turns the oldest record into its notice. -/
def fireRecordNotice (s : State) : State :=
  match s.cal.fireLog with
  | f :: fs => if s.fwRuns then completeFire f { s with cal := { s.cal with fireLog := fs } } else s
  | [] => s

/-! ## What an entry does -/

def rangeNames (first count : Nat) : List Nat := (List.range count).map (first + ·)

/-- The object of a scheduled start returns to BOUND (Tables INP-8 and PIPE-5). -/
def disarmChannel (c : Nat) (s : State) : State :=
  if (s.chan c).state = .armed then s.setChan c { s.chan c with state := .bound } else s

def disarmPipe (p : Nat) (s : State) : State :=
  if (s.pipe p).state = .armed then
    let s := dropSwap p (s.setPipe p { s.pipe p with state := .bound })
    unplaceStream p s
  else s

/-- The payload that follows the fire record of an entry that does not act, and what its object returns to. -/
def undo (e : CalEntry) (s : State) : Bytes × State :=
  match e.action with
  | .swap p =>
    match (s.pipe p).swap with
    | some w => (swapPayload (s.pipe p) w 1, disarmSwap p s)
    | none => ([], s)
  | .segment c start => ([], dropSegment c start s)
  | .capArm n => ([], s.setWin n { s.win n with pendArm := false })
  | .capDisarm n _ => ([], s.setWin n { s.win n with pendDisarm := false })
  | .capTrigger n _ => (le 1 2 ++ zeros 3 ++ le 4 (s.win n).sketch.toNat ++ zeros 8, s)
  | .chanStart first count => ([], forEach (rangeNames first count) disarmChannel s)
  | .pipeStart first count => ([], forEach (rangeNames first count) disarmPipe s)
  | .quietOpen _ => ([], s)
  | .quietClose id => ([], dropQuiet id s)
  | .handover _ =>
    let (b, s) := freeResult s
    (le 1 b ++ zeros 3, s)
  | .offsetStep _ _ | .rateChange _ | .retune _ _ _ _ | .dclk _ _ _ _ | .sysref _ | .trigOut _ | .chanStop _ _
  | .pipeStop _ _ | .heartbeat => ([], s)

/-- The action of an entry that fires with an outcome, at the time t that R98 gives it. -/
def act (e : CalEntry) (t : T16) (outcome : Nat) (s : State) : State :=
  let done := fun (s : State) => logFire e outcome [] s
  match e.action with
  | .offsetStep ns frac => offsetStep ns frac s
  | .rateChange w => holdRate (writeRate w.toNat s)
  | .swap p => armSwap p (fireRec e outcome [] s) s
  | .retune p w set ph => done (retunePipe p t w (if set then some ph else none) s)
  | .dclk o en phase freq => done (setDclkOut o en phase freq s)
  | .sysref o => done (sysrefPulse o e.time s)
  | .segment c start => done (releaseSegment c start s)
  | .capArm n =>
    let s := s.setWin n { s.win n with pendArm := false }
    done (if (s.win n).state = .idle then armWindow n t s else s)
  | .capDisarm n abort => done (disarmWindow n abort (s.setWin n { s.win n with pendDisarm := false }))
  | .capTrigger n k =>
    let x := capTriggerHit n k t s
    logFire e outcome x.1 x.2
  | .trigOut o => done (trainPulse o e.time s)
  | .chanStart first count =>
    done (forEach (rangeNames first count) (fun c u => if (u.chan c).state = .armed then startChannel c t u else u) s)
  | .chanStop first count => done (forEach (rangeNames first count) (fun c u => stopChannel c t u) s)
  | .pipeStart first count =>
    done (forEach (rangeNames first count) (fun p u => if (u.pipe p).state = .armed then startPipe p t u else u) s)
  | .pipeStop first count => done (forEach (rangeNames first count) (fun p u => stopPipe p t u) s)
  | .heartbeat => done (beatSlot e.time s)
  | .quietOpen id => done (openQuiet id s)
  | .quietClose id => done (closeQuiet id s)
  | .handover to_ => fireHandover to_ (fireRec e outcome [] s) s

/-- The block units that an entry acts on (R100, Table FLT-1; log entry 58). -/
def actingUnits (s : State) : Action → List (Nat × Nat)
  | .swap _ | .retune _ _ _ _ | .segment _ _ | .pipeStart _ _ | .pipeStop _ _ => [(6, 0)]
  | .dclk _ _ _ _ | .sysref _ => [(3, 0)]
  | .capArm _ | .capDisarm _ _ => [(8, 0)]
  | .capTrigger _ _ => [(7, 0)]
  | .chanStart first count | .chanStop first count =>
    (rangeNames first count).map fun c => (5, 64 * (linkKind (s.chan c).kind - 1) + (s.chan c).source)
  | .offsetStep _ _ | .rateChange _ | .trigOut _ | .heartbeat | .quietOpen _ | .quietClose _ | .handover _ => []

/-! ## Due entries (R94, R95, R98) -/

def CalEntry.due (e : CalEntry) (s : State) : Bool := decide (nsOf e.time ≤ nsOf s.now)

/-- Entries in ascending class and, within a class, insertion order. -/
def placeEntry (x : CalEntry × Nat) : List (CalEntry × Nat) → List (CalEntry × Nat)
  | [] => [x]
  | y :: ys =>
    if x.1.cls < y.1.cls ∨ (x.1.cls = y.1.cls ∧ x.1.ins < y.1.ins) then x :: y :: ys else y :: placeEntry x ys

def firingOrder (xs : List (CalEntry × Nat)) : List (CalEntry × Nat) := xs.foldl (fun l x => placeEntry x l) []

/-- The first time of a periodic entry's occurrences. -/
def firstTime (s : State) : Action → T16
  | .sysref o => (s.sref o).first
  | .trigOut o => (s.trigOut o).first
  | _ => 0

/-- The first occurrence of a periodic entry strictly after now (R98). -/
def CalEntry.resume (e : CalEntry) (s : State) : T16 :=
  let now := nsOf s.now
  if now < nsOf e.time then
    e.time - min ((nsOf e.time - now - 1) / e.period) ((nsOf e.time - nsOf (firstTime s e.action)) / e.period) * e.period * 65536
  else e.time + ((now - nsOf e.time) / e.period + 1) * e.period * 65536

/-- An entry that has fired or been discarded leaves; a periodic one waits for its next occurrence while it has any. -/
def retire (stepped : Bool) (e : CalEntry) (s : State) : State :=
  let left := e.reps.map (· - 1)
  let keep := decide (e.period ≠ 0) && decide (left ≠ some 0)
  let next := { e with time := if stepped then e.resume s else e.time + e.period * 65536, reps := left }
  { s with cal := { s.cal with entries := s.cal.entries.filterMap fun x =>
    if x.ins = e.ins then (if keep then some next else none) else some x } }

/-- An entry that is discarded: counted, flagged, undone, recorded. -/
def discard (e : CalEntry) (outcome : Nat) (s : State) : State :=
  let old := s
  let s := raise 1 0 0 { s with cal := { s.cal with discarded := s.cal.discarded + 1 } }
  let x := undo e s
  ledgerNotice old (logFire e outcome x.1 x.2)

/-- An entry of the set of a tick is discarded unless it is of class 1: in SAFE, or while its block is in reset. -/
def barred (e : CalEntry) (s : State) : Option Nat :=
  if s.chip.phase == .safe && decide (e.cls ≠ 1) then some 3
  else if (actingUnits s e.action).any fun u => s.inReset u.1 u.2 then some 4
  else none

/-- The time at which an entry of the tick acts. -/
def actTime (stepped : Bool) (e : CalEntry) (s : State) : T16 := if stepped then max e.time s.now else e.time

/-- One entry of the set of a tick, with its outcome and what it does. -/
def fireBy (f : CalEntry → T16 → Nat → State → State) (stepped : Bool) (x : CalEntry × Nat) (s : State) : State :=
  let e := x.1
  if !(s.cal.entries.any fun y => y.ins == e.ins) then s
  else
    let why := barred e s
    let s := retire stepped e s
    match why with
    | some o => keepClock s (discard e o s)
    | none =>
      let cal := { s.cal with fired := s.cal.fired + 1, afterStep := if x.2 = 1 then s.cal.afterStep + 1 else s.cal.afterStep }
      let s := { s with cal := cal }
      let done := f e (actTime stepped e s) x.2 s
      if e.isStep then done else keepClock s done

def fireEntry (stepped : Bool) (x : CalEntry × Nat) (s : State) : State := fireBy act stepped x s

/-- The scheduled triggers of a window that follow on one tick, up to its next arm or disarm: they hit in one cycle
(R280, Table CAP-6). -/
def mates (n : Nat) : List (CalEntry × Nat) → List (CalEntry × Nat)
  | [] => []
  | (e, _) :: xs => match e.action with
    | .capTrigger m k => if m = n then (e, k) :: mates n xs else mates n xs
    | .capArm m => if m = n then [] else mates n xs
    | .capDisarm m _ => if m = n then [] else mates n xs
    | _ => mates n xs

/-- The entries of a tick behind class 1, in order; `told` holds the payloads of triggers that were judged with an
earlier one. -/
def fireRest (stepped : Bool) (told : List (Nat × Bytes)) : List (CalEntry × Nat) → State → State
  | [], s => s
  | (e, o) :: xs, s =>
    match told.find? fun x => x.1 == e.ins with
    | some x => fireRest stepped told xs (fireBy (fun e _ o u => logFire e o x.2 u) stepped (e, o) s)
    | none => match e.action with
      | .capTrigger n k =>
        let ms := if (barred e s).isSome then [] else mates n xs
        let hs := (k, actTime stepped e s) :: ms.map fun m => (m.2, actTime stepped m.1 s)
        let told' := told ++ (ms.map (·.1.ins)).zip (capTriggerHits n hs s).1.tail
        fireRest stepped told' xs (fireBy (fun e _ o u =>
          let y := capTriggerHits n hs u
          logFire e o (y.1.headD []) y.2) stepped (e, o) s)
      | _ => fireRest stepped told xs (fireEntry stepped (e, o) s)

/-- The periodic entries that did not fall due on the step tick go on from the stepped Hub Time (R98). -/
def resumePeriodic (fired : List Nat) (s : State) : State :=
  { s with cal := { s.cal with entries := s.cal.entries.map fun e =>
    if e.period = 0 ∨ fired.contains e.ins then e else { e with time := e.resume s } } }

/-- The one-shot entries that a forward step has made due, with their outcomes: those inside the passed-over interval
fired after the step, those at its end fired (R95, R98). -/
def passedOver (old s : State) (seen : List Nat) : List (CalEntry × Nat) :=
  if s.now ≤ old.now then []
  else (s.cal.entries.filter fun e => e.period == 0 && e.due s && !seen.contains e.ins).map fun e =>
    (e, if nsOf e.time < nsOf s.now then 1 else 0)

/-- What a tick has fired and still has to fire: its class-1 entries fired so far, and the other entries that its steps have
made due. -/
structure Passed where
  fired : List (CalEntry × Nat) := []
  others : List (CalEntry × Nat) := []

/-- The steps that a forward step has passed over fire on its tick, and what they pass over in turn joins the set (R95,
R98). -/
def stepOver : Nat → State → List Nat → Passed → State → Passed × State
  | 0, _, _, p, s => (p, s)
  | fuel + 1, old, seen, p, s =>
    let extra := passedOver old s seen
    let one := firingOrder (extra.filter fun x => x.1.cls == 1)
    let p := { fired := p.fired ++ one, others := p.others ++ extra.filter fun x => x.1.cls != 1 }
    if one.isEmpty then (p, s) else stepOver fuel s (seen ++ extra.map (·.1.ins)) p (forEach one (fireEntry true) s)

/-- CALENDAR_FIRE: the due entries of a tick (R95). The records of class-1 entries carry the time after every step of the
tick (Table TIME-9). -/
def calendarFire (s : State) : State :=
  let old := s
  let due := firingOrder ((s.cal.entries.filter fun e => e.due s).map fun e => (e, 0))
  let one := due.filter fun x => x.1.cls == 1
  let seen := due.map (·.1.ins)
  let s := forEach one (fireEntry false) s
  let stepped := one.any fun x => x.1.isStep
  let (p, s) := stepOver old.cal.entries.length old seen { fired := one } s
  let s := if stepped then resumePeriodic seen s else s
  let s := forEach p.fired (fun x t => logFire x.1 x.2 [] t) s
  fireRest stepped [] (firingOrder ((due.filter fun x => x.1.cls != 1) ++ p.others)) s

/-- ENTRY_CHECK: the entry that acts first among the due ones has failed its check and is discarded. -/
def entryCheck (s : State) : State :=
  match firingOrder ((s.cal.entries.filter fun e => e.due s).map fun e => (e, 0)) with
  | x :: _ => discard x.1 4 (retire false x.1 s)
  | [] => s

/-! ## CAL_CANCEL (R103) -/

def State.entryOf (s : State) (mb seq : Nat) : Option CalEntry := s.cal.entries.find? fun e => match e.job with
  | some j => j.mb == mb && j.hostSeq.toNat == seq
  | none => false

def opCalCancel : Op :=
  { code := 0x0207
    len := exactly 8
    ledger := true
    fields := fun r s => [fieldLe 0 (r.u8 0) 9] ++ reserved r 1 3 ++ [((s.entryOf (r.u8 0) (r.u32 4)).isSome, ansBadField 4)]
    state := fun r s =>
      let late := ((s.entryOf (r.u8 0) (r.u32 4)).map fun e => shortfall s e.time).getD 0
      [(late == 0, ansTooLate late)]
    effect := fun r s =>
      match s.entryOf (r.u8 0) (r.u32 4) with
      | some e =>
        let s := { s with cal := { s.cal with entries := s.cal.entries.filter fun x => x.ins ≠ e.ins } }
        let x := undo e s
        (completeFire (fireRec e 2 x.1 x.2) x.2, ansDone [])
      | none => (s, ansDone []) }

end Sys2Proof.Machine
end

