-- ==== Sys2Proof/Machine/Images.lean ====
section
/-! DEFINITION. What lies in flash: signed images and their checks (R420, R421), the boot directory (R419), the
configuration record (R424). -/

namespace Sys2Proof.Machine

/-! ## Signed images (Tables BOOT-5 and BOOT-6) -/

/-- The longest image, 8 MiB. -/
def imageMax : Nat := 8388608

/-- Most decoded bytes of an image kind. -/
def decodedMax (kind : Nat) : Nat := if kind = 1 then 4194304 else if kind = 2 then 8388608 else 0

/-- Whether the first 32 bytes pass check 2 on the path of a kind. -/
def headerOk (kind : Nat) (h : Bytes) : Bool :=
  getU h 0x1C 4 == crc32c (sub h 0 0x1C) && getU h 2 1 == kind && getU h 4 2 == 0x7256 && isZero h 0x0D 3 && isZero h 0x18 4
    && decide (getU h 0x10 4 + 96 ≤ imageMax) && decide (getU h 0x14 4 ≤ decodedMax kind)
    && (kind != 3 || getU h 0x10 4 == 0)

/-- Checks 1 and 2 on a header. -/
def headerReason (kind : Nat) (h : Bytes) : Nat :=
  if getU h 0 2 ≠ 0x4D49 then 1 else if headerOk kind h then 0 else 2

/-- The hub id that an image names fits this hub (check 3). -/
def hubIdFits (kind id hub : Nat) : Bool := id == hub || (kind != 3 && id == 0xFFFF)

/-- The fused security version, as raised since production. -/
def State.fusedVersion (s : State) : Nat := max Config.fusedSec.toNat s.boot.secVersion

/-- What unit 3 makes of an image's payload; none where it reports CHECK_MISMATCH. -/
def unit3Output (img : Bytes) : Option Bytes := loaderDecode (getU img 0x10 4 + 1) [] (sub img 0x20 (getU img 0x10 4))

/-- Unit 3's decoding of an image's payload, where its length is right (check 7). -/
def decodeImage (img : Bytes) : Option Bytes :=
  match unit3Output img with
  | some d => if d.length = getU img 0x14 4 then some d else none
  | none => none

/-- The first check of Table BOOT-6 that an image fails; 0 where it passes them all. A key slot beyond 3 counts as
revoked, and an image as long as its header says is asked for (log entry 59). -/
def imageReason (kind : Nat) (img : Bytes) (s : State) : Nat :=
  let n := getU img 0x10 4
  let key := getU img 3 1
  if headerReason kind img ≠ 0 then headerReason kind img
  else if img.length ≠ 96 + n then 2
  else if !hubIdFits kind (getU img 6 2) s.chip.hubId.toNat then 3
  else if 3 < key ∨ Config.keyRevoked key then 4
  else if getU img 0x0C 1 < s.fusedVersion then 5
  else if !Config.verify key (img.take (0x20 + n)) (sub img (0x20 + n) 64) then 6
  else if (decodeImage img).isNone then 7
  else 0

/-- A flash read that failed gives no image to check (code 8, log entry 59). -/
def readReason (readOk : Bool) (kind : Nat) (img : Bytes) (s : State) : Nat := if readOk then imageReason kind img s else 8

/-- LOADER_CHECK where the check of an image ended because unit 3 reported CHECK_MISMATCH (Table FLT-4). -/
def loaderCheck (code : Nat) (img : Bytes) (s : State) : State :=
  if code = 7 ∧ (unit3Output img).isNone then raise 10 2 3 s else s

/-! ## Boot directory (R419) -/

/-- Sequence a is later than b, modulo 2^32. -/
def seqLater (a b : W32) : Bool := decide (a ≠ b) && decide ((a - b).toNat < 2 ^ 31)

/-- Copy 1 governs. -/
def State.dirOne (s : State) : Bool := match s.boot.dir0, s.boot.dir1 with
  | none, some _ => true
  | some a, some b => seqLater b.seq a.seq
  | _, none => false

/-- The governing copy; without a valid one, slot A is preferred and TRIAL is clear. -/
def State.directory (s : State) : Directory :=
  ((if s.dirOne then s.boot.dir1 else s.boot.dir0).getD { slot := false, trial := false, seq := 0 })

def directoryBytes (d : Directory) : Bytes :=
  let b := le 2 0x4944 ++ le 1 (b2n d.slot) ++ le 1 (b2n d.trial) ++ le 4 d.seq.toNat
  b ++ le 4 (crc32c b)

/-- Writes the copy that does not govern, its sequence raised by one. -/
def writeDirectory (slot trial : Bool) (s : State) : State :=
  let d : Directory := { slot := slot, trial := trial, seq := s.directory.seq + 1 }
  let one := !s.dirOne && (s.boot.dir0.isSome || s.boot.dir1.isSome)
  let s := { s with boot := if one then { s.boot with dir1 := some d } else { s.boot with dir0 := some d } }
  s.emit (.flashWrite (if one then 0x1000 else 0) (directoryBytes d))

/-! ## Image slots (Table BOOT-4) -/

def slotOffset (slot : Nat) : Nat := if slot = 0 then 0x100000 else 0x900000

def State.imageSlot (s : State) (slot : Nat) : ImageSlot := if slot = 0 then s.boot.slotA else s.boot.slotB
def State.setImageSlot (s : State) (slot : Nat) (x : ImageSlot) : State :=
  { s with boot := if slot = 0 then { s.boot with slotA := x } else { s.boot with slotB := x } }

/-- A check of a slot has ended with a reason. -/
def noteCheck (slot reason : Nat) (img : Bytes) (s : State) : State :=
  s.setImageSlot slot { s.imageSlot slot with
    written := false, reason := some reason, sec := getU img 0x0C 1, version := BitVec.ofNat 32 (getU img 8 4)
    header := if reason = 8 then (s.imageSlot slot).header else sub img 0 32 }

/-! ## Configuration record (Table BOOT-8, R424) -/

/-- Copy 1 of the record governs. -/
def State.cfgOne (s : State) : Bool := match s.boot.cfg0, s.boot.cfg1 with
  | none, some _ => true
  | some a, some b => seqLater (BitVec.ofNat 32 (getU b 0x24 4)) (BitVec.ofNat 32 (getU a 0x24 4))
  | _, none => false

/-- The governing record. -/
def State.cfgStored (s : State) : Bytes := (if s.cfgOne then s.boot.cfg1 else s.boot.cfg0).getD emptyConfig

def cfgAsym (c : Bytes) : List Bytes := (List.range (getU c 0x28 1)).map fun i => sub c (0x2C + 16 * i) 16

/-- Writes a record, its head and entries given, to the copy that does not govern (R425). -/
def writeConfig (head : Bytes) (asym : List Bytes) (s : State) : State :=
  let seq := BitVec.ofNat 32 (getU s.cfgStored 0x24 4) + 1
  let b := sub head 0 0x24 ++ le 4 seq.toNat ++ le 1 asym.length ++ zeros 3 ++ asym.flatten
  let b := b ++ le 4 (crc32c b)
  let one := !s.cfgOne && (s.boot.cfg0.isSome || s.boot.cfg1.isSome)
  let s := { s with boot := if one then { s.boot with cfg1 := some b } else { s.boot with cfg0 := some b } }
  s.emit (.flashWrite (if one then 0x18000 else 0x10000) b)

end Sys2Proof.Machine
end

