-- ==== Sys2Proof/Machine/ChipStates.lean ====
section
/-! DEFINITION. Power, resets and boot (01_architecture R25-R32, 16_power_boot R410-R423): the chip state's transitions. -/

namespace Sys2Proof.Machine

/-! ## Power (R410-R413) -/

/-- VDD_AON comes up: power-on, Hub Time from 0 with quality UNSET. -/
def vddAonUp (s : State) : State :=
  if s.chip.rails.aon then s
  else
    let s := aonLoss s
    { s with chip := { s.chip with rails := { s.chip.rails with aon := true } }, time := { s.time with ppsTick := s.tick } }

def vddAonLoss (s : State) : State :=
  if !s.chip.rails.aon then s
  else
    let s := aonLoss s
    { s with chip := { s.chip with rails := { s.chip.rails with aon := false } } }

/-- Every rail of groups 1 to 4 is within limits, in order (R411): the core region leaves OFF. -/
def coreRailsUp (s : State) : State :=
  if s.chip.phase ≠ .off ∨ !s.chip.rails.aon then s
  else { s with chip := { s.chip with
    phase := .reset, resetTick := s.tick, holdBreach := false, holdRails := false
    rails := { s.chip.rails with core := true, sram := true, sda := true, sdh := true, io18 := true, io33 := true } } }

/-- VDD_CORE or VDD_SRAM is lost while VDD_AON is held. -/
def vddCoreLoss (sram : Bool) (s : State) : State :=
  let s := if s.chip.phase = .off then s else coreLoss s
  let r := s.chip.rails
  { s with chip := { s.chip with rails := if sram then { r with sram := false } else { r with core := false } } }

def railGroup : Rail → Nat
  | .aon => 1
  | .safe => 0
  | .core | .sram => 2
  | .sda | .sdh => 3
  | .io18 | .io33 => 4

def Rails.drop (r : Rails) : Rail → Rails
  | .aon => { r with aon := false }
  | .safe => { r with safe := false }
  | .core => { r with core := false }
  | .sram => { r with sram := false }
  | .sda => { r with sda := false }
  | .sdh => { r with sdh := false }
  | .io18 => { r with io18 := false }
  | .io33 => { r with io33 := false }

def dropRail (r : Rail) (s : State) : State := { s with chip := { s.chip with rails := s.chip.rails.drop r } }

/-- A breach of the rail order (R412): a chip reset, held until groups 2 to 4 have fallen and risen again. In OFF there is
nothing to reset: the breach is reported (log entry 60). -/
def orderBreach (r : Rail) (s : State) : State :=
  let s := if s.chip.phase = .off then s else pcieDown (chipReset s)
  let s := { s with chip := { s.chip with holdBreach := true }, boot := { s.boot with seqError := true } }
  dropRail r s

/-- RAIL_ORDER_BREACH. A loss of VDD_CORE or VDD_SRAM leads to OFF by another row, VDD_SAFE is not checked, and without
VDD_AON nothing checks. -/
def railOrderBreach (r : Rail) (s : State) : State :=
  if !s.chip.rails.aon ∨ railGroup r ≤ 1 ∨ (railGroup r = 2 ∧ s.chip.phase ≠ .off) then s else orderBreach r s

/-- LANE_IO_RAIL_LOSS: a rail of group 3 or 4 leaves its limits in the order of R411; a rail of group 3 that leaves while
one of group 4 is within limits breaks that order (R412). -/
def laneIoRailLoss (r : Rail) (s : State) : State :=
  if railGroup r < 3 then s
  else if s.chip.phase = .off then dropRail r s
  else if railGroup r = 3 ∧ (s.chip.rails.io18 ∨ s.chip.rails.io33) then orderBreach r s
  else
    let s := pcieDown (chipReset s)
    dropRail r { s with chip := { s.chip with holdRails := true } }

/-! ## Entry to BOOT (R416, R422) -/

/-- Nothing of R412 holds the core region in RESET. -/
def State.released (s : State) : Bool := s.chip.phase == .reset && !s.chip.resetNLow && !s.chip.holdBreach && !s.chip.holdRails

/-- The 20 us of a chip reset are over (Table BOOT-2). -/
def State.resetOver (s : State) : Bool := decide (s.chip.resetTick + 20000 ≤ s.tick)

def State.bootFlash (s : State) : Bool := s.chip.straps.toNat % 4 == 0 || s.chip.straps.toNat % 4 == 3

/-- The boot sequencer begins: it selects a slot of the flash, or waits for a push (R422). -/
def startSequencer (s : State) : State :=
  if !s.bootFlash then s
  else
    let d := s.directory
    let pref := b2n d.slot
    let back := d.trial && decide (3 ≤ s.boot.tries)
    { s with
      chip := { s.chip with bootStatus := 1 }
      boot := { s.boot with
        slotTrying := if back then 1 - pref else pref, rolledBack := back, triedBoth := false
        tries := if d.trial && !back then s.boot.tries + 1 else s.boot.tries } }

/-- The core region leaves RESET: the straps and the hub id are latched, and faults whose condition holds set their
bits. -/
def enterBoot (straps : Byte) (testMode : Bool) (s : State) : State :=
  let owed := s.chip.owedHoldover
  let s := { s with chip := { s.chip with
    phase := .boot, straps := straps, testMode := testMode, hubId := BitVec.ofNat 16 (straps.toNat / 4), bootTick := s.tick
    bootStatus := 0, owedHoldover := false } }
  let s := raisePersisting s
  startSequencer (if owed then raise 0 6 0 s else s)

/-- RESET_N_RELEASE: with the chip reset complete, into BOOT (Table ARCH-7). -/
def resetNRelease (straps : Byte) (testMode : Bool) (s : State) : State :=
  if !s.chip.resetNLow then s
  else
    let s := { s with chip := { s.chip with resetNLow := false } }
    if s.released && s.resetOver then enterBoot straps testMode s else s

/-- CHIP_RESET_END: the 20 us are over. -/
def chipResetEnd (straps : Byte) (testMode : Bool) (s : State) : State :=
  if s.released && s.resetOver then enterBoot straps testMode s else s

/-- LANE_IO_RAILS_RETURN: the rails of groups 3 and 4 are back and have held for 1 ms. -/
def laneIoRailsReturn (straps : Byte) (testMode : Bool) (s : State) : State :=
  if !s.chip.holdRails then s
  else
    let r := s.chip.rails
    let s := { s with chip := { s.chip with
      holdRails := false, rails := { r with sda := true, sdh := true, io18 := true, io33 := true } } }
    if s.released then enterBoot straps testMode s else s

/-! ## Resets (R414) -/

/-- RESET_N_ASSERT: a pulse shorter than 100 ns is ignored. -/
def resetNAssert (lowNs : Nat) (s : State) : State :=
  if lowNs < 100 then s
  else
    let s := if s.chip.phase = .off then s else pcieDown (chipReset s)
    { s with chip := { s.chip with resetNLow := true } }

/-- PCIE_LINK_TRAINED: the link reaches L0 once nothing holds it down. -/
def pcieLinkTrained (s : State) : State :=
  if s.chip.phase = .off ∨ s.chip.resetNLow ∨ s.chip.holdBreach ∨ s.chip.holdRails ∨ s.inReset 16 16 then s
  else { s with chip := { s.chip with pcieUp := true } }

/-- BOOT_WATCHDOG_EXPIRY: BOOT has lasted 10 s without a push in progress (R29); its reaction is a chip reset. -/
def bootWatchdogExpiry (s : State) : State :=
  if s.chip.phase = .boot ∧ s.chip.bootStatus ≠ 5 ∧ s.chip.bootTick + 10000000000 < s.tick then raise 15 2 0 s else s

/-! ## Loading and starting (R421, R422) -/

/-- An image has passed its checks: the decoded firmware is in control memory, STARTING. -/
def acceptFirmware (slot : Nat) (img : Bytes) (s : State) : State :=
  { s with
    chip := { s.chip with bootStatus := 3 }
    boot := { s.boot with
      loaded := true, slotBooted := slot, fwVersion := BitVec.ofNat 32 (getU img 8 4), fwSec := getU img 0x0C 1
      trial := decide (slot ≠ 0xFF) && s.directory.trial && slot == b2n s.directory.slot } }

/-- FLASH_ERROR of the flash port. -/
def flashFault (readOk : Bool) (s : State) : State := if readOk then s else raise 16 4 19 s

/-- BOOT_IMAGE_LOADED: the staged image is checked and decoded, or the other slot is tried, or boot has FAILED. -/
def bootImageLoaded (readOk : Bool) (img : Bytes) (s : State) : State :=
  if s.chip.phase ≠ .boot ∨ s.chip.bootStatus ≠ 1 then s
  else
    let slot := s.boot.slotTrying
    let code := readReason readOk 1 img s
    let s := loaderCheck code img (noteCheck slot code img (flashFault readOk s))
    let s := { s with boot := if slot = 0 then { s.boot with reasonA := code } else { s.boot with reasonB := code } }
    if code = 0 then acceptFirmware slot img s
    else if s.boot.triedBoth then { s with chip := { s.chip with bootStatus := 4 } }
    else { s with boot := { s.boot with slotTrying := 1 - slot, triedBoth := true } }

/-- A failing memory self-test (SELFTEST_FAIL); which region it was, BOOT_COMPLETE does not say. -/
def selfTestFailed (s : State) : State :=
  let (d, s) := s.draw
  raise 14 5 ((Config.freeWord d).toNat % 6) s

/-- The configuration record comes into use (R417, R424). -/
def useConfig (s : State) : State :=
  let c := s.cfgStored
  let s := { s with
    chip := { s.chip with hubId := BitVec.ofNat 16 (getU c 4 2 % 1024 * 64 + s.chip.straps.toNat / 4) }
    boot := { s.boot with cfgUse := c } }
  forEach ((cfgAsym c).zip (List.range 32)) (fun x t => t.setAsym x.2 x.1) s

/-- The kept role is resumed (R119). -/
def resumeRole (s : State) : State :=
  let old := s.xfer
  if old.roleCfg = .host then s else tellTransfer old (enterRole old.roleCfg s)

/-- The firmware's first FW_HEARTBEAT value, which the spec does not state. -/
def firstBeat (s : State) : State :=
  let (d, s) := s.draw
  { s with chip := { s.chip with heartbeat := BitVec.ofNat 32 (Config.freeWord d).toNat, beatTick := s.tick, fwRunning := true } }

/-- BOOT_COMPLETE: the firmware has done what R422 lists. Mailbox 8 opens where the record names an address. -/
def bootComplete (selfTestOk : Bool) (s : State) : State :=
  if s.chip.phase ≠ .boot ∨ s.chip.bootStatus ≠ 3 ∨ !s.boot.loaded then s
  else
    let s := useConfig (if selfTestOk then s else selfTestFailed s)
    let cleared : Tbl FaultBlock := s.flt.blocks.map fun b => (b.1, { b.2 with react := [] })
    let blocks : Tbl FaultBlock := cleared.filter fun (b : Nat × FaultBlock) => decide (b.2 ≠ {})
    let s := { s with flt := { s.flt with locked := false, blocks := blocks } }
    let s := releaseHeld (firstBeat { s with chip := { s.chip with phase := .serving } })
    let s := if getU s.config 6 1 % 4 = 0 then s else openMb 8 false false false s
    syncHeartbeat (resumeRole s)

/-! ## The firmware's heartbeat (R31, R32) -/

/-- FW_HEARTBEAT_WRITE: a changed value clears a stall; firmware that runs again sends what waited, and re-enters a KEEPER
role by listening (R132). -/
def fwHeartbeatWrite (v : W32) (s : State) : State :=
  if !s.chip.fwRunning || s.inReset 15 0 || v == s.chip.heartbeat then s
  else
    let was := s.chip.fwStalled
    let s := drainStamps { s with chip := { s.chip with heartbeat := v, beatTick := s.tick, fwStalled := false } }
    if !was then s
    else
      let s := fwAgain s
      if s.xfer.roleCfg = .keeper then tellTransfer s.xfer (enterRole .keeper s) else s

/-- FW_STALL_DETECT: FW_HEARTBEAT has not changed for 100 ms. -/
def fwStallDetect (s : State) : State :=
  if s.chip.fwRunning && !s.chip.fwStalled && decide (s.chip.beatTick + 100000000 ≤ s.tick) then
    raise 15 3 0 { s with chip := { s.chip with fwStalled := true } }
  else s

/-! ## Pushed images (R423) -/

/-- A push begins: the boot watchdog's count is kept in bootTick until the push ends. -/
def beginPush (s : State) : State :=
  if s.chip.bootStatus = 5 then s
  else { s with
    chip := { s.chip with bootStatus := 5, bootTick := s.tick - s.chip.bootTick }
    boot := { s.boot with pushState := 1, pushReason := 0, pushImage := [], pushEnd := 0, pushGo := false, pushLast := false } }

/-- PUSH_GO over PCI Express: the image named by PUSH_ADDR and PUSH_LEN. -/
def pushGo (img : Bytes) (s : State) : State :=
  if !s.pushOpen || !s.chip.pcieUp then s
  else
    let n := s.boot.pushLen.toNat
    let s := beginPush s
    { s with boot := { s.boot with pushGo := true, pushEnd := n, pushImage := memWrite [] 0 (img.take (min n imageMax)) } }

/-- PUSH_CHUNK_GO: the data window's chunk is taken; a length outside 1 to 61,440 takes none. -/
def pushChunkGo (last : Bool) (s : State) : State :=
  let n := s.boot.chunkLen.toNat
  let o := s.boot.chunkOff.toNat
  if !s.pushSeen || s.boot.pushGo || s.boot.pushLast || n = 0 || 61440 < n then s
  else
    let s := beginPush s
    { s with boot := { s.boot with
      pushImage := if o + n ≤ imageMax then memWrite s.boot.pushImage o (memRead s.boot.dataWindow 0 n) else s.boot.pushImage
      pushEnd := max s.boot.pushEnd (o + n), pushLast := last } }

/-- PUSH_COMPLETE: the pushed image is accepted, or BOOT_STATUS returns to FAILED. -/
def pushComplete (s : State) : State :=
  if s.chip.phase ≠ .boot ∨ s.chip.bootStatus ≠ 5 ∨ !(s.boot.pushGo || s.boot.pushLast) then s
  else
    let img := if s.boot.pushEnd ≤ imageMax then memRead s.boot.pushImage 0 s.boot.pushEnd else []
    let code := if s.boot.pushEnd ≤ imageMax then imageReason 1 img s else 2
    let s := loaderCheck code img s
    let s := { s with
      chip := { s.chip with bootTick := s.tick - s.chip.bootTick }
      boot := { s.boot with pushGo := false, pushLast := false, pushReason := code, pushState := if code = 0 then 2 else 3 } }
    if code = 0 then acceptFirmware 0xFF img s else { s with chip := { s.chip with bootStatus := 4 } }

end Sys2Proof.Machine
end

