-- ==== Sys2Proof/Machine/Firmware.lean ====
section
/-! DEFINITION. The system, power, firmware and test opcodes (Table BOOT-10), and the ends of the jobs they start
(R415, R425-R430). -/

namespace Sys2Proof.Machine

/-! ## SYS_RESET (R415) -/

def opSysReset : Op :=
  { code := 0x0104
    len := exactly 4
    reads := fun _ _ => true
    fields := fun r _ => [(r.u32 0 == 0x52535400, ansBadField 0)]
    effect := fun _ s => ({ s with chip := { s.chip with sysResetOwed := true } }, ansDone []) }

/-- Writes the entries that wait in mailbox m, in their order, as far as its path takes them. -/
def flushMb (m : Nat) : Nat → State → State
  | 0, s => s
  | n + 1, s =>
    match (s.mb m).waiting with
    | e :: _ => flushMb m n (writeEntry m e s)
    | [] => s

/-- The request's response is written and the chip reset it owes begins; where the response's path is down, the reset
follows its RESPONSE_WRITE. -/
def finishReset (m : Nat) (s : State) : State :=
  if !s.chip.sysResetOwed then s
  else
    let t := flushMb m (s.mb m).waiting.length s
    if (t.mb m).waiting.isEmpty then chipReset t else t

/-! ## Boot information and the configuration record (R424, R425) -/

/-- BOOT_INFO response (Table BOOT-10). -/
def bootInfoPayload (s : State) : Bytes :=
  let src := s.chip.straps.toNat % 4
  let b := s.boot
  le 1 (if src = 3 then 0 else src) ++ le 1 b.slotBooted ++ le 1 b.reasonA ++ le 1 b.reasonB
    ++ le 1 (mask [b.trial, b.rolledBack, b.seqError, src == 3, b.unlocked]) ++ le 1 b.tries ++ le 1 s.fusedVersion
    ++ le 1 s.chip.straps.toNat ++ le 4 b.fwVersion.toNat ++ zeros 4

def opBootInfo : Op :=
  { code := 0x0105
    len := exactly 0
    reads := fun _ _ => true
    fields := fun _ _ => []
    effect := fun _ s => (s, ansDone (bootInfoPayload s)) }

/-- One entry of Table XFER-5 within range: its kind, and its index for the kind. -/
def asymEntryChecks (r : Req) (o : Nat) : List Check :=
  [fieldLe (o + 2) (r.u8 (o + 2)) 2,
   fieldLe (o + 3) (r.u8 (o + 3)) (if r.u8 (o + 2) = 0 then 47 else if r.u8 (o + 2) = 1 then 0 else 7)]

/-- Length of a CONFIG_WRITE: the record without its sequence and crc, n entries of 16 bytes. -/
def configLen (p : Bytes) : Option Nat := exactly (0x2C + 16 * min (getU p 0x28 1) 32) p

/-- CONFIG_WRITE. The record's fields lie at their offset plus 4, those behind the left-out sequence at their offset; the
job ends with its step, as no row ends it (log entry 61). -/
def opConfigWrite : Op :=
  { code := 0x0106
    len := configLen
    ledger := true
    fields := fun r _ =>
      [flagBits r 0 1] ++ reserved r 1 3 ++
      [(r.u16 4 == 0x4352, ansBadField 4), (r.u16 6 == 1, ansBadField 6), fieldLe 8 (r.u16 8) 1023, flagBits r 0x0A 3,
       fieldLe 0x12 (r.u16 0x12) 4095, fieldLe 0x28 (r.u8 0x28) 32] ++ reserved r 0x29 3
      ++ (if bit (r.u8 0) 0 then [] else (List.range (r.u8 0x28)).flatMap fun i => asymEntryChecks r (0x2C + 16 * i))
    effect := fun r s =>
      let es := if bit (r.u8 0) 0 then s.xfer.asym.map (·.2)
        else (List.range (r.u8 0x28)).map fun i => r.bytes (0x2C + 16 * i) 16
      let (j, s) := takeJob 0x0106 r s
      (completeAfter j 0 0 [] (writeConfig (r.bytes 4 0x24) es s), ansAccepted j.slot) }

def opConfigRead : Op :=
  { code := 0x0107
    len := exactly 0
    reads := fun _ _ => true
    fields := fun _ _ => []
    effect := fun _ s => (s, ansDone (le 1 (b2n (decide (s.cfgStored ≠ s.config))) ++ zeros 3 ++ s.config)) }

/-! ## Firmware images (R426) -/

/-- The first 32 bytes of a slot after data has been written at an offset. -/
def putHeader (h : Bytes) (off : Nat) (data : Bytes) : Bytes :=
  (List.range 32).map fun i => if off ≤ i ∧ i < off + data.length then data.getD (i - off) 0 else h.getD i 0xFF

def opFwImageWrite : Op :=
  { code := 0x0D01
    len := fun p => if 12 ≤ p.length ∧ p.length ≤ 8 + 4056 then none else some (8 + 4056)
    ledger := true
    fields := fun r _ =>
      [fieldLe 0 (r.u8 0) 1, flagBits r 1 1] ++ reserved r 2 2 ++
      [(r.u32 4 % 4 == 0 && decide (r.u32 4 + (r.payload.length - 8) ≤ imageMax), ansBadField 4)]
    state := fun r s => [(decide (r.u8 0 ≠ s.boot.slotBooted), ansState s)]
    hold := fun _ s => [(s.boot.erasing.isNone, ansBusy)]
    effect := fun r s =>
      let n := r.u8 0
      let x := s.imageSlot n
      let data := r.payload.drop 8
      let first := bit (r.u8 1) 0
      let s := s.setImageSlot n { x with
        written := true, header := putHeader (if first then List.replicate 32 0xFF else x.header) (r.u32 4) data }
      let s := s.emit (.flashWrite (slotOffset n + r.u32 4) data)
      if first then
        let (j, s) := takeJob 0x0D01 r s
        ({ s with boot := { s.boot with erasing := some (n, j) } }, ansAccepted j.slot)
      else (s, ansDone []) }

/-- FLASH_ERASE_DONE. -/
def flashEraseDone (s : State) : State :=
  match s.boot.erasing with
  | some (_, j) => complete j 0 0 [] { s with boot := { s.boot with erasing := none } }
  | none => s

/-- The completion payload of FW_IMAGE_CHECK. -/
def checkPayload (reason : Nat) (img : Bytes) : Bytes := le 1 reason ++ le 1 (getU img 0x0C 1) ++ zeros 2 ++ le 4 (getU img 8 4)

/-- FW_IMAGE_CHECK: a header that fails check 1 or 2 is reported at once, without staging or charge (R421). -/
def opFwImageCheck : Op :=
  { code := 0x0D02
    len := exactly 4
    ledger := true
    fields := fun r _ => [fieldLe 0 (r.u8 0) 1] ++ reserved r 1 3
    hold := fun _ s => [(s.boot.unit3.isNone, ansBusy)]
    effect := fun r s =>
      let h := (s.imageSlot (r.u8 0)).header
      let code := headerReason 1 h
      let (j, s) := takeJob 0x0D02 r s
      if code ≠ 0 then (completeAfter j 0 0 (checkPayload code h) (noteCheck (r.u8 0) code h s), ansAccepted j.slot)
      else
        let n := getU h 0x10 4 + 96
        ({ s with boot := { s.boot with unit3 := some ⟨0x0D02, r.u8 0, slotOffset (r.u8 0), n, cdiv n 4096, j⟩ } },
         ansAccepted j.slot) }

def opFwActivate : Op :=
  { code := 0x0D03
    len := exactly 4
    fields := fun r _ => [fieldLe 0 (r.u8 0) 1] ++ reserved r 1 3
    state := fun r s =>
      [(!(s.imageSlot (r.u8 0)).written && (s.imageSlot (r.u8 0)).reason == some 0, ansState s)]
    effect := fun r s =>
      let s := writeDirectory (r.u8 0 == 1) true s
      ({ s with boot := { s.boot with tries := 0 } }, ansDone []) }

def opFwCommit : Op :=
  { code := 0x0D04
    len := exactly 4
    fields := fun r _ => [flagBits r 0 1] ++ reserved r 1 3
    state := fun _ s => [(s.boot.trial && s.directory.trial, ansState s)]
    effect := fun r s =>
      let s := writeDirectory s.directory.slot false s
      let sec := if bit (r.u8 0) 0 then max s.boot.secVersion s.boot.fwSec else s.boot.secVersion
      ({ s with boot := { s.boot with trial := false, secVersion := sec } }, ansDone []) }

/-! ## Signed images from host memory (R427) -/

/-- PALETTE_LOAD and TEST_UNLOCK differ in what their end does. -/
def opLoad (code : Nat) : Op :=
  { code := code
    len := exactly 16
    ledger := true
    fields := fun r _ => [fieldLe 8 (r.u32 8) imageMax] ++ reserved r 12 4
    hold := fun _ s => [(s.boot.unit3.isNone, ansBusy)]
    effect := fun r s =>
      let (j, s) := takeJob code r s
      ({ s with boot := { s.boot with unit3 := some ⟨code, 0, r.u64 0, r.u32 8, cdiv (r.u32 8) 4096, j⟩ } }, ansAccepted j.slot) }

def opPaletteLoad : Op := opLoad 0x0D05
def opTestUnlock : Op := opLoad 0x0D06

/-- One entry of a decoded palette: applied, or skipped where its profile is referenced, its commit is not VALID or the
coefficient memory lacks room; a skipped profile keeps what it held. -/
def applyEntry (n : Nat) (img : Bytes) (s : State) : Option State :=
  let x := commitProfile (stage (s.prof n) true 0 img) img.length
  let t := s.setProf n x.1
  if s.refs n ≠ 0 ∨ x.2.1 ≠ 0 ∨ overCharged t 1 ≠ [] then none else some t

/-- The entries of a decoded palette in their order: the count applied and the skipped profiles. -/
def applyPalette : Nat → Bytes → Nat × List Nat → State → (Nat × List Nat) × State
  | 0, _, acc, s => (acc, s)
  | fuel + 1, b, acc, s =>
    if b.isEmpty then (acc, s)
    else
      let n := getU b 0 1
      let len := getU b 4 4
      let rest := b.drop (8 + cdiv len 4 * 4)
      match applyEntry n (sub b 8 len) s with
      | some t => applyPalette fuel rest (acc.1 + 1, acc.2) t
      | none => applyPalette fuel rest (acc.1, n :: acc.2) s

/-- The mask of skipped profiles, 32 bytes. -/
def skipMask (ps : List Nat) : Bytes := (List.range 32).map fun i => BitVec.ofNat 8 (mask ((List.range 8).map fun j => ps.contains (8 * i + j)))

/-- The end of a PALETTE_LOAD: the payload and the state. -/
def endPalette (img : Bytes) (s : State) : Bytes × State :=
  let code := imageReason 2 img s
  let s := loaderCheck code img s
  match (if code = 0 then decodeImage img else none) with
  | some d =>
    let (x, s) := applyPalette d.length d (0, []) s
    (le 1 0 ++ le 1 x.1 ++ zeros 2 ++ skipMask x.2, notePeaks s)
  | none => (le 1 code ++ zeros 35, s)

/-- UNIT3_REQUEST_DONE: the staged image is checked; the staging pages return. -/
def unit3RequestDone (readOk : Bool) (img : Bytes) (s : State) : State :=
  match s.boot.unit3 with
  | none => s
  | some u =>
    if s.inReset 10 3 then s
    else
      let s := { s with boot := { s.boot with unit3 := none } }
      if u.opcode = 0x0D02 then
        let code := readReason readOk 1 img s
        complete u.job 0 0 (checkPayload code img) (loaderCheck code img (noteCheck u.slot code img (flashFault readOk s)))
      else if u.opcode = 0x0D05 then
        let x := endPalette img s
        complete u.job 0 0 x.1 x.2
      else
        let code := imageReason 3 img s
        let s := loaderCheck code img s
        complete u.job 0 0 (le 1 code ++ zeros 3) { s with boot := { s.boot with unlocked := s.boot.unlocked || code == 0 } }

/-! ## Quiet windows (R428) -/

def State.quietOverlaps (s : State) (a b : T16) : Bool := s.boot.quiet.any fun q => decide (q.2.start < b) && decide (a < q.2.stop)

def State.freeQuiet (s : State) : Option Nat := (List.range 8).find? fun n => (s.quietWin n).isNone

/-- End of a window that a QUIET_DECLARE names. -/
def quietStop (r : Req) : T16 := ofTs80 (r.bytes 0 10) + r.u32 12 * 1000000 * 65536

/-- A window is declared; a calibration that awaits one takes the first. -/
def addQuiet (id : Nat) (a b : T16) (s : State) : State :=
  let s := { s with boot := { s.boot with quiet := tset ⟨0, 0, false⟩ s.boot.quiet id ⟨a, b, false⟩ } }
  let s := insertEntry { time := a, cls := 7, ins := 0, action := .quietOpen id } s
  let s := insertEntry { time := b, cls := 7, ins := 0, action := .quietClose id } s
  match s.boot.calib with
  | some c => if c.window = 8 then { s with boot := { s.boot with calib := some { c with window := id } } } else s
  | none => s

def opQuietDeclare : Op :=
  { code := 0x0D07
    len := exactly 16
    ledger := true
    fields := fun r s =>
      [timeField r 0] ++ reserved r 0x0A 2 ++
      [fieldIn 12 (r.u32 12) 1 3600000, (!s.quietOverlaps (ofTs80 (r.bytes 0 10)) (quietStop r), ansBadField 0)]
    state := fun r s => [(shortfall s (ofTs80 (r.bytes 0 10)) == 0, ansTooLate (shortfall s (ofTs80 (r.bytes 0 10))))]
    hold := fun _ s => [(s.freeQuiet.isSome, ansBusy)]
    effect := fun r s =>
      let id := s.freeQuiet.getD 0
      (addQuiet id (ofTs80 (r.bytes 0 10)) (quietStop r) s, ansDone (le 1 id ++ zeros 3)) }

def isQuietOf (id : Nat) (e : CalEntry) : Bool := match e.action with
  | .quietOpen n => n == id
  | .quietClose n => n == id
  | _ => false

/-- QUIET_CANCEL: the window's entries leave, within the margin of R99; an open window closes with its notice. -/
def opQuietCancel : Op :=
  { code := 0x0D08
    len := exactly 4
    ledger := true
    fields := fun r _ => [fieldLe 0 (r.u8 0) 7] ++ reserved r 1 3
    state := fun r s =>
      let late := ((s.quietWin (r.u8 0)).map fun q => shortfall s (if q.isOpen then q.stop else q.start)).getD 0
      [((s.quietWin (r.u8 0)).isSome, ansState s), (late == 0, ansTooLate late)]
    hold := fun r s => [((match s.boot.calib with
      | some c => decide (c.window ≠ r.u8 0)
      | none => true), ansBusy)]
    effect := fun r s =>
      let opened := ((s.quietWin (r.u8 0)).map (·.isOpen)).getD false
      let s := { s with cal := { s.cal with entries := s.cal.entries.filter fun e => !isQuietOf (r.u8 0) e } }
      (if opened then closeQuiet (r.u8 0) s else dropQuiet (r.u8 0) s, ansDone []) }

/-! ## Calibration (R429) -/

/-- The window that is open now. -/
def State.openWindow (s : State) : Option Nat := (s.boot.quiet.find? fun q => q.2.isOpen).map (·.1)

def opClkCalibrate : Op :=
  { code := 0x0D09
    len := exactly 4
    ledger := true
    fields := fun _ _ => []
    state := fun _ s => [(s.openWindow.isSome || s.nextQuiet.isSome, ansState s)]
    hold := fun _ s => [(s.boot.calib.isNone, ansBusy)]
    effect := fun r s =>
      let (j, s) := takeJob 0x0D09 r s
      let put := fun w => { s with boot := { s.boot with calib := some ⟨BitVec.ofNat 32 (r.u32 0), w, j⟩ } }
      match s.openWindow with
      | some w => (put w, ansAccepted j.slot)
      | none =>
        let w := s.nextQuiet.getD 8
        (put w, ansDeferred (((s.quietWin w).map (·.start)).getD 0)) }

/-- CALIBRATION_DONE: `errors` gives the measured error of each output 0-31 in phase steps; an output that is not running
has none (log entry 62). Outputs at most 16 steps off are corrected. -/
def calibrationDone (errors : List Int) (s : State) : State :=
  match s.boot.calib with
  | none => s
  | some c =>
    if s.openWindow ≠ some c.window then s
    else
      let named := fun (n : Nat) => c.mask.getLsbD n && (s.dclk n).running
      let e := fun (n : Nat) => errors.getD n 0
      let fixed := fun (n : Nat) => named n && decide ((e n).natAbs ≤ 16)
      let pay := le 4 (mask ((List.range 32).map fixed)) ++ le 4 (mask ((List.range 32).map fun n => named n && !fixed n))
        ++ (List.range 32).flatMap fun n => leI 1 (if fixed n then -(e n) else 0)
      complete c.job 0 0 pay { s with boot := { s.boot with calib := none } }

/-! ## Memory self-test in service (R430) -/

/-- No page of a bank lies in the region of a configured window. -/
def State.bankFree (s : State) (b : Nat) : Bool :=
  s.cap.windows.all fun w => w.2.state == .unconfigured
    || !(decide (w.2.firstPage < 128 * (b + 1)) && decide (128 * b < w.2.firstPage + w.2.pages))

/-- The bank under test: the first free one from the rotation's place on. -/
def State.underTest (s : State) : Option Nat :=
  let p := ((List.range 24).find? fun b => s.boot.selfTesting.getLsbD b).getD 0
  ((List.range 24).map fun i => (p + i) % 24).find? s.bankFree

def opSelftestStatus : Op :=
  { code := 0x0D0A
    len := exactly 0
    reads := fun _ _ => true
    fields := fun _ _ => []
    effect := fun _ s =>
      let b := s.boot
      (s, ansDone (le 4 b.selfFailed.toNat ++ le 4 ((s.underTest.map (2 ^ ·)).getD 0) ++ le 4 b.selfPasses.toNat ++ ts96 b.selfLast)) }

/-- SELFTEST_BANK_DONE: the mark is set or cleared; the test moves on. -/
def selftestBankDone (bank : Nat) (passed : Bool) (s : State) : State :=
  if !(s.chip.phase == .serving || s.chip.phase == .safe) || decide (s.underTest ≠ some bank) then s
  else
    let m : BitVec 24 := BitVec.ofNat 24 (2 ^ bank)
    let b := s.boot
    let b := { b with selfTesting := BitVec.ofNat 24 (2 ^ ((bank + 1) % 24)) }
    if passed then
      { s with boot := { b with selfFailed := b.selfFailed &&& ~~~m, selfPasses := b.selfPasses + 1, selfLast := s.now } }
    else raise 14 5 0 { s with boot := { b with selfFailed := b.selfFailed ||| m } }

/-! ## Thermal monitors (R443, R444) and the test port (R461) -/

/-- The monitors work while VDD_AON and VDD_IO33 are present. -/
def State.monitors (s : State) : Bool := s.chip.rails.aon && s.chip.rails.io33

def thermWarn (asserted : Bool) (s : State) : State :=
  if s.monitors then { s with chip := { s.chip with thermWarn := asserted } } else s

/-- The trip latches; the hub changes nothing else. -/
def thermTrip (s : State) : State := if s.monitors then { s with chip := { s.chip with thermTrip := true } } else s

/-- The latch releases once groups 2 to 4 are down and the sensors read below 110 degrees. -/
def thermTripRelease (s : State) : State :=
  if s.chip.phase = .off then { s with chip := { s.chip with thermTrip := false } } else s

/-- A scan instruction that drives pins is refused in every chip state but RESET. -/
def jtagInstruction (ir : Nat) (drivesPins : Bool) (s : State) : State :=
  if drivesPins ∧ s.chip.phase ≠ .reset then s else { s with chip := { s.chip with jtagIr := ir } }

end Sys2Proof.Machine
end

