-- ==== Sys2Proof/Machine/Island.lean ====
section
/-! DEFINITION. The machine safety island (15_safety): its configuration word, functions, outputs and states, its
status in the core region, and the read opcodes of the safety group. -/

namespace Sys2Proof.Machine

/-- The function letters of Table SAFE-2. -/
inductive SafeFunc where
  | eStop | guard | guardAnti | twoHand | curtain
  deriving DecidableEq, Repr

/-! ## The configuration word (R399) -/

/-- Functions of pairs 0 upwards (Table SAFE-4). -/
def arrangement (code : Nat) : List SafeFunc :=
  match code with
  | 0x1 => [.eStop]
  | 0x2 => [.eStop, .eStop]
  | 0x3 => [.eStop, .guard]
  | 0x4 => [.eStop, .guard, .curtain]
  | 0x5 => [.eStop, .guardAnti, .curtain]
  | 0x6 => [.eStop, .guard, .guard, .guard]
  | 0x7 => [.eStop, .curtain, .curtain]
  | 0x8 => [.eStop, .twoHand, .twoHand]
  | 0x9 => [.eStop, .twoHand, .twoHand, .guard]
  | 0xA => [.eStop, .guard, .curtain, .curtain, .guard]
  | 0xB => [.eStop, .eStop, .guard, .guard, .curtain, .curtain, .guardAnti, .guardAnti]
  | _ => []

/-- Nibble n of a word. -/
def nibble (w : W16) (n : Nat) : Nat := w.toNat / 16 ^ n % 16

/-- Whether the switch pins spell a valid word. -/
def wordOk (t c : W16) : Bool :=
  (c == ~~~t) && (nibble t 3 == (nibble t 0 ^^^ nibble t 1 ^^^ nibble t 2)) && decide (nibble t 0 ≤ 0xB)
    && decide (nibble t 2 ≤ 3)

def Island.funcs (i : Island) : List SafeFunc := arrangement (nibble i.word 0)

def Island.func (i : Island) (p : Nat) : Option SafeFunc := i.funcs[p]?

def Island.pairs (i : Island) : List Nat := List.range i.funcs.length

/-- t_d in TIME ticks (Table SAFE-3). -/
def Island.discrepancyTime (i : Island) : Nat :=
  match nibble i.word 1 % 4 with
  | 0 => 100000000
  | 1 => 200000000
  | 2 => 300000000
  | _ => 500000000

/-- RESET_MODE 1: a G or A function that demands does not clear READY. -/
def Island.autoReset (i : Island) : Bool := i.word.getLsbD 6

/-! ## Pairs (R394-R397) -/

def SafeFunc.antivalent : SafeFunc → Bool
  | .guardAnti | .twoHand => true
  | _ => false

def SafeFunc.pulsed : SafeFunc → Bool
  | .curtain => false
  | _ => true

/-- Inputs that are fed from a test-pulse output. -/
def Island.pulsedInput (i : Island) (n : Nat) : Bool :=
  match i.func (n / 2) with
  | some f => f.pulsed
  | none => false

/-- The place of a tick in the 20 ms cycle of the test pulses (R394). -/
def Island.phase (i : Island) (tick : Nat) : Nat := (tick - i.cycleTick) % 20000000

/-- TPOt feeds a test-pulsed input of the arrangement; another TPO is held low. -/
def Island.tpoUsed (i : Island) (t : Nat) : Bool := (List.range 16).any fun n => n % 8 == t && i.pulsedInput n

/-- The tick lies within `len` of the start of TPOt's pulse. -/
def Island.inPulse (i : Island) (t len tick : Nat) : Bool :=
  decide (2500000 * t ≤ i.phase tick) && decide (i.phase tick < 2500000 * t + len)

/-- The level of TPOt: high in RUN but for its pulse of 400 us, low where it is not used. -/
def Island.tpoHigh (i : Island) (t tick : Nat) : Bool := i.state == .run && i.tpoUsed t && !i.inPulse t 400000 tick

/-- The samples of input n that the island does not ignore, newest first: those since RUN began and, on a test-pulsed input, outside
its own pulse and the 100 us after it (R395). `samples` are those taken at a tick and every 100 us before it. -/
def Island.kept (i : Island) (n tick : Nat) (samples : List Bool) : List Bool :=
  ((samples.zipIdx.filter fun x => decide (100000 * x.2 + i.cycleTick ≤ tick)).filter fun x =>
    !(i.pulsedInput n && i.inPulse (n % 8) 500000 (tick - 100000 * x.2))).map (·.1)

/-- The test-pulse tolerance of R396, in samples: 1 or 2 ms. -/
def Island.tolerance (i : Island) : Nat := if i.word.getLsbD 7 then 20 else 10

/-- Samples that a new level of input n must hold: 3 ms of them, but for the opening of an OSSD input, which is recognised once it has
lasted longer than the tolerance (R396). An input without a function is taken as the others are (log entry 120). -/
def Island.holds (i : Island) (n : Nat) (level : Bool) : Nat :=
  if i.func (n / 2) = some .curtain ∧ level = false then i.tolerance + 1 else 30

/-- The level that the latest samples of input n make recognised. -/
def Island.recognised (i : Island) (n tick : Nat) (samples : List Bool) : Option Bool :=
  match i.kept n tick samples with
  | [] => none
  | level :: rest =>
    let held := (level :: rest).take (i.holds n level)
    if held.length = i.holds n level ∧ held.all (· == level) then some level else none

/-- A latched DISCREPANCY, CROSS_SHORT or STUCK_HIGH. -/
def Island.pairFaults (i : Island) : Byte := i.discrepancy ||| i.crossShort ||| i.stuckHigh

def Island.faulted (i : Island) (p : Nat) : Bool := i.pairFaults.getLsbD p

/-- Both channels of pair p are recognised in the function's enabled state. -/
def Island.closedAt (i : Island) (p : Nat) (f : SafeFunc) : Bool :=
  i.sin.getLsbD (2 * p) && (i.sin.getLsbD (2 * p + 1) != f.antivalent)

/-- Both channels of pair p are recognised in the function's open state. -/
def Island.openAt (i : Island) (p : Nat) (f : SafeFunc) : Bool :=
  !i.sin.getLsbD (2 * p) && (i.sin.getLsbD (2 * p + 1) == f.antivalent)

def Island.disagrees (i : Island) (p : Nat) (f : SafeFunc) : Bool :=
  (i.sin.getLsbD (2 * p) == i.sin.getLsbD (2 * p + 1)) == f.antivalent

/-- A function is enabled while its channels are in the enabled state and it holds no latched fault. -/
def Island.enabledAt (i : Island) (p : Nat) : Bool :=
  match i.func p with
  | some f => i.closedAt p f && !i.faulted p
  | none => true

/-- A function that is not enabled demands. -/
def Island.demandsAt (i : Island) (p : Nat) : Bool := !i.enabledAt p

/-- The cause of a stuck or crossed input of pair p still shows in the latest test pulses. -/
def Island.causeAt (i : Island) (p : Nat) : Bool :=
  [2 * p, 2 * p + 1].any fun n => i.stuckNow.getLsbD n || i.crossNow.any fun x => bit x.2 n

/-- The first of the two steps that clear a pair fault: the pair recognised open with the cause gone. -/
def Island.noteOpen (i : Island) : Island :=
  let seen := i.pairs.filter fun p => match i.func p with
    | some f => i.faulted p && i.openAt p f && !i.causeAt p
    | none => false
  { i with openSeen := seen.foldl (fun m p => m ||| BitVec.ofNat 8 (2 ^ p)) i.openSeen }

/-- The tick on which each disagreement of a used pair began. -/
def Island.noteDisagree (tick : Nat) (i : Island) : Island :=
  let t := i.pairs.foldl (fun t p => match i.func p with
    | some f => if i.disagrees p f then (if tget 0 t p = 0 then tset 0 t p (tick + 1) else t) else tset 0 t p 0
    | none => t) i.disagree
  { i with disagree := t }

/-! ## Groups and outputs (Table SAFE-5, R402, R403) -/

/-- Group false is X, group true is Y. Outputs of a group; under arrangement 0x0 every output is held off. -/
def Island.outputs (i : Island) (y : Bool) : List Nat :=
  if i.funcs.isEmpty then []
  else match nibble i.word 2, y with
    | 0, false => [0, 1, 2, 3]
    | 1, false => [0, 1]
    | 2, false => [0, 1]
    | 3, false => [0, 1]
    | 2, true => [2, 3]
    | 3, true => [2, 3]
    | _, _ => []

/-- Whether a group follows the function of pair p. -/
def Island.follows (i : Island) (y : Bool) (p : Nat) : Bool :=
  match i.func p with
  | none => false
  | some f => match nibble i.word 2, y with
    | 0, false => true
    | 1, false => true
    | 2, false => true
    | 2, true => f == .eStop
    | 3, false => f == .eStop || (decide (1 ≤ p) && decide (p ≤ 3))
    | 3, true => f == .eStop || decide (4 ≤ p)
    | _, _ => false

def Island.followed (i : Island) (y : Bool) : List Nat := i.pairs.filter (i.follows y)

/-- The pairs of the two-hand control. -/
def Island.buttons (i : Island) : List Nat := i.pairs.filter fun p => i.func p == some .twoHand

def Island.groupTwoHand (i : Island) (y : Bool) : Bool := (i.followed y).any fun p => i.func p == some .twoHand

def Island.ready (i : Island) (y : Bool) : Bool := if y then i.readyY else i.readyX

def Island.setReady (i : Island) (y v : Bool) : Island := if y then { i with readyY := v } else { i with readyX := v }

/-- An island-wide fault is latched. -/
def Island.wideFault (i : Island) : Bool := i.outputFault || i.tpoFault || i.cfgChanged || i.internalFault

/-- The outputs whose readback is checked. -/
def Island.checked (i : Island) : List Nat := i.outputs false ++ i.outputs true

/-- SRBn has read high for the last 10 ms. -/
def Island.srbHeld (i : Island) (tick n : Nat) : Bool :=
  let t := tget 0 i.srbHighSince n
  decide (0 < t) && decide (t - 1 + 10000000 ≤ tick)

/-- Whether a group's outputs are to be energised. -/
def Island.wanted (i : Island) (y : Bool) : Bool :=
  i.state == .run && i.ready y && (i.followed y).all i.enabledAt && (!i.groupTwoHand y || i.thStarted) && !i.wideFault
    && !(i.outputs y).isEmpty

/-- The levels of SOUT0-3 for the groups that are wanted. -/
def Island.levels (i : Island) : BitVec 4 :=
  [false, true].foldl (fun m y => if i.wanted y then (i.outputs y).foldl (fun m n => m ||| BitVec.ofNat 4 (2 ^ n)) m else m) 0

/-- Drives the outputs, noting the tick of each change. -/
def Island.drive (tick : Nat) (v : BitVec 4) (i : Island) : Island :=
  let changed := (List.range 4).filter fun n => v.getLsbD n != i.sout.getLsbD n
  { i with sout := v, soutSince := changed.foldl (fun t n => tset 0 t n tick) i.soutSince }

/-- Before energising: an output that would go high while its SRB has not been high for 10 ms. -/
def Island.energiseBreach (i : Island) (tick : Nat) : Bool :=
  i.checked.any fun n => i.levels.getLsbD n && !i.sout.getLsbD n && !i.srbHeld tick n

/-- Sets the outputs by R402; a breach of the check before energising latches OUTPUT_FAULT. -/
def Island.settleOutputs (tick : Nat) (i : Island) : Island :=
  let i := if i.energiseBreach tick then { i with outputFault := true } else i
  i.drive tick i.levels

/-- SRBn is not the complement of SOUTn, 10 ms or more after the output's last change. -/
def Island.readbackBad (i : Island) (tick n : Nat) : Bool :=
  i.checked.contains n && decide (tget 0 i.soutSince n + 10000000 ≤ tick) && (i.srb.getLsbD n == i.sout.getLsbD n)

/-! ## States (Table SAFE-6) -/

/-- The core region's part of the island's record, which the island's own power does not touch (R407). -/
def Island.fresh (i : Island) : Island :=
  { status := i.status, statusTick := i.statusTick, log := i.log, overwritten := i.overwritten }

/-- Outputs go off with the state that the island enters. -/
def Island.enter (tick : Nat) (st : IslandState) (i : Island) : Island := { i with state := st }.drive tick 0

/-- LOCKOUT with INTERNAL_FAULT. -/
def Island.lockout (tick : Nat) (i : Island) : Island := { i with internalFault := true }.enter tick .lockout

def State.onIsland (s : State) (f : Island → Island) : State := { s with island := f s.island }

/-- SAFE_ISLAND_POWER_UP (R392, R399): the switch pins are read in BOOT. -/
def safeIslandPowerUp (swT swC : W16) (s : State) : State :=
  let s := { s with chip := { s.chip with rails := { s.chip.rails with safe := true } } }
  if s.island.state = .off then
    s.onIsland fun i => { i.fresh with state := .boot, bootTick := s.tick, swT := swT, swC := swC }
  else s

/-- SAFE_ISLAND_BOOT_DONE (R399): the word is latched; READY is clear, every input reads open or low. -/
def safeIslandBootDone (ok : Bool) (s : State) : State :=
  if s.island.state ≠ .boot then s
  else if !ok then s.onIsland fun i => i.lockout s.tick
  else if wordOk s.island.swT s.island.swC then
    s.onIsland fun i =>
      let since : Tbl Nat := (List.range 4).foldl (fun t n => tset 0 t n s.tick) []
      { i with state := .run, word := i.swT, wordValid := true, cycleTick := s.tick, soutSince := since }.noteDisagree s.tick
  else s.onIsland fun i => { i with state := .configFault, word := i.swT, cfgInvalid := true }

/-- SAFE_ISLAND_BOOT_TIMEOUT: BOOT has lasted 50 ms. -/
def safeIslandBootTimeout (s : State) : State :=
  if s.island.state = .boot ∧ s.island.bootTick + 50000000 ≤ s.tick then s.onIsland fun i => i.lockout s.tick else s

/-- VDD_SAFE_LOSS (R393). -/
def vddSafeLoss (s : State) : State :=
  { s with chip := { s.chip with rails := { s.chip.rails with safe := false } }, island := s.island.fresh }

/-- CONFIG_CHANGE (R399). -/
def configChange (swT swC : W16) (s : State) : State :=
  if s.island.state = .run ∧ (swT ≠ s.island.word ∨ swC ≠ ~~~s.island.word) then
    s.onIsland fun i => { i with swT := swT, swC := swC, cfgChanged := true }.enter s.tick .configFault
  else s

/-- SAFE_DIAG_FAIL: a background diagnostic of Table SAFE-6 fails. -/
def safeDiagFail (s : State) : State :=
  if s.island.state = .run then s.onIsland fun i => i.lockout s.tick else s

/-- OUTPUT_TEST_PULSE (R404). -/
def outputTestPulse (n : Nat) (seen : Bool) (s : State) : State :=
  if s.island.state = .run && s.island.sout.getLsbD n && !seen then s.onIsland fun i => i.lockout s.tick else s

/-! ## Inputs -/

/-- What a test pulse of TPOt shows: `stuck` are its own inputs that stayed high, `low` the inputs that went low (R395). -/
def Island.pulseSeen (i : Island) (t : Nat) (reached : Bool) (stuck low : W16) : Island :=
  let own := fun (n : Nat) => n % 8 == t && i.pulsedInput n
  let stuckIn := below 16 fun n => own n && stuck.getLsbD n
  let lowIn := below 16 fun n => n % 8 != t && i.pulsedInput n && i.sin.getLsbD n && low.getLsbD n
  let pairsOf := fun (ns : List Nat) => ns.foldl (fun (m : Byte) n => m ||| BitVec.ofNat 8 (2 ^ (n / 2))) 0
  let now := mask ((List.range 16).map fun n => if own n then stuck.getLsbD n else i.stuckNow.getLsbD n)
  let cross := mask ((List.range 16).map fun n => lowIn.contains n)
  let hit := pairsOf stuckIn ||| pairsOf lowIn
  { i with tpoFault := i.tpoFault || !reached, stuckHigh := i.stuckHigh ||| pairsOf stuckIn
           crossShort := i.crossShort ||| pairsOf lowIn, stuckNow := BitVec.ofNat 16 now
           crossNow := tset 0 i.crossNow t cross, openSeen := i.openSeen &&& ~~~hit }.noteOpen

/-- TEST_PULSE (R394, R395): the TPO pulses in its slot of the cycle, its pin is read back, the inputs are checked. Of a TPO that is
held low only the readback is. -/
def testPulse (t : Nat) (reached : Bool) (stuck low : W16) (s : State) : State :=
  if s.island.state ≠ .run then s
  else if !s.island.tpoUsed t then s.onIsland fun i => { i with tpoFault := i.tpoFault || !reached }
  else if !s.island.inPulse t 2500000 s.tick then s
  else (s.onIsland fun i => i.pulseSeen t reached stuck low).emit (.tpoPulse t)

/-- INPUT_RECOGNISED (R396, R397). -/
def inputRecognised (n : Nat) (samples : List Bool) (s : State) : State :=
  match s.island.state, s.island.recognised n s.tick samples with
  | .run, some level =>
    s.onIsland fun i =>
      let m : W16 := BitVec.ofNat 16 (2 ^ n)
      ({ i with sin := if level then i.sin ||| m else i.sin &&& ~~~m }.noteDisagree s.tick).noteOpen
  | _, _ => s

/-- DISCREPANCY_TIMEOUT (R397): the pair has disagreed for longer than t_d. -/
def discrepancyTimeout (p : Nat) (s : State) : State :=
  let since := tget 0 s.island.disagree p
  if s.island.state = .run ∧ 0 < since ∧ since - 1 + s.island.discrepancyTime < s.tick then
    s.onIsland fun i =>
      let m : Byte := BitVec.ofNat 8 (2 ^ p)
      { i with discrepancy := i.discrepancy ||| m, openSeen := i.openSeen &&& ~~~m }
  else s

/-! ## The two-hand control (R398) -/

def Island.allButtons (i : Island) (atRest : Bool) : Bool :=
  !i.buttons.isEmpty && i.buttons.all fun p => if atRest then i.openAt p .twoHand else i.enabledAt p

def Island.anyButton (i : Island) : Bool := i.buttons.any i.enabledAt

/-- Some group that follows the control has READY. -/
def Island.buttonsReady (i : Island) : Bool := [false, true].any fun y => i.groupTwoHand y && i.ready y

/-- The control after the present levels of its buttons. -/
def Island.twoHandStep (tick : Nat) (i : Island) : Island :=
  if i.allButtons true then
    { i with thStarted := false, thOpen := true, thReleased := i.buttonsReady, thOnset := none, thTimeout := false }
  else if i.allButtons false then
    if i.thStarted || !i.thOpen then i
    else
      let late := decide (i.thOnset.getD tick + 500000000 < tick)
      { i with thOpen := false, thReleased := false, thOnset := none, thTimeout := i.thTimeout || late
               thStarted := i.thReleased && !late }
  else if i.anyButton && i.thOpen && i.thOnset.isNone then { i with thStarted := false, thOnset := some tick }
  else { i with thStarted := false }

/-- TWO_HAND_TIMEOUT: the second onset comes more than 500 ms after the first. -/
def twoHandTimeout (s : State) : State :=
  let i := s.island
  let late := match i.thOnset with
    | some t => decide (t + 500000000 < s.tick)
    | none => false
  if i.state = .run && i.thOpen && late && i.allButtons false then s.onIsland fun i => i.twoHandStep s.tick else s

/-! ## Reset (R400) -/

/-- The pair faults and OUTPUT_FAULT whose clearing condition is met are cleared (step 1). -/
def Island.clearFaults (tick : Nat) (i : Island) : Island :=
  let keep := ~~~i.openSeen
  { i with discrepancy := i.discrepancy &&& keep, crossShort := i.crossShort &&& keep, stuckHigh := i.stuckHigh &&& keep
           openSeen := 0, outputFault := i.outputFault && !i.checked.all (i.srbHeld tick) }

/-- A group whose READY a valid press sets: it has functions, all enabled apart from the buttons, and no latched
fault. -/
def Island.canReady (i : Island) (y : Bool) : Bool :=
  !(i.followed y).isEmpty && !i.wideFault && (i.followed y).all fun p => i.enabledAt p || (i.func p == some .twoHand && !i.faulted p)

/-- READY of a group set by a valid press; the two-hand control must start anew after it. -/
def Island.giveReady (y : Bool) (i : Island) : Island :=
  if i.canReady y then
    let i := i.setReady y true
    if i.groupTwoHand y then { i with thStarted := false, thReleased := false } else i
  else i

/-- A function of the group demands in a way that clears READY (R401). -/
def Island.demandClears (i : Island) (p : Nat) : Bool :=
  i.demandsAt p && (match i.func p with
    | some .twoHand => i.faulted p
    | some .guard | some .guardAnti => !i.autoReset
    | _ => true)

def Island.clearReady (y : Bool) (i : Island) : Island :=
  if (i.followed y).any i.demandClears then i.setReady y false else i

/-- Demands act before the release of a press (R406). -/
def Island.demands (i : Island) : Island := (i.clearReady false).clearReady true

/-- Release of the present press: a valid one of 100 ms to 3 s acts. -/
def Island.release (tick : Nat) (i : Island) : Island :=
  match i.pressSince with
  | none => i
  | some t =>
    let i := { i with pressSince := none }
    if t + 100000000 ≤ tick ∧ tick < t + 3000000000 then
      let i := { i with presses := i.presses + 1, resetStuck := false }.clearFaults tick
      (i.demands.giveReady false).giveReady true
    else i

/-- RESET_PRESS_RELEASE: the reset button is released. -/
def resetPressRelease (s : State) : State :=
  if s.island.state = .run then
    s.onIsland fun i => { i with srstHighSince := i.srstHighSince.or (some s.tick) }.release s.tick
  else s

/-- RESET_STUCK: a press reaches 3 s. -/
def resetStuck (s : State) : State :=
  match s.island.pressSince with
  | some t => if s.island.state = .run ∧ t + 3000000000 ≤ s.tick then s.onIsland fun i => { i with resetStuck := true } else s
  | none => s

/-! ## The island tick (R406) -/

/-- The levels of SRST_N and SRB0-3 that the tick samples. -/
def Island.sample (tick : Nat) (srb : BitVec 4) (srstHigh : Bool) (i : Island) : Island :=
  let since := (List.range 4).foldl (fun t n => if srb.getLsbD n then (if tget 0 t n = 0 then tset 0 t n (tick + 1) else t)
    else tset 0 t n 0) i.srbHighSince
  let i := { i with srb := srb, srbHighSince := since }
  if srstHigh then
    let high := i.srstHighSince.getD tick
    { i with srstHighSince := some high, srstSeen := i.srstSeen || decide (high + 100000000 ≤ tick) }
  else
    { i with srstHighSince := none, pressSince := if i.srstSeen then i.pressSince.or (some tick) else none }

/-- ISLAND_TICK: new latched faults, demands, the release of a press, the two-hand control, the outputs. Internal
faults and a configuration change have left RUN in their own events. -/
def islandTick (srb : BitVec 4) (srstHigh : Bool) (s : State) : State :=
  if s.island.state = .off then s
  else if s.island.state ≠ .run then s.onIsland fun i => { i with srb := srb }
  else
    s.onIsland fun i =>
      let i := i.sample s.tick srb srstHigh
      let i := if i.checked.any (i.readbackBad s.tick) then { i with outputFault := true } else i
      let i := i.demands
      let i := if srstHigh then i.release s.tick else i
      (i.twoHandStep s.tick).settleOutputs s.tick

/-- READBACK_TIMEOUT (R403). -/
def readbackTimeout (n : Nat) (s : State) : State :=
  if s.island.state = .run && s.island.readbackBad s.tick n then
    s.onIsland fun i => { i with outputFault := true }.drive s.tick 0
  else s

/-! ## What the host sees (R407-R409) -/

def islandCode : IslandState → Nat
  | .off => 0
  | .boot => 1
  | .run => 2
  | .configFault => 3
  | .lockout => 4

/-- FAULT_REQ. -/
def Island.faultReq (i : Island) : Bool :=
  i.state == .configFault || i.state == .lockout || i.pairFaults != 0 || i.outputFault || i.tpoFault

/-- The demand bits, while the functions are evaluated. -/
def Island.demandBits (i : Island) : Nat :=
  if i.state = .run then mask ((List.range 8).map i.demandsAt) else 0

/-- The word of Table SAFE-7 that the island sends. -/
def Island.word64 (i : Island) : W64 :=
  BitVec.ofNat 64 (islandCode i.state + 2 ^ 3 + i.sout.toNat * 2 ^ 8 + i.srb.toNat * 2 ^ 12 + i.sin.toNat * 2 ^ 16
    + i.demandBits * 2 ^ 32 + i.pairFaults.toNat * 2 ^ 40
    + mask [i.resetStuck, i.cfgChanged, i.cfgInvalid, i.outputFault, i.internalFault, i.tpoFault, i.readyX, i.readyY,
        i.faultReq, i.thStarted, i.thTimeout] * 2 ^ 48)

/-- An entry of the status log as SAFE_LOG_READ and SAFE_EVENT give it. -/
def safeEntry (e : T16 × W64) : Bytes := ts96 e.1 ++ zeros 4 ++ le 8 e.2.toNat

/-- Logs a change of SAFE_STATUS, overwriting the oldest of 64 entries (R408). -/
def State.logStatus (s : State) (w : W64) : State :=
  let full := decide (64 ≤ s.island.log.length)
  s.onIsland fun i => { i with
    status := w, log := (if full then i.log.drop 1 else i.log) ++ [(s.now, w)]
    overwritten := if full then i.overwritten + 1 else i.overwritten }

/-- The core region can take an update. -/
def State.coreUp (s : State) : Bool := decide (s.chip.phase ≠ .off) && decide (s.chip.phase ≠ .reset)

/-- SAFE_STATUS_UPDATE (R407-R409). -/
def safeStatusUpdate (s : State) : State :=
  if !s.coreUp || s.island.state == .off then s
  else
    let old := s.island.status
    let w := s.island.word64
    let s := s.onIsland fun i => { i with statusTick := s.tick }
    if w = old then s
    else
      let s := s.logStatus w
      if w.toNat / 2 ^ 32 ≠ old.toNat / 2 ^ 32 then notify 0x0C80 (safeEntry (s.now, w)) s else s

/-- SAFE_LIVE_TIMEOUT (R407): no update has arrived for 1 us. -/
def safeLiveTimeout (s : State) : State :=
  if s.coreUp && s.island.status.getLsbD 3 && decide (s.island.statusTick + 1000 ≤ s.tick) then
    s.logStatus (s.island.status &&& ~~~8)
  else s

def opSafeStatusRead : Op :=
  { code := 0x0C01
    len := exactly 0
    reads := fun _ _ => true
    fields := fun _ _ => []
    effect := fun _ s =>
      (s, ansDone (le 8 s.island.status.toNat ++ le 4 s.island.presses.toNat ++ le 4 s.island.overwritten.toNat)) }

def Island.pinsDiffer (i : Island) : Bool := i.swT != i.word || i.swC != ~~~i.word

def opSafeConfigRead : Op :=
  { code := 0x0C02
    len := exactly 0
    reads := fun _ _ => true
    fields := fun _ _ => []
    effect := fun _ s =>
      let i := s.island
      (s, ansDone (le 2 i.swT.toNat ++ le 2 i.swC.toNat ++ le 2 i.word.toNat ++ le 1 (mask [i.wordValid, i.pinsDiffer])
        ++ zeros 1)) }

def opSafeLogRead : Op :=
  { code := 0x0C03
    len := exactly 4
    reads := fun _ _ => true
    fields := fun r _ => fieldIn 0 (r.u8 0) 1 64 :: reserved r 1 3
    effect := fun r s =>
      let got := s.island.log.take (r.u8 0)
      (s.onIsland fun i => { i with log := i.log.drop (r.u8 0) },
       ansDone (le 2 got.length ++ zeros 2 ++ got.flatMap safeEntry)) }

/-- The write opcodes 0x0C40-0x0C7F: LOCKED_BY_SEAL with any payload (R409), in the order of the checks: in SAFE, where
they do not only read, check 9 answers first. -/
def opSafeWrite (low : Nat) : Op :=
  { code := 0x0C40 + low
    len := fun _ => none
    fields := fun _ _ => []
    state := fun _ _ => [(false, ansSealed)]
    effect := fun _ s => (s, ansSealed) }

end Sys2Proof.Machine
end

