-- ==== Sys2Proof/Machine/Service.lean ====
section
/-! DEFINITION. The taking of requests from the mailboxes with every check of Table HCP-10 (R52-R57), the table of
opcodes, and the probe that judges a request without running it (R268). -/

namespace Sys2Proof.Machine

/-! ## The opcodes by group (Table HCP-12) -/

def systemOps : List Op :=
  [opSessionInfo, opNoticeFetch, opNoticeSubscribe, opSysReset, opBootInfo, opConfigWrite, opConfigRead]

def timeOps : List Op :=
  [opTimeGet, opTimeStep, opPpsConfig, opTrigInConfig, opTrigInRead, opCalStatus, opCalCancel]

def laneOps : List Op :=
  [opLaneConfig, opLaneStatus, opLanePower, opLaneReeq, opBglLinkConfig, opBglLinkStatus, opLaneBitslip,
   opLaneRawCapture, opLaneRawCommit, opPrbsConfig, opPrbsRead]

def inputOps : List Op :=
  [opDclkConfig, opSrefConfig, opJesdLinkConfig, opBglInputConfig, opScpConfig, opLinkAlign, opLinkStatus,
   opChannelBind, opChannelStart, opChannelStop, opChannelStatus, opBglMessage]

def pipeOps : List Op :=
  [opPipeConfig, opPipeStart, opPipeStop, opPipeStatus, opPipeRetune, opDcControl, opDelaySegment, opDelayFlush,
   opDelayStatus, opRequantSet, opProfileWrite, opProfileCommit, opProfileDelete, opProfileInfo, opBankLoad,
   opBankSwap, opBankClear, opBankStatus]

def admissionOps : List Op :=
  [opAdmStatus, opAdmBoundRead, opAdmLimit]

def captureOps : List Op :=
  [opCapWindowConfig, opCapCondConfig, opCapArm, opCapDisarm, opCapTrigger, opCapStatus, opCapRecordRead,
   opCapDump, opCapRelease, opCapMissedRead, opTrigOutConfig]

def compressionOps : List Op :=
  [opCompStreamConfig, opCompStreamStatus, opCompJob, opCompJobStatus, opCompJobCancel]

def streamOps : List Op :=
  [opStreamConfig, opStreamStatus, opStreamFlush, opStreamWatermark]

def uplinkOps : List Op :=
  [opUplGroupConfig, opUplPortAddr, opUplDestWrite, opUplStreamMap, opUplPortControl, opUplPortStatus,
   opXferConfig, opXferStatus, opPtpPortConfig, opAsymWrite, opAsymRead, opPhaseRead, opKeeperHandover]

def faultOps : List Op :=
  [opFltRead, opFltClear, opFltReactSet, opFltLock, opFltBlockRelease, opUncorrRead, opFltRecordRead, opFltInject]

def safetyOps : List Op :=
  [opSafeStatusRead, opSafeConfigRead, opSafeLogRead]

def firmwareOps : List Op :=
  [opFwImageWrite, opFwImageCheck, opFwActivate, opFwCommit, opPaletteLoad, opTestUnlock, opQuietDeclare,
   opQuietCancel, opClkCalibrate, opSelftestStatus]
/-! ## The frame (R48, Table HCP-8) -/

/-- The request that a frame spells. -/
def reqOfFrame (m : Fin 10) (f : Bytes) : Req :=
  { mb := m, flags := BitVec.ofNat 8 (getU f 3 1), hostSeq := BitVec.ofNat 32 (getU f 4 4)
    tag := BitVec.ofNat 32 (getU f 0x0C 4), time := sub f 0x10 10, payload := sub f 0x20 (getU f 0x0A 2) }

def frameOpcode (f : Bytes) : Nat := getU f 8 2

/-- The CRC that the hub computes over a frame (R50). -/
def frameCrc (f : Bytes) : Nat := crc32c (sub f 0 0x1C ++ sub f 0x20 (getU f 0x0A 2))

/-- Check 5 on the two reserved bytes that a request record does not keep, and check 6. -/
def frameRest (f : Bytes) (known : Bool) : List Check :=
  [(isZero f 0x1A 2, ansBadHeader 0x1A), (known, ansBadOpcode)]

/-! ## ADM_PROBE (R268) -/

/-- A probe's own checks: a complete frame of at most 4,032 bytes whose length field says so. -/
def probeShape : Op :=
  { code := 0x0604
    len := fun p => if 32 ≤ p.length ∧ p.length ≤ 4032 ∧ p.length % 4 = 0 then none else some 4032
    reads := fun _ _ => true
    fields := fun r _ => [(r.u16 0x0A + 32 == r.payload.length, ansBadField 0x0A)]
    effect := fun _ s => (s, ansDone []) }

/-- Every opcode but the probe itself, and the probe's checks. -/
def probedOps : List Op :=
  systemOps ++ timeOps ++ laneOps ++ inputOps ++ pipeOps ++ admissionOps ++ captureOps ++ compressionOps ++ streamOps
    ++ uplinkOps ++ faultOps ++ safetyOps ++ firmwareOps ++ [probeShape]

/-- An opcode among some, and the write opcodes of the safety group. -/
def findOp (ops : List Op) (c : Nat) : Option Op :=
  if 0x0C40 ≤ c ∧ c ≤ 0x0C7F then some (opSafeWrite (c - 0x0C40)) else ops.find? fun o => o.code == c

/-- Checks 5 to 13 on a frame, and what passing them would do. -/
def judgeFrame (ops : List Op) (v2 : Bool) (r : Req) (f : Bytes) (s : State) : State × Ans :=
  let op := findOp ops (frameOpcode f)
  match firstBad (headerChecks v2 r ++ frameRest f op.isSome) with
  | some a => (s, a)
  | none => match op with
    | some o => perform o v2 r s
    | none => (s, ansBadOpcode)

/-- Response payload of a probe (Table ADM-6). -/
def probePayload (r : Req) (old : State) (x : State × Ans) : Bytes :=
  let a := x.2
  let head := le 2 a.status ++ zeros 2 ++ le 4 a.detail
  if a.status = 0x0300 then head ++ a.payload
  else if a.status ≤ 2 then
    let ns := changedBounds old x.1
    head ++ le 2 (ns.take 9).length ++ le 2 ns.length ++ le 4 r.hostSeq.toNat ++ (ns.take 9).flatMap (boundEntry x.1)
  else head

def opAdmProbe : Op :=
  { probeShape with
    effect := fun r s =>
      let e := reqOfFrame r.mb r.payload
      (s, ansDone (probePayload e s (judgeFrame probedOps false e r.payload s))) }

/-- Every opcode of the hub. -/
def allOps : List Op := opAdmProbe :: probedOps

/-! ## Checks 1 to 4 (Table HCP-10, R54, R55) -/

/-- The host_seq after n (R54). -/
def seqAfter (n : W32) : W32 := if n = 0xFFFFFFFE then 0 else n + 1

/-- Checks 1 to 3. -/
def frameChecks (b : Mailbox) (f : Bytes) (s : State) : List Check :=
  let len := getU f 0x0A 2
  [(len % 4 == 0 && decide (len ≤ 4064), ansBadLength 4064),
   (frameCrc f == getU f 0x1C 4, ⟨0x0103, frameCrc f, []⟩),
   (getU f 0 2 == 0x4843, ansBadHeader 0),
   (getU f 2 1 == b.version, ansBadHeader 2),
   (decide (s.chip.phase ≠ .boot), ansState s)]

/-- A replay of the last accepted request (R55). -/
def isReplay (b : Mailbox) (f : Bytes) : Bool :=
  b.seqSet && getU f 4 4 == b.lastSeq.toNat && getU f 0x1C 4 == b.lastCrc.toNat

/-- Check 4 where the request is no replay. -/
def seqCheck (b : Mailbox) (f : Bytes) : Check :=
  if b.seqSet then (getU f 4 4 == (seqAfter b.lastSeq).toNat, ⟨0x0200, (seqAfter b.lastSeq).toNat, []⟩)
  else (getU f 4 4 != 0xFFFFFFFF, ⟨0x0200, 0xFFFFFFFF, []⟩)

/-! ## Serving a frame -/

/-- A frame that passes check 4 is accepted: host_seq and crc become the mailbox's last (R52), and mailbox 8's notices
go to its source from now on (R45). -/
def acceptFrame (m : Nat) (f : Bytes) (s : State) : State :=
  let b := s.mb m
  let s := s.setMb m { b with seqSet := true, lastSeq := BitVec.ofNat 32 (getU f 4 4)
                              lastCrc := BitVec.ofNat 32 (getU f 0x1C 4) }
  if m = 8 then { s with hcp := { s.hcp with peer := s.hcp.replyTo.or s.hcp.peer } } else s

/-- An accepted frame: the rest of its checks, its effect, its stored response, the bounds it changed. -/
def serveFrame (m : Fin 10) (f : Bytes) (s : State) : State :=
  let r := reqOfFrame m f
  let s := acceptFrame m.val f s
  let v2 := (s.mb m.val).version2
  let (t, a) := judgeFrame allOps v2 r f s
  let t := releaseFrom s.hcp.held.length (storeAnswer (frameOpcode f) r (v2Answer v2 a) t)
  let ledger := match findOp allOps (frameOpcode f) with
    | some o => o.ledger
    | none => false
  finishReset m.val (if ledger then tellBounds r.hostSeq.toNat (some m.val) s t else t)

/-- A frame taken from mailbox m: refused by checks 1 to 4, answered as a replay, or served. -/
def takeFrame (m : Fin 10) (f : Bytes) (s : State) : State :=
  let b := s.mb m.val
  let r := reqOfFrame m f
  let refuse := fun (a : Ans) => respond m.val r.hostSeq r.tag (frameOpcode f) false (v2Answer b.version2 a) s
  match firstBad (frameChecks b f s) with
  | some a => refuse a
  | none =>
    match isReplay b f, b.stored with
    | true, some x => respond m.val r.hostSeq x.tag x.opcode true ⟨x.status, x.detail.toNat, x.payload⟩ s
    | _, _ =>
      let c := seqCheck b f
      if c.1 then serveFrame m f s else refuse c.2

/-- A request waits in mailbox m. -/
def State.hasRequest (s : State) (m : Nat) : Bool :=
  let b := s.mb m
  if m < 8 then b.reqPi != b.reqCi else if m = 8 then !s.hcp.mgmtQueue.isEmpty else s.hcp.spiGo

/-- The mailbox whose turn it is (R57). -/
def State.nextMailbox (s : State) : Option Nat :=
  ((List.range 10).map fun k => (s.hcp.served + 1 + k) % 10).find? fun m => s.canTake m && s.hasRequest m

/-- The frame at the front of mailbox m, and the state that has taken it; a ring's slot is read from host memory. -/
def takeFront (m : Nat) (slot : Bytes) (s : State) : Bytes × State :=
  let s := { s with hcp := { s.hcp with served := m } }
  if m < 8 then (slot, s.setMb m { s.mb m with reqCi := (s.mb m).reqCi + 1 })
  else if m = 9 then (memRead s.hcp.spiReq 0 4096, { s with hcp := { s.hcp with spiGo := false } })
  else match s.hcp.mgmtQueue with
    | (src, port, f) :: q => (f, { s with hcp := { s.hcp with mgmtQueue := q, replyTo := some (src, port) } })
    | [] => ([], s)

/-- REQUEST_TAKE: the next request of the mailboxes in turn; in BOOT the hub refuses it (R29). -/
def requestTake (slot : Bytes) (s : State) : State :=
  if !s.answers then s
  else match s.nextMailbox with
    | none => s
    | some m =>
      let (f, t) := takeFront m slot s
      takeFrame (Fin.ofNat 10 m) f t

end Sys2Proof.Machine
end

