-- ==== Sys2Proof/Machine/ExecAdmission.lean ====
section
/-! DEFINITION. The meanings of the commands of admission (09): each one is its effect in the frame of `run`. -/

namespace Sys2Proof.Machine

/-- ADM_STATUS (R267). -/
def execAdmStatus (r : Req) (s : State) : Host.Outcome State Fault Refusal :=
  runReq opAdmStatus r s

/-- ADM_BOUND_READ (R267). -/
def execAdmBoundRead (r : Req) (s : State) : Host.Outcome State Fault Refusal :=
  runReq opAdmBoundRead r s

/-- ADM_LIMIT (R265). -/
def execAdmLimit (r : Req) (s : State) : Host.Outcome State Fault Refusal :=
  runReq opAdmLimit r s

/-- ADM_PROBE (R268). -/
def execAdmProbe (r : Req) (s : State) : Host.Outcome State Fault Refusal :=
  runReq opAdmProbe r s

end Sys2Proof.Machine
end

