-- ==== Sys2Proof/Machine/ExecCapture.lean ====
section
/-! DEFINITION. The meanings of the commands of capture, triggers and dumps (10): each one is its effect in the frame of `run`. -/

namespace Sys2Proof.Machine

/-- TRIG_IN_EDGE (R89). -/
def execTrigInEdge (input : Fin 8) (falling : Bool) (crossing : T16) (s : State) : Host.Outcome State Fault Refusal :=
  run (trigInEdge input.val falling crossing) s

/-- CAP_WINDOW_CONFIG (R271). -/
def execCapWindowConfig (r : Req) (s : State) : Host.Outcome State Fault Refusal :=
  runReq opCapWindowConfig r s

/-- CAP_COND_CONFIG (R273). -/
def execCapCondConfig (r : Req) (s : State) : Host.Outcome State Fault Refusal :=
  runReq opCapCondConfig r s

/-- CAP_ARM (R289). -/
def execCapArm (r : Req) (s : State) : Host.Outcome State Fault Refusal :=
  runReq opCapArm r s

/-- CAP_ARM_EFFECT (R289). -/
def execCapArmEffect (window : Fin 16) (s : State) : Host.Outcome State Fault Refusal :=
  run (capArmEffect window.val) s

/-- CAP_DISARM (R289). -/
def execCapDisarm (r : Req) (s : State) : Host.Outcome State Fault Refusal :=
  runReq opCapDisarm r s

/-- CAP_DISARM_EFFECT (R289). -/
def execCapDisarmEffect (window : Fin 16) (s : State) : Host.Outcome State Fault Refusal :=
  run (capDisarmEffect window.val) s

/-- CAP_TRIGGER (R276). -/
def execCapTrigger (r : Req) (s : State) : Host.Outcome State Fault Refusal :=
  runReq opCapTrigger r s

/-- CAP_STATUS (R297). -/
def execCapStatus (r : Req) (s : State) : Host.Outcome State Fault Refusal :=
  runReq opCapStatus r s

/-- CAP_RECORD_READ (R297). -/
def execCapRecordRead (r : Req) (s : State) : Host.Outcome State Fault Refusal :=
  runReq opCapRecordRead r s

/-- CAP_DUMP (R295). -/
def execCapDump (r : Req) (s : State) : Host.Outcome State Fault Refusal :=
  runReq opCapDump r s

/-- CAP_RELEASE (R289). -/
def execCapRelease (r : Req) (s : State) : Host.Outcome State Fault Refusal :=
  runReq opCapRelease r s

/-- CAP_MISSED_READ (R288). -/
def execCapMissedRead (r : Req) (s : State) : Host.Outcome State Fault Refusal :=
  runReq opCapMissedRead r s

/-- TRIG_OUT_CONFIG (R296). -/
def execTrigOutConfig (r : Req) (s : State) : Host.Outcome State Fault Refusal :=
  runReq opTrigOutConfig r s

/-- CAPTURE_FRAME_WRITE (R272). -/
def execCaptureFrameWrite (window : Fin 16) (s : State) : Host.Outcome State Fault Refusal :=
  run (captureFrameWrite window.val) s

/-- NETWORK_TRIGGER_RX (R281). -/
def execNetworkTriggerRx (port : Fin 49) (msg : Bytes) (s : State) : Host.Outcome State Fault Refusal :=
  run (networkTriggerRx port.val msg) s

/-- DUMP_PACKET (R295). -/
def execDumpPacket (dump : Fin 4) (s : State) : Host.Outcome State Fault Refusal :=
  run (dumpPacket dump.val) s

/-- DUMP_END (R295). -/
def execDumpEnd (dump : Fin 4) (s : State) : Host.Outcome State Fault Refusal :=
  run (dumpEnd dump.val) s

end Sys2Proof.Machine
end

