-- ==== Sys2Proof/Machine/ExecCompression.lean ====
section
/-! DEFINITION. The meanings of the commands of compression jobs and stream compressors (11): each one is its effect in the frame of `run`. -/

namespace Sys2Proof.Machine

/-- COMP_STREAM_CONFIG (R311). -/
def execCompStreamConfig (r : Req) (s : State) : Host.Outcome State Fault Refusal :=
  runReq opCompStreamConfig r s

/-- COMP_STREAM_STATUS (R324). -/
def execCompStreamStatus (r : Req) (s : State) : Host.Outcome State Fault Refusal :=
  runReq opCompStreamStatus r s

/-- COMP_JOB (R319). -/
def execCompJob (r : Req) (s : State) : Host.Outcome State Fault Refusal :=
  runReq opCompJob r s

/-- COMP_JOB_STATUS (R324). -/
def execCompJobStatus (r : Req) (s : State) : Host.Outcome State Fault Refusal :=
  runReq opCompJobStatus r s

/-- COMP_JOB_CANCEL (R320). -/
def execCompJobCancel (r : Req) (s : State) : Host.Outcome State Fault Refusal :=
  runReq opCompJobCancel r s

/-- JOB_START (R320). -/
def execJobStart (unit : Fin 3) (s : State) : Host.Outcome State Fault Refusal :=
  run (jobStart unit.val) s

/-- JOB_END (R320). -/
def execJobEnd (unit : Fin 3) (hostSrc : Bytes) (s : State) : Host.Outcome State Fault Refusal :=
  run (jobEnd unit.val hostSrc) s

/-- COMP_AUTO_EVAL (R313). -/
def execCompAutoEval (stream : Fin 1024) (s : State) : Host.Outcome State Fault Refusal :=
  run (compAutoEval stream.val) s

end Sys2Proof.Machine
end

