-- ==== Sys2Proof/Machine/ExecFaults.lean ====
section
/-! DEFINITION. The meanings of the commands of faults (14): each one is its effect in the frame of `run`. -/

namespace Sys2Proof.Machine

/-- PARITY_ERROR (R385). -/
def execParityError (block : Fin 17) (offset : Nat) (s : State) : Host.Outcome State Fault Refusal :=
  run (parityError block.val offset) s

/-- DSP_PLL_UNLOCK (R16). -/
def execDspPllUnlock (s : State) : Host.Outcome State Fault Refusal :=
  run dspPllUnlock s

/-- DSP_PLL_RELOCK (R16). -/
def execDspPllRelock (s : State) : Host.Outcome State Fault Refusal :=
  run dspPllRelock s

/-- SCRUB_PASS_LATE (R23). -/
def execScrubPassLate (pass : ScrubPass) (s : State) : Host.Outcome State Fault Refusal :=
  run (scrubPass pass) s

/-- FAULT_DETECT (R373). A block has the sources of Table FLT-4 "and no others" (R382). ENTRY_CHECK discards the entry. -/
def execFaultDetect (block : Fin 17) (source : Fin 64) (unit : Nat) (at_ : MemRead) (s : State) : Host.Outcome State Fault Refusal :=
  if sourceExists block.val source.val then
    run (fun t =>
      let u := faultDetect block.val source.val unit at_ t
      if block.val = 1 ∧ source.val = 1 ∧ !t.faultsHeld then entryCheck u else u) s
  else .fault .noSuchSource

/-- BLOCK_RESET_END (R377). -/
def execBlockResetEnd (block : Fin 17) (unit : Nat) (s : State) : Host.Outcome State Fault Refusal :=
  run (blockResetEnd block.val unit) s

/-- GATE_END (R381). -/
def execGateEnd (block : Fin 17) (unit : Nat) (s : State) : Host.Outcome State Fault Refusal :=
  run (gateEnd block.val unit) s

/-- FLT_READ (R390). -/
def execFltRead (r : Req) (s : State) : Host.Outcome State Fault Refusal :=
  runReq opFltRead r s

/-- FLT_CLEAR (R371). -/
def execFltClear (r : Req) (s : State) : Host.Outcome State Fault Refusal :=
  runReq opFltClear r s

/-- FLT_REACT_SET (R379). -/
def execFltReactSet (r : Req) (s : State) : Host.Outcome State Fault Refusal :=
  runReq opFltReactSet r s

/-- FLT_LOCK (R380). -/
def execFltLock (r : Req) (s : State) : Host.Outcome State Fault Refusal :=
  runReq opFltLock r s

/-- FLT_BLOCK_RELEASE (R378). -/
def execFltBlockRelease (r : Req) (s : State) : Host.Outcome State Fault Refusal :=
  runReq opFltBlockRelease r s

/-- UNCORR_READ (R384). -/
def execUncorrRead (r : Req) (s : State) : Host.Outcome State Fault Refusal :=
  runReq opUncorrRead r s

/-- FLT_RECORD_READ (R386). -/
def execFltRecordRead (r : Req) (s : State) : Host.Outcome State Fault Refusal :=
  runReq opFltRecordRead r s

/-- FLT_INJECT (R389). -/
def execFltInject (r : Req) (s : State) : Host.Outcome State Fault Refusal :=
  runReq opFltInject r s

end Sys2Proof.Machine
end

