-- ==== Sys2Proof/Machine/ExecFirmware.lean ====
section
/-! DEFINITION. The meanings of the commands of power, boot and firmware (01, 16, 17, 18): each one is its effect in the frame of `run`. -/

namespace Sys2Proof.Machine

/-- VDD_AON_UP (R25). -/
def execVddAonUp (s : State) : Host.Outcome State Fault Refusal :=
  runClock vddAonUp s

/-- VDD_AON_LOSS (R25). -/
def execVddAonLoss (s : State) : Host.Outcome State Fault Refusal :=
  runClock vddAonLoss s

/-- CORE_RAILS_UP (R25). -/
def execCoreRailsUp (s : State) : Host.Outcome State Fault Refusal :=
  run coreRailsUp s

/-- VDD_CORE_LOSS (R25). -/
def execVddCoreLoss (sram : Bool) (s : State) : Host.Outcome State Fault Refusal :=
  run (vddCoreLoss sram) s

/-- LANE_IO_RAIL_LOSS (R412). -/
def execLaneIoRailLoss (rail : Rail) (s : State) : Host.Outcome State Fault Refusal :=
  run (laneIoRailLoss rail) s

/-- RAIL_ORDER_BREACH (R412). -/
def execRailOrderBreach (rail : Rail) (s : State) : Host.Outcome State Fault Refusal :=
  run (railOrderBreach rail) s

/-- RESET_N_ASSERT (R414). -/
def execResetNAssert (lowNs : Nat) (s : State) : Host.Outcome State Fault Refusal :=
  run (resetNAssert lowNs) s

/-- RESET_N_RELEASE (R25). -/
def execResetNRelease (straps : Byte) (testMode : Bool) (s : State) : Host.Outcome State Fault Refusal :=
  run (resetNRelease straps testMode) s

/-- CHIP_RESET_END (R414). -/
def execChipResetEnd (straps : Byte) (testMode : Bool) (s : State) : Host.Outcome State Fault Refusal :=
  run (chipResetEnd straps testMode) s

/-- BOOT_IMAGE_LOADED (R421). -/
def execBootImageLoaded (readOk : Bool) (image : Bytes) (s : State) : Host.Outcome State Fault Refusal :=
  run (bootImageLoaded readOk image) s

/-- BOOT_COMPLETE (R422). -/
def execBootComplete (selfTestOk : Bool) (s : State) : Host.Outcome State Fault Refusal :=
  run (bootComplete selfTestOk) s

/-- BOOT_WATCHDOG_EXPIRY (R29). -/
def execBootWatchdogExpiry (s : State) : Host.Outcome State Fault Refusal :=
  run bootWatchdogExpiry s

/-- FW_HEARTBEAT_WRITE (R32). -/
def execFwHeartbeatWrite (value : W32) (s : State) : Host.Outcome State Fault Refusal :=
  run (fwHeartbeatWrite value) s

/-- FW_STALL_DETECT (R31). -/
def execFwStallDetect (s : State) : Host.Outcome State Fault Refusal :=
  run fwStallDetect s

/-- SYS_RESET (R415). -/
def execSysReset (r : Req) (s : State) : Host.Outcome State Fault Refusal :=
  run (fun t => finishReset r.mb.val (serveRow opSysReset r t)) s

/-- BOOT_INFO (R432). -/
def execBootInfo (r : Req) (s : State) : Host.Outcome State Fault Refusal :=
  runReq opBootInfo r s

/-- CONFIG_WRITE (R425). -/
def execConfigWrite (r : Req) (s : State) : Host.Outcome State Fault Refusal :=
  runReq opConfigWrite r s

/-- CONFIG_READ (R432). -/
def execConfigRead (r : Req) (s : State) : Host.Outcome State Fault Refusal :=
  runReq opConfigRead r s

/-- FW_IMAGE_WRITE (R426). -/
def execFwImageWrite (r : Req) (s : State) : Host.Outcome State Fault Refusal :=
  runReq opFwImageWrite r s

/-- FLASH_ERASE_DONE (R432). -/
def execFlashEraseDone (s : State) : Host.Outcome State Fault Refusal :=
  run flashEraseDone s

/-- FW_IMAGE_CHECK (R426). -/
def execFwImageCheck (r : Req) (s : State) : Host.Outcome State Fault Refusal :=
  runReq opFwImageCheck r s

/-- FW_ACTIVATE (R426). -/
def execFwActivate (r : Req) (s : State) : Host.Outcome State Fault Refusal :=
  runReq opFwActivate r s

/-- FW_COMMIT (R426). -/
def execFwCommit (r : Req) (s : State) : Host.Outcome State Fault Refusal :=
  runReq opFwCommit r s

/-- PALETTE_LOAD (R427). -/
def execPaletteLoad (r : Req) (s : State) : Host.Outcome State Fault Refusal :=
  runReq opPaletteLoad r s

/-- TEST_UNLOCK (R427). -/
def execTestUnlock (r : Req) (s : State) : Host.Outcome State Fault Refusal :=
  runReq opTestUnlock r s

/-- UNIT3_REQUEST_DONE (R421). -/
def execUnit3RequestDone (readOk : Bool) (image : Bytes) (s : State) : Host.Outcome State Fault Refusal :=
  run (unit3RequestDone readOk image) s

/-- PUSH_GO (R423). -/
def execPushGo (image : Bytes) (s : State) : Host.Outcome State Fault Refusal :=
  run (pushGo image) s

/-- PUSH_CHUNK_GO (R423). -/
def execPushChunkGo (last : Bool) (s : State) : Host.Outcome State Fault Refusal :=
  run (pushChunkGo last) s

/-- PUSH_COMPLETE (R423). -/
def execPushComplete (s : State) : Host.Outcome State Fault Refusal :=
  run pushComplete s

/-- QUIET_DECLARE (R428). -/
def execQuietDeclare (r : Req) (s : State) : Host.Outcome State Fault Refusal :=
  runReq opQuietDeclare r s

/-- QUIET_CANCEL (R428). -/
def execQuietCancel (r : Req) (s : State) : Host.Outcome State Fault Refusal :=
  runReq opQuietCancel r s

/-- CLK_CALIBRATE (R429). -/
def execClkCalibrate (r : Req) (s : State) : Host.Outcome State Fault Refusal :=
  runReq opClkCalibrate r s

/-- CALIBRATION_DONE (R429). -/
def execCalibrationDone (errors : List Int) (s : State) : Host.Outcome State Fault Refusal :=
  run (calibrationDone errors) s

/-- SELFTEST_STATUS (R432). -/
def execSelftestStatus (r : Req) (s : State) : Host.Outcome State Fault Refusal :=
  runReq opSelftestStatus r s

/-- SELFTEST_BANK_DONE (R430). -/
def execSelftestBankDone (bank : Fin 24) (passed : Bool) (s : State) : Host.Outcome State Fault Refusal :=
  run (selftestBankDone bank.val passed) s

/-- THERM_WARN (R443). -/
def execThermWarn (asserted : Bool) (s : State) : Host.Outcome State Fault Refusal :=
  run (thermWarn asserted) s

/-- THERM_TRIP (R444). -/
def execThermTrip (s : State) : Host.Outcome State Fault Refusal :=
  run thermTrip s

/-- THERM_TRIP_RELEASE (R444). -/
def execThermTripRelease (s : State) : Host.Outcome State Fault Refusal :=
  run thermTripRelease s

/-- JTAG_INSTRUCTION (R461). -/
def execJtagInstruction (ir : Nat) (drivesPins : Bool) (s : State) : Host.Outcome State Fault Refusal :=
  run (jtagInstruction ir drivesPins) s

/-- LANE_IO_RAILS_RETURN (R412). -/
def execLaneIoRailsReturn (straps : Byte) (testMode : Bool) (s : State) : Host.Outcome State Fault Refusal :=
  run (laneIoRailsReturn straps testMode) s

/-- PCIE_LINK_TRAINED (R414). -/
def execPcieLinkTrained (s : State) : Host.Outcome State Fault Refusal :=
  run pcieLinkTrained s

end Sys2Proof.Machine
end

