-- ==== Sys2Proof/Machine/ExecInputs.lean ====
section
/-! DEFINITION. The meanings of the commands of converter inputs and channels (06): each one is its effect in the frame of `run`. -/

namespace Sys2Proof.Machine

/-- DCLK_CONFIG (R167). -/
def execDclkConfig (r : Req) (s : State) : Host.Outcome State Fault Refusal :=
  runReq opDclkConfig r s

/-- DCLK_RESTART (R167). -/
def execDclkRestart (output : Fin 32) (s : State) : Host.Outcome State Fault Refusal :=
  run (dclkRestart output.val) s

/-- SREF_CONFIG (R168). -/
def execSrefConfig (r : Req) (s : State) : Host.Outcome State Fault Refusal :=
  runReq opSrefConfig r s

/-- JESD_LINK_CONFIG (R171). -/
def execJesdLinkConfig (r : Req) (s : State) : Host.Outcome State Fault Refusal :=
  runReq opJesdLinkConfig r s

/-- BGL_INPUT_CONFIG (R176). -/
def execBglInputConfig (r : Req) (s : State) : Host.Outcome State Fault Refusal :=
  runReq opBglInputConfig r s

/-- SCP_CONFIG (R179). -/
def execScpConfig (r : Req) (s : State) : Host.Outcome State Fault Refusal :=
  runReq opScpConfig r s

/-- LINK_ALIGN (R183). -/
def execLinkAlign (r : Req) (s : State) : Host.Outcome State Fault Refusal :=
  runReq opLinkAlign r s

/-- LINK_ALIGN_DONE (R184). -/
def execLinkAlignDone (kind : LinkKind) (link : Fin 64) (found : AlignFound)
    (s : State) : Host.Outcome State Fault Refusal :=
  run (linkAlignDone kind link.val found) s

/-- ALIGN_BOUND_EXPIRY (R183). -/
def execAlignBoundExpiry (kind : LinkKind) (link : Fin 64) (s : State) : Host.Outcome State Fault Refusal :=
  run (alignBoundExpiry kind link.val) s

/-- LINK_STATUS (R191). -/
def execLinkStatus (r : Req) (s : State) : Host.Outcome State Fault Refusal :=
  runReq opLinkStatus r s

/-- INPUT_LINK_LOST (R173). -/
def execInputLinkLost (kind : LinkKind) (link : Fin 64) (s : State) : Host.Outcome State Fault Refusal :=
  run (inputLinkLost kind link.val) s

/-- MULTIFRAME_BOUNDARY_STAMP (R184). -/
def execMultiframeBoundaryStamp (link : Fin 64) (stamps : List T16) (s : State) : Host.Outcome State Fault Refusal :=
  run (boundaryStamp link.val stamps) s

/-- BGL_FRAME_RX (R177). -/
def execBglFrameRx (link : Fin 64) (frame : BglFrame) (s : State) : Host.Outcome State Fault Refusal :=
  run (bglFrameRx link.val frame) s

/-- BGL_MESSAGE_RX (R178). -/
def execBglMessageRx (link : Fin 64) (stream : Bool) (start : Bytes) (rest : List Bytes)
    (s : State) : Host.Outcome State Fault Refusal :=
  run (bglMessageRx link.val (b2n stream) (start :: rest)) s

/-- SCP_FRAME_RX (R180). -/
def execScpFrameRx (port : Fin 16) (frame : ScpFrame) (s : State) : Host.Outcome State Fault Refusal :=
  run (scpFrameRx port.val frame) s

/-- INPUT_WORD_RELEASE (R187). -/
def execInputWordRelease (channel : Fin 512) (jesd : JesdWord) (s : State) : Host.Outcome State Fault Refusal :=
  run (inputWordRelease channel.val jesd) s

/-- CHANNEL_BIND (R187). -/
def execChannelBind (r : Req) (s : State) : Host.Outcome State Fault Refusal :=
  runReq opChannelBind r s

/-- CHANNEL_START (R188). -/
def execChannelStart (r : Req) (s : State) : Host.Outcome State Fault Refusal :=
  runReq opChannelStart r s

/-- CHANNEL_STOP (R188). -/
def execChannelStop (r : Req) (s : State) : Host.Outcome State Fault Refusal :=
  runReq opChannelStop r s

/-- CHANNEL_STATUS (R191). -/
def execChannelStatus (r : Req) (s : State) : Host.Outcome State Fault Refusal :=
  runReq opChannelStatus r s

/-- BGL_MESSAGE (R178). -/
def execBglMessage (r : Req) (s : State) : Host.Outcome State Fault Refusal :=
  runReq opBglMessage r s

end Sys2Proof.Machine
end

