-- ==== Sys2Proof/Machine/ExecLanes.lean ====
section
/-! DEFINITION. The meanings of the commands of lanes and Bamgiusk Links (05): each one is its effect in the frame of `run`. -/

namespace Sys2Proof.Machine

/-- LANE_CONFIG (R140). -/
def execLaneConfig (r : Req) (s : State) : Host.Outcome State Fault Refusal :=
  runReq opLaneConfig r s

/-- LANE_STATUS (R160). -/
def execLaneStatus (r : Req) (s : State) : Host.Outcome State Fault Refusal :=
  runReq opLaneStatus r s

/-- LANE_POWER (R155). -/
def execLanePower (r : Req) (s : State) : Host.Outcome State Fault Refusal :=
  runReq opLanePower r s

/-- LANE_WAKE_COMPLETE (R155). -/
def execLaneWakeComplete (lane : Fin 160) (rx : Bool) (s : State) : Host.Outcome State Fault Refusal :=
  run (laneWakeComplete lane.val rx) s

/-- LANE_REEQ (R146). -/
def execLaneReeq (r : Req) (s : State) : Host.Outcome State Fault Refusal :=
  runReq opLaneReeq r s

/-- REEQ_COMPLETE (R147). -/
def execReeqComplete (lane : Fin 160) (ctle : Byte) (eyeH : Byte) (eyeV : Byte)
    (s : State) : Host.Outcome State Fault Refusal :=
  run (reeqComplete lane.val ctle eyeH eyeV) s

/-- LANE_ACQUIRED (R142). -/
def execLaneAcquired (lane : Fin 160) (inverted : Bool) (ctle : Byte) (eyeH : Byte) (eyeV : Byte)
    (s : State) : Host.Outcome State Fault Refusal :=
  run (laneAcquired lane.val inverted ctle eyeH eyeV) s

/-- LANE_LOCK_LOST (R142). -/
def execLaneLockLost (lane : Fin 160) (cdr : Bool) (s : State) : Host.Outcome State Fault Refusal :=
  run (laneLockLost lane.val cdr) s

/-- BGL_LINK_CONFIG (R161). -/
def execBglLinkConfig (r : Req) (s : State) : Host.Outcome State Fault Refusal :=
  runReq opBglLinkConfig r s

/-- BGL_LINK_STATUS (R160). -/
def execBglLinkStatus (r : Req) (s : State) : Host.Outcome State Fault Refusal :=
  runReq opBglLinkStatus r s

/-- BGL_MARKER_TX (R149). -/
def execBglMarkerTx (link : Fin 64) (s : State) : Host.Outcome State Fault Refusal :=
  run (bglMarkerTx link.val) s

/-- BGL_LANES_LOCKED (R153). -/
def execBglLanesLocked (link : Fin 64) (octets : Bytes) (s : State) : Host.Outcome State Fault Refusal :=
  run (bglLanesLocked link.val octets) s

/-- BGL_TRAINING_RESULT (R150). -/
def execBglTrainingResult (link : Fin 64) (order widths linkIds : Bytes) (rest : List Bytes)
    (s : State) : Host.Outcome State Fault Refusal :=
  run (bglTrainingResult link.val (trainingBlocks order widths linkIds rest)) s

/-- BGL_WIRING_WAIT_END (R150). -/
def execBglWiringWaitEnd (link : Fin 64) (s : State) : Host.Outcome State Fault Refusal :=
  run (bglWiringWaitEnd link.val) s

/-- BGL_LINK_UP (R153). -/
def execBglLinkUp (link : Fin 64) (skewPs : Nat) (readyRx : Bool) (sender : W16)
    (s : State) : Host.Outcome State Fault Refusal :=
  run (bglLinkUp link.val skewPs readyRx sender) s

/-- BGL_DESKEW_TIMEOUT (R153). -/
def execBglDeskewTimeout (link : Fin 64) (s : State) : Host.Outcome State Fault Refusal :=
  run (bglDeskewTimeout link.val) s

/-- BGL_LINK_DOWN (R153). -/
def execBglLinkDown (link : Fin 64) (s : State) : Host.Outcome State Fault Refusal :=
  run (bglLinkDown link.val) s

/-- LANE_BITSLIP (R154). -/
def execLaneBitslip (r : Req) (s : State) : Host.Outcome State Fault Refusal :=
  runReq opLaneBitslip r s

/-- LANE_RAW_CAPTURE (R154). -/
def execLaneRawCapture (r : Req) (s : State) : Host.Outcome State Fault Refusal :=
  runReq opLaneRawCapture r s

/-- LANE_RAW_COMMIT (R152). -/
def execLaneRawCommit (r : Req) (s : State) : Host.Outcome State Fault Refusal :=
  runReq opLaneRawCommit r s

/-- PRBS_CONFIG (R158). -/
def execPrbsConfig (r : Req) (s : State) : Host.Outcome State Fault Refusal :=
  runReq opPrbsConfig r s

/-- PRBS_READ (R159). -/
def execPrbsRead (r : Req) (s : State) : Host.Outcome State Fault Refusal :=
  runReq opPrbsRead r s

/-- PRBS_LOCK (R159). -/
def execPrbsLock (lane : Fin 160) (bits : List Bool) (s : State) : Host.Outcome State Fault Refusal :=
  run (prbsLock lane.val bits) s

/-- PRBS_LOCK_LOSS (R159). -/
def execPrbsLockLoss (lane : Fin 160) (errors lastErrors : Nat) (s : State) : Host.Outcome State Fault Refusal :=
  run (prbsLockLoss lane.val errors lastErrors) s

end Sys2Proof.Machine
end

