-- ==== Sys2Proof/Machine/ExecMailboxes.lean ====
section
/-! DEFINITION. The meanings of the commands of mailboxes and the Hub Command Protocol (02): each one is its effect in the frame of `run`. -/

namespace Sys2Proof.Machine

/-- MB_SESSION_OPEN (R40). -/
def execMbSessionOpen (m : Fin 8) (v2 : Bool) (pause : Bool) (irqEn : Bool)
    (s : State) : Host.Outcome State Fault Refusal :=
  run (mbSessionOpen m.val v2 pause irqEn) s

/-- MB_SESSION_CLOSE (R40). -/
def execMbSessionClose (m : Fin 8) (s : State) : Host.Outcome State Fault Refusal :=
  run (mbSessionClose m.val) s

/-- MB_PAUSE_SET (R41). -/
def execMbPauseSet (m : Fin 8) (s : State) : Host.Outcome State Fault Refusal :=
  run (mbPauseSet m.val) s

/-- MB_PAUSE_CLEAR (R41). -/
def execMbPauseClear (m : Fin 8) (s : State) : Host.Outcome State Fault Refusal :=
  run (mbPauseClear m.val) s

/-- MB_IRQ_EN_WRITE (R42). -/
def execMbIrqEnWrite (m : Fin 8) (en : Bool) (s : State) : Host.Outcome State Fault Refusal :=
  run (mbIrqEnWrite m.val en) s

/-- RING_BASE_WRITE (R41). -/
def execRingBaseWrite (m : Fin 8) (rsp : Bool) (addr : W64) (s : State) : Host.Outcome State Fault Refusal :=
  run (ringBaseWrite m.val rsp addr) s

/-- REQ_PI_DOORBELL (R38). -/
def execReqPiDoorbell (m : Fin 8) (v : W16) (s : State) : Host.Outcome State Fault Refusal :=
  run (reqPiDoorbell m.val v) s

/-- RSP_CI_WRITE (R38). -/
def execRspCiWrite (m : Fin 8) (v : W16) (s : State) : Host.Outcome State Fault Refusal :=
  run (rspCiWrite m.val v) s

/-- RING_ERR_CLEAR (R37). -/
def execRingErrClear (m : Fin 8) (s : State) : Host.Outcome State Fault Refusal :=
  run (ringErrClear m.val) s

/-- REGISTER_WRITE_PLAIN (R37). -/
def execRegisterWritePlain (space : RegSpace) (offset : Nat) (access : RegAccess)
    (s : State) : Host.Outcome State Fault Refusal :=
  run (registerWritePlain space offset access) s

/-- REQUEST_TAKE (R57). -/
def execRequestTake (slot : Bytes) (s : State) : Host.Outcome State Fault Refusal :=
  run (requestTake slot) s

/-- RESPONSE_WRITE (R39). -/
def execResponseWrite (m : Fin 10) (s : State) : Host.Outcome State Fault Refusal :=
  run (responseWrite m.val) s

/-- NOTICE_WRITE (R58). -/
def execNoticeWrite (m : Fin 10) (s : State) : Host.Outcome State Fault Refusal :=
  run (noticeWrite m.val) s

/-- NOTICES_LOST (R60). -/
def execNoticesLost (m : Fin 10) (s : State) : Host.Outcome State Fault Refusal :=
  run (noticesLost m.val) s

/-- MGMT_DATAGRAM_RX (R43). -/
def execMgmtDatagramRx (h : MgmtHead) (ports : UdpPorts) (udpLen : Nat) (data : Bytes)
    (s : State) : Host.Outcome State Fault Refusal :=
  run (mgmtDatagramRx h ports udpLen data) s

/-- MGMT_FRAGMENT_RX (R44). -/
def execMgmtFragmentRx (h : MgmtHead) (id : Nat) (offset : Nat) (more : Bool) (data : Bytes)
    (s : State) : Host.Outcome State Fault Refusal :=
  run (mgmtFragmentRx h id offset more data) s

/-- MGMT_FRAGMENT_TIMEOUT (R44). -/
def execMgmtFragmentTimeout (src : Bytes) (id : Nat) (s : State) : Host.Outcome State Fault Refusal :=
  run (mgmtFragmentTimeout src id) s

/-- SPI_TRANSACTION (R46). -/
def execSpiTransaction (write : Bool) (addr : BitVec 24) (count : Nat) (data : Bytes)
    (s : State) : Host.Outcome State Fault Refusal :=
  run (spiTransaction write addr.toNat count data) s

/-- SPI_MB_GO (R47). -/
def execSpiMbGo (s : State) : Host.Outcome State Fault Refusal :=
  run spiMbGo s

/-- SPI_RSP_READY_CLEAR (R47). -/
def execSpiRspReadyClear (s : State) : Host.Outcome State Fault Refusal :=
  run spiRspReadyClear s

/-- SPI_MB_OPEN (R47). -/
def execSpiMbOpen (s : State) : Host.Outcome State Fault Refusal :=
  run spiMbOpen s

/-- SPI_MB_CLOSE (R47). -/
def execSpiMbClose (s : State) : Host.Outcome State Fault Refusal :=
  run spiMbClose s

/-- TIME_NOW_CAPTURE_READ (R68). -/
def execTimeNowCaptureRead (s : State) : Host.Outcome State Fault Refusal :=
  run timeNowCaptureRead s

/-- SESSION_INFO (R61). -/
def execSessionInfo (r : Req) (s : State) : Host.Outcome State Fault Refusal :=
  runReq opSessionInfo r s

/-- NOTICE_FETCH (R62). -/
def execNoticeFetch (r : Req) (s : State) : Host.Outcome State Fault Refusal :=
  runReq opNoticeFetch r s

/-- NOTICE_SUBSCRIBE (R61). -/
def execNoticeSubscribe (r : Req) (s : State) : Host.Outcome State Fault Refusal :=
  runReq opNoticeSubscribe r s

end Sys2Proof.Machine
end

