-- ==== Sys2Proof/Machine/ExecPipes.lean ====
section
/-! DEFINITION. The meanings of the commands of channel pipes and palettes (07, 08): each one is its effect in the frame of `run`. -/

namespace Sys2Proof.Machine

/-- PIPE_CONFIG (R225). -/
def execPipeConfig (r : Req) (s : State) : Host.Outcome State Fault Refusal :=
  runReq opPipeConfig r s

/-- PIPE_START (R228). -/
def execPipeStart (r : Req) (s : State) : Host.Outcome State Fault Refusal :=
  runReq opPipeStart r s

/-- PIPE_STOP (R228). -/
def execPipeStop (r : Req) (s : State) : Host.Outcome State Fault Refusal :=
  runReq opPipeStop r s

/-- PIPE_STATUS (R227). -/
def execPipeStatus (r : Req) (s : State) : Host.Outcome State Fault Refusal :=
  runReq opPipeStatus r s

/-- PIPE_RETUNE (R213). -/
def execPipeRetune (r : Req) (s : State) : Host.Outcome State Fault Refusal :=
  runReq opPipeRetune r s

/-- DC_SET (R202). -/
def execDcSet (r : Req) (s : State) : Host.Outcome State Fault Refusal :=
  runReq opDcControl r s

/-- DC_VARNISH (R202). -/
def execDcVarnish (r : Req) (s : State) : Host.Outcome State Fault Refusal :=
  runReq opDcControl r s

/-- DC_THAW (R202). -/
def execDcThaw (r : Req) (s : State) : Host.Outcome State Fault Refusal :=
  runReq opDcControl r s

/-- DC_PRESET (R202). -/
def execDcPreset (r : Req) (s : State) : Host.Outcome State Fault Refusal :=
  runReq opDcControl r s

/-- DC_READ (R202). -/
def execDcRead (r : Req) (s : State) : Host.Outcome State Fault Refusal :=
  runReq opDcControl r s

/-- DELAY_SEGMENT (R208). -/
def execDelaySegment (r : Req) (s : State) : Host.Outcome State Fault Refusal :=
  runReq opDelaySegment r s

/-- DELAY_FLUSH (R210). -/
def execDelayFlush (r : Req) (s : State) : Host.Outcome State Fault Refusal :=
  runReq opDelayFlush r s

/-- DELAY_STATUS (R227). -/
def execDelayStatus (r : Req) (s : State) : Host.Outcome State Fault Refusal :=
  runReq opDelayStatus r s

/-- REQUANT_SET (R221). -/
def execRequantSet (r : Req) (s : State) : Host.Outcome State Fault Refusal :=
  runReq opRequantSet r s

/-- DELAY_UPDATE_POINT (R204). -/
def execDelayUpdatePoint (pipe : Fin 1024) (s : State) : Host.Outcome State Fault Refusal :=
  run (delayUpdatePoint pipe.val) s

/-- MODEL_EXPIRY (R209). -/
def execModelExpiry (channel : Fin 512) (s : State) : Host.Outcome State Fault Refusal :=
  run (modelExpiry channel.val) s

/-- PIPE_OUTPUT_SAMPLE (R236). -/
def execPipeOutputSample (pipe : Fin 1024) (s : State) : Host.Outcome State Fault Refusal :=
  run (pipeOutputSample pipe.val) s

/-- PROFILE_WRITE (R232). -/
def execProfileWrite (r : Req) (s : State) : Host.Outcome State Fault Refusal :=
  runReq opProfileWrite r s

/-- PROFILE_COMMIT (R231). -/
def execProfileCommit (r : Req) (s : State) : Host.Outcome State Fault Refusal :=
  runReq opProfileCommit r s

/-- PROFILE_DELETE (R232). -/
def execProfileDelete (r : Req) (s : State) : Host.Outcome State Fault Refusal :=
  runReq opProfileDelete r s

/-- PROFILE_INFO (R250). -/
def execProfileInfo (r : Req) (s : State) : Host.Outcome State Fault Refusal :=
  runReq opProfileInfo r s

/-- BANK_LOAD (R239). -/
def execBankLoad (r : Req) (s : State) : Host.Outcome State Fault Refusal :=
  runReq opBankLoad r s

/-- BANK_SWAP (R246). -/
def execBankSwap (r : Req) (s : State) : Host.Outcome State Fault Refusal :=
  runReq opBankSwap r s

/-- BANK_CLEAR (R241). -/
def execBankClear (r : Req) (s : State) : Host.Outcome State Fault Refusal :=
  runReq opBankClear r s

/-- BANK_STATUS (R250). -/
def execBankStatus (r : Req) (s : State) : Host.Outcome State Fault Refusal :=
  runReq opBankStatus r s

end Sys2Proof.Machine
end

