-- ==== Sys2Proof/Machine/ExecSafety.lean ====
section
/-! DEFINITION. The meanings of the commands of the machine safety island (15): each one is its effect in the frame of `run`. -/

namespace Sys2Proof.Machine

/-- SAFE_ISLAND_POWER_UP (R405). -/
def execSafeIslandPowerUp (swT : W16) (swC : W16) (s : State) : Host.Outcome State Fault Refusal :=
  run (safeIslandPowerUp swT swC) s

/-- SAFE_ISLAND_BOOT_DONE (R405). -/
def execSafeIslandBootDone (selfTestsOk : Bool) (s : State) : Host.Outcome State Fault Refusal :=
  run (safeIslandBootDone selfTestsOk) s

/-- SAFE_ISLAND_BOOT_TIMEOUT (R405). -/
def execSafeIslandBootTimeout (s : State) : Host.Outcome State Fault Refusal :=
  run safeIslandBootTimeout s

/-- VDD_SAFE_LOSS (R393). -/
def execVddSafeLoss (s : State) : Host.Outcome State Fault Refusal :=
  run vddSafeLoss s

/-- ISLAND_TICK (R406). -/
def execIslandTick (srb : BitVec 4) (srstHigh : Bool) (s : State) : Host.Outcome State Fault Refusal :=
  run (islandTick srb srstHigh) s

/-- TEST_PULSE (R394). -/
def execTestPulse (tpo : Fin 8) (reached : Bool) (stuckHigh : W16) (crossLow : W16)
    (s : State) : Host.Outcome State Fault Refusal :=
  run (testPulse tpo.val reached stuckHigh crossLow) s

/-- INPUT_RECOGNISED (R396). -/
def execInputRecognised (input : Fin 16) (samples : List Bool) (s : State) : Host.Outcome State Fault Refusal :=
  run (inputRecognised input.val samples) s

/-- DISCREPANCY_TIMEOUT (R397). -/
def execDiscrepancyTimeout (pair : Fin 8) (s : State) : Host.Outcome State Fault Refusal :=
  run (discrepancyTimeout pair.val) s

/-- TWO_HAND_TIMEOUT (R398). -/
def execTwoHandTimeout (s : State) : Host.Outcome State Fault Refusal :=
  run twoHandTimeout s

/-- RESET_PRESS_RELEASE (R400). -/
def execResetPressRelease (s : State) : Host.Outcome State Fault Refusal :=
  run resetPressRelease s

/-- RESET_STUCK (R400). -/
def execResetStuck (s : State) : Host.Outcome State Fault Refusal :=
  run resetStuck s

/-- CONFIG_CHANGE (R399). -/
def execConfigChange (swT : W16) (swC : W16) (s : State) : Host.Outcome State Fault Refusal :=
  run (configChange swT swC) s

/-- READBACK_TIMEOUT (R403). -/
def execReadbackTimeout (output : Fin 4) (s : State) : Host.Outcome State Fault Refusal :=
  run (readbackTimeout output.val) s

/-- OUTPUT_TEST_PULSE (R404). -/
def execOutputTestPulse (output : Fin 4) (seenLowThenHigh : Bool) (s : State) : Host.Outcome State Fault Refusal :=
  run (outputTestPulse output.val seenLowThenHigh) s

/-- SAFE_DIAG_FAIL (R405). -/
def execSafeDiagFail (s : State) : Host.Outcome State Fault Refusal :=
  run safeDiagFail s

/-- SAFE_STATUS_UPDATE (R407). -/
def execSafeStatusUpdate (s : State) : Host.Outcome State Fault Refusal :=
  run safeStatusUpdate s

/-- SAFE_LIVE_TIMEOUT (R407). -/
def execSafeLiveTimeout (s : State) : Host.Outcome State Fault Refusal :=
  run safeLiveTimeout s

/-- SAFE_STATUS_READ (R409). -/
def execSafeStatusRead (r : Req) (s : State) : Host.Outcome State Fault Refusal :=
  runReq opSafeStatusRead r s

/-- SAFE_CONFIG_READ (R409). -/
def execSafeConfigRead (r : Req) (s : State) : Host.Outcome State Fault Refusal :=
  runReq opSafeConfigRead r s

/-- SAFE_LOG_READ (R409). -/
def execSafeLogRead (r : Req) (s : State) : Host.Outcome State Fault Refusal :=
  runReq opSafeLogRead r s

/-- SAFE_WRITE_OPCODE (R409). -/
def execSafeWriteOpcode (low : Fin 64) (r : Req) (s : State) : Host.Outcome State Fault Refusal :=
  runReq (opSafeWrite low.val) r s

end Sys2Proof.Machine
end

