-- ==== Sys2Proof/Machine/ExecStreams.lean ====
section
/-! DEFINITION. The meanings of the commands of streams (12): each one is its effect in the frame of `run`. -/

namespace Sys2Proof.Machine

/-- COMP_BLOCK_COMPLETE (R312). -/
def execCompBlockComplete (stream : Fin 1024) (s : State) : Host.Outcome State Fault Refusal :=
  run (compBlockComplete stream.val) s

/-- PACKETISER_BEAT (R342). -/
def execPacketiserBeat (s : State) : Host.Outcome State Fault Refusal :=
  run packetiserBeat s

/-- STREAM_CONFIG (R327). -/
def execStreamConfig (r : Req) (s : State) : Host.Outcome State Fault Refusal :=
  runReq opStreamConfig r s

/-- STREAM_STATUS (R351). -/
def execStreamStatus (r : Req) (s : State) : Host.Outcome State Fault Refusal :=
  runReq opStreamStatus r s

/-- STREAM_WATERMARK (R348). -/
def execStreamWatermark (r : Req) (s : State) : Host.Outcome State Fault Refusal :=
  runReq opStreamWatermark r s

/-- PACKET_COMMIT (R331). -/
def execPacketCommit (stream : Fin 1024) (s : State) : Host.Outcome State Fault Refusal :=
  run (packetCommit stream.val) s

end Sys2Proof.Machine
end

