-- ==== Sys2Proof/Machine/ExecTime.lean ====
section
/-! DEFINITION. The meanings of the commands of Hub Time and the event calendar (03): each one is its effect in the frame of `run`. -/

namespace Sys2Proof.Machine

/-- RATE_WORD_WRITE (R74). -/
def execRateWordWrite (w : RateWrite) (s : State) : Host.Outcome State Fault Refusal :=
  run (rateWordWrite w) s

/-- RATE_SLEW_STEP (R75). -/
def execRateSlewStep (s : State) : Host.Outcome State Fault Refusal :=
  run rateSlewStep s

/-- TIME_QUALITY_WRITE (R82). -/
def execTimeQualityWrite (q : Quality) (s : State) : Host.Outcome State Fault Refusal :=
  run (timeQualityWrite q) s

/-- LEASE_RENEW (R82). -/
def execLeaseRenew (s : State) : Host.Outcome State Fault Refusal :=
  run leaseRenew s

/-- LEASE_EXPIRY (R82). -/
def execLeaseExpiry (s : State) : Host.Outcome State Fault Refusal :=
  run leaseExpiry s

/-- REF_LOST (R84). -/
def execRefLost (s : State) : Host.Outcome State Fault Refusal :=
  run refLost s

/-- TPLL_UNLOCK (R84). -/
def execTpllUnlock (s : State) : Host.Outcome State Fault Refusal :=
  run tpllUnlock s

/-- REF_RETURN (R84). -/
def execRefReturn (within10ppm : Bool) (s : State) : Host.Outcome State Fault Refusal :=
  run (refReturn within10ppm) s

/-- PPS_OUT_EDGE (R86). -/
def execPpsOutEdge (s : State) : Host.Outcome State Fault Refusal :=
  run ppsOutEdge s

/-- PPS_IN_EDGE (R88). -/
def execPpsInEdge (falling : Bool) (crossing : T16) (ptpSecond : Option Nat)
    (s : State) : Host.Outcome State Fault Refusal :=
  run (ppsInEdge falling crossing ptpSecond) s

/-- PPS_IN_TIMEOUT (R88). -/
def execPpsInTimeout (s : State) : Host.Outcome State Fault Refusal :=
  run ppsInTimeout s

/-- CALENDAR_FIRE (R95). -/
def execCalendarFire (s : State) : Host.Outcome State Fault Refusal :=
  runClock calendarFire s

/-- FIRE_RECORD_NOTICE (R101). -/
def execFireRecordNotice (s : State) : Host.Outcome State Fault Refusal :=
  run fireRecordNotice s

/-- TIME_GET (R104). -/
def execTimeGet (r : Req) (s : State) : Host.Outcome State Fault Refusal :=
  runReq opTimeGet r s

/-- TIME_STEP (R105). -/
def execTimeStep (r : Req) (s : State) : Host.Outcome State Fault Refusal :=
  runReq opTimeStep r s

/-- PPS_CONFIG (R106). -/
def execPpsConfig (r : Req) (s : State) : Host.Outcome State Fault Refusal :=
  runReq opPpsConfig r s

/-- TRIG_IN_CONFIG (R106). -/
def execTrigInConfig (r : Req) (s : State) : Host.Outcome State Fault Refusal :=
  runReq opTrigInConfig r s

/-- TRIG_IN_READ (R104). -/
def execTrigInRead (r : Req) (s : State) : Host.Outcome State Fault Refusal :=
  runReq opTrigInRead r s

/-- CAL_STATUS (R104). -/
def execCalStatus (r : Req) (s : State) : Host.Outcome State Fault Refusal :=
  runReq opCalStatus r s

/-- CAL_CANCEL (R103). -/
def execCalCancel (r : Req) (s : State) : Host.Outcome State Fault Refusal :=
  runReq opCalCancel r s

end Sys2Proof.Machine
end

