-- ==== Sys2Proof/Machine/ExecTransfer.lean ====
section
/-! DEFINITION. The meanings of the commands of time transfer and the keeper pair (04): each one is its effect in the frame of `run`. -/

namespace Sys2Proof.Machine

/-- PTP_FRAME_RX (R108). -/
def execPtpFrameRx (port : PtpPort) (crossing : T16) (frame : PtpFrame) (s : State) :
    Host.Outcome State Fault Refusal :=
  run (ptpFrameRx port crossing frame) s

/-- PTP_MESSAGE_TX (R109). -/
def execPtpMessageTx (port : PtpPort) (crossing : T16) (msg : Bytes) (s : State) : Host.Outcome State Fault Refusal :=
  run (ptpMessageTx port crossing msg) s

/-- PHASE_MEASURE (R112). -/
def execPhaseMeasure (lane : Fin 160) (phase : BitVec 21) (freq : Int) (slipped : Bool)
    (s : State) : Host.Outcome State Fault Refusal :=
  run (phaseMeasure lane.val phase freq slipped) s

/-- ESMC_MESSAGE (R113). -/
def execEsmcMessage (port : Fin 48) (received : Option Nat) (s : State) : Host.Outcome State Fault Refusal :=
  run (esmcMessage port received) s

/-- SERVO_ESTIMATE (R120). -/
def execServoEstimate (est : ServoInput) (s : State) : Host.Outcome State Fault Refusal :=
  run (servoEstimate est) s

/-- ANNOUNCE_TIMEOUT (R120). -/
def execAnnounceTimeout (s : State) : Host.Outcome State Fault Refusal :=
  run announceTimeout s

/-- HOLDOVER_LIMIT_EXPIRY (R120). -/
def execHoldoverLimitExpiry (s : State) : Host.Outcome State Fault Refusal :=
  run holdoverLimitExpiry s

/-- EASEL_HEARTBEAT_RX (R126). -/
def execEaselHeartbeatRx (link : Fin 8) (frame : Bytes) (arrival : T16)
    (s : State) : Host.Outcome State Fault Refusal :=
  run (easelHeartbeatRx link.val frame arrival) s

/-- EASEL_SLOT_MISSED (R129). -/
def execEaselSlotMissed (s : State) : Host.Outcome State Fault Refusal :=
  run easelSlotMissed s

/-- SNAPSHOT_TX (R128). -/
def execSnapshotTx (s : State) : Host.Outcome State Fault Refusal :=
  run snapshotTx s

/-- SNAPSHOT_RX (R128). -/
def execSnapshotRx (link : Fin 8) (handover : Bool) (snap : Bytes) (s : State) : Host.Outcome State Fault Refusal :=
  run (snapshotRx link.val handover snap) s

/-- KEEPER_LISTEN_END (R132). -/
def execKeeperListenEnd (s : State) : Host.Outcome State Fault Refusal :=
  run keeperListenEnd s

/-- HANDOVER_PARTNER_ABSENT (R134). -/
def execHandoverPartnerAbsent (s : State) : Host.Outcome State Fault Refusal :=
  run handoverPartnerAbsent s

/-- XFER_CONFIG (R136). -/
def execXferConfig (r : Req) (s : State) : Host.Outcome State Fault Refusal :=
  runReq opXferConfig r s

/-- XFER_STATUS (R135). -/
def execXferStatus (r : Req) (s : State) : Host.Outcome State Fault Refusal :=
  runReq opXferStatus r s

/-- PTP_PORT_CONFIG (R135). -/
def execPtpPortConfig (r : Req) (s : State) : Host.Outcome State Fault Refusal :=
  runReq opPtpPortConfig r s

/-- ASYM_WRITE (R122). -/
def execAsymWrite (r : Req) (s : State) : Host.Outcome State Fault Refusal :=
  runReq opAsymWrite r s

/-- ASYM_READ (R122). -/
def execAsymRead (r : Req) (s : State) : Host.Outcome State Fault Refusal :=
  runReq opAsymRead r s

/-- PHASE_READ (R112). -/
def execPhaseRead (r : Req) (s : State) : Host.Outcome State Fault Refusal :=
  runReq opPhaseRead r s

/-- KEEPER_HANDOVER (R134). -/
def execKeeperHandover (r : Req) (s : State) : Host.Outcome State Fault Refusal :=
  runReq opKeeperHandover r s

end Sys2Proof.Machine
end

