-- ==== Sys2Proof/Machine/UplinkRx.lean ====
section
/-! DEFINITION. Frames that an uplink port receives (R366). Published Ethernet, IP and ICMPv6 field positions and
EtherTypes are PRESUMED (log entry 22). -/

namespace Sys2Proof.Machine

/-- The EtherType behind at most one IEEE 802.1Q tag, and what follows it. -/
def etherOf (f : Bytes) : Nat × Bytes :=
  let t := ofBe (sub f 12 2)
  if t = 0x8100 then (ofBe (sub f 16 2), f.drop 18) else (t, f.drop 14)

/-- The protocol, destination address and payload of an IP packet. -/
def ipOf (et : Nat) (p : Bytes) : Option (Nat × Bytes × Bytes) :=
  if et = 0x0800 ∧ getU p 0 1 / 16 = 4 ∧ ofBe (sub p 6 2) % 0x4000 = 0 then
    some (getU p 9 1, sub p 16 4, p.drop (4 * (getU p 0 1 % 16)))
  else if et = 0x86DD ∧ getU p 0 1 / 16 = 6 then some (getU p 6 1, sub p 24 16, p.drop 40)
  else none

/-- An address is the port's. -/
def Port.isAddress (p : Port) (a : Bytes) : Bool :=
  (p.addrFlags.getLsbD 0 && a == p.ipv4) || (p.addrFlags.getLsbD 1 && a == p.ipv6)

inductive RxKind where
  | control | firmware | trigger (msg : Bytes) | other
  deriving DecidableEq, Repr

/-- What R366 makes of a frame with a good frame check sequence. -/
def rxKind (p : Port) (f : Bytes) : RxKind :=
  let (et, body) := etherOf f
  if et = 0x8808 then .control
  else if et = 0x88F7 ∨ (et = 0x8809 ∧ getU body 0 1 = 0x0A) then .firmware
  else if et = 0x0806 then (if p.isAddress (sub body 24 4) then .firmware else .other)
  else match ipOf et body with
    | some (17, dst, u) =>
      let port := ofBe (sub u 2 2)
      if port = 47105 ∧ p.isAddress dst then .trigger ((u.take (ofBe (sub u 4 2))).drop 8)
      else if port = 319 ∨ port = 320 then .firmware
      else .other
    | some (58, _, u) => if getU u 0 1 = 135 ∧ p.isAddress (sub u 8 16) then .firmware else .other
    | _ => .other

/-! ## Answers of the firmware (R355) -/

/-- The Ethernet header of an answer: to the sender of the frame or a given address, with the frame's own tag. -/
def answerHead (p : Port) (dest f : Bytes) (et : Nat) : Bytes :=
  dest ++ p.mac ++ (if ofBe (sub f 12 2) = 0x8100 then sub f 12 4 else []) ++ be 2 et

/-- An ARP reply for the port's IPv4 address. -/
def arpReply (p : Port) (f body : Bytes) : Bytes :=
  answerHead p (sub f 6 6) f 0x0806 ++ be 2 1 ++ be 2 0x0800 ++ [6, 4] ++ be 2 2 ++ p.mac ++ p.ipv4 ++ sub body 8 10

/-- A neighbour advertisement for the port's IPv6 address: to the soliciting address, or to all nodes where that is unspecified. -/
def neighbourReply (p : Port) (f body : Bytes) : Bytes :=
  let from_ := sub body 8 16
  let any := from_ == zeros 16
  let dst := if any then [0xFF, 2] ++ zeros 13 ++ [1] else from_
  let mac := if any then [0x33, 0x33, 0, 0, 0, 1] else sub f 6 6
  let icmp := fun (c : Nat) => [136, 0] ++ be 2 c ++ [if any then 0x20 else 0x60, 0, 0, 0] ++ p.ipv6 ++ [2, 1] ++ p.mac
  let sum := inetSum (p.ipv6 ++ dst ++ be 4 32 ++ zeros 3 ++ [58] ++ icmp 0)
  answerHead p mac f 0x86DD ++ [0x60, 0, 0, 0] ++ be 2 32 ++ [58, 255] ++ p.ipv6 ++ dst ++ icmp sum

/-- What the firmware answers on a port with ANSWER set: an ARP request or a neighbour solicitation for the port's addresses. -/
def answerTo (p : Port) (f : Bytes) : Option Bytes :=
  let (et, body) := etherOf f
  if !p.addrFlags.getLsbD 2 then none
  else if et = 0x0806 ∧ ofBe (sub body 6 2) = 1 ∧ p.addrFlags.getLsbD 0 ∧ sub body 24 4 = p.ipv4 then
    some (padTo 60 (arpReply p f body))
  else match ipOf et body with
    | some (58, _, u) =>
      if getU u 0 1 = 135 ∧ p.addrFlags.getLsbD 1 ∧ sub u 8 16 = p.ipv6 then some (neighbourReply p f body) else none
    | _ => none

/-- A frame for the firmware, which answers it while it runs. -/
def toFirmware (n : Nat) (f : Bytes) (s : State) : State :=
  let p := s.port n
  let s := s.setPort n { p with inbox := (f :: p.inbox).take 16 }
  match answerTo p f with
  | some a => controlFrameTx n a s
  | none => s

/-- UPLINK_FRAME_RX: a frame, its frame check sequence removed and judged. -/
def uplinkFrameRx (n : Nat) (fcsOk : Bool) (f : Bytes) (s : State) : State :=
  let p := s.port n
  if p.state ≠ .up then s
  else if !fcsOk then s.setPort n { p with fcs := p.fcs + 1 }
  else match rxKind p f with
    | .control => s.setPort n { p with pause := p.pause + 1 }
    | .other => s.setPort n { p with other := p.other + 1 }
    | .firmware => if s.chip.phase = .serving then toFirmware n f s else s
    | .trigger m => if s.chip.phase = .serving then networkTriggerRx n m s else s

end Sys2Proof.Machine
end

