-- ==== Sys2Proof/Machine/ExecUplinks.lean ====
section
/-! DEFINITION. The meanings of the commands of uplinks (13): each one is its effect in the frame of `run`. -/

namespace Sys2Proof.Machine

/-- STREAM_FLUSH (R345). -/
def execStreamFlush (r : Req) (s : State) : Host.Outcome State Fault Refusal :=
  runReq opStreamFlush r s

/-- STREAM_FLUSH_NOW (R347). -/
def execStreamFlushNow (r : Req) (s : State) : Host.Outcome State Fault Refusal :=
  runReq opStreamFlush r s

/-- FRAME_TX_START (R364). -/
def execFrameTxStart (port : Fin 48) (s : State) : Host.Outcome State Fault Refusal :=
  run (frameTxStart port.val) s

/-- FRAME_TX_END (R329). -/
def execFrameTxEnd (port : Fin 48) (s : State) : Host.Outcome State Fault Refusal :=
  run (frameTxEnd port.val) s

/-- CONTROL_FRAME_TX (R364). -/
def execControlFrameTx (port : Fin 48) (frame : Bytes) (s : State) : Host.Outcome State Fault Refusal :=
  run (controlFrameTx port.val frame) s

/-- UPLINK_FRAME_RX (R366). -/
def execUplinkFrameRx (port : Fin 48) (fcsOk : Bool) (frame : Bytes) (s : State) : Host.Outcome State Fault Refusal :=
  run (uplinkFrameRx port.val fcsOk frame) s

/-- UPL_GROUP_CONFIG (R354). -/
def execUplGroupConfig (r : Req) (s : State) : Host.Outcome State Fault Refusal :=
  runReq opUplGroupConfig r s

/-- UPL_PORT_ADDR (R355). -/
def execUplPortAddr (r : Req) (s : State) : Host.Outcome State Fault Refusal :=
  runReq opUplPortAddr r s

/-- UPL_DEST_WRITE (R356). -/
def execUplDestWrite (r : Req) (s : State) : Host.Outcome State Fault Refusal :=
  runReq opUplDestWrite r s

/-- UPL_STREAM_MAP (R369). -/
def execUplStreamMap (r : Req) (s : State) : Host.Outcome State Fault Refusal :=
  runReq opUplStreamMap r s

/-- UPL_PORT_ENABLE (R361). -/
def execUplPortEnable (r : Req) (s : State) : Host.Outcome State Fault Refusal :=
  runReq opUplPortControl r s

/-- UPL_PORT_DISABLE (R368). -/
def execUplPortDisable (r : Req) (s : State) : Host.Outcome State Fault Refusal :=
  runReq opUplPortControl r s

/-- UPL_PORT_STATUS (R369). -/
def execUplPortStatus (r : Req) (s : State) : Host.Outcome State Fault Refusal :=
  runReq opUplPortStatus r s

/-- PORT_UP (R361). -/
def execPortUp (port : Fin 48) (s : State) : Host.Outcome State Fault Refusal :=
  run (portUp port.val) s

/-- PORT_DOWN (R361). -/
def execPortDown (port : Fin 48) (cause : PortCause) (s : State) : Host.Outcome State Fault Refusal :=
  run (portDown port.val cause) s

end Sys2Proof.Machine
end

