-- ==== Sys2Proof/Machine/Dispatch.lean ====
section
/-! DEFINITION. The dispatcher: one arm per constructor of Instr. -/

namespace Sys2Proof.Machine

def exec (i : Instr) (s : State) : Host.Outcome State Fault Refusal :=
  match i with
  | .mbSessionOpen m v2 pause irqEn => Sys2Proof.Machine.execMbSessionOpen m v2 pause irqEn s
  | .mbSessionClose m => Sys2Proof.Machine.execMbSessionClose m s
  | .mbPauseSet m => Sys2Proof.Machine.execMbPauseSet m s
  | .mbPauseClear m => Sys2Proof.Machine.execMbPauseClear m s
  | .mbIrqEnWrite m en => Sys2Proof.Machine.execMbIrqEnWrite m en s
  | .ringBaseWrite m rsp addr => Sys2Proof.Machine.execRingBaseWrite m rsp addr s
  | .reqPiDoorbell m v => Sys2Proof.Machine.execReqPiDoorbell m v s
  | .rspCiWrite m v => Sys2Proof.Machine.execRspCiWrite m v s
  | .ringErrClear m => Sys2Proof.Machine.execRingErrClear m s
  | .registerWritePlain space offset access => Sys2Proof.Machine.execRegisterWritePlain space offset access s
  | .requestTake slot => Sys2Proof.Machine.execRequestTake slot s
  | .responseWrite m => Sys2Proof.Machine.execResponseWrite m s
  | .noticeWrite m => Sys2Proof.Machine.execNoticeWrite m s
  | .noticesLost m => Sys2Proof.Machine.execNoticesLost m s
  | .mgmtDatagramRx h ports udpLen data => Sys2Proof.Machine.execMgmtDatagramRx h ports udpLen data s
  | .mgmtFragmentRx h id offset more data => Sys2Proof.Machine.execMgmtFragmentRx h id offset more data s
  | .mgmtFragmentTimeout src id => Sys2Proof.Machine.execMgmtFragmentTimeout src id s
  | .spiTransaction write addr count data => Sys2Proof.Machine.execSpiTransaction write addr count data s
  | .spiMbGo => Sys2Proof.Machine.execSpiMbGo s
  | .spiRspReadyClear => Sys2Proof.Machine.execSpiRspReadyClear s
  | .spiMbOpen => Sys2Proof.Machine.execSpiMbOpen s
  | .spiMbClose => Sys2Proof.Machine.execSpiMbClose s
  | .timeNowCaptureRead => Sys2Proof.Machine.execTimeNowCaptureRead s
  | .sessionInfo r => Sys2Proof.Machine.execSessionInfo r s
  | .noticeFetch r => Sys2Proof.Machine.execNoticeFetch r s
  | .noticeSubscribe r => Sys2Proof.Machine.execNoticeSubscribe r s
  | .vddAonUp => Sys2Proof.Machine.execVddAonUp s
  | .vddAonLoss => Sys2Proof.Machine.execVddAonLoss s
  | .coreRailsUp => Sys2Proof.Machine.execCoreRailsUp s
  | .vddCoreLoss sram => Sys2Proof.Machine.execVddCoreLoss sram s
  | .laneIoRailLoss rail => Sys2Proof.Machine.execLaneIoRailLoss rail s
  | .railOrderBreach rail => Sys2Proof.Machine.execRailOrderBreach rail s
  | .resetNAssert lowNs => Sys2Proof.Machine.execResetNAssert lowNs s
  | .resetNRelease straps testMode => Sys2Proof.Machine.execResetNRelease straps testMode s
  | .chipResetEnd straps testMode => Sys2Proof.Machine.execChipResetEnd straps testMode s
  | .bootImageLoaded readOk image => Sys2Proof.Machine.execBootImageLoaded readOk image s
  | .bootComplete selfTestOk => Sys2Proof.Machine.execBootComplete selfTestOk s
  | .bootWatchdogExpiry => Sys2Proof.Machine.execBootWatchdogExpiry s
  | .parityError block offset => Sys2Proof.Machine.execParityError block offset s
  | .fwHeartbeatWrite value => Sys2Proof.Machine.execFwHeartbeatWrite value s
  | .fwStallDetect => Sys2Proof.Machine.execFwStallDetect s
  | .dspPllUnlock => Sys2Proof.Machine.execDspPllUnlock s
  | .dspPllRelock => Sys2Proof.Machine.execDspPllRelock s
  | .scrubPassLate pass => Sys2Proof.Machine.execScrubPassLate pass s
  | .rateWordWrite w => Sys2Proof.Machine.execRateWordWrite w s
  | .rateSlewStep => Sys2Proof.Machine.execRateSlewStep s
  | .timeQualityWrite q => Sys2Proof.Machine.execTimeQualityWrite q s
  | .leaseRenew => Sys2Proof.Machine.execLeaseRenew s
  | .leaseExpiry => Sys2Proof.Machine.execLeaseExpiry s
  | .refLost => Sys2Proof.Machine.execRefLost s
  | .tpllUnlock => Sys2Proof.Machine.execTpllUnlock s
  | .refReturn within10ppm => Sys2Proof.Machine.execRefReturn within10ppm s
  | .ppsOutEdge => Sys2Proof.Machine.execPpsOutEdge s
  | .ppsInEdge falling crossing ptpSecond => Sys2Proof.Machine.execPpsInEdge falling crossing ptpSecond s
  | .ppsInTimeout => Sys2Proof.Machine.execPpsInTimeout s
  | .trigInEdge input falling crossing => Sys2Proof.Machine.execTrigInEdge input falling crossing s
  | .calendarFire => Sys2Proof.Machine.execCalendarFire s
  | .fireRecordNotice => Sys2Proof.Machine.execFireRecordNotice s
  | .timeGet r => Sys2Proof.Machine.execTimeGet r s
  | .timeStep r => Sys2Proof.Machine.execTimeStep r s
  | .ppsConfig r => Sys2Proof.Machine.execPpsConfig r s
  | .trigInConfig r => Sys2Proof.Machine.execTrigInConfig r s
  | .trigInRead r => Sys2Proof.Machine.execTrigInRead r s
  | .calStatus r => Sys2Proof.Machine.execCalStatus r s
  | .calCancel r => Sys2Proof.Machine.execCalCancel r s
  | .ptpFrameRx port crossing frame => Sys2Proof.Machine.execPtpFrameRx port crossing frame s
  | .ptpMessageTx port crossing msg => Sys2Proof.Machine.execPtpMessageTx port crossing msg s
  | .phaseMeasure lane phase freq slipped => Sys2Proof.Machine.execPhaseMeasure lane phase freq slipped s
  | .esmcMessage port received => Sys2Proof.Machine.execEsmcMessage port received s
  | .servoEstimate est => Sys2Proof.Machine.execServoEstimate est s
  | .announceTimeout => Sys2Proof.Machine.execAnnounceTimeout s
  | .holdoverLimitExpiry => Sys2Proof.Machine.execHoldoverLimitExpiry s
  | .easelHeartbeatRx link frame arrival => Sys2Proof.Machine.execEaselHeartbeatRx link frame arrival s
  | .easelSlotMissed => Sys2Proof.Machine.execEaselSlotMissed s
  | .snapshotTx => Sys2Proof.Machine.execSnapshotTx s
  | .snapshotRx link handover snap => Sys2Proof.Machine.execSnapshotRx link handover snap s
  | .keeperListenEnd => Sys2Proof.Machine.execKeeperListenEnd s
  | .handoverPartnerAbsent => Sys2Proof.Machine.execHandoverPartnerAbsent s
  | .xferConfig r => Sys2Proof.Machine.execXferConfig r s
  | .xferStatus r => Sys2Proof.Machine.execXferStatus r s
  | .ptpPortConfig r => Sys2Proof.Machine.execPtpPortConfig r s
  | .asymWrite r => Sys2Proof.Machine.execAsymWrite r s
  | .asymRead r => Sys2Proof.Machine.execAsymRead r s
  | .phaseRead r => Sys2Proof.Machine.execPhaseRead r s
  | .keeperHandover r => Sys2Proof.Machine.execKeeperHandover r s
  | .laneConfig r => Sys2Proof.Machine.execLaneConfig r s
  | .laneStatus r => Sys2Proof.Machine.execLaneStatus r s
  | .lanePower r => Sys2Proof.Machine.execLanePower r s
  | .laneWakeComplete lane rx => Sys2Proof.Machine.execLaneWakeComplete lane rx s
  | .laneReeq r => Sys2Proof.Machine.execLaneReeq r s
  | .reeqComplete lane ctle eyeH eyeV => Sys2Proof.Machine.execReeqComplete lane ctle eyeH eyeV s
  | .laneAcquired lane inverted ctle eyeH eyeV => Sys2Proof.Machine.execLaneAcquired lane inverted ctle eyeH eyeV s
  | .laneLockLost lane cdr => Sys2Proof.Machine.execLaneLockLost lane cdr s
  | .bglLinkConfig r => Sys2Proof.Machine.execBglLinkConfig r s
  | .bglLinkStatus r => Sys2Proof.Machine.execBglLinkStatus r s
  | .bglMarkerTx link => Sys2Proof.Machine.execBglMarkerTx link s
  | .bglLanesLocked link octets => Sys2Proof.Machine.execBglLanesLocked link octets s
  | .bglTrainingResult link order widths linkIds rest => Sys2Proof.Machine.execBglTrainingResult link order widths linkIds rest s
  | .bglWiringWaitEnd link => Sys2Proof.Machine.execBglWiringWaitEnd link s
  | .bglLinkUp link skewPs readyRx sender => Sys2Proof.Machine.execBglLinkUp link skewPs readyRx sender s
  | .bglDeskewTimeout link => Sys2Proof.Machine.execBglDeskewTimeout link s
  | .bglLinkDown link => Sys2Proof.Machine.execBglLinkDown link s
  | .laneBitslip r => Sys2Proof.Machine.execLaneBitslip r s
  | .laneRawCapture r => Sys2Proof.Machine.execLaneRawCapture r s
  | .laneRawCommit r => Sys2Proof.Machine.execLaneRawCommit r s
  | .prbsConfig r => Sys2Proof.Machine.execPrbsConfig r s
  | .prbsRead r => Sys2Proof.Machine.execPrbsRead r s
  | .prbsLock lane bits => Sys2Proof.Machine.execPrbsLock lane bits s
  | .prbsLockLoss lane errors lastErrors => Sys2Proof.Machine.execPrbsLockLoss lane errors lastErrors s
  | .dclkConfig r => Sys2Proof.Machine.execDclkConfig r s
  | .dclkRestart output => Sys2Proof.Machine.execDclkRestart output s
  | .srefConfig r => Sys2Proof.Machine.execSrefConfig r s
  | .jesdLinkConfig r => Sys2Proof.Machine.execJesdLinkConfig r s
  | .bglInputConfig r => Sys2Proof.Machine.execBglInputConfig r s
  | .scpConfig r => Sys2Proof.Machine.execScpConfig r s
  | .linkAlign r => Sys2Proof.Machine.execLinkAlign r s
  | .linkAlignDone kind link found => Sys2Proof.Machine.execLinkAlignDone kind link found s
  | .alignBoundExpiry kind link => Sys2Proof.Machine.execAlignBoundExpiry kind link s
  | .linkStatus r => Sys2Proof.Machine.execLinkStatus r s
  | .inputLinkLost kind link => Sys2Proof.Machine.execInputLinkLost kind link s
  | .multiframeBoundaryStamp link stamps => Sys2Proof.Machine.execMultiframeBoundaryStamp link stamps s
  | .bglFrameRx link frame => Sys2Proof.Machine.execBglFrameRx link frame s
  | .bglMessageRx link stream start rest => Sys2Proof.Machine.execBglMessageRx link stream start rest s
  | .scpFrameRx port frame => Sys2Proof.Machine.execScpFrameRx port frame s
  | .inputWordRelease channel jesd => Sys2Proof.Machine.execInputWordRelease channel jesd s
  | .channelBind r => Sys2Proof.Machine.execChannelBind r s
  | .channelStart r => Sys2Proof.Machine.execChannelStart r s
  | .channelStop r => Sys2Proof.Machine.execChannelStop r s
  | .channelStatus r => Sys2Proof.Machine.execChannelStatus r s
  | .bglMessage r => Sys2Proof.Machine.execBglMessage r s
  | .pipeConfig r => Sys2Proof.Machine.execPipeConfig r s
  | .pipeStart r => Sys2Proof.Machine.execPipeStart r s
  | .pipeStop r => Sys2Proof.Machine.execPipeStop r s
  | .pipeStatus r => Sys2Proof.Machine.execPipeStatus r s
  | .pipeRetune r => Sys2Proof.Machine.execPipeRetune r s
  | .dcSet r => Sys2Proof.Machine.execDcSet r s
  | .dcVarnish r => Sys2Proof.Machine.execDcVarnish r s
  | .dcThaw r => Sys2Proof.Machine.execDcThaw r s
  | .dcPreset r => Sys2Proof.Machine.execDcPreset r s
  | .dcRead r => Sys2Proof.Machine.execDcRead r s
  | .delaySegment r => Sys2Proof.Machine.execDelaySegment r s
  | .delayFlush r => Sys2Proof.Machine.execDelayFlush r s
  | .delayStatus r => Sys2Proof.Machine.execDelayStatus r s
  | .requantSet r => Sys2Proof.Machine.execRequantSet r s
  | .delayUpdatePoint pipe => Sys2Proof.Machine.execDelayUpdatePoint pipe s
  | .modelExpiry channel => Sys2Proof.Machine.execModelExpiry channel s
  | .pipeOutputSample pipe => Sys2Proof.Machine.execPipeOutputSample pipe s
  | .profileWrite r => Sys2Proof.Machine.execProfileWrite r s
  | .profileCommit r => Sys2Proof.Machine.execProfileCommit r s
  | .profileDelete r => Sys2Proof.Machine.execProfileDelete r s
  | .profileInfo r => Sys2Proof.Machine.execProfileInfo r s
  | .bankLoad r => Sys2Proof.Machine.execBankLoad r s
  | .bankSwap r => Sys2Proof.Machine.execBankSwap r s
  | .bankClear r => Sys2Proof.Machine.execBankClear r s
  | .bankStatus r => Sys2Proof.Machine.execBankStatus r s
  | .admStatus r => Sys2Proof.Machine.execAdmStatus r s
  | .admBoundRead r => Sys2Proof.Machine.execAdmBoundRead r s
  | .admLimit r => Sys2Proof.Machine.execAdmLimit r s
  | .admProbe r => Sys2Proof.Machine.execAdmProbe r s
  | .capWindowConfig r => Sys2Proof.Machine.execCapWindowConfig r s
  | .capCondConfig r => Sys2Proof.Machine.execCapCondConfig r s
  | .capArm r => Sys2Proof.Machine.execCapArm r s
  | .capArmEffect window => Sys2Proof.Machine.execCapArmEffect window s
  | .capDisarm r => Sys2Proof.Machine.execCapDisarm r s
  | .capDisarmEffect window => Sys2Proof.Machine.execCapDisarmEffect window s
  | .capTrigger r => Sys2Proof.Machine.execCapTrigger r s
  | .capStatus r => Sys2Proof.Machine.execCapStatus r s
  | .capRecordRead r => Sys2Proof.Machine.execCapRecordRead r s
  | .capDump r => Sys2Proof.Machine.execCapDump r s
  | .capRelease r => Sys2Proof.Machine.execCapRelease r s
  | .capMissedRead r => Sys2Proof.Machine.execCapMissedRead r s
  | .trigOutConfig r => Sys2Proof.Machine.execTrigOutConfig r s
  | .captureFrameWrite window => Sys2Proof.Machine.execCaptureFrameWrite window s
  | .networkTriggerRx port msg => Sys2Proof.Machine.execNetworkTriggerRx port msg s
  | .dumpPacket dump => Sys2Proof.Machine.execDumpPacket dump s
  | .dumpEnd dump => Sys2Proof.Machine.execDumpEnd dump s
  | .compStreamConfig r => Sys2Proof.Machine.execCompStreamConfig r s
  | .compStreamStatus r => Sys2Proof.Machine.execCompStreamStatus r s
  | .compJob r => Sys2Proof.Machine.execCompJob r s
  | .compJobStatus r => Sys2Proof.Machine.execCompJobStatus r s
  | .compJobCancel r => Sys2Proof.Machine.execCompJobCancel r s
  | .jobStart unit => Sys2Proof.Machine.execJobStart unit s
  | .jobEnd unit hostSrc => Sys2Proof.Machine.execJobEnd unit hostSrc s
  | .compAutoEval stream => Sys2Proof.Machine.execCompAutoEval stream s
  | .compBlockComplete stream => Sys2Proof.Machine.execCompBlockComplete stream s
  | .packetiserBeat => Sys2Proof.Machine.execPacketiserBeat s
  | .streamConfig r => Sys2Proof.Machine.execStreamConfig r s
  | .streamStatus r => Sys2Proof.Machine.execStreamStatus r s
  | .streamFlush r => Sys2Proof.Machine.execStreamFlush r s
  | .streamFlushNow r => Sys2Proof.Machine.execStreamFlushNow r s
  | .streamWatermark r => Sys2Proof.Machine.execStreamWatermark r s
  | .packetCommit stream => Sys2Proof.Machine.execPacketCommit stream s
  | .frameTxStart port => Sys2Proof.Machine.execFrameTxStart port s
  | .frameTxEnd port => Sys2Proof.Machine.execFrameTxEnd port s
  | .controlFrameTx port frame => Sys2Proof.Machine.execControlFrameTx port frame s
  | .uplinkFrameRx port fcsOk frame => Sys2Proof.Machine.execUplinkFrameRx port fcsOk frame s
  | .uplGroupConfig r => Sys2Proof.Machine.execUplGroupConfig r s
  | .uplPortAddr r => Sys2Proof.Machine.execUplPortAddr r s
  | .uplDestWrite r => Sys2Proof.Machine.execUplDestWrite r s
  | .uplStreamMap r => Sys2Proof.Machine.execUplStreamMap r s
  | .uplPortEnable r => Sys2Proof.Machine.execUplPortEnable r s
  | .uplPortDisable r => Sys2Proof.Machine.execUplPortDisable r s
  | .uplPortStatus r => Sys2Proof.Machine.execUplPortStatus r s
  | .portUp port => Sys2Proof.Machine.execPortUp port s
  | .portDown port cause => Sys2Proof.Machine.execPortDown port cause s
  | .faultDetect block source unit at_ => Sys2Proof.Machine.execFaultDetect block source unit at_ s
  | .blockResetEnd block unit => Sys2Proof.Machine.execBlockResetEnd block unit s
  | .gateEnd block unit => Sys2Proof.Machine.execGateEnd block unit s
  | .fltRead r => Sys2Proof.Machine.execFltRead r s
  | .fltClear r => Sys2Proof.Machine.execFltClear r s
  | .fltReactSet r => Sys2Proof.Machine.execFltReactSet r s
  | .fltLock r => Sys2Proof.Machine.execFltLock r s
  | .fltBlockRelease r => Sys2Proof.Machine.execFltBlockRelease r s
  | .uncorrRead r => Sys2Proof.Machine.execUncorrRead r s
  | .fltRecordRead r => Sys2Proof.Machine.execFltRecordRead r s
  | .fltInject r => Sys2Proof.Machine.execFltInject r s
  | .safeIslandPowerUp swT swC => Sys2Proof.Machine.execSafeIslandPowerUp swT swC s
  | .safeIslandBootDone selfTestsOk => Sys2Proof.Machine.execSafeIslandBootDone selfTestsOk s
  | .safeIslandBootTimeout => Sys2Proof.Machine.execSafeIslandBootTimeout s
  | .vddSafeLoss => Sys2Proof.Machine.execVddSafeLoss s
  | .islandTick srb srstHigh => Sys2Proof.Machine.execIslandTick srb srstHigh s
  | .testPulse tpo reached stuckHigh crossLow => Sys2Proof.Machine.execTestPulse tpo reached stuckHigh crossLow s
  | .inputRecognised input samples => Sys2Proof.Machine.execInputRecognised input samples s
  | .discrepancyTimeout pair => Sys2Proof.Machine.execDiscrepancyTimeout pair s
  | .twoHandTimeout => Sys2Proof.Machine.execTwoHandTimeout s
  | .resetPressRelease => Sys2Proof.Machine.execResetPressRelease s
  | .resetStuck => Sys2Proof.Machine.execResetStuck s
  | .configChange swT swC => Sys2Proof.Machine.execConfigChange swT swC s
  | .readbackTimeout output => Sys2Proof.Machine.execReadbackTimeout output s
  | .outputTestPulse output seenLowThenHigh => Sys2Proof.Machine.execOutputTestPulse output seenLowThenHigh s
  | .safeDiagFail => Sys2Proof.Machine.execSafeDiagFail s
  | .safeStatusUpdate => Sys2Proof.Machine.execSafeStatusUpdate s
  | .safeLiveTimeout => Sys2Proof.Machine.execSafeLiveTimeout s
  | .safeStatusRead r => Sys2Proof.Machine.execSafeStatusRead r s
  | .safeConfigRead r => Sys2Proof.Machine.execSafeConfigRead r s
  | .safeLogRead r => Sys2Proof.Machine.execSafeLogRead r s
  | .safeWriteOpcode low r => Sys2Proof.Machine.execSafeWriteOpcode low r s
  | .sysReset r => Sys2Proof.Machine.execSysReset r s
  | .bootInfo r => Sys2Proof.Machine.execBootInfo r s
  | .configWrite r => Sys2Proof.Machine.execConfigWrite r s
  | .configRead r => Sys2Proof.Machine.execConfigRead r s
  | .fwImageWrite r => Sys2Proof.Machine.execFwImageWrite r s
  | .flashEraseDone => Sys2Proof.Machine.execFlashEraseDone s
  | .fwImageCheck r => Sys2Proof.Machine.execFwImageCheck r s
  | .fwActivate r => Sys2Proof.Machine.execFwActivate r s
  | .fwCommit r => Sys2Proof.Machine.execFwCommit r s
  | .paletteLoad r => Sys2Proof.Machine.execPaletteLoad r s
  | .testUnlock r => Sys2Proof.Machine.execTestUnlock r s
  | .unit3RequestDone readOk image => Sys2Proof.Machine.execUnit3RequestDone readOk image s
  | .pushGo image => Sys2Proof.Machine.execPushGo image s
  | .pushChunkGo last => Sys2Proof.Machine.execPushChunkGo last s
  | .pushComplete => Sys2Proof.Machine.execPushComplete s
  | .quietDeclare r => Sys2Proof.Machine.execQuietDeclare r s
  | .quietCancel r => Sys2Proof.Machine.execQuietCancel r s
  | .clkCalibrate r => Sys2Proof.Machine.execClkCalibrate r s
  | .calibrationDone errors => Sys2Proof.Machine.execCalibrationDone errors s
  | .selftestStatus r => Sys2Proof.Machine.execSelftestStatus r s
  | .selftestBankDone bank passed => Sys2Proof.Machine.execSelftestBankDone bank passed s
  | .thermWarn asserted => Sys2Proof.Machine.execThermWarn asserted s
  | .thermTrip => Sys2Proof.Machine.execThermTrip s
  | .thermTripRelease => Sys2Proof.Machine.execThermTripRelease s
  | .jtagInstruction ir drivesPins => Sys2Proof.Machine.execJtagInstruction ir drivesPins s
  | .laneIoRailsReturn straps testMode => Sys2Proof.Machine.execLaneIoRailsReturn straps testMode s
  | .pcieLinkTrained => Sys2Proof.Machine.execPcieLinkTrained s

end Sys2Proof.Machine
end

