-- ==== Sys2Proof/Safety.lean ====
section
/-! DEFINITION. What the statements call a sound state, a frame, an accepted request and its answer. -/

namespace Sys2Proof.Machine

/-- Hub Time is in the range of R70: 48-bit seconds, nanoseconds below 1,000,000,000, a 40-bit fraction. -/
def TimeSt.ok (t : TimeSt) : Prop := t.sec < 2 ^ 48 ∧ t.ns < 1000000000 ∧ t.frac40 < 2 ^ 40

/-- Between two commands: Hub Time is in range, and no fault event waits for its reaction. -/
structure State.Inv (s : State) : Prop where
  time : s.time.ok
  acted : s.flt.detected = []

/-! ## Frames -/

/-- The mailboxes and what waits for them: of the host interface, all that a request or a notice may change. -/
def Hcp.mail (h : Hcp) : Hcp :=
  { held := h.held, mbs := h.mbs, served := h.served, log := h.log, peer := h.peer, mgmtQueue := h.mgmtQueue
    replyTo := h.replyTo }

/-- The rest of the host interface: the MSI-X table, the captured Hub Time, the SPI port's buffers and flags, the fragments
and errors of management Ethernet. -/
def Hcp.ports (h : Hcp) : Hcp :=
  { msixTable := h.msixTable, captured := h.captured, capturedQ := h.capturedQ, spiGo := h.spiGo, spiReady := h.spiReady
    spiReq := h.spiReq, spiRsp := h.spiRsp, partials := h.partials, mgmtErrors := h.mgmtErrors }

/-- The parts of the state, by the chapters of the spec; `hcp` and `ports` are the two halves of the host interface, `queue`
the model's own queue of commands. The latest emissions and the pending bits of MSI-X vector 8, which a command may send of
itself (R42), are no part. -/
inductive Part where
  | chip | boot | hcp | ports | time | cal | xfer | lanes | bgls | dclks | srefs | jesds | bglIns | scps | channels | pipes
  | profiles | ledger | cap | comp | strm | upl | flt | island | tick | free | queue
  deriving DecidableEq, Repr

/-- A part of the state is the same in two states. -/
def Part.same (s t : State) : Part → Prop
  | .chip => t.chip = s.chip
  | .boot => t.boot = s.boot
  | .hcp => t.hcp.mail = s.hcp.mail
  | .ports => t.hcp.ports = s.hcp.ports
  | .time => t.time = s.time
  | .cal => t.cal = s.cal
  | .xfer => t.xfer = s.xfer
  | .lanes => t.lanes = s.lanes
  | .bgls => t.bgls = s.bgls
  | .dclks => t.dclks = s.dclks
  | .srefs => t.srefs = s.srefs
  | .jesds => t.jesds = s.jesds
  | .bglIns => t.bglIns = s.bglIns
  | .scps => t.scps = s.scps
  | .channels => t.channels = s.channels
  | .pipes => t.pipes = s.pipes
  | .profiles => t.profiles = s.profiles
  | .ledger => t.ledger = s.ledger
  | .cap => t.cap = s.cap
  | .comp => t.comp = s.comp
  | .strm => t.strm = s.strm
  | .upl => t.upl = s.upl
  | .flt => t.flt = s.flt
  | .island => t.island = s.island
  | .tick => t.tick = s.tick
  | .free => t.freeCount = s.freeCount
  | .queue => t.pending = s.pending

/-- Every part but those listed is the same in `t` as in `s`. -/
def Keeps (changed : List Part) (s t : State) : Prop := ∀ p : Part, p ∉ changed → p.same s t

/-- Command i answers a next state: every part but those listed is as before, and `post` holds of it. -/
def Gives (i : Instr) (s : State) (changed : List Part) (post : State → Prop) : Prop :=
  ∃ t, exec i s = .next t ∧ Keeps changed s t ∧ post t

/-! ## Fault events -/

/-- The register set of a block after an event of one source (R373, Table FLT-2): the sticky bit, the first-fault
registers where none was set, the log of the last 16 events. -/
def FaultBlock.seen (f : FaultBlock) (now : T16) (n u : Nat) : FaultBlock :=
  { f with
    events := (f.events ++ [(now, n, u)]).drop (f.events.length + 1 - 16)
    firstUnit := if f.sticky = 0 then u else f.firstUnit
    firstSrc := if f.sticky = 0 then n else f.firstSrc
    firstValid := true
    sticky := f.sticky ||| BitVec.ofNat 64 (2 ^ n) }

/-- An event of a source is only noted and told: the fault registers are live, the source is not gated, and its reaction
byte asks for no reset. The two sources that act of themselves (DSP_UNLOCK, LEDGER_CHECK) are apart. -/
structure Quietly (b n u : Nat) (s : State) : Prop where
  live : s.faultsHeld = false
  open_ : s.gated b n u = false
  noReset : resetField (s.reaction b n) = 0
  plain : ¬ (b = 3 ∧ n = 3) ∧ ¬ (b = 13 ∧ n = 0)

/-- The fault registers of `t` are those of `s` with one event of source n of block b noted. -/
def Noted (b n u : Nat) (s t : State) : Prop :=
  t.flt = { s.flt with blocks := tset {} s.flt.blocks b ((s.blk b).seen s.now n u) }

/-- No condition of a fault source stands whose bit would be set again (R373). -/
structure State.NothingPersists (s : State) : Prop where
  time : s.time.refLost = false ∧ s.time.tpllUnlock = false ∧ s.time.ppsLost = false
  chip : s.chip.dspLocked = true ∧ s.chip.fwStalled = false
  flt : s.flt.ledgerBad = false ∧ s.flt.standing = []

/-! ## The calendar -/

/-- One entry of the calendar is due, once, and no other has its insertion number; the fire log has room. -/
def State.OneDue (s : State) (e : CalEntry) : Prop :=
  e ∈ s.cal.entries ∧ e.due s = true ∧ e.period = 0 ∧ (∀ x ∈ s.cal.entries, x.due s = true ∨ x.ins = e.ins → x = e) ∧
    s.cal.fireLog.length < 4096

/-- The calendar after entry e has fired on time: it has left, is counted, and its record with outcome 0 is the latest. -/
def Fired (e : CalEntry) (s t : State) : Prop :=
  t.cal = { s.cal with
    entries := s.cal.entries.filter fun x => x.ins ≠ e.ins, fired := s.cal.fired + 1
    fireLog := (s.cal.fireLog.filter fun f => f.ins ≠ e.ins) ++ [⟨e.ins, s.now, 0, e.cls, s.chipCode, e.job, []⟩] }

/-- No source's reaction byte asks for a reset. -/
def State.NoResets (s : State) : Prop := ∀ b < 17, ∀ n < 64, resetField (s.reaction b n) = 0

/-! ## Lanes -/

/-- A target rate word outside 100 ppm has been pulled in to them where a lane is time-locked now, and the servo says so (R114);
otherwise Hub Time is as before. -/
def State.PulledIn (s t : State) : Prop :=
  let dev := (s.time.rateTarget.toNat : Int) - 2 ^ 40
  if 109951162 < dev.natAbs ∧ t.anyTimeLocked = true then
    t.time = { s.time with rateTarget := BitVec.ofNat 48 (2 ^ 40 + 109951162 * dev.sign).toNat, slewTicks := 0 } ∧
      t.xfer = { s.xfer with clamped := true }
  else t.time = s.time ∧ t.xfer = s.xfer

/-- The uplink port of a lane, where it has one, counts its good 1 ms from now (R361); nothing else of the uplinks changes. -/
def State.GoodSince (s : State) (l : Nat) (t : State) : Prop :=
  match s.lanePort l with
  | some p => t.upl = { s.upl with ports := tset {} s.upl.ports p { s.port p with goodTick := s.tick } }
  | none => t.upl = s.upl

/-- Bits that the line rate has brought since the PRBS checker's count was brought up to date. -/
def Lane.newBits (x : Lane) (tick : Nat) : Nat := x.rate * tick / 1000000 - x.rate * x.prbs.countTick / 1000000

/-- The PRBS checker with its checked bits up to now, where it is locked and no re-equalisation suspends it (R159). -/
def Lane.checked (x : Lane) (tick : Nat) : Prbs :=
  if x.prbs.locked = true ∧ x.reeq = none then
    { x.prbs with bits := x.prbs.bits + BitVec.ofNat 64 (x.newBits tick), countTick := tick }
  else x.prbs

/-! ## Time transfer -/

/-- A message of the firmware can leave a PTP port now: the port is enabled and up, the firmware runs, an uplink port may send a
control frame of the message's length, and a Delay_Req comes from a hub whose role disciplines it towards the network (R107, R109,
R131, R364). -/
structure State.Sends (s : State) (p : PtpPort) (x : T16) (msg : Bytes) : Prop where
  on : ptpOn s p = true
  runs : s.fwRuns = true
  room : s.maySend p (messageFrame (getU (s.ptp (ptpKey p)).settings 3 1) (getU (s.ptp (ptpKey p)).settings 10 2 % 4096)
    (ptpOut (s.ptp (ptpKey p)).settings msg (adjusted s p 12 x)).length) = true
  client : getU msg 0 1 % 16 = 1 → s.xfer.network = true

/-- A servo estimate counts: the firmware runs, the role is not HOST, the measurements are there and make the offset e, and PTP and
PPS_IN do not differ by more than 100 ns (R115, R120). -/
structure State.Estimates (s : State) (x : ServoInput) (e : Int) : Prop where
  runs : s.fwRuns = true
  role : s.xfer.roleAct ≠ .host
  offset : s.offsetOf x = some e
  agree : s.crossMismatch x = false

/-- The target rate word of a wanted one: within `lim` units of 1, and within 100 ppm while a lane is time-locked (R114). -/
def State.steered (s : State) (wanted lim : Int) : W48 :=
  let l := if s.anyTimeLocked then min lim 109951162 else lim
  BitVec.ofNat 48 (2 ^ 40 + max (-l) (min l (wanted - 2 ^ 40))).toNat

/-- The last estimate that the lock criterion asks for (R120): towards the network 16 within 1 ns with agreeing seconds in mode 0,
64 within 50 ns in mode 1; towards a keeper that is LOCKED, one within 100 ps. -/
def State.LockMet (s : State) (x : ServoInput) (e : Int) : Prop :=
  if s.xfer.roleAct = .standalone ∨ s.xfer.roleAct = .keeper then
    (if s.xfer.refMode = 0 then e.natAbs ≤ 65536 ∧ s.secondsAgree x = true ∧ 15 ≤ s.xfer.lockCount
     else e.natAbs ≤ 50 * 65536 ∧ 63 ≤ s.xfer.lockCount)
  else e.natAbs ≤ 6 ∧ s.keeperLocked = true

/-- No keeper is announced but the one that is followed. -/
def State.OnlyItsKeeper (s : State) : Prop := ∀ n ∈ s.announcers, beatHub (s.heardOn n).frame = s.xfer.hubIdF.toNat

/-! ## Requests -/

/-- The state in which a request is judged: it is accepted, so its host_seq and crc are the mailbox's last, and a
datagram's source is mailbox 8's peer. -/
def State.taking (s : State) (op : Op) (r : Req) : State :=
  acceptReq op.code r (if r.mb.val = 8 then
    { s with emitted := [], hcp := { s.hcp with peer := s.hcp.replyTo.or s.hcp.peer } } else { s with emitted := [] })

/-- A request executes: the hub serves the mailbox, which is open and has room for the response, the state is between two
commands, and every check of Table HCP-10 from check 5 on passes, for an opcode with a ledger decision check 13 too. -/
structure Accepted (op : Op) (r : Req) (s : State) : Prop where
  served : s.serves = true
  room : s.canTake r.mb.val = true
  acted : s.flt.detected = []
  checks : firstBad (headerChecks (s.mb r.mb.val).version2 r ++ opChecks op (s.mb r.mb.val).version2 r (s.taking op r)) = none
  ledger : op.ledger = true → s.flt.ledgerBad = false ∧ shorts (s.taking op r) (op.effect r (s.taking op r)).1 = []

/-- The answer of a request as its mailbox stores it (R52, R55). -/
def Answered (code : Nat) (r : Req) (status : Nat) (detail : Nat) (payload : Bytes) (t : State) : Prop :=
  (t.mb r.mb.val).stored = some ⟨code, status, r.tag, BitVec.ofNat 32 detail, payload⟩

/-- MSI-X vector v is sent, or pending where its table entry masks it (R42). -/
def Signalled (v : Nat) (t : State) : Prop := Emission.msix v ∈ t.emitted ∨ t.hcp.pba.getLsbD v = true

/-- Notice e of mailbox m is written: its slot keeps no log entry, or its own entry waits no more, and the log has lost no
other entry than the one that a returned slot evicts (R58, R60). -/
def Unpinned (m : Nat) (e : Entry) (s t : State) : Prop :=
  match e.slot with
  | some n => (∀ x ∈ t.hcp.log, x.mb = m → x.pinSlot ≠ some n) ∧ s.hcp.log.length ≤ t.hcp.log.length + 1
  | none => (∀ x ∈ t.hcp.log, x.mb = m → x.hubSeq = e.hubSeq → x.pinWait = false) ∧ t.hcp.log.length = s.hcp.log.length

/-- The partial datagrams but one. -/
def State.partialsBut (s : State) (src : Bytes) (id : Nat) : List Partial :=
  s.hcp.partials.filter fun p => !(p.src == src && p.id == id)

/-- `p` is what a fragment makes of its datagram: the partial held, or a new one where fewer than eight are held, with the
fragment behind it (R44). -/
def State.PartialWith (s : State) (src : Bytes) (id offset : Nat) (more : Bool) (data : Bytes) (p : Partial) : Prop :=
  ∃ q : Partial, p = { q with parts := q.parts ++ [(offset, more, data)] } ∧
    (s.hcp.partials.find? (fun x => x.src == src && x.id == id) = some q ∨
      s.hcp.partials.find? (fun x => x.src == src && x.id == id) = none ∧ s.hcp.partials.length < 8 ∧ q = ⟨src, id, [], s.tick⟩)

/-- A request is answered DONE, and the hub is as before but for the request's own mailbox: what a command that only reads
does. -/
def Reports (i : Instr) (code : Nat) (r : Req) (s : State) (payload : Bytes) : Prop :=
  Gives i s [.hcp] fun t =>
    Answered code r 0 0 payload t ∧ t.hcp.log = s.hcp.log ∧ ∀ m, m ≠ r.mb.val → t.mb m = s.mb m

/-- The mailbox of a job is open and the firmware runs: its completion notice is generated at once (R58). Mailbox 8, whose
notices need a peer, is apart. -/
def State.hears (s : State) (j : JobRef) : Prop := s.fwRuns = true ∧ (s.mb j.mb).session = .opened ∧ j.mb ≠ 8

/-- The completion notice of a job has entered the notice log, with its status, detail and payload (R58). -/
def Told (j : JobRef) (status detail : Nat) (payload : Bytes) (s t : State) : Prop :=
  ∃ x ∈ t.hcp.log, x.mb = j.mb ∧ x.hubSeq = (s.mb j.mb).hubSeq ∧ x.pinSlot = some j.slot ∧
    x.frame = rspFrame (s.mb j.mb).version false 0xFFFFFFFF (s.mb j.mb).hubSeq j.opcode status j.tag detail payload

/-- The completion notice of a job has entered the notice log with its status and detail (R58), behind notices that the same command
may have generated before it. -/
def Completed (j : JobRef) (status detail : Nat) (s t : State) : Prop :=
  ∃ x ∈ t.hcp.log, x.mb = j.mb ∧ x.pinSlot = some j.slot ∧ ∃ payload,
    x.frame = rspFrame (s.mb j.mb).version false 0xFFFFFFFF x.hubSeq j.opcode status j.tag detail payload

/-- The auxiliary entries of a received frame of link n with `count` samples per converter (R175, R177). -/
def State.frameAux (s : State) (n : Nat) (f : BglFrame) (count : Nat) : List (Nat × Int × Nat) :=
  let b := s.bglIn n
  let p := framePayload (s.bgl n).width (blocksPerFrame (s.bgl n).rate) f
  let es := (p.drop (2 * b.m * count)).take (p.length - 4 - 2 * b.m * count)
  auxOf b f.arrival (auxEntries (es.length / 8) es)

/-- The job that a request's acceptance makes (R58). -/
def State.jobOf (s : State) (op : Op) (r : Req) : JobRef :=
  ⟨r.mb.val, r.hostSeq, op.code, r.tag, (s.taking op r).freeSlot r.mb.val⟩

/-! ## Resets and the loss of a rail -/

/-- All that a chip reset or the loss of a rail may change: the tick, the free values and the queue stay. -/
def wholeHub : List Part :=
  [.chip, .boot, .hcp, .ports, .time, .cal, .xfer, .lanes, .bgls, .dclks, .srefs, .jesds, .bglIns, .scps, .channels, .pipes, .profiles,
   .ledger, .cap, .comp, .strm, .upl, .flt, .island]

/-- The objects of the core region are at their reset values (Table BOOT-2). -/
structure CoreCleared (t : State) : Prop where
  hcp : t.hcp = { msixTable := t.hcp.msixTable, pba := t.hcp.pba, captured := t.hcp.captured, capturedQ := t.hcp.capturedQ }
  cal : t.cal = {}
  lanes : t.lanes = []
  bgls : t.bgls = []
  dclks : t.dclks = []
  srefs : t.srefs = []
  jesds : t.jesds = []
  bglIns : t.bglIns = []
  scps : t.scps = []
  channels : t.channels = []
  pipes : t.pipes = []
  profiles : t.profiles = []
  ledger : t.ledger = {}
  comp : t.comp = {}
  upl : t.upl = {}

/-- What Hub Time is after a reset of the core region: it runs on, LOCKED becomes HOLDOVER, the trigger inputs' stamps are
lost (Tables TIME-4 and TIME-5). -/
def TimeSt.held (x : TimeSt) : TimeSt :=
  { x with
    quality := if x.quality = .locked then .holdover else x.quality
    lease := if x.quality = .locked then 0 else x.lease
    trig := x.trig.map fun i => (i.1, { i.2 with fifo := [] }) }

/-- A chip reset has begun in state `s` (Table BOOT-2, R414). -/
structure ChipReset (s t : State) : Prop where
  core : CoreCleared t
  time : t.time = s.time.held
  phase : t.chip.phase = .reset
  since : t.chip.resetTick = s.tick
  owed : t.chip.owedHoldover = (s.chip.owedHoldover || s.time.quality == .locked)
  stopped : t.chip.fwRunning = false
  straps : t.chip.straps = s.chip.straps
  testMode : t.chip.testMode = s.chip.testMode
  tries : t.boot.tries = s.boot.tries
  flash : t.boot.dir0 = s.boot.dir0 ∧ t.boot.dir1 = s.boot.dir1 ∧ t.boot.cfg0 = s.boot.cfg0 ∧ t.boot.cfg1 = s.boot.cfg1 ∧
    t.boot.slotA = s.boot.slotA ∧ t.boot.slotB = s.boot.slotB ∧ t.boot.secVersion = s.boot.secVersion
  lost : t.boot.loaded = false ∧ t.boot.unlocked = false ∧ t.boot.quiet = [] ∧ t.boot.unit3 = none ∧ t.boot.calib = none
  role : t.xfer.roleCfg = s.xfer.roleCfg ∧ t.xfer.roleAct = .host ∧ t.xfer.servo = .idle
  blocks : t.flt.blocks = []
  memory : t.cap.memory = s.cap.memory
  sequences : t.strm = { seqs := s.strm.seqs }

end Sys2Proof.Machine
end

