-- ==== Sys2Proof/Certificates/Slice0/Obligations.lean ====
section
/-! DEFINITION. The statements for the provers. Every one is about `exec` or `step`; `Gives i s changed post` says that
`exec i s` answers a next state in which every part of the state but those listed is as before and `post` holds; the
hypotheses speak of the state and the operands alone. The invariant `s.Inv` and the canonical form of tables are
hypotheses where a statement would fail only in states that no run reaches. -/

open Sys2Proof Sys2Proof.Machine

/-! ## Mailboxes (02_mailboxes) -/

/-- The session registers (parts of R40, R41, R42): opening, closing, pausing, resuming, the interrupt enable, with BAR0
reachable. A mailbox that is not enabled opens with the indices 0 and a fresh sequence state, PAUSED where PAUSE is
1 or a base is 0. PAUSE cleared while a base is 0 leaves the session PAUSED and sets RING_ERR (R40). -/
def Obligations.SessionRegistersActAsWritten : Prop :=
  (∀ (s : State) (m : Fin 8) (v2 pause irqEn : Bool), s.Inv → s.barUp = true → (s.mb m).enable = false →
    Gives (.mbSessionOpen m v2 pause irqEn) s [.hcp] fun t => t.hcp = { s.hcp with
      pba := t.hcp.pba
      mbs := tset {} s.hcp.mbs m { s.mb m with
        enable := true, v2 := v2, pause := pause, irqEn := irqEn, version2 := v2
        session := if pause = true ∨ (s.mb m).reqBase = 0 ∨ (s.mb m).rspBase = 0 then .paused else .opened
        seqSet := false, reqPi := 0, reqCi := 0, rspPi := 0, rspCi := 0, lastSeq := 0xFFFFFFFF, lastCrc := 0
        stored := none, mask := if m = 0 then 0x3FFE else 0, waiting := [] } }) ∧
  (∀ (s : State) (m : Fin 8) (v2 irqEn : Bool), s.Inv → s.barUp = true → (s.mb m).enable = true →
      (s.mb m).session = .opened →
    Gives (.mbSessionOpen m v2 true irqEn) s [.hcp] fun t => t.mb m = { s.mb m with
      irqEn := irqEn, pause := true, session := .paused }) ∧
  (∀ (s : State) (m : Fin 8), s.Inv → s.barUp = true → (s.mb m).enable = true →
    Gives (.mbSessionClose m) s [.hcp] fun t =>
      (t.mb m).enable = false ∧ (t.mb m).session = .closed ∧ (t.mb m).waiting = [] ∧
      (t.mb m).hubSeq = (s.mb m).hubSeq ∧ (t.mb m).reqBase = (s.mb m).reqBase ∧ (t.mb m).rspBase = (s.mb m).rspBase ∧
      (∀ k, k ≠ m.val → t.mb k = s.mb k) ∧
      t.hcp = { s.hcp with pba := t.hcp.pba, mbs := t.hcp.mbs, log := t.hcp.log }) ∧
  (∀ (s : State) (m : Fin 8), s.Inv → s.barUp = true → (s.mb m).session = .opened →
    Gives (.mbPauseSet m) s [.hcp] fun t => t.hcp = { s.hcp with
      pba := t.hcp.pba, mbs := tset {} s.hcp.mbs m { s.mb m with pause := true, session := .paused } }) ∧
  (∀ (s : State) (m : Fin 8), s.Inv → s.barUp = true → (s.mb m).session = .paused → (s.mb m).reqBase ≠ 0 →
      (s.mb m).rspBase ≠ 0 →
    Gives (.mbPauseClear m) s [.hcp] fun t =>
      t.mb m = { s.mb m with pause := false, session := .opened } ∧ (∀ k, k ≠ m.val → t.mb k = s.mb k) ∧
      t.hcp = { s.hcp with pba := t.hcp.pba, mbs := t.hcp.mbs }) ∧
  (∀ (s : State) (m : Fin 8) (en : Bool), s.Inv → s.barUp = true →
    Gives (.mbIrqEnWrite m en) s [.hcp] fun t => t.hcp = { s.hcp with
      pba := t.hcp.pba, mbs := tset {} s.hcp.mbs m { s.mb m with irqEn := en } }) ∧
  (∀ (s : State) (m : Fin 8), s.Inv → s.barUp = true → (s.mb m).session = .paused →
      ((s.mb m).reqBase = 0 ∨ (s.mb m).rspBase = 0) → Quietly 16 2 m.val s →
    Gives (.mbPauseClear m) s [.hcp, .flt] fun t =>
      (t.mb m).ringErr = true ∧ (t.mb m).session = .paused ∧ Noted 16 2 m.val s t)

/-- The ring registers (parts of R37, R38, R41): a base in PAUSED resets the four indices, a base in CLOSED does not;
the doorbell and RSP_CI take a value within the ring; RING_ERR is cleared by its own write; a REQ_PI more than 64
ahead of REQ_CI, or an RSP_CI outside the ring's filled part, is ignored and sets RING_ERR. -/
def Obligations.RingRegistersTakeValuesInRange : Prop :=
  (∀ (s : State) (m : Fin 8) (rsp : Bool) (addr : W64), s.Inv → s.barUp = true → (s.mb m).session = .closed →
    Gives (.ringBaseWrite m rsp addr) s [.hcp] fun t => t.hcp = { s.hcp with
      pba := t.hcp.pba
      mbs := tset {} s.hcp.mbs m (if rsp then { s.mb m with rspBase := addr &&& 0xFFFFFFFFFFFFF000#64 }
        else { s.mb m with reqBase := addr &&& 0xFFFFFFFFFFFFF000#64 }) }) ∧
  (∀ (s : State) (m : Fin 8) (addr : W64), s.Inv → s.barUp = true → (s.mb m).session = .paused →
    Gives (.ringBaseWrite m false addr) s [.hcp] fun t => t.hcp = { s.hcp with
      pba := t.hcp.pba
      mbs := tset {} s.hcp.mbs m { s.mb m with
        reqBase := addr &&& 0xFFFFFFFFFFFFF000#64, reqPi := 0, reqCi := 0, rspPi := 0, rspCi := 0 } }) ∧
  (∀ (s : State) (m : Fin 8) (v : W16), s.Inv → s.barUp = true → (v - (s.mb m).reqCi).toNat ≤ 64 →
    Gives (.reqPiDoorbell m v) s [.hcp] fun t => t.hcp = { s.hcp with
      pba := t.hcp.pba, mbs := tset {} s.hcp.mbs m { s.mb m with reqPi := v } }) ∧
  (∀ (s : State) (m : Fin 8) (v : W16), s.Inv → s.barUp = true →
      (v - (s.mb m).rspCi).toNat ≤ ((s.mb m).rspPi - (s.mb m).rspCi).toNat →
    Gives (.rspCiWrite m v) s [.hcp] fun t => t.hcp = { s.hcp with
      pba := t.hcp.pba, mbs := tset {} s.hcp.mbs m { s.mb m with rspCi := v } }) ∧
  (∀ (s : State) (m : Fin 8), s.Inv → s.barUp = true →
    Gives (.ringErrClear m) s [.hcp] fun t => t.hcp = { s.hcp with
      pba := t.hcp.pba, mbs := tset {} s.hcp.mbs m { s.mb m with ringErr := false } }) ∧
  (∀ (s : State) (m : Fin 8) (v : W16), s.Inv → s.barUp = true → 64 < (v - (s.mb m).reqCi).toNat → Quietly 16 2 m.val s →
    Gives (.reqPiDoorbell m v) s [.hcp, .flt] fun t =>
      (t.mb m).ringErr = true ∧ (t.mb m).reqPi = (s.mb m).reqPi ∧ Noted 16 2 m.val s t) ∧
  (∀ (s : State) (m : Fin 8) (v : W16), s.Inv → s.barUp = true →
      ((s.mb m).rspPi - (s.mb m).rspCi).toNat < (v - (s.mb m).rspCi).toNat → Quietly 16 2 m.val s →
    Gives (.rspCiWrite m v) s [.hcp, .flt] fun t =>
      (t.mb m).ringErr = true ∧ (t.mb m).rspCi = (s.mb m).rspCi ∧ Noted 16 2 m.val s t)

/-- Writing entries (parts of R39, R42, R45, R47, R58), with no SYS_RESET owed: the front entry of a mailbox's queue leaves
it, and the rest of the queue stays in order. In an open ring with room, a response or a notice goes to host memory at
RSP_PI, which rises by one, and vector m is sent, or pending, where IRQ_EN is 1; of mailbox 8, a response goes as a datagram to
the source of its request and a notice to the peer; of mailbox 9, either fills the response buffer and sets RSP_READY. A
notice with a notification slot returns it, and no log entry keeps that slot; a notice without one leaves no entry of its
number that waits. A NOTICES_LOST that is owed is generated once the log has room, with the lost-notice counter (the model's
choice, log entry 93). -/
def Obligations.EntriesLeaveTheirQueueInOrder : Prop :=
  (∀ (s : State) (m : Fin 10) (e : Entry) (rest : List Entry), s.Inv → m.val < 8 → s.answers = true → e.isNotice = false →
      e.slot = none → s.chip.sysResetOwed = false → s.chip.pcieUp = true → (s.mb m).session = .opened →
      (s.mb m).waiting = e :: rest → ((s.mb m).rspPi - (s.mb m).rspCi).toNat < 64 →
    Gives (.responseWrite m) s [.hcp] fun t =>
      t.mb m = { s.mb m with rspPi := (s.mb m).rspPi + 1, waiting := rest } ∧ (∀ k, k ≠ m.val → t.mb k = s.mb k) ∧
      t.hcp.log = s.hcp.log ∧ Emission.ringWrite m ((s.mb m).rspPi.toNat % 64) e.frame ∈ t.emitted ∧
      ((s.mb m).irqEn = true → Signalled m t)) ∧
  (∀ (s : State) (e : Entry) (rest : List Entry) (a : Bytes) (p : Nat), s.Inv → s.answers = true → e.isNotice = false →
      e.slot = none → s.chip.sysResetOwed = false → (s.mb 8).waiting = e :: rest →
      s.hcp.replyTo.or s.hcp.peer = some (a, p) → e.frame.length ≤ 4096 →
    Gives (.responseWrite 8) s [.hcp, .free] fun t =>
      t.hcp = { s.hcp with pba := t.hcp.pba, mbs := tset {} s.hcp.mbs 8 { s.mb 8 with waiting := rest } } ∧
      ∃ parts c, Emission.datagram a p parts ∈ t.emitted ∧ parts.flatten = udpDatagram p c e.frame) ∧
  (∀ (s : State) (e : Entry) (rest : List Entry), s.Inv → s.answers = true → e.isNotice = false → e.slot = none →
      s.chip.sysResetOwed = false → (s.mb 9).waiting = e :: rest → s.hcp.spiReady = false →
    Gives (.responseWrite 9) s [.hcp, .ports] fun t => t.hcp = { s.hcp with
      pba := t.hcp.pba, spiReady := true, spiRsp := memWrite [] 0 e.frame
      mbs := tset {} s.hcp.mbs 9 { s.mb 9 with waiting := rest } }) ∧
  (∀ (s : State) (m : Fin 10) (e : Entry) (rest : List Entry), s.Inv → m.val < 8 → s.serves = true →
      e.isNotice = true → s.chip.pcieUp = true → (s.mb m).session = .opened → (s.mb m).waiting = e :: rest →
      ((s.mb m).rspPi - (s.mb m).rspCi).toNat < 64 →
    Gives (.noticeWrite m) s [.hcp] fun t =>
      t.mb m = { s.mb m with
        rspPi := (s.mb m).rspPi + 1, waiting := rest, slots := (s.mb m).slots.filter fun n => e.slot ≠ some n } ∧
      (∀ k, k ≠ m.val → t.mb k = s.mb k) ∧ Unpinned m e s t ∧
      Emission.ringWrite m ((s.mb m).rspPi.toNat % 64) e.frame ∈ t.emitted ∧ ((s.mb m).irqEn = true → Signalled m t)) ∧
  (∀ (s : State) (e : Entry) (rest : List Entry) (a : Bytes) (p : Nat), s.Inv → s.serves = true → e.isNotice = true →
      (s.mb 8).waiting = e :: rest → s.hcp.peer = some (a, p) → e.frame.length ≤ 4096 →
    Gives (.noticeWrite 8) s [.hcp, .free] fun t =>
      t.mb 8 = { s.mb 8 with waiting := rest, slots := (s.mb 8).slots.filter fun n => e.slot ≠ some n } ∧
      (∀ k, k ≠ 8 → t.mb k = s.mb k) ∧ Unpinned 8 e s t ∧
      ∃ parts c, Emission.datagram a p parts ∈ t.emitted ∧ parts.flatten = udpDatagram p c e.frame) ∧
  (∀ (s : State) (e : Entry) (rest : List Entry), s.Inv → s.serves = true → e.isNotice = true →
      (s.mb 9).waiting = e :: rest → s.hcp.spiReady = false →
    Gives (.noticeWrite 9) s [.hcp, .ports] fun t =>
      t.mb 9 = { s.mb 9 with waiting := rest, slots := (s.mb 9).slots.filter fun n => e.slot ≠ some n } ∧
      (∀ k, k ≠ 9 → t.mb k = s.mb k) ∧ Unpinned 9 e s t ∧
      t.hcp.ports = { s.hcp with spiReady := true, spiRsp := memWrite [] 0 e.frame }.ports) ∧
  (∀ (s : State) (m : Fin 10), s.Inv → (s.mb m).lostOwed = true → s.fwRuns = true → logRoom s.hcp.log = true →
    Gives (.noticesLost m) s [.hcp] fun t =>
      let frame := rspFrame (s.mb m).version false 0xFFFFFFFF (s.mb m).hubSeq 0x0180 0 0 0 (le 4 (s.mb m).lost.toNat)
      t.mb m = { s.mb m with
        lostOwed := false, hubSeq := (s.mb m).hubSeq + 1
        waiting := (s.mb m).waiting ++ (if s.deliverable m then [{
          isNotice := true, hubSeq := (s.mb m).hubSeq, frame := frame }] else []) } ∧
      (∀ k, k ≠ m.val → t.mb k = s.mb k) ∧
      t.hcp.log.getLast? = some ⟨m, (s.mb m).hubSeq, frame, none, s.deliverable m⟩)

/-- Management Ethernet (parts of R43, R44), with mailbox 8 open and the core region out of reset: a datagram to the hub's
management address, VLAN and port whose UDP length fits its frame waits for mailbox 8; one whose length does not is counted and
MGMT_ERROR is noted; one to another address, VLAN or port changes nothing. A fragment joins its partial datagram, of at most
eight; the one that completes a datagram of one frame to the port queues it, and one that lies beyond 4,104 bytes ends it;
the first fragment of a ninth datagram is not held. A partial datagram goes 1 s after its first fragment. -/
def Obligations.DatagramsAreTakenCountedOrDropped : Prop :=
  (∀ (s : State) (h : MgmtHead) (sport : Nat) (data : Bytes), s.Inv → s.awake = true → s.mbOpen 8 = true →
      s.mgmtMine h = true → 32 ≤ data.length → data.length = 32 + getU data 0xA 2 →
    Gives (.mgmtDatagramRx h ⟨sport, 47104⟩ (8 + data.length) data) s [.hcp] fun t => t.hcp = { s.hcp with
      pba := t.hcp.pba, mgmtQueue := s.hcp.mgmtQueue ++ [(h.src, sport, data)] }) ∧
  (∀ (s : State) (h : MgmtHead) (sport udpLen : Nat) (data : Bytes), s.Inv → s.awake = true → s.mbOpen 8 = true →
      s.mgmtMine h = true → udpLen ≠ 40 + getU data 0xA 2 → Quietly 16 3 17 s →
    Gives (.mgmtDatagramRx h ⟨sport, 47104⟩ udpLen data) s [.hcp, .ports, .flt] fun t =>
      Noted 16 3 17 s t ∧ t.hcp.ports = { s.hcp with mgmtErrors := s.hcp.mgmtErrors + 1 }.ports ∧
      t.hcp.mgmtQueue = s.hcp.mgmtQueue) ∧
  (∀ (s : State) (h : MgmtHead) (ports : UdpPorts) (udpLen : Nat) (data : Bytes), s.Inv →
      (s.mgmtMine h = false ∨ ports.dport ≠ 47104) →
    Gives (.mgmtDatagramRx h ports udpLen data) s [] fun _ => True) ∧
  (∀ (s : State) (h : MgmtHead) (id offset : Nat) (more : Bool) (data : Bytes) (p : Partial), s.Inv → s.awake = true →
      s.mbOpen 8 = true → s.mgmtMine h = true → s.PartialWith h.src id offset more data p →
      offset + data.length ≤ 4104 → p.total = none →
    Gives (.mgmtFragmentRx h id offset more data) s [.ports] fun t => t.hcp = { s.hcp with
      pba := t.hcp.pba, partials := s.partialsBut h.src id ++ [p] }) ∧
  (∀ (s : State) (h : MgmtHead) (id offset : Nat) (more : Bool) (data : Bytes) (p : Partial) (n : Nat), s.Inv →
      s.awake = true → s.mbOpen 8 = true → s.mgmtMine h = true → s.PartialWith h.src id offset more data p →
      offset + data.length ≤ 4104 → p.total = some n → ofBe (sub (p.bytes n) 2 2) = 47104 → 40 ≤ n →
      n = 40 + getU (p.bytes n) 0x12 2 → ofBe (sub (p.bytes n) 4 2) = n →
    Gives (.mgmtFragmentRx h id offset more data) s [.hcp, .ports] fun t => t.hcp = { s.hcp with
      pba := t.hcp.pba, partials := s.partialsBut h.src id
      mgmtQueue := s.hcp.mgmtQueue ++ [(h.src, ofBe (sub (p.bytes n) 0 2), (p.bytes n).drop 8)] }) ∧
  (∀ (s : State) (h : MgmtHead) (id offset : Nat) (more : Bool) (data : Bytes) (p : Partial), s.Inv → s.awake = true →
      s.mbOpen 8 = true → s.mgmtMine h = true → s.PartialWith h.src id offset more data p →
      4104 < offset + data.length →
    Gives (.mgmtFragmentRx h id offset more data) s [.ports] fun t => t.hcp = { s.hcp with
      pba := t.hcp.pba, partials := s.partialsBut h.src id }) ∧
  (∀ (s : State) (h : MgmtHead) (id offset : Nat) (more : Bool) (data : Bytes), s.Inv → s.awake = true →
      s.mbOpen 8 = true → 8 ≤ s.hcp.partials.length → (∀ p ∈ s.hcp.partials, ¬ (p.src = h.src ∧ p.id = id)) →
    Gives (.mgmtFragmentRx h id offset more data) s [] fun _ => True) ∧
  (∀ (s : State) (src : Bytes) (id : Nat), s.Inv →
      (∃ p ∈ s.hcp.partials, p.src = src ∧ p.id = id ∧ p.since + 1000000000 ≤ s.tick) →
    Gives (.mgmtFragmentTimeout src id) s [.ports] fun t => t.hcp = { s.hcp with
      pba := t.hcp.pba, partials := s.partialsBut src id })

/-- The SPI management port (parts of R46, R47), with the core region out of reset: bytes written inside the request buffer
land there; a read behind the Hub Time bytes of the last-breath window returns the mirror's bytes in every state but OFF, and
one that takes in byte 0x020 captures Hub Time and its quality first; GO is set, RSP_READY cleared; the session opens with
no number taken, and its closing drops what waits. -/
def Obligations.SpiPortActsAsItsRegistersSay : Prop :=
  (∀ (s : State) (k : Nat) (data : Bytes), s.Inv → s.awake = true → k + data.length ≤ 4096 →
    Gives (.spiTransaction true (BitVec.ofNat 24 (0x1000 + k)) data.length data) s [.ports] fun t => t.hcp = { s.hcp with
      pba := t.hcp.pba, spiReq := memWrite s.hcp.spiReq k data }) ∧
  (∀ (s : State) (a n : Nat), s.Inv → s.chip.phase ≠ .off → 0x24 ≤ a → a + n ≤ 0x1000 →
    Gives (.spiTransaction false (BitVec.ofNat 24 a) n []) s [] fun t =>
      Emission.spiRead ((List.range n).map fun i => s.lastBreath.getD (a + i) 0) ∈ t.emitted) ∧
  (∀ (s : State) (a n : Nat), s.Inv → s.chip.phase ≠ .off → a ≤ 0x20 → 0x20 < a + n → a + n ≤ 0x1000 →
    Gives (.spiTransaction false (BitVec.ofNat 24 a) n []) s [.ports] fun t =>
      t.hcp = { s.captureTime.hcp with pba := t.hcp.pba } ∧
      Emission.spiRead ((List.range n).map fun i => s.captureTime.lastBreath.getD (a + i) 0) ∈ t.emitted) ∧
  (∀ (s : State), s.Inv → s.awake = true →
    Gives .spiMbGo s [.ports] fun t => t.hcp = { s.hcp with pba := t.hcp.pba, spiGo := true }) ∧
  (∀ (s : State), s.Inv → s.awake = true →
    Gives .spiRspReadyClear s [.ports] fun t => t.hcp = { s.hcp with pba := t.hcp.pba, spiReady := false }) ∧
  (∀ (s : State), s.Inv → s.awake = true → (s.mb 9).enable = false →
    Gives .spiMbOpen s [.hcp] fun t => t.hcp = { s.hcp with
      pba := t.hcp.pba
      mbs := tset {} s.hcp.mbs 9 { s.mb 9 with
        enable := true, v2 := false, pause := false, irqEn := false, version2 := false, session := .opened
        seqSet := false, reqPi := 0, reqCi := 0, rspPi := 0, rspCi := 0, lastSeq := 0xFFFFFFFF, lastCrc := 0
        stored := none, mask := 0, waiting := [] } }) ∧
  (∀ (s : State), s.Inv → s.awake = true → (s.mb 9).enable = true →
    Gives .spiMbClose s [.hcp] fun t =>
      (t.mb 9).enable = false ∧ (t.mb 9).session = .closed ∧ (t.mb 9).waiting = [] ∧ (t.mb 9).hubSeq = (s.mb 9).hubSeq ∧
      (∀ k, k ≠ 9 → t.mb k = s.mb k) ∧ (∀ x ∈ t.hcp.log, x.mb = 9 → x.pinWait = false) ∧
      t.hcp = { s.hcp with pba := t.hcp.pba, mbs := t.hcp.mbs, log := t.hcp.log })

/-- Register accesses over PCI Express (parts of R37, R67, R68): an aligned 32-bit write in the MSI-X table stores its word;
a write of REQ_PI within the ring is the doorbell; an access of another width or alignment gets an unsupported-request
completion and changes nothing; a write of the push length is taken while pushes are; a byte written over SPI in the request
buffer lands there. A read in BAR0 returns its bytes, and one that takes in byte 0x020 captures Hub Time and its
quality first. -/
def Obligations.PlainRegisterAccesses : Prop :=
  (∀ (s : State) (k : Nat) (data : Bytes), s.Inv → s.barUp = true → k < 36 → data.length = 4 →
    Gives (.registerWritePlain .bar0 (0x2000 + 4 * k) (.write data)) s [.ports] fun t => t.hcp = { s.hcp with
      pba := t.hcp.pba, msixTable := memWrite s.hcp.msixTable (4 * k) data }) ∧
  (∀ (s : State) (m : Fin 8) (v : Nat), s.Inv → s.barUp = true → v < 2 ^ 16 →
      (BitVec.ofNat 16 v - (s.mb m).reqCi).toNat ≤ 64 →
    Gives (.registerWritePlain .bar0 (0x1018 + 0x100 * m) (.write (le 4 v))) s [.hcp] fun t => t.hcp = { s.hcp with
      pba := t.hcp.pba, mbs := tset {} s.hcp.mbs m { s.mb m with reqPi := BitVec.ofNat 16 v } }) ∧
  (∀ (s : State) (offset : Nat) (data : Bytes), s.Inv → s.chip.pcieUp = true →
      (data.length ≠ 4 ∧ data.length ≠ 8 ∨ offset % data.length ≠ 0) →
    Gives (.registerWritePlain .bar0 offset (.write data)) s [] fun t => Emission.unsupported offset ∈ t.emitted) ∧
  (∀ (s : State) (v : Nat), s.Inv → s.chip.pcieUp = true → s.pushSeen = true → v < 2 ^ 32 →
    Gives (.registerWritePlain .vsec 0x10 (.write (le 4 v))) s [.boot] fun t =>
      t.boot = { s.boot with pushLen := BitVec.ofNat 32 v }) ∧
  (∀ (s : State) (k : Nat) (v : Byte), s.Inv → s.awake = true → k < 4096 →
    Gives (.registerWritePlain .spi (0x1000 + k) (.write [v])) s [.ports] fun t => t.hcp = { s.hcp with
      pba := t.hcp.pba, spiReq := memSet s.hcp.spiReq k v }) ∧
  (∀ (s : State) (offset size : Nat), s.Inv → s.chip.pcieUp = true → barAccess offset size = true →
      ¬ (offset ≤ 0x20 ∧ 0x20 < offset + size) →
    Gives (.registerWritePlain .bar0 offset (.read size)) s [] fun t =>
      Emission.barRead offset ((List.range size).map fun i => barGet s (offset + i)) ∈ t.emitted) ∧
  (∀ (s : State) (offset size : Nat), s.Inv → s.chip.pcieUp = true → barAccess offset size = true →
      offset ≤ 0x20 → 0x20 < offset + size →
    Gives (.registerWritePlain .bar0 offset (.read size)) s [.ports] fun t =>
      t.hcp = { s.hcp with pba := t.hcp.pba, captured := s.now, capturedQ := s.time.quality } ∧
      Emission.barRead offset ((List.range size).map fun i => barGet s.captureTime (offset + i)) ∈ t.emitted) ∧
  (∀ (s : State) (offset size : Nat), s.Inv → s.chip.pcieUp = true → barAccess offset size = false →
    Gives (.registerWritePlain .bar0 offset (.read size)) s [] fun t => Emission.unsupported offset ∈ t.emitted) ∧
  (∀ (s : State), s.Inv → s.chip.pcieUp = true →
    Gives .timeNowCaptureRead s [.ports] fun t =>
      t.hcp = { s.hcp with pba := t.hcp.pba, captured := s.now, capturedQ := s.time.quality } ∧
      Emission.barRead 0x20 (le 4 (s.now % 65536 + qCode s.time.quality * 65536)) ∈ t.emitted)

/-- REQUEST_TAKE (parts of R29, R50, R57): the ring whose turn it is has its front request taken. A frame whose CRC-32C
does not hold is answered BAD_CRC with the CRC that the hub computed; in BOOT a sound frame is answered
REFUSED_STATE with the chip state. Either answer takes the mailbox's next hub_seq, and nothing else changes. -/
def Obligations.TakenFramesAreJudged : Prop :=
  (∀ (s : State) (m : Fin 8) (f : Bytes), s.Inv → s.answers = true → s.nextMailbox = some m.val →
      getU f 0x0A 2 % 4 = 0 → getU f 0x0A 2 ≤ 4064 → frameCrc f ≠ getU f 0x1C 4 →
    Gives (.requestTake f) s [.hcp] fun t =>
      t.mb m = { s.mb m with
        reqCi := (s.mb m).reqCi + 1, hubSeq := (s.mb m).hubSeq + 1
        waiting := (s.mb m).waiting ++ [{
          isNotice := false, hubSeq := (s.mb m).hubSeq
          frame := rspFrame (s.mb m).version false (BitVec.ofNat 32 (getU f 4 4)) (s.mb m).hubSeq (getU f 8 2) 0x0103
            (BitVec.ofNat 32 (getU f 0x0C 4)) (frameCrc f) [] }] } ∧ t.hcp.served = m ∧ (∀ k, k ≠ m.val → t.mb k = s.mb k)) ∧
  (∀ (s : State) (m : Fin 8) (f : Bytes), s.Inv → s.chip.phase = .boot → s.nextMailbox = some m.val →
      getU f 0x0A 2 % 4 = 0 → getU f 0x0A 2 ≤ 4064 → frameCrc f = getU f 0x1C 4 → getU f 0 2 = 0x4843 →
      getU f 2 1 = (s.mb m).version →
    Gives (.requestTake f) s [.hcp] fun t =>
      t.mb m = { s.mb m with
        reqCi := (s.mb m).reqCi + 1, hubSeq := (s.mb m).hubSeq + 1
        waiting := (s.mb m).waiting ++ [{
          isNotice := false, hubSeq := (s.mb m).hubSeq
          frame := rspFrame (s.mb m).version false (BitVec.ofNat 32 (getU f 4 4)) (s.mb m).hubSeq (getU f 8 2) 0x0301
            (BitVec.ofNat 32 (getU f 0x0C 4)) s.chipCode [] }] } ∧ t.hcp.served = m ∧ (∀ k, k ≠ m.val → t.mb k = s.mb k))

/-- R55, on every mailbox: a request whose host_seq and crc both equal those of the last accepted request is not
executed again: the stored response, ACCEPTED or any other, goes out with REPLAY set and the next hub_seq. A request
that repeats the host_seq with another crc is answered SEQ_GAP with the host_seq that is expected. Nothing else
changes. `slot` is the ring slot that the hub reads; `f` is the request taken, from the ring, the datagram queue or
the SPI buffer; `u` is the hub that has taken it. -/
def Obligations.ARepeatedRequestIsNotExecutedAgain : Prop :=
  (∀ (s : State) (m : Fin 10) (slot f : Bytes) (x : Stored), s.Inv → s.answers = true → s.chip.phase ≠ .boot →
      s.nextMailbox = some m.val → (takeFront m slot s).1 = f → firstBad (frameChecks (s.mb m) f s) = none →
      isReplay (s.mb m) f = true → (s.mb m).stored = some x →
    Gives (.requestTake slot) s [.hcp, .ports] fun t =>
      let u := (takeFront m slot s).2
      t.mb m = { u.mb m with
        hubSeq := (s.mb m).hubSeq + 1
        waiting := (s.mb m).waiting ++ [{
          isNotice := false, hubSeq := (s.mb m).hubSeq
          frame := rspFrame (s.mb m).version true (BitVec.ofNat 32 (getU f 4 4)) (s.mb m).hubSeq x.opcode x.status x.tag
            x.detail.toNat x.payload }] } ∧
      t.hcp = { u.hcp with pba := t.hcp.pba, mbs := t.hcp.mbs } ∧ (∀ k, k ≠ m.val → t.mb k = s.mb k)) ∧
  (∀ (s : State) (m : Fin 10) (slot f : Bytes), s.Inv → s.answers = true → s.chip.phase ≠ .boot →
      s.nextMailbox = some m.val → (takeFront m slot s).1 = f → firstBad (frameChecks (s.mb m) f s) = none →
      (s.mb m).seqSet = true → getU f 4 4 = (s.mb m).lastSeq.toNat → getU f 0x1C 4 ≠ (s.mb m).lastCrc.toNat →
    Gives (.requestTake slot) s [.hcp, .ports] fun t =>
      let u := (takeFront m slot s).2
      t.mb m = { u.mb m with
        hubSeq := (s.mb m).hubSeq + 1
        waiting := (s.mb m).waiting ++ [{
          isNotice := false, hubSeq := (s.mb m).hubSeq
          frame := rspFrame (s.mb m).version false (BitVec.ofNat 32 (getU f 4 4)) (s.mb m).hubSeq (getU f 8 2) 0x0200
            (BitVec.ofNat 32 (getU f 0x0C 4)) (seqAfter (s.mb m).lastSeq).toNat [] }] } ∧
      t.hcp = { u.hcp with pba := t.hcp.pba, mbs := t.hcp.mbs } ∧ (∀ k, k ≠ m.val → t.mb k = s.mb k))

/-- The session opcodes (parts of R61, R62; Tables HCP-13 and HCP-14): SESSION_INFO reports the mailbox, NOTICE_FETCH
its notices in the log, NOTICE_SUBSCRIBE writes the subscription mask. `u` is the mailbox after the request has been
accepted. -/
def Obligations.SessionOpcodesReportAndSubscribe : Prop :=
  (∀ (s : State) (r : Req), Accepted opSessionInfo r s →
    Reports (.sessionInfo r) 0x0101 r s (
      let u := (s.taking opSessionInfo r).mb r.mb.val
      let next := u.hubSeq + 1
      let oldest := match (s.taking opSessionInfo r).logged r.mb.val with
        | e :: _ => e.hubSeq
        | [] => next
      le 4 r.hostSeq.toNat ++ le 4 next.toNat ++ le 4 oldest.toNat ++ le 2 u.slots.length
        ++ le 2 (u.waiting.filter (·.isNotice)).length ++ le 4 u.lost.toNat ++ le 2 u.mask.toNat ++ le 1 u.version
        ++ le 1 r.mb.val)) ∧
  (∀ (s : State) (r : Req), Accepted opNoticeFetch r s → s.logged r.mb.val = [] →
      r.u32 0 = (((s.taking opNoticeFetch r).mb r.mb.val).hubSeq + 1).toNat →
    Reports (.noticeFetch r) 0x0102 r s (le 2 0 ++ zeros 2 ++ le 4 (r.u32 0))) ∧
  (∀ (s : State) (r : Req), Accepted opNoticeSubscribe r s → r.u16 0 ≠ 0 →
    Gives (.noticeSubscribe r) s [.hcp] fun t =>
      (t.mb r.mb.val).mask = BitVec.ofNat 16 (r.u16 0) ∧ Answered 0x0103 r 0 0 [] t)

/-! ## Hub Time and the event calendar (03_hub_time) -/

/-- R71: one TIME tick adds the effective rate word to Hub Time. With T the time in units of 2^-40 ns, a tick takes T to
T plus the rate word, modulo 2^48 seconds; the three fields stay in their ranges, so that every carry is as the rule
says. -/
def Obligations.TickAddsTheEffectiveRateWord : Prop :=
  ∀ x : TimeSt, x.ok →
    x.tick.ok ∧
    ((x.tick.sec * 1000000000 + x.tick.ns) * 2 ^ 40 + x.tick.frac40) % (2 ^ 48 * 1000000000 * 2 ^ 40)
      = ((x.sec * 1000000000 + x.ns) * 2 ^ 40 + x.frac40 + x.rateEff.toNat) % (2 ^ 48 * 1000000000 * 2 ^ 40)

/-- The rate word (parts of R74, R75, R114): a write within 549,755,813 units of 0x0100_0000_0000 becomes the target, and the
ticks of the slew count from it, where no lane is time-locked or the target is within 109,951,162 units; a target outside those
while a lane is time-locked is pulled in to the bound, and the servo says so; a write beyond 549,755,813 units is ignored and
sets RATE_RANGE. A write for a time at least 10 us ahead becomes a rate-change entry of the firmware's reserve while that has
room. On every hundredth tick from the write the effective word moves one unit towards the target. -/
def Obligations.RateWordIsTakenInRangeAndSlewed : Prop :=
  (∀ (s : State) (w : W48), s.Inv → s.fwRuns = true →
      2 ^ 40 ≤ w.toNat + 549755813 → w.toNat ≤ 2 ^ 40 + 549755813 →
      (s.anyTimeLocked = false ∨ 2 ^ 40 ≤ w.toNat + 109951162 ∧ w.toNat ≤ 2 ^ 40 + 109951162) →
    Gives (.rateWordWrite ⟨w, none⟩) s [.time] fun t => t.time = { s.time with rateTarget := w, slewTicks := 0 }) ∧
  (∀ (s : State) (w : W48), s.Inv → s.fwRuns = true → s.anyTimeLocked = true →
      2 ^ 40 + 109951162 < w.toNat → w.toNat ≤ 2 ^ 40 + 549755813 →
    Gives (.rateWordWrite ⟨w, none⟩) s [.time, .xfer] fun t =>
      t.time = { s.time with rateTarget := BitVec.ofNat 48 (2 ^ 40 + 109951162), slewTicks := 0 } ∧
      t.xfer = { s.xfer with clamped := true }) ∧
  (∀ (s : State) (w : W48), s.Inv → s.fwRuns = true → s.anyTimeLocked = true →
      2 ^ 40 ≤ w.toNat + 549755813 → w.toNat + 109951162 < 2 ^ 40 →
    Gives (.rateWordWrite ⟨w, none⟩) s [.time, .xfer] fun t =>
      t.time = { s.time with rateTarget := BitVec.ofNat 48 (2 ^ 40 - 109951162), slewTicks := 0 } ∧
      t.xfer = { s.xfer with clamped := true }) ∧
  (∀ (s : State) (w : W48), s.Inv → s.fwRuns = true → s.anyTimeLocked = false →
      (w.toNat + 549755813 < 2 ^ 40 ∨ 2 ^ 40 + 549755813 < w.toNat) → Quietly 0 0 0 s →
    Gives (.rateWordWrite ⟨w, none⟩) s [.hcp, .flt] (Noted 0 0 0 s)) ∧
  (∀ (s : State) (w : W48) (at_ : T16), s.Inv → s.fwRuns = true → nsOf s.now + 10000 ≤ nsOf at_ →
      (s.cal.entries.filter (·.fw)).length < 32 →
    Gives (.rateWordWrite ⟨w, some at_⟩) s [.cal] fun t => t.cal = { s.cal with
      entries := s.cal.entries ++ [{
        time := at_, cls := 1, ins := s.cal.nextIns, action := .rateChange w, fw := true }]
      nextIns := s.cal.nextIns + 1 }) ∧
  (∀ (s : State), s.Inv → 100 ≤ s.time.slewTicks →
    Gives .rateSlewStep s [.time] fun t => t.time = { s.time with
      slewTicks := s.time.slewTicks - 100
      rateEff := if s.time.rateEff.toNat < s.time.rateTarget.toNat then s.time.rateEff + 1
        else if s.time.rateTarget.toNat < s.time.rateEff.toNat then s.time.rateEff - 1 else s.time.rateEff })

/-- The changes of time quality (parts of R82, R117, Table TIME-4): the running firmware's writes of FREE to LOCKED and HOLDOVER
to LOCKED outside HOST role, of LOCKED to HOLDOVER and of HOLDOVER to FREE are taken; a write of LOCKED in HOST role changes
nothing; every other write sets its fault source. A lease renewed in LOCKED is 1.5 s again, elsewhere the same source is
set; a lease that has counted down takes LOCKED to HOLDOVER and sets the source of its own. -/
def Obligations.TimeQualityChangesAsTheTableSays : Prop :=
  (∀ (s : State) (q : Quality), s.Inv → s.fwRuns = true → s.xfer.roleAct ≠ .host →
      (s.time.quality = .free ∧ q = .locked ∨ s.time.quality = .holdover ∧ q = .locked) →
    Gives (.timeQualityWrite q) s [.time] fun t =>
      t.time = { s.time with quality := .locked, lease := 1500000000 }) ∧
  (∀ (s : State), s.Inv → s.fwRuns = true → s.time.quality = .locked →
    Gives (.timeQualityWrite .holdover) s [.time] fun t => t.time = { s.time with quality := .holdover, lease := 0 }) ∧
  (∀ (s : State), s.Inv → s.fwRuns = true → s.time.quality = .holdover →
    Gives (.timeQualityWrite .free) s [.time] fun t => t.time = { s.time with quality := .free }) ∧
  (∀ (s : State) (q : Quality), s.Inv → s.fwRuns = true → (s.xfer.roleAct ≠ .host ∨ q ≠ .locked) → Quietly 0 1 0 s →
      (s.time.quality = .unset ∨ q = .unset ∨ s.time.quality = q ∨ s.time.quality = .free ∧ q = .holdover
        ∨ s.time.quality = .locked ∧ q = .free) →
    Gives (.timeQualityWrite q) s [.hcp, .flt] (Noted 0 1 0 s)) ∧
  (∀ (s : State), s.Inv → s.xfer.roleAct = .host → Gives (.timeQualityWrite .locked) s [] fun _ => True) ∧
  (∀ (s : State), s.Inv → s.fwRuns = true → s.time.quality = .locked →
    Gives .leaseRenew s [.time] fun t => t.time = { s.time with lease := 1500000000 }) ∧
  (∀ (s : State), s.Inv → s.fwRuns = true → s.time.quality ≠ .locked → Quietly 0 1 0 s →
    Gives .leaseRenew s [.hcp, .flt] (Noted 0 1 0 s)) ∧
  (∀ (s : State), s.Inv → s.time.quality = .locked → s.time.lease = 0 → Quietly 0 2 0 s →
    Gives .leaseExpiry s [.time, .hcp, .flt] fun t =>
      t.time = { s.time with quality := .holdover, lease := 0 } ∧ Noted 0 2 0 s t)

/-- The time reference (parts of R82, R84, R88, R120), with VDD_AON there: the loss of REF, and of the time PLL's lock, sets its
flag and its fault source and takes LOCKED to HOLDOVER; a return within 10 ppm clears both flags, another changes nothing.
1.5 s without an edge of PPS_IN set PPS_LOST and its source; in station reference mode an acquiring, steering or tracking
servo then holds over. -/
def Obligations.ReferenceLossesAreHeldAndFlagged : Prop :=
  (∀ (s : State), s.Inv → s.chip.rails.aon = true → s.time.refLost = false → s.time.quality = .locked → Quietly 0 3 0 s →
    Gives .refLost s [.time, .hcp, .flt] fun t =>
      t.time = { s.time with refLost := true, quality := .holdover, lease := 0 } ∧ Noted 0 3 0 s t) ∧
  (∀ (s : State), s.Inv → s.chip.rails.aon = true → s.time.refLost = false → s.time.quality ≠ .locked → Quietly 0 3 0 s →
    Gives .refLost s [.time, .hcp, .flt] fun t => t.time = { s.time with refLost := true } ∧ Noted 0 3 0 s t) ∧
  (∀ (s : State), s.Inv → s.chip.rails.aon = true → s.time.tpllUnlock = false → s.time.quality = .locked →
      Quietly 0 4 0 s →
    Gives .tpllUnlock s [.time, .hcp, .flt] fun t =>
      t.time = { s.time with tpllUnlock := true, quality := .holdover, lease := 0 } ∧ Noted 0 4 0 s t) ∧
  (∀ (s : State), s.Inv → s.chip.rails.aon = true → s.time.tpllUnlock = false → s.time.quality ≠ .locked →
      Quietly 0 4 0 s →
    Gives .tpllUnlock s [.time, .hcp, .flt] fun t => t.time = { s.time with tpllUnlock := true } ∧ Noted 0 4 0 s t) ∧
  (∀ (s : State), s.Inv → s.chip.rails.aon = true →
    Gives (.refReturn true) s [.time] fun t => t.time = { s.time with refLost := false, tpllUnlock := false }) ∧
  (∀ (s : State), s.Inv → Gives (.refReturn false) s [] fun _ => True) ∧
  (∀ (s : State), s.Inv → s.chip.rails.aon = true → s.time.ppsLost = false → s.time.ppsTick + 1500000000 ≤ s.tick →
      (s.fwRuns = false ∨ s.xfer.network = false ∨ s.xfer.refMode ≠ 0) → Quietly 0 5 0 s →
    Gives .ppsInTimeout s [.time, .hcp, .flt] fun t => t.time = { s.time with ppsLost := true } ∧ Noted 0 5 0 s t) ∧
  (∀ (s : State), s.Inv → s.chip.rails.aon = true → s.time.ppsLost = false → s.time.ppsTick + 1500000000 ≤ s.tick →
      s.fwRuns = true → s.xfer.network = true → s.xfer.refMode = 0 →
      (s.xfer.servo = .acquire ∨ s.xfer.servo = .steer ∨ s.xfer.servo = .track) → Quietly 0 5 0 s →
    Gives .ppsInTimeout s [.time, .xfer, .hcp, .flt] fun t =>
      t.time.ppsLost = true ∧ t.xfer.servo = .holdover ∧ t.xfer.holdoverTick = s.tick ∧ Noted 0 5 0 s t)

/-- Stamps and pulses (parts of R86, R87, R88, R89, R121), with VDD_AON there: an edge of PPS_IN, at least 8 ns after the last
stamped one, is stamped at its crossing minus the skew, counted, and ends PPS_LOST; one that comes sooner is discarded and
noted. The edges in a row whose PTP second differs from Hub Time's are counted where the station reference mode has the network
servo, and the third schedules a whole-second step. A selected edge of a TRIG_IN enters its FIFO of 64 and meets the capture
windows; where the FIFO is full it is counted lost and noted. PPS_OUT marks the second boundary that the latest advance has
passed, and says whether it cuts a pulse that is still high. -/
def Obligations.EdgesAreStampedAndPulsesMarked : Prop :=
  (∀ (s : State) (falling : Bool) (x : T16) (second : Option Nat), s.Inv → s.chip.rails.aon = true →
      falling = s.time.inFalling → tooClose s.time.ppsRaw x = false →
      (second = none ∨ s.fwRuns = false ∨ s.xfer.network = false ∨ s.xfer.refMode ≠ 0
        ∨ second = some ((stampOf x s.time.inSkew + unitsPerSec / 2) / unitsPerSec)) →
    Gives (.ppsInEdge falling x second) s [.time] fun t => t.time = { s.time with
      ppsStamp := (((x : Int) - s.time.inSkew) % ((2 ^ 48 * unitsPerSec : Nat) : Int)).toNat, ppsRaw := some x
      ppsTick := s.tick, ppsCount := s.time.ppsCount + 1, ppsLost := false, secMiss := 0 }) ∧
  (∀ (s : State) (falling : Bool) (x : T16) (second : Nat), s.Inv → s.chip.rails.aon = true →
      falling = s.time.inFalling → tooClose s.time.ppsRaw x = false → s.fwRuns = true → s.xfer.network = true →
      s.xfer.refMode = 0 → second ≠ (stampOf x s.time.inSkew + unitsPerSec / 2) / unitsPerSec → s.time.secMiss + 1 ≠ 3 →
    Gives (.ppsInEdge falling x (some second)) s [.time] fun t => t.time = { s.time with
      ppsStamp := stampOf x s.time.inSkew, ppsRaw := some x
      ppsTick := s.tick, ppsCount := s.time.ppsCount + 1, ppsLost := false, secMiss := s.time.secMiss + 1 }) ∧
  (∀ (s : State) (falling : Bool) (x : T16) (second : Nat), s.Inv → s.chip.rails.aon = true →
      falling = s.time.inFalling → tooClose s.time.ppsRaw x = false → s.fwRuns = true → s.xfer.network = true →
      s.xfer.refMode = 0 → second ≠ (stampOf x s.time.inSkew + unitsPerSec / 2) / unitsPerSec → s.time.secMiss = 2 →
      (s.cal.entries.filter (·.fw)).length < 32 →
    Gives (.ppsInEdge falling x (some second)) s [.time, .cal] fun t =>
      t.time = { s.time with
        ppsStamp := stampOf x s.time.inSkew, ppsRaw := some x
        ppsTick := s.tick, ppsCount := s.time.ppsCount + 1, ppsLost := false, secMiss := 0 } ∧
      t.cal = { s.cal with
        entries := s.cal.entries ++ [{
          time := s.nextSecond, cls := 1, ins := s.cal.nextIns, fw := true
          action := .offsetStep (((second : Int) - (((stampOf x s.time.inSkew + unitsPerSec / 2) / unitsPerSec : Nat) : Int))
            * 1000000000) 0 }]
        nextIns := s.cal.nextIns + 1 }) ∧
  (∀ (s : State) (x last : T16) (second : Option Nat), s.Inv → s.chip.rails.aon = true → s.time.ppsRaw = some last →
      last ≤ x → x < last + 8 * 65536 → Quietly 2 2 168 s →
    Gives (.ppsInEdge s.time.inFalling x second) s [.time, .hcp, .flt] fun t =>
      t.time = { s.time with ppsOver := s.time.ppsOver + 1 } ∧ Noted 2 2 168 s t) ∧
  (∀ (s : State) (i : Fin 8) (falling : Bool) (x : T16), s.Inv → s.chip.rails.aon = true →
      ((s.trigIn i).mode = 3 ∨ (s.trigIn i).mode = (if falling then 2 else 1)) → tooClose (s.trigIn i).last x = false →
      (s.trigIn i).fifo.length < 64 →
    Gives (.trigInEdge i falling x) s [.time, .cap] fun t =>
      t.time = { s.time with
        trig := tset {} s.time.trig i { s.trigIn i with
          last := some x
          fifo := (s.trigIn i).fifo
            ++ [((((x : Int) - (s.trigIn i).skew) % ((2 ^ 48 * unitsPerSec : Nat) : Int)).toNat, falling)] } } ∧
      t.cap.memory = s.cap.memory) ∧
  (∀ (s : State) (i : Fin 8) (falling : Bool) (x : T16), s.Inv → s.chip.rails.aon = true →
      ((s.trigIn i).mode = 3 ∨ (s.trigIn i).mode = (if falling then 2 else 1)) → tooClose (s.trigIn i).last x = false →
      64 ≤ (s.trigIn i).fifo.length → Quietly 2 2 (160 + i.val) s →
    Gives (.trigInEdge i falling x) s [.time, .cap, .hcp, .flt] fun t =>
      t.time = { s.time with
        trig := tset {} s.time.trig i { s.trigIn i with last := some x, overflow := (s.trigIn i).overflow + 1 } } ∧
      Noted 2 2 (160 + i.val) s t) ∧
  (∀ (s : State) (b : Int), s.Inv → s.chip.rails.aon = true → s.ppsBoundary = some b → s.time.quality ≠ .unset →
      s.time.ppsWidth ≠ 0 → s.time.lastPulse ≠ b →
    Gives .ppsOutEdge s [.time] fun t =>
      t.time = { s.time with lastPulse := b, pulseEnd := s.tick + s.time.ppsWidth } ∧
      Emission.ppsEdge (b * unitsPerSec - s.time.outSkew) s.time.ppsWidth (decide (s.tick < s.time.pulseEnd)) ∈ t.emitted)

/-- CALENDAR_FIRE (parts of R94, R95, R100, R101, R102), where one one-shot entry is due: it fires, or is discarded, and leaves,
every other entry stays, and its record enters the fire log, of fewer than 4,096 records. A rate change writes the target word; a
retune acts on its pipe's mixer at the entry's time, outcome 0; in SAFE a retune is discarded with outcome 3, counted and
noted, and does not act. With no entry due nothing changes. The running firmware turns the oldest fire record into
the completion notice of its request, with the outcome's status, and lets go of one without a request. -/
def Obligations.DueEntriesFireAndLeave : Prop :=
  (∀ (s : State) (e : CalEntry) (w : W48), s.Inv → s.OneDue e → e.action = .rateChange w → e.cls = 1 →
      2 ^ 40 ≤ w.toNat + 549755813 → w.toNat ≤ 2 ^ 40 + 549755813 →
      (s.anyTimeLocked = false ∨ 2 ^ 40 ≤ w.toNat + 109951162 ∧ w.toNat ≤ 2 ^ 40 + 109951162) →
    Gives .calendarFire s [.time, .cal] fun t =>
      t.time = { s.time with rateTarget := w, slewTicks := 0 } ∧ Fired e s t) ∧
  (∀ (s : State) (e : CalEntry) (p : Nat) (w : W48) (set : Bool) (ph : W32), s.Inv → s.OneDue e →
      e.action = .retune p w set ph → e.cls = 3 → s.chip.phase ≠ .safe → s.inReset 6 0 = false →
    Gives .calendarFire s [.cal, .pipes] fun t =>
      t.pipes = (retunePipe p e.time w (if set then some ph else none) s).pipes ∧ Fired e s t) ∧
  (∀ (s : State) (e : CalEntry) (p : Nat) (w : W48) (set : Bool) (ph : W32), s.Inv → s.OneDue e →
      e.action = .retune p w set ph → e.cls = 3 → s.chip.phase = .safe → Quietly 1 0 0 s →
    Gives .calendarFire s [.cal, .hcp, .flt] fun t =>
      t.cal = { s.cal with
        entries := s.cal.entries.filter fun x => x.ins ≠ e.ins, discarded := s.cal.discarded + 1
        fireLog := (s.cal.fireLog.filter fun f => f.ins ≠ e.ins) ++ [⟨e.ins, s.now, 3, 3, 6, e.job, []⟩] } ∧
      Noted 1 0 0 s t) ∧
  (∀ (s : State), s.Inv → (∀ e ∈ s.cal.entries, e.due s = false) → Gives .calendarFire s [] fun _ => True) ∧
  (∀ (s : State) (f : FireRec) (rest : List FireRec) (j : JobRef), s.Inv → s.cal.fireLog = f :: rest →
      f.job = some j → s.hears j →
    Gives .fireRecordNotice s [.hcp, .cal] fun t =>
      t.cal = { s.cal with fireLog := rest } ∧
      Told j (if f.outcome = 3 ∨ f.outcome = 4 then 0x0301 else 0)
        (if f.outcome = 3 then 6 else if f.outcome = 4 then f.chipState else 0)
        (ts96 f.time ++ le 1 f.outcome ++ le 1 f.cls ++ zeros 2 ++ f.extra) s t) ∧
  (∀ (s : State) (f : FireRec) (rest : List FireRec), s.Inv → s.fwRuns = true → s.cal.fireLog = f :: rest → f.job = none →
    Gives .fireRecordNotice s [.cal] fun t => t.cal = { s.cal with fireLog := rest })

/-- Whole-second steps (parts of R71, R77, R79, Table TIME-4): the only entry of a calendar, due and one-shot, is a whole-second
offset step whose result lies in the range of Hub Time. Hub Time moves by its amount, the step is counted and its amount
and time are kept; quality UNSET becomes FREE and is noted, any other stays. With no stream, channel, window or
input link configured and no servo that awaits the step, nothing else moves but the stamps that elapsed times are measured
from. The time kept with the step is the stepped Hub Time (the model's choice, log entry 106). -/
def Obligations.WholeSecondStepMovesHubTime : Prop :=
  (∀ (s : State) (e : CalEntry) (n : Int), s.Inv → s.cal.entries = [e] → e.due s = true → e.cls = 1 →
      e.action = .offsetStep (n * 1000000000) 0 → e.period = 0 → s.time.quality ≠ .unset →
      s.xfer.servo ≠ .stepPending → s.strm.streams = [] → s.channels = [] → s.cap.windows = [] → s.bglIns = [] →
      s.jesds = [] → s.scps = [] → s.cal.fireLog.length < 4096 →
      0 ≤ (s.now : Int) + n * unitsPerSec → (s.now : Int) + n * unitsPerSec < 2 ^ 48 * unitsPerSec →
    Gives .calendarFire s [.time, .cal, .flt] fun t =>
      (t.now : Int) = s.now + n * unitsPerSec ∧ t.time.ok ∧ t.time.stepCount = s.time.stepCount + 1 ∧
      t.time.stepNs = n * 1000000000 ∧ t.time.stepFrac = 0 ∧ t.time.stepTime = t.now ∧
      t.time.quality = s.time.quality ∧ t.cal.entries = [] ∧ t.cal.fired = s.cal.fired + 1) ∧
  (∀ (s : State) (e : CalEntry) (n : Int), s.Inv → s.cal.entries = [e] → e.due s = true → e.cls = 1 →
      e.action = .offsetStep (n * 1000000000) 0 → e.period = 0 → s.time.quality = .unset → Quietly 0 7 0 s →
      s.xfer.servo ≠ .stepPending → s.strm.streams = [] → s.channels = [] → s.cap.windows = [] → s.bglIns = [] →
      s.jesds = [] → s.scps = [] → s.cal.fireLog.length < 4096 →
      0 ≤ (s.now : Int) + n * unitsPerSec → (s.now : Int) + n * unitsPerSec < 2 ^ 48 * unitsPerSec →
    Gives .calendarFire s [.time, .cal, .flt, .hcp] fun t =>
      (t.now : Int) = s.now + n * unitsPerSec ∧ t.time.quality = .free ∧ (t.blk 0).sticky.getLsbD 7 = true ∧
      t.cal.entries = [] ∧ t.cal.fired = s.cal.fired + 1)

/-- The time opcodes (parts of R90, R103, R104, R105, R106; Tables TIME-10, TIME-11, TIME-12), where they execute: TIME_GET
reports the time base (the lease in whole ms is the model's choice, log entry 107); TIME_STEP enters its step in the calendar
and is ACCEPTED; PPS_CONFIG and TRIG_IN_CONFIG set their fields; TRIG_IN_READ returns and removes the oldest stamps;
CAL_STATUS reports the calendar's use; CAL_CANCEL removes the entry it names and no other is added, and the cancelled
request, of a retune here, is completed with outcome 2. -/
def Obligations.TimeOpcodesActAndReport : Prop :=
  (∀ (s : State) (r : Req), Accepted opTimeGet r s →
    Reports (.timeGet r) 0x0201 r s (ts96 s.now ++ le 1 (qCode s.time.quality)
      ++ le 1 (mask [s.time.refLost, s.time.tpllUnlock, s.time.ppsLost, s.stepQueued, s.subStepQueued])
      ++ le 2 (if s.time.quality = .locked then s.time.lease / 1000000 else 0)
      ++ le 8 s.time.rateTarget.toNat ++ le 8 s.time.rateEff.toNat ++ ts96 s.time.stepTime ++ le 4 s.time.stepCount.toNat
      ++ leI 8 s.time.stepNs ++ le 2 s.time.stepFrac.toNat ++ zeros 2 ++ le 4 s.time.ppsCount.toNat
      ++ ts96 s.time.ppsStamp ++ zeros 4)) ∧
  (∀ (s : State) (r : Req), Accepted opTimeStep r s →
    Gives (.timeStep r) s [.hcp, .cal, .ledger] fun t =>
      let slot := (s.taking opTimeStep r).freeSlot r.mb.val
      t.cal = { s.cal with
        entries := s.cal.entries ++ [{
          time := ofTs80 r.time, cls := 1, ins := s.cal.nextIns, action := .offsetStep (r.i64 0) (BitVec.ofNat 16 (r.u16 8))
          job := some ⟨r.mb.val, r.hostSeq, 0x0202, r.tag, slot⟩ }]
        nextIns := s.cal.nextIns + 1 } ∧ Answered 0x0202 r 1 slot [] t) ∧
  (∀ (s : State) (r : Req), Accepted opPpsConfig r s →
    Gives (.ppsConfig r) s [.hcp, .time] fun t =>
      t.time = { s.time with
        ppsWidth := r.u32 0, inFalling := r.u8 4 == 1, inSkew := r.i32 8, outSkew := r.i32 12 } ∧ Answered 0x0203 r 0 0 [] t) ∧
  (∀ (s : State) (r : Req), Accepted opTrigInConfig r s →
    Gives (.trigInConfig r) s [.hcp, .time] fun t =>
      t.time = { s.time with
        trig := tset {} s.time.trig (r.u8 0) { s.trigIn (r.u8 0) with mode := r.u8 1, skew := r.i32 4 } } ∧
      Answered 0x0204 r 0 0 [] t) ∧
  (∀ (s : State) (r : Req), Accepted opTrigInRead r s →
    Gives (.trigInRead r) s [.hcp, .time] fun t =>
      let out := (s.trigIn (r.u8 0)).fifo.take (r.u8 1)
      t.time = { s.time with
        trig := tset {} s.time.trig (r.u8 0) { s.trigIn (r.u8 0) with fifo := (s.trigIn (r.u8 0)).fifo.drop (r.u8 1) } } ∧
      Answered 0x0205 r 0 0 (le 2 out.length ++ zeros 2 ++ le 4 (s.trigIn (r.u8 0)).overflow.toNat
        ++ out.flatMap fun x => ts96 x.1 ++ le 1 (b2n x.2) ++ le 1 (r.u8 0) ++ zeros 2) t) ∧
  (∀ (s : State) (r : Req), Accepted opCalStatus r s →
    Reports (.calStatus r) 0x0206 r s (le 2 (4064 - (s.cal.entries.filter fun e => !e.fw).length)
      ++ le 2 (32 - (s.cal.entries.filter (·.fw)).length)
      ++ ((List.range 7).flatMap fun k => le 2 (s.cal.entries.filter fun e => e.cls == k + 1).length) ++ zeros 2
      ++ le 4 s.cal.fired.toNat ++ le 4 s.cal.afterStep.toNat ++ le 4 s.cal.discarded.toNat)) ∧
  (∀ (s : State) (r : Req) (e : CalEntry), Accepted opCalCancel r s → s.entryOf (r.u8 0) (r.u32 4) = some e →
    Gives (.calCancel r) s [.hcp, .cal, .ledger, .pipes, .channels, .cap, .boot, .strm, .free] fun t =>
      (∀ x ∈ t.cal.entries, x.ins ≠ e.ins ∧ x ∈ s.cal.entries) ∧ Answered 0x0207 r 0 0 [] t) ∧
  (∀ (s : State) (r : Req) (e : CalEntry) (p : Nat) (w : W48) (set : Bool) (ph : W32) (j : JobRef), Accepted opCalCancel r s →
      s.entryOf (r.u8 0) (r.u32 4) = some e → e.action = .retune p w set ph → e.job = some j → s.hears j →
    Gives (.calCancel r) s [.hcp, .cal, .ledger] fun t =>
      t.cal = { s.cal with entries := s.cal.entries.filter fun x => x.ins ≠ e.ins } ∧ Answered 0x0207 r 0 0 [] t ∧
      Told j 0 0 (ts96 s.now ++ le 1 2 ++ le 1 e.cls ++ zeros 2) s t)

/-! ## Power, resets, boot and firmware (01_architecture, 16_power_boot, 17_electrical, 18_package) -/

/-- Power (parts of R25, R410, R411, R412; Table BOOT-2): VDD_AON up or lost sets Hub Time to 0 with quality UNSET and
clears the core region; the loss of VDD_CORE or VDD_SRAM puts the core region in OFF, clears it but for the last fault record
and the stream sequences, and Hub Time runs on, in OFF it only takes the rail; the core rails up in OFF with VDD_AON
lead to RESET. -/
def Obligations.RailsSetTheCoreRegion : Prop :=
  (∀ (s : State), s.Inv → s.chip.rails.aon = false →
    Gives .vddAonUp s wholeHub fun t =>
      t.time = { ppsTick := s.tick } ∧ t.chip.phase = .off ∧ t.chip.rails = { s.chip.rails with aon := true } ∧
      t.xfer = {} ∧ t.flt = {} ∧ t.strm = {} ∧ t.cap = {} ∧ t.boot.tries = 0 ∧ t.chip.owedHoldover = false ∧ CoreCleared t) ∧
  (∀ (s : State), s.Inv → s.chip.rails.aon = true →
    Gives .vddAonLoss s wholeHub fun t =>
      t.time = {} ∧ t.chip.phase = .off ∧ t.chip.rails = { s.chip.rails with aon := false } ∧
      t.xfer = {} ∧ t.flt = {} ∧ t.strm = {} ∧ t.cap = {} ∧ t.boot.tries = 0 ∧ t.chip.straps = 0 ∧ CoreCleared t) ∧
  (∀ (s : State) (sram : Bool), s.Inv → s.chip.phase ≠ .off →
    Gives (.vddCoreLoss sram) s wholeHub fun t =>
      t.chip.phase = .off ∧ t.time = s.time.held ∧ t.cap = {} ∧ t.flt = { record := s.flt.record } ∧
      t.strm = { seqs := s.strm.seqs } ∧ t.boot.tries = s.boot.tries ∧ CoreCleared t ∧
      t.chip.rails = (if sram then { s.chip.rails with sram := false } else { s.chip.rails with core := false })) ∧
  (∀ (s : State) (sram : Bool), s.Inv → s.chip.phase = .off →
    Gives (.vddCoreLoss sram) s [.chip] fun t => t.chip = { s.chip with
      rails := if sram then { s.chip.rails with sram := false } else { s.chip.rails with core := false } }) ∧
  (∀ (s : State), s.Inv → s.chip.phase = .off → s.chip.rails.aon = true →
    Gives .coreRailsUp s [.chip] fun t => t.chip = { s.chip with
      phase := .reset, resetTick := s.tick, holdBreach := false, holdRails := false
      rails := { s.chip.rails with core := true, sram := true, sda := true, sdh := true, io18 := true, io33 := true } })

/-- Chip resets (parts of R412, R414, R415; Tables BOOT-2 and CAP-6): RESET_N low for 100 ns, a lane or I/O rail lost and
a breach of the rail order reset the hub and take PCI Express down; a rail loss in the order of R411 holds RESET, a breach (a
rail of group 3 lost while one of group 4 is within limits is one) is held too and sets SEQ_ERROR. SYS_RESET on a ring with
nothing waiting writes its response there, then resets the hub with PCI Express up. A pulse below 100 ns does nothing; a
window that was filling is frozen with cause RESET. -/
def Obligations.ChipResetsBeginAndAreHeld : Prop :=
  (∀ (s : State) (n : Nat), s.Inv → 100 ≤ n → s.chip.phase ≠ .off →
    Gives (.resetNAssert n) s wholeHub fun t =>
      ChipReset s t ∧ t.chip.resetNLow = true ∧ t.chip.pcieUp = false ∧ t.boot.seqError = s.boot.seqError) ∧
  (∀ (s : State) (n : Nat), s.Inv → n < 100 → Gives (.resetNAssert n) s [] fun _ => True) ∧
  (∀ (s : State) (rail : Rail), s.Inv → s.chip.phase ≠ .off →
      (rail = .io18 ∨ rail = .io33 ∨ (rail = .sda ∨ rail = .sdh) ∧ s.chip.rails.io18 = false ∧ s.chip.rails.io33 = false) →
    Gives (.laneIoRailLoss rail) s wholeHub fun t =>
      ChipReset s t ∧ t.chip.pcieUp = false ∧ t.chip.holdRails = true ∧ t.boot.seqError = s.boot.seqError ∧
      t.chip.rails = s.chip.rails.drop rail) ∧
  (∀ (s : State) (rail : Rail), s.Inv → s.chip.phase ≠ .off → (rail = .sda ∨ rail = .sdh) →
      (s.chip.rails.io18 = true ∨ s.chip.rails.io33 = true) →
    Gives (.laneIoRailLoss rail) s wholeHub fun t =>
      ChipReset s t ∧ t.chip.pcieUp = false ∧ t.chip.holdBreach = true ∧ t.boot.seqError = true ∧
      t.chip.rails = s.chip.rails.drop rail) ∧
  (∀ (s : State) (rail : Rail), s.Inv → s.chip.rails.aon = true → s.chip.phase ≠ .off →
      (rail = .sda ∨ rail = .sdh ∨ rail = .io18 ∨ rail = .io33) →
    Gives (.railOrderBreach rail) s wholeHub fun t =>
      ChipReset s t ∧ t.chip.pcieUp = false ∧ t.chip.holdBreach = true ∧ t.boot.seqError = true ∧
      t.chip.rails = s.chip.rails.drop rail) ∧
  (∀ (s : State) (r : Req), Accepted opSysReset r s → r.mb.val < 8 → s.chip.pcieUp = true → (s.mb r.mb.val).waiting = [] →
    Gives (.sysReset r) s wholeHub fun t =>
      ChipReset s t ∧ t.chip.pcieUp = true ∧
      Emission.ringWrite r.mb.val ((s.mb r.mb.val).rspPi.toNat % 64)
        (rspFrame (s.mb r.mb.val).version false r.hostSeq (s.mb r.mb.val).hubSeq 0x0104 0 r.tag 0 []) ∈ t.emitted) ∧
  (∀ (s : State) (n : Nat), s.Inv → s.chip.phase ≠ .off → (s.win n).state = .filling →
    Gives (.resetNAssert 100) s wholeHub fun t => (t.win n).state = .frozen ∧ (t.win n).cause = 5)

/-- Leaving RESET (parts of R25, R412, R416; Tables ARCH-7 and BOOT-3): RESET_N released, the end of the 20 us, or the
return of the lane and I/O rails lead to BOOT with the straps and the hub id latched, once nothing else holds RESET
(with no fault condition standing); a flash boot begins with the preferred slot; a HOLDOVER that the reset owed sets its
fault source. RESET_N released while the 20 us run, or while a rail or a breach holds, only lets go of the pin. PCI
Express trains once nothing holds it. -/
def Obligations.BootBeginsWithTheStrapsLatched : Prop :=
  (∀ (s : State) (straps : Byte) (tm : Bool), s.Inv → s.chip.phase = .reset → s.chip.resetNLow = true →
      s.chip.holdBreach = false → s.chip.holdRails = false → s.chip.resetTick + 20000 ≤ s.tick →
      s.chip.owedHoldover = false → s.NothingPersists → (straps.toNat % 4 = 1 ∨ straps.toNat % 4 = 2) →
    Gives (.resetNRelease straps tm) s [.chip] fun t => t.chip = { s.chip with
      resetNLow := false, phase := .boot, straps := straps, testMode := tm
      hubId := BitVec.ofNat 16 (straps.toNat / 4), bootTick := s.tick, bootStatus := 0 }) ∧
  (∀ (s : State) (straps : Byte) (tm : Bool), s.Inv → s.chip.phase = .reset → s.chip.resetNLow = false →
      s.chip.holdBreach = false → s.chip.holdRails = false → s.chip.resetTick + 20000 ≤ s.tick →
      s.chip.owedHoldover = false → s.NothingPersists → straps.toNat % 4 = 0 →
    Gives (.chipResetEnd straps tm) s [.chip, .boot] fun t =>
      t.chip = { s.chip with
        phase := .boot, straps := straps, testMode := tm, hubId := BitVec.ofNat 16 (straps.toNat / 4), bootTick := s.tick
        bootStatus := 1 } ∧
      t.boot = { s.boot with
        slotTrying := if s.directory.trial = true ∧ 3 ≤ s.boot.tries then 1 - b2n s.directory.slot else b2n s.directory.slot
        rolledBack := s.directory.trial && decide (3 ≤ s.boot.tries), triedBoth := false
        tries := if s.directory.trial = true ∧ s.boot.tries < 3 then s.boot.tries + 1 else s.boot.tries }) ∧
  (∀ (s : State) (straps : Byte) (tm : Bool), s.Inv → s.chip.phase = .reset → s.chip.resetNLow = false →
      s.chip.holdBreach = false → s.chip.holdRails = true → s.chip.owedHoldover = true → s.NothingPersists →
      straps.toNat % 4 = 1 → s.flt.blocks = [] →
    Gives (.laneIoRailsReturn straps tm) s [.chip, .flt, .hcp] fun t =>
      t.chip.phase = .boot ∧ t.chip.holdRails = false ∧ t.chip.owedHoldover = false ∧
      t.chip.rails = { s.chip.rails with sda := true, sdh := true, io18 := true, io33 := true } ∧ Noted 0 6 0 s t) ∧
  (∀ (s : State) (straps : Byte) (tm : Bool), s.Inv → s.chip.resetNLow = true →
      (s.chip.phase ≠ .reset ∨ s.chip.holdBreach = true ∨ s.chip.holdRails = true ∨ s.tick < s.chip.resetTick + 20000) →
    Gives (.resetNRelease straps tm) s [.chip] fun t => t.chip = { s.chip with resetNLow := false }) ∧
  (∀ (s : State), s.Inv → s.chip.phase ≠ .off → s.chip.resetNLow = false → s.chip.holdBreach = false →
      s.chip.holdRails = false → s.inReset 16 16 = false →
    Gives .pcieLinkTrained s [.chip] fun t => t.chip = { s.chip with pcieUp := true })

/-- Loading and starting (parts of R29, R421, R422): a staged image that passes its checks leads to STARTING; one that
does not leads to the other slot, the second one to FAILED; either way the reason of the slot is kept (an image whose decoding
ends in unit 3's CHECK_MISMATCH, which also raises LOADER_CHECK, and a flash read that failed are apart). BOOT_COMPLETE with
its self-test passed leads to serving with the record in use, the hub id and the asymmetry entries of the record, the reaction
bytes at their defaults and unlocked, and mailbox 8 open where the record names an address; what waited is told. Ten
seconds in BOOT are a chip reset of cause 3. -/
def Obligations.BootLoadsStartsOrFails : Prop :=
  (∀ (s : State) (img : Bytes), s.Inv → s.chip.phase = .boot → s.chip.bootStatus = 1 → s.boot.slotTrying = 0 →
      s.boot.triedBoth = false → imageReason 1 img s ≠ 7 →
    Gives (.bootImageLoaded true img) s [.chip, .boot] fun t =>
      t.boot.reasonA = imageReason 1 img s ∧ t.boot.slotA.reason = some (imageReason 1 img s) ∧
      t.boot.slotA.written = false ∧
      if imageReason 1 img s = 0 then
        t.chip = { s.chip with bootStatus := 3 } ∧ t.boot.loaded = true ∧ t.boot.slotBooted = 0 ∧
        t.boot.fwVersion = BitVec.ofNat 32 (getU img 8 4) ∧ t.boot.fwSec = getU img 0x0C 1 ∧
        t.boot.trial = (s.directory.trial && !s.directory.slot)
      else t.chip = s.chip ∧ t.boot.slotTrying = 1 ∧ t.boot.triedBoth = true ∧ t.boot.loaded = s.boot.loaded) ∧
  (∀ (s : State) (img : Bytes), s.Inv → s.chip.phase = .boot → s.chip.bootStatus = 1 → s.boot.slotTrying = 1 →
      s.boot.triedBoth = true → imageReason 1 img s ≠ 7 →
    Gives (.bootImageLoaded true img) s [.chip, .boot] fun t =>
      t.boot.reasonB = imageReason 1 img s ∧ t.boot.slotB.reason = some (imageReason 1 img s) ∧
      t.chip = { s.chip with bootStatus := if imageReason 1 img s = 0 then 3 else 4 } ∧
      t.boot.loaded = (s.boot.loaded || imageReason 1 img s == 0)) ∧
  (∀ (s : State) (img : Bytes), s.Inv → s.chip.phase = .boot → s.chip.bootStatus = 1 → s.boot.slotTrying = 0 →
      s.boot.triedBoth = false → Quietly 16 4 19 s →
    Gives (.bootImageLoaded false img) s [.boot, .hcp, .flt] fun t =>
      t.boot.reasonA = 8 ∧ t.boot.slotTrying = 1 ∧ t.boot.triedBoth = true ∧ t.boot.loaded = s.boot.loaded ∧
      Noted 16 4 19 s t) ∧
  (∀ (s : State), s.Inv → s.chip.phase = .boot → s.chip.bootStatus = 3 → s.boot.loaded = true → s.inReset 15 0 = false →
      s.chip.fwStalled = false →
    Gives (.bootComplete true) s [.chip, .boot, .flt, .free, .hcp, .time, .xfer, .cal] fun t =>
      t.chip = { s.chip with
        phase := .serving, hubId := BitVec.ofNat 16 (getU s.cfgStored 4 2 % 1024 * 64 + s.chip.straps.toNat / 4)
        heartbeat := t.chip.heartbeat, beatTick := s.tick, fwRunning := true } ∧
      t.boot = { s.boot with cfgUse := s.cfgStored } ∧ t.flt.locked = false ∧ (∀ b, (t.blk b).react = []) ∧
      t.hcp.held = [] ∧ t.xfer.roleCfg = s.xfer.roleCfg ∧
      (∀ i, i < getU s.cfgStored 0x28 1 → i < 32 → t.asymEntry i = sub s.cfgStored (0x2C + 16 * i) 16)) ∧
  (∀ (s : State), s.Inv → s.chip.phase = .boot → s.chip.bootStatus = 3 → s.boot.loaded = true → s.inReset 15 0 = false →
      s.chip.fwStalled = false → getU s.cfgStored 6 1 % 4 ≠ 0 →
    Gives (.bootComplete true) s [.chip, .boot, .flt, .free, .hcp, .time, .xfer, .cal] fun t =>
      (t.mb 8).session = .opened ∧ (t.mb 8).enable = true) ∧
  (∀ (s : State), s.Inv → s.chip.phase = .boot → s.chip.bootStatus ≠ 5 → s.chip.bootTick + 10000000000 < s.tick →
      s.gated 15 2 0 = false → (s.blk 15).sticky.getLsbD 2 = false → resetField (s.reaction 15 2) = 2 →
    Gives .bootWatchdogExpiry s wholeHub fun t =>
      ChipReset s t ∧ t.flt.record.cause = 3 ∧ t.flt.record.block = 15 ∧ t.flt.record.source = 2 ∧
      t.flt.record.time = s.now ∧ t.flt.record.count = s.flt.record.count + 1)

/-- The running hub (parts of R16, R23, R31, R32, R385): a new heartbeat is noted and the transmit stamps that waited go;
where the firmware had stalled, what waited to be told is told; 100 ms without one is a stall; a DSP PLL that unlocks resets
blocks 5 to 9 and 11 until it locks again; a scrub pass of more than 1 s is reported, a line that neither code repairs (log
entry 96) is met and any other line is left right; a parity error leads to SAFE with the last fault record, a second one in
SAFE marks it. -/
def Obligations.StallsUnlocksAndParityErrorsAreHandled : Prop :=
  (∀ (s : State) (v : W32), s.Inv → s.chip.fwRunning = true → s.inReset 15 0 = false → v ≠ s.chip.heartbeat →
      s.chip.fwStalled = false →
    Gives (.fwHeartbeatWrite v) s [.chip, .xfer] fun t =>
      t.chip = { s.chip with heartbeat := v, beatTick := s.tick, fwStalled := false } ∧
      (∀ k, t.ptp k = { s.ptp k with fifo := [] }) ∧ t.xfer = { s.xfer with ptp := t.xfer.ptp }) ∧
  (∀ (s : State) (v : W32), s.Inv → s.chip.fwRunning = true → s.inReset 15 0 = false → v ≠ s.chip.heartbeat →
      s.chip.fwStalled = true →
    Gives (.fwHeartbeatWrite v) s [.chip, .hcp, .xfer] fun t =>
      t.chip = { s.chip with heartbeat := v, beatTick := s.tick, fwStalled := false } ∧ t.hcp.held = [] ∧
      t.xfer.roleCfg = s.xfer.roleCfg ∧ (s.xfer.roleCfg = .keeper → t.xfer.listening = true)) ∧
  (∀ (s : State), s.Inv → s.chip.fwRunning = true → s.chip.fwStalled = false → s.chip.beatTick + 100000000 ≤ s.tick →
      Quietly 15 3 0 s →
    Gives .fwStallDetect s [.chip, .hcp, .flt] fun t => t.chip = { s.chip with fwStalled := true } ∧ Noted 15 3 0 s t) ∧
  (∀ (s : State), s.Inv → s.faultsHeld = false → s.chip.dspLocked = true → s.gated 3 3 33 = false →
      resetField (s.reaction 3 3) = 0 →
    Gives .dspPllUnlock s [.chip, .hcp, .flt, .jesds, .bglIns, .scps, .channels, .pipes, .cap, .strm, .comp, .free] fun t =>
      t.chip = { s.chip with dspLocked := false } ∧ (t.blk 3).sticky.getLsbD 3 = true ∧
      ∀ b ∈ [5, 6, 7, 8, 9, 11], dspUnit ∈ (t.blk b).inReset) ∧
  (∀ (s : State), s.Inv → s.chip.dspLocked = false → (∀ b ∈ [5, 6, 7, 8, 9, 11], Quietly b 63 0 s) →
    Gives .dspPllRelock s [.chip, .hcp, .flt, .pipes, .cap, .cal, .channels, .strm, .comp, .free] fun t =>
      t.chip = { s.chip with dspLocked := true } ∧
      ∀ b ∈ [5, 6, 7, 8, 9, 11], dspUnit ∉ (t.blk b).inReset ∧ (t.blk b).sticky.getLsbD 63 = true) ∧
  (∀ (s : State) (region : Fin 6) (ns : Nat), s.Inv → s.upsetLines region.val 0 (2 ^ 32) = [] →
      (1000000000 < ns → Quietly 14 3 region.val s) →
    Gives (.scrubPassLate ⟨region, ns⟩) s [.hcp, .flt] fun t =>
      if 1000000000 < ns then Noted 14 3 region.val s t else t.flt = s.flt) ∧
  (∀ (s : State) (region : Fin 6) (ns a : Nat) (u : Upset), s.Inv → s.flt.upsets = [(lineKey region.val a, u)] →
      readUpset u region.val ≠ .uncorrectable → ns ≤ 1000000000 →
      (readUpset u region.val = .repaired → Quietly 14 2 region.val s) →
    Gives (.scrubPassLate ⟨region, ns⟩) s [.hcp, .flt] fun t =>
      t.flt.upsets = [] ∧ tget 0 t.flt.corrected region.val = (tget 0 s.flt.corrected region.val + fixedWords u region.val) % 2 ^ 64 ∧
      (readUpset u region.val = .repaired → (t.blk 14).sticky.getLsbD 2 = true ∧
        tget 0 t.flt.outer region.val = (tget 0 s.flt.outer region.val + 1) % 2 ^ 64)) ∧
  (∀ (s : State) (b : Fin 17) (off : Nat), s.Inv → (s.chip.phase = .boot ∨ s.chip.phase = .serving) →
    Gives (.parityError b off) s [.chip, .hcp, .cap, .strm, .upl, .comp, .flt, .ledger] fun t =>
      t.chip = { s.chip with phase := .safe } ∧ t.flt.record.cause = 1 ∧ t.flt.record.block = b ∧ t.flt.record.source = 0xFF ∧
      t.flt.record.unit = off ∧ t.flt.record.time = s.now ∧ t.flt.record.state = s.chipCode) ∧
  (∀ (s : State) (b : Fin 17) (off : Nat), s.Inv → s.chip.phase = .safe →
    Gives (.parityError b off) s [.flt] fun t => t.flt = { s.flt with record := { s.flt.record with again := true } })

/-- Pushed images (parts of R423): PUSH_GO takes the image that PUSH_ADDR and PUSH_LEN name; a chunk of 1 to 61,440 bytes
enters the pushed image, which the first chunk begins; a complete image is judged: one that passes its checks leads to STARTING,
any other to FAILED, with its reason (an image whose decoding ends in CHECK_MISMATCH, which also raises LOADER_CHECK, is
apart). The boot watchdog's count stands still from the push's beginning to its end. -/
def Obligations.PushedImagesAreStagedAndJudged : Prop :=
  (∀ (s : State) (img : Bytes), s.Inv → s.pushOpen = true → s.chip.pcieUp = true →
    Gives (.pushGo img) s [.chip, .boot] fun t =>
      t.chip = { s.chip with bootStatus := 5, bootTick := s.tick - s.chip.bootTick } ∧
      t.boot = { s.boot with
        pushState := 1, pushReason := 0, pushGo := true, pushLast := false, pushEnd := s.boot.pushLen.toNat
        pushImage := memWrite [] 0 (img.take (min s.boot.pushLen.toNat 8388608)) }) ∧
  (∀ (s : State) (last : Bool), s.Inv → s.pushSeen = true → s.chip.bootStatus = 5 → s.boot.pushGo = false →
      s.boot.pushLast = false → 0 < s.boot.chunkLen.toNat → s.boot.chunkLen.toNat ≤ 61440 →
      s.boot.chunkOff.toNat + s.boot.chunkLen.toNat ≤ 8388608 →
    Gives (.pushChunkGo last) s [.boot] fun t => t.boot = { s.boot with
      pushImage := memWrite s.boot.pushImage s.boot.chunkOff.toNat (memRead s.boot.dataWindow 0 s.boot.chunkLen.toNat)
      pushEnd := max s.boot.pushEnd (s.boot.chunkOff.toNat + s.boot.chunkLen.toNat), pushLast := last }) ∧
  (∀ (s : State) (last : Bool), s.Inv → s.pushSeen = true → s.chip.bootStatus ≠ 5 → s.boot.pushGo = false →
      s.boot.pushLast = false → 0 < s.boot.chunkLen.toNat → s.boot.chunkLen.toNat ≤ 61440 →
      s.boot.chunkOff.toNat + s.boot.chunkLen.toNat ≤ 8388608 →
    Gives (.pushChunkGo last) s [.chip, .boot] fun t =>
      t.chip = { s.chip with bootStatus := 5, bootTick := s.tick - s.chip.bootTick } ∧
      t.boot = { s.boot with
        pushState := 1, pushReason := 0, pushGo := false, pushLast := last
        pushImage := memWrite [] s.boot.chunkOff.toNat (memRead s.boot.dataWindow 0 s.boot.chunkLen.toNat)
        pushEnd := s.boot.chunkOff.toNat + s.boot.chunkLen.toNat }) ∧
  (∀ (s : State), s.Inv → s.chip.phase = .boot → s.chip.bootStatus = 5 → (s.boot.pushGo = true ∨ s.boot.pushLast = true) →
      s.boot.pushEnd ≤ 8388608 → imageReason 1 (memRead s.boot.pushImage 0 s.boot.pushEnd) s ≠ 7 →
    Gives .pushComplete s [.chip, .boot] fun t =>
      t.boot.pushGo = false ∧ t.boot.pushLast = false ∧
      t.boot.pushReason = imageReason 1 (memRead s.boot.pushImage 0 s.boot.pushEnd) s ∧
      if imageReason 1 (memRead s.boot.pushImage 0 s.boot.pushEnd) s = 0 then
        t.chip = { s.chip with bootStatus := 3, bootTick := s.tick - s.chip.bootTick } ∧ t.boot.loaded = true ∧
        t.boot.slotBooted = 0xFF ∧ t.boot.trial = false ∧ t.boot.pushState = 2
      else
        t.chip = { s.chip with bootStatus := 4, bootTick := s.tick - s.chip.bootTick } ∧ t.boot.loaded = s.boot.loaded ∧
        t.boot.pushState = 3)

/-- Monitors, test port and memory self-test (parts of R430, R443, R444, R461): the thermal flags follow their sensors,
a trip stays latched until the core region is off; a scan instruction that drives pins is refused outside RESET; a
bank that passes loses its mark and counts a pass, one that fails is marked and reported. -/
def Obligations.MonitorsTestPortAndSelfTestLatch : Prop :=
  (∀ (s : State) (on : Bool), s.Inv → s.chip.rails.aon = true → s.chip.rails.io33 = true →
    Gives (.thermWarn on) s [.chip] fun t => t.chip = { s.chip with thermWarn := on }) ∧
  (∀ (s : State), s.Inv → s.chip.rails.aon = true → s.chip.rails.io33 = true →
    Gives .thermTrip s [.chip] fun t => t.chip = { s.chip with thermTrip := true }) ∧
  (∀ (s : State), s.Inv → s.chip.phase = .off →
    Gives .thermTripRelease s [.chip] fun t => t.chip = { s.chip with thermTrip := false }) ∧
  (∀ (s : State), s.Inv → s.chip.phase ≠ .off → Gives .thermTripRelease s [] fun _ => True) ∧
  (∀ (s : State) (ir : Nat) (drives : Bool), s.Inv → (drives = true → s.chip.phase = .reset) →
    Gives (.jtagInstruction ir drives) s [.chip] fun t => t.chip = { s.chip with jtagIr := ir }) ∧
  (∀ (s : State) (ir : Nat), s.Inv → s.chip.phase ≠ .reset → Gives (.jtagInstruction ir true) s [] fun _ => True) ∧
  (∀ (s : State) (bank : Fin 24), s.Inv → (s.chip.phase = .serving ∨ s.chip.phase = .safe) → s.underTest = some bank.val →
    Gives (.selftestBankDone bank true) s [.boot] fun t => t.boot = { s.boot with
      selfTesting := BitVec.ofNat 24 (2 ^ ((bank.val + 1) % 24))
      selfFailed := s.boot.selfFailed &&& ~~~(BitVec.ofNat 24 (2 ^ bank.val)), selfPasses := s.boot.selfPasses + 1
      selfLast := s.now }) ∧
  (∀ (s : State) (bank : Fin 24), s.Inv → (s.chip.phase = .serving ∨ s.chip.phase = .safe) → s.underTest = some bank.val →
      Quietly 14 5 0 s →
    Gives (.selftestBankDone bank false) s [.boot, .hcp, .flt] fun t =>
      t.boot = { s.boot with
        selfTesting := BitVec.ofNat 24 (2 ^ ((bank.val + 1) % 24))
        selfFailed := s.boot.selfFailed ||| BitVec.ofNat 24 (2 ^ bank.val) } ∧ Noted 14 5 0 s t)

/-- The configuration record and the images of the firmware (parts of R421, R424, R425, R426, R427; Table BOOT-10):
BOOT_INFO and CONFIG_READ report; CONFIG_WRITE writes the copy that does not govern, its sequence raised by one, with the
entries of the payload or, with flag 0, those in use, and its completion follows the response; FW_IMAGE_WRITE writes flash, its
first part starts the erasure, whose end completes the job; FW_IMAGE_CHECK, PALETTE_LOAD and TEST_UNLOCK charge unit 3, a header
that fails is reported behind the response; FW_ACTIVATE and FW_COMMIT write the directory's copy that does not govern; the end of
unit 3's work reports the image's reason and keeps the slot's, applies a palette, or unlocks tests (a mismatch in unit 3
raises LOADER_CHECK). -/
def Obligations.FirmwareOpcodesReadWriteAndCheckImages : Prop :=
  (∀ (s : State) (r : Req), Accepted opBootInfo r s →
    Reports (.bootInfo r) 0x0105 r s (
      le 1 (if s.chip.straps.toNat % 4 = 3 then 0 else s.chip.straps.toNat % 4) ++ le 1 s.boot.slotBooted ++ le 1 s.boot.reasonA
      ++ le 1 s.boot.reasonB
      ++ le 1 (mask [s.boot.trial, s.boot.rolledBack, s.boot.seqError, s.chip.straps.toNat % 4 == 3, s.boot.unlocked])
      ++ le 1 s.boot.tries ++ le 1 (max Config.fusedSec.toNat s.boot.secVersion) ++ le 1 s.chip.straps.toNat
      ++ le 4 s.boot.fwVersion.toNat ++ zeros 4)) ∧
  (∀ (s : State) (r : Req), Accepted opConfigRead r s →
    Reports (.configRead r) 0x0107 r s (le 1 (b2n (decide (s.cfgStored ≠ s.config))) ++ zeros 3 ++ s.config)) ∧
  (∀ (s : State) (r : Req), Accepted opConfigWrite r s →
    Gives (.configWrite r) s [.hcp, .boot, .ledger] fun t =>
      let es := if bit (r.u8 0) 0 then s.xfer.asym.map (·.2)
        else (List.range (r.u8 0x28)).map fun i => r.bytes (0x2C + 16 * i) 16
      let b := sub (r.bytes 4 0x24) 0 0x24 ++ le 4 (BitVec.ofNat 32 (getU s.cfgStored 0x24 4) + 1).toNat ++ le 1 es.length
        ++ zeros 3 ++ es.flatten
      let one := !s.cfgOne && (s.boot.cfg0.isSome || s.boot.cfg1.isSome)
      t.boot = (if one then { s.boot with cfg1 := some (b ++ le 4 (crc32c b)) }
        else { s.boot with cfg0 := some (b ++ le 4 (crc32c b)) }) ∧
      Emission.flashWrite (if one then 0x18000 else 0x10000) (b ++ le 4 (crc32c b)) ∈ t.emitted ∧
      Answered 0x0106 r 1 (s.jobOf opConfigWrite r).slot [] t ∧
      ∃ x ∈ t.hcp.log, x.mb = r.mb.val ∧ x.hubSeq = (s.mb r.mb.val).hubSeq + 1 ∧
        x.frame = rspFrame (s.mb r.mb.val).version false 0xFFFFFFFF x.hubSeq 0x0106 0 r.tag 0 []) ∧
  (∀ (s : State) (r : Req), Accepted opFwImageWrite r s → r.u8 1 = 0 →
    Gives (.fwImageWrite r) s [.hcp, .boot, .ledger] fun t =>
      t.boot = (s.setImageSlot (r.u8 0) { s.imageSlot (r.u8 0) with
        written := true, header := putHeader (s.imageSlot (r.u8 0)).header (r.u32 4) (r.payload.drop 8) }).boot ∧
      Emission.flashWrite (slotOffset (r.u8 0) + r.u32 4) (r.payload.drop 8) ∈ t.emitted ∧ Answered 0x0D01 r 0 0 [] t) ∧
  (∀ (s : State) (r : Req), Accepted opFwImageWrite r s → r.u8 1 = 1 →
    Gives (.fwImageWrite r) s [.hcp, .boot, .ledger] fun t =>
      t.boot = { (s.setImageSlot (r.u8 0) { s.imageSlot (r.u8 0) with
        written := true, header := putHeader (List.replicate 32 0xFF) (r.u32 4) (r.payload.drop 8) }).boot with
        erasing := some (r.u8 0, s.jobOf opFwImageWrite r) } ∧
      Emission.flashWrite (slotOffset (r.u8 0) + r.u32 4) (r.payload.drop 8) ∈ t.emitted ∧
      Answered 0x0D01 r 1 (s.jobOf opFwImageWrite r).slot [] t) ∧
  (∀ (s : State) (n : Nat) (j : JobRef), s.Inv → s.boot.erasing = some (n, j) → s.hears j →
    Gives .flashEraseDone s [.hcp, .boot] fun t => t.boot = { s.boot with erasing := none } ∧ Told j 0 0 [] s t) ∧
  (∀ (s : State) (r : Req), Accepted opFwImageCheck r s → headerReason 1 (s.imageSlot (r.u8 0)).header = 0 →
    Gives (.fwImageCheck r) s [.hcp, .boot, .ledger] fun t =>
      let n := getU (s.imageSlot (r.u8 0)).header 0x10 4 + 96
      t.boot = { s.boot with unit3 := some ⟨0x0D02, r.u8 0, slotOffset (r.u8 0), n, (n + 4095) / 4096,
        s.jobOf opFwImageCheck r⟩ } ∧ Answered 0x0D02 r 1 (s.jobOf opFwImageCheck r).slot [] t) ∧
  (∀ (s : State) (r : Req), Accepted opFwImageCheck r s → headerReason 1 (s.imageSlot (r.u8 0)).header ≠ 0 →
    Gives (.fwImageCheck r) s [.hcp, .boot, .ledger] fun t =>
      let h := (s.imageSlot (r.u8 0)).header
      t.boot = (noteCheck (r.u8 0) (headerReason 1 h) h s).boot ∧ Answered 0x0D02 r 1 (s.jobOf opFwImageCheck r).slot [] t ∧
      ∃ x ∈ t.hcp.log, x.mb = r.mb.val ∧ x.hubSeq = (s.mb r.mb.val).hubSeq + 1 ∧
        x.frame = rspFrame (s.mb r.mb.val).version false 0xFFFFFFFF x.hubSeq 0x0D02 0 r.tag 0
          (checkPayload (headerReason 1 h) h)) ∧
  (∀ (s : State) (r : Req), Accepted opFwActivate r s →
    Gives (.fwActivate r) s [.hcp, .boot] fun t =>
      t.boot = { (writeDirectory (r.u8 0 == 1) true s).boot with tries := 0 } ∧ Answered 0x0D03 r 0 0 [] t) ∧
  (∀ (s : State) (r : Req), Accepted opFwCommit r s →
    Gives (.fwCommit r) s [.hcp, .boot] fun t =>
      t.boot = { (writeDirectory s.directory.slot false s).boot with
        trial := false, secVersion := if bit (r.u8 0) 0 then max s.boot.secVersion s.boot.fwSec else s.boot.secVersion } ∧
      t.directory.slot = s.directory.slot ∧ t.directory.trial = false ∧ t.directory.seq = s.directory.seq + 1 ∧
      Answered 0x0D04 r 0 0 [] t) ∧
  (∀ (s : State) (r : Req), Accepted opPaletteLoad r s →
    Gives (.paletteLoad r) s [.hcp, .boot, .ledger] fun t =>
      t.boot = { s.boot with unit3 := some ⟨0x0D05, 0, r.u64 0, r.u32 8, (r.u32 8 + 4095) / 4096, s.jobOf opPaletteLoad r⟩ } ∧
      Answered 0x0D05 r 1 (s.jobOf opPaletteLoad r).slot [] t) ∧
  (∀ (s : State) (r : Req), Accepted opTestUnlock r s →
    Gives (.testUnlock r) s [.hcp, .boot, .ledger] fun t =>
      t.boot = { s.boot with unit3 := some ⟨0x0D06, 0, r.u64 0, r.u32 8, (r.u32 8 + 4095) / 4096, s.jobOf opTestUnlock r⟩ } ∧
      Answered 0x0D06 r 1 (s.jobOf opTestUnlock r).slot [] t) ∧
  (∀ (s : State) (img : Bytes) (u : Unit3), s.Inv → s.boot.unit3 = some u → s.inReset 10 3 = false → u.opcode = 0x0D02 →
      u.slot ≤ 1 → s.hears u.job → imageReason 1 img s ≠ 7 →
    Gives (.unit3RequestDone true img) s [.hcp, .boot] fun t =>
      t.boot = { s.boot with
        unit3 := none
        slotA := if u.slot = 0 then ⟨false, some (imageReason 1 img s), getU img 0x0C 1, BitVec.ofNat 32 (getU img 8 4), sub img 0 32⟩
          else s.boot.slotA
        slotB := if u.slot = 0 then s.boot.slotB
          else ⟨false, some (imageReason 1 img s), getU img 0x0C 1, BitVec.ofNat 32 (getU img 8 4), sub img 0 32⟩ } ∧
      Told u.job 0 0 (le 1 (imageReason 1 img s) ++ le 1 (getU img 0x0C 1) ++ zeros 2 ++ le 4 (getU img 8 4)) s t) ∧
  (∀ (s : State) (img : Bytes) (u : Unit3), s.Inv → s.boot.unit3 = some u → s.inReset 10 3 = false →
      u.opcode = 0x0D02 → s.hears u.job → Quietly 10 2 3 s →
    Gives (.unit3RequestDone true img) s [.hcp, .boot, .flt] fun t =>
      t.boot.unit3 = none ∧ (imageReason 1 img s = 7 → unit3Output img = none → Noted 10 2 3 s t)) ∧
  (∀ (s : State) (img : Bytes) (u : Unit3), s.Inv → s.boot.unit3 = some u → s.inReset 10 3 = false → u.opcode = 0x0D05 →
      s.hears u.job → imageReason 2 img s ≠ 7 →
    Gives (.unit3RequestDone true img) s [.hcp, .boot, .profiles, .ledger] fun t =>
      t.boot = { s.boot with unit3 := none } ∧
      if imageReason 2 img s = 0 then
        ∀ d, decodeImage img = some d →
          let x := applyPalette d.length d (0, []) { s with emitted := [], boot := { s.boot with unit3 := none } }
          t.profiles = x.2.profiles ∧ Told u.job 0 0 (le 1 0 ++ le 1 x.1.1 ++ zeros 2 ++ skipMask x.1.2) s t
      else t.profiles = s.profiles ∧ t.ledger = s.ledger ∧ Told u.job 0 0 (le 1 (imageReason 2 img s) ++ zeros 35) s t) ∧
  (∀ (s : State) (img : Bytes) (u : Unit3), s.Inv → s.boot.unit3 = some u → s.inReset 10 3 = false → u.opcode = 0x0D06 →
      s.hears u.job → imageReason 3 img s ≠ 7 →
    Gives (.unit3RequestDone true img) s [.hcp, .boot] fun t =>
      t.boot = { s.boot with unit3 := none, unlocked := s.boot.unlocked || imageReason 3 img s == 0 } ∧
      Told u.job 0 0 (le 1 (imageReason 3 img s) ++ zeros 3) s t)

/-- Quiet windows and calibration (parts of R428, R429, R430; Table BOOT-10): QUIET_DECLARE takes a free window with its two
calendar entries, and a calibration that awaits one takes it; QUIET_CANCEL of a window takes its entries and the window, an open
one with its notice; CLK_CALIBRATE starts in the open window, or is deferred to the next; the measured errors of the running
outputs it names are corrected up to 16 phase steps, with the payload of the completion; SELFTEST_STATUS reports. -/
def Obligations.QuietWindowsAndCalibrations : Prop :=
  (∀ (s : State) (r : Req) (n : Nat), Accepted opQuietDeclare r s → s.freeQuiet = some n →
    Gives (.quietDeclare r) s [.hcp, .boot, .cal, .ledger] fun t =>
      t.boot = { s.boot with
        quiet := tset ⟨0, 0, false⟩ s.boot.quiet n
          ⟨ofTs80 (r.bytes 0 10), ofTs80 (r.bytes 0 10) + r.u32 12 * 1000000 * 65536, false⟩
        calib := s.boot.calib.map fun c => if c.window = 8 then { c with window := n } else c } ∧
      t.cal = { s.cal with
        entries := s.cal.entries ++ [
          { time := ofTs80 (r.bytes 0 10), cls := 7, ins := s.cal.nextIns, action := .quietOpen n },
          { time := ofTs80 (r.bytes 0 10) + r.u32 12 * 1000000 * 65536, cls := 7, ins := s.cal.nextIns + 1
            action := .quietClose n }]
        nextIns := s.cal.nextIns + 2 } ∧ Answered 0x0D07 r 0 0 (le 1 n ++ zeros 3) t) ∧
  (∀ (s : State) (r : Req) (q : Quiet), Accepted opQuietCancel r s → s.quietWin (r.u8 0) = some q → q.isOpen = false →
    Gives (.quietCancel r) s [.hcp, .boot, .cal, .ledger] fun t =>
      t.boot.quiet = s.boot.quiet.filter (fun x => x.1 ≠ r.u8 0) ∧
      t.cal = { s.cal with entries := s.cal.entries.filter fun e =>
        e.action ≠ .quietOpen (r.u8 0) ∧ e.action ≠ .quietClose (r.u8 0) } ∧ Answered 0x0D08 r 0 0 [] t) ∧
  (∀ (s : State) (r : Req) (q : Quiet), Accepted opQuietCancel r s → s.quietWin (r.u8 0) = some q → q.isOpen = true →
    Gives (.quietCancel r) s [.hcp, .boot, .cal, .ledger] fun t =>
      t.boot.quiet = s.boot.quiet.filter (fun x => x.1 ≠ r.u8 0) ∧
      t.cal = { s.cal with entries := s.cal.entries.filter fun e =>
        e.action ≠ .quietOpen (r.u8 0) ∧ e.action ≠ .quietClose (r.u8 0) } ∧ Answered 0x0D08 r 0 0 [] t ∧
      (unslotted s.hcp.log + 10 ≤ freeLogEntries →
        ∀ m ∈ s.subscribers 13, ∃ x ∈ t.hcp.log, x.mb = m ∧ getU x.frame 0x0C 2 = 0x0D80)) ∧
  (∀ (s : State) (r : Req) (w : Nat), Accepted opClkCalibrate r s → s.openWindow = some w →
    Gives (.clkCalibrate r) s [.hcp, .boot, .ledger] fun t =>
      t.boot = { s.boot with calib := some ⟨BitVec.ofNat 32 (r.u32 0), w, s.jobOf opClkCalibrate r⟩ } ∧
      Answered 0x0D09 r 1 (s.jobOf opClkCalibrate r).slot [] t) ∧
  (∀ (s : State) (r : Req) (w : Nat) (q : Quiet), Accepted opClkCalibrate r s → s.openWindow = none → s.nextQuiet = some w →
      s.quietWin w = some q →
    Gives (.clkCalibrate r) s [.hcp, .boot, .ledger] fun t =>
      t.boot = { s.boot with calib := some ⟨BitVec.ofNat 32 (r.u32 0), w, s.jobOf opClkCalibrate r⟩ } ∧
      Answered 0x0D09 r 2 0 (ts80 q.start ++ zeros 2) t) ∧
  (∀ (s : State) (errors : List Int) (c : Calib), s.Inv → s.boot.calib = some c → s.openWindow = some c.window →
      s.hears c.job →
    Gives (.calibrationDone errors) s [.hcp, .boot] fun t =>
      let named := fun (n : Nat) => c.mask.getLsbD n && (s.dclk n).running
      let small := fun (n : Nat) => decide ((errors.getD n 0).natAbs ≤ 16)
      t.boot = { s.boot with calib := none } ∧
      Told c.job 0 0 (le 4 (mask ((List.range 32).map fun n => named n && small n))
        ++ le 4 (mask ((List.range 32).map fun n => named n && !small n))
        ++ (List.range 32).flatMap fun n => leI 1 (if named n && small n then -(errors.getD n 0) else 0)) s t) ∧
  (∀ (s : State) (r : Req), Accepted opSelftestStatus r s →
    Reports (.selftestStatus r) 0x0D0A r s (le 4 s.boot.selfFailed.toNat ++ le 4 ((s.underTest.map (2 ^ ·)).getD 0)
      ++ le 4 s.boot.selfPasses.toNat ++ ts96 s.boot.selfLast))

/-! ## Time transfer and the keeper pair (04_time_transfer) -/

/-- PTP, phase and ESMC (parts of R107, R109, R112, R113, R122): a message of the port's VLAN received on an enabled port is stamped
at its crossing with the ingress adjustment of its path; an unsupported one is counted; a management message or one of another VLAN
is ignored. A message of the firmware that may leave the port is sent as R109 says; an event message sent two-step leaves its
egress stamp while fewer than 16 wait, else the stamp is lost and noted; any other message leaves none. A phase
measurement replaces the lane's record, a slip makes it invalid. A received quality level is stored; ours is announced: that
heard from the source while LOCKED on Synchronous Ethernet, 0xB in HOLDOVER, else 0xF (codes: log entry 18), a free value while
LOCKED on another source (log entry 108). -/
def Obligations.NetworkTimeIsStampedAndMeasured : Prop :=
  (∀ (s : State) (p : PtpPort) (x : T16) (f : PtpFrame), s.Inv → ptpOn s p = true → ptpUnsupported s p f = false →
      getU f.msg 0 1 % 16 ≠ 13 → f.tags.headD 0 = getU (s.ptp (ptpKey p)).settings 10 2 % 4096 →
    Gives (.ptpFrameRx p x f) s [.xfer] fun t => t.xfer = { s.xfer with
      ptp := tset {} s.xfer.ptp (ptpKey p) { s.ptp (ptpKey p) with
        received := (((x : Int) + s.asymField (ptpPath s p) 8).toNat, f.msg) :: (s.ptp (ptpKey p)).received } }) ∧
  (∀ (s : State) (p : PtpPort) (x : T16) (f : PtpFrame), s.Inv → ptpOn s p = true → ptpUnsupported s p f = true →
    Gives (.ptpFrameRx p x f) s [.xfer] fun t => t.xfer = { s.xfer with
      ptp := tset {} s.xfer.ptp (ptpKey p) { s.ptp (ptpKey p) with errors := (s.ptp (ptpKey p)).errors + 1 } }) ∧
  (∀ (s : State) (p : PtpPort) (x : T16) (f : PtpFrame), s.Inv → ptpOn s p = true → ptpUnsupported s p f = false →
      (getU f.msg 0 1 % 16 = 13 ∨ f.tags.headD 0 ≠ getU (s.ptp (ptpKey p)).settings 10 2 % 4096) →
    Gives (.ptpFrameRx p x f) s [] fun _ => True) ∧
  (∀ (s : State) (p : PtpPort) (x : T16) (msg : Bytes), s.Inv → s.Sends p x msg →
      (getU msg 0 1 % 16 = 1 ∨ getU msg 0 1 % 16 = 0 ∧ getU (s.ptp (ptpKey p)).settings 4 1 = 0) →
      (s.ptp (ptpKey p)).fifo.length < 16 →
    Gives (.ptpMessageTx p x msg) s [.xfer, .upl] fun t =>
      t.xfer = { s.xfer with
        ptp := tset {} s.xfer.ptp (ptpKey p) { s.ptp (ptpKey p) with
          fifo := (s.ptp (ptpKey p)).fifo ++ [(adjusted s p 12 x, BitVec.ofNat 16 (ofBe (sub msg 30 2)))] } } ∧
      Emission.ptp p (getU (s.ptp (ptpKey p)).settings 3 1) (getU (s.ptp (ptpKey p)).settings 10 2 % 4096) false msg ∈ t.emitted ∧
      ∀ n, p ≠ .uplink n → t.port n.val = s.port n.val) ∧
  (∀ (s : State) (p : PtpPort) (x : T16) (msg : Bytes), s.Inv → s.Sends p x msg →
      (getU msg 0 1 % 16 = 1 ∨ getU msg 0 1 % 16 = 0 ∧ getU (s.ptp (ptpKey p)).settings 4 1 = 0) →
      16 ≤ (s.ptp (ptpKey p)).fifo.length → Quietly 2 0 (ptpUnit s p) s →
    Gives (.ptpMessageTx p x msg) s [.xfer, .upl, .hcp, .flt] fun t =>
      t.xfer = { s.xfer with
        ptp := tset {} s.xfer.ptp (ptpKey p) { s.ptp (ptpKey p) with
          stampsLost := (s.ptp (ptpKey p)).stampsLost + 1 } } ∧ Noted 2 0 (ptpUnit s p) s t) ∧
  (∀ (s : State) (p : PtpPort) (x : T16) (msg : Bytes), s.Inv → s.Sends p x msg → getU msg 0 1 % 16 ≠ 1 →
      (getU msg 0 1 % 16 = 0 → getU (s.ptp (ptpKey p)).settings 4 1 = 1) →
    Gives (.ptpMessageTx p x msg) s [.upl] fun t =>
      let set := (s.ptp (ptpKey p)).settings
      let at_ := adjusted s p 12 x
      let stamp := be 6 (at_ / unitsPerSec) ++ be 4 (at_ % unitsPerSec / 65536)
      Emission.ptp p (getU set 3 1) (getU set 10 2 % 4096) (getU msg 0 1 % 16 == 0 && getU set 3 1 == 1)
        (if getU msg 0 1 % 16 = 0 then
          sub msg 0 34 ++ stamp ++ msg.drop 44 ++ (if getU set 3 1 = 2 then checksumFix (sub msg 34 10) stamp else [])
        else msg) ∈ t.emitted) ∧
  (∀ (s : State) (l : Fin 160) (phase : BitVec 21) (freq : Int), s.Inv → (s.lane l).rxPower = 0 → (s.lane l).cdr = true →
    Gives (.phaseMeasure l phase freq false) s [.xfer] fun t => t.xfer = { s.xfer with
      phases := tset {} s.xfer.phases l { s.phase12 l with
        valid := true, phase := if s.partnerLocked l then phase else phase &&& 0x3FF#21
        time := s.now / (64 * 65536) * (64 * 65536), freq := freq } }) ∧
  (∀ (s : State) (l : Fin 160) (phase : BitVec 21) (freq : Int), s.Inv → (s.lane l).rxPower = 0 → Quietly 2 1 l.val s →
    Gives (.phaseMeasure l phase freq true) s [.xfer, .hcp, .flt] fun t =>
      t.xfer = { s.xfer with phases := tset {} s.xfer.phases l { s.phase12 l with valid := false, slip := true } } ∧
      Noted 2 1 l.val s t) ∧
  (∀ (s : State) (n : Fin 48) (q : Nat), s.Inv → (s.port n).state = .up → s.chip.phase ≠ .safe → s.fwRuns = true →
      getU (s.ptp n).settings 9 1 ≠ 0 →
    Gives (.esmcMessage n (some q)) s [.xfer] fun t => t.xfer = { s.xfer with
      esmcRx := tset 0 s.xfer.esmcRx n q
      qlSource := if getU (s.ptp n).settings 9 1 % 2 = 1 then q else s.xfer.qlSource
      qlHeard := s.xfer.qlHeard || getU (s.ptp n).settings 9 1 % 2 == 1 }) ∧
  (∀ (s : State) (n : Fin 48), s.Inv → (s.port n).state = .up → s.chip.phase ≠ .safe → s.fwRuns = true →
      getU (s.ptp n).settings 9 1 ≠ 0 → s.mayControl n = true →
    Gives (.esmcMessage n none) s [.upl, .free] fun t => ∃ q < 16 + s.xfer.qlSource, Emission.esmc n q ∈ t.emitted ∧
      (s.time.quality = .holdover → q = 0xB) ∧ (s.time.quality = .free ∨ s.time.quality = .unset → q = 0xF) ∧
      (s.time.quality = .locked → s.xfer.network = true → s.xfer.refMode = 1 → s.xfer.qlHeard = true → q = s.xfer.qlSource))

/-- The servo on an estimate (parts of R74, R77, R114, R115, R120, R121; Table XFER-4), whose offset e its sources give: from IDLE,
and from HOLDOVER with a qualified source, it acquires; in ACQUIRE it waits for 16 seconds of a qualified source, then tracks
an offset of up to 1 us, and of a greater one schedules a step of the whole offset where no channel is enabled, else of its whole
seconds, and steers within 5 ppm until the offset is small; in TRACK the last of the estimates that the criterion asks for locks,
or renews the lease; a new master acquires again. A second without measurements breaks every run of seconds; the third mismatch
in a row, and the loss of the announcements, hold the integrator's rate; the holdover limit ends in FREE. The integrator and the
wanted rate are the firmware's (log entry 17). -/
def Obligations.ServoActsOnItsEstimates : Prop :=
  (∀ (s : State) (x : ServoInput) (e : Int), s.Inv → s.Estimates x e → s.xfer.servo = .idle →
    Gives (.servoEstimate x) s [.xfer, .hcp] fun t =>
      t.xfer = { noteEstimate e x s with servo := .acquire, lockCount := 0, bigCount := 0, qualCount := 0 }) ∧
  (∀ (s : State) (x : ServoInput) (e : Int), s.Inv → s.Estimates x e → s.xfer.servo = .holdover → x.qualified = true →
    Gives (.servoEstimate x) s [.xfer, .hcp] fun t => t.xfer = { noteEstimate e x s with servo := .acquire }) ∧
  (∀ (s : State) (x : ServoInput) (e : Int), s.Inv → s.Estimates x e → s.xfer.servo = .acquire →
      (x.qualified = false ∨ s.xfer.qualCount < 15) →
    Gives (.servoEstimate x) s [.xfer, .hcp] fun t => t.xfer = noteEstimate e x s) ∧
  (∀ (s : State) (x : ServoInput) (e : Int), s.Inv → s.Estimates x e → s.xfer.servo = .acquire → x.qualified = true →
      15 ≤ s.xfer.qualCount → e.natAbs ≤ 65536000 →
    Gives (.servoEstimate x) s [.xfer, .hcp] fun t => t.xfer = { noteEstimate e x s with servo := .track }) ∧
  (∀ (s : State) (x : ServoInput) (e : Int), s.Inv → s.Estimates x e → s.xfer.servo = .acquire → x.qualified = true →
      15 ≤ s.xfer.qualCount → 65536000 < e.natAbs → s.anyChannel = false → (s.cal.entries.filter (·.fw)).length < 32 →
    Gives (.servoEstimate x) s [.xfer, .hcp, .cal] fun t =>
      t.xfer = { noteEstimate e x s with servo := .stepPending } ∧
      t.cal = { s.cal with
        entries := s.cal.entries ++ [{
          time := (nsOf s.now + 10000 + 999999999) / 1000000000 * unitsPerSec, cls := 1, ins := s.cal.nextIns
          action := .offsetStep ((-e) / 65536) (BitVec.ofInt 16 ((-e) % 65536)), fw := true }]
        nextIns := s.cal.nextIns + 1 }) ∧
  (∀ (s : State) (x : ServoInput) (e : Int), s.Inv → s.Estimates x e → s.xfer.servo = .acquire → x.qualified = true →
      15 ≤ s.xfer.qualCount → 65536000 < e.natAbs → s.anyChannel = true → (s.cal.entries.filter (·.fw)).length < 32 →
    Gives (.servoEstimate x) s [.xfer, .hcp, .time, .cal] fun t =>
      t.xfer.servo = .steer ∧ t.xfer.e = e ∧
      t.time = { s.time with
        rateTarget := s.steered (Config.servoRate t.xfer.integ e s.sourceFreq) 5497558, slewTicks := 0 } ∧
      t.cal = (if e.natAbs < unitsPerSec then s.cal else { s.cal with
        entries := s.cal.entries ++ [{
          time := (nsOf s.now + 10000 + 999999999) / 1000000000 * unitsPerSec, cls := 1, ins := s.cal.nextIns
          action := .offsetStep (-(e.sign * (e.natAbs / unitsPerSec : Nat)) * 1000000000) 0, fw := true }]
        nextIns := s.cal.nextIns + 1 })) ∧
  (∀ (s : State) (x : ServoInput) (e : Int), s.Inv → s.Estimates x e → s.xfer.servo = .steer →
    Gives (.servoEstimate x) s [.xfer, .hcp, .time] fun t =>
      t.xfer.e = e ∧ t.xfer.servo = (if e.natAbs ≤ 65536000 then .track else .steer) ∧
      t.time = { s.time with
        rateTarget := s.steered (Config.servoRate t.xfer.integ e s.sourceFreq) (if e.natAbs ≤ 65536000 then 549755813 else 5497558)
        slewTicks := 0 }) ∧
  (∀ (s : State) (x : ServoInput) (e : Int), s.Inv → s.Estimates x e → s.xfer.servo = .track → x.newMaster = none →
      e.natAbs ≤ 65536000 → s.LockMet x e → s.time.quality ≠ .unset →
    Gives (.servoEstimate x) s [.xfer, .hcp, .time] fun t =>
      t.xfer.servo = .track ∧ t.xfer.lockCount = s.xfer.lockCount + 1 ∧ t.xfer.bigCount = 0 ∧
      t.time = { s.time with
        rateTarget := s.steered (Config.servoRate t.xfer.integ e s.sourceFreq) 549755813, slewTicks := 0
        quality := .locked, lease := 1500000000 }) ∧
  (∀ (s : State) (x : ServoInput) (e : Int), s.Inv → s.Estimates x e → s.xfer.servo = .track → x.newMaster.isSome = true →
    Gives (.servoEstimate x) s [.xfer, .hcp, .time] fun t =>
      t.xfer = { noteEstimate e x s with servo := .acquire, lockCount := 0, bigCount := 0, qualCount := 0 } ∧
      t.time = { s.time.held with trig := s.time.trig }) ∧
  (∀ (s : State) (x : ServoInput), s.Inv → s.fwRuns = true → s.xfer.roleAct ≠ .host → s.offsetOf x = none →
    Gives (.servoEstimate x) s [.xfer] fun t => t.xfer = { s.xfer with lockCount := 0, bigCount := 0, qualCount := 0 }) ∧
  (∀ (s : State) (x : ServoInput) (e : Int), s.Inv → s.fwRuns = true → s.xfer.roleAct ≠ .host → s.offsetOf x = some e →
      s.crossMismatch x = true → 2 ≤ s.xfer.mismatchCount →
      (s.xfer.servo = .acquire ∨ s.xfer.servo = .steer ∨ s.xfer.servo = .track) →
    Gives (.servoEstimate x) s [.xfer, .hcp, .time] fun t =>
      t.xfer.servo = .holdover ∧ t.xfer.mismatch = true ∧ t.xfer.holdoverTick = s.tick ∧
      t.time = { s.time.held with
        trig := s.time.trig, rateTarget := s.steered (2 ^ 40 + t.xfer.integ) 549755813, slewTicks := 0 }) ∧
  (∀ (s : State), s.Inv → s.fwRuns = true → (s.xfer.roleAct = .standalone ∨ s.xfer.roleAct = .keeper) →
      (s.xfer.servo = .acquire ∨ s.xfer.servo = .steer ∨ s.xfer.servo = .track) →
    Gives .announceTimeout s [.xfer, .hcp, .time] fun t =>
      t.xfer = { s.xfer with
        servo := .holdover, clamped := t.xfer.clamped, holdoverTick := s.tick, lockCount := 0, bigCount := 0, qualCount := 0 } ∧
      t.time = { s.time.held with
        trig := s.time.trig, rateTarget := s.steered (2 ^ 40 + s.xfer.integ) 549755813, slewTicks := 0 }) ∧
  (∀ (s : State), s.Inv → s.fwRuns = true → s.xfer.servo = .holdover → s.xfer.holdoverLimit ≠ 0 →
      s.time.quality = .holdover → s.xfer.holdoverTick + s.xfer.holdoverLimit.toNat * 1000000000 ≤ s.tick →
    Gives .holdoverLimitExpiry s [.time] fun t => t.time = { s.time with quality := .free })

/-- The keeper pair (parts of R122, R125, R126, R128-R132, R134; Tables XFER-6, XFER-7 and XFER-8): a valid heartbeat is kept as last
heard with its arrival, one whose CRC fails is noted; a keeper outranked by an announcing one steps back and follows it. At the third
missed slot a partner that hears no other keeper takes the role, from its newer snapshot or with an empty servo, a follower holds
its rate, and either follows another keeper that is announced. The keeper sends its snapshot at the half second; a partner stores
one, one with the hand-over mark makes it keeper, one received while the firmware does not run waits, one whose CRC fails is noted.
Listening ends in the keeper role where no keeper was heard, else as a partner; a hand-over whose partner stays silent for five slots
ends with PARTNER_ABSENT. -/
def Obligations.KeepersAndPartnersFollowTheTable : Prop :=
  (∀ (s : State) (n : Fin 8) (f : Bytes) (x : T16), s.Inv → s.easelOn n = true → s.easelUp n = true → f.length = 36 →
      getU f 32 4 = crc32c (sub f 0 32) →
    Gives (.easelHeartbeatRx n f x) s [.xfer, .hcp] fun t =>
      t.xfer.heard = tset {} s.xfer.heard n {
        frame := f, arrival := ((x : Int) + s.asymField (some (2, n.val)) 8).toNat, ago := 0 } ∧
      (s.fwRuns = false → t.xfer = { s.xfer with heard := t.xfer.heard })) ∧
  (∀ (s : State) (n : Fin 8) (f : Bytes) (x : T16), s.Inv → s.easelOn n = true → s.easelUp n = true →
      (f.length ≠ 36 ∨ getU f 32 4 ≠ crc32c (sub f 0 32)) → Quietly 2 3 (s.easelLane n) s →
    Gives (.easelHeartbeatRx n f x) s [.hcp, .flt] (Noted 2 3 (s.easelLane n) s)) ∧
  (∀ (s : State) (n : Fin 8) (f : Bytes) (x : T16), s.Inv → s.easelOn n = true → s.easelUp n = true → f.length = 36 →
      getU f 32 4 = crc32c (sub f 0 32) → s.fwRuns = true → s.xfer.roleAct = .keeper → s.xfer.listening = false →
      s.xfer.handoverTo = none → beatRole f = 2 → beatStalled f = false →
      ranksAbove (beatPriority f) (beatHub f) s.xfer.priority.toNat s.chip.hubId.toNat = true →
    Gives (.easelHeartbeatRx n f x) s [.xfer, .hcp] fun t => t.xfer = { s.xfer with
      heard := t.xfer.heard, roleAct := .partner, stepbacks := s.xfer.stepbacks + 1, missed := 0, following := true
      hubIdF := BitVec.ofNat 16 (beatHub f), priorityF := BitVec.ofNat 8 (beatPriority f), lockCount := 0, bigCount := 0
      qualCount := 0 }) ∧
  (∀ (s : State), s.Inv → s.fwRuns = true → s.xfer.following = true → (s.xfer.roleAct = .partner ∨ s.xfer.roleAct = .follower) →
      s.xfer.listening = false → s.keeperHeard = false → s.xfer.missed < 2 →
    Gives .easelSlotMissed s [.xfer] fun t => t.xfer = { s.xfer with missed := s.xfer.missed + 1 }) ∧
  (∀ (s : State), s.Inv → s.fwRuns = true → s.xfer.following = true → s.xfer.roleAct = .partner →
      s.xfer.listening = false → s.keeperHeard = false → 2 ≤ s.xfer.missed → s.OnlyItsKeeper → s.xfer.snaps = [] →
    Gives .easelSlotMissed s [.xfer, .hcp, .time] fun t =>
      t.xfer = { s.xfer with
        roleAct := .keeper, servo := .acquire, e := 0, integ := 0, gmId := 0, gmPort := 0, mismatch := false, mismatchCount := 0
        following := false, missed := 0, lockCount := 0, bigCount := 0, qualCount := 0, takeovers := s.xfer.takeovers + 1 } ∧
      t.time = { s.time.held with trig := s.time.trig }) ∧
  (∀ (s : State) (b : Bytes) (rest : List Bytes), s.Inv → s.fwRuns = true → s.xfer.following = true →
      s.xfer.roleAct = .partner → s.xfer.listening = false → s.keeperHeard = false → 2 ≤ s.xfer.missed → s.OnlyItsKeeper →
      s.xfer.snaps = b :: rest → s.anyTimeLocked = false → 2 ^ 40 ≤ getU b 0x18 6 + 549755813 →
      getU b 0x18 6 ≤ 2 ^ 40 + 549755813 → s.xfer.refMode = 0 →
    Gives .easelSlotMissed s [.xfer, .hcp, .time] fun t =>
      t.xfer = { s.xfer with
        asym := t.xfer.asym, roleAct := .keeper, servo := servoOf (getU b 5 1), e := getI b 0x20 8, integ := getI b 0x28 8
        gmId := BitVec.ofNat 64 (getU b 0x30 8), gmPort := BitVec.ofNat 16 (getU b 0x38 2)
        following := false, missed := 0, lockCount := 0, bigCount := 0, qualCount := 0, takeovers := s.xfer.takeovers + 1 } ∧
      t.time = { s.time with rateTarget := BitVec.ofNat 48 (getU b 0x18 6), slewTicks := 0 }) ∧
  (∀ (s : State), s.Inv → s.fwRuns = true → s.xfer.following = true → s.xfer.roleAct = .follower →
      s.xfer.listening = false → s.keeperHeard = false → 2 ≤ s.xfer.missed → s.OnlyItsKeeper → s.xfer.servo = .track →
    Gives .easelSlotMissed s [.xfer, .hcp, .time] fun t =>
      t.xfer.servo = .holdover ∧ t.xfer.following = false ∧ t.xfer.roleAct = .follower ∧
      t.time = { s.time.held with
        trig := s.time.trig, rateTarget := s.steered (2 ^ 40 + s.xfer.integ) 549755813, slewTicks := 0 }) ∧
  (∀ (s : State) (n : Nat), s.Inv → s.fwRuns = true → s.xfer.following = true →
      (s.xfer.roleAct = .partner ∨ s.xfer.roleAct = .follower) → s.xfer.listening = false → s.keeperHeard = false →
      2 ≤ s.xfer.missed → ¬ s.OnlyItsKeeper → bestOf s s.announcers = some n →
    Gives .easelSlotMissed s [.xfer, .hcp] fun t => t.xfer = { s.xfer with
      following := true, hubIdF := BitVec.ofNat 16 (beatHub (s.heardOn n).frame)
      priorityF := BitVec.ofNat 8 (beatPriority (s.heardOn n).frame), missed := 0 }) ∧
  (∀ (s : State) (n : Nat), s.Inv → s.fwRuns = true → s.xfer.roleAct = .keeper → s.atHalfSecond = true →
      s.xfer.snapTime ≠ s.now → n ∈ s.heardLinks →
      (beatRole (s.heardOn n).frame = 2 ∨ beatRole (s.heardOn n).frame = 3) →
    Gives .snapshotTx s [.xfer] fun t =>
      t.xfer = { s.xfer with snapSeq := s.xfer.snapSeq + 1, snapTime := s.now } ∧
      Emission.snapshot n none (messageBlocks 1 (messageBytes 3 (snapshotBytes s (s.xfer.snapSeq + 1) s.now))) ∈ t.emitted) ∧
  (∀ (s : State) (n : Fin 8) (b : Bytes), s.Inv → s.easelOn n = true → s.easelUp n = true → snapshotOk b = true →
      s.xfer.roleAct = .partner → s.fwRuns = true →
    Gives (.snapshotRx n false b) s [.xfer] fun t => t.xfer = { s.xfer with
      snaps := (b :: s.xfer.snaps).take 2, snapSeq := BitVec.ofNat 16 (getU b 2 2), snapTime := ofTs96 (sub b 8 12) }) ∧
  (∀ (s : State) (n : Fin 8) (b : Bytes), s.Inv → s.easelOn n = true → s.easelUp n = true → snapshotOk b = true →
      s.xfer.roleAct = .partner → s.fwRuns = true → s.xfer.refMode = 0 → s.anyTimeLocked = false →
      2 ^ 40 ≤ getU b 0x18 6 + 549755813 → getU b 0x18 6 ≤ 2 ^ 40 + 549755813 →
    Gives (.snapshotRx n true b) s [.xfer, .hcp, .time] fun t =>
      t.xfer.roleAct = .keeper ∧ t.xfer.listening = false ∧ t.xfer.following = false ∧ t.xfer.servo = servoOf (getU b 5 1) ∧
      t.xfer.e = getI b 0x20 8 ∧ t.xfer.integ = getI b 0x28 8 ∧
      t.time = { s.time with rateTarget := BitVec.ofNat 48 (getU b 0x18 6), slewTicks := 0 }) ∧
  (∀ (s : State) (n : Fin 8) (mark : Bool) (b : Bytes), s.Inv → s.easelOn n = true → s.easelUp n = true →
      snapshotOk b = true → (s.xfer.roleAct = .partner ∨ s.xfer.roleAct = .keeper) → s.fwRuns = false →
    Gives (.snapshotRx n mark b) s [.xfer] fun t => t.xfer = { s.xfer with
      snapsWait := (b :: s.xfer.snapsWait).take 2 }) ∧
  (∀ (s : State) (n : Fin 8) (mark : Bool) (b : Bytes), s.Inv → s.easelOn n = true → s.easelUp n = true →
      snapshotOk b = false → Quietly 2 3 (s.easelLane n) s →
    Gives (.snapshotRx n mark b) s [.hcp, .flt] (Noted 2 3 (s.easelLane n) s)) ∧
  (∀ (s : State), s.Inv → s.fwRuns = true → s.xfer.listening = true → s.xfer.listenTick + 10000000 ≤ s.tick →
      s.xfer.heardKeeper = false →
    Gives .keeperListenEnd s [.xfer, .hcp] fun t =>
      t.xfer = { s.xfer with listening := false, roleAct := .keeper, following := false, missed := 0 }) ∧
  (∀ (s : State), s.Inv → s.fwRuns = true → s.xfer.listening = true → s.xfer.listenTick + 10000000 ≤ s.tick →
      s.xfer.heardKeeper = true →
    Gives .keeperListenEnd s [.xfer, .hcp] fun t =>
      t.xfer.listening = false ∧ t.xfer.roleAct = s.xfer.roleAct ∧ t.xfer.servo = s.xfer.servo) ∧
  (∀ (s : State) (f : FireRec) (j : JobRef), s.Inv → s.xfer.handoverTo.isSome = true → 5 ≤ s.xfer.handoverSlots →
      s.xfer.handoverJob = some f → f.job = some j → s.hears j →
    Gives .handoverPartnerAbsent s [.xfer, .hcp] fun t =>
      t.xfer = { s.xfer with
        handoverTo := none, handoverSlots := 0, handoverJob := none, roleAct := .partner, listening := true
        listenTick := s.tick, heardKeeper := false } ∧
      Told j 0 0 (ts96 f.time ++ le 1 f.outcome ++ le 1 f.cls ++ zeros 2 ++ le 1 1 ++ zeros 3) s t)

/-- The time-transfer opcodes (parts of R134, R135, R136; Tables XFER-9 to XFER-13): XFER_CONFIG takes its settings, a repeated
role stays, HOST ends discipline, KEEPER listens, any other role is acted at once with no estimate counted, an idle servo
acquires; the others act on the port, the table, the phase record, or the calendar, or report. -/
def Obligations.TransferOpcodesActAndReport : Prop :=
  (∀ (s : State) (r : Req), Accepted opXferConfig r s →
    Gives (.xferConfig r) s [.hcp, .xfer, .time, .cal, .ledger] fun t =>
      t.xfer.roleCfg = roleOf (r.u8 0) ∧ t.xfer.refMode = r.u8 1 ∧ t.xfer.priority = BitVec.ofNat 8 (r.u8 2) ∧
      t.xfer.easel = BitVec.ofNat 8 (r.u8 3) ∧ t.xfer.holdoverLimit = BitVec.ofNat 32 (r.u32 4) ∧
      t.xfer.domain = BitVec.ofNat 8 (r.u8 8) ∧ Answered 0x0A41 r 0 0 [] t ∧
      (s.xfer.roleCfg = roleOf (r.u8 0) → t.xfer.roleAct = s.xfer.roleAct ∧ t.xfer.servo = s.xfer.servo ∧ t.time = s.time) ∧
      (s.xfer.roleCfg ≠ roleOf (r.u8 0) →
        t.xfer.lockCount = 0 ∧ t.xfer.bigCount = 0 ∧ t.xfer.qualCount = 0 ∧
        t.xfer.roleAct = (if roleOf (r.u8 0) = .keeper then .partner else roleOf (r.u8 0)) ∧
        t.xfer.listening = decide (roleOf (r.u8 0) = .keeper) ∧
        t.xfer.servo = (if roleOf (r.u8 0) = .host then .idle else if s.xfer.servo = .idle then .acquire else s.xfer.servo)) ∧
      (roleOf (r.u8 0) ≠ .host → t.time = s.time) ∧
      (roleOf (r.u8 0) = .host → s.xfer.roleCfg ≠ .host → t.anyTimeLocked = false →
        t.time = { s.time with rateTarget := s.time.rateEff }) ∧
      (t.cal.entries.any (·.isBeat) = true → t.xfer.easel ≠ 0) ∧
      (t.xfer.easel ≠ 0 → (s.cal.entries.filter (·.fw)).length < 32 → t.cal.entries.any (·.isBeat) = true)) ∧
  (∀ (s : State) (r : Req), Accepted opXferStatus r s →
    Reports (.xferStatus r) 0x0A42 r s (
      le 1 (roleCode s.xfer.roleCfg) ++ le 1 (roleCode s.xfer.roleAct) ++ le 1 (servoCode s.xfer.servo)
      ++ le 1 (qCode s.time.quality) ++ le 2 s.xfer.hubIdF.toNat ++ le 1 s.xfer.priorityF.toNat
      ++ le 1 (mask [!s.xfer.snaps.isEmpty, s.xfer.mismatch, s.xfer.clamped, s.xfer.following])
      ++ leI 8 s.xfer.e ++ leI 8 s.xfer.integ ++ le 8 s.xfer.gmId.toNat ++ le 2 s.xfer.gmPort.toNat
      ++ le 1 s.xfer.domain.toNat ++ le 1 (min s.xfer.missed 3) ++ le 2 s.xfer.snapSeq.toNat ++ zeros 2
      ++ ts96 s.xfer.snapTime ++ le 4 s.xfer.takeovers.toNat ++ le 4 s.xfer.stepbacks.toNat ++ zeros 4)) ∧
  (∀ (s : State) (r : Req), Accepted opPtpPortConfig r s →
    Gives (.ptpPortConfig r) s [.hcp, .xfer, .time] fun t =>
      let k := if r.u8 0 = 0 then r.u8 1 else if r.u8 0 = 1 then 48 else 64 + r.u8 1
      t.xfer = { s.xfer with
        ptp := tset {} s.xfer.ptp k { s.ptp k with settings := r.bytes 0 12 }, clamped := t.xfer.clamped } ∧
      (2 ^ 40 ≤ s.time.rateTarget.toNat + 109951162 → s.time.rateTarget.toNat ≤ 2 ^ 40 + 109951162 →
        t.time = s.time ∧ t.xfer.clamped = s.xfer.clamped) ∧
      Answered 0x0A43 r 0 0 [] t) ∧
  (∀ (s : State) (r : Req), Accepted opAsymWrite r s →
    Gives (.asymWrite r) s [.hcp, .xfer] fun t =>
      (∀ i, t.asymEntry i = if r.u8 0 ≤ i ∧ i < r.u8 0 + r.u8 1 then r.bytes (4 + 16 * (i - r.u8 0)) 16 else s.asymEntry i) ∧
      t.xfer = { s.xfer with asym := t.xfer.asym } ∧ Answered 0x0A44 r 0 0 [] t) ∧
  (∀ (s : State) (r : Req), Accepted opAsymRead r s →
    Reports (.asymRead r) 0x0A45 r s ((List.range (r.u8 1)).flatMap fun i => s.asymEntry (r.u8 0 + i))) ∧
  (∀ (s : State) (r : Req), Accepted opPhaseRead r s →
    Gives (.phaseRead r) s [.hcp, .xfer] fun t =>
      let p := s.phase12 (r.u16 0)
      t.xfer = { s.xfer with phases := tset {} s.xfer.phases (r.u16 0) { p with slip := false } } ∧
      Answered 0x0A46 r 0 0 (le 2 (r.u16 0)
        ++ le 1 (mask [p.valid && decide ((s.lane (r.u16 0)).rxPower = 0), p.slip, s.partnerLocked (r.u16 0)]) ++ zeros 1
        ++ le 4 p.phase.toNat ++ ts96 p.time ++ zeros 4 ++ leI 8 p.freq) t) ∧
  (∀ (s : State) (r : Req), Accepted opKeeperHandover r s →
    Gives (.keeperHandover r) s [.hcp, .cal, .ledger] fun t =>
      t.cal = { s.cal with
        entries := s.cal.entries ++ [{
          time := ofTs80 r.time, cls := 7, ins := s.cal.nextIns, action := .handover (BitVec.ofNat 16 (r.u16 0))
          job := some (s.jobOf opKeeperHandover r) }]
        nextIns := s.cal.nextIns + 1 } ∧ Answered 0x0A47 r 1 (s.jobOf opKeeperHandover r).slot [] t)

/-! ## Serial lanes and Bamgiusk Links (05_lanes) -/

/-- Lanes (parts of R140, R142, R143, R146, R147, R155, R156, R160; Tables LANE-1, LANE-5 and LANE-8): a configured lane
takes its protocol, rate and settings and acquires anew (a quad enters and leaves protocol 5 as a whole); LANE_STATUS reports, with
what a direction that receives has counted; power requests and wake-ups act per direction; re-equalisation is a job that takes an
uplink port out of UP, and ends with the new estimates; acquisition sets the lane's status; a lost lock of a lane that no port or link
in UP uses clears it, counts it and is noted, as is its phase record's slip. A link or an uplink port in UP whose aligned lane's
receiver goes OFF leaves UP. -/
def Obligations.LanesAreConfiguredPoweredAndEqualised : Prop :=
  (∀ (s : State) (r : Req), Accepted opLaneConfig r s →
    Gives (.laneConfig r) s [.hcp, .lanes] fun t =>
      (∀ x, t.lane x =
        if x = r.u16 0 ∨ r.u8 2 = 5 ∧ r.u16 0 ≤ x ∧ x < r.u16 0 + 4 then { s.lane x with
          protocol := r.u8 2
          rate := if r.u8 2 = 3 then 10312500 else if r.u8 2 = 4 ∨ r.u8 2 = 5 then 25781250 else r.u32 4
          txInvert := bit (r.u8 3) 0, pre := r.u8 8, main := r.u8 9, post := r.u8 0xA
          txPower := if 3 ≤ r.u8 2 then 0 else 2, rxPower := if 1 ≤ r.u8 2 then 0 else 2, txWaking := false, rxWaking := none
          signal := false, cdr := false, aligned := false, inverted := false, slip := 0
          prbs := { (s.lane x).prbs with tx := 0, rx := 0, locked := false, inverted := false } }
        else if (s.lane (r.u16 0)).protocol = 5 ∧ r.u16 0 ≤ x ∧ x < r.u16 0 + 4 then { s.lane x with
          protocol := 0, rate := 0, txInvert := false, pre := 0, main := 0, post := 0, txPower := 2, rxPower := 2
          txWaking := false, rxWaking := none, signal := false, cdr := false, aligned := false, inverted := false, slip := 0
          prbs := { (s.lane x).prbs with tx := 0, rx := 0, locked := false, inverted := false } }
        else s.lane x) ∧ Answered 0x0301 r 0 0 [] t) ∧
  (∀ (s : State) (r : Req), Accepted opLaneStatus r s →
    Gives (.laneStatus r) s [.hcp, .lanes, .free] fun t => ∃ p, Answered 0x0302 r 0 0 p t ∧
      p = laneStatus { s with lanes := tset {} s.lanes (r.u16 0) { s.lane (r.u16 0) with
        codeErrors := BitVec.ofNat 32 (getU p 16 4) } } (r.u16 0) ∧
      (s.lane (r.u16 0)).codeErrors.toNat ≤ getU p 16 4 ∧
      ((s.lane (r.u16 0)).rxPower ≠ 0 ∨ (s.lane (r.u16 0)).protocol = 0 ∨ (s.lane (r.u16 0)).protocol = 8 →
        getU p 16 4 = (s.lane (r.u16 0)).codeErrors.toNat) ∧
      (∀ x, t.lane x = if x ≠ r.u16 0 then s.lane x
        else if bit (r.u8 2) 0 then { s.lane x with losses := 0, codeErrors := 0 }
        else { s.lane x with codeErrors := BitVec.ofNat 32 (getU p 16 4) })) ∧
  (∀ (s : State) (r : Req), Accepted opLanePower r s → (r.u8 3 ≠ 2 ∨ (s.lane (r.u16 0)).aligned = false) →
    Gives (.lanePower r) s [.hcp, .lanes, .free, .time, .xfer] fun t =>
      let x := s.lane (r.u16 0)
      t.lane (r.u16 0) = { x with
        txPower := if r.u8 2 = 1 ∨ r.u8 2 = 2 then r.u8 2 else x.txPower
        txWaking := if r.u8 2 = 0 then x.txPower != 0 else if r.u8 2 = 0xFF then x.txWaking else false
        rxPower := if r.u8 3 = 1 ∨ r.u8 3 = 2 then r.u8 3 else x.rxPower
        rxWaking := if r.u8 3 = 0xFF then x.rxWaking
          else if r.u8 3 = 0 ∧ x.rxPower ≠ 0 then some x.rxPower else none
        signal := x.signal && r.u8 3 != 2, cdr := x.cdr && r.u8 3 != 2, aligned := x.aligned && r.u8 3 != 2
        prbs := (t.lane (r.u16 0)).prbs } ∧
      (t.lane (r.u16 0)).prbs.locked = (x.prbs.locked && r.u8 3 != 1 && r.u8 3 != 2) ∧
      (∀ k, k ≠ r.u16 0 → t.lane k = s.lane k) ∧ s.PulledIn t ∧ Answered 0x0303 r 0 0 [] t) ∧
  (∀ (s : State) (r : Req), Accepted opLanePower r s → r.u8 3 = 2 → (s.lane (r.u16 0)).aligned = true → s.NoResets →
    Gives (.lanePower r) s [.hcp, .lanes, .free, .time, .xfer, .bgls, .bglIns, .channels, .upl, .strm, .comp, .flt, .cap] fun t =>
      (t.lane (r.u16 0)).rxPower = 2 ∧ (t.lane (r.u16 0)).aligned = false ∧
      (∀ n, s.laneBgl (r.u16 0) = some n → (t.bgl n).state ≠ .up) ∧
      (∀ p, s.lanePort (r.u16 0) = some p → (t.port p).state ≠ .up) ∧ Answered 0x0303 r 0 0 [] t) ∧
  (∀ (s : State) (l : Fin 160) (k : Nat), s.Inv → (s.lane l).rxWaking = some k →
    Gives (.laneWakeComplete l true) s [.lanes] fun t =>
      t.lanes = tset {} s.lanes l { s.lane l with rxPower := 0, rxWaking := none }) ∧
  (∀ (s : State) (l : Fin 160), s.Inv → (s.lane l).txWaking = true →
    Gives (.laneWakeComplete l false) s [.lanes, .time, .xfer] fun t =>
      t.lanes = tset {} s.lanes l { s.lane l with txPower := 0, txWaking := false } ∧ s.PulledIn t) ∧
  (∀ (s : State) (r : Req), Accepted opLaneReeq r s → (∀ p, s.lanePort (r.u16 0) = some p → (s.port p).state ≠ .up) →
    Gives (.laneReeq r) s [.hcp, .lanes, .ledger, .free] fun t =>
      t.lane (r.u16 0) = { s.lane (r.u16 0) with
        reeq := some (s.jobOf opLaneReeq r), prbs := (t.lane (r.u16 0)).prbs } ∧
      (∀ k, k ≠ r.u16 0 → t.lane k = s.lane k) ∧ Answered 0x0304 r 1 (s.jobOf opLaneReeq r).slot [] t) ∧
  (∀ (s : State) (r : Req) (p : Nat), Accepted opLaneReeq r s → s.lanePort (r.u16 0) = some p → (s.port p).state = .up →
    Gives (.laneReeq r) s [.hcp, .lanes, .ledger, .free, .upl, .strm, .flt, .comp] fun t =>
      (t.lane (r.u16 0)).reeq = some (s.jobOf opLaneReeq r) ∧ (t.port p).state = .down ∧
      Answered 0x0304 r 1 (s.jobOf opLaneReeq r).slot [] t) ∧
  (∀ (s : State) (l : Fin 160) (ctle eyeH eyeV : Byte) (j : JobRef), s.Inv → (s.lane l).reeq = some j → s.hears j →
    Gives (.reeqComplete l ctle eyeH eyeV) s [.hcp, .lanes, .upl] fun t =>
      t.lanes = tset {} s.lanes l { s.lane l with
        reeq := none, ctle := ctle &&& 0x1F, eyeH := eyeH, eyeV := eyeV
        prbs := { (s.lane l).prbs with countTick := s.tick } } ∧ s.GoodSince l t ∧
      Told j 0 0 ([eyeH, eyeV] ++ zeros 2) s t) ∧
  (∀ (s : State) (l : Fin 160) (inverted : Bool) (ctle eyeH eyeV : Byte), s.Inv → (s.lane l).rxPower = 0 →
      1 ≤ (s.lane l).protocol → (s.lane l).protocol ≤ 7 → (s.lane l).aligned = false → (s.lane l).reeq = none →
      s.rawLane l = false → s.laneHeld l = false →
    Gives (.laneAcquired l inverted ctle eyeH eyeV) s [.hcp, .lanes, .free, .upl] fun t =>
      t.lane l = { s.lane l with
        signal := true, cdr := true, aligned := true, inverted := inverted, ctle := ctle &&& 0x1F, eyeH := eyeH, eyeV := eyeV
        codeErrors := (t.lane l).codeErrors } ∧ (∀ k, k ≠ l.val → t.lane k = s.lane k) ∧ s.GoodSince l t) ∧
  (∀ (s : State) (l : Fin 160) (cdr : Bool), s.Inv → (s.lane l).rxPower = 0 → 1 ≤ (s.lane l).protocol →
      (s.lane l).protocol ≤ 7 → ((s.lane l).aligned = true ∨ (s.lane l).cdr = true ∧ cdr = false) →
      (∀ n, s.laneBgl l = some n → (s.bgl n).state ≠ .up) → (∀ p, s.lanePort l = some p → (s.port p).state ≠ .up) →
      Quietly 4 0 l.val s → Quietly 2 1 l.val s →
    Gives (.laneLockLost l cdr) s [.hcp, .lanes, .free, .flt, .xfer] fun t =>
      t.lane l = { s.lane l with
        aligned := false, cdr := (s.lane l).cdr && cdr, signal := (s.lane l).signal && cdr
        losses := (s.lane l).losses + if (s.lane l).aligned = true then 1 else 0, codeErrors := (t.lane l).codeErrors } ∧
      (∀ k, k ≠ l.val → t.lane k = s.lane k) ∧
      t.xfer = { s.xfer with phases := tset {} s.xfer.phases l { s.phase12 l with valid := false, slip := true } } ∧
      (t.blk 4).sticky.getLsbD 0 = true ∧ (t.blk 2).sticky.getLsbD 1 = true)

/-- Bamgiusk Links (parts of R114, R143, R148-R153, R160, R161, R174, R178; Tables LANE-3, LANE-4 and LANE-10): a link is enabled and
disabled, one in UP leaves UP first (as two steps, log entry 110); BGL_LINK_STATUS reports; each new 65,536 ns the link sends its
marker on the lanes that send, with its training blocks until a trained link is UP, with the interval's frames on a link that is
UP; block lock leads to TRAINING or DESKEW, training blocks that agree to DESKEW, others to the mismatch and its wait; aligned
markers within 40 ns lead to UP, in trained start once READY has come on every lane, until then the link sends READY; 1 ms without
leads back; a converter link that falls is noted. -/
def Obligations.BamgiuskLinksComeUpAndGoDown : Prop :=
  (∀ (s : State) (r : Req), Accepted opBglLinkConfig r s → (s.bgl (r.u8 0)).state ≠ .up → r.u8 1 ≠ 0 →
    Gives (.bglLinkConfig r) s [.hcp, .bgls, .time, .xfer] fun t =>
      t.bgls = tset {} s.bgls (r.u8 0) { s.bgl (r.u8 0) with
        state := if r.u8 3 = 2 then .rawAlign else .locking, mode := r.u8 1, width := r.u8 2, start := r.u8 3
        first := r.u16 4, easel := r.u8 6, rate := if r.u8 7 = 0 then 10312500 else 25781250
        linkId := BitVec.ofNat 8 (r.u8 8), wiring := if r.u8 3 = 0 then [] else r.bytes 0xC 16, reversed := false
        wiringWait := none, readyTx := false, readyRx := false, stateTick := s.tick
        lastMarker := nsOf s.now / 65536 } ∧ s.PulledIn t ∧ Answered 0x0305 r 0 0 [] t) ∧
  (∀ (s : State) (r : Req), Accepted opBglLinkConfig r s → (s.bgl (r.u8 0)).state ≠ .up → r.u8 1 = 0 →
    Gives (.bglLinkConfig r) s [.hcp, .bgls] fun t =>
      t.bgls = tset {} s.bgls (r.u8 0) { s.bgl (r.u8 0) with
        state := .disabled, mode := 0, wiringWait := none, readyTx := false, readyRx := false, stateTick := s.tick
        out1 := [] } ∧ Answered 0x0305 r 0 0 [] t) ∧
  (∀ (s : State) (r : Req), Accepted opBglLinkConfig r s → (s.bgl (r.u8 0)).state = .up → s.NoResets →
    Gives (.bglLinkConfig r) s [.hcp, .bgls, .time, .xfer, .lanes, .free, .bglIns, .channels, .flt] fun t =>
      (t.bgl (r.u8 0)).state = (if r.u8 1 = 0 then .disabled else if r.u8 3 = 2 then .rawAlign else .locking) ∧
      (t.bgl (r.u8 0)).downs = (s.bgl (r.u8 0)).downs + 1 ∧ (t.bgl (r.u8 0)).mode = r.u8 1 ∧
      (t.bglIn (r.u8 0)).base.state ≠ .aligned ∧ Answered 0x0305 r 0 0 [] t) ∧
  (∀ (s : State) (r : Req), Accepted opBglLinkStatus r s →
    Gives (.bglLinkStatus r) s [.hcp, .bgls] fun t =>
      let b := s.bgl (r.u8 0)
      t.bgls = tset {} s.bgls (r.u8 0) { b with mismatch := false } ∧
      Answered 0x0306 r 0 0 (le 1 (r.u8 0) ++ le 1 (bglCode b.state) ++ le 1 b.mode ++ le 1 b.width ++ le 2 b.first
        ++ le 1 b.start ++ le 1 (mask [b.reversed, b.mismatch, b.readyRx]) ++ le 2 (s.polarity b) ++ le 2 b.skew.toNat
        ++ le 2 b.sender.toNat ++ le 2 b.downs.toNat ++ ts96 b.upTime ++ zeros 4) t) ∧
  (∀ (s : State) (n : Fin 64), s.Inv → (s.bgl n).state ≠ .disabled → (s.bgl n).state ≠ .up →
      nsOf s.now / 65536 ≠ (s.bgl n).lastMarker →
    Gives (.bglMarkerTx n) s [.bgls] fun t =>
      t.bgls = tset {} s.bgls n { s.bgl n with lastMarker := nsOf s.now / 65536 } ∧
      (s.sending (s.bgl n) ≠ [] →
        Emission.bglMarker n (s.sending (s.bgl n)) (markerBlock s.chip.hubId (s.bgl n).readyTx) ∈ t.emitted ∧
        ((s.bgl n).start = 0 → Emission.bglTraining n ((s.sending (s.bgl n)).map fun l =>
          trainingBlock (l - (s.bgl n).first) (s.bgl n).width (s.bgl n).linkId s.chip.hubId (s.bgl n).readyTx) ∈ t.emitted))) ∧
  (∀ (s : State) (n : Fin 64), s.Inv → (s.bgl n).state = .up → (s.bgl n).first ∈ s.sending (s.bgl n) →
      nsOf s.now / 65536 ≠ (s.bgl n).lastMarker →
    Gives (.bglMarkerTx n) s [.bgls] fun t =>
      let out := (s.bgl n).out1 ++ (if (s.bgl n).mode = 1 then
        messageBlocks 1 (messageBytes 4 (le 4 (s.phaseWord (s.bgl n).first) ++ ts96 (s.phase12 (s.bgl n).first).time)) else [])
      t.bgls = tset {} s.bgls n { s.bgl n with lastMarker := nsOf s.now / 65536, out1 := out.drop 1024 } ∧
      Emission.bglMarker n (s.sending (s.bgl n)) (markerBlock s.chip.hubId (s.bgl n).readyTx) ∈ t.emitted ∧
      Emission.bglFrames n (((List.range 1024).map fun i =>
        (hubHeader (qCode s.time.quality) (1024 * (nsOf s.now / 65536) + i), out.getD i idleMessageBlock))) ∈ t.emitted) ∧
  (∀ (s : State) (n : Fin 64) (octets : Bytes), s.Inv → (s.bgl n).state = .locking → (s.bgl n).wiringWait = none →
      (∀ l ∈ (s.bgl n).lanes, (s.lane l).aligned = true) →
      s.inReset 4 (256 + n.val) = false → octets.length = (s.bgl n).width →
      (∀ o ∈ octets, o = lockOctet (s.bgl n) ∨ o = ~~~lockOctet (s.bgl n)) →
    Gives (.bglLanesLocked n octets) s [.bgls, .lanes] fun t =>
      t.bgls = tset {} s.bgls n { s.bgl n with
        state := if (s.bgl n).start = 0 then .training else .deskew, stateTick := s.tick } ∧
      (∀ i, i < (s.bgl n).width → t.lane ((s.bgl n).first + i) = { s.lane ((s.bgl n).first + i) with
        inverted := octets.getD i 0 == ~~~lockOctet (s.bgl n) }) ∧
      ∀ l, l ∉ (s.bgl n).lanes → t.lane l = s.lane l) ∧
  (∀ (s : State) (n : Fin 64) (order widths ids : Bytes) (rest : List Bytes) (reversed : Bool), s.Inv →
      (s.bgl n).state = .training → rest.length = (s.bgl n).width →
      (∀ b ∈ trainingBlocks order widths ids rest, checkHolds b = true) →
      widths.map (·.toNat) = List.replicate (s.bgl n).width (s.bgl n).width →
      ids = List.replicate (s.bgl n).width (s.bgl n).linkId → (reversed = true → 2 ≤ (s.bgl n).width) →
      order.map (·.toNat) = (if reversed then (List.range (s.bgl n).width).reverse else List.range (s.bgl n).width) →
    Gives (.bglTrainingResult n order widths ids rest) s [.bgls] fun t =>
      t.bgls = tset {} s.bgls n { s.bgl n with
        sender := BitVec.ofNat 16 (getU (rest.headD []) 0 2), stateTick := s.tick, state := .deskew, reversed := reversed }) ∧
  (∀ (s : State) (n : Fin 64) (order widths ids : Bytes) (rest : List Bytes), s.Inv → (s.bgl n).state = .training →
      rest.length = (s.bgl n).width → order.length = rest.length → widths.length = rest.length → ids.length = rest.length →
      (∀ b ∈ trainingBlocks order widths ids rest, checkHolds b = true) →
      ((∃ w ∈ widths, w.toNat ≠ (s.bgl n).width) ∨ (∃ d ∈ ids, d ≠ (s.bgl n).linkId) ∨
        order.map (·.toNat) ≠ List.range (s.bgl n).width ∧ order.map (·.toNat) ≠ (List.range (s.bgl n).width).reverse) →
      Quietly 4 2 (256 + n.val) s →
    Gives (.bglTrainingResult n order widths ids rest) s [.bgls, .lanes, .hcp, .free, .flt] fun t =>
      t.bgls = tset {} s.bgls n { s.bgl n with
        sender := BitVec.ofNat 16 (getU (rest.headD []) 0 2), stateTick := s.tick, state := .locking, mismatch := true
        wiringWait := some s.tick } ∧ Noted 4 2 (256 + n.val) s t) ∧
  (∀ (s : State) (n : Fin 64) (k : Nat), s.Inv → (s.bgl n).state = .locking → (s.bgl n).wiringWait = some k →
      k + 10000000 ≤ s.tick →
    Gives (.bglWiringWaitEnd n) s [.bgls] fun t => t.bgls = tset {} s.bgls n { s.bgl n with wiringWait := none }) ∧
  (∀ (s : State) (n : Fin 64) (skew : Nat) (ready : Bool) (sender : W16), s.Inv → (s.bgl n).state = .deskew →
      skew ≤ 40000 → ((s.bgl n).start ≠ 0 ∨ ready = true) → s.inReset 4 (256 + n.val) = false →
    Gives (.bglLinkUp n skew ready sender) s [.bgls, .lanes, .hcp, .free] fun t =>
      t.bgls = tset {} s.bgls n { s.bgl n with
        state := .up, readyTx := true, readyRx := ready, skew := BitVec.ofNat 16 skew, sender := sender, upTime := s.now
        stateTick := s.tick }) ∧
  (∀ (s : State) (n : Fin 64) (skew : Nat) (sender : W16), s.Inv → (s.bgl n).state = .deskew → skew ≤ 40000 →
      (s.bgl n).start = 0 → s.inReset 4 (256 + n.val) = false →
    Gives (.bglLinkUp n skew false sender) s [.bgls] fun t => t.bgls = tset {} s.bgls n { s.bgl n with
      readyTx := true, skew := BitVec.ofNat 16 skew, sender := sender }) ∧
  (∀ (s : State) (n : Fin 64), s.Inv → (s.bgl n).state = .deskew → (s.bgl n).readyTx = false →
      (s.bgl n).stateTick + 1000000 ≤ s.tick →
    Gives (.bglDeskewTimeout n) s [.bgls, .hcp, .lanes, .free] fun t => t.bgls = tset {} s.bgls n { s.bgl n with
      state := if (s.bgl n).start = 2 then .rawAlign else .locking, stateTick := s.tick }) ∧
  (∀ (s : State) (n : Fin 64), s.Inv → (s.bgl n).state = .up → (s.bgl n).mode = 1 →
      (s.bglIn n).base.state ≠ .aligned → Quietly 4 1 (256 + n.val) s →
    Gives (.bglLinkDown n) s [.bgls, .lanes, .hcp, .free, .flt] fun t =>
      t.bgls = tset {} s.bgls n { s.bgl n with
        state := if (s.bgl n).start = 2 then .rawAlign else .locking, downs := (s.bgl n).downs + 1, readyTx := false
        readyRx := false, stateTick := s.tick } ∧ Noted 4 1 (256 + n.val) s t) ∧
  (∀ (s : State) (n : Fin 64), s.Inv → (s.bgl n).state = .up → s.NoResets → s.faultsHeld = false →
    Gives (.bglLinkDown n) s [.bgls, .lanes, .hcp, .free, .flt, .bglIns, .channels, .xfer, .time] fun t =>
      (t.bgl n).state = (if (s.bgl n).start = 2 then .rawAlign else .locking) ∧ (t.bgl n).downs = (s.bgl n).downs + 1 ∧
      (t.bglIn n).base.state ≠ .aligned ∧ ∀ c ∈ s.linkChans 2 n, (t.chan c).state ≠ .running)

/-- Raw alignment and PRBS checks (parts of R152, R154, R158, R159, R181; Tables LANE-11 and LANE-12): a bit-slip moves its
target, modulo 66 bits for a lane and 64 for a data line; a raw capture reports the offset and bits that nothing constrains, of a
data line also which of its four words equal the test word (log entry 104); a commit fixes the polarity that the received marker
shows (a free value) and leads to DESKEW; PRBS_CONFIG and PRBS_READ act on the lane's patterns and counts, the checked bits being
those that the line rate brings (log entry 105); the checker locks on the bits that it predicts, and its loss is counted. -/
def Obligations.RawAlignmentAndPrbsChecks : Prop :=
  (∀ (s : State) (r : Req), Accepted opLaneBitslip r s → r.u8 0 = 0 →
    Gives (.laneBitslip r) s [.hcp, .lanes] fun t =>
      let x := s.lane (r.u16 2)
      t.lanes = tset {} s.lanes (r.u16 2) { x with slip := (x.slip + r.u8 4) % 66 } ∧
      Answered 0x0307 r 0 0 (le 1 ((x.slip + r.u8 4) % 66) ++ zeros 3) t) ∧
  (∀ (s : State) (r : Req), Accepted opLaneBitslip r s → r.u8 0 = 1 →
    Gives (.laneBitslip r) s [.hcp, .scps] fun t =>
      let x := s.scp (r.u8 1)
      t.scps = tset {} s.scps (r.u8 1) { x with slip := tset 0 x.slip (r.u16 2) ((tget 0 x.slip (r.u16 2) + r.u8 4) % 64) } ∧
      Answered 0x0307 r 0 0 (le 1 ((tget 0 x.slip (r.u16 2) + r.u8 4) % 64) ++ zeros 3) t) ∧
  (∀ (s : State) (r : Req), Accepted opLaneRawCapture r s → r.u8 0 = 0 →
    Gives (.laneRawCapture r) s [.hcp, .free] fun t =>
      ∃ w : Bytes, Answered 0x0308 r 0 0 (le 1 (s.lane (r.u16 2)).slip ++ zeros 3 ++ w) t ∧ w.length = 36) ∧
  (∀ (s : State) (r : Req), Accepted opLaneRawCapture r s → r.u8 0 = 1 →
    Gives (.laneRawCapture r) s [.hcp, .free] fun t =>
      ∃ w : Bytes, Answered 0x0308 r 0 0 (le 1 (tget 0 (s.scp (r.u8 1)).slip (r.u16 2))
        ++ le 1 (mask ((List.range 4).map fun i => getU w (4 * i) 4 == (s.scp (r.u8 1)).testWord.toNat)) ++ zeros 2 ++ w) t ∧
        w.length = 36) ∧
  (∀ (s : State) (r : Req), Accepted opLaneRawCommit r s →
    Gives (.laneRawCommit r) s [.hcp, .bgls, .lanes, .free] fun t =>
      let b := s.bgl (r.u8 0)
      t.bgls = tset {} s.bgls (r.u8 0) { b with state := .deskew, stateTick := s.tick } ∧
      (∀ l, t.lane l = if b.first ≤ l ∧ l < b.first + b.width then
        { s.lane l with signal := true, cdr := true, aligned := true, inverted := (t.lane l).inverted } else s.lane l) ∧
      Answered 0x0309 r 0 0 [] t) ∧
  (∀ (s : State) (r : Req), Accepted opPrbsConfig r s →
    Gives (.prbsConfig r) s [.hcp, .lanes, .free] fun t =>
      let x := s.lane (r.u16 0)
      let same := x.prbs.rx = r.u8 3 ∧ x.rate = r.u32 4
      let p := (t.lane (r.u16 0)).prbs
      t.lane (r.u16 0) = { x with rate := r.u32 4, prbs := p } ∧ (∀ k, k ≠ r.u16 0 → t.lane k = s.lane k) ∧
      p.tx = r.u8 2 ∧ p.rx = r.u8 3 ∧ p.locked = (x.prbs.locked && decide same) ∧ p.inverted = (x.prbs.inverted && decide same) ∧
      (if bit (r.u8 8) 1 then p.losses = 0 ∧ p.bits = 0 ∧ p.errors = 0 ∧ p.since = s.now
       else p.losses = x.prbs.losses ∧ p.since = x.prbs.since ∧ p.bits = (x.checked s.tick).bits) ∧
      (bit (r.u8 8) 0 = true → r.u8 2 ≠ 0 → x.txPower = 0 → Emission.prbsFlip (r.u16 0) ∈ t.emitted) ∧
      Answered 0x030A r 0 0 [] t) ∧
  (∀ (s : State) (r : Req), Accepted opPrbsRead r s →
    Gives (.prbsRead r) s [.hcp, .lanes, .free] fun t => ∃ p, Answered 0x030B r 0 0 p t ∧
      let x := s.lane (r.u16 0)
      p = le 2 (r.u16 0) ++ le 1 (mask [x.prbs.locked, x.prbs.inverted]) ++ zeros 1 ++ le 4 x.prbs.losses.toNat
        ++ le 8 (x.checked s.tick).bits.toNat ++ le 8 (getU p 16 8) ++ ts96 x.prbs.since ++ zeros 4 ∧
      (x.prbs.locked = false → getU p 16 8 = x.prbs.errors.toNat) ∧
      (∀ k, k ≠ r.u16 0 → t.lane k = s.lane k) ∧
      t.lane (r.u16 0) = (if bit (r.u8 2) 0 then
          { x with prbs := { x.checked s.tick with losses := 0, bits := 0, errors := 0, since := s.now } }
        else { x with prbs := { x.checked s.tick with errors := BitVec.ofNat 64 (getU p 16 8) } })) ∧
  (∀ (s : State) (l : Fin 160) (bits : List Bool) (inv : Bool), s.Inv → (s.lane l).protocol = 8 → (s.lane l).rxPower = 0 →
      (s.lane l).prbs.rx ≠ 0 → (s.lane l).prbs.locked = false → s.laneHeld l = false →
      prbsPredicts (s.lane l).prbs.rx bits = !inv → (inv = true → prbsPredicts (s.lane l).prbs.rx (bits.map not) = true) →
    Gives (.prbsLock l bits) s [.lanes] fun t => t.lanes = tset {} s.lanes l { s.lane l with
      signal := true, cdr := true, inverted := inv
      prbs := { (s.lane l).prbs with locked := true, inverted := inv, countTick := s.tick } }) ∧
  (∀ (s : State) (l : Fin 160) (errors lastErrors : Nat), s.Inv → (s.lane l).protocol = 8 → (s.lane l).prbs.locked = true →
      (s.lane l).reeq = none → 256 ≤ lastErrors →
    Gives (.prbsLockLoss l errors lastErrors) s [.lanes] fun t => t.lanes = tset {} s.lanes l { s.lane l with
      prbs := { (s.lane l).checked s.tick with
        locked := false, losses := (s.lane l).prbs.losses + 1
        errors := (s.lane l).prbs.errors + BitVec.ofNat 64 (min ((s.lane l).newBits s.tick) errors) } })

/-! ## Inputs and channels (06_inputs) -/

/-- Device clocks, SYSREF outputs and the link configurations (parts of R166, R167, R168, R171, R176, R179, R182; Tables
INP-9 to INP-13): each configuration takes its request's fields; a clock that starts or changes its frequency is held low
until it restarts on its next edge; a SYSREF configuration takes the place of the output's calendar entry; a link's
configuration leads to CONFIGURED, and one of version or standard 0 to UNCONFIGURED, without a latency. -/
def Obligations.ClocksAndInputLinksTakeTheirConfiguration : Prop :=
  (∀ (s : State) (r : Req), Accepted opDclkConfig r s → r.sched = false → r.u8 1 = 1 →
    Gives (.dclkConfig r) s [.hcp, .dclks, .ledger] fun t =>
      let d := s.dclk (r.u8 0)
      t.dclks = tset {} s.dclks (r.u8 0) { d with
        enabled := true, freq := r.u32 4, phase := r.u16 2, held := d.held || !d.enabled || decide (d.freq ≠ r.u32 4) } ∧
      Answered 0x0401 r 0 0 [] t) ∧
  (∀ (s : State) (r : Req), Accepted opDclkConfig r s → r.sched = false → r.u8 1 = 0 →
    Gives (.dclkConfig r) s [.hcp, .dclks, .ledger] fun t =>
      t.dclks = tset {} s.dclks (r.u8 0) { s.dclk (r.u8 0) with enabled := false, held := false } ∧
      Answered 0x0401 r 0 0 [] t) ∧
  (∀ (s : State) (r : Req), Accepted opDclkConfig r s → r.sched = true →
    Gives (.dclkConfig r) s [.hcp, .cal, .ledger] fun t =>
      t.cal = { s.cal with
        entries := s.cal.entries ++ [{
          time := ofTs80 r.time, cls := 3, ins := s.cal.nextIns
          action := .dclk (r.u8 0) (bit (r.u8 1) 0) (r.u16 2) (r.u32 4), job := some (s.jobOf opDclkConfig r) }]
        nextIns := s.cal.nextIns + 1 } ∧ Answered 0x0401 r 1 (s.jobOf opDclkConfig r).slot [] t) ∧
  (∀ (s : State) (o : Fin 32), s.Inv → (s.dclk o).enabled = true → (s.dclk o).held = true → s.chip.phase ≠ .off →
    Gives (.dclkRestart o) s [.dclks] fun t =>
      t.dclks = tset {} s.dclks o { s.dclk o with held := false, started := (s.dclk o).started + 1 } ∧
      Emission.dclk o (rheR ((s.dclk o).nextEdge s.now)) ∈ t.emitted) ∧
  (∀ (s : State) (r : Req), Accepted opSrefConfig r s → r.u8 1 ≠ 0 →
    Gives (.srefConfig r) s [.hcp, .srefs, .cal, .ledger] fun t =>
      t.srefs = tset {} s.srefs (r.u8 0) { s.sref (r.u8 0) with
        mode := r.u8 1, width := r.u8 2, dclk := r.u8 3, lead := r.u16 4, count := r.u16 6, first := r.ts96 8
        period := r.u32 0x14 } ∧
      t.cal = { s.cal with
        entries := (s.cal.entries.filter fun e => e.action ≠ .sysref (r.u8 0)) ++ [{
          time := r.ts96 8, cls := 3, ins := s.cal.nextIns, action := .sysref (r.u8 0), period := r.u32 0x14
          reps := if r.u8 1 = 1 then some (r.u16 6) else none }]
        nextIns := s.cal.nextIns + 1 } ∧ Answered 0x0402 r 0 0 [] t) ∧
  (∀ (s : State) (r : Req), Accepted opSrefConfig r s → r.u8 1 = 0 →
    Gives (.srefConfig r) s [.hcp, .srefs, .cal, .ledger] fun t =>
      t.srefs = tset {} s.srefs (r.u8 0) { s.sref (r.u8 0) with mode := 0 } ∧
      t.cal = { s.cal with entries := s.cal.entries.filter fun e => e.action ≠ .sysref (r.u8 0) } ∧
      Answered 0x0402 r 0 0 [] t) ∧
  (∀ (s : State) (r : Req), Accepted opJesdLinkConfig r s → r.u8 1 ≠ 0 →
    Gives (.jesdLinkConfig r) s [.hcp, .jesds, .ledger] fun t =>
      let j := t.jesd (r.u8 0)
      j.base = { (s.jesd (r.u8 0)).base with
        state := .configured, wasLost := false, measured := false, release := 0, boundary := 0, lats := [], latsAligned := [] } ∧
      j.version = r.u8 1 ∧ j.l = r.u8 2 ∧ j.m = r.u8 3 ∧ j.f = r.u8 4 ∧ j.s = r.u8 5 ∧ j.n = r.u8 6 ∧ j.np = r.u8 7 ∧
      j.cs = r.u8 8 ∧ j.ke = r.u8 9 ∧ j.flags = BitVec.ofNat 8 (r.u8 0xA) ∧ j.sync = r.u8 0xB ∧ j.dclk = r.u8 0xC ∧
      j.sref = r.u8 0xD ∧ j.q = r.u16 0xE ∧ j.fs = r.u32 0x10 ∧ j.lambda = r.u32 0x14 ∧
      j.lanes = (List.range (r.u8 2)).map (fun i => r.u16 (0x18 + 2 * i)) ∧
      (∀ k, k ≠ r.u8 0 → t.jesd k = s.jesd k) ∧ Answered 0x0403 r 0 0 [] t) ∧
  (∀ (s : State) (r : Req), Accepted opJesdLinkConfig r s → r.u8 1 = 0 →
    Gives (.jesdLinkConfig r) s [.hcp, .jesds, .ledger] fun t =>
      (t.jesd (r.u8 0)).base.state = .unconfigured ∧ (∀ k, k ≠ r.u8 0 → t.jesd k = s.jesd k) ∧
      Answered 0x0403 r 0 0 [] t) ∧
  (∀ (s : State) (r : Req), Accepted opBglInputConfig r s →
    Gives (.bglInputConfig r) s [.hcp, .bglIns, .ledger] fun t =>
      let b := t.bglIn (r.u8 0)
      b.base.state = .configured ∧ b.base.measured = false ∧ b.m = r.u8 1 ∧ b.n = r.u8 2 ∧ b.cs = r.u8 3 ∧ b.fs = r.u32 4 ∧
      b.lambda = r.u32 8 ∧ b.lambdaAux = r.u32 0xC ∧ b.auxMask = BitVec.ofNat 32 (r.u32 0x10) ∧ b.auxN = r.u8 0x14 ∧
      b.auxCs = r.u8 0x15 ∧ b.auxFs = (List.range 32).map (fun i => r.u32 (0x18 + 4 * i)) ∧
      (∀ k, k ≠ r.u8 0 → t.bglIn k = s.bglIn k) ∧ Answered 0x0404 r 0 0 [] t) ∧
  (∀ (s : State) (r : Req), Accepted opScpConfig r s →
    Gives (.scpConfig r) s [.hcp, .scps, .ledger] fun t =>
      let p := t.scp (r.u8 0)
      (if r.u8 1 = 0 then p.base.state = .unconfigured
        else p.base.state = .configured ∧ p.standard = r.u8 1 ∧ p.lines = r.u8 2 ∧ p.slots = r.u8 3 ∧
          p.slotBits = r.u8 4 ∧ p.n = r.u8 5 ∧ p.cs = r.u8 6 ∧ p.flags = BitVec.ofNat 8 (r.u8 7) ∧ p.fs = r.u32 8 ∧
          p.sclk = r.u32 0xC ∧ p.lag = r.u8 0x10 ∧ p.checkPos = r.u8 0x11 ∧ p.checkMask = BitVec.ofNat 32 (r.u32 0x14) ∧
          p.checkValue = BitVec.ofNat 32 (r.u32 0x18) ∧ p.testWord = BitVec.ofNat 32 (r.u32 0x1C)) ∧
      p.base.measured = false ∧ p.slip = (s.scp (r.u8 0)).slip ∧ (∀ k, k ≠ r.u8 0 → t.scp k = s.scp k) ∧
      Answered 0x0405 r 0 0 [] t)

/-- Alignment, status, loss, frames and drift of input links (parts of R172, R173, R175, R177, R180, R181, R182, R183, R184, R191;
Tables INP-6, INP-7, INP-8 and INP-14): LINK_ALIGN begins a job; a JESD204B link takes those with it that share its SYNC~, which goes
low (log entry 98), and a Serial Converter Port starts on its next absolute frame; the procedure ends in ALIGNED with a release
latency, and lost channels run again; configuration octets that differ, or stamps outside the limits, end it with their flag, and the
bound's expiry without one. A loss takes the link's running channels with it; a boundary more than 2 ns off its place at alignment and
a fourth mismatching check word in a row end the alignment, smaller drift shows in the latencies; a port's slot words and a good
frame's samples arrive at their absolute index; a bad frame is counted and delivers nothing. -/
def Obligations.InputLinksAlignAndAreLost : Prop :=
  (∀ (s : State) (r : Req), Accepted opLinkAlign r s → r.u8 0 = 3 →
    Gives (.linkAlign r) s [.hcp, .scps, .ledger] fun t =>
      let p := s.scp (r.u8 1)
      t.scps = tset {} s.scps (r.u8 1) { p with
        good := 0, badRun := 0, startFrame := p.nextFrame s.now
        base := { p.base with
          state := .aligning, wasLost := p.base.state == .lost, alignTick := s.tick, job := some (s.jobOf opLinkAlign r) } } ∧
      Emission.frameSync (r.u8 1) (rheR (p.fsEdge (p.nextFrame s.now))) p.activeLow ∈ t.emitted ∧
      Answered 0x0406 r 1 (s.jobOf opLinkAlign r).slot [] t) ∧
  (∀ (s : State) (r : Req), Accepted opLinkAlign r s → r.u8 0 = 2 →
    Gives (.linkAlign r) s [.hcp, .bglIns, .ledger] fun t =>
      let b := s.bglIn (r.u8 1)
      t.bglIns = tset {} s.bglIns (r.u8 1) { b with
        nextIndex := none, auxNext := [], badRun := 0, good := 0, mark := none
        base := { b.base with
          state := .aligning, wasLost := b.base.state == .lost, alignTick := s.tick, job := some (s.jobOf opLinkAlign r) } } ∧
      Answered 0x0406 r 1 (s.jobOf opLinkAlign r).slot [] t) ∧
  (∀ (s : State) (r : Req), Accepted opLinkAlign r s → r.u8 0 = 1 →
    Gives (.linkAlign r) s [.hcp, .jesds, .cap, .ledger] fun t =>
      (∀ m, t.jesd m = if m = r.u8 1 ∨ m ∈ s.syncPartners (r.u8 1) then { s.jesd m with base := { (s.jesd m).base with
          state := .aligning, wasLost := (s.jesd m).base.state == .lost, alignTick := s.tick
          job := if m = r.u8 1 then some (s.jobOf opLinkAlign r) else none } }
        else s.jesd m) ∧
      ((s.jesd (r.u8 1)).version = 1 → (t.trigOut (s.jesd (r.u8 1)).sync).syncLow = true) ∧
      Answered 0x0406 r 1 (s.jobOf opLinkAlign r).slot [] t) ∧
  (∀ (s : State) (n : Fin 64) (f : AlignFound), s.Inv → (s.scp n).base.state = .aligning →
      s.inReset 5 (128 + n.val) = false → ((s.scp n).checkPos = 0xFF ∨ 16 ≤ (s.scp n).good) →
    Gives (.linkAlignDone .scp n f) s [.hcp, .scps, .channels, .ledger] fun t =>
      t.scps = tset {} s.scps n { s.scp n with base := { (s.scp n).base with
        state := .aligned, wasLost := false, job := none, measured := true, release := 3
        boundary := (rheR ((s.scp n).fsEdge (s.scp n).startFrame)).toNat, lats := [], latsAligned := [] } } ∧
      (∀ c, t.chan c = if c ∈ s.linkChans 3 n ∧ (s.chan c).state = .lost then { s.chan c with state := .running } else s.chan c) ∧
      (∀ j, (s.scp n).base.job = some j → s.hears j → Completed j 0 0 s t)) ∧
  (∀ (s : State) (n : Fin 64) (f : AlignFound), s.Inv → (s.jesd n).base.state = .aligning → s.inReset 5 n = false →
      f.stamps.length = (s.jesd n).l → f.stamps ≠ [] → s.NoResets →
    Gives (.linkAlignDone .jesd n f) s [.hcp, .jesds, .channels, .cap, .flt, .ledger] fun t =>
      let j := s.jesd n
      let a : Rat := ((f.stamps.headD 0 : Nat) : Rat)
      let b := j.boundary (j.nearest (a - (j.lambda : Rat)))
      let lats : List Rat := f.stamps.map fun (x : Nat) => (x : Rat) - b
      let d := a - b - (j.lambda : Rat)
      (if j.version = 1 ∧ f.configMatches = false then (Quietly 5 2 n.val s → Noted 5 2 n.val s t) ∧ (t.jesd n).base.flags = j.base.flags ||| 2
      else t.flt = s.flt ∧
        if j.tmf * 65536 / 4 < max d (-d) then (t.jesd n).base.flags = j.base.flags ||| 8
        else if 100 * 65536 < maxRat lats - minRat lats then (t.jesd n).base.flags = j.base.flags ||| 4
        else (t.jesd n).base = { j.base with
          state := .aligned, wasLost := false, job := none, measured := true, release := (ceilR (maxRat lats / 65536)).toNat + 4
          boundary := (rheR b).toNat, lats := lats.map rheR, latsAligned := lats.map rheR }) ∧
      ((t.jesd n).base.state ≠ .aligned → (t.jesd n).base.state = if j.base.wasLost then .lost else .configured) ∧
      (∀ k, k ≠ n.val → t.jesd k = s.jesd k) ∧
      (∀ q, j.base.job = some q → s.hears q → Completed q 0 0 s t)) ∧
  (∀ (s : State) (n : Fin 64) (f : AlignFound) (i : Int) (a : T16), s.Inv → (s.bglIn n).base.state = .aligning →
      s.inReset 5 (64 + n.val) = false → (s.bgl n).state = .up → 1024 ≤ (s.bglIn n).good → (s.bglIn n).mark = some (i, a) →
    Gives (.linkAlignDone .bgl n f) s [.hcp, .bglIns, .channels, .ledger] fun t =>
      let b := s.bglIn n
      let first : Rat := (i : Rat) * unitsPerSec / (b.rate : Rat)
      t.bglIns = tset {} s.bglIns n { b with base := { b.base with
        state := .aligned, wasLost := false, job := none, measured := true, release := (ceilR (((a : Rat) - first) / 65536)).toNat + 4
        boundary := (rheR first).toNat, lats := [rheR ((a : Rat) - first)], latsAligned := [rheR ((a : Rat) - first)] } } ∧
      (∀ j, b.base.job = some j → s.hears j → Completed j 0 0 s t)) ∧
  (∀ (s : State) (k : LinkKind) (n : Fin 64), s.Inv → (s.link (kindCode k) n).state = .aligning →
      (s.link (kindCode k) n).alignTick + s.alignBound (kindCode k) n ≤ s.tick →
    Gives (.alignBoundExpiry k n) s [.hcp, .jesds, .bglIns, .scps, .cap] fun t =>
      let b := s.link (kindCode k) n
      t.link (kindCode k) n = (if b.wasLost then { b with state := .lost, wasLost := false, job := none }
        else { b with
          state := .configured, job := none, measured := false, release := 0, boundary := 0, lats := [], latsAligned := [] }) ∧
      (∀ j, b.job = some j → s.hears j → Completed j 0 0 s t)) ∧
  (∀ (s : State) (r : Req), Accepted opLinkStatus r s →
    Gives (.linkStatus r) s [.hcp, .jesds, .bglIns, .scps, .free] fun t =>
      let b := s.link (r.u8 0) (r.u8 1)
      ∃ e : Nat, t.link (r.u8 0) (r.u8 1) = { b with flags := b.flags &&& 0xE0, errors := BitVec.ofNat 32 e } ∧
        b.errors.toNat ≤ e ∧ e < 2 ^ 32 ∧
        (r.u8 0 ≠ 1 ∨ b.state ≠ .aligned ∧ b.state ≠ .aligning → e = b.errors.toNat) ∧
        Answered 0x0407 r 0 0 (linkStatus s (r.u8 0) (r.u8 1) e) t) ∧
  (∀ (s : State) (k : LinkKind) (n : Fin 64), s.Inv → (s.link (kindCode k) n).state = .aligned →
      Quietly 5 0 (64 * (kindCode k - 1) + n.val) s →
    Gives (.inputLinkLost k n) s [.jesds, .bglIns, .scps, .channels, .hcp, .flt] fun t =>
      t.link (kindCode k) n = { s.link (kindCode k) n with
        state := .lost, wasLost := false, losses := (s.link (kindCode k) n).losses + 1 } ∧
      (∀ c ∈ s.linkChans (kindCode k) n, (s.chan c).state = .running → (t.chan c).state = .lost) ∧
      (∀ c, (s.chan c).state ≠ .running → t.chan c = s.chan c) ∧ Noted 5 0 (64 * (kindCode k - 1) + n.val) s t) ∧
  (∀ (s : State) (n : Fin 64) (stamps : List T16), s.Inv → (s.jesd n).base.state = .aligned →
      stamps.length = (s.jesd n).base.latsAligned.length → stamps ≠ [] → s.NoResets →
    Gives (.multiframeBoundaryStamp n stamps) s [.jesds, .channels, .hcp, .flt] fun t =>
      let j := s.jesd n
      let b := j.boundary (j.nearest (((stamps.headD 0 : Nat) : Rat) - ((j.base.latsAligned.headD 0 : Int) : Rat)))
      let lats : List Int := stamps.map fun (a : Nat) => rheR ((a : Rat) - b)
      if ∃ x ∈ lats.zip j.base.latsAligned, 131072 < (x.1 - x.2).natAbs then
        (t.jesd n).base = { j.base with
          state := .lost, wasLost := false, flags := j.base.flags ||| 1, losses := j.base.losses + 1 }
      else t.jesds = tset {} s.jesds n { j with base := { j.base with lats := lats } } ∧
        t.channels = s.channels ∧ t.flt = s.flt) ∧
  (∀ (s : State) (n : Fin 16) (f : ScpFrame), s.Inv →
      ((s.scp n).base.state = .aligning ∨ (s.scp n).base.state = .aligned) → (s.scp n).startFrame ≤ f.index → s.NoResets →
    Gives (.scpFrameRx n f) s [.scps, .channels, .hcp, .flt] fun t =>
      let p := s.scp n
      let word := fun (pos : Nat) => p.slotWord (pos / 16) (pos % 16) (f.lines.getD (pos / 16) [])
      let matching := BitVec.ofNat 32 (word p.checkPos) &&& p.checkMask = p.checkValue
      (∀ c ∈ s.linkChans 3 n, (s.chan c).releases = true → (s.chan c).kNext ≤ (s.chan c).ofAbs (f.index - p.lag) →
        ((s.chan c).ofAbs (f.index - p.lag), BitVec.ofNat 32 (word (s.chan c).position * 2 ^ (32 - p.slotBits))) ∈ (t.chan c).arrived) ∧
      (∀ k, k ≠ n.val → t.scp k = s.scp k) ∧
      (if p.checkPos = 0xFF then t.scps = s.scps
      else if matching then t.scp n = { p with good := p.good + 1, badRun := 0 }
      else if p.badRun < 3 then t.scp n = { p with good := 0, badRun := p.badRun + 1 }
      else t.scp n = { p with
        good := 0, badRun := 0
        base := if p.base.state = .aligned then
            { p.base with state := .lost, wasLost := false, flags := p.base.flags ||| 16, losses := p.base.losses + 1 }
          else { p.base with flags := p.base.flags ||| 16 } })) ∧
  (∀ (s : State) (n : Fin 64) (f : BglFrame) (h : Bytes), s.Inv → (s.bgl n).state = .up → s.discards (s.bgl n).lanes = false →
      ((s.bglIn n).base.state = .aligning ∨ (s.bglIn n).base.state = .aligned) → frameHeader f = some h → bit (getU h 2 1) 0 = true →
      (let b := s.bglIn n
       let p := framePayload (s.bgl n).width (blocksPerFrame (s.bgl n).rate) f
       let first := extendIndex 32 (getU h 3 4) (max 1 b.rate) ((f.arrival : Rat) - (b.lambda : Rat))
       payloadCrc p = true ∧ auxBreaks b (s.frameAux n f (getU h 1 1)) = false ∧ getU h 1 1 ≤ frameCount b.fs ∧
         (∀ i, b.nextIndex = some i → i = first)) →
    Gives (.bglFrameRx n f) s [.bglIns, .channels] fun t =>
      let b := s.bglIn n
      let p := framePayload (s.bgl n).width (blocksPerFrame (s.bgl n).rate) f
      let first := extendIndex 32 (getU h 3 4) (max 1 b.rate) ((f.arrival : Rat) - (b.lambda : Rat))
      t.bglIns = tset {} s.bglIns n { b with
        nextIndex := some (first + (getU h 1 1 : Int))
        auxNext := (s.frameAux n f (getU h 1 1)).foldl (fun t e => tset 0 t e.1 (e.2.1 + 2)) b.auxNext, badRun := 0, good := b.good + 1, timeLocked := true
        mark := if b.base.state = .aligning ∧ b.good = 0 then some (first, f.arrival) else b.mark } ∧
      (∀ c ∈ s.linkChans 2 n, (s.chan c).releases = true → (s.chan c).kind = 2 → ∀ i < getU h 1 1,
        (s.chan c).kNext ≤ (s.chan c).ofAbs (first + (i : Int)) →
        ((s.chan c).ofAbs (first + (i : Int)), BitVec.ofNat 32 (sampleWord p b.m i (s.chan c).position)) ∈ (t.chan c).arrived) ∧
      (∀ c ∈ s.linkChans 2 n, (s.chan c).releases = true → (s.chan c).kind ≠ 2 → ∀ e ∈ s.frameAux n f (getU h 1 1),
        e.1 = (s.chan c).position → (s.chan c).kNext ≤ (s.chan c).ofAbs e.2.1 →
        ((s.chan c).ofAbs e.2.1, BitVec.ofNat 32 e.2.2) ∈ (t.chan c).arrived)) ∧
  (∀ (s : State) (n : Fin 64) (f : BglFrame), s.Inv → (s.bgl n).state = .up → s.discards (s.bgl n).lanes = false →
      ((s.bglIn n).base.state = .aligning ∨ (s.bglIn n).base.state = .aligned) →
      payloadCrc (framePayload (s.bgl n).width (blocksPerFrame (s.bgl n).rate) f) = false → s.NoResets →
    Gives (.bglFrameRx n f) s [.bglIns, .channels, .hcp, .flt] fun t =>
      let b := s.bglIn n
      (t.bglIn n).badRun = b.badRun + 1 ∧ (t.bglIn n).good = 0 ∧ (t.bglIn n).base.badFrames = b.base.badFrames + 1 ∧
      (t.bglIn n).base.errors.toNat = min 0xFFFFFFFF (b.base.errors.toNat + 1) ∧
      (b.base.state = .aligned → 15 ≤ b.badRun → (t.bglIn n).base.state = .lost) ∧
      (∀ k, k ≠ n.val → t.bglIn k = s.bglIn k) ∧ (∀ c, (t.chan c).arrived = (s.chan c).arrived))

/-- Channels and their words (parts of R165, R178, R187, R188, R189, R190, R191; Tables INP-8 and INP-15): binding, starting,
stopping, status; a due word of an aligned source is released, and a zero word in its place where the source is not aligned or did
not deliver it (log entry 99); messages to and from a digitiser. -/
def Obligations.ChannelsReleaseWordsOrSubstitute : Prop :=
  (∀ (s : State) (r : Req), Accepted opChannelBind r s → r.u8 2 ≠ 0 →
    Gives (.channelBind r) s [.hcp, .channels, .ledger] fun t =>
      t.channels = tset {} s.channels (r.u16 0) { s.chan (r.u16 0) with
        state := .bound, kind := r.u8 2, source := r.u8 3, position := r.u8 4, offBin := bit (r.u8 5) 0, fs := r.u32 8
        cal := r.u32 12, epoch := r.u64 16, kLast := none, arrived := [] } ∧ Answered 0x0408 r 0 0 [] t) ∧
  (∀ (s : State) (r : Req), Accepted opChannelBind r s → r.u8 2 = 0 →
    Gives (.channelBind r) s [.hcp, .channels, .ledger] fun t =>
      let c := s.chan (r.u16 0)
      t.channels = tset {} s.channels (r.u16 0) {
        segs := c.segs, activated := c.activated, expired := c.expired, expiredSeg := c.expiredSeg } ∧
      Answered 0x0408 r 0 0 [] t) ∧
  (∀ (s : State) (r : Req), Accepted opChannelStart r s → r.sched = true →
    Gives (.channelStart r) s [.hcp, .channels, .cal, .ledger] fun t =>
      (∀ c, r.u16 0 ≤ c → c < r.u16 0 + r.u16 2 → t.chan c = { s.chan c with state := .armed, startAt := ofTs80 r.time }) ∧
      (∀ c, (c < r.u16 0 ∨ r.u16 0 + r.u16 2 ≤ c) → t.chan c = s.chan c) ∧
      t.cal = { s.cal with
        entries := s.cal.entries ++ [{
          time := ofTs80 r.time, cls := 6, ins := s.cal.nextIns, action := .chanStart (r.u16 0) (r.u16 2)
          job := some (s.jobOf opChannelStart r) }]
        nextIns := s.cal.nextIns + 1 } ∧ Answered 0x0409 r 1 (s.jobOf opChannelStart r).slot [] t) ∧
  (∀ (s : State) (r : Req), Accepted opChannelStart r s → r.sched = false →
    Gives (.channelStart r) s [.hcp, .channels, .pipes, .ledger] fun t =>
      (∀ c, r.u16 0 ≤ c → c < r.u16 0 + r.u16 2 → let k := (s.chan c).indexAt ((s.now + 655360000 : Nat) : Rat)
        t.chan c = { s.chan c with
          state := .running, startAt := s.now + 655360000, kFirst := k, kNext := k, kLast := none, substituted := 0, overRange := 0
          substituting := false, arrived := [] }) ∧
      (∀ c, (c < r.u16 0 ∨ r.u16 0 + r.u16 2 ≤ c) → t.chan c = s.chan c) ∧ Answered 0x0409 r 0 0 [] t) ∧
  (∀ (s : State) (r : Req), Accepted opChannelStop r s → r.sched = true →
    Gives (.channelStop r) s [.hcp, .cal, .ledger] fun t =>
      t.cal = { s.cal with
        entries := s.cal.entries ++ [{
          time := ofTs80 r.time, cls := 6, ins := s.cal.nextIns, action := .chanStop (r.u16 0) (r.u16 2)
          job := some (s.jobOf opChannelStop r) }]
        nextIns := s.cal.nextIns + 1 } ∧ Answered 0x040A r 1 (s.jobOf opChannelStop r).slot [] t) ∧
  (∀ (s : State) (r : Req), Accepted opChannelStop r s → r.sched = false → s.NoResets →
    Gives (.channelStop r) s [.hcp, .channels, .pipes, .strm, .cap, .cal, .flt, .upl, .ledger] fun t =>
      (∀ c, r.u16 0 ≤ c → c < r.u16 0 + r.u16 2 → let last := (s.chan c).indexAt (s.now : Rat) - 1
        t.chan c = { s.chan c with state := .bound, kLast := if last < (s.chan c).kNext then none else some last }) ∧
      (∀ c, (c < r.u16 0 ∨ r.u16 0 + r.u16 2 ≤ c) → t.chan c = s.chan c) ∧
      (∀ c, r.u16 0 ≤ c → c < r.u16 0 + r.u16 2 → ∀ p ∈ s.chanPipes c, (t.pipe p).state ≠ .running) ∧
      Answered 0x040A r 0 0 [] t) ∧
  (∀ (s : State) (r : Req), Accepted opChannelStatus r s →
    Reports (.channelStatus r) 0x040B r s (
      let c := s.chan (r.u16 0)
      le 2 (r.u16 0) ++ le 1 (chanCode c.state) ++ le 1 c.kind ++ le 1 c.source ++ le 1 c.position
        ++ le 1 (mask [c.substitutes, c.offBin]) ++ zeros 1 ++ le 4 c.fs ++ le 4 c.cal ++ le 8 c.epoch
        ++ leI 8 c.kFirst ++ leI 8 c.kNext ++ le 8 c.substituted.toNat ++ le 4 c.overRange.toNat ++ zeros 4)) ∧
  (∀ (s : State) (n : Fin 512) (w : JesdWord) (x : W32), s.Inv → s.wordDue n = true → s.placed n w = true →
      s.nextWord n w = some x →
    Gives (.inputWordRelease n w) s [.channels, .pipes, .cap, .hcp] fun t =>
      let c := s.chan n
      t.channels = tset {} s.channels n { c with
        kNext := c.kNext + 1, substituting := false, arrived := c.arrived.filter fun a => decide (c.kNext < a.1)
        kLast := match c.kLast with
          | some l => if l ≤ c.kNext then none else some l
          | none => none
        overRange := if controlBits c.kind (s.chanBits n).1 (s.chanBits n).2 x.toNat ≠ 0 then c.overRange + 1 else c.overRange }) ∧
  (∀ (s : State) (n : Fin 512) (w : JesdWord), s.Inv → s.wordDue n = true → s.placed n w = true → s.nextWord n w = none →
    Gives (.inputWordRelease n w) s [.channels, .pipes, .cap, .hcp] fun t =>
      let c := s.chan n
      t.channels = tset {} s.channels n { c with
        kNext := c.kNext + 1, substituting := true, substituted := c.substituted + 1
        arrived := c.arrived.filter fun a => decide (c.kNext < a.1)
        kLast := match c.kLast with
          | some l => if l ≤ c.kNext then none else some l
          | none => none }) ∧
  (∀ (s : State) (n : Fin 512) (w : JesdWord), s.Inv → s.wordDue n = false ∨ s.placed n w = false →
    Gives (.inputWordRelease n w) s [] fun _ => True) ∧
  (∀ (s : State) (n : Fin 64) (b : Bool) (b0 : Bytes) (bs : List Bytes), s.Inv → (s.bgl n).state = .up → s.discards (s.bgl n).lanes = false →
      (∃ x ∈ b0 :: bs, checkHolds x = false) →
    Gives (.bglMessageRx n b b0 bs) s [.bgls] fun t =>
      t.bgls = tset {} s.bgls n { s.bgl n with msgBad := (s.bgl n).msgBad + 1 }) ∧
  (∀ (s : State) (n : Fin 64) (b : Bool) (b0 : Bytes) (bs : List Bytes) (m : Bytes), s.Inv → (s.bgl n).state = .up → (s.bgl n).mode = 1 →
      s.discards (s.bgl n).lanes = false → (∀ x ∈ b0 :: bs, checkHolds x = true) → readMessage (b2n b) (b0 :: bs) = some m →
      getU m 0 1 = 0x11 → m.length = 4 + getU m 2 2 → 216 < getU m 2 2 →
    Gives (.bglMessageRx n b b0 bs) s [.bgls] fun t =>
      t.bgls = tset {} s.bgls n { s.bgl n with msgLong := (s.bgl n).msgLong + 1 }) ∧
  (∀ (s : State) (n : Fin 64) (b : Bool) (b0 : Bytes) (bs : List Bytes) (m : Bytes) (k : Fin 10), s.Inv → (s.bgl n).state = .up →
      (s.bgl n).mode = 1 → s.discards (s.bgl n).lanes = false → (∀ x ∈ b0 :: bs, checkHolds x = true) → readMessage (b2n b) (b0 :: bs) = some m →
      getU m 0 1 = 0x11 → m.length = 4 + getU m 2 2 → getU m 2 2 ≤ 216 → s.fwRuns = true → s.subscribers 4 = [k.val] →
      logRoom s.hcp.log = true →
    Gives (.bglMessageRx n b b0 bs) s [.hcp] fun t =>
      ∃ x ∈ t.hcp.log, x.mb = k.val ∧ x.hubSeq = (s.mb k).hubSeq ∧
        x.frame = rspFrame (s.mb k).version false 0xFFFFFFFF (s.mb k).hubSeq 0x0481 0 0 0
          (le 1 n ++ zeros 1 ++ le 2 (getU m 2 2) ++ padTo (4 * ((getU m 2 2 + 3) / 4)) (sub m 4 (getU m 2 2)))) ∧
  (∀ (s : State) (r : Req), Accepted opBglMessage r s →
    Gives (.bglMessage r) s [.hcp, .bgls] fun t =>
      t.bgls = tset {} s.bgls (r.u8 0) { s.bgl (r.u8 0) with
        out1 := (s.bgl (r.u8 0)).out1 ++
          messageBlocks 1 (le 1 0x10 ++ zeros 1 ++ le 2 (r.u16 2) ++ r.bytes 4 (r.u16 2)) } ∧
      Answered 0x040C r 0 0 [] t)

/-! ## Pipes and palettes (07_channel_pipe, 08_palettes) -/

/-- Configuration, start and stop of pipes (parts of R193, R223, R225-R228, R346; Tables PIPE-5 to PIPE-8): a configured
pipe is BOUND with its request's settings, and 0xFFFF releases it; a scheduled start arms its pipes, an immediate one sets them
RUNNING and their streams ACTIVE from ten microseconds on, and a pipe whose channel delivers begins with its first sample at or after
the start; a stop drains up to the last output whose grid instant is earlier; PIPE_STATUS reports, and clears what its flag names. -/
def Obligations.PipesAreConfiguredStartedAndStopped : Prop :=
  (∀ (s : State) (r : Req), Accepted opPipeConfig r s → r.u16 2 ≠ 0xFFFF →
    Gives (.pipeConfig r) s [.hcp, .pipes, .ledger] fun t =>
      let o := s.pipe (r.u16 0)
      t.pipes = tset {} s.pipes (r.u16 0) {
        satCount := o.satCount, satMask := o.satMask, delayRange := o.delayRange, rangeTold := o.rangeTold
        state := .bound, channel := r.u16 2, profileA := r.u8 4, profileB := o.profileB, bank := o.bank
        mixer := bit (r.u8 5) 0, early := bit (r.u8 5) 1, track := bit (r.u8 5) 2, orAsSat := bit (r.u8 5) 3
        orMask := r.u8 6, align := r.u8 7, dMax := r.u16 8, upd := r.u8 0xA, format := r.u8 0xB, rqShift := r.i8 0xC
        rqTrunc := bit (r.u8 0xD) 0, rqSym := bit (r.u8 0xD) 1, dcK := r.u8 0xE, dcAuto := bit (r.u8 0xF) 0
        dcWindows := BitVec.ofNat 16 (r.u16 0x10), w := BitVec.ofNat 48 (r.u64 0x18), p := BitVec.ofNat 32 (r.u32 0x20) } ∧
      Answered 0x0501 r 0 0 [] t) ∧
  (∀ (s : State) (r : Req), Accepted opPipeConfig r s → r.u16 2 = 0xFFFF →
    Gives (.pipeConfig r) s [.hcp, .pipes, .ledger] fun t =>
      (t.pipe (r.u16 0)).state = .free ∧ (t.pipe (r.u16 0)).bank = .empty ∧
      (∀ k, k ≠ r.u16 0 → t.pipe k = s.pipe k) ∧ Answered 0x0501 r 0 0 [] t) ∧
  (∀ (s : State) (r : Req), Accepted opPipeStart r s → r.sched = true →
    Gives (.pipeStart r) s [.hcp, .pipes, .strm, .cal, .ledger] fun t =>
      (∀ p, r.u16 0 ≤ p → p < r.u16 0 + r.u16 2 → t.pipe p = { s.pipe p with state := .armed, startAt := ofTs80 r.time }) ∧
      (∀ p, (p < r.u16 0 ∨ r.u16 0 + r.u16 2 ≤ p) → t.pipe p = s.pipe p) ∧
      t.cal = { s.cal with
        entries := s.cal.entries ++ [{
          time := ofTs80 r.time, cls := 6, ins := s.cal.nextIns, action := .pipeStart (r.u16 0) (r.u16 2)
          job := some (s.jobOf opPipeStart r) }]
        nextIns := s.cal.nextIns + 1 } ∧ Answered 0x0502 r 1 (s.jobOf opPipeStart r).slot [] t) ∧
  (∀ (s : State) (r : Req), Accepted opPipeStart r s → r.sched = false →
    Gives (.pipeStart r) s [.hcp, .pipes, .strm, .ledger] fun t =>
      (∀ p, r.u16 0 ≤ p → p < r.u16 0 + r.u16 2 →
        let c := s.chan (s.pipe p).channel
        let gs := (s.profA p).stages
        let k := max (c.indexAt ((s.now + 655360000 : Nat) : Rat)) c.kFirst
        let waiting := { s.pipe p with
          state := .running, startAt := s.now + 655360000, waiting := true, restart := false, nLast := none, epoch := 0
          orWords := 0, dcM := (s.pipe p).dcPreset, updates := [], lastM := 0, lastEval := 0 }
        (if (c.state = .running ∨ c.state = .lost) ∧ s.inReset 6 0 = false then
          (t.pipe p).state = .running ∧ (t.pipe p).waiting = false ∧ (t.pipe p).startK = k ∧
          (t.pipe p).nFirst = ceilR ((k : Rat) / ratioOut gs) ∧ (t.pipe p).nNext = (t.pipe p).nFirst ∧ (t.pipe p).lineNext = k ∧
          (t.pipe p).line = [] ∧ (t.pipe p).hist = freshHist gs (t.pipe p).nNext ∧ (t.pipe p).dcM = (s.pipe p).dcPreset
        else t.pipe p = waiting) ∧
        (t.stream p).state = .active ∧ (t.stream p).credits = (s.stream p).pages ∧ (t.stream p).discOwed = true ∧
        (t.stream p).opened = [] ∧ (t.stream p).queue = []) ∧
      (∀ p, (p < r.u16 0 ∨ r.u16 0 + r.u16 2 ≤ p) → t.pipe p = s.pipe p ∧ t.stream p = s.stream p) ∧ Answered 0x0502 r 0 0 [] t) ∧
  (∀ (s : State) (r : Req), Accepted opPipeStop r s → r.sched = true →
    Gives (.pipeStop r) s [.hcp, .cal, .ledger] fun t =>
      t.cal = { s.cal with
        entries := s.cal.entries ++ [{
          time := ofTs80 r.time, cls := 6, ins := s.cal.nextIns, action := .pipeStop (r.u16 0) (r.u16 2)
          job := some (s.jobOf opPipeStop r) }]
        nextIns := s.cal.nextIns + 1 } ∧ Answered 0x0503 r 1 (s.jobOf opPipeStop r).slot [] t) ∧
  (∀ (s : State) (r : Req), Accepted opPipeStop r s → r.sched = false → s.NoResets →
    Gives (.pipeStop r) s [.hcp, .pipes, .strm, .cap, .cal, .flt, .upl, .ledger] fun t =>
      (∀ p, r.u16 0 ≤ p → p < r.u16 0 + r.u16 2 →
        let c := s.chan (s.pipe p).channel
        let last := ceilR (((s.now : Rat) - ((c.epoch * unitsPerSec : Nat) : Rat))
          * ((c.fs : Rat) / ratioOut (s.profA p).stages) / (unitsPerSec : Rat)) - 1
        (t.pipe p).state = .draining ∧ (t.pipe p).nNext = (s.pipe p).nNext ∧
        (t.pipe p).nLast = (if (s.pipe p).waiting = true ∨ last < (s.pipe p).nNext then none else some last) ∧
        ((s.stream p).state = .active → (t.stream p).state = .closing)) ∧
      (∀ p, (p < r.u16 0 ∨ r.u16 0 + r.u16 2 ≤ p) → t.pipe p = s.pipe p ∧ t.stream p = s.stream p) ∧ Answered 0x0503 r 0 0 [] t) ∧
  (∀ (s : State) (r : Req), Accepted opPipeStatus r s →
    Gives (.pipeStatus r) s [.hcp, .pipes] fun t =>
      let pp := s.pipe (r.u16 0)
      t.pipes = tset {} s.pipes (r.u16 0) (if bit (r.u8 2) 0 then
          { pp with rangeTold := false, delayRange := false, satCount := 0, satMask := 0 }
        else { pp with rangeTold := false }) ∧
      Answered 0x0504 r 0 0 (le 2 (r.u16 0) ++ le 1 (pipeCode pp.state)
        ++ le 1 (mask [pp.delayRange, s.varnished (r.u16 0), pp.dcManual, pp.state != .free && (s.chan pp.channel).expired])
        ++ le 2 (if pp.state = .free then 0xFFFF else pp.channel) ++ le 2 pp.satMask.toNat
        ++ le 4 (if pp.state = .free then 0 else s.fout (r.u16 0)) ++ le 4 pp.satCount.toNat ++ leI 8 pp.nFirst
        ++ leI 8 pp.nNext ++ le 2 pp.d ++ le 2 pp.phi ++ le 4 pp.orWords.toNat ++ leI 8 pp.dcM ++ le 8 pp.w.toNat
        ++ le 4 pp.p.toNat ++ zeros 4) t)

/-- Retunes, the DC block and the requantiser (parts of R201, R202, R213, R221; Table PIPE-9): an immediate retune acts
ten microseconds on; each DC operation changes what it names and answers the estimate; a REQUANT_SET of a running
pipe waits for the next packet. -/
def Obligations.PipeSettingsActAsTheTablesSay : Prop :=
  (∀ (s : State) (r : Req), Accepted opPipeRetune r s → r.sched = false →
    Gives (.pipeRetune r) s [.hcp, .pipes, .ledger] fun t =>
      t.pipes = tset {} s.pipes (r.u16 0) { s.pipe (r.u16 0) with
        retunes := placeRetune (s.now + 655360000, BitVec.ofNat 48 (r.u64 8),
          if bit (r.u8 2) 0 then some (BitVec.ofNat 32 (r.u32 0x10)) else none) (s.pipe (r.u16 0)).retunes } ∧
      Answered 0x0505 r 0 0 [] t) ∧
  (∀ (s : State) (r : Req), Accepted opPipeRetune r s → r.sched = true →
    Gives (.pipeRetune r) s [.hcp, .cal, .ledger] fun t =>
      t.cal = { s.cal with
        entries := s.cal.entries ++ [{
          time := ofTs80 r.time, cls := 3, ins := s.cal.nextIns
          action := .retune (r.u16 0) (BitVec.ofNat 48 (r.u64 8)) (bit (r.u8 2) 0) (BitVec.ofNat 32 (r.u32 0x10))
          job := some (s.jobOf opPipeRetune r) }]
        nextIns := s.cal.nextIns + 1 } ∧ Answered 0x0505 r 1 (s.jobOf opPipeRetune r).slot [] t) ∧
  (∀ (s : State) (r : Req), Accepted opDcControl r s → r.u8 2 = 0 →
    Gives (.dcSet r) s [.hcp, .pipes] fun t =>
      t.pipes = tset {} s.pipes (r.u16 0) { s.pipe (r.u16 0) with
        dcK := r.u8 3, dcAuto := bit (r.u8 4) 0, dcWindows := BitVec.ofNat 16 (r.u16 6) } ∧
      Answered 0x0506 r 0 0 (leI 8 (s.pipe (r.u16 0)).dcM
        ++ le 1 (mask [(s.pipe (r.u16 0)).dcManual, t.varnished (r.u16 0)]) ++ zeros 3) t) ∧
  (∀ (s : State) (r : Req), Accepted opDcControl r s → r.u8 2 = 1 →
    Gives (.dcVarnish r) s [.hcp, .pipes] fun t =>
      t.pipes = tset {} s.pipes (r.u16 0) { s.pipe (r.u16 0) with dcManual := true } ∧
      Answered 0x0506 r 0 0 (leI 8 (s.pipe (r.u16 0)).dcM ++ le 1 3 ++ zeros 3) t) ∧
  (∀ (s : State) (r : Req), Accepted opDcControl r s → r.u8 2 = 2 →
    Gives (.dcThaw r) s [.hcp, .pipes] fun t =>
      t.pipes = tset {} s.pipes (r.u16 0) { s.pipe (r.u16 0) with dcManual := false } ∧
      Answered 0x0506 r 0 0 (leI 8 (s.pipe (r.u16 0)).dcM ++ le 1 (mask [false, t.varnished (r.u16 0)]) ++ zeros 3) t) ∧
  (∀ (s : State) (r : Req), Accepted opDcControl r s → r.u8 2 = 3 →
    Gives (.dcPreset r) s [.hcp, .pipes] fun t =>
      t.pipes = tset {} s.pipes (r.u16 0) { s.pipe (r.u16 0) with dcM := r.i64 8, dcPreset := r.i64 8 } ∧
      Answered 0x0506 r 0 0 (leI 8 (r.i64 8)
        ++ le 1 (mask [(s.pipe (r.u16 0)).dcManual, t.varnished (r.u16 0)]) ++ zeros 3) t) ∧
  (∀ (s : State) (r : Req), Accepted opDcControl r s → r.u8 2 = 4 →
    Gives (.dcRead r) s [.hcp, .pipes] fun t =>
      t.pipe (r.u16 0) = s.pipe (r.u16 0) ∧
      Answered 0x0506 r 0 0 (leI 8 (s.pipe (r.u16 0)).dcM
        ++ le 1 (mask [(s.pipe (r.u16 0)).dcManual, s.varnished (r.u16 0)]) ++ zeros 3) t) ∧
  (∀ (s : State) (r : Req), Accepted opRequantSet r s →
    Gives (.requantSet r) s [.hcp, .pipes] fun t =>
      let pp := s.pipe (r.u16 0)
      t.pipes = tset {} s.pipes (r.u16 0) (if pp.state = .running then
          { pp with rqNext := some (r.i8 2, bit (r.u8 3) 0, bit (r.u8 3) 1) }
        else { pp with rqShift := r.i8 2, rqTrunc := bit (r.u8 3) 0, rqSym := bit (r.u8 3) 1, rqNext := none }) ∧
      Answered 0x050A r 0 0 [] t)

/-- Delays (parts of R203, R204, R205, R207, R209, R210; Table PIPE-10): a segment joins its channel's queue with a
class-4 entry; a flush removes queued segments and reports their number; an update point quantises the delay; the
end of the active segment sets MODEL_EXPIRED, which DELAY_STATUS reports and clears; an output that is ready is produced, and joins
its stream's open packet. -/
def Obligations.DelaysFollowTheirSegmentsAndOutputsAppear : Prop :=
  (∀ (s : State) (r : Req), Accepted opDelaySegment r s →
    Gives (.delaySegment r) s [.hcp, .channels, .cal, .ledger] fun t =>
      let c := s.chan (r.u16 0)
      t.channels = tset {} s.channels (r.u16 0) { c with segs := c.segs ++ [{
        start := r.ts96 4, lenUs := r.u32 0x10, c0 := r.i64 0x18, c1 := r.i64 0x20, c2 := r.i64 0x28, c3 := r.i64 0x30 }] } ∧
      t.cal = { s.cal with
        entries := s.cal.entries ++ [{
          time := r.ts96 4, cls := 4, ins := s.cal.nextIns, action := .segment (r.u16 0) (r.ts96 4) }]
        nextIns := s.cal.nextIns + 1 } ∧
      Answered 0x0507 r 0 0 (le 1 (c.segs.length + 1 + (if c.activated = [] then 0 else 1)) ++ zeros 3) t) ∧
  (∀ (s : State) (r : Req), Accepted opDelayFlush r s →
    Gives (.delayFlush r) s [.hcp, .channels, .cal, .ledger] fun t =>
      let c := s.chan (r.u16 0)
      t.channels = tset {} s.channels (r.u16 0) { c with
        segs := [], activated := if bit (r.u8 2) 0 then [] else c.activated } ∧
      t.cal = { s.cal with
        entries := s.cal.entries.filter fun e => !c.segs.any fun g => decide (e.action = .segment (r.u16 0) g.start) } ∧
      Answered 0x0508 r 0 0 (le 1 c.segs.length ++ zeros 3) t) ∧
  (∀ (s : State) (r : Req), Accepted opDelayStatus r s →
    Gives (.delayStatus r) s [.hcp, .channels] fun t =>
      let c := s.chan (r.u16 0)
      t.channels = tset {} s.channels (r.u16 0) { c with expired := false } ∧
      Answered 0x0509 r 0 0 (le 2 (r.u16 0) ++ le 1 c.segs.length ++ le 1 (mask [c.activated != [], c.expired])
        ++ (match c.activated with
          | g :: _ => ts96 g.start ++ le 4 g.lenUs
          | [] => zeros 16) ++ zeros 4
        ++ (match s.evalPipe (r.u16 0) with
          | some p => leI 8 p.lastM ++ ts96 p.lastEval
          | none => zeros 20) ++ zeros 4) t) ∧
  (∀ (s : State) (p : Fin 1024), s.Inv → s.pointDue p = true →
    Gives (.delayUpdatePoint p) s [.pipes, .channels, .hcp] fun t =>
      let pp := s.pipe p
      let c := s.chan pp.channel
      let v := nextPoint pp (s.profA p).stages
      let g := if pp.track then activeSegment c pp.seg (evalTime c (s.profA p).stages v) else none
      let m := match g with
        | some g => max (-modelMax) (min modelMax (g.model (evalTime c (s.profA p).stages v)))
        | none => 0
      let q := (max 0 (min ((pp.dMax * 1024 + 1023 : Nat) : Int) (quantise c.cal m c.fs))).toNat
      (t.pipe p).updates = (v, q) :: pp.updates ∧ (t.pipe p).d = q / 1024 ∧ (t.pipe p).phi = q % 1024 ∧ (t.pipe p).seg = g ∧
      (t.pipe p).lastM = m ∧ (t.pipe p).lastEval = (rheR (evalTime c (s.profA p).stages v)).toNat ∧
      (pp.updates = [] → (t.pipe p).d0 = q / 1024) ∧
      (∀ k, k ≠ p.val → t.pipe k = s.pipe k) ∧
      t.channels = (match g with
        | some g => tset {} s.channels pp.channel (activate c g)
        | none => s.channels) ∧
      ((t.pipe p).delayRange = true ↔ pp.delayRange = true ∨ quantise c.cal m c.fs ≠ q ∨
        ∃ h, g = some h ∧ h.model (evalTime c (s.profA p).stages v) ≠ m)) ∧
  (∀ (s : State) (n : Fin 512) (g : Segment) (gs : List Segment), s.Inv → (s.chan n).activated = g :: gs →
      (s.chan n).expiredSeg ≠ some g.start → g.start + g.lenUs * 65536000 < s.lastEval n →
      (∀ h ∈ (s.chan n).segs, s.lastEval n < h.start) →
    Gives (.modelExpiry n) s [.channels, .hcp] fun t =>
      t.channels = tset {} s.channels n { s.chan n with expired := true, expiredSeg := some g.start }) ∧
  (∀ (s : State) (p : Fin 1024) (k : Packet), s.Inv → s.outputReady p = true → (s.pipe p).swap = none →
      (s.pipe p).nLast = none → (s.pipe p).retunes = [] → s.cap.windows = [] → s.chip.phase = .serving →
      s.inReset 11 0 = false → (s.stream p).state = .active → (s.stream p).starved = false →
      (s.cstream p).enable = false → (s.stream p).opened = [k] → k.closed = false →
      k.count + 1 < (s.stream p).perPacket → pagesOf (s.plainBytes p (k.count + 1)) = k.pages →
    Gives (.pipeOutputSample p) s [.pipes, .strm, .hcp] fun t =>
      (t.pipe p).nNext = (s.pipe p).nNext + 1 ∧ (t.pipe p).epoch = (s.pipe p).epoch ∧
      (∀ q, q ≠ p.val → t.pipe q = s.pipe q ∧ t.stream q = s.stream q) ∧
      ∃ v, (t.stream p).opened = [{ k with
          samples := v :: k.samples, count := k.count + 1, closed := false
          saturated := k.saturated || ((t.stream p).opened.any (·.saturated)), fade := k.fade
          unsettled := ((t.stream p).opened.headD k).unsettled, pages := k.pages }]) ∧
  (∀ (s : State) (p : Fin 1024), s.Inv → s.outputReady p = true → s.NoResets →
    Gives (.pipeOutputSample p) s [.hcp, .pipes, .strm, .cap, .cal, .flt, .upl, .free] fun t =>
      (t.pipe p).nNext = (s.pipe p).nNext + 1 ∧ (t.pipe p).nFirst = (s.pipe p).nFirst ∧
      (∀ q, q ≠ p.val → t.pipe q = s.pipe q ∧ t.stream q = s.stream q)) ∧
  (∀ (s : State) (p : Fin 1024), s.Inv → s.outputReady p = false → Gives (.pipeOutputSample p) s [] fun _ => True)

/-- Profiles and banks (parts of R229-R233, R239-R247; Tables PAL-4, PAL-6 and PAL-9 to PAL-12): data is staged, a
commit makes the image VALID or empties the profile, a delete empties it; a bank is loaded, cleared, and swapped at
once on a pipe that does not run, or with a pending swap on one that does. -/
def Obligations.ProfilesAndBanksChangeAsRequested : Prop :=
  (∀ (s : State) (r : Req), Accepted opProfileWrite r s →
    Gives (.profileWrite r) s [.hcp, .profiles, .ledger] fun t =>
      let f := if bit (r.u8 1) 0 then {} else s.prof (r.u8 0)
      t.profiles = tset {} s.profiles (r.u8 0) {
        state := .staging, image := memWrite f.image (r.u32 4) (r.payload.drop 8)
        extent := max f.extent (r.u32 4 + (r.payload.length - 8)) } ∧ Answered 0x0521 r 0 0 [] t) ∧
  (∀ (s : State) (r : Req), Accepted opProfileCommit r s → (commitResult (s.prof (r.u8 0)) (r.u32 4)).1 = 0 →
    Gives (.profileCommit r) s [.hcp, .profiles, .ledger] fun t =>
      t.profiles = tset {} s.profiles (r.u8 0) { s.prof (r.u8 0) with state := .valid } ∧
      ∃ p, Answered 0x0522 r 0 0 (le 1 0 ++ zeros 3 ++ p) t) ∧
  (∀ (s : State) (r : Req), Accepted opProfileCommit r s → (commitResult (s.prof (r.u8 0)) (r.u32 4)).1 ≠ 0 →
    Gives (.profileCommit r) s [.hcp, .profiles, .ledger] fun t =>
      t.profiles = tset {} s.profiles (r.u8 0) {} ∧
      Answered 0x0522 r 0 0 (le 1 (commitResult (s.prof (r.u8 0)) (r.u32 4)).1 ++ zeros 3
        ++ le 4 (commitResult (s.prof (r.u8 0)) (r.u32 4)).2) t) ∧
  (∀ (s : State) (r : Req), Accepted opProfileDelete r s →
    Gives (.profileDelete r) s [.hcp, .profiles, .ledger] fun t =>
      t.profiles = tset {} s.profiles (r.u8 0) {} ∧ Answered 0x0523 r 0 0 [] t) ∧
  (∀ (s : State) (r : Req), Accepted opProfileInfo r s →
    Reports (.profileInfo r) 0x0524 r s (
      let f := s.prof (r.u8 0)
      le 1 (r.u8 0) ++ le 1 (profCode f.state) ++ le 2 (s.refs (r.u8 0)) ++ le 4 f.stored ++ le 4 f.extent ++ zeros 4
        ++ (if f.state = .valid then leI 8 (rheR (f.gd * 65536)) ++ leI 8 (rheR (f.span * 65536)) else zeros 16)
        ++ (if f.state = .empty then zeros 8
          else le 4 (f.stages.foldl (fun n g => n * g.d) 1) ++ le 4 (f.stages.foldl (fun n g => n * g.u) 1))
        ++ memRead f.image 0 0x50)) ∧
  (∀ (s : State) (r : Req), Accepted opBankLoad r s →
    Gives (.bankLoad r) s [.hcp, .pipes, .ledger] fun t =>
      t.pipes = tset {} s.pipes (r.u16 0) { s.pipe (r.u16 0) with profileB := r.u8 2, bank := .loaded } ∧
      Answered 0x0525 r 0 0 [] t) ∧
  (∀ (s : State) (r : Req), Accepted opBankSwap r s → r.u8 2 = 0 → (s.pipe (r.u16 0)).state ≠ .running →
    Gives (.bankSwap r) s [.hcp, .pipes, .ledger] fun t =>
      t.pipes = tset {} s.pipes (r.u16 0) { s.pipe (r.u16 0) with
        profileA := (s.pipe (r.u16 0)).profileB, profileB := (s.pipe (r.u16 0)).profileA } ∧ Answered 0x0526 r 0 0 [] t) ∧
  (∀ (s : State) (r : Req), Accepted opBankSwap r s → r.u8 2 ≠ 0 ∨ (s.pipe (r.u16 0)).state = .running →
    Gives (.bankSwap r) s [.hcp, .pipes, .cal, .ledger] fun t =>
      let pp := s.pipe (r.u16 0)
      t.pipes = tset {} s.pipes (r.u16 0) { pp with
        bank := if r.u8 2 = 2 then .preroll else .pending, bRun := 0, fadeDone := 0
        histB := if r.u8 2 = 2 then freshHist (s.profB (r.u16 0)).stages pp.nNext else []
        swap := some {
          mode := r.u8 2, k := r.u8 3, ts := if r.sched then some (ofTs80 r.time) else none, armed := !r.sched
          job := some (s.jobOf opBankSwap r) } } ∧
      t.cal = (if r.sched then { s.cal with
        entries := s.cal.entries ++ [{
          time := ofTs80 r.time, cls := 2, ins := s.cal.nextIns, action := .swap (r.u16 0)
          job := some (s.jobOf opBankSwap r) }]
        nextIns := s.cal.nextIns + 1 } else s.cal) ∧ Answered 0x0526 r 1 (s.jobOf opBankSwap r).slot [] t) ∧
  (∀ (s : State) (r : Req), Accepted opBankClear r s →
    Gives (.bankClear r) s [.hcp, .pipes, .ledger] fun t =>
      t.pipes = tset {} s.pipes (r.u16 0) { s.pipe (r.u16 0) with profileB := 0, bank := .empty } ∧
      Answered 0x0527 r 0 0 [] t) ∧
  (∀ (s : State) (r : Req), Accepted opBankStatus r s → (s.pipe (r.u16 0)).state = .free →
    Reports (.bankStatus r) 0x0528 r s (le 2 (r.u16 0) ++ le 2 0xFFFF ++ le 2 0xFFFF ++ zeros 58)) ∧
  (∀ (s : State) (r : Req), Accepted opBankStatus r s → (s.pipe (r.u16 0)).state ≠ .free →
    Gives (.bankStatus r) s [.hcp] fun t =>
      let pp := s.pipe (r.u16 0)
      let b := pp.bank != .empty
      ∃ q, Answered 0x0528 r 0 0 (le 2 (r.u16 0) ++ le 2 pp.profileA ++ le 2 (if b then pp.profileB else 0xFFFF)
        ++ le 1 (bankCode pp.bank) ++ le 1 pp.epoch.toNat ++ le 2 (s.profA (r.u16 0)).unsettled ++ le 2 (s.uStart (r.u16 0))
        ++ le 2 (if b then (s.profB (r.u16 0)).unsettled else 0) ++ le 2 pp.fadeDone
        ++ leI 8 ((s.profA (r.u16 0)).gamma (s.fin (r.u16 0))) ++ leI 8 (if b then (s.profB (r.u16 0)).gamma (s.fin (r.u16 0)) else 0)
        ++ leI 8 (rheR (s.margin (r.u16 0) * 65536)) ++ q) t)

/-! ## Admission (09_admission) -/

/-- The ledger's opcodes (parts of R254, R261, R263, R265, R266, R267; Tables ADM-6 and ADM-8): ADM_STATUS reports
capacity, use and peak and restarts the peak; ADM_BOUND_READ reports a stream's bound and clears BOUND_EXCEEDED;
ADM_LIMIT sets a ceiling; ADM_PROBE judges a request and leaves everything but the mailboxes and the ledger's peaks
as it was. -/
def Obligations.AdmissionOpcodesReportLimitAndProbe : Prop :=
  (∀ (s : State) (r : Req), Accepted opAdmStatus r s →
    Gives (.admStatus r) s [.hcp, .ledger] fun t =>
      let k := peakKey (r.u8 0) (r.u16 2)
      let u := s.used (r.u8 0) (r.u16 2)
      t.ledger = { s.ledger with peak := tset 0 s.ledger.peak k u } ∧
      Answered 0x0601 r 0 0 (le 1 (r.u8 0) ++ zeros 1 ++ le 2 (r.u16 2) ++ zeros 4 ++ le 8 (s.capacity (r.u8 0) (r.u16 2))
        ++ le 8 u ++ le 8 (max u (tget 0 s.ledger.peak k))
        ++ le 8 (if r.u8 0 = 0 then sumOf (s.pipes.map (·.1)) s.fadeCharge else 0)) t) ∧
  (∀ (s : State) (r : Req), Accepted opAdmBoundRead r s →
    Gives (.admBoundRead r) s [.hcp, .ledger] fun t =>
      t.ledger = { s.ledger with exceeded := tset false s.ledger.exceeded (r.u16 0) false } ∧
      Answered 0x0602 r 0 0 (boundPayload s (r.u16 0)) t) ∧
  (∀ (s : State) (r : Req), Accepted opAdmLimit r s →
    Gives (.admLimit r) s [.hcp, .ledger] fun t =>
      t.ledger.ceiling = tset 0 s.ledger.ceiling (r.u16 0) (r.u64 8) ∧ t.ledger.exceeded = s.ledger.exceeded ∧
      Answered 0x0603 r 0 0 [] t) ∧
  (∀ (s : State) (r : Req), Accepted opAdmProbe r s →
    Reports (.admProbe r) 0x0604 r s (
      let e := reqOfFrame r.mb r.payload
      let u := s.taking opAdmProbe r
      probePayload e u (judgeFrame probedOps false e r.payload u)))

/-! ## Capture (10_capture) -/

/-- Configuration, arming, disarming and triggering of capture windows (parts of R271, R273, R276, R281, R285-R290;
Tables CAP-4, CAP-5, CAP-13 to CAP-15): a configuration gives an IDLE window its region, members and depth, source 0
returns it; an immediate arm or disarm acts ten microseconds on, a scheduled one by an entry of class 5; an arm
begins a new sketch, a disarm of an armed window drops it, an ABORT freezes one that fills; a trigger of an armed
window makes it FILLING with its record's first frame, one that its condition or window does not evaluate answers so; a network
trigger gives its hits to the decision of the cycle (log entry 113), and a bad one only counts. -/
def Obligations.WindowsAreConfiguredArmedAndTriggered : Prop :=
  (∀ (s : State) (r : Req), Accepted opCapWindowConfig r s → r.u8 1 ≠ 0 →
    Gives (.capWindowConfig r) s [.hcp, .cap, .ledger] fun t =>
      let ms := maskMembers (r.bytes 16 128)
      let k := (s.membersKind (r.u8 1) ms).getD (0, 0, 0)
      t.cap = { s.cap with windows := tset {} s.cap.windows (r.u8 0) { s.win (r.u8 0) with
        state := .idle, source := r.u8 1, flags := BitVec.ofNat 8 (r.u8 2), announceId := r.u8 3, firstPage := r.u16 4
        pages := r.u16 6, pre := r.u32 8, post := r.u32 12, members := ms, fw := k.1, epoch := k.2.1, format := k.2.2
        frameBytes := cdiv (ms.length * formatBits k.2.2) 8, missedTotal := 0, h := 0, nArm := none, nTrig := 0 } } ∧
      Answered 0x0701 r 0 0 [] t) ∧
  (∀ (s : State) (r : Req), Accepted opCapWindowConfig r s → r.u8 1 = 0 →
    Gives (.capWindowConfig r) s [.hcp, .cap, .ledger] fun t =>
      (t.win (r.u8 0)).state = .unconfigured ∧ (t.win (r.u8 0)).members = [] ∧ (t.win (r.u8 0)).pages = 0 ∧
      (∀ n, n ≠ r.u8 0 → t.win n = s.win n) ∧ t.cap = { s.cap with windows := t.cap.windows } ∧
      Answered 0x0701 r 0 0 [] t) ∧
  (∀ (s : State) (r : Req), Accepted opCapCondConfig r s →
    Gives (.capCondConfig r) s [.hcp, .cap] fun t =>
      t.cap = { s.cap with windows := tset {} s.cap.windows (r.u8 0) { s.win (r.u8 0) with
        conds := tset {} (s.win (r.u8 0)).conds (r.u8 1) {
          kind := r.u8 2, flags := BitVec.ofNat 8 (r.u8 3), pipe := r.u16 4, length := r.u16 6, metric := r.u8 8
          input := r.u8 9, id := r.u8 10, compMask := BitVec.ofNat 8 (r.u8 11), compK := r.u8 12, threshold := r.u64 16
          span := r.u32 24 } } } ∧
      Answered 0x0702 r 0 0 [] t) ∧
  (∀ (s : State) (r : Req), Accepted opCapArm r s → r.sched = false →
    Gives (.capArm r) s [.hcp, .cap, .ledger] fun t =>
      t.cap = { s.cap with windows := tset {} s.cap.windows (r.u8 0) { s.win (r.u8 0) with
        delayArm := some (s.now + 655360000) } } ∧ Answered 0x0703 r 0 0 [] t) ∧
  (∀ (s : State) (r : Req), Accepted opCapArm r s → r.sched = true →
    Gives (.capArm r) s [.hcp, .cap, .cal, .ledger] fun t =>
      t.cap = { s.cap with windows := tset {} s.cap.windows (r.u8 0) { s.win (r.u8 0) with pendArm := true } } ∧
      t.cal = { s.cal with
        entries := s.cal.entries ++ [{
          time := ofTs80 r.time, cls := 5, ins := s.cal.nextIns, action := .capArm (r.u8 0)
          job := some (s.jobOf opCapArm r) }]
        nextIns := s.cal.nextIns + 1 } ∧ Answered 0x0703 r 1 (s.jobOf opCapArm r).slot [] t) ∧
  (∀ (s : State) (n : Fin 16) (T : T16), s.Inv → (s.win n).delayArm = some T → T ≤ s.now → (s.win n).state = .idle →
      s.chip.phase = .serving →
    Gives (.capArmEffect n) s [.cap] fun t =>
      (t.win n).state = .arming ∧ (t.win n).sketch = (s.win n).sketch + 1 ∧ (t.win n).armAt = T ∧
      (t.win n).nArm = none ∧ (t.win n).delayArm = none ∧ (t.win n).missedFill = 0 ∧ (t.win n).firstCause = 0xFF ∧
      (t.win n).recFlags = (if s.chip.testMode then 0x800 else 0) ∧ (∀ k, k ≠ n.val → t.win k = s.win k)) ∧
  (∀ (s : State) (r : Req), Accepted opCapDisarm r s → r.sched = false →
    Gives (.capDisarm r) s [.hcp, .cap, .ledger] fun t =>
      t.cap = { s.cap with windows := tset {} s.cap.windows (r.u8 0) { s.win (r.u8 0) with
        delayDisarm := some (s.now + 655360000, bit (r.u8 1) 0) } } ∧ Answered 0x0704 r 0 0 [] t) ∧
  (∀ (s : State) (r : Req), Accepted opCapDisarm r s → r.sched = true →
    Gives (.capDisarm r) s [.hcp, .cap, .cal, .ledger] fun t =>
      t.cap = { s.cap with windows := tset {} s.cap.windows (r.u8 0) { s.win (r.u8 0) with pendDisarm := true } } ∧
      t.cal = { s.cal with
        entries := s.cal.entries ++ [{
          time := ofTs80 r.time, cls := 5, ins := s.cal.nextIns, action := .capDisarm (r.u8 0) (bit (r.u8 1) 0)
          job := some (s.jobOf opCapDisarm r) }]
        nextIns := s.cal.nextIns + 1 } ∧ Answered 0x0704 r 1 (s.jobOf opCapDisarm r).slot [] t) ∧
  (∀ (s : State) (n : Fin 16) (T : T16) (b : Bool), s.Inv → (s.win n).delayDisarm = some (T, b) → T ≤ s.now →
      (s.win n).cycle = [] → (s.win n).state = .arming ∨ (s.win n).state = .armed →
    Gives (.capDisarmEffect n) s [.hcp, .cap] fun t =>
      t.win n = { s.win n with
        state := .idle, feeds := [], events := [], notes := [], delayDisarm := none, cycleFail := false } ∧
      (∀ k, k ≠ n.val → t.win k = s.win k)) ∧
  (∀ (s : State) (n : Fin 16) (T : T16), s.Inv → (s.win n).delayDisarm = some (T, true) → T ≤ s.now →
      (s.win n).cycle = [] → (s.win n).state = .filling →
    Gives (.capDisarmEffect n) s [.hcp, .cap] fun t =>
      (t.win n).state = .frozen ∧ (t.win n).cause = 1 ∧ (t.win n).recFlags = (s.win n).recFlags ||| 4 ∧
      (t.win n).tFreeze = s.now ∧ (t.win n).first = (s.win n).first ∧ (t.win n).delayDisarm = none ∧
      (t.win n).frozenLast = min ((s.win n).nTrig + (s.win n).post - 1) (s.win n).newest ∧
      (∀ k, k ≠ n.val → t.win k = s.win k)) ∧
  (∀ (s : State) (r : Req), Accepted opCapTrigger r s → r.sched = false → (s.win (r.u8 0)).state = .armed →
      (tget {} (s.win (r.u8 0)).conds (r.u8 1)).flags.getLsbD 0 = true → s.inReset 7 0 = false →
      (s.win (r.u8 0)).cycle = [] → (s.win (r.u8 0)).cycleFail = false →
      (let w := s.win (r.u8 0)
       let nt := w.frameAt ((if isZero r.payload 4 12 then s.now else r.ts96 4 : Nat) : Rat)
       w.oldest ≤ nt ∧ w.newest < nt + w.post - 1) →
    Gives (.capTrigger r) s [.hcp, .cap, .ledger] fun t =>
      let w := s.win (r.u8 0)
      let T : T16 := if isZero r.payload 4 12 then s.now else r.ts96 4
      let nt := w.frameAt (T : Rat)
      (t.win (r.u8 0)).state = .filling ∧ (t.win (r.u8 0)).nTrig = nt ∧
      (t.win (r.u8 0)).first = (if w.oldest ≤ nt - w.pre then nt - w.pre else w.oldest) ∧
      (t.win (r.u8 0)).firstCause = r.u8 1 ∧ (t.win (r.u8 0)).causeMask = BitVec.ofNat 8 (2 ^ r.u8 1) ∧
      (t.win (r.u8 0)).tTrig = T ∧ (t.win (r.u8 0)).tDecide = s.now ∧
      (t.win (r.u8 0)).recFlags = (if w.oldest ≤ nt - w.pre then w.recFlags else w.recFlags ||| 2) ∧
      (t.win (r.u8 0)).quality0 = s.time.quality ∧
      Answered 0x0705 r 0 0 (le 1 0 ++ zeros 3 ++ le 4 w.sketch.toNat ++ leI 8 nt) t) ∧
  (∀ (s : State) (r : Req), Accepted opCapTrigger r s → r.sched = false →
    Gives (.capTrigger r) s [.hcp, .cap, .upl, .ledger] fun t =>
      let w := s.win (r.u8 0)
      let nt := w.frameAt ((if isZero r.payload 4 12 then s.now else r.ts96 4 : Nat) : Rat)
      if w.evaluates = true ∧ s.inReset 7 0 = false ∧ (tget {} w.conds (r.u8 1)).flags.getLsbD 0 = true then
        Answered 0x0705 r 0 0 (le 1 0 ++ zeros 3 ++ le 4 w.sketch.toNat ++ leI 8 nt) t ∧ (t.win (r.u8 0)).nTrig = nt ∧
            (t.win (r.u8 0)).causeMask.getLsbD (r.u8 1) = true ∨
          Answered 0x0705 r 0 0 (le 1 1 ++ zeros 3 ++ le 4 w.sketch.toNat ++ leI 8 nt) t
      else Answered 0x0705 r 0 0 (le 1 2 ++ zeros 3 ++ le 4 w.sketch.toNat ++ zeros 8) t) ∧
  (∀ (s : State) (r : Req), Accepted opCapTrigger r s → r.sched = true →
    Gives (.capTrigger r) s [.hcp, .cal, .ledger] fun t =>
      t.cal = { s.cal with
        entries := s.cal.entries ++ [{
          time := ofTs80 r.time, cls := 5, ins := s.cal.nextIns, action := .capTrigger (r.u8 0) (r.u8 1)
          job := some (s.jobOf opCapTrigger r) }]
        nextIns := s.cal.nextIns + 1 } ∧ Answered 0x0705 r 1 (s.jobOf opCapTrigger r).slot [] t) ∧
  (∀ (s : State) (p : Fin 49) (m : Bytes), s.Inv → s.fwRuns = true → s.chip.phase = .serving →
      (p.val < 48 → (s.port p).state = .up) → (m.length < 0x30 ∨ getU m 0 2 ≠ 0x5443 ∨ getU m 2 1 ≠ 1) →
    Gives (.networkTriggerRx p m) s [.cap] fun t =>
      t.cap = { s.cap with
        netSeen := t.cap.netSeen, netErrors := tset 0 s.cap.netErrors p (tget 0 s.cap.netErrors p + 1) } ∧
      (∀ x ∈ t.cap.netSeen, x ∈ s.cap.netSeen)) ∧
  (∀ (s : State) (p : Fin 49) (m : Bytes), s.Inv → s.fwRuns = true → s.chip.phase = .serving →
      (p.val < 48 → (s.port p).state = .up) → 0x30 ≤ m.length → getU m 0 2 = 0x5443 →
      getU m 2 1 = 1 → getU m 4 2 = 0xFFFF ∨ getU m 4 2 = s.chip.hubId.toNat → getU m 0x2C 4 = crc32c (m.take 0x2C) →
      ts80Ok (sub m 0x10 10) = true → ofTs96 (sub m 0x10 12) ≤ s.now + unitsPerSec →
      (∀ x ∈ s.cap.netSeen, x.1.toNat = getU m 6 2 → x.2.1.toNat = getU m 8 4 → x.2.2 + 2000000000 ≤ s.tick) → s.inReset 7 0 = false →
    Gives (.networkTriggerRx p m) s [.cap] fun t =>
      t.cap.netSeen = (s.cap.netSeen.filter fun x => decide (s.tick < x.2.2 + 2000000000)) ++
        [(BitVec.ofNat 16 (getU m 6 2), BitVec.ofNat 32 (getU m 8 4), s.tick)] ∧
      (∀ x ∈ s.cap.windows, ∀ k < 8, (s.win x.1).evaluates = true → (tget {} (s.win x.1).conds k).kind = 3 →
        (tget {} (s.win x.1).conds k).flags.getLsbD 0 = true →
        (tget {} (s.win x.1).conds k).id = 0xFF ∨ (tget {} (s.win x.1).conds k).id = getU m 12 1 →
        (⟨k, (ofTs96 (sub m 0x10 12) : Nat), 0⟩ : Hit) ∈ (t.win x.1).cycle) ∧
      (∀ k, (t.win k).state = (s.win k).state))

/-- Frames, records, dumps and trigger outputs (parts of R272, R287, R288, R293-R297; Tables CAP-10 to CAP-17): a frame
whose samples have all come is written to the window's region; CAP_STATUS and CAP_RECORD_READ report; missed hits
are read out; a release returns a frozen window to IDLE, or arms it anew with AUTO_REARM where the write slots admit it (log entry
31); a dump makes its window DUMPING, each packet of it carries 8,192 bytes at most and joins the frames of its ports, and its end
tells the job and writes host memory; a trigger output takes its mode, a train its calendar entry. -/
def Obligations.RecordsAreWrittenReadAndDumped : Prop :=
  (∀ (s : State) (n : Fin 16) (row : List Feed), s.Inv → (s.win n).writes = true → (s.win n).members ≠ [] →
      s.inReset 8 0 = false → (s.win n).frameRow (s.win n).nextFrame = some row →
    Gives (.captureFrameWrite n) s [.hcp, .cap, .flt] fun t =>
      let w := s.win n
      let i := w.nextFrame
      let data := packSamples w.format (row.map fun f => f.value)
      (t.win n).nNew = i ∧ (t.win n).writeNext = i + 1 ∧ (t.win n).nArm = some (w.nArm.getD i) ∧
      (∀ f ∈ (t.win n).feeds, f ∈ w.feeds ∧ i < f.index) ∧
      t.cap.memory = memWrite s.cap.memory (if w.nArm.isSome then w.address i else 65536 * w.firstPage) data ∧
      (t.win n).state = (if w.state = .arming ∧ ((w.pre + w.h : Nat) : Int) ≤ i - w.nArm.getD i + 1 then .armed
        else if w.state = .filling ∧ w.nTrig + w.post - 1 ≤ i then .frozen else w.state) ∧
      (∀ k, k ≠ n.val → t.win k = s.win k)) ∧
  (∀ (s : State) (n : Fin 16), s.Inv → (s.win n).writes = false ∨ (s.win n).frameRow (s.win n).nextFrame = none →
    Gives (.captureFrameWrite n) s [] fun _ => True) ∧
  (∀ (s : State) (r : Req), Accepted opCapStatus r s → (s.win (r.u8 0)).nArm = none →
    Reports (.capStatus r) 0x0706 r s (
      let w := s.win (r.u8 0)
      le 1 (r.u8 0) ++ le 1 (winCode w.state) ++ le 1 w.source ++ le 1 (if windowCharged w then windowSlots w else 0)
        ++ le 2 w.members.length ++ le 2 w.frameBytes ++ le 4 w.cap ++ le 4 w.h ++ le 4 w.sketch.toNat
        ++ le 4 w.missedTotal.toNat ++ zeros 16 ++ leI 8 w.nTrig ++ zeros 12 ++ le 4 w.fw)) ∧
  (∀ (s : State) (r : Req) (a : Int), Accepted opCapStatus r s → (s.win (r.u8 0)).nArm = some a →
    Reports (.capStatus r) 0x0706 r s (
      let w := s.win (r.u8 0)
      le 1 (r.u8 0) ++ le 1 (winCode w.state) ++ le 1 w.source ++ le 1 (if windowCharged w then windowSlots w else 0)
        ++ le 2 w.members.length ++ le 2 w.frameBytes ++ le 4 w.cap ++ le 4 w.h ++ le 4 w.sketch.toNat
        ++ le 4 w.missedTotal.toNat ++ leI 8 (w.nNew - a + 1) ++ leI 8 w.nNew ++ leI 8 w.nTrig ++ ts96 w.tArm ++ le 4 w.fw)) ∧
  (∀ (s : State) (r : Req), Accepted opCapRecordRead r s → s.NoResets →
    Gives (.capRecordRead r) s [.hcp, .flt] fun t =>
      Answered 0x0707 r 0 0 (recordRange s (r.u8 0) (r.u32 4) (r.u32 8)) t ∧
      (s.flt.upsets = [] → t.flt = s.flt ∧ t.hcp.log = s.hcp.log)) ∧
  (∀ (s : State) (r : Req), Accepted opCapRelease r s → (s.win (r.u8 0)).cycle = [] →
    Gives (.capRelease r) s [.hcp, .cap, .ledger] fun t =>
      let idle : Window := { s.win (r.u8 0) with
        state := .idle, feeds := [], events := [], notes := [], delayDisarm := none, cycleFail := false }
      (t.win (r.u8 0) = idle ∨ (s.win (r.u8 0)).flags.getLsbD 1 = true ∧ (t.win (r.u8 0)).state = .arming ∧
        (t.win (r.u8 0)).sketch = (s.win (r.u8 0)).sketch + 1 ∧ (t.win (r.u8 0)).armAt = s.now + 655360000 ∧
        t.used 7 0 ≤ t.capacity 7 0) ∧
      (∀ k, k ≠ r.u8 0 → t.win k = s.win k) ∧ Answered 0x0709 r 0 0 [] t) ∧
  (∀ (s : State) (r : Req), Accepted opCapMissedRead r s →
    Gives (.capMissedRead r) s [.hcp, .cap] fun t =>
      let w := s.win (r.u8 0)
      let out := w.missedLog.take (r.u8 1)
      t.cap = { s.cap with windows := tset {} s.cap.windows (r.u8 0) { w with
        missedLog := w.missedLog.drop (r.u8 1), missTold := false } } ∧
      Answered 0x070A r 0 0 (le 2 out.length ++ zeros 2 ++ le 4 w.missedTotal.toNat ++ out.flatMap fun m =>
        ts96 m.time ++ le 1 m.cond ++ le 1 m.reason ++ zeros 2 ++ le 4 m.sketch.toNat ++ zeros 4) t) ∧
  (∀ (s : State) (r : Req), Accepted opCapDump r s →
    Gives (.capDump r) s [.hcp, .cap, .ledger] fun t =>
      let on := fun g => if g ∈ destGroups (r.u8 1) then s.choosePort g 255 else none
      ∃ d < 4, s.dump d = none ∧ t.cap = { s.cap with
        dumps := tset none s.cap.dumps d (some {
          window := r.u8 0, dest := r.u8 1, releaseAfter := bit (r.u8 2) 0, entry := r.u8 3, offset := r.u32 4
          length := if r.u32 8 = 0 then (s.win (r.u8 0)).length - r.u32 4 else r.u32 8
          rate := r.u32 12, address := r.u64 16, portA := on 0, portB := on 1, job := s.jobOf opCapDump r })
        windows := tset {} s.cap.windows (r.u8 0) { s.win (r.u8 0) with state := .dumping } } ∧
      Answered 0x0708 r 1 (s.jobOf opCapDump r).slot [] t) ∧
  (∀ (s : State) (d : Fin 4) (x : Dump), s.Inv → s.dump d = some x → x.dest ≠ 0 → x.sent < x.length → s.flt.upsets = [] →
    Gives (.dumpPacket d) s [.cap, .upl, .strm] fun t =>
      let len := min 8192 (x.length - x.sent)
      t.cap = { s.cap with dumps := tset none s.cap.dumps d (some { x with sent := x.sent + len }) } ∧
      t.strm = { s.strm with order := s.strm.order + 1 } ∧
      (∀ p, x.portA = some p ∨ x.portB = some p → (s.port p).state = .up →
        (s.strm.order, buildFrame (s.dest x.entry) (s.port p) (groupOf p) 0x88B5 (0x400 + x.window)
          (dumpPacketBytes s x (x.offset + x.sent) len)) ∈ (t.port p).dumps) ∧
      (∀ p, x.portA ≠ some p → x.portB ≠ some p → t.port p = s.port p)) ∧
  (∀ (s : State) (d : Fin 4) (x : Dump), s.Inv → s.dump d = some x →
      x.dest = 0 ∧ s.chip.pcieUp = true ∨ x.dest ≠ 0 ∧ x.sent = x.length → s.flt.upsets = [] →
    Gives (.dumpEnd d) s [.hcp, .cap, .upl, .ledger] fun t =>
      t.dump d = none ∧ (∀ k, k ≠ d.val → t.dump k = s.dump k) ∧
      (x.dest = 0 → .hostWrite x.address (recordRange s x.window x.offset x.length) ∈ t.emitted) ∧
      (s.hears x.job → Told x.job 0 0 (le 1 0 ++ zeros 3 ++ le 4 x.length ++ le 4 x.uncorr ++ zeros 4) s t) ∧
      ((s.win x.window).state = .dumping → x.window ∉ t.dumpWindows →
        if x.releaseAfter then (t.win x.window).state = .idle ∨ (t.win x.window).state = .arming
        else t.win x.window = { s.win x.window with state := .frozen })) ∧
  (∀ (s : State) (r : Req), Accepted opTrigOutConfig r s →
    Gives (.trigOutConfig r) s [.hcp, .cap, .cal, .ledger] fun t =>
      t.cap = { s.cap with trigOut := tset {} s.cap.trigOut (r.u8 0) { s.trigOut (r.u8 0) with
        mode := r.u8 1, low := bit (r.u8 2) 0, windows := BitVec.ofNat 16 (r.u16 4), count := r.u16 6, width := r.u32 8
        period := r.u32 12, first := r.ts96 16, pulseEnd := 0 } } ∧
      (let es := s.cal.entries.filter fun e => e.action ≠ .trigOut (r.u8 0)
       t.cal = if r.u8 1 = 2 then { s.cal with
        entries := es ++ [{
          time := r.ts96 16, cls := 5, ins := s.cal.nextIns, action := .trigOut (r.u8 0), period := r.u32 12
          reps := some (r.u16 6) }]
        nextIns := s.cal.nextIns + 1 } else { s.cal with entries := es }) ∧ Answered 0x070B r 0 0 [] t)

/-! ## Compression and streams (11_compression, 12_streams) -/

/-- Stream compression settings and compression jobs (parts of R311-R313, R318-R322, R324; Tables ASC-5, ASC-8 to
ASC-11): settings are taken and reported; a new job joins the queue of its unit, or of the one with the fewest jobs, with a free
state slot, a RESUME the saved job with a new destination; a queued job begins on a free unit; it ends with its output in host
memory and a completion: exhausted, stopped with a token, or failed, with what runJob makes of its source; a cancelled one ends at
a block boundary (which is left open, log entry 37); the progress of a running job is open too; a queued job that is cancelled
tells its mailbox, a token is given up; COMP_AUTO_EVAL turns PRED-RICE on where the last second saved 2% and off where it saved less
than 1%. -/
def Obligations.CompressionSettingsAndJobsAct : Prop :=
  (∀ (s : State) (r : Req), Accepted opCompStreamConfig r s →
    Gives (.compStreamConfig r) s [.hcp, .comp] fun t =>
      let c := s.cstream (r.u16 0)
      t.comp = { s.comp with streams := tset {} s.comp.streams (r.u16 0) { c with
        enable := r.u8 2 == 1, mode := r.u8 3, order := r.u8 4, comp := r.u8 5, block := r.u16 6
        active := if c.mode = 2 then c.active else c.mode } } ∧
      Answered 0x0801 r 0 0 [] t) ∧
  (∀ (s : State) (r : Req), Accepted opCompStreamStatus r s →
    Gives (.compStreamStatus r) s [.hcp, .comp] fun t =>
      let c := s.cstream (r.u16 0)
      t.comp = (if bit (r.u8 2) 0 then { s.comp with streams := tset {} s.comp.streams (r.u16 0) { c with
        orig := 0, coded := 0, trial := 0, blocks := 0, stored := 0, orders := [0, 0, 0, 0] } } else s.comp) ∧
      Answered 0x0802 r 0 0 (le 2 (r.u16 0) ++ le 1 c.mode
        ++ le 1 (if c.enable then (if c.mode = 2 then c.active else c.mode) else 0xFF)
        ++ le 1 (if c.enable then (s.stream (r.u16 0)).placeC.getD c.comp else 0xFF) ++ zeros 3 ++ le 8 c.orig.toNat
        ++ le 8 c.coded.toNat ++ le 8 c.trial.toNat ++ le 4 c.blocks.toNat ++ le 4 c.stored.toNat
        ++ c.orders.flatMap (le 4)) t) ∧
  (∀ (s : State) (r : Req), Accepted opCompJob r s → bit (r.u8 6) 1 = false →
    Gives (.compJob r) s [.hcp, .comp, .cap, .ledger] fun t =>
      let u := s.chooseUnit (r.u8 0)
      let k := s.freeJobSlot.getD 0
      (u = r.u8 0 ∨ r.u8 0 = 255 ∧ u < 3 ∧ ∀ v < 3, s.unitLoad u ≤ s.unitLoad v) ∧
      (k < 16 ∧ ∀ j ∈ s.jobs, j.slot ≠ k) ∧
      t.comp = { s.comp with queues := tset [] s.comp.queues u (s.jobQueue u ++ [{
        ref := s.jobOf opCompJob r, unit := u, op := r.u8 1, mode := r.u8 2, format := r.u8 3, srcKind := r.u8 4
        window := r.u8 5, chain := bit (r.u8 6) 0, block := r.u32 8, src := r.u64 16, srcLen := r.u64 24, dst := r.u64 32
        dstCap := r.u64 40, slot := k, sketch := (s.win (r.u8 5)).sketch }]) } ∧
      t.cap = (if r.u8 4 = 1 then
        { s.cap with windows := tset {} s.cap.windows (r.u8 5) { s.win (r.u8 5) with state := .dumping } } else s.cap) ∧
      Answered 0x0803 r 1 (s.jobOf opCompJob r).slot [] t) ∧
  (∀ (s : State) (r : Req) (j : Job), Accepted opCompJob r s → bit (r.u8 6) 1 = true → s.tokenJob (r.u32 12) = some j →
    Gives (.compJob r) s [.hcp, .comp, .cap, .ledger] fun t =>
      t.comp = { s.comp with
        stopped := tset none s.comp.stopped j.slot none, stops := tset [] s.comp.stops j.slot []
        queues := tset [] s.comp.queues 0 (s.jobQueue 0 ++ [{ j with
          ref := s.jobOf opCompJob r, unit := 0, dst := r.u64 32, dstCap := r.u64 40, uncorr := 0 }]) } ∧
      t.cap = (if j.srcKind = 1 then
        { s.cap with windows := tset {} s.cap.windows j.window { s.win j.window with state := .dumping } } else s.cap) ∧
      Answered 0x0803 r 1 (s.jobOf opCompJob r).slot [] t) ∧
  (∀ (s : State) (r : Req) (j : Job), Accepted opCompJobStatus r s →
      (s.comp.queues.flatMap (·.2)).find? (fun x => x.ref.mb == r.u8 0 && x.ref.hostSeq.toNat == r.u32 4) = some j →
    Reports (.compJobStatus r) 0x0804 r s (jobPayload 0xFF 0 j.unit 0 j.base 0 0 0 0 0 j.uncorr)) ∧
  (∀ (s : State) (r : Req) (j : Job), Accepted opCompJobStatus r s →
      (s.comp.queues.flatMap (·.2)).find? (fun x => x.ref.mb == r.u8 0 && x.ref.hostSeq.toNat == r.u32 4) = none →
      (s.comp.running.filterMap (·.2)).find? (fun x => x.ref.mb == r.u8 0 && x.ref.hostSeq.toNat == r.u32 4) = some j →
    Gives (.compJobStatus r) s [.hcp, .free] fun t =>
      let f := fun i => (Config.freeWord (s.freeCount + i)).toNat
      Answered 0x0804 r 0 0 (jobPayload 0xFF 0 j.unit 0 (f 0) (f 1) (f 2) (f 3) 0 0 j.uncorr) t) ∧
  (∀ (s : State) (r : Req) (j : Job), Accepted opCompJobStatus r s →
      (s.comp.queues.flatMap (·.2) ++ s.comp.running.filterMap (·.2)).find?
        (fun x => x.ref.mb == r.u8 0 && x.ref.hostSeq.toNat == r.u32 4) = none →
      (s.comp.stopped.filterMap (·.2)).find? (fun x => x.ref.mb == r.u8 0 && x.ref.hostSeq.toNat == r.u32 4) = some j →
    Reports (.compJobStatus r) 0x0804 r s (tget [] s.comp.stops j.slot)) ∧
  (∀ (s : State) (r : Req), Accepted opCompJobCancel r s → r.u8 0 = 255 →
    Gives (.compJobCancel r) s [.hcp, .comp] fun t =>
      t.comp = { s.comp with
        stopped := tset none s.comp.stopped (r.u32 4 % 16) none, stops := tset [] s.comp.stops (r.u32 4 % 16) [] } ∧
      Answered 0x0805 r 0 0 [] t) ∧
  (∀ (s : State) (r : Req) (j : Job), Accepted opCompJobCancel r s → r.u8 0 ≠ 255 →
      (s.comp.queues.flatMap (·.2)).find? (fun x => x.ref.mb == r.u8 0 && x.ref.hostSeq.toNat == r.u32 4) = some j →
    Gives (.compJobCancel r) s [.hcp, .comp, .cap] fun t =>
      t.comp = { s.comp with
        queues := tset [] s.comp.queues j.unit ((s.jobQueue j.unit).filter fun x => x.ref != j.ref) } ∧
      (s.hears j.ref → Told j.ref 0 0 (jobPayload 3 0 j.unit 0 j.base 0 0 0 0 0 j.uncorr) s t) ∧
      (j.srcKind ≠ 1 → t.cap = s.cap) ∧ Answered 0x0805 r 0 0 [] t) ∧
  (∀ (s : State) (r : Req) (j : Job), Accepted opCompJobCancel r s → r.u8 0 ≠ 255 →
      (s.comp.queues.flatMap (·.2)).find? (fun x => x.ref.mb == r.u8 0 && x.ref.hostSeq.toNat == r.u32 4) = none →
      (s.comp.running.filterMap (·.2)).find? (fun x => x.ref.mb == r.u8 0 && x.ref.hostSeq.toNat == r.u32 4) = some j →
    Gives (.compJobCancel r) s [.hcp, .comp] fun t =>
      t.comp = { s.comp with running := tset none s.comp.running j.unit (some { j with cancelled := true }) } ∧
      Answered 0x0805 r 0 0 [] t) ∧
  (∀ (s : State) (u : Fin 3) (j : Job) (js : List Job), s.Inv → s.jobRunning u = none → s.jobQueue u = j :: js →
      s.inReset 10 u = false →
    Gives (.jobStart u) s [.comp] fun t =>
      t.comp = { s.comp with
        queues := tset [] s.comp.queues u js, running := tset none s.comp.running u (some j) }) ∧
  (∀ (s : State) (u : Fin 3) (j : Job) (host : Bytes), s.Inv → s.jobRunning u = some j → j.unit = u → s.inReset 10 u = false →
      s.chip.pcieUp = true → j.cancelled = false → s.flt.upsets = [] →
    Gives (.jobEnd u host) s [.hcp, .comp, .cap] fun t =>
      let n := j.srcLen - j.base
      let x := runJob j (n + 1) (if j.srcKind = 1 then recordRange s j.window (j.src + j.base) n else sub host j.base n)
      let gen := (s.jobGen j.slot + 1) % 2 ^ 28
      let p := jobPayload (if x.stop = 1 then 1 else if x.stop = 2 then 2 else 0) (if x.stop = 2 then x.code else 0) u
        (if x.stop = 1 then j.slot + 16 * gen else 0) (j.base + x.consumed) x.out.length x.blocks x.stored
        (if x.stop = 2 then j.base + x.consumed else 0) (if x.stop = 2 then x.bit else 0) j.uncorr
      (x.out ≠ [] → .hostWrite j.dst x.out ∈ t.emitted) ∧
      t.comp = { s.comp with
        running := tset none s.comp.running u none
        gens := if x.stop = 1 then tset 0 s.comp.gens j.slot gen else s.comp.gens
        stopped := if x.stop = 1 then tset none s.comp.stopped j.slot (some { j with
          base := j.base + x.consumed, history := x.history }) else s.comp.stopped
        stops := if x.stop = 1 then tset [] s.comp.stops j.slot p else s.comp.stops } ∧
      (s.hears j.ref → Told j.ref 0 0 p s t) ∧ (j.srcKind ≠ 1 → t.cap = s.cap)) ∧
  (∀ (s : State) (u : Fin 3) (j : Job) (host : Bytes), s.Inv → s.jobRunning u = some j → j.unit = u → s.inReset 10 u = false →
      s.chip.pcieUp = true → j.cancelled = false → s.NoResets →
    Gives (.jobEnd u host) s [.hcp, .comp, .cap, .flt] fun t =>
      t.jobRunning u = none ∧ t.comp.queues = s.comp.queues ∧
      (∀ v, v ≠ u.val → t.jobRunning v = s.jobRunning v) ∧ (s.hears j.ref → Completed j.ref 0 0 s t)) ∧
  (∀ (s : State) (u : Fin 3) (j : Job) (host : Bytes), s.Inv → s.jobRunning u = some j → j.unit = u → s.inReset 10 u = false →
      s.chip.pcieUp = true → j.cancelled = true → s.NoResets →
    Gives (.jobEnd u host) s [.hcp, .comp, .cap, .flt, .free] fun t =>
      t.comp = { s.comp with running := tset none s.comp.running u none } ∧ (s.hears j.ref → Completed j.ref 0 0 s t)) ∧
  (∀ (s : State) (n : Fin 1024), s.Inv → s.fwRuns = true → (s.cstream n).enable = true → (s.cstream n).mode = 2 →
    Gives (.compAutoEval n) s [.hcp, .comp] fun t =>
      let c := s.cstream n
      let last := c.recent.filter fun x => decide (s.tick < x.1 + 1000000000)
      let orig : Nat := (last.map fun x => x.2.1).sum
      let saved : Nat := orig - (last.map fun x => x.2.2).sum
      t.comp = { s.comp with streams := tset {} s.comp.streams n { c with
        active := if orig = 0 then c.active else if 2 * orig ≤ 100 * saved then 1 else if 100 * saved < orig then 0
          else c.active } })

/-- Stream queues and packets (parts of R312, R327, R328, R331-R333, R335, R337, R342, R343, R345-R348, R351; Tables STRM-3
and STRM-8): configuration makes a stream IDLE with its pages; STREAM_STATUS reports and clears; a flush closes the
open packet, flush-now rewinds what is open, discards what is queued and aborts its frames; a closed packet commits with its header,
its sequence number and DISCONTINUITY where owed, and claims its pages of the groups whose ports are UP; END_OF_STREAM ends the pipe;
a compressor's block waits for the packetiser, a beat of which moves 256 bytes of it into its packet. -/
def Obligations.StreamsQueueFlushAndCommit : Prop :=
  (∀ (s : State) (r : Req), Accepted opStreamConfig r s →
    Gives (.streamConfig r) s [.hcp, .strm, .ledger] fun t =>
      t.strm = { s.strm with streams := tset {} s.strm.streams (r.u16 0) (if r.u16 2 = 0 then
        { s.stream (r.u16 0) with state := .unconfigured, pages := 0, perPacket := 0, credits := 0 } else
        { s.stream (r.u16 0) with state := .idle, pages := r.u16 2, perPacket := r.u16 4, credits := 0 }) } ∧
      Answered 0x0901 r 0 0 [] t) ∧
  (∀ (s : State) (r : Req), Accepted opStreamStatus r s →
    Gives (.streamStatus r) s [.hcp, .strm] fun t =>
      let x := s.stream (r.u16 0)
      t.strm = { s.strm with streams := tset {} s.strm.streams (r.u16 0) { x with
        hitHigh := false, hitLow := false, peak := x.level } } ∧
      Answered 0x0902 r 0 0 (le 2 (r.u16 0) ++ le 1 (streamCode x.state)
        ++ le 1 (mask [x.hitHigh, x.hitLow, x.creditFault, x.holdover, x.inA, x.inB]) ++ le 2 x.pages ++ le 2 x.perPacket
        ++ le 2 x.level ++ le 2 x.peak ++ le 2 x.high ++ le 2 x.low ++ le 2 x.credits
        ++ le 2 (if x.inA then x.depth 0 else 0) ++ le 2 (if x.inB then x.depth 1 else 0) ++ zeros 2
        ++ le 8 (tget 0 s.strm.seqs (r.u16 0)) ++ le 8 x.packets.toNat ++ le 8 x.bytes.toNat ++ le 4 x.rewinds.toNat
        ++ le 4 x.discarded.toNat ++ le 8 x.unsettled.toNat) t) ∧
  (∀ (s : State) (r : Req), Accepted opStreamWatermark r s →
    Gives (.streamWatermark r) s [.hcp, .strm] fun t =>
      t.strm = { s.strm with streams := tset {} s.strm.streams (r.u16 0) { s.stream (r.u16 0) with
        high := r.u16 2, low := r.u16 4 } } ∧ Answered 0x0904 r 0 0 [] t) ∧
  (∀ (s : State) (r : Req), Accepted opStreamFlush r s → bit (r.u8 2) 0 = false →
    Gives (.streamFlush r) s [.hcp, .strm] fun t =>
      t.strm = { s.strm with streams := tset {} s.strm.streams (r.u16 0) { s.stream (r.u16 0) with
        opened := (s.stream (r.u16 0)).opened.map fun p => { p with closed := true } } } ∧ Answered 0x0903 r 0 0 [] t) ∧
  (∀ (s : State) (r : Req), Accepted opStreamFlush r s → bit (r.u8 2) 0 = true →
    Gives (.streamFlushNow r) s [.hcp, .strm, .upl] fun t =>
      let x := s.stream (r.u16 0)
      let y := t.stream (r.u16 0)
      let gone := x.opened.filter fun p => !p.eos
      y.queue = [] ∧ y.opened = x.opened.filter (fun p => p.eos) ∧ y.credits = x.pages ∧ y.discOwed = true ∧
      y.state = (if x.state = .emptying then .idle else x.state) ∧
      y.rewinds = x.rewinds + BitVec.ofNat 32 gone.length ∧
      y.discarded = x.discarded + BitVec.ofNat 32 x.queue.length ∧
      (∀ m, m ≠ r.u16 0 → t.stream m = s.stream m) ∧
      (∀ p ∈ s.sendingOf (r.u16 0), (t.port p).sending = none) ∧
      (∀ p, p ∉ s.sendingOf (r.u16 0) → t.port p = s.port p) ∧ Answered 0x0903 r 0 0 [] t) ∧
  (∀ (s : State) (n : Fin 1024) (p : Packet) (ps : List Packet), s.Inv → (s.stream n).opened = p :: ps → p.closed = true →
      p.eos = false → ((s.cstream n).enable = true → p.coded = p.count ∧ p.buffers = []) → (s.stream n).live = true →
      s.inReset 11 0 = false → s.chip.phase = .serving →
    Gives (.packetCommit n) s [.hcp, .strm] fun t =>
      let x := s.stream n
      let y := t.stream n
      let comp := (s.cstream n).enable
      let body := if comp then p.moved else packSamples (s.pipe n).format p.samples.reverse
      let seq := tget 0 s.strm.seqs n
      let h := le 1 3 ++ le 1 64
        ++ le 2 (mask [decide (p.unsettled ≠ 0), p.saturated, comp, p.fade, x.discOwed, false, p.nominal, s.chip.testMode]
          + qCode p.quality * 256 + b2n x.holdover * 1024)
        ++ le 2 s.chip.hubId.toNat ++ le 2 n ++ le 6 seq ++ le 2 p.unsettled ++ ts96I p.time ++ le 2 p.count
        ++ le 1 (s.pipe n).format ++ le 1 p.epoch.toNat ++ le 8 (intervalOf (s.fout n)) ++ leI 4 p.model ++ le 4 p.cal
        ++ le 4 body.length ++ le 2 (if comp then p.blocks else 0) ++ zeros 2
      let whole := h ++ le 4 (crc32c h) ++ zeros 4 ++ body
      let claim := fun q : Option Nat => if q.isSome ∧ (s.port (q.getD 0)).state = .up then p.pages else 0
      (y.opened = ps ∧ y.discOwed = false ∧ y.state = x.state) ∧
      (y.packets = x.packets + 1 ∧ y.bytes = x.bytes + BitVec.ofNat 64 whole.length ∧
        y.unsettled = x.unsettled + BitVec.ofNat 64 p.unsettled) ∧
      (if claim x.sendA = 0 ∧ claim x.sendB = 0 then y.queue = x.queue ∧ y.credits = x.credits + p.pages
        else y.credits = x.credits ∧ y.queue = x.queue ++ [{
          seq := seq, bytes := whole, pages := p.pages, leftA := claim x.sendA, leftB := claim x.sendB, order := s.strm.order }]) ∧
      (∀ m, m ≠ n.val → t.stream m = s.stream m) ∧
      t.strm.seqs = tset 0 s.strm.seqs n ((seq + 1) % 2 ^ 48) ∧ t.strm.order = s.strm.order + 1) ∧
  (∀ (s : State) (n : Fin 1024) (p : Packet), s.Inv → (s.stream n).opened = [p] → p.closed = true → p.eos = true →
      s.fed n = true → (s.stream n).credits ≠ 0 → (s.stream n).live = true → s.inReset 11 0 = false → s.chip.phase = .serving →
    Gives (.packetCommit n) s [.hcp, .strm, .pipes, .ledger] fun t =>
      let y := t.stream n
      (y.opened = [] ∧ y.discOwed = false ∧ y.state = (if y.queue = [] then .idle else .emptying)) ∧
      (y.placeA = none ∧ y.placeB = none ∧ y.placeC = none) ∧
      ((t.pipe n).state = .bound ∧ (t.pipe n).nLast = none) ∧
      t.strm.seqs = tset 0 s.strm.seqs n ((tget 0 s.strm.seqs n + 1) % 2 ^ 48) ∧ t.strm.order = s.strm.order + 1) ∧
  (∀ (s : State) (n : Fin 1024) (p : Packet), s.Inv → (s.stream n).opened = [p] → p.closed = true → p.eos = true →
      s.fed n = true → (s.stream n).credits = 0 → (s.stream n).live = true → s.inReset 11 0 = false → s.chip.phase = .serving →
      s.NoResets →
    Gives (.packetCommit n) s [.hcp, .strm, .flt] fun t =>
      let y := t.stream n
      y.opened = [p] ∧ y.starved = true ∧ y.creditFault = true ∧ y.discOwed = true ∧
      y.rewinds = (s.stream n).rewinds + 1 ∧ t.strm.seqs = s.strm.seqs) ∧
  (∀ (s : State) (n : Fin 1024) (i : Nat) (p : Packet) (k : Nat), s.Inv → (s.cstream n).enable = true →
      codable (s.cstream n).block 0 (s.stream n).opened = some i → (s.stream n).opened[i]? = some p →
      (s.stream n).placeC = some k → s.inReset 9 k = false → (s.stream n).live = true →
      (s.strm.coded.filter fun x => x.1 == k).length < 2 →
    Gives (.compBlockComplete n) s [.strm, .comp] fun t =>
      let c := s.cstream n
      let xs := (p.samples.reverse.drop p.coded).take c.block
      let data := packSamples (s.pipe n).format xs
      let how := (p.modes[p.coded / c.block]?).getD (if c.mode = 2 then c.active else c.mode, c.order)
      let rice := riceBlock (s.pipe n).format how.2 xs
      let b := if how.1 = 1 then rice else (none, storedBlock (s.pipe n).format xs.length data)
      (t.stream n).opened = setAt (fun q => { q with
        coded := q.coded + xs.length, buffers := q.buffers ++ [b.2], blocks := q.blocks + 1 }) i (s.stream n).opened ∧
      (∀ m, m ≠ n.val → t.stream m = s.stream m) ∧ t.strm.coded = s.strm.coded ++ [(k, n.val)] ∧
      (t.cstream n).blocks = c.blocks + 1 ∧ (t.cstream n).stored = c.stored + (if b.1 = none then 1 else 0) ∧
      (t.cstream n).orig = c.orig + BitVec.ofNat 64 data.length ∧
      (t.cstream n).coded = c.coded + BitVec.ofNat 64 b.2.length ∧
      (t.cstream n).trial = c.trial + BitVec.ofNat 64 rice.2.length ∧
      (s.tick, data.length, rice.2.length) ∈ (t.cstream n).recent) ∧
  (∀ (s : State) (k n i : Nat) (p : Packet) (b : Bytes) (bs : List Bytes), s.Inv → s.inReset 11 0 = false →
      s.chip.phase = .serving → s.nextCompressor = some k → s.strm.coded.find? (fun x => x.1 == k) = some (k, n) →
      waitingPacket (s.stream n).opened = some i → (s.stream n).opened[i]? = some p → p.buffers = b :: bs →
      (64 + p.moved.length + ((b.drop p.movedHere).take 256).length + 4095) / 4096 ≤ p.pages + (s.stream n).credits →
    Gives .packetiserBeat s [.hcp, .strm] fun t =>
      let part := (b.drop p.movedHere).take 256
      let want := (64 + p.moved.length + part.length + 4095) / 4096
      let done := decide (b.length ≤ p.movedHere + part.length)
      (t.stream n).opened = setAt (fun q => { q with
        moved := q.moved ++ part, movedHere := if done then 0 else q.movedHere + part.length
        buffers := if done then bs else q.buffers, pages := want }) i (s.stream n).opened ∧
      (t.stream n).credits = (s.stream n).credits - (want - p.pages) ∧
      (∀ m, m ≠ n → t.stream m = s.stream m) ∧ t.strm.served = k ∧
      t.strm.coded = (if done then s.strm.coded.eraseP fun x => x.2 == n else s.strm.coded)) ∧
  (∀ (s : State), s.Inv → s.strm.coded = [] → Gives .packetiserBeat s [] fun _ => True)


/-! ## Uplinks (13_uplinks) -/

/-- Uplink groups and ports (parts of R352-R362, R366-R369; Tables UPL-3, UPL-4, UPL-7 and UPL-9): quads form the ports of a
group, which start DOWN; a port's addresses, a destination entry and a stream's groups are taken as written; a port that
qualifies comes UP; a fault sequence or the loss of lock is noted, takes an UP port DOWN, counts, aborts its frame and clears its
group's claims, and a local fault is answered with remote faults; a disabled port stays out until it is enabled;
UPL_PORT_STATUS reports and clears; a received frame is counted, kept for the firmware, which answers it, or taken as a network
trigger. -/
def Obligations.PortsAreFormedAddressedAndComeUpOrDown : Prop :=
  (∀ (s : State) (r : Req), Accepted opUplGroupConfig r s →
    Gives (.uplGroupConfig r) s [.hcp, .upl, .time, .xfer] fun t =>
      let g := r.u8 0
      let quads := (List.range (r.u8 1)).map fun i => r.u8 (4 + i)
      let ports := formedPorts s quads
      (if g = 0 then t.upl.quadsA = quads ∧ t.upl.quadsB = s.upl.quadsB
        else t.upl.quadsB = quads ∧ t.upl.quadsA = s.upl.quadsA) ∧
      (∀ i < 24, t.port (24 * g + i) = if i < ports.length then
        { state := .down, protocol := (ports.getD i (0, 0)).2, firstLane := (ports.getD i (0, 0)).1
          changed := s.now, goodTick := s.tick } else {}) ∧
      (∀ p, p < 24 * g ∨ 24 * g + 24 ≤ p → t.port p = s.port p) ∧ s.PulledIn t ∧
      t.upl.dests = s.upl.dests ∧ t.upl.announce = s.upl.announce ∧
      Answered 0x0A01 r 0 0 (le 1 ports.length ++ zeros 3) t) ∧
  (∀ (s : State) (r : Req), Accepted opUplPortAddr r s →
    Gives (.uplPortAddr r) s [.hcp, .upl] fun t =>
      t.upl = { s.upl with ports := tset {} s.upl.ports (r.u8 0) { s.port (r.u8 0) with
        addrFlags := BitVec.ofNat 8 (r.u8 1), mac := r.bytes 2 6, ipv4 := r.bytes 8 4, ipv6 := r.bytes 12 16 } } ∧
      Answered 0x0A02 r 0 0 [] t) ∧
  (∀ (s : State) (r : Req), Accepted opUplDestWrite r s →
    Gives (.uplDestWrite r) s [.hcp, .upl] fun t =>
      t.upl = { s.upl with
        dests := tset [] s.upl.dests (r.u8 0) (r.bytes 0 80)
        announce := if bit (r.u8 2) 0 then some (r.u8 0)
          else if s.upl.announce = some (r.u8 0) then none else s.upl.announce } ∧ Answered 0x0A03 r 0 0 [] t) ∧
  (∀ (s : State) (r : Req), Accepted opUplStreamMap r s →
    Gives (.uplStreamMap r) s [.hcp, .strm] fun t =>
      t.strm = { s.strm with streams := tset {} s.strm.streams (r.u16 0) { s.stream (r.u16 0) with
        inA := bit (r.u8 2) 0, inB := bit (r.u8 2) 1, entry := r.u8 3, portA := r.u8 4, portB := r.u8 5 } } ∧
      Answered 0x0A04 r 0 0 [] t) ∧
  (∀ (s : State) (r : Req), Accepted opUplPortControl r s → r.u8 1 = 0 →
    Gives (.uplPortEnable r) s [.hcp, .upl] fun t =>
      t.upl = (if (s.port (r.u8 0)).state = .disabled then
        { s.upl with ports := tset {} s.upl.ports (r.u8 0) { s.port (r.u8 0) with
          state := .down, changed := s.now, goodTick := s.tick } } else s.upl) ∧ Answered 0x0A05 r 0 0 [] t) ∧
  (∀ (s : State) (r : Req), Accepted opUplPortControl r s → r.u8 1 = 1 → (s.port (r.u8 0)).state ≠ .up →
    Gives (.uplPortDisable r) s [.hcp, .upl] fun t =>
      t.port (r.u8 0) = (if (s.port (r.u8 0)).state = .down then { s.port (r.u8 0) with
        state := .disabled, changed := s.now, remoteTx := false } else s.port (r.u8 0)) ∧
      (∀ p, p ≠ r.u8 0 → t.port p = s.port p) ∧ Answered 0x0A05 r 0 0 [] t) ∧
  (∀ (s : State) (r : Req), Accepted opUplPortControl r s → r.u8 1 = 1 → (s.port (r.u8 0)).state = .up → s.NoResets →
    Gives (.uplPortDisable r) s [.hcp, .upl, .strm, .flt] fun t =>
      let p := r.u8 0
      let x := s.port p
      t.port p = { x with
        state := .disabled, sending := none, aborted := if x.sending.isSome then x.aborted + 1 else x.aborted
        downs := x.downs + 1, changed := s.now, goodTick := s.tick } ∧
      (∀ f, x.sending = some f → .uplinkFrame p (corruptFcs f.frame) true ∈ t.emitted) ∧
      (∀ n ∈ s.sentBy p, ∀ c ∈ (t.stream n).queue, (if groupOf p = 0 then c.leftA else c.leftB) = 0) ∧
      (∀ k, k ≠ p → t.port k = s.port k) ∧ (∀ n, n ∉ s.sentBy p → t.stream n = s.stream n) ∧ Answered 0x0A05 r 0 0 [] t) ∧
  (∀ (s : State) (r : Req), Accepted opUplPortStatus r s →
    Gives (.uplPortStatus r) s [.hcp, .upl] fun t =>
      let p := r.u8 0
      let x := s.port p
      t.upl = (if bit (r.u8 1) 0 then { s.upl with ports := tset {} s.upl.ports p { x with
        frames := 0, bytes := 0, aborted := 0, downs := 0, pause := 0, fcs := 0, other := 0 } } else s.upl) ∧
      Answered 0x0A06 r 0 0 (if x.state = .unconfigured then le 1 p ++ zeros 71 else le 1 p ++ le 1 (portCode x.state)
        ++ le 1 x.protocol
        ++ le 1 (mask [x.localFault, x.remoteFault, s.portReeq p, s.syncTx p]) ++ le 2 x.firstLane
        ++ le 2 (s.placedOn p).length ++ le 8 (s.used (5 + groupOf p) (p % 24)) ++ le 8 x.frames.toNat ++ le 8 x.bytes.toNat
        ++ le 4 x.aborted.toNat ++ le 4 x.downs.toNat ++ le 4 x.pause.toNat ++ le 4 x.fcs.toNat ++ le 4 x.other.toNat
        ++ zeros 4 ++ ts96 x.changed ++ zeros 4) t) ∧
  (∀ (s : State) (p : Fin 48), s.Inv → (s.port p).state = .down → (∀ l ∈ (s.port p).lanes, (s.lane l).aligned = true) →
      s.portReeq p = false → s.inReset 12 p = false → (s.port p).goodTick + 1000000 ≤ s.tick →
    Gives (.portUp p) s [.hcp, .upl] fun t =>
      t.port p = { s.port p with state := .up, changed := s.now, localFault := false, remoteFault := false, remoteTx := false } ∧
      (∀ k, k ≠ p.val → t.port k = s.port k)) ∧
  (∀ (s : State) (p : Fin 48) (cause : PortCause), s.Inv → (s.port p).state = .up → s.NoResets →
    Gives (.portDown p cause) s [.hcp, .upl, .strm, .flt] fun t =>
      let x := s.port p
      t.port p = { x with
        state := .down, localFault := x.localFault || cause == .localFault, remoteFault := x.remoteFault || cause == .remoteFault
        sending := none, aborted := if x.sending.isSome then x.aborted + 1 else x.aborted
        downs := x.downs + 1, changed := s.now, goodTick := s.tick
        remoteTx := if cause = .localFault then decide (s.chip.phase ≠ .safe) else x.remoteTx } ∧
      (∀ f, x.sending = some f → .uplinkFrame p (corruptFcs f.frame) true ∈ t.emitted) ∧
      (∀ n ∈ s.sentBy p, ∀ c ∈ (t.stream n).queue, (if groupOf p = 0 then c.leftA else c.leftB) = 0) ∧
      (∀ k, k ≠ p.val → t.port k = s.port k) ∧ (∀ n, n ∉ s.sentBy p → t.stream n = s.stream n)) ∧
  (∀ (s : State) (p : Fin 48) (cause : PortCause), s.Inv → (s.port p).state ≠ .up →
    Gives (.portDown p cause) s [.upl] fun t =>
      let x := s.port p
      t.port p = (if x.state = .unconfigured then x else { x with
        localFault := x.localFault || cause == .localFault, remoteFault := x.remoteFault || cause == .remoteFault
        goodTick := s.tick
        remoteTx := if cause = .localFault ∧ x.state ≠ .disabled then decide (s.chip.phase ≠ .safe) else x.remoteTx }) ∧
      (∀ k, k ≠ p.val → t.port k = s.port k)) ∧
  (∀ (s : State) (p : Fin 48) (f : Bytes), s.Inv → (s.port p).state = .up →
    Gives (.uplinkFrameRx p false f) s [.upl] fun t =>
      t.upl = { s.upl with ports := tset {} s.upl.ports p { s.port p with fcs := (s.port p).fcs + 1 } }) ∧
  (∀ (s : State) (p : Fin 48) (f : Bytes), s.Inv → (s.port p).state = .up → ofBe (sub f 12 2) = 0x8808 →
    Gives (.uplinkFrameRx p true f) s [.upl] fun t =>
      t.upl = { s.upl with ports := tset {} s.upl.ports p { s.port p with pause := (s.port p).pause + 1 } }) ∧
  (∀ (s : State) (p : Fin 48) (f : Bytes), s.Inv → (s.port p).state = .up → rxKind (s.port p) f = .other →
    Gives (.uplinkFrameRx p true f) s [.upl] fun t =>
      t.upl = { s.upl with ports := tset {} s.upl.ports p { s.port p with other := (s.port p).other + 1 } }) ∧
  (∀ (s : State) (p : Fin 48) (f : Bytes), s.Inv → (s.port p).state = .up → rxKind (s.port p) f = .firmware →
      s.chip.phase = .serving →
    Gives (.uplinkFrameRx p true f) s [.upl] fun t =>
      let x := s.port p
      t.port p = { x with
        inbox := (f :: x.inbox).take 16
        control := x.control ++ ((answerTo x f).toList.filter fun a => s.fwRuns && decide (a.length ≤ 232)).map
          fun a => a ++ le 4 (fcs a) } ∧
      (∀ k, k ≠ p.val → t.port k = s.port k)) ∧
  (∀ (s : State) (p : Fin 48) (f m : Bytes), s.Inv → (s.port p).state = .up → rxKind (s.port p) f = .trigger m →
      s.chip.phase = .serving →
    Gives (.uplinkFrameRx p true f) s [.hcp, .cap] fun t => exec (.networkTriggerRx (p.castLE (by decide)) m) s = .next t)

/-- Transmission (parts of R329, R363, R364): a control frame of at most 256 bytes on the wire is queued with its frame check
sequence while the firmware runs; the transmitter takes a control frame first, but not a second one past waiting data (log entry
119), else what was committed first; the end of a packet's page returns its credit once no group claims it, and the end of a frame
sends and counts it. -/
def Obligations.PortsSendControlFramesAndPackets : Prop :=
  (∀ (s : State) (p : Fin 48) (f : Bytes), s.Inv → s.fwRuns = true → (s.port p).state = .up → s.chip.phase = .serving →
      f.length ≤ 232 →
    Gives (.controlFrameTx p f) s [.upl] fun t =>
      t.upl = { s.upl with ports := tset {} s.upl.ports p { s.port p with
        control := (s.port p).control ++ [f ++ le 4 (fcs f)] } }) ∧
  (∀ (s : State) (p : Fin 48) (f : Bytes), s.Inv → 232 < f.length → Gives (.controlFrameTx p f) s [] fun _ => True) ∧
  (∀ (s : State) (p : Fin 48) (f : Bytes) (fs : List Bytes), s.Inv → s.mayStart p = true → (s.port p).control = f :: fs →
      ((s.port p).lastControl && s.dataWaits p) = false →
    Gives (.frameTxStart p) s [.upl] fun t =>
      t.port p = { s.port p with control := fs, sending := some (.control f), lastControl := true } ∧
      (∀ k, k ≠ p.val → t.port k = s.port k)) ∧
  (∀ (s : State) (p : Fin 48) (o n : Nat) (c : Committed), s.Inv → s.mayStart p = true →
      (s.port p).control = [] ∨ (s.port p).lastControl = true → firstCommitted (s.waitingOn p) = some (o, n, c) →
      (∀ d ∈ (s.port p).dumps.take 1, o < d.1) →
    Gives (.frameTxStart p) s [.upl, .strm] fun t =>
      let g := groupOf p
      t.strm = { s.strm with streams := tset {} s.strm.streams n { s.stream n with
        queue := (s.stream n).queue.map fun x => if x.seq = c.seq ∧ x.order = c.order then
          (if g = 0 then { x with begunA := true } else { x with begunB := true }) else x } } ∧
      t.upl = { s.upl with ports := tset {} s.upl.ports p { s.port p with
        sending := some (.packet n c.seq (if g = 0 then c.leftA else c.leftB)
          (buildFrame (s.dest (s.stream n).entry) (s.port p) g 0x88B5 n c.bytes))
        lastControl := (s.port p).lastControl && t.dataWaits p } }) ∧
  (∀ (s : State) (p : Fin 48) (o : Nat) (d : Bytes) (ds : List (Nat × Bytes)), s.Inv → s.mayStart p = true →
      (s.port p).control = [] ∨ (s.port p).lastControl = true → (s.port p).dumps = (o, d) :: ds →
      (∀ x ∈ s.waitingOn p, o ≤ x.1) →
    Gives (.frameTxStart p) s [.upl] fun t =>
      t.port p = { s.port p with
        dumps := ds, sending := some (.dump d), lastControl := (s.port p).lastControl && t.dataWaits p } ∧
      (∀ k, k ≠ p.val → t.port k = s.port k)) ∧
  (∀ (s : State) (p : Fin 48), s.Inv → s.mayStart p = false ∨ (s.port p).control = [] ∧ s.dataWaits p = false →
    Gives (.frameTxStart p) s [] fun _ => True) ∧
  (∀ (s : State) (p : Fin 48) (f : Bytes), s.Inv →
      (s.port p).sending = some (.control f) ∨ (s.port p).sending = some (.dump f) →
    Gives (.frameTxEnd p) s [.upl] fun t =>
      .uplinkFrame p f false ∈ t.emitted ∧
      t.upl = { s.upl with ports := tset {} s.upl.ports p { s.port p with
        sending := none, frames := (s.port p).frames + 1, bytes := (s.port p).bytes + BitVec.ofNat 64 f.length } }) ∧
  (∀ (s : State) (p : Fin 48) (n : Nat), s.Inv → (s.port p).sending = some (.message n) →
    Gives (.frameTxEnd p) s [.upl] fun t =>
      t.upl = { s.upl with ports := tset {} s.upl.ports p { s.port p with
        sending := none, frames := (s.port p).frames + 1, bytes := (s.port p).bytes + BitVec.ofNat 64 n } }) ∧
  (∀ (s : State) (p : Fin 48) (n seq left : Nat) (f : Bytes), s.Inv → (s.port p).sending = some (.packet n seq left f) →
    Gives (.frameTxEnd p) s [.hcp, .upl, .strm] fun t =>
      let x := s.stream n
      let q := x.queue.map fun c => if c.seq = seq then
        (if groupOf p = 0 then { c with leftA := c.leftA - 1 } else { c with leftB := c.leftB - 1 }) else c
      let kept := q.filter fun c => max c.leftA c.leftB ≠ 0
      (left ≤ 1 → .uplinkFrame p f false ∈ t.emitted) ∧
      t.upl = { s.upl with ports := tset {} s.upl.ports p (if left ≤ 1 then { s.port p with
        sending := none, frames := (s.port p).frames + 1, bytes := (s.port p).bytes + BitVec.ofNat 64 f.length }
        else { s.port p with sending := some (.packet n seq (left - 1) f) }) } ∧
      (t.stream n).queue = kept ∧ (t.stream n).opened = x.opened ∧
      (t.stream n).state = (if x.state = .emptying ∧ kept = [] then .idle else x.state) ∧
      (t.stream n).credits = (if x.state = .emptying ∧ kept = [] then x.pages else
        x.credits + ((x.queue.map Committed.left).sum - (q.map Committed.left).sum)) ∧
      (∀ m, m ≠ n → t.stream m = s.stream m))


/-! ## Faults (14_faults) -/

/-- What a detected fault does (parts of R373-R378, R381, R384, R386; Tables FLT-2, FLT-3 and FLT-5): its sticky bit, first-fault
registers and event log are written, an uncorrectable line enters its region's log, and the sources with an effect of their own have
it; a first event whose reaction asks for a block reset puts the block in reset (block 7, the trigger engine, stands here for a block
whose reset touches no object), one that asks for a chip reset writes the fault record and resets the chip; the end of a block reset
sets RESET_DONE and starts the gate, or RESET_HELD where the unit is held; a gate ends 256 DSP cycles later. -/
def Obligations.FaultsAreNotedAndTheirReactionsAct : Prop :=
  (∀ (s : State) (b : Fin 17) (n : Fin 64) (u : Nat) (m : MemRead), s.Inv → sourceExists b n = true → Quietly b n u s →
      lineRegion b n = none → (b.val, n.val) ∉ [(1, 1), (7, 0), (8, 0), (11, 0), (11, 1), (12, 1), (14, 2), (16, 0)] →
    Gives (.faultDetect b n u m) s [.hcp, .flt] fun t =>
      t.flt = { s.flt with
        blocks := tset {} s.flt.blocks b ((s.blk b).seen s.now n u)
        standing := (s.flt.standing.filter fun x => x != (b.val, n.val, u)) ++
          (if mayPersist b n then [(b.val, n.val, u)] else []) }) ∧
  (∀ (s : State) (b : Fin 17) (n : Fin 64) (u : Nat) (m : MemRead) (g : Fin 6), s.Inv → sourceExists b n = true →
      s.faultsHeld = false → s.NoResets → lineRegion b n = some g →
    Gives (.faultDetect b n u m) s [.hcp, .flt, .cap, .comp, .strm, .pipes] fun t =>
      let log : List Uncorr := tget [] s.flt.logs g
      let e : Uncorr := ⟨s.now, ⟨g, m.owner, m.address, m.id, m.detail⟩, false⟩
      t.flt.logs = tset [] s.flt.logs g
        ((log ++ [e]).drop (log.length + 1 - 32)) ∧
      (s.gated b n u = false → (t.blk b).sticky.getLsbD n = true) ∧
      (m.upset ≠ {} → t.upset g m.address.toNat = m.upset)) ∧
  (∀ (s : State) (b : Fin 17) (n : Fin 64) (u : Nat) (m : MemRead), s.Inv → s.faultsHeld = false → s.NoResets →
      s.gated b n u = false → (b.val, n.val) ∈ [(7, 0), (8, 0), (11, 0), (11, 1), (12, 1), (14, 2), (16, 0)] →
    Gives (.faultDetect b n u m) s [.chip, .boot, .ports, .hcp, .flt, .cap, .strm, .upl] fun t =>
      (t.blk b).sticky.getLsbD n = true ∧
      (b.val = 7 → (t.win u).cycleFail = true) ∧
      (b.val = 11 → (t.stream u).opened = (s.stream u).opened.filter fun p => p.eos) ∧
      (b.val = 11 → n.val = 0 → (t.stream u).creditFault = true ∧ (t.stream u).starved = true) ∧
      (b.val = 12 → (t.port u).sending = none) ∧
      (b.val = 14 → tget 0 t.flt.outer u = (tget 0 s.flt.outer u + 1) % 2 ^ 64 ∧ t.upset u m.address.toNat = {}) ∧
      (b.val = 16 → t.chip.pcieUp = false)) ∧
  (∀ (s : State) (e : CalEntry) (m : MemRead), s.Inv → s.faultsHeld = false → s.NoResets → s.OneDue e →
    Gives (.faultDetect 1 1 0 m) s [.hcp, .flt, .cal, .cap, .channels, .pipes, .strm, .boot, .ledger, .free] fun t =>
      (∀ x ∈ t.cal.entries, x ∈ s.cal.entries ∧ x.ins ≠ e.ins) ∧ t.cal.discarded = s.cal.discarded + 1 ∧
      ∃ f ∈ t.cal.fireLog, f.ins = e.ins ∧ f.outcome = 4) ∧
  (∀ (s : State) (n : Fin 64) (u : Nat) (m : MemRead), s.Inv → sourceExists 7 n = true → s.faultsHeld = false →
      s.gated 7 n u = false → s.mayReset = true → (s.blk 7).sticky.getLsbD n = false → resetField (s.reaction 7 n) = 1 →
      s.inReset 7 0 = false →
    Gives (.faultDetect 7 n u m) s [.hcp, .flt, .cap] fun t =>
      let f := (s.blk 7).seen s.now n u
      let starts := (f.starts.filter fun x => decide (s.now ≤ x.2 + unitsPerSec)) ++ [(0, s.now)]
      t.blk 7 = { f with
        starts := starts, inReset := f.inReset ++ [0]
        held := if 4 ≤ (starts.filter fun x => x.1 == 0).length then f.held ++ [0] else f.held
        gates := (f.gates.filter fun g => g.unit != 0) ++ [{ unit := 0, feeds := [] }] } ∧
      (∀ k, k ≠ 7 → t.blk k = s.blk k)) ∧
  (∀ (s : State) (b : Fin 17) (n : Fin 64) (u : Nat) (m : MemRead), s.Inv → sourceExists b n = true → lineRegion b n = none →
      (b.val, n.val) ∉ [(1, 1), (11, 0)] → (b = 3 → n = 3 → s.chip.dspLocked = true) →
      s.gated b n u = false → s.mayReset = true → (s.blk b).sticky.getLsbD n = false → resetField (s.reaction b n) = 2 →
    Gives (.faultDetect b n u m) s wholeHub fun t =>
      t.chip.phase = .reset ∧ CoreCleared t ∧ t.time = s.time.held ∧
      t.flt.record.cause = (if b = 15 ∧ n = 2 then 3 else 2) ∧ t.flt.record.block = b ∧ t.flt.record.source = n ∧
      t.flt.record.unit = u ∧ t.flt.record.time = s.now ∧ t.flt.record.count = s.flt.record.count + 1) ∧
  (∀ (s : State) (b : Fin 17) (u : Nat), s.Inv → u ∈ (s.blk b).inReset → u ≠ dspUnit → u ∉ (s.blk b).held → s.NoResets →
    Gives (.blockResetEnd b u) s [.hcp, .flt, .cap, .cal, .pipes, .upl, .xfer, .ledger] fun t =>
      let f := s.blk b
      (t.blk b).inReset = f.inReset.filter (fun k => k ≠ u) ∧ (t.blk b).held = f.held ∧
      (t.blk b).gates = (f.gates.map fun g => if g.unit = u then { g with left := some s.tick } else g) ∧
      (s.faultsHeld = false → t.gated b 63 u = false → (t.blk b).sticky.getLsbD 63 = true) ∧
      (b.val = 12 → (t.port u).goodTick = s.tick)) ∧
  (∀ (s : State) (b : Fin 17) (u : Nat), s.Inv → u ∈ (s.blk b).inReset → u ≠ dspUnit → u ∈ (s.blk b).held → s.NoResets →
    Gives (.blockResetEnd b u) s [.hcp, .flt] fun t =>
      let f := s.blk b
      (t.blk b).inReset = f.inReset.filter (fun k => k ≠ u) ∧ (t.blk b).held = f.held ∧
      (s.faultsHeld = false → t.gated b 62 u = false → (t.blk b).sticky.getLsbD 62 = true)) ∧
  (∀ (s : State) (b : Fin 17) (u : Nat), s.Inv → u ∉ (s.blk b).inReset ∨ u = dspUnit →
    Gives (.blockResetEnd b u) s [] fun _ => True) ∧
  (∀ (s : State) (b : Fin 17) (u : Nat), s.Inv →
    Gives (.gateEnd b u) s [.flt] fun t =>
      t.flt = { s.flt with blocks := tset {} s.flt.blocks b { s.blk b with gates := (s.blk b).gates.filter fun g =>
        !(g.unit == u && (match g.left with
          | some k => decide (k + 256 ≤ s.tick)
          | none => false)) } })

/-- The fault opcodes (parts of R371, R373, R378-R380, R384, R386, R389, R390; Tables FLT-5, FLT-6 and FLT-9): a block's
registers are read and cleared, where a persisting condition sets its bit again (whether a condition once detected persists is left
open, log entry 115); a reaction byte is set, the lock is set, a held unit is released, the log of uncorrectable lines and the fault
record are read; a fault is injected, or a parity error (log entry 54). The corrected-error count grows by a free value (log entry
57). -/
def Obligations.FaultOpcodesReadClearSetAndInject : Prop :=
  (∀ (s : State) (r : Req), Accepted opFltRead r s →
    Reports (.fltRead r) 0x0B01 r s (le 8 (s.blk (r.u8 0)).sticky.toNat ++ le 8 (s.fltState (r.u8 0))
      ++ (List.range 64).map (s.reaction (r.u8 0))
      ++ padTo 256 ((s.blk (r.u8 0)).events.flatMap fun e => ts96 e.1 ++ le 1 e.2.1 ++ zeros 1 ++ le 2 e.2.2))) ∧
  (∀ (s : State) (r : Req), Accepted opFltClear r s → s.NothingPersists →
    Gives (.fltClear r) s [.hcp, .flt] fun t =>
      let f := s.blk (r.u8 0)
      let left := f.sticky &&& ~~~(BitVec.ofNat 64 (r.u64 8))
      t.flt = { s.flt with blocks := tset {} s.flt.blocks (r.u8 0) (
        if left = 0 then { f with sticky := left, firstUnit := 0, firstSrc := 0, firstValid := false }
        else { f with sticky := left }) } ∧ Answered 0x0B02 r 0 0 (le 8 left.toNat) t) ∧
  (∀ (s : State) (r : Req), Accepted opFltClear r s → s.NoResets →
    Gives (.fltClear r) s [.hcp, .flt, .free] fun t =>
      let left := (s.blk (r.u8 0)).sticky &&& ~~~(BitVec.ofNat 64 (r.u64 8))
      (t.blk (r.u8 0)).sticky &&& left = left ∧ Answered 0x0B02 r 0 0 (le 8 left.toNat) t) ∧
  (∀ (s : State) (r : Req), Accepted opFltReactSet r s →
    Gives (.fltReactSet r) s [.hcp, .flt] fun t =>
      t.flt = { s.flt with blocks := tset {} s.flt.blocks (r.u8 0) { s.blk (r.u8 0) with
        react := tset (defaultReaction (r.u8 0) (r.u8 1)) (s.blk (r.u8 0)).react (r.u8 1) (BitVec.ofNat 8 (r.u8 2)) } } ∧
      Answered 0x0B03 r 0 0 [] t) ∧
  (∀ (s : State) (r : Req), Accepted opFltLock r s →
    Gives (.fltLock r) s [.hcp, .flt] fun t => t.flt = { s.flt with locked := true } ∧ Answered 0x0B04 r 0 0 [] t) ∧
  (∀ (s : State) (r : Req), Accepted opFltBlockRelease r s → s.NoResets →
    Gives (.fltBlockRelease r) s [.hcp, .flt, .cap, .cal, .pipes, .upl, .xfer, .ledger] fun t =>
      let f := s.blk (r.u8 0)
      (t.blk (r.u8 0)).held = f.held.filter (fun k => k ≠ r.u16 2) ∧ (t.blk (r.u8 0)).inReset = f.inReset ∧
      (t.blk (r.u8 0)).gates = (f.gates.map fun g => if g.unit = r.u16 2 then { g with left := some s.tick } else g) ∧
      (t.gated (r.u8 0) 63 (r.u16 2) = false → (t.blk (r.u8 0)).sticky.getLsbD 63 = true) ∧
      Answered 0x0B05 r 0 0 [] t) ∧
  (∀ (s : State) (r : Req), Accepted opUncorrRead r s →
    Gives (.uncorrRead r) s [.hcp, .flt, .free] fun t =>
      let log : List Uncorr := tget [] s.flt.logs (r.u8 0)
      let got := log.take (r.u8 1)
      let log' := if bit (r.u8 2) 0 then (got.map fun e => { e with acked := true }) ++ log.drop (r.u8 1) else log
      t.flt.logs = tset [] s.flt.logs (r.u8 0) log' ∧
      ∃ c, t.flt.corrected = tset 0 s.flt.corrected (r.u8 0) c ∧
        Answered 0x0B06 r 0 0 (le 2 got.length ++ le 2 (log'.filter fun e => !e.acked).length ++ zeros 4 ++ le 8 c
          ++ le 8 (tget 0 s.flt.outer (r.u8 0)) ++ got.flatMap uncorrEntry) t) ∧
  (∀ (s : State) (r : Req), Accepted opFltRecordRead r s →
    Gives (.fltRecordRead r) s [.hcp, .flt] fun t =>
      let f := s.flt.record
      t.flt = { s.flt with record := { f with wasRead := true } } ∧
      Answered 0x0B07 r 0 0 (le 2 0x4652 ++ le 1 f.cause ++ le 1 (mask [f.again, f.wasRead, f.testMode]) ++ le 1 f.block
        ++ le 1 f.source ++ le 2 f.unit ++ ts96 f.time ++ le 1 (qCode f.quality) ++ le 1 f.state ++ le 2 f.hubId.toNat
        ++ le 4 f.count.toNat ++ le 4 f.chipState.toNat ++ zeros 32
        ++ (List.range 64).flatMap fun b => le 8 (tget (0, 0) f.copies b).1.toNat ++ le 8 (tget (0, 0) f.copies b).2.toNat) t) ∧
  (∀ (s : State) (r : Req), Accepted opFltInject r s → r.u8 1 ≠ 0xFF → Quietly (r.u8 0) (r.u8 1) (r.u16 2) s →
    Gives (.fltInject r) s [.hcp, .flt] fun t =>
      Noted (r.u8 0) (r.u8 1) (r.u16 2) s t ∧ Answered 0x0B08 r 0 0 [] t) ∧
  (∀ (s : State) (r : Req), Accepted opFltInject r s → r.u8 1 = 0xFF →
    Gives (.fltInject r) s [.chip, .hcp, .cap, .strm, .upl, .comp, .flt, .ledger] fun t =>
      t.chip = { s.chip with phase := .safe } ∧ t.flt.record.cause = 1 ∧ t.flt.record.block = r.u8 0 ∧
      t.flt.record.source = 0xFF ∧ t.flt.record.unit = r.u16 2 ∧ t.flt.record.time = s.now ∧ Answered 0x0B08 r 0 0 [] t)


/-! ## The machine safety island (15_safety) -/

/-- The island's states (parts of R392, R393, R399, R404, R405; Table SAFE-6): it boots when VDD_SAFE is there, latches
a valid configuration word and runs, or stays off in CONFIG_FAULT; a failed self-test, boot or diagnostic leads to
LOCKOUT; switch pins that change while it runs lead to CONFIG_FAULT; the loss of VDD_SAFE leaves it unpowered, and
what the core region knows of it. -/
def Obligations.IslandBootsRunsAndFails : Prop :=
  (∀ (s : State) (t c : W16), s.Inv → s.island.state = .off →
    Gives (.safeIslandPowerUp t c) s [.chip, .island] fun x =>
      x.chip = { s.chip with rails := { s.chip.rails with safe := true } } ∧
      x.island = {
        state := .boot, bootTick := s.tick, swT := t, swC := c, status := s.island.status
        statusTick := s.island.statusTick, log := s.island.log, overwritten := s.island.overwritten }) ∧
  (∀ (s : State), s.Inv → s.island.state = .boot → wordOk s.island.swT s.island.swC = true →
    Gives (.safeIslandBootDone true) s [.island] fun x =>
      x.island.state = .run ∧ x.island.word = s.island.swT ∧ x.island.wordValid = true ∧ x.island.sout = s.island.sout ∧
      x.island.readyX = s.island.readyX ∧ x.island.readyY = s.island.readyY ∧ x.island.sin = s.island.sin) ∧
  (∀ (s : State), s.Inv → s.island.state = .boot → wordOk s.island.swT s.island.swC = false →
    Gives (.safeIslandBootDone true) s [.island] fun x =>
      x.island = { s.island with state := .configFault, word := s.island.swT, cfgInvalid := true }) ∧
  (∀ (s : State), s.Inv → s.island.state = .boot →
    Gives (.safeIslandBootDone false) s [.island] fun x =>
      x.island.state = .lockout ∧ x.island.internalFault = true ∧ x.island.sout = 0) ∧
  (∀ (s : State), s.Inv → s.island.state = .boot → s.island.bootTick + 50000000 ≤ s.tick →
    Gives .safeIslandBootTimeout s [.island] fun x =>
      x.island.state = .lockout ∧ x.island.internalFault = true ∧ x.island.sout = 0) ∧
  (∀ (s : State), s.Inv → s.island.state = .boot → s.tick < s.island.bootTick + 50000000 →
    Gives .safeIslandBootTimeout s [] fun _ => True) ∧
  (∀ (s : State), s.Inv →
    Gives .vddSafeLoss s [.chip, .island] fun x =>
      x.chip = { s.chip with rails := { s.chip.rails with safe := false } } ∧
      x.island = {
        status := s.island.status, statusTick := s.island.statusTick, log := s.island.log
        overwritten := s.island.overwritten }) ∧
  (∀ (s : State) (t c : W16), s.Inv → s.island.state = .run → (t ≠ s.island.word ∨ c ≠ ~~~s.island.word) →
    Gives (.configChange t c) s [.island] fun x =>
      x.island.state = .configFault ∧ x.island.cfgChanged = true ∧ x.island.sout = 0 ∧ x.island.swT = t ∧
      x.island.swC = c ∧ x.island.word = s.island.word) ∧
  (∀ (s : State), s.Inv → s.island.state = .run →
    Gives .safeDiagFail s [.island] fun x =>
      x.island.state = .lockout ∧ x.island.internalFault = true ∧ x.island.sout = 0) ∧
  (∀ (s : State) (n : Fin 4), s.Inv → s.island.state = .run → s.island.sout.getLsbD n = true →
    Gives (.outputTestPulse n false) s [.island] fun x =>
      x.island.state = .lockout ∧ x.island.internalFault = true ∧ x.island.sout = 0) ∧
  (∀ (s : State) (n : Fin 4) (seen : Bool), s.Inv →
      seen = true ∨ s.island.state ≠ .run ∨ s.island.sout.getLsbD n = false →
    Gives (.outputTestPulse n seen) s [] fun _ => True)

/-- The island's inputs (parts of R394-R398, R400; Tables SAFE-2 and SAFE-3): a test pulse goes out in its slot of the 20 ms cycle
and latches stuck, crossed and output faults, an unused one only what its readback shows; an input takes the level that its samples
of 3 ms have, the open level of an OSSD input that of the samples beyond its tolerance, samples in a test pulse apart; a pair that
disagrees for longer than its time latches DISCREPANCY; a second button later than 500 ms sets TWO_HAND_TIMEOUT and starts nothing; a
press counts only between 100 ms and 3 s, and one that reaches 3 s sets RESET_STUCK. -/
def Obligations.IslandInputsAndPressesAreJudged : Prop :=
  (∀ (s : State) (p : Fin 8) (ok : Bool) (stuck low : W16), s.Inv → s.island.state = .run →
      s.island.tpoUsed p = true → s.island.inPulse p 2500000 s.tick = true →
    Gives (.testPulse p ok stuck low) s [.island] fun t =>
      .tpoPulse p ∈ t.emitted ∧
      (∀ k, k < 8 → (t.island.stuckHigh.getLsbD k = true ↔ s.island.stuckHigh.getLsbD k = true ∨
        ∃ n, n / 2 = k ∧ n < 16 ∧ n % 8 = p.val ∧ s.island.pulsedInput n = true ∧ stuck.getLsbD n = true)) ∧
      (∀ k, k < 8 → (t.island.crossShort.getLsbD k = true ↔ s.island.crossShort.getLsbD k = true ∨
        ∃ n, n / 2 = k ∧ n < 16 ∧ n % 8 ≠ p.val ∧ s.island.pulsedInput n = true ∧ s.island.sin.getLsbD n = true ∧
          low.getLsbD n = true)) ∧
      t.island.tpoFault = (s.island.tpoFault || !ok) ∧ t.island.sin = s.island.sin ∧ t.island.sout = s.island.sout) ∧
  (∀ (s : State) (p : Fin 8) (ok : Bool) (stuck low : W16), s.Inv → s.island.state = .run → s.island.tpoUsed p = false →
    Gives (.testPulse p ok stuck low) s [.island] fun t =>
      t.island = { s.island with tpoFault := s.island.tpoFault || !ok }) ∧
  (∀ (s : State) (p : Fin 8) (ok : Bool) (stuck low : W16), s.Inv →
      s.island.state ≠ .run ∨ s.island.tpoUsed p = true ∧ s.island.inPulse p 2500000 s.tick = false →
    Gives (.testPulse p ok stuck low) s [] fun _ => True) ∧
  (∀ (s : State) (n : Fin 16) (b : Bool) (samples : List Bool), s.Inv → s.island.state = .run →
      (let k := if s.island.func (n / 2) = some .curtain ∧ b = false then s.island.tolerance + 1 else 30
       (s.island.kept n s.tick samples).take k = List.replicate k b) →
    Gives (.inputRecognised n samples) s [.island] fun t =>
      t.island.sin.getLsbD n = b ∧ (∀ k, k ≠ n.val → t.island.sin.getLsbD k = s.island.sin.getLsbD k) ∧
      t.island.pairFaults = s.island.pairFaults ∧ t.island.sout = s.island.sout) ∧
  (∀ (s : State) (n : Fin 16) (samples : List Bool), s.Inv →
      s.island.state ≠ .run ∨ s.island.recognised n s.tick samples = none →
    Gives (.inputRecognised n samples) s [] fun _ => True) ∧
  (∀ (s : State) (p : Fin 8), s.Inv → s.island.state = .run → 0 < tget 0 s.island.disagree p →
      tget 0 s.island.disagree p - 1 + s.island.discrepancyTime < s.tick →
    Gives (.discrepancyTimeout p) s [.island] fun t =>
      t.island.discrepancy = s.island.discrepancy ||| BitVec.ofNat 8 (2 ^ p.val) ∧ t.island.sout = s.island.sout ∧
      t.island.sin = s.island.sin) ∧
  (∀ (s : State) (p : Fin 8), s.Inv → s.island.state = .run → 0 < tget 0 s.island.disagree p →
      s.tick ≤ tget 0 s.island.disagree p - 1 + s.island.discrepancyTime →
    Gives (.discrepancyTimeout p) s [] fun _ => True) ∧
  (∀ (s : State) (k : Nat), s.Inv → s.island.state = .run → s.island.thOpen = true → s.island.thOnset = some k →
      k + 500000000 < s.tick → s.island.allButtons false = true → s.island.allButtons true = false →
      s.island.thStarted = false →
    Gives .twoHandTimeout s [.island] fun t =>
      t.island = { s.island with
        thOpen := false, thReleased := false, thOnset := none, thTimeout := true, thStarted := false }) ∧
  (∀ (s : State) (k : Nat), s.Inv → s.island.state = .run → s.island.pressSince = some k → k + 100000000 ≤ s.tick →
      s.tick < k + 3000000000 →
    Gives .resetPressRelease s [.island] fun t =>
      t.island.presses = s.island.presses + 1 ∧ t.island.pressSince = none ∧ t.island.resetStuck = false ∧
      t.island.openSeen = 0 ∧ t.island.discrepancy = s.island.discrepancy &&& ~~~s.island.openSeen ∧
      t.island.crossShort = s.island.crossShort &&& ~~~s.island.openSeen ∧
      t.island.stuckHigh = s.island.stuckHigh &&& ~~~s.island.openSeen ∧ t.island.sout = s.island.sout) ∧
  (∀ (s : State) (k : Nat), s.Inv → s.island.state = .run → s.island.pressSince = some k →
      (s.tick < k + 100000000 ∨ k + 3000000000 ≤ s.tick) →
    Gives .resetPressRelease s [.island] fun t =>
      t.island.presses = s.island.presses ∧ t.island.pressSince = none ∧ t.island.pairFaults = s.island.pairFaults ∧
      t.island.readyX = s.island.readyX ∧ t.island.readyY = s.island.readyY) ∧
  (∀ (s : State), s.Inv → s.island.state = .run → s.island.pressSince = none →
    Gives .resetPressRelease s [.island] fun t =>
      t.island = { s.island with srstHighSince := some (s.island.srstHighSince.getD s.tick) }) ∧
  (∀ (s : State) (k : Nat), s.Inv → s.island.state = .run → s.island.pressSince = some k → k + 3000000000 ≤ s.tick →
    Gives .resetStuck s [.island] fun t => t.island = { s.island with resetStuck := true })

/-- The island's outputs (parts of R400-R404, R406; Table SAFE-5): after an island tick in RUN, an output is energised
only where its group has READY, every function that the group follows is enabled, its two-hand control, if it has
one, has started, and no island-wide fault is latched; READY never comes from a tick without a press; a readback
that differs from its output for 10 ms latches OUTPUT_FAULT and puts every output off. -/
def Obligations.OutputsFollowReadyAndTheFunctions : Prop :=
  (∀ (s : State) (srb : BitVec 4) (b : Bool), s.Inv → s.island.state = .run →
    Gives (.islandTick srb b) s [.island] fun t =>
      t.island.state = .run ∧ t.island.srb = srb ∧ t.island.sin = s.island.sin ∧
      (∀ n, t.island.sout.getLsbD n = true → ∃ y, n ∈ t.island.outputs y ∧ t.island.ready y = true ∧
        (∀ p ∈ t.island.followed y, t.island.enabledAt p = true) ∧
        (t.island.groupTwoHand y = true → t.island.thStarted = true) ∧ t.island.tpoFault = false ∧
        t.island.cfgChanged = false ∧ t.island.internalFault = false ∧ t.island.outputFault = false)) ∧
  (∀ (s : State) (srb : BitVec 4) (b : Bool), s.Inv → s.island.state ≠ .run →
    Gives (.islandTick srb b) s [.island] fun t =>
      t.island = if s.island.state = .off then s.island else { s.island with srb := srb }) ∧
  (∀ (s : State) (srb : BitVec 4) (b : Bool) (y : Bool), s.Inv → s.island.state = .run → s.island.pressSince = none →
      s.island.ready y = false →
    Gives (.islandTick srb b) s [.island] fun t => t.island.ready y = false) ∧
  (∀ (s : State) (n : Fin 4), s.Inv → s.island.state = .run → n.val ∈ s.island.checked →
      tget 0 s.island.soutSince n + 10000000 ≤ s.tick → s.island.srb.getLsbD n = s.island.sout.getLsbD n →
    Gives (.readbackTimeout n) s [.island] fun t =>
      t.island.outputFault = true ∧ t.island.sout = 0 ∧ t.island.state = .run) ∧
  (∀ (s : State) (n : Fin 4), s.Inv → s.island.srb.getLsbD n = !s.island.sout.getLsbD n →
    Gives (.readbackTimeout n) s [] fun _ => True)

/-- What the host sees of the island (parts of R407-R409; Table SAFE-7): an update that differs enters SAFE_STATUS and
the log of 64 entries; an update that stays away for a microsecond clears LIVE; the read opcodes report, and consume
what they read of the log; a write opcode answers LOCKED_BY_SEAL, in a v2 session what R65 makes of it, and changes nothing. -/
def Obligations.IslandStatusIsReportedAndSealed : Prop :=
  (∀ (s : State), s.Inv → s.coreUp = true → s.island.state ≠ .off → s.island.word64 ≠ s.island.status →
    Gives .safeStatusUpdate s [.hcp, .island] fun t =>
      t.island = { s.island with
        statusTick := s.tick, status := s.island.word64
        log := s.island.log.drop (if 64 ≤ s.island.log.length then 1 else 0) ++ [(s.now, s.island.word64)]
        overwritten := s.island.overwritten + (if 64 ≤ s.island.log.length then 1 else 0) }) ∧
  (∀ (s : State), s.Inv → s.coreUp = false ∨ s.island.state = .off → Gives .safeStatusUpdate s [] fun _ => True) ∧
  (∀ (s : State), s.Inv → s.coreUp = true → s.island.state ≠ .off → s.island.word64 = s.island.status →
    Gives .safeStatusUpdate s [.island] fun t => t.island = { s.island with statusTick := s.tick }) ∧
  (∀ (s : State), s.Inv → s.coreUp = true → s.island.status.getLsbD 3 = true → s.island.statusTick + 1000 ≤ s.tick →
    Gives .safeLiveTimeout s [.island] fun t =>
      t.island = { s.island with
        status := s.island.status &&& ~~~8
        log := s.island.log.drop (if 64 ≤ s.island.log.length then 1 else 0) ++ [(s.now, s.island.status &&& ~~~8)]
        overwritten := s.island.overwritten + (if 64 ≤ s.island.log.length then 1 else 0) }) ∧
  (∀ (s : State), s.Inv → s.tick < s.island.statusTick + 1000 → Gives .safeLiveTimeout s [] fun _ => True) ∧
  (∀ (s : State) (r : Req), Accepted opSafeStatusRead r s →
    Reports (.safeStatusRead r) 0x0C01 r s (le 8 s.island.status.toNat ++ le 4 s.island.presses.toNat
      ++ le 4 s.island.overwritten.toNat)) ∧
  (∀ (s : State) (r : Req), Accepted opSafeConfigRead r s →
    Reports (.safeConfigRead r) 0x0C02 r s (le 2 s.island.swT.toNat ++ le 2 s.island.swC.toNat ++ le 2 s.island.word.toNat
      ++ le 1 (mask [s.island.wordValid, s.island.swT != s.island.word || s.island.swC != ~~~s.island.word]) ++ zeros 1)) ∧
  (∀ (s : State) (r : Req), Accepted opSafeLogRead r s →
    Gives (.safeLogRead r) s [.hcp, .island] fun t =>
      let got := s.island.log.take (r.u8 0)
      t.island = { s.island with log := s.island.log.drop (r.u8 0) } ∧
      Answered 0x0C03 r 0 0 (le 2 got.length ++ zeros 2 ++ got.flatMap fun e => ts96 e.1 ++ zeros 4 ++ le 8 e.2.toNat) t) ∧
  (∀ (s : State) (k : Fin 64) (r : Req), s.Inv → s.serves = true → s.canTake r.mb.val = true → s.chip.phase = .serving →
      r.flags = 0 → isZero r.time 0 10 = true →
    Gives (.safeWriteOpcode k r) s [.hcp]
      (Answered (0x0C40 + k.val) r (if (s.mb r.mb.val).version2 = true then 0x0102 else 0x0304)
        (if (s.mb r.mb.val).version2 = true then 0x0401 else 0) []))

/-- No command of the island, and neither a chip reset nor the loss of the core's rails, leaves an output of it
energised outside RUN (parts of R402, R405; Table SAFE-6). -/
def Obligations.OutputsAreOffOutsideRun : Prop :=
  ∀ (s t : State) (i : Instr), (s.island.state ≠ .run → s.island.sout = 0) →
    ((∃ a b, i = .safeIslandPowerUp a b) ∨ (∃ a, i = .safeIslandBootDone a) ∨ i = .safeIslandBootTimeout ∨ i = .vddSafeLoss ∨
      (∃ a b, i = .islandTick a b) ∨ (∃ a b c d, i = .testPulse a b c d) ∨ (∃ a b, i = .inputRecognised a b) ∨
      (∃ a, i = .discrepancyTimeout a) ∨ i = .twoHandTimeout ∨ i = .resetPressRelease ∨ i = .resetStuck ∨
      (∃ a b, i = .configChange a b) ∨ (∃ a, i = .readbackTimeout a) ∨ (∃ a b, i = .outputTestPulse a b) ∨
      i = .safeDiagFail ∨ i = .safeStatusUpdate ∨ i = .safeLiveTimeout ∨ (∃ a, i = .resetNAssert a) ∨
      (∃ a, i = .vddCoreLoss a)) →
    exec i s = .next t → t.island.state ≠ .run → t.island.sout = 0

/-! ## The hub as a block -/

/-- With a command at the front of the queue, a step runs it on the hub with the queue's rest. The opcode table gives no
row a word: no word spells a command, and placing one changes nothing. -/
def Obligations.AStepRunsTheFrontCommand : Prop :=
  (∀ (s : State) (c : Instr) (rest : List Instr), s.pending = c :: rest → step s = exec c { s with pending := rest }) ∧
  (∀ (s : State) (nbits w : Nat), decodeTableWord nbits w = none ∧ s.withFetchWord nbits w = s)

/-- What reset leaves (Tables ARCH-6, BOOT-2, TIME-4, FLT-2 and SAFE-6): the invariant holds; the chip is in RESET with
CHIP_STATE.STATE 1, Hub Time counts from 0 with quality UNSET, no mailbox is open, the calendar is empty, every
object is at its first state, every fault register is clear with its default reactions, the island's outputs are
off, nothing waits. -/
def Obligations.ResetLeavesTheStatedValues : Prop :=
  let s := State.reset
  s.Inv ∧ s.chip.phase = .reset ∧ s.chipCode = 1 ∧ s.now = 0 ∧ s.time.quality = .unset ∧ s.time.rateEff = 2 ^ 40 ∧
  (∀ m, (s.mb m).session = .closed) ∧ s.cal.entries = [] ∧ (∀ l, (s.lane l).protocol = 0) ∧
  (∀ c, (s.chan c).state = .unbound) ∧ (∀ p, (s.pipe p).state = .free) ∧ (∀ p, (s.prof p).state = .empty) ∧
  (∀ w, (s.win w).state = .unconfigured) ∧ (∀ n, (s.stream n).state = .unconfigured) ∧
  (∀ p, (s.port p).state = .unconfigured) ∧ (∀ b, (s.blk b).sticky = 0) ∧
  (∀ b n, s.reaction b n = defaultReaction b n) ∧ s.island.state = .off ∧ s.island.sout = 0 ∧ s.pending = []

/-- Every step keeps the invariant, whatever the state and the command: Hub Time stays in the range of R70 (48-bit
seconds, nanoseconds below 1,000,000,000, a 40-bit fraction), through ticks and offset steps alike, and no fault
event is left without its reaction. -/
def Obligations.EveryStepKeepsTheInvariant : Prop :=
  ∀ (s t : State), s.Inv → step s = .next t → t.Inv

/-- Only the calendar and the always-on rail move Hub Time between two ticks (parts of R70, R72): every other command
leaves its seconds, nanoseconds and fraction, and the tick count, as they were; and every command leaves the queue
of commands, which is the model's own. With no command waiting a step is a TIME tick while VDD_AON is there, else a
count for the island's own oscillator: that is the model's choice (log entry 1); hits of the DSP cycle that wait are decided in it
(log entry 113). -/
def Obligations.CommandsKeepTheQueueAndTheClock : Prop :=
  (∀ (i : Instr) (s t : State), exec i s = .next t →
    t.pending = s.pending ∧
    (i ≠ .calendarFire → i ≠ .vddAonUp → i ≠ .vddAonLoss →
      t.time.sec = s.time.sec ∧ t.time.ns = s.time.ns ∧ t.time.frac40 = s.time.frac40 ∧ t.tick = s.tick)) ∧
  (∀ (s : State), s.pending = [] → s.hitsWait = false → s.chip.rails.aon = true →
    step s = .next { s with time := s.time.tick, tick := s.tick + 1, emitted := [] }) ∧
  (∀ (s : State), s.pending = [] → s.hitsWait = false → s.chip.rails.aon = false →
    step s = .next { s with tick := s.tick + 1, emitted := [] }) ∧
  (∀ (s : State), s.pending = [] → ∃ t, step s = .next t ∧ t.tick = s.tick + 1 ∧ t.pending = [])

/-- R382: FAULT_DETECT of a source that Table FLT-4 does not give its block, and that is not one of the two every block
has, stops with a fault of its own name; no other command ever stops. -/
def Obligations.OnlyAnAbsentFaultSourceStops : Prop :=
  (∀ (b : Fin 17) (n : Fin 64) (u : Nat) (m : MemRead) (s : State), sourceExists b n = false →
    exec (.faultDetect b n u m) s = .fault .noSuchSource) ∧
  (∀ (i : Instr) (s : State), (∀ b n u m, i = .faultDetect b n u m → sourceExists b.val n.val = true) →
    ∃ t, exec i s = .next t)

/-- R27: the hub leaves SAFE only through a chip reset that the system reset command asks for (its row, a taken request,
or the writing of a response that a reset waits for), through RESET_N held for 100 ns, or through loss of power: of
VDD_AON, of VDD_CORE or VDD_SRAM, of a lane or I/O rail, or a fall of a rail out of order. No fault reaction,
calendar event or other command leaves SAFE. VDD_AON is there: without it the core region is in OFF. -/
def Obligations.SafeIsLeftByResetOrPowerAlone : Prop :=
  ∀ (s t : State) (i : Instr), s.chip.phase = .safe → s.chip.rails.aon = true → exec i s = .next t → t.chip.phase ≠ .safe →
    (t.chip.phase = .reset ∧ ((∃ r, i = .sysReset r) ∨ (∃ f, i = .requestTake f) ∨
      (∃ m, i = .responseWrite m ∧ s.chip.sysResetOwed = true) ∨ (∃ n, i = .resetNAssert n ∧ 100 ≤ n) ∨
      (∃ a, i = .laneIoRailLoss a) ∨ (∃ a, i = .railOrderBreach a))) ∨
    (t.chip.phase = .off ∧ (i = .vddAonLoss ∨ ∃ a, i = .vddCoreLoss a))
end

