-- ==== Sys2Proof/Laws/State.lean ====
section
/-! SUPPORT. What every named update of State leaves in each field. -/

namespace Sys2Proof.Machine

@[simp] theorem State.setMb_chip (s : State) (m : Nat) (x : Mailbox) : (s.setMb m x).chip = s.chip := rfl
@[simp] theorem State.setMb_boot (s : State) (m : Nat) (x : Mailbox) : (s.setMb m x).boot = s.boot := rfl
@[simp] theorem State.setMb_hcp (s : State) (m : Nat) (x : Mailbox) : (s.setMb m x).hcp = { s.hcp with mbs := tset {} s.hcp.mbs m x } := rfl
@[simp] theorem State.setMb_time (s : State) (m : Nat) (x : Mailbox) : (s.setMb m x).time = s.time := rfl
@[simp] theorem State.setMb_cal (s : State) (m : Nat) (x : Mailbox) : (s.setMb m x).cal = s.cal := rfl
@[simp] theorem State.setMb_xfer (s : State) (m : Nat) (x : Mailbox) : (s.setMb m x).xfer = s.xfer := rfl
@[simp] theorem State.setMb_lanes (s : State) (m : Nat) (x : Mailbox) : (s.setMb m x).lanes = s.lanes := rfl
@[simp] theorem State.setMb_bgls (s : State) (m : Nat) (x : Mailbox) : (s.setMb m x).bgls = s.bgls := rfl
@[simp] theorem State.setMb_dclks (s : State) (m : Nat) (x : Mailbox) : (s.setMb m x).dclks = s.dclks := rfl
@[simp] theorem State.setMb_srefs (s : State) (m : Nat) (x : Mailbox) : (s.setMb m x).srefs = s.srefs := rfl
@[simp] theorem State.setMb_jesds (s : State) (m : Nat) (x : Mailbox) : (s.setMb m x).jesds = s.jesds := rfl
@[simp] theorem State.setMb_bglIns (s : State) (m : Nat) (x : Mailbox) : (s.setMb m x).bglIns = s.bglIns := rfl
@[simp] theorem State.setMb_scps (s : State) (m : Nat) (x : Mailbox) : (s.setMb m x).scps = s.scps := rfl
@[simp] theorem State.setMb_channels (s : State) (m : Nat) (x : Mailbox) : (s.setMb m x).channels = s.channels := rfl
@[simp] theorem State.setMb_pipes (s : State) (m : Nat) (x : Mailbox) : (s.setMb m x).pipes = s.pipes := rfl
@[simp] theorem State.setMb_profiles (s : State) (m : Nat) (x : Mailbox) : (s.setMb m x).profiles = s.profiles := rfl
@[simp] theorem State.setMb_ledger (s : State) (m : Nat) (x : Mailbox) : (s.setMb m x).ledger = s.ledger := rfl
@[simp] theorem State.setMb_cap (s : State) (m : Nat) (x : Mailbox) : (s.setMb m x).cap = s.cap := rfl
@[simp] theorem State.setMb_comp (s : State) (m : Nat) (x : Mailbox) : (s.setMb m x).comp = s.comp := rfl
@[simp] theorem State.setMb_strm (s : State) (m : Nat) (x : Mailbox) : (s.setMb m x).strm = s.strm := rfl
@[simp] theorem State.setMb_upl (s : State) (m : Nat) (x : Mailbox) : (s.setMb m x).upl = s.upl := rfl
@[simp] theorem State.setMb_flt (s : State) (m : Nat) (x : Mailbox) : (s.setMb m x).flt = s.flt := rfl
@[simp] theorem State.setMb_island (s : State) (m : Nat) (x : Mailbox) : (s.setMb m x).island = s.island := rfl
@[simp] theorem State.setMb_tick (s : State) (m : Nat) (x : Mailbox) : (s.setMb m x).tick = s.tick := rfl
@[simp] theorem State.setMb_freeCount (s : State) (m : Nat) (x : Mailbox) : (s.setMb m x).freeCount = s.freeCount := rfl
@[simp] theorem State.setMb_emitted (s : State) (m : Nat) (x : Mailbox) : (s.setMb m x).emitted = s.emitted := rfl
@[simp] theorem State.setMb_pending (s : State) (m : Nat) (x : Mailbox) : (s.setMb m x).pending = s.pending := rfl

@[simp] theorem State.setLane_chip (s : State) (l : Nat) (x : Lane) : (s.setLane l x).chip = s.chip := rfl
@[simp] theorem State.setLane_boot (s : State) (l : Nat) (x : Lane) : (s.setLane l x).boot = s.boot := rfl
@[simp] theorem State.setLane_hcp (s : State) (l : Nat) (x : Lane) : (s.setLane l x).hcp = s.hcp := rfl
@[simp] theorem State.setLane_time (s : State) (l : Nat) (x : Lane) : (s.setLane l x).time = s.time := rfl
@[simp] theorem State.setLane_cal (s : State) (l : Nat) (x : Lane) : (s.setLane l x).cal = s.cal := rfl
@[simp] theorem State.setLane_xfer (s : State) (l : Nat) (x : Lane) : (s.setLane l x).xfer = s.xfer := rfl
@[simp] theorem State.setLane_lanes (s : State) (l : Nat) (x : Lane) : (s.setLane l x).lanes = tset {} s.lanes l x := rfl
@[simp] theorem State.setLane_bgls (s : State) (l : Nat) (x : Lane) : (s.setLane l x).bgls = s.bgls := rfl
@[simp] theorem State.setLane_dclks (s : State) (l : Nat) (x : Lane) : (s.setLane l x).dclks = s.dclks := rfl
@[simp] theorem State.setLane_srefs (s : State) (l : Nat) (x : Lane) : (s.setLane l x).srefs = s.srefs := rfl
@[simp] theorem State.setLane_jesds (s : State) (l : Nat) (x : Lane) : (s.setLane l x).jesds = s.jesds := rfl
@[simp] theorem State.setLane_bglIns (s : State) (l : Nat) (x : Lane) : (s.setLane l x).bglIns = s.bglIns := rfl
@[simp] theorem State.setLane_scps (s : State) (l : Nat) (x : Lane) : (s.setLane l x).scps = s.scps := rfl
@[simp] theorem State.setLane_channels (s : State) (l : Nat) (x : Lane) : (s.setLane l x).channels = s.channels := rfl
@[simp] theorem State.setLane_pipes (s : State) (l : Nat) (x : Lane) : (s.setLane l x).pipes = s.pipes := rfl
@[simp] theorem State.setLane_profiles (s : State) (l : Nat) (x : Lane) : (s.setLane l x).profiles = s.profiles := rfl
@[simp] theorem State.setLane_ledger (s : State) (l : Nat) (x : Lane) : (s.setLane l x).ledger = s.ledger := rfl
@[simp] theorem State.setLane_cap (s : State) (l : Nat) (x : Lane) : (s.setLane l x).cap = s.cap := rfl
@[simp] theorem State.setLane_comp (s : State) (l : Nat) (x : Lane) : (s.setLane l x).comp = s.comp := rfl
@[simp] theorem State.setLane_strm (s : State) (l : Nat) (x : Lane) : (s.setLane l x).strm = s.strm := rfl
@[simp] theorem State.setLane_upl (s : State) (l : Nat) (x : Lane) : (s.setLane l x).upl = s.upl := rfl
@[simp] theorem State.setLane_flt (s : State) (l : Nat) (x : Lane) : (s.setLane l x).flt = s.flt := rfl
@[simp] theorem State.setLane_island (s : State) (l : Nat) (x : Lane) : (s.setLane l x).island = s.island := rfl
@[simp] theorem State.setLane_tick (s : State) (l : Nat) (x : Lane) : (s.setLane l x).tick = s.tick := rfl
@[simp] theorem State.setLane_freeCount (s : State) (l : Nat) (x : Lane) : (s.setLane l x).freeCount = s.freeCount := rfl
@[simp] theorem State.setLane_emitted (s : State) (l : Nat) (x : Lane) : (s.setLane l x).emitted = s.emitted := rfl
@[simp] theorem State.setLane_pending (s : State) (l : Nat) (x : Lane) : (s.setLane l x).pending = s.pending := rfl

@[simp] theorem State.setBgl_chip (s : State) (l : Nat) (x : Bgl) : (s.setBgl l x).chip = s.chip := rfl
@[simp] theorem State.setBgl_boot (s : State) (l : Nat) (x : Bgl) : (s.setBgl l x).boot = s.boot := rfl
@[simp] theorem State.setBgl_hcp (s : State) (l : Nat) (x : Bgl) : (s.setBgl l x).hcp = s.hcp := rfl
@[simp] theorem State.setBgl_time (s : State) (l : Nat) (x : Bgl) : (s.setBgl l x).time = s.time := rfl
@[simp] theorem State.setBgl_cal (s : State) (l : Nat) (x : Bgl) : (s.setBgl l x).cal = s.cal := rfl
@[simp] theorem State.setBgl_xfer (s : State) (l : Nat) (x : Bgl) : (s.setBgl l x).xfer = s.xfer := rfl
@[simp] theorem State.setBgl_lanes (s : State) (l : Nat) (x : Bgl) : (s.setBgl l x).lanes = s.lanes := rfl
@[simp] theorem State.setBgl_bgls (s : State) (l : Nat) (x : Bgl) : (s.setBgl l x).bgls = tset {} s.bgls l x := rfl
@[simp] theorem State.setBgl_dclks (s : State) (l : Nat) (x : Bgl) : (s.setBgl l x).dclks = s.dclks := rfl
@[simp] theorem State.setBgl_srefs (s : State) (l : Nat) (x : Bgl) : (s.setBgl l x).srefs = s.srefs := rfl
@[simp] theorem State.setBgl_jesds (s : State) (l : Nat) (x : Bgl) : (s.setBgl l x).jesds = s.jesds := rfl
@[simp] theorem State.setBgl_bglIns (s : State) (l : Nat) (x : Bgl) : (s.setBgl l x).bglIns = s.bglIns := rfl
@[simp] theorem State.setBgl_scps (s : State) (l : Nat) (x : Bgl) : (s.setBgl l x).scps = s.scps := rfl
@[simp] theorem State.setBgl_channels (s : State) (l : Nat) (x : Bgl) : (s.setBgl l x).channels = s.channels := rfl
@[simp] theorem State.setBgl_pipes (s : State) (l : Nat) (x : Bgl) : (s.setBgl l x).pipes = s.pipes := rfl
@[simp] theorem State.setBgl_profiles (s : State) (l : Nat) (x : Bgl) : (s.setBgl l x).profiles = s.profiles := rfl
@[simp] theorem State.setBgl_ledger (s : State) (l : Nat) (x : Bgl) : (s.setBgl l x).ledger = s.ledger := rfl
@[simp] theorem State.setBgl_cap (s : State) (l : Nat) (x : Bgl) : (s.setBgl l x).cap = s.cap := rfl
@[simp] theorem State.setBgl_comp (s : State) (l : Nat) (x : Bgl) : (s.setBgl l x).comp = s.comp := rfl
@[simp] theorem State.setBgl_strm (s : State) (l : Nat) (x : Bgl) : (s.setBgl l x).strm = s.strm := rfl
@[simp] theorem State.setBgl_upl (s : State) (l : Nat) (x : Bgl) : (s.setBgl l x).upl = s.upl := rfl
@[simp] theorem State.setBgl_flt (s : State) (l : Nat) (x : Bgl) : (s.setBgl l x).flt = s.flt := rfl
@[simp] theorem State.setBgl_island (s : State) (l : Nat) (x : Bgl) : (s.setBgl l x).island = s.island := rfl
@[simp] theorem State.setBgl_tick (s : State) (l : Nat) (x : Bgl) : (s.setBgl l x).tick = s.tick := rfl
@[simp] theorem State.setBgl_freeCount (s : State) (l : Nat) (x : Bgl) : (s.setBgl l x).freeCount = s.freeCount := rfl
@[simp] theorem State.setBgl_emitted (s : State) (l : Nat) (x : Bgl) : (s.setBgl l x).emitted = s.emitted := rfl
@[simp] theorem State.setBgl_pending (s : State) (l : Nat) (x : Bgl) : (s.setBgl l x).pending = s.pending := rfl

@[simp] theorem State.setDclk_chip (s : State) (n : Nat) (x : Dclk) : (s.setDclk n x).chip = s.chip := rfl
@[simp] theorem State.setDclk_boot (s : State) (n : Nat) (x : Dclk) : (s.setDclk n x).boot = s.boot := rfl
@[simp] theorem State.setDclk_hcp (s : State) (n : Nat) (x : Dclk) : (s.setDclk n x).hcp = s.hcp := rfl
@[simp] theorem State.setDclk_time (s : State) (n : Nat) (x : Dclk) : (s.setDclk n x).time = s.time := rfl
@[simp] theorem State.setDclk_cal (s : State) (n : Nat) (x : Dclk) : (s.setDclk n x).cal = s.cal := rfl
@[simp] theorem State.setDclk_xfer (s : State) (n : Nat) (x : Dclk) : (s.setDclk n x).xfer = s.xfer := rfl
@[simp] theorem State.setDclk_lanes (s : State) (n : Nat) (x : Dclk) : (s.setDclk n x).lanes = s.lanes := rfl
@[simp] theorem State.setDclk_bgls (s : State) (n : Nat) (x : Dclk) : (s.setDclk n x).bgls = s.bgls := rfl
@[simp] theorem State.setDclk_dclks (s : State) (n : Nat) (x : Dclk) : (s.setDclk n x).dclks = tset {} s.dclks n x := rfl
@[simp] theorem State.setDclk_srefs (s : State) (n : Nat) (x : Dclk) : (s.setDclk n x).srefs = s.srefs := rfl
@[simp] theorem State.setDclk_jesds (s : State) (n : Nat) (x : Dclk) : (s.setDclk n x).jesds = s.jesds := rfl
@[simp] theorem State.setDclk_bglIns (s : State) (n : Nat) (x : Dclk) : (s.setDclk n x).bglIns = s.bglIns := rfl
@[simp] theorem State.setDclk_scps (s : State) (n : Nat) (x : Dclk) : (s.setDclk n x).scps = s.scps := rfl
@[simp] theorem State.setDclk_channels (s : State) (n : Nat) (x : Dclk) : (s.setDclk n x).channels = s.channels := rfl
@[simp] theorem State.setDclk_pipes (s : State) (n : Nat) (x : Dclk) : (s.setDclk n x).pipes = s.pipes := rfl
@[simp] theorem State.setDclk_profiles (s : State) (n : Nat) (x : Dclk) : (s.setDclk n x).profiles = s.profiles := rfl
@[simp] theorem State.setDclk_ledger (s : State) (n : Nat) (x : Dclk) : (s.setDclk n x).ledger = s.ledger := rfl
@[simp] theorem State.setDclk_cap (s : State) (n : Nat) (x : Dclk) : (s.setDclk n x).cap = s.cap := rfl
@[simp] theorem State.setDclk_comp (s : State) (n : Nat) (x : Dclk) : (s.setDclk n x).comp = s.comp := rfl
@[simp] theorem State.setDclk_strm (s : State) (n : Nat) (x : Dclk) : (s.setDclk n x).strm = s.strm := rfl
@[simp] theorem State.setDclk_upl (s : State) (n : Nat) (x : Dclk) : (s.setDclk n x).upl = s.upl := rfl
@[simp] theorem State.setDclk_flt (s : State) (n : Nat) (x : Dclk) : (s.setDclk n x).flt = s.flt := rfl
@[simp] theorem State.setDclk_island (s : State) (n : Nat) (x : Dclk) : (s.setDclk n x).island = s.island := rfl
@[simp] theorem State.setDclk_tick (s : State) (n : Nat) (x : Dclk) : (s.setDclk n x).tick = s.tick := rfl
@[simp] theorem State.setDclk_freeCount (s : State) (n : Nat) (x : Dclk) : (s.setDclk n x).freeCount = s.freeCount := rfl
@[simp] theorem State.setDclk_emitted (s : State) (n : Nat) (x : Dclk) : (s.setDclk n x).emitted = s.emitted := rfl
@[simp] theorem State.setDclk_pending (s : State) (n : Nat) (x : Dclk) : (s.setDclk n x).pending = s.pending := rfl

@[simp] theorem State.setSref_chip (s : State) (n : Nat) (x : Sref) : (s.setSref n x).chip = s.chip := rfl
@[simp] theorem State.setSref_boot (s : State) (n : Nat) (x : Sref) : (s.setSref n x).boot = s.boot := rfl
@[simp] theorem State.setSref_hcp (s : State) (n : Nat) (x : Sref) : (s.setSref n x).hcp = s.hcp := rfl
@[simp] theorem State.setSref_time (s : State) (n : Nat) (x : Sref) : (s.setSref n x).time = s.time := rfl
@[simp] theorem State.setSref_cal (s : State) (n : Nat) (x : Sref) : (s.setSref n x).cal = s.cal := rfl
@[simp] theorem State.setSref_xfer (s : State) (n : Nat) (x : Sref) : (s.setSref n x).xfer = s.xfer := rfl
@[simp] theorem State.setSref_lanes (s : State) (n : Nat) (x : Sref) : (s.setSref n x).lanes = s.lanes := rfl
@[simp] theorem State.setSref_bgls (s : State) (n : Nat) (x : Sref) : (s.setSref n x).bgls = s.bgls := rfl
@[simp] theorem State.setSref_dclks (s : State) (n : Nat) (x : Sref) : (s.setSref n x).dclks = s.dclks := rfl
@[simp] theorem State.setSref_srefs (s : State) (n : Nat) (x : Sref) : (s.setSref n x).srefs = tset {} s.srefs n x := rfl
@[simp] theorem State.setSref_jesds (s : State) (n : Nat) (x : Sref) : (s.setSref n x).jesds = s.jesds := rfl
@[simp] theorem State.setSref_bglIns (s : State) (n : Nat) (x : Sref) : (s.setSref n x).bglIns = s.bglIns := rfl
@[simp] theorem State.setSref_scps (s : State) (n : Nat) (x : Sref) : (s.setSref n x).scps = s.scps := rfl
@[simp] theorem State.setSref_channels (s : State) (n : Nat) (x : Sref) : (s.setSref n x).channels = s.channels := rfl
@[simp] theorem State.setSref_pipes (s : State) (n : Nat) (x : Sref) : (s.setSref n x).pipes = s.pipes := rfl
@[simp] theorem State.setSref_profiles (s : State) (n : Nat) (x : Sref) : (s.setSref n x).profiles = s.profiles := rfl
@[simp] theorem State.setSref_ledger (s : State) (n : Nat) (x : Sref) : (s.setSref n x).ledger = s.ledger := rfl
@[simp] theorem State.setSref_cap (s : State) (n : Nat) (x : Sref) : (s.setSref n x).cap = s.cap := rfl
@[simp] theorem State.setSref_comp (s : State) (n : Nat) (x : Sref) : (s.setSref n x).comp = s.comp := rfl
@[simp] theorem State.setSref_strm (s : State) (n : Nat) (x : Sref) : (s.setSref n x).strm = s.strm := rfl
@[simp] theorem State.setSref_upl (s : State) (n : Nat) (x : Sref) : (s.setSref n x).upl = s.upl := rfl
@[simp] theorem State.setSref_flt (s : State) (n : Nat) (x : Sref) : (s.setSref n x).flt = s.flt := rfl
@[simp] theorem State.setSref_island (s : State) (n : Nat) (x : Sref) : (s.setSref n x).island = s.island := rfl
@[simp] theorem State.setSref_tick (s : State) (n : Nat) (x : Sref) : (s.setSref n x).tick = s.tick := rfl
@[simp] theorem State.setSref_freeCount (s : State) (n : Nat) (x : Sref) : (s.setSref n x).freeCount = s.freeCount := rfl
@[simp] theorem State.setSref_emitted (s : State) (n : Nat) (x : Sref) : (s.setSref n x).emitted = s.emitted := rfl
@[simp] theorem State.setSref_pending (s : State) (n : Nat) (x : Sref) : (s.setSref n x).pending = s.pending := rfl

@[simp] theorem State.setJesd_chip (s : State) (l : Nat) (x : Jesd) : (s.setJesd l x).chip = s.chip := rfl
@[simp] theorem State.setJesd_boot (s : State) (l : Nat) (x : Jesd) : (s.setJesd l x).boot = s.boot := rfl
@[simp] theorem State.setJesd_hcp (s : State) (l : Nat) (x : Jesd) : (s.setJesd l x).hcp = s.hcp := rfl
@[simp] theorem State.setJesd_time (s : State) (l : Nat) (x : Jesd) : (s.setJesd l x).time = s.time := rfl
@[simp] theorem State.setJesd_cal (s : State) (l : Nat) (x : Jesd) : (s.setJesd l x).cal = s.cal := rfl
@[simp] theorem State.setJesd_xfer (s : State) (l : Nat) (x : Jesd) : (s.setJesd l x).xfer = s.xfer := rfl
@[simp] theorem State.setJesd_lanes (s : State) (l : Nat) (x : Jesd) : (s.setJesd l x).lanes = s.lanes := rfl
@[simp] theorem State.setJesd_bgls (s : State) (l : Nat) (x : Jesd) : (s.setJesd l x).bgls = s.bgls := rfl
@[simp] theorem State.setJesd_dclks (s : State) (l : Nat) (x : Jesd) : (s.setJesd l x).dclks = s.dclks := rfl
@[simp] theorem State.setJesd_srefs (s : State) (l : Nat) (x : Jesd) : (s.setJesd l x).srefs = s.srefs := rfl
@[simp] theorem State.setJesd_jesds (s : State) (l : Nat) (x : Jesd) : (s.setJesd l x).jesds = tset {} s.jesds l x := rfl
@[simp] theorem State.setJesd_bglIns (s : State) (l : Nat) (x : Jesd) : (s.setJesd l x).bglIns = s.bglIns := rfl
@[simp] theorem State.setJesd_scps (s : State) (l : Nat) (x : Jesd) : (s.setJesd l x).scps = s.scps := rfl
@[simp] theorem State.setJesd_channels (s : State) (l : Nat) (x : Jesd) : (s.setJesd l x).channels = s.channels := rfl
@[simp] theorem State.setJesd_pipes (s : State) (l : Nat) (x : Jesd) : (s.setJesd l x).pipes = s.pipes := rfl
@[simp] theorem State.setJesd_profiles (s : State) (l : Nat) (x : Jesd) : (s.setJesd l x).profiles = s.profiles := rfl
@[simp] theorem State.setJesd_ledger (s : State) (l : Nat) (x : Jesd) : (s.setJesd l x).ledger = s.ledger := rfl
@[simp] theorem State.setJesd_cap (s : State) (l : Nat) (x : Jesd) : (s.setJesd l x).cap = s.cap := rfl
@[simp] theorem State.setJesd_comp (s : State) (l : Nat) (x : Jesd) : (s.setJesd l x).comp = s.comp := rfl
@[simp] theorem State.setJesd_strm (s : State) (l : Nat) (x : Jesd) : (s.setJesd l x).strm = s.strm := rfl
@[simp] theorem State.setJesd_upl (s : State) (l : Nat) (x : Jesd) : (s.setJesd l x).upl = s.upl := rfl
@[simp] theorem State.setJesd_flt (s : State) (l : Nat) (x : Jesd) : (s.setJesd l x).flt = s.flt := rfl
@[simp] theorem State.setJesd_island (s : State) (l : Nat) (x : Jesd) : (s.setJesd l x).island = s.island := rfl
@[simp] theorem State.setJesd_tick (s : State) (l : Nat) (x : Jesd) : (s.setJesd l x).tick = s.tick := rfl
@[simp] theorem State.setJesd_freeCount (s : State) (l : Nat) (x : Jesd) : (s.setJesd l x).freeCount = s.freeCount := rfl
@[simp] theorem State.setJesd_emitted (s : State) (l : Nat) (x : Jesd) : (s.setJesd l x).emitted = s.emitted := rfl
@[simp] theorem State.setJesd_pending (s : State) (l : Nat) (x : Jesd) : (s.setJesd l x).pending = s.pending := rfl

@[simp] theorem State.setBglIn_chip (s : State) (l : Nat) (x : BglIn) : (s.setBglIn l x).chip = s.chip := rfl
@[simp] theorem State.setBglIn_boot (s : State) (l : Nat) (x : BglIn) : (s.setBglIn l x).boot = s.boot := rfl
@[simp] theorem State.setBglIn_hcp (s : State) (l : Nat) (x : BglIn) : (s.setBglIn l x).hcp = s.hcp := rfl
@[simp] theorem State.setBglIn_time (s : State) (l : Nat) (x : BglIn) : (s.setBglIn l x).time = s.time := rfl
@[simp] theorem State.setBglIn_cal (s : State) (l : Nat) (x : BglIn) : (s.setBglIn l x).cal = s.cal := rfl
@[simp] theorem State.setBglIn_xfer (s : State) (l : Nat) (x : BglIn) : (s.setBglIn l x).xfer = s.xfer := rfl
@[simp] theorem State.setBglIn_lanes (s : State) (l : Nat) (x : BglIn) : (s.setBglIn l x).lanes = s.lanes := rfl
@[simp] theorem State.setBglIn_bgls (s : State) (l : Nat) (x : BglIn) : (s.setBglIn l x).bgls = s.bgls := rfl
@[simp] theorem State.setBglIn_dclks (s : State) (l : Nat) (x : BglIn) : (s.setBglIn l x).dclks = s.dclks := rfl
@[simp] theorem State.setBglIn_srefs (s : State) (l : Nat) (x : BglIn) : (s.setBglIn l x).srefs = s.srefs := rfl
@[simp] theorem State.setBglIn_jesds (s : State) (l : Nat) (x : BglIn) : (s.setBglIn l x).jesds = s.jesds := rfl
@[simp] theorem State.setBglIn_bglIns (s : State) (l : Nat) (x : BglIn) : (s.setBglIn l x).bglIns = tset {} s.bglIns l x := rfl
@[simp] theorem State.setBglIn_scps (s : State) (l : Nat) (x : BglIn) : (s.setBglIn l x).scps = s.scps := rfl
@[simp] theorem State.setBglIn_channels (s : State) (l : Nat) (x : BglIn) : (s.setBglIn l x).channels = s.channels := rfl
@[simp] theorem State.setBglIn_pipes (s : State) (l : Nat) (x : BglIn) : (s.setBglIn l x).pipes = s.pipes := rfl
@[simp] theorem State.setBglIn_profiles (s : State) (l : Nat) (x : BglIn) : (s.setBglIn l x).profiles = s.profiles := rfl
@[simp] theorem State.setBglIn_ledger (s : State) (l : Nat) (x : BglIn) : (s.setBglIn l x).ledger = s.ledger := rfl
@[simp] theorem State.setBglIn_cap (s : State) (l : Nat) (x : BglIn) : (s.setBglIn l x).cap = s.cap := rfl
@[simp] theorem State.setBglIn_comp (s : State) (l : Nat) (x : BglIn) : (s.setBglIn l x).comp = s.comp := rfl
@[simp] theorem State.setBglIn_strm (s : State) (l : Nat) (x : BglIn) : (s.setBglIn l x).strm = s.strm := rfl
@[simp] theorem State.setBglIn_upl (s : State) (l : Nat) (x : BglIn) : (s.setBglIn l x).upl = s.upl := rfl
@[simp] theorem State.setBglIn_flt (s : State) (l : Nat) (x : BglIn) : (s.setBglIn l x).flt = s.flt := rfl
@[simp] theorem State.setBglIn_island (s : State) (l : Nat) (x : BglIn) : (s.setBglIn l x).island = s.island := rfl
@[simp] theorem State.setBglIn_tick (s : State) (l : Nat) (x : BglIn) : (s.setBglIn l x).tick = s.tick := rfl
@[simp] theorem State.setBglIn_freeCount (s : State) (l : Nat) (x : BglIn) : (s.setBglIn l x).freeCount = s.freeCount := rfl
@[simp] theorem State.setBglIn_emitted (s : State) (l : Nat) (x : BglIn) : (s.setBglIn l x).emitted = s.emitted := rfl
@[simp] theorem State.setBglIn_pending (s : State) (l : Nat) (x : BglIn) : (s.setBglIn l x).pending = s.pending := rfl

@[simp] theorem State.setScp_chip (s : State) (p : Nat) (x : Scp) : (s.setScp p x).chip = s.chip := rfl
@[simp] theorem State.setScp_boot (s : State) (p : Nat) (x : Scp) : (s.setScp p x).boot = s.boot := rfl
@[simp] theorem State.setScp_hcp (s : State) (p : Nat) (x : Scp) : (s.setScp p x).hcp = s.hcp := rfl
@[simp] theorem State.setScp_time (s : State) (p : Nat) (x : Scp) : (s.setScp p x).time = s.time := rfl
@[simp] theorem State.setScp_cal (s : State) (p : Nat) (x : Scp) : (s.setScp p x).cal = s.cal := rfl
@[simp] theorem State.setScp_xfer (s : State) (p : Nat) (x : Scp) : (s.setScp p x).xfer = s.xfer := rfl
@[simp] theorem State.setScp_lanes (s : State) (p : Nat) (x : Scp) : (s.setScp p x).lanes = s.lanes := rfl
@[simp] theorem State.setScp_bgls (s : State) (p : Nat) (x : Scp) : (s.setScp p x).bgls = s.bgls := rfl
@[simp] theorem State.setScp_dclks (s : State) (p : Nat) (x : Scp) : (s.setScp p x).dclks = s.dclks := rfl
@[simp] theorem State.setScp_srefs (s : State) (p : Nat) (x : Scp) : (s.setScp p x).srefs = s.srefs := rfl
@[simp] theorem State.setScp_jesds (s : State) (p : Nat) (x : Scp) : (s.setScp p x).jesds = s.jesds := rfl
@[simp] theorem State.setScp_bglIns (s : State) (p : Nat) (x : Scp) : (s.setScp p x).bglIns = s.bglIns := rfl
@[simp] theorem State.setScp_scps (s : State) (p : Nat) (x : Scp) : (s.setScp p x).scps = tset {} s.scps p x := rfl
@[simp] theorem State.setScp_channels (s : State) (p : Nat) (x : Scp) : (s.setScp p x).channels = s.channels := rfl
@[simp] theorem State.setScp_pipes (s : State) (p : Nat) (x : Scp) : (s.setScp p x).pipes = s.pipes := rfl
@[simp] theorem State.setScp_profiles (s : State) (p : Nat) (x : Scp) : (s.setScp p x).profiles = s.profiles := rfl
@[simp] theorem State.setScp_ledger (s : State) (p : Nat) (x : Scp) : (s.setScp p x).ledger = s.ledger := rfl
@[simp] theorem State.setScp_cap (s : State) (p : Nat) (x : Scp) : (s.setScp p x).cap = s.cap := rfl
@[simp] theorem State.setScp_comp (s : State) (p : Nat) (x : Scp) : (s.setScp p x).comp = s.comp := rfl
@[simp] theorem State.setScp_strm (s : State) (p : Nat) (x : Scp) : (s.setScp p x).strm = s.strm := rfl
@[simp] theorem State.setScp_upl (s : State) (p : Nat) (x : Scp) : (s.setScp p x).upl = s.upl := rfl
@[simp] theorem State.setScp_flt (s : State) (p : Nat) (x : Scp) : (s.setScp p x).flt = s.flt := rfl
@[simp] theorem State.setScp_island (s : State) (p : Nat) (x : Scp) : (s.setScp p x).island = s.island := rfl
@[simp] theorem State.setScp_tick (s : State) (p : Nat) (x : Scp) : (s.setScp p x).tick = s.tick := rfl
@[simp] theorem State.setScp_freeCount (s : State) (p : Nat) (x : Scp) : (s.setScp p x).freeCount = s.freeCount := rfl
@[simp] theorem State.setScp_emitted (s : State) (p : Nat) (x : Scp) : (s.setScp p x).emitted = s.emitted := rfl
@[simp] theorem State.setScp_pending (s : State) (p : Nat) (x : Scp) : (s.setScp p x).pending = s.pending := rfl

@[simp] theorem State.setChan_chip (s : State) (c : Nat) (x : Channel) : (s.setChan c x).chip = s.chip := rfl
@[simp] theorem State.setChan_boot (s : State) (c : Nat) (x : Channel) : (s.setChan c x).boot = s.boot := rfl
@[simp] theorem State.setChan_hcp (s : State) (c : Nat) (x : Channel) : (s.setChan c x).hcp = s.hcp := rfl
@[simp] theorem State.setChan_time (s : State) (c : Nat) (x : Channel) : (s.setChan c x).time = s.time := rfl
@[simp] theorem State.setChan_cal (s : State) (c : Nat) (x : Channel) : (s.setChan c x).cal = s.cal := rfl
@[simp] theorem State.setChan_xfer (s : State) (c : Nat) (x : Channel) : (s.setChan c x).xfer = s.xfer := rfl
@[simp] theorem State.setChan_lanes (s : State) (c : Nat) (x : Channel) : (s.setChan c x).lanes = s.lanes := rfl
@[simp] theorem State.setChan_bgls (s : State) (c : Nat) (x : Channel) : (s.setChan c x).bgls = s.bgls := rfl
@[simp] theorem State.setChan_dclks (s : State) (c : Nat) (x : Channel) : (s.setChan c x).dclks = s.dclks := rfl
@[simp] theorem State.setChan_srefs (s : State) (c : Nat) (x : Channel) : (s.setChan c x).srefs = s.srefs := rfl
@[simp] theorem State.setChan_jesds (s : State) (c : Nat) (x : Channel) : (s.setChan c x).jesds = s.jesds := rfl
@[simp] theorem State.setChan_bglIns (s : State) (c : Nat) (x : Channel) : (s.setChan c x).bglIns = s.bglIns := rfl
@[simp] theorem State.setChan_scps (s : State) (c : Nat) (x : Channel) : (s.setChan c x).scps = s.scps := rfl
@[simp] theorem State.setChan_channels (s : State) (c : Nat) (x : Channel) : (s.setChan c x).channels = tset {} s.channels c x := rfl
@[simp] theorem State.setChan_pipes (s : State) (c : Nat) (x : Channel) : (s.setChan c x).pipes = s.pipes := rfl
@[simp] theorem State.setChan_profiles (s : State) (c : Nat) (x : Channel) : (s.setChan c x).profiles = s.profiles := rfl
@[simp] theorem State.setChan_ledger (s : State) (c : Nat) (x : Channel) : (s.setChan c x).ledger = s.ledger := rfl
@[simp] theorem State.setChan_cap (s : State) (c : Nat) (x : Channel) : (s.setChan c x).cap = s.cap := rfl
@[simp] theorem State.setChan_comp (s : State) (c : Nat) (x : Channel) : (s.setChan c x).comp = s.comp := rfl
@[simp] theorem State.setChan_strm (s : State) (c : Nat) (x : Channel) : (s.setChan c x).strm = s.strm := rfl
@[simp] theorem State.setChan_upl (s : State) (c : Nat) (x : Channel) : (s.setChan c x).upl = s.upl := rfl
@[simp] theorem State.setChan_flt (s : State) (c : Nat) (x : Channel) : (s.setChan c x).flt = s.flt := rfl
@[simp] theorem State.setChan_island (s : State) (c : Nat) (x : Channel) : (s.setChan c x).island = s.island := rfl
@[simp] theorem State.setChan_tick (s : State) (c : Nat) (x : Channel) : (s.setChan c x).tick = s.tick := rfl
@[simp] theorem State.setChan_freeCount (s : State) (c : Nat) (x : Channel) : (s.setChan c x).freeCount = s.freeCount := rfl
@[simp] theorem State.setChan_emitted (s : State) (c : Nat) (x : Channel) : (s.setChan c x).emitted = s.emitted := rfl
@[simp] theorem State.setChan_pending (s : State) (c : Nat) (x : Channel) : (s.setChan c x).pending = s.pending := rfl

@[simp] theorem State.setPipe_chip (s : State) (p : Nat) (x : Pipe) : (s.setPipe p x).chip = s.chip := rfl
@[simp] theorem State.setPipe_boot (s : State) (p : Nat) (x : Pipe) : (s.setPipe p x).boot = s.boot := rfl
@[simp] theorem State.setPipe_hcp (s : State) (p : Nat) (x : Pipe) : (s.setPipe p x).hcp = s.hcp := rfl
@[simp] theorem State.setPipe_time (s : State) (p : Nat) (x : Pipe) : (s.setPipe p x).time = s.time := rfl
@[simp] theorem State.setPipe_cal (s : State) (p : Nat) (x : Pipe) : (s.setPipe p x).cal = s.cal := rfl
@[simp] theorem State.setPipe_xfer (s : State) (p : Nat) (x : Pipe) : (s.setPipe p x).xfer = s.xfer := rfl
@[simp] theorem State.setPipe_lanes (s : State) (p : Nat) (x : Pipe) : (s.setPipe p x).lanes = s.lanes := rfl
@[simp] theorem State.setPipe_bgls (s : State) (p : Nat) (x : Pipe) : (s.setPipe p x).bgls = s.bgls := rfl
@[simp] theorem State.setPipe_dclks (s : State) (p : Nat) (x : Pipe) : (s.setPipe p x).dclks = s.dclks := rfl
@[simp] theorem State.setPipe_srefs (s : State) (p : Nat) (x : Pipe) : (s.setPipe p x).srefs = s.srefs := rfl
@[simp] theorem State.setPipe_jesds (s : State) (p : Nat) (x : Pipe) : (s.setPipe p x).jesds = s.jesds := rfl
@[simp] theorem State.setPipe_bglIns (s : State) (p : Nat) (x : Pipe) : (s.setPipe p x).bglIns = s.bglIns := rfl
@[simp] theorem State.setPipe_scps (s : State) (p : Nat) (x : Pipe) : (s.setPipe p x).scps = s.scps := rfl
@[simp] theorem State.setPipe_channels (s : State) (p : Nat) (x : Pipe) : (s.setPipe p x).channels = s.channels := rfl
@[simp] theorem State.setPipe_pipes (s : State) (p : Nat) (x : Pipe) : (s.setPipe p x).pipes = tset {} s.pipes p x := rfl
@[simp] theorem State.setPipe_profiles (s : State) (p : Nat) (x : Pipe) : (s.setPipe p x).profiles = s.profiles := rfl
@[simp] theorem State.setPipe_ledger (s : State) (p : Nat) (x : Pipe) : (s.setPipe p x).ledger = s.ledger := rfl
@[simp] theorem State.setPipe_cap (s : State) (p : Nat) (x : Pipe) : (s.setPipe p x).cap = s.cap := rfl
@[simp] theorem State.setPipe_comp (s : State) (p : Nat) (x : Pipe) : (s.setPipe p x).comp = s.comp := rfl
@[simp] theorem State.setPipe_strm (s : State) (p : Nat) (x : Pipe) : (s.setPipe p x).strm = s.strm := rfl
@[simp] theorem State.setPipe_upl (s : State) (p : Nat) (x : Pipe) : (s.setPipe p x).upl = s.upl := rfl
@[simp] theorem State.setPipe_flt (s : State) (p : Nat) (x : Pipe) : (s.setPipe p x).flt = s.flt := rfl
@[simp] theorem State.setPipe_island (s : State) (p : Nat) (x : Pipe) : (s.setPipe p x).island = s.island := rfl
@[simp] theorem State.setPipe_tick (s : State) (p : Nat) (x : Pipe) : (s.setPipe p x).tick = s.tick := rfl
@[simp] theorem State.setPipe_freeCount (s : State) (p : Nat) (x : Pipe) : (s.setPipe p x).freeCount = s.freeCount := rfl
@[simp] theorem State.setPipe_emitted (s : State) (p : Nat) (x : Pipe) : (s.setPipe p x).emitted = s.emitted := rfl
@[simp] theorem State.setPipe_pending (s : State) (p : Nat) (x : Pipe) : (s.setPipe p x).pending = s.pending := rfl

@[simp] theorem State.setProf_chip (s : State) (p : Nat) (x : Profile) : (s.setProf p x).chip = s.chip := rfl
@[simp] theorem State.setProf_boot (s : State) (p : Nat) (x : Profile) : (s.setProf p x).boot = s.boot := rfl
@[simp] theorem State.setProf_hcp (s : State) (p : Nat) (x : Profile) : (s.setProf p x).hcp = s.hcp := rfl
@[simp] theorem State.setProf_time (s : State) (p : Nat) (x : Profile) : (s.setProf p x).time = s.time := rfl
@[simp] theorem State.setProf_cal (s : State) (p : Nat) (x : Profile) : (s.setProf p x).cal = s.cal := rfl
@[simp] theorem State.setProf_xfer (s : State) (p : Nat) (x : Profile) : (s.setProf p x).xfer = s.xfer := rfl
@[simp] theorem State.setProf_lanes (s : State) (p : Nat) (x : Profile) : (s.setProf p x).lanes = s.lanes := rfl
@[simp] theorem State.setProf_bgls (s : State) (p : Nat) (x : Profile) : (s.setProf p x).bgls = s.bgls := rfl
@[simp] theorem State.setProf_dclks (s : State) (p : Nat) (x : Profile) : (s.setProf p x).dclks = s.dclks := rfl
@[simp] theorem State.setProf_srefs (s : State) (p : Nat) (x : Profile) : (s.setProf p x).srefs = s.srefs := rfl
@[simp] theorem State.setProf_jesds (s : State) (p : Nat) (x : Profile) : (s.setProf p x).jesds = s.jesds := rfl
@[simp] theorem State.setProf_bglIns (s : State) (p : Nat) (x : Profile) : (s.setProf p x).bglIns = s.bglIns := rfl
@[simp] theorem State.setProf_scps (s : State) (p : Nat) (x : Profile) : (s.setProf p x).scps = s.scps := rfl
@[simp] theorem State.setProf_channels (s : State) (p : Nat) (x : Profile) : (s.setProf p x).channels = s.channels := rfl
@[simp] theorem State.setProf_pipes (s : State) (p : Nat) (x : Profile) : (s.setProf p x).pipes = s.pipes := rfl
@[simp] theorem State.setProf_profiles (s : State) (p : Nat) (x : Profile) : (s.setProf p x).profiles = tset {} s.profiles p x := rfl
@[simp] theorem State.setProf_ledger (s : State) (p : Nat) (x : Profile) : (s.setProf p x).ledger = s.ledger := rfl
@[simp] theorem State.setProf_cap (s : State) (p : Nat) (x : Profile) : (s.setProf p x).cap = s.cap := rfl
@[simp] theorem State.setProf_comp (s : State) (p : Nat) (x : Profile) : (s.setProf p x).comp = s.comp := rfl
@[simp] theorem State.setProf_strm (s : State) (p : Nat) (x : Profile) : (s.setProf p x).strm = s.strm := rfl
@[simp] theorem State.setProf_upl (s : State) (p : Nat) (x : Profile) : (s.setProf p x).upl = s.upl := rfl
@[simp] theorem State.setProf_flt (s : State) (p : Nat) (x : Profile) : (s.setProf p x).flt = s.flt := rfl
@[simp] theorem State.setProf_island (s : State) (p : Nat) (x : Profile) : (s.setProf p x).island = s.island := rfl
@[simp] theorem State.setProf_tick (s : State) (p : Nat) (x : Profile) : (s.setProf p x).tick = s.tick := rfl
@[simp] theorem State.setProf_freeCount (s : State) (p : Nat) (x : Profile) : (s.setProf p x).freeCount = s.freeCount := rfl
@[simp] theorem State.setProf_emitted (s : State) (p : Nat) (x : Profile) : (s.setProf p x).emitted = s.emitted := rfl
@[simp] theorem State.setProf_pending (s : State) (p : Nat) (x : Profile) : (s.setProf p x).pending = s.pending := rfl

@[simp] theorem State.setWin_chip (s : State) (w : Nat) (x : Window) : (s.setWin w x).chip = s.chip := rfl
@[simp] theorem State.setWin_boot (s : State) (w : Nat) (x : Window) : (s.setWin w x).boot = s.boot := rfl
@[simp] theorem State.setWin_hcp (s : State) (w : Nat) (x : Window) : (s.setWin w x).hcp = s.hcp := rfl
@[simp] theorem State.setWin_time (s : State) (w : Nat) (x : Window) : (s.setWin w x).time = s.time := rfl
@[simp] theorem State.setWin_cal (s : State) (w : Nat) (x : Window) : (s.setWin w x).cal = s.cal := rfl
@[simp] theorem State.setWin_xfer (s : State) (w : Nat) (x : Window) : (s.setWin w x).xfer = s.xfer := rfl
@[simp] theorem State.setWin_lanes (s : State) (w : Nat) (x : Window) : (s.setWin w x).lanes = s.lanes := rfl
@[simp] theorem State.setWin_bgls (s : State) (w : Nat) (x : Window) : (s.setWin w x).bgls = s.bgls := rfl
@[simp] theorem State.setWin_dclks (s : State) (w : Nat) (x : Window) : (s.setWin w x).dclks = s.dclks := rfl
@[simp] theorem State.setWin_srefs (s : State) (w : Nat) (x : Window) : (s.setWin w x).srefs = s.srefs := rfl
@[simp] theorem State.setWin_jesds (s : State) (w : Nat) (x : Window) : (s.setWin w x).jesds = s.jesds := rfl
@[simp] theorem State.setWin_bglIns (s : State) (w : Nat) (x : Window) : (s.setWin w x).bglIns = s.bglIns := rfl
@[simp] theorem State.setWin_scps (s : State) (w : Nat) (x : Window) : (s.setWin w x).scps = s.scps := rfl
@[simp] theorem State.setWin_channels (s : State) (w : Nat) (x : Window) : (s.setWin w x).channels = s.channels := rfl
@[simp] theorem State.setWin_pipes (s : State) (w : Nat) (x : Window) : (s.setWin w x).pipes = s.pipes := rfl
@[simp] theorem State.setWin_profiles (s : State) (w : Nat) (x : Window) : (s.setWin w x).profiles = s.profiles := rfl
@[simp] theorem State.setWin_ledger (s : State) (w : Nat) (x : Window) : (s.setWin w x).ledger = s.ledger := rfl
@[simp] theorem State.setWin_cap (s : State) (w : Nat) (x : Window) : (s.setWin w x).cap = { s.cap with windows := tset {} s.cap.windows w x } := rfl
@[simp] theorem State.setWin_comp (s : State) (w : Nat) (x : Window) : (s.setWin w x).comp = s.comp := rfl
@[simp] theorem State.setWin_strm (s : State) (w : Nat) (x : Window) : (s.setWin w x).strm = s.strm := rfl
@[simp] theorem State.setWin_upl (s : State) (w : Nat) (x : Window) : (s.setWin w x).upl = s.upl := rfl
@[simp] theorem State.setWin_flt (s : State) (w : Nat) (x : Window) : (s.setWin w x).flt = s.flt := rfl
@[simp] theorem State.setWin_island (s : State) (w : Nat) (x : Window) : (s.setWin w x).island = s.island := rfl
@[simp] theorem State.setWin_tick (s : State) (w : Nat) (x : Window) : (s.setWin w x).tick = s.tick := rfl
@[simp] theorem State.setWin_freeCount (s : State) (w : Nat) (x : Window) : (s.setWin w x).freeCount = s.freeCount := rfl
@[simp] theorem State.setWin_emitted (s : State) (w : Nat) (x : Window) : (s.setWin w x).emitted = s.emitted := rfl
@[simp] theorem State.setWin_pending (s : State) (w : Nat) (x : Window) : (s.setWin w x).pending = s.pending := rfl

@[simp] theorem State.setDump_chip (s : State) (d : Nat) (x : Option Dump) : (s.setDump d x).chip = s.chip := rfl
@[simp] theorem State.setDump_boot (s : State) (d : Nat) (x : Option Dump) : (s.setDump d x).boot = s.boot := rfl
@[simp] theorem State.setDump_hcp (s : State) (d : Nat) (x : Option Dump) : (s.setDump d x).hcp = s.hcp := rfl
@[simp] theorem State.setDump_time (s : State) (d : Nat) (x : Option Dump) : (s.setDump d x).time = s.time := rfl
@[simp] theorem State.setDump_cal (s : State) (d : Nat) (x : Option Dump) : (s.setDump d x).cal = s.cal := rfl
@[simp] theorem State.setDump_xfer (s : State) (d : Nat) (x : Option Dump) : (s.setDump d x).xfer = s.xfer := rfl
@[simp] theorem State.setDump_lanes (s : State) (d : Nat) (x : Option Dump) : (s.setDump d x).lanes = s.lanes := rfl
@[simp] theorem State.setDump_bgls (s : State) (d : Nat) (x : Option Dump) : (s.setDump d x).bgls = s.bgls := rfl
@[simp] theorem State.setDump_dclks (s : State) (d : Nat) (x : Option Dump) : (s.setDump d x).dclks = s.dclks := rfl
@[simp] theorem State.setDump_srefs (s : State) (d : Nat) (x : Option Dump) : (s.setDump d x).srefs = s.srefs := rfl
@[simp] theorem State.setDump_jesds (s : State) (d : Nat) (x : Option Dump) : (s.setDump d x).jesds = s.jesds := rfl
@[simp] theorem State.setDump_bglIns (s : State) (d : Nat) (x : Option Dump) : (s.setDump d x).bglIns = s.bglIns := rfl
@[simp] theorem State.setDump_scps (s : State) (d : Nat) (x : Option Dump) : (s.setDump d x).scps = s.scps := rfl
@[simp] theorem State.setDump_channels (s : State) (d : Nat) (x : Option Dump) : (s.setDump d x).channels = s.channels := rfl
@[simp] theorem State.setDump_pipes (s : State) (d : Nat) (x : Option Dump) : (s.setDump d x).pipes = s.pipes := rfl
@[simp] theorem State.setDump_profiles (s : State) (d : Nat) (x : Option Dump) : (s.setDump d x).profiles = s.profiles := rfl
@[simp] theorem State.setDump_ledger (s : State) (d : Nat) (x : Option Dump) : (s.setDump d x).ledger = s.ledger := rfl
@[simp] theorem State.setDump_cap (s : State) (d : Nat) (x : Option Dump) : (s.setDump d x).cap = { s.cap with dumps := tset none s.cap.dumps d x } := rfl
@[simp] theorem State.setDump_comp (s : State) (d : Nat) (x : Option Dump) : (s.setDump d x).comp = s.comp := rfl
@[simp] theorem State.setDump_strm (s : State) (d : Nat) (x : Option Dump) : (s.setDump d x).strm = s.strm := rfl
@[simp] theorem State.setDump_upl (s : State) (d : Nat) (x : Option Dump) : (s.setDump d x).upl = s.upl := rfl
@[simp] theorem State.setDump_flt (s : State) (d : Nat) (x : Option Dump) : (s.setDump d x).flt = s.flt := rfl
@[simp] theorem State.setDump_island (s : State) (d : Nat) (x : Option Dump) : (s.setDump d x).island = s.island := rfl
@[simp] theorem State.setDump_tick (s : State) (d : Nat) (x : Option Dump) : (s.setDump d x).tick = s.tick := rfl
@[simp] theorem State.setDump_freeCount (s : State) (d : Nat) (x : Option Dump) : (s.setDump d x).freeCount = s.freeCount := rfl
@[simp] theorem State.setDump_emitted (s : State) (d : Nat) (x : Option Dump) : (s.setDump d x).emitted = s.emitted := rfl
@[simp] theorem State.setDump_pending (s : State) (d : Nat) (x : Option Dump) : (s.setDump d x).pending = s.pending := rfl

@[simp] theorem State.setTrigOut_chip (s : State) (o : Nat) (x : TrigOut) : (s.setTrigOut o x).chip = s.chip := rfl
@[simp] theorem State.setTrigOut_boot (s : State) (o : Nat) (x : TrigOut) : (s.setTrigOut o x).boot = s.boot := rfl
@[simp] theorem State.setTrigOut_hcp (s : State) (o : Nat) (x : TrigOut) : (s.setTrigOut o x).hcp = s.hcp := rfl
@[simp] theorem State.setTrigOut_time (s : State) (o : Nat) (x : TrigOut) : (s.setTrigOut o x).time = s.time := rfl
@[simp] theorem State.setTrigOut_cal (s : State) (o : Nat) (x : TrigOut) : (s.setTrigOut o x).cal = s.cal := rfl
@[simp] theorem State.setTrigOut_xfer (s : State) (o : Nat) (x : TrigOut) : (s.setTrigOut o x).xfer = s.xfer := rfl
@[simp] theorem State.setTrigOut_lanes (s : State) (o : Nat) (x : TrigOut) : (s.setTrigOut o x).lanes = s.lanes := rfl
@[simp] theorem State.setTrigOut_bgls (s : State) (o : Nat) (x : TrigOut) : (s.setTrigOut o x).bgls = s.bgls := rfl
@[simp] theorem State.setTrigOut_dclks (s : State) (o : Nat) (x : TrigOut) : (s.setTrigOut o x).dclks = s.dclks := rfl
@[simp] theorem State.setTrigOut_srefs (s : State) (o : Nat) (x : TrigOut) : (s.setTrigOut o x).srefs = s.srefs := rfl
@[simp] theorem State.setTrigOut_jesds (s : State) (o : Nat) (x : TrigOut) : (s.setTrigOut o x).jesds = s.jesds := rfl
@[simp] theorem State.setTrigOut_bglIns (s : State) (o : Nat) (x : TrigOut) : (s.setTrigOut o x).bglIns = s.bglIns := rfl
@[simp] theorem State.setTrigOut_scps (s : State) (o : Nat) (x : TrigOut) : (s.setTrigOut o x).scps = s.scps := rfl
@[simp] theorem State.setTrigOut_channels (s : State) (o : Nat) (x : TrigOut) : (s.setTrigOut o x).channels = s.channels := rfl
@[simp] theorem State.setTrigOut_pipes (s : State) (o : Nat) (x : TrigOut) : (s.setTrigOut o x).pipes = s.pipes := rfl
@[simp] theorem State.setTrigOut_profiles (s : State) (o : Nat) (x : TrigOut) : (s.setTrigOut o x).profiles = s.profiles := rfl
@[simp] theorem State.setTrigOut_ledger (s : State) (o : Nat) (x : TrigOut) : (s.setTrigOut o x).ledger = s.ledger := rfl
@[simp] theorem State.setTrigOut_cap (s : State) (o : Nat) (x : TrigOut) : (s.setTrigOut o x).cap = { s.cap with trigOut := tset {} s.cap.trigOut o x } := rfl
@[simp] theorem State.setTrigOut_comp (s : State) (o : Nat) (x : TrigOut) : (s.setTrigOut o x).comp = s.comp := rfl
@[simp] theorem State.setTrigOut_strm (s : State) (o : Nat) (x : TrigOut) : (s.setTrigOut o x).strm = s.strm := rfl
@[simp] theorem State.setTrigOut_upl (s : State) (o : Nat) (x : TrigOut) : (s.setTrigOut o x).upl = s.upl := rfl
@[simp] theorem State.setTrigOut_flt (s : State) (o : Nat) (x : TrigOut) : (s.setTrigOut o x).flt = s.flt := rfl
@[simp] theorem State.setTrigOut_island (s : State) (o : Nat) (x : TrigOut) : (s.setTrigOut o x).island = s.island := rfl
@[simp] theorem State.setTrigOut_tick (s : State) (o : Nat) (x : TrigOut) : (s.setTrigOut o x).tick = s.tick := rfl
@[simp] theorem State.setTrigOut_freeCount (s : State) (o : Nat) (x : TrigOut) : (s.setTrigOut o x).freeCount = s.freeCount := rfl
@[simp] theorem State.setTrigOut_emitted (s : State) (o : Nat) (x : TrigOut) : (s.setTrigOut o x).emitted = s.emitted := rfl
@[simp] theorem State.setTrigOut_pending (s : State) (o : Nat) (x : TrigOut) : (s.setTrigOut o x).pending = s.pending := rfl

@[simp] theorem State.setTrigIn_chip (s : State) (i : Nat) (x : TrigIn) : (s.setTrigIn i x).chip = s.chip := rfl
@[simp] theorem State.setTrigIn_boot (s : State) (i : Nat) (x : TrigIn) : (s.setTrigIn i x).boot = s.boot := rfl
@[simp] theorem State.setTrigIn_hcp (s : State) (i : Nat) (x : TrigIn) : (s.setTrigIn i x).hcp = s.hcp := rfl
@[simp] theorem State.setTrigIn_time (s : State) (i : Nat) (x : TrigIn) : (s.setTrigIn i x).time = { s.time with trig := tset {} s.time.trig i x } := rfl
@[simp] theorem State.setTrigIn_cal (s : State) (i : Nat) (x : TrigIn) : (s.setTrigIn i x).cal = s.cal := rfl
@[simp] theorem State.setTrigIn_xfer (s : State) (i : Nat) (x : TrigIn) : (s.setTrigIn i x).xfer = s.xfer := rfl
@[simp] theorem State.setTrigIn_lanes (s : State) (i : Nat) (x : TrigIn) : (s.setTrigIn i x).lanes = s.lanes := rfl
@[simp] theorem State.setTrigIn_bgls (s : State) (i : Nat) (x : TrigIn) : (s.setTrigIn i x).bgls = s.bgls := rfl
@[simp] theorem State.setTrigIn_dclks (s : State) (i : Nat) (x : TrigIn) : (s.setTrigIn i x).dclks = s.dclks := rfl
@[simp] theorem State.setTrigIn_srefs (s : State) (i : Nat) (x : TrigIn) : (s.setTrigIn i x).srefs = s.srefs := rfl
@[simp] theorem State.setTrigIn_jesds (s : State) (i : Nat) (x : TrigIn) : (s.setTrigIn i x).jesds = s.jesds := rfl
@[simp] theorem State.setTrigIn_bglIns (s : State) (i : Nat) (x : TrigIn) : (s.setTrigIn i x).bglIns = s.bglIns := rfl
@[simp] theorem State.setTrigIn_scps (s : State) (i : Nat) (x : TrigIn) : (s.setTrigIn i x).scps = s.scps := rfl
@[simp] theorem State.setTrigIn_channels (s : State) (i : Nat) (x : TrigIn) : (s.setTrigIn i x).channels = s.channels := rfl
@[simp] theorem State.setTrigIn_pipes (s : State) (i : Nat) (x : TrigIn) : (s.setTrigIn i x).pipes = s.pipes := rfl
@[simp] theorem State.setTrigIn_profiles (s : State) (i : Nat) (x : TrigIn) : (s.setTrigIn i x).profiles = s.profiles := rfl
@[simp] theorem State.setTrigIn_ledger (s : State) (i : Nat) (x : TrigIn) : (s.setTrigIn i x).ledger = s.ledger := rfl
@[simp] theorem State.setTrigIn_cap (s : State) (i : Nat) (x : TrigIn) : (s.setTrigIn i x).cap = s.cap := rfl
@[simp] theorem State.setTrigIn_comp (s : State) (i : Nat) (x : TrigIn) : (s.setTrigIn i x).comp = s.comp := rfl
@[simp] theorem State.setTrigIn_strm (s : State) (i : Nat) (x : TrigIn) : (s.setTrigIn i x).strm = s.strm := rfl
@[simp] theorem State.setTrigIn_upl (s : State) (i : Nat) (x : TrigIn) : (s.setTrigIn i x).upl = s.upl := rfl
@[simp] theorem State.setTrigIn_flt (s : State) (i : Nat) (x : TrigIn) : (s.setTrigIn i x).flt = s.flt := rfl
@[simp] theorem State.setTrigIn_island (s : State) (i : Nat) (x : TrigIn) : (s.setTrigIn i x).island = s.island := rfl
@[simp] theorem State.setTrigIn_tick (s : State) (i : Nat) (x : TrigIn) : (s.setTrigIn i x).tick = s.tick := rfl
@[simp] theorem State.setTrigIn_freeCount (s : State) (i : Nat) (x : TrigIn) : (s.setTrigIn i x).freeCount = s.freeCount := rfl
@[simp] theorem State.setTrigIn_emitted (s : State) (i : Nat) (x : TrigIn) : (s.setTrigIn i x).emitted = s.emitted := rfl
@[simp] theorem State.setTrigIn_pending (s : State) (i : Nat) (x : TrigIn) : (s.setTrigIn i x).pending = s.pending := rfl

@[simp] theorem State.setCstream_chip (s : State) (n : Nat) (x : CompStream) : (s.setCstream n x).chip = s.chip := rfl
@[simp] theorem State.setCstream_boot (s : State) (n : Nat) (x : CompStream) : (s.setCstream n x).boot = s.boot := rfl
@[simp] theorem State.setCstream_hcp (s : State) (n : Nat) (x : CompStream) : (s.setCstream n x).hcp = s.hcp := rfl
@[simp] theorem State.setCstream_time (s : State) (n : Nat) (x : CompStream) : (s.setCstream n x).time = s.time := rfl
@[simp] theorem State.setCstream_cal (s : State) (n : Nat) (x : CompStream) : (s.setCstream n x).cal = s.cal := rfl
@[simp] theorem State.setCstream_xfer (s : State) (n : Nat) (x : CompStream) : (s.setCstream n x).xfer = s.xfer := rfl
@[simp] theorem State.setCstream_lanes (s : State) (n : Nat) (x : CompStream) : (s.setCstream n x).lanes = s.lanes := rfl
@[simp] theorem State.setCstream_bgls (s : State) (n : Nat) (x : CompStream) : (s.setCstream n x).bgls = s.bgls := rfl
@[simp] theorem State.setCstream_dclks (s : State) (n : Nat) (x : CompStream) : (s.setCstream n x).dclks = s.dclks := rfl
@[simp] theorem State.setCstream_srefs (s : State) (n : Nat) (x : CompStream) : (s.setCstream n x).srefs = s.srefs := rfl
@[simp] theorem State.setCstream_jesds (s : State) (n : Nat) (x : CompStream) : (s.setCstream n x).jesds = s.jesds := rfl
@[simp] theorem State.setCstream_bglIns (s : State) (n : Nat) (x : CompStream) : (s.setCstream n x).bglIns = s.bglIns := rfl
@[simp] theorem State.setCstream_scps (s : State) (n : Nat) (x : CompStream) : (s.setCstream n x).scps = s.scps := rfl
@[simp] theorem State.setCstream_channels (s : State) (n : Nat) (x : CompStream) : (s.setCstream n x).channels = s.channels := rfl
@[simp] theorem State.setCstream_pipes (s : State) (n : Nat) (x : CompStream) : (s.setCstream n x).pipes = s.pipes := rfl
@[simp] theorem State.setCstream_profiles (s : State) (n : Nat) (x : CompStream) : (s.setCstream n x).profiles = s.profiles := rfl
@[simp] theorem State.setCstream_ledger (s : State) (n : Nat) (x : CompStream) : (s.setCstream n x).ledger = s.ledger := rfl
@[simp] theorem State.setCstream_cap (s : State) (n : Nat) (x : CompStream) : (s.setCstream n x).cap = s.cap := rfl
@[simp] theorem State.setCstream_comp (s : State) (n : Nat) (x : CompStream) : (s.setCstream n x).comp = { s.comp with streams := tset {} s.comp.streams n x } := rfl
@[simp] theorem State.setCstream_strm (s : State) (n : Nat) (x : CompStream) : (s.setCstream n x).strm = s.strm := rfl
@[simp] theorem State.setCstream_upl (s : State) (n : Nat) (x : CompStream) : (s.setCstream n x).upl = s.upl := rfl
@[simp] theorem State.setCstream_flt (s : State) (n : Nat) (x : CompStream) : (s.setCstream n x).flt = s.flt := rfl
@[simp] theorem State.setCstream_island (s : State) (n : Nat) (x : CompStream) : (s.setCstream n x).island = s.island := rfl
@[simp] theorem State.setCstream_tick (s : State) (n : Nat) (x : CompStream) : (s.setCstream n x).tick = s.tick := rfl
@[simp] theorem State.setCstream_freeCount (s : State) (n : Nat) (x : CompStream) : (s.setCstream n x).freeCount = s.freeCount := rfl
@[simp] theorem State.setCstream_emitted (s : State) (n : Nat) (x : CompStream) : (s.setCstream n x).emitted = s.emitted := rfl
@[simp] theorem State.setCstream_pending (s : State) (n : Nat) (x : CompStream) : (s.setCstream n x).pending = s.pending := rfl

@[simp] theorem State.setStream_chip (s : State) (n : Nat) (x : Stream) : (s.setStream n x).chip = s.chip := rfl
@[simp] theorem State.setStream_boot (s : State) (n : Nat) (x : Stream) : (s.setStream n x).boot = s.boot := rfl
@[simp] theorem State.setStream_hcp (s : State) (n : Nat) (x : Stream) : (s.setStream n x).hcp = s.hcp := rfl
@[simp] theorem State.setStream_time (s : State) (n : Nat) (x : Stream) : (s.setStream n x).time = s.time := rfl
@[simp] theorem State.setStream_cal (s : State) (n : Nat) (x : Stream) : (s.setStream n x).cal = s.cal := rfl
@[simp] theorem State.setStream_xfer (s : State) (n : Nat) (x : Stream) : (s.setStream n x).xfer = s.xfer := rfl
@[simp] theorem State.setStream_lanes (s : State) (n : Nat) (x : Stream) : (s.setStream n x).lanes = s.lanes := rfl
@[simp] theorem State.setStream_bgls (s : State) (n : Nat) (x : Stream) : (s.setStream n x).bgls = s.bgls := rfl
@[simp] theorem State.setStream_dclks (s : State) (n : Nat) (x : Stream) : (s.setStream n x).dclks = s.dclks := rfl
@[simp] theorem State.setStream_srefs (s : State) (n : Nat) (x : Stream) : (s.setStream n x).srefs = s.srefs := rfl
@[simp] theorem State.setStream_jesds (s : State) (n : Nat) (x : Stream) : (s.setStream n x).jesds = s.jesds := rfl
@[simp] theorem State.setStream_bglIns (s : State) (n : Nat) (x : Stream) : (s.setStream n x).bglIns = s.bglIns := rfl
@[simp] theorem State.setStream_scps (s : State) (n : Nat) (x : Stream) : (s.setStream n x).scps = s.scps := rfl
@[simp] theorem State.setStream_channels (s : State) (n : Nat) (x : Stream) : (s.setStream n x).channels = s.channels := rfl
@[simp] theorem State.setStream_pipes (s : State) (n : Nat) (x : Stream) : (s.setStream n x).pipes = s.pipes := rfl
@[simp] theorem State.setStream_profiles (s : State) (n : Nat) (x : Stream) : (s.setStream n x).profiles = s.profiles := rfl
@[simp] theorem State.setStream_ledger (s : State) (n : Nat) (x : Stream) : (s.setStream n x).ledger = s.ledger := rfl
@[simp] theorem State.setStream_cap (s : State) (n : Nat) (x : Stream) : (s.setStream n x).cap = s.cap := rfl
@[simp] theorem State.setStream_comp (s : State) (n : Nat) (x : Stream) : (s.setStream n x).comp = s.comp := rfl
@[simp] theorem State.setStream_strm (s : State) (n : Nat) (x : Stream) : (s.setStream n x).strm = { s.strm with streams := tset {} s.strm.streams n x } := rfl
@[simp] theorem State.setStream_upl (s : State) (n : Nat) (x : Stream) : (s.setStream n x).upl = s.upl := rfl
@[simp] theorem State.setStream_flt (s : State) (n : Nat) (x : Stream) : (s.setStream n x).flt = s.flt := rfl
@[simp] theorem State.setStream_island (s : State) (n : Nat) (x : Stream) : (s.setStream n x).island = s.island := rfl
@[simp] theorem State.setStream_tick (s : State) (n : Nat) (x : Stream) : (s.setStream n x).tick = s.tick := rfl
@[simp] theorem State.setStream_freeCount (s : State) (n : Nat) (x : Stream) : (s.setStream n x).freeCount = s.freeCount := rfl
@[simp] theorem State.setStream_emitted (s : State) (n : Nat) (x : Stream) : (s.setStream n x).emitted = s.emitted := rfl
@[simp] theorem State.setStream_pending (s : State) (n : Nat) (x : Stream) : (s.setStream n x).pending = s.pending := rfl

@[simp] theorem State.setPort_chip (s : State) (p : Nat) (x : Port) : (s.setPort p x).chip = s.chip := rfl
@[simp] theorem State.setPort_boot (s : State) (p : Nat) (x : Port) : (s.setPort p x).boot = s.boot := rfl
@[simp] theorem State.setPort_hcp (s : State) (p : Nat) (x : Port) : (s.setPort p x).hcp = s.hcp := rfl
@[simp] theorem State.setPort_time (s : State) (p : Nat) (x : Port) : (s.setPort p x).time = s.time := rfl
@[simp] theorem State.setPort_cal (s : State) (p : Nat) (x : Port) : (s.setPort p x).cal = s.cal := rfl
@[simp] theorem State.setPort_xfer (s : State) (p : Nat) (x : Port) : (s.setPort p x).xfer = s.xfer := rfl
@[simp] theorem State.setPort_lanes (s : State) (p : Nat) (x : Port) : (s.setPort p x).lanes = s.lanes := rfl
@[simp] theorem State.setPort_bgls (s : State) (p : Nat) (x : Port) : (s.setPort p x).bgls = s.bgls := rfl
@[simp] theorem State.setPort_dclks (s : State) (p : Nat) (x : Port) : (s.setPort p x).dclks = s.dclks := rfl
@[simp] theorem State.setPort_srefs (s : State) (p : Nat) (x : Port) : (s.setPort p x).srefs = s.srefs := rfl
@[simp] theorem State.setPort_jesds (s : State) (p : Nat) (x : Port) : (s.setPort p x).jesds = s.jesds := rfl
@[simp] theorem State.setPort_bglIns (s : State) (p : Nat) (x : Port) : (s.setPort p x).bglIns = s.bglIns := rfl
@[simp] theorem State.setPort_scps (s : State) (p : Nat) (x : Port) : (s.setPort p x).scps = s.scps := rfl
@[simp] theorem State.setPort_channels (s : State) (p : Nat) (x : Port) : (s.setPort p x).channels = s.channels := rfl
@[simp] theorem State.setPort_pipes (s : State) (p : Nat) (x : Port) : (s.setPort p x).pipes = s.pipes := rfl
@[simp] theorem State.setPort_profiles (s : State) (p : Nat) (x : Port) : (s.setPort p x).profiles = s.profiles := rfl
@[simp] theorem State.setPort_ledger (s : State) (p : Nat) (x : Port) : (s.setPort p x).ledger = s.ledger := rfl
@[simp] theorem State.setPort_cap (s : State) (p : Nat) (x : Port) : (s.setPort p x).cap = s.cap := rfl
@[simp] theorem State.setPort_comp (s : State) (p : Nat) (x : Port) : (s.setPort p x).comp = s.comp := rfl
@[simp] theorem State.setPort_strm (s : State) (p : Nat) (x : Port) : (s.setPort p x).strm = s.strm := rfl
@[simp] theorem State.setPort_upl (s : State) (p : Nat) (x : Port) : (s.setPort p x).upl = { s.upl with ports := tset {} s.upl.ports p x } := rfl
@[simp] theorem State.setPort_flt (s : State) (p : Nat) (x : Port) : (s.setPort p x).flt = s.flt := rfl
@[simp] theorem State.setPort_island (s : State) (p : Nat) (x : Port) : (s.setPort p x).island = s.island := rfl
@[simp] theorem State.setPort_tick (s : State) (p : Nat) (x : Port) : (s.setPort p x).tick = s.tick := rfl
@[simp] theorem State.setPort_freeCount (s : State) (p : Nat) (x : Port) : (s.setPort p x).freeCount = s.freeCount := rfl
@[simp] theorem State.setPort_emitted (s : State) (p : Nat) (x : Port) : (s.setPort p x).emitted = s.emitted := rfl
@[simp] theorem State.setPort_pending (s : State) (p : Nat) (x : Port) : (s.setPort p x).pending = s.pending := rfl

@[simp] theorem State.setBlk_chip (s : State) (b : Nat) (x : FaultBlock) : (s.setBlk b x).chip = s.chip := rfl
@[simp] theorem State.setBlk_boot (s : State) (b : Nat) (x : FaultBlock) : (s.setBlk b x).boot = s.boot := rfl
@[simp] theorem State.setBlk_hcp (s : State) (b : Nat) (x : FaultBlock) : (s.setBlk b x).hcp = s.hcp := rfl
@[simp] theorem State.setBlk_time (s : State) (b : Nat) (x : FaultBlock) : (s.setBlk b x).time = s.time := rfl
@[simp] theorem State.setBlk_cal (s : State) (b : Nat) (x : FaultBlock) : (s.setBlk b x).cal = s.cal := rfl
@[simp] theorem State.setBlk_xfer (s : State) (b : Nat) (x : FaultBlock) : (s.setBlk b x).xfer = s.xfer := rfl
@[simp] theorem State.setBlk_lanes (s : State) (b : Nat) (x : FaultBlock) : (s.setBlk b x).lanes = s.lanes := rfl
@[simp] theorem State.setBlk_bgls (s : State) (b : Nat) (x : FaultBlock) : (s.setBlk b x).bgls = s.bgls := rfl
@[simp] theorem State.setBlk_dclks (s : State) (b : Nat) (x : FaultBlock) : (s.setBlk b x).dclks = s.dclks := rfl
@[simp] theorem State.setBlk_srefs (s : State) (b : Nat) (x : FaultBlock) : (s.setBlk b x).srefs = s.srefs := rfl
@[simp] theorem State.setBlk_jesds (s : State) (b : Nat) (x : FaultBlock) : (s.setBlk b x).jesds = s.jesds := rfl
@[simp] theorem State.setBlk_bglIns (s : State) (b : Nat) (x : FaultBlock) : (s.setBlk b x).bglIns = s.bglIns := rfl
@[simp] theorem State.setBlk_scps (s : State) (b : Nat) (x : FaultBlock) : (s.setBlk b x).scps = s.scps := rfl
@[simp] theorem State.setBlk_channels (s : State) (b : Nat) (x : FaultBlock) : (s.setBlk b x).channels = s.channels := rfl
@[simp] theorem State.setBlk_pipes (s : State) (b : Nat) (x : FaultBlock) : (s.setBlk b x).pipes = s.pipes := rfl
@[simp] theorem State.setBlk_profiles (s : State) (b : Nat) (x : FaultBlock) : (s.setBlk b x).profiles = s.profiles := rfl
@[simp] theorem State.setBlk_ledger (s : State) (b : Nat) (x : FaultBlock) : (s.setBlk b x).ledger = s.ledger := rfl
@[simp] theorem State.setBlk_cap (s : State) (b : Nat) (x : FaultBlock) : (s.setBlk b x).cap = s.cap := rfl
@[simp] theorem State.setBlk_comp (s : State) (b : Nat) (x : FaultBlock) : (s.setBlk b x).comp = s.comp := rfl
@[simp] theorem State.setBlk_strm (s : State) (b : Nat) (x : FaultBlock) : (s.setBlk b x).strm = s.strm := rfl
@[simp] theorem State.setBlk_upl (s : State) (b : Nat) (x : FaultBlock) : (s.setBlk b x).upl = s.upl := rfl
@[simp] theorem State.setBlk_flt (s : State) (b : Nat) (x : FaultBlock) : (s.setBlk b x).flt = { s.flt with blocks := tset {} s.flt.blocks b x } := rfl
@[simp] theorem State.setBlk_island (s : State) (b : Nat) (x : FaultBlock) : (s.setBlk b x).island = s.island := rfl
@[simp] theorem State.setBlk_tick (s : State) (b : Nat) (x : FaultBlock) : (s.setBlk b x).tick = s.tick := rfl
@[simp] theorem State.setBlk_freeCount (s : State) (b : Nat) (x : FaultBlock) : (s.setBlk b x).freeCount = s.freeCount := rfl
@[simp] theorem State.setBlk_emitted (s : State) (b : Nat) (x : FaultBlock) : (s.setBlk b x).emitted = s.emitted := rfl
@[simp] theorem State.setBlk_pending (s : State) (b : Nat) (x : FaultBlock) : (s.setBlk b x).pending = s.pending := rfl

@[simp] theorem State.emit_chip (s : State) (e : Emission) : (s.emit e).chip = s.chip := rfl
@[simp] theorem State.emit_boot (s : State) (e : Emission) : (s.emit e).boot = s.boot := rfl
@[simp] theorem State.emit_hcp (s : State) (e : Emission) : (s.emit e).hcp = s.hcp := rfl
@[simp] theorem State.emit_time (s : State) (e : Emission) : (s.emit e).time = s.time := rfl
@[simp] theorem State.emit_cal (s : State) (e : Emission) : (s.emit e).cal = s.cal := rfl
@[simp] theorem State.emit_xfer (s : State) (e : Emission) : (s.emit e).xfer = s.xfer := rfl
@[simp] theorem State.emit_lanes (s : State) (e : Emission) : (s.emit e).lanes = s.lanes := rfl
@[simp] theorem State.emit_bgls (s : State) (e : Emission) : (s.emit e).bgls = s.bgls := rfl
@[simp] theorem State.emit_dclks (s : State) (e : Emission) : (s.emit e).dclks = s.dclks := rfl
@[simp] theorem State.emit_srefs (s : State) (e : Emission) : (s.emit e).srefs = s.srefs := rfl
@[simp] theorem State.emit_jesds (s : State) (e : Emission) : (s.emit e).jesds = s.jesds := rfl
@[simp] theorem State.emit_bglIns (s : State) (e : Emission) : (s.emit e).bglIns = s.bglIns := rfl
@[simp] theorem State.emit_scps (s : State) (e : Emission) : (s.emit e).scps = s.scps := rfl
@[simp] theorem State.emit_channels (s : State) (e : Emission) : (s.emit e).channels = s.channels := rfl
@[simp] theorem State.emit_pipes (s : State) (e : Emission) : (s.emit e).pipes = s.pipes := rfl
@[simp] theorem State.emit_profiles (s : State) (e : Emission) : (s.emit e).profiles = s.profiles := rfl
@[simp] theorem State.emit_ledger (s : State) (e : Emission) : (s.emit e).ledger = s.ledger := rfl
@[simp] theorem State.emit_cap (s : State) (e : Emission) : (s.emit e).cap = s.cap := rfl
@[simp] theorem State.emit_comp (s : State) (e : Emission) : (s.emit e).comp = s.comp := rfl
@[simp] theorem State.emit_strm (s : State) (e : Emission) : (s.emit e).strm = s.strm := rfl
@[simp] theorem State.emit_upl (s : State) (e : Emission) : (s.emit e).upl = s.upl := rfl
@[simp] theorem State.emit_flt (s : State) (e : Emission) : (s.emit e).flt = s.flt := rfl
@[simp] theorem State.emit_island (s : State) (e : Emission) : (s.emit e).island = s.island := rfl
@[simp] theorem State.emit_tick (s : State) (e : Emission) : (s.emit e).tick = s.tick := rfl
@[simp] theorem State.emit_freeCount (s : State) (e : Emission) : (s.emit e).freeCount = s.freeCount := rfl
@[simp] theorem State.emit_emitted (s : State) (e : Emission) : (s.emit e).emitted = s.emitted ++ [e] := rfl
@[simp] theorem State.emit_pending (s : State) (e : Emission) : (s.emit e).pending = s.pending := rfl

@[simp] theorem raise_chip (b n u : Nat) (s : State) : (raise b n u s).chip = s.chip := rfl
@[simp] theorem raise_boot (b n u : Nat) (s : State) : (raise b n u s).boot = s.boot := rfl
@[simp] theorem raise_hcp (b n u : Nat) (s : State) : (raise b n u s).hcp = s.hcp := rfl
@[simp] theorem raise_time (b n u : Nat) (s : State) : (raise b n u s).time = s.time := rfl
@[simp] theorem raise_cal (b n u : Nat) (s : State) : (raise b n u s).cal = s.cal := rfl
@[simp] theorem raise_xfer (b n u : Nat) (s : State) : (raise b n u s).xfer = s.xfer := rfl
@[simp] theorem raise_lanes (b n u : Nat) (s : State) : (raise b n u s).lanes = s.lanes := rfl
@[simp] theorem raise_bgls (b n u : Nat) (s : State) : (raise b n u s).bgls = s.bgls := rfl
@[simp] theorem raise_dclks (b n u : Nat) (s : State) : (raise b n u s).dclks = s.dclks := rfl
@[simp] theorem raise_srefs (b n u : Nat) (s : State) : (raise b n u s).srefs = s.srefs := rfl
@[simp] theorem raise_jesds (b n u : Nat) (s : State) : (raise b n u s).jesds = s.jesds := rfl
@[simp] theorem raise_bglIns (b n u : Nat) (s : State) : (raise b n u s).bglIns = s.bglIns := rfl
@[simp] theorem raise_scps (b n u : Nat) (s : State) : (raise b n u s).scps = s.scps := rfl
@[simp] theorem raise_channels (b n u : Nat) (s : State) : (raise b n u s).channels = s.channels := rfl
@[simp] theorem raise_pipes (b n u : Nat) (s : State) : (raise b n u s).pipes = s.pipes := rfl
@[simp] theorem raise_profiles (b n u : Nat) (s : State) : (raise b n u s).profiles = s.profiles := rfl
@[simp] theorem raise_ledger (b n u : Nat) (s : State) : (raise b n u s).ledger = s.ledger := rfl
@[simp] theorem raise_cap (b n u : Nat) (s : State) : (raise b n u s).cap = s.cap := rfl
@[simp] theorem raise_comp (b n u : Nat) (s : State) : (raise b n u s).comp = s.comp := rfl
@[simp] theorem raise_strm (b n u : Nat) (s : State) : (raise b n u s).strm = s.strm := rfl
@[simp] theorem raise_upl (b n u : Nat) (s : State) : (raise b n u s).upl = s.upl := rfl
@[simp] theorem raise_flt (b n u : Nat) (s : State) : (raise b n u s).flt = { s.flt with detected := s.flt.detected ++ [⟨b, n, u, none⟩] } := rfl
@[simp] theorem raise_island (b n u : Nat) (s : State) : (raise b n u s).island = s.island := rfl
@[simp] theorem raise_tick (b n u : Nat) (s : State) : (raise b n u s).tick = s.tick := rfl
@[simp] theorem raise_freeCount (b n u : Nat) (s : State) : (raise b n u s).freeCount = s.freeCount := rfl
@[simp] theorem raise_emitted (b n u : Nat) (s : State) : (raise b n u s).emitted = s.emitted := rfl
@[simp] theorem raise_pending (b n u : Nat) (s : State) : (raise b n u s).pending = s.pending := rfl

@[simp] theorem State.setXfer_chip (s : State) (x : Xfer) : (s.setXfer x).chip = s.chip := rfl
@[simp] theorem State.setXfer_boot (s : State) (x : Xfer) : (s.setXfer x).boot = s.boot := rfl
@[simp] theorem State.setXfer_hcp (s : State) (x : Xfer) : (s.setXfer x).hcp = s.hcp := rfl
@[simp] theorem State.setXfer_time (s : State) (x : Xfer) : (s.setXfer x).time = s.time := rfl
@[simp] theorem State.setXfer_cal (s : State) (x : Xfer) : (s.setXfer x).cal = s.cal := rfl
@[simp] theorem State.setXfer_xfer (s : State) (x : Xfer) : (s.setXfer x).xfer = x := rfl
@[simp] theorem State.setXfer_lanes (s : State) (x : Xfer) : (s.setXfer x).lanes = s.lanes := rfl
@[simp] theorem State.setXfer_bgls (s : State) (x : Xfer) : (s.setXfer x).bgls = s.bgls := rfl
@[simp] theorem State.setXfer_dclks (s : State) (x : Xfer) : (s.setXfer x).dclks = s.dclks := rfl
@[simp] theorem State.setXfer_srefs (s : State) (x : Xfer) : (s.setXfer x).srefs = s.srefs := rfl
@[simp] theorem State.setXfer_jesds (s : State) (x : Xfer) : (s.setXfer x).jesds = s.jesds := rfl
@[simp] theorem State.setXfer_bglIns (s : State) (x : Xfer) : (s.setXfer x).bglIns = s.bglIns := rfl
@[simp] theorem State.setXfer_scps (s : State) (x : Xfer) : (s.setXfer x).scps = s.scps := rfl
@[simp] theorem State.setXfer_channels (s : State) (x : Xfer) : (s.setXfer x).channels = s.channels := rfl
@[simp] theorem State.setXfer_pipes (s : State) (x : Xfer) : (s.setXfer x).pipes = s.pipes := rfl
@[simp] theorem State.setXfer_profiles (s : State) (x : Xfer) : (s.setXfer x).profiles = s.profiles := rfl
@[simp] theorem State.setXfer_ledger (s : State) (x : Xfer) : (s.setXfer x).ledger = s.ledger := rfl
@[simp] theorem State.setXfer_cap (s : State) (x : Xfer) : (s.setXfer x).cap = s.cap := rfl
@[simp] theorem State.setXfer_comp (s : State) (x : Xfer) : (s.setXfer x).comp = s.comp := rfl
@[simp] theorem State.setXfer_strm (s : State) (x : Xfer) : (s.setXfer x).strm = s.strm := rfl
@[simp] theorem State.setXfer_upl (s : State) (x : Xfer) : (s.setXfer x).upl = s.upl := rfl
@[simp] theorem State.setXfer_flt (s : State) (x : Xfer) : (s.setXfer x).flt = s.flt := rfl
@[simp] theorem State.setXfer_island (s : State) (x : Xfer) : (s.setXfer x).island = s.island := rfl
@[simp] theorem State.setXfer_tick (s : State) (x : Xfer) : (s.setXfer x).tick = s.tick := rfl
@[simp] theorem State.setXfer_freeCount (s : State) (x : Xfer) : (s.setXfer x).freeCount = s.freeCount := rfl
@[simp] theorem State.setXfer_emitted (s : State) (x : Xfer) : (s.setXfer x).emitted = s.emitted := rfl
@[simp] theorem State.setXfer_pending (s : State) (x : Xfer) : (s.setXfer x).pending = s.pending := rfl

@[simp] theorem insertEntry_chip (e : CalEntry) (s : State) : (insertEntry e s).chip = s.chip := rfl
@[simp] theorem insertEntry_boot (e : CalEntry) (s : State) : (insertEntry e s).boot = s.boot := rfl
@[simp] theorem insertEntry_hcp (e : CalEntry) (s : State) : (insertEntry e s).hcp = s.hcp := rfl
@[simp] theorem insertEntry_time (e : CalEntry) (s : State) : (insertEntry e s).time = s.time := rfl
@[simp] theorem insertEntry_cal (e : CalEntry) (s : State) : (insertEntry e s).cal = { s.cal with entries := s.cal.entries ++ [{ e with ins := s.cal.nextIns }], nextIns := s.cal.nextIns + 1 } := rfl
@[simp] theorem insertEntry_xfer (e : CalEntry) (s : State) : (insertEntry e s).xfer = s.xfer := rfl
@[simp] theorem insertEntry_lanes (e : CalEntry) (s : State) : (insertEntry e s).lanes = s.lanes := rfl
@[simp] theorem insertEntry_bgls (e : CalEntry) (s : State) : (insertEntry e s).bgls = s.bgls := rfl
@[simp] theorem insertEntry_dclks (e : CalEntry) (s : State) : (insertEntry e s).dclks = s.dclks := rfl
@[simp] theorem insertEntry_srefs (e : CalEntry) (s : State) : (insertEntry e s).srefs = s.srefs := rfl
@[simp] theorem insertEntry_jesds (e : CalEntry) (s : State) : (insertEntry e s).jesds = s.jesds := rfl
@[simp] theorem insertEntry_bglIns (e : CalEntry) (s : State) : (insertEntry e s).bglIns = s.bglIns := rfl
@[simp] theorem insertEntry_scps (e : CalEntry) (s : State) : (insertEntry e s).scps = s.scps := rfl
@[simp] theorem insertEntry_channels (e : CalEntry) (s : State) : (insertEntry e s).channels = s.channels := rfl
@[simp] theorem insertEntry_pipes (e : CalEntry) (s : State) : (insertEntry e s).pipes = s.pipes := rfl
@[simp] theorem insertEntry_profiles (e : CalEntry) (s : State) : (insertEntry e s).profiles = s.profiles := rfl
@[simp] theorem insertEntry_ledger (e : CalEntry) (s : State) : (insertEntry e s).ledger = s.ledger := rfl
@[simp] theorem insertEntry_cap (e : CalEntry) (s : State) : (insertEntry e s).cap = s.cap := rfl
@[simp] theorem insertEntry_comp (e : CalEntry) (s : State) : (insertEntry e s).comp = s.comp := rfl
@[simp] theorem insertEntry_strm (e : CalEntry) (s : State) : (insertEntry e s).strm = s.strm := rfl
@[simp] theorem insertEntry_upl (e : CalEntry) (s : State) : (insertEntry e s).upl = s.upl := rfl
@[simp] theorem insertEntry_flt (e : CalEntry) (s : State) : (insertEntry e s).flt = s.flt := rfl
@[simp] theorem insertEntry_island (e : CalEntry) (s : State) : (insertEntry e s).island = s.island := rfl
@[simp] theorem insertEntry_tick (e : CalEntry) (s : State) : (insertEntry e s).tick = s.tick := rfl
@[simp] theorem insertEntry_freeCount (e : CalEntry) (s : State) : (insertEntry e s).freeCount = s.freeCount := rfl
@[simp] theorem insertEntry_emitted (e : CalEntry) (s : State) : (insertEntry e s).emitted = s.emitted := rfl
@[simp] theorem insertEntry_pending (e : CalEntry) (s : State) : (insertEntry e s).pending = s.pending := rfl

@[simp] theorem State.setUpset_chip (s : State) (g a : Nat) (u : Upset) : (s.setUpset g a u).chip = s.chip := rfl
@[simp] theorem State.setUpset_boot (s : State) (g a : Nat) (u : Upset) : (s.setUpset g a u).boot = s.boot := rfl
@[simp] theorem State.setUpset_hcp (s : State) (g a : Nat) (u : Upset) : (s.setUpset g a u).hcp = s.hcp := rfl
@[simp] theorem State.setUpset_time (s : State) (g a : Nat) (u : Upset) : (s.setUpset g a u).time = s.time := rfl
@[simp] theorem State.setUpset_cal (s : State) (g a : Nat) (u : Upset) : (s.setUpset g a u).cal = s.cal := rfl
@[simp] theorem State.setUpset_xfer (s : State) (g a : Nat) (u : Upset) : (s.setUpset g a u).xfer = s.xfer := rfl
@[simp] theorem State.setUpset_lanes (s : State) (g a : Nat) (u : Upset) : (s.setUpset g a u).lanes = s.lanes := rfl
@[simp] theorem State.setUpset_bgls (s : State) (g a : Nat) (u : Upset) : (s.setUpset g a u).bgls = s.bgls := rfl
@[simp] theorem State.setUpset_dclks (s : State) (g a : Nat) (u : Upset) : (s.setUpset g a u).dclks = s.dclks := rfl
@[simp] theorem State.setUpset_srefs (s : State) (g a : Nat) (u : Upset) : (s.setUpset g a u).srefs = s.srefs := rfl
@[simp] theorem State.setUpset_jesds (s : State) (g a : Nat) (u : Upset) : (s.setUpset g a u).jesds = s.jesds := rfl
@[simp] theorem State.setUpset_bglIns (s : State) (g a : Nat) (u : Upset) : (s.setUpset g a u).bglIns = s.bglIns := rfl
@[simp] theorem State.setUpset_scps (s : State) (g a : Nat) (u : Upset) : (s.setUpset g a u).scps = s.scps := rfl
@[simp] theorem State.setUpset_channels (s : State) (g a : Nat) (u : Upset) : (s.setUpset g a u).channels = s.channels := rfl
@[simp] theorem State.setUpset_pipes (s : State) (g a : Nat) (u : Upset) : (s.setUpset g a u).pipes = s.pipes := rfl
@[simp] theorem State.setUpset_profiles (s : State) (g a : Nat) (u : Upset) : (s.setUpset g a u).profiles = s.profiles := rfl
@[simp] theorem State.setUpset_ledger (s : State) (g a : Nat) (u : Upset) : (s.setUpset g a u).ledger = s.ledger := rfl
@[simp] theorem State.setUpset_cap (s : State) (g a : Nat) (u : Upset) : (s.setUpset g a u).cap = s.cap := rfl
@[simp] theorem State.setUpset_comp (s : State) (g a : Nat) (u : Upset) : (s.setUpset g a u).comp = s.comp := rfl
@[simp] theorem State.setUpset_strm (s : State) (g a : Nat) (u : Upset) : (s.setUpset g a u).strm = s.strm := rfl
@[simp] theorem State.setUpset_upl (s : State) (g a : Nat) (u : Upset) : (s.setUpset g a u).upl = s.upl := rfl
@[simp] theorem State.setUpset_flt (s : State) (g a : Nat) (u : Upset) : (s.setUpset g a u).flt = { s.flt with upsets := tset {} s.flt.upsets (lineKey g a) u } := rfl
@[simp] theorem State.setUpset_island (s : State) (g a : Nat) (u : Upset) : (s.setUpset g a u).island = s.island := rfl
@[simp] theorem State.setUpset_tick (s : State) (g a : Nat) (u : Upset) : (s.setUpset g a u).tick = s.tick := rfl
@[simp] theorem State.setUpset_freeCount (s : State) (g a : Nat) (u : Upset) : (s.setUpset g a u).freeCount = s.freeCount := rfl
@[simp] theorem State.setUpset_emitted (s : State) (g a : Nat) (u : Upset) : (s.setUpset g a u).emitted = s.emitted := rfl
@[simp] theorem State.setUpset_pending (s : State) (g a : Nat) (u : Upset) : (s.setUpset g a u).pending = s.pending := rfl

@[simp] theorem State.setPtp_chip (s : State) (k : Nat) (x : PtpCfg) : (s.setPtp k x).chip = s.chip := rfl
@[simp] theorem State.setPtp_boot (s : State) (k : Nat) (x : PtpCfg) : (s.setPtp k x).boot = s.boot := rfl
@[simp] theorem State.setPtp_hcp (s : State) (k : Nat) (x : PtpCfg) : (s.setPtp k x).hcp = s.hcp := rfl
@[simp] theorem State.setPtp_time (s : State) (k : Nat) (x : PtpCfg) : (s.setPtp k x).time = s.time := rfl
@[simp] theorem State.setPtp_cal (s : State) (k : Nat) (x : PtpCfg) : (s.setPtp k x).cal = s.cal := rfl
@[simp] theorem State.setPtp_xfer (s : State) (k : Nat) (x : PtpCfg) : (s.setPtp k x).xfer = { s.xfer with ptp := tset {} s.xfer.ptp k x } := rfl
@[simp] theorem State.setPtp_lanes (s : State) (k : Nat) (x : PtpCfg) : (s.setPtp k x).lanes = s.lanes := rfl
@[simp] theorem State.setPtp_bgls (s : State) (k : Nat) (x : PtpCfg) : (s.setPtp k x).bgls = s.bgls := rfl
@[simp] theorem State.setPtp_dclks (s : State) (k : Nat) (x : PtpCfg) : (s.setPtp k x).dclks = s.dclks := rfl
@[simp] theorem State.setPtp_srefs (s : State) (k : Nat) (x : PtpCfg) : (s.setPtp k x).srefs = s.srefs := rfl
@[simp] theorem State.setPtp_jesds (s : State) (k : Nat) (x : PtpCfg) : (s.setPtp k x).jesds = s.jesds := rfl
@[simp] theorem State.setPtp_bglIns (s : State) (k : Nat) (x : PtpCfg) : (s.setPtp k x).bglIns = s.bglIns := rfl
@[simp] theorem State.setPtp_scps (s : State) (k : Nat) (x : PtpCfg) : (s.setPtp k x).scps = s.scps := rfl
@[simp] theorem State.setPtp_channels (s : State) (k : Nat) (x : PtpCfg) : (s.setPtp k x).channels = s.channels := rfl
@[simp] theorem State.setPtp_pipes (s : State) (k : Nat) (x : PtpCfg) : (s.setPtp k x).pipes = s.pipes := rfl
@[simp] theorem State.setPtp_profiles (s : State) (k : Nat) (x : PtpCfg) : (s.setPtp k x).profiles = s.profiles := rfl
@[simp] theorem State.setPtp_ledger (s : State) (k : Nat) (x : PtpCfg) : (s.setPtp k x).ledger = s.ledger := rfl
@[simp] theorem State.setPtp_cap (s : State) (k : Nat) (x : PtpCfg) : (s.setPtp k x).cap = s.cap := rfl
@[simp] theorem State.setPtp_comp (s : State) (k : Nat) (x : PtpCfg) : (s.setPtp k x).comp = s.comp := rfl
@[simp] theorem State.setPtp_strm (s : State) (k : Nat) (x : PtpCfg) : (s.setPtp k x).strm = s.strm := rfl
@[simp] theorem State.setPtp_upl (s : State) (k : Nat) (x : PtpCfg) : (s.setPtp k x).upl = s.upl := rfl
@[simp] theorem State.setPtp_flt (s : State) (k : Nat) (x : PtpCfg) : (s.setPtp k x).flt = s.flt := rfl
@[simp] theorem State.setPtp_island (s : State) (k : Nat) (x : PtpCfg) : (s.setPtp k x).island = s.island := rfl
@[simp] theorem State.setPtp_tick (s : State) (k : Nat) (x : PtpCfg) : (s.setPtp k x).tick = s.tick := rfl
@[simp] theorem State.setPtp_freeCount (s : State) (k : Nat) (x : PtpCfg) : (s.setPtp k x).freeCount = s.freeCount := rfl
@[simp] theorem State.setPtp_emitted (s : State) (k : Nat) (x : PtpCfg) : (s.setPtp k x).emitted = s.emitted := rfl
@[simp] theorem State.setPtp_pending (s : State) (k : Nat) (x : PtpCfg) : (s.setPtp k x).pending = s.pending := rfl

@[simp] theorem State.setPhase12_chip (s : State) (l : Nat) (x : Phase12) : (s.setPhase12 l x).chip = s.chip := rfl
@[simp] theorem State.setPhase12_boot (s : State) (l : Nat) (x : Phase12) : (s.setPhase12 l x).boot = s.boot := rfl
@[simp] theorem State.setPhase12_hcp (s : State) (l : Nat) (x : Phase12) : (s.setPhase12 l x).hcp = s.hcp := rfl
@[simp] theorem State.setPhase12_time (s : State) (l : Nat) (x : Phase12) : (s.setPhase12 l x).time = s.time := rfl
@[simp] theorem State.setPhase12_cal (s : State) (l : Nat) (x : Phase12) : (s.setPhase12 l x).cal = s.cal := rfl
@[simp] theorem State.setPhase12_xfer (s : State) (l : Nat) (x : Phase12) : (s.setPhase12 l x).xfer = { s.xfer with phases := tset {} s.xfer.phases l x } := rfl
@[simp] theorem State.setPhase12_lanes (s : State) (l : Nat) (x : Phase12) : (s.setPhase12 l x).lanes = s.lanes := rfl
@[simp] theorem State.setPhase12_bgls (s : State) (l : Nat) (x : Phase12) : (s.setPhase12 l x).bgls = s.bgls := rfl
@[simp] theorem State.setPhase12_dclks (s : State) (l : Nat) (x : Phase12) : (s.setPhase12 l x).dclks = s.dclks := rfl
@[simp] theorem State.setPhase12_srefs (s : State) (l : Nat) (x : Phase12) : (s.setPhase12 l x).srefs = s.srefs := rfl
@[simp] theorem State.setPhase12_jesds (s : State) (l : Nat) (x : Phase12) : (s.setPhase12 l x).jesds = s.jesds := rfl
@[simp] theorem State.setPhase12_bglIns (s : State) (l : Nat) (x : Phase12) : (s.setPhase12 l x).bglIns = s.bglIns := rfl
@[simp] theorem State.setPhase12_scps (s : State) (l : Nat) (x : Phase12) : (s.setPhase12 l x).scps = s.scps := rfl
@[simp] theorem State.setPhase12_channels (s : State) (l : Nat) (x : Phase12) : (s.setPhase12 l x).channels = s.channels := rfl
@[simp] theorem State.setPhase12_pipes (s : State) (l : Nat) (x : Phase12) : (s.setPhase12 l x).pipes = s.pipes := rfl
@[simp] theorem State.setPhase12_profiles (s : State) (l : Nat) (x : Phase12) : (s.setPhase12 l x).profiles = s.profiles := rfl
@[simp] theorem State.setPhase12_ledger (s : State) (l : Nat) (x : Phase12) : (s.setPhase12 l x).ledger = s.ledger := rfl
@[simp] theorem State.setPhase12_cap (s : State) (l : Nat) (x : Phase12) : (s.setPhase12 l x).cap = s.cap := rfl
@[simp] theorem State.setPhase12_comp (s : State) (l : Nat) (x : Phase12) : (s.setPhase12 l x).comp = s.comp := rfl
@[simp] theorem State.setPhase12_strm (s : State) (l : Nat) (x : Phase12) : (s.setPhase12 l x).strm = s.strm := rfl
@[simp] theorem State.setPhase12_upl (s : State) (l : Nat) (x : Phase12) : (s.setPhase12 l x).upl = s.upl := rfl
@[simp] theorem State.setPhase12_flt (s : State) (l : Nat) (x : Phase12) : (s.setPhase12 l x).flt = s.flt := rfl
@[simp] theorem State.setPhase12_island (s : State) (l : Nat) (x : Phase12) : (s.setPhase12 l x).island = s.island := rfl
@[simp] theorem State.setPhase12_tick (s : State) (l : Nat) (x : Phase12) : (s.setPhase12 l x).tick = s.tick := rfl
@[simp] theorem State.setPhase12_freeCount (s : State) (l : Nat) (x : Phase12) : (s.setPhase12 l x).freeCount = s.freeCount := rfl
@[simp] theorem State.setPhase12_emitted (s : State) (l : Nat) (x : Phase12) : (s.setPhase12 l x).emitted = s.emitted := rfl
@[simp] theorem State.setPhase12_pending (s : State) (l : Nat) (x : Phase12) : (s.setPhase12 l x).pending = s.pending := rfl

@[simp] theorem State.setJobQueue_chip (s : State) (u : Nat) (q : List Job) : (s.setJobQueue u q).chip = s.chip := rfl
@[simp] theorem State.setJobQueue_boot (s : State) (u : Nat) (q : List Job) : (s.setJobQueue u q).boot = s.boot := rfl
@[simp] theorem State.setJobQueue_hcp (s : State) (u : Nat) (q : List Job) : (s.setJobQueue u q).hcp = s.hcp := rfl
@[simp] theorem State.setJobQueue_time (s : State) (u : Nat) (q : List Job) : (s.setJobQueue u q).time = s.time := rfl
@[simp] theorem State.setJobQueue_cal (s : State) (u : Nat) (q : List Job) : (s.setJobQueue u q).cal = s.cal := rfl
@[simp] theorem State.setJobQueue_xfer (s : State) (u : Nat) (q : List Job) : (s.setJobQueue u q).xfer = s.xfer := rfl
@[simp] theorem State.setJobQueue_lanes (s : State) (u : Nat) (q : List Job) : (s.setJobQueue u q).lanes = s.lanes := rfl
@[simp] theorem State.setJobQueue_bgls (s : State) (u : Nat) (q : List Job) : (s.setJobQueue u q).bgls = s.bgls := rfl
@[simp] theorem State.setJobQueue_dclks (s : State) (u : Nat) (q : List Job) : (s.setJobQueue u q).dclks = s.dclks := rfl
@[simp] theorem State.setJobQueue_srefs (s : State) (u : Nat) (q : List Job) : (s.setJobQueue u q).srefs = s.srefs := rfl
@[simp] theorem State.setJobQueue_jesds (s : State) (u : Nat) (q : List Job) : (s.setJobQueue u q).jesds = s.jesds := rfl
@[simp] theorem State.setJobQueue_bglIns (s : State) (u : Nat) (q : List Job) : (s.setJobQueue u q).bglIns = s.bglIns := rfl
@[simp] theorem State.setJobQueue_scps (s : State) (u : Nat) (q : List Job) : (s.setJobQueue u q).scps = s.scps := rfl
@[simp] theorem State.setJobQueue_channels (s : State) (u : Nat) (q : List Job) : (s.setJobQueue u q).channels = s.channels := rfl
@[simp] theorem State.setJobQueue_pipes (s : State) (u : Nat) (q : List Job) : (s.setJobQueue u q).pipes = s.pipes := rfl
@[simp] theorem State.setJobQueue_profiles (s : State) (u : Nat) (q : List Job) : (s.setJobQueue u q).profiles = s.profiles := rfl
@[simp] theorem State.setJobQueue_ledger (s : State) (u : Nat) (q : List Job) : (s.setJobQueue u q).ledger = s.ledger := rfl
@[simp] theorem State.setJobQueue_cap (s : State) (u : Nat) (q : List Job) : (s.setJobQueue u q).cap = s.cap := rfl
@[simp] theorem State.setJobQueue_comp (s : State) (u : Nat) (q : List Job) : (s.setJobQueue u q).comp = { s.comp with queues := tset [] s.comp.queues u q } := rfl
@[simp] theorem State.setJobQueue_strm (s : State) (u : Nat) (q : List Job) : (s.setJobQueue u q).strm = s.strm := rfl
@[simp] theorem State.setJobQueue_upl (s : State) (u : Nat) (q : List Job) : (s.setJobQueue u q).upl = s.upl := rfl
@[simp] theorem State.setJobQueue_flt (s : State) (u : Nat) (q : List Job) : (s.setJobQueue u q).flt = s.flt := rfl
@[simp] theorem State.setJobQueue_island (s : State) (u : Nat) (q : List Job) : (s.setJobQueue u q).island = s.island := rfl
@[simp] theorem State.setJobQueue_tick (s : State) (u : Nat) (q : List Job) : (s.setJobQueue u q).tick = s.tick := rfl
@[simp] theorem State.setJobQueue_freeCount (s : State) (u : Nat) (q : List Job) : (s.setJobQueue u q).freeCount = s.freeCount := rfl
@[simp] theorem State.setJobQueue_emitted (s : State) (u : Nat) (q : List Job) : (s.setJobQueue u q).emitted = s.emitted := rfl
@[simp] theorem State.setJobQueue_pending (s : State) (u : Nat) (q : List Job) : (s.setJobQueue u q).pending = s.pending := rfl

@[simp] theorem State.setJobRunning_chip (s : State) (u : Nat) (j : Option Job) : (s.setJobRunning u j).chip = s.chip := rfl
@[simp] theorem State.setJobRunning_boot (s : State) (u : Nat) (j : Option Job) : (s.setJobRunning u j).boot = s.boot := rfl
@[simp] theorem State.setJobRunning_hcp (s : State) (u : Nat) (j : Option Job) : (s.setJobRunning u j).hcp = s.hcp := rfl
@[simp] theorem State.setJobRunning_time (s : State) (u : Nat) (j : Option Job) : (s.setJobRunning u j).time = s.time := rfl
@[simp] theorem State.setJobRunning_cal (s : State) (u : Nat) (j : Option Job) : (s.setJobRunning u j).cal = s.cal := rfl
@[simp] theorem State.setJobRunning_xfer (s : State) (u : Nat) (j : Option Job) : (s.setJobRunning u j).xfer = s.xfer := rfl
@[simp] theorem State.setJobRunning_lanes (s : State) (u : Nat) (j : Option Job) : (s.setJobRunning u j).lanes = s.lanes := rfl
@[simp] theorem State.setJobRunning_bgls (s : State) (u : Nat) (j : Option Job) : (s.setJobRunning u j).bgls = s.bgls := rfl
@[simp] theorem State.setJobRunning_dclks (s : State) (u : Nat) (j : Option Job) : (s.setJobRunning u j).dclks = s.dclks := rfl
@[simp] theorem State.setJobRunning_srefs (s : State) (u : Nat) (j : Option Job) : (s.setJobRunning u j).srefs = s.srefs := rfl
@[simp] theorem State.setJobRunning_jesds (s : State) (u : Nat) (j : Option Job) : (s.setJobRunning u j).jesds = s.jesds := rfl
@[simp] theorem State.setJobRunning_bglIns (s : State) (u : Nat) (j : Option Job) : (s.setJobRunning u j).bglIns = s.bglIns := rfl
@[simp] theorem State.setJobRunning_scps (s : State) (u : Nat) (j : Option Job) : (s.setJobRunning u j).scps = s.scps := rfl
@[simp] theorem State.setJobRunning_channels (s : State) (u : Nat) (j : Option Job) : (s.setJobRunning u j).channels = s.channels := rfl
@[simp] theorem State.setJobRunning_pipes (s : State) (u : Nat) (j : Option Job) : (s.setJobRunning u j).pipes = s.pipes := rfl
@[simp] theorem State.setJobRunning_profiles (s : State) (u : Nat) (j : Option Job) : (s.setJobRunning u j).profiles = s.profiles := rfl
@[simp] theorem State.setJobRunning_ledger (s : State) (u : Nat) (j : Option Job) : (s.setJobRunning u j).ledger = s.ledger := rfl
@[simp] theorem State.setJobRunning_cap (s : State) (u : Nat) (j : Option Job) : (s.setJobRunning u j).cap = s.cap := rfl
@[simp] theorem State.setJobRunning_comp (s : State) (u : Nat) (j : Option Job) : (s.setJobRunning u j).comp = { s.comp with running := tset none s.comp.running u j } := rfl
@[simp] theorem State.setJobRunning_strm (s : State) (u : Nat) (j : Option Job) : (s.setJobRunning u j).strm = s.strm := rfl
@[simp] theorem State.setJobRunning_upl (s : State) (u : Nat) (j : Option Job) : (s.setJobRunning u j).upl = s.upl := rfl
@[simp] theorem State.setJobRunning_flt (s : State) (u : Nat) (j : Option Job) : (s.setJobRunning u j).flt = s.flt := rfl
@[simp] theorem State.setJobRunning_island (s : State) (u : Nat) (j : Option Job) : (s.setJobRunning u j).island = s.island := rfl
@[simp] theorem State.setJobRunning_tick (s : State) (u : Nat) (j : Option Job) : (s.setJobRunning u j).tick = s.tick := rfl
@[simp] theorem State.setJobRunning_freeCount (s : State) (u : Nat) (j : Option Job) : (s.setJobRunning u j).freeCount = s.freeCount := rfl
@[simp] theorem State.setJobRunning_emitted (s : State) (u : Nat) (j : Option Job) : (s.setJobRunning u j).emitted = s.emitted := rfl
@[simp] theorem State.setJobRunning_pending (s : State) (u : Nat) (j : Option Job) : (s.setJobRunning u j).pending = s.pending := rfl

@[simp] theorem State.setJobStopped_chip (s : State) (n : Nat) (j : Option Job) (p : Bytes) : (s.setJobStopped n j p).chip = s.chip := rfl
@[simp] theorem State.setJobStopped_boot (s : State) (n : Nat) (j : Option Job) (p : Bytes) : (s.setJobStopped n j p).boot = s.boot := rfl
@[simp] theorem State.setJobStopped_hcp (s : State) (n : Nat) (j : Option Job) (p : Bytes) : (s.setJobStopped n j p).hcp = s.hcp := rfl
@[simp] theorem State.setJobStopped_time (s : State) (n : Nat) (j : Option Job) (p : Bytes) : (s.setJobStopped n j p).time = s.time := rfl
@[simp] theorem State.setJobStopped_cal (s : State) (n : Nat) (j : Option Job) (p : Bytes) : (s.setJobStopped n j p).cal = s.cal := rfl
@[simp] theorem State.setJobStopped_xfer (s : State) (n : Nat) (j : Option Job) (p : Bytes) : (s.setJobStopped n j p).xfer = s.xfer := rfl
@[simp] theorem State.setJobStopped_lanes (s : State) (n : Nat) (j : Option Job) (p : Bytes) : (s.setJobStopped n j p).lanes = s.lanes := rfl
@[simp] theorem State.setJobStopped_bgls (s : State) (n : Nat) (j : Option Job) (p : Bytes) : (s.setJobStopped n j p).bgls = s.bgls := rfl
@[simp] theorem State.setJobStopped_dclks (s : State) (n : Nat) (j : Option Job) (p : Bytes) : (s.setJobStopped n j p).dclks = s.dclks := rfl
@[simp] theorem State.setJobStopped_srefs (s : State) (n : Nat) (j : Option Job) (p : Bytes) : (s.setJobStopped n j p).srefs = s.srefs := rfl
@[simp] theorem State.setJobStopped_jesds (s : State) (n : Nat) (j : Option Job) (p : Bytes) : (s.setJobStopped n j p).jesds = s.jesds := rfl
@[simp] theorem State.setJobStopped_bglIns (s : State) (n : Nat) (j : Option Job) (p : Bytes) : (s.setJobStopped n j p).bglIns = s.bglIns := rfl
@[simp] theorem State.setJobStopped_scps (s : State) (n : Nat) (j : Option Job) (p : Bytes) : (s.setJobStopped n j p).scps = s.scps := rfl
@[simp] theorem State.setJobStopped_channels (s : State) (n : Nat) (j : Option Job) (p : Bytes) : (s.setJobStopped n j p).channels = s.channels := rfl
@[simp] theorem State.setJobStopped_pipes (s : State) (n : Nat) (j : Option Job) (p : Bytes) : (s.setJobStopped n j p).pipes = s.pipes := rfl
@[simp] theorem State.setJobStopped_profiles (s : State) (n : Nat) (j : Option Job) (p : Bytes) : (s.setJobStopped n j p).profiles = s.profiles := rfl
@[simp] theorem State.setJobStopped_ledger (s : State) (n : Nat) (j : Option Job) (p : Bytes) : (s.setJobStopped n j p).ledger = s.ledger := rfl
@[simp] theorem State.setJobStopped_cap (s : State) (n : Nat) (j : Option Job) (p : Bytes) : (s.setJobStopped n j p).cap = s.cap := rfl
@[simp] theorem State.setJobStopped_comp (s : State) (n : Nat) (j : Option Job) (p : Bytes) : (s.setJobStopped n j p).comp = { s.comp with
    stopped := tset none s.comp.stopped n j, stops := tset [] s.comp.stops n p } := rfl
@[simp] theorem State.setJobStopped_strm (s : State) (n : Nat) (j : Option Job) (p : Bytes) : (s.setJobStopped n j p).strm = s.strm := rfl
@[simp] theorem State.setJobStopped_upl (s : State) (n : Nat) (j : Option Job) (p : Bytes) : (s.setJobStopped n j p).upl = s.upl := rfl
@[simp] theorem State.setJobStopped_flt (s : State) (n : Nat) (j : Option Job) (p : Bytes) : (s.setJobStopped n j p).flt = s.flt := rfl
@[simp] theorem State.setJobStopped_island (s : State) (n : Nat) (j : Option Job) (p : Bytes) : (s.setJobStopped n j p).island = s.island := rfl
@[simp] theorem State.setJobStopped_tick (s : State) (n : Nat) (j : Option Job) (p : Bytes) : (s.setJobStopped n j p).tick = s.tick := rfl
@[simp] theorem State.setJobStopped_freeCount (s : State) (n : Nat) (j : Option Job) (p : Bytes) : (s.setJobStopped n j p).freeCount = s.freeCount := rfl
@[simp] theorem State.setJobStopped_emitted (s : State) (n : Nat) (j : Option Job) (p : Bytes) : (s.setJobStopped n j p).emitted = s.emitted := rfl
@[simp] theorem State.setJobStopped_pending (s : State) (n : Nat) (j : Option Job) (p : Bytes) : (s.setJobStopped n j p).pending = s.pending := rfl

@[simp] theorem State.draw_chip (s : State) : s.draw.2.chip = s.chip := rfl
@[simp] theorem State.draw_boot (s : State) : s.draw.2.boot = s.boot := rfl
@[simp] theorem State.draw_hcp (s : State) : s.draw.2.hcp = s.hcp := rfl
@[simp] theorem State.draw_time (s : State) : s.draw.2.time = s.time := rfl
@[simp] theorem State.draw_cal (s : State) : s.draw.2.cal = s.cal := rfl
@[simp] theorem State.draw_xfer (s : State) : s.draw.2.xfer = s.xfer := rfl
@[simp] theorem State.draw_lanes (s : State) : s.draw.2.lanes = s.lanes := rfl
@[simp] theorem State.draw_bgls (s : State) : s.draw.2.bgls = s.bgls := rfl
@[simp] theorem State.draw_dclks (s : State) : s.draw.2.dclks = s.dclks := rfl
@[simp] theorem State.draw_srefs (s : State) : s.draw.2.srefs = s.srefs := rfl
@[simp] theorem State.draw_jesds (s : State) : s.draw.2.jesds = s.jesds := rfl
@[simp] theorem State.draw_bglIns (s : State) : s.draw.2.bglIns = s.bglIns := rfl
@[simp] theorem State.draw_scps (s : State) : s.draw.2.scps = s.scps := rfl
@[simp] theorem State.draw_channels (s : State) : s.draw.2.channels = s.channels := rfl
@[simp] theorem State.draw_pipes (s : State) : s.draw.2.pipes = s.pipes := rfl
@[simp] theorem State.draw_profiles (s : State) : s.draw.2.profiles = s.profiles := rfl
@[simp] theorem State.draw_ledger (s : State) : s.draw.2.ledger = s.ledger := rfl
@[simp] theorem State.draw_cap (s : State) : s.draw.2.cap = s.cap := rfl
@[simp] theorem State.draw_comp (s : State) : s.draw.2.comp = s.comp := rfl
@[simp] theorem State.draw_strm (s : State) : s.draw.2.strm = s.strm := rfl
@[simp] theorem State.draw_upl (s : State) : s.draw.2.upl = s.upl := rfl
@[simp] theorem State.draw_flt (s : State) : s.draw.2.flt = s.flt := rfl
@[simp] theorem State.draw_island (s : State) : s.draw.2.island = s.island := rfl
@[simp] theorem State.draw_tick (s : State) : s.draw.2.tick = s.tick := rfl
@[simp] theorem State.draw_freeCount (s : State) : s.draw.2.freeCount = s.freeCount + 1 := rfl
@[simp] theorem State.draw_emitted (s : State) : s.draw.2.emitted = s.emitted := rfl
@[simp] theorem State.draw_pending (s : State) : s.draw.2.pending = s.pending := rfl

end Sys2Proof.Machine
end

