-- ==== Sys2Proof/Laws/Notices.lean ====
section
/-! SUPPORT. Notices, responses and slots change the mailboxes and what waits for them alone. -/

namespace Sys2Proof.Machine

/-- `t` is `s` but for the mailboxes, the notice log and what waits for them. -/
def HcpOnly (s t : State) : Prop :=
  t = { s with hcp := { t.hcp with
    msixTable := s.hcp.msixTable, captured := s.hcp.captured, capturedQ := s.hcp.capturedQ, spiGo := s.hcp.spiGo
    spiReady := s.hcp.spiReady, spiReq := s.hcp.spiReq, spiRsp := s.hcp.spiRsp, partials := s.hcp.partials
    mgmtErrors := s.hcp.mgmtErrors } }

theorem HcpOnly.refl (s : State) : HcpOnly s s := rfl

theorem HcpOnly.trans {s t u : State} (h : HcpOnly s t) (k : HcpOnly t u) : HcpOnly s u := by
  unfold HcpOnly at *; rw [k, h]

theorem HcpOnly.setMb (s : State) (m : Nat) (x : Mailbox) : HcpOnly s (s.setMb m x) := rfl

theorem HcpOnly.forEach {α : Type} (f : α → State → State) (h : ∀ x s, HcpOnly s (f x s)) (xs : List α) :
    ∀ s, HcpOnly s (forEach xs f s) := by
  induction xs with
  | nil => intro s; exact .refl s
  | cons x xs ih => intro s; exact (h x s).trans (ih (f x s))

theorem notifyOne_hcp (o : Nat) (p : Bytes) (m : Nat) (s : State) : HcpOnly s (notifyOne o p m s) := by
  unfold notifyOne; split <;> rfl

theorem notify_hcp (o : Nat) (p : Bytes) (s : State) : HcpOnly s (notify o p s) := by
  unfold notify
  split
  · exact HcpOnly.forEach _ (fun m t => notifyOne_hcp o p m t) _ s
  · split <;> rfl

theorem returnSlot_hcp (m n : Nat) (s : State) : HcpOnly s (returnSlot m n s) := rfl

theorem completeNow_hcp (j : JobRef) (st d : Nat) (p : Bytes) (s : State) : HcpOnly s (completeNow j st d p s) := by
  unfold completeNow; dsimp only; split
  · rfl
  · refine HcpOnly.trans (t := _) ?_ (returnSlot_hcp _ _ _); rfl

theorem complete_hcp (j : JobRef) (st d : Nat) (p : Bytes) (s : State) : HcpOnly s (complete j st d p s) := by
  unfold complete; split
  · exact completeNow_hcp ..
  · rfl

theorem releaseFrom_hcp (n : Nat) (s : State) : HcpOnly s (releaseFrom n s) := by
  unfold releaseFrom
  refine HcpOnly.trans (t := { s with hcp := { s.hcp with held := s.hcp.held.take n } }) rfl
    (HcpOnly.forEach _ (fun h t => ?_) _ _)
  cases h
  · exact notify_hcp ..
  · exact complete_hcp ..

/-- A request that holds nothing back releases nothing. -/
theorem releaseFrom_all (n : Nat) (s : State) (h : s.hcp.held.length ≤ n) : releaseFrom n s = s := by
  unfold releaseFrom
  rw [List.drop_eq_nil_of_le h, List.take_of_length_le h]
  rfl

theorem takeJob_hcp (o : Nat) (r : Req) (s : State) : HcpOnly s (takeJob o r s).2 := rfl

theorem respond_hcp (m : Nat) (h t : W32) (o : Nat) (re : Bool) (a : Ans) (s : State) : HcpOnly s (respond m h t o re a s) := rfl

theorem acceptReq_hcp (o : Nat) (r : Req) (s : State) : HcpOnly s (acceptReq o r s) := rfl

theorem storeAnswer_hcp (o : Nat) (r : Req) (a : Ans) (s : State) : HcpOnly s (storeAnswer o r a s) := rfl

theorem tellBounds_hcp (h : Nat) (i : Option Nat) (old new : State) : HcpOnly new (tellBounds h i old new) := by
  unfold tellBounds
  refine HcpOnly.forEach _ (fun p t => ?_) _ new
  split
  · refine HcpOnly.trans ?_ (HcpOnly.forEach _ (fun m u => notifyOne_hcp ..) _ _)
    split
    · split
      · exact notifyOne_hcp ..
      · exact .refl _
    · exact .refl _
  · exact notify_hcp ..

theorem ledgerNotice_hcp (old new : State) : HcpOnly new (ledgerNotice old new) := tellBounds_hcp ..

theorem faultEvent_hcp (d : Detected) (b : Byte) (s : State) : HcpOnly s (faultEvent d b s) := notify_hcp ..

/-! ## Field by field -/

theorem HcpOnly.ports {s t : State} (h : HcpOnly s t) : t.hcp.ports = s.hcp.ports :=
  (congrArg (fun x : State => x.hcp.ports) h).trans rfl
theorem HcpOnly.chip {s t : State} (h : HcpOnly s t) : t.chip = s.chip := (congrArg State.chip h).trans rfl
theorem HcpOnly.boot {s t : State} (h : HcpOnly s t) : t.boot = s.boot := (congrArg State.boot h).trans rfl
theorem HcpOnly.time {s t : State} (h : HcpOnly s t) : t.time = s.time := (congrArg State.time h).trans rfl
theorem HcpOnly.cal {s t : State} (h : HcpOnly s t) : t.cal = s.cal := (congrArg State.cal h).trans rfl
theorem HcpOnly.xfer {s t : State} (h : HcpOnly s t) : t.xfer = s.xfer := (congrArg State.xfer h).trans rfl
theorem HcpOnly.lanes {s t : State} (h : HcpOnly s t) : t.lanes = s.lanes := (congrArg State.lanes h).trans rfl
theorem HcpOnly.bgls {s t : State} (h : HcpOnly s t) : t.bgls = s.bgls := (congrArg State.bgls h).trans rfl
theorem HcpOnly.dclks {s t : State} (h : HcpOnly s t) : t.dclks = s.dclks := (congrArg State.dclks h).trans rfl
theorem HcpOnly.srefs {s t : State} (h : HcpOnly s t) : t.srefs = s.srefs := (congrArg State.srefs h).trans rfl
theorem HcpOnly.jesds {s t : State} (h : HcpOnly s t) : t.jesds = s.jesds := (congrArg State.jesds h).trans rfl
theorem HcpOnly.bglIns {s t : State} (h : HcpOnly s t) : t.bglIns = s.bglIns := (congrArg State.bglIns h).trans rfl
theorem HcpOnly.scps {s t : State} (h : HcpOnly s t) : t.scps = s.scps := (congrArg State.scps h).trans rfl
theorem HcpOnly.channels {s t : State} (h : HcpOnly s t) : t.channels = s.channels := (congrArg State.channels h).trans rfl
theorem HcpOnly.pipes {s t : State} (h : HcpOnly s t) : t.pipes = s.pipes := (congrArg State.pipes h).trans rfl
theorem HcpOnly.profiles {s t : State} (h : HcpOnly s t) : t.profiles = s.profiles := (congrArg State.profiles h).trans rfl
theorem HcpOnly.ledger {s t : State} (h : HcpOnly s t) : t.ledger = s.ledger := (congrArg State.ledger h).trans rfl
theorem HcpOnly.cap {s t : State} (h : HcpOnly s t) : t.cap = s.cap := (congrArg State.cap h).trans rfl
theorem HcpOnly.comp {s t : State} (h : HcpOnly s t) : t.comp = s.comp := (congrArg State.comp h).trans rfl
theorem HcpOnly.strm {s t : State} (h : HcpOnly s t) : t.strm = s.strm := (congrArg State.strm h).trans rfl
theorem HcpOnly.upl {s t : State} (h : HcpOnly s t) : t.upl = s.upl := (congrArg State.upl h).trans rfl
theorem HcpOnly.flt {s t : State} (h : HcpOnly s t) : t.flt = s.flt := (congrArg State.flt h).trans rfl
theorem HcpOnly.island {s t : State} (h : HcpOnly s t) : t.island = s.island := (congrArg State.island h).trans rfl
theorem HcpOnly.tick {s t : State} (h : HcpOnly s t) : t.tick = s.tick := (congrArg State.tick h).trans rfl
theorem HcpOnly.freeCount {s t : State} (h : HcpOnly s t) : t.freeCount = s.freeCount := (congrArg State.freeCount h).trans rfl
theorem HcpOnly.emitted {s t : State} (h : HcpOnly s t) : t.emitted = s.emitted := (congrArg State.emitted h).trans rfl
theorem HcpOnly.pending {s t : State} (h : HcpOnly s t) : t.pending = s.pending := (congrArg State.pending h).trans rfl

@[simp] theorem notifyOne_chip (o : Nat) (p : Bytes) (m : Nat) (s : State) : (notifyOne o p m s).chip = s.chip := (notifyOne_hcp ..).chip
@[simp] theorem notifyOne_boot (o : Nat) (p : Bytes) (m : Nat) (s : State) : (notifyOne o p m s).boot = s.boot := (notifyOne_hcp ..).boot
@[simp] theorem notifyOne_time (o : Nat) (p : Bytes) (m : Nat) (s : State) : (notifyOne o p m s).time = s.time := (notifyOne_hcp ..).time
@[simp] theorem notifyOne_cal (o : Nat) (p : Bytes) (m : Nat) (s : State) : (notifyOne o p m s).cal = s.cal := (notifyOne_hcp ..).cal
@[simp] theorem notifyOne_xfer (o : Nat) (p : Bytes) (m : Nat) (s : State) : (notifyOne o p m s).xfer = s.xfer := (notifyOne_hcp ..).xfer
@[simp] theorem notifyOne_lanes (o : Nat) (p : Bytes) (m : Nat) (s : State) : (notifyOne o p m s).lanes = s.lanes := (notifyOne_hcp ..).lanes
@[simp] theorem notifyOne_bgls (o : Nat) (p : Bytes) (m : Nat) (s : State) : (notifyOne o p m s).bgls = s.bgls := (notifyOne_hcp ..).bgls
@[simp] theorem notifyOne_dclks (o : Nat) (p : Bytes) (m : Nat) (s : State) : (notifyOne o p m s).dclks = s.dclks := (notifyOne_hcp ..).dclks
@[simp] theorem notifyOne_srefs (o : Nat) (p : Bytes) (m : Nat) (s : State) : (notifyOne o p m s).srefs = s.srefs := (notifyOne_hcp ..).srefs
@[simp] theorem notifyOne_jesds (o : Nat) (p : Bytes) (m : Nat) (s : State) : (notifyOne o p m s).jesds = s.jesds := (notifyOne_hcp ..).jesds
@[simp] theorem notifyOne_bglIns (o : Nat) (p : Bytes) (m : Nat) (s : State) : (notifyOne o p m s).bglIns = s.bglIns := (notifyOne_hcp ..).bglIns
@[simp] theorem notifyOne_scps (o : Nat) (p : Bytes) (m : Nat) (s : State) : (notifyOne o p m s).scps = s.scps := (notifyOne_hcp ..).scps
@[simp] theorem notifyOne_channels (o : Nat) (p : Bytes) (m : Nat) (s : State) : (notifyOne o p m s).channels = s.channels := (notifyOne_hcp ..).channels
@[simp] theorem notifyOne_pipes (o : Nat) (p : Bytes) (m : Nat) (s : State) : (notifyOne o p m s).pipes = s.pipes := (notifyOne_hcp ..).pipes
@[simp] theorem notifyOne_profiles (o : Nat) (p : Bytes) (m : Nat) (s : State) : (notifyOne o p m s).profiles = s.profiles := (notifyOne_hcp ..).profiles
@[simp] theorem notifyOne_ledger (o : Nat) (p : Bytes) (m : Nat) (s : State) : (notifyOne o p m s).ledger = s.ledger := (notifyOne_hcp ..).ledger
@[simp] theorem notifyOne_cap (o : Nat) (p : Bytes) (m : Nat) (s : State) : (notifyOne o p m s).cap = s.cap := (notifyOne_hcp ..).cap
@[simp] theorem notifyOne_comp (o : Nat) (p : Bytes) (m : Nat) (s : State) : (notifyOne o p m s).comp = s.comp := (notifyOne_hcp ..).comp
@[simp] theorem notifyOne_strm (o : Nat) (p : Bytes) (m : Nat) (s : State) : (notifyOne o p m s).strm = s.strm := (notifyOne_hcp ..).strm
@[simp] theorem notifyOne_upl (o : Nat) (p : Bytes) (m : Nat) (s : State) : (notifyOne o p m s).upl = s.upl := (notifyOne_hcp ..).upl
@[simp] theorem notifyOne_flt (o : Nat) (p : Bytes) (m : Nat) (s : State) : (notifyOne o p m s).flt = s.flt := (notifyOne_hcp ..).flt
@[simp] theorem notifyOne_island (o : Nat) (p : Bytes) (m : Nat) (s : State) : (notifyOne o p m s).island = s.island := (notifyOne_hcp ..).island
@[simp] theorem notifyOne_tick (o : Nat) (p : Bytes) (m : Nat) (s : State) : (notifyOne o p m s).tick = s.tick := (notifyOne_hcp ..).tick
@[simp] theorem notifyOne_freeCount (o : Nat) (p : Bytes) (m : Nat) (s : State) : (notifyOne o p m s).freeCount = s.freeCount := (notifyOne_hcp ..).freeCount
@[simp] theorem notifyOne_emitted (o : Nat) (p : Bytes) (m : Nat) (s : State) : (notifyOne o p m s).emitted = s.emitted := (notifyOne_hcp ..).emitted
@[simp] theorem notifyOne_pending (o : Nat) (p : Bytes) (m : Nat) (s : State) : (notifyOne o p m s).pending = s.pending := (notifyOne_hcp ..).pending
@[simp] theorem notifyOne_ports (o : Nat) (p : Bytes) (m : Nat) (s : State) : (notifyOne o p m s).hcp.ports = s.hcp.ports := (notifyOne_hcp ..).ports

@[simp] theorem notify_chip (o : Nat) (p : Bytes) (s : State) : (notify o p s).chip = s.chip := (notify_hcp ..).chip
@[simp] theorem notify_boot (o : Nat) (p : Bytes) (s : State) : (notify o p s).boot = s.boot := (notify_hcp ..).boot
@[simp] theorem notify_time (o : Nat) (p : Bytes) (s : State) : (notify o p s).time = s.time := (notify_hcp ..).time
@[simp] theorem notify_cal (o : Nat) (p : Bytes) (s : State) : (notify o p s).cal = s.cal := (notify_hcp ..).cal
@[simp] theorem notify_xfer (o : Nat) (p : Bytes) (s : State) : (notify o p s).xfer = s.xfer := (notify_hcp ..).xfer
@[simp] theorem notify_lanes (o : Nat) (p : Bytes) (s : State) : (notify o p s).lanes = s.lanes := (notify_hcp ..).lanes
@[simp] theorem notify_bgls (o : Nat) (p : Bytes) (s : State) : (notify o p s).bgls = s.bgls := (notify_hcp ..).bgls
@[simp] theorem notify_dclks (o : Nat) (p : Bytes) (s : State) : (notify o p s).dclks = s.dclks := (notify_hcp ..).dclks
@[simp] theorem notify_srefs (o : Nat) (p : Bytes) (s : State) : (notify o p s).srefs = s.srefs := (notify_hcp ..).srefs
@[simp] theorem notify_jesds (o : Nat) (p : Bytes) (s : State) : (notify o p s).jesds = s.jesds := (notify_hcp ..).jesds
@[simp] theorem notify_bglIns (o : Nat) (p : Bytes) (s : State) : (notify o p s).bglIns = s.bglIns := (notify_hcp ..).bglIns
@[simp] theorem notify_scps (o : Nat) (p : Bytes) (s : State) : (notify o p s).scps = s.scps := (notify_hcp ..).scps
@[simp] theorem notify_channels (o : Nat) (p : Bytes) (s : State) : (notify o p s).channels = s.channels := (notify_hcp ..).channels
@[simp] theorem notify_pipes (o : Nat) (p : Bytes) (s : State) : (notify o p s).pipes = s.pipes := (notify_hcp ..).pipes
@[simp] theorem notify_profiles (o : Nat) (p : Bytes) (s : State) : (notify o p s).profiles = s.profiles := (notify_hcp ..).profiles
@[simp] theorem notify_ledger (o : Nat) (p : Bytes) (s : State) : (notify o p s).ledger = s.ledger := (notify_hcp ..).ledger
@[simp] theorem notify_cap (o : Nat) (p : Bytes) (s : State) : (notify o p s).cap = s.cap := (notify_hcp ..).cap
@[simp] theorem notify_comp (o : Nat) (p : Bytes) (s : State) : (notify o p s).comp = s.comp := (notify_hcp ..).comp
@[simp] theorem notify_strm (o : Nat) (p : Bytes) (s : State) : (notify o p s).strm = s.strm := (notify_hcp ..).strm
@[simp] theorem notify_upl (o : Nat) (p : Bytes) (s : State) : (notify o p s).upl = s.upl := (notify_hcp ..).upl
@[simp] theorem notify_flt (o : Nat) (p : Bytes) (s : State) : (notify o p s).flt = s.flt := (notify_hcp ..).flt
@[simp] theorem notify_island (o : Nat) (p : Bytes) (s : State) : (notify o p s).island = s.island := (notify_hcp ..).island
@[simp] theorem notify_tick (o : Nat) (p : Bytes) (s : State) : (notify o p s).tick = s.tick := (notify_hcp ..).tick
@[simp] theorem notify_freeCount (o : Nat) (p : Bytes) (s : State) : (notify o p s).freeCount = s.freeCount := (notify_hcp ..).freeCount
@[simp] theorem notify_emitted (o : Nat) (p : Bytes) (s : State) : (notify o p s).emitted = s.emitted := (notify_hcp ..).emitted
@[simp] theorem notify_pending (o : Nat) (p : Bytes) (s : State) : (notify o p s).pending = s.pending := (notify_hcp ..).pending
@[simp] theorem notify_ports (o : Nat) (p : Bytes) (s : State) : (notify o p s).hcp.ports = s.hcp.ports := (notify_hcp ..).ports

@[simp] theorem returnSlot_chip (m n : Nat) (s : State) : (returnSlot m n s).chip = s.chip := (returnSlot_hcp ..).chip
@[simp] theorem returnSlot_boot (m n : Nat) (s : State) : (returnSlot m n s).boot = s.boot := (returnSlot_hcp ..).boot
@[simp] theorem returnSlot_time (m n : Nat) (s : State) : (returnSlot m n s).time = s.time := (returnSlot_hcp ..).time
@[simp] theorem returnSlot_cal (m n : Nat) (s : State) : (returnSlot m n s).cal = s.cal := (returnSlot_hcp ..).cal
@[simp] theorem returnSlot_xfer (m n : Nat) (s : State) : (returnSlot m n s).xfer = s.xfer := (returnSlot_hcp ..).xfer
@[simp] theorem returnSlot_lanes (m n : Nat) (s : State) : (returnSlot m n s).lanes = s.lanes := (returnSlot_hcp ..).lanes
@[simp] theorem returnSlot_bgls (m n : Nat) (s : State) : (returnSlot m n s).bgls = s.bgls := (returnSlot_hcp ..).bgls
@[simp] theorem returnSlot_dclks (m n : Nat) (s : State) : (returnSlot m n s).dclks = s.dclks := (returnSlot_hcp ..).dclks
@[simp] theorem returnSlot_srefs (m n : Nat) (s : State) : (returnSlot m n s).srefs = s.srefs := (returnSlot_hcp ..).srefs
@[simp] theorem returnSlot_jesds (m n : Nat) (s : State) : (returnSlot m n s).jesds = s.jesds := (returnSlot_hcp ..).jesds
@[simp] theorem returnSlot_bglIns (m n : Nat) (s : State) : (returnSlot m n s).bglIns = s.bglIns := (returnSlot_hcp ..).bglIns
@[simp] theorem returnSlot_scps (m n : Nat) (s : State) : (returnSlot m n s).scps = s.scps := (returnSlot_hcp ..).scps
@[simp] theorem returnSlot_channels (m n : Nat) (s : State) : (returnSlot m n s).channels = s.channels := (returnSlot_hcp ..).channels
@[simp] theorem returnSlot_pipes (m n : Nat) (s : State) : (returnSlot m n s).pipes = s.pipes := (returnSlot_hcp ..).pipes
@[simp] theorem returnSlot_profiles (m n : Nat) (s : State) : (returnSlot m n s).profiles = s.profiles := (returnSlot_hcp ..).profiles
@[simp] theorem returnSlot_ledger (m n : Nat) (s : State) : (returnSlot m n s).ledger = s.ledger := (returnSlot_hcp ..).ledger
@[simp] theorem returnSlot_cap (m n : Nat) (s : State) : (returnSlot m n s).cap = s.cap := (returnSlot_hcp ..).cap
@[simp] theorem returnSlot_comp (m n : Nat) (s : State) : (returnSlot m n s).comp = s.comp := (returnSlot_hcp ..).comp
@[simp] theorem returnSlot_strm (m n : Nat) (s : State) : (returnSlot m n s).strm = s.strm := (returnSlot_hcp ..).strm
@[simp] theorem returnSlot_upl (m n : Nat) (s : State) : (returnSlot m n s).upl = s.upl := (returnSlot_hcp ..).upl
@[simp] theorem returnSlot_flt (m n : Nat) (s : State) : (returnSlot m n s).flt = s.flt := (returnSlot_hcp ..).flt
@[simp] theorem returnSlot_island (m n : Nat) (s : State) : (returnSlot m n s).island = s.island := (returnSlot_hcp ..).island
@[simp] theorem returnSlot_tick (m n : Nat) (s : State) : (returnSlot m n s).tick = s.tick := (returnSlot_hcp ..).tick
@[simp] theorem returnSlot_freeCount (m n : Nat) (s : State) : (returnSlot m n s).freeCount = s.freeCount := (returnSlot_hcp ..).freeCount
@[simp] theorem returnSlot_emitted (m n : Nat) (s : State) : (returnSlot m n s).emitted = s.emitted := (returnSlot_hcp ..).emitted
@[simp] theorem returnSlot_pending (m n : Nat) (s : State) : (returnSlot m n s).pending = s.pending := (returnSlot_hcp ..).pending
@[simp] theorem returnSlot_ports (m n : Nat) (s : State) : (returnSlot m n s).hcp.ports = s.hcp.ports := (returnSlot_hcp ..).ports

@[simp] theorem completeNow_chip (j : JobRef) (st d : Nat) (p : Bytes) (s : State) : (completeNow j st d p s).chip = s.chip := (completeNow_hcp ..).chip
@[simp] theorem completeNow_boot (j : JobRef) (st d : Nat) (p : Bytes) (s : State) : (completeNow j st d p s).boot = s.boot := (completeNow_hcp ..).boot
@[simp] theorem completeNow_time (j : JobRef) (st d : Nat) (p : Bytes) (s : State) : (completeNow j st d p s).time = s.time := (completeNow_hcp ..).time
@[simp] theorem completeNow_cal (j : JobRef) (st d : Nat) (p : Bytes) (s : State) : (completeNow j st d p s).cal = s.cal := (completeNow_hcp ..).cal
@[simp] theorem completeNow_xfer (j : JobRef) (st d : Nat) (p : Bytes) (s : State) : (completeNow j st d p s).xfer = s.xfer := (completeNow_hcp ..).xfer
@[simp] theorem completeNow_lanes (j : JobRef) (st d : Nat) (p : Bytes) (s : State) : (completeNow j st d p s).lanes = s.lanes := (completeNow_hcp ..).lanes
@[simp] theorem completeNow_bgls (j : JobRef) (st d : Nat) (p : Bytes) (s : State) : (completeNow j st d p s).bgls = s.bgls := (completeNow_hcp ..).bgls
@[simp] theorem completeNow_dclks (j : JobRef) (st d : Nat) (p : Bytes) (s : State) : (completeNow j st d p s).dclks = s.dclks := (completeNow_hcp ..).dclks
@[simp] theorem completeNow_srefs (j : JobRef) (st d : Nat) (p : Bytes) (s : State) : (completeNow j st d p s).srefs = s.srefs := (completeNow_hcp ..).srefs
@[simp] theorem completeNow_jesds (j : JobRef) (st d : Nat) (p : Bytes) (s : State) : (completeNow j st d p s).jesds = s.jesds := (completeNow_hcp ..).jesds
@[simp] theorem completeNow_bglIns (j : JobRef) (st d : Nat) (p : Bytes) (s : State) : (completeNow j st d p s).bglIns = s.bglIns := (completeNow_hcp ..).bglIns
@[simp] theorem completeNow_scps (j : JobRef) (st d : Nat) (p : Bytes) (s : State) : (completeNow j st d p s).scps = s.scps := (completeNow_hcp ..).scps
@[simp] theorem completeNow_channels (j : JobRef) (st d : Nat) (p : Bytes) (s : State) : (completeNow j st d p s).channels = s.channels := (completeNow_hcp ..).channels
@[simp] theorem completeNow_pipes (j : JobRef) (st d : Nat) (p : Bytes) (s : State) : (completeNow j st d p s).pipes = s.pipes := (completeNow_hcp ..).pipes
@[simp] theorem completeNow_profiles (j : JobRef) (st d : Nat) (p : Bytes) (s : State) : (completeNow j st d p s).profiles = s.profiles := (completeNow_hcp ..).profiles
@[simp] theorem completeNow_ledger (j : JobRef) (st d : Nat) (p : Bytes) (s : State) : (completeNow j st d p s).ledger = s.ledger := (completeNow_hcp ..).ledger
@[simp] theorem completeNow_cap (j : JobRef) (st d : Nat) (p : Bytes) (s : State) : (completeNow j st d p s).cap = s.cap := (completeNow_hcp ..).cap
@[simp] theorem completeNow_comp (j : JobRef) (st d : Nat) (p : Bytes) (s : State) : (completeNow j st d p s).comp = s.comp := (completeNow_hcp ..).comp
@[simp] theorem completeNow_strm (j : JobRef) (st d : Nat) (p : Bytes) (s : State) : (completeNow j st d p s).strm = s.strm := (completeNow_hcp ..).strm
@[simp] theorem completeNow_upl (j : JobRef) (st d : Nat) (p : Bytes) (s : State) : (completeNow j st d p s).upl = s.upl := (completeNow_hcp ..).upl
@[simp] theorem completeNow_flt (j : JobRef) (st d : Nat) (p : Bytes) (s : State) : (completeNow j st d p s).flt = s.flt := (completeNow_hcp ..).flt
@[simp] theorem completeNow_island (j : JobRef) (st d : Nat) (p : Bytes) (s : State) : (completeNow j st d p s).island = s.island := (completeNow_hcp ..).island
@[simp] theorem completeNow_tick (j : JobRef) (st d : Nat) (p : Bytes) (s : State) : (completeNow j st d p s).tick = s.tick := (completeNow_hcp ..).tick
@[simp] theorem completeNow_freeCount (j : JobRef) (st d : Nat) (p : Bytes) (s : State) : (completeNow j st d p s).freeCount = s.freeCount := (completeNow_hcp ..).freeCount
@[simp] theorem completeNow_emitted (j : JobRef) (st d : Nat) (p : Bytes) (s : State) : (completeNow j st d p s).emitted = s.emitted := (completeNow_hcp ..).emitted
@[simp] theorem completeNow_pending (j : JobRef) (st d : Nat) (p : Bytes) (s : State) : (completeNow j st d p s).pending = s.pending := (completeNow_hcp ..).pending
@[simp] theorem completeNow_ports (j : JobRef) (st d : Nat) (p : Bytes) (s : State) : (completeNow j st d p s).hcp.ports = s.hcp.ports := (completeNow_hcp ..).ports

@[simp] theorem complete_chip (j : JobRef) (st d : Nat) (p : Bytes) (s : State) : (complete j st d p s).chip = s.chip := (complete_hcp ..).chip
@[simp] theorem complete_boot (j : JobRef) (st d : Nat) (p : Bytes) (s : State) : (complete j st d p s).boot = s.boot := (complete_hcp ..).boot
@[simp] theorem complete_time (j : JobRef) (st d : Nat) (p : Bytes) (s : State) : (complete j st d p s).time = s.time := (complete_hcp ..).time
@[simp] theorem complete_cal (j : JobRef) (st d : Nat) (p : Bytes) (s : State) : (complete j st d p s).cal = s.cal := (complete_hcp ..).cal
@[simp] theorem complete_xfer (j : JobRef) (st d : Nat) (p : Bytes) (s : State) : (complete j st d p s).xfer = s.xfer := (complete_hcp ..).xfer
@[simp] theorem complete_lanes (j : JobRef) (st d : Nat) (p : Bytes) (s : State) : (complete j st d p s).lanes = s.lanes := (complete_hcp ..).lanes
@[simp] theorem complete_bgls (j : JobRef) (st d : Nat) (p : Bytes) (s : State) : (complete j st d p s).bgls = s.bgls := (complete_hcp ..).bgls
@[simp] theorem complete_dclks (j : JobRef) (st d : Nat) (p : Bytes) (s : State) : (complete j st d p s).dclks = s.dclks := (complete_hcp ..).dclks
@[simp] theorem complete_srefs (j : JobRef) (st d : Nat) (p : Bytes) (s : State) : (complete j st d p s).srefs = s.srefs := (complete_hcp ..).srefs
@[simp] theorem complete_jesds (j : JobRef) (st d : Nat) (p : Bytes) (s : State) : (complete j st d p s).jesds = s.jesds := (complete_hcp ..).jesds
@[simp] theorem complete_bglIns (j : JobRef) (st d : Nat) (p : Bytes) (s : State) : (complete j st d p s).bglIns = s.bglIns := (complete_hcp ..).bglIns
@[simp] theorem complete_scps (j : JobRef) (st d : Nat) (p : Bytes) (s : State) : (complete j st d p s).scps = s.scps := (complete_hcp ..).scps
@[simp] theorem complete_channels (j : JobRef) (st d : Nat) (p : Bytes) (s : State) : (complete j st d p s).channels = s.channels := (complete_hcp ..).channels
@[simp] theorem complete_pipes (j : JobRef) (st d : Nat) (p : Bytes) (s : State) : (complete j st d p s).pipes = s.pipes := (complete_hcp ..).pipes
@[simp] theorem complete_profiles (j : JobRef) (st d : Nat) (p : Bytes) (s : State) : (complete j st d p s).profiles = s.profiles := (complete_hcp ..).profiles
@[simp] theorem complete_ledger (j : JobRef) (st d : Nat) (p : Bytes) (s : State) : (complete j st d p s).ledger = s.ledger := (complete_hcp ..).ledger
@[simp] theorem complete_cap (j : JobRef) (st d : Nat) (p : Bytes) (s : State) : (complete j st d p s).cap = s.cap := (complete_hcp ..).cap
@[simp] theorem complete_comp (j : JobRef) (st d : Nat) (p : Bytes) (s : State) : (complete j st d p s).comp = s.comp := (complete_hcp ..).comp
@[simp] theorem complete_strm (j : JobRef) (st d : Nat) (p : Bytes) (s : State) : (complete j st d p s).strm = s.strm := (complete_hcp ..).strm
@[simp] theorem complete_upl (j : JobRef) (st d : Nat) (p : Bytes) (s : State) : (complete j st d p s).upl = s.upl := (complete_hcp ..).upl
@[simp] theorem complete_flt (j : JobRef) (st d : Nat) (p : Bytes) (s : State) : (complete j st d p s).flt = s.flt := (complete_hcp ..).flt
@[simp] theorem complete_island (j : JobRef) (st d : Nat) (p : Bytes) (s : State) : (complete j st d p s).island = s.island := (complete_hcp ..).island
@[simp] theorem complete_tick (j : JobRef) (st d : Nat) (p : Bytes) (s : State) : (complete j st d p s).tick = s.tick := (complete_hcp ..).tick
@[simp] theorem complete_freeCount (j : JobRef) (st d : Nat) (p : Bytes) (s : State) : (complete j st d p s).freeCount = s.freeCount := (complete_hcp ..).freeCount
@[simp] theorem complete_emitted (j : JobRef) (st d : Nat) (p : Bytes) (s : State) : (complete j st d p s).emitted = s.emitted := (complete_hcp ..).emitted
@[simp] theorem complete_pending (j : JobRef) (st d : Nat) (p : Bytes) (s : State) : (complete j st d p s).pending = s.pending := (complete_hcp ..).pending
@[simp] theorem complete_ports (j : JobRef) (st d : Nat) (p : Bytes) (s : State) : (complete j st d p s).hcp.ports = s.hcp.ports := (complete_hcp ..).ports

@[simp] theorem releaseFrom_chip (n : Nat) (s : State) : (releaseFrom n s).chip = s.chip := (releaseFrom_hcp ..).chip
@[simp] theorem releaseFrom_boot (n : Nat) (s : State) : (releaseFrom n s).boot = s.boot := (releaseFrom_hcp ..).boot
@[simp] theorem releaseFrom_time (n : Nat) (s : State) : (releaseFrom n s).time = s.time := (releaseFrom_hcp ..).time
@[simp] theorem releaseFrom_cal (n : Nat) (s : State) : (releaseFrom n s).cal = s.cal := (releaseFrom_hcp ..).cal
@[simp] theorem releaseFrom_xfer (n : Nat) (s : State) : (releaseFrom n s).xfer = s.xfer := (releaseFrom_hcp ..).xfer
@[simp] theorem releaseFrom_lanes (n : Nat) (s : State) : (releaseFrom n s).lanes = s.lanes := (releaseFrom_hcp ..).lanes
@[simp] theorem releaseFrom_bgls (n : Nat) (s : State) : (releaseFrom n s).bgls = s.bgls := (releaseFrom_hcp ..).bgls
@[simp] theorem releaseFrom_dclks (n : Nat) (s : State) : (releaseFrom n s).dclks = s.dclks := (releaseFrom_hcp ..).dclks
@[simp] theorem releaseFrom_srefs (n : Nat) (s : State) : (releaseFrom n s).srefs = s.srefs := (releaseFrom_hcp ..).srefs
@[simp] theorem releaseFrom_jesds (n : Nat) (s : State) : (releaseFrom n s).jesds = s.jesds := (releaseFrom_hcp ..).jesds
@[simp] theorem releaseFrom_bglIns (n : Nat) (s : State) : (releaseFrom n s).bglIns = s.bglIns := (releaseFrom_hcp ..).bglIns
@[simp] theorem releaseFrom_scps (n : Nat) (s : State) : (releaseFrom n s).scps = s.scps := (releaseFrom_hcp ..).scps
@[simp] theorem releaseFrom_channels (n : Nat) (s : State) : (releaseFrom n s).channels = s.channels := (releaseFrom_hcp ..).channels
@[simp] theorem releaseFrom_pipes (n : Nat) (s : State) : (releaseFrom n s).pipes = s.pipes := (releaseFrom_hcp ..).pipes
@[simp] theorem releaseFrom_profiles (n : Nat) (s : State) : (releaseFrom n s).profiles = s.profiles := (releaseFrom_hcp ..).profiles
@[simp] theorem releaseFrom_ledger (n : Nat) (s : State) : (releaseFrom n s).ledger = s.ledger := (releaseFrom_hcp ..).ledger
@[simp] theorem releaseFrom_cap (n : Nat) (s : State) : (releaseFrom n s).cap = s.cap := (releaseFrom_hcp ..).cap
@[simp] theorem releaseFrom_comp (n : Nat) (s : State) : (releaseFrom n s).comp = s.comp := (releaseFrom_hcp ..).comp
@[simp] theorem releaseFrom_strm (n : Nat) (s : State) : (releaseFrom n s).strm = s.strm := (releaseFrom_hcp ..).strm
@[simp] theorem releaseFrom_upl (n : Nat) (s : State) : (releaseFrom n s).upl = s.upl := (releaseFrom_hcp ..).upl
@[simp] theorem releaseFrom_flt (n : Nat) (s : State) : (releaseFrom n s).flt = s.flt := (releaseFrom_hcp ..).flt
@[simp] theorem releaseFrom_island (n : Nat) (s : State) : (releaseFrom n s).island = s.island := (releaseFrom_hcp ..).island
@[simp] theorem releaseFrom_tick (n : Nat) (s : State) : (releaseFrom n s).tick = s.tick := (releaseFrom_hcp ..).tick
@[simp] theorem releaseFrom_freeCount (n : Nat) (s : State) : (releaseFrom n s).freeCount = s.freeCount := (releaseFrom_hcp ..).freeCount
@[simp] theorem releaseFrom_emitted (n : Nat) (s : State) : (releaseFrom n s).emitted = s.emitted := (releaseFrom_hcp ..).emitted
@[simp] theorem releaseFrom_pending (n : Nat) (s : State) : (releaseFrom n s).pending = s.pending := (releaseFrom_hcp ..).pending
@[simp] theorem releaseFrom_ports (n : Nat) (s : State) : (releaseFrom n s).hcp.ports = s.hcp.ports := (releaseFrom_hcp ..).ports

@[simp] theorem takeJob_chip (o : Nat) (r : Req) (s : State) : ((takeJob o r s).2).chip = s.chip := (takeJob_hcp ..).chip
@[simp] theorem takeJob_boot (o : Nat) (r : Req) (s : State) : ((takeJob o r s).2).boot = s.boot := (takeJob_hcp ..).boot
@[simp] theorem takeJob_time (o : Nat) (r : Req) (s : State) : ((takeJob o r s).2).time = s.time := (takeJob_hcp ..).time
@[simp] theorem takeJob_cal (o : Nat) (r : Req) (s : State) : ((takeJob o r s).2).cal = s.cal := (takeJob_hcp ..).cal
@[simp] theorem takeJob_xfer (o : Nat) (r : Req) (s : State) : ((takeJob o r s).2).xfer = s.xfer := (takeJob_hcp ..).xfer
@[simp] theorem takeJob_lanes (o : Nat) (r : Req) (s : State) : ((takeJob o r s).2).lanes = s.lanes := (takeJob_hcp ..).lanes
@[simp] theorem takeJob_bgls (o : Nat) (r : Req) (s : State) : ((takeJob o r s).2).bgls = s.bgls := (takeJob_hcp ..).bgls
@[simp] theorem takeJob_dclks (o : Nat) (r : Req) (s : State) : ((takeJob o r s).2).dclks = s.dclks := (takeJob_hcp ..).dclks
@[simp] theorem takeJob_srefs (o : Nat) (r : Req) (s : State) : ((takeJob o r s).2).srefs = s.srefs := (takeJob_hcp ..).srefs
@[simp] theorem takeJob_jesds (o : Nat) (r : Req) (s : State) : ((takeJob o r s).2).jesds = s.jesds := (takeJob_hcp ..).jesds
@[simp] theorem takeJob_bglIns (o : Nat) (r : Req) (s : State) : ((takeJob o r s).2).bglIns = s.bglIns := (takeJob_hcp ..).bglIns
@[simp] theorem takeJob_scps (o : Nat) (r : Req) (s : State) : ((takeJob o r s).2).scps = s.scps := (takeJob_hcp ..).scps
@[simp] theorem takeJob_channels (o : Nat) (r : Req) (s : State) : ((takeJob o r s).2).channels = s.channels := (takeJob_hcp ..).channels
@[simp] theorem takeJob_pipes (o : Nat) (r : Req) (s : State) : ((takeJob o r s).2).pipes = s.pipes := (takeJob_hcp ..).pipes
@[simp] theorem takeJob_profiles (o : Nat) (r : Req) (s : State) : ((takeJob o r s).2).profiles = s.profiles := (takeJob_hcp ..).profiles
@[simp] theorem takeJob_ledger (o : Nat) (r : Req) (s : State) : ((takeJob o r s).2).ledger = s.ledger := (takeJob_hcp ..).ledger
@[simp] theorem takeJob_cap (o : Nat) (r : Req) (s : State) : ((takeJob o r s).2).cap = s.cap := (takeJob_hcp ..).cap
@[simp] theorem takeJob_comp (o : Nat) (r : Req) (s : State) : ((takeJob o r s).2).comp = s.comp := (takeJob_hcp ..).comp
@[simp] theorem takeJob_strm (o : Nat) (r : Req) (s : State) : ((takeJob o r s).2).strm = s.strm := (takeJob_hcp ..).strm
@[simp] theorem takeJob_upl (o : Nat) (r : Req) (s : State) : ((takeJob o r s).2).upl = s.upl := (takeJob_hcp ..).upl
@[simp] theorem takeJob_flt (o : Nat) (r : Req) (s : State) : ((takeJob o r s).2).flt = s.flt := (takeJob_hcp ..).flt
@[simp] theorem takeJob_island (o : Nat) (r : Req) (s : State) : ((takeJob o r s).2).island = s.island := (takeJob_hcp ..).island
@[simp] theorem takeJob_tick (o : Nat) (r : Req) (s : State) : ((takeJob o r s).2).tick = s.tick := (takeJob_hcp ..).tick
@[simp] theorem takeJob_freeCount (o : Nat) (r : Req) (s : State) : ((takeJob o r s).2).freeCount = s.freeCount := (takeJob_hcp ..).freeCount
@[simp] theorem takeJob_emitted (o : Nat) (r : Req) (s : State) : ((takeJob o r s).2).emitted = s.emitted := (takeJob_hcp ..).emitted
@[simp] theorem takeJob_pending (o : Nat) (r : Req) (s : State) : ((takeJob o r s).2).pending = s.pending := (takeJob_hcp ..).pending
@[simp] theorem takeJob_ports (o : Nat) (r : Req) (s : State) : ((takeJob o r s).2).hcp.ports = s.hcp.ports := (takeJob_hcp ..).ports

@[simp] theorem acceptReq_chip (o : Nat) (r : Req) (s : State) : (acceptReq o r s).chip = s.chip := (acceptReq_hcp ..).chip
@[simp] theorem acceptReq_boot (o : Nat) (r : Req) (s : State) : (acceptReq o r s).boot = s.boot := (acceptReq_hcp ..).boot
@[simp] theorem acceptReq_time (o : Nat) (r : Req) (s : State) : (acceptReq o r s).time = s.time := (acceptReq_hcp ..).time
@[simp] theorem acceptReq_cal (o : Nat) (r : Req) (s : State) : (acceptReq o r s).cal = s.cal := (acceptReq_hcp ..).cal
@[simp] theorem acceptReq_xfer (o : Nat) (r : Req) (s : State) : (acceptReq o r s).xfer = s.xfer := (acceptReq_hcp ..).xfer
@[simp] theorem acceptReq_lanes (o : Nat) (r : Req) (s : State) : (acceptReq o r s).lanes = s.lanes := (acceptReq_hcp ..).lanes
@[simp] theorem acceptReq_bgls (o : Nat) (r : Req) (s : State) : (acceptReq o r s).bgls = s.bgls := (acceptReq_hcp ..).bgls
@[simp] theorem acceptReq_dclks (o : Nat) (r : Req) (s : State) : (acceptReq o r s).dclks = s.dclks := (acceptReq_hcp ..).dclks
@[simp] theorem acceptReq_srefs (o : Nat) (r : Req) (s : State) : (acceptReq o r s).srefs = s.srefs := (acceptReq_hcp ..).srefs
@[simp] theorem acceptReq_jesds (o : Nat) (r : Req) (s : State) : (acceptReq o r s).jesds = s.jesds := (acceptReq_hcp ..).jesds
@[simp] theorem acceptReq_bglIns (o : Nat) (r : Req) (s : State) : (acceptReq o r s).bglIns = s.bglIns := (acceptReq_hcp ..).bglIns
@[simp] theorem acceptReq_scps (o : Nat) (r : Req) (s : State) : (acceptReq o r s).scps = s.scps := (acceptReq_hcp ..).scps
@[simp] theorem acceptReq_channels (o : Nat) (r : Req) (s : State) : (acceptReq o r s).channels = s.channels := (acceptReq_hcp ..).channels
@[simp] theorem acceptReq_pipes (o : Nat) (r : Req) (s : State) : (acceptReq o r s).pipes = s.pipes := (acceptReq_hcp ..).pipes
@[simp] theorem acceptReq_profiles (o : Nat) (r : Req) (s : State) : (acceptReq o r s).profiles = s.profiles := (acceptReq_hcp ..).profiles
@[simp] theorem acceptReq_ledger (o : Nat) (r : Req) (s : State) : (acceptReq o r s).ledger = s.ledger := (acceptReq_hcp ..).ledger
@[simp] theorem acceptReq_cap (o : Nat) (r : Req) (s : State) : (acceptReq o r s).cap = s.cap := (acceptReq_hcp ..).cap
@[simp] theorem acceptReq_comp (o : Nat) (r : Req) (s : State) : (acceptReq o r s).comp = s.comp := (acceptReq_hcp ..).comp
@[simp] theorem acceptReq_strm (o : Nat) (r : Req) (s : State) : (acceptReq o r s).strm = s.strm := (acceptReq_hcp ..).strm
@[simp] theorem acceptReq_upl (o : Nat) (r : Req) (s : State) : (acceptReq o r s).upl = s.upl := (acceptReq_hcp ..).upl
@[simp] theorem acceptReq_flt (o : Nat) (r : Req) (s : State) : (acceptReq o r s).flt = s.flt := (acceptReq_hcp ..).flt
@[simp] theorem acceptReq_island (o : Nat) (r : Req) (s : State) : (acceptReq o r s).island = s.island := (acceptReq_hcp ..).island
@[simp] theorem acceptReq_tick (o : Nat) (r : Req) (s : State) : (acceptReq o r s).tick = s.tick := (acceptReq_hcp ..).tick
@[simp] theorem acceptReq_freeCount (o : Nat) (r : Req) (s : State) : (acceptReq o r s).freeCount = s.freeCount := (acceptReq_hcp ..).freeCount
@[simp] theorem acceptReq_emitted (o : Nat) (r : Req) (s : State) : (acceptReq o r s).emitted = s.emitted := (acceptReq_hcp ..).emitted
@[simp] theorem acceptReq_pending (o : Nat) (r : Req) (s : State) : (acceptReq o r s).pending = s.pending := (acceptReq_hcp ..).pending
@[simp] theorem acceptReq_ports (o : Nat) (r : Req) (s : State) : (acceptReq o r s).hcp.ports = s.hcp.ports := (acceptReq_hcp ..).ports

@[simp] theorem storeAnswer_chip (o : Nat) (r : Req) (a : Ans) (s : State) : (storeAnswer o r a s).chip = s.chip := (storeAnswer_hcp ..).chip
@[simp] theorem storeAnswer_boot (o : Nat) (r : Req) (a : Ans) (s : State) : (storeAnswer o r a s).boot = s.boot := (storeAnswer_hcp ..).boot
@[simp] theorem storeAnswer_time (o : Nat) (r : Req) (a : Ans) (s : State) : (storeAnswer o r a s).time = s.time := (storeAnswer_hcp ..).time
@[simp] theorem storeAnswer_cal (o : Nat) (r : Req) (a : Ans) (s : State) : (storeAnswer o r a s).cal = s.cal := (storeAnswer_hcp ..).cal
@[simp] theorem storeAnswer_xfer (o : Nat) (r : Req) (a : Ans) (s : State) : (storeAnswer o r a s).xfer = s.xfer := (storeAnswer_hcp ..).xfer
@[simp] theorem storeAnswer_lanes (o : Nat) (r : Req) (a : Ans) (s : State) : (storeAnswer o r a s).lanes = s.lanes := (storeAnswer_hcp ..).lanes
@[simp] theorem storeAnswer_bgls (o : Nat) (r : Req) (a : Ans) (s : State) : (storeAnswer o r a s).bgls = s.bgls := (storeAnswer_hcp ..).bgls
@[simp] theorem storeAnswer_dclks (o : Nat) (r : Req) (a : Ans) (s : State) : (storeAnswer o r a s).dclks = s.dclks := (storeAnswer_hcp ..).dclks
@[simp] theorem storeAnswer_srefs (o : Nat) (r : Req) (a : Ans) (s : State) : (storeAnswer o r a s).srefs = s.srefs := (storeAnswer_hcp ..).srefs
@[simp] theorem storeAnswer_jesds (o : Nat) (r : Req) (a : Ans) (s : State) : (storeAnswer o r a s).jesds = s.jesds := (storeAnswer_hcp ..).jesds
@[simp] theorem storeAnswer_bglIns (o : Nat) (r : Req) (a : Ans) (s : State) : (storeAnswer o r a s).bglIns = s.bglIns := (storeAnswer_hcp ..).bglIns
@[simp] theorem storeAnswer_scps (o : Nat) (r : Req) (a : Ans) (s : State) : (storeAnswer o r a s).scps = s.scps := (storeAnswer_hcp ..).scps
@[simp] theorem storeAnswer_channels (o : Nat) (r : Req) (a : Ans) (s : State) : (storeAnswer o r a s).channels = s.channels := (storeAnswer_hcp ..).channels
@[simp] theorem storeAnswer_pipes (o : Nat) (r : Req) (a : Ans) (s : State) : (storeAnswer o r a s).pipes = s.pipes := (storeAnswer_hcp ..).pipes
@[simp] theorem storeAnswer_profiles (o : Nat) (r : Req) (a : Ans) (s : State) : (storeAnswer o r a s).profiles = s.profiles := (storeAnswer_hcp ..).profiles
@[simp] theorem storeAnswer_ledger (o : Nat) (r : Req) (a : Ans) (s : State) : (storeAnswer o r a s).ledger = s.ledger := (storeAnswer_hcp ..).ledger
@[simp] theorem storeAnswer_cap (o : Nat) (r : Req) (a : Ans) (s : State) : (storeAnswer o r a s).cap = s.cap := (storeAnswer_hcp ..).cap
@[simp] theorem storeAnswer_comp (o : Nat) (r : Req) (a : Ans) (s : State) : (storeAnswer o r a s).comp = s.comp := (storeAnswer_hcp ..).comp
@[simp] theorem storeAnswer_strm (o : Nat) (r : Req) (a : Ans) (s : State) : (storeAnswer o r a s).strm = s.strm := (storeAnswer_hcp ..).strm
@[simp] theorem storeAnswer_upl (o : Nat) (r : Req) (a : Ans) (s : State) : (storeAnswer o r a s).upl = s.upl := (storeAnswer_hcp ..).upl
@[simp] theorem storeAnswer_flt (o : Nat) (r : Req) (a : Ans) (s : State) : (storeAnswer o r a s).flt = s.flt := (storeAnswer_hcp ..).flt
@[simp] theorem storeAnswer_island (o : Nat) (r : Req) (a : Ans) (s : State) : (storeAnswer o r a s).island = s.island := (storeAnswer_hcp ..).island
@[simp] theorem storeAnswer_tick (o : Nat) (r : Req) (a : Ans) (s : State) : (storeAnswer o r a s).tick = s.tick := (storeAnswer_hcp ..).tick
@[simp] theorem storeAnswer_freeCount (o : Nat) (r : Req) (a : Ans) (s : State) : (storeAnswer o r a s).freeCount = s.freeCount := (storeAnswer_hcp ..).freeCount
@[simp] theorem storeAnswer_emitted (o : Nat) (r : Req) (a : Ans) (s : State) : (storeAnswer o r a s).emitted = s.emitted := (storeAnswer_hcp ..).emitted
@[simp] theorem storeAnswer_pending (o : Nat) (r : Req) (a : Ans) (s : State) : (storeAnswer o r a s).pending = s.pending := (storeAnswer_hcp ..).pending
@[simp] theorem storeAnswer_ports (o : Nat) (r : Req) (a : Ans) (s : State) : (storeAnswer o r a s).hcp.ports = s.hcp.ports := (storeAnswer_hcp ..).ports

@[simp] theorem tellBounds_chip (h : Nat) (i : Option Nat) (old s : State) : (tellBounds h i old s).chip = s.chip := (tellBounds_hcp ..).chip
@[simp] theorem tellBounds_boot (h : Nat) (i : Option Nat) (old s : State) : (tellBounds h i old s).boot = s.boot := (tellBounds_hcp ..).boot
@[simp] theorem tellBounds_time (h : Nat) (i : Option Nat) (old s : State) : (tellBounds h i old s).time = s.time := (tellBounds_hcp ..).time
@[simp] theorem tellBounds_cal (h : Nat) (i : Option Nat) (old s : State) : (tellBounds h i old s).cal = s.cal := (tellBounds_hcp ..).cal
@[simp] theorem tellBounds_xfer (h : Nat) (i : Option Nat) (old s : State) : (tellBounds h i old s).xfer = s.xfer := (tellBounds_hcp ..).xfer
@[simp] theorem tellBounds_lanes (h : Nat) (i : Option Nat) (old s : State) : (tellBounds h i old s).lanes = s.lanes := (tellBounds_hcp ..).lanes
@[simp] theorem tellBounds_bgls (h : Nat) (i : Option Nat) (old s : State) : (tellBounds h i old s).bgls = s.bgls := (tellBounds_hcp ..).bgls
@[simp] theorem tellBounds_dclks (h : Nat) (i : Option Nat) (old s : State) : (tellBounds h i old s).dclks = s.dclks := (tellBounds_hcp ..).dclks
@[simp] theorem tellBounds_srefs (h : Nat) (i : Option Nat) (old s : State) : (tellBounds h i old s).srefs = s.srefs := (tellBounds_hcp ..).srefs
@[simp] theorem tellBounds_jesds (h : Nat) (i : Option Nat) (old s : State) : (tellBounds h i old s).jesds = s.jesds := (tellBounds_hcp ..).jesds
@[simp] theorem tellBounds_bglIns (h : Nat) (i : Option Nat) (old s : State) : (tellBounds h i old s).bglIns = s.bglIns := (tellBounds_hcp ..).bglIns
@[simp] theorem tellBounds_scps (h : Nat) (i : Option Nat) (old s : State) : (tellBounds h i old s).scps = s.scps := (tellBounds_hcp ..).scps
@[simp] theorem tellBounds_channels (h : Nat) (i : Option Nat) (old s : State) : (tellBounds h i old s).channels = s.channels := (tellBounds_hcp ..).channels
@[simp] theorem tellBounds_pipes (h : Nat) (i : Option Nat) (old s : State) : (tellBounds h i old s).pipes = s.pipes := (tellBounds_hcp ..).pipes
@[simp] theorem tellBounds_profiles (h : Nat) (i : Option Nat) (old s : State) : (tellBounds h i old s).profiles = s.profiles := (tellBounds_hcp ..).profiles
@[simp] theorem tellBounds_ledger (h : Nat) (i : Option Nat) (old s : State) : (tellBounds h i old s).ledger = s.ledger := (tellBounds_hcp ..).ledger
@[simp] theorem tellBounds_cap (h : Nat) (i : Option Nat) (old s : State) : (tellBounds h i old s).cap = s.cap := (tellBounds_hcp ..).cap
@[simp] theorem tellBounds_comp (h : Nat) (i : Option Nat) (old s : State) : (tellBounds h i old s).comp = s.comp := (tellBounds_hcp ..).comp
@[simp] theorem tellBounds_strm (h : Nat) (i : Option Nat) (old s : State) : (tellBounds h i old s).strm = s.strm := (tellBounds_hcp ..).strm
@[simp] theorem tellBounds_upl (h : Nat) (i : Option Nat) (old s : State) : (tellBounds h i old s).upl = s.upl := (tellBounds_hcp ..).upl
@[simp] theorem tellBounds_flt (h : Nat) (i : Option Nat) (old s : State) : (tellBounds h i old s).flt = s.flt := (tellBounds_hcp ..).flt
@[simp] theorem tellBounds_island (h : Nat) (i : Option Nat) (old s : State) : (tellBounds h i old s).island = s.island := (tellBounds_hcp ..).island
@[simp] theorem tellBounds_tick (h : Nat) (i : Option Nat) (old s : State) : (tellBounds h i old s).tick = s.tick := (tellBounds_hcp ..).tick
@[simp] theorem tellBounds_freeCount (h : Nat) (i : Option Nat) (old s : State) : (tellBounds h i old s).freeCount = s.freeCount := (tellBounds_hcp ..).freeCount
@[simp] theorem tellBounds_emitted (h : Nat) (i : Option Nat) (old s : State) : (tellBounds h i old s).emitted = s.emitted := (tellBounds_hcp ..).emitted
@[simp] theorem tellBounds_pending (h : Nat) (i : Option Nat) (old s : State) : (tellBounds h i old s).pending = s.pending := (tellBounds_hcp ..).pending
@[simp] theorem tellBounds_ports (h : Nat) (i : Option Nat) (old s : State) : (tellBounds h i old s).hcp.ports = s.hcp.ports := (tellBounds_hcp ..).ports

@[simp] theorem ledgerNotice_chip (old s : State) : (ledgerNotice old s).chip = s.chip := (ledgerNotice_hcp ..).chip
@[simp] theorem ledgerNotice_boot (old s : State) : (ledgerNotice old s).boot = s.boot := (ledgerNotice_hcp ..).boot
@[simp] theorem ledgerNotice_time (old s : State) : (ledgerNotice old s).time = s.time := (ledgerNotice_hcp ..).time
@[simp] theorem ledgerNotice_cal (old s : State) : (ledgerNotice old s).cal = s.cal := (ledgerNotice_hcp ..).cal
@[simp] theorem ledgerNotice_xfer (old s : State) : (ledgerNotice old s).xfer = s.xfer := (ledgerNotice_hcp ..).xfer
@[simp] theorem ledgerNotice_lanes (old s : State) : (ledgerNotice old s).lanes = s.lanes := (ledgerNotice_hcp ..).lanes
@[simp] theorem ledgerNotice_bgls (old s : State) : (ledgerNotice old s).bgls = s.bgls := (ledgerNotice_hcp ..).bgls
@[simp] theorem ledgerNotice_dclks (old s : State) : (ledgerNotice old s).dclks = s.dclks := (ledgerNotice_hcp ..).dclks
@[simp] theorem ledgerNotice_srefs (old s : State) : (ledgerNotice old s).srefs = s.srefs := (ledgerNotice_hcp ..).srefs
@[simp] theorem ledgerNotice_jesds (old s : State) : (ledgerNotice old s).jesds = s.jesds := (ledgerNotice_hcp ..).jesds
@[simp] theorem ledgerNotice_bglIns (old s : State) : (ledgerNotice old s).bglIns = s.bglIns := (ledgerNotice_hcp ..).bglIns
@[simp] theorem ledgerNotice_scps (old s : State) : (ledgerNotice old s).scps = s.scps := (ledgerNotice_hcp ..).scps
@[simp] theorem ledgerNotice_channels (old s : State) : (ledgerNotice old s).channels = s.channels := (ledgerNotice_hcp ..).channels
@[simp] theorem ledgerNotice_pipes (old s : State) : (ledgerNotice old s).pipes = s.pipes := (ledgerNotice_hcp ..).pipes
@[simp] theorem ledgerNotice_profiles (old s : State) : (ledgerNotice old s).profiles = s.profiles := (ledgerNotice_hcp ..).profiles
@[simp] theorem ledgerNotice_ledger (old s : State) : (ledgerNotice old s).ledger = s.ledger := (ledgerNotice_hcp ..).ledger
@[simp] theorem ledgerNotice_cap (old s : State) : (ledgerNotice old s).cap = s.cap := (ledgerNotice_hcp ..).cap
@[simp] theorem ledgerNotice_comp (old s : State) : (ledgerNotice old s).comp = s.comp := (ledgerNotice_hcp ..).comp
@[simp] theorem ledgerNotice_strm (old s : State) : (ledgerNotice old s).strm = s.strm := (ledgerNotice_hcp ..).strm
@[simp] theorem ledgerNotice_upl (old s : State) : (ledgerNotice old s).upl = s.upl := (ledgerNotice_hcp ..).upl
@[simp] theorem ledgerNotice_flt (old s : State) : (ledgerNotice old s).flt = s.flt := (ledgerNotice_hcp ..).flt
@[simp] theorem ledgerNotice_island (old s : State) : (ledgerNotice old s).island = s.island := (ledgerNotice_hcp ..).island
@[simp] theorem ledgerNotice_tick (old s : State) : (ledgerNotice old s).tick = s.tick := (ledgerNotice_hcp ..).tick
@[simp] theorem ledgerNotice_freeCount (old s : State) : (ledgerNotice old s).freeCount = s.freeCount := (ledgerNotice_hcp ..).freeCount
@[simp] theorem ledgerNotice_emitted (old s : State) : (ledgerNotice old s).emitted = s.emitted := (ledgerNotice_hcp ..).emitted
@[simp] theorem ledgerNotice_pending (old s : State) : (ledgerNotice old s).pending = s.pending := (ledgerNotice_hcp ..).pending
@[simp] theorem ledgerNotice_ports (old s : State) : (ledgerNotice old s).hcp.ports = s.hcp.ports := (ledgerNotice_hcp ..).ports

@[simp] theorem faultEvent_chip (d : Detected) (b : Byte) (s : State) : (faultEvent d b s).chip = s.chip := (faultEvent_hcp ..).chip
@[simp] theorem faultEvent_boot (d : Detected) (b : Byte) (s : State) : (faultEvent d b s).boot = s.boot := (faultEvent_hcp ..).boot
@[simp] theorem faultEvent_time (d : Detected) (b : Byte) (s : State) : (faultEvent d b s).time = s.time := (faultEvent_hcp ..).time
@[simp] theorem faultEvent_cal (d : Detected) (b : Byte) (s : State) : (faultEvent d b s).cal = s.cal := (faultEvent_hcp ..).cal
@[simp] theorem faultEvent_xfer (d : Detected) (b : Byte) (s : State) : (faultEvent d b s).xfer = s.xfer := (faultEvent_hcp ..).xfer
@[simp] theorem faultEvent_lanes (d : Detected) (b : Byte) (s : State) : (faultEvent d b s).lanes = s.lanes := (faultEvent_hcp ..).lanes
@[simp] theorem faultEvent_bgls (d : Detected) (b : Byte) (s : State) : (faultEvent d b s).bgls = s.bgls := (faultEvent_hcp ..).bgls
@[simp] theorem faultEvent_dclks (d : Detected) (b : Byte) (s : State) : (faultEvent d b s).dclks = s.dclks := (faultEvent_hcp ..).dclks
@[simp] theorem faultEvent_srefs (d : Detected) (b : Byte) (s : State) : (faultEvent d b s).srefs = s.srefs := (faultEvent_hcp ..).srefs
@[simp] theorem faultEvent_jesds (d : Detected) (b : Byte) (s : State) : (faultEvent d b s).jesds = s.jesds := (faultEvent_hcp ..).jesds
@[simp] theorem faultEvent_bglIns (d : Detected) (b : Byte) (s : State) : (faultEvent d b s).bglIns = s.bglIns := (faultEvent_hcp ..).bglIns
@[simp] theorem faultEvent_scps (d : Detected) (b : Byte) (s : State) : (faultEvent d b s).scps = s.scps := (faultEvent_hcp ..).scps
@[simp] theorem faultEvent_channels (d : Detected) (b : Byte) (s : State) : (faultEvent d b s).channels = s.channels := (faultEvent_hcp ..).channels
@[simp] theorem faultEvent_pipes (d : Detected) (b : Byte) (s : State) : (faultEvent d b s).pipes = s.pipes := (faultEvent_hcp ..).pipes
@[simp] theorem faultEvent_profiles (d : Detected) (b : Byte) (s : State) : (faultEvent d b s).profiles = s.profiles := (faultEvent_hcp ..).profiles
@[simp] theorem faultEvent_ledger (d : Detected) (b : Byte) (s : State) : (faultEvent d b s).ledger = s.ledger := (faultEvent_hcp ..).ledger
@[simp] theorem faultEvent_cap (d : Detected) (b : Byte) (s : State) : (faultEvent d b s).cap = s.cap := (faultEvent_hcp ..).cap
@[simp] theorem faultEvent_comp (d : Detected) (b : Byte) (s : State) : (faultEvent d b s).comp = s.comp := (faultEvent_hcp ..).comp
@[simp] theorem faultEvent_strm (d : Detected) (b : Byte) (s : State) : (faultEvent d b s).strm = s.strm := (faultEvent_hcp ..).strm
@[simp] theorem faultEvent_upl (d : Detected) (b : Byte) (s : State) : (faultEvent d b s).upl = s.upl := (faultEvent_hcp ..).upl
@[simp] theorem faultEvent_flt (d : Detected) (b : Byte) (s : State) : (faultEvent d b s).flt = s.flt := (faultEvent_hcp ..).flt
@[simp] theorem faultEvent_island (d : Detected) (b : Byte) (s : State) : (faultEvent d b s).island = s.island := (faultEvent_hcp ..).island
@[simp] theorem faultEvent_tick (d : Detected) (b : Byte) (s : State) : (faultEvent d b s).tick = s.tick := (faultEvent_hcp ..).tick
@[simp] theorem faultEvent_freeCount (d : Detected) (b : Byte) (s : State) : (faultEvent d b s).freeCount = s.freeCount := (faultEvent_hcp ..).freeCount
@[simp] theorem faultEvent_emitted (d : Detected) (b : Byte) (s : State) : (faultEvent d b s).emitted = s.emitted := (faultEvent_hcp ..).emitted
@[simp] theorem faultEvent_pending (d : Detected) (b : Byte) (s : State) : (faultEvent d b s).pending = s.pending := (faultEvent_hcp ..).pending
@[simp] theorem faultEvent_ports (d : Detected) (b : Byte) (s : State) : (faultEvent d b s).hcp.ports = s.hcp.ports := (faultEvent_hcp ..).ports

end Sys2Proof.Machine
end

