-- ==== Sys2Proof/Laws/Run.lean ====
section
/-! SUPPORT. The frame of a command: what it adds to its own effect. -/

namespace Sys2Proof.Machine

/-- Without a fault event there is no reaction. -/
theorem actFaults_quiet (old : State) (n : Nat) (s : State) (hn : n ≠ 0) (h : s.flt.detected = []) :
    actFaults old n s = s := by
  cases n with
  | zero => exact absurd rfl hn
  | succ n => simp [actFaults, h]

/-- A changed chip state reaches the host: it changes the emissions and the pending bits alone. -/
theorem settle_eq (old s : State) :
    settle old s = { s with hcp := { s.hcp with pba := (settle old s).hcp.pba }, emitted := (settle old s).emitted } := by
  unfold settle State.raiseMsix State.emit
  split
  · split
    · rfl
    · split <;> rfl
  · rfl


@[simp] theorem keepQueue_chip (old new : State) : (keepQueue old new).chip = new.chip := rfl
@[simp] theorem keepQueue_boot (old new : State) : (keepQueue old new).boot = new.boot := rfl
@[simp] theorem keepQueue_cal (old new : State) : (keepQueue old new).cal = new.cal := rfl
@[simp] theorem keepQueue_xfer (old new : State) : (keepQueue old new).xfer = new.xfer := rfl
@[simp] theorem keepQueue_lanes (old new : State) : (keepQueue old new).lanes = new.lanes := rfl
@[simp] theorem keepQueue_bgls (old new : State) : (keepQueue old new).bgls = new.bgls := rfl
@[simp] theorem keepQueue_dclks (old new : State) : (keepQueue old new).dclks = new.dclks := rfl
@[simp] theorem keepQueue_srefs (old new : State) : (keepQueue old new).srefs = new.srefs := rfl
@[simp] theorem keepQueue_jesds (old new : State) : (keepQueue old new).jesds = new.jesds := rfl
@[simp] theorem keepQueue_bglIns (old new : State) : (keepQueue old new).bglIns = new.bglIns := rfl
@[simp] theorem keepQueue_scps (old new : State) : (keepQueue old new).scps = new.scps := rfl
@[simp] theorem keepQueue_channels (old new : State) : (keepQueue old new).channels = new.channels := rfl
@[simp] theorem keepQueue_pipes (old new : State) : (keepQueue old new).pipes = new.pipes := rfl
@[simp] theorem keepQueue_profiles (old new : State) : (keepQueue old new).profiles = new.profiles := rfl
@[simp] theorem keepQueue_ledger (old new : State) : (keepQueue old new).ledger = new.ledger := rfl
@[simp] theorem keepQueue_cap (old new : State) : (keepQueue old new).cap = new.cap := rfl
@[simp] theorem keepQueue_comp (old new : State) : (keepQueue old new).comp = new.comp := rfl
@[simp] theorem keepQueue_strm (old new : State) : (keepQueue old new).strm = new.strm := rfl
@[simp] theorem keepQueue_upl (old new : State) : (keepQueue old new).upl = new.upl := rfl
@[simp] theorem keepQueue_flt (old new : State) : (keepQueue old new).flt = new.flt := rfl
@[simp] theorem keepQueue_island (old new : State) : (keepQueue old new).island = new.island := rfl
@[simp] theorem keepQueue_freeCount (old new : State) : (keepQueue old new).freeCount = new.freeCount := rfl
@[simp] theorem keepQueue_hcp (old new : State) : (keepQueue old new).hcp = new.hcp := rfl
@[simp] theorem keepQueue_time (old new : State) : (keepQueue old new).time = new.time := rfl
@[simp] theorem keepQueue_tick (old new : State) : (keepQueue old new).tick = new.tick := rfl
@[simp] theorem keepQueue_pending (old new : State) : (keepQueue old new).pending = old.pending := rfl
@[simp] theorem keepQueue_emitted (old new : State) : (keepQueue old new).emitted = new.emitted := rfl

@[simp] theorem keepClock_chip (old new : State) : (keepClock old new).chip = new.chip := rfl
@[simp] theorem keepClock_boot (old new : State) : (keepClock old new).boot = new.boot := rfl
@[simp] theorem keepClock_cal (old new : State) : (keepClock old new).cal = new.cal := rfl
@[simp] theorem keepClock_xfer (old new : State) : (keepClock old new).xfer = new.xfer := rfl
@[simp] theorem keepClock_lanes (old new : State) : (keepClock old new).lanes = new.lanes := rfl
@[simp] theorem keepClock_bgls (old new : State) : (keepClock old new).bgls = new.bgls := rfl
@[simp] theorem keepClock_dclks (old new : State) : (keepClock old new).dclks = new.dclks := rfl
@[simp] theorem keepClock_srefs (old new : State) : (keepClock old new).srefs = new.srefs := rfl
@[simp] theorem keepClock_jesds (old new : State) : (keepClock old new).jesds = new.jesds := rfl
@[simp] theorem keepClock_bglIns (old new : State) : (keepClock old new).bglIns = new.bglIns := rfl
@[simp] theorem keepClock_scps (old new : State) : (keepClock old new).scps = new.scps := rfl
@[simp] theorem keepClock_channels (old new : State) : (keepClock old new).channels = new.channels := rfl
@[simp] theorem keepClock_pipes (old new : State) : (keepClock old new).pipes = new.pipes := rfl
@[simp] theorem keepClock_profiles (old new : State) : (keepClock old new).profiles = new.profiles := rfl
@[simp] theorem keepClock_ledger (old new : State) : (keepClock old new).ledger = new.ledger := rfl
@[simp] theorem keepClock_cap (old new : State) : (keepClock old new).cap = new.cap := rfl
@[simp] theorem keepClock_comp (old new : State) : (keepClock old new).comp = new.comp := rfl
@[simp] theorem keepClock_strm (old new : State) : (keepClock old new).strm = new.strm := rfl
@[simp] theorem keepClock_upl (old new : State) : (keepClock old new).upl = new.upl := rfl
@[simp] theorem keepClock_flt (old new : State) : (keepClock old new).flt = new.flt := rfl
@[simp] theorem keepClock_island (old new : State) : (keepClock old new).island = new.island := rfl
@[simp] theorem keepClock_freeCount (old new : State) : (keepClock old new).freeCount = new.freeCount := rfl
@[simp] theorem keepClock_hcp (old new : State) : (keepClock old new).hcp = new.hcp := rfl
@[simp] theorem keepClock_time (old new : State) : (keepClock old new).time = { new.time with sec := old.time.sec, ns := old.time.ns, frac40 := old.time.frac40 } := rfl
@[simp] theorem keepClock_tick (old new : State) : (keepClock old new).tick = old.tick := rfl
@[simp] theorem keepClock_pending (old new : State) : (keepClock old new).pending = new.pending := rfl
@[simp] theorem keepClock_emitted (old new : State) : (keepClock old new).emitted = new.emitted := rfl

theorem settle_chip (old s : State) : (settle old s).chip = s.chip := (congrArg State.chip (settle_eq old s)).trans rfl

theorem settle_boot (old s : State) : (settle old s).boot = s.boot := (congrArg State.boot (settle_eq old s)).trans rfl

theorem settle_cal (old s : State) : (settle old s).cal = s.cal := (congrArg State.cal (settle_eq old s)).trans rfl

theorem settle_xfer (old s : State) : (settle old s).xfer = s.xfer := (congrArg State.xfer (settle_eq old s)).trans rfl

theorem settle_lanes (old s : State) : (settle old s).lanes = s.lanes := (congrArg State.lanes (settle_eq old s)).trans rfl

theorem settle_bgls (old s : State) : (settle old s).bgls = s.bgls := (congrArg State.bgls (settle_eq old s)).trans rfl

theorem settle_dclks (old s : State) : (settle old s).dclks = s.dclks := (congrArg State.dclks (settle_eq old s)).trans rfl

theorem settle_srefs (old s : State) : (settle old s).srefs = s.srefs := (congrArg State.srefs (settle_eq old s)).trans rfl

theorem settle_jesds (old s : State) : (settle old s).jesds = s.jesds := (congrArg State.jesds (settle_eq old s)).trans rfl

theorem settle_bglIns (old s : State) : (settle old s).bglIns = s.bglIns := (congrArg State.bglIns (settle_eq old s)).trans rfl

theorem settle_scps (old s : State) : (settle old s).scps = s.scps := (congrArg State.scps (settle_eq old s)).trans rfl

theorem settle_channels (old s : State) : (settle old s).channels = s.channels := (congrArg State.channels (settle_eq old s)).trans rfl

theorem settle_pipes (old s : State) : (settle old s).pipes = s.pipes := (congrArg State.pipes (settle_eq old s)).trans rfl

theorem settle_profiles (old s : State) : (settle old s).profiles = s.profiles := (congrArg State.profiles (settle_eq old s)).trans rfl

theorem settle_ledger (old s : State) : (settle old s).ledger = s.ledger := (congrArg State.ledger (settle_eq old s)).trans rfl

theorem settle_cap (old s : State) : (settle old s).cap = s.cap := (congrArg State.cap (settle_eq old s)).trans rfl

theorem settle_comp (old s : State) : (settle old s).comp = s.comp := (congrArg State.comp (settle_eq old s)).trans rfl

theorem settle_strm (old s : State) : (settle old s).strm = s.strm := (congrArg State.strm (settle_eq old s)).trans rfl

theorem settle_upl (old s : State) : (settle old s).upl = s.upl := (congrArg State.upl (settle_eq old s)).trans rfl

theorem settle_flt (old s : State) : (settle old s).flt = s.flt := (congrArg State.flt (settle_eq old s)).trans rfl

theorem settle_island (old s : State) : (settle old s).island = s.island := (congrArg State.island (settle_eq old s)).trans rfl

theorem settle_freeCount (old s : State) : (settle old s).freeCount = s.freeCount := (congrArg State.freeCount (settle_eq old s)).trans rfl

theorem settle_time (old s : State) : (settle old s).time = s.time := (congrArg State.time (settle_eq old s)).trans rfl

theorem settle_mbs (old s : State) : (settle old s).hcp.mbs = s.hcp.mbs := by
  unfold settle State.raiseMsix State.emit
  split
  · split
    · rfl
    · split <;> rfl
  · rfl

/-- The pending bits are in neither half of the host interface. -/
theorem ports_pba (h : Hcp) (b : BitVec 9) : ({ h with pba := b } : Hcp).ports = h.ports := rfl

theorem mail_pba (h : Hcp) (b : BitVec 9) : ({ h with pba := b } : Hcp).mail = h.mail := rfl

theorem settle_hcp (old s : State) : (settle old s).hcp = { s.hcp with pba := (settle old s).hcp.pba } :=
  congrArg State.hcp (settle_eq old s)

theorem settle_ports (old s : State) : (settle old s).hcp.ports = s.hcp.ports :=
  (congrArg Hcp.ports (settle_hcp old s)).trans (ports_pba _ _)

theorem settle_mail (old s : State) : (settle old s).hcp.mail = s.hcp.mail :=
  (congrArg Hcp.mail (settle_hcp old s)).trans (mail_pba _ _)

/-- A command that detects no fault: its own effect, the clock and the queue kept, the host told of a changed state. -/
theorem after_quiet (f : State → State) (s : State) (h : (effectOf f s).flt.detected = []) :
    after f s = keepQueue s (keepClock s (settle s (effectOf f s))) := by
  unfold after settled
  rw [actFaults_quiet s reactionDepth _ (by simp [reactionDepth]) h]

theorem after_hcp (f : State → State) (s : State) (h : (effectOf f s).flt.detected = []) :
    (after f s).hcp = { (effectOf f s).hcp with pba := (after f s).hcp.pba } := by
  have e : (after f s).hcp = (settle s (effectOf f s)).hcp := by rw [after_quiet f s h, keepQueue_hcp, keepClock_hcp]
  rw [e]
  have k := congrArg State.hcp (settle_eq s (effectOf f s))
  exact k

theorem after_ports (f : State → State) (s : State) (h : (effectOf f s).flt.detected = []) :
    (after f s).hcp.ports = (effectOf f s).hcp.ports := 
  (congrArg Hcp.ports (after_hcp f s h)).trans (ports_pba _ _)

theorem after_mail (f : State → State) (s : State) (h : (effectOf f s).flt.detected = []) :
    (after f s).hcp.mail = (effectOf f s).hcp.mail := 
  (congrArg Hcp.mail (after_hcp f s h)).trans (mail_pba _ _)

/-- What the effect sends out is sent. -/
theorem settle_emitted (old s : State) : ∀ e ∈ s.emitted, e ∈ (settle old s).emitted := by
  intro e he
  unfold settle State.raiseMsix State.emit
  split
  · split
    · exact he
    · split
      · exact List.mem_append_left _ he
      · exact he
  · exact he

theorem after_emitted (f : State → State) (s : State) (h : (effectOf f s).flt.detected = []) :
    ∀ e ∈ (effectOf f s).emitted, e ∈ (after f s).emitted := by
  rw [after_quiet f s h, keepQueue_emitted, keepClock_emitted]
  exact settle_emitted s (effectOf f s)

theorem after_mb (f : State → State) (s : State) (h : (effectOf f s).flt.detected = []) (m : Nat) :
    (after f s).mb m = (effectOf f s).mb m := by
  unfold State.mb
  rw [after_hcp f s h]

theorem after_time (f : State → State) (s : State) (h : (effectOf f s).flt.detected = []) :
    (after f s).time = { (effectOf f s).time with sec := s.time.sec, ns := s.time.ns, frac40 := s.time.frac40 } := by
  rw [after_quiet f s h]
  simp only [keepQueue_time, keepClock_time, settle_time]

theorem after_tick (f : State → State) (s : State) : (after f s).tick = s.tick := by unfold after; rw [keepQueue_tick, keepClock_tick]

theorem after_pending (f : State → State) (s : State) : (after f s).pending = s.pending := by unfold after; rw [keepQueue_pending]

theorem after_sec (f : State → State) (s : State) : (after f s).time.sec = s.time.sec := by
  unfold after; rw [keepQueue_time, keepClock_time]

theorem after_ns (f : State → State) (s : State) : (after f s).time.ns = s.time.ns := by
  unfold after; rw [keepQueue_time, keepClock_time]

theorem after_frac40 (f : State → State) (s : State) : (after f s).time.frac40 = s.time.frac40 := by
  unfold after; rw [keepQueue_time, keepClock_time]

theorem after_chip (f : State → State) (s : State) (h : (effectOf f s).flt.detected = []) :
    (after f s).chip = (effectOf f s).chip := by rw [after_quiet f s h, keepQueue_chip, keepClock_chip, settle_chip]

theorem after_boot (f : State → State) (s : State) (h : (effectOf f s).flt.detected = []) :
    (after f s).boot = (effectOf f s).boot := by rw [after_quiet f s h, keepQueue_boot, keepClock_boot, settle_boot]

theorem after_cal (f : State → State) (s : State) (h : (effectOf f s).flt.detected = []) :
    (after f s).cal = (effectOf f s).cal := by rw [after_quiet f s h, keepQueue_cal, keepClock_cal, settle_cal]

theorem after_xfer (f : State → State) (s : State) (h : (effectOf f s).flt.detected = []) :
    (after f s).xfer = (effectOf f s).xfer := by rw [after_quiet f s h, keepQueue_xfer, keepClock_xfer, settle_xfer]

theorem after_lanes (f : State → State) (s : State) (h : (effectOf f s).flt.detected = []) :
    (after f s).lanes = (effectOf f s).lanes := by rw [after_quiet f s h, keepQueue_lanes, keepClock_lanes, settle_lanes]

theorem after_bgls (f : State → State) (s : State) (h : (effectOf f s).flt.detected = []) :
    (after f s).bgls = (effectOf f s).bgls := by rw [after_quiet f s h, keepQueue_bgls, keepClock_bgls, settle_bgls]

theorem after_dclks (f : State → State) (s : State) (h : (effectOf f s).flt.detected = []) :
    (after f s).dclks = (effectOf f s).dclks := by rw [after_quiet f s h, keepQueue_dclks, keepClock_dclks, settle_dclks]

theorem after_srefs (f : State → State) (s : State) (h : (effectOf f s).flt.detected = []) :
    (after f s).srefs = (effectOf f s).srefs := by rw [after_quiet f s h, keepQueue_srefs, keepClock_srefs, settle_srefs]

theorem after_jesds (f : State → State) (s : State) (h : (effectOf f s).flt.detected = []) :
    (after f s).jesds = (effectOf f s).jesds := by rw [after_quiet f s h, keepQueue_jesds, keepClock_jesds, settle_jesds]

theorem after_bglIns (f : State → State) (s : State) (h : (effectOf f s).flt.detected = []) :
    (after f s).bglIns = (effectOf f s).bglIns := by rw [after_quiet f s h, keepQueue_bglIns, keepClock_bglIns, settle_bglIns]

theorem after_scps (f : State → State) (s : State) (h : (effectOf f s).flt.detected = []) :
    (after f s).scps = (effectOf f s).scps := by rw [after_quiet f s h, keepQueue_scps, keepClock_scps, settle_scps]

theorem after_channels (f : State → State) (s : State) (h : (effectOf f s).flt.detected = []) :
    (after f s).channels = (effectOf f s).channels := by rw [after_quiet f s h, keepQueue_channels, keepClock_channels, settle_channels]

theorem after_pipes (f : State → State) (s : State) (h : (effectOf f s).flt.detected = []) :
    (after f s).pipes = (effectOf f s).pipes := by rw [after_quiet f s h, keepQueue_pipes, keepClock_pipes, settle_pipes]

theorem after_profiles (f : State → State) (s : State) (h : (effectOf f s).flt.detected = []) :
    (after f s).profiles = (effectOf f s).profiles := by rw [after_quiet f s h, keepQueue_profiles, keepClock_profiles, settle_profiles]

theorem after_ledger (f : State → State) (s : State) (h : (effectOf f s).flt.detected = []) :
    (after f s).ledger = (effectOf f s).ledger := by rw [after_quiet f s h, keepQueue_ledger, keepClock_ledger, settle_ledger]

theorem after_cap (f : State → State) (s : State) (h : (effectOf f s).flt.detected = []) :
    (after f s).cap = (effectOf f s).cap := by rw [after_quiet f s h, keepQueue_cap, keepClock_cap, settle_cap]

theorem after_comp (f : State → State) (s : State) (h : (effectOf f s).flt.detected = []) :
    (after f s).comp = (effectOf f s).comp := by rw [after_quiet f s h, keepQueue_comp, keepClock_comp, settle_comp]

theorem after_strm (f : State → State) (s : State) (h : (effectOf f s).flt.detected = []) :
    (after f s).strm = (effectOf f s).strm := by rw [after_quiet f s h, keepQueue_strm, keepClock_strm, settle_strm]

theorem after_upl (f : State → State) (s : State) (h : (effectOf f s).flt.detected = []) :
    (after f s).upl = (effectOf f s).upl := by rw [after_quiet f s h, keepQueue_upl, keepClock_upl, settle_upl]

theorem after_flt (f : State → State) (s : State) (h : (effectOf f s).flt.detected = []) :
    (after f s).flt = (effectOf f s).flt := by rw [after_quiet f s h, keepQueue_flt, keepClock_flt, settle_flt]

theorem after_island (f : State → State) (s : State) (h : (effectOf f s).flt.detected = []) :
    (after f s).island = (effectOf f s).island := by rw [after_quiet f s h, keepQueue_island, keepClock_island, settle_island]

theorem after_freeCount (f : State → State) (s : State) (h : (effectOf f s).flt.detected = []) :
    (after f s).freeCount = (effectOf f s).freeCount := by rw [after_quiet f s h, keepQueue_freeCount, keepClock_freeCount, settle_freeCount]

end Sys2Proof.Machine
end

