-- ==== Sys2Proof/Laws/Clock.lean ====
section
/-! SUPPORT. Hub Time stays in its range: through ticks, offset steps and the firing of the calendar; and no fault event
outlives the command that detects it. -/

namespace Sys2Proof.Machine

/-! ## Ticks and steps of the time base -/

theorem advance_ok (t : TimeSt) (inc : Nat) : (t.advance inc).ok := by
  unfold TimeSt.advance TimeSt.ok
  exact ⟨Nat.mod_lt _ (by decide), Nat.mod_lt _ (by decide), Nat.mod_lt _ (by decide)⟩

theorem tick_ok (t : TimeSt) : t.tick.ok := advance_ok t _

theorem passTick_ok (s : State) (h : s.time.ok) : s.passTick.time.ok := by
  unfold State.passTick
  dsimp only
  split
  · exact tick_ok s.time
  · exact h

/-- An offset step leaves Hub Time in range wherever it goes (R77). -/
theorem shift_ok (t : TimeSt) (d : Int) : (t.shift d).ok := by
  unfold TimeSt.shift TimeSt.ok
  have hp : (0 : Int) < ((2 ^ 48 * unitsPerSec : Nat) : Int) := by decide
  have h0 := Int.emod_nonneg ((t.now : Int) + d) (Int.ne_of_gt hp)
  have h1 := Int.emod_lt_of_pos ((t.now : Int) + d) hp
  generalize ((t.now : Int) + d) % ((2 ^ 48 * unitsPerSec : Nat) : Int) = x at h0 h1
  unfold unitsPerSec at h1 ⊢
  refine ⟨?_, ?_, ?_⟩ <;> dsimp only <;> omega

theorem offsetStep_ok (ns : Int) (frac : W16) (s : State) : (offsetStep ns frac s).time.ok := by
  unfold offsetStep
  simp only [keepClock_time]
  exact shift_ok _ _

/-! ## The firing of the calendar -/

theorem completeFire_time (f : FireRec) (s : State) : (completeFire f s).time = s.time := by
  unfold completeFire
  split
  · exact complete_time ..
  · rfl

theorem logFire_time (e : CalEntry) (o : Nat) (x : Bytes) (s : State) : (logFire e o x s).time = s.time := by
  unfold logFire
  dsimp only
  split
  · split
    · rfl
    · exact completeFire_time ..
  · rfl

theorem keepClock_ok {old new : State} (h : old.time.ok) : (keepClock old new).time.ok := by
  rw [keepClock_time]
  exact h

theorem forEach_ok {α : Type} (f : α → State → State) (hf : ∀ x s, s.time.ok → (f x s).time.ok) :
    ∀ (xs : List α) (s : State), s.time.ok → (forEach xs f s).time.ok
  | [], _, h => h
  | x :: xs, s, h => forEach_ok f hf xs (f x s) (hf x s h)

/-- An entry's firing keeps Hub Time in range where its action does so. -/
theorem fireBy_ok (f : CalEntry → T16 → Nat → State → State) (stepped : Bool) (x : CalEntry × Nat) (s : State)
    (hf : ∀ t o (u : State), x.1.isStep = true → u.time.ok → (f x.1 t o u).time.ok) (h : s.time.ok) :
    (fireBy f stepped x s).time.ok := by
  unfold fireBy
  dsimp only
  split
  · exact h
  · split
    · exact keepClock_ok h
    · split
      · exact hf _ _ _ (by assumption) h
      · exact keepClock_ok h

theorem act_ok (e : CalEntry) (t : T16) (o : Nat) (s : State) (h : e.isStep = true) : (act e t o s).time.ok := by
  unfold CalEntry.isStep at h
  split at h
  · rename_i ns frac he
    unfold act
    rw [he]
    exact offsetStep_ok ns frac s
  · exact absurd h (by decide)

theorem fireEntry_ok (stepped : Bool) (x : CalEntry × Nat) (s : State) (h : s.time.ok) : (fireEntry stepped x s).time.ok :=
  fireBy_ok act stepped x s (fun t o u k _ => act_ok x.1 t o u k) h

theorem fireRest_ok (stepped : Bool) : ∀ (xs : List (CalEntry × Nat)) (told : List (Nat × Bytes)) (s : State),
    s.time.ok → (fireRest stepped told xs s).time.ok
  | [], _, _, h => h
  | (e, o) :: xs, told, s, h => by
    unfold fireRest
    split
    · refine fireRest_ok stepped xs _ _ (fireBy_ok _ _ _ _ (fun _ _ _ _ k => ?_) h)
      rw [logFire_time]
      exact k
    · split
      · rename_i n k he
        refine fireRest_ok stepped xs _ _ (fireBy_ok _ _ _ _ (fun _ _ _ k _ => ?_) h)
        unfold CalEntry.isStep at k
        rw [he] at k
        exact Bool.noConfusion k
      · exact fireRest_ok stepped xs _ _ (fireEntry_ok _ _ _ h)

theorem resumePeriodic_time (xs : List Nat) (s : State) : (resumePeriodic xs s).time = s.time := rfl

theorem stepOver_ok : ∀ (n : Nat) (old : State) (seen : List Nat) (p : Passed) (s : State),
    s.time.ok → (stepOver n old seen p s).2.time.ok
  | 0, _, _, _, _, h => h
  | n + 1, _, _, _, _, h => by
    rw [stepOver]
    split
    · exact h
    · exact stepOver_ok n _ _ _ _ (forEach_ok _ (fun x t k => fireEntry_ok _ x t k) _ _ h)

/-- What the class-1 entries of a tick leave, before the rest of its set. -/
theorem restFire_ok (stepped : Bool) (told : List (Nat × Bytes)) (seen : List Nat) (one rest : List (CalEntry × Nat)) (s : State)
    (h : s.time.ok) :
    (fireRest stepped told rest (forEach one (fun x t => logFire x.1 x.2 [] t)
      (if stepped then resumePeriodic seen s else s))).time.ok := by
  refine fireRest_ok _ _ _ _ (forEach_ok _ (fun x t k => ?_) _ _ ?_)
  · rw [logFire_time]
    exact k
  · split
    · rw [resumePeriodic_time]
      exact h
    · exact h

theorem calendarFire_ok (s : State) (h : s.time.ok) : (calendarFire s).time.ok := by
  unfold calendarFire
  exact restFire_ok _ _ _ _ _ _ (stepOver_ok _ _ _ _ _ (forEach_ok _ (fun x t k => fireEntry_ok _ x t k) _ _ h))

/-! ## The power of the time base -/

theorem aonLoss_time (s : State) : (aonLoss s).time = {} := rfl

theorem fresh_time_ok : ({} : TimeSt).ok := ⟨by decide, by decide, by decide⟩

theorem vddAonUp_ok (s : State) (h : s.time.ok) : (vddAonUp s).time.ok := by
  unfold vddAonUp
  split
  · exact h
  · exact fresh_time_ok

theorem vddAonLoss_ok (s : State) (h : s.time.ok) : (vddAonLoss s).time.ok := by
  unfold vddAonLoss
  split
  · exact h
  · exact fresh_time_ok

/-! ## Reactions come to an end -/

theorem chipReset_acted (s : State) : (chipReset s).flt.detected = [] := rfl

theorem actFaults_acted (old : State) : ∀ (n : Nat) (s : State), (actFaults old n s).flt.detected = []
  | 0, _ => rfl
  | n + 1, s => by
    unfold actFaults
    split
    · assumption
    · dsimp only
      split
      · rfl
      · split
        · exact chipReset_acted _
        · exact actFaults_acted old n _

theorem settled_acted (f : State → State) (s : State) : (settled f s).flt.detected = [] := by
  unfold settled
  rw [settle_flt]
  exact actFaults_acted _ _ _

/-- A command that leaves the clock alone keeps the invariant. -/
theorem after_inv (f : State → State) (s : State) (h : s.time.ok) : (after f s).Inv := by
  refine ⟨?_, ?_⟩
  · unfold after
    rw [keepQueue_time]
    exact keepClock_ok h
  · unfold after
    rw [keepQueue_flt, keepClock_flt]
    exact settled_acted f s

/-- So does one that may set the clock, where its own effect keeps Hub Time in range. -/
theorem afterClock_inv (f : State → State) (s : State) (h : (effectOf f s).time.ok) : (afterClock f s).Inv := by
  refine ⟨?_, ?_⟩
  · unfold afterClock
    rw [keepQueue_time]
    exact keepClock_ok h
  · unfold afterClock
    rw [keepQueue_flt, keepClock_flt]
    exact settled_acted f s

theorem passTick_inv (s : State) (h : s.Inv) : s.passTick.Inv := ⟨passTick_ok s h.time, h.acted⟩

/-- A tick with no command keeps the invariant, with the decisions of the DSP cycle that ends. -/
theorem idle_inv (s : State) (h : s.Inv) : s.idle.Inv := by
  unfold State.idle
  refine passTick_inv _ ?_
  split
  · exact after_inv decideAll s h.time
  · exact ⟨h.time, h.acted⟩

end Sys2Proof.Machine
end

