-- ==== Sys2Proof/Laws/Tables.lean ====
section
/-! SUPPORT. Tables and memories: reading after writing, and the canonical form that every write keeps. -/

namespace Sys2Proof.Machine

variable {α : Type} [DecidableEq α]

/-- The form from a key holds from every lower key. -/
theorem twfFrom_mono (d : α) (t : Tbl α) : ∀ lo hi, lo ≤ hi → twfFrom d hi t = true → twfFrom d lo t = true := by
  cases t with
  | nil => intro _ _ _ _; rfl
  | cons p t =>
    intro lo hi h w
    simp only [twfFrom, Bool.and_eq_true, decide_eq_true_eq] at w ⊢
    exact ⟨⟨Nat.le_trans h w.1.1, w.1.2⟩, w.2⟩

/-- Leaving entries out keeps the canonical form. -/
theorem filter_wf_from (d : α) (f : Nat × α → Bool) (t : Tbl α) : ∀ lo, twfFrom d lo t = true →
    twfFrom d lo (t.filter f) = true := by
  induction t with
  | nil => intro _ h; exact h
  | cons p t ih =>
    intro lo h
    simp only [twfFrom, Bool.and_eq_true, decide_eq_true_eq] at h
    by_cases hf : f p = true
    · simp only [List.filter, hf, twfFrom, Bool.and_eq_true, decide_eq_true_eq]
      exact ⟨h.1, ih _ h.2⟩
    · simp only [List.filter, Bool.not_eq_true] at hf ⊢
      rw [hf]
      exact ih lo (twfFrom_mono d t lo (p.1 + 1) (by omega) h.2)

theorem tput_wf_from (d : α) (t : Tbl α) (k : Nat) (v : α) (hv : v ≠ d) :
    ∀ lo, lo ≤ k → twfFrom d lo t = true → twfFrom d lo (tput t k v) = true := by
  induction t with
  | nil => intro lo h _; simp [tput, hv, twfFrom, h]
  | cons p t ih =>
    intro lo h w
    simp only [twfFrom, Bool.and_eq_true, decide_eq_true_eq] at w
    obtain ⟨⟨hlo, hd⟩, ht⟩ := w
    unfold tput
    split
    · simp [hv, twfFrom, h, hd, ht, Nat.succ_le_of_lt ‹_›]
    · split
      · rename_i e
        subst e
        simp [hv, twfFrom, hlo, ht]
      · simp only [twfFrom, Bool.and_eq_true, decide_eq_true_eq]
        exact ⟨⟨hlo, hd⟩, ih (p.1 + 1) (by omega) ht⟩

/-- Writing keeps the canonical form. -/
theorem tset_wf (d : α) (t : Tbl α) (k : Nat) (v : α) (h : twf d t = true) : twf d (tset d t k v) = true := by
  unfold tset
  split
  · exact filter_wf_from d _ t 0 h
  · exact tput_wf_from d t k v ‹_› 0 (Nat.zero_le k) h

omit [DecidableEq α] in
theorem tget_tput_self (d : α) (t : Tbl α) (k : Nat) (v : α) : tget d (tput t k v) k = v := by
  induction t with
  | nil => simp [tput, tget]
  | cons p t ih =>
    unfold tput
    split
    · simp [tget]
    · split
      · simp [tget]
      · simp [tget, Ne.symm ‹_›, ih]

omit [DecidableEq α] in
theorem tget_tput_ne (d : α) (t : Tbl α) (k j : Nat) (v : α) (hj : j ≠ k) : tget d (tput t k v) j = tget d t j := by
  induction t with
  | nil => simp [tput, tget, Ne.symm hj]
  | cons p t ih =>
    unfold tput
    split
    · simp [tget, Ne.symm hj]
    · split
      · rename_i e
        subst e
        simp [tget, Ne.symm hj]
      · simp [tget, ih]

omit [DecidableEq α] in
theorem tget_filter_self (d : α) (t : Tbl α) (k : Nat) : tget d (t.filter fun p => p.1 != k) k = d := by
  induction t with
  | nil => rfl
  | cons p t ih =>
    by_cases e : p.1 = k <;> simp [e, tget, ih]

omit [DecidableEq α] in
theorem tget_filter_ne (d : α) (t : Tbl α) (k j : Nat) (hj : j ≠ k) :
    tget d (t.filter fun p => p.1 != k) j = tget d t j := by
  induction t with
  | nil => rfl
  | cons p t ih =>
    by_cases e : p.1 = k
    · simp [e, tget, ih, Ne.symm hj]
    · simp [e, tget, ih]

/-- A written entry reads back, in every table. -/
@[simp] theorem tget_tset_self (d : α) (t : Tbl α) (k : Nat) (v : α) : tget d (tset d t k v) k = v := by
  unfold tset
  split
  · rename_i e
    rw [tget_filter_self, e]
  · exact tget_tput_self d t k v

/-- Every other entry stays. -/
theorem tget_tset_ne (d : α) (t : Tbl α) (k j : Nat) (v : α) (hj : j ≠ k) : tget d (tset d t k v) j = tget d t j := by
  unfold tset
  split
  · exact tget_filter_ne d t k j hj
  · exact tget_tput_ne d t k j v hj

/-! ## Memories -/

theorem memSet_wf (m : List Host.Cell) (a : Nat) (b : Byte) (h : memWf m = true) : memWf (memSet m a b) = true :=
  tset_wf memDefault m a b h

theorem memWrite_wf (bs : Bytes) : ∀ (m : List Host.Cell) (a : Nat), memWf m = true → memWf (memWrite m a bs) = true := by
  induction bs with
  | nil => intro _ _ h; exact h
  | cons b bs ih => intro m a h; exact ih _ _ (memSet_wf m a b h)

theorem memGet_memSet_self (m : List Host.Cell) (a : Nat) (b : Byte) : memGet (memSet m a b) a = b :=
  tget_tset_self memDefault m a b

theorem memGet_memSet_ne (m : List Host.Cell) (a c : Nat) (b : Byte) (h : c ≠ a) :
    memGet (memSet m a b) c = memGet m c := tget_tset_ne memDefault m a c b h

/-- A byte string changes no byte outside its own span. -/
theorem memGet_memWrite_outside (bs : Bytes) : ∀ (m : List Host.Cell) (a c : Nat), (c < a ∨ a + bs.length ≤ c) →
    memGet (memWrite m a bs) c = memGet m c := by
  induction bs with
  | nil => intro _ _ _ _; rfl
  | cons b bs ih =>
    intro m a c h
    simp only [List.length_cons] at h
    rw [memWrite, ih (memSet m a b) (a + 1) c (by omega), memGet_memSet_ne m a c b (by omega)]

/-- What was written reads back. -/
theorem memRead_memWrite (bs : Bytes) : ∀ (m : List Host.Cell) (a : Nat), memRead (memWrite m a bs) a bs.length = bs := by
  induction bs with
  | nil => intro _ _; rfl
  | cons b bs ih =>
    intro m a
    simp only [List.length_cons, memRead, memWrite]
    rw [ih, memGet_memWrite_outside bs (memSet m a b) (a + 1) a (by omega), memGet_memSet_self]

end Sys2Proof.Machine
end

