-- ==== Sys2Proof/Laws/Mailboxes.lean ====
section
/-! SUPPORT. What notices leave of a mailbox: everything but its hub_seq, its queue, its slots and its lost-notice
counter. -/

namespace Sys2Proof.Machine

/-- A property of a mailbox that notices cannot change. -/
def Lasting (P : Mailbox → Prop) : Prop :=
  ∀ (b : Mailbox) (q : W32) (w : List Entry) (l : W32) (o : Bool) (k : List Nat), P b →
    P { b with hubSeq := q, waiting := w, lost := l, lostOwed := o, slots := k }

theorem Lasting.setMb {P : Mailbox → Prop} (m k : Nat) (b : Mailbox) (s : State) (hs : P (s.mb k)) (hb : k = m → P b) :
    P ((s.setMb m b).mb k) := by
  unfold State.setMb State.mb at *
  dsimp only
  by_cases e : k = m
  · subst e
    rw [tget_tset_self]
    exact hb rfl
  · rw [tget_tset_ne _ _ _ _ _ e]
    exact hs

theorem Lasting.notifyOne {P : Mailbox → Prop} (h : Lasting P) (o : Nat) (p : Bytes) (m k : Nat) (s : State)
    (hs : P (s.mb k)) : P ((notifyOne o p m s).mb k) := by
  have w : ∀ (q l : W32) (b : List Entry) (o : Bool), P ((s.setMb m { s.mb m with
      hubSeq := q, waiting := b, lost := l, lostOwed := o }).mb k) :=
    fun _ _ _ _ => Lasting.setMb m k _ s hs fun e => h _ _ _ _ _ _ (e ▸ hs)
  unfold Machine.notifyOne
  split
  · exact w _ _ _ _
  · exact w _ _ _ _

theorem Lasting.forEach {P : Mailbox → Prop} {α : Type} (f : α → State → State) (k : Nat)
    (hf : ∀ a s, P (s.mb k) → P ((f a s).mb k)) (xs : List α) : ∀ s, P (s.mb k) → P ((forEach xs f s).mb k) := by
  induction xs with
  | nil => intro s h; exact h
  | cons a xs ih => intro s h; exact ih (f a s) (hf a s h)

theorem Lasting.notify {P : Mailbox → Prop} (h : Lasting P) (o : Nat) (p : Bytes) (k : Nat) (s : State)
    (hs : P (s.mb k)) : P ((notify o p s).mb k) := by
  unfold Machine.notify
  split
  · exact Lasting.forEach _ k (fun m t => h.notifyOne o p m k t) _ s hs
  · split <;> exact hs

theorem Lasting.tellBounds {P : Mailbox → Prop} (h : Lasting P) (q : Nat) (i : Option Nat) (old s : State) (k : Nat)
    (hs : P (s.mb k)) : P ((tellBounds q i old s).mb k) := by
  unfold Machine.tellBounds
  refine Lasting.forEach _ k (fun p t ht => ?_) _ s hs
  split
  · refine Lasting.forEach _ k (fun m u => h.notifyOne _ p m k u) _ _ ?_
    split
    · split
      · exact h.notifyOne _ _ _ _ _ ht
      · exact ht
    · exact ht
  · exact h.notify _ _ _ _ ht

theorem Lasting.returnSlot {P : Mailbox → Prop} (h : Lasting P) (m n k : Nat) (s : State) (hs : P (s.mb k)) :
    P ((returnSlot m n s).mb k) :=
  Lasting.setMb m k _ s hs fun e => h _ _ _ _ _ _ (e ▸ hs)

theorem Lasting.complete {P : Mailbox → Prop} (h : Lasting P) (j : JobRef) (st d : Nat) (p : Bytes) (k : Nat) (s : State)
    (hs : P (s.mb k)) : P ((complete j st d p s).mb k) := by
  unfold Machine.complete
  split
  · have w : ∀ b : List Entry, P ((s.setMb j.mb { s.mb j.mb with hubSeq := (s.mb j.mb).hubSeq + 1, waiting := b }).mb k) :=
      fun _ => Lasting.setMb j.mb k _ s hs fun e => h _ _ _ _ _ _ (e ▸ hs)
    unfold completeNow
    dsimp only
    split
    · exact w _
    · exact h.returnSlot j.mb j.slot k _ (w _)
  · exact hs

theorem Lasting.releaseFrom {P : Mailbox → Prop} (h : Lasting P) (n k : Nat) (s : State) (hs : P (s.mb k)) :
    P ((releaseFrom n s).mb k) := by
  unfold Machine.releaseFrom
  refine Lasting.forEach _ k (fun x t ht => ?_) _ _ hs
  cases x
  · exact h.notify _ _ _ _ ht
  · exact h.complete _ _ _ _ _ _ ht

/-- A stored response outlives notices. -/
theorem lasting_stored (x : Stored) : Lasting fun b => b.stored = some x :=
  fun _ _ _ _ _ _ h => h

theorem lasting_ringErr : Lasting fun b => b.ringErr = true :=
  fun _ _ _ _ _ _ h => h

end Sys2Proof.Machine
end

