-- ==== Sys2Proof/Laws/Faults.lean ====
section
/-! SUPPORT. One fault event without a reset: what it leaves of the state. -/

namespace Sys2Proof.Machine

/-- The fault event of a source that asks for no reset: its registers, and a notice. -/
def noted (b n u : Nat) (s : State) : State := (setSource ⟨b, n, u, none⟩ s).1

theorem setSource_open (b n u : Nat) (s : State) (hp : ¬ (b = 13 ∧ n = 0)) (hg : s.gated b n u = false) :
    setSource ⟨b, n, u, none⟩ s =
      (let byte := if !(s.blk b).sticky.getLsbD n then (s.setBlk b ((s.blk b).seen s.now n u)).reaction b n else 0
       let t := s.setBlk b ((s.blk b).seen s.now n u)
       (if byte.getLsbD 0 || byte.getLsbD 1 || false then faultEvent ⟨b, n, u, none⟩ byte t else t,
         if !(s.blk b).sticky.getLsbD n then some byte else none)) := by
  unfold setSource logLine
  simp only [hp, if_false, hg, Bool.false_eq_true, Option.isSome_none]
  rfl

/-- The notices of an event leave all but the mailboxes; its registers are as R373 says. -/
theorem noted_eq (b n u : Nat) (s : State) (hp : ¬ (b = 13 ∧ n = 0)) (hg : s.gated b n u = false) :
    HcpOnly (s.setBlk b ((s.blk b).seen s.now n u)) (noted b n u s) := by
  unfold noted
  rw [setSource_open b n u s hp hg]
  dsimp only
  repeat' split
  all_goals first
    | exact faultEvent_hcp ..
    | exact .refl _

/-- The reaction bytes of a block do not change with an event. -/
theorem reaction_seen (b n u : Nat) (s : State) (now : T16) :
    (s.setBlk b ((s.blk b).seen now n u)).reaction b n = s.reaction b n := by
  unfold State.reaction State.blk State.setBlk
  rw [tget_tset_self]
  rfl

/-- The reaction of an event that asks for no reset. -/
theorem setSource_reaction (b n u : Nat) (s : State) (h : Quietly b n u s) :
    ∃ r, setSource ⟨b, n, u, none⟩ s = (noted b n u s, r) ∧ ∀ x ∈ r, resetField x = 0 := by
  refine ⟨(setSource ⟨b, n, u, none⟩ s).2, rfl, ?_⟩
  rw [setSource_open b n u s h.plain.2 h.open_]
  dsimp only
  rw [reaction_seen]
  have hr := h.noReset
  intro x hx
  cases hs : (s.blk b).sticky.getLsbD n with
  | true => simp [hs] at hx
  | false => simp [hs] at hx; rw [← hx]; exact hr

/-- An event that asks for no reset ends there. -/
theorem actFaults_single (old s x : State) (k b n u : Nat) (hk : 2 ≤ k) (hd : s.flt.detected = [⟨b, n, u, none⟩])
    (hx : ({ s with flt := { s.flt with detected := [] } } : State) = x) (h : Quietly b n u x) :
    actFaults old k s = noted b n u x := by
  obtain ⟨j, rfl⟩ : ∃ j, k = j + 2 := ⟨k - 2, by omega⟩
  obtain ⟨r, hr, h0⟩ := setSource_reaction b n u _ h
  have hq : (noted b n u x).flt.detected = [] := by
    rw [(noted_eq b n u x h.plain.2 h.open_).flt, ← hx]; rfl
  have hend := actFaults_quiet old (j + 1) _ (by omega) hq
  have hl := h.live
  have hn : (b == 3 && n == 3) = false := by
    have := h.plain.1
    by_cases h3 : b = 3 <;> by_cases h4 : n = 3 <;> simp_all
  rw [actFaults]
  simp only [hd, hx, hl, Bool.false_eq_true, if_false, setSources]
  cases r with
  | none =>
    have hc : chipAsked [] = none := rfl
    simp [hr, hc, forEach, hn, hend]
  | some v =>
    have hv := h0 v rfl
    have hc : chipAsked [((⟨b, n, u, none⟩ : Detected), v)] = none := by simp [chipAsked, hv]
    simp [hr, hc, hv, forEach, hn, hend]

/-! ## The next state of a command that detects one such event -/

/-- The state of a command's effect with its event taken off. -/
def acted (s : State) : State := { s with flt := { s.flt with detected := [] } }

theorem acted_noted {f : State → State} {s : State} {b n u : Nat}
    (hd : (effectOf f s).flt.detected = [⟨b, n, u, none⟩]) (h : Quietly b n u (acted (effectOf f s))) :
    after f s = keepQueue s (keepClock s (settle s (noted b n u (acted (effectOf f s))))) := by
  unfold after settled
  rw [actFaults_single s (effectOf f s) (acted (effectOf f s)) reactionDepth b n u (by simp [reactionDepth]) hd rfl h]

theorem noted_time {b n u : Nat} {s : State} (h : Quietly b n u s) : (noted b n u s).time = s.time :=
  (noted_eq b n u s h.plain.2 h.open_).time

theorem after_noted_time {f : State → State} {s : State} {b n u : Nat}
    (hd : (effectOf f s).flt.detected = [⟨b, n, u, none⟩]) (h : Quietly b n u (acted (effectOf f s))) :
    (after f s).time = { (effectOf f s).time with sec := s.time.sec, ns := s.time.ns, frac40 := s.time.frac40 } := by
  rw [acted_noted hd h]
  simp only [keepQueue_time, keepClock_time, settle_time, noted_time h]
  rfl

/-- The registers of the source's block. -/
theorem after_noted_flt {f : State → State} {s : State} {b n u : Nat}
    (hd : (effectOf f s).flt.detected = [⟨b, n, u, none⟩]) (h : Quietly b n u (acted (effectOf f s))) :
    Noted b n u (acted (effectOf f s)) (after f s) := by
  unfold Noted
  rw [acted_noted hd h, keepQueue_flt, keepClock_flt, settle_flt, (noted_eq b n u _ h.plain.2 h.open_).flt]
  rfl

theorem after_noted_chip {f : State → State} {s : State} {b n u : Nat}
    (hd : (effectOf f s).flt.detected = [⟨b, n, u, none⟩]) (h : Quietly b n u (acted (effectOf f s))) :
    (after f s).chip = (effectOf f s).chip := by
  rw [acted_noted hd h, keepQueue_chip, keepClock_chip, settle_chip, (noted_eq b n u _ h.plain.2 h.open_).chip]
  rfl

theorem after_noted_boot {f : State → State} {s : State} {b n u : Nat}
    (hd : (effectOf f s).flt.detected = [⟨b, n, u, none⟩]) (h : Quietly b n u (acted (effectOf f s))) :
    (after f s).boot = (effectOf f s).boot := by
  rw [acted_noted hd h, keepQueue_boot, keepClock_boot, settle_boot, (noted_eq b n u _ h.plain.2 h.open_).boot]
  rfl

theorem after_noted_cal {f : State → State} {s : State} {b n u : Nat}
    (hd : (effectOf f s).flt.detected = [⟨b, n, u, none⟩]) (h : Quietly b n u (acted (effectOf f s))) :
    (after f s).cal = (effectOf f s).cal := by
  rw [acted_noted hd h, keepQueue_cal, keepClock_cal, settle_cal, (noted_eq b n u _ h.plain.2 h.open_).cal]
  rfl

theorem after_noted_xfer {f : State → State} {s : State} {b n u : Nat}
    (hd : (effectOf f s).flt.detected = [⟨b, n, u, none⟩]) (h : Quietly b n u (acted (effectOf f s))) :
    (after f s).xfer = (effectOf f s).xfer := by
  rw [acted_noted hd h, keepQueue_xfer, keepClock_xfer, settle_xfer, (noted_eq b n u _ h.plain.2 h.open_).xfer]
  rfl

theorem after_noted_lanes {f : State → State} {s : State} {b n u : Nat}
    (hd : (effectOf f s).flt.detected = [⟨b, n, u, none⟩]) (h : Quietly b n u (acted (effectOf f s))) :
    (after f s).lanes = (effectOf f s).lanes := by
  rw [acted_noted hd h, keepQueue_lanes, keepClock_lanes, settle_lanes, (noted_eq b n u _ h.plain.2 h.open_).lanes]
  rfl

theorem after_noted_bgls {f : State → State} {s : State} {b n u : Nat}
    (hd : (effectOf f s).flt.detected = [⟨b, n, u, none⟩]) (h : Quietly b n u (acted (effectOf f s))) :
    (after f s).bgls = (effectOf f s).bgls := by
  rw [acted_noted hd h, keepQueue_bgls, keepClock_bgls, settle_bgls, (noted_eq b n u _ h.plain.2 h.open_).bgls]
  rfl

theorem after_noted_dclks {f : State → State} {s : State} {b n u : Nat}
    (hd : (effectOf f s).flt.detected = [⟨b, n, u, none⟩]) (h : Quietly b n u (acted (effectOf f s))) :
    (after f s).dclks = (effectOf f s).dclks := by
  rw [acted_noted hd h, keepQueue_dclks, keepClock_dclks, settle_dclks, (noted_eq b n u _ h.plain.2 h.open_).dclks]
  rfl

theorem after_noted_srefs {f : State → State} {s : State} {b n u : Nat}
    (hd : (effectOf f s).flt.detected = [⟨b, n, u, none⟩]) (h : Quietly b n u (acted (effectOf f s))) :
    (after f s).srefs = (effectOf f s).srefs := by
  rw [acted_noted hd h, keepQueue_srefs, keepClock_srefs, settle_srefs, (noted_eq b n u _ h.plain.2 h.open_).srefs]
  rfl

theorem after_noted_jesds {f : State → State} {s : State} {b n u : Nat}
    (hd : (effectOf f s).flt.detected = [⟨b, n, u, none⟩]) (h : Quietly b n u (acted (effectOf f s))) :
    (after f s).jesds = (effectOf f s).jesds := by
  rw [acted_noted hd h, keepQueue_jesds, keepClock_jesds, settle_jesds, (noted_eq b n u _ h.plain.2 h.open_).jesds]
  rfl

theorem after_noted_bglIns {f : State → State} {s : State} {b n u : Nat}
    (hd : (effectOf f s).flt.detected = [⟨b, n, u, none⟩]) (h : Quietly b n u (acted (effectOf f s))) :
    (after f s).bglIns = (effectOf f s).bglIns := by
  rw [acted_noted hd h, keepQueue_bglIns, keepClock_bglIns, settle_bglIns, (noted_eq b n u _ h.plain.2 h.open_).bglIns]
  rfl

theorem after_noted_scps {f : State → State} {s : State} {b n u : Nat}
    (hd : (effectOf f s).flt.detected = [⟨b, n, u, none⟩]) (h : Quietly b n u (acted (effectOf f s))) :
    (after f s).scps = (effectOf f s).scps := by
  rw [acted_noted hd h, keepQueue_scps, keepClock_scps, settle_scps, (noted_eq b n u _ h.plain.2 h.open_).scps]
  rfl

theorem after_noted_channels {f : State → State} {s : State} {b n u : Nat}
    (hd : (effectOf f s).flt.detected = [⟨b, n, u, none⟩]) (h : Quietly b n u (acted (effectOf f s))) :
    (after f s).channels = (effectOf f s).channels := by
  rw [acted_noted hd h, keepQueue_channels, keepClock_channels, settle_channels, (noted_eq b n u _ h.plain.2 h.open_).channels]
  rfl

theorem after_noted_pipes {f : State → State} {s : State} {b n u : Nat}
    (hd : (effectOf f s).flt.detected = [⟨b, n, u, none⟩]) (h : Quietly b n u (acted (effectOf f s))) :
    (after f s).pipes = (effectOf f s).pipes := by
  rw [acted_noted hd h, keepQueue_pipes, keepClock_pipes, settle_pipes, (noted_eq b n u _ h.plain.2 h.open_).pipes]
  rfl

theorem after_noted_profiles {f : State → State} {s : State} {b n u : Nat}
    (hd : (effectOf f s).flt.detected = [⟨b, n, u, none⟩]) (h : Quietly b n u (acted (effectOf f s))) :
    (after f s).profiles = (effectOf f s).profiles := by
  rw [acted_noted hd h, keepQueue_profiles, keepClock_profiles, settle_profiles, (noted_eq b n u _ h.plain.2 h.open_).profiles]
  rfl

theorem after_noted_ledger {f : State → State} {s : State} {b n u : Nat}
    (hd : (effectOf f s).flt.detected = [⟨b, n, u, none⟩]) (h : Quietly b n u (acted (effectOf f s))) :
    (after f s).ledger = (effectOf f s).ledger := by
  rw [acted_noted hd h, keepQueue_ledger, keepClock_ledger, settle_ledger, (noted_eq b n u _ h.plain.2 h.open_).ledger]
  rfl

theorem after_noted_cap {f : State → State} {s : State} {b n u : Nat}
    (hd : (effectOf f s).flt.detected = [⟨b, n, u, none⟩]) (h : Quietly b n u (acted (effectOf f s))) :
    (after f s).cap = (effectOf f s).cap := by
  rw [acted_noted hd h, keepQueue_cap, keepClock_cap, settle_cap, (noted_eq b n u _ h.plain.2 h.open_).cap]
  rfl

theorem after_noted_comp {f : State → State} {s : State} {b n u : Nat}
    (hd : (effectOf f s).flt.detected = [⟨b, n, u, none⟩]) (h : Quietly b n u (acted (effectOf f s))) :
    (after f s).comp = (effectOf f s).comp := by
  rw [acted_noted hd h, keepQueue_comp, keepClock_comp, settle_comp, (noted_eq b n u _ h.plain.2 h.open_).comp]
  rfl

theorem after_noted_strm {f : State → State} {s : State} {b n u : Nat}
    (hd : (effectOf f s).flt.detected = [⟨b, n, u, none⟩]) (h : Quietly b n u (acted (effectOf f s))) :
    (after f s).strm = (effectOf f s).strm := by
  rw [acted_noted hd h, keepQueue_strm, keepClock_strm, settle_strm, (noted_eq b n u _ h.plain.2 h.open_).strm]
  rfl

theorem after_noted_upl {f : State → State} {s : State} {b n u : Nat}
    (hd : (effectOf f s).flt.detected = [⟨b, n, u, none⟩]) (h : Quietly b n u (acted (effectOf f s))) :
    (after f s).upl = (effectOf f s).upl := by
  rw [acted_noted hd h, keepQueue_upl, keepClock_upl, settle_upl, (noted_eq b n u _ h.plain.2 h.open_).upl]
  rfl

theorem after_noted_island {f : State → State} {s : State} {b n u : Nat}
    (hd : (effectOf f s).flt.detected = [⟨b, n, u, none⟩]) (h : Quietly b n u (acted (effectOf f s))) :
    (after f s).island = (effectOf f s).island := by
  rw [acted_noted hd h, keepQueue_island, keepClock_island, settle_island, (noted_eq b n u _ h.plain.2 h.open_).island]
  rfl

theorem after_noted_freeCount {f : State → State} {s : State} {b n u : Nat}
    (hd : (effectOf f s).flt.detected = [⟨b, n, u, none⟩]) (h : Quietly b n u (acted (effectOf f s))) :
    (after f s).freeCount = (effectOf f s).freeCount := by
  rw [acted_noted hd h, keepQueue_freeCount, keepClock_freeCount, settle_freeCount, (noted_eq b n u _ h.plain.2 h.open_).freeCount]
  rfl

theorem after_noted_ports {f : State → State} {s : State} {b n u : Nat}
    (hd : (effectOf f s).flt.detected = [⟨b, n, u, none⟩]) (h : Quietly b n u (acted (effectOf f s))) :
    (after f s).hcp.ports = (effectOf f s).hcp.ports := by
  rw [acted_noted hd h, keepQueue_hcp, keepClock_hcp, settle_ports, (noted_eq b n u _ h.plain.2 h.open_).ports]
  rfl

/-- What a notice cannot change in a mailbox stays. -/
theorem after_noted_mb {P : Mailbox → Prop} (hP : Lasting P) {f : State → State} {s : State} {b n u : Nat}
    (hd : (effectOf f s).flt.detected = [⟨b, n, u, none⟩]) (h : Quietly b n u (acted (effectOf f s))) (k : Nat)
    (hk : P ((effectOf f s).mb k)) : P ((after f s).mb k) := by
  have e : (after f s).mb k = (noted b n u (acted (effectOf f s))).mb k := by
    unfold State.mb
    rw [acted_noted hd h, keepQueue_hcp, keepClock_hcp, settle_mbs]
  rw [e]
  unfold noted
  rw [setSource_open b n u _ h.plain.2 h.open_]
  dsimp only
  repeat' split
  all_goals first
    | exact hP.notify _ _ _ _ hk
    | exact hk

/-- The frame of a command that detects one such event: its effect's, the fault registers and the mailboxes apart. -/
theorem after_noted_keeps {f : State → State} {s : State} {b n u : Nat} {ch : List Part}
    (hd : (effectOf f s).flt.detected = [⟨b, n, u, none⟩]) (h : Quietly b n u (acted (effectOf f s)))
    (hf : Part.flt ∈ ch) (hh : Part.hcp ∈ ch) (hk : Keeps ch s (effectOf f s)) : Keeps ch s (after f s) := by
  intro p hp
  have k := hk p hp
  cases p with
  | hcp => exact absurd hh hp
  | ports => exact (after_noted_ports hd h).trans k
  | flt => exact absurd hf hp
  | tick => exact after_tick f s
  | queue => exact after_pending f s
  | time =>
    have e : (effectOf f s).time = s.time := k
    show (after f s).time = s.time
    rw [after_noted_time hd h, e]
  | free => exact (after_noted_freeCount hd h).trans k
  | chip => exact (after_noted_chip hd h).trans k
  | boot => exact (after_noted_boot hd h).trans k
  | cal => exact (after_noted_cal hd h).trans k
  | xfer => exact (after_noted_xfer hd h).trans k
  | lanes => exact (after_noted_lanes hd h).trans k
  | bgls => exact (after_noted_bgls hd h).trans k
  | dclks => exact (after_noted_dclks hd h).trans k
  | srefs => exact (after_noted_srefs hd h).trans k
  | jesds => exact (after_noted_jesds hd h).trans k
  | bglIns => exact (after_noted_bglIns hd h).trans k
  | scps => exact (after_noted_scps hd h).trans k
  | channels => exact (after_noted_channels hd h).trans k
  | pipes => exact (after_noted_pipes hd h).trans k
  | profiles => exact (after_noted_profiles hd h).trans k
  | ledger => exact (after_noted_ledger hd h).trans k
  | cap => exact (after_noted_cap hd h).trans k
  | comp => exact (after_noted_comp hd h).trans k
  | strm => exact (after_noted_strm hd h).trans k
  | upl => exact (after_noted_upl hd h).trans k
  | island => exact (after_noted_island hd h).trans k

end Sys2Proof.Machine
end

