-- ==== Sys2Proof/Laws/Requests.lean ====
section
/-! SUPPORT. Requests: an accepted request has its opcode's effect, and its answer is stored. -/

namespace Sys2Proof.Machine

/-- Peaks are in the ledger alone. -/
theorem notePeaks_eq (s : State) : notePeaks s = { s with ledger := (notePeaks s).ledger } := by
  unfold notePeaks
  generalize (List.range 11).flatMap _ = xs
  induction xs generalizing s with
  | nil => rfl
  | cons x xs ih =>
    simp only [forEach, List.foldl_cons] at ih ⊢
    split
    · have := ih { s with ledger := { s.ledger with peak := tset 0 s.ledger.peak (peakKey x.1 x.2) (s.used x.1 x.2) } }
      rw [this]
    · exact ih s

@[simp] theorem notePeaks_ports (s : State) : (notePeaks s).hcp.ports = s.hcp.ports :=
  (congrArg (fun x : State => x.hcp.ports) (notePeaks_eq s)).trans rfl

theorem notePeaks_hcp (s : State) : (notePeaks s).hcp = s.hcp := (congrArg State.hcp (notePeaks_eq s)).trans rfl

@[simp] theorem notePeaks_chip (s : State) : (notePeaks s).chip = s.chip := (congrArg State.chip (notePeaks_eq s)).trans rfl
@[simp] theorem notePeaks_boot (s : State) : (notePeaks s).boot = s.boot := (congrArg State.boot (notePeaks_eq s)).trans rfl
@[simp] theorem notePeaks_time (s : State) : (notePeaks s).time = s.time := (congrArg State.time (notePeaks_eq s)).trans rfl
@[simp] theorem notePeaks_cal (s : State) : (notePeaks s).cal = s.cal := (congrArg State.cal (notePeaks_eq s)).trans rfl
@[simp] theorem notePeaks_xfer (s : State) : (notePeaks s).xfer = s.xfer := (congrArg State.xfer (notePeaks_eq s)).trans rfl
@[simp] theorem notePeaks_lanes (s : State) : (notePeaks s).lanes = s.lanes := (congrArg State.lanes (notePeaks_eq s)).trans rfl
@[simp] theorem notePeaks_bgls (s : State) : (notePeaks s).bgls = s.bgls := (congrArg State.bgls (notePeaks_eq s)).trans rfl
@[simp] theorem notePeaks_dclks (s : State) : (notePeaks s).dclks = s.dclks := (congrArg State.dclks (notePeaks_eq s)).trans rfl
@[simp] theorem notePeaks_srefs (s : State) : (notePeaks s).srefs = s.srefs := (congrArg State.srefs (notePeaks_eq s)).trans rfl
@[simp] theorem notePeaks_jesds (s : State) : (notePeaks s).jesds = s.jesds := (congrArg State.jesds (notePeaks_eq s)).trans rfl
@[simp] theorem notePeaks_bglIns (s : State) : (notePeaks s).bglIns = s.bglIns := (congrArg State.bglIns (notePeaks_eq s)).trans rfl
@[simp] theorem notePeaks_scps (s : State) : (notePeaks s).scps = s.scps := (congrArg State.scps (notePeaks_eq s)).trans rfl
@[simp] theorem notePeaks_channels (s : State) : (notePeaks s).channels = s.channels := (congrArg State.channels (notePeaks_eq s)).trans rfl
@[simp] theorem notePeaks_pipes (s : State) : (notePeaks s).pipes = s.pipes := (congrArg State.pipes (notePeaks_eq s)).trans rfl
@[simp] theorem notePeaks_profiles (s : State) : (notePeaks s).profiles = s.profiles := (congrArg State.profiles (notePeaks_eq s)).trans rfl
@[simp] theorem notePeaks_cap (s : State) : (notePeaks s).cap = s.cap := (congrArg State.cap (notePeaks_eq s)).trans rfl
@[simp] theorem notePeaks_comp (s : State) : (notePeaks s).comp = s.comp := (congrArg State.comp (notePeaks_eq s)).trans rfl
@[simp] theorem notePeaks_strm (s : State) : (notePeaks s).strm = s.strm := (congrArg State.strm (notePeaks_eq s)).trans rfl
@[simp] theorem notePeaks_upl (s : State) : (notePeaks s).upl = s.upl := (congrArg State.upl (notePeaks_eq s)).trans rfl
@[simp] theorem notePeaks_flt (s : State) : (notePeaks s).flt = s.flt := (congrArg State.flt (notePeaks_eq s)).trans rfl
@[simp] theorem notePeaks_island (s : State) : (notePeaks s).island = s.island := (congrArg State.island (notePeaks_eq s)).trans rfl
@[simp] theorem notePeaks_tick (s : State) : (notePeaks s).tick = s.tick := (congrArg State.tick (notePeaks_eq s)).trans rfl
@[simp] theorem notePeaks_freeCount (s : State) : (notePeaks s).freeCount = s.freeCount := (congrArg State.freeCount (notePeaks_eq s)).trans rfl
@[simp] theorem notePeaks_emitted (s : State) : (notePeaks s).emitted = s.emitted := (congrArg State.emitted (notePeaks_eq s)).trans rfl
@[simp] theorem notePeaks_pending (s : State) : (notePeaks s).pending = s.pending := (congrArg State.pending (notePeaks_eq s)).trans rfl

theorem taking_hcp_only (s : State) (op : Op) (r : Req) :
    s.taking op r = { s with emitted := [], hcp := (s.taking op r).hcp } := by
  unfold State.taking acceptReq State.setMb
  split <;> rfl

@[simp] theorem taking_chip (s : State) (op : Op) (r : Req) : (s.taking op r).chip = s.chip := (congrArg State.chip (taking_hcp_only s op r)).trans rfl
@[simp] theorem taking_boot (s : State) (op : Op) (r : Req) : (s.taking op r).boot = s.boot := (congrArg State.boot (taking_hcp_only s op r)).trans rfl
@[simp] theorem taking_time (s : State) (op : Op) (r : Req) : (s.taking op r).time = s.time := (congrArg State.time (taking_hcp_only s op r)).trans rfl
@[simp] theorem taking_cal (s : State) (op : Op) (r : Req) : (s.taking op r).cal = s.cal := (congrArg State.cal (taking_hcp_only s op r)).trans rfl
@[simp] theorem taking_xfer (s : State) (op : Op) (r : Req) : (s.taking op r).xfer = s.xfer := (congrArg State.xfer (taking_hcp_only s op r)).trans rfl
@[simp] theorem taking_lanes (s : State) (op : Op) (r : Req) : (s.taking op r).lanes = s.lanes := (congrArg State.lanes (taking_hcp_only s op r)).trans rfl
@[simp] theorem taking_bgls (s : State) (op : Op) (r : Req) : (s.taking op r).bgls = s.bgls := (congrArg State.bgls (taking_hcp_only s op r)).trans rfl
@[simp] theorem taking_dclks (s : State) (op : Op) (r : Req) : (s.taking op r).dclks = s.dclks := (congrArg State.dclks (taking_hcp_only s op r)).trans rfl
@[simp] theorem taking_srefs (s : State) (op : Op) (r : Req) : (s.taking op r).srefs = s.srefs := (congrArg State.srefs (taking_hcp_only s op r)).trans rfl
@[simp] theorem taking_jesds (s : State) (op : Op) (r : Req) : (s.taking op r).jesds = s.jesds := (congrArg State.jesds (taking_hcp_only s op r)).trans rfl
@[simp] theorem taking_bglIns (s : State) (op : Op) (r : Req) : (s.taking op r).bglIns = s.bglIns := (congrArg State.bglIns (taking_hcp_only s op r)).trans rfl
@[simp] theorem taking_scps (s : State) (op : Op) (r : Req) : (s.taking op r).scps = s.scps := (congrArg State.scps (taking_hcp_only s op r)).trans rfl
@[simp] theorem taking_channels (s : State) (op : Op) (r : Req) : (s.taking op r).channels = s.channels := (congrArg State.channels (taking_hcp_only s op r)).trans rfl
@[simp] theorem taking_pipes (s : State) (op : Op) (r : Req) : (s.taking op r).pipes = s.pipes := (congrArg State.pipes (taking_hcp_only s op r)).trans rfl
@[simp] theorem taking_profiles (s : State) (op : Op) (r : Req) : (s.taking op r).profiles = s.profiles := (congrArg State.profiles (taking_hcp_only s op r)).trans rfl
@[simp] theorem taking_cap (s : State) (op : Op) (r : Req) : (s.taking op r).cap = s.cap := (congrArg State.cap (taking_hcp_only s op r)).trans rfl
@[simp] theorem taking_comp (s : State) (op : Op) (r : Req) : (s.taking op r).comp = s.comp := (congrArg State.comp (taking_hcp_only s op r)).trans rfl
@[simp] theorem taking_strm (s : State) (op : Op) (r : Req) : (s.taking op r).strm = s.strm := (congrArg State.strm (taking_hcp_only s op r)).trans rfl
@[simp] theorem taking_upl (s : State) (op : Op) (r : Req) : (s.taking op r).upl = s.upl := (congrArg State.upl (taking_hcp_only s op r)).trans rfl
@[simp] theorem taking_flt (s : State) (op : Op) (r : Req) : (s.taking op r).flt = s.flt := (congrArg State.flt (taking_hcp_only s op r)).trans rfl
@[simp] theorem taking_island (s : State) (op : Op) (r : Req) : (s.taking op r).island = s.island := (congrArg State.island (taking_hcp_only s op r)).trans rfl
@[simp] theorem taking_tick (s : State) (op : Op) (r : Req) : (s.taking op r).tick = s.tick := (congrArg State.tick (taking_hcp_only s op r)).trans rfl
@[simp] theorem taking_freeCount (s : State) (op : Op) (r : Req) : (s.taking op r).freeCount = s.freeCount := (congrArg State.freeCount (taking_hcp_only s op r)).trans rfl
@[simp] theorem taking_emitted (s : State) (op : Op) (r : Req) : (s.taking op r).emitted = [] := (congrArg State.emitted (taking_hcp_only s op r)).trans rfl
@[simp] theorem taking_pending (s : State) (op : Op) (r : Req) : (s.taking op r).pending = s.pending := (congrArg State.pending (taking_hcp_only s op r)).trans rfl
@[simp] theorem taking_ledger (s : State) (op : Op) (r : Req) : (s.taking op r).ledger = s.ledger := (congrArg State.ledger (taking_hcp_only s op r)).trans rfl

@[simp] theorem taking_ports (s : State) (op : Op) (r : Req) : (s.taking op r).hcp.ports = s.hcp.ports := by
  unfold State.taking acceptReq State.setMb
  split <;> rfl

theorem taking_version2 (s : State) (op : Op) (r : Req) : ((s.taking op r).mb r.mb.val).version2 = (s.mb r.mb.val).version2 := by
  unfold State.taking acceptReq State.setMb State.mb
  split
  all_goals
    dsimp only
    rw [tget_tset_self]

/-- What a served request does to the state, before the bounds are told. -/
def servedState (op : Op) (r : Req) (s : State) : State :=
  let e := op.effect r (s.taking op r)
  releaseFrom (s.taking op r).hcp.held.length
    (storeAnswer op.code r (v2Answer (s.mb r.mb.val).version2 e.2) (if op.ledger then notePeaks e.1 else e.1))

theorem served_eq {op : Op} {r : Req} {s : State} (h : Accepted op r s) :
    effectOf (serveRow op r) s =
      if op.ledger then tellBounds r.hostSeq.toNat (some r.mb.val) (s.taking op r) (servedState op r s)
      else servedState op r s := by
  have hs : ({ s with emitted := [] } : State).serves = true := h.served
  have hr : ({ s with emitted := [] } : State).canTake r.mb.val = true := h.room
  have hp : perform op (s.mb r.mb.val).version2 r (s.taking op r) =
      (if op.ledger then notePeaks (op.effect r (s.taking op r)).1 else (op.effect r (s.taking op r)).1,
        (op.effect r (s.taking op r)).2) := by
    unfold perform
    rw [h.checks]
    dsimp only
    cases hl : op.ledger with
    | false => simp
    | true =>
      obtain ⟨hb, hx⟩ := h.ledger hl
      simp only [taking_flt, hb, admitChange, hx, if_true, if_false, Bool.false_eq_true]
  have key : effectOf (serveRow op r) s = (let x := s.taking op r
      let v2 := (x.mb r.mb.val).version2
      let t := releaseFrom x.hcp.held.length (storeAnswer op.code r (v2Answer v2 (perform op v2 r x).2) (perform op v2 r x).1)
      if op.ledger then tellBounds r.hostSeq.toNat (some r.mb.val) x t else t) := by
    unfold effectOf serveRow
    rw [hs, hr]
    unfold serve State.taking
    by_cases h8 : r.mb.val = 8
    · simp only [h8, if_true, Bool.and_self]
    · simp only [h8, if_true, if_false, Bool.and_self]
  rw [key]
  dsimp only
  rw [taking_version2, hp]
  rfl

theorem served_chip {op : Op} {r : Req} {s : State} (h : Accepted op r s) :
    (effectOf (serveRow op r) s).chip = (op.effect r (s.taking op r)).1.chip := by
  rw [served_eq h]; split <;> simp [servedState, *]

theorem served_boot {op : Op} {r : Req} {s : State} (h : Accepted op r s) :
    (effectOf (serveRow op r) s).boot = (op.effect r (s.taking op r)).1.boot := by
  rw [served_eq h]; split <;> simp [servedState, *]

theorem served_time {op : Op} {r : Req} {s : State} (h : Accepted op r s) :
    (effectOf (serveRow op r) s).time = (op.effect r (s.taking op r)).1.time := by
  rw [served_eq h]; split <;> simp [servedState, *]

theorem served_cal {op : Op} {r : Req} {s : State} (h : Accepted op r s) :
    (effectOf (serveRow op r) s).cal = (op.effect r (s.taking op r)).1.cal := by
  rw [served_eq h]; split <;> simp [servedState, *]

theorem served_xfer {op : Op} {r : Req} {s : State} (h : Accepted op r s) :
    (effectOf (serveRow op r) s).xfer = (op.effect r (s.taking op r)).1.xfer := by
  rw [served_eq h]; split <;> simp [servedState, *]

theorem served_lanes {op : Op} {r : Req} {s : State} (h : Accepted op r s) :
    (effectOf (serveRow op r) s).lanes = (op.effect r (s.taking op r)).1.lanes := by
  rw [served_eq h]; split <;> simp [servedState, *]

theorem served_bgls {op : Op} {r : Req} {s : State} (h : Accepted op r s) :
    (effectOf (serveRow op r) s).bgls = (op.effect r (s.taking op r)).1.bgls := by
  rw [served_eq h]; split <;> simp [servedState, *]

theorem served_dclks {op : Op} {r : Req} {s : State} (h : Accepted op r s) :
    (effectOf (serveRow op r) s).dclks = (op.effect r (s.taking op r)).1.dclks := by
  rw [served_eq h]; split <;> simp [servedState, *]

theorem served_srefs {op : Op} {r : Req} {s : State} (h : Accepted op r s) :
    (effectOf (serveRow op r) s).srefs = (op.effect r (s.taking op r)).1.srefs := by
  rw [served_eq h]; split <;> simp [servedState, *]

theorem served_jesds {op : Op} {r : Req} {s : State} (h : Accepted op r s) :
    (effectOf (serveRow op r) s).jesds = (op.effect r (s.taking op r)).1.jesds := by
  rw [served_eq h]; split <;> simp [servedState, *]

theorem served_bglIns {op : Op} {r : Req} {s : State} (h : Accepted op r s) :
    (effectOf (serveRow op r) s).bglIns = (op.effect r (s.taking op r)).1.bglIns := by
  rw [served_eq h]; split <;> simp [servedState, *]

theorem served_scps {op : Op} {r : Req} {s : State} (h : Accepted op r s) :
    (effectOf (serveRow op r) s).scps = (op.effect r (s.taking op r)).1.scps := by
  rw [served_eq h]; split <;> simp [servedState, *]

theorem served_channels {op : Op} {r : Req} {s : State} (h : Accepted op r s) :
    (effectOf (serveRow op r) s).channels = (op.effect r (s.taking op r)).1.channels := by
  rw [served_eq h]; split <;> simp [servedState, *]

theorem served_pipes {op : Op} {r : Req} {s : State} (h : Accepted op r s) :
    (effectOf (serveRow op r) s).pipes = (op.effect r (s.taking op r)).1.pipes := by
  rw [served_eq h]; split <;> simp [servedState, *]

theorem served_profiles {op : Op} {r : Req} {s : State} (h : Accepted op r s) :
    (effectOf (serveRow op r) s).profiles = (op.effect r (s.taking op r)).1.profiles := by
  rw [served_eq h]; split <;> simp [servedState, *]

theorem served_cap {op : Op} {r : Req} {s : State} (h : Accepted op r s) :
    (effectOf (serveRow op r) s).cap = (op.effect r (s.taking op r)).1.cap := by
  rw [served_eq h]; split <;> simp [servedState, *]

theorem served_comp {op : Op} {r : Req} {s : State} (h : Accepted op r s) :
    (effectOf (serveRow op r) s).comp = (op.effect r (s.taking op r)).1.comp := by
  rw [served_eq h]; split <;> simp [servedState, *]

theorem served_strm {op : Op} {r : Req} {s : State} (h : Accepted op r s) :
    (effectOf (serveRow op r) s).strm = (op.effect r (s.taking op r)).1.strm := by
  rw [served_eq h]; split <;> simp [servedState, *]

theorem served_upl {op : Op} {r : Req} {s : State} (h : Accepted op r s) :
    (effectOf (serveRow op r) s).upl = (op.effect r (s.taking op r)).1.upl := by
  rw [served_eq h]; split <;> simp [servedState, *]

theorem served_flt {op : Op} {r : Req} {s : State} (h : Accepted op r s) :
    (effectOf (serveRow op r) s).flt = (op.effect r (s.taking op r)).1.flt := by
  rw [served_eq h]; split <;> simp [servedState, *]

theorem served_island {op : Op} {r : Req} {s : State} (h : Accepted op r s) :
    (effectOf (serveRow op r) s).island = (op.effect r (s.taking op r)).1.island := by
  rw [served_eq h]; split <;> simp [servedState, *]

theorem served_tick {op : Op} {r : Req} {s : State} (h : Accepted op r s) :
    (effectOf (serveRow op r) s).tick = (op.effect r (s.taking op r)).1.tick := by
  rw [served_eq h]; split <;> simp [servedState, *]

theorem served_freeCount {op : Op} {r : Req} {s : State} (h : Accepted op r s) :
    (effectOf (serveRow op r) s).freeCount = (op.effect r (s.taking op r)).1.freeCount := by
  rw [served_eq h]; split <;> simp [servedState, *]

theorem served_emitted {op : Op} {r : Req} {s : State} (h : Accepted op r s) :
    (effectOf (serveRow op r) s).emitted = (op.effect r (s.taking op r)).1.emitted := by
  rw [served_eq h]; split <;> simp [servedState, *]

theorem served_pending {op : Op} {r : Req} {s : State} (h : Accepted op r s) :
    (effectOf (serveRow op r) s).pending = (op.effect r (s.taking op r)).1.pending := by
  rw [served_eq h]; split <;> simp [servedState, *]

theorem served_ports {op : Op} {r : Req} {s : State} (h : Accepted op r s) :
    (effectOf (serveRow op r) s).hcp.ports = (op.effect r (s.taking op r)).1.hcp.ports := by
  rw [served_eq h]; split <;> simp [servedState, *]

/-- A request without a ledger decision leaves the ledger to its effect. -/
theorem served_ledger {op : Op} {r : Req} {s : State} (h : Accepted op r s) (hl : op.ledger = false) :
    (effectOf (serveRow op r) s).ledger = (op.effect r (s.taking op r)).1.ledger := by
  rw [served_eq h]; simp [hl, servedState]

theorem storeAnswer_log (code : Nat) (r : Req) (a : Ans) (s : State) : (storeAnswer code r a s).hcp.log = s.hcp.log := rfl

theorem storeAnswer_other (code : Nat) (r : Req) (a : Ans) (s : State) (m : Nat) (hm : m ≠ r.mb.val) :
    (storeAnswer code r a s).mb m = s.mb m := by
  unfold storeAnswer respond State.setMb State.mb
  dsimp only
  rw [tget_tset_ne _ _ _ _ _ hm, tget_tset_ne _ _ _ _ _ hm]

theorem taking_log (s : State) (op : Op) (r : Req) : (s.taking op r).hcp.log = s.hcp.log := by
  unfold State.taking acceptReq State.setMb
  split <;> rfl

theorem taking_other (s : State) (op : Op) (r : Req) (m : Nat) (hm : m ≠ r.mb.val) : (s.taking op r).mb m = s.mb m := by
  unfold State.taking acceptReq State.setMb State.mb
  split <;> (dsimp only; rw [tget_tset_ne _ _ _ _ _ hm])

/-- A request without a ledger decision whose effect is nothing. -/
theorem servedState_plain {op : Op} {r : Req} {s : State} {p : Bytes}
    (he : op.effect r (s.taking op r) = (s.taking op r, ⟨0, 0, p⟩)) (hl : op.ledger = false) :
    servedState op r s = storeAnswer op.code r (v2Answer (s.mb r.mb.val).version2 ⟨0, 0, p⟩) (s.taking op r) := by
  unfold servedState
  rw [he, hl]
  exact releaseFrom_all _ _ (Nat.le_refl _)

theorem servedState_log {op : Op} {r : Req} {s : State} {p : Bytes}
    (he : op.effect r (s.taking op r) = (s.taking op r, ⟨0, 0, p⟩)) (hl : op.ledger = false) :
    (servedState op r s).hcp.log = s.hcp.log := by
  rw [servedState_plain he hl, storeAnswer_log, taking_log]

theorem servedState_other {op : Op} {r : Req} {s : State} {p : Bytes}
    (he : op.effect r (s.taking op r) = (s.taking op r, ⟨0, 0, p⟩)) (hl : op.ledger = false) {m : Nat} (hm : m ≠ r.mb.val) :
    (servedState op r s).mb m = s.mb m := by
  rw [servedState_plain he hl, storeAnswer_other _ _ _ _ _ hm, taking_other _ _ _ _ hm]

theorem storeAnswer_stored (code : Nat) (r : Req) (a : Ans) (s : State) :
    ((storeAnswer code r a s).mb r.mb.val).stored = some ⟨code, a.status, r.tag, BitVec.ofNat 32 a.detail, a.payload⟩ := by
  unfold storeAnswer State.setMb State.mb
  dsimp only
  rw [tget_tset_self]

/-- The stored answer of an accepted request is its effect's answer; R65 concerns three refusals only. -/
theorem served_answered {op : Op} {r : Req} {s : State} (h : Accepted op r s) {st d : Nat} {p : Bytes}
    (ha : (op.effect r (s.taking op r)).2 = ⟨st, d, p⟩) (hv : st ≠ 0x0303 ∧ st ≠ 0x0304 ∧ st ≠ 0x0401) :
    ((effectOf (serveRow op r) s).mb r.mb.val).stored = some ⟨op.code, st, r.tag, BitVec.ofNat 32 d, p⟩ := by
  have hw : v2Answer (s.mb r.mb.val).version2 (⟨st, d, p⟩ : Ans) = ⟨st, d, p⟩ := by
    simp [v2Answer, hv.1, hv.2.1, hv.2.2]
  have hst : ((servedState op r s).mb r.mb.val).stored = some ⟨op.code, st, r.tag, BitVec.ofNat 32 d, p⟩ := by
    unfold servedState
    dsimp only
    rw [ha, hw]
    exact (lasting_stored _).releaseFrom _ _ _ (storeAnswer_stored ..)
  rw [served_eq h]
  split
  · exact (lasting_stored _).tellBounds _ _ _ _ _ hst
  · exact hst

/-! ## From the effect to the next state -/

theorem after_answered {op : Op} {r : Req} {s : State} (h : Accepted op r s)
    (hq : (op.effect r (s.taking op r)).1.flt.detected = []) {st d : Nat} {p : Bytes}
    (ha : (op.effect r (s.taking op r)).2 = ⟨st, d, p⟩) (hv : st ≠ 0x0303 ∧ st ≠ 0x0304 ∧ st ≠ 0x0401) :
    Answered op.code r st d p (after (serveRow op r) s) := by
  have hd : (effectOf (serveRow op r) s).flt.detected = [] := by rw [served_flt h]; exact hq
  unfold Answered
  rw [after_mb _ _ hd]
  exact served_answered h ha hv

/-- The frame of a command is the frame of its effect. -/
theorem after_keeps {f : State → State} {s : State} {ch : List Part} (hq : (effectOf f s).flt.detected = [])
    (hk : Keeps ch s (effectOf f s)) : Keeps ch s (after f s) := by
  intro p hp
  have k := hk p hp
  cases p with
  | tick => exact after_tick f s
  | queue => exact after_pending f s
  | time =>
    have e : (effectOf f s).time = s.time := k
    show (after f s).time = s.time
    rw [after_time f s hq, e]
  | hcp => exact (after_mail f s hq).trans k
  | ports => exact (after_ports f s hq).trans k
  | free => exact (after_freeCount f s hq).trans k
  | chip => exact (after_chip f s hq).trans k
  | boot => exact (after_boot f s hq).trans k
  | cal => exact (after_cal f s hq).trans k
  | xfer => exact (after_xfer f s hq).trans k
  | lanes => exact (after_lanes f s hq).trans k
  | bgls => exact (after_bgls f s hq).trans k
  | dclks => exact (after_dclks f s hq).trans k
  | srefs => exact (after_srefs f s hq).trans k
  | jesds => exact (after_jesds f s hq).trans k
  | bglIns => exact (after_bglIns f s hq).trans k
  | scps => exact (after_scps f s hq).trans k
  | channels => exact (after_channels f s hq).trans k
  | pipes => exact (after_pipes f s hq).trans k
  | profiles => exact (after_profiles f s hq).trans k
  | ledger => exact (after_ledger f s hq).trans k
  | cap => exact (after_cap f s hq).trans k
  | comp => exact (after_comp f s hq).trans k
  | strm => exact (after_strm f s hq).trans k
  | upl => exact (after_upl f s hq).trans k
  | flt => exact (after_flt f s hq).trans k
  | island => exact (after_island f s hq).trans k

/-- The frame of an accepted request is the frame of its opcode's effect, the mailboxes apart. -/
theorem request_keeps {op : Op} {r : Req} {s : State} {ch : List Part} (h : Accepted op r s)
    (hq : (op.effect r (s.taking op r)).1.flt.detected = []) (hh : Part.hcp ∈ ch) (hl : op.ledger = true → Part.ledger ∈ ch)
    (hk : Keeps ch s (op.effect r (s.taking op r)).1) : Keeps ch s (after (serveRow op r) s) := by
  have hd : (effectOf (serveRow op r) s).flt.detected = [] := by rw [served_flt h]; exact hq
  refine after_keeps hd ?_
  intro p hp
  have k := hk p hp
  cases p with
  | hcp => exact absurd hh hp
  | ports => exact (served_ports h).trans k
  | ledger =>
    cases hb : op.ledger with
    | true => exact absurd (hl hb) hp
    | false => exact (served_ledger h hb).trans k
  | free => exact (served_freeCount h).trans k
  | queue => exact (served_pending h).trans k
  | chip => exact (served_chip h).trans k
  | boot => exact (served_boot h).trans k
  | cal => exact (served_cal h).trans k
  | xfer => exact (served_xfer h).trans k
  | lanes => exact (served_lanes h).trans k
  | bgls => exact (served_bgls h).trans k
  | dclks => exact (served_dclks h).trans k
  | srefs => exact (served_srefs h).trans k
  | jesds => exact (served_jesds h).trans k
  | bglIns => exact (served_bglIns h).trans k
  | scps => exact (served_scps h).trans k
  | channels => exact (served_channels h).trans k
  | pipes => exact (served_pipes h).trans k
  | profiles => exact (served_profiles h).trans k
  | cap => exact (served_cap h).trans k
  | comp => exact (served_comp h).trans k
  | strm => exact (served_strm h).trans k
  | upl => exact (served_upl h).trans k
  | flt => exact (served_flt h).trans k
  | island => exact (served_island h).trans k
  | time => exact (served_time h).trans k
  | tick => exact (served_tick h).trans k

end Sys2Proof.Machine
end

