-- ==== Sys2Proof/Laws/Statements.lean ====
section
/-! SUPPORT. From the effect of a command to a statement about its next state. -/

namespace Sys2Proof.Machine

/-- `t` is the next state of a command on `s` whose own effect is `x`: `x`, but for the clock, the queue, the emissions and
the pending bits. -/
structure Follows (s x t : State) : Prop where
  emitted : ∀ e ∈ x.emitted, e ∈ t.emitted
  hcp : t.hcp = { x.hcp with pba := t.hcp.pba }
  time : t.time = { x.time with sec := s.time.sec, ns := s.time.ns, frac40 := s.time.frac40 }
  tick : t.tick = s.tick
  pending : t.pending = s.pending
  flt : t.flt = x.flt
  chip : t.chip = x.chip
  boot : t.boot = x.boot
  cal : t.cal = x.cal
  xfer : t.xfer = x.xfer
  lanes : t.lanes = x.lanes
  bgls : t.bgls = x.bgls
  dclks : t.dclks = x.dclks
  srefs : t.srefs = x.srefs
  jesds : t.jesds = x.jesds
  bglIns : t.bglIns = x.bglIns
  scps : t.scps = x.scps
  channels : t.channels = x.channels
  pipes : t.pipes = x.pipes
  profiles : t.profiles = x.profiles
  ledger : t.ledger = x.ledger
  cap : t.cap = x.cap
  comp : t.comp = x.comp
  strm : t.strm = x.strm
  upl : t.upl = x.upl
  island : t.island = x.island
  freeCount : t.freeCount = x.freeCount

theorem Follows.mb {s x t : State} (h : Follows s x t) (m : Nat) : t.mb m = x.mb m := by
  unfold State.mb; rw [h.hcp]

theorem follows_after {f : State → State} {s x : State} (he : effectOf f s = x) (hq : x.flt.detected = []) :
    Follows s x (after f s) := by
  subst he
  exact {
    emitted := after_emitted f s hq
    hcp := after_hcp f s hq
    time := after_time f s hq
    tick := after_tick f s
    pending := after_pending f s
    flt := after_flt f s hq
    chip := after_chip f s hq
    boot := after_boot f s hq
    cal := after_cal f s hq
    xfer := after_xfer f s hq
    lanes := after_lanes f s hq
    bgls := after_bgls f s hq
    dclks := after_dclks f s hq
    srefs := after_srefs f s hq
    jesds := after_jesds f s hq
    bglIns := after_bglIns f s hq
    scps := after_scps f s hq
    channels := after_channels f s hq
    pipes := after_pipes f s hq
    profiles := after_profiles f s hq
    ledger := after_ledger f s hq
    cap := after_cap f s hq
    comp := after_comp f s hq
    strm := after_strm f s hq
    upl := after_upl f s hq
    island := after_island f s hq
    freeCount := after_freeCount f s hq }

/-- A command that detects no fault gives what its effect gives. -/
theorem gives_of_effect {i : Instr} {s x : State} {f : State → State} {ch : List Part} {post : State → Prop}
    (hi : exec i s = .next (after f s)) (he : effectOf f s = x) (hq : x.flt.detected = []) (hk : Keeps ch s x)
    (hp : ∀ t, Follows s x t → post t) : Gives i s ch post :=
  ⟨_, hi, after_keeps (by rw [he]; exact hq) (by rw [he]; exact hk), hp _ (follows_after he hq)⟩

/-- A command that may set the clock: its effect's clock stays. -/
theorem keepClock_twice (s c x : State) : keepQueue s (keepClock c x) = keepClock c (keepQueue s (keepClock s x)) := rfl

theorem afterClock_eq (f : State → State) (s : State) : afterClock f s = keepClock (effectOf f s) (after f s) :=
  keepClock_twice s (effectOf f s) (settled f s)

theorem gives_of_clock_effect {i : Instr} {s x : State} {f : State → State} {ch : List Part} {post : State → Prop}
    (hi : exec i s = .next (afterClock f s)) (he : effectOf f s = x) (hq : x.flt.detected = []) (hw : x.pending = s.pending)
    (hk : Keeps ch s x) (hp : ∀ t, Follows x x t → post t) : Gives i s ch post := by
  subst he
  have F := follows_after (f := f) (s := s) rfl hq
  have T : (afterClock f s).time = (effectOf f s).time := by
    rw [afterClock_eq, keepClock_time, F.time]
  have G : Follows (effectOf f s) (effectOf f s) (afterClock f s) := by
    constructor
    case time => exact T
    case tick => rw [afterClock_eq, keepClock_tick]
    case pending => rw [afterClock_eq, keepClock_pending]; exact F.pending.trans hw.symm
    case emitted => rw [afterClock_eq, keepClock_emitted]; exact F.emitted
    case hcp => rw [afterClock_eq, keepClock_hcp]; exact F.hcp
    case flt => rw [afterClock_eq, keepClock_flt]; exact F.flt
    case chip => rw [afterClock_eq, keepClock_chip]; exact F.chip
    case boot => rw [afterClock_eq, keepClock_boot]; exact F.boot
    case cal => rw [afterClock_eq, keepClock_cal]; exact F.cal
    case xfer => rw [afterClock_eq, keepClock_xfer]; exact F.xfer
    case lanes => rw [afterClock_eq, keepClock_lanes]; exact F.lanes
    case bgls => rw [afterClock_eq, keepClock_bgls]; exact F.bgls
    case dclks => rw [afterClock_eq, keepClock_dclks]; exact F.dclks
    case srefs => rw [afterClock_eq, keepClock_srefs]; exact F.srefs
    case jesds => rw [afterClock_eq, keepClock_jesds]; exact F.jesds
    case bglIns => rw [afterClock_eq, keepClock_bglIns]; exact F.bglIns
    case scps => rw [afterClock_eq, keepClock_scps]; exact F.scps
    case channels => rw [afterClock_eq, keepClock_channels]; exact F.channels
    case pipes => rw [afterClock_eq, keepClock_pipes]; exact F.pipes
    case profiles => rw [afterClock_eq, keepClock_profiles]; exact F.profiles
    case ledger => rw [afterClock_eq, keepClock_ledger]; exact F.ledger
    case cap => rw [afterClock_eq, keepClock_cap]; exact F.cap
    case comp => rw [afterClock_eq, keepClock_comp]; exact F.comp
    case strm => rw [afterClock_eq, keepClock_strm]; exact F.strm
    case upl => rw [afterClock_eq, keepClock_upl]; exact F.upl
    case island => rw [afterClock_eq, keepClock_island]; exact F.island
    case freeCount => rw [afterClock_eq, keepClock_freeCount]; exact F.freeCount
  refine ⟨_, hi, ?_, hp _ G⟩
  intro p hc
  have k := hk p hc
  cases p with
  | tick => exact G.tick.trans k
  | queue => exact G.pending.trans k
  | time => exact T.trans k
  | hcp => exact ((congrArg Hcp.mail G.hcp).trans (mail_pba _ _)).trans k
  | ports => exact ((congrArg Hcp.ports G.hcp).trans (ports_pba _ _)).trans k
  | free => exact G.freeCount.trans k
  | flt => exact G.flt.trans k
  | chip => exact G.chip.trans k
  | boot => exact G.boot.trans k
  | cal => exact G.cal.trans k
  | xfer => exact G.xfer.trans k
  | lanes => exact G.lanes.trans k
  | bgls => exact G.bgls.trans k
  | dclks => exact G.dclks.trans k
  | srefs => exact G.srefs.trans k
  | jesds => exact G.jesds.trans k
  | bglIns => exact G.bglIns.trans k
  | scps => exact G.scps.trans k
  | channels => exact G.channels.trans k
  | pipes => exact G.pipes.trans k
  | profiles => exact G.profiles.trans k
  | ledger => exact G.ledger.trans k
  | cap => exact G.cap.trans k
  | comp => exact G.comp.trans k
  | strm => exact G.strm.trans k
  | upl => exact G.upl.trans k
  | island => exact G.island.trans k

/-- A fault reaction leaves the clock that the command's effect has set. -/
theorem afterClock_kept {f : State → State} {s : State} (h : (effectOf f s).time.sec = s.time.sec)
    (h2 : (effectOf f s).time.ns = s.time.ns) (h3 : (effectOf f s).time.frac40 = s.time.frac40)
    (h4 : (effectOf f s).tick = s.tick) : afterClock f s = after f s := by
  unfold afterClock after keepClock
  rw [h, h2, h3, h4]

/-- `t` is the next state of a command whose effect `x` detects one fault event that asks for no reset. -/
structure FollowsNoted (b n u : Nat) (s x t : State) : Prop where
  time : t.time = { x.time with sec := s.time.sec, ns := s.time.ns, frac40 := s.time.frac40 }
  tick : t.tick = s.tick
  pending : t.pending = s.pending
  flt : t.flt = { x.flt with detected := [], blocks := tset {} x.flt.blocks b ((x.blk b).seen x.now n u) }
  mb : ∀ P : Mailbox → Prop, Lasting P → ∀ k, P (x.mb k) → P (t.mb k)
  chip : t.chip = x.chip
  boot : t.boot = x.boot
  cal : t.cal = x.cal
  xfer : t.xfer = x.xfer
  lanes : t.lanes = x.lanes
  bgls : t.bgls = x.bgls
  dclks : t.dclks = x.dclks
  srefs : t.srefs = x.srefs
  jesds : t.jesds = x.jesds
  bglIns : t.bglIns = x.bglIns
  scps : t.scps = x.scps
  channels : t.channels = x.channels
  pipes : t.pipes = x.pipes
  profiles : t.profiles = x.profiles
  ledger : t.ledger = x.ledger
  cap : t.cap = x.cap
  comp : t.comp = x.comp
  strm : t.strm = x.strm
  upl : t.upl = x.upl
  island : t.island = x.island
  freeCount : t.freeCount = x.freeCount

theorem follows_noted {f : State → State} {s x : State} {b n u : Nat} (he : effectOf f s = x)
    (hd : x.flt.detected = [⟨b, n, u, none⟩]) (h : Quietly b n u (acted x)) : FollowsNoted b n u s x (after f s) := by
  subst he
  exact {
    time := after_noted_time hd h
    tick := after_tick f s
    pending := after_pending f s
    flt := after_noted_flt hd h
    mb := fun P hP k hk => after_noted_mb hP hd h k hk
    chip := after_noted_chip hd h
    boot := after_noted_boot hd h
    cal := after_noted_cal hd h
    xfer := after_noted_xfer hd h
    lanes := after_noted_lanes hd h
    bgls := after_noted_bgls hd h
    dclks := after_noted_dclks hd h
    srefs := after_noted_srefs hd h
    jesds := after_noted_jesds hd h
    bglIns := after_noted_bglIns hd h
    scps := after_noted_scps hd h
    channels := after_noted_channels hd h
    pipes := after_noted_pipes hd h
    profiles := after_noted_profiles hd h
    ledger := after_noted_ledger hd h
    cap := after_noted_cap hd h
    comp := after_noted_comp hd h
    strm := after_noted_strm hd h
    upl := after_noted_upl hd h
    island := after_noted_island hd h
    freeCount := after_noted_freeCount hd h }

theorem gives_of_noted {i : Instr} {s x : State} {f : State → State} {b n u : Nat} {ch : List Part} {post : State → Prop}
    (hi : exec i s = .next (after f s)) (he : effectOf f s = x) (hd : x.flt.detected = [⟨b, n, u, none⟩])
    (h : Quietly b n u (acted x)) (hf : Part.flt ∈ ch) (hh : Part.hcp ∈ ch) (hk : Keeps ch s x)
    (hp : ∀ t, FollowsNoted b n u s x t → post t) : Gives i s ch post :=
  ⟨_, hi, after_noted_keeps (by rw [he]; exact hd) (by rw [he]; exact h) hf hh (by rw [he]; exact hk),
    hp _ (follows_noted he hd h)⟩

/-- `t` is the next state of an accepted request whose opcode's effect is `x`. -/
structure FollowsReq (op : Op) (r : Req) (s x t : State) : Prop where
  emitted : ∀ e ∈ x.emitted, e ∈ t.emitted
  ports : t.hcp.ports = x.hcp.ports
  time : t.time = { x.time with sec := s.time.sec, ns := s.time.ns, frac40 := s.time.frac40 }
  tick : t.tick = s.tick
  pending : t.pending = s.pending
  flt : t.flt = x.flt
  ledger : op.ledger = false → t.ledger = x.ledger
  chip : t.chip = x.chip
  boot : t.boot = x.boot
  cal : t.cal = x.cal
  xfer : t.xfer = x.xfer
  lanes : t.lanes = x.lanes
  bgls : t.bgls = x.bgls
  dclks : t.dclks = x.dclks
  srefs : t.srefs = x.srefs
  jesds : t.jesds = x.jesds
  bglIns : t.bglIns = x.bglIns
  scps : t.scps = x.scps
  channels : t.channels = x.channels
  pipes : t.pipes = x.pipes
  profiles : t.profiles = x.profiles
  cap : t.cap = x.cap
  comp : t.comp = x.comp
  strm : t.strm = x.strm
  upl : t.upl = x.upl
  island : t.island = x.island
  freeCount : t.freeCount = x.freeCount

theorem follows_req {op : Op} {r : Req} {s x : State} (h : Accepted op r s) (he : (op.effect r (s.taking op r)).1 = x)
    (hq : x.flt.detected = []) : FollowsReq op r s x (after (serveRow op r) s) := by
  subst he
  have hd : (effectOf (serveRow op r) s).flt.detected = [] := by rw [served_flt h]; exact hq
  exact {
    emitted := fun e he => after_emitted _ s hd e (by rw [served_emitted h]; exact he)
    ports := by rw [after_ports _ _ hd, served_ports h]
    time := by rw [after_time _ _ hd, served_time h]
    tick := after_tick _ s
    pending := after_pending _ s
    flt := by rw [after_flt _ _ hd, served_flt h]
    ledger := fun hl => by rw [after_ledger _ _ hd, served_ledger h hl]
    chip := by rw [after_chip _ _ hd, served_chip h]
    boot := by rw [after_boot _ _ hd, served_boot h]
    cal := by rw [after_cal _ _ hd, served_cal h]
    xfer := by rw [after_xfer _ _ hd, served_xfer h]
    lanes := by rw [after_lanes _ _ hd, served_lanes h]
    bgls := by rw [after_bgls _ _ hd, served_bgls h]
    dclks := by rw [after_dclks _ _ hd, served_dclks h]
    srefs := by rw [after_srefs _ _ hd, served_srefs h]
    jesds := by rw [after_jesds _ _ hd, served_jesds h]
    bglIns := by rw [after_bglIns _ _ hd, served_bglIns h]
    scps := by rw [after_scps _ _ hd, served_scps h]
    channels := by rw [after_channels _ _ hd, served_channels h]
    pipes := by rw [after_pipes _ _ hd, served_pipes h]
    profiles := by rw [after_profiles _ _ hd, served_profiles h]
    cap := by rw [after_cap _ _ hd, served_cap h]
    comp := by rw [after_comp _ _ hd, served_comp h]
    strm := by rw [after_strm _ _ hd, served_strm h]
    upl := by rw [after_upl _ _ hd, served_upl h]
    island := by rw [after_island _ _ hd, served_island h]
    freeCount := by rw [after_freeCount _ _ hd, served_freeCount h] }

/-- An accepted request gives what its opcode's effect gives, and its answer. -/
theorem gives_of_request {i : Instr} {op : Op} {r : Req} {s x : State} {ch : List Part} {post : State → Prop}
    (hi : exec i s = .next (after (serveRow op r) s)) (h : Accepted op r s) {st d : Nat} {p : Bytes}
    (he : op.effect r (s.taking op r) = (x, ⟨st, d, p⟩)) (hv : st ≠ 0x0303 ∧ st ≠ 0x0304 ∧ st ≠ 0x0401)
    (hq : x.flt.detected = []) (hh : Part.hcp ∈ ch) (hl : op.ledger = true → Part.ledger ∈ ch) (hk : Keeps ch s x)
    (hp : ∀ t, FollowsReq op r s x t → Answered op.code r st d p t → post t) : Gives i s ch post := by
  have e1 : (op.effect r (s.taking op r)).1 = x := by rw [he]
  have e2 : (op.effect r (s.taking op r)).2 = ⟨st, d, p⟩ := by rw [he]
  have hq' : (op.effect r (s.taking op r)).1.flt.detected = [] := by rw [e1]; exact hq
  exact ⟨_, hi, request_keeps h hq' hh hl (by rw [e1]; exact hk),
    hp _ (follows_req h e1 hq) (after_answered h hq' e2 hv)⟩

/-- What only reads is a report: the answer, the other mailboxes and the notice log as before. -/
theorem reports_of {i : Instr} {op : Op} {r : Req} {s : State} {p : Bytes} (hi : exec i s = .next (after (serveRow op r) s))
    (h : Accepted op r s) (he : op.effect r (s.taking op r) = (s.taking op r, ⟨0, 0, p⟩)) (hl : op.ledger = false) :
    Reports i op.code r s p := by
  have e1 : (op.effect r (s.taking op r)).1 = s.taking op r := by rw [he]
  have hq : (s.taking op r).flt.detected = [] := by rw [taking_flt]; exact h.acted
  have hd : (effectOf (serveRow op r) s).flt.detected = [] := by rw [served_flt h, e1]; exact hq
  have hx : effectOf (serveRow op r) s = servedState op r s := by rw [served_eq h, hl]; rfl
  refine ⟨_, hi, request_keeps h (by rw [e1]; exact hq) (by simp) (by rw [hl]; intro k; exact Bool.noConfusion k) ?_,
    after_answered h (by rw [e1]; exact hq) (by rw [he]) (by decide), ?_, fun m hm => ?_⟩
  · rw [e1]
    intro q hc
    cases q
    case hcp => exact absurd (by simp) hc
    case ports => exact taking_ports s op r
    all_goals
      unfold Part.same
      simp
  · have a := congrArg Hcp.log (after_hcp _ _ hd)
    refine a.trans ?_
    rw [hx]
    exact servedState_log he hl
  · rw [after_mb _ _ hd, hx]
    exact servedState_other he hl hm

end Sys2Proof.Machine
end

