-- ==== Sys2Proof/Tests/Samples.lean ====
section
/-! SUPPORT. Small sample states and operands for the tests. -/

namespace Sys2Proof

open Machine

/-- A hub that serves: its rails up, the firmware running, PCI Express up, mailbox 0 open, Hub Time 1,000 s. -/
def hub : State :=
  { chip := {
      phase := .serving, bootStatus := 3, fwRunning := true, pcieUp := true, resetNLow := false
      rails := ⟨true, true, true, true, true, true, true, true⟩ }
    hcp := { mbs := [(0, { enable := true, session := .opened, reqBase := 4096, rspBase := 8192 })] }
    time := { sec := 1000, ns := 5, quality := .free } }

/-- A request of mailbox 0 with a payload. -/
def rq (p : Bytes) : Req := { mb := 0, flags := 0, hostSeq := 3, tag := 7, time := zeros 10, payload := p }

/-- A scheduled request for 2 s after Hub Time. -/
def rqAt (p : Bytes) : Req := { rq p with flags := 1, time := ts80 (1002 * unitsPerSec) }

/-- A job of mailbox 0. -/
def aJob (op : Nat) : JobRef := ⟨0, 3, op, 7, 0⟩

/-- Decimal bytes. -/
def by_ (l : List Nat) : Bytes := l.map (BitVec.ofNat 8)

/-- A Serial Converter Port with one line of one slot at 1 kS/s, and a hub with it. -/
def scpAs (b : LinkBase) : Scp := { base := b, standard := 1, lines := 1, slots := 1, slotBits := 24, n := 16, cs := 2, fs := 1000, sclk := 1000000 }
def scpHub (b : LinkBase) : State := { hub with scps := [(15, scpAs b)] }

/-- A profile of one stage without decimation, one tap. -/
def image1 : List Host.Cell := [(0, 0x46), (1, 0x50), (2, 1), (4, 64), (16, 0x69), (17, 2), (18, 0xAF), (19, 0x42), (32, 1), (33, 1), (34, 1), (36, 1)]
def prof1 (st : ProfState) : Profile := { state := st, image := image1, extent := 336 }
def dest3 : Bytes := by_ [0, 1, 0, 0, 0, 8] ++ zeros 74
def pipeHub (p : Pipe) (t : Stream) : State := { scpHub { state := .aligned } with
  channels := [(511, { state := .bound, kind := 4, source := 15, fs := 1000, epoch := 999 })]
  profiles := [(3, prof1 .valid)], pipes := [(1023, { p with channel := 511, profileA := 3 })]
  strm := { streams := [(1023, { t with pages := 20, perPacket := 10, inA := true, entry := 255, portA := 3, portB := 255 })] }
  upl := { ports := [(3, { state := .up, protocol := 4, firstLane := 80 })], dests := [(255, dest3)] } }

/-- Reactions that ask for no reset. -/
def calmBlocks : Tbl FaultBlock := [(3, { react := [(4, 0)] }), (6, { react := [(0, 0)] }), (9, { react := [(0, 0), (1, 0), (2, 0)] }),
  (10, { react := [(0, 0), (1, 0)] }), (15, { react := [(0, 0), (1, 0), (2, 0)] })]
def calm (s : State) : State := { s with flt := { blocks := calmBlocks } }

def u1 : State := { hub with hcp := { hub.hcp with mbs := [(0, { (hub.mb 0) with rspPi := 5, rspCi := 5 }), (1, { enable := true, pause := true, session := .paused, reqBase := 4096, rspBase := 8192 }), (2, { enable := true, pause := true, session := .paused, reqBase := 4096 })] } }

def e1 : Entry := ⟨false, 4, [1, 2, 3, 4], none⟩
def e2 : Entry := ⟨true, 4, [1, 2, 3, 4], some 2⟩
def e3 : Entry := ⟨true, 4, [1, 2, 3, 4], none⟩
def uMb (m : Nat) (b : Mailbox) : State := { hub with hcp := { hub.hcp with mbs := [(m, b)] } }
def uE (e : Entry) : State := uMb 7 { enable := true, session := .opened, waiting := [e], rspPi := 63, slots := [0, 2] }
def u8 : State := { hub with hcp := { hub.hcp with mbs := [(8, { enable := true, session := .opened, waiting := [e1] })], replyTo := some ([1, 2], 9) } }
def u9 : State := uMb 9 { enable := true, session := .opened, waiting := [e1] }
def uLost : State := uMb 0 { enable := true, session := .opened, lost := 3, lostOwed := true }
def u8n : State := { hub with hcp := { hub.hcp with mbs := [(8, { enable := true, session := .opened, waiting := [e2, e1], slots := [2] })], peer := some ([1, 2, 3, 4], 9), log := [⟨8, 4, [1, 2, 3, 4], some 2, false⟩] } }
def u9n : State := uMb 9 { enable := true, session := .opened, waiting := [e3] }
/-- A hub whose management address is 1.2.3.4. -/
def mgmt : State := { uMb 8 { enable := true, session := .opened } with boot := { hub.boot with cfgUse := zeros 6 ++ [1] ++ zeros 9 ++ by_ [1, 2, 3, 4] ++ zeros 236 } }
def mh : MgmtHead := { src := by_ [9, 8, 7, 6], dst := by_ [1, 2, 3, 4], vlan := none }
def dg : Bytes := by_ [0, 0, 0, 0, 0, 0, 0, 0, 0, 0, 4, 0] ++ zeros 24
def part (k : Nat) : Partial := ⟨[BitVec.ofNat 8 k], k, [(0, true, [1, 2])], 0⟩
/-- A datagram of one frame from port 1 in two fragments. -/
def udp : Bytes := by_ [0, 1, 0xB8, 0, 0, 44, 0, 0] ++ dg
def partA : Partial := ⟨by_ [9, 8, 7, 6], 7, [(0, true, udp.take 16)], 3⟩
def mgmtA : State := { mgmt with hcp := { mgmt.hcp with partials := [partA, part 3] }, tick := 1000000003 }
/-- A hub in FAILED, where pushes are taken. -/
def pushable : State := { hub with chip := { hub.chip with phase := .boot, bootStatus := 4, fwRunning := false } }
def ringed : State := uMb 0 { enable := true, session := .opened, reqBase := 4096, rspBase := 8192, reqPi := 1 }
def badFrame : Bytes := zeros 32
def goodFrame : Bytes := by_ [0x43, 0x48, 3, 0, 9, 0, 0, 0, 1, 1, 0, 0, 7, 0, 0, 0] ++ zeros 12
def okFrame : Bytes := goodFrame ++ le 4 (crc32c goodFrame)
def replayed : State := uMb 0 { enable := true, session := .opened, reqBase := 4096, rspBase := 8192, reqPi := 1, seqSet := true, lastSeq := 9, lastCrc := BitVec.ofNat 32 (crc32c goodFrame), stored := some ⟨0x0101, 0, 7, 0, [5]⟩ }

def uQ (q : Quality) (l : Nat) : State := { hub with time := { hub.time with quality := q, lease := l } }
def uTop : State := { hub with time := { hub.time with sec := 2 ^ 48 - 1, ns := 999999999, frac40 := 2 ^ 40 - 1 } }
def lk (q : Quality) : State := { uQ q 9 with xfer := { hub.xfer with roleAct := .keeper } }
/-- A hub with a lane in a Bamgiusk Link. -/
def tl : State := { hub with lanes := [(0, { protocol := 7, txPower := 0, rxPower := 0 })], bgls := [(0, { state := .up, mode := 2, width := 1 })] }
def uPps : State := { hub with time := { hub.time with ppsRaw := some 1000 } }
def uTrig : State := { hub with time := { hub.time with trig := [(7, { mode := 3, skew := -5, fifo := [(5, true), (8, false)] })] } }
def uNet (n : Nat) : State := { uPps with xfer := { hub.xfer with roleAct := .standalone }, time := { uPps.time with secMiss := n } }
def win7 : Window := { state := .armed, source := 1, members := [0], pages := 128, pre := 3, post := 9, conds := [(5, { kind := 2, flags := 1, input := 7 })], armAt := 0, nArm := some 3 }
def uTrigW : State := { uTrig with cap := { hub.cap with windows := [(0, win7)] } }
def uCal (e : CalEntry) : State := { hub with cal := { entries := [e], nextIns := 1 } }
def eRate : CalEntry := { time := 1000 * unitsPerSec, cls := 1, ins := 0, action := .rateChange (BitVec.ofNat 48 (2 ^ 40 - 549755813)) }
def eTune : CalEntry := { time := 1000 * unitsPerSec, cls := 3, ins := 0, action := .retune 4 9 true 5, job := some (aJob 0x0505) }
def eStep : CalEntry := { time := 1000 * unitsPerSec, cls := 1, ins := 0, action := .offsetStep (-1000 * 1000000000) 0 }
def eLater : CalEntry := { time := 1001 * unitsPerSec, cls := 3, ins := 1, action := .retune 4 9 false 0, job := some (aJob 0x0505) }
def rec1 : FireRec := { ins := 9, time := 5, outcome := 4, cls := 3, chipState := 2, job := some (aJob 0x0505), extra := [7] }
def two (e : CalEntry) : State := { hub with cal := { entries := [e, eLater], nextIns := 2, fireLog := [rec1] } }
def eFar : CalEntry := { eLater with time := 1003 * unitsPerSec }

def atPhase (p : Phase) : State := { hub with chip := { hub.chip with phase := p } }
def noAon : State := { hub with chip := { hub.chip with phase := .off, rails := {} } }
def stopped : State := { hub with chip := { hub.chip with phase := .off } }
def filling : State := { hub with cap := { windows := [(15, { state := .filling, nArm := some 3, nNew := 9, pages := 1, frameBytes := 4, fw := 10 })] } }
def inRst (low rails owed : Bool) : State := { hub with chip := { hub.chip with phase := .reset, fwRunning := false, pcieUp := false, resetNLow := low, holdRails := rails, owedHoldover := owed }, tick := 20000 }
def booting (b : Nat) (x : Boot) : State := { hub with chip := { hub.chip with phase := .boot, bootStatus := b, fwRunning := false, straps := 0x41 }, boot := x }
def cfg8 : Bytes := by_ [0x52, 0x43, 1, 0, 3, 0, 1] ++ zeros 41
def testing : State := { hub with boot := { selfTesting := BitVec.ofNat 24 (2 ^ 23), selfFailed := 7 } }
def cfgReq : Bytes := zeros 4 ++ by_ [0x52, 0x43, 1, 0, 255, 3, 3] ++ zeros 33
def head0 : Bytes := by_ [0x49, 0x4D, 1, 0, 0x56, 0x72] ++ zeros 22
def image0 : Bytes := head0 ++ le 4 (crc32c head0)
def checking (op slot : Nat) : State := { hub with boot := { unit3 := some ⟨op, slot, 0, 97, 1, aJob op⟩ } }
def sec1003 : T16 := 1003 * unitsPerSec
def quiet (o : Bool) (c : Option Calib) : State := { hub with boot := { quiet := [(7, ⟨sec1003, sec1003 + unitsPerSec, o⟩)], calib := c } }

def ptpSet (b3 b4 b9 : Nat) : Bytes := by_ [0, 3, 1, b3, b4, 0, 0, 0, 3, b9, 0, 0]
def ptpHub (c : PtpCfg) : State := { hub with
  upl := { ports := [(3, { state := .up, firstLane := 80 })] }
  xfer := { ptp := [(3, c)], qlSource := 2 } }
def ptpMsg (ty : Nat) : Bytes := by_ [ty, 2, 0, 44, 0] ++ zeros 25 ++ by_ [1, 2] ++ zeros 12
def asymRow : Bytes := by_ [0, 0, 0, 3, 0, 0, 0, 0, 5, 0, 0, 0, 9, 0, 0, 0]
def frm (ty vlan : Nat) : PtpFrame := ⟨0, if vlan = 0 then [] else [vlan], ptpMsg ty⟩
def rxLane (p : Phase12) : State := { hub with lanes := [(159, { rxPower := 0, cdr := true })], xfer := { phases := [(159, p)] } }
def est (x : Option PtpExchange) (q : Bool) (m : Option (W64 × W16 × Byte)) : ServoInput := ⟨x, 0, q, m⟩
/-- A hub with PPS_IN stamps of e after the second, of that servo state. -/
def servoAt (v : Servo) (e : Int) : State := { hub with
  xfer := { roleAct := .standalone, roleCfg := .standalone, servo := v, qualCount := 15, lockCount := 15 }
  time := { hub.time with ppsCount := 3, ppsStamp := (990 * unitsPerSec + e : Int).toNat } }
/-- An exchange whose offset is d. -/
def xch (d : Int) : PtpExchange := ⟨.mgmt, 0, d + 7, 0, 7 - d⟩
def runChan (s : State) : State := { s with channels := [(3, { state := .running })] }
def beat (role : Nat) : Bytes := let b := le 2 9 ++ le 1 role ++ le 1 7 ++ zeros 28; b ++ le 4 (crc32c b)
def easelHub (x : Xfer) : State := { hub with
  bgls := [(5, { state := .up, mode := 2, easel := 7, first := 12, width := 4 })]
  xfer := { x with easel := 0x80 } }
def heardBeat (role ago : Nat) : Tbl EaselHeard := [(7, { frame := beat role, arrival := 5, ago := ago })]
def snap0 : Bytes := let b := le 2 9 ++ le 2 0xABCD ++ by_ [0, 4, 3, 0] ++ ts96 7 ++ zeros 4 ++ le 8 (2 ^ 40 - 549755813) ++ leI 8 (-5) ++ leI 8 6 ++ zeros 16; b ++ le 4 (crc32c b)
def half (s : State) : State := { s with time := { s.time with ns := 500000000 } }

def lanesAt (l : Tbl Lane) : State := { hub with lanes := l }
def seven : Lane := { protocol := 7, rate := 10312500, txPower := 0, rxPower := 0, aligned := true, cdr := true, signal := true, losses := 4, prbs := { tx := 2, rx := 3, locked := true, losses := 5 } }
def portHub : State := { lanesAt [(80, { seven with protocol := 4, rate := 25781250 })] with upl := { ports := [(3, { state := .up, protocol := 4, firstLane := 80 })] } }
def bglsAt (b : Bgl) : State := { hub with bgls := [(63, b)], lanes := (List.range 4).map fun i => (156 + i, { protocol := 6, rate := 10312500, txPower := 0, rxPower := 0, aligned := true }) }
def b4 (st : BglState) : Bgl := { state := st, mode := 1, width := 4, start := 0, first := 156, linkId := 9 }
def bglCfg (mode start : Nat) : Bytes := by_ [63, mode, 4, start, 156, 0, 0, 0, 9, 0, 0, 0] ++ (if start = 0 then zeros 16 else by_ [3, 1, 2, 0] ++ zeros 12)
def tend (order : List Nat) (w : Nat) (id : Byte) : List Bytes := order.map fun i => (trainingBlock i w id 7 false).drop 4
def scpAt : State := { hub with scps := [(15, { base := { state := .configured }, standard := 1, lines := 4, slots := 1, slotBits := 24, slip := [(3, 60)], testWord := 5 })] }
def prbs8 (p : Prbs) : State := lanesAt [(159, { protocol := 8, rate := 3125000, txPower := 0, rxPower := 0, prbs := p })]
def pattern (n : Nat) : List Bool := (prbsRun 1 n (List.replicate 7 true)).reverse

def dclkAt (d : Dclk) : State := { hub with dclks := [(31, d)] }
def dclkReq (en phase freq : Nat) : Bytes := by_ [31, en] ++ le 2 phase ++ le 4 freq
def srefReq (mode : Nat) : Bytes := by_ [31, mode, 1, 31] ++ le 2 4095 ++ le 2 2 ++ ts96 (1003 * unitsPerSec) ++ le 4 1000
def jesdPay (v : Nat) : Bytes := by_ [63, v, 1, 1, 2, 1, 16, 16, 0, 1, 0, 255, 31, 31] ++ le 2 7 ++ le 4 512000000 ++ le 4 0 ++ le 2 159 ++ List.replicate 14 0xFF
def jesdHub : State := { hub with
  dclks := [(31, { enabled := true, freq := 100000000, started := 2 })], srefs := [(31, { pulsed := List.replicate 32 2, pulseNo := 1 })]
  lanes := [(159, { protocol := 2, rate := 8448000, rxPower := 0 })] }
def bglPay : Bytes := by_ [63, 2, 14, 2] ++ le 4 10000000 ++ le 4 9 ++ le 4 8 ++ le 4 0x80000000 ++ by_ [30, 2, 0, 0] ++ zeros 124 ++ le 4 1000
def scpPay : Bytes := by_ [15, 1, 4, 16, 24, 24, 0, 3] ++ le 4 1000 ++ le 4 400000000 ++ by_ [7, 255, 0, 0] ++ le 4 1 ++ le 4 2 ++ le 4 3
def jOf (st : LinkState) (sy lane : Nat) : Jesd := { base := { state := st }, version := 1, l := 1, m := 1, f := 2, s := 1, n := 16, np := 16, ke := 32, sync := sy, dclk := 31, sref := 31, fs := 400000000, lanes := [lane] }
def jesdAs (b : LinkBase) : State := { hub with jesds := [(63, { base := b, version := 2, l := 1, m := 1, f := 2, s := 1, n := 16, np := 16, ke := 1, sync := 255, fs := 512000000, lanes := [159], lambda := 5 })] }
def chan4 (c : Channel) (b : LinkBase) : State := { scpHub b with channels := [(511, { c with kind := 4, source := 15, fs := 1000, epoch := 999 })] }
def scpChecked (b : Nat) : State := { hub with scps := [(15, { scpAs { state := .aligned } with lines := 2, slots := 2, checkPos := 17, checkMask := 0xF, checkValue := 3, good := 4, badRun := b })] }
def scpBits : List (List Bool) := [List.replicate 48 false, (List.replicate 44 false) ++ [true, false, true, true]]
def upHead (flags count index : Nat) : Block := ⟨true, controlBlock (le 1 0xBA ++ le 1 count ++ le 1 flags ++ le 4 index)⟩
/-- A frame of width 1 at 10.3125 Gbit/s whose payload begins with some bytes, its checksum last. -/
def upFrame (flags count index : Nat) (data : Bytes) (bad : Nat) (arrival : T16) : BglFrame :=
  let p := padTo 60 data
  let q := p ++ le 4 (crc32c p + bad)
  ⟨[[upHead flags count index, ⟨true, zeros 8⟩] ++ (List.range 8).map fun i => ⟨false, sub q (8 * i) 8⟩], arrival⟩
def bglHub (b : BglIn) : State := { hub with
  bglIns := [(63, b)], bgls := [(63, { state := .up, mode := 1, width := 1, first := 159 })]
  channels := [(5, { state := .running, kind := 2, source := 63, position := 1, fs := 10000000, epoch := 999, kNext := 10000000 }),
    (511, { state := .lost, kind := 3, source := 63, position := 31, fs := 1000, epoch := 999, kNext := 1000 })] }
def bIn (b : LinkBase) : BglIn := { base := b, m := 2, fs := 10000000, auxMask := 0x80000000, auxN := 24, auxFs := List.replicate 31 0 ++ [1000] }
def upData : Bytes := le 2 1 ++ le 2 2 ++ le 2 3 ++ le 2 4 ++ le 1 31 ++ zeros 1 ++ le 2 (1000000 % 65536) ++ le 4 77 ++ [0xFF]
def bindPay (kind : Nat) : Bytes := if kind = 0 then by_ [255, 1] ++ zeros 22 else by_ [255, 1, 4, 15, 0, 1, 0, 0] ++ le 4 1000 ++ le 4 77 ++ le 8 999
def upBgl : State := { hub with bgls := [(63, { state := .up, mode := 1, width := 4, first := 156, out1 := [[9]] })] }

def bound1 : Pipe := { state := .bound, format := 4, satCount := 5, satMask := 1, delayRange := true, rangeTold := true }
def pipeCfg (ch : Nat) : Bytes := by_ [255, 3] ++ le 2 ch ++ (if ch = 0xFFFF then zeros 36 else by_ [3, 12, 3, 8] ++ le 2 32767 ++ by_ [8, 5, 0xF8, 3, 24, 1] ++ le 2 0xFFFF ++ zeros 6 ++ le 8 0 ++ le 4 77 ++ zeros 4)
def running1 : Pipe := { bound1 with state := .running, nNext := 999 }
def mixed1 : Pipe := { bound1 with mixer := true, format := 0x12 }
def retune1 : Bytes := by_ [255, 3, 1] ++ zeros 5 ++ le 8 0xFFFFFFFFFFFF ++ le 4 9 ++ zeros 4
def dcPay (op : Nat) (x : Bytes) : Bytes := by_ [255, 3, op] ++ x
def segPay : Bytes := by_ [255, 1, 0, 0] ++ ts96 (1003 * unitsPerSec + 1) ++ le 4 10000000 ++ zeros 4 ++ leI 8 (-1) ++ leI 8 2 ++ leI 8 3 ++ leI 8 4
def chanHub (c : Channel) (p : Tbl Pipe) : State := { scpHub { state := .aligned } with
  channels := [(511, { c with kind := 4, source := 15, fs := 1000, epoch := 999 })], pipes := p, profiles := [(3, prof1 .valid)] }
def seg1 (t : T16) : Segment := ⟨t, 6, 1, 2, 3, 4, true⟩
def running2 : Pipe := { state := .running, channel := 511, profileA := 3, format := 4, nFirst := 50, nNext := 110, upd := 4, updates := [(100, 5), (84, 6)], line := [(5, 0), (-3, 0)], lineNext := 111, hist := [{ next := 110 }], d := 0 }
def pack1 : Packet := { first := 101, samples := [(1, 0), (2, 0)], count := 2, quality := .free, pages := 1, unsettled := 1 }
def commitHub : State := { hub with profiles := [(255, prof1 .staging)] }
def commitRq : Req := rq (by_ [255, 0, 0, 0] ++ le 4 336)
def bankHub (p : Pipe) : State := { pipeHub p {} with profiles := [(3, prof1 .valid), (5, prof1 .valid)] }

def winHub (w : Window) : State := { scpHub { state := .aligned } with
  channels := [(511, { state := .running, kind := 4, source := 15, fs := 1000, epoch := 999 })]
  cap := { windows := [(15, { w with source := 1, members := [511], pages := 1, firstPage := 3071, pre := 3, post := 9, fw := 1000, epoch := 999, format := 5, frameBytes := 4, sketch := 8 })] } }
def winCfg (src : Nat) : Bytes := if src = 0 then by_ [15, 0, 7] ++ zeros 141 else by_ [15, src, 7, 254] ++ le 2 3071 ++ le 2 1 ++ le 4 3 ++ le 4 9 ++ zeros 63 ++ [0x80] ++ zeros 64
def armedAt (st : WinState) (w : Window) : State := winHub { w with state := st, nArm := some 900, nNew := 1000, writeNext := 1001, nTrig := if st = .filling then 998 else 0, first := if st = .filling then 995 else 0 }
def cond3 : Cond := { kind := 3, flags := 1, id := 0x42 }
def netMsg : Bytes := let m := le 2 0x5443 ++ le 1 1 ++ zeros 1 ++ le 2 0xFFFF ++ le 2 0xBEEF ++ le 4 0xFFFFFFFF ++ by_ [0x42, 3, 4, 1] ++ ts96 (1001 * unitsPerSec) ++ zeros 16; m ++ le 4 (crc32c m)
def fillWin : Window := { state := .filling, missTold := true, conds := [(0, cond3)], source := 1, members := [511], pages := 1, fw := 1000, epoch := 999, frameBytes := 4, sketch := 8, missedLog := List.replicate 256 ⟨1, 2, 3, 4⟩ }
def feed1 : Feed := { index := 1001, value := (-5, 0), marked := false, note := { member := 511, channel := 511, cal := 0, gamma := 0, model := 0, epoch := 0, nominal := false } }
def frozenAt (st : WinState) : State := { armedAt st { first := 995, frozenLast := 1006, capFrom := 900, missedLog := [⟨1, 2, 3, 4⟩, ⟨5, 6, 7, 8⟩] } with cap := { (armedAt st { first := 995, frozenLast := 1006, capFrom := 900, missedLog := [⟨1, 2, 3, 4⟩, ⟨5, 6, 7, 8⟩] }).cap with memory := [(65536 * 3071 + 380, 7)] } }
def dump1 (dest : Nat) : Dump := { window := 15, dest := dest, releaseAfter := false, entry := 255, offset := 0, length := 96, rate := 5, address := 0x1000, portA := if dest = 0 then none else some 3, portB := none, job := aJob 0x0708 }
def dumping (dest : Nat) : State := { frozenAt .dumping with
  cap := { (frozenAt .dumping).cap with dumps := [(3, some (dump1 dest))] }
  upl := { ports := [(3, { state := .up, protocol := 4, firstLane := 80 })], dests := [(255, dest3)] } }
def outPay (m : Nat) : Bytes := by_ [7, m, 1, 0] ++ le 2 (if m = 1 then 0xFFFF else 0) ++ le 2 (if m = 2 then 5 else 0) ++ le 4 1000000 ++ (if m = 2 then le 4 1000 ++ ts96 (1003 * unitsPerSec) else zeros 16) ++ zeros 4

def cstreamAt (c : CompStream) : State := { hub with comp := { streams := [(1023, c)] } }
def jobPay (u : Nat) : Bytes := by_ [u, 0, 1, 5, 0, 0, 0, 0] ++ le 4 4096 ++ le 4 0 ++ le 8 0x1000 ++ le 8 8 ++ le 8 0x2000 ++ le 8 100
def job1 : Job := { ref := aJob 0x0803, unit := 2, op := 0, mode := 0, format := 0, srcKind := 0, window := 0, chain := false, block := 65536, src := 0x1000, srcLen := 3, dst := 0x2000, dstCap := 23, slot := 15 }
def stopHub (j : Job) : State := { hub with comp := { stopped := [(15, some j)], stops := [(15, [1, 2])], gens := [(15, 3)] } }
def jobName : Req := rq (by_ [0, 0, 0, 0, 3, 0, 0, 0])
def queuedJob : State := { hub with comp := { queues := [(2, [job1])] } }
def runningJob (j : Job) : State := { hub with comp := { running := [(2, some j)], gens := [(15, 3)] } }
def strmAt (x : Stream) : State := pipeHub { state := .running, format := 4 } x
def queued (b : Bool) : Committed := { seq := 7, bytes := [1, 2], pages := 3, leftA := 3, leftB := 0, begunA := b, order := 0 }
def active1 : Stream := { state := .active, credits := 14, hitHigh := true, queue := [queued true, queued false], sendA := some 3 }
def pack2 (n : Nat) (closed : Bool) : Packet := { first := 5, samples := [(-1, 0), (2, 0)], count := 2, quality := .free, pages := n, unsettled := 1, closed := closed, time := -9, fade := true }
def moved1 : Packet := { pack2 1 true with coded := 2, moved := [1, 2, 3], blocks := 1 }
def last1 : Packet := { first := 9, quality := .free, eos := true, closed := true }
def comp1 (p : Packet) : State := { strmAt { active1 with opened := [p], placeC := some 15 } with comp := { streams := [(1023, { enable := true, mode := 0, block := 2 })] } }
def three : Packet := { pack2 1 true with samples := [(3, 0), (-1, 0), (2, 0)], count := 3 }
def blocked : Packet := { pack2 1 true with coded := 2, buffers := [List.replicate 256 5, [6]], moved := [1, 2] }
def blockedHub (p : Packet) : State := { comp1 p with strm := { (comp1 p).strm with coded := [(15, 1023)] } }

def quadHub (k : Nat) : State := { hub with lanes := (List.range 4).map fun i => (156 + i, { protocol := k, rate := 25781250, txPower := 0, rxPower := 0, aligned := true }) }
def groupHub (k : Nat) : State := { quadHub k with upl := { ports := [(1, { state := .up, remoteTx := true }), (24, { state := .down }), (47, { state := .down })] } }
def portAt (p : Port) : State := { quadHub 4 with upl := { ports := [(47, { p with protocol := 4, firstLane := 156 })] } }
def sendHub (p : Port) (c : Committed) : State := { pipeHub { state := .running, format := 4 } { state := .active, credits := 15, sendA := some 3, queue := [c] } with
  upl := { ports := [(3, { p with state := .up, protocol := 4, firstLane := 80 })], dests := [(255, dest3)] } }
def out1 : Committed := { seq := 7, bytes := [1, 2], pages := 2, leftA := 2, leftB := 0, order := 5 }
def sending1 : State := calm (sendHub { sending := some (.packet 1023 7 1 [5, 6, 1, 2, 3, 4]), lastControl := true } { out1 with begunA := true })
def arpPort : Port := { state := .up, addrFlags := 5, mac := by_ [2, 0, 0, 0, 0, 9], ipv4 := by_ [10, 0, 0, 7] }
def arpFrame : Bytes := by_ [255, 255, 255, 255, 255, 255, 4, 0, 0, 0, 0, 1, 8, 6, 0, 1, 8, 0, 6, 4, 0, 1, 4, 0, 0, 0, 0, 1, 10, 0, 0, 1, 0, 0, 0, 0, 0, 0, 10, 0, 0, 7]
def trigFrame : Bytes := zeros 12 ++ by_ [8, 0, 0x45, 0, 0, 30, 0, 0, 0, 0, 64, 17, 0, 0, 10, 0, 0, 1, 10, 0, 0, 7, 0, 9, 0xB8, 1, 0, 10, 0, 0, 5, 6]

def fltHub (f : FaultBlock) (b : Nat := 7) : State := { hub with flt := { blocks := [(b, f)] } }
def noRead : MemRead := ⟨0, 0, 0, 0, {}, 0⟩
def oneRead : MemRead := ⟨1, 0x40, 0, 0, { data := [(0, 3)] }, 0⟩
def eTune0 : CalEntry := { time := 1000 * unitsPerSec, cls := 3, ins := 0, action := .retune 4 9 true 5, job := some (aJob 0x0505) }
def calm7 (f : FaultBlock) (b : Nat) : State := { hub with flt := { blocks := tset {} calmBlocks b { (tget {} calmBlocks b) with inReset := f.inReset, held := f.held, gates := f.gates } } }

def islHub (i : Island) : State := { hub with island := i, tick := 5000000000 }
/-- An island in RUN with the word 0x7124: emergency stop, guard and curtain, discrepancy time 300 ms, grouping 1. -/
def runI (i : Island) : Island := { i with state := .run, word := 0x7124, wordValid := true, swT := 0x7124, swC := 0x8EDB }
def goI : Island := runI { sin := 0x3F, readyX := true, srbHighSince := [(0, 5), (1, 5)], srb := 15, soutSince := [(0, 5)] }

end Sys2Proof
end

