-- ==== Sys2Proof/WellFormed.lean ====
section
/-! DEFINITION. When a command is well formed: its operands are such as the outside world can bring. -/

namespace Sys2Proof

/-- 2^-16 ns in a second: a time lies below 2^48 of them (R70). -/
def unitsPerSecond : Nat := 65536000000000

/-- A request that has passed checks 1 to 4 of Table HCP-10 (R48, R54): a ten-byte at field, a payload of at most
4,064 bytes in whole words, and a host_seq that is not 0xFFFF_FFFF. -/
def Req.wf (r : Req) : Bool :=
  r.time.length == 10 && decide (r.payload.length ≤ 4064) && r.payload.length % 4 == 0 && r.hostSeq != 0xFFFFFFFF

/-- The flips of an upset lie within a line: 512 bytes, 64 words, 16 check symbols. -/
def Upset.wf (u : Upset) : Bool :=
  (u.data.all fun x => decide (x.1 < 512)) && (u.inner.all fun x => decide (x.1 < 64)) && u.outer.all fun x => decide (x.1 < 16)

/-- Both addresses are of one IP version. -/
def MgmtHead.wf (h : MgmtHead) : Bool := decide (h.src.length = 4 ∨ h.src.length = 16) && h.dst.length == h.src.length

/-- One to eight bytes written, or a read within BAR0. -/
def RegAccess.wf (space : RegSpace) : RegAccess → Bool
  | .write data => decide (1 ≤ data.length ∧ data.length ≤ 8)
  | .read size => decide (1 ≤ size ∧ size ≤ 8) && space == .bar0

/-- At most 16 lanes of at most 25 blocks of 8 bytes, stamped within Hub Time (R148, R174). -/
def BglFrame.wf (f : BglFrame) : Bool :=
  decide (f.lanes.length ≤ 16) && (f.lanes.all fun l => decide (l.length ≤ 25) && l.all fun x => x.bytes.length == 8)
    && decide (f.arrival < 2 ^ 48 * unitsPerSecond)

/-- The well-formed commands. -/
def Instr.wf (i : Instr) : Bool :=
  match i with
  | .mbSessionOpen _ _ _ _ => true
  | .mbSessionClose _ => true
  | .mbPauseSet _ => true
  | .mbPauseClear _ => true
  | .mbIrqEnWrite _ _ => true
  | .ringBaseWrite _ _ _ => true
  | .reqPiDoorbell _ _ => true
  | .rspCiWrite _ _ => true
  | .ringErrClear _ => true
  | .registerWritePlain space offset access =>
    RegAccess.wf space access && decide (offset < 0x10000 ∨ space = .spi ∧ offset < 0x1000000)
  | .requestTake slot =>
    decide (32 ≤ slot.length ∧ slot.length ≤ 4096)
  | .responseWrite _ => true
  | .noticeWrite _ => true
  | .noticesLost _ => true
  | .mgmtDatagramRx h ports udpLen _ =>
    h.wf && decide (ports.sport < 65536 ∧ ports.dport < 65536 ∧ udpLen < 65536)
  | .mgmtFragmentRx h id offset _ data =>
    h.wf && decide (id < 2 ^ 32 ∧ offset < 65536 ∧ data.length < 65536)
  | .mgmtFragmentTimeout src id =>
    decide (src.length = 4 ∨ src.length = 16) && decide (id < 2 ^ 32)
  | .spiTransaction write _ count data =>
    decide (1 ≤ count) && (if write then decide (data.length = count) else data.isEmpty)
  | .spiMbGo => true
  | .spiRspReadyClear => true
  | .spiMbOpen => true
  | .spiMbClose => true
  | .timeNowCaptureRead => true
  | .sessionInfo r => r.wf
  | .noticeFetch r => r.wf
  | .noticeSubscribe r => r.wf
  | .vddAonUp => true
  | .vddAonLoss => true
  | .coreRailsUp => true
  | .vddCoreLoss _ => true
  | .laneIoRailLoss _ => true
  | .railOrderBreach _ => true
  | .resetNAssert _ => true
  | .resetNRelease _ _ => true
  | .chipResetEnd _ _ => true
  | .bootImageLoaded _ image =>
    decide (image.length ≤ 8388608)
  | .bootComplete _ => true
  | .bootWatchdogExpiry => true
  | .parityError _ _ => true
  | .fwHeartbeatWrite _ => true
  | .fwStallDetect => true
  | .dspPllUnlock => true
  | .dspPllRelock => true
  | .scrubPassLate _ => true
  | .rateWordWrite w => w.at_.all fun t => decide (t < 2 ^ 48 * unitsPerSecond)
  | .rateSlewStep => true
  | .timeQualityWrite _ => true
  | .leaseRenew => true
  | .leaseExpiry => true
  | .refLost => true
  | .tpllUnlock => true
  | .refReturn _ => true
  | .ppsOutEdge => true
  | .ppsInEdge _ crossing _ =>
    decide (crossing < 2 ^ 48 * unitsPerSecond)
  | .ppsInTimeout => true
  | .trigInEdge _ _ crossing =>
    decide (crossing < 2 ^ 48 * unitsPerSecond)
  | .calendarFire => true
  | .fireRecordNotice => true
  | .timeGet r => r.wf
  | .timeStep r => r.wf
  | .ppsConfig r => r.wf
  | .trigInConfig r => r.wf
  | .trigInRead r => r.wf
  | .calStatus r => r.wf
  | .calCancel r => r.wf
  | .ptpFrameRx _ _ f =>
    decide (34 ≤ f.msg.length) && decide (f.msg.length ≤ 1500)
  | .ptpMessageTx _ _ msg =>
    decide (34 ≤ msg.length)
  | .phaseMeasure _ _ _ _ => true
  | .esmcMessage _ _ => true
  | .servoEstimate _ => true
  | .announceTimeout => true
  | .holdoverLimitExpiry => true
  | .easelHeartbeatRx _ _ _ => true
  | .easelSlotMissed => true
  | .snapshotTx => true
  | .snapshotRx _ _ snap =>
    decide (snap.length ≤ 1500)
  | .keeperListenEnd => true
  | .handoverPartnerAbsent => true
  | .xferConfig r => r.wf
  | .xferStatus r => r.wf
  | .ptpPortConfig r => r.wf
  | .asymWrite r => r.wf
  | .asymRead r => r.wf
  | .phaseRead r => r.wf
  | .keeperHandover r => r.wf
  | .laneConfig r => r.wf
  | .laneStatus r => r.wf
  | .lanePower r => r.wf
  | .laneWakeComplete _ _ => true
  | .laneReeq r => r.wf
  | .reeqComplete _ _ _ _ => true
  | .laneAcquired _ _ _ _ _ => true
  | .laneLockLost _ _ => true
  | .bglLinkConfig r => r.wf
  | .bglLinkStatus r => r.wf
  | .bglMarkerTx _ => true
  | .bglLanesLocked _ octets => decide (octets.length ≤ 16)
  | .bglTrainingResult _ order widths linkIds rest =>
    decide (rest.length ≤ 16) && (rest.all fun b => b.length == 4) &&
      decide (order.length = rest.length ∧ widths.length = rest.length ∧ linkIds.length = rest.length)
  | .bglWiringWaitEnd _ => true
  | .bglLinkUp _ _ _ _ => true
  | .bglDeskewTimeout _ => true
  | .bglLinkDown _ => true
  | .laneBitslip r => r.wf
  | .laneRawCapture r => r.wf
  | .laneRawCommit r => r.wf
  | .prbsConfig r => r.wf
  | .prbsRead r => r.wf
  | .prbsLock _ bits => decide (bits.length ≤ 1024)
  | .prbsLockLoss _ _ lastErrors => decide (lastErrors ≤ 1024)
  | .dclkConfig r => r.wf
  | .dclkRestart _ => true
  | .srefConfig r => r.wf
  | .jesdLinkConfig r => r.wf
  | .bglInputConfig r => r.wf
  | .scpConfig r => r.wf
  | .linkAlign r => r.wf
  | .linkAlignDone _ _ found =>
    (found.stamps ++ [found.synced]).all fun t => decide (t < 2 ^ 48 * unitsPerSecond)
  | .alignBoundExpiry _ _ => true
  | .linkStatus r => r.wf
  | .inputLinkLost _ _ => true
  | .multiframeBoundaryStamp _ _ => true
  | .bglFrameRx _ f => f.wf
  | .bglMessageRx _ _ start rest =>
    (start :: rest).all fun b => b.length == 8
  | .scpFrameRx _ f =>
    decide (f.lines.length ≤ 4) && f.lines.all fun l => decide (l.length ≤ 400000)
  | .inputWordRelease _ _ => true
  | .channelBind r => r.wf
  | .channelStart r => r.wf
  | .channelStop r => r.wf
  | .channelStatus r => r.wf
  | .bglMessage r => r.wf
  | .pipeConfig r => r.wf
  | .pipeStart r => r.wf
  | .pipeStop r => r.wf
  | .pipeStatus r => r.wf
  | .pipeRetune r => r.wf
  | .dcSet r => r.wf
  | .dcVarnish r => r.wf
  | .dcThaw r => r.wf
  | .dcPreset r => r.wf
  | .dcRead r => r.wf
  | .delaySegment r => r.wf
  | .delayFlush r => r.wf
  | .delayStatus r => r.wf
  | .requantSet r => r.wf
  | .delayUpdatePoint _ => true
  | .modelExpiry _ => true
  | .pipeOutputSample _ => true
  | .profileWrite r => r.wf
  | .profileCommit r => r.wf
  | .profileDelete r => r.wf
  | .profileInfo r => r.wf
  | .bankLoad r => r.wf
  | .bankSwap r => r.wf
  | .bankClear r => r.wf
  | .bankStatus r => r.wf
  | .admStatus r => r.wf
  | .admBoundRead r => r.wf
  | .admLimit r => r.wf
  | .admProbe r => r.wf
  | .capWindowConfig r => r.wf
  | .capCondConfig r => r.wf
  | .capArm r => r.wf
  | .capArmEffect _ => true
  | .capDisarm r => r.wf
  | .capDisarmEffect _ => true
  | .capTrigger r => r.wf
  | .capStatus r => r.wf
  | .capRecordRead r => r.wf
  | .capDump r => r.wf
  | .capRelease r => r.wf
  | .capMissedRead r => r.wf
  | .trigOutConfig r => r.wf
  | .captureFrameWrite _ => true
  | .networkTriggerRx _ msg =>
    decide (msg.length ≤ 1500)
  | .dumpPacket _ => true
  | .dumpEnd _ => true
  | .compStreamConfig r => r.wf
  | .compStreamStatus r => r.wf
  | .compJob r => r.wf
  | .compJobStatus r => r.wf
  | .compJobCancel r => r.wf
  | .jobStart _ => true
  | .jobEnd _ _ => true
  | .compAutoEval _ => true
  | .compBlockComplete _ => true
  | .packetiserBeat => true
  | .streamConfig r => r.wf
  | .streamStatus r => r.wf
  | .streamFlush r => r.wf
  | .streamFlushNow r => r.wf
  | .streamWatermark r => r.wf
  | .packetCommit _ => true
  | .frameTxStart _ => true
  | .frameTxEnd _ => true
  | .controlFrameTx _ _ => true
  | .uplinkFrameRx _ _ _ => true
  | .uplGroupConfig r => r.wf
  | .uplPortAddr r => r.wf
  | .uplDestWrite r => r.wf
  | .uplStreamMap r => r.wf
  | .uplPortEnable r => r.wf
  | .uplPortDisable r => r.wf
  | .uplPortStatus r => r.wf
  | .portUp _ => true
  | .portDown _ _ => true
  | .faultDetect _ _ unit at_ =>
    decide (unit < 65536) && at_.upset.wf
  | .blockResetEnd _ unit =>
    decide (unit ≤ 0x10000)
  | .gateEnd _ unit =>
    decide (unit ≤ 0x10000)
  | .fltRead r => r.wf
  | .fltClear r => r.wf
  | .fltReactSet r => r.wf
  | .fltLock r => r.wf
  | .fltBlockRelease r => r.wf
  | .uncorrRead r => r.wf
  | .fltRecordRead r => r.wf
  | .fltInject r => r.wf
  | .safeIslandPowerUp _ _ => true
  | .safeIslandBootDone _ => true
  | .safeIslandBootTimeout => true
  | .vddSafeLoss => true
  | .islandTick _ _ => true
  | .testPulse _ _ _ _ => true
  | .inputRecognised _ samples => !samples.isEmpty
  | .discrepancyTimeout _ => true
  | .twoHandTimeout => true
  | .resetPressRelease => true
  | .resetStuck => true
  | .configChange _ _ => true
  | .readbackTimeout _ => true
  | .outputTestPulse _ _ => true
  | .safeDiagFail => true
  | .safeStatusUpdate => true
  | .safeLiveTimeout => true
  | .safeStatusRead r => r.wf
  | .safeConfigRead r => r.wf
  | .safeLogRead r => r.wf
  | .safeWriteOpcode _ r => r.wf
  | .sysReset r => r.wf
  | .bootInfo r => r.wf
  | .configWrite r => r.wf
  | .configRead r => r.wf
  | .fwImageWrite r => r.wf
  | .flashEraseDone => true
  | .fwImageCheck r => r.wf
  | .fwActivate r => r.wf
  | .fwCommit r => r.wf
  | .paletteLoad r => r.wf
  | .testUnlock r => r.wf
  | .unit3RequestDone _ image =>
    decide (image.length ≤ 8388608)
  | .pushGo image =>
    decide (image.length ≤ 8388608)
  | .pushChunkGo _ => true
  | .pushComplete => true
  | .quietDeclare r => r.wf
  | .quietCancel r => r.wf
  | .clkCalibrate r => r.wf
  | .calibrationDone errors =>
    decide (errors.length ≤ 32)
  | .selftestStatus r => r.wf
  | .selftestBankDone _ _ => true
  | .thermWarn _ => true
  | .thermTrip => true
  | .thermTripRelease => true
  | .jtagInstruction _ _ => true
  | .laneIoRailsReturn _ _ => true
  | .pcieLinkTrained => true

end Sys2Proof
end

