-- ==== Sys2Proof/Tests/Slice0.lean ====
section
/-! SUPPORT. The model's own tests: ill-formed commands that `Instr.wf` refuses, and the spec's worked examples. Every
expected value comes from the section of the spec named beside the test. -/

namespace Sys2Proof

open Machine

set_option Elab.async false

/-! ## Ill-formed commands -/

/-- A well-formed request passes. -/
theorem test_wf_request : (Instr.timeGet (rq [1, 2, 3, 4])).wf = true := by decide +kernel

/-- The four things checks 1 to 4 of Table HCP-10 leave of a request (R48, R54). -/
theorem test_wf_at_field : (Instr.timeGet { rq [] with time := zeros 9 }).wf = false := by decide +kernel
theorem test_wf_payload_words : (Instr.timeGet (rq [1, 2, 3])).wf = false := by decide +kernel
theorem test_wf_payload_length : (Instr.timeGet (rq (zeros 4068))).wf = false := by decide +kernel
theorem test_wf_host_seq : (Instr.timeGet { rq [] with hostSeq := 0xFFFFFFFF }).wf = false := by decide +kernel

/-- Addresses and lengths of what comes from outside. -/
theorem test_wf_register_write :
    (Instr.registerWritePlain .spi 0x1000000 (.write [1])).wf = false ∧ (Instr.registerWritePlain .spi 0 (.write [])).wf = false
      ∧ (Instr.registerWritePlain .spi 0xFFFFFF (.write (zeros 9))).wf = false := by decide +kernel
theorem test_wf_request_slot : (Instr.requestTake (zeros 31)).wf = false ∧ (Instr.requestTake (zeros 4097)).wf = false := by
  decide +kernel
def head4 : MgmtHead := ⟨zeros 4, zeros 4, none⟩
theorem test_wf_datagram :
    (Instr.mgmtDatagramRx ⟨zeros 5, zeros 5, none⟩ ⟨1, 1⟩ 8 []).wf = false ∧ (Instr.mgmtDatagramRx ⟨zeros 4, zeros 16, none⟩ ⟨1, 1⟩ 8 []).wf = false
      ∧ (Instr.mgmtDatagramRx head4 ⟨65536, 1⟩ 8 []).wf = false ∧ (Instr.mgmtDatagramRx head4 ⟨1, 65536⟩ 8 []).wf = false
      ∧ (Instr.mgmtDatagramRx head4 ⟨1, 1⟩ 65536 []).wf = false := by decide +kernel
theorem test_wf_fragment :
    (Instr.mgmtFragmentRx ⟨zeros 4, zeros 16, none⟩ 0 0 true []).wf = false ∧ (Instr.mgmtFragmentRx head4 (2 ^ 32) 0 true []).wf = false
      ∧ (Instr.mgmtFragmentRx head4 0 65536 true []).wf = false
      ∧ (Instr.mgmtFragmentTimeout (zeros 15) 0).wf = false ∧ (Instr.mgmtFragmentTimeout (zeros 16) (2 ^ 32)).wf = false := by
  decide +kernel
theorem test_wf_spi : (Instr.spiTransaction true 0 0 []).wf = false ∧ (Instr.spiTransaction true 0 2 [1]).wf = false
    ∧ (Instr.spiTransaction false 0 2 [1, 2]).wf = false := by decide +kernel
theorem test_wf_crossing :
    (Instr.ppsInEdge false (2 ^ 48 * unitsPerSecond) none).wf = false
      ∧ (Instr.trigInEdge 0 false (2 ^ 48 * unitsPerSecond)).wf = false
      ∧ (Instr.rateWordWrite ⟨0, some (2 ^ 48 * unitsPerSecond)⟩).wf = false
      ∧ (Instr.linkAlignDone .jesd 0 ⟨[2 ^ 48 * unitsPerSecond], true, 0⟩).wf = false
      ∧ (Instr.linkAlignDone .jesd 0 ⟨[], true, 2 ^ 48 * unitsPerSecond⟩).wf = false := by decide +kernel
theorem test_wf_frames :
    (Instr.ptpFrameRx (.uplink 0) 0 ⟨0, [], zeros 33⟩).wf = false ∧ (Instr.ptpFrameRx (.uplink 0) 0 ⟨0, [], zeros 1501⟩).wf = false
      ∧ (Instr.ptpMessageTx (.uplink 0) 0 (zeros 33)).wf = false
      ∧ (Instr.snapshotRx 0 false (zeros 1501)).wf = false ∧ (Instr.networkTriggerRx 0 (zeros 1501)).wf = false := by
  decide +kernel
theorem test_wf_blocks :
    (Instr.bglTrainingResult 0 (zeros 17) (zeros 17) (zeros 17) (List.replicate 17 (zeros 4))).wf = false
      ∧ (Instr.bglTrainingResult 0 [0] [0] [0] [zeros 3]).wf = false ∧ (Instr.bglTrainingResult 0 [0] [] [0] [zeros 4]).wf = false
      ∧ (Instr.bglLanesLocked 0 (zeros 17)).wf = false ∧ (Instr.prbsLockLoss 0 0 1025).wf = false
      ∧ (Instr.bglMessageRx 0 false (zeros 8) [zeros 9]).wf = false ∧ (Instr.bglFrameRx 0 ⟨[[⟨true, zeros 7⟩]], 0⟩).wf = false
      ∧ (Instr.bglFrameRx 0 ⟨List.replicate 17 [], 0⟩).wf = false ∧ (Instr.bglFrameRx 0 ⟨[], 2 ^ 48 * unitsPerSecond⟩).wf = false
      ∧ (Instr.bglFrameRx 0 ⟨[List.replicate 26 ⟨true, zeros 8⟩], 0⟩).wf = false := by decide +kernel
theorem test_wf_bits :
    (Instr.scpFrameRx 0 ⟨0, List.replicate 5 []⟩).wf = false ∧ (Instr.prbsLock 0 (List.replicate 1025 true)).wf = false
      ∧ (Instr.inputRecognised 0 []).wf = false := by decide +kernel
theorem test_wf_scp_line : (Instr.scpFrameRx 0 ⟨0, [List.replicate 400001 true]⟩).wf = false := by
  simp only [Instr.wf, List.all_cons, List.length_replicate]; decide +kernel
theorem test_wf_window : (Instr.registerWritePlain .spi 0 (.read 4)).wf = false := by decide +kernel
def readOf (u : Upset) : MemRead := ⟨0, 0, 0, 0, u, 0⟩
theorem test_wf_units :
    (Instr.blockResetEnd 0 0x10001).wf = false ∧ (Instr.gateEnd 0 0x10001).wf = false
      ∧ (Instr.faultDetect 0 0 65536 (readOf {})).wf = false ∧ (Instr.calibrationDone (List.replicate 33 0)).wf = false := by
  decide +kernel
theorem test_wf_upset :
    (Instr.faultDetect 14 0 0 (readOf { data := [(512, 1)] })).wf = false ∧ (Instr.faultDetect 14 0 0 (readOf { inner := [(64, 1)] })).wf = false
      ∧ (Instr.faultDetect 14 0 0 (readOf { outer := [(16, 1)] })).wf = false := by decide +kernel
/-- An image is at most 8 MiB (R416). -/
theorem test_wf_image : (Instr.pushGo (List.replicate 8388609 0)).wf = false
    ∧ (Instr.bootImageLoaded true (List.replicate 8388609 0)).wf = false
    ∧ (Instr.unit3RequestDone true (List.replicate 8388609 0)).wf = false := by
  simp only [Instr.wf, List.length_replicate]; decide +kernel

/-! ## Worked examples -/

/-- R50: the CRC of the nine ASCII digits. -/
theorem test_crc32c_check : crc32c (by_ [0x31, 0x32, 0x33, 0x34, 0x35, 0x36, 0x37, 0x38, 0x39]) = 0xE3069283 := by decide +kernel

/-- R20: x^8 = x^4 + x^3 + x^2 + 1; two symbols of a code word in error are corrected, a third is too many. -/
theorem test_outer_field : gfMul 2 0x80 = 0x1D ∧ gfMul 0x53 (gfInv 0x53) = 1 := by decide +kernel
theorem test_outer_code : rsDecode [(3, 5), (131, 9)] = some [(3, 5), (131, 9)] ∧ rsDecode [] = some [] := by decide +kernel
/-- R19, R21, R22: one flipped bit of a word is corrected, two are not; the outer code repairs up to two bytes of each of its four code
words, bytes 0 and 4 of a line being of one. -/
theorem test_line_codes : readUpset { data := [(0, 1)] } 0 = .fine ∧ readUpset { data := [(0, 3), (4, 3)] } 0 = .repaired
    ∧ readUpset { data := [(0, 3), (4, 3), (8, 3)] } 0 = .uncorrectable ∧ readUpset { data := [(0, 3)] } 2 = .uncorrectable := by
  decide +kernel

/-- 00_scope, "notation of an Orrin Plateau sampling instant". -/
def elementChannel : Channel := { fs := 800000000, epoch := 1800000000, cal := 151552 }
theorem test_sampling_instant : elementChannel.instant 1000000003 = ((1800000001 * unitsPerSec + 250000003 * 65536 + 49152 : Nat) : Rat) := by
  decide +kernel
theorem test_sampling_instant_ts96 : ts96 (1800000001 * unitsPerSec + 250000003 * 65536 + 49152)
    = by_ [0x01, 0xD2, 0x49, 0x6B, 0, 0, 0x83, 0xB2, 0xE6, 0x0E, 0x00, 0xC0] := by decide +kernel
theorem test_output_interval : intervalOf 125000000 = 0x800000000 := by decide +kernel

/-- 03_hub_time, "Orrin Plateau phase trim": a request 6,500 ns ahead is short of the margin by 3,500 ns. -/
theorem test_too_late_detail :
    shortfall { hub with time := { hub.time with sec := 1800000099, ns := 999993500 } } (1800000100 * unitsPerSec) = 0xDAC := by
  decide +kernel
/-- The same: a rate word of 2^40 − 352 slews by one unit each 100 ticks; 2^40 units advance one nanosecond. -/
theorem test_tick_of_nominal_rate : hub.time.tick.now = hub.now + 65536 := by decide +kernel

/-- 07_channel_pipe, "Orrin Plateau element pipe": the model at 1800000064 s, q, d and φ. -/
def segment33 : Segment := ⟨1800000060 * unitsPerSec, 10000000, 0x5520000000, 0x4000000000, 0, 0, false⟩
theorem test_model_delay : segment33.model ((1800000064 * unitsPerSec : Nat) : Rat) = 0x5620000000 := by decide +kernel
theorem test_quantised_delay : quantise 151552 0x5620000000 800000000 = 72448 ∧ 72448 / 1024 = 70 ∧ 72448 % 1024 = 768 := by
  decide +kernel
/-- The same pipe's mixer word turns a quarter each late-placed sample. -/
theorem test_mixer_quarter_turn : theta 0x200000000000 0 2 = 2 ^ 46 ∧ theta 0x200000000000 0 8 = 0 := by decide +kernel

/-- The same: at 100 MHz the mixer multiplies by 1, −j, −1, j in turn (a value of 1 is 131,071 in the table's scale). -/
theorem test_mixer_quarters : sine 0 = 0 ∧ cosine 0 = 131071 ∧ sine (2 ^ 18) = 131071 ∧ cosine (2 ^ 18) = 0
    ∧ cosine (2 ^ 19) = -131071 ∧ sine (3 * 2 ^ 18) = -131071 := by decide +kernel
/-- R212: sin 45° · 131,071 = 92,681.19…, so its entry is 92,681 or 92,682. -/
theorem test_sine_floor : sineFloor (2 ^ 17) = 92681 := by decide +kernel

/-- 08_palettes, "Orrin Plateau equinox swap": profile 1 and profile 2. -/
def imageOf (lastTaps coefs : Nat) : List Host.Cell :=
  memWrite (memWrite [] 2 ([3, 0] ++ le 4 coefs)) 0x20
    (by_ [1, 2, 1, 16, 48, 0, 0, 0, 2, 2, 1, 17, 23, 0, 0, 0, 3, 8, 5, 16, lastTaps, 0, 0, 0])
def profile1 : Profile := { state := .valid, image := imageOf 120 3215 }
def profile2 : Profile := { state := .valid, image := imageOf 160 3255 }
theorem test_profile1_delay : profile1.span = 931 / 5 ∧ profile1.gd = 931 / 10 ∧ profile1.gammaNs 800000000 = 116375 / 1000
    ∧ profile1.unsettled = 30 := by decide +kernel
theorem test_profile2_delay : profile2.gd = 1091 / 10 ∧ profile2.gammaNs 800000000 = 136375 / 1000 ∧ profile2.unsettled = 35 := by
  decide +kernel
theorem test_profile_sizes : profile1.imageLength = 12940 ∧ profile1.stored = 13056 ∧ profile2.imageLength = 13100
    ∧ profile2.stored = 13312 := by decide +kernel
theorem test_output_rate : outRate 800000000 profile1.stages = 125000000 := by decide +kernel
theorem test_bank_cost : bankCost { mixer := true } 800000000 profile1 = 344 / 10
    ∧ bankCost { mixer := true } 800000000 profile2 = 364 / 10 := by decide +kernel
/-- The same: the first output at or after T_s has n1* = 27,200,000,048 under profile 1 and …,040 under profile 2. -/
theorem test_stamp_index : stampIndex profile1 8500000026 = 27200000048 ∧ stampIndex profile2 8500000026 = 27200000040 := by
  decide +kernel
/-- Stamps of outputs …,025 and …,026 with bank A, and of …,026 with bank B. -/
def pipe33 : Pipe := { updates := [(27200000000, 73267)] }
theorem test_stamp_before_swap : pipeStamp elementChannel pipe33 profile1 8500000025
    = ((1800000067 * unitsPerSec + 999999996 * 65536 + 32784 : Nat) : Int) := by decide +kernel
theorem test_stamp_after_swap : pipeStamp elementChannel pipe33 profile2 8500000026
    = ((1800000067 * unitsPerSec + 999999984 * 65536 + 32784 : Nat) : Int) := by decide +kernel
theorem test_model_field : modelField elementChannel 73267 = 0x571FF0 := by decide +kernel

/-- 09_admission and 01_architecture: 134 bytes of overhead for a tagged IPv4 UDP frame. -/
theorem test_frame_overhead : overhead (by_ [0, 2, 0, 1]) = 134 ∧ portCapacity 5 = 99900000 := by decide +kernel

/-- 10_capture, "window 1": the region holds 196,608 frames of 512 bytes, and the record's length. -/
def window1 : Window := { pages := 1536, frameBytes := 512, fw := 125000000, members := List.range 256 }
theorem test_window_capacity : window1.cap = 196608 ∧ windowSlots window1 = 64 ∧ window1.dataOffset = 0x2900 := by decide +kernel

/-- 06_inputs, "Orrin Plateau converter bring-up": samples per multiframe, the lane rate, the boundary and release. -/
def link3 : Jesd := { version := 2, l := 4, m := 10, f := 15, s := 4, n := 12, np := 12, ke := 15, fs := 800000000 }
theorem test_jesd_numbers : link3.spm = 1024 ∧ link3.laneRate = 24750000 := by decide +kernel
theorem test_jesd_boundary : link3.boundary (link3.nearest ((1800000050 * unitsPerSec + 2563 * 65536 + 16384 : Nat) : Rat))
    = ((1800000050 * unitsPerSec + 2560 * 65536 : Nat) : Rat) := by decide +kernel
theorem test_jesd_release : releaseOf (849 * 65536 / 2) = 429 := by decide +kernel

/-- 11_compression, "a short PRED-RICE block on pipe 300". -/
def five : List Smp := [(1000, 0), (1003, 0), (1007, 0), (1010, 0), (1012, 0)]
theorem test_rice_payload : ricePayload 4 1 five = by_ [0x00, 0x03, 0xE8, 0x15, 0x62, 0xA0] := by decide +kernel
theorem test_rice_block : (riceBlock 4 255 five).1 = some 1 ∧ (riceBlock 4 255 five).2.length = 26
    ∧ (riceBlock 4 255 five).2.take 4 = by_ [0xA5, 0x11, 0x04, 0x01] := by decide +kernel
theorem test_rice_decode : (match riceDecode 4 1 5 (by_ [0x00, 0x03, 0xE8, 0x15, 0x62, 0xA0]) with
    | .ok xs => xs == five
    | .error _ => false) = true := by decide +kernel
/-- R307: a literal run of three, a far match of ten bytes at distance 3, a literal. -/
theorem test_dict_items : (match dictDecode 14 [] (by_ [2, 0x41, 0x42, 0x43, 0xC7, 2, 0, 0, 0x58]) with
    | .ok xs => xs == by_ [0x41, 0x42, 0x43, 0x41, 0x42, 0x43, 0x41, 0x42, 0x43, 0x41, 0x42, 0x43, 0x41, 0x58]
    | .error _ => false) = true := by decide +kernel

/-- 15_safety, "pedestal cabinet": the configuration word, its complement and its arrangement. -/
theorem test_island_word : wordOk 0x7124 0x8EDB = true ∧ wordOk 0x6124 0x9EDB = false ∧ wordOk 0x7124 0x8EDA = false := by decide +kernel
theorem test_island_pairs : ({ word := 0x7124 } : Island).discrepancyTime = 300000000 ∧ ({ word := 0x7124 } : Island).pairs = [0, 1, 2]
    ∧ ({ word := 0x7124 } : Island).autoReset = false := by decide +kernel

/-! ## The queue -/

/-- The first command of the queue runs, the second waits (FIRST IN, FIRST OUT). -/
theorem test_queue_order :
    (match step { hub with pending := [.spiRspReadyClear, .leaseRenew] } with
      | .next t => t.pending == [.leaseRenew]
      | _ => false) = true := by decide +kernel
/-- On an empty queue a tick passes. -/
theorem test_idle_tick :
    (match step hub with
      | .next t => t.now == hub.now + 65536 && t.tick == hub.tick + 1
      | _ => false) = true := by decide +kernel
/-- No row of the table has bits, so no word spells a command. -/
theorem test_no_words : decodeTableWord 32 0 = none := by decide +kernel

end Sys2Proof
end

