-- ==== Sys2Proof/Tests/Witnesses.lean ====
section
/-! SUPPORT. For every statement with hypotheses, states and operands that meet them together, one for each clause. -/

namespace Sys2Proof

open Machine

set_option Elab.async false

/-- State.Inv as a Bool. -/
def invB (s : State) : Bool :=
  decide (s.time.sec < 2 ^ 48) && decide (s.time.ns < 1000000000) && decide (s.time.frac40 < 2 ^ 40) && s.flt.detected.isEmpty

theorem inv_ok {s : State} (h : invB s = true) : s.Inv := by
  simp only [invB, Bool.and_eq_true, decide_eq_true_eq, List.isEmpty_iff] at h
  exact ⟨⟨h.1.1.1, h.1.1.2, h.1.2⟩, h.2⟩

/-- Accepted as a Bool. -/
def accB (op : Op) (r : Req) (s : State) : Bool :=
  s.serves && s.canTake r.mb.val && s.flt.detected.isEmpty
    && (firstBad (headerChecks (s.mb r.mb.val).version2 r ++ opChecks op (s.mb r.mb.val).version2 r (s.taking op r))).isNone
    && (!op.ledger || (!s.flt.ledgerBad && (shorts (s.taking op r) (op.effect r (s.taking op r)).1).isEmpty))

theorem acc_ok {op : Op} {r : Req} {s : State} (h : accB op r s = true) : Accepted op r s := by
  simp only [accB, Bool.and_eq_true, List.isEmpty_iff, Option.isNone_iff_eq_none, Bool.or_eq_true, Bool.not_eq_true'] at h
  refine ⟨h.1.1.1.1, h.1.1.1.2, h.1.1.2, h.1.2, fun k => ?_⟩
  rcases h.2 with e | e
  · rw [k] at e
    exact Bool.noConfusion e
  · exact e

/-- Quietly as a Bool. -/
def quietB (b n u : Nat) (s : State) : Bool :=
  !s.faultsHeld && !s.gated b n u && decide (resetField (s.reaction b n) = 0) && decide (¬ (b = 3 ∧ n = 3))
    && decide (¬ (b = 13 ∧ n = 0))

theorem quiet_ok {b n u : Nat} {s : State} (h : quietB b n u s = true) : Quietly b n u s := by
  simp only [quietB, Bool.and_eq_true, Bool.not_eq_true', decide_eq_true_eq] at h
  exact ⟨h.1.1.1.1, h.1.1.1.2, h.1.1.2, h.1.2, h.2⟩

theorem noResets_ok {s : State} (h : ∀ b < 17, ∀ n < 64, resetField (s.reaction b n) = 0) : s.NoResets := h

theorem nothing_ok {s : State} (h : (s.time.refLost = false ∧ s.time.tpllUnlock = false ∧ s.time.ppsLost = false) ∧
    (s.chip.dspLocked = true ∧ s.chip.fwStalled = false) ∧ s.flt.ledgerBad = false ∧ s.flt.standing = []) :
    s.NothingPersists := ⟨h.1, h.2.1, h.2.2⟩

theorem sends_ok {s : State} {p : PtpPort} {x : T16} {msg : Bytes}
    (h : ptpOn s p = true ∧ s.fwRuns = true ∧
      s.maySend p (messageFrame (getU (s.ptp (ptpKey p)).settings 3 1) (getU (s.ptp (ptpKey p)).settings 10 2 % 4096)
        (ptpOut (s.ptp (ptpKey p)).settings msg (adjusted s p 12 x)).length) = true ∧
      (getU msg 0 1 % 16 = 1 → s.xfer.network = true)) : s.Sends p x msg := ⟨h.1, h.2.1, h.2.2.1, h.2.2.2⟩

theorem estimates_ok {s : State} {x : ServoInput} {e : Int}
    (h : s.fwRuns = true ∧ s.xfer.roleAct ≠ .host ∧ s.offsetOf x = some e ∧ s.crossMismatch x = false) : s.Estimates x e :=
  ⟨h.1, h.2.1, h.2.2.1, h.2.2.2⟩

theorem oneDue_ok {s : State} {e : CalEntry}
    (h : e ∈ s.cal.entries ∧ e.due s = true ∧ e.period = 0 ∧ (∀ x ∈ s.cal.entries, x.due s = true ∨ x.ins = e.ins → x = e) ∧
      s.cal.fireLog.length < 4096) : s.OneDue e := h

theorem hears_ok {s : State} {j : JobRef} (h : s.fwRuns = true ∧ (s.mb j.mb).session = .opened ∧ j.mb ≠ 8) : s.hears j := h

theorem lockMet_ok {s : State} {x : ServoInput} {e : Int}
    (h : if s.xfer.roleAct = .standalone ∨ s.xfer.roleAct = .keeper then
        (if s.xfer.refMode = 0 then e.natAbs ≤ 65536 ∧ s.secondsAgree x = true ∧ 15 ≤ s.xfer.lockCount
         else e.natAbs ≤ 50 * 65536 ∧ 63 ≤ s.xfer.lockCount)
      else e.natAbs ≤ 6 ∧ s.keeperLocked = true) : s.LockMet x e := h

theorem onlyKeeper_ok {s : State} (h : ∀ n ∈ s.announcers, beatHub (s.heardOn n).frame = s.xfer.hubIdF.toNat) :
    s.OnlyItsKeeper := h

theorem notOnly_ok {s : State} (h : ¬ ∀ n ∈ s.announcers, beatHub (s.heardOn n).frame = s.xfer.hubIdF.toNat) :
    ¬ s.OnlyItsKeeper := h

theorem partial_ok {s : State} {src : Bytes} {id offset : Nat} {more : Bool} {data : Bytes} {p : Partial} {q : Partial}
    (h : p = { q with parts := q.parts ++ [(offset, more, data)] } ∧
      (s.hcp.partials.find? (fun x => x.src == src && x.id == id) = some q ∨
        s.hcp.partials.find? (fun x => x.src == src && x.id == id) = none ∧ s.hcp.partials.length < 8 ∧
          q = ⟨src, id, [], s.tick⟩)) : s.PartialWith src id offset more data p := ⟨q, h⟩

theorem none_all {α : Type} {P : α → Prop} {o : Option α} (h : o.isNone = true) : ∀ x, o = some x → P x := by
  intro x e
  rw [e] at h
  exact Bool.noConfusion h

theorem crc_step {bs cs : Bytes} {c d e : Nat} (h1 : bs.foldl crcByte c = d) (h2 : cs.foldl crcByte d = e) :
    (bs ++ cs).foldl crcByte c = e := by
  rw [List.foldl_append, h1, h2]


theorem crcOk_of {p : Profile} {c : Nat}
    (h : (memRead p.image 0 0x10 ++ zeros 4 ++ memRead p.image 0x14 (p.extent - 0x14)).foldl crcByte 0xFFFFFFFF = c)
    (hb : p.byte 0x10 4 = c ^^^ 0xFFFFFFFF) : p.crcOk = true := by
  unfold Profile.crcOk crc32c
  rw [h, hb]
  exact beq_self_eq_true _

/-- The CRC of the sample profile's image, in pieces. -/
theorem sample_crc : (prof1 .staging).crcOk = true := by
  have z1 : (zeros 72).foldl crcByte 747487409 = 29955994 := by decide +kernel
  have z2 : (zeros 72).foldl crcByte 29955994 = 1859535004 := by decide +kernel
  have z3 : (zeros 72).foldl crcByte 1859535004 = 2237688373 := by decide +kernel
  have z4 : (zeros 72).foldl crcByte 2237688373 = 3176201622 := by decide +kernel
  have b0 : (memRead image1 0 0x10 ++ zeros 4 ++ memRead image1 0x14 28).foldl crcByte 0xFFFFFFFF = 747487409 := by
    decide +kernel
  have e : memRead (prof1 .staging).image 0 0x10 ++ zeros 4
      ++ memRead (prof1 .staging).image 0x14 ((prof1 .staging).extent - 0x14) =
      (memRead image1 0 0x10 ++ zeros 4 ++ memRead image1 0x14 28)
      ++ (zeros 72 ++ (zeros 72 ++ (zeros 72 ++ zeros 72))) := by
    decide +kernel
  exact crcOk_of ((congrArg (fun l => l.foldl crcByte 0xFFFFFFFF) e).trans
    (crc_step b0 (crc_step z1 (crc_step z2 (crc_step z3 z4))))) (by decide +kernel)

theorem sample_short : commitResult (prof1 .staging) 332 = (2, 0) := by
  unfold commitResult
  exact if_pos (by decide +kernel)

theorem sample_commit : commitResult (prof1 .staging) 336 = (0, 0) := by
  unfold commitResult
  rw [sample_crc]
  decide +kernel

/-- The commit of the sample profile is accepted. -/
theorem sample_accepted : Accepted opProfileCommit commitRq commitHub := by
  have e : (opProfileCommit.effect commitRq (commitHub.taking opProfileCommit commitRq)).1 =
      (commitHub.taking opProfileCommit commitRq).setProf 255 { prof1 .staging with state := .valid } := by
    show (commitHub.taking opProfileCommit commitRq).setProf 255 (commitProfile (prof1 .staging) 336).1 = _
    unfold commitProfile
    rw [sample_commit]
    rfl
  refine ⟨by decide +kernel, by decide +kernel, by decide +kernel, Option.isNone_iff_eq_none.mp (by decide +kernel), fun _ =>
    ⟨by decide +kernel, ?_⟩⟩
  rw [e]
  exact List.isEmpty_iff.mp (by decide +kernel)

/-- The hypotheses of Obligations.SessionRegistersActAsWritten can be met. -/
theorem witness_SessionRegistersActAsWritten :
    (∃ (s : State) (m : Fin 8) (_v2 _pause _irqEn : Bool), s.Inv ∧ s.barUp = true ∧ (s.mb m).enable = false) ∧
    (∃ (s : State) (m : Fin 8) (_v2 _irqEn : Bool), s.Inv ∧ s.barUp = true ∧ (s.mb m).enable = true ∧ (s.mb
      m).session = .opened) ∧
    (∃ (s : State) (m : Fin 8), s.Inv ∧ s.barUp = true ∧ (s.mb m).enable = true) ∧
    (∃ (s : State) (m : Fin 8), s.Inv ∧ s.barUp = true ∧ (s.mb m).session = .opened) ∧
    (∃ (s : State) (m : Fin 8), s.Inv ∧ s.barUp = true ∧ (s.mb m).session = .paused ∧ (s.mb m).reqBase ≠ 0 ∧ (s.mb
      m).rspBase ≠ 0) ∧
    (∃ (s : State) (_m : Fin 8) (_en : Bool), s.Inv ∧ s.barUp = true) ∧
    (∃ (s : State) (m : Fin 8), s.Inv ∧ Quietly 16 2 m.val s ∧ s.barUp = true ∧ (s.mb m).session = .paused ∧ ((s.mb
      m).reqBase = 0 ∨ (s.mb m).rspBase = 0)) := 
  ⟨⟨hub, 7, true, false, true, inv_ok (by decide +kernel), by decide +kernel⟩,
     ⟨hub, 0, false, true, inv_ok (by decide +kernel), by decide +kernel⟩,
     ⟨hub, 0, inv_ok (by decide +kernel), by decide +kernel⟩,
     ⟨hub, 0, inv_ok (by decide +kernel), by decide +kernel⟩,
     ⟨u1, 1, inv_ok (by decide +kernel), by decide +kernel⟩,
     ⟨hub, 7, true, inv_ok (by decide +kernel), by decide +kernel⟩,
     ⟨u1, 2, inv_ok (by decide +kernel), quiet_ok (by decide +kernel), by decide +kernel⟩⟩

/-- The hypotheses of Obligations.RingRegistersTakeValuesInRange can be met. -/
theorem witness_RingRegistersTakeValuesInRange :
    (∃ (s : State) (m : Fin 8) (_rsp : Bool) (_addr : W64), s.Inv ∧ s.barUp = true ∧ (s.mb m).session = .closed) ∧
    (∃ (s : State) (m : Fin 8) (_addr : W64), s.Inv ∧ s.barUp = true ∧ (s.mb m).session = .paused) ∧
    (∃ (s : State) (m : Fin 8) (v : W16), s.Inv ∧ s.barUp = true ∧ (v - (s.mb m).reqCi).toNat ≤ 64) ∧
    (∃ (s : State) (m : Fin 8) (v : W16), s.Inv ∧ s.barUp = true ∧ (v - (s.mb m).rspCi).toNat ≤ ((s.mb m).rspPi -
      (s.mb m).rspCi).toNat) ∧
    (∃ (s : State) (_m : Fin 8), s.Inv ∧ s.barUp = true) ∧
    (∃ (s : State) (m : Fin 8) (v : W16), s.Inv ∧ Quietly 16 2 m.val s ∧ s.barUp = true ∧ 64 < (v - (s.mb
      m).reqCi).toNat) ∧
    (∃ (s : State) (m : Fin 8) (v : W16), s.Inv ∧ Quietly 16 2 m.val s ∧ s.barUp = true ∧ ((s.mb m).rspPi - (s.mb
      m).rspCi).toNat < (v - (s.mb m).rspCi).toNat) := 
  ⟨⟨hub, 7, true, 0x12345, inv_ok (by decide +kernel), by decide +kernel⟩,
     ⟨u1, 1, 0x12345, inv_ok (by decide +kernel), by decide +kernel⟩,
     ⟨hub, 0, 64, inv_ok (by decide +kernel), by decide +kernel⟩,
     ⟨u1, 0, 5, inv_ok (by decide +kernel), by decide +kernel⟩,
     ⟨hub, 0, inv_ok (by decide +kernel), by decide +kernel⟩,
     ⟨hub, 0, 65, inv_ok (by decide +kernel), quiet_ok (by decide +kernel), by decide +kernel⟩,
     ⟨u1, 0, 6, inv_ok (by decide +kernel), quiet_ok (by decide +kernel), by decide +kernel⟩⟩

/-- The hypotheses of Obligations.EntriesLeaveTheirQueueInOrder can be met. -/
theorem witness_EntriesLeaveTheirQueueInOrder :
    (∃ (s : State) (m : Fin 10) (e : Entry) (rest : List Entry), s.Inv ∧ m.val < 8 ∧ s.answers = true ∧ e.isNotice =
      false ∧ e.slot = none ∧ s.chip.sysResetOwed = false ∧ s.chip.pcieUp = true ∧ (s.mb m).session = .opened ∧ (s.mb
      m).waiting = e :: rest ∧ ((s.mb m).rspPi - (s.mb m).rspCi).toNat < 64) ∧
    (∃ (s : State) (e : Entry) (rest : List Entry) (a : Bytes) (p : Nat), s.Inv ∧ s.answers = true ∧ e.isNotice =
      false ∧ e.slot = none ∧ s.chip.sysResetOwed = false ∧ (s.mb 8).waiting = e :: rest ∧ s.hcp.replyTo.or
      s.hcp.peer = some (a, p) ∧ e.frame.length ≤ 4096) ∧
    (∃ (s : State) (e : Entry) (rest : List Entry), s.Inv ∧ s.answers = true ∧ e.isNotice = false ∧ e.slot = none ∧
      s.chip.sysResetOwed = false ∧ (s.mb 9).waiting = e :: rest ∧ s.hcp.spiReady = false) ∧
    (∃ (s : State) (m : Fin 10) (e : Entry) (rest : List Entry), s.Inv ∧ m.val < 8 ∧ s.serves = true ∧ e.isNotice =
      true ∧ s.chip.pcieUp = true ∧ (s.mb m).session = .opened ∧ (s.mb m).waiting = e :: rest ∧ ((s.mb m).rspPi -
      (s.mb m).rspCi).toNat < 64) ∧
    (∃ (s : State) (e : Entry) (rest : List Entry) (a : Bytes) (p : Nat), s.Inv ∧ s.serves = true ∧ e.isNotice = true
      ∧ (s.mb 8).waiting = e :: rest ∧ s.hcp.peer = some (a, p) ∧ e.frame.length ≤ 4096) ∧
    (∃ (s : State) (e : Entry) (rest : List Entry), s.Inv ∧ s.serves = true ∧ e.isNotice = true ∧ (s.mb 9).waiting =
      e :: rest ∧ s.hcp.spiReady = false) ∧
    (∃ (s : State) (m : Fin 10), s.Inv ∧ (s.mb m).lostOwed = true ∧ s.fwRuns = true ∧ logRoom s.hcp.log = true) := 
  ⟨⟨uE e1, 7, e1, [], inv_ok (by decide +kernel), by decide +kernel⟩,
     ⟨u8, e1, [], [1, 2], 9, inv_ok (by decide +kernel), by decide +kernel⟩,
     ⟨u9, e1, [], inv_ok (by decide +kernel), by decide +kernel⟩,
     ⟨uE e2, 7, e2, [], inv_ok (by decide +kernel), by decide +kernel⟩,
     ⟨u8n, e2, [e1], [1, 2, 3, 4], 9, inv_ok (by decide +kernel), by decide +kernel⟩,
     ⟨u9n, e3, [], inv_ok (by decide +kernel), by decide +kernel⟩,
     ⟨uLost, 0, inv_ok (by decide +kernel), by decide +kernel⟩⟩

/-- The hypotheses of Obligations.DatagramsAreTakenCountedOrDropped can be met. -/
theorem witness_DatagramsAreTakenCountedOrDropped :
    (∃ (s : State) (h : MgmtHead) (_sport : Nat) (data : Bytes), s.Inv ∧ s.awake = true ∧ s.mbOpen 8 = true ∧
      s.mgmtMine h = true ∧ 32 ≤ data.length ∧ data.length = 32 + getU data 0xA 2) ∧
    (∃ (s : State) (h : MgmtHead) (_sport udpLen : Nat) (data : Bytes), s.Inv ∧ Quietly 16 3 17 s ∧ s.awake = true ∧
      s.mbOpen 8 = true ∧ s.mgmtMine h = true ∧ udpLen ≠ 40 + getU data 0xA 2) ∧
    (∃ (s : State) (h : MgmtHead) (ports : UdpPorts) (_udpLen : Nat) (_data : Bytes), s.Inv ∧ (s.mgmtMine h = false ∨
      ports.dport ≠ 47104)) ∧
    (∃ (s : State) (h : MgmtHead) (id offset : Nat) (more : Bool) (data : Bytes) (p : Partial), s.Inv ∧ s.PartialWith
      h.src id offset more data p ∧ s.awake = true ∧ s.mbOpen 8 = true ∧ s.mgmtMine h = true ∧ offset + data.length ≤
      4104 ∧ p.total = none) ∧
    (∃ (s : State) (h : MgmtHead) (id offset : Nat) (more : Bool) (data : Bytes) (p : Partial) (n : Nat), s.Inv ∧
      s.PartialWith h.src id offset more data p ∧ s.awake = true ∧ s.mbOpen 8 = true ∧ s.mgmtMine h = true ∧ offset +
      data.length ≤ 4104 ∧ p.total = some n ∧ ofBe (sub (p.bytes n) 2 2) = 47104 ∧ 40 ≤ n ∧ n = 40 + getU (p.bytes n)
      0x12 2 ∧ ofBe (sub (p.bytes n) 4 2) = n) ∧
    (∃ (s : State) (h : MgmtHead) (id offset : Nat) (more : Bool) (data : Bytes) (p : Partial), s.Inv ∧ s.PartialWith
      h.src id offset more data p ∧ s.awake = true ∧ s.mbOpen 8 = true ∧ s.mgmtMine h = true ∧ 4104 < offset +
      data.length) ∧
    (∃ (s : State) (h : MgmtHead) (id _offset : Nat) (_more : Bool) (_data : Bytes), s.Inv ∧ s.awake = true ∧
      s.mbOpen 8 = true ∧ 8 ≤ s.hcp.partials.length ∧ (∀ p ∈ s.hcp.partials, ¬ (p.src = h.src ∧ p.id = id))) ∧
    (∃ (s : State) (src : Bytes) (id : Nat), s.Inv ∧ (∃ p ∈ s.hcp.partials, p.src = src ∧ p.id = id ∧ p.since +
      1000000000 ≤ s.tick)) := 
  ⟨⟨mgmt, mh, 9000, dg, inv_ok (by decide +kernel), by decide +kernel⟩,
     ⟨mgmt, mh, 9000, 45, dg, inv_ok (by decide +kernel), quiet_ok (by decide +kernel), by decide +kernel⟩,
     ⟨mgmt, mh, ⟨9000, 47105⟩, 44, dg, inv_ok (by decide +kernel), by decide +kernel⟩,
     ⟨mgmt, mh, 7, 0, true, [1, 2], ⟨by_ [9, 8, 7, 6], 7, [(0, true, [1, 2])], 0⟩, inv_ok (by decide +kernel), partial_ok
      (q := ⟨by_ [9, 8, 7, 6], 7, [], 0⟩) (by decide +kernel), by decide +kernel⟩,
     ⟨mgmtA, mh, 7, 16, false, udp.drop 16, { partA with parts := [(0, true, udp.take 16), (16, false, udp.drop 16)] },
      44, inv_ok (by decide +kernel), partial_ok (q := partA) (by decide +kernel), by decide +kernel⟩,
     ⟨mgmtA, mh, 7, 4104, false, [1], { partA with parts := [(0, true, udp.take 16), (4104, false, [1])] }, inv_ok
      (by decide +kernel), partial_ok (q := partA) (by decide +kernel), by decide +kernel⟩,
     ⟨{ mgmt with hcp := { mgmt.hcp with partials := (List.range 8).map part } }, mh, 7, 0, true, [1, 2], inv_ok
      (by decide +kernel), by decide +kernel⟩,
     ⟨mgmtA, by_ [9, 8, 7, 6], 7, inv_ok (by decide +kernel), by decide +kernel⟩⟩

/-- The hypotheses of Obligations.SpiPortActsAsItsRegistersSay can be met. -/
theorem witness_SpiPortActsAsItsRegistersSay :
    (∃ (s : State) (k : Nat) (data : Bytes), s.Inv ∧ s.awake = true ∧ k + data.length ≤ 4096) ∧
    (∃ (s : State) (a n : Nat), s.Inv ∧ s.chip.phase ≠ .off ∧ 0x24 ≤ a ∧ a + n ≤ 0x1000) ∧
    (∃ (s : State) (a n : Nat), s.Inv ∧ s.chip.phase ≠ .off ∧ a ≤ 0x20 ∧ 0x20 < a + n ∧ a + n ≤ 0x1000) ∧
    (∃ (s : State), s.Inv ∧ s.awake = true) ∧
    (∃ (s : State), s.Inv ∧ s.awake = true) ∧
    (∃ (s : State), s.Inv ∧ s.awake = true ∧ (s.mb 9).enable = false) ∧
    (∃ (s : State), s.Inv ∧ s.awake = true ∧ (s.mb 9).enable = true) := 
  ⟨⟨hub, 4092, [7, 0, 8, 9], inv_ok (by decide +kernel), by decide +kernel⟩,
     ⟨hub, 0xFFC, 4, inv_ok (by decide +kernel), by decide +kernel⟩,
     ⟨hub, 0x1E, 6, inv_ok (by decide +kernel), by decide +kernel⟩,
     ⟨hub, inv_ok (by decide +kernel), by decide +kernel⟩,
     ⟨hub, inv_ok (by decide +kernel), by decide +kernel⟩,
     ⟨hub, inv_ok (by decide +kernel), by decide +kernel⟩,
     ⟨uMb 9 { enable := true, session := .opened, waiting := [e2], slots := [2] }, inv_ok (by decide +kernel),
      by decide +kernel⟩⟩

/-- The hypotheses of Obligations.PlainRegisterAccesses can be met. -/
theorem witness_PlainRegisterAccesses :
    (∃ (s : State) (k : Nat) (data : Bytes), s.Inv ∧ s.barUp = true ∧ k < 36 ∧ data.length = 4) ∧
    (∃ (s : State) (m : Fin 8) (v : Nat), s.Inv ∧ s.barUp = true ∧ v < 2 ^ 16 ∧ (BitVec.ofNat 16 v - (s.mb
      m).reqCi).toNat ≤ 64) ∧
    (∃ (s : State) (offset : Nat) (data : Bytes), s.Inv ∧ s.chip.pcieUp = true ∧ (data.length ≠ 4 ∧ data.length ≠ 8 ∨
      offset % data.length ≠ 0)) ∧
    (∃ (s : State) (v : Nat), s.Inv ∧ s.chip.pcieUp = true ∧ s.pushSeen = true ∧ v < 2 ^ 32) ∧
    (∃ (s : State) (k : Nat) (_v : Byte), s.Inv ∧ s.awake = true ∧ k < 4096) ∧
    (∃ (s : State) (offset size : Nat), s.Inv ∧ s.chip.pcieUp = true ∧ barAccess offset size = true ∧ ¬ (offset ≤
      0x20 ∧ 0x20 < offset + size)) ∧
    (∃ (s : State) (offset size : Nat), s.Inv ∧ s.chip.pcieUp = true ∧ barAccess offset size = true ∧ offset ≤ 0x20 ∧
      0x20 < offset + size) ∧
    (∃ (s : State) (offset size : Nat), s.Inv ∧ s.chip.pcieUp = true ∧ barAccess offset size = false) ∧
    (∃ (s : State), s.Inv ∧ s.chip.pcieUp = true) := 
  ⟨⟨hub, 35, [1, 2, 3, 4], inv_ok (by decide +kernel), by decide +kernel⟩,
     ⟨hub, 0, 64, inv_ok (by decide +kernel), by decide +kernel⟩,
     ⟨hub, 0x1018, [1, 2], inv_ok (by decide +kernel), by decide +kernel⟩,
     ⟨pushable, 0x12345678, inv_ok (by decide +kernel), by decide +kernel⟩,
     ⟨hub, 4095, 5, inv_ok (by decide +kernel), by decide +kernel⟩,
     ⟨hub, 0x1000, 8, inv_ok (by decide +kernel), by decide +kernel⟩,
     ⟨hub, 0x20, 4, inv_ok (by decide +kernel), by decide +kernel⟩,
     ⟨hub, 0x21, 4, inv_ok (by decide +kernel), by decide +kernel⟩,
     ⟨hub, inv_ok (by decide +kernel), by decide +kernel⟩⟩

/-- The hypotheses of Obligations.TakenFramesAreJudged can be met. -/
theorem witness_TakenFramesAreJudged :
    (∃ (s : State) (m : Fin 8) (f : Bytes), s.Inv ∧ s.answers = true ∧ s.nextMailbox = some m.val ∧ getU f 0x0A 2 % 4
      = 0 ∧ getU f 0x0A 2 ≤ 4064 ∧ frameCrc f ≠ getU f 0x1C 4) ∧
    (∃ (s : State) (m : Fin 8) (f : Bytes), s.Inv ∧ s.chip.phase = .boot ∧ s.nextMailbox = some m.val ∧ getU f 0x0A 2
      % 4 = 0 ∧ getU f 0x0A 2 ≤ 4064 ∧ frameCrc f = getU f 0x1C 4 ∧ getU f 0 2 = 0x4843 ∧ getU f 2 1 = (s.mb
      m).version) := 
  ⟨⟨ringed, 0, badFrame, inv_ok (by decide +kernel), by decide +kernel⟩,
     ⟨{ uMb 0 { enable := true, session := .opened, reqBase := 4096, rspBase := 8192, reqPi := 1 } with chip := { hub.chip with phase := .boot } },
      0, okFrame, inv_ok (by decide +kernel), by decide +kernel⟩⟩

/-- The hypotheses of Obligations.ARepeatedRequestIsNotExecutedAgain can be met. -/
theorem witness_ARepeatedRequestIsNotExecutedAgain :
    (∃ (s : State) (m : Fin 10) (slot f : Bytes) (x : Stored), s.Inv ∧ s.answers = true ∧ s.chip.phase ≠ .boot ∧
      s.nextMailbox = some m.val ∧ (takeFront m slot s).1 = f ∧ firstBad (frameChecks (s.mb m) f s) = none ∧ isReplay
      (s.mb m) f = true ∧ (s.mb m).stored = some x) ∧
    (∃ (s : State) (m : Fin 10) (slot f : Bytes), s.Inv ∧ s.answers = true ∧ s.chip.phase ≠ .boot ∧ s.nextMailbox =
      some m.val ∧ (takeFront m slot s).1 = f ∧ firstBad (frameChecks (s.mb m) f s) = none ∧ (s.mb m).seqSet = true ∧
      getU f 4 4 = (s.mb m).lastSeq.toNat ∧ getU f 0x1C 4 ≠ (s.mb m).lastCrc.toNat) := 
  ⟨⟨replayed, 0, okFrame, okFrame, ⟨0x0101, 0, 7, 0, [5]⟩, inv_ok (by decide +kernel), by decide +kernel⟩,
     ⟨uMb 0
      { enable := true, session := .opened, reqBase := 4096, rspBase := 8192, reqPi := 1, seqSet := true, lastSeq := 9, lastCrc := 5, stored := some ⟨0x0101, 0, 7, 0, [5]⟩ },
      0, okFrame, okFrame, inv_ok (by decide +kernel), by decide +kernel⟩⟩

/-- The hypotheses of Obligations.SessionOpcodesReportAndSubscribe can be met. -/
theorem witness_SessionOpcodesReportAndSubscribe :
    (∃ (s : State) (r : Req), Accepted opSessionInfo r s) ∧
    (∃ (s : State) (r : Req), Accepted opNoticeFetch r s ∧ s.logged r.mb.val = [] ∧ r.u32 0 = (((s.taking
      opNoticeFetch r).mb r.mb.val).hubSeq + 1).toNat) ∧
    (∃ (s : State) (r : Req), Accepted opNoticeSubscribe r s ∧ r.u16 0 ≠ 0) := 
  ⟨⟨hub, rq [], acc_ok (by decide +kernel)⟩,
     ⟨hub, rq (by_ [1, 0, 0, 0, 15, 0, 0, 0]), acc_ok (by decide +kernel), by decide +kernel⟩,
     ⟨hub, rq (by_ [6, 0, 0, 0]), acc_ok (by decide +kernel), by decide +kernel⟩⟩

/-- The hypotheses of Obligations.TickAddsTheEffectiveRateWord can be met. -/
theorem witness_TickAddsTheEffectiveRateWord :
    ∃ x : TimeSt, x.ok := 
  ⟨uTop.time, ⟨by decide +kernel, by decide +kernel, by decide +kernel⟩⟩

/-- The hypotheses of Obligations.RateWordIsTakenInRangeAndSlewed can be met. -/
theorem witness_RateWordIsTakenInRangeAndSlewed :
    (∃ (s : State) (w : W48), s.Inv ∧ s.fwRuns = true ∧ 2 ^ 40 ≤ w.toNat + 549755813 ∧ w.toNat ≤ 2 ^ 40 + 549755813 ∧
      (s.anyTimeLocked = false ∨ 2 ^ 40 ≤ w.toNat + 109951162 ∧ w.toNat ≤ 2 ^ 40 + 109951162)) ∧
    (∃ (s : State) (w : W48), s.Inv ∧ s.fwRuns = true ∧ s.anyTimeLocked = true ∧ 2 ^ 40 + 109951162 < w.toNat ∧
      w.toNat ≤ 2 ^ 40 + 549755813) ∧
    (∃ (s : State) (w : W48), s.Inv ∧ s.fwRuns = true ∧ s.anyTimeLocked = true ∧ 2 ^ 40 ≤ w.toNat + 549755813 ∧
      w.toNat + 109951162 < 2 ^ 40) ∧
    (∃ (s : State) (w : W48), s.Inv ∧ Quietly 0 0 0 s ∧ s.fwRuns = true ∧ s.anyTimeLocked = false ∧ (w.toNat +
      549755813 < 2 ^ 40 ∨ 2 ^ 40 + 549755813 < w.toNat)) ∧
    (∃ (s : State) (_w : W48) (at_ : T16), s.Inv ∧ s.fwRuns = true ∧ nsOf s.now + 10000 ≤ nsOf at_ ∧
      (s.cal.entries.filter (·.fw)).length < 32) ∧
    (∃ (s : State), s.Inv ∧ 100 ≤ s.time.slewTicks) := 
  ⟨⟨hub, BitVec.ofNat 48 (2 ^ 40 + 549755813), inv_ok (by decide +kernel), by decide +kernel⟩,
     ⟨tl, BitVec.ofNat 48 (2 ^ 40 + 109951163), inv_ok (by decide +kernel), by decide +kernel⟩,
     ⟨tl, BitVec.ofNat 48 (2 ^ 40 - 549755813), inv_ok (by decide +kernel), by decide +kernel⟩,
     ⟨hub, BitVec.ofNat 48 (2 ^ 40 - 549755814), inv_ok (by decide +kernel), quiet_ok (by decide +kernel),
      by decide +kernel⟩,
     ⟨hub, BitVec.ofNat 48 (2 ^ 40), 1001 * unitsPerSec, inv_ok (by decide +kernel), by decide +kernel⟩,
     ⟨{ hub with time := { hub.time with slewTicks := 100 } }, inv_ok (by decide +kernel), by decide +kernel⟩⟩

/-- The hypotheses of Obligations.TimeQualityChangesAsTheTableSays can be met. -/
theorem witness_TimeQualityChangesAsTheTableSays :
    (∃ (s : State) (q : Quality), s.Inv ∧ s.fwRuns = true ∧ s.xfer.roleAct ≠ .host ∧ (s.time.quality = .free ∧ q =
      .locked ∨ s.time.quality = .holdover ∧ q = .locked)) ∧
    (∃ (s : State), s.Inv ∧ s.fwRuns = true ∧ s.time.quality = .locked) ∧
    (∃ (s : State), s.Inv ∧ s.fwRuns = true ∧ s.time.quality = .holdover) ∧
    (∃ (s : State) (q : Quality), s.Inv ∧ Quietly 0 1 0 s ∧ s.fwRuns = true ∧ (s.xfer.roleAct ≠ .host ∨ q ≠ .locked)
      ∧ (s.time.quality = .unset ∨ q = .unset ∨ s.time.quality = q ∨ s.time.quality = .free ∧ q = .holdover ∨
      s.time.quality = .locked ∧ q = .free)) ∧
    (∃ (s : State), s.Inv ∧ s.xfer.roleAct = .host) ∧
    (∃ (s : State), s.Inv ∧ s.fwRuns = true ∧ s.time.quality = .locked) ∧
    (∃ (s : State), s.Inv ∧ Quietly 0 1 0 s ∧ s.fwRuns = true ∧ s.time.quality ≠ .locked) ∧
    (∃ (s : State), s.Inv ∧ Quietly 0 2 0 s ∧ s.time.quality = .locked ∧ s.time.lease = 0) := 
  ⟨⟨lk .free, .locked, inv_ok (by decide +kernel), by decide +kernel⟩,
     ⟨uQ .locked 9, inv_ok (by decide +kernel), by decide +kernel⟩,
     ⟨uQ .holdover 0, inv_ok (by decide +kernel), by decide +kernel⟩,
     ⟨lk .unset, .locked, inv_ok (by decide +kernel), quiet_ok (by decide +kernel), by decide +kernel⟩,
     ⟨uQ .free 0, inv_ok (by decide +kernel), by decide +kernel⟩,
     ⟨uQ .locked 1, inv_ok (by decide +kernel), by decide +kernel⟩,
     ⟨uQ .holdover 1, inv_ok (by decide +kernel), quiet_ok (by decide +kernel), by decide +kernel⟩,
     ⟨uQ .locked 0, inv_ok (by decide +kernel), quiet_ok (by decide +kernel), by decide +kernel⟩⟩

/-- The hypotheses of Obligations.ReferenceLossesAreHeldAndFlagged can be met. -/
theorem witness_ReferenceLossesAreHeldAndFlagged :
    (∃ (s : State), s.Inv ∧ Quietly 0 3 0 s ∧ s.chip.rails.aon = true ∧ s.time.refLost = false ∧ s.time.quality =
      .locked) ∧
    (∃ (s : State), s.Inv ∧ Quietly 0 3 0 s ∧ s.chip.rails.aon = true ∧ s.time.refLost = false ∧ s.time.quality ≠
      .locked) ∧
    (∃ (s : State), s.Inv ∧ Quietly 0 4 0 s ∧ s.chip.rails.aon = true ∧ s.time.tpllUnlock = false ∧ s.time.quality =
      .locked) ∧
    (∃ (s : State), s.Inv ∧ Quietly 0 4 0 s ∧ s.chip.rails.aon = true ∧ s.time.tpllUnlock = false ∧ s.time.quality ≠
      .locked) ∧
    (∃ (s : State), s.Inv ∧ s.chip.rails.aon = true) ∧
    (∃ (s : State), s.Inv) ∧
    (∃ (s : State), s.Inv ∧ Quietly 0 5 0 s ∧ s.chip.rails.aon = true ∧ s.time.ppsLost = false ∧ s.time.ppsTick +
      1500000000 ≤ s.tick ∧ (s.fwRuns = false ∨ s.xfer.network = false ∨ s.xfer.refMode ≠ 0)) ∧
    (∃ (s : State), s.Inv ∧ Quietly 0 5 0 s ∧ s.chip.rails.aon = true ∧ s.time.ppsLost = false ∧ s.time.ppsTick +
      1500000000 ≤ s.tick ∧ s.fwRuns = true ∧ s.xfer.network = true ∧ s.xfer.refMode = 0 ∧ (s.xfer.servo = .acquire ∨
      s.xfer.servo = .steer ∨ s.xfer.servo = .track)) := 
  ⟨⟨uQ .locked 9, inv_ok (by decide +kernel), quiet_ok (by decide +kernel), by decide +kernel⟩,
     ⟨hub, inv_ok (by decide +kernel), quiet_ok (by decide +kernel), by decide +kernel⟩,
     ⟨uQ .locked 9, inv_ok (by decide +kernel), quiet_ok (by decide +kernel), by decide +kernel⟩,
     ⟨hub, inv_ok (by decide +kernel), quiet_ok (by decide +kernel), by decide +kernel⟩,
     ⟨{ hub with time := { hub.time with refLost := true } }, inv_ok (by decide +kernel), by decide +kernel⟩,
     ⟨hub, inv_ok (by decide +kernel)⟩,
     ⟨{ hub with tick := 1500000000 }, inv_ok (by decide +kernel), quiet_ok (by decide +kernel), by decide +kernel⟩,
     ⟨{ lk .locked with tick := 1500000000, xfer := { hub.xfer with roleAct := .standalone, servo := .track } }, inv_ok
      (by decide +kernel), quiet_ok (by decide +kernel), by decide +kernel⟩⟩

/-- The hypotheses of Obligations.EdgesAreStampedAndPulsesMarked can be met. -/
theorem witness_EdgesAreStampedAndPulsesMarked :
    (∃ (s : State) (falling : Bool) (x : T16) (second : Option Nat), s.Inv ∧ s.chip.rails.aon = true ∧ falling =
      s.time.inFalling ∧ tooClose s.time.ppsRaw x = false ∧ (second = none ∨ s.fwRuns = false ∨ s.xfer.network =
      false ∨ s.xfer.refMode ≠ 0 ∨ second = some ((stampOf x s.time.inSkew + unitsPerSec / 2) / unitsPerSec))) ∧
    (∃ (s : State) (falling : Bool) (x : T16) (second : Nat), s.Inv ∧ s.chip.rails.aon = true ∧ falling =
      s.time.inFalling ∧ tooClose s.time.ppsRaw x = false ∧ s.fwRuns = true ∧ s.xfer.network = true ∧ s.xfer.refMode
      = 0 ∧ second ≠ (stampOf x s.time.inSkew + unitsPerSec / 2) / unitsPerSec ∧ s.time.secMiss + 1 ≠ 3) ∧
    (∃ (s : State) (falling : Bool) (x : T16) (second : Nat), s.Inv ∧ s.chip.rails.aon = true ∧ falling =
      s.time.inFalling ∧ tooClose s.time.ppsRaw x = false ∧ s.fwRuns = true ∧ s.xfer.network = true ∧ s.xfer.refMode
      = 0 ∧ second ≠ (stampOf x s.time.inSkew + unitsPerSec / 2) / unitsPerSec ∧ s.time.secMiss = 2 ∧
      (s.cal.entries.filter (·.fw)).length < 32) ∧
    (∃ (s : State) (x last : T16) (_second : Option Nat), s.Inv ∧ Quietly 2 2 168 s ∧ s.chip.rails.aon = true ∧
      s.time.ppsRaw = some last ∧ last ≤ x ∧ x < last + 8 * 65536) ∧
    (∃ (s : State) (i : Fin 8) (falling : Bool) (x : T16), s.Inv ∧ s.chip.rails.aon = true ∧ ((s.trigIn i).mode = 3 ∨
      (s.trigIn i).mode = (if falling then 2 else 1)) ∧ tooClose (s.trigIn i).last x = false ∧ (s.trigIn
      i).fifo.length < 64) ∧
    (∃ (s : State) (i : Fin 8) (falling : Bool) (x : T16), s.Inv ∧ Quietly 2 2 (160 + i.val) s ∧ s.chip.rails.aon =
      true ∧ ((s.trigIn i).mode = 3 ∨ (s.trigIn i).mode = (if falling then 2 else 1)) ∧ tooClose (s.trigIn i).last x
      = false ∧ 64 ≤ (s.trigIn i).fifo.length) ∧
    (∃ (s : State) (b : Int), s.Inv ∧ s.chip.rails.aon = true ∧ s.ppsBoundary = some b ∧ s.time.quality ≠ .unset ∧
      s.time.ppsWidth ≠ 0 ∧ s.time.lastPulse ≠ b) := 
  ⟨⟨uPps, false, 525288, none, inv_ok (by decide +kernel), by decide +kernel⟩,
     ⟨uNet 1, false, 1000 * unitsPerSec, 1001, inv_ok (by decide +kernel), by decide +kernel⟩,
     ⟨uNet 2, false, 1000 * unitsPerSec, 998, inv_ok (by decide +kernel), by decide +kernel⟩,
     ⟨uPps, 525287, 1000, none, inv_ok (by decide +kernel), quiet_ok (by decide +kernel), by decide +kernel⟩,
     ⟨uTrig, 7, true, 77, inv_ok (by decide +kernel), by decide +kernel⟩,
     ⟨{ hub with time := { hub.time with trig := [(7, { mode := 1, fifo := List.replicate 64 (5, false) })] } }, 7, false,
      77, inv_ok (by decide +kernel), quiet_ok (by decide +kernel), by decide +kernel⟩,
     ⟨{ hub with time := { hub.time with ns := 0 } }, 1000, inv_ok (by decide +kernel), by decide +kernel⟩⟩

/-- The hypotheses of Obligations.DueEntriesFireAndLeave can be met. -/
theorem witness_DueEntriesFireAndLeave :
    (∃ (s : State) (e : CalEntry) (w : W48), s.Inv ∧ s.OneDue e ∧ e.action = .rateChange w ∧ e.cls = 1 ∧ 2 ^ 40 ≤
      w.toNat + 549755813 ∧ w.toNat ≤ 2 ^ 40 + 549755813 ∧ (s.anyTimeLocked = false ∨ 2 ^ 40 ≤ w.toNat + 109951162 ∧
      w.toNat ≤ 2 ^ 40 + 109951162)) ∧
    (∃ (s : State) (e : CalEntry) (p : Nat) (w : W48) (set : Bool) (ph : W32), s.Inv ∧ s.OneDue e ∧ e.action =
      .retune p w set ph ∧ e.cls = 3 ∧ s.chip.phase ≠ .safe ∧ s.inReset 6 0 = false) ∧
    (∃ (s : State) (e : CalEntry) (p : Nat) (w : W48) (set : Bool) (ph : W32), s.Inv ∧ s.OneDue e ∧ Quietly 1 0 0 s ∧
      e.action = .retune p w set ph ∧ e.cls = 3 ∧ s.chip.phase = .safe) ∧
    (∃ (s : State), s.Inv ∧ (∀ e ∈ s.cal.entries, e.due s = false)) ∧
    (∃ (s : State) (f : FireRec) (rest : List FireRec) (j : JobRef), s.Inv ∧ s.hears j ∧ s.cal.fireLog = f :: rest ∧
      f.job = some j) ∧
    (∃ (s : State) (f : FireRec) (rest : List FireRec), s.Inv ∧ s.fwRuns = true ∧ s.cal.fireLog = f :: rest ∧ f.job =
      none) := 
  ⟨⟨two eRate, eRate, BitVec.ofNat 48 (2 ^ 40 - 549755813), inv_ok (by decide +kernel), oneDue_ok (by decide +kernel),
      by decide +kernel⟩,
     ⟨{ two eTune with pipes := [(4, { state := .running, mixer := true, retunes := [(5, 6, none)] })] }, eTune, 4, 9,
      true, 5, inv_ok (by decide +kernel), oneDue_ok (by decide +kernel), by decide +kernel⟩,
     ⟨{ two eTune with chip := { hub.chip with phase := .safe } }, eTune, 4, 9, true, 5, inv_ok (by decide +kernel),
      oneDue_ok (by decide +kernel), quiet_ok (by decide +kernel), by decide +kernel⟩,
     ⟨uCal eLater, inv_ok (by decide +kernel), by decide +kernel⟩,
     ⟨{ hub with cal := { fireLog := [rec1] } }, rec1, [], aJob 0x0505, inv_ok (by decide +kernel), hears_ok
      (by decide +kernel), by decide +kernel⟩,
     ⟨{ hub with cal := { fireLog := [{ rec1 with job := none }] } }, { rec1 with job := none }, [], inv_ok
      (by decide +kernel), by decide +kernel⟩⟩

/-- The hypotheses of Obligations.WholeSecondStepMovesHubTime can be met. -/
theorem witness_WholeSecondStepMovesHubTime :
    (∃ (s : State) (e : CalEntry) (n : Int), s.Inv ∧ s.cal.entries = [e] ∧ e.due s = true ∧ e.cls = 1 ∧ e.action =
      .offsetStep (n * 1000000000) 0 ∧ e.period = 0 ∧ s.time.quality ≠ .unset ∧ s.xfer.servo ≠ .stepPending ∧
      s.strm.streams = [] ∧ s.channels = [] ∧ s.cap.windows = [] ∧ s.bglIns = [] ∧ s.jesds = [] ∧ s.scps = [] ∧
      s.cal.fireLog.length < 4096 ∧ 0 ≤ (s.now : Int) + n * unitsPerSec ∧ (s.now : Int) + n * unitsPerSec < 2 ^ 48 *
      unitsPerSec) ∧
    (∃ (s : State) (e : CalEntry) (n : Int), s.Inv ∧ Quietly 0 7 0 s ∧ s.cal.entries = [e] ∧ e.due s = true ∧ e.cls =
      1 ∧ e.action = .offsetStep (n * 1000000000) 0 ∧ e.period = 0 ∧ s.time.quality = .unset ∧ s.xfer.servo ≠
      .stepPending ∧ s.strm.streams = [] ∧ s.channels = [] ∧ s.cap.windows = [] ∧ s.bglIns = [] ∧ s.jesds = [] ∧
      s.scps = [] ∧ s.cal.fireLog.length < 4096 ∧ 0 ≤ (s.now : Int) + n * unitsPerSec ∧ (s.now : Int) + n *
      unitsPerSec < 2 ^ 48 * unitsPerSec) := 
  ⟨⟨uCal eStep, eStep, -1000, inv_ok (by decide +kernel), by decide +kernel⟩,
     ⟨{ uCal eStep with time := { hub.time with quality := .unset } }, eStep, -1000, inv_ok (by decide +kernel), quiet_ok
      (by decide +kernel), by decide +kernel⟩⟩

/-- The hypotheses of Obligations.TimeOpcodesActAndReport can be met. -/
theorem witness_TimeOpcodesActAndReport :
    (∃ (s : State) (r : Req), Accepted opTimeGet r s) ∧
    (∃ (s : State) (r : Req), Accepted opTimeStep r s) ∧
    (∃ (s : State) (r : Req), Accepted opPpsConfig r s) ∧
    (∃ (s : State) (r : Req), Accepted opTrigInConfig r s) ∧
    (∃ (s : State) (r : Req), Accepted opTrigInRead r s) ∧
    (∃ (s : State) (r : Req), Accepted opCalStatus r s) ∧
    (∃ (s : State) (r : Req) (e : CalEntry), Accepted opCalCancel r s ∧ s.entryOf (r.u8 0) (r.u32 4) = some e) ∧
    (∃ (s : State) (r : Req) (e : CalEntry) (p : Nat) (w : W48) (set : Bool) (ph : W32) (j : JobRef), Accepted
      opCalCancel r s ∧ s.hears j ∧ s.entryOf (r.u8 0) (r.u32 4) = some e ∧ e.action = .retune p w set ph ∧ e.job =
      some j) := 
  ⟨⟨hub, rq [], acc_ok (by decide +kernel)⟩,
     ⟨hub, rqAt (leI 8 (-1000000000) ++ zeros 4), acc_ok (by decide +kernel)⟩,
     ⟨hub, rq (le 4 500000000 ++ le 4 1 ++ leI 4 (-7) ++ le 4 9), acc_ok (by decide +kernel)⟩,
     ⟨hub, rq (by_ [7, 3, 0, 0] ++ leI 4 (-7)), acc_ok (by decide +kernel)⟩,
     ⟨uTrig, rq (by_ [7, 1, 0, 0]), acc_ok (by decide +kernel)⟩,
     ⟨uCal eLater, rq [], acc_ok (by decide +kernel)⟩,
     ⟨uCal eFar, rq (by_ [0, 0, 0, 0, 3, 0, 0, 0]), eFar, acc_ok (by decide +kernel), by decide +kernel⟩,
     ⟨uCal eFar, rq (by_ [0, 0, 0, 0, 3, 0, 0, 0]), eFar, 4, 9, false, 0, aJob 0x0505, acc_ok (by decide +kernel),
      hears_ok (by decide +kernel), by decide +kernel⟩⟩

/-- The hypotheses of Obligations.RailsSetTheCoreRegion can be met. -/
theorem witness_RailsSetTheCoreRegion :
    (∃ (s : State), s.Inv ∧ s.chip.rails.aon = false) ∧
    (∃ (s : State), s.Inv ∧ s.chip.rails.aon = true) ∧
    (∃ (s : State) (_sram : Bool), s.Inv ∧ s.chip.phase ≠ .off) ∧
    (∃ (s : State) (_sram : Bool), s.Inv ∧ s.chip.phase = .off) ∧
    (∃ (s : State), s.Inv ∧ s.chip.phase = .off ∧ s.chip.rails.aon = true) := 
  ⟨⟨noAon, inv_ok (by decide +kernel), by decide +kernel⟩,
     ⟨hub, inv_ok (by decide +kernel), by decide +kernel⟩,
     ⟨hub, true, inv_ok (by decide +kernel), by decide +kernel⟩,
     ⟨stopped, true, inv_ok (by decide +kernel), by decide +kernel⟩,
     ⟨stopped, inv_ok (by decide +kernel), by decide +kernel⟩⟩

/-- The hypotheses of Obligations.ChipResetsBeginAndAreHeld can be met. -/
theorem witness_ChipResetsBeginAndAreHeld :
    (∃ (s : State) (n : Nat), s.Inv ∧ 100 ≤ n ∧ s.chip.phase ≠ .off) ∧
    (∃ (s : State) (n : Nat), s.Inv ∧ n < 100) ∧
    (∃ (s : State) (rail : Rail), s.Inv ∧ s.chip.phase ≠ .off ∧ (rail = .io18 ∨ rail = .io33 ∨ (rail = .sda ∨ rail =
      .sdh) ∧ s.chip.rails.io18 = false ∧ s.chip.rails.io33 = false)) ∧
    (∃ (s : State) (rail : Rail), s.Inv ∧ s.chip.phase ≠ .off ∧ (rail = .sda ∨ rail = .sdh) ∧ (s.chip.rails.io18 =
      true ∨ s.chip.rails.io33 = true)) ∧
    (∃ (s : State) (rail : Rail), s.Inv ∧ s.chip.rails.aon = true ∧ s.chip.phase ≠ .off ∧ (rail = .sda ∨ rail = .sdh
      ∨ rail = .io18 ∨ rail = .io33)) ∧
    (∃ (s : State) (r : Req), Accepted opSysReset r s ∧ r.mb.val < 8 ∧ s.chip.pcieUp = true ∧ (s.mb r.mb.val).waiting
      = []) ∧
    (∃ (s : State) (n : Nat), s.Inv ∧ s.chip.phase ≠ .off ∧ (s.win n).state = .filling) := 
  ⟨⟨hub, 100, inv_ok (by decide +kernel), by decide +kernel⟩,
     ⟨hub, 99, inv_ok (by decide +kernel), by decide +kernel⟩,
     ⟨hub, .io33, inv_ok (by decide +kernel), by decide +kernel⟩,
     ⟨hub, .sdh, inv_ok (by decide +kernel), by decide +kernel⟩,
     ⟨hub, .sda, inv_ok (by decide +kernel), by decide +kernel⟩,
     ⟨hub, rq (le 4 0x52535400), acc_ok (by decide +kernel), by decide +kernel⟩,
     ⟨filling, 15, inv_ok (by decide +kernel), by decide +kernel⟩⟩

/-- The hypotheses of Obligations.BootBeginsWithTheStrapsLatched can be met. -/
theorem witness_BootBeginsWithTheStrapsLatched :
    (∃ (s : State) (straps : Byte) (_tm : Bool), s.Inv ∧ s.NothingPersists ∧ s.chip.phase = .reset ∧ s.chip.resetNLow
      = true ∧ s.chip.holdBreach = false ∧ s.chip.holdRails = false ∧ s.chip.resetTick + 20000 ≤ s.tick ∧
      s.chip.owedHoldover = false ∧ (straps.toNat % 4 = 1 ∨ straps.toNat % 4 = 2)) ∧
    (∃ (s : State) (straps : Byte) (_tm : Bool), s.Inv ∧ s.NothingPersists ∧ s.chip.phase = .reset ∧ s.chip.resetNLow
      = false ∧ s.chip.holdBreach = false ∧ s.chip.holdRails = false ∧ s.chip.resetTick + 20000 ≤ s.tick ∧
      s.chip.owedHoldover = false ∧ straps.toNat % 4 = 0) ∧
    (∃ (s : State) (straps : Byte) (_tm : Bool), s.Inv ∧ s.NothingPersists ∧ s.chip.phase = .reset ∧ s.chip.resetNLow
      = false ∧ s.chip.holdBreach = false ∧ s.chip.holdRails = true ∧ s.chip.owedHoldover = true ∧ straps.toNat % 4 =
      1 ∧ s.flt.blocks = []) ∧
    (∃ (s : State) (_straps : Byte) (_tm : Bool), s.Inv ∧ s.chip.resetNLow = true ∧ (s.chip.phase ≠ .reset ∨
      s.chip.holdBreach = true ∨ s.chip.holdRails = true ∨ s.tick < s.chip.resetTick + 20000)) ∧
    (∃ (s : State), s.Inv ∧ s.chip.phase ≠ .off ∧ s.chip.resetNLow = false ∧ s.chip.holdBreach = false ∧
      s.chip.holdRails = false ∧ s.inReset 16 16 = false) := 
  ⟨⟨inRst true false false, 0xA5, true, inv_ok (by decide +kernel), nothing_ok (by decide +kernel), by decide +kernel⟩,
     ⟨{ inRst false false false with boot := { tries := 3, dir0 := some ⟨true, true, 4⟩ } }, 0xA4, false, inv_ok
      (by decide +kernel), nothing_ok (by decide +kernel), by decide +kernel⟩,
     ⟨inRst false true true, 0xA5, false, inv_ok (by decide +kernel), nothing_ok (by decide +kernel), by decide +kernel⟩,
     ⟨inRst true true false, 3, true, inv_ok (by decide +kernel), by decide +kernel⟩,
     ⟨inRst false false false, inv_ok (by decide +kernel), by decide +kernel⟩⟩

/-- The hypotheses of Obligations.BootLoadsStartsOrFails can be met. -/
theorem witness_BootLoadsStartsOrFails :
    (∃ (s : State) (img : Bytes), s.Inv ∧ s.chip.phase = .boot ∧ s.chip.bootStatus = 1 ∧ s.boot.slotTrying = 0 ∧
      s.boot.triedBoth = false ∧ imageReason 1 img s ≠ 7) ∧
    (∃ (s : State) (img : Bytes), s.Inv ∧ s.chip.phase = .boot ∧ s.chip.bootStatus = 1 ∧ s.boot.slotTrying = 1 ∧
      s.boot.triedBoth = true ∧ imageReason 1 img s ≠ 7) ∧
    (∃ (s : State) (_img : Bytes), s.Inv ∧ Quietly 16 4 19 s ∧ s.chip.phase = .boot ∧ s.chip.bootStatus = 1 ∧
      s.boot.slotTrying = 0 ∧ s.boot.triedBoth = false) ∧
    (∃ (s : State), s.Inv ∧ s.chip.phase = .boot ∧ s.chip.bootStatus = 3 ∧ s.boot.loaded = true ∧ s.inReset 15 0 =
      false ∧ s.chip.fwStalled = false) ∧
    (∃ (s : State), s.Inv ∧ s.chip.phase = .boot ∧ s.chip.bootStatus = 3 ∧ s.boot.loaded = true ∧ s.inReset 15 0 =
      false ∧ s.chip.fwStalled = false ∧ getU s.cfgStored 6 1 % 4 ≠ 0) ∧
    (∃ (s : State), s.Inv ∧ s.chip.phase = .boot ∧ s.chip.bootStatus ≠ 5 ∧ s.chip.bootTick + 10000000000 < s.tick ∧
      s.gated 15 2 0 = false ∧ (s.blk 15).sticky.getLsbD 2 = false ∧ resetField (s.reaction 15 2) = 2) := 
  ⟨⟨booting 1 {}, [1, 2], inv_ok (by decide +kernel), by decide +kernel⟩,
     ⟨booting 1 { slotTrying := 1, triedBoth := true }, [1, 2], inv_ok (by decide +kernel), by decide +kernel⟩,
     ⟨booting 1 {}, [], inv_ok (by decide +kernel), quiet_ok (by decide +kernel), by decide +kernel⟩,
     ⟨booting 3 { loaded := true, cfg0 := some (cfg8.take 0x28 ++ by_ [1, 0, 0, 0, 9, 8, 7]) }, inv_ok
      (by decide +kernel), by decide +kernel⟩,
     ⟨booting 3 { loaded := true, cfg0 := some cfg8 }, inv_ok (by decide +kernel), by decide +kernel⟩,
     ⟨{ booting 1 {} with tick := 10000000001 }, inv_ok (by decide +kernel), by decide +kernel⟩⟩

/-- The hypotheses of Obligations.StallsUnlocksAndParityErrorsAreHandled can be met. -/
theorem witness_StallsUnlocksAndParityErrorsAreHandled :
    (∃ (s : State) (v : W32), s.Inv ∧ s.chip.fwRunning = true ∧ s.inReset 15 0 = false ∧ v ≠ s.chip.heartbeat ∧
      s.chip.fwStalled = false) ∧
    (∃ (s : State) (v : W32), s.Inv ∧ s.chip.fwRunning = true ∧ s.inReset 15 0 = false ∧ v ≠ s.chip.heartbeat ∧
      s.chip.fwStalled = true) ∧
    (∃ (s : State), s.Inv ∧ Quietly 15 3 0 s ∧ s.chip.fwRunning = true ∧ s.chip.fwStalled = false ∧ s.chip.beatTick +
      100000000 ≤ s.tick) ∧
    (∃ (s : State), s.Inv ∧ s.faultsHeld = false ∧ s.chip.dspLocked = true ∧ s.gated 3 3 33 = false ∧ resetField
      (s.reaction 3 3) = 0) ∧
    (∃ (s : State), s.Inv ∧ (∀ b ∈ [5, 6, 7, 8, 9, 11], Quietly b 63 0 s) ∧ s.chip.dspLocked = false) ∧
    (∃ (s : State) (region : Fin 6) (ns : Nat), s.Inv ∧ (1000000000 < ns → Quietly 14 3 region.val s) ∧ s.upsetLines
      region.val 0 (2 ^ 32) = []) ∧
    (∃ (s : State) (region : Fin 6) (ns a : Nat) (u : Upset), s.Inv ∧ (readUpset u region.val = .repaired → Quietly
      14 2 region.val s) ∧ s.flt.upsets = [(lineKey region.val a, u)] ∧ readUpset u region.val ≠ .uncorrectable ∧ ns
      ≤ 1000000000) ∧
    (∃ (s : State) (_b : Fin 17) (_off : Nat), s.Inv ∧ (s.chip.phase = .boot ∨ s.chip.phase = .serving)) ∧
    (∃ (s : State) (_b : Fin 17) (_off : Nat), s.Inv ∧ s.chip.phase = .safe) := 
  ⟨⟨{ hub with xfer := { ptp := [(3, { errors := 1, fifo := [(5, 6)] })] } }, 9, inv_ok (by decide +kernel),
      by decide +kernel⟩,
     ⟨{ hub with chip := { hub.chip with fwStalled := true } }, 9, inv_ok (by decide +kernel), by decide +kernel⟩,
     ⟨{ hub with tick := 100000000 }, inv_ok (by decide +kernel), quiet_ok (by decide +kernel), by decide +kernel⟩,
     ⟨hub, inv_ok (by decide +kernel), by decide +kernel⟩,
     ⟨{ hub with chip := { hub.chip with dspLocked := false }, flt := { blocks := [5, 6, 7, 8, 9, 11].map fun b => (b, { inReset := [dspUnit] }) } },
      inv_ok (by decide +kernel), fun b h => quiet_ok (by revert b; decide +kernel), by decide +kernel⟩,
     ⟨hub, 5, 1000000001, inv_ok (by decide +kernel), fun _ => quiet_ok (by decide +kernel), by decide +kernel⟩,
     ⟨{ hub with flt := { upsets := [(lineKey 0 1024, { data := [(64, 2)] })] } }, 0, 1000000000, 1024,
      { data := [(64, 2)] }, inv_ok (by decide +kernel), fun _ => quiet_ok (by decide +kernel), by decide +kernel⟩,
     ⟨hub, 16, 40, inv_ok (by decide +kernel), by decide +kernel⟩,
     ⟨atPhase .safe, 16, 40, inv_ok (by decide +kernel), by decide +kernel⟩⟩

/-- The hypotheses of Obligations.PushedImagesAreStagedAndJudged can be met. -/
theorem witness_PushedImagesAreStagedAndJudged :
    (∃ (s : State) (_img : Bytes), s.Inv ∧ s.pushOpen = true ∧ s.chip.pcieUp = true) ∧
    (∃ (s : State) (_last : Bool), s.Inv ∧ s.pushSeen = true ∧ s.chip.bootStatus = 5 ∧ s.boot.pushGo = false ∧
      s.boot.pushLast = false ∧ 0 < s.boot.chunkLen.toNat ∧ s.boot.chunkLen.toNat ≤ 61440 ∧ s.boot.chunkOff.toNat +
      s.boot.chunkLen.toNat ≤ 8388608) ∧
    (∃ (s : State) (_last : Bool), s.Inv ∧ s.pushSeen = true ∧ s.chip.bootStatus ≠ 5 ∧ s.boot.pushGo = false ∧
      s.boot.pushLast = false ∧ 0 < s.boot.chunkLen.toNat ∧ s.boot.chunkLen.toNat ≤ 61440 ∧ s.boot.chunkOff.toNat +
      s.boot.chunkLen.toNat ≤ 8388608) ∧
    (∃ (s : State), s.Inv ∧ s.chip.phase = .boot ∧ s.chip.bootStatus = 5 ∧ (s.boot.pushGo = true ∨ s.boot.pushLast =
      true) ∧ s.boot.pushEnd ≤ 8388608 ∧ imageReason 1 (memRead s.boot.pushImage 0 s.boot.pushEnd) s ≠ 7) := 
  ⟨⟨booting 4 { pushLen := 2 }, [1, 2, 3], inv_ok (by decide +kernel), by decide +kernel⟩,
     ⟨booting 5 { chunkLen := 2, chunkOff := 8388606, dataWindow := [(0, 4)] }, true, inv_ok (by decide +kernel),
      by decide +kernel⟩,
     ⟨booting 4 { chunkLen := 61440, chunkOff := 0, dataWindow := [(0, 4)] }, false, inv_ok (by decide +kernel),
      by decide +kernel⟩,
     ⟨booting 5 { pushGo := true, pushEnd := 2, pushImage := [(0, 5)] }, inv_ok (by decide +kernel), by decide +kernel⟩⟩

/-- The hypotheses of Obligations.MonitorsTestPortAndSelfTestLatch can be met. -/
theorem witness_MonitorsTestPortAndSelfTestLatch :
    (∃ (s : State) (_on : Bool), s.Inv ∧ s.chip.rails.aon = true ∧ s.chip.rails.io33 = true) ∧
    (∃ (s : State), s.Inv ∧ s.chip.rails.aon = true ∧ s.chip.rails.io33 = true) ∧
    (∃ (s : State), s.Inv ∧ s.chip.phase = .off) ∧
    (∃ (s : State), s.Inv ∧ s.chip.phase ≠ .off) ∧
    (∃ (s : State) (_ir : Nat) (drives : Bool), s.Inv ∧ (drives = true → s.chip.phase = .reset)) ∧
    (∃ (s : State) (_ir : Nat), s.Inv ∧ s.chip.phase ≠ .reset) ∧
    (∃ (s : State) (bank : Fin 24), s.Inv ∧ (s.chip.phase = .serving ∨ s.chip.phase = .safe) ∧ s.underTest = some
      bank.val) ∧
    (∃ (s : State) (bank : Fin 24), s.Inv ∧ Quietly 14 5 0 s ∧ (s.chip.phase = .serving ∨ s.chip.phase = .safe) ∧
      s.underTest = some bank.val) := 
  ⟨⟨hub, true, inv_ok (by decide +kernel), by decide +kernel⟩,
     ⟨hub, inv_ok (by decide +kernel), by decide +kernel⟩,
     ⟨stopped, inv_ok (by decide +kernel), by decide +kernel⟩,
     ⟨hub, inv_ok (by decide +kernel), by decide +kernel⟩,
     ⟨inRst true false false, 9, true, inv_ok (by decide +kernel), by decide +kernel⟩,
     ⟨hub, 9, inv_ok (by decide +kernel), by decide +kernel⟩,
     ⟨testing, 23, inv_ok (by decide +kernel), by decide +kernel⟩,
     ⟨testing, 23, inv_ok (by decide +kernel), quiet_ok (by decide +kernel), by decide +kernel⟩⟩

/-- The hypotheses of Obligations.FirmwareOpcodesReadWriteAndCheckImages can be met. -/
theorem witness_FirmwareOpcodesReadWriteAndCheckImages :
    (∃ (s : State) (r : Req), Accepted opBootInfo r s) ∧
    (∃ (s : State) (r : Req), Accepted opConfigRead r s) ∧
    (∃ (s : State) (r : Req), Accepted opConfigWrite r s) ∧
    (∃ (s : State) (r : Req), Accepted opFwImageWrite r s ∧ r.u8 1 = 0) ∧
    (∃ (s : State) (r : Req), Accepted opFwImageWrite r s ∧ r.u8 1 = 1) ∧
    (∃ (s : State) (n : Nat) (j : JobRef), s.Inv ∧ s.hears j ∧ s.boot.erasing = some (n, j)) ∧
    (∃ (s : State) (r : Req), Accepted opFwImageCheck r s ∧ headerReason 1 (s.imageSlot (r.u8 0)).header = 0) ∧
    (∃ (s : State) (r : Req), Accepted opFwImageCheck r s ∧ headerReason 1 (s.imageSlot (r.u8 0)).header ≠ 0) ∧
    (∃ (s : State) (r : Req), Accepted opFwActivate r s) ∧
    (∃ (s : State) (r : Req), Accepted opFwCommit r s) ∧
    (∃ (s : State) (r : Req), Accepted opPaletteLoad r s) ∧
    (∃ (s : State) (r : Req), Accepted opTestUnlock r s) ∧
    (∃ (s : State) (img : Bytes) (u : Unit3), s.Inv ∧ s.hears u.job ∧ s.boot.unit3 = some u ∧ s.inReset 10 3 = false
      ∧ u.opcode = 0x0D02 ∧ u.slot ≤ 1 ∧ imageReason 1 img s ≠ 7) ∧
    (∃ (s : State) (_img : Bytes) (u : Unit3), s.Inv ∧ s.hears u.job ∧ Quietly 10 2 3 s ∧ s.boot.unit3 = some u ∧
      s.inReset 10 3 = false ∧ u.opcode = 0x0D02) ∧
    (∃ (s : State) (img : Bytes) (u : Unit3), s.Inv ∧ s.hears u.job ∧ s.boot.unit3 = some u ∧ s.inReset 10 3 = false
      ∧ u.opcode = 0x0D05 ∧ imageReason 2 img s ≠ 7) ∧
    (∃ (s : State) (img : Bytes) (u : Unit3), s.Inv ∧ s.hears u.job ∧ s.boot.unit3 = some u ∧ s.inReset 10 3 = false
      ∧ u.opcode = 0x0D06 ∧ imageReason 3 img s ≠ 7) := 
  ⟨⟨hub, rq [], acc_ok (by decide +kernel)⟩,
     ⟨hub, rq [], acc_ok (by decide +kernel)⟩,
     ⟨{ hub with boot := { cfg0 := some cfg8 } }, rq cfgReq, acc_ok (by decide +kernel)⟩,
     ⟨hub, rq (by_ [0, 0, 0, 0, 4, 0, 0, 0, 1, 2, 3, 4]), acc_ok (by decide +kernel), by decide +kernel⟩,
     ⟨hub, rq (by_ [1, 1, 0, 0, 0, 0, 0, 0, 1, 2, 3, 4]), acc_ok (by decide +kernel), by decide +kernel⟩,
     ⟨{ hub with boot := { erasing := some (1, aJob 0x0D01) } }, 1, aJob 0x0D01, inv_ok (by decide +kernel), hears_ok
      (by decide +kernel), by decide +kernel⟩,
     ⟨{ hub with boot := { slotB := { header := image0 } } }, rq (by_ [1, 0, 0, 0]), acc_ok (by decide +kernel),
      by decide +kernel⟩,
     ⟨hub, rq (by_ [1, 0, 0, 0]), acc_ok (by decide +kernel), by decide +kernel⟩,
     ⟨{ hub with boot := { tries := 2, slotB := { reason := some 0 } } }, rq (by_ [1, 0, 0, 0]), acc_ok
      (by decide +kernel)⟩,
     ⟨{ hub with boot := { trial := true, fwSec := 5, dir0 := some ⟨true, true, 0xFFFFFFFF⟩ } }, rq (by_ [1, 0, 0, 0]),
      acc_ok (by decide +kernel)⟩,
     ⟨hub, rq (le 8 0x1000 ++ le 8 8388608), acc_ok (by decide +kernel)⟩,
     ⟨hub, rq (le 8 0x1000 ++ le 8 1), acc_ok (by decide +kernel)⟩,
     ⟨checking 0x0D02 1, [1, 2], ⟨0x0D02, 1, 0, 97, 1, aJob 0x0D02⟩, inv_ok (by decide +kernel), hears_ok
      (by decide +kernel), by decide +kernel⟩,
     ⟨checking 0x0D02 1, [1, 2], ⟨0x0D02, 1, 0, 97, 1, aJob 0x0D02⟩, inv_ok (by decide +kernel), hears_ok
      (by decide +kernel), quiet_ok (by decide +kernel), by decide +kernel⟩,
     ⟨checking 0x0D05 0, [1, 2], ⟨0x0D05, 0, 0, 97, 1, aJob 0x0D05⟩, inv_ok (by decide +kernel), hears_ok
      (by decide +kernel), by decide +kernel⟩,
     ⟨checking 0x0D06 0, [1, 2], ⟨0x0D06, 0, 0, 97, 1, aJob 0x0D06⟩, inv_ok (by decide +kernel), hears_ok
      (by decide +kernel), by decide +kernel⟩⟩

/-- The hypotheses of Obligations.QuietWindowsAndCalibrations can be met. -/
theorem witness_QuietWindowsAndCalibrations :
    (∃ (s : State) (r : Req) (n : Nat), Accepted opQuietDeclare r s ∧ s.freeQuiet = some n) ∧
    (∃ (s : State) (r : Req) (q : Quiet), Accepted opQuietCancel r s ∧ s.quietWin (r.u8 0) = some q ∧ q.isOpen =
      false) ∧
    (∃ (s : State) (r : Req) (q : Quiet), Accepted opQuietCancel r s ∧ s.quietWin (r.u8 0) = some q ∧ q.isOpen =
      true) ∧
    (∃ (s : State) (r : Req) (w : Nat), Accepted opClkCalibrate r s ∧ s.openWindow = some w) ∧
    (∃ (s : State) (r : Req) (w : Nat) (q : Quiet), Accepted opClkCalibrate r s ∧ s.openWindow = none ∧ s.nextQuiet =
      some w ∧ s.quietWin w = some q) ∧
    (∃ (s : State) (_errors : List Int) (c : Calib), s.Inv ∧ s.hears c.job ∧ s.boot.calib = some c ∧ s.openWindow =
      some c.window) ∧
    (∃ (s : State) (r : Req), Accepted opSelftestStatus r s) := 
  ⟨⟨hub, rq (ts80 sec1003 ++ zeros 2 ++ le 4 3600000), 0, acc_ok (by decide +kernel), by decide +kernel⟩,
     ⟨quiet false none, rq (by_ [7, 0, 0, 0]), ⟨sec1003, sec1003 + unitsPerSec, false⟩, acc_ok (by decide +kernel),
      by decide +kernel⟩,
     ⟨{ quiet true none with time := { hub.time with sec := 1003 } }, rq (by_ [7, 0, 0, 0]), ⟨sec1003, sec1003 +
      unitsPerSec, true⟩, acc_ok (by decide +kernel), by decide +kernel⟩,
     ⟨quiet true none, rq (le 4 5), 7, acc_ok (by decide +kernel), by decide +kernel⟩,
     ⟨quiet false none, rq (le 4 5), 7, ⟨sec1003, sec1003 + unitsPerSec, false⟩, acc_ok (by decide +kernel),
      by decide +kernel⟩,
     ⟨{ quiet true (some ⟨1, 7, aJob 0x0D09⟩) with dclks := [(0, { enabled := true, freq := 1000000 })] }, [-16], ⟨1, 7,
      aJob 0x0D09⟩, inv_ok (by decide +kernel), hears_ok (by decide +kernel), by decide +kernel⟩,
     ⟨hub, rq [], acc_ok (by decide +kernel)⟩⟩

/-- The hypotheses of Obligations.NetworkTimeIsStampedAndMeasured can be met. -/
theorem witness_NetworkTimeIsStampedAndMeasured :
    (∃ (s : State) (p : PtpPort) (_x : T16) (f : PtpFrame), s.Inv ∧ ptpOn s p = true ∧ ptpUnsupported s p f = false ∧
      getU f.msg 0 1 % 16 ≠ 13 ∧ f.tags.headD 0 = getU (s.ptp (ptpKey p)).settings 10 2 % 4096) ∧
    (∃ (s : State) (p : PtpPort) (_x : T16) (f : PtpFrame), s.Inv ∧ ptpOn s p = true ∧ ptpUnsupported s p f = true) ∧
    (∃ (s : State) (p : PtpPort) (_x : T16) (f : PtpFrame), s.Inv ∧ ptpOn s p = true ∧ ptpUnsupported s p f = false ∧
      (getU f.msg 0 1 % 16 = 13 ∨ f.tags.headD 0 ≠ getU (s.ptp (ptpKey p)).settings 10 2 % 4096)) ∧
    (∃ (s : State) (p : PtpPort) (x : T16) (msg : Bytes), s.Inv ∧ s.Sends p x msg ∧ (getU msg 0 1 % 16 = 1 ∨ getU msg
      0 1 % 16 = 0 ∧ getU (s.ptp (ptpKey p)).settings 4 1 = 0) ∧ (s.ptp (ptpKey p)).fifo.length < 16) ∧
    (∃ (s : State) (p : PtpPort) (x : T16) (msg : Bytes), s.Inv ∧ s.Sends p x msg ∧ Quietly 2 0 (ptpUnit s p) s ∧
      (getU msg 0 1 % 16 = 1 ∨ getU msg 0 1 % 16 = 0 ∧ getU (s.ptp (ptpKey p)).settings 4 1 = 0) ∧ 16 ≤ (s.ptp
      (ptpKey p)).fifo.length) ∧
    (∃ (s : State) (p : PtpPort) (x : T16) (msg : Bytes), s.Inv ∧ s.Sends p x msg ∧ getU msg 0 1 % 16 ≠ 1 ∧ (getU msg
      0 1 % 16 = 0 → getU (s.ptp (ptpKey p)).settings 4 1 = 1)) ∧
    (∃ (s : State) (l : Fin 160) (_phase : BitVec 21) (_freq : Int), s.Inv ∧ (s.lane l).rxPower = 0 ∧ (s.lane l).cdr
      = true) ∧
    (∃ (s : State) (l : Fin 160) (_phase : BitVec 21) (_freq : Int), s.Inv ∧ Quietly 2 1 l.val s ∧ (s.lane l).rxPower
      = 0) ∧
    (∃ (s : State) (n : Fin 48) (_q : Nat), s.Inv ∧ (s.port n).state = .up ∧ s.chip.phase ≠ .safe ∧ s.fwRuns = true ∧
      getU (s.ptp n).settings 9 1 ≠ 0) ∧
    (∃ (s : State) (n : Fin 48), s.Inv ∧ (s.port n).state = .up ∧ s.chip.phase ≠ .safe ∧ s.fwRuns = true ∧ getU
      (s.ptp n).settings 9 1 ≠ 0 ∧ s.mayControl n = true) := 
  ⟨⟨{ ptpHub { settings := ptpSet 0 0 3 } with xfer := { ptp := [(3, { settings := ptpSet 0 0 3 })], asym := [(4, asymRow)] } },
      .uplink 3, 1000 * unitsPerSec, frm 0 0, inv_ok (by decide +kernel), by decide +kernel⟩,
     ⟨ptpHub { settings := ptpSet 0 0 3 }, .uplink 3, 1000 * unitsPerSec, frm 2 0, inv_ok (by decide +kernel),
      by decide +kernel⟩,
     ⟨ptpHub { settings := ptpSet 0 0 3 }, .uplink 3, 1000 * unitsPerSec, frm 13 0, inv_ok (by decide +kernel),
      by decide +kernel⟩,
     ⟨ptpHub { settings := ptpSet 0 0 3, fifo := List.replicate 15 (5, 6) }, .uplink 3, 77, ptpMsg 0, inv_ok
      (by decide +kernel), sends_ok (by decide +kernel), by decide +kernel⟩,
     ⟨ptpHub { settings := ptpSet 0 0 3, fifo := List.replicate 16 (5, 6) }, .uplink 3, 77, ptpMsg 0, inv_ok
      (by decide +kernel), sends_ok (by decide +kernel), quiet_ok (by decide +kernel), by decide +kernel⟩,
     ⟨ptpHub { settings := ptpSet 2 1 3 }, .uplink 3, 1000 * unitsPerSec + 7, ptpMsg 0, inv_ok (by decide +kernel),
      sends_ok (by decide +kernel), by decide +kernel⟩,
     ⟨rxLane { slip := true }, 159, 0x1FFFFF, -5, inv_ok (by decide +kernel), by decide +kernel⟩,
     ⟨rxLane { valid := true }, 159, 0x1FFFFF, -5, inv_ok (by decide +kernel), quiet_ok (by decide +kernel),
      by decide +kernel⟩,
     ⟨ptpHub { settings := ptpSet 0 0 3 }, 3, 11, inv_ok (by decide +kernel), by decide +kernel⟩,
     ⟨{ ptpHub { settings := ptpSet 0 0 2 } with time := { hub.time with quality := .locked, lease := 9 }, xfer := { ptp := [(3, { settings := ptpSet 0 0 2 })], roleAct := .keeper, refMode := 1, qlSource := 2, qlHeard := true } },
      3, inv_ok (by decide +kernel), by decide +kernel⟩⟩

/-- The hypotheses of Obligations.ServoActsOnItsEstimates can be met. -/
theorem witness_ServoActsOnItsEstimates :
    (∃ (s : State) (x : ServoInput) (e : Int), s.Inv ∧ s.Estimates x e ∧ s.xfer.servo = .idle) ∧
    (∃ (s : State) (x : ServoInput) (e : Int), s.Inv ∧ s.Estimates x e ∧ s.xfer.servo = .holdover ∧ x.qualified =
      true) ∧
    (∃ (s : State) (x : ServoInput) (e : Int), s.Inv ∧ s.Estimates x e ∧ s.xfer.servo = .acquire ∧ (x.qualified =
      false ∨ s.xfer.qualCount < 15)) ∧
    (∃ (s : State) (x : ServoInput) (e : Int), s.Inv ∧ s.Estimates x e ∧ s.xfer.servo = .acquire ∧ x.qualified = true
      ∧ 15 ≤ s.xfer.qualCount ∧ e.natAbs ≤ 65536000) ∧
    (∃ (s : State) (x : ServoInput) (e : Int), s.Inv ∧ s.Estimates x e ∧ s.xfer.servo = .acquire ∧ x.qualified = true
      ∧ 15 ≤ s.xfer.qualCount ∧ 65536000 < e.natAbs ∧ s.anyChannel = false ∧ (s.cal.entries.filter (·.fw)).length <
      32) ∧
    (∃ (s : State) (x : ServoInput) (e : Int), s.Inv ∧ s.Estimates x e ∧ s.xfer.servo = .acquire ∧ x.qualified = true
      ∧ 15 ≤ s.xfer.qualCount ∧ 65536000 < e.natAbs ∧ s.anyChannel = true ∧ (s.cal.entries.filter (·.fw)).length <
      32) ∧
    (∃ (s : State) (x : ServoInput) (e : Int), s.Inv ∧ s.Estimates x e ∧ s.xfer.servo = .steer) ∧
    (∃ (s : State) (x : ServoInput) (e : Int), s.Inv ∧ s.Estimates x e ∧ s.LockMet x e ∧ s.xfer.servo = .track ∧
      x.newMaster = none ∧ e.natAbs ≤ 65536000 ∧ s.time.quality ≠ .unset) ∧
    (∃ (s : State) (x : ServoInput) (e : Int), s.Inv ∧ s.Estimates x e ∧ s.xfer.servo = .track ∧ x.newMaster.isSome =
      true) ∧
    (∃ (s : State) (x : ServoInput), s.Inv ∧ s.fwRuns = true ∧ s.xfer.roleAct ≠ .host ∧ s.offsetOf x = none) ∧
    (∃ (s : State) (x : ServoInput) (e : Int), s.Inv ∧ s.fwRuns = true ∧ s.xfer.roleAct ≠ .host ∧ s.offsetOf x = some
      e ∧ s.crossMismatch x = true ∧ 2 ≤ s.xfer.mismatchCount ∧ (s.xfer.servo = .acquire ∨ s.xfer.servo = .steer ∨
      s.xfer.servo = .track)) ∧
    (∃ (s : State), s.Inv ∧ s.fwRuns = true ∧ (s.xfer.roleAct = .standalone ∨ s.xfer.roleAct = .keeper) ∧
      (s.xfer.servo = .acquire ∨ s.xfer.servo = .steer ∨ s.xfer.servo = .track)) ∧
    (∃ (s : State), s.Inv ∧ s.fwRuns = true ∧ s.xfer.servo = .holdover ∧ s.xfer.holdoverLimit ≠ 0 ∧ s.time.quality =
      .holdover ∧ s.xfer.holdoverTick + s.xfer.holdoverLimit.toNat * 1000000000 ≤ s.tick) := 
  ⟨⟨servoAt .idle 9, est none false none, 9, inv_ok (by decide +kernel), estimates_ok (by decide +kernel),
      by decide +kernel⟩,
     ⟨servoAt .holdover 9, est none true none, 9, inv_ok (by decide +kernel), estimates_ok (by decide +kernel),
      by decide +kernel⟩,
     ⟨servoAt .acquire 9, est none false none, 9, inv_ok (by decide +kernel), estimates_ok (by decide +kernel),
      by decide +kernel⟩,
     ⟨servoAt .acquire (-65536000), est none true none, -65536000, inv_ok (by decide +kernel), estimates_ok
      (by decide +kernel), by decide +kernel⟩,
     ⟨servoAt .acquire 65536001, est none true none, 65536001, inv_ok (by decide +kernel), estimates_ok
      (by decide +kernel), by decide +kernel⟩,
     ⟨runChan (servoAt .acquire (-65536001)), est none true none, -65536001, inv_ok (by decide +kernel), estimates_ok
      (by decide +kernel), by decide +kernel⟩,
     ⟨servoAt .steer 65536001, est none true none, 65536001, inv_ok (by decide +kernel), estimates_ok (by decide +kernel),
      by decide +kernel⟩,
     ⟨servoAt .track (-65536), est (some (xch (-65536))) true none, -65536, inv_ok (by decide +kernel), estimates_ok
      (by decide +kernel), lockMet_ok (by decide +kernel), by decide +kernel⟩,
     ⟨servoAt .track 5, est none true (some (7, 8, 0)), 5, inv_ok (by decide +kernel), estimates_ok (by decide +kernel),
      by decide +kernel⟩,
     ⟨{ servoAt .track 5 with time := { hub.time with ppsLost := true } }, est none true none, inv_ok (by decide +kernel),
      by decide +kernel⟩,
     ⟨{ servoAt .track 5 with xfer := { (servoAt .track 5).xfer with mismatchCount := 2 } }, est (some (xch 6553606)) true
      none, 5, inv_ok (by decide +kernel), by decide +kernel⟩,
     ⟨{ servoAt .track 0 with xfer := { (servoAt .track 0).xfer with integ := -549755814 }, time := { hub.time with quality := .locked, lease := 9 } },
      inv_ok (by decide +kernel), by decide +kernel⟩,
     ⟨{ servoAt .holdover 0 with xfer := { (servoAt .holdover 0).xfer with holdoverLimit := 2 }, time := { hub.time with quality := .holdover }, tick := 2000000000 },
      inv_ok (by decide +kernel), by decide +kernel⟩⟩

/-- The hypotheses of Obligations.KeepersAndPartnersFollowTheTable can be met. -/
theorem witness_KeepersAndPartnersFollowTheTable :
    (∃ (s : State) (n : Fin 8) (f : Bytes) (_x : T16), s.Inv ∧ s.easelOn n = true ∧ s.easelUp n = true ∧ f.length =
      36 ∧ getU f 32 4 = crc32c (sub f 0 32)) ∧
    (∃ (s : State) (n : Fin 8) (f : Bytes) (_x : T16), s.Inv ∧ Quietly 2 3 (s.easelLane n) s ∧ s.easelOn n = true ∧
      s.easelUp n = true ∧ (f.length ≠ 36 ∨ getU f 32 4 ≠ crc32c (sub f 0 32))) ∧
    (∃ (s : State) (n : Fin 8) (f : Bytes) (_x : T16), s.Inv ∧ s.easelOn n = true ∧ s.easelUp n = true ∧ f.length =
      36 ∧ getU f 32 4 = crc32c (sub f 0 32) ∧ s.fwRuns = true ∧ s.xfer.roleAct = .keeper ∧ s.xfer.listening = false
      ∧ s.xfer.handoverTo = none ∧ beatRole f = 2 ∧ beatStalled f = false ∧ ranksAbove (beatPriority f) (beatHub f)
      s.xfer.priority.toNat s.chip.hubId.toNat = true) ∧
    (∃ (s : State), s.Inv ∧ s.fwRuns = true ∧ s.xfer.following = true ∧ (s.xfer.roleAct = .partner ∨ s.xfer.roleAct =
      .follower) ∧ s.xfer.listening = false ∧ s.keeperHeard = false ∧ s.xfer.missed < 2) ∧
    (∃ (s : State), s.Inv ∧ s.OnlyItsKeeper ∧ s.fwRuns = true ∧ s.xfer.following = true ∧ s.xfer.roleAct = .partner ∧
      s.xfer.listening = false ∧ s.keeperHeard = false ∧ 2 ≤ s.xfer.missed ∧ s.xfer.snaps = []) ∧
    (∃ (s : State) (b : Bytes) (rest : List Bytes), s.Inv ∧ s.OnlyItsKeeper ∧ s.fwRuns = true ∧ s.xfer.following =
      true ∧ s.xfer.roleAct = .partner ∧ s.xfer.listening = false ∧ s.keeperHeard = false ∧ 2 ≤ s.xfer.missed ∧
      s.xfer.snaps = b :: rest ∧ s.anyTimeLocked = false ∧ 2 ^ 40 ≤ getU b 0x18 6 + 549755813 ∧ getU b 0x18 6 ≤ 2 ^
      40 + 549755813 ∧ s.xfer.refMode = 0) ∧
    (∃ (s : State), s.Inv ∧ s.OnlyItsKeeper ∧ s.fwRuns = true ∧ s.xfer.following = true ∧ s.xfer.roleAct = .follower
      ∧ s.xfer.listening = false ∧ s.keeperHeard = false ∧ 2 ≤ s.xfer.missed ∧ s.xfer.servo = .track) ∧
    (∃ (s : State) (n : Nat), s.Inv ∧ ¬ s.OnlyItsKeeper ∧ s.fwRuns = true ∧ s.xfer.following = true ∧ (s.xfer.roleAct
      = .partner ∨ s.xfer.roleAct = .follower) ∧ s.xfer.listening = false ∧ s.keeperHeard = false ∧ 2 ≤ s.xfer.missed
      ∧ bestOf s s.announcers = some n) ∧
    (∃ (s : State) (n : Nat), s.Inv ∧ s.fwRuns = true ∧ s.xfer.roleAct = .keeper ∧ s.atHalfSecond = true ∧
      s.xfer.snapTime ≠ s.now ∧ n ∈ s.heardLinks ∧ (beatRole (s.heardOn n).frame = 2 ∨ beatRole (s.heardOn n).frame =
      3)) ∧
    (∃ (s : State) (n : Fin 8) (b : Bytes), s.Inv ∧ s.easelOn n = true ∧ s.easelUp n = true ∧ snapshotOk b = true ∧
      s.xfer.roleAct = .partner ∧ s.fwRuns = true) ∧
    (∃ (s : State) (n : Fin 8) (b : Bytes), s.Inv ∧ s.easelOn n = true ∧ s.easelUp n = true ∧ snapshotOk b = true ∧
      s.xfer.roleAct = .partner ∧ s.fwRuns = true ∧ s.xfer.refMode = 0 ∧ s.anyTimeLocked = false ∧ 2 ^ 40 ≤ getU b
      0x18 6 + 549755813 ∧ getU b 0x18 6 ≤ 2 ^ 40 + 549755813) ∧
    (∃ (s : State) (n : Fin 8) (_mark : Bool) (b : Bytes), s.Inv ∧ s.easelOn n = true ∧ s.easelUp n = true ∧
      snapshotOk b = true ∧ (s.xfer.roleAct = .partner ∨ s.xfer.roleAct = .keeper) ∧ s.fwRuns = false) ∧
    (∃ (s : State) (n : Fin 8) (_mark : Bool) (b : Bytes), s.Inv ∧ Quietly 2 3 (s.easelLane n) s ∧ s.easelOn n = true
      ∧ s.easelUp n = true ∧ snapshotOk b = false) ∧
    (∃ (s : State), s.Inv ∧ s.fwRuns = true ∧ s.xfer.listening = true ∧ s.xfer.listenTick + 10000000 ≤ s.tick ∧
      s.xfer.heardKeeper = false) ∧
    (∃ (s : State), s.Inv ∧ s.fwRuns = true ∧ s.xfer.listening = true ∧ s.xfer.listenTick + 10000000 ≤ s.tick ∧
      s.xfer.heardKeeper = true) ∧
    (∃ (s : State) (f : FireRec) (j : JobRef), s.Inv ∧ s.hears j ∧ s.xfer.handoverTo.isSome = true ∧ 5 ≤
      s.xfer.handoverSlots ∧ s.xfer.handoverJob = some f ∧ f.job = some j) := 
  ⟨⟨easelHub { roleAct := .partner, following := true, hubIdF := 9, missed := 2 }, 7, beat 2, 99, inv_ok
      (by decide +kernel), by decide +kernel⟩,
     ⟨easelHub {}, 7, beat 2 ++ [0], 99, inv_ok (by decide +kernel), quiet_ok (by decide +kernel), by decide +kernel⟩,
     ⟨easelHub { roleAct := .keeper }, 7, beat 2, 99, inv_ok (by decide +kernel), by decide +kernel⟩,
     ⟨easelHub { roleAct := .partner, following := true, missed := 1 }, inv_ok (by decide +kernel), by decide +kernel⟩,
     ⟨{ easelHub { roleAct := .partner, following := true, missed := 2 } with time := { hub.time with quality := .locked, lease := 9 } },
      inv_ok (by decide +kernel), onlyKeeper_ok (by decide +kernel), by decide +kernel⟩,
     ⟨easelHub { roleAct := .partner, following := true, missed := 2, snaps := [snap0] }, snap0, [], inv_ok
      (by decide +kernel), onlyKeeper_ok (by decide +kernel), by decide +kernel⟩,
     ⟨{ easelHub { roleAct := .follower, following := true, missed := 2, servo := .track } with time := { hub.time with quality := .locked, lease := 9 } },
      inv_ok (by decide +kernel), onlyKeeper_ok (by decide +kernel), by decide +kernel⟩,
     ⟨easelHub { roleAct := .follower, following := true, missed := 2, hubIdF := 3, heard := heardBeat 2 2 }, 7, inv_ok
      (by decide +kernel), notOnly_ok (by decide +kernel), by decide +kernel⟩,
     ⟨half (easelHub { roleAct := .keeper, heard := heardBeat 3 2 }), 7, inv_ok (by decide +kernel), by decide +kernel⟩,
     ⟨easelHub { roleAct := .partner, snaps := [[1], [2]] }, 7, snap0, inv_ok (by decide +kernel), by decide +kernel⟩,
     ⟨easelHub { roleAct := .partner, listening := true, snaps := [[1], [2]] }, 7, snap0, inv_ok (by decide +kernel),
      by decide +kernel⟩,
     ⟨{ easelHub { roleAct := .partner, snapsWait := [[1], [2]] } with chip := { hub.chip with fwStalled := true } }, 7,
      false, snap0, inv_ok (by decide +kernel), by decide +kernel⟩,
     ⟨easelHub { roleAct := .partner }, 7, false, snap0 ++ [0], inv_ok (by decide +kernel), quiet_ok (by decide +kernel),
      by decide +kernel⟩,
     ⟨{ easelHub { roleAct := .partner, listening := true } with tick := 10000000 }, inv_ok (by decide +kernel),
      by decide +kernel⟩,
     ⟨{ easelHub { roleAct := .partner, listening := true, heardKeeper := true } with tick := 10000000 }, inv_ok
      (by decide +kernel), by decide +kernel⟩,
     ⟨easelHub
      { roleAct := .keeper, handoverTo := some 9, handoverSlots := 5, handoverJob := some ⟨0, 5, 0, 7, 3, some (aJob 0x0A47), []⟩ },
      ⟨0, 5, 0, 7, 3, some (aJob 0x0A47), []⟩, aJob 0x0A47, inv_ok (by decide +kernel), hears_ok (by decide +kernel),
      by decide +kernel⟩⟩

/-- The hypotheses of Obligations.TransferOpcodesActAndReport can be met. -/
theorem witness_TransferOpcodesActAndReport :
    (∃ (s : State) (r : Req), Accepted opXferConfig r s) ∧
    (∃ (s : State) (r : Req), Accepted opXferStatus r s) ∧
    (∃ (s : State) (r : Req), Accepted opPtpPortConfig r s) ∧
    (∃ (s : State) (r : Req), Accepted opAsymWrite r s) ∧
    (∃ (s : State) (r : Req), Accepted opAsymRead r s) ∧
    (∃ (s : State) (r : Req), Accepted opPhaseRead r s) ∧
    (∃ (s : State) (r : Req), Accepted opKeeperHandover r s) := 
  ⟨⟨hub, rq (by_ [0, 1, 3, 0, 9, 0, 0, 0, 127, 0, 0, 0]), acc_ok (by decide +kernel)⟩,
     ⟨hub, rq [], acc_ok (by decide +kernel)⟩,
     ⟨{ hub with bgls := [(63, { state := .locking, first := 0, width := 4 })] }, rq (by_ [2, 63, 2, 0, 1, 0xF9, 0xFD, 4,
      10, 3, 0xFF, 0x0F]), acc_ok (by decide +kernel)⟩,
     ⟨{ hub with xfer := { asym := [(3, zeros 15 ++ [1]), (31, zeros 15 ++ [2])] } }, rq (by_ [30, 2, 0, 0] ++ asymRow ++
      zeros 16), acc_ok (by decide +kernel)⟩,
     ⟨{ hub with xfer := { asym := [(3, zeros 15 ++ [1])] } }, rq (by_ [2, 30, 0, 0]), acc_ok (by decide +kernel)⟩,
     ⟨rxLane { valid := true, slip := true, phase := 5, freq := -1 }, rq (by_ [159, 0, 0, 0]), acc_ok (by decide +kernel)⟩,
     ⟨{ easelHub { roleAct := .keeper, heard := heardBeat 3 2 } with boot := { quiet := [(7, ⟨1001 * unitsPerSec, 1003 * unitsPerSec, false⟩)] } },
      rqAt (by_ [9, 0, 0, 0]), acc_ok (by decide +kernel)⟩⟩

/-- The hypotheses of Obligations.LanesAreConfiguredPoweredAndEqualised can be met. -/
theorem witness_LanesAreConfiguredPoweredAndEqualised :
    (∃ (s : State) (r : Req), Accepted opLaneConfig r s) ∧
    (∃ (s : State) (r : Req), Accepted opLaneStatus r s) ∧
    (∃ (s : State) (r : Req), Accepted opLanePower r s ∧ (r.u8 3 ≠ 2 ∨ (s.lane (r.u16 0)).aligned = false)) ∧
    (∃ (s : State) (r : Req), Accepted opLanePower r s ∧ s.NoResets ∧ r.u8 3 = 2 ∧ (s.lane (r.u16 0)).aligned = true) ∧
    (∃ (s : State) (l : Fin 160) (k : Nat), s.Inv ∧ (s.lane l).rxWaking = some k) ∧
    (∃ (s : State) (l : Fin 160), s.Inv ∧ (s.lane l).txWaking = true) ∧
    (∃ (s : State) (r : Req), Accepted opLaneReeq r s ∧ (∀ p, s.lanePort (r.u16 0) = some p → (s.port p).state ≠
      .up)) ∧
    (∃ (s : State) (r : Req) (p : Nat), Accepted opLaneReeq r s ∧ s.lanePort (r.u16 0) = some p ∧ (s.port p).state =
      .up) ∧
    (∃ (s : State) (l : Fin 160) (_ctle _eyeH _eyeV : Byte) (j : JobRef), s.Inv ∧ s.hears j ∧ (s.lane l).reeq = some
      j) ∧
    (∃ (s : State) (l : Fin 160) (_inverted : Bool) (_ctle _eyeH _eyeV : Byte), s.Inv ∧ (s.lane l).rxPower = 0 ∧ 1 ≤
      (s.lane l).protocol ∧ (s.lane l).protocol ≤ 7 ∧ (s.lane l).aligned = false ∧ (s.lane l).reeq = none ∧ s.rawLane
      l = false ∧ s.laneHeld l = false) ∧
    (∃ (s : State) (l : Fin 160) (cdr : Bool), s.Inv ∧ (∀ n, s.laneBgl l = some n → (s.bgl n).state ≠ .up) ∧ (∀ p,
      s.lanePort l = some p → (s.port p).state ≠ .up) ∧ Quietly 4 0 l.val s ∧ Quietly 2 1 l.val s ∧ (s.lane
      l).rxPower = 0 ∧ 1 ≤ (s.lane l).protocol ∧ (s.lane l).protocol ≤ 7 ∧ ((s.lane l).aligned = true ∨ (s.lane
      l).cdr = true ∧ cdr = false)) := 
  ⟨⟨lanesAt [(159, { slip := 5, prbs := { tx := 2, rx := 3, locked := true, losses := 5 } })], rq (by_ [159, 0, 8, 1] ++
      le 4 3125000 ++ by_ [15, 63, 31, 0]), acc_ok (by decide +kernel)⟩,
     ⟨lanesAt [(159, { protocol := 8, losses := 5, codeErrors := 6 })], rq (by_ [159, 0, 1, 0]), acc_ok
      (by decide +kernel)⟩,
     ⟨lanesAt [(159, { seven with aligned := false })], rq (by_ [159, 0, 1, 2]), acc_ok (by decide +kernel),
      by decide +kernel⟩,
     ⟨calm (lanesAt [(159, seven)]), rq (by_ [159, 0, 255, 2]), acc_ok (by decide +kernel), noResets_ok
      (by decide +kernel), by decide +kernel⟩,
     ⟨lanesAt [(159, { seven with rxPower := 2, rxWaking := some 2 })], 159, 2, inv_ok (by decide +kernel),
      by decide +kernel⟩,
     ⟨lanesAt [(0, { seven with txPower := 2, txWaking := true })], 0, inv_ok (by decide +kernel), by decide +kernel⟩,
     ⟨lanesAt [(159, seven)], rq (by_ [159, 0, 0, 0]), acc_ok (by decide +kernel), none_all (by decide +kernel)⟩,
     ⟨portHub, rq (by_ [80, 0, 0, 0]), 3, acc_ok (by decide +kernel), by decide +kernel⟩,
     ⟨lanesAt [(159, { seven with reeq := some (aJob 0x0304) })], 159, 0xFF, 3, 4, aJob 0x0304, inv_ok
      (by decide +kernel), hears_ok (by decide +kernel), by decide +kernel⟩,
     ⟨lanesAt [(159, { seven with aligned := false, codeErrors := 0xFFFFFFFF })], 159, true, 0xFF, 3, 4, inv_ok
      (by decide +kernel), by decide +kernel⟩,
     ⟨lanesAt [(159, seven)], 159, false, inv_ok (by decide +kernel), none_all (by decide +kernel), none_all
      (by decide +kernel), quiet_ok (by decide +kernel), quiet_ok (by decide +kernel), by decide +kernel⟩⟩

/-- The hypotheses of Obligations.BamgiuskLinksComeUpAndGoDown can be met. -/
theorem witness_BamgiuskLinksComeUpAndGoDown :
    (∃ (s : State) (r : Req), Accepted opBglLinkConfig r s ∧ (s.bgl (r.u8 0)).state ≠ .up ∧ r.u8 1 ≠ 0) ∧
    (∃ (s : State) (r : Req), Accepted opBglLinkConfig r s ∧ (s.bgl (r.u8 0)).state ≠ .up ∧ r.u8 1 = 0) ∧
    (∃ (s : State) (r : Req), Accepted opBglLinkConfig r s ∧ s.NoResets ∧ (s.bgl (r.u8 0)).state = .up) ∧
    (∃ (s : State) (r : Req), Accepted opBglLinkStatus r s) ∧
    (∃ (s : State) (n : Fin 64), s.Inv ∧ (s.bgl n).state ≠ .disabled ∧ (s.bgl n).state ≠ .up ∧ nsOf s.now / 65536 ≠
      (s.bgl n).lastMarker) ∧
    (∃ (s : State) (n : Fin 64), s.Inv ∧ (s.bgl n).state = .up ∧ (s.bgl n).first ∈ s.sending (s.bgl n) ∧ nsOf s.now /
      65536 ≠ (s.bgl n).lastMarker) ∧
    (∃ (s : State) (n : Fin 64) (octets : Bytes), s.Inv ∧ (s.bgl n).state = .locking ∧ (s.bgl n).wiringWait = none ∧
      (∀ l ∈ (s.bgl n).lanes, (s.lane l).aligned = true) ∧ s.inReset 4 (256 + n.val) = false ∧ octets.length = (s.bgl
      n).width ∧ (∀ o ∈ octets, o = lockOctet (s.bgl n) ∨ o = ~~~lockOctet (s.bgl n))) ∧
    (∃ (s : State) (n : Fin 64) (order widths ids : Bytes) (rest : List Bytes) (reversed : Bool), s.Inv ∧ (s.bgl
      n).state = .training ∧ rest.length = (s.bgl n).width ∧ (∀ b ∈ trainingBlocks order widths ids rest, checkHolds
      b = true) ∧ widths.map (·.toNat) = List.replicate (s.bgl n).width (s.bgl n).width ∧ ids = List.replicate (s.bgl
      n).width (s.bgl n).linkId ∧ (reversed = true → 2 ≤ (s.bgl n).width) ∧ order.map (·.toNat) = (if reversed then
      (List.range (s.bgl n).width).reverse else List.range (s.bgl n).width)) ∧
    (∃ (s : State) (n : Fin 64) (order widths ids : Bytes) (rest : List Bytes), s.Inv ∧ Quietly 4 2 (256 + n.val) s ∧
      (s.bgl n).state = .training ∧ rest.length = (s.bgl n).width ∧ order.length = rest.length ∧ widths.length =
      rest.length ∧ ids.length = rest.length ∧ (∀ b ∈ trainingBlocks order widths ids rest, checkHolds b = true) ∧
      ((∃ w ∈ widths, w.toNat ≠ (s.bgl n).width) ∨ (∃ d ∈ ids, d ≠ (s.bgl n).linkId) ∨ order.map (·.toNat) ≠
      List.range (s.bgl n).width ∧ order.map (·.toNat) ≠ (List.range (s.bgl n).width).reverse)) ∧
    (∃ (s : State) (n : Fin 64) (k : Nat), s.Inv ∧ (s.bgl n).state = .locking ∧ (s.bgl n).wiringWait = some k ∧ k +
      10000000 ≤ s.tick) ∧
    (∃ (s : State) (n : Fin 64) (skew : Nat) (ready : Bool) (_sender : W16), s.Inv ∧ (s.bgl n).state = .deskew ∧ skew
      ≤ 40000 ∧ ((s.bgl n).start ≠ 0 ∨ ready = true) ∧ s.inReset 4 (256 + n.val) = false) ∧
    (∃ (s : State) (n : Fin 64) (skew : Nat) (_sender : W16), s.Inv ∧ (s.bgl n).state = .deskew ∧ skew ≤ 40000 ∧
      (s.bgl n).start = 0 ∧ s.inReset 4 (256 + n.val) = false) ∧
    (∃ (s : State) (n : Fin 64), s.Inv ∧ (s.bgl n).state = .deskew ∧ (s.bgl n).readyTx = false ∧ (s.bgl n).stateTick
      + 1000000 ≤ s.tick) ∧
    (∃ (s : State) (n : Fin 64), s.Inv ∧ Quietly 4 1 (256 + n.val) s ∧ (s.bgl n).state = .up ∧ (s.bgl n).mode = 1 ∧
      (s.bglIn n).base.state ≠ .aligned) ∧
    (∃ (s : State) (n : Fin 64), s.Inv ∧ s.NoResets ∧ (s.bgl n).state = .up ∧ s.faultsHeld = false) := 
  ⟨⟨bglsAt { out1 := [[1]], downs := 4, mismatch := true }, rq (bglCfg 1 0), acc_ok (by decide +kernel),
      by decide +kernel⟩,
     ⟨bglsAt { b4 .locking with out1 := [[1]] }, rq (by_ [63, 0] ++ zeros 26), acc_ok (by decide +kernel),
      by decide +kernel⟩,
     ⟨calm (bglsAt { b4 .up with downs := 4 }), rq (bglCfg 1 2), acc_ok (by decide +kernel), noResets_ok
      (by decide +kernel), by decide +kernel⟩,
     ⟨bglsAt { b4 .up with mismatch := true, readyRx := true }, rq (by_ [63, 0, 0, 0]), acc_ok (by decide +kernel)⟩,
     ⟨bglsAt (b4 .locking), 63, inv_ok (by decide +kernel), by decide +kernel⟩,
     ⟨bglsAt { b4 .up with mode := 2, out1 := [[1, 2]] }, 63, inv_ok (by decide +kernel), by decide +kernel⟩,
     ⟨bglsAt (b4 .locking), 63, by_ [0xB7, 0x48, 0xB7, 0x48], inv_ok (by decide +kernel), by decide +kernel⟩,
     ⟨bglsAt (b4 .training), 63, by_ [3, 2, 1, 0], List.replicate 4 4, List.replicate 4 9, tend [3, 2, 1, 0] 4 9, true,
      inv_ok (by decide +kernel), by decide +kernel⟩,
     ⟨bglsAt (b4 .training), 63, by_ [0, 1, 2, 3], List.replicate 4 4, List.replicate 4 8, tend [0, 1, 2, 3] 4 8, inv_ok
      (by decide +kernel), quiet_ok (by decide +kernel), by decide +kernel⟩,
     ⟨{ bglsAt { b4 .locking with wiringWait := some 5 } with tick := 10000005 }, 63, 5, inv_ok (by decide +kernel),
      by decide +kernel⟩,
     ⟨bglsAt (b4 .deskew), 63, 40000, true, 7, inv_ok (by decide +kernel), by decide +kernel⟩,
     ⟨bglsAt (b4 .deskew), 63, 40000, 7, inv_ok (by decide +kernel), by decide +kernel⟩,
     ⟨{ bglsAt (b4 .deskew) with tick := 1000000 }, 63, inv_ok (by decide +kernel), by decide +kernel⟩,
     ⟨bglsAt (b4 .up), 63, inv_ok (by decide +kernel), quiet_ok (by decide +kernel), by decide +kernel⟩,
     ⟨calm { bglsAt { b4 .up with downs := 4 } with bglIns := [(63, { base := { state := .aligned } })] }, 63, inv_ok
      (by decide +kernel), noResets_ok (by decide +kernel), by decide +kernel⟩⟩

/-- The hypotheses of Obligations.RawAlignmentAndPrbsChecks can be met. -/
theorem witness_RawAlignmentAndPrbsChecks :
    (∃ (s : State) (r : Req), Accepted opLaneBitslip r s ∧ r.u8 0 = 0) ∧
    (∃ (s : State) (r : Req), Accepted opLaneBitslip r s ∧ r.u8 0 = 1) ∧
    (∃ (s : State) (r : Req), Accepted opLaneRawCapture r s ∧ r.u8 0 = 0) ∧
    (∃ (s : State) (r : Req), Accepted opLaneRawCapture r s ∧ r.u8 0 = 1) ∧
    (∃ (s : State) (r : Req), Accepted opLaneRawCommit r s) ∧
    (∃ (s : State) (r : Req), Accepted opPrbsConfig r s) ∧
    (∃ (s : State) (r : Req), Accepted opPrbsRead r s) ∧
    (∃ (s : State) (l : Fin 160) (bits : List Bool) (inv : Bool), s.Inv ∧ (s.lane l).protocol = 8 ∧ (s.lane
      l).rxPower = 0 ∧ (s.lane l).prbs.rx ≠ 0 ∧ (s.lane l).prbs.locked = false ∧ s.laneHeld l = false ∧ prbsPredicts
      (s.lane l).prbs.rx bits = !inv ∧ (inv = true → prbsPredicts (s.lane l).prbs.rx (bits.map not) = true)) ∧
    (∃ (s : State) (l : Fin 160) (_errors lastErrors : Nat), s.Inv ∧ (s.lane l).protocol = 8 ∧ (s.lane l).prbs.locked
      = true ∧ (s.lane l).reeq = none ∧ 256 ≤ lastErrors) := 
  ⟨⟨{ bglsAt (b4 .rawAlign) with lanes := [(159, { slip := 65 })] }, rq (by_ [0, 0, 159, 0, 65, 0, 0, 0]), acc_ok
      (by decide +kernel), by decide +kernel⟩,
     ⟨scpAt, rq (by_ [1, 15, 3, 0, 65, 0, 0, 0]), acc_ok (by decide +kernel), by decide +kernel⟩,
     ⟨{ bglsAt (b4 .rawAlign) with lanes := [(159, { slip := 65 })] }, rq (by_ [0, 0, 159, 0, 0, 0, 0, 0]), acc_ok
      (by decide +kernel), by decide +kernel⟩,
     ⟨scpAt, rq (by_ [1, 15, 3, 0, 0, 0, 0, 0]), acc_ok (by decide +kernel), by decide +kernel⟩,
     ⟨bglsAt (b4 .rawAlign), rq (by_ [63, 0, 0, 0]), acc_ok (by decide +kernel)⟩,
     ⟨prbs8 { rx := 1, locked := true, losses := 4 }, rq (by_ [159, 0, 4, 3] ++ le 4 3200000 ++ by_ [2, 0, 0, 0]), acc_ok
      (by decide +kernel)⟩,
     ⟨prbs8 { rx := 1, inverted := true, losses := 4, bits := 7, errors := 5 }, rq (by_ [159, 0, 0, 0]), acc_ok
      (by decide +kernel)⟩,
     ⟨prbs8 { rx := 1 }, 159, pattern 128, false, inv_ok (by decide +kernel), by decide +kernel⟩,
     ⟨{ prbs8 { rx := 1, locked := true, bits := 0xFFFFFFFFFFFFFFFF } with tick := 1000000 }, 159, 3, 256, inv_ok
      (by decide +kernel), by decide +kernel⟩⟩

/-- The hypotheses of Obligations.ClocksAndInputLinksTakeTheirConfiguration can be met. -/
theorem witness_ClocksAndInputLinksTakeTheirConfiguration :
    (∃ (s : State) (r : Req), Accepted opDclkConfig r s ∧ r.sched = false ∧ r.u8 1 = 1) ∧
    (∃ (s : State) (r : Req), Accepted opDclkConfig r s ∧ r.sched = false ∧ r.u8 1 = 0) ∧
    (∃ (s : State) (r : Req), Accepted opDclkConfig r s ∧ r.sched = true) ∧
    (∃ (s : State) (o : Fin 32), s.Inv ∧ (s.dclk o).enabled = true ∧ (s.dclk o).held = true ∧ s.chip.phase ≠ .off) ∧
    (∃ (s : State) (r : Req), Accepted opSrefConfig r s ∧ r.u8 1 ≠ 0) ∧
    (∃ (s : State) (r : Req), Accepted opSrefConfig r s ∧ r.u8 1 = 0) ∧
    (∃ (s : State) (r : Req), Accepted opJesdLinkConfig r s ∧ r.u8 1 ≠ 0) ∧
    (∃ (s : State) (r : Req), Accepted opJesdLinkConfig r s ∧ r.u8 1 = 0) ∧
    (∃ (s : State) (r : Req), Accepted opBglInputConfig r s) ∧
    (∃ (s : State) (r : Req), Accepted opScpConfig r s) := 
  ⟨⟨dclkAt { freq := 5, phase := 6, started := 3 }, rq (dclkReq 1 4095 3200000000), acc_ok (by decide +kernel),
      by decide +kernel⟩,
     ⟨dclkAt { enabled := true, held := true, freq := 3200000000, phase := 6, started := 3 }, rq (dclkReq 0 0 0), acc_ok
      (by decide +kernel), by decide +kernel⟩,
     ⟨dclkAt {}, rqAt (dclkReq 1 4095 3200000000), acc_ok (by decide +kernel), by decide +kernel⟩,
     ⟨dclkAt { enabled := true, held := true, started := 3 }, 31, inv_ok (by decide +kernel), by decide +kernel⟩,
     ⟨{ hub with cal := { entries := [⟨1001 * unitsPerSec, 3, 0, .sysref 31, 5000, none, none, false⟩, ⟨1001 * unitsPerSec, 3, 0, .sysref 30, 5000, none, none, false⟩], nextIns := 2 } },
      rq (srefReq 1), acc_ok (by decide +kernel), by decide +kernel⟩,
     ⟨{ hub with srefs := [(31, { mode := 2, width := 5 })], cal := { entries := [⟨1001 * unitsPerSec, 3, 0, .sysref 31, 5000, none, none, false⟩, ⟨1001 * unitsPerSec, 3, 0, .sysref 30, 5000, none, none, false⟩], nextIns := 2 } },
      rq (by_ [31, 0] ++ zeros 22), acc_ok (by decide +kernel), by decide +kernel⟩,
     ⟨jesdHub, rq (jesdPay 2), acc_ok (by decide +kernel), by decide +kernel⟩,
     ⟨{ jesdHub with jesds := [(63, { base := { state := .configured }, version := 2 })] }, rq (by_ [63, 0] ++ zeros 38),
      acc_ok (by decide +kernel), by decide +kernel⟩,
     ⟨{ hub with bgls := [(63, { state := .up, mode := 1, width := 4, first := 156 })] }, rq bglPay, acc_ok
      (by decide +kernel)⟩,
     ⟨{ hub with scps := [(15, { slip := [(1, 5)] })] }, rq scpPay, acc_ok (by decide +kernel)⟩⟩

/-- The hypotheses of Obligations.InputLinksAlignAndAreLost can be met. -/
theorem witness_InputLinksAlignAndAreLost :
    (∃ (s : State) (r : Req), Accepted opLinkAlign r s ∧ r.u8 0 = 3) ∧
    (∃ (s : State) (r : Req), Accepted opLinkAlign r s ∧ r.u8 0 = 2) ∧
    (∃ (s : State) (r : Req), Accepted opLinkAlign r s ∧ r.u8 0 = 1) ∧
    (∃ (s : State) (n : Fin 64) (_f : AlignFound), s.Inv ∧ (s.scp n).base.state = .aligning ∧ s.inReset 5 (128 +
      n.val) = false ∧ ((s.scp n).checkPos = 0xFF ∨ 16 ≤ (s.scp n).good)) ∧
    (∃ (s : State) (n : Fin 64) (f : AlignFound), s.Inv ∧ s.NoResets ∧ (s.jesd n).base.state = .aligning ∧ s.inReset
      5 n = false ∧ f.stamps.length = (s.jesd n).l ∧ f.stamps ≠ []) ∧
    (∃ (s : State) (n : Fin 64) (_f : AlignFound) (i : Int) (a : T16), s.Inv ∧ (s.bglIn n).base.state = .aligning ∧
      s.inReset 5 (64 + n.val) = false ∧ (s.bgl n).state = .up ∧ 1024 ≤ (s.bglIn n).good ∧ (s.bglIn n).mark = some
      (i, a)) ∧
    (∃ (s : State) (k : LinkKind) (n : Fin 64), s.Inv ∧ (s.link (kindCode k) n).state = .aligning ∧ (s.link (kindCode
      k) n).alignTick + s.alignBound (kindCode k) n ≤ s.tick) ∧
    (∃ (s : State) (r : Req), Accepted opLinkStatus r s) ∧
    (∃ (s : State) (k : LinkKind) (n : Fin 64), s.Inv ∧ Quietly 5 0 (64 * (kindCode k - 1) + n.val) s ∧ (s.link
      (kindCode k) n).state = .aligned) ∧
    (∃ (s : State) (n : Fin 64) (stamps : List T16), s.Inv ∧ s.NoResets ∧ (s.jesd n).base.state = .aligned ∧
      stamps.length = (s.jesd n).base.latsAligned.length ∧ stamps ≠ []) ∧
    (∃ (s : State) (n : Fin 16) (f : ScpFrame), s.Inv ∧ s.NoResets ∧ ((s.scp n).base.state = .aligning ∨ (s.scp
      n).base.state = .aligned) ∧ (s.scp n).startFrame ≤ f.index) ∧
    (∃ (s : State) (n : Fin 64) (f : BglFrame) (h : Bytes), s.Inv ∧ (s.bgl n).state = .up ∧ s.discards (s.bgl
      n).lanes = false ∧ ((s.bglIn n).base.state = .aligning ∨ (s.bglIn n).base.state = .aligned) ∧ frameHeader f =
      some h ∧ bit (getU h 2 1) 0 = true ∧
      (let b := s.bglIn n
       let p := framePayload (s.bgl n).width (blocksPerFrame (s.bgl n).rate) f
       let first := extendIndex 32 (getU h 3 4) (max 1 b.rate) ((f.arrival : Rat) - (b.lambda : Rat))
       payloadCrc p = true ∧ auxBreaks b (s.frameAux n f (getU h 1 1)) = false ∧ getU h 1 1 ≤ frameCount b.fs ∧
         (∀ i, b.nextIndex = some i → i = first))) ∧
    (∃ (s : State) (n : Fin 64) (f : BglFrame), s.Inv ∧ s.NoResets ∧ (s.bgl n).state = .up ∧ s.discards (s.bgl
      n).lanes = false ∧ ((s.bglIn n).base.state = .aligning ∨ (s.bglIn n).base.state = .aligned) ∧ payloadCrc
      (framePayload (s.bgl n).width (blocksPerFrame (s.bgl n).rate) f) = false) := 
  ⟨⟨scpHub { state := .lost, losses := 3 }, rq (by_ [3, 15, 0, 0]), acc_ok (by decide +kernel), by decide +kernel⟩,
     ⟨{ hub with bglIns := [(63, { base := { state := .lost }, m := 1, fs := 10000000, good := 7, nextIndex := some 4 })], bgls := [(63, { state := .up, mode := 1, width := 4, first := 156 })] },
      rq (by_ [2, 63, 0, 0]), acc_ok (by decide +kernel), by decide +kernel⟩,
     ⟨{ jesdHub with jesds := [(63, { base := { state := .configured }, version := 1, l := 1, m := 1, f := 2, s := 1, n := 16, np := 16, ke := 32, sync := 7, dclk := 31, sref := 31, fs := 400000000, lanes := [159] })] },
      rq (by_ [1, 63, 0, 0]), acc_ok (by decide +kernel), by decide +kernel⟩,
     ⟨scpHub { state := .aligning, wasLost := true, job := some (aJob 0x0406), lats := [4], losses := 3 }, 15, ⟨[], false,
      0⟩, inv_ok (by decide +kernel), by decide +kernel⟩,
     ⟨calm (jesdAs { state := .aligning, job := some (aJob 0x0406) }), 63, ⟨[1000 * unitsPerSec + 4096005], false, 0⟩,
      inv_ok (by decide +kernel), noResets_ok (by decide +kernel), by decide +kernel⟩,
     ⟨{ hub with bglIns := [(63, { base := { state := .aligning, wasLost := true, job := some (aJob 0x0406) }, m := 1, fs := 10000000, good := 1024, mark := some (10000000000, 1000 * unitsPerSec + 7 * 65536) })], bgls := [(63, { state := .up, mode := 1, width := 4, first := 156 })] },
      63, ⟨[], false, 0⟩, 10000000000, 1000 * unitsPerSec + 7 * 65536, inv_ok (by decide +kernel), by decide +kernel⟩,
     ⟨{ hub with tick := 10000005, bglIns := [(63, { base := { state := .aligning, alignTick := 5, wasLost := true, job := some (aJob 0x0406), losses := 3 }, m := 2 })] },
      .bgl, 63, inv_ok (by decide +kernel), by decide +kernel⟩,
     ⟨{ hub with bglIns := [(63, { base := { state := .aligned, flags := 0xFF, errors := 7 } })] }, rq (by_ [2, 63, 0,
      0]), acc_ok (by decide +kernel)⟩,
     ⟨chan4 { state := .running } { state := .aligned }, .scp, 15, inv_ok (by decide +kernel), quiet_ok
      (by decide +kernel), by decide +kernel⟩,
     ⟨calm (jesdAs { state := .aligned, lats := [90], latsAligned := [100] }), 63, [1000 * unitsPerSec + 131172], inv_ok
      (by decide +kernel), noResets_ok (by decide +kernel), by decide +kernel⟩,
     ⟨calm (scpChecked 2), 15, ⟨1000000, scpBits⟩, inv_ok (by decide +kernel), noResets_ok (by decide +kernel),
      by decide +kernel⟩,
     ⟨bglHub { bIn { state := .aligned } with nextIndex := some 10000000000, badRun := 3 }, 63, upFrame 1 2 1410065408
      upData 0 (1000 * unitsPerSec), controlBlock (le 1 0xBA ++ le 1 2 ++ le 1 1 ++ le 4 1410065408), inv_ok
      (by decide +kernel), by decide +kernel⟩,
     ⟨calm (bglHub { bIn { state := .aligned } with badRun := 15, good := 4 }), 63, upFrame 1 2 1410065408 upData 1 (1000
      * unitsPerSec), inv_ok (by decide +kernel), noResets_ok (by decide +kernel), by decide +kernel⟩⟩

/-- The hypotheses of Obligations.ChannelsReleaseWordsOrSubstitute can be met. -/
theorem witness_ChannelsReleaseWordsOrSubstitute :
    (∃ (s : State) (r : Req), Accepted opChannelBind r s ∧ r.u8 2 ≠ 0) ∧
    (∃ (s : State) (r : Req), Accepted opChannelBind r s ∧ r.u8 2 = 0) ∧
    (∃ (s : State) (r : Req), Accepted opChannelStart r s ∧ r.sched = true) ∧
    (∃ (s : State) (r : Req), Accepted opChannelStart r s ∧ r.sched = false) ∧
    (∃ (s : State) (r : Req), Accepted opChannelStop r s ∧ r.sched = true) ∧
    (∃ (s : State) (r : Req), Accepted opChannelStop r s ∧ s.NoResets ∧ r.sched = false) ∧
    (∃ (s : State) (r : Req), Accepted opChannelStatus r s) ∧
    (∃ (s : State) (n : Fin 512) (w : JesdWord) (x : W32), s.Inv ∧ s.wordDue n = true ∧ s.placed n w = true ∧
      s.nextWord n w = some x) ∧
    (∃ (s : State) (n : Fin 512) (w : JesdWord), s.Inv ∧ s.wordDue n = true ∧ s.placed n w = true ∧ s.nextWord n w =
      none) ∧
    (∃ (s : State) (n : Fin 512) (w : JesdWord), s.Inv ∧ (s.wordDue n = false ∨ s.placed n w = false)) ∧
    (∃ (s : State) (n : Fin 64) (_b : Bool) (b0 : Bytes) (bs : List Bytes), s.Inv ∧ (s.bgl n).state = .up ∧
      s.discards (s.bgl n).lanes = false ∧ (∃ x ∈ b0 :: bs, checkHolds x = false)) ∧
    (∃ (s : State) (n : Fin 64) (b : Bool) (b0 : Bytes) (bs : List Bytes) (m : Bytes), s.Inv ∧ (s.bgl n).state = .up
      ∧ (s.bgl n).mode = 1 ∧ s.discards (s.bgl n).lanes = false ∧ (∀ x ∈ b0 :: bs, checkHolds x = true) ∧ readMessage
      (b2n b) (b0 :: bs) = some m ∧ getU m 0 1 = 0x11 ∧ m.length = 4 + getU m 2 2 ∧ 216 < getU m 2 2) ∧
    (∃ (s : State) (n : Fin 64) (b : Bool) (b0 : Bytes) (bs : List Bytes) (m : Bytes) (k : Fin 10), s.Inv ∧ (s.bgl
      n).state = .up ∧ (s.bgl n).mode = 1 ∧ s.discards (s.bgl n).lanes = false ∧ (∀ x ∈ b0 :: bs, checkHolds x =
      true) ∧ readMessage (b2n b) (b0 :: bs) = some m ∧ getU m 0 1 = 0x11 ∧ m.length = 4 + getU m 2 2 ∧ getU m 2 2 ≤
      216 ∧ s.fwRuns = true ∧ s.subscribers 4 = [k.val] ∧ logRoom s.hcp.log = true) ∧
    (∃ (s : State) (r : Req), Accepted opBglMessage r s) := 
  ⟨⟨{ scpHub { state := .aligned } with channels := [(511, { segs := [⟨5, 6, 1, 2, 3, 4, false⟩] })] }, rq (bindPay 4),
      acc_ok (by decide +kernel), by decide +kernel⟩,
     ⟨chan4 { state := .bound, segs := [⟨5, 6, 1, 2, 3, 4, false⟩] } { state := .aligned }, rq (bindPay 0), acc_ok
      (by decide +kernel), by decide +kernel⟩,
     ⟨chan4 { state := .bound } { state := .configured }, rqAt (by_ [255, 1, 1, 0]), acc_ok (by decide +kernel),
      by decide +kernel⟩,
     ⟨chan4 { state := .bound, overRange := 4 } { state := .aligned }, rq (by_ [255, 1, 1, 0]), acc_ok
      (by decide +kernel), by decide +kernel⟩,
     ⟨chan4 { state := .running, kNext := 999 } { state := .aligned }, rqAt (by_ [255, 1, 1, 0]), acc_ok
      (by decide +kernel), by decide +kernel⟩,
     ⟨calm (chan4 { state := .running, kNext := 999 } { state := .aligned }), rq (by_ [255, 1, 1, 0]), acc_ok
      (by decide +kernel), noResets_ok (by decide +kernel), by decide +kernel⟩,
     ⟨chan4 { state := .lost, kNext := 1001, substituting := true, kFirst := -4 } { state := .lost }, rq (by_ [255, 1, 0,
      0]), acc_ok (by decide +kernel)⟩,
     ⟨chan4 { state := .running, kNext := 100, arrived := [(100, 0xFFFFFFFF), (101, 4), (99, 5)] } { state := .aligned },
      511, ⟨0, 0, 0, 0⟩, 0xFFFFFFFF, inv_ok (by decide +kernel), by decide +kernel⟩,
     ⟨chan4 { state := .lost, kNext := 100, arrived := [(100, 7)] } { state := .lost }, 511, ⟨0, 0, 0, 0xFFFFFFFF⟩, inv_ok
      (by decide +kernel), by decide +kernel⟩,
     ⟨chan4 { state := .bound, kNext := 100 } { state := .lost }, 511, ⟨0, 0, 0, 0xFFFFFFFF⟩, inv_ok (by decide +kernel),
      by decide +kernel⟩,
     ⟨upBgl, 63, true, by_ [0xBF, 0, 0, 0, 0, 0, 0, 0], [], inv_ok (by decide +kernel), by decide +kernel⟩,
     ⟨upBgl, 63, true, (messageBlocks 1 (messageBytes 0x11 (zeros 217))).headD [], (messageBlocks 1 (messageBytes 0x11
      (zeros 217))).drop 1, messageBytes 0x11 (zeros 217), inv_ok (by decide +kernel), by decide +kernel⟩,
     ⟨{ upBgl with hcp := { mbs := [(0, { hub.mb 0 with mask := 0x10 })] } }, 63, true, (messageBlocks 1 (messageBytes
      0x11 (by_ [7, 8, 9]))).headD [], (messageBlocks 1 (messageBytes 0x11 (by_ [7, 8, 9]))).drop 1, messageBytes 0x11
      (by_ [7, 8, 9]), 0, inv_ok (by decide +kernel), by decide +kernel⟩,
     ⟨upBgl, rq (by_ [63, 0, 3, 0, 7, 8, 9, 0]), acc_ok (by decide +kernel)⟩⟩

/-- The hypotheses of Obligations.PipesAreConfiguredStartedAndStopped can be met. -/
theorem witness_PipesAreConfiguredStartedAndStopped :
    (∃ (s : State) (r : Req), Accepted opPipeConfig r s ∧ r.u16 2 ≠ 0xFFFF) ∧
    (∃ (s : State) (r : Req), Accepted opPipeConfig r s ∧ r.u16 2 = 0xFFFF) ∧
    (∃ (s : State) (r : Req), Accepted opPipeStart r s ∧ r.sched = true) ∧
    (∃ (s : State) (r : Req), Accepted opPipeStart r s ∧ r.sched = false) ∧
    (∃ (s : State) (r : Req), Accepted opPipeStop r s ∧ r.sched = true) ∧
    (∃ (s : State) (r : Req), Accepted opPipeStop r s ∧ s.NoResets ∧ r.sched = false) ∧
    (∃ (s : State) (r : Req), Accepted opPipeStatus r s) := 
  ⟨⟨pipeHub bound1 {}, rq (pipeCfg 511), acc_ok (by decide +kernel), by decide +kernel⟩,
     ⟨pipeHub bound1 {}, rq (pipeCfg 0xFFFF), acc_ok (by decide +kernel), by decide +kernel⟩,
     ⟨pipeHub bound1 { state := .idle }, rqAt (by_ [255, 3, 1, 0]), acc_ok (by decide +kernel), by decide +kernel⟩,
     ⟨pipeHub bound1 { state := .idle, discarded := 7 }, rq (by_ [255, 3, 1, 0]), acc_ok (by decide +kernel),
      by decide +kernel⟩,
     ⟨pipeHub running1 { state := .active }, rqAt (by_ [255, 3, 1, 0]), acc_ok (by decide +kernel), by decide +kernel⟩,
     ⟨calm (pipeHub running1 { state := .active }), rq (by_ [255, 3, 1, 0]), acc_ok (by decide +kernel), noResets_ok
      (by decide +kernel), by decide +kernel⟩,
     ⟨pipeHub running1 { state := .active }, rq (by_ [255, 3, 1, 0]), acc_ok (by decide +kernel)⟩⟩

/-- The hypotheses of Obligations.PipeSettingsActAsTheTablesSay can be met. -/
theorem witness_PipeSettingsActAsTheTablesSay :
    (∃ (s : State) (r : Req), Accepted opPipeRetune r s ∧ r.sched = false) ∧
    (∃ (s : State) (r : Req), Accepted opPipeRetune r s ∧ r.sched = true) ∧
    (∃ (s : State) (r : Req), Accepted opDcControl r s ∧ r.u8 2 = 0) ∧
    (∃ (s : State) (r : Req), Accepted opDcControl r s ∧ r.u8 2 = 1) ∧
    (∃ (s : State) (r : Req), Accepted opDcControl r s ∧ r.u8 2 = 2) ∧
    (∃ (s : State) (r : Req), Accepted opDcControl r s ∧ r.u8 2 = 3) ∧
    (∃ (s : State) (r : Req), Accepted opDcControl r s ∧ r.u8 2 = 4) ∧
    (∃ (s : State) (r : Req), Accepted opRequantSet r s) := 
  ⟨⟨pipeHub { mixed1 with retunes := [(1000 * unitsPerSec, 4, some 5), (1001 * unitsPerSec, 6, none)] } {}, rq retune1,
      acc_ok (by decide +kernel), by decide +kernel⟩,
     ⟨pipeHub mixed1 {}, rqAt retune1, acc_ok (by decide +kernel), by decide +kernel⟩,
     ⟨pipeHub bound1 {}, rq (dcPay 0 (by_ [24, 1, 0, 0xFF, 0xFF] ++ zeros 8)), acc_ok (by decide +kernel),
      by decide +kernel⟩,
     ⟨pipeHub { bound1 with dcM := -5 } {}, rq (dcPay 1 (zeros 13)), acc_ok (by decide +kernel), by decide +kernel⟩,
     ⟨pipeHub { bound1 with dcM := -5, dcManual := true } {}, rq (dcPay 2 (zeros 13)), acc_ok (by decide +kernel),
      by decide +kernel⟩,
     ⟨pipeHub bound1 {}, rq (dcPay 3 (zeros 5 ++ leI 8 (-(2 ^ 47 : Int)))), acc_ok (by decide +kernel), by decide +kernel⟩,
     ⟨pipeHub { bound1 with dcM := -5, dcManual := true } {}, rq (dcPay 4 (zeros 13)), acc_ok (by decide +kernel),
      by decide +kernel⟩,
     ⟨pipeHub running1 {}, rq (by_ [255, 3, 0xF8, 3]), acc_ok (by decide +kernel)⟩⟩

/-- The hypotheses of Obligations.DelaysFollowTheirSegmentsAndOutputsAppear can be met. -/
theorem witness_DelaysFollowTheirSegmentsAndOutputsAppear :
    (∃ (s : State) (r : Req), Accepted opDelaySegment r s) ∧
    (∃ (s : State) (r : Req), Accepted opDelayFlush r s) ∧
    (∃ (s : State) (r : Req), Accepted opDelayStatus r s) ∧
    (∃ (s : State) (p : Fin 1024), s.Inv ∧ s.pointDue p = true) ∧
    (∃ (s : State) (n : Fin 512) (g : Segment) (gs : List Segment), s.Inv ∧ (s.chan n).activated = g :: gs ∧ (s.chan
      n).expiredSeg ≠ some g.start ∧ g.start + g.lenUs * 65536000 < s.lastEval n ∧ (∀ h ∈ (s.chan n).segs, s.lastEval
      n < h.start)) ∧
    (∃ (s : State) (p : Fin 1024) (k : Packet), s.Inv ∧ s.outputReady p = true ∧ (s.pipe p).swap = none ∧ (s.pipe
      p).nLast = none ∧ (s.pipe p).retunes = [] ∧ s.cap.windows = [] ∧ s.chip.phase = .serving ∧ s.inReset 11 0 =
      false ∧ (s.stream p).state = .active ∧ (s.stream p).starved = false ∧ (s.cstream p).enable = false ∧ (s.stream
      p).opened = [k] ∧ k.closed = false ∧ k.count + 1 < (s.stream p).perPacket ∧ pagesOf (s.plainBytes p (k.count +
      1)) = k.pages) ∧
    (∃ (s : State) (p : Fin 1024), s.Inv ∧ s.NoResets ∧ s.outputReady p = true) ∧
    (∃ (s : State) (p : Fin 1024), s.Inv ∧ s.outputReady p = false) := 
  ⟨⟨chanHub { state := .bound, segs := List.replicate 14 (seg1 5), activated := [seg1 4] } [], rq segPay, acc_ok
      (by decide +kernel)⟩,
     ⟨chanHub { state := .bound, segs := List.replicate 14 (seg1 5), activated := [seg1 4] } [], rq (by_ [255, 1, 1, 0]),
      acc_ok (by decide +kernel)⟩,
     ⟨chanHub { state := .bound, segs := List.replicate 14 (seg1 5), activated := [seg1 4], expired := true } [], rq (by_
      [255, 1, 0, 0]), acc_ok (by decide +kernel)⟩,
     ⟨chanHub { state := .running } [(1023, running2)], 1023, inv_ok (by decide +kernel), by decide +kernel⟩,
     ⟨chanHub { state := .running, activated := [seg1 0], segs := [seg1 (990 * unitsPerSec)] } [(1023,
      { running2 with lastEval := 980 * unitsPerSec })], 511, seg1 0, [], inv_ok (by decide +kernel), by decide +kernel⟩,
     ⟨{ chanHub { state := .running } [(1023, running2)] with strm := { streams := [(1023, { state := .active, pages := 20, perPacket := 10, credits := 19, opened := [pack1] })] } },
      1023, pack1, inv_ok (by decide +kernel), by decide +kernel⟩,
     ⟨calm
      { chanHub { state := .running } [(1023, { running2 with nLast := some 110, state := .draining })] with strm := { streams := [(1023, { state := .closing, pages := 20, perPacket := 10, credits := 0 })] } },
      1023, inv_ok (by decide +kernel), noResets_ok (by decide +kernel), by decide +kernel⟩,
     ⟨chanHub { state := .running } [(1023, { running2 with waiting := true })], 1023, inv_ok (by decide +kernel),
      by decide +kernel⟩⟩

/-- The hypotheses of Obligations.ProfilesAndBanksChangeAsRequested can be met. -/
theorem witness_ProfilesAndBanksChangeAsRequested :
    (∃ (s : State) (r : Req), Accepted opProfileWrite r s) ∧
    (∃ (s : State) (r : Req), Accepted opProfileCommit r s ∧ (commitResult (s.prof (r.u8 0)) (r.u32 4)).1 = 0) ∧
    (∃ (s : State) (r : Req), Accepted opProfileCommit r s ∧ (commitResult (s.prof (r.u8 0)) (r.u32 4)).1 ≠ 0) ∧
    (∃ (s : State) (r : Req), Accepted opProfileDelete r s) ∧
    (∃ (s : State) (r : Req), Accepted opProfileInfo r s) ∧
    (∃ (s : State) (r : Req), Accepted opBankLoad r s) ∧
    (∃ (s : State) (r : Req), Accepted opBankSwap r s ∧ r.u8 2 = 0 ∧ (s.pipe (r.u16 0)).state ≠ .running) ∧
    (∃ (s : State) (r : Req), Accepted opBankSwap r s ∧ (r.u8 2 ≠ 0 ∨ (s.pipe (r.u16 0)).state = .running)) ∧
    (∃ (s : State) (r : Req), Accepted opBankClear r s) ∧
    (∃ (s : State) (r : Req), Accepted opBankStatus r s ∧ (s.pipe (r.u16 0)).state = .free) ∧
    (∃ (s : State) (r : Req), Accepted opBankStatus r s ∧ (s.pipe (r.u16 0)).state ≠ .free) := 
  ⟨⟨{ hub with profiles := [(255, prof1 .valid)] }, rq (by_ [255, 1, 0, 0, 4, 0, 0, 0, 1, 2, 3, 4]), acc_ok
      (by decide +kernel)⟩,
     ⟨commitHub, commitRq, sample_accepted, congrArg Prod.fst sample_commit⟩,
     ⟨{ hub with profiles := [(255, prof1 .staging)] }, rq (by_ [255, 0, 0, 0] ++ le 4 332), acc_ok (by decide +kernel),
      fun e => absurd ((congrArg Prod.fst sample_short).symm.trans e) (by decide)⟩,
     ⟨{ hub with profiles := [(255, prof1 .staging)] }, rq (by_ [255, 0, 0, 0]), acc_ok (by decide +kernel)⟩,
     ⟨{ hub with profiles := [(255, prof1 .staging)] }, rq (by_ [255, 0, 0, 0]), acc_ok (by decide +kernel)⟩,
     ⟨bankHub bound1, rq (by_ [255, 3, 5, 0]), acc_ok (by decide +kernel)⟩,
     ⟨bankHub { bound1 with profileB := 5, bank := .loaded }, rq (by_ [255, 3, 0, 0]), acc_ok (by decide +kernel),
      by decide +kernel⟩,
     ⟨bankHub { running1 with profileB := 5, bank := .loaded }, rqAt (by_ [255, 3, 1, 0]), acc_ok (by decide +kernel),
      by decide +kernel⟩,
     ⟨bankHub { running1 with profileB := 5, bank := .loaded }, rq (by_ [255, 3, 0, 0]), acc_ok (by decide +kernel)⟩,
     ⟨hub, rq (by_ [255, 3, 0, 0]), acc_ok (by decide +kernel), by decide +kernel⟩,
     ⟨bankHub { running1 with profileB := 5, bank := .loaded, updates := [(3, 4)], d0 := 7, epoch := 200 }, rq (by_ [255,
      3, 0, 0]), acc_ok (by decide +kernel), by decide +kernel⟩⟩

/-- The hypotheses of Obligations.AdmissionOpcodesReportLimitAndProbe can be met. -/
theorem witness_AdmissionOpcodesReportLimitAndProbe :
    (∃ (s : State) (r : Req), Accepted opAdmStatus r s) ∧
    (∃ (s : State) (r : Req), Accepted opAdmBoundRead r s) ∧
    (∃ (s : State) (r : Req), Accepted opAdmLimit r s) ∧
    (∃ (s : State) (r : Req), Accepted opAdmProbe r s) := 
  ⟨⟨{ bankHub running1 with ledger := { peak := [(0, 999999)] } }, rq (by_ [0, 0, 0, 0]), acc_ok (by decide +kernel)⟩,
     ⟨{ pipeHub running1 { state := .active, placeA := some 3 } with ledger := { exceeded := [(1023, true)] } }, rq (by_
      [255, 3, 0, 0]), acc_ok (by decide +kernel)⟩,
     ⟨pipeHub running1 { state := .active, placeA := some 3 }, rq (by_ [255, 3, 0, 0, 0, 0, 0, 0] ++ le 8 (2 ^ 63)),
      acc_ok (by decide +kernel)⟩,
     ⟨pipeHub running1 { state := .active, placeA := some 3 }, rq (reqFrame 3 0x0503 (rq (by_ [255, 3, 1, 0]))), acc_ok
      (by decide +kernel)⟩⟩

/-- The hypotheses of Obligations.WindowsAreConfiguredArmedAndTriggered can be met. -/
theorem witness_WindowsAreConfiguredArmedAndTriggered :
    (∃ (s : State) (r : Req), Accepted opCapWindowConfig r s ∧ r.u8 1 ≠ 0) ∧
    (∃ (s : State) (r : Req), Accepted opCapWindowConfig r s ∧ r.u8 1 = 0) ∧
    (∃ (s : State) (r : Req), Accepted opCapCondConfig r s) ∧
    (∃ (s : State) (r : Req), Accepted opCapArm r s ∧ r.sched = false) ∧
    (∃ (s : State) (r : Req), Accepted opCapArm r s ∧ r.sched = true) ∧
    (∃ (s : State) (n : Fin 16) (T : T16), s.Inv ∧ (s.win n).delayArm = some T ∧ T ≤ s.now ∧ (s.win n).state = .idle
      ∧ s.chip.phase = .serving) ∧
    (∃ (s : State) (r : Req), Accepted opCapDisarm r s ∧ r.sched = false) ∧
    (∃ (s : State) (r : Req), Accepted opCapDisarm r s ∧ r.sched = true) ∧
    (∃ (s : State) (n : Fin 16) (T : T16) (b : Bool), s.Inv ∧ (s.win n).delayDisarm = some (T, b) ∧ T ≤ s.now ∧
      (s.win n).cycle = [] ∧ ((s.win n).state = .arming ∨ (s.win n).state = .armed)) ∧
    (∃ (s : State) (n : Fin 16) (T : T16), s.Inv ∧ (s.win n).delayDisarm = some (T, true) ∧ T ≤ s.now ∧ (s.win
      n).cycle = [] ∧ (s.win n).state = .filling) ∧
    (∃ (s : State) (r : Req), Accepted opCapTrigger r s ∧ r.sched = false ∧ (s.win (r.u8 0)).state = .armed ∧ (tget
      {} (s.win (r.u8 0)).conds (r.u8 1)).flags.getLsbD 0 = true ∧ s.inReset 7 0 = false ∧ (s.win (r.u8 0)).cycle =
      [] ∧ (s.win (r.u8 0)).cycleFail = false ∧
      (let w := s.win (r.u8 0)
       let nt := w.frameAt ((if isZero r.payload 4 12 then s.now else r.ts96 4 : Nat) : Rat)
       w.oldest ≤ nt ∧ w.newest < nt + w.post - 1)) ∧
    (∃ (s : State) (r : Req), Accepted opCapTrigger r s ∧ r.sched = false) ∧
    (∃ (s : State) (r : Req), Accepted opCapTrigger r s ∧ r.sched = true) ∧
    (∃ (s : State) (p : Fin 49) (m : Bytes), s.Inv ∧ s.fwRuns = true ∧ s.chip.phase = .serving ∧ (p.val < 48 →
      (s.port p).state = .up) ∧ (m.length < 0x30 ∨ getU m 0 2 ≠ 0x5443 ∨ getU m 2 1 ≠ 1)) ∧
    (∃ (s : State) (p : Fin 49) (m : Bytes), s.Inv ∧ s.fwRuns = true ∧ s.chip.phase = .serving ∧ (p.val < 48 →
      (s.port p).state = .up) ∧ 0x30 ≤ m.length ∧ getU m 0 2 = 0x5443 ∧ getU m 2 1 = 1 ∧ (getU m 4 2 = 0xFFFF ∨ getU
      m 4 2 = s.chip.hubId.toNat) ∧ getU m 0x2C 4 = crc32c (m.take 0x2C) ∧ ts80Ok (sub m 0x10 10) = true ∧ ofTs96
      (sub m 0x10 12) ≤ s.now + unitsPerSec ∧ (∀ x ∈ s.cap.netSeen, x.1.toNat = getU m 6 2 → x.2.1.toNat = getU m 8 4
      → x.2.2 + 2000000000 ≤ s.tick) ∧ s.inReset 7 0 = false) := 
  ⟨⟨winHub { state := .idle, missedTotal := 4, nArm := some 3 }, rq (winCfg 1), acc_ok (by decide +kernel),
      by decide +kernel⟩,
     ⟨winHub { state := .idle, missedTotal := 4, nArm := some 3 }, rq (winCfg 0), acc_ok (by decide +kernel),
      by decide +kernel⟩,
     ⟨winHub { state := .idle, conds := [(0, { kind := 1 }), (6, { kind := 2 })] }, rq (by_ [15, 7, 5, 7, 0, 0, 0, 0, 0,
      0, 0, 0x41, 2, 0, 0, 0] ++ zeros 8 ++ le 4 1000000 ++ zeros 4), acc_ok (by decide +kernel)⟩,
     ⟨winHub { state := .idle }, rq (by_ [15, 0, 0, 0]), acc_ok (by decide +kernel), by decide +kernel⟩,
     ⟨winHub { state := .idle }, rqAt (by_ [15, 0, 0, 0]), acc_ok (by decide +kernel), by decide +kernel⟩,
     ⟨winHub { state := .idle, delayArm := some (1000 * unitsPerSec), recFlags := 0xFFFF, missedFill := 4 }, 15, 1000 *
      unitsPerSec, inv_ok (by decide +kernel), by decide +kernel⟩,
     ⟨winHub { state := .filling }, rq (by_ [15, 1, 0, 0]), acc_ok (by decide +kernel), by decide +kernel⟩,
     ⟨winHub { state := .armed }, rqAt (by_ [15, 1, 0, 0]), acc_ok (by decide +kernel), by decide +kernel⟩,
     ⟨armedAt .armed { delayDisarm := some (1000 * unitsPerSec, true), events := [⟨1, 511, 1, 950, 0⟩] }, 15, 1000 *
      unitsPerSec, true, inv_ok (by decide +kernel), by decide +kernel⟩,
     ⟨armedAt .filling { cycleFail := true, delayDisarm := some (1000 * unitsPerSec, true) }, 15, 1000 * unitsPerSec,
      inv_ok (by decide +kernel), by decide +kernel⟩,
     ⟨armedAt .armed { conds := [(7, cond3)] }, rq (by_ [15, 7] ++ zeros 14), acc_ok (by decide +kernel),
      by decide +kernel⟩,
     ⟨winHub { state := .idle, conds := [(7, cond3)] }, rq (by_ [15, 7] ++ zeros 14), acc_ok (by decide +kernel),
      by decide +kernel⟩,
     ⟨winHub { state := .idle, conds := [(7, { cond3 with kind := 4 })] }, rqAt (by_ [15, 7] ++ zeros 14), acc_ok
      (by decide +kernel), by decide +kernel⟩,
     ⟨{ hub with cap := { netSeen := [(5, 6, 0)] } }, 48, [1, 2], inv_ok (by decide +kernel), by decide +kernel⟩,
     ⟨{ hub with tick := 2000000000, cap := { netSeen := [(0xBEEF, 0xFFFFFFFF, 0), (1, 2, 5)], windows := [(0, { fillWin with state := .armed }), (15, fillWin)] } },
      48, netMsg, inv_ok (by decide +kernel), by decide +kernel⟩⟩

/-- The hypotheses of Obligations.RecordsAreWrittenReadAndDumped can be met. -/
theorem witness_RecordsAreWrittenReadAndDumped :
    (∃ (s : State) (n : Fin 16) (row : List Feed), s.Inv ∧ (s.win n).writes = true ∧ (s.win n).members ≠ [] ∧
      s.inReset 8 0 = false ∧ (s.win n).frameRow (s.win n).nextFrame = some row) ∧
    (∃ (s : State) (n : Fin 16), s.Inv ∧ ((s.win n).writes = false ∨ (s.win n).frameRow (s.win n).nextFrame = none)) ∧
    (∃ (s : State) (r : Req), Accepted opCapStatus r s ∧ (s.win (r.u8 0)).nArm = none) ∧
    (∃ (s : State) (r : Req) (a : Int), Accepted opCapStatus r s ∧ (s.win (r.u8 0)).nArm = some a) ∧
    (∃ (s : State) (r : Req), Accepted opCapRecordRead r s ∧ s.NoResets) ∧
    (∃ (s : State) (r : Req), Accepted opCapRelease r s ∧ (s.win (r.u8 0)).cycle = []) ∧
    (∃ (s : State) (r : Req), Accepted opCapMissedRead r s) ∧
    (∃ (s : State) (r : Req), Accepted opCapDump r s) ∧
    (∃ (s : State) (d : Fin 4) (x : Dump), s.Inv ∧ s.dump d = some x ∧ x.dest ≠ 0 ∧ x.sent < x.length ∧ s.flt.upsets
      = []) ∧
    (∃ (s : State) (d : Fin 4) (x : Dump), s.Inv ∧ s.dump d = some x ∧ (x.dest = 0 ∧ s.chip.pcieUp = true ∨ x.dest ≠
      0 ∧ x.sent = x.length) ∧ s.flt.upsets = []) ∧
    (∃ (s : State) (r : Req), Accepted opTrigOutConfig r s) := 
  ⟨⟨armedAt .armed { feeds := [feed1], capFrom := 900 }, 15, [feed1], inv_ok (by decide +kernel), by decide +kernel⟩,
     ⟨winHub { state := .idle, feeds := [feed1] }, 15, inv_ok (by decide +kernel), by decide +kernel⟩,
     ⟨winHub { state := .arming }, rq (by_ [15, 0, 0, 0]), acc_ok (by decide +kernel), by decide +kernel⟩,
     ⟨armedAt .armed { h := 4 }, rq (by_ [15, 0, 0, 0]), 900, acc_ok (by decide +kernel), by decide +kernel⟩,
     ⟨{ frozenAt .frozen with flt := { blocks := calmBlocks, upsets := [(65536 * 3071, { data := [(380, 1), (381, 2)] })] } },
      rq (by_ [15, 0, 0, 0] ++ le 4 2340 ++ le 4 12), acc_ok (by decide +kernel), noResets_ok (by decide +kernel)⟩,
     ⟨frozenAt .frozen, rq (by_ [15, 0, 0, 0]), acc_ok (by decide +kernel), by decide +kernel⟩,
     ⟨frozenAt .frozen, rq (by_ [15, 1, 0, 0]), acc_ok (by decide +kernel)⟩,
     ⟨frozenAt .frozen, rq (by_ [15, 0, 1, 0] ++ le 4 64 ++ le 4 0 ++ le 4 0 ++ le 8 0x1000), acc_ok (by decide +kernel)⟩,
     ⟨dumping 1, 3, dump1 1, inv_ok (by decide +kernel), by decide +kernel⟩,
     ⟨dumping 0, 3, dump1 0, inv_ok (by decide +kernel), by decide +kernel⟩,
     ⟨{ hub with cap := { trigOut := [(7, { pulseEnd := 5 })] } }, rq (outPay 1), acc_ok (by decide +kernel)⟩⟩

/-- The hypotheses of Obligations.CompressionSettingsAndJobsAct can be met. -/
theorem witness_CompressionSettingsAndJobsAct :
    (∃ (s : State) (r : Req), Accepted opCompStreamConfig r s) ∧
    (∃ (s : State) (r : Req), Accepted opCompStreamStatus r s) ∧
    (∃ (s : State) (r : Req), Accepted opCompJob r s ∧ bit (r.u8 6) 1 = false) ∧
    (∃ (s : State) (r : Req) (j : Job), Accepted opCompJob r s ∧ bit (r.u8 6) 1 = true ∧ s.tokenJob (r.u32 12) = some
      j) ∧
    (∃ (s : State) (r : Req) (j : Job), Accepted opCompJobStatus r s ∧ (s.comp.queues.flatMap (·.2)).find? (fun x =>
      x.ref.mb == r.u8 0 && x.ref.hostSeq.toNat == r.u32 4) = some j) ∧
    (∃ (s : State) (r : Req) (j : Job), Accepted opCompJobStatus r s ∧ (s.comp.queues.flatMap (·.2)).find? (fun x =>
      x.ref.mb == r.u8 0 && x.ref.hostSeq.toNat == r.u32 4) = none ∧ (s.comp.running.filterMap (·.2)).find? (fun x =>
      x.ref.mb == r.u8 0 && x.ref.hostSeq.toNat == r.u32 4) = some j) ∧
    (∃ (s : State) (r : Req) (j : Job), Accepted opCompJobStatus r s ∧ (s.comp.queues.flatMap (·.2) ++
      s.comp.running.filterMap (·.2)).find? (fun x => x.ref.mb == r.u8 0 && x.ref.hostSeq.toNat == r.u32 4) = none ∧
      (s.comp.stopped.filterMap (·.2)).find? (fun x => x.ref.mb == r.u8 0 && x.ref.hostSeq.toNat == r.u32 4) = some
      j) ∧
    (∃ (s : State) (r : Req), Accepted opCompJobCancel r s ∧ r.u8 0 = 255) ∧
    (∃ (s : State) (r : Req) (j : Job), Accepted opCompJobCancel r s ∧ r.u8 0 ≠ 255 ∧ (s.comp.queues.flatMap
      (·.2)).find? (fun x => x.ref.mb == r.u8 0 && x.ref.hostSeq.toNat == r.u32 4) = some j) ∧
    (∃ (s : State) (r : Req) (j : Job), Accepted opCompJobCancel r s ∧ r.u8 0 ≠ 255 ∧ (s.comp.queues.flatMap
      (·.2)).find? (fun x => x.ref.mb == r.u8 0 && x.ref.hostSeq.toNat == r.u32 4) = none ∧ (s.comp.running.filterMap
      (·.2)).find? (fun x => x.ref.mb == r.u8 0 && x.ref.hostSeq.toNat == r.u32 4) = some j) ∧
    (∃ (s : State) (u : Fin 3) (j : Job) (js : List Job), s.Inv ∧ s.jobRunning u = none ∧ s.jobQueue u = j :: js ∧
      s.inReset 10 u = false) ∧
    (∃ (s : State) (u : Fin 3) (j : Job) (_host : Bytes), s.Inv ∧ s.jobRunning u = some j ∧ j.unit = u ∧ s.inReset 10
      u = false ∧ s.chip.pcieUp = true ∧ j.cancelled = false ∧ s.flt.upsets = []) ∧
    (∃ (s : State) (u : Fin 3) (j : Job) (_host : Bytes), s.Inv ∧ s.NoResets ∧ s.jobRunning u = some j ∧ j.unit = u ∧
      s.inReset 10 u = false ∧ s.chip.pcieUp = true ∧ j.cancelled = false) ∧
    (∃ (s : State) (u : Fin 3) (j : Job) (_host : Bytes), s.Inv ∧ s.NoResets ∧ s.jobRunning u = some j ∧ j.unit = u ∧
      s.inReset 10 u = false ∧ s.chip.pcieUp = true ∧ j.cancelled = true) ∧
    (∃ (s : State) (n : Fin 1024), s.Inv ∧ s.fwRuns = true ∧ (s.cstream n).enable = true ∧ (s.cstream n).mode = 2) := 
  ⟨⟨cstreamAt { mode := 1, orig := 5 }, rq (by_ [255, 3, 1, 2, 3, 15, 0, 16]), acc_ok (by decide +kernel)⟩,
     ⟨cstreamAt { enable := true, mode := 2, active := 1, comp := 7, orig := 5, orders := [1, 2, 3, 4] }, rq (by_ [255, 3,
      1, 0]), acc_ok (by decide +kernel)⟩,
     ⟨hub, rq (jobPay 255), acc_ok (by decide +kernel), by decide +kernel⟩,
     ⟨stopHub { job1 with base := 2, uncorr := 9 }, rq (by_ [0, 0, 0, 0, 0, 0, 2, 0] ++ zeros 4 ++ le 4 63 ++ zeros 16 ++
      le 8 0x3000 ++ le 8 50), { job1 with base := 2, uncorr := 9 }, acc_ok (by decide +kernel), by decide +kernel⟩,
     ⟨queuedJob, jobName, job1, acc_ok (by decide +kernel), by decide +kernel⟩,
     ⟨runningJob job1, jobName, job1, acc_ok (by decide +kernel), by decide +kernel⟩,
     ⟨stopHub job1, jobName, job1, acc_ok (by decide +kernel), by decide +kernel⟩,
     ⟨stopHub job1, rq (by_ [255, 0, 0, 0, 63, 0, 0, 0]), acc_ok (by decide +kernel), by decide +kernel⟩,
     ⟨queuedJob, jobName, job1, acc_ok (by decide +kernel), by decide +kernel⟩,
     ⟨runningJob job1, jobName, job1, acc_ok (by decide +kernel), by decide +kernel⟩,
     ⟨queuedJob, 2, job1, [], inv_ok (by decide +kernel), by decide +kernel⟩,
     ⟨runningJob job1, 2, job1, [7, 8, 9, 10], inv_ok (by decide +kernel), by decide +kernel⟩,
     ⟨calm (runningJob job1), 2, job1, [7, 8, 9, 10], inv_ok (by decide +kernel), noResets_ok (by decide +kernel),
      by decide +kernel⟩,
     ⟨calm (runningJob { job1 with cancelled := true }), 2, { job1 with cancelled := true }, [7, 8, 9, 10], inv_ok
      (by decide +kernel), noResets_ok (by decide +kernel), by decide +kernel⟩,
     ⟨{ cstreamAt { enable := true, mode := 2, recent := [(5, 1000, 10), (1000000000, 100, 98)] } with tick := 1000000005 },
      1023, inv_ok (by decide +kernel), by decide +kernel⟩⟩

/-- The hypotheses of Obligations.StreamsQueueFlushAndCommit can be met. -/
theorem witness_StreamsQueueFlushAndCommit :
    (∃ (s : State) (r : Req), Accepted opStreamConfig r s) ∧
    (∃ (s : State) (r : Req), Accepted opStreamStatus r s) ∧
    (∃ (s : State) (r : Req), Accepted opStreamWatermark r s) ∧
    (∃ (s : State) (r : Req), Accepted opStreamFlush r s ∧ bit (r.u8 2) 0 = false) ∧
    (∃ (s : State) (r : Req), Accepted opStreamFlush r s ∧ bit (r.u8 2) 0 = true) ∧
    (∃ (s : State) (n : Fin 1024) (p : Packet) (ps : List Packet), s.Inv ∧ (s.stream n).opened = p :: ps ∧ p.closed =
      true ∧ p.eos = false ∧ ((s.cstream n).enable = true → p.coded = p.count ∧ p.buffers = []) ∧ (s.stream n).live =
      true ∧ s.inReset 11 0 = false ∧ s.chip.phase = .serving) ∧
    (∃ (s : State) (n : Fin 1024) (p : Packet), s.Inv ∧ (s.stream n).opened = [p] ∧ p.closed = true ∧ p.eos = true ∧
      s.fed n = true ∧ (s.stream n).credits ≠ 0 ∧ (s.stream n).live = true ∧ s.inReset 11 0 = false ∧ s.chip.phase =
      .serving) ∧
    (∃ (s : State) (n : Fin 1024) (p : Packet), s.Inv ∧ s.NoResets ∧ (s.stream n).opened = [p] ∧ p.closed = true ∧
      p.eos = true ∧ s.fed n = true ∧ (s.stream n).credits = 0 ∧ (s.stream n).live = true ∧ s.inReset 11 0 = false ∧
      s.chip.phase = .serving) ∧
    (∃ (s : State) (n : Fin 1024) (i : Nat) (p : Packet) (k : Nat), s.Inv ∧ (s.cstream n).enable = true ∧ codable
      (s.cstream n).block 0 (s.stream n).opened = some i ∧ (s.stream n).opened[i]? = some p ∧ (s.stream n).placeC =
      some k ∧ s.inReset 9 k = false ∧ (s.stream n).live = true ∧ (s.strm.coded.filter fun x => x.1 == k).length < 2) ∧
    (∃ (s : State) (k n i : Nat) (p : Packet) (b : Bytes) (bs : List Bytes), s.Inv ∧ s.inReset 11 0 = false ∧
      s.chip.phase = .serving ∧ s.nextCompressor = some k ∧ s.strm.coded.find? (fun x => x.1 == k) = some (k, n) ∧
      waitingPacket (s.stream n).opened = some i ∧ (s.stream n).opened[i]? = some p ∧ p.buffers = b :: bs ∧ (64 +
      p.moved.length + ((b.drop p.movedHere).take 256).length + 4095) / 4096 ≤ p.pages + (s.stream n).credits) ∧
    (∃ (s : State), s.Inv ∧ s.strm.coded = []) := 
  ⟨⟨{ hub with strm := { streams := [(1023, { state := .idle, credits := 4, high := 9 })] } }, rq (by_ [255, 3, 0, 32,
      255, 255, 0, 0]), acc_ok (by decide +kernel)⟩,
     ⟨strmAt active1, rq (by_ [255, 3, 0, 0]), acc_ok (by decide +kernel)⟩,
     ⟨strmAt active1, rq (by_ [255, 3, 20, 0, 19, 0, 0, 0]), acc_ok (by decide +kernel)⟩,
     ⟨strmAt { active1 with opened := [pack2 1 true, pack2 1 false] }, rq (by_ [255, 3, 0, 0]), acc_ok
      (by decide +kernel), by decide +kernel⟩,
     ⟨strmAt active1, rq (by_ [255, 3, 1, 0]), acc_ok (by decide +kernel), by decide +kernel⟩,
     ⟨strmAt { active1 with opened := [pack2 1 true, pack2 1 false], discOwed := true }, 1023, pack2 1 true, [pack2 1
      false], inv_ok (by decide +kernel), by decide +kernel⟩,
     ⟨strmAt { active1 with opened := [last1], state := .closing }, 1023, last1, inv_ok (by decide +kernel),
      by decide +kernel⟩,
     ⟨calm (strmAt { active1 with opened := [last1], state := .closing, credits := 0 }), 1023, last1, inv_ok
      (by decide +kernel), noResets_ok (by decide +kernel), by decide +kernel⟩,
     ⟨comp1 three, 1023, 0, three, 15, inv_ok (by decide +kernel), by decide +kernel⟩,
     ⟨blockedHub blocked, 15, 1023, 0, blocked, List.replicate 256 5, [[6]], inv_ok (by decide +kernel),
      by decide +kernel⟩,
     ⟨hub, inv_ok (by decide +kernel), by decide +kernel⟩⟩

/-- The hypotheses of Obligations.PortsAreFormedAddressedAndComeUpOrDown can be met. -/
theorem witness_PortsAreFormedAddressedAndComeUpOrDown :
    (∃ (s : State) (r : Req), Accepted opUplGroupConfig r s) ∧
    (∃ (s : State) (r : Req), Accepted opUplPortAddr r s) ∧
    (∃ (s : State) (r : Req), Accepted opUplDestWrite r s) ∧
    (∃ (s : State) (r : Req), Accepted opUplStreamMap r s) ∧
    (∃ (s : State) (r : Req), Accepted opUplPortControl r s ∧ r.u8 1 = 0) ∧
    (∃ (s : State) (r : Req), Accepted opUplPortControl r s ∧ r.u8 1 = 1 ∧ (s.port (r.u8 0)).state ≠ .up) ∧
    (∃ (s : State) (r : Req), Accepted opUplPortControl r s ∧ s.NoResets ∧ r.u8 1 = 1 ∧ (s.port (r.u8 0)).state =
      .up) ∧
    (∃ (s : State) (r : Req), Accepted opUplPortStatus r s) ∧
    (∃ (s : State) (p : Fin 48), s.Inv ∧ (s.port p).state = .down ∧ (∀ l ∈ (s.port p).lanes, (s.lane l).aligned =
      true) ∧ s.portReeq p = false ∧ s.inReset 12 p = false ∧ (s.port p).goodTick + 1000000 ≤ s.tick) ∧
    (∃ (s : State) (p : Fin 48) (_cause : PortCause), s.Inv ∧ s.NoResets ∧ (s.port p).state = .up) ∧
    (∃ (s : State) (p : Fin 48) (_cause : PortCause), s.Inv ∧ (s.port p).state ≠ .up) ∧
    (∃ (s : State) (p : Fin 48) (_f : Bytes), s.Inv ∧ (s.port p).state = .up) ∧
    (∃ (s : State) (p : Fin 48) (f : Bytes), s.Inv ∧ (s.port p).state = .up ∧ ofBe (sub f 12 2) = 0x8808) ∧
    (∃ (s : State) (p : Fin 48) (f : Bytes), s.Inv ∧ (s.port p).state = .up ∧ rxKind (s.port p) f = .other) ∧
    (∃ (s : State) (p : Fin 48) (f : Bytes), s.Inv ∧ (s.port p).state = .up ∧ rxKind (s.port p) f = .firmware ∧
      s.chip.phase = .serving) ∧
    (∃ (s : State) (p : Fin 48) (f m : Bytes), s.Inv ∧ (s.port p).state = .up ∧ rxKind (s.port p) f = .trigger m ∧
      s.chip.phase = .serving) := 
  ⟨⟨groupHub 4, rq (by_ [1, 1, 0, 0, 39, 255, 255, 255, 255, 255, 0, 0]), acc_ok (by decide +kernel)⟩,
     ⟨portAt { state := .down }, rq (by_ [47, 7, 2, 3, 4, 5, 6, 7, 10, 0, 0, 1] ++ List.replicate 16 9), acc_ok
      (by decide +kernel)⟩,
     ⟨{ hub with upl := { announce := some 255 } }, rq (by_ [255, 1, 0, 0, 0, 8] ++ zeros 74), acc_ok (by decide +kernel)⟩,
     ⟨{ hub with strm := { streams := [(1023, { state := .idle, pages := 5 })] } }, rq (by_ [255, 3, 2, 9, 23, 255, 0,
      0]), acc_ok (by decide +kernel)⟩,
     ⟨portAt { state := .disabled }, rq (by_ [47, 0, 0, 0]), acc_ok (by decide +kernel), by decide +kernel⟩,
     ⟨portAt { state := .down, remoteTx := true }, rq (by_ [47, 1, 1, 0]), acc_ok (by decide +kernel), by decide +kernel⟩,
     ⟨calm (portAt { state := .up }), rq (by_ [47, 1, 1, 0]), acc_ok (by decide +kernel), noResets_ok (by decide +kernel),
      by decide +kernel⟩,
     ⟨portAt { state := .up, frames := 5, fcs := 6, remoteFault := true }, rq (by_ [47, 1, 0, 0]), acc_ok
      (by decide +kernel)⟩,
     ⟨{ portAt { state := .down, goodTick := 5, remoteTx := true, localFault := true } with tick := 1000005 }, 47, inv_ok
      (by decide +kernel), by decide +kernel⟩,
     ⟨calm (portAt { state := .up }), 47, .remoteFault, inv_ok (by decide +kernel), noResets_ok (by decide +kernel),
      by decide +kernel⟩,
     ⟨portAt { state := .disabled }, 47, .localFault, inv_ok (by decide +kernel), by decide +kernel⟩,
     ⟨portAt { state := .up, fcs := 0xFFFFFFFF }, 47, [1], inv_ok (by decide +kernel), by decide +kernel⟩,
     ⟨portAt { state := .up }, 47, zeros 12 ++ by_ [0x88, 8], inv_ok (by decide +kernel), by decide +kernel⟩,
     ⟨portAt { state := .up }, 47, zeros 12 ++ by_ [0x88, 9], inv_ok (by decide +kernel), by decide +kernel⟩,
     ⟨portAt arpPort, 47, arpFrame, inv_ok (by decide +kernel), by decide +kernel⟩,
     ⟨portAt arpPort, 47, trigFrame, by_ [5, 6], inv_ok (by decide +kernel), by decide +kernel⟩⟩

/-- The hypotheses of Obligations.PortsSendControlFramesAndPackets can be met. -/
theorem witness_PortsSendControlFramesAndPackets :
    (∃ (s : State) (p : Fin 48) (f : Bytes), s.Inv ∧ s.fwRuns = true ∧ (s.port p).state = .up ∧ s.chip.phase =
      .serving ∧ f.length ≤ 232) ∧
    (∃ (s : State) (_p : Fin 48) (f : Bytes), s.Inv ∧ 232 < f.length) ∧
    (∃ (s : State) (p : Fin 48) (f : Bytes) (fs : List Bytes), s.Inv ∧ s.mayStart p = true ∧ (s.port p).control = f
      :: fs ∧ ((s.port p).lastControl && s.dataWaits p) = false) ∧
    (∃ (s : State) (p : Fin 48) (o n : Nat) (c : Committed), s.Inv ∧ s.mayStart p = true ∧ ((s.port p).control = [] ∨
      (s.port p).lastControl = true) ∧ firstCommitted (s.waitingOn p) = some (o, n, c) ∧ (∀ d ∈ (s.port p).dumps.take
      1, o < d.1)) ∧
    (∃ (s : State) (p : Fin 48) (o : Nat) (d : Bytes) (ds : List (Nat × Bytes)), s.Inv ∧ s.mayStart p = true ∧
      ((s.port p).control = [] ∨ (s.port p).lastControl = true) ∧ (s.port p).dumps = (o, d) :: ds ∧ (∀ x ∈
      s.waitingOn p, o ≤ x.1)) ∧
    (∃ (s : State) (p : Fin 48), s.Inv ∧ (s.mayStart p = false ∨ (s.port p).control = [] ∧ s.dataWaits p = false)) ∧
    (∃ (s : State) (p : Fin 48) (f : Bytes), s.Inv ∧ ((s.port p).sending = some (.control f) ∨ (s.port p).sending =
      some (.dump f))) ∧
    (∃ (s : State) (p : Fin 48) (n : Nat), s.Inv ∧ (s.port p).sending = some (.message n)) ∧
    (∃ (s : State) (p : Fin 48) (n seq left : Nat) (f : Bytes), s.Inv ∧ (s.port p).sending = some (.packet n seq left
      f)) := 
  ⟨⟨portAt { state := .up, control := [[1]] }, 47, List.replicate 232 3, inv_ok (by decide +kernel), by decide +kernel⟩,
     ⟨portAt { state := .up }, 47, List.replicate 233 3, inv_ok (by decide +kernel), by decide +kernel⟩,
     ⟨portAt { state := .up, control := [[1], [2]], lastControl := true }, 47, [1], [[2]], inv_ok (by decide +kernel),
      by decide +kernel⟩,
     ⟨sendHub { lastControl := true, control := [[3]], dumps := [(6, [1])] } out1, 3, 5, 1023, out1, inv_ok
      (by decide +kernel), by decide +kernel⟩,
     ⟨sendHub { dumps := [(4, [1]), (9, [2])] } out1, 3, 4, [1], [(9, [2])], inv_ok (by decide +kernel),
      by decide +kernel⟩,
     ⟨portAt { state := .up }, 47, inv_ok (by decide +kernel), by decide +kernel⟩,
     ⟨portAt { state := .up, sending := some (.control [1, 2]), bytes := 7 }, 47, [1, 2], inv_ok (by decide +kernel),
      by decide +kernel⟩,
     ⟨portAt { state := .up, sending := some (.message 64), bytes := 7 }, 47, 64, inv_ok (by decide +kernel),
      by decide +kernel⟩,
     ⟨sendHub { sending := some (.packet 1023 7 1 [5, 6]) } { out1 with leftA := 1, begunA := true }, 3, 1023, 7, 1, [5,
      6], inv_ok (by decide +kernel), by decide +kernel⟩⟩

/-- The hypotheses of Obligations.FaultsAreNotedAndTheirReactionsAct can be met. -/
theorem witness_FaultsAreNotedAndTheirReactionsAct :
    (∃ (s : State) (b : Fin 17) (n : Fin 64) (u : Nat) (_m : MemRead), s.Inv ∧ Quietly b n u s ∧ sourceExists b n =
      true ∧ lineRegion b n = none ∧ (b.val, n.val) ∉ [(1, 1), (7, 0), (8, 0), (11, 0), (11, 1), (12, 1), (14, 2),
      (16, 0)]) ∧
    (∃ (s : State) (b : Fin 17) (n : Fin 64) (_u : Nat) (_m : MemRead) (g : Fin 6), s.Inv ∧ s.NoResets ∧ sourceExists
      b n = true ∧ s.faultsHeld = false ∧ lineRegion b n = some g) ∧
    (∃ (s : State) (b : Fin 17) (n : Fin 64) (u : Nat) (_m : MemRead), s.Inv ∧ s.NoResets ∧ s.faultsHeld = false ∧
      s.gated b n u = false ∧ (b.val, n.val) ∈ [(7, 0), (8, 0), (11, 0), (11, 1), (12, 1), (14, 2), (16, 0)]) ∧
    (∃ (s : State) (e : CalEntry) (_m : MemRead), s.Inv ∧ s.NoResets ∧ s.OneDue e ∧ s.faultsHeld = false) ∧
    (∃ (s : State) (n : Fin 64) (u : Nat) (_m : MemRead), s.Inv ∧ sourceExists 7 n = true ∧ s.faultsHeld = false ∧
      s.gated 7 n u = false ∧ s.mayReset = true ∧ (s.blk 7).sticky.getLsbD n = false ∧ resetField (s.reaction 7 n) =
      1 ∧ s.inReset 7 0 = false) ∧
    (∃ (s : State) (b : Fin 17) (n : Fin 64) (u : Nat) (_m : MemRead), s.Inv ∧ sourceExists b n = true ∧ lineRegion b
      n = none ∧ (b.val, n.val) ∉ [(1, 1), (11, 0)] ∧ (b = 3 → n = 3 → s.chip.dspLocked = true) ∧ s.gated b n u =
      false ∧ s.mayReset = true ∧ (s.blk b).sticky.getLsbD n = false ∧ resetField (s.reaction b n) = 2) ∧
    (∃ (s : State) (b : Fin 17) (u : Nat), s.Inv ∧ s.NoResets ∧ u ∈ (s.blk b).inReset ∧ u ≠ dspUnit ∧ u ∉ (s.blk
      b).held) ∧
    (∃ (s : State) (b : Fin 17) (u : Nat), s.Inv ∧ s.NoResets ∧ u ∈ (s.blk b).inReset ∧ u ≠ dspUnit ∧ u ∈ (s.blk
      b).held) ∧
    (∃ (s : State) (b : Fin 17) (u : Nat), s.Inv ∧ (u ∉ (s.blk b).inReset ∨ u = dspUnit)) ∧
    (∃ (s : State) (_b : Fin 17) (_u : Nat), s.Inv) := 
  ⟨⟨fltHub {}, 7, 63, 0, noRead, inv_ok (by decide +kernel), quiet_ok (by decide +kernel), by decide +kernel⟩,
     ⟨calm hub, 14, 1, 1, oneRead, 1, inv_ok (by decide +kernel), noResets_ok (by decide +kernel), by decide +kernel⟩,
     ⟨calm hub, 7, 0, 15, noRead, inv_ok (by decide +kernel), noResets_ok (by decide +kernel), by decide +kernel⟩,
     ⟨calm { hub with cal := { entries := [eTune0], nextIns := 5 } }, eTune0, noRead, inv_ok (by decide +kernel),
      noResets_ok (by decide +kernel), oneDue_ok (by decide +kernel), by decide +kernel⟩,
     ⟨fltHub { react := [(0, 0x15)], gates := [] }, 0, 0, noRead, inv_ok (by decide +kernel), by decide +kernel⟩,
     ⟨fltHub { react := [(0, 0x25)] }, 7, 0, 3, noRead, inv_ok (by decide +kernel), by decide +kernel⟩,
     ⟨calm7 { inReset := [0], gates := [{ unit := 0, feeds := [] }] } 7, 7, 0, inv_ok (by decide +kernel), noResets_ok
      (by decide +kernel), by decide +kernel⟩,
     ⟨calm7 { inReset := [0], held := [0], gates := [{ unit := 0, feeds := [] }] } 7, 7, 0, inv_ok (by decide +kernel),
      noResets_ok (by decide +kernel), by decide +kernel⟩,
     ⟨hub, 7, 0, inv_ok (by decide +kernel), by decide +kernel⟩,
     ⟨{ fltHub { gates := [{ unit := 0, feeds := [], left := some 5 }] } with tick := 261 }, 7, 0, inv_ok
      (by decide +kernel)⟩⟩

/-- The hypotheses of Obligations.FaultOpcodesReadClearSetAndInject can be met. -/
theorem witness_FaultOpcodesReadClearSetAndInject :
    (∃ (s : State) (r : Req), Accepted opFltRead r s) ∧
    (∃ (s : State) (r : Req), Accepted opFltClear r s ∧ s.NothingPersists) ∧
    (∃ (s : State) (r : Req), Accepted opFltClear r s ∧ s.NoResets) ∧
    (∃ (s : State) (r : Req), Accepted opFltReactSet r s) ∧
    (∃ (s : State) (r : Req), Accepted opFltLock r s) ∧
    (∃ (s : State) (r : Req), Accepted opFltBlockRelease r s ∧ s.NoResets) ∧
    (∃ (s : State) (r : Req), Accepted opUncorrRead r s) ∧
    (∃ (s : State) (r : Req), Accepted opFltRecordRead r s) ∧
    (∃ (s : State) (r : Req), Accepted opFltInject r s ∧ Quietly (r.u8 0) (r.u8 1) (r.u16 2) s ∧ r.u8 1 ≠ 0xFF) ∧
    (∃ (s : State) (r : Req), Accepted opFltInject r s ∧ r.u8 1 = 0xFF) := 
  ⟨⟨fltHub { sticky := 4, firstUnit := 9, firstSrc := 2, firstValid := true, events := [(5, 2, 9)], inReset := [0] }, rq
      (by_ [7, 0, 0, 0]), acc_ok (by decide +kernel)⟩,
     ⟨fltHub { sticky := 4, firstUnit := 9, firstSrc := 2, firstValid := true }, rq (by_ [7, 0, 0, 0, 0, 0, 0, 0] ++ le 8
      5), acc_ok (by decide +kernel), nothing_ok (by decide +kernel)⟩,
     ⟨{ calm7 {} 7 with time := { hub.time with refLost := true } }, rq (by_ [0, 0, 0, 0, 0, 0, 0, 0] ++ le 8 8), acc_ok
      (by decide +kernel), noResets_ok (by decide +kernel)⟩,
     ⟨hub, rq (by_ [7, 0, 0x17, 0]), acc_ok (by decide +kernel)⟩,
     ⟨hub, rq [], acc_ok (by decide +kernel)⟩,
     ⟨calm7 { held := [0], gates := [{ unit := 0, feeds := [] }] } 7, rq (by_ [7, 0, 0, 0]), acc_ok (by decide +kernel),
      noResets_ok (by decide +kernel)⟩,
     ⟨{ hub with flt := { logs := [(5, List.replicate 3 ⟨77, ⟨5, 6, 7, 8, 9⟩, false⟩)], corrected := [(5, 8)], outer := [(5, 3)] } },
      rq (by_ [5, 2, 1, 0]), acc_ok (by decide +kernel)⟩,
     ⟨{ hub with flt := { record := { cause := 2, block := 7, copies := [(5, (1, 2))] } } }, rq [], acc_ok
      (by decide +kernel)⟩,
     ⟨{ hub with chip := { hub.chip with testMode := true }, boot := { unlocked := true } }, rq (by_ [7, 0, 5, 0]), acc_ok
      (by decide +kernel), quiet_ok (by decide +kernel), by decide +kernel⟩,
     ⟨{ hub with chip := { hub.chip with testMode := true }, boot := { unlocked := true } }, rq (by_ [7, 255, 5, 0]),
      acc_ok (by decide +kernel), by decide +kernel⟩⟩

/-- The hypotheses of Obligations.IslandBootsRunsAndFails can be met. -/
theorem witness_IslandBootsRunsAndFails :
    (∃ (s : State) (_t _c : W16), s.Inv ∧ s.island.state = .off) ∧
    (∃ (s : State), s.Inv ∧ s.island.state = .boot ∧ wordOk s.island.swT s.island.swC = true) ∧
    (∃ (s : State), s.Inv ∧ s.island.state = .boot ∧ wordOk s.island.swT s.island.swC = false) ∧
    (∃ (s : State), s.Inv ∧ s.island.state = .boot) ∧
    (∃ (s : State), s.Inv ∧ s.island.state = .boot ∧ s.island.bootTick + 50000000 ≤ s.tick) ∧
    (∃ (s : State), s.Inv ∧ s.island.state = .boot ∧ s.tick < s.island.bootTick + 50000000) ∧
    (∃ (s : State), s.Inv) ∧
    (∃ (s : State) (t c : W16), s.Inv ∧ s.island.state = .run ∧ (t ≠ s.island.word ∨ c ≠ ~~~s.island.word)) ∧
    (∃ (s : State), s.Inv ∧ s.island.state = .run) ∧
    (∃ (s : State) (n : Fin 4), s.Inv ∧ s.island.state = .run ∧ s.island.sout.getLsbD n = true) ∧
    (∃ (s : State) (n : Fin 4) (seen : Bool), s.Inv ∧ (seen = true ∨ s.island.state ≠ .run ∨ s.island.sout.getLsbD n
      = false)) := 
  ⟨⟨islHub { status := 5, presses := 3 }, 0x7124, 0x8EDB, inv_ok (by decide +kernel), by decide +kernel⟩,
     ⟨islHub { state := .boot, swT := 0x7124, swC := 0x8EDB }, inv_ok (by decide +kernel), by decide +kernel⟩,
     ⟨islHub { state := .boot, swT := 0x7125, swC := 0x8EDB }, inv_ok (by decide +kernel), by decide +kernel⟩,
     ⟨islHub { state := .boot, swT := 0x7125, swC := 0x8EDB }, inv_ok (by decide +kernel), by decide +kernel⟩,
     ⟨islHub { state := .boot, bootTick := 4950000000 }, inv_ok (by decide +kernel), by decide +kernel⟩,
     ⟨islHub { state := .boot, bootTick := 4950000001 }, inv_ok (by decide +kernel), by decide +kernel⟩,
     ⟨islHub (runI { sout := 15 }), inv_ok (by decide +kernel)⟩,
     ⟨islHub (runI { sout := 15 }), 0x7124, 0x8EDA, inv_ok (by decide +kernel), by decide +kernel⟩,
     ⟨islHub (runI { sout := 15 }), inv_ok (by decide +kernel), by decide +kernel⟩,
     ⟨islHub (runI { sout := 8 }), 3, inv_ok (by decide +kernel), by decide +kernel⟩,
     ⟨islHub (runI { sout := 8 }), 3, true, inv_ok (by decide +kernel), by decide +kernel⟩⟩

/-- The hypotheses of Obligations.IslandInputsAndPressesAreJudged can be met. -/
theorem witness_IslandInputsAndPressesAreJudged :
    (∃ (s : State) (p : Fin 8) (_ok : Bool) (_stuck _low : W16), s.Inv ∧ s.island.state = .run ∧ s.island.tpoUsed p =
      true ∧ s.island.inPulse p 2500000 s.tick = true) ∧
    (∃ (s : State) (p : Fin 8) (_ok : Bool) (_stuck _low : W16), s.Inv ∧ s.island.state = .run ∧ s.island.tpoUsed p =
      false) ∧
    (∃ (s : State) (p : Fin 8) (_ok : Bool) (_stuck _low : W16), s.Inv ∧ (s.island.state ≠ .run ∨ s.island.tpoUsed p
      = true ∧ s.island.inPulse p 2500000 s.tick = false)) ∧
    (∃ (s : State) (n : Fin 16) (b : Bool) (samples : List Bool), s.Inv ∧ s.island.state = .run ∧
      (let k := if s.island.func (n / 2) = some .curtain ∧ b = false then s.island.tolerance + 1 else 30
       (s.island.kept n s.tick samples).take k = List.replicate k b)) ∧
    (∃ (s : State) (n : Fin 16) (samples : List Bool), s.Inv ∧ (s.island.state ≠ .run ∨ s.island.recognised n s.tick
      samples = none)) ∧
    (∃ (s : State) (p : Fin 8), s.Inv ∧ s.island.state = .run ∧ 0 < tget 0 s.island.disagree p ∧ tget 0
      s.island.disagree p - 1 + s.island.discrepancyTime < s.tick) ∧
    (∃ (s : State) (p : Fin 8), s.Inv ∧ s.island.state = .run ∧ 0 < tget 0 s.island.disagree p ∧ s.tick ≤ tget 0
      s.island.disagree p - 1 + s.island.discrepancyTime) ∧
    (∃ (s : State) (k : Nat), s.Inv ∧ s.island.state = .run ∧ s.island.thOpen = true ∧ s.island.thOnset = some k ∧ k
      + 500000000 < s.tick ∧ s.island.allButtons false = true ∧ s.island.allButtons true = false ∧ s.island.thStarted
      = false) ∧
    (∃ (s : State) (k : Nat), s.Inv ∧ s.island.state = .run ∧ s.island.pressSince = some k ∧ k + 100000000 ≤ s.tick ∧
      s.tick < k + 3000000000) ∧
    (∃ (s : State) (k : Nat), s.Inv ∧ s.island.state = .run ∧ s.island.pressSince = some k ∧ (s.tick < k + 100000000
      ∨ k + 3000000000 ≤ s.tick)) ∧
    (∃ (s : State), s.Inv ∧ s.island.state = .run ∧ s.island.pressSince = none) ∧
    (∃ (s : State) (k : Nat), s.Inv ∧ s.island.state = .run ∧ s.island.pressSince = some k ∧ k + 3000000000 ≤ s.tick) := 
  ⟨⟨islHub (runI { sin := 15, cycleTick := 4992500000 }), 3, false, 8, 1, inv_ok (by decide +kernel), by decide +kernel⟩,
     ⟨islHub { runI {} with word := 0x8008 }, 7, false, 8, 1, inv_ok (by decide +kernel), by decide +kernel⟩,
     ⟨islHub (runI { sin := 15, cycleTick := 4990000000 }), 3, false, 8, 1, inv_ok (by decide +kernel), by decide +kernel⟩,
     ⟨islHub (runI { sin := 15, cycleTick := 4986000000 }), 15, true, List.replicate 30 true ++ [false], inv_ok
      (by decide +kernel), by decide +kernel⟩,
     ⟨islHub (runI { sin := 0x3F, cycleTick := 4986000000 }), 5, List.replicate 10 false ++ [true], inv_ok
      (by decide +kernel), by decide +kernel⟩,
     ⟨islHub (runI { sin := 1, disagree := [(0, 4700000000)] }), 0, inv_ok (by decide +kernel), by decide +kernel⟩,
     ⟨islHub (runI { sin := 1, disagree := [(0, 4700000001)] }), 0, inv_ok (by decide +kernel), by decide +kernel⟩,
     ⟨islHub { runI { sin := 0x17, thOpen := true, thOnset := some 4499999999 } with word := 0x8008 }, 4499999999, inv_ok
      (by decide +kernel), by decide +kernel⟩,
     ⟨islHub (runI { pressSince := some 4900000000, presses := 9, resetStuck := true, openSeen := 1, discrepancy := 3 }),
      4900000000, inv_ok (by decide +kernel), by decide +kernel⟩,
     ⟨islHub (runI { pressSince := some 4900000001, presses := 9, resetStuck := true, openSeen := 1, discrepancy := 3 }),
      4900000001, inv_ok (by decide +kernel), by decide +kernel⟩,
     ⟨islHub (runI {}), inv_ok (by decide +kernel), by decide +kernel⟩,
     ⟨islHub (runI { pressSince := some 2000000000 }), 2000000000, inv_ok (by decide +kernel), by decide +kernel⟩⟩

/-- The hypotheses of Obligations.OutputsFollowReadyAndTheFunctions can be met. -/
theorem witness_OutputsFollowReadyAndTheFunctions :
    (∃ (s : State) (_srb : BitVec 4) (_b : Bool), s.Inv ∧ s.island.state = .run) ∧
    (∃ (s : State) (_srb : BitVec 4) (_b : Bool), s.Inv ∧ s.island.state ≠ .run) ∧
    (∃ (s : State) (_srb : BitVec 4) (_b : Bool) (y : Bool), s.Inv ∧ s.island.state = .run ∧ s.island.pressSince =
      none ∧ s.island.ready y = false) ∧
    (∃ (s : State) (n : Fin 4), s.Inv ∧ s.island.state = .run ∧ n.val ∈ s.island.checked ∧ tget 0 s.island.soutSince
      n + 10000000 ≤ s.tick ∧ s.island.srb.getLsbD n = s.island.sout.getLsbD n) ∧
    (∃ (s : State) (n : Fin 4), s.Inv ∧ s.island.srb.getLsbD n = !s.island.sout.getLsbD n) := 
  ⟨⟨islHub goI, 15, true, inv_ok (by decide +kernel), by decide +kernel⟩,
     ⟨islHub { state := .lockout }, 5, true, inv_ok (by decide +kernel), by decide +kernel⟩,
     ⟨islHub { goI with readyX := false }, 15, true, false, inv_ok (by decide +kernel), by decide +kernel⟩,
     ⟨islHub { goI with sout := 3, srb := 14, soutSince := [(1, 4990000000)] }, 1, inv_ok (by decide +kernel),
      by decide +kernel⟩,
     ⟨islHub { goI with sout := 3, srb := 12 }, 1, inv_ok (by decide +kernel), by decide +kernel⟩⟩

/-- The hypotheses of Obligations.IslandStatusIsReportedAndSealed can be met. -/
theorem witness_IslandStatusIsReportedAndSealed :
    (∃ (s : State), s.Inv ∧ s.coreUp = true ∧ s.island.state ≠ .off ∧ s.island.word64 ≠ s.island.status) ∧
    (∃ (s : State), s.Inv ∧ (s.coreUp = false ∨ s.island.state = .off)) ∧
    (∃ (s : State), s.Inv ∧ s.coreUp = true ∧ s.island.state ≠ .off ∧ s.island.word64 = s.island.status) ∧
    (∃ (s : State), s.Inv ∧ s.coreUp = true ∧ s.island.status.getLsbD 3 = true ∧ s.island.statusTick + 1000 ≤ s.tick) ∧
    (∃ (s : State), s.Inv ∧ s.tick < s.island.statusTick + 1000) ∧
    (∃ (s : State) (r : Req), Accepted opSafeStatusRead r s) ∧
    (∃ (s : State) (r : Req), Accepted opSafeConfigRead r s) ∧
    (∃ (s : State) (r : Req), Accepted opSafeLogRead r s) ∧
    (∃ (s : State) (_k : Fin 64) (r : Req), s.Inv ∧ s.serves = true ∧ s.canTake r.mb.val = true ∧ s.chip.phase =
      .serving ∧ r.flags = 0 ∧ isZero r.time 0 10 = true) := 
  ⟨⟨islHub goI, inv_ok (by decide +kernel), by decide +kernel⟩,
     ⟨islHub {}, inv_ok (by decide +kernel), by decide +kernel⟩,
     ⟨islHub { goI with status := goI.word64 }, inv_ok (by decide +kernel), by decide +kernel⟩,
     ⟨islHub { goI with status := 15, log := List.replicate 64 (3, 4), statusTick := 4999999000 }, inv_ok
      (by decide +kernel), by decide +kernel⟩,
     ⟨islHub { goI with status := 15, statusTick := 4999999001 }, inv_ok (by decide +kernel), by decide +kernel⟩,
     ⟨islHub { goI with status := 15, presses := 4, overwritten := 7 }, rq [], acc_ok (by decide +kernel)⟩,
     ⟨islHub { goI with swT := 3 }, rq [], acc_ok (by decide +kernel)⟩,
     ⟨islHub { goI with log := [(3, 4), (5, 6), (7, 8)] }, rq (by_ [2, 0, 0, 0]), acc_ok (by decide +kernel)⟩,
     ⟨islHub goI, 63, rq [], inv_ok (by decide +kernel), by decide +kernel⟩⟩

/-- The hypotheses of Obligations.OutputsAreOffOutsideRun can be met. -/
theorem witness_OutputsAreOffOutsideRun :
    ∃ (s t : State) (i : Instr), (s.island.state ≠ .run → s.island.sout = 0) ∧ ((∃ a b, i = .safeIslandPowerUp a b) ∨
      (∃ a, i = .safeIslandBootDone a) ∨ i = .safeIslandBootTimeout ∨ i = .vddSafeLoss ∨ (∃ a b, i = .islandTick a b)
      ∨ (∃ a b c d, i = .testPulse a b c d) ∨ (∃ a b, i = .inputRecognised a b) ∨ (∃ a, i = .discrepancyTimeout a) ∨
      i = .twoHandTimeout ∨ i = .resetPressRelease ∨ i = .resetStuck ∨ (∃ a b, i = .configChange a b) ∨ (∃ a, i =
      .readbackTimeout a) ∨ (∃ a b, i = .outputTestPulse a b) ∨ i = .safeDiagFail ∨ i = .safeStatusUpdate ∨ i =
      .safeLiveTimeout ∨ (∃ a, i = .resetNAssert a) ∨ (∃ a, i = .vddCoreLoss a)) ∧ exec i s = .next t ∧
      t.island.state ≠ .run := 
  ⟨islHub goI, after safeDiagFail (islHub goI), .safeDiagFail, fun h => absurd (by decide +kernel) h, by simp, rfl,
    by decide +kernel⟩

/-- The hypotheses of Obligations.AStepRunsTheFrontCommand can be met. -/
theorem witness_AStepRunsTheFrontCommand :
    ∃ (s : State) (c : Instr) (rest : List Instr), s.pending = c :: rest := 
  ⟨{ hub with pending := [.twoHandTimeout] }, .twoHandTimeout, [], rfl⟩

/-- The hypotheses of Obligations.EveryStepKeepsTheInvariant can be met. -/
theorem witness_EveryStepKeepsTheInvariant :
    ∃ (s t : State), s.Inv ∧ step s = .next t := 
  ⟨{ hub with pending := [.twoHandTimeout] }, after twoHandTimeout hub, inv_ok (by decide +kernel), rfl⟩

/-- The hypotheses of Obligations.CommandsKeepTheQueueAndTheClock can be met. -/
theorem witness_CommandsKeepTheQueueAndTheClock :
    (∃ (i : Instr) (s t : State), exec i s = .next t) ∧
    (∃ (s : State), s.pending = [] ∧ s.hitsWait = false ∧ s.chip.rails.aon = true) ∧
    (∃ (s : State), s.pending = [] ∧ s.hitsWait = false ∧ s.chip.rails.aon = false) ∧
    (∃ (s : State), s.pending = []) := 
  ⟨⟨.calendarFire, hub, afterClock calendarFire hub, rfl⟩,
     ⟨hub, rfl, by decide +kernel⟩,
     ⟨{ hub with chip := { hub.chip with rails := { hub.chip.rails with aon := false } } }, rfl, by decide +kernel⟩,
     ⟨hub, rfl⟩⟩

/-- The hypotheses of Obligations.OnlyAnAbsentFaultSourceStops can be met. -/
theorem witness_OnlyAnAbsentFaultSourceStops :
    (∃ (b : Fin 17) (n : Fin 64) (_u : Nat) (_m : MemRead) (_s : State), sourceExists b n = false) ∧
    (∃ (i : Instr) (_s : State), (∀ b n u m, i = .faultDetect b n u m → sourceExists b.val n.val = true)) := 
  ⟨⟨7, 1, 0, noRead, hub, by decide +kernel⟩,
     ⟨.twoHandTimeout, hub, fun _ _ _ _ h => Instr.noConfusion h⟩⟩

/-- The hypotheses of Obligations.SafeIsLeftByResetOrPowerAlone can be met. -/
theorem witness_SafeIsLeftByResetOrPowerAlone :
    ∃ (s t : State) (i : Instr), s.chip.phase = .safe ∧ s.chip.rails.aon = true ∧ exec i s = .next t ∧ t.chip.phase ≠
      .safe := 
  ⟨{ hub with chip := { hub.chip with phase := .safe } }, after (resetNAssert 100)
    { hub with chip := { hub.chip with phase := .safe } }, .resetNAssert 100, by decide +kernel, by decide +kernel,
    rfl, by decide +kernel⟩

end Sys2Proof
end

