-- ==== Sys2Proof/Proofs/Replays.lean ====
section
/-! SUPPORT. A taken request that is answered and not executed: what taking it changes, what the answer changes, and
which frames of R55 are answered so. -/

namespace Sys2Proof.Machine

/-! ## A mailbox after a write -/

@[simp] theorem State.mb_setMb_self (s : State) (m : Nat) (b : Mailbox) : (s.setMb m b).mb m = b :=
  tget_tset_self ..

theorem State.mb_setMb_ne (s : State) {m k : Nat} (b : Mailbox) (h : k ≠ m) : (s.setMb m b).mb k = s.mb k :=
  tget_tset_ne _ _ _ _ _ h

/-! ## Taking the front request -/

/-- What a command has sent before does not matter to the request that is taken. -/
theorem takeFront_clearEmitted (m : Nat) (slot : Bytes) (s : State) :
    takeFront m slot { s with emitted := [] } =
      ((takeFront m slot s).1, { (takeFront m slot s).2 with emitted := [] }) := by
  unfold takeFront
  dsimp only
  split
  · rfl
  · split
    · rfl
    · split <;> rfl

/-- Taking a request moves the ring's consumer index, or leaves the mailboxes as they are (the SPI buffer, the datagram
queue). -/
theorem takeFront_cases (m : Nat) (slot : Bytes) (s : State) :
    (takeFront m slot s).2 =
        ({ s with hcp := { s.hcp with served := m } } : State).setMb m { s.mb m with reqCi := (s.mb m).reqCi + 1 } ∨
      ∃ h : Hcp, (takeFront m slot s).2 = { s with hcp := h } ∧ h.mbs = s.hcp.mbs := by
  unfold takeFront
  dsimp only
  split
  · exact .inl rfl
  · right
    split
    · exact ⟨_, rfl, rfl⟩
    · split <;> exact ⟨_, rfl, rfl⟩

/-- A request is taken from the host interface alone. -/
theorem takeFront_eq (m : Nat) (slot : Bytes) (s : State) :
    (takeFront m slot s).2 = { s with hcp := (takeFront m slot s).2.hcp } := by
  obtain e | ⟨h, e, -⟩ := takeFront_cases m slot s
  · rw [e]
    rfl
  · rw [e]

/-- Of its own mailbox, a request that is taken moves the ring's consumer index alone. -/
theorem takeFront_mb_self (m : Nat) (slot : Bytes) (s : State) :
    (takeFront m slot s).2.mb m = { s.mb m with reqCi := ((takeFront m slot s).2.mb m).reqCi } := by
  obtain e | ⟨h, e, hm⟩ := takeFront_cases m slot s
  · rw [e, State.mb_setMb_self]
  · rw [e]
    simp only [State.mb, hm]

theorem takeFront_mb_ne {m k : Nat} (slot : Bytes) (s : State) (hk : k ≠ m) :
    (takeFront m slot s).2.mb k = s.mb k := by
  obtain e | ⟨h, e, hm⟩ := takeFront_cases m slot s
  · rw [e]
    exact State.mb_setMb_ne _ _ hk
  · rw [e]
    simp only [State.mb, hm]

/-- Checks 1 to 3 see the same before and after the request is taken. -/
theorem frameChecks_takeFront (m : Nat) (slot f : Bytes) (s : State) :
    frameChecks ((takeFront m slot s).2.mb m) f (takeFront m slot s).2 = frameChecks (s.mb m) f s := by
  rw [takeFront_mb_self, takeFront_eq]
  rfl

/-- REQUEST_TAKE on a hub that answers: the frame of the mailbox whose turn it is, taken off that mailbox (R57). -/
theorem requestTake_eq {s : State} {m : Fin 10} (slot : Bytes) (ha : s.answers = true)
    (hn : s.nextMailbox = some m.val) :
    requestTake slot s = takeFrame m (takeFront m slot s).1 (takeFront m slot s).2 := by
  unfold requestTake
  simp only [ha, hn, Bool.not_true, Bool.false_eq_true, if_false, Fin.ofNat_val_eq_self]

theorem effectOf_requestTake {s : State} {m : Fin 10} (slot : Bytes) (ha : s.answers = true)
    (hn : s.nextMailbox = some m.val) :
    effectOf (requestTake slot) s =
      takeFrame m (takeFront m slot s).1 { (takeFront m slot s).2 with emitted := [] } := by
  have h := requestTake_eq (s := { s with emitted := [] }) slot ha hn
  rw [takeFront_clearEmitted] at h
  exact h

/-! ## Answering without executing -/

/-- A replay: the stored response goes out again (R55). -/
theorem takeFrame_replay {m : Fin 10} {f : Bytes} {s : State} {x : Stored}
    (hc : firstBad (frameChecks (s.mb m) f s) = none) (hr : isReplay (s.mb m) f = true)
    (hx : (s.mb m).stored = some x) :
    takeFrame m f s = respond m (BitVec.ofNat 32 (getU f 4 4)) x.tag x.opcode true
      ⟨x.status, x.detail.toNat, x.payload⟩ s := by
  unfold takeFrame
  simp only [hc, hr, hx]
  rfl

theorem seqAfter_ne (n : W32) : seqAfter n ≠ n := by
  unfold seqAfter
  split <;> bv_omega

/-- Another crc under the last accepted host_seq: the sequence rule refuses it (R54, R55). -/
theorem takeFrame_repeatedSeq {m : Fin 10} {f : Bytes} {s : State}
    (hc : firstBad (frameChecks (s.mb m) f s) = none) (hset : (s.mb m).seqSet = true)
    (hseq : getU f 4 4 = (s.mb m).lastSeq.toNat) (hcrc : getU f 0x1C 4 ≠ (s.mb m).lastCrc.toNat) :
    takeFrame m f s = respond m (BitVec.ofNat 32 (getU f 4 4)) (BitVec.ofNat 32 (getU f 0x0C 4)) (getU f 8 2) false
      ⟨0x0200, (seqAfter (s.mb m).lastSeq).toNat, []⟩ s := by
  have hr : isReplay (s.mb m) f = false := by simp [isReplay, hcrc]
  have hne : (getU f 4 4 == (seqAfter (s.mb m).lastSeq).toNat) = false := by
    rw [hseq, beq_eq_false_iff_ne]
    exact fun e => seqAfter_ne _ (BitVec.eq_of_toNat_eq e).symm
  have hq : seqCheck (s.mb m) f = (false, ⟨0x0200, (seqAfter (s.mb m).lastSeq).toNat, []⟩) := by
    simp [seqCheck, hset, hne]
  unfold takeFrame
  simp only [hc, hr, hq]
  simp [v2Answer, reqOfFrame, frameOpcode]

/-- `t` is `s` after mailbox m's front request has been taken and answered `a`, and nothing else: the answer waits in
the mailbox under the next hub_seq, and the host interface is that of the hub that has taken the request but for the
mailboxes and the pending vectors. -/
def TakenAndAnswered (m : Nat) (slot : Bytes) (hostSeq tag : W32) (opcode : Nat) (replay : Bool) (a : Ans)
    (s t : State) : Prop :=
  let u := (takeFront m slot s).2
  t.mb m = { u.mb m with
    hubSeq := (s.mb m).hubSeq + 1
    waiting := (s.mb m).waiting ++ [{
      isNotice := false, hubSeq := (s.mb m).hubSeq
      frame := rspFrame (s.mb m).version replay hostSeq (s.mb m).hubSeq opcode a.status tag a.detail a.payload }] } ∧
  t.hcp = { u.hcp with pba := t.hcp.pba, mbs := t.hcp.mbs } ∧ (∀ k, k ≠ m → t.mb k = s.mb k)

theorem respond_mb_self (m : Nat) (hostSeq tag : W32) (opcode : Nat) (replay : Bool) (a : Ans) (s : State) :
    (respond m hostSeq tag opcode replay a s).mb m = { s.mb m with
      hubSeq := (s.mb m).hubSeq + 1
      waiting := (s.mb m).waiting ++ [{
        isNotice := false, hubSeq := (s.mb m).hubSeq
        frame := rspFrame (s.mb m).version replay hostSeq (s.mb m).hubSeq opcode a.status tag a.detail a.payload }] } :=
  State.mb_setMb_self ..

theorem respond_mb_ne {m k : Nat} (hostSeq tag : W32) (opcode : Nat) (replay : Bool) (a : Ans) (s : State)
    (h : k ≠ m) : (respond m hostSeq tag opcode replay a s).mb k = s.mb k :=
  State.mb_setMb_ne _ _ h

/-- Taking a request and answering it stays within the host interface. -/
theorem keeps_takeFront_respond (m : Nat) (slot : Bytes) (hostSeq tag : W32) (opcode : Nat) (replay : Bool) (a : Ans)
    (s : State) :
    Keeps [.hcp, .ports] s
      (respond m hostSeq tag opcode replay a { (takeFront m slot s).2 with emitted := [] }) := by
  rw [takeFront_eq]
  intro p hp
  cases p
  case hcp | ports => simp at hp
  all_goals rfl

/-- REQUEST_TAKE where the frame taken is answered and not executed. -/
theorem gives_takenAndAnswered {s : State} {m : Nat} {slot : Bytes} {hostSeq tag : W32} {opcode : Nat} {replay : Bool}
    {a : Ans} (hq : s.flt.detected = [])
    (he : effectOf (requestTake slot) s =
      respond m hostSeq tag opcode replay a { (takeFront m slot s).2 with emitted := [] }) :
    Gives (.requestTake slot) s [.hcp, .ports] (TakenAndAnswered m slot hostSeq tag opcode replay a s) := by
  have hk := keeps_takeFront_respond m slot hostSeq tag opcode replay a s
  have hflt : _ = s.flt := hk .flt (by decide)
  have hb := takeFront_mb_self m slot s
  refine gives_of_effect rfl he (by rw [hflt, hq]) hk fun t F => ⟨?_, ?_, fun k h => ?_⟩
  · have hv : ((takeFront m slot s).2.mb m).version = (s.mb m).version := by rw [hb]; rfl
    have hw : ((takeFront m slot s).2.mb m).waiting = (s.mb m).waiting := by rw [hb]
    have hh : ((takeFront m slot s).2.mb m).hubSeq = (s.mb m).hubSeq := by rw [hb]
    rw [← hv, ← hw, ← hh, F.mb]
    exact respond_mb_self ..
  · rw [F.hcp]
    rfl
  · rw [F.mb, respond_mb_ne _ _ _ _ _ _ h]
    exact takeFront_mb_ne slot s h

/-- Settles O8: in both cases of R55 the frame is answered from the mailbox's own registers and never served. -/
theorem aRepeatedRequestIsNotExecutedAgain : Obligations.ARepeatedRequestIsNotExecutedAgain := by
  unfold Obligations.ARepeatedRequestIsNotExecutedAgain
  constructor
  · intro s m slot f x hInv ha _ hn hf hc hr hx
    refine gives_takenAndAnswered (a := ⟨x.status, x.detail.toNat, x.payload⟩) hInv.acted ?_
    rw [effectOf_requestTake slot ha hn, hf]
    refine takeFrame_replay ((congrArg firstBad (frameChecks_takeFront m slot f s)).trans hc) ?_ ?_
    · exact (congrArg (isReplay · f) (takeFront_mb_self m slot s)).trans hr
    · exact (congrArg Mailbox.stored (takeFront_mb_self m slot s)).trans hx
  · intro s m slot f hInv ha _ hn hf hc hset hseq hcrc
    refine gives_takenAndAnswered (a := ⟨0x0200, (seqAfter (s.mb m).lastSeq).toNat, []⟩) hInv.acted ?_
    have hlast : ((takeFront m slot s).2.mb m).lastSeq = (s.mb m).lastSeq := by rw [takeFront_mb_self]
    have hcrc' : ((takeFront m slot s).2.mb m).lastCrc = (s.mb m).lastCrc := by rw [takeFront_mb_self]
    rw [effectOf_requestTake slot ha hn, hf, ← hlast]
    refine takeFrame_repeatedSeq ((congrArg firstBad (frameChecks_takeFront m slot f s)).trans hc) ?_ ?_ ?_
    · exact (congrArg Mailbox.seqSet (takeFront_mb_self m slot s)).trans hset
    · exact hseq.trans (congrArg BitVec.toNat hlast.symm)
    · exact fun e => hcrc (e.trans (congrArg BitVec.toNat hcrc'))

end Sys2Proof.Machine
end

