-- ==== Sys2Proof/Proofs/HubTime.lean ====
section
/-! SUPPORT. Hub Time as one count of 2^-40 ns: an advance is an addition to that count, modulo 2^48 seconds (R71). -/

namespace Sys2Proof.Machine

/-- Hub Time in units of 2^-40 ns, from the three fields of R70. -/
def TimeSt.units (t : TimeSt) : Nat := (t.sec * 1000000000 + t.ns) * 2 ^ 40 + t.frac40

/-- A count of low and high digits keeps its value when the low digit's carry passes into the high one. -/
theorem carry_value (hi lo b : Nat) : (hi + lo / b) * b + lo % b = hi * b + lo := by
  rw [Nat.add_mul, Nat.add_assoc, Nat.div_add_mod']

/-- The carries into the nanoseconds and into the seconds lose nothing: only the wrap of the seconds takes 2^48 seconds
away. -/
theorem units_advance (t : TimeSt) (inc : Nat) :
    (t.advance inc).units ≡ t.units + inc [MOD 2 ^ 48 * 1000000000 * 2 ^ 40] := by
  let f := t.frac40 + inc
  let ns := t.ns + f / 2 ^ 40
  let sec := t.sec + ns / 1000000000
  have hwrap : sec % 2 ^ 48 ≡ sec [MOD 2 ^ 48] := Nat.mod_modEq sec (2 ^ 48)
  calc (t.advance inc).units
      = (sec % 2 ^ 48 * 1000000000 + ns % 1000000000) * 2 ^ 40 + f % 2 ^ 40 := rfl
    _ ≡ (sec * 1000000000 + ns % 1000000000) * 2 ^ 40 + f % 2 ^ 40 [MOD 2 ^ 48 * 1000000000 * 2 ^ 40] :=
        (((hwrap.mul_right' 1000000000).add_right _).mul_right' _).add_right _
    _ = (t.sec * 1000000000 + t.ns + f / 2 ^ 40) * 2 ^ 40 + f % 2 ^ 40 := by
        rw [carry_value t.sec ns 1000000000, Nat.add_assoc]
    _ = t.units + inc := by
        rw [carry_value _ f (2 ^ 40), ← Nat.add_assoc]
        rfl

/-- A TIME tick moves Hub Time as an advance by the effective rate word; its other counts are no part of Hub Time. -/
theorem units_tick (t : TimeSt) : t.tick.units = (t.advance t.rateEff.toNat).units := rfl

/-- Settles O10: a tick is an advance by the effective rate word, and an advance adds to the count of 2^-40 ns. -/
theorem tickAddsTheEffectiveRateWord : Obligations.TickAddsTheEffectiveRateWord := by
  unfold Obligations.TickAddsTheEffectiveRateWord
  intro x _
  have hunits : x.tick.units ≡ x.units + x.rateEff.toNat [MOD 2 ^ 48 * 1000000000 * 2 ^ 40] := by
    rw [units_tick]
    exact units_advance x x.rateEff.toNat
  exact ⟨tick_ok x, hunits⟩

end Sys2Proof.Machine
end

