-- ==== Sys2Proof/Proofs/Rules.lean ====
section
/-! SUPPORT. The rules by which a command's effect gives its statement: the frame part by part, fault events that are only noted,
commands that change nothing. -/

namespace Sys2Proof.Machine

set_option Elab.async false

/-! ## The frame -/

/-- The frame of a command, part by part: what is listed as changed needs nothing, what is not listed is the same. -/
theorem Keeps.of_parts {ch : List Part} {s t : State}
    (chip : Part.chip ∈ ch ∨ t.chip = s.chip := by first | (refine .inl ?_; simp; done) | exact .inr rfl)
    (boot : Part.boot ∈ ch ∨ t.boot = s.boot := by first | (refine .inl ?_; simp; done) | exact .inr rfl)
    (hcp : Part.hcp ∈ ch ∨ t.hcp.mail = s.hcp.mail := by first | (refine .inl ?_; simp; done) | exact .inr rfl)
    (ports : Part.ports ∈ ch ∨ t.hcp.ports = s.hcp.ports := by first | (refine .inl ?_; simp; done) | exact .inr rfl)
    (time : Part.time ∈ ch ∨ t.time = s.time := by first | (refine .inl ?_; simp; done) | exact .inr rfl)
    (cal : Part.cal ∈ ch ∨ t.cal = s.cal := by first | (refine .inl ?_; simp; done) | exact .inr rfl)
    (xfer : Part.xfer ∈ ch ∨ t.xfer = s.xfer := by first | (refine .inl ?_; simp; done) | exact .inr rfl)
    (lanes : Part.lanes ∈ ch ∨ t.lanes = s.lanes := by first | (refine .inl ?_; simp; done) | exact .inr rfl)
    (bgls : Part.bgls ∈ ch ∨ t.bgls = s.bgls := by first | (refine .inl ?_; simp; done) | exact .inr rfl)
    (dclks : Part.dclks ∈ ch ∨ t.dclks = s.dclks := by first | (refine .inl ?_; simp; done) | exact .inr rfl)
    (srefs : Part.srefs ∈ ch ∨ t.srefs = s.srefs := by first | (refine .inl ?_; simp; done) | exact .inr rfl)
    (jesds : Part.jesds ∈ ch ∨ t.jesds = s.jesds := by first | (refine .inl ?_; simp; done) | exact .inr rfl)
    (bglIns : Part.bglIns ∈ ch ∨ t.bglIns = s.bglIns := by first | (refine .inl ?_; simp; done) | exact .inr rfl)
    (scps : Part.scps ∈ ch ∨ t.scps = s.scps := by first | (refine .inl ?_; simp; done) | exact .inr rfl)
    (channels : Part.channels ∈ ch ∨ t.channels = s.channels := by first | (refine .inl ?_; simp; done) | exact .inr rfl)
    (pipes : Part.pipes ∈ ch ∨ t.pipes = s.pipes := by first | (refine .inl ?_; simp; done) | exact .inr rfl)
    (profiles : Part.profiles ∈ ch ∨ t.profiles = s.profiles := by first | (refine .inl ?_; simp; done) | exact .inr rfl)
    (ledger : Part.ledger ∈ ch ∨ t.ledger = s.ledger := by first | (refine .inl ?_; simp; done) | exact .inr rfl)
    (cap : Part.cap ∈ ch ∨ t.cap = s.cap := by first | (refine .inl ?_; simp; done) | exact .inr rfl)
    (comp : Part.comp ∈ ch ∨ t.comp = s.comp := by first | (refine .inl ?_; simp; done) | exact .inr rfl)
    (strm : Part.strm ∈ ch ∨ t.strm = s.strm := by first | (refine .inl ?_; simp; done) | exact .inr rfl)
    (upl : Part.upl ∈ ch ∨ t.upl = s.upl := by first | (refine .inl ?_; simp; done) | exact .inr rfl)
    (flt : Part.flt ∈ ch ∨ t.flt = s.flt := by first | (refine .inl ?_; simp; done) | exact .inr rfl)
    (island : Part.island ∈ ch ∨ t.island = s.island := by first | (refine .inl ?_; simp; done) | exact .inr rfl)
    (tick : Part.tick ∈ ch ∨ t.tick = s.tick := by first | (refine .inl ?_; simp; done) | exact .inr rfl)
    (free : Part.free ∈ ch ∨ t.freeCount = s.freeCount := by first | (refine .inl ?_; simp; done) | exact .inr rfl)
    (queue : Part.queue ∈ ch ∨ t.pending = s.pending := by first | (refine .inl ?_; simp; done) | exact .inr rfl) :
    Keeps ch s t := by
  intro p hp
  cases p
  case chip => exact chip.resolve_left hp
  case boot => exact boot.resolve_left hp
  case hcp => exact hcp.resolve_left hp
  case ports => exact ports.resolve_left hp
  case time => exact time.resolve_left hp
  case cal => exact cal.resolve_left hp
  case xfer => exact xfer.resolve_left hp
  case lanes => exact lanes.resolve_left hp
  case bgls => exact bgls.resolve_left hp
  case dclks => exact dclks.resolve_left hp
  case srefs => exact srefs.resolve_left hp
  case jesds => exact jesds.resolve_left hp
  case bglIns => exact bglIns.resolve_left hp
  case scps => exact scps.resolve_left hp
  case channels => exact channels.resolve_left hp
  case pipes => exact pipes.resolve_left hp
  case profiles => exact profiles.resolve_left hp
  case ledger => exact ledger.resolve_left hp
  case cap => exact cap.resolve_left hp
  case comp => exact comp.resolve_left hp
  case strm => exact strm.resolve_left hp
  case upl => exact upl.resolve_left hp
  case flt => exact flt.resolve_left hp
  case island => exact island.resolve_left hp
  case tick => exact tick.resolve_left hp
  case free => exact free.resolve_left hp
  case queue => exact queue.resolve_left hp

/-! ## Commands that change nothing -/

theorem Keeps.refl (ch : List Part) (s : State) : Keeps ch s s := fun p _ => by cases p <;> rfl

/-- A command whose effect is none. -/
theorem gives_nothing {i : Instr} {s : State} {f : State → State} {ch : List Part} {post : State → Prop}
    (hi : exec i s = .next (after f s)) (he : effectOf f s = { s with emitted := [] }) (hq : s.flt.detected = [])
    (hp : ∀ t, Follows s { s with emitted := [] } t → post t) : Gives i s ch post :=
  gives_of_effect hi he hq (fun p _ => by cases p <;> rfl) hp

/-! ## Fault events that are only noted -/

/-- An event's reaction depends on the chip state and the fault registers alone. -/
theorem Quietly.of_same {b n u : Nat} {s x : State} (h : Quietly b n u s) (hc : x.chip.phase = s.chip.phase)
    (hf : x.flt.blocks = s.flt.blocks) : Quietly b n u x where
  live := by unfold State.faultsHeld; rw [hc]; exact h.live
  open_ := by unfold State.gated State.blk; rw [hf]; exact h.open_
  noReset := by unfold State.reaction State.blk; rw [hf]; exact h.noReset
  plain := h.plain

/-- `t` is `s` but for what a notice can change: the mailboxes, the log, the notices held back. -/
def NoticesOnly (s t : State) : Prop := t = { s with hcp := { s.hcp with mbs := t.hcp.mbs, log := t.hcp.log, held := t.hcp.held } }

theorem NoticesOnly.trans {s t u : State} (h : NoticesOnly s t) (k : NoticesOnly t u) : NoticesOnly s u := by
  unfold NoticesOnly at *
  rw [k, h]

theorem NoticesOnly.forEach {α : Type} {f : α → State → State} (h : ∀ x s, NoticesOnly s (f x s)) :
    ∀ (xs : List α) (s : State), NoticesOnly s (forEach xs f s)
  | [], _ => rfl
  | x :: xs, s => (h x s).trans (NoticesOnly.forEach h xs (f x s))

theorem notifyOne_noticesOnly (o : Nat) (p : Bytes) (m : Nat) (s : State) : NoticesOnly s (notifyOne o p m s) := by
  unfold notifyOne
  split <;> rfl

theorem notify_noticesOnly (o : Nat) (p : Bytes) (s : State) : NoticesOnly s (notify o p s) := by
  unfold notify
  split
  · exact .forEach (fun m t => notifyOne_noticesOnly o p m t) _ s
  · split <;> rfl

theorem noted_noticesOnly {b n u : Nat} {s : State} (h : Quietly b n u s) :
    NoticesOnly (s.setBlk b ((s.blk b).seen s.now n u)) (noted b n u s) := by
  unfold noted
  rw [setSource_open b n u s h.plain.2 h.open_]
  dsimp only
  generalize (if (!(s.blk b).sticky.getLsbD n) = true then _ else (0 : Byte)) = byte
  split
  · exact notify_noticesOnly ..
  · rfl

/-- Of the host interface, an event that is only noted changes what a notice can change. -/
theorem after_noted_hcp {f : State → State} {s : State} {b n u : Nat} (hd : (effectOf f s).flt.detected = [⟨b, n, u, none⟩])
    (h : Quietly b n u (acted (effectOf f s))) : (after f s).hcp = { (effectOf f s).hcp with
      pba := (after f s).hcp.pba, mbs := (after f s).hcp.mbs, log := (after f s).hcp.log, held := (after f s).hcp.held } := by
  have hn := congrArg State.hcp (noted_noticesOnly h)
  have he : (after f s).hcp = (settle s (noted b n u (acted (effectOf f s)))).hcp := by
    rw [acted_noted hd h, keepQueue_hcp, keepClock_hcp]
  have key : ∀ u v x : Hcp, u = { v with pba := u.pba } → v = { x with mbs := v.mbs, log := v.log, held := v.held } →
      u = { x with pba := u.pba, mbs := u.mbs, log := u.log, held := u.held } := by
    intro u v x hu hv
    rw [hu, hv]
  rw [he]
  exact key _ _ _ (settle_hcp s _) hn

/-- A command whose effect `x` has detected one event which is only noted: the fault registers are those of `s` with the event. -/
theorem gives_of_detected {i : Instr} {s x : State} {f : State → State} {b n u : Nat} {ch : List Part} {post : State → Prop}
    (hi : exec i s = .next (after f s)) (he : effectOf f s = x) (h : Quietly b n u s)
    (hf : x.flt = { s.flt with detected := [⟨b, n, u, none⟩] }) (hd : s.flt.detected = []) (hc : x.chip.phase = s.chip.phase)
    (ht : x.now = s.now) (hk : Keeps ch s x)
    (hp : ∀ t, FollowsNoted b n u s x t → Noted b n u s t →
      t.hcp = { x.hcp with pba := t.hcp.pba, mbs := t.hcp.mbs, log := t.hcp.log, held := t.hcp.held } → post t)
    (hm : Part.flt ∈ ch ∧ Part.hcp ∈ ch := by simp) : Gives i s ch post := by
  have hx : x.flt.detected = [⟨b, n, u, none⟩] := by rw [hf]
  have hq : Quietly b n u (acted x) := h.of_same hc (show x.flt.blocks = s.flt.blocks by rw [hf])
  refine ⟨_, hi, after_noted_keeps (by rw [he]; exact hx) (by rw [he]; exact hq) hm.1 hm.2 (by rw [he]; exact hk),
    hp _ (follows_noted he hx hq) ?_ ?_⟩
  · unfold Noted
    rw [(follows_noted he hx hq).flt, ht]
    simp only [State.blk, hf]
    rw [← hd]
  · have hh := after_noted_hcp (f := f) (s := s) (b := b) (n := n) (u := u) (by rw [he]; exact hx) (by rw [he]; exact hq)
    rw [he] at hh
    exact hh

/-- A command whose effect is to change `s` to `x`, of the same fault registers, and to raise one event which is only noted. -/
theorem gives_of_raise {i : Instr} {s x : State} {f : State → State} {b n u : Nat} {ch : List Part} {post : State → Prop}
    (hi : exec i s = .next (after f s)) (he : effectOf f s = raise b n u x) (h : Quietly b n u s) (hd : s.flt.detected = [])
    (hf : x.flt = s.flt) (hc : x.chip.phase = s.chip.phase) (ht : x.now = s.now) (hk : Keeps ch s x)
    (hp : ∀ t, FollowsNoted b n u s (raise b n u x) t → Noted b n u s t →
      t.hcp = { x.hcp with pba := t.hcp.pba, mbs := t.hcp.mbs, log := t.hcp.log, held := t.hcp.held } → post t)
    (hm : Part.flt ∈ ch ∧ Part.hcp ∈ ch := by simp) : Gives i s ch post := by
  refine gives_of_detected hi he h (by simp only [raise, hf, hd, List.nil_append]) hd hc ht (fun p hp' => ?_) hp hm
  have hsame := hk p hp'
  cases p
  case flt => exact absurd hm.1 hp'
  all_goals exact hsame

/-! ## Pending vectors -/

theorem raiseMsix_pba {v : Nat} (s : State) (k : Nat) (h : s.hcp.pba.getLsbD v = true) :
    (s.raiseMsix k).hcp.pba.getLsbD v = true := by
  unfold State.raiseMsix State.emit
  split
  · simp [h]
  · split <;> exact h

theorem settle_pba {v : Nat} (old s : State) (h : s.hcp.pba.getLsbD v = true) : (settle old s).hcp.pba.getLsbD v = true := by
  unfold settle
  split
  · exact raiseMsix_pba s 8 h
  · exact h

/-- As `gives_of_effect`, for a statement that also speaks of the pending vectors: those of the effect stay pending. -/
theorem gives_of_effect_pba {i : Instr} {s x : State} {f : State → State} {ch : List Part} {post : State → Prop}
    (hi : exec i s = .next (after f s)) (he : effectOf f s = x) (hq : x.flt.detected = []) (hk : Keeps ch s x)
    (hp : ∀ t, Follows s x t → (∀ v, x.hcp.pba.getLsbD v = true → t.hcp.pba.getLsbD v = true) → post t) : Gives i s ch post := by
  refine ⟨_, hi, after_keeps (by rw [he]; exact hq) (by rw [he]; exact hk), hp _ (follows_after he hq) fun v hv => ?_⟩
  have hd : (effectOf f s).flt.detected = [] := by rw [he]; exact hq
  rw [after_quiet f s hd, keepQueue_hcp, keepClock_hcp, he]
  exact settle_pba s x hv

end Sys2Proof.Machine
end

