-- ==== Sys2Proof/Proofs/Steps.lean ====
section
/-! SUPPORT. What any command and any step can do: the three frames of `run`, and the statements that follow from them alone. -/

namespace Sys2Proof.Machine

set_option Elab.async false

/-- FAULT_DETECT names a source that Table FLT-4 does not give its block. -/
def AbsentSource (i : Instr) : Prop := ∃ b n u m, i = .faultDetect b n u m ∧ sourceExists b.val n.val = false

/-- A command may set the clock: the calendar and the always-on rail alone do (log entry 11). -/
inductive SetsClock : Instr → (State → State) → Prop where
  | calendar : SetsClock .calendarFire calendarFire
  | aonUp : SetsClock .vddAonUp vddAonUp
  | aonLoss : SetsClock .vddAonLoss vddAonLoss

/-- A command runs in one of three ways: it leaves the clock, it may set it, or it names no event of this hub. -/
inductive Runs (i : Instr) (s : State) : Host.Outcome State Fault Refusal → Prop where
  | leavesClock (f : State → State) : Runs i s (.next (after f s))
  | setsClock (f : State → State) (h : SetsClock i f) : Runs i s (.next (afterClock f s))
  | absent (h : AbsentSource i) : Runs i s (.fault .noSuchSource)

theorem exec_faultDetect_absent {b : Fin 17} {n : Fin 64} (u : Nat) (m : MemRead) (s : State)
    (h : sourceExists b.val n.val = false) : exec (.faultDetect b n u m) s = .fault .noSuchSource := by
  show execFaultDetect b n u m s = _
  unfold execFaultDetect
  rw [h]
  rfl

theorem exec_runs (i : Instr) (s : State) : Runs i s (exec i s) := by
  cases i
  case calendarFire => exact .setsClock _ .calendar
  case vddAonUp => exact .setsClock _ .aonUp
  case vddAonLoss => exact .setsClock _ .aonLoss
  case faultDetect b n u m =>
    by_cases h : sourceExists b.val n.val = true
    · show Runs _ _ (execFaultDetect b n u m s)
      unfold execFaultDetect
      rw [if_pos h]
      exact .leavesClock _
    · have habsent := Bool.eq_false_iff.mpr h
      rw [exec_faultDetect_absent u m s habsent]
      exact .absent ⟨b, n, u, m, rfl, habsent⟩
  all_goals exact .leavesClock _

theorem exec_next {i : Instr} {s t : State} (h : exec i s = .next t) :
    (∃ f, t = after f s) ∨ ∃ f, SetsClock i f ∧ t = afterClock f s := by
  have hr := exec_runs i s
  rw [h] at hr
  cases hr with
  | leavesClock f => exact .inl ⟨f, rfl⟩
  | setsClock f hc => exact .inr ⟨f, hc, rfl⟩

/-! ## The invariant -/

theorem SetsClock.effect_ok {i : Instr} {f : State → State} (h : SetsClock i f) (s : State) (hs : s.time.ok) :
    (effectOf f s).time.ok := by
  cases h with
  | calendar => exact calendarFire_ok _ hs
  | aonUp => exact vddAonUp_ok _ hs
  | aonLoss => exact vddAonLoss_ok _ hs

theorem exec_inv {i : Instr} {s t : State} (hs : s.Inv) (h : exec i s = .next t) : t.Inv := by
  obtain ⟨f, rfl⟩ | ⟨f, hc, rfl⟩ := exec_next h
  · exact after_inv f s hs.time
  · exact afterClock_inv f s (hc.effect_ok s hs.time)

/-- Settles O57: a tick and every command keep the invariant, so a step does. -/
theorem everyStepKeepsTheInvariant : Obligations.EveryStepKeepsTheInvariant := by
  unfold Obligations.EveryStepKeepsTheInvariant
  intro s t hs h
  unfold step at h
  split at h
  · cases h
    exact idle_inv s hs
  · next c rest _ => exact exec_inv (s := { s with pending := rest }) ⟨hs.time, hs.acted⟩ h

/-! ## The queue and the clock -/

theorem afterClock_pending (f : State → State) (s : State) : (afterClock f s).pending = s.pending := by
  unfold afterClock
  rw [keepQueue_pending]

theorem exec_pending {i : Instr} {s t : State} (h : exec i s = .next t) : t.pending = s.pending := by
  obtain ⟨f, rfl⟩ | ⟨f, -, rfl⟩ := exec_next h
  · exact after_pending f s
  · exact afterClock_pending f s

theorem idle_of_no_hits {s : State} (h : s.hitsWait = false) : s.idle = ({ s with emitted := [] } : State).passTick := by
  unfold State.idle
  rw [h]
  rfl

theorem idle_tick (s : State) : s.idle.tick = s.tick + 1 := by
  unfold State.idle State.passTick
  split
  · exact congrArg (· + 1) (after_tick decideAll s)
  · rfl

theorem idle_pending (s : State) : s.idle.pending = s.pending := by
  unfold State.idle State.passTick
  split
  · exact after_pending decideAll s
  · rfl

theorem step_idle {s : State} (h : s.pending = []) : step s = .next s.idle := by
  unfold step
  rw [h]

/-- Settles O58: the frame of `run` gives the queue and the clock back; an empty queue is an idle step. -/
theorem commandsKeepTheQueueAndTheClock : Obligations.CommandsKeepTheQueueAndTheClock := by
  unfold Obligations.CommandsKeepTheQueueAndTheClock
  refine ⟨fun i s t h => ⟨exec_pending h, fun hcal hup hloss => ?_⟩, fun s hp hh ha => ?_, fun s hp hh ha => ?_,
    fun s hp => ⟨s.idle, step_idle hp, idle_tick s, (idle_pending s).trans hp⟩⟩
  · obtain ⟨f, rfl⟩ | ⟨f, hc, -⟩ := exec_next h
    · exact ⟨after_sec f s, after_ns f s, after_frac40 f s, after_tick f s⟩
    · cases hc with
      | calendar => exact absurd rfl hcal
      | aonUp => exact absurd rfl hup
      | aonLoss => exact absurd rfl hloss
  · rw [step_idle hp, idle_of_no_hits hh]
    unfold State.passTick
    simp only [ha, if_true]
  · rw [step_idle hp, idle_of_no_hits hh]
    unfold State.passTick
    simp only [ha, Bool.false_eq_true, if_false]

/-! ## Stops, the front command and reset -/

/-- Settles O59: only the row of FAULT_DETECT can answer other than a next state, and it does so for an absent source. -/
theorem onlyAnAbsentFaultSourceStops : Obligations.OnlyAnAbsentFaultSourceStops := by
  unfold Obligations.OnlyAnAbsentFaultSourceStops
  refine ⟨fun b n u m s h => exec_faultDetect_absent u m s h, fun i s hi => ?_⟩
  generalize hout : exec i s = out
  have hr := exec_runs i s
  rw [hout] at hr
  cases hr with
  | leavesClock f => exact ⟨_, rfl⟩
  | setsClock f _ => exact ⟨_, rfl⟩
  | absent h =>
    obtain ⟨b, n, u, m, he, habsent⟩ := h
    rw [hi b n u m he] at habsent
    exact Bool.noConfusion habsent

/-- Settles O55: the step function's own case, and a decoder that knows no word. -/
theorem aStepRunsTheFrontCommand : Obligations.AStepRunsTheFrontCommand := by
  unfold Obligations.AStepRunsTheFrontCommand
  refine ⟨fun s c rest h => ?_, fun _ _ _ => ⟨rfl, rfl⟩⟩
  unfold step
  rw [h]

/-- Settles O56: every table of the reset state is empty, so every object reads as its initial value. -/
theorem resetLeavesTheStatedValues : Obligations.ResetLeavesTheStatedValues := by
  unfold Obligations.ResetLeavesTheStatedValues
  have hInv : State.reset.Inv := ⟨fresh_time_ok, rfl⟩
  refine ⟨hInv, rfl, rfl, rfl, rfl, rfl, ?_⟩
  exact ⟨fun _ => rfl, rfl, fun _ => rfl, fun _ => rfl, fun _ => rfl, fun _ => rfl, fun _ => rfl, fun _ => rfl, fun _ => rfl,
    fun _ => rfl, fun _ _ => rfl, rfl, rfl, rfl⟩

end Sys2Proof.Machine
end

