-- ==== Sys2Proof/Proofs/Sessions.lean ====
section
/-! SUPPORT. Sessions and rings (R37-R42): what a register write makes of its mailbox. -/

namespace Sys2Proof.Machine

set_option Elab.async false

/-! ## The bits of a control register -/

@[simp] theorem bit_mask_zero (a b c d : Bool) : bit (mask [a, b, c, d]) 0 = a := by
  cases a <;> cases b <;> cases c <;> cases d <;> rfl

@[simp] theorem bit_mask_one (a b c d : Bool) : bit (mask [a, b, c, d]) 1 = b := by
  cases a <;> cases b <;> cases c <;> cases d <;> rfl

@[simp] theorem bit_mask_two (a b c d : Bool) : bit (mask [a, b, c, d]) 2 = c := by
  cases a <;> cases b <;> cases c <;> cases d <;> rfl

@[simp] theorem bit_mask_three (a b c d : Bool) : bit (mask [a, b, c, d]) 3 = d := by
  cases a <;> cases b <;> cases c <;> cases d <;> rfl

/-! ## Opening, pausing, resuming -/

theorem mbSessionOpen_disabled {m : Nat} (v2 pause irqEn : Bool) {s : State} (hb : s.barUp = true)
    (he : (s.mb m).enable = false) : mbSessionOpen m v2 pause irqEn s = openMb m v2 pause irqEn s := by
  unfold mbSessionOpen writeCtrl
  simp [hb, he]

/-- MB_CTRL written on an open session with PAUSE = 1. -/
theorem mbSessionOpen_pausing {m : Nat} (v2 irqEn : Bool) {s : State} (hb : s.barUp = true) (he : (s.mb m).enable = true)
    (ho : (s.mb m).session = .opened) : mbSessionOpen m v2 true irqEn s =
      (s.setMb m { s.mb m with irqEn := irqEn }).setMb m { s.mb m with irqEn := irqEn, pause := true, session := .paused } := by
  unfold mbSessionOpen writeCtrl setPause
  simp [hb, he, ho]

theorem setPause_opened {m : Nat} {s : State} (ho : (s.mb m).session = .opened) :
    setPause m s = s.setMb m { s.mb m with pause := true, session := .paused } := by
  unfold setPause
  simp [ho]

theorem baseMissing_iff (b : Mailbox) : b.baseMissing = true ↔ b.reqBase = 0 ∨ b.rspBase = 0 := by
  unfold Mailbox.baseMissing
  rw [Bool.or_eq_true, beq_iff_eq, beq_iff_eq]

theorem clearPause_based {m : Nat} {s : State} (hp : (s.mb m).session = .paused) (hq : (s.mb m).reqBase ≠ 0)
    (hr : (s.mb m).rspBase ≠ 0) : clearPause m s =
      (s.setMb m { s.mb m with pause := false }).setMb m { s.mb m with pause := false, session := .opened } := by
  have hm : (s.mb m).baseMissing = false := 
    Bool.or_eq_false_iff.mpr ⟨beq_false_of_ne hq, beq_false_of_ne hr⟩
  unfold clearPause
  simp [hp, hm]

theorem clearPause_baseless {m : Nat} {s : State} (hp : (s.mb m).session = .paused)
    (h0 : (s.mb m).reqBase = 0 ∨ (s.mb m).rspBase = 0) :
    clearPause m s = ringError m (s.setMb m { s.mb m with pause := false }) := by
  unfold clearPause
  have hm : (s.mb m).baseMissing = true := (baseMissing_iff _).mpr h0
  simp [hp, hm]

theorem lasting_session (x : Session) : Lasting fun b => b.session = x :=
  fun _ _ _ _ _ _ h => h

/-! ## Closing -/

theorem returnSlot_mb_self (m n : Nat) (s : State) :
    (returnSlot m n s).mb m = { s.mb m with slots := (s.mb m).slots.filter (· ≠ n) } :=
  State.mb_setMb_self ..

theorem returnSlot_mb_ne {m k : Nat} (n : Nat) (s : State) (h : k ≠ m) : (returnSlot m n s).mb k = s.mb k :=
  State.mb_setMb_ne _ _ h

/-- Slots that return change their mailbox's slots, and the log. -/
theorem returnSlots_mb_self (m : Nat) : ∀ (xs : List Nat) (s : State),
    ∃ k, (forEach xs (returnSlot m) s).mb m = { s.mb m with slots := k }
  | [], s => ⟨_, rfl⟩
  | x :: xs, s => by
    obtain ⟨k, hk⟩ := returnSlots_mb_self m xs (returnSlot m x s)
    exact ⟨k, hk.trans (by rw [returnSlot_mb_self])⟩

theorem returnSlots_mb_ne {m k : Nat} (h : k ≠ m) : ∀ (xs : List Nat) (s : State),
    (forEach xs (returnSlot m) s).mb k = s.mb k
  | [], _ => rfl
  | x :: xs, s => (returnSlots_mb_ne h xs (returnSlot m x s)).trans (returnSlot_mb_ne x s h)

/-- `t` is `s` but for the mailboxes and the notice log. -/
def MailOnly (s t : State) : Prop := t = { s with hcp := { s.hcp with mbs := t.hcp.mbs, log := t.hcp.log } }

theorem MailOnly.trans {s t u : State} (h : MailOnly s t) (k : MailOnly t u) : MailOnly s u := by
  unfold MailOnly at *
  rw [k, h]

theorem MailOnly.hcp {s t : State} (h : MailOnly s t) : t.hcp = { s.hcp with mbs := t.hcp.mbs, log := t.hcp.log } :=
  (congrArg State.hcp h).trans rfl

theorem MailOnly.flt {s t : State} (h : MailOnly s t) : t.flt = s.flt := (congrArg State.flt h).trans rfl

theorem MailOnly.keeps {s t : State} (h : MailOnly s t) : Keeps [.hcp] s t := by
  unfold MailOnly at h
  rw [h]
  exact .of_parts

theorem returnSlots_mailOnly (m : Nat) : ∀ (xs : List Nat) (s : State), MailOnly s (forEach xs (returnSlot m) s)
  | [], _ => rfl
  | x :: xs, s => MailOnly.trans (t := returnSlot m x s) rfl (returnSlots_mailOnly m xs _)

theorem closeMb_mailOnly (m : Nat) (s : State) : MailOnly s (closeMb m s) := by
  unfold closeMb
  dsimp only
  refine MailOnly.trans (t := s.setMb m { s.mb m with enable := false, session := .closed, waiting := [] }) rfl ?_
  exact (returnSlots_mailOnly m _ _).trans rfl

theorem closeMb_mb_self (m : Nat) (s : State) : ∃ k, (closeMb m s).mb m =
    { s.mb m with enable := false, session := .closed, waiting := [], slots := k } := by
  obtain ⟨k, hk⟩ := returnSlots_mb_self m ((s.mb m).waiting.filterMap (·.slot))
    (s.setMb m { s.mb m with enable := false, session := .closed, waiting := [] })
  exact ⟨k, hk.trans (by rw [State.mb_setMb_self])⟩

theorem closeMb_mb_ne {m k : Nat} (s : State) (h : k ≠ m) : (closeMb m s).mb k = s.mb k :=
  (returnSlots_mb_ne h _ _).trans (State.mb_setMb_ne _ _ h)

/-- After closing, no entry of the log waits for the mailbox. -/
theorem closeMb_log (m : Nat) (s : State) : ∀ x ∈ (closeMb m s).hcp.log, x.mb = m → x.pinWait = false := by
  intro x hx hm
  obtain ⟨e, -, rfl⟩ := List.mem_map.mp hx
  by_cases h : e.mb = m
  · rw [if_pos h]
  · rw [if_neg h] at hm
    exact absurd hm h

/-- What a close leaves, of the mailbox and of the rest. -/
structure Closes (m : Nat) (s t : State) : Prop where
  enable : (t.mb m).enable = false
  session : (t.mb m).session = .closed
  waiting : (t.mb m).waiting = []
  hubSeq : (t.mb m).hubSeq = (s.mb m).hubSeq
  reqBase : (t.mb m).reqBase = (s.mb m).reqBase
  rspBase : (t.mb m).rspBase = (s.mb m).rspBase
  others : ∀ k, k ≠ m → t.mb k = s.mb k
  log : ∀ x ∈ t.hcp.log, x.mb = m → x.pinWait = false
  hcp : t.hcp = { s.hcp with pba := t.hcp.pba, mbs := t.hcp.mbs, log := t.hcp.log }

/-- A command that closes mailbox m. -/
theorem gives_closeMb {i : Instr} {f : State → State} {m : Nat} {s : State} {post : State → Prop} (hi : exec i s = .next (after f s))
    (he : effectOf f s = closeMb m { s with emitted := [] }) (hd : s.flt.detected = []) (hp : ∀ t, Closes m s t → post t) :
    Gives i s [.hcp] post := by
  have hc := closeMb_mailOnly m { s with emitted := [] }
  obtain ⟨k, hk⟩ := closeMb_mb_self m { s with emitted := [] }
  refine gives_of_effect hi he (by rw [hc.flt]; exact hd) hc.keeps fun t F => hp t ?_
  have hl := congrArg Hcp.log F.hcp
  have hb := congrArg Hcp.mbs F.hcp
  have hm := (F.mb m).trans hk
  constructor
  case others => exact fun j hj => (F.mb j).trans (closeMb_mb_ne _ hj)
  case log => rw [hl]; exact closeMb_log m _
  case hcp => rw [hl, hb, F.hcp, hc.hcp]
  case enable | session | waiting => rw [hm]
  all_goals
    rw [hm]
    rfl

/-- Settles O1: each register write is one update of its mailbox; a close also returns the slots of what waited. -/
theorem sessionRegistersActAsWritten : Obligations.SessionRegistersActAsWritten := by
  unfold Obligations.SessionRegistersActAsWritten
  refine ⟨?_, ?_, ?_, ?_, ?_, ?_, ?_⟩
  · intro s m v2 pause irqEn hInv hb he
    refine gives_of_effect rfl (mbSessionOpen_disabled v2 pause irqEn hb he) hInv.acted .of_parts fun t F => F.hcp.trans ?_
    have hs : (pause || (decide (m.val < 8) && (s.mb m).baseMissing)) = true ↔
        pause = true ∨ (s.mb m).reqBase = 0 ∨ (s.mb m).rspBase = 0 := by
      rw [Bool.or_eq_true, Bool.and_eq_true, baseMissing_iff, decide_eq_true_eq, and_iff_right m.isLt]
    have h0 : m.val = 0 ↔ m = 0 := Fin.val_eq_zero_iff
    rw [← if_congr hs rfl rfl, ← if_congr h0 rfl rfl]
    rfl
  · intro s m v2 irqEn hInv hb he ho
    refine gives_of_effect rfl (mbSessionOpen_pausing v2 irqEn hb he ho) hInv.acted .of_parts fun t F => ?_
    rw [F.mb, State.mb_setMb_self]
    rfl
  · intro s m hInv hb he
    refine gives_closeMb rfl (if_pos (by simp only [Bool.and_eq_true]; exact ⟨hb, he⟩)) hInv.acted fun t C => ?_
    exact ⟨C.enable, C.session, C.waiting, C.hubSeq, C.reqBase, C.rspBase, C.others, C.hcp⟩
  · intro s m hInv hb ho
    exact gives_of_effect rfl ((if_pos hb).trans (setPause_opened ho)) hInv.acted .of_parts fun t F => F.hcp
  · intro s m hInv hb hp hq hr
    refine gives_of_effect rfl ((if_pos hb).trans (clearPause_based hp hq hr)) hInv.acted .of_parts fun t F => ⟨?_, fun k hk => ?_, ?_⟩
    · rw [F.mb, State.mb_setMb_self]
      rfl
    · rw [F.mb, State.mb_setMb_ne _ _ hk, State.mb_setMb_ne _ _ hk]
      rfl
    · rw [F.hcp]
      rfl
  · intro s m en hInv hb
    exact gives_of_effect rfl (if_pos hb) hInv.acted .of_parts fun t F => F.hcp
  · intro s m hInv hb hp h0 hq
    refine gives_of_raise rfl ((if_pos hb).trans (clearPause_baseless hp h0)) hq hInv.acted rfl rfl rfl .of_parts
      fun t F N _ => ⟨F.mb _ lasting_ringErr m ?_, F.mb _ (lasting_session .paused) m ?_, N⟩
    · exact congrArg Mailbox.ringErr (State.mb_setMb_self ..)
    · refine (congrArg Mailbox.session (State.mb_setMb_self ..)).trans ?_
      rw [State.mb_setMb_self]
      exact hp

/-! ## Rings -/

theorem writeBase_closed {m : Nat} {s : State} (rsp : Bool) (addr : W64) (h : (s.mb m).session = .closed) :
    writeBase m rsp addr s = s.setMb m (if rsp then { s.mb m with rspBase := addr &&& ~~~0xFFF#64 }
      else { s.mb m with reqBase := addr &&& ~~~0xFFF#64 }) := by
  unfold writeBase
  cases rsp <;> simp [h]

theorem writeBase_paused {m : Nat} {s : State} (addr : W64) (h : (s.mb m).session = .paused) :
    writeBase m false addr s = s.setMb m { s.mb m with
      reqBase := addr &&& ~~~0xFFF#64, reqPi := 0, reqCi := 0, rspPi := 0, rspCi := 0 } := by
  unfold writeBase
  simp [h]

theorem reqPiDoorbell_within {m : Nat} {v : W16} {s : State} (hb : s.barUp = true) (hv : (v - (s.mb m).reqCi).toNat ≤ 64) :
    reqPiDoorbell m v s = s.setMb m { s.mb m with reqPi := v } := by
  unfold reqPiDoorbell
  rw [hb, if_neg (by decide), if_neg (Nat.not_lt.mpr hv)]

theorem reqPiDoorbell_beyond {m : Nat} {v : W16} {s : State} (hb : s.barUp = true) (hv : 64 < (v - (s.mb m).reqCi).toNat) :
    reqPiDoorbell m v s = ringError m s := by
  unfold reqPiDoorbell
  rw [hb, if_neg (by decide), if_pos hv]

theorem rspCiWrite_within {m : Nat} {v : W16} {s : State} (hb : s.barUp = true)
    (hv : (v - (s.mb m).rspCi).toNat ≤ ((s.mb m).rspPi - (s.mb m).rspCi).toNat) :
    rspCiWrite m v s = s.setMb m { s.mb m with rspCi := v } := by
  unfold rspCiWrite
  rw [hb, if_neg (by decide), if_neg (Nat.not_lt.mpr hv)]

theorem rspCiWrite_beyond {m : Nat} {v : W16} {s : State} (hb : s.barUp = true)
    (hv : ((s.mb m).rspPi - (s.mb m).rspCi).toNat < (v - (s.mb m).rspCi).toNat) :
    rspCiWrite m v s = ringError m s := by
  unfold rspCiWrite
  rw [hb, if_neg (by decide), if_pos hv]

/-- A command that a ring refuses: RING_ERR is set and noted, and what notices cannot change of the mailbox stays. -/
theorem gives_ringError {i : Instr} {f : State → State} {m : Nat} {s : State} {P : Mailbox → Prop} (hi : exec i s = .next (after f s))
    (he : effectOf f s = ringError m { s with emitted := [] }) (hq : Quietly 16 2 m s) (hd : s.flt.detected = [])
    (hP : Lasting P) (h : P { s.mb m with ringErr := true }) :
    Gives i s [.hcp, .flt] fun t => (t.mb m).ringErr = true ∧ P (t.mb m) ∧ Noted 16 2 m s t := by
  refine gives_of_raise hi he hq hd rfl rfl rfl .of_parts
    fun t F N _ => ⟨F.mb _ lasting_ringErr m ?_, F.mb _ hP m ?_, N⟩
  · exact congrArg Mailbox.ringErr (State.mb_setMb_self ..)
  · exact (State.mb_setMb_self ({ s with emitted := [] } : State) m _).symm ▸ h

theorem lasting_reqPi (v : W16) : Lasting fun b => b.reqPi = v :=
  fun _ _ _ _ _ _ h => h

theorem lasting_rspCi (v : W16) : Lasting fun b => b.rspCi = v :=
  fun _ _ _ _ _ _ h => h

/-- Settles O2: a value in range is one update of the mailbox; one out of range is RING_ERR alone. -/
theorem ringRegistersTakeValuesInRange : Obligations.RingRegistersTakeValuesInRange := by
  unfold Obligations.RingRegistersTakeValuesInRange
  refine ⟨?_, ?_, ?_, ?_, ?_, ?_, ?_⟩
  · intro s m rsp addr hInv hb hc
    exact gives_of_effect rfl ((if_pos hb).trans (writeBase_closed rsp addr hc)) hInv.acted .of_parts fun t F => F.hcp
  · intro s m addr hInv hb hp
    exact gives_of_effect rfl ((if_pos hb).trans (writeBase_paused addr hp)) hInv.acted .of_parts fun t F => F.hcp
  · intro s m v hInv hb hv
    exact gives_of_effect rfl (reqPiDoorbell_within hb hv) hInv.acted .of_parts fun t F => F.hcp
  · intro s m v hInv hb hv
    exact gives_of_effect rfl (rspCiWrite_within hb hv) hInv.acted .of_parts fun t F => F.hcp
  · intro s m hInv hb
    exact gives_of_effect rfl (if_pos hb) hInv.acted .of_parts fun t F => F.hcp
  · intro s m v hInv hb hv hq
    exact gives_ringError (P := fun b => b.reqPi = (s.mb m).reqPi) rfl
      (reqPiDoorbell_beyond (s := { s with emitted := [] }) hb hv) hq hInv.acted (lasting_reqPi _) rfl
  · intro s m v hInv hb hv hq
    exact gives_ringError (P := fun b => b.rspCi = (s.mb m).rspCi) rfl
      (rspCiWrite_beyond (s := { s with emitted := [] }) hb hv) hq hInv.acted (lasting_rspCi _) rfl

end Sys2Proof.Machine
end

