-- ==== Sys2Proof/Proofs/Entries.lean ====
section
/-! SUPPORT. The entries of a mailbox on their way out (R39, R42, R45, R47, R58, R60). -/

namespace Sys2Proof.Machine

set_option Elab.async false

/-! ## The front entry comes off its queue -/

theorem entryWritten_response {m : Nat} {e : Entry} (s : State) (hn : e.isNotice = false) (hs : e.slot = none) :
    entryWritten m e s = s.setMb m { s.mb m with waiting := (s.mb m).waiting.drop 1 } := by
  unfold entryWritten
  simp [hn, hs]

theorem entryWritten_mailOnly (m : Nat) (e : Entry) (s : State) : MailOnly s (entryWritten m e s) := by
  unfold entryWritten
  dsimp only
  split
  · rfl
  · split <;> rfl

/-- The queue moves on, and a notification slot is no longer in use. -/
theorem entryWritten_mb_self (m : Nat) (e : Entry) (s : State) : (entryWritten m e s).mb m =
    { s.mb m with
      waiting := (s.mb m).waiting.drop 1, slots := (s.mb m).slots.filter fun n => e.slot ≠ some n } := by
  unfold entryWritten
  dsimp only
  cases hs : e.slot with
  | some n =>
    dsimp only
    rw [returnSlot_mb_self, State.mb_setMb_self]
    simp only [ne_eq, Option.some.injEq, eq_comm]
  | none =>
    have hall : (s.mb m).slots.filter (fun n => (none : Option Nat) ≠ some n) = (s.mb m).slots :=
      List.filter_eq_self.mpr fun n _ => by simp
    rw [hall]
    dsimp only
    split
    · exact State.mb_setMb_self ..
    · exact State.mb_setMb_self ..

theorem entryWritten_mb_ne {m k : Nat} (e : Entry) (s : State) (h : k ≠ m) : (entryWritten m e s).mb k = s.mb k := by
  unfold entryWritten
  dsimp only
  split
  · exact (returnSlot_mb_ne _ _ h).trans (State.mb_setMb_ne _ _ h)
  · split
    · exact State.mb_setMb_ne _ _ h
    · exact State.mb_setMb_ne _ _ h

/-! ## The notice log -/

theorem evictOldest_sublist : ∀ l : List LogEntry, (evictOldest l).Sublist l
  | [] => .slnil
  | e :: es => by
    unfold evictOldest
    split
    · exact List.sublist_cons_self e es
    · exact (evictOldest_sublist es).cons_cons e

theorem evictOldest_length : ∀ l : List LogEntry, l.length ≤ (evictOldest l).length + 1
  | [] => Nat.zero_le _
  | e :: es => by
    unfold evictOldest
    split
    · exact Nat.le_refl _
    · exact Nat.succ_le_succ (evictOldest_length es)

theorem trimLog_subset (l : List LogEntry) : ∀ x ∈ trimLog l, x ∈ l := by
  unfold trimLog
  split
  · exact fun x hx => (evictOldest_sublist l).mem hx
  · exact fun x hx => hx

theorem trimLog_length (l : List LogEntry) : l.length ≤ (trimLog l).length + 1 := by
  unfold trimLog
  split
  · exact evictOldest_length l
  · exact Nat.le_succ _

theorem unpinSlot_unpins (m n : Nat) (l : List LogEntry) : ∀ x ∈ unpinSlot m n l, x.mb = m → x.pinSlot ≠ some n := by
  intro x hx hm
  obtain ⟨y, -, rfl⟩ := List.mem_map.mp (trimLog_subset _ x hx)
  by_cases h : y.mb = m ∧ y.pinSlot = some n
  · rw [if_pos h]
    exact nofun
  · rw [if_neg h] at hm ⊢
    exact fun hn => h ⟨hm, hn⟩

theorem unpinSlot_length (m n : Nat) (l : List LogEntry) : l.length ≤ (unpinSlot m n l).length + 1 := by
  have h := trimLog_length (l.map fun e => if e.mb = m ∧ e.pinSlot = some n then { e with pinSlot := none } else e)
  rwa [List.length_map] at h

/-- A notice that is written leaves the log unpinned. -/
theorem entryWritten_unpinned {m : Nat} {e : Entry} {s t x : State} (hn : e.isNotice = true)
    (ht : t.hcp.log = (entryWritten m e x).hcp.log) (hl : s.hcp.log = x.hcp.log) : Unpinned m e s t := by
  unfold Unpinned
  rw [ht, hl]
  unfold entryWritten
  dsimp only
  cases hs : e.slot with
  | some n => exact ⟨unpinSlot_unpins m n _, unpinSlot_length m n _⟩
  | none =>
    simp only [hn, if_true]
    refine ⟨fun y hy hm hq => ?_, List.length_map _⟩
    obtain ⟨z, -, rfl⟩ := List.mem_map.mp hy
    by_cases h : z.mb = m ∧ z.hubSeq = e.hubSeq
    · rw [if_pos h]
    · rw [if_neg h] at hm hq
      exact absurd ⟨hm, hq⟩ h

/-! ## The three paths -/

theorem responseWrite_eq {m : Nat} {e : Entry} {rest : List Entry} {s : State} (ha : s.answers = true) (hn : e.isNotice = false)
    (ho : (writeEntry m e s).chip.sysResetOwed = false) (hw : (s.mb m).waiting = e :: rest) :
    responseWrite m s = writeEntry m e s := by
  unfold responseWrite resetAfter
  simp [hw, hn, ha, ho]

theorem noticeWrite_eq {m : Nat} {e : Entry} {rest : List Entry} {s : State} (ha : s.serves = true) (hn : e.isNotice = true)
    (hw : (s.mb m).waiting = e :: rest) : noticeWrite m s = writeEntry m e s := by
  unfold noticeWrite
  simp [hw, hn, ha]

/-- The ring takes an entry: it is in host memory at RSP_PI, and the vector follows where IRQ_EN is 1. -/
def ringTakes (m : Nat) (e : Entry) (s : State) : State :=
  let b := s.mb m
  let u := (s.setMb m { b with rspPi := b.rspPi + 1 }).emit (.ringWrite m (b.rspPi.toNat % 64) e.frame)
  if b.irqEn then u.raiseMsix m else u

theorem writeEntry_ring {m : Nat} {e : Entry} {s : State} (hm : m < 8) (hs : (s.mb m).session = .opened)
    (hu : s.chip.pcieUp = true) (hr : ((s.mb m).rspPi - (s.mb m).rspCi).toNat < 64) :
    writeEntry m e s = entryWritten m e (ringTakes m e s) := by
  unfold writeEntry ringTakes
  have hroom : ¬ 64 ≤ ((s.mb m).rspPi - (s.mb m).rspCi).toNat := Nat.not_le.mpr hr
  rw [if_pos hm, if_neg (by simp only [hs, hu, hroom]; decide)]

theorem raiseMsix_eq (s : State) (v : Nat) :
    s.raiseMsix v = { s with hcp := { s.hcp with pba := (s.raiseMsix v).hcp.pba }, emitted := (s.raiseMsix v).emitted } := by
  unfold State.raiseMsix State.emit
  split
  · rfl
  · split <;> rfl

theorem raiseMsix_emitted {e : Emission} (s : State) (v : Nat) (h : e ∈ s.emitted) : e ∈ (s.raiseMsix v).emitted := by
  unfold State.raiseMsix State.emit
  split
  · exact h
  · split
    · exact List.mem_append_left _ h
    · exact h

theorem raiseMsix_signalled {v : Nat} {s : State} (hv : v < 9) (hu : s.chip.pcieUp = true) : Signalled v (s.raiseMsix v) := by
  unfold Signalled State.raiseMsix State.emit
  rw [hu]
  split
  · right
    have hbit : (2 ^ v).testBit v = true := Nat.testBit_two_pow_self
    rw [BitVec.getLsbD_or, BitVec.getLsbD_ofNat, hbit, decide_eq_true hv]
    simp
  · left
    simp

theorem ringTakes_eq (m : Nat) (e : Entry) (s : State) : ∃ p es, ringTakes m e s =
    { s with hcp := { s.hcp with mbs := tset {} s.hcp.mbs m { s.mb m with rspPi := (s.mb m).rspPi + 1 }, pba := p }, emitted := es } := by
  unfold ringTakes
  dsimp only
  split
  · rw [raiseMsix_eq]
    exact ⟨_, _, rfl⟩
  · exact ⟨_, _, rfl⟩

theorem ringTakes_emitted (m : Nat) (e : Entry) (s : State) :
    .ringWrite m ((s.mb m).rspPi.toNat % 64) e.frame ∈ (ringTakes m e s).emitted := by
  unfold ringTakes
  dsimp only
  split
  · exact raiseMsix_emitted _ _ (by simp [State.emit])
  · simp [State.emit]

theorem ringTakes_signalled {m : Nat} (e : Entry) {s : State} (hm : m < 8) (hu : s.chip.pcieUp = true) (hi : (s.mb m).irqEn = true) :
    Signalled m (ringTakes m e s) := by
  unfold ringTakes
  simp only [hi, if_true]
  exact raiseMsix_signalled (by omega) hu

theorem MailOnly.chip {s t : State} (h : MailOnly s t) : t.chip = s.chip := (congrArg State.chip h).trans rfl

theorem MailOnly.emitted {s t : State} (h : MailOnly s t) : t.emitted = s.emitted := (congrArg State.emitted h).trans rfl

theorem MailOnly.free {s t : State} (h : MailOnly s t) : t.freeCount = s.freeCount := (congrArg State.freeCount h).trans rfl

/-- Where a datagram of mailbox 8 goes: a notice to the peer, a response to the source of its request first. -/
def State.goesTo (s : State) (e : Entry) : Option (Bytes × Nat) := if e.isNotice then s.hcp.peer else s.hcp.replyTo.or s.hcp.peer

theorem writeEntry_datagram {e : Entry} {a : Bytes} {p : Nat} {s : State} (h : s.goesTo e = some (a, p)) :
    writeEntry 8 e s = entryWritten 8 e (sendDatagram a p e.frame s) := by
  unfold State.goesTo at h
  unfold writeEntry
  simp [h]

/-- The response buffer of the SPI port takes an entry. -/
def spiTakes (e : Entry) (s : State) : State :=
  { s with hcp := { s.hcp with spiReady := true, spiRsp := memWrite [] 0 e.frame } }

theorem writeEntry_spi {e : Entry} {s : State} (h : s.hcp.spiReady = false) :
    writeEntry 9 e s = entryWritten 9 e (spiTakes e s) := by
  unfold writeEntry spiTakes
  simp [h]

/-- Pieces that are long enough together make up the whole. -/
theorem fragments_flatten (size : Nat) : ∀ (n : Nat) (b : Bytes), b.length ≤ size * n → (fragments size n b).flatten = b
  | 0, _, h => (List.length_eq_zero_iff.mp (Nat.le_zero.mp h)).symm
  | n + 1, b, h => by
    unfold fragments
    split
    · simp_all
    · have hd : (b.drop size).length ≤ size * n := by
        rw [List.length_drop]
        rw [Nat.mul_succ] at h
        omega
      rw [List.flatten_cons, fragments_flatten size n _ hd, List.take_append_drop]

theorem fragmentBytes_ge (dst : Bytes) (n : Nat) : 1448 ≤ fragmentBytes dst n := by
  unfold fragmentBytes
  split
  · decide
  · split <;> decide

theorem udpDatagram_length (port checksum : Nat) (frame : Bytes) : (udpDatagram port checksum frame).length = 8 + frame.length := by
  simp [udpDatagram, be, le]
  omega

/-- A frame of at most 4,096 bytes goes out as one datagram in its pieces. -/
theorem sendDatagram_emitted (a : Bytes) (p : Nat) {frame : Bytes} (s : State) (h : frame.length ≤ 4096) :
    ∃ parts c, .datagram a p parts ∈ (sendDatagram a p frame s).emitted ∧ parts.flatten = udpDatagram p c frame := by
  refine ⟨_, _, List.mem_append_right _ (List.mem_singleton_self _), fragments_flatten _ 4 _ ?_⟩
  rw [udpDatagram_length]
  have := fragmentBytes_ge a (8 + frame.length)
  omega

/-! ## One command for each path -/

/-- What is left of a mailbox, the other mailboxes and the log once entry e has been written from it. -/
structure Leaves (m : Nat) (e : Entry) (s x t : State) : Prop where
  mb : t.mb m = { x.mb m with
    waiting := (s.mb m).waiting.drop 1, slots := (s.mb m).slots.filter fun n => e.slot ≠ some n }
  others : ∀ k, k ≠ m → t.mb k = s.mb k
  hcp : t.hcp = { x.hcp with pba := t.hcp.pba, mbs := t.hcp.mbs, log := t.hcp.log }
  log : t.hcp.log = (entryWritten m e x).hcp.log
  emitted : ∀ o ∈ x.emitted, o ∈ t.emitted
  pending : ∀ v, x.hcp.pba.getLsbD v = true → t.hcp.pba.getLsbD v = true

/-- A command that writes an entry, where its path takes it as `x`. -/
theorem gives_entryWritten {i : Instr} {f : State → State} {m : Nat} {e : Entry} {s x : State} {ch : List Part} {post : State → Prop}
    (hi : exec i s = .next (after f s)) (he : effectOf f s = entryWritten m e x) (hd : x.flt.detected = []) (hk : Keeps ch s x)
    (hh : Part.hcp ∈ ch) (hw : (x.mb m).waiting = (s.mb m).waiting) (hs : (x.mb m).slots = (s.mb m).slots)
    (ho : ∀ k, k ≠ m → x.mb k = s.mb k) (hp : ∀ t, Leaves m e s x t → post t) : Gives i s ch post := by
  have hx := entryWritten_mailOnly m e x
  refine gives_of_effect_pba hi he (by rw [hx.flt]; exact hd) (fun p hc => ?_) fun t F hv => hp t ?_
  · have h1 := hk p hc
    have h2 := hx.keeps p
    have hne : p ≠ .hcp := fun e => hc (e ▸ hh)
    have h3 := h2 (by simpa using hne)
    cases p
    case hcp => exact absurd rfl hne
    all_goals exact h3.trans h1
  · constructor
    case mb => rw [F.mb, entryWritten_mb_self, hw, hs]
    case others => exact fun k hk => (F.mb k).trans ((entryWritten_mb_ne e x hk).trans (ho k hk))
    case hcp =>
      have hl := congrArg Hcp.log F.hcp
      have hb := congrArg Hcp.mbs F.hcp
      rw [hl, hb, F.hcp, hx.hcp]
    case log => exact (congrArg Hcp.log F.hcp).trans rfl
    case emitted => exact fun o h => F.emitted o (hx.emitted.symm ▸ h)
    case pending =>
      intro v h
      refine hv v ?_
      rw [hx.hcp]
      exact h

theorem writeEntry_chip (m : Nat) (e : Entry) (s : State) : (writeEntry m e s).chip = s.chip := by
  unfold writeEntry
  dsimp only
  split
  · split
    · rfl
    · rw [(entryWritten_mailOnly ..).chip]
      split
      · rw [raiseMsix_eq]
        rfl
      · rfl
  · split
    · split <;> exact (entryWritten_mailOnly ..).chip
    · split
      · rfl
      · exact (entryWritten_mailOnly ..).chip

/-- The ring's path: what a write to host memory leaves, response or notice. -/
theorem gives_ringWrite {i : Instr} {f : State → State} {m : Fin 10} {e : Entry} {rest : List Entry} {s : State} {post : State → Prop}
    (hi : exec i s = .next (after f s)) (he : effectOf f s = writeEntry m e { s with emitted := [] }) (hd : s.flt.detected = [])
    (hm : m.val < 8) (hu : s.chip.pcieUp = true) (ho : (s.mb m).session = .opened) (hw : (s.mb m).waiting = e :: rest)
    (hr : ((s.mb m).rspPi - (s.mb m).rspCi).toNat < 64)
    (hp : ∀ t,
      t.mb m = { s.mb m with
        rspPi := (s.mb m).rspPi + 1, waiting := rest, slots := (s.mb m).slots.filter fun n => e.slot ≠ some n } →
      (∀ k, k ≠ m.val → t.mb k = s.mb k) → Leaves m e s (ringTakes m e { s with emitted := [] }) t →
      .ringWrite m ((s.mb m).rspPi.toNat % 64) e.frame ∈ t.emitted → ((s.mb m).irqEn = true → Signalled m t) → post t) :
    Gives i s [.hcp] post := by
  obtain ⟨p, es, hx⟩ := ringTakes_eq m e { s with emitted := [] }
  have hmb : (ringTakes m e { s with emitted := [] }).mb m = { s.mb m with rspPi := (s.mb m).rspPi + 1 } := by
    rw [hx]
    exact tget_tset_self ..
  have hne : ∀ k, k ≠ m.val → (ringTakes m e { s with emitted := [] }).mb k = s.mb k := by
    intro k hk
    rw [hx]
    exact tget_tset_ne _ _ _ _ _ hk
  refine gives_entryWritten hi (he.trans (writeEntry_ring hm ho hu hr)) (by rw [hx]; exact hd) (by rw [hx]; exact .of_parts)
    (by simp) (by rw [hmb]) (by rw [hmb]) hne fun t L => hp t ?_ L.others L (L.emitted _ (ringTakes_emitted ..)) fun hq => ?_
  · rw [L.mb, hmb, hw]
    rfl
  · obtain h | h := ringTakes_signalled (s := { s with emitted := [] }) e hm hu hq
    · exact .inl (L.emitted _ h)
    · exact .inr (L.pending _ h)

/-- A response holds no notification slot. -/
theorem filter_slots_none (ks : List Nat) : (ks.filter fun n => (none : Option Nat) ≠ some n) = ks :=
  List.filter_eq_self.mpr fun n _ => by simp

/-! ## NOTICES_LOST -/

/-- An unsolicited notice, where the log has room. -/
theorem notifyOne_room {o m : Nat} {p : Bytes} {s : State} (h : logRoom s.hcp.log = true) :
    let f := rspFrame (s.mb m).version false 0xFFFFFFFF (s.mb m).hubSeq o 0 0 0 p
    notifyOne o p m s =
      { s with hcp := { s.hcp with
        mbs := tset {} s.hcp.mbs m { s.mb m with
          hubSeq := (s.mb m).hubSeq + 1
          waiting := (s.mb m).waiting ++ if s.deliverable m then [⟨true, (s.mb m).hubSeq, f, none⟩] else [] }
        log := addUnsolicited s.hcp.log ⟨m, (s.mb m).hubSeq, f, none, s.deliverable m⟩ } } := by
  unfold notifyOne State.setMb
  simp only [h, if_true]
  cases s.deliverable m with
  | true => rfl
  | false => simp only [Bool.false_eq_true, if_false, List.append_nil]

theorem addUnsolicited_last (l : List LogEntry) (e : LogEntry) : (addUnsolicited l e).getLast? = some e := by
  unfold addUnsolicited
  exact List.getLast?_concat

theorem noticesLost_eq {m : Nat} {s : State} (ho : (s.mb m).lostOwed = true) (hf : s.fwRuns = true) (hl : logRoom s.hcp.log = true) :
    noticesLost m s = notifyOne 0x0180 (le 4 (s.mb m).lost.toNat) m (s.setMb m { s.mb m with lostOwed := false }) := by
  unfold noticesLost
  rw [ho, hf, hl]
  rfl

/-- What no notice can be delivered by does not change with what is owed. -/
theorem deliverable_setMb {m : Nat} {b : Mailbox} {s : State} (h : b.session = (s.mb m).session) :
    (s.setMb m b).deliverable m = s.deliverable m := by
  unfold State.deliverable State.mbOpen
  rw [State.mb_setMb_self, h]
  rfl

/-- Settles O3: each path takes the entry, which then comes off the queue. -/
theorem entriesLeaveTheirQueueInOrder : Obligations.EntriesLeaveTheirQueueInOrder := by
  unfold Obligations.EntriesLeaveTheirQueueInOrder
  refine ⟨?_, ?_, ?_, ?_, ?_, ?_, ?_⟩
  · intro s m e rest hInv hm ha hn hs hso hu ho hw hr
    refine gives_ringWrite rfl (responseWrite_eq (s := { s with emitted := [] }) ha hn (by rw [writeEntry_chip]; exact hso) hw) hInv.acted hm hu ho hw hr
      fun t hmb hot L hem hsig => ⟨?_, hot, ?_, hem, hsig⟩
    · rw [hmb, hs, filter_slots_none]
    · obtain ⟨p, es, hx⟩ := ringTakes_eq m e { s with emitted := [] }
      rw [L.log, entryWritten_response _ hn hs, hx]
      rfl
  · intro s e rest a p hInv ha hn hs hso hw hto hlen
    have hpath := writeEntry_datagram (e := e) (s := { s with emitted := [] }) (a := a) (p := p)
      (by unfold State.goesTo; rw [hn]; exact hto)
    have heff : effectOf (responseWrite 8) s = _ :=
      (responseWrite_eq (s := { s with emitted := [] }) ha hn (by rw [writeEntry_chip]; exact hso) hw).trans (hpath.trans (entryWritten_response _ hn hs))
    have hx : (({ s with emitted := [] } : State).setMb 8 { s.mb 8 with waiting := (s.mb 8).waiting.drop 1 }).hcp =
        { s.hcp with mbs := tset {} s.hcp.mbs 8 { s.mb 8 with waiting := rest } } := by
      rw [State.setMb_hcp, hw]
      rfl
    refine gives_of_effect (f := responseWrite 8) rfl heff hInv.acted .of_parts fun t F => ⟨?_, ?_⟩
    · rw [F.hcp]
      exact congrArg (fun h : Hcp => { h with pba := t.hcp.pba }) hx
    · obtain ⟨parts, c, hm, hf⟩ := sendDatagram_emitted a p ({ s with emitted := [] } : State) hlen
      exact ⟨parts, c, F.emitted _ hm, hf⟩
  · intro s e rest hInv ha hn hs hso hw hr
    have heff : effectOf (responseWrite 9) s = _ :=
      (responseWrite_eq (s := { s with emitted := [] }) ha hn (by rw [writeEntry_chip]; exact hso) hw).trans
        ((writeEntry_spi (s := { s with emitted := [] }) hr).trans (entryWritten_response _ hn hs))
    have hx : ((spiTakes e { s with emitted := [] }).setMb 9 { s.mb 9 with waiting := (s.mb 9).waiting.drop 1 }).hcp =
        { s.hcp with
          spiReady := true, spiRsp := memWrite [] 0 e.frame
          mbs := tset {} s.hcp.mbs 9 { s.mb 9 with waiting := rest } } := by
      rw [State.setMb_hcp, hw]
      rfl
    refine gives_of_effect (f := responseWrite 9) rfl heff hInv.acted .of_parts fun t F => ?_
    rw [F.hcp]
    exact congrArg (fun h : Hcp => { h with pba := t.hcp.pba }) hx
  · intro s m e rest hInv hm ha hn hu ho hw hr
    refine gives_ringWrite rfl (noticeWrite_eq (s := { s with emitted := [] }) ha hn hw) hInv.acted hm hu ho hw hr
      fun t hmb hot L hem hsig => ⟨hmb, hot, ?_, hem, hsig⟩
    obtain ⟨p, es, hx⟩ := ringTakes_eq m e { s with emitted := [] }
    refine entryWritten_unpinned hn L.log ?_
    rw [hx]
  · intro s e rest a p hInv ha hn hw hto hlen
    have hpath := writeEntry_datagram (e := e) (s := { s with emitted := [] }) (a := a) (p := p)
      (by unfold State.goesTo; rw [hn]; exact hto)
    refine gives_entryWritten (f := noticeWrite 8) rfl ((noticeWrite_eq (s := { s with emitted := [] }) ha hn hw).trans hpath) hInv.acted .of_parts (by simp) rfl rfl
      (fun _ _ => rfl) fun t L => ⟨?_, L.others, entryWritten_unpinned hn L.log rfl, ?_⟩
    · rw [L.mb, hw]
      rfl
    · obtain ⟨parts, c, hm, hf⟩ := sendDatagram_emitted a p ({ s with emitted := [] } : State) hlen
      exact ⟨parts, c, L.emitted _ hm, hf⟩
  · intro s e rest hInv ha hn hw hr
    refine gives_entryWritten (f := noticeWrite 9) rfl ((noticeWrite_eq (s := { s with emitted := [] }) ha hn hw).trans (writeEntry_spi (s := { s with emitted := [] }) hr)) hInv.acted .of_parts (by simp) rfl rfl
      (fun _ _ => rfl) fun t L => ⟨?_, L.others, entryWritten_unpinned hn L.log rfl, ?_⟩
    · rw [L.mb, hw]
      rfl
    · rw [L.hcp]
      rfl
  · intro s m hInv ho hf hl
    have hlost := noticesLost_eq (s := { s with emitted := [] }) ho hf hl
    have hnote := notifyOne_room (o := 0x0180) (m := m) (p := le 4 (s.mb m).lost.toNat)
      (s := ({ s with emitted := [] } : State).setMb m { s.mb m with lostOwed := false }) hl
    have hd : (({ s with emitted := [] } : State).setMb m { s.mb m with lostOwed := false }).deliverable m = s.deliverable m :=
      deliverable_setMb rfl
    dsimp only at hnote
    rw [State.mb_setMb_self, hd] at hnote
    refine gives_of_effect rfl (hlost.trans hnote) hInv.acted .of_parts fun t F => ⟨?_, fun k hk => ?_, ?_⟩
    · exact (F.mb m).trans (tget_tset_self ..)
    · exact (F.mb k).trans ((tget_tset_ne _ _ _ _ _ hk).trans (State.mb_setMb_ne _ _ hk))
    · rw [F.hcp]
      exact addUnsolicited_last _ _

end Sys2Proof.Machine
end

