-- ==== Sys2Proof/Proofs/Datagrams.lean ====
section
/-! SUPPORT. Management Ethernet (R43, R44): whole datagrams and fragments. -/

namespace Sys2Proof.Machine

set_option Elab.async false

/-! ## Byte strings -/

theorem length_memRead (m : List Host.Cell) : ∀ (n a : Nat), (memRead m a n).length = n
  | 0, _ => rfl
  | n + 1, a => congrArg (· + 1) (length_memRead m n (a + 1))

theorem getU_drop (b : Bytes) (k o n : Nat) : getU (b.drop k) o n = getU b (k + o) n := by
  unfold getU sub
  rw [List.drop_drop]

/-! ## Whole datagrams -/

theorem mgmtDatagramRx_mine {h : MgmtHead} {sport udpLen : Nat} {data : Bytes} {s : State} (hm : s.mgmtMine h = true) :
    mgmtDatagramRx h ⟨sport, 47104⟩ udpLen data s = takeDatagram h.src sport udpLen data s := by
  unfold mgmtDatagramRx
  rw [hm]
  rfl

theorem mgmtDatagramRx_other {h : MgmtHead} {ports : UdpPorts} {udpLen : Nat} {data : Bytes} {s : State}
    (hm : s.mgmtMine h = false ∨ ports.dport ≠ 47104) : mgmtDatagramRx h ports udpLen data s = s := by
  unfold mgmtDatagramRx
  rw [if_neg]
  rw [Bool.and_eq_true, beq_iff_eq]
  rintro ⟨h1, h2⟩
  obtain h | h := hm
  · rw [h1] at h
    exact Bool.noConfusion h
  · exact h h2

theorem takeDatagram_fits {src : Bytes} {sport udpLen : Nat} {data : Bytes} {s : State} (ha : s.awake = true)
    (ho : s.mbOpen 8 = true) (hl : 32 ≤ data.length) (hu : udpLen = 40 + getU data 0xA 2) (hd : data.length = udpLen - 8) :
    takeDatagram src sport udpLen data s =
      { s with hcp := { s.hcp with mgmtQueue := s.hcp.mgmtQueue ++ [(src, sport, data)] } } := by
  unfold takeDatagram
  rw [ha, ho, if_neg (by decide), if_pos ⟨hl, hu, hd⟩]

theorem takeDatagram_misfits {src : Bytes} {sport udpLen : Nat} {data : Bytes} {s : State} (ha : s.awake = true)
    (ho : s.mbOpen 8 = true) (hu : udpLen ≠ 40 + getU data 0xA 2) : takeDatagram src sport udpLen data s =
      raise 16 3 17 { s with hcp := { s.hcp with mgmtErrors := s.hcp.mgmtErrors + 1 } } := by
  unfold takeDatagram
  rw [ha, ho, if_neg (by decide), if_neg (fun h => hu h.2.1)]

/-! ## Fragments -/

/-- The state that holds no partial datagram of this source and id. -/
theorem dropPartial_eq (src : Bytes) (id : Nat) (s : State) :
    dropPartial src id s = { s with hcp := { s.hcp with partials := s.partialsBut src id } } := rfl

/-- What a fragment makes of its datagram `p`: it ends, waits for more, or is complete. -/
def afterFragment (src : Bytes) (id : Nat) (p : Partial) (last : Nat) (s : State) : State :=
  let u := dropPartial src id s
  if 4104 < last then u
  else match p.total with
    | none => { u with hcp := { u.hcp with partials := u.hcp.partials ++ [p] } }
    | some n =>
      let b := p.bytes n
      if ofBe (sub b 2 2) = 47104 then takeDatagram src (ofBe (sub b 0 2)) (ofBe (sub b 4 2)) (b.drop 8) u else u

theorem mgmtFragmentRx_joins {h : MgmtHead} {id offset : Nat} {more : Bool} {data : Bytes} {p : Partial} {s : State}
    (ha : s.awake = true) (ho : s.mbOpen 8 = true) (hm : s.mgmtMine h = true)
    (hp : s.PartialWith h.src id offset more data p) :
    mgmtFragmentRx h id offset more data s = afterFragment h.src id p (offset + data.length) s := by
  obtain ⟨q, rfl, hq⟩ := hp
  unfold mgmtFragmentRx
  rw [ha, ho, hm, if_neg (by decide)]
  dsimp only
  obtain hf | ⟨hf, hl, rfl⟩ := hq
  · rw [hf, if_neg (by simp)]
    rfl
  · rw [hf, if_neg (by simp; omega)]
    rfl

/-- The first fragment of a ninth datagram is not held. -/
theorem mgmtFragmentRx_ninth {h : MgmtHead} {id offset : Nat} {more : Bool} {data : Bytes} {s : State}
    (hl : 8 ≤ s.hcp.partials.length) (hn : ∀ p ∈ s.hcp.partials, ¬ (p.src = h.src ∧ p.id = id)) :
    mgmtFragmentRx h id offset more data s = s := by
  have hf : s.hcp.partials.find? (fun p => p.src == h.src && p.id == id) = none := by
    rw [List.find?_eq_none]
    intro p hp
    simpa using hn p hp
  unfold mgmtFragmentRx
  split
  · rfl
  · dsimp only
    rw [hf, if_pos ⟨rfl, hl⟩]

theorem afterFragment_waits {src : Bytes} {id last : Nat} {p : Partial} {s : State} (hl : last ≤ 4104) (ht : p.total = none) :
    afterFragment src id p last s =
      { s with hcp := { s.hcp with partials := s.partialsBut src id ++ [p] } } := by
  unfold afterFragment
  dsimp only
  rw [if_neg (Nat.not_lt.mpr hl), ht]
  rfl

theorem afterFragment_ends {src : Bytes} {id last : Nat} {p : Partial} {s : State} (hl : 4104 < last) :
    afterFragment src id p last s = dropPartial src id s := by
  unfold afterFragment
  exact if_pos hl

theorem afterFragment_complete {src : Bytes} {id last n : Nat} {p : Partial} {s : State} (ha : s.awake = true)
    (ho : s.mbOpen 8 = true) (hl : last ≤ 4104) (ht : p.total = some n) (hport : ofBe (sub (p.bytes n) 2 2) = 47104)
    (hn : 40 ≤ n) (hf : n = 40 + getU (p.bytes n) 0x12 2) (hu : ofBe (sub (p.bytes n) 4 2) = n) :
    afterFragment src id p last s = { s with hcp := { s.hcp with
      partials := s.partialsBut src id
      mgmtQueue := s.hcp.mgmtQueue ++ [(src, ofBe (sub (p.bytes n) 0 2), (p.bytes n).drop 8)] } } := by
  have hlen : ((p.bytes n).drop 8).length = n - 8 := by
    rw [List.length_drop]
    unfold Partial.bytes
    rw [length_memRead]
  unfold afterFragment
  dsimp only
  rw [if_neg (Nat.not_lt.mpr hl), ht]
  dsimp only
  rw [if_pos hport, hu]
  refine takeDatagram_fits (s := dropPartial src id s) ha ho (by omega) ?_ hlen
  rw [getU_drop]
  exact hf

theorem mgmtFragmentTimeout_due {src : Bytes} {id : Nat} {s : State}
    (h : ∃ p ∈ s.hcp.partials, p.src = src ∧ p.id = id ∧ p.since + 1000000000 ≤ s.tick) :
    mgmtFragmentTimeout src id s = dropPartial src id s := by
  unfold mgmtFragmentTimeout
  rw [if_pos]
  obtain ⟨p, hp, hs, hi, ht⟩ := h
  refine List.any_eq_true.mpr ⟨p, hp, ?_⟩
  rw [hs, hi, decide_eq_true ht]
  simp

/-- Settles O4: a datagram waits, is counted, or is none of mailbox 8's; a fragment joins its partial. -/
theorem datagramsAreTakenCountedOrDropped : Obligations.DatagramsAreTakenCountedOrDropped := by
  unfold Obligations.DatagramsAreTakenCountedOrDropped
  refine ⟨?_, ?_, ?_, ?_, ?_, ?_, ?_, ?_⟩
  · intro s h sport data hInv ha ho hm hl hd
    have heff := (mgmtDatagramRx_mine (s := { s with emitted := [] }) hm).trans
      (takeDatagram_fits (src := h.src) (sport := sport) (udpLen := 8 + data.length) ha ho hl (by omega) (by omega))
    exact gives_of_effect rfl heff hInv.acted .of_parts fun t F => F.hcp
  · intro s h sport udpLen data hInv ha ho hm hu hq
    have heff := (mgmtDatagramRx_mine (s := { s with emitted := [] }) hm).trans
      (takeDatagram_misfits (src := h.src) (sport := sport) ha ho hu)
    refine gives_of_raise rfl heff hq hInv.acted rfl rfl rfl .of_parts fun t F N H => ⟨N, ?_, ?_⟩
    · rw [H]
      rfl
    · rw [H]
  · intro s h ports udpLen data hInv hm
    exact gives_nothing rfl (mgmtDatagramRx_other (s := { s with emitted := [] }) hm) hInv.acted fun _ _ => trivial
  · intro s h id offset more data p hInv ha ho hm hp hl ht
    have heff := (mgmtFragmentRx_joins (s := { s with emitted := [] }) ha ho hm hp).trans (afterFragment_waits hl ht)
    exact gives_of_effect rfl heff hInv.acted .of_parts fun t F => F.hcp
  · intro s h id offset more data p n hInv ha ho hm hp hl ht hport hn hf hu
    have heff := (mgmtFragmentRx_joins (s := { s with emitted := [] }) ha ho hm hp).trans
      (afterFragment_complete ha ho hl ht hport hn hf hu)
    exact gives_of_effect rfl heff hInv.acted .of_parts fun t F => F.hcp
  · intro s h id offset more data p hInv ha ho hm hp hl
    have heff := (mgmtFragmentRx_joins (s := { s with emitted := [] }) ha ho hm hp).trans (afterFragment_ends hl)
    exact gives_of_effect rfl heff hInv.acted .of_parts fun t F => F.hcp
  · intro s h id offset more data hInv ha ho hl hn
    exact gives_nothing rfl (mgmtFragmentRx_ninth (s := { s with emitted := [] }) hl hn) hInv.acted fun _ _ => trivial
  · intro s src id hInv hd
    exact gives_of_effect rfl (mgmtFragmentTimeout_due (s := { s with emitted := [] }) hd) hInv.acted .of_parts fun t F => F.hcp

end Sys2Proof.Machine
end

