-- ==== Sys2Proof/Proofs/Registers.lean ====
section
/-! SUPPORT. The SPI management port and register accesses over PCI Express (R37, R46, R47, R67, R68). -/

namespace Sys2Proof.Machine

set_option Elab.async false

/-! ## Little-endian words -/

theorem length_le (n : Nat) : ∀ v, (le n v).length = n := by
  induction n with
  | zero => intro _; rfl
  | succ n ih => intro v; exact congrArg (· + 1) (ih _)

theorem ofLe_le (n : Nat) : ∀ v, v < 256 ^ n → ofLe (le n v) = v := by
  induction n with
  | zero => intro v h; simp only [Nat.pow_zero, Nat.lt_one_iff] at h; exact h.symm
  | succ n ih =>
    intro v h
    rw [Nat.pow_succ] at h
    rw [le, ofLe, ih (v / 256) (by omega)]
    have : (BitVec.ofNat 8 v).toNat = v % 256 := BitVec.toNat_ofNat v 8
    omega

theorem le_ofLe : ∀ b : Bytes, le b.length (ofLe b) = b
  | [] => rfl
  | x :: xs => by
    have hx : x.toNat < 256 := x.isLt
    have hd : (x.toNat + 256 * ofLe xs) / 256 = ofLe xs := by omega
    have hb : BitVec.ofNat 8 (x.toNat + 256 * ofLe xs) = x := by
      apply BitVec.eq_of_toNat_eq
      rw [BitVec.toNat_ofNat]
      omega
    rw [List.length_cons, ofLe, le, hd, hb, le_ofLe xs]

theorem getU_whole {b : Bytes} {n : Nat} (h : b.length = n) : getU b 0 n = ofLe b := by
  unfold getU sub
  dsimp only
  rw [List.drop_zero, List.take_of_length_le (Nat.le_of_eq h), h, Nat.sub_self]
  exact congrArg ofLe (List.append_nil b)

theorem getU_le (n : Nat) {v : Nat} (h : v < 256 ^ n) : getU (le n v) 0 n = v := by
  rw [getU_whole (length_le n v), ofLe_le n v h]

theorem le_getU {b : Bytes} {n : Nat} (h : b.length = n) : le n (getU b 0 n) = b := by
  rw [getU_whole h, ← h, le_ofLe]

/-! ## SPI -/

theorem spiPut_request {a : Nat} (v : Byte) {s : State} (hs : s.awake = true) (ha : a < 4096) :
    spiPut (0x1000 + a) v s = { s with hcp := { s.hcp with spiReq := memSet s.hcp.spiReq a v } } := by
  unfold spiPut
  rw [hs, if_neg (by decide), if_pos (by omega), Nat.add_sub_cancel_left]

/-- Bytes written one by one inside the request buffer are written as a string. -/
theorem spiPuts_request (data : Bytes) : ∀ (k : Nat) (s : State), s.awake = true → k + data.length ≤ 4096 →
    forEach ((List.range data.length).map fun i => (0x1000 + k + i, data.getD i 0)) (fun x t => spiPut x.1 x.2 t) s =
      { s with hcp := { s.hcp with spiReq := memWrite s.hcp.spiReq k data } } := by
  induction data with
  | nil => intro _ _ _ _; rfl
  | cons b bs ih =>
    intro k s hs hl
    rw [List.length_cons] at hl ⊢
    have hmap : ((List.range (bs.length + 1)).map fun i => (0x1000 + k + i, (b :: bs).getD i 0)) =
        (0x1000 + k, b) :: (List.range bs.length).map fun i => (0x1000 + (k + 1) + i, bs.getD i 0) := by
      rw [List.range_succ_eq_map, List.map_cons, List.map_map]
      refine congrArg₂ _ rfl (List.map_congr_left fun i _ => ?_)
      show (0x1000 + k + (i + 1), _) = _
      rw [show 0x1000 + k + (i + 1) = 0x1000 + (k + 1) + i by omega]
      rfl
    rw [hmap]
    show forEach _ _ (spiPut (0x1000 + k) b s) = _
    rw [spiPut_request b hs (by omega)]
    exact ih (k + 1) { s with hcp := { s.hcp with spiReq := memSet s.hcp.spiReq k b } } hs (by omega)

theorem spiTransaction_writes {k : Nat} {data : Bytes} {s : State} (hs : s.awake = true) (hl : k + data.length ≤ 4096) :
    spiTransaction true (BitVec.ofNat 24 (0x1000 + k)).toNat data.length data s =
      { s with hcp := { s.hcp with spiReq := memWrite s.hcp.spiReq k data } } := by
  rw [← spiPuts_request data k s hs hl]
  unfold spiTransaction
  rw [if_pos rfl]
  refine congrArg (forEach · _ s) (List.map_congr_left fun i hi => ?_)
  rw [List.mem_range] at hi
  rw [BitVec.toNat_ofNat, Nat.mod_eq_of_lt (a := 0x1000 + k) (by omega)]
  dsimp only
  rw [Nat.mod_eq_of_lt (by omega)]

/-- The bytes of the last-breath window that a read takes in. -/
def State.breathBytes (s : State) (a n : Nat) : Bytes := (List.range n).map fun i => s.lastBreath.getD (a + i) 0

theorem spiGet_window {s : State} {a : Nat} (hp : s.chip.phase ≠ .off) (ha : a < 0x1000) : spiGet s a = s.lastBreath.getD a 0 := by
  unfold spiGet
  rw [if_pos ha, if_neg hp]

theorem spiGets_window {s : State} {a n : Nat} (hp : s.chip.phase ≠ .off) (hn : a + n ≤ 0x1000) :
    ((List.range n).map fun i => spiGet s ((a + i) % 0x1000000)) = s.breathBytes a n := by
  refine List.map_congr_left fun i hi => ?_
  rw [List.mem_range] at hi
  rw [Nat.mod_eq_of_lt (by omega), spiGet_window hp (by omega)]

/-- A read of the window takes in byte 0x020 or does not. -/
theorem spiRead_captures {a n : Nat} (hn : a + n ≤ 0x1000) :
    ((List.range n).any fun i => (a + i) % 0x1000000 == 0x20) = true ↔ a ≤ 0x20 ∧ 0x20 < a + n := by
  rw [List.any_eq_true]
  constructor
  · rintro ⟨i, hi, he⟩
    rw [List.mem_range] at hi
    rw [beq_iff_eq, Nat.mod_eq_of_lt (by omega)] at he
    omega
  · rintro ⟨h1, h2⟩
    refine ⟨0x20 - a, List.mem_range.mpr (by omega), ?_⟩
    rw [Nat.add_sub_cancel' h1]
    rfl

theorem spiTransaction_reads {a n : Nat} {s : State} (hp : s.chip.phase ≠ .off) (h : ¬ (a ≤ 0x20 ∧ 0x20 < a + n)) (hn : a + n ≤ 0x1000) :
    spiTransaction false (BitVec.ofNat 24 a).toNat n [] s = s.emit (.spiRead (s.breathBytes a n)) := by
  unfold spiTransaction
  rw [if_neg (by decide), BitVec.toNat_ofNat, Nat.mod_eq_of_lt (a := a) (by omega)]
  dsimp only
  rw [if_neg (fun hc => h ((spiRead_captures hn).mp hc.2)), spiGets_window hp hn]

theorem spiTransaction_captures {a n : Nat} {s : State} (hp : s.chip.phase ≠ .off) (h : a ≤ 0x20 ∧ 0x20 < a + n) (hn : a + n ≤ 0x1000) :
    spiTransaction false (BitVec.ofNat 24 a).toNat n [] s =
      s.captureTime.emit (.spiRead (s.captureTime.breathBytes a n)) := by
  unfold spiTransaction
  rw [if_neg (by decide), BitVec.toNat_ofNat, Nat.mod_eq_of_lt (a := a) (by omega)]
  dsimp only
  rw [if_pos ⟨hp, (spiRead_captures hn).mpr h⟩, spiGets_window (s := s.captureTime) hp hn]

theorem emit_mem (s : State) (e : Emission) : e ∈ (s.emit e).emitted :=
  List.mem_append_right _ (List.mem_singleton_self e)

/-- Settles O5: the port's bits are one update each; a transaction is its bytes. -/
theorem spiPortActsAsItsRegistersSay : Obligations.SpiPortActsAsItsRegistersSay := by
  unfold Obligations.SpiPortActsAsItsRegistersSay
  refine ⟨?_, ?_, ?_, ?_, ?_, ?_, ?_⟩
  · intro s k data hInv ha hl
    exact gives_of_effect rfl (spiTransaction_writes (s := { s with emitted := [] }) ha hl) hInv.acted .of_parts fun t F => F.hcp
  · intro s a n hInv hp ha hn
    have heff := spiTransaction_reads (s := { s with emitted := [] }) hp (a := a) (n := n) (by omega) hn
    exact gives_of_effect rfl heff hInv.acted .of_parts fun t F => F.emitted _ (emit_mem _ _)
  · intro s a n hInv hp ha h20 hn
    have heff := spiTransaction_captures (s := { s with emitted := [] }) hp ⟨ha, h20⟩ hn
    exact gives_of_effect rfl heff hInv.acted .of_parts fun t F => ⟨F.hcp, F.emitted _ (emit_mem _ _)⟩
  · intro s hInv ha
    exact gives_of_effect rfl (if_pos ha) hInv.acted .of_parts fun t F => F.hcp
  · intro s hInv ha
    exact gives_of_effect rfl (if_pos ha) hInv.acted .of_parts fun t F => F.hcp
  · intro s hInv ha he
    refine gives_of_effect rfl (if_pos ?_) hInv.acted .of_parts fun t F => F.hcp
    rw [Bool.and_eq_true, Bool.not_eq_true']
    exact ⟨ha, he⟩
  · intro s hInv ha he
    refine gives_closeMb rfl (if_pos ?_) hInv.acted fun t C =>
      ⟨C.enable, C.session, C.waiting, C.hubSeq, C.others, C.log, C.hcp⟩
    rw [Bool.and_eq_true]
    exact ⟨ha, he⟩

/-! ## BAR0 and the vendor-specific capability -/

/-- A vector that was pending may be sent: of the host interface, the pending bits alone change. -/
theorem sendPending_eq (s : State) :
    ∃ p es, sendPending s = { s with hcp := { s.hcp with pba := p }, emitted := es } := by
  unfold sendPending
  generalize List.range 9 = vs
  induction vs generalizing s with
  | nil => exact ⟨_, _, rfl⟩
  | cons v vs ih =>
    simp only [forEach, List.foldl_cons] at ih ⊢
    split
    · rw [raiseMsix_eq]
      exact ih _
    · exact ih s

/-- The words of an access of four bytes. -/
theorem words_four {data : Bytes} (offset : Nat) (h : data.length = 4) :
    ((List.range (data.length / 4)).map fun i => (offset + 4 * i, getU data (4 * i) 4)) = [(offset, ofLe data)] := by
  rw [h]
  exact congrArg (fun x => [(offset, x)]) (getU_whole h)

theorem barAccess_four {offset : Nat} (h : offset % 4 = 0) : barAccess offset 4 = true := by
  unfold barAccess
  rw [h]
  rfl

theorem State.barUp_iff (s : State) : s.barUp = true ↔ s.awake = true ∧ s.chip.pcieUp = true := by
  unfold State.barUp
  rw [Bool.and_eq_true]

theorem plainWrite_word {offset : Nat} {data : Bytes} {s : State} (hb : s.barUp = true) (ha : offset % 4 = 0) (h : data.length = 4) :
    plainWrite .bar0 offset data s = sendPending (barPut offset (ofLe data) s) := by
  obtain ⟨hw, hu⟩ := s.barUp_iff.mp hb
  unfold plainWrite
  dsimp only
  rw [words_four offset h, h, barAccess_four ha, hu, hw]
  rfl

/-- A word of the MSI-X table. -/
theorem barPut_msix {k v : Nat} {s : State} (hk : k < 36) : barPut (0x2000 + 4 * k) v s =
    { s with hcp := { s.hcp with msixTable := memWrite s.hcp.msixTable (4 * k) (le 4 v) } } := by
  unfold barPut
  dsimp only
  rw [if_neg (by omega), if_pos (by omega), Nat.add_sub_cancel_left]

/-- REQ_PI of mailbox m. -/
theorem barPut_reqPi {m v : Nat} {s : State} (hm : m < 8) :
    barPut (0x1018 + 0x100 * m) v s = reqPiDoorbell m (BitVec.ofNat 16 v) s := by
  have h1 : (0x1018 + 0x100 * m) % 0x100 = 0x18 := by omega
  have h2 : (0x1018 + 0x100 * m - 0x1000) / 0x100 = m := by omega
  unfold barPut
  dsimp only
  rw [if_pos (by omega), h1, h2]
  rfl

/-- A word of BAR0 whose own effect is `x`. -/
theorem gives_barWord {offset : Nat} {data : Bytes} {s x : State} {ch : List Part} {post : State → Prop} (hb : s.barUp = true)
    (ha : offset % 4 = 0) (hl : data.length = 4) (hx : barPut offset (ofLe data) { s with emitted := [] } = x)
    (hd : x.flt.detected = []) (hk : Keeps ch s x) (hp : ∀ t, t.hcp = { x.hcp with pba := t.hcp.pba } → post t) :
    Gives (.registerWritePlain .bar0 offset (.write data)) s ch post := by
  obtain ⟨p, es, he⟩ := sendPending_eq x
  have heff : effectOf (registerWritePlain .bar0 offset (.write data)) s = { x with hcp := { x.hcp with pba := p }, emitted := es } := by
    rw [← he, ← hx]
    exact plainWrite_word (s := { s with emitted := [] }) hb ha hl
  exact gives_of_effect rfl heff hd (fun q hq => by have := hk q hq; cases q <;> exact this) fun t F => hp t F.hcp

theorem vsecPut_pushLen {v : Nat} {s : State} (hp : s.pushSeen = true) :
    vsecPut 0x10 v s = { s with boot := { s.boot with pushLen := BitVec.ofNat 32 v } } := by
  unfold vsecPut
  rw [hp]
  rfl

theorem plainWrite_vsec {offset : Nat} {data : Bytes} {s : State} (hu : s.chip.pcieUp = true) (ha : offset % 4 = 0)
    (h : data.length = 4) : plainWrite .vsec offset data s = vsecPut offset (ofLe data) s := by
  unfold plainWrite
  dsimp only
  rw [words_four offset h, h, barAccess_four ha, hu]
  rfl

theorem plainWrite_refused {offset : Nat} {data : Bytes} {s : State} (hu : s.chip.pcieUp = true)
    (h : data.length ≠ 4 ∧ data.length ≠ 8 ∨ offset % data.length ≠ 0) :
    plainWrite .bar0 offset data s = s.emit (.unsupported offset) := by
  have hb : barAccess offset data.length = false := by
    unfold barAccess
    rw [Bool.and_eq_false_iff, Bool.or_eq_false_iff]
    exact h.imp (fun h => ⟨beq_false_of_ne h.1, beq_false_of_ne h.2⟩) beq_false_of_ne
  unfold plainWrite
  dsimp only
  rw [hu, hb]
  rfl

theorem barRead_refused {offset size : Nat} {s : State} (hu : s.chip.pcieUp = true) (h : barAccess offset size = false) :
    barRead offset size s = s.emit (.unsupported offset) := by
  unfold barRead
  rw [hu, h]
  rfl

/-- The bytes that a read in BAR0 returns. -/
def State.barBytes (s : State) (offset size : Nat) : Bytes := (List.range size).map fun i => barGet s (offset + i)

theorem barRead_plain {offset size : Nat} {s : State} (hu : s.chip.pcieUp = true) (h : barAccess offset size = true)
    (hn : ¬ (offset ≤ 0x20 ∧ 0x20 < offset + size)) : barRead offset size s = s.emit (.barRead offset (s.barBytes offset size)) := by
  unfold barRead
  dsimp only
  rw [hu, h, if_neg (by decide), if_neg (by decide), if_neg hn]
  rfl

theorem barRead_captures {offset size : Nat} {s : State} (hu : s.chip.pcieUp = true) (h : barAccess offset size = true)
    (hn : offset ≤ 0x20 ∧ 0x20 < offset + size) :
    barRead offset size s = s.captureTime.emit (.barRead offset (s.captureTime.barBytes offset size)) := by
  unfold barRead
  dsimp only
  rw [hu, h, if_neg (by decide), if_neg (by decide), if_pos hn]
  rfl

/-- A piece of a byte string, read byte by byte from its place. -/
theorem getD_middle (pre mid post : Bytes) :
    ((List.range mid.length).map fun i => (pre ++ (mid ++ post)).getD (pre.length + i) 0) = mid := by
  refine List.ext_getElem (by simp) fun i h1 h2 => ?_
  rw [List.getElem_map, List.getElem_range, List.getD_eq_getElem?_getD, List.getElem?_append_right (Nat.le_add_right _ _),
    Nat.add_sub_cancel_left, List.getElem?_append_left h2, List.getElem?_eq_getElem h2]
  rfl

/-- TIME_NOW0 stands behind 32 bytes of the last-breath window (Table HCP-15). -/
theorem lastBreath_timeNow (s : State) : ∃ pre post : Bytes, pre.length = 0x20 ∧
    s.lastBreath = pre ++ (le 4 (s.hcp.captured % 65536 + qCode s.hcp.capturedQ * 65536) ++ post) := by
  have hpre : (le 8 s.chipId ++ le 4 s.chipState ++ le 4 s.chip.heartbeat.toNat ++ zeros 16)
      ++ le 4 (s.hcp.captured % 65536 + qCode s.hcp.capturedQ * 65536) <+: s.lastBreath := by
    unfold State.lastBreath
    iterate 10 refine List.prefix_append_of_prefix ?_
    exact List.prefix_rfl
  obtain ⟨post, h⟩ := hpre
  refine ⟨_, post, ?_, h.symm.trans (List.append_assoc ..)⟩
  simp only [List.length_append, length_le, zeros, List.length_replicate]

theorem barBytes_timeNow (s : State) :
    s.barBytes 0x20 4 = le 4 (s.hcp.captured % 65536 + qCode s.hcp.capturedQ * 65536) := by
  obtain ⟨pre, post, hl, hb⟩ := lastBreath_timeNow s
  have hmid := getD_middle pre (le 4 (s.hcp.captured % 65536 + qCode s.hcp.capturedQ * 65536)) post
  rw [← hb, hl, length_le] at hmid
  refine Eq.trans (List.map_congr_left fun i hi => ?_) hmid
  rw [List.mem_range] at hi
  unfold barGet
  rw [if_pos (by omega)]

/-- Settles O6: an access is its words or bytes, or it is refused. -/
theorem plainRegisterAccesses : Obligations.PlainRegisterAccesses := by
  unfold Obligations.PlainRegisterAccesses
  refine ⟨?_, ?_, ?_, ?_, ?_, ?_, ?_, ?_, ?_⟩
  · intro s k data hInv hb hk hl
    refine gives_barWord hb (by omega) hl (barPut_msix hk) hInv.acted .of_parts fun t F => F.trans ?_
    have hle : le 4 (ofLe data) = data := by rw [← hl, le_ofLe]
    rw [hle]
  · intro s m v hInv hb hv hr
    have hw := reqPiDoorbell_within (s := { s with emitted := [] }) (v := BitVec.ofNat 16 v) hb hr
    rw [← ofLe_le 4 v (by omega)] at hw
    exact gives_barWord hb (by omega) (length_le 4 v) ((barPut_reqPi m.isLt).trans hw) hInv.acted .of_parts fun t F => by
      rw [ofLe_le 4 v (by omega)] at F
      exact F
  · intro s offset data hInv hu h
    exact gives_of_effect rfl (plainWrite_refused (s := { s with emitted := [] }) hu h) hInv.acted .of_parts
      fun t F => F.emitted _ (emit_mem _ _)
  · intro s v hInv hu hp hv
    have heff := (plainWrite_vsec (s := { s with emitted := [] }) (offset := 0x10) hu rfl (length_le 4 v)).trans
      (vsecPut_pushLen hp)
    refine gives_of_effect rfl heff hInv.acted .of_parts fun t F => ?_
    rw [F.boot, ofLe_le 4 v (by omega)]
  · intro s k v hInv ha hk
    exact gives_of_effect rfl (spiPut_request v (s := { s with emitted := [] }) ha hk) hInv.acted .of_parts fun t F => F.hcp
  · intro s offset size hInv hu hb hn
    exact gives_of_effect rfl (barRead_plain (s := { s with emitted := [] }) hu hb hn) hInv.acted .of_parts
      fun t F => F.emitted _ (emit_mem _ _)
  · intro s offset size hInv hu hb h1 h2
    exact gives_of_effect rfl (barRead_captures (s := { s with emitted := [] }) hu hb ⟨h1, h2⟩) hInv.acted .of_parts
      fun t F => ⟨F.hcp, F.emitted _ (emit_mem _ _)⟩
  · intro s offset size hInv hu hb
    exact gives_of_effect rfl (barRead_refused (s := { s with emitted := [] }) hu hb) hInv.acted .of_parts
      fun t F => F.emitted _ (emit_mem _ _)
  · intro s hInv hu
    have heff := barRead_captures (s := { s with emitted := [] }) (offset := 0x20) (size := 4) hu rfl (by decide)
    refine gives_of_effect rfl heff hInv.acted .of_parts fun t F => ⟨F.hcp, ?_⟩
    have hm := F.emitted _ (emit_mem _ _)
    rw [barBytes_timeNow] at hm
    exact hm

end Sys2Proof.Machine
end

