-- ==== Sys2Proof/Proofs/TimeBase.lean ====
section
/-! SUPPORT. The time base (03_hub_time): the rate word, the time quality, the reference, stamps and pulses. -/

namespace Sys2Proof.Machine

set_option Elab.async false

/-! ## The rate word -/

theorem ofNat48_toNat (w : W48) : BitVec.ofNat 48 w.toNat = w := by
  rw [BitVec.ofNat_toNat, BitVec.setWidth_eq]

theorem writeRate_within {n : Nat} {s : State} (h1 : 2 ^ 40 ≤ n + 549755813) (h2 : n ≤ 2 ^ 40 + 549755813) :
    writeRate n s = { s with time := { s.time with rateTarget := BitVec.ofNat 48 n, slewTicks := 0 } } := by
  unfold writeRate
  rw [if_pos ⟨h1, h2⟩]

theorem writeRate_beyond {n : Nat} {s : State} (h : n + 549755813 < 2 ^ 40 ∨ 2 ^ 40 + 549755813 < n) :
    writeRate n s = raise 0 0 0 s := by
  unfold writeRate
  rw [if_neg (by omega)]

theorem holdRate_leaves {s : State}
    (h : s.anyTimeLocked = false ∨ ((s.time.rateTarget.toNat : Int) - 2 ^ 40).natAbs ≤ 109951162) : holdRate s = s := by
  unfold holdRate
  extract_lets dev
  split
  case isTrue hc =>
    cases h with
    | inl h => exact Bool.noConfusion (h.symm.trans hc.2)
    | inr h => exact absurd hc.1 (Nat.not_lt.mpr h)
  case isFalse => rfl

theorem rateWordWrite_now {w : W48} {s : State} (hf : s.fwRuns = true) :
    rateWordWrite ⟨w, none⟩ s = holdRate (writeRate w.toNat s) := by
  unfold rateWordWrite
  rw [hf, if_neg (by decide)]

/-- A target that lies beyond 100 ppm is pulled in to them while a lane is time-locked (R114). -/
theorem holdRate_pulls {s : State} {k : Int} (hl : s.anyTimeLocked = true)
    (hk : k = 109951162 ∧ 2 ^ 40 + 109951162 < s.time.rateTarget.toNat ∧ s.time.rateTarget.toNat ≤ 2 ^ 40 + 549755813 ∨
      k = -109951162 ∧ 2 ^ 40 ≤ s.time.rateTarget.toNat + 549755813 ∧ s.time.rateTarget.toNat + 109951162 < 2 ^ 40) :
    holdRate s = { s with
      time := { s.time with rateTarget := BitVec.ofNat 48 (2 ^ 40 + k).toNat, slewTicks := 0 }
      xfer := { s.xfer with clamped := true } } := by
  have hdev : clampI (-ppm500) ppm500 ((s.time.rateTarget.toNat : Int) - 2 ^ 40) = (s.time.rateTarget.toNat : Int) - 2 ^ 40 := by
    unfold clampI ppm500
    rw [if_neg (by omega), if_neg (by omega)]
  have hin : clampI (-109951162) 109951162 ((s.time.rateTarget.toNat : Int) - 2 ^ 40) = k := by
    unfold clampI
    split
    · omega
    · split <;> omega
  unfold holdRate
  dsimp only
  rw [if_pos ⟨by omega, hl⟩]
  unfold steerRate
  simp only [hdev, hl, if_true, hin]
  rw [decide_eq_true (by omega : k ≠ _)]
  exact writeRate_within (by omega) (by omega)

theorem shortfall_zero {s : State} {t : T16} (h : nsOf s.now + 10000 ≤ nsOf t) : shortfall s t = 0 :=
  Nat.sub_eq_zero_of_le h

theorem rateWordWrite_later {w : W48} {t : T16} {s : State} (hf : s.fwRuns = true) (h : shortfall s t = 0) :
    rateWordWrite ⟨w, some t⟩ s = firmwareEntry 1 t (.rateChange w) 0 s := by
  unfold rateWordWrite
  rw [hf, if_neg (by decide)]
  exact if_pos h

theorem firmwareEntry_room {cls : Nat} {time : T16} {action : Action} {period : Nat} {s : State}
    (h : (s.cal.entries.filter (·.fw)).length < 32) : firmwareEntry cls time action period s =
      { s with cal := { s.cal with
        entries := s.cal.entries ++ [⟨time, cls, s.cal.nextIns, action, period, none, none, true⟩]
        nextIns := s.cal.nextIns + 1 } } := by
  unfold firmwareEntry
  rw [if_pos h]
  rfl

/-- Settles O11: a write is taken, pulled in, or refused by its distance from 1; a timed one waits in the calendar. -/
theorem rateWordIsTakenInRangeAndSlewed : Obligations.RateWordIsTakenInRangeAndSlewed := by
  unfold Obligations.RateWordIsTakenInRangeAndSlewed
  refine ⟨?_, ?_, ?_, ?_, ?_, ?_⟩
  · intro s w hInv hf h1 h2 hl
    have heff : effectOf (rateWordWrite ⟨w, none⟩) s =
        { s with emitted := [], time := { s.time with rateTarget := w, slewTicks := 0 } } := by
      refine (rateWordWrite_now (s := { s with emitted := [] }) hf).trans ?_
      rw [writeRate_within h1 h2, ofNat48_toNat]
      refine holdRate_leaves (hl.imp id fun hw => ?_)
      show ((w.toNat : Int) - 2 ^ 40).natAbs ≤ 109951162
      omega
    exact gives_of_effect rfl heff hInv.acted .of_parts fun t F => F.time
  · intro s w hInv hf hl h1 h2
    have heff := (rateWordWrite_now (w := w) (s := { s with emitted := [] }) hf).trans
      (congrArg holdRate (writeRate_within (by omega) (by omega)))
    rw [ofNat48_toNat, holdRate_pulls (k := 109951162) (s := { s with emitted := [], time := { s.time with rateTarget := w, slewTicks := 0 } }) hl (.inl ⟨rfl, h1, h2⟩)] at heff
    exact gives_of_effect rfl heff hInv.acted .of_parts fun t F => ⟨F.time, F.xfer⟩
  · intro s w hInv hf hl h1 h2
    have heff := (rateWordWrite_now (w := w) (s := { s with emitted := [] }) hf).trans
      (congrArg holdRate (writeRate_within (by omega) (by omega)))
    rw [ofNat48_toNat, holdRate_pulls (k := -109951162) (s := { s with emitted := [], time := { s.time with rateTarget := w, slewTicks := 0 } }) hl (.inr ⟨rfl, h1, h2⟩)] at heff
    exact gives_of_effect rfl heff hInv.acted .of_parts fun t F => ⟨F.time, F.xfer⟩
  · intro s w hInv hf hl hw hq
    have heff := (rateWordWrite_now (w := w) (s := { s with emitted := [] }) hf).trans (congrArg holdRate (writeRate_beyond hw))
    exact gives_of_raise rfl (heff.trans (holdRate_leaves (.inl hl))) hq hInv.acted rfl rfl rfl .of_parts fun _ _ N _ => N
  · intro s w at_ hInv hf ha hr
    have heff := (rateWordWrite_later (w := w) (s := { s with emitted := [] }) hf (shortfall_zero ha)).trans
      (firmwareEntry_room hr)
    exact gives_of_effect rfl heff hInv.acted .of_parts fun t F => F.cal
  · intro s hInv hs
    exact gives_of_effect rfl (if_neg (Nat.not_lt.mpr hs)) hInv.acted .of_parts fun t F => F.time

/-! ## The time quality -/

theorem writeQuality_locked {s : State} (h : s.time.quality = .free ∨ s.time.quality = .holdover) :
    writeQuality .locked s = { s with time := { s.time with quality := .locked, lease := 1500000000 } } := by
  unfold writeQuality
  cases h with
  | inl h => rw [h]
  | inr h => rw [h]

theorem writeQuality_holdover {s : State} (h : s.time.quality = .locked) :
    writeQuality .holdover s = { s with time := { s.time with quality := .holdover, lease := 0 } } := by
  unfold writeQuality
  rw [h]

theorem writeQuality_free {s : State} (h : s.time.quality = .holdover) :
    writeQuality .free s = { s with time := { s.time with quality := .free } } := by
  unfold writeQuality
  rw [h]

/-- Every change that Table TIME-4 does not have sets the fault source. -/
theorem writeQuality_refused {q : Quality} {s : State} (h : s.time.quality = .unset ∨ q = .unset ∨ s.time.quality = q ∨
    s.time.quality = .free ∧ q = .holdover ∨ s.time.quality = .locked ∧ q = .free) : writeQuality q s = raise 0 1 0 s := by
  unfold writeQuality
  rcases h with h | h | h | ⟨h, k⟩ | ⟨h, k⟩
  · rw [h]
  · subst h
    cases s.time.quality <;> rfl
  · subst h
    cases s.time.quality <;> rfl
  · rw [h, k]
  · rw [h, k]

theorem timeQualityWrite_taken {q : Quality} {s : State} (hf : s.fwRuns = true) (h : s.xfer.roleAct ≠ .host ∨ q ≠ .locked) :
    timeQualityWrite q s = writeQuality q s := by
  unfold timeQualityWrite
  rw [hf, if_pos]
  cases h with
  | inl h => rw [beq_false_of_ne h]; rfl
  | inr h => rw [beq_false_of_ne h, Bool.and_false]; rfl

theorem timeQualityWrite_host {s : State} (h : s.xfer.roleAct = .host) : timeQualityWrite .locked s = s := by
  unfold timeQualityWrite
  rw [h, if_neg (by simp)]

theorem dropLock_locked {s : State} (h : s.time.quality = .locked) :
    dropLock s = { s with time := { s.time with quality := .holdover, lease := 0 } } := if_pos h

theorem dropLock_other {s : State} (h : s.time.quality ≠ .locked) : dropLock s = s := if_neg h

/-- Settles O12: each write by the quality that it meets. -/
theorem timeQualityChangesAsTheTableSays : Obligations.TimeQualityChangesAsTheTableSays := by
  unfold Obligations.TimeQualityChangesAsTheTableSays
  refine ⟨?_, ?_, ?_, ?_, ?_, ?_, ?_, ?_⟩
  · intro s q hInv hf hr hq
    have hql : q = .locked := hq.elim And.right And.right
    subst hql
    have heff := (timeQualityWrite_taken (q := .locked) (s := { s with emitted := [] }) hf (.inl hr)).trans
      (writeQuality_locked (hq.imp And.left And.left))
    exact gives_of_effect rfl heff hInv.acted .of_parts fun t F => F.time
  · intro s hInv hf hq
    have heff := (timeQualityWrite_taken (q := .holdover) (s := { s with emitted := [] }) hf (.inr (by decide))).trans
      (writeQuality_holdover hq)
    exact gives_of_effect rfl heff hInv.acted .of_parts fun t F => F.time
  · intro s hInv hf hq
    have heff := (timeQualityWrite_taken (q := .free) (s := { s with emitted := [] }) hf (.inr (by decide))).trans
      (writeQuality_free hq)
    exact gives_of_effect rfl heff hInv.acted .of_parts fun t F => F.time
  · intro s q hInv hf hr hQuiet hq
    have heff := (timeQualityWrite_taken (q := q) (s := { s with emitted := [] }) hf hr).trans (writeQuality_refused hq)
    exact gives_of_raise rfl heff hQuiet hInv.acted rfl rfl rfl .of_parts fun _ _ N _ => N
  · intro s hInv hr
    exact gives_nothing rfl (timeQualityWrite_host (s := { s with emitted := [] }) hr) hInv.acted fun _ _ => trivial
  · intro s hInv hf hq
    have heff : effectOf leaseRenew s = { s with emitted := [], time := { s.time with lease := 1500000000 } } :=
      (if_pos hf).trans (if_pos hq)
    exact gives_of_effect rfl heff hInv.acted .of_parts fun t F => F.time
  · intro s hInv hf hq hQuiet
    have heff : effectOf leaseRenew s = raise 0 1 0 { s with emitted := [] } := (if_pos hf).trans (if_neg hq)
    exact gives_of_raise rfl heff hQuiet hInv.acted rfl rfl rfl .of_parts fun _ _ N _ => N
  · intro s hInv hq hl hQuiet
    have heff : effectOf leaseExpiry s = raise 0 2 0 (dropLock { s with emitted := [] }) := if_pos ⟨hq, hl⟩
    rw [dropLock_locked (s := { s with emitted := [] }) hq] at heff
    exact gives_of_raise rfl heff hQuiet hInv.acted rfl rfl rfl .of_parts fun _ F N _ => ⟨F.time, N⟩

/-! ## The reference -/

theorem clampI_between {lo hi x : Int} (h : lo ≤ hi) : lo ≤ clampI lo hi x ∧ clampI lo hi x ≤ hi := by
  unfold clampI
  split
  · exact ⟨Int.le_refl _, h⟩
  · split <;> omega

/-- A target of the servo lies within 500 ppm, so it is always taken. -/
theorem steerRate_eq {wanted lim : Int} {s : State} (h0 : 0 ≤ lim) (h1 : lim ≤ 549755813) :
    ∃ w c, steerRate wanted lim s =
      { s with time := { s.time with rateTarget := w, slewTicks := 0 }, xfer := { s.xfer with clamped := c } } := by
  unfold steerRate
  extract_lets dev dev'
  have hdev : -lim ≤ dev ∧ dev ≤ lim := clampI_between (by omega)
  have hdev' : -549755813 ≤ dev' ∧ dev' ≤ 549755813 := by
    by_cases hl : s.anyTimeLocked = true
    · have h := clampI_between (lo := -109951162) (hi := 109951162) (x := dev) (by decide)
      rw [show dev' = _ from if_pos hl]
      omega
    · rw [show dev' = _ from if_neg hl]
      omega
  exact ⟨_, _, writeRate_within (by omega) (by omega)⟩

theorem holdIfLocked_eq (s : State) : holdIfLocked s = dropLock s := by
  unfold holdIfLocked
  split
  case isTrue h => rw [writeQuality_holdover h, dropLock_locked h]
  case isFalse h => exact (dropLock_other h).symm

theorem dropLock_eq (s : State) : dropLock s =
    { s with time := { s.time with quality := (dropLock s).time.quality, lease := (dropLock s).time.lease } } := by
  unfold dropLock
  split <;> rfl

theorem tellTransfer_noticesOnly (old : Xfer) (s : State) : NoticesOnly s (tellTransfer old s) := by
  have tell : ∀ (c : Prop) [Decidable c] (o : Nat) (x : State), NoticesOnly x (if c then x else notify o (xferStatusPayload x) x) := by
    intro c _ o x
    split
    · rfl
    · exact notify_noticesOnly ..
  exact ((tell _ _ s).trans (tell _ _ _)).trans (tell _ _ _)

/-- A servo whose source is lost holds over at the integrator's rate. -/
theorem sourceLost_holds {s : State} (h : s.xfer.servo = .acquire ∨ s.xfer.servo = .steer ∨ s.xfer.servo = .track) :
    ∃ w c q l, NoticesOnly { s with
      time := { s.time with rateTarget := w, slewTicks := 0, quality := q, lease := l }
      xfer := { s.xfer with
        clamped := c, servo := .holdover, holdoverTick := s.tick, lockCount := 0, bigCount := 0, qualCount := 0 } }
      (sourceLost s) := by
  obtain ⟨w, c, hs⟩ := steerRate_eq (wanted := 2 ^ 40 + s.xfer.integ) (lim := ppm500) (s := s) (by decide) (by decide)
  unfold sourceLost
  dsimp only
  rw [if_pos h, hs, holdIfLocked_eq, dropLock_eq]
  exact ⟨w, c, _, _, tellTransfer_noticesOnly ..⟩

theorem refLost_eq {s : State} (ha : s.chip.rails.aon = true) (hr : s.time.refLost = false) :
    refLost s = raise 0 3 0 (dropLock { s with time := { s.time with refLost := true } }) := by
  unfold refLost
  rw [ha, hr]
  rfl

theorem tpllUnlock_eq {s : State} (ha : s.chip.rails.aon = true) (hr : s.time.tpllUnlock = false) :
    tpllUnlock s = raise 0 4 0 (dropLock { s with time := { s.time with tpllUnlock := true } }) := by
  unfold tpllUnlock
  rw [ha, hr]
  rfl

theorem ppsInTimeout_eq {s : State} (ha : s.chip.rails.aon = true) (hl : s.time.ppsLost = false)
    (ht : s.time.ppsTick + 1500000000 ≤ s.tick) :
    ppsInTimeout s = if s.fwRuns && s.xfer.network && decide (s.xfer.refMode = 0)
      then sourceLost (raise 0 5 0 { s with time := { s.time with ppsLost := true } })
      else raise 0 5 0 { s with time := { s.time with ppsLost := true } } := by
  unfold ppsInTimeout
  rw [ha, hl, decide_eq_true ht]
  rfl

/-- Settles O13: each loss by the state that it meets. -/
theorem referenceLossesAreHeldAndFlagged : Obligations.ReferenceLossesAreHeldAndFlagged := by
  unfold Obligations.ReferenceLossesAreHeldAndFlagged
  refine ⟨?_, ?_, ?_, ?_, ?_, ?_, ?_, ?_⟩
  · intro s hInv ha hr hq hQuiet
    have heff := (refLost_eq (s := { s with emitted := [] }) ha hr).trans (congrArg (raise 0 3 0) (dropLock_locked hq))
    exact gives_of_raise rfl heff hQuiet hInv.acted rfl rfl rfl .of_parts fun _ F N _ => ⟨F.time, N⟩
  · intro s hInv ha hr hq hQuiet
    have heff := (refLost_eq (s := { s with emitted := [] }) ha hr).trans (congrArg (raise 0 3 0) (dropLock_other hq))
    exact gives_of_raise rfl heff hQuiet hInv.acted rfl rfl rfl .of_parts fun _ F N _ => ⟨F.time, N⟩
  · intro s hInv ha hr hq hQuiet
    have heff := (tpllUnlock_eq (s := { s with emitted := [] }) ha hr).trans (congrArg (raise 0 4 0) (dropLock_locked hq))
    exact gives_of_raise rfl heff hQuiet hInv.acted rfl rfl rfl .of_parts fun _ F N _ => ⟨F.time, N⟩
  · intro s hInv ha hr hq hQuiet
    have heff := (tpllUnlock_eq (s := { s with emitted := [] }) ha hr).trans (congrArg (raise 0 4 0) (dropLock_other hq))
    exact gives_of_raise rfl heff hQuiet hInv.acted rfl rfl rfl .of_parts fun _ F N _ => ⟨F.time, N⟩
  · intro s hInv ha
    have heff : effectOf (refReturn true) s =
        { s with emitted := [], time := { s.time with refLost := false, tpllUnlock := false } } :=
      if_pos (by rw [show s.chip.rails.aon = true from ha]; rfl)
    exact gives_of_effect rfl heff hInv.acted .of_parts fun t F => F.time
  · intro s hInv
    exact gives_nothing rfl (if_neg (by simp)) hInv.acted fun _ _ => trivial
  · intro s hInv ha hl ht hn hQuiet
    have heff := (ppsInTimeout_eq (s := { s with emitted := [] }) ha hl ht).trans (if_neg (by
      rcases hn with h | h | h
      · simp [show ({ s with emitted := [] } : State).fwRuns = false from h]
      · simp [h]
      · simp [h]))
    exact gives_of_raise rfl heff hQuiet hInv.acted rfl rfl rfl .of_parts fun _ F N _ => ⟨F.time, N⟩
  · intro s hInv ha hl ht hf hn hm hv hQuiet
    have heff := (ppsInTimeout_eq (s := { s with emitted := [] }) ha hl ht).trans (if_pos (by
      simp [show ({ s with emitted := [] } : State).fwRuns = true from hf, hn, hm]))
    obtain ⟨w, c, q, l, hx⟩ := sourceLost_holds
      (s := raise 0 5 0 { s with emitted := [], time := { s.time with ppsLost := true } }) hv
    rw [hx] at heff
    refine gives_of_detected rfl heff hQuiet ?_ hInv.acted rfl rfl .of_parts fun t F N _ =>
      ⟨congrArg TimeSt.ppsLost F.time, congrArg Xfer.servo F.xfer, congrArg Xfer.holdoverTick F.xfer, N⟩
    simp only [raise, hInv.acted, List.nil_append]

/-! ## Stamps and pulses -/

/-- `t` is `s` but for the capture windows. -/
def WindowsOnly (s t : State) : Prop := t = { s with cap := { s.cap with windows := t.cap.windows } }

theorem WindowsOnly.trans {s t u : State} (h : WindowsOnly s t) (k : WindowsOnly t u) : WindowsOnly s u := by
  unfold WindowsOnly at *
  rw [k, h]

theorem WindowsOnly.forEach {α : Type} {f : α → State → State} (h : ∀ x s, WindowsOnly s (f x s)) :
    ∀ (xs : List α) (s : State), WindowsOnly s (forEach xs f s)
  | [], _ => rfl
  | x :: xs, s => (h x s).trans (WindowsOnly.forEach h xs (f x s))

theorem takeHits_windowsOnly (n : Nat) (hits : List Hit) (s : State) : WindowsOnly s (takeHits n hits s) := by
  unfold takeHits
  split <;> rfl

theorem edgeHits_windowsOnly (i : Nat) (st : T16) (s : State) : WindowsOnly s (edgeHits i st s) :=
  .forEach (fun _ _ => takeHits_windowsOnly ..) _ s

theorem ppsInEdge_stamps {x : T16} {second : Option Nat} {s : State} (ha : s.chip.rails.aon = true)
    (hc : tooClose s.time.ppsRaw x = false) : ppsInEdge s.time.inFalling x second s =
      secondCount (stampOf x s.time.inSkew) second { s with time := { s.time with
        ppsStamp := stampOf x s.time.inSkew, ppsRaw := some x, ppsTick := s.tick, ppsCount := s.time.ppsCount + 1
        ppsLost := false } } := by
  unfold ppsInEdge
  dsimp only
  rw [if_neg (by simp [ha]), hc]
  exact if_neg (by decide)

theorem ppsInEdge_discards {x : T16} {second : Option Nat} {s : State} (ha : s.chip.rails.aon = true)
    (hc : tooClose s.time.ppsRaw x = true) : ppsInEdge s.time.inFalling x second s =
      raise 2 2 168 { s with time := { s.time with ppsOver := s.time.ppsOver + 1 } } := by
  unfold ppsInEdge
  dsimp only
  rw [if_neg (by simp [ha]), if_pos hc]

theorem secondCount_agrees {st : T16} {second : Option Nat} {s : State}
    (h : second = none ∨ s.fwRuns = false ∨ s.xfer.network = false ∨ s.xfer.refMode ≠ 0
      ∨ second = some ((st + unitsPerSec / 2) / unitsPerSec)) :
    secondCount st second s = { s with time := { s.time with secMiss := 0 } } := by
  unfold secondCount
  cases second with
  | none => rfl
  | some p =>
    dsimp only
    split
    case isFalse => rfl
    case isTrue hc =>
      simp only [Bool.and_eq_true, decide_eq_true_eq] at hc
      obtain ⟨⟨hf, hn⟩, hm⟩ := hc
      rw [if_pos]
      rcases h with h | h | h | h | h
      · exact nomatch h
      · exact Bool.noConfusion (hf.symm.trans h)
      · exact Bool.noConfusion (hn.symm.trans h)
      · exact absurd hm h
      · exact (Option.some.inj h).symm

theorem secondCount_differs {st : T16} {second : Nat} {s : State} (hf : s.fwRuns = true) (hn : s.xfer.network = true)
    (hm : s.xfer.refMode = 0) (hd : second ≠ (st + unitsPerSec / 2) / unitsPerSec) :
    secondCount st (some second) s = if s.time.secMiss + 1 = 3 then
        scheduleStep (((second : Int) - ((st + unitsPerSec / 2) / unitsPerSec : Nat)) * unitsPerSec)
          { s with time := { s.time with secMiss := 0 } }
      else { s with time := { s.time with secMiss := s.time.secMiss + 1 } } := by
  unfold secondCount
  dsimp only
  rw [if_pos (by rw [hf, hn, decide_eq_true hm]; rfl), if_neg (Ne.symm hd)]

theorem seconds_whole (k : Int) : k * unitsPerSec / 65536 = k * 1000000000 ∧ k * unitsPerSec % 65536 = 0 := by
  unfold unitsPerSec
  omega

theorem scheduleStep_seconds (k : Int) (s : State) :
    scheduleStep (k * unitsPerSec) s = firmwareEntry 1 s.nextSecond (.offsetStep (k * 1000000000) 0) 0 s := by
  unfold scheduleStep
  rw [(seconds_whole k).1, (seconds_whole k).2]
  rfl

theorem selected_of_mode {m : Nat} {falling : Bool} (h : m = 3 ∨ m = (if falling then 2 else 1)) :
    (m == 3 || (m == 1 && !falling) || (m == 2 && falling)) = true := by
  cases falling <;> rcases h with rfl | rfl <;> rfl

theorem trigInEdge_stamps {i : Nat} {falling : Bool} {x : T16} {s : State} (ha : s.chip.rails.aon = true)
    (hm : (s.trigIn i).mode = 3 ∨ (s.trigIn i).mode = (if falling then 2 else 1)) (hc : tooClose (s.trigIn i).last x = false) :
    trigInEdge i falling x s = edgeHits i (stampOf x (s.trigIn i).skew) (if (s.trigIn i).fifo.length < 64
      then s.setTrigIn i { s.trigIn i with
        last := some x, fifo := (s.trigIn i).fifo ++ [(stampOf x (s.trigIn i).skew, falling)] }
      else raise 2 2 (160 + i) (s.setTrigIn i { s.trigIn i with last := some x, overflow := (s.trigIn i).overflow + 1 })) := by
  unfold trigInEdge trigStamp
  dsimp only
  rw [if_neg (by rw [ha, selected_of_mode hm]; simp), hc, if_neg (by decide)]
  by_cases h : (s.trigIn i).fifo.length < 64
  · rw [if_pos h, if_pos h]
  · rw [if_neg h, if_neg h]

theorem ppsOutEdge_marks {b : Int} {s : State} (ha : s.chip.rails.aon = true) (hb : s.ppsBoundary = some b)
    (hq : s.time.quality ≠ .unset) (hw : s.time.ppsWidth ≠ 0) (hl : s.time.lastPulse ≠ b) :
    ppsOutEdge s = { s with time := { s.time with lastPulse := b, pulseEnd := s.tick + s.time.ppsWidth } }.emit
        (.ppsEdge (b * unitsPerSec - s.time.outSkew) s.time.ppsWidth (decide (s.tick < s.time.pulseEnd))) := by
  unfold ppsOutEdge
  rw [hb]
  dsimp only
  rw [if_pos (by rw [ha, decide_eq_true hq, decide_eq_true hw, decide_eq_true hl]; rfl)]

/-- Settles O14: the edges of PPS_IN by what they meet, those of TRIG_IN by the room of their FIFO, and the pulse. -/
theorem edgesAreStampedAndPulsesMarked : Obligations.EdgesAreStampedAndPulsesMarked := by
  unfold Obligations.EdgesAreStampedAndPulsesMarked
  refine ⟨?_, ?_, ?_, ?_, ?_, ?_, ?_⟩
  · intro s falling x second hInv ha hfall hc h
    subst hfall
    have heff := (ppsInEdge_stamps (second := second) (s := { s with emitted := [] }) ha hc).trans (secondCount_agrees h)
    exact gives_of_effect rfl heff hInv.acted .of_parts fun t F => F.time
  · intro s falling x second hInv ha hfall hc hf hn hm hd hmiss
    subst hfall
    have heff := (ppsInEdge_stamps (second := some second) (s := { s with emitted := [] }) ha hc).trans
      ((secondCount_differs (by exact hf) (by exact hn) (by exact hm) hd).trans (if_neg hmiss))
    exact gives_of_effect rfl heff hInv.acted .of_parts fun t F => F.time
  · intro s falling x second hInv ha hfall hc hf hn hm hd hmiss hr
    subst hfall
    have heff := (ppsInEdge_stamps (second := some second) (s := { s with emitted := [] }) ha hc).trans
      ((secondCount_differs (by exact hf) (by exact hn) (by exact hm) hd).trans (if_pos (congrArg (· + 1) hmiss)))
    rw [scheduleStep_seconds] at heff
    exact gives_of_effect rfl (heff.trans (firmwareEntry_room hr)) hInv.acted .of_parts fun t F => ⟨F.time, F.cal⟩
  · intro s x last second hInv ha hraw h1 h2 hQuiet
    have hc : tooClose s.time.ppsRaw x = true := by
      rw [hraw]
      simp only [tooClose, h1, h2, decide_true, Bool.and_self]
    exact gives_of_raise rfl (ppsInEdge_discards (s := { s with emitted := [] }) ha hc) hQuiet hInv.acted rfl rfl rfl .of_parts
      fun _ F N _ => ⟨F.time, N⟩
  · intro s i falling x hInv ha hm hc hr
    have heff := (trigInEdge_stamps (i := i.val) (s := { s with emitted := [] }) ha hm hc).trans
      ((congrArg (edgeHits _ _) (if_pos hr)).trans (edgeHits_windowsOnly ..))
    exact gives_of_effect rfl heff hInv.acted .of_parts fun t F => ⟨F.time, (congrArg Cap.memory F.cap :)⟩
  · intro s i falling x hInv ha hm hc hr hQuiet
    have heff := (trigInEdge_stamps (i := i.val) (s := { s with emitted := [] }) ha hm hc).trans
      ((congrArg (edgeHits _ _) (if_neg (Nat.not_lt.mpr hr))).trans (edgeHits_windowsOnly ..))
    refine gives_of_detected rfl heff hQuiet ?_ hInv.acted rfl rfl .of_parts fun t F N _ => ⟨F.time, N⟩
    simp only [raise, State.setTrigIn_flt, hInv.acted, List.nil_append]
  · intro s b hInv ha hb hq hw hl
    exact gives_of_effect rfl (ppsOutEdge_marks (s := { s with emitted := [] }) ha hb hq hw hl) hInv.acted .of_parts
      fun t F => ⟨F.time, F.emitted _ (by simp [State.emit])⟩

end Sys2Proof.Machine
end

