-- ==== Sys2Proof/Proofs/OffsetSteps.lean ====
section
/-! SUPPORT. Whole-second steps (03_hub_time, R77, R79): the calendar's only entry fires as a step, and nothing else is due. -/

namespace Sys2Proof.Machine

set_option Elab.async false

/-! ## Hub Time after a step -/

/-- A step that stays in the range of Hub Time adds its amount. -/
theorem shift_now {t : TimeSt} {d : Int} (h : t.ok) (h0 : 0 ≤ (t.now : Int) + d)
    (h1 : (t.now : Int) + d < ((2 ^ 48 * unitsPerSec : Nat) : Int)) : ((t.shift d).now : Int) = t.now + d := by
  obtain ⟨-, -, hf⟩ := h
  unfold TimeSt.shift
  rw [Int.emod_eq_of_lt h0 h1]
  generalize (t.now : Int) + d = x at h0 h1 ⊢
  unfold TimeSt.now
  unfold unitsPerSec at *
  dsimp only
  omega

/-- What a step of `n` whole seconds moves where no object has indices. -/
def secondsStepped (n : Int) (s : State) : State :=
  let moved := moveStamps (n * unitsPerSec) { s with time := s.time.shift (n * unitsPerSec) }
  { moved with time := { moved.time with
      stepTime := moved.now, stepCount := moved.time.stepCount + 1, stepNs := n * 1000000000, stepFrac := 0, lastPulse := -1 } }

/-- No object has indices that a whole-second step would move. -/
structure NoIndices (s : State) : Prop where
  streams : s.strm.streams = []
  channels : s.channels = []
  windows : s.cap.windows = []
  bglIns : s.bglIns = []
  jesds : s.jesds = []
  scps : s.scps = []

theorem stepIndices_none {sec : Int} {s : State} (h : NoIndices s) : stepIndices sec s = s := by
  have none : ∀ {α : Type} (t : Tbl α) (f : Nat → State → State) (x : State), t = [] → forEach (t.map (·.1)) f x = x := by
    rintro _ _ f x rfl
    rfl
  unfold stepIndices
  rw [none _ _ s h.channels]
  dsimp only
  rw [none _ _ s h.windows, none _ _ s h.bglIns, none _ _ s h.jesds]
  exact none _ _ s h.scps

theorem servoStepped_other {s : State} (h : s.xfer.servo ≠ .stepPending) : servoStepped s = s := if_neg h

theorem firstSet_xfer (s : State) : (firstSet s).xfer = s.xfer := by
  unfold firstSet
  split <;> rfl

/-- A whole-second step with nothing to index. -/
theorem offsetStep_seconds {n : Int} {s : State} (h : NoIndices s) (hv : s.xfer.servo ≠ .stepPending) :
    offsetStep (n * 1000000000) 0 s =
      keepClock { s with time := s.time.shift (n * unitsPerSec) } (firstSet (secondsStepped n s)) := by
  have hd : n * 1000000000 * 65536 + (((0 : W16).toNat : Nat) : Int) = n * unitsPerSec := by
    unfold unitsPerSec
    rw [show ((0 : W16).toNat : Int) = 0 from rfl]
    omega
  unfold offsetStep
  extract_lets d whole s1 moved s2 tm s3 s4
  have hd' : d = n * unitsPerSec := hd
  clear_value d
  subst hd'
  have hw : whole = true := decide_eq_true (Int.mul_emod_left n unitsPerSec)
  have hs1 : s1 = s := by
    show (if whole = true then forEach (s.strm.streams.map (·.1)) stepStream s else s) = s
    rw [if_pos hw, h.streams]
    rfl
  clear_value s1 whole
  subst hw hs1
  have hs4 : s4 = secondsStepped n s1 :=
    (congrArg (fun k => stepIndices k s3) (Int.mul_ediv_cancel n (by decide))).trans
      (stepIndices_none (s := secondsStepped n s1) ⟨h.streams, h.channels, h.windows, h.bglIns, h.jesds, h.scps⟩)
  rw [hs4, servoStepped_other (by rw [firstSet_xfer]; exact hv)]

/-! ## The only entry of the calendar -/

/-- The calendar has one entry, a due one-shot step of `n` whole seconds, and nothing that the step would index. -/
structure StepDue (s : State) (e : CalEntry) (n : Int) : Prop where
  only : s.cal.entries = [e]
  due : e.due s = true
  cls : e.cls = 1
  action : e.action = .offsetStep (n * 1000000000) 0
  oneShot : e.period = 0
  servo : s.xfer.servo ≠ .stepPending
  indices : NoIndices s
  log : s.cal.fireLog.length < 4096

/-- The calendar from which its only entry has fired. -/
def firedOnly (s : State) : State := { s with cal := { s.cal with entries := [], fired := s.cal.fired + 1 } }

theorem retire_only {e : CalEntry} {s : State} (h : s.cal.entries = [e]) (hp : e.period = 0) :
    retire false e s = { s with cal := { s.cal with entries := [] } } := by
  unfold retire
  rw [h, hp]
  simp

theorem barred_step {e : CalEntry} {s : State} {ns : Int} {f : W16} (hc : e.cls = 1) (ha : e.action = .offsetStep ns f) :
    barred e s = none := by
  unfold barred
  rw [hc, ha, if_neg (by simp), if_neg (by simp [actingUnits])]

theorem fireEntry_only {e : CalEntry} {s : State} {n : Int} (h : StepDue s e n) :
    fireEntry false (e, 0) s = offsetStep (n * 1000000000) 0 (firedOnly s) := by
  unfold fireEntry fireBy
  dsimp only
  rw [h.only, barred_step h.cls h.action, retire_only h.only h.oneShot, if_neg (by simp)]
  dsimp only
  have hs : e.isStep = true := by
    unfold CalEntry.isStep
    rw [h.action]
  rw [hs, if_pos rfl]
  unfold act
  rw [h.action]
  rfl

theorem resumePeriodic_none {xs : List Nat} {s : State} (h : s.cal.entries = []) : resumePeriodic xs s = s := by
  unfold resumePeriodic
  rw [h, List.map_nil, ← h]

theorem stepOver_none {fuel : Nat} {old s : State} {seen : List Nat} {p : Passed} (h : s.cal.entries = []) :
    stepOver fuel old seen p s = (p, s) := by
  cases fuel with
  | zero => rfl
  | succ k =>
    have hx : passedOver old s seen = [] := by
      unfold passedOver
      rw [h]
      split <;> rfl
    unfold stepOver
    rw [hx]
    refine (if_pos rfl).trans ?_
    show (({ fired := p.fired ++ [], others := p.others ++ [] } : Passed), s) = (p, s)
    rw [List.append_nil, List.append_nil]

theorem logFire_room {e : CalEntry} {o : Nat} {b : Bytes} {s : State} (h : s.cal.fireLog.length < 4096) :
    ∃ l, logFire e o b s = { s with cal := { s.cal with fireLog := l } } := by
  unfold logFire
  have hl := Nat.lt_of_le_of_lt (List.length_filter_le (fun f => f.ins != e.ins) s.cal.fireLog) h
  generalize s.cal.fireLog.filter (fun f => f.ins != e.ins) = log at hl
  cases log with
  | nil => exact ⟨_, rfl⟩
  | cons f fs => exact ⟨_, if_pos hl⟩

theorem firstSet_cal (s : State) : (firstSet s).cal = s.cal := by
  unfold firstSet
  split <;> rfl

/-- The firing of a calendar whose only entry is a whole-second step. -/
theorem calendarFire_step {e : CalEntry} {s : State} {n : Int} (h : StepDue s e n) :
    ∃ l, calendarFire s =
      let y := keepClock { firedOnly s with time := s.time.shift (n * unitsPerSec) } (firstSet (secondsStepped n (firedOnly s)))
      { y with cal := { s.cal with entries := [], fired := s.cal.fired + 1, fireLog := l } } := by
  have hN : NoIndices (firedOnly s) :=
    ⟨h.indices.streams, h.indices.channels, h.indices.windows, h.indices.bglIns, h.indices.jesds, h.indices.scps⟩
  have hy := offsetStep_seconds (n := n) (s := firedOnly s) hN h.servo
  have hcal : (offsetStep (n * 1000000000) 0 (firedOnly s)).cal =
      { s.cal with entries := [], fired := s.cal.fired + 1 } := by
    rw [hy, keepClock_cal, firstSet_cal]
    rfl
  have hent : (offsetStep (n * 1000000000) 0 (firedOnly s)).cal.entries = [] := by rw [hcal]
  obtain ⟨l, hl⟩ := logFire_room (e := e) (o := 0) (b := []) (s := offsetStep (n * 1000000000) 0 (firedOnly s)) (by
    rw [hcal]
    exact h.log)
  have hstep : ([(e, 0)].any fun x : CalEntry × Nat => x.1.isStep) = true := by simp [CalEntry.isStep, h.action]
  have hdue : firingOrder ((s.cal.entries.filter fun e => e.due s).map fun e => (e, 0)) = [(e, 0)] := by
    rw [h.only, show [e].filter (fun e => e.due s) = [e] by simp [h.due]]
    rfl
  refine ⟨l, ?_⟩
  unfold calendarFire
  rw [hdue]
  dsimp only
  rw [show ([(e, 0)].filter fun x : CalEntry × Nat => x.1.cls == 1) = [(e, 0)] by simp [h.cls],
    show ([(e, 0)].filter fun x : CalEntry × Nat => x.1.cls != 1) = [] by simp [h.cls]]
  dsimp only [forEach, List.foldl_cons, List.foldl_nil]
  rw [fireEntry_only h, stepOver_none hent, hstep, if_pos rfl, resumePeriodic_none hent]
  dsimp only [List.foldl_cons, List.foldl_nil, List.nil_append, firingOrder, fireRest]
  rw [hl, hcal, hy]
  rfl

/-! ## Fault events of a command that sets the clock -/

theorem FollowsNoted.keepClock_time {b n u : Nat} {s x y : State} (F : FollowsNoted b n u s x y) :
    (keepClock x y).time = x.time := by
  rw [Machine.keepClock_time, F.time]

theorem FollowsNoted.keepClock_keeps {b n u : Nat} {s x y : State} {ch : List Part} (F : FollowsNoted b n u s x y)
    (K : Keeps ch s y) (ht : x.tick = s.tick) (hk : Keeps ch s x) : Keeps ch s (keepClock x y) := by
  intro p hp
  have k := K p hp
  cases p
  case time => exact F.keepClock_time.trans (hk .time hp)
  case tick => exact ht
  all_goals exact k

/-- As `gives_of_noted`, for a command that may set the clock. -/
theorem gives_of_clock_noted {i : Instr} {s x : State} {f : State → State} {b n u : Nat} {ch : List Part} {post : State → Prop}
    (hi : exec i s = .next (afterClock f s)) (he : effectOf f s = x) (hd : x.flt.detected = [⟨b, n, u, none⟩])
    (h : Quietly b n u (acted x)) (ht : x.tick = s.tick) (hf : Part.flt ∈ ch) (hh : Part.hcp ∈ ch) (hk : Keeps ch s x)
    (hp : ∀ y, FollowsNoted b n u s x y → post (keepClock x y)) :
    Gives i s ch post := by
  have K := after_noted_keeps (by rw [he]; exact hd) (by rw [he]; exact h) hf hh (by rw [he]; exact hk)
  have F := follows_noted he hd h
  refine ⟨keepClock x (after f s), ?_, F.keepClock_keeps K ht hk, hp _ F⟩
  rw [hi, afterClock_eq, he]

/-! ## The registers behind moved stamps -/

theorem tget_map {α : Type} {d : α} {g : α → α} (hd : g d = d) (k : Nat) :
    ∀ t : Tbl α, tget d (t.map fun x => (x.1, g x.2)) k = g (tget d t k)
  | [] => hd.symm
  | x :: t => by
    have ih := tget_map hd k t
    by_cases h : x.1 = k
    · simp only [List.map_cons, tget, h, if_true]
    · simp only [List.map_cons, tget, h, if_false, ih]

/-- The starts of a block's resets, moved with the scale. -/
def movedBlock (d : Int) (b : FaultBlock) : FaultBlock := { b with starts := b.starts.map fun x => (x.1, moveStamp d x.2) }

theorem secondsStepped_blk (n : Int) (s : State) (b : Nat) :
    (secondsStepped n s).blk b = movedBlock (n * unitsPerSec) (s.blk b) := tget_map (g := movedBlock _) rfl b s.flt.blocks

/-- A step moves no register that the reaction to an event reads. -/
theorem Quietly.moved {b n u : Nat} {s x : State} {d : Int} (h : Quietly b n u s) (hc : x.chip.phase = s.chip.phase)
    (hb : ∀ k, x.blk k = movedBlock d (s.blk k)) : Quietly b n u x where
  live := by unfold State.faultsHeld; rw [hc]; exact h.live
  open_ := by
    have hg := h.open_
    unfold State.gated at hg ⊢
    simp only [hb]
    exact hg
  noReset := by unfold State.reaction; rw [hb]; exact h.noReset
  plain := h.plain

theorem firstSet_set {s : State} (h : s.time.quality ≠ .unset) : firstSet s = s := if_neg h

theorem firstSet_unset {s : State} (h : s.time.quality = .unset) :
    firstSet s = raise 0 7 0 { s with time := { s.time with quality := .free } } := if_pos h

theorem sticky_seen {f : FaultBlock} {now : T16} {n u : Nat} (h : n < 64) : (f.seen now n u).sticky.getLsbD n = true := by
  unfold FaultBlock.seen
  rw [BitVec.getLsbD_or, BitVec.getLsbD_ofNat, Nat.testBit_two_pow_self, decide_eq_true h, Bool.and_true, Bool.or_true]

/-- The state after a whole-second step that was the calendar's only entry; `l` is the log of the records. -/
def steppedState (n : Int) (l : List FireRec) (s : State) : State := { s with
  time := (secondsStepped n s).time, flt := (secondsStepped n s).flt
  cal := { s.cal with entries := [], fired := s.cal.fired + 1, fireLog := l } }

theorem calendarFire_set {e : CalEntry} {s : State} {n : Int} (h : StepDue s e n) (hq : s.time.quality ≠ .unset) :
    ∃ l, calendarFire s = steppedState n l s := by
  obtain ⟨l, hl⟩ := calendarFire_step h
  rw [firstSet_set (s := secondsStepped n (firedOnly s)) hq] at hl
  exact ⟨l, hl⟩

theorem calendarFire_unset {e : CalEntry} {s : State} {n : Int} (h : StepDue s e n) (hq : s.time.quality = .unset) :
    ∃ l, calendarFire s = raise 0 7 0 { steppedState n l s with
      time := { (steppedState n l s).time with quality := .free } } := by
  obtain ⟨l, hl⟩ := calendarFire_step h
  rw [firstSet_unset (s := secondsStepped n (firedOnly s)) hq] at hl
  exact ⟨l, hl⟩

theorem stepped_now {n : Int} {s : State} (h : s.time.ok) (h0 : 0 ≤ (s.now : Int) + n * unitsPerSec)
    (h1 : (s.now : Int) + n * unitsPerSec < 2 ^ 48 * unitsPerSec) :
    ((secondsStepped n s).now : Int) = s.now + n * unitsPerSec :=
  shift_now h h0 h1

/-- Settles O16: the only entry fires, its step finds nothing to index, and the first step of all is also noted. -/
theorem wholeSecondStepMovesHubTime : Obligations.WholeSecondStepMovesHubTime := by
  unfold Obligations.WholeSecondStepMovesHubTime
  refine ⟨?_, ?_⟩
  · intro s e n hInv hE hDue hCls hAct hPer hQ hV hStreams hChan hWin hBgl hJesd hScp hLog h0 h1
    obtain ⟨l, heff⟩ := calendarFire_set (s := { s with emitted := [] })
      ⟨hE, hDue, hCls, hAct, hPer, hV, ⟨hStreams, hChan, hWin, hBgl, hJesd, hScp⟩, hLog⟩ hQ
    refine gives_of_clock_effect rfl heff hInv.acted rfl .of_parts fun t F => ?_
    have hT : t.time = (secondsStepped n s).time := F.time
    have hnow : t.now = (secondsStepped n s).now := congrArg TimeSt.now hT
    refine ⟨?_, ?_, ?_, ?_, ?_, ?_, ?_, congrArg Calendar.entries F.cal, congrArg Calendar.fired F.cal⟩
    · rw [hnow]
      exact stepped_now hInv.time h0 h1
    · rw [hT]
      exact shift_ok s.time (n * unitsPerSec)
    · rw [hT]
      rfl
    · rw [hT]
      rfl
    · rw [hT]
      rfl
    · rw [hnow, hT]
      rfl
    · rw [hT]
      rfl
  · intro s e n hInv hE hDue hCls hAct hPer hQ hQuiet hV hStreams hChan hWin hBgl hJesd hScp hLog h0 h1
    obtain ⟨l, heff⟩ := calendarFire_unset (s := { s with emitted := [] })
      ⟨hE, hDue, hCls, hAct, hPer, hV, ⟨hStreams, hChan, hWin, hBgl, hJesd, hScp⟩, hLog⟩ hQ
    refine gives_of_clock_noted (b := 0) (n := 7) (u := 0) rfl heff (congrArg (· ++ [_]) hInv.acted)
      (hQuiet.moved rfl (secondsStepped_blk n s)) rfl (by simp) (by simp) .of_parts fun y F => ?_
    have hT : (keepClock _ y).time = { (secondsStepped n s).time with quality := .free } := F.keepClock_time
    have hnow : (keepClock _ y).now = (secondsStepped n s).now := (congrArg TimeSt.now hT :)
    refine ⟨?_, ?_, ?_, congrArg Calendar.entries F.cal, congrArg Calendar.fired F.cal⟩
    · rw [hnow]
      exact stepped_now hInv.time h0 h1
    · rw [hT]
    · unfold State.blk
      rw [keepClock_flt, F.flt, tget_tset_self]
      exact sticky_seen (by decide)

end Sys2Proof.Machine
end

