-- ==== Sys2Proof/Proofs/Completions.lean ====
section
/-! SUPPORT. Frames that compose, and completion notices: what a job's completion adds to the notice log, and what keeps it there. -/

namespace Sys2Proof.Machine

set_option Elab.async false

/-! ## Frames that compose -/

theorem Part.same_trans {s t u : State} {p : Part} (h : p.same s t) (k : p.same t u) : p.same s u := by
  cases p <;> exact Eq.trans k h

theorem Keeps.trans {ch : List Part} {s t u : State} (h : Keeps ch s t) (k : Keeps ch t u) : Keeps ch s u :=
  fun p hp => Part.same_trans (h p hp) (k p hp)

theorem Keeps.weaken {ch ch' : List Part} {s t : State} (h : Keeps ch s t) (hs : ∀ p ∈ ch, p ∈ ch') : Keeps ch' s t :=
  fun p hp => h p fun hc => hp (hs p hc)

theorem Keeps.forEach {α : Type} {ch : List Part} {f : α → State → State} (h : ∀ x s, Keeps ch s (f x s)) :
    ∀ (xs : List α) (s : State), Keeps ch s (forEach xs f s)
  | [], s => .refl ch s
  | x :: xs, s => (h x s).trans (Keeps.forEach h xs (f x s))

theorem HcpOnly.keeps {s t : State} (h : HcpOnly s t) : Keeps [.hcp] s t :=
  .of_parts (chip := .inr h.chip) (boot := .inr h.boot) (ports := .inr h.ports) (time := .inr h.time) (cal := .inr h.cal)
    (xfer := .inr h.xfer) (lanes := .inr h.lanes) (bgls := .inr h.bgls) (dclks := .inr h.dclks) (srefs := .inr h.srefs)
    (jesds := .inr h.jesds) (bglIns := .inr h.bglIns) (scps := .inr h.scps) (channels := .inr h.channels)
    (pipes := .inr h.pipes) (profiles := .inr h.profiles) (ledger := .inr h.ledger) (cap := .inr h.cap)
    (comp := .inr h.comp) (strm := .inr h.strm) (upl := .inr h.upl) (flt := .inr h.flt) (island := .inr h.island)
    (tick := .inr h.tick) (free := .inr h.freeCount) (queue := .inr h.pending)

/-- What has been taken of a request changes the mailboxes alone. -/
theorem taking_keeps (s : State) (op : Op) (r : Req) : Keeps [.hcp] s (s.taking op r) := by
  rw [taking_hcp_only]
  exact .of_parts (ports := .inr (taking_ports s op r))

/-- A mailbox of which a request has been taken, but for its sequence state. -/
theorem taking_mb (s : State) (op : Op) (r : Req) (k : Nat) :
    ∃ a b c, (s.taking op r).mb k = { s.mb k with seqSet := a, lastSeq := b, lastCrc := c } := by
  by_cases hk : k = r.mb.val
  · subst hk
    unfold State.taking acceptReq State.setMb State.mb
    split
    all_goals
      dsimp only
      rw [tget_tset_self]
      exact ⟨_, _, _, rfl⟩
  · exact ⟨_, _, _, taking_other s op r k hk⟩

/-! ## Entries of the notice log that a slot keeps -/

/-- No notice-log entry that a notification slot keeps is lost. -/
def LogKeeps (s t : State) : Prop := ∀ x ∈ s.hcp.log, x.pinSlot.isSome = true → x ∈ t.hcp.log

theorem LogKeeps.refl (s : State) : LogKeeps s s := fun _ h _ => h

theorem LogKeeps.trans {s t u : State} (h : LogKeeps s t) (k : LogKeeps t u) : LogKeeps s u :=
  fun x hx hp => k x (h x hx hp) hp

theorem LogKeeps.forEach {α : Type} {f : α → State → State} (h : ∀ x s, LogKeeps s (f x s)) :
    ∀ (xs : List α) (s : State), LogKeeps s (forEach xs f s)
  | [], s => .refl s
  | x :: xs, s => (h x s).trans (LogKeeps.forEach h xs (f x s))

theorem mem_evictOldest {x : LogEntry} (hp : x.pinSlot.isSome = true) : ∀ l : List LogEntry, x ∈ l → x ∈ evictOldest l
  | [], h => h
  | e :: es, h => by
    unfold evictOldest
    split
    case isTrue hc =>
      rcases List.mem_cons.mp h with rfl | h
      · rw [Option.isSome_iff_exists] at hp
        obtain ⟨n, hn⟩ := hp
        rw [hn] at hc
        exact Bool.noConfusion hc
      · exact h
    case isFalse =>
      rcases List.mem_cons.mp h with rfl | h
      · exact List.mem_cons_self
      · exact List.mem_cons_of_mem _ (mem_evictOldest hp es h)

theorem notifyOne_logKeeps (o : Nat) (p : Bytes) (m : Nat) (s : State) : LogKeeps s (notifyOne o p m s) := by
  intro x hx hp
  unfold notifyOne
  split
  · show x ∈ addUnsolicited s.hcp.log _
    refine List.mem_append_left _ ?_
    split
    · exact hx
    · exact mem_evictOldest hp _ hx
  · exact hx

theorem notify_logKeeps (o : Nat) (p : Bytes) (s : State) : LogKeeps s (notify o p s) := by
  unfold notify
  split
  · exact .forEach (fun m t => notifyOne_logKeeps o p m t) _ s
  · split
    · exact fun x hx _ => hx
    · exact .refl s

theorem tellBounds_logKeeps (n : Nat) (i : Option Nat) (old new : State) : LogKeeps new (tellBounds n i old new) := by
  unfold tellBounds tellStreams
  refine .forEach (fun p t => ?_) _ new
  split
  · refine LogKeeps.trans (t := match i with
      | some m => if t.mbOpen m then notifyOne 0x0680 p m t else t
      | none => t) ?_ (.forEach (fun m u => notifyOne_logKeeps 0x0680 p m u) _ _)
    cases i with
    | none => exact .refl t
    | some m =>
      dsimp only
      split
      · exact notifyOne_logKeeps 0x0680 p m t
      · exact .refl t
  · exact notify_logKeeps 0x0680 p t

/-! ## The completion of a job -/

theorem deliverable_of_hears {s : State} {j : JobRef} (h : s.hears j) : s.deliverable j.mb = true := by
  obtain ⟨-, ho, h8⟩ := h
  unfold State.deliverable State.mbOpen
  rw [ho, decide_eq_true h8]
  rfl

/-- A job whose mailbox hears it is told at once. -/
theorem complete_log {s : State} {j : JobRef} (h : s.hears j) (st d : Nat) (p : Bytes) :
    (complete j st d p s).hcp.log = s.hcp.log ++ [⟨j.mb, (s.mb j.mb).hubSeq,
      rspFrame (s.mb j.mb).version false 0xFFFFFFFF (s.mb j.mb).hubSeq j.opcode st j.tag d p, some j.slot, false⟩] := by
  unfold complete
  rw [if_pos h.1]
  unfold completeNow
  dsimp only
  rw [deliverable_of_hears h, if_pos rfl]
  rfl

theorem complete_told {s x : State} {j : JobRef} (h : x.hears j) (hs : (x.mb j.mb).hubSeq = (s.mb j.mb).hubSeq)
    (hv : (x.mb j.mb).version = (s.mb j.mb).version) (st d : Nat) (p : Bytes) : Told j st d p s (complete j st d p x) := by
  have hmem := List.mem_append_right x.hcp.log (List.mem_singleton_self (⟨j.mb, (x.mb j.mb).hubSeq,
    rspFrame (x.mb j.mb).version false 0xFFFFFFFF (x.mb j.mb).hubSeq j.opcode st j.tag d p, some j.slot, false⟩ : LogEntry))
  rw [← complete_log h] at hmem
  exact ⟨_, hmem, rfl, hs, rfl, by dsimp only; rw [hs, hv]⟩

theorem Told.keeps {j : JobRef} {st d : Nat} {p : Bytes} {s x t : State} (h : Told j st d p s x) (k : LogKeeps x t) :
    Told j st d p s t := by
  obtain ⟨e, he, hm, hs, hp, hf⟩ := h
  exact ⟨e, k e he (by rw [hp]; rfl), hm, hs, hp, hf⟩

theorem complete_held {s : State} {j : JobRef} (h : s.fwRuns = true) (st d : Nat) (p : Bytes) :
    (complete j st d p s).hcp.held = s.hcp.held := by
  unfold complete
  rw [if_pos h]
  unfold completeNow
  dsimp only
  split <;> rfl

/-- A slot returned to the ledger leaves the other slots' entries. -/
theorem logKeeps_of_log {s t : State} (h : t.hcp.log = s.hcp.log) : LogKeeps s t := fun x hx _ => by rw [h]; exact hx

/-- Behind an effect that leaves no notice waiting, a request adds no more than its answer and what the bounds make of it. -/
theorem request_logKeeps {op : Op} {r : Req} {s x : State} (h : Accepted op r s) (he : (op.effect r (s.taking op r)).1 = x)
    (hq : x.flt.detected = []) (hh : x.hcp.held.length ≤ (s.taking op r).hcp.held.length) :
    LogKeeps x (after (serveRow op r) s) := by
  have hd : (effectOf (serveRow op r) s).flt.detected = [] := by rw [served_flt h, he]; exact hq
  refine LogKeeps.trans ?_ (logKeeps_of_log ((congrArg Hcp.log (after_hcp _ _ hd)).trans rfl))
  have hserved : LogKeeps x (servedState op r s) := by
    refine logKeeps_of_log ?_
    unfold servedState
    dsimp only
    rw [he, releaseFrom_all _ _ (by
      unfold storeAnswer respond State.setMb
      dsimp only
      split
      · rw [notePeaks_hcp]
        exact hh
      · exact hh), storeAnswer_log]
    split
    · rw [notePeaks_hcp]
    · rfl
  rw [served_eq h]
  split
  · exact hserved.trans (tellBounds_logKeeps _ _ _ _)
  · exact hserved

/-- As `gives_of_request`, for a statement that also speaks of completion notices. -/
theorem gives_of_request_told {i : Instr} {op : Op} {r : Req} {s x : State} {ch : List Part} {post : State → Prop}
    (hi : exec i s = .next (after (serveRow op r) s)) (h : Accepted op r s) {st d : Nat} {p : Bytes}
    (he : op.effect r (s.taking op r) = (x, ⟨st, d, p⟩)) (hv : st ≠ 0x0303 ∧ st ≠ 0x0304 ∧ st ≠ 0x0401)
    (hq : x.flt.detected = []) (hn : x.hcp.held.length ≤ (s.taking op r).hcp.held.length)
    (hh : Part.hcp ∈ ch) (hl : op.ledger = true → Part.ledger ∈ ch) (hk : Keeps ch s x)
    (hp : ∀ t, FollowsReq op r s x t → Answered op.code r st d p t → LogKeeps x t → post t) : Gives i s ch post := by
  have e1 : (op.effect r (s.taking op r)).1 = x := by rw [he]
  have e2 : (op.effect r (s.taking op r)).2 = ⟨st, d, p⟩ := by rw [he]
  have hq' : (op.effect r (s.taking op r)).1.flt.detected = [] := by rw [e1]; exact hq
  exact ⟨_, hi, request_keeps h hq' hh hl (by rw [e1]; exact hk),
    hp _ (follows_req h e1 hq) (after_answered h hq' e2 hv) (request_logKeeps h e1 hq hn)⟩

/-- As `gives_of_request`, with the opcode's effect on the state before it but for its mailboxes. -/
theorem gives_of_op {i : Instr} {op : Op} {r : Req} {s x : State} {ch : List Part} {post : State → Prop}
    (hi : exec i s = .next (after (serveRow op r) s)) (h : Accepted op r s) {st d : Nat} {p : Bytes}
    (he : op.effect r { s with emitted := [], hcp := (s.taking op r).hcp } = (x, ⟨st, d, p⟩))
    (hk : Keeps ch { s with emitted := [], hcp := (s.taking op r).hcp } x)
    (hp : ∀ t, FollowsReq op r s x t → Answered op.code r st d p t → post t)
    (hv : st ≠ 0x0303 ∧ st ≠ 0x0304 ∧ st ≠ 0x0401 := by decide) (hq : x.flt.detected = [] := by exact h.acted)
    (hh : Part.hcp ∈ ch := by simp) (hl : op.ledger = false ∨ Part.ledger ∈ ch := by first | exact .inl rfl | exact .inr (by simp)) :
    Gives i s ch post := by
  refine gives_of_request hi h ((congrArg (op.effect r) (taking_hcp_only s op r)).trans he) hv hq hh
    (fun k => hl.resolve_left (by rw [k]; decide)) ?_ hp
  refine Keeps.trans (Keeps.weaken (taking_keeps s op r) ?_) (by rw [taking_hcp_only]; exact hk)
  rintro q hq'
  rw [List.mem_singleton.mp hq']
  exact hh

/-- An opcode that only reads. -/
theorem reports_of_op {i : Instr} {op : Op} {r : Req} {s : State} {p : Bytes} (hi : exec i s = .next (after (serveRow op r) s))
    (h : Accepted op r s) (he : op.effect r { s with emitted := [], hcp := (s.taking op r).hcp } =
      ({ s with emitted := [], hcp := (s.taking op r).hcp }, ⟨0, 0, p⟩)) (hl : op.ledger = false := by rfl) :
    Reports i op.code r s p := by
  rw [← taking_hcp_only] at he
  exact reports_of hi h he hl

end Sys2Proof.Machine
end

