-- ==== Sys2Proof/Proofs/TimeOpcodes.lean ====
section
/-! SUPPORT. The time and calendar opcodes (03_hub_time, Table TIME-10). -/

namespace Sys2Proof.Machine

set_option Elab.async false

/-! ## What an entry that does not act undoes -/

/-- The parts that an entry's undoing may change. -/
abbrev undoParts : List Part := [.hcp, .cal, .ledger, .pipes, .channels, .cap, .boot, .strm, .free]

/-- `t` is `s` but for what the undoing of an entry changes; no entry joins the calendar. -/
structure Undoes (s t : State) : Prop where
  keeps : Keeps undoParts s t
  entries : ∀ x ∈ t.cal.entries, x ∈ s.cal.entries

theorem Undoes.refl (s : State) : Undoes s s := ⟨.refl _ s, fun _ h => h⟩

theorem Undoes.trans {s t u : State} (h : Undoes s t) (k : Undoes t u) : Undoes s u :=
  ⟨h.keeps.trans k.keeps, fun x hx => h.entries x (k.entries x hx)⟩

theorem Undoes.forEach {α : Type} {f : α → State → State} (h : ∀ x s, Undoes s (f x s)) :
    ∀ (xs : List α) (s : State), Undoes s (forEach xs f s)
  | [], s => .refl s
  | x :: xs, s => (h x s).trans (Undoes.forEach h xs (f x s))

theorem Undoes.of_hcp {s t : State} (h : HcpOnly s t) : Undoes s t :=
  ⟨h.keeps.weaken (by simp), fun x hx => by rw [← h.cal]; exact hx⟩

theorem Undoes.of_cal {s t : State} (h : Keeps undoParts s t) (hc : t.cal = s.cal) : Undoes s t :=
  ⟨h, fun x hx => by rw [← hc]; exact hx⟩

theorem setPipe_undoes (p : Nat) (x : Pipe) (s : State) : Undoes s (s.setPipe p x) := .of_cal .of_parts rfl

theorem endSwap_undoes (p result : Nat) (s : State) : Undoes s (endSwap p result s) := by
  unfold endSwap
  dsimp only
  cases (s.pipe p).swap with
  | none => exact .refl s
  | some w =>
    dsimp only
    refine Undoes.trans (setPipe_undoes p { s.pipe p with
      swap := none, bank := .loaded, histB := [], bRun := 0, fadeDone := 0
      lastLanding := w.landing.getD (s.pipe p).lastLanding } s) ?_
    cases w.job with
    | none => exact .refl _
    | some j =>
      cases w.fire with
      | some f => exact .of_hcp (complete_hcp ..)
      | none =>
        dsimp only
        split
        · exact Undoes.trans ⟨.of_parts, fun _ hx => List.mem_of_mem_filter hx⟩ (.of_hcp (complete_hcp ..))
        · exact .of_hcp (complete_hcp ..)

theorem unplaceStream_undoes (n : Nat) (s : State) : Undoes s (unplaceStream n s) := .of_cal .of_parts rfl

theorem disarmPipe_undoes (p : Nat) (s : State) : Undoes s (disarmPipe p s) := by
  unfold disarmPipe dropSwap
  split
  · exact ((setPipe_undoes ..).trans (endSwap_undoes ..)).trans (unplaceStream_undoes ..)
  · exact .refl s

theorem disarmChannel_undoes (c : Nat) (s : State) : Undoes s (disarmChannel c s) := by
  unfold disarmChannel
  split
  · exact .of_cal .of_parts rfl
  · exact .refl s

theorem dropQuiet_undoes (id : Nat) (s : State) : Undoes s (dropQuiet id s) := by
  unfold dropQuiet
  dsimp only
  cases s.boot.calib with
  | none => exact .of_cal .of_parts rfl
  | some c =>
    dsimp only
    split <;> exact .of_cal .of_parts rfl

theorem undo_undoes (e : CalEntry) (s : State) : Undoes s (undo e s).2 := by
  unfold undo
  cases e.action
  case swap p =>
    dsimp only
    cases (s.pipe p).swap with
    | none => exact .refl s
    | some w => exact setPipe_undoes ..
  case segment c start => exact .of_cal .of_parts rfl
  case capArm n => exact .of_cal .of_parts rfl
  case capDisarm n a => exact .of_cal .of_parts rfl
  case chanStart first count => exact .forEach (fun c t => disarmChannel_undoes c t) _ s
  case pipeStart first count => exact .forEach (fun p t => disarmPipe_undoes p t) _ s
  case quietClose id => exact dropQuiet_undoes ..
  case handover w => exact .of_cal .of_parts rfl
  all_goals exact .refl s

theorem completeFire_undoes (f : FireRec) (s : State) : Undoes s (completeFire f s) := by
  unfold completeFire
  cases f.job with
  | none => exact .refl s
  | some j => exact .of_hcp (complete_hcp ..)

/-- The calendar without one of its entries. -/
def withoutEntry (e : CalEntry) (s : State) : State :=
  { s with cal := { s.cal with entries := s.cal.entries.filter fun x => x.ins ≠ e.ins } }

theorem calCancel_effect {r : Req} {e : CalEntry} {s : State} (h : s.entryOf (r.u8 0) (r.u32 4) = some e) :
    opCalCancel.effect r s = (completeFire (fireRec e 2 (undo e (withoutEntry e s)).1 (undo e (withoutEntry e s)).2)
      (undo e (withoutEntry e s)).2, ⟨0, 0, []⟩) := by
  unfold opCalCancel
  dsimp only
  rw [h]
  rfl

theorem entryOf_taking (s : State) (op : Op) (r : Req) (m n : Nat) : (s.taking op r).entryOf m n = s.entryOf m n := by
  unfold State.entryOf
  rw [taking_cal]

/-- A job hears of its completion while a request is taken, under the same number. -/
theorem hears_taking {s : State} {j : JobRef} (h : s.hears j) (op : Op) (r : Req) : (s.taking op r).hears j := by
  obtain ⟨hf, ho, h8⟩ := h
  obtain ⟨a, b, c, hm⟩ := taking_mb s op r j.mb
  refine ⟨?_, by rw [hm]; exact ho, h8⟩
  rw [taking_hcp_only]
  exact hf

/-- Settles O17: each opcode by its effect; a cancelled entry is undone, and its request is told of it. -/
theorem timeOpcodesActAndReport : Obligations.TimeOpcodesActAndReport := by
  unfold Obligations.TimeOpcodesActAndReport
  refine ⟨?_, ?_, ?_, ?_, ?_, ?_, ?_, ?_⟩
  · intro s r h
    exact reports_of_op rfl h rfl
  · intro s r h
    exact gives_of_op rfl h rfl .of_parts fun t F A => ⟨F.cal, A⟩
  · intro s r h
    exact gives_of_op rfl h rfl .of_parts fun t F A => ⟨F.time, A⟩
  · intro s r h
    exact gives_of_op rfl h rfl .of_parts fun t F A => ⟨F.time, A⟩
  · intro s r h
    exact gives_of_op rfl h rfl .of_parts fun t F A => ⟨F.time, A⟩
  · intro s r h
    exact reports_of_op rfl h rfl
  · intro s r e h hE
    have hx := fun f => (undo_undoes e (withoutEntry e (s.taking opCalCancel r))).trans (completeFire_undoes f _)
    have hw : Keeps undoParts s (withoutEntry e (s.taking opCalCancel r)) :=
      ((taking_keeps s opCalCancel r).weaken (by simp)).trans .of_parts
    refine gives_of_request rfl h (calCancel_effect ((entryOf_taking ..).trans hE)) (by decide) ?_ (by simp) (by simp)
      (hw.trans (hx _).keeps) fun t F A => ⟨fun x hx' => ?_, A⟩
    · have hflt := fun f => (hw.trans (hx f).keeps) .flt (by simp)
      exact (congrArg Flt.detected (hflt _)).trans h.acted
    · rw [F.cal] at hx'
      have hx'' := (hx _).entries x hx'
      have := List.mem_filter.mp hx''
      exact ⟨of_decide_eq_true this.2, by rw [← taking_cal s opCalCancel r]; exact this.1⟩
  · intro s r e p w set ph j h hE hAct hJob hHears
    have hu : undo e (withoutEntry e (s.taking opCalCancel r)) = ([], withoutEntry e (s.taking opCalCancel r)) := by
      unfold undo
      rw [hAct]
    have he := calCancel_effect (r := r) ((entryOf_taking s opCalCancel r ..).trans hE)
    rw [hu] at he
    have hc : ∀ x : State, completeFire (fireRec e 2 [] x) x =
        complete j 0 0 (ts96 x.now ++ le 1 2 ++ le 1 e.cls ++ zeros 2) x := by
      intro x
      unfold completeFire fireRec
      dsimp only
      rw [hJob]
      dsimp only
      rw [List.append_nil]
      rfl
    rw [hc] at he
    have hh : (withoutEntry e (s.taking opCalCancel r)).hears j := hears_taking hHears ..
    obtain ⟨a, b, c, hm⟩ := taking_mb s opCalCancel r j.mb
    have hcomp := complete_hcp j 0 0 (ts96 (withoutEntry e (s.taking opCalCancel r)).now ++ le 1 2 ++ le 1 e.cls ++ zeros 2)
      (withoutEntry e (s.taking opCalCancel r))
    have hk := (((taking_keeps s opCalCancel r).weaken (ch' := [.hcp, .cal, .ledger]) (by simp)).trans
      (.of_parts (t := withoutEntry e (s.taking opCalCancel r)))).trans (hcomp.keeps.weaken (by simp))
    refine gives_of_request_told rfl h he (by decide) ?_ ?_ (by simp) (by simp) hk fun t F A L => ⟨?_, A, ?_⟩
    · exact (congrArg Flt.detected (hk .flt (by simp))).trans h.acted
    · rw [complete_held hh.1]
      exact Nat.le_refl _
    · rw [F.cal, hcomp.cal]
      unfold withoutEntry
      rw [taking_cal]
    · have hnow : (withoutEntry e (s.taking opCalCancel r)).now = s.now := congrArg TimeSt.now (taking_time s opCalCancel r)
      rw [← hnow]
      exact (complete_told hh ((congrArg Mailbox.hubSeq hm).trans rfl) ((congrArg Mailbox.version hm).trans rfl) ..).keeps L

end Sys2Proof.Machine
end

