-- ==== Sys2Proof/Proofs/Decisions.lean ====
section
/-! SUPPORT. The capture windows' decisions and freezes (10_capture): what they leave unchanged. -/

namespace Sys2Proof.Machine

set_option Elab.async false

/-- `t` is `s` but for window `n`, the trigger outputs, the announcements and notices: what a decision on window `n` may change. -/
structure ActsOn (n : Nat) (s t : State) : Prop where
  keeps : Keeps [.hcp, .cap, .upl] s t
  memory : t.cap.memory = s.cap.memory
  others : ∀ k, k ≠ n → t.win k = s.win k
  emitted : ∀ e ∈ s.emitted, e ∈ t.emitted

theorem ActsOn.refl (n : Nat) (s : State) : ActsOn n s s := ⟨.refl _ s, rfl, fun _ _ => rfl, fun _ h => h⟩

theorem ActsOn.trans {n : Nat} {s t u : State} (h : ActsOn n s t) (k : ActsOn n t u) : ActsOn n s u :=
  ⟨h.keeps.trans k.keeps, k.memory.trans h.memory, fun j hj => (k.others j hj).trans (h.others j hj),
    fun e he => k.emitted e (h.emitted e he)⟩

theorem ActsOn.forEach {α : Type} {n : Nat} {f : α → State → State} (h : ∀ x s, ActsOn n s (f x s)) :
    ∀ (xs : List α) (s : State), ActsOn n s (forEach xs f s)
  | [], s => .refl n s
  | x :: xs, s => (h x s).trans (ActsOn.forEach h xs (f x s))

theorem ActsOn.of_hcp {n : Nat} {s t : State} (h : HcpOnly s t) : ActsOn n s t where
  keeps := h.keeps.weaken (by simp)
  memory := congrArg Cap.memory h.cap
  others k _ := congrArg (fun c : Cap => tget ({} : Window) c.windows k) h.cap
  emitted e he := by rw [h.emitted]; exact he

theorem win_setWin_self (n : Nat) (w : Window) (s : State) : (s.setWin n w).win n = w := tget_tset_self ..

theorem win_setWin_ne {n k : Nat} (w : Window) (s : State) (h : k ≠ n) : (s.setWin n w).win k = s.win k := tget_tset_ne _ _ _ _ _ h

theorem setWin_actsOn (n : Nat) (w : Window) (s : State) : ActsOn n s (s.setWin n w) :=
  ⟨.of_parts, rfl, fun _ h => win_setWin_ne w s h, fun _ h => h⟩

theorem notify_actsOn (n o : Nat) (p : Bytes) (s : State) : ActsOn n s (notify o p s) := .of_hcp (notify_hcp ..)

theorem miss_actsOn (n reason : Nat) (h : Hit) (s : State) : ActsOn n s (miss n reason h s) := by
  unfold miss
  dsimp only
  split
  · exact setWin_actsOn ..
  · exact (setWin_actsOn ..).trans (notify_actsOn ..)

theorem sketchEvent_actsOn (n event : Nat) (head : Bytes) (s : State) : ActsOn n s (sketchEvent n event head s) :=
  notify_actsOn ..

theorem freeze_actsOn (n cause flags : Nat) (s : State) : ActsOn n s (freeze n cause flags s) :=
  (setWin_actsOn ..).trans (sketchEvent_actsOn ..)

theorem queueControl_actsOn (n p : Nat) (f : Bytes) (s : State) : ActsOn n s (queueControl p f s) := by
  unfold queueControl
  dsimp only
  split
  · exact ⟨.of_parts, rfl, fun _ _ => rfl, fun _ h => h⟩
  · exact .refl n s

theorem announce_actsOn (n : Nat) (s : State) : ActsOn n s (announce n s) := by
  unfold announce
  cases s.upl.announce with
  | none => exact .refl n s
  | some e =>
    dsimp -zeta only
    split
    · exact .refl n s
    · extract_lets m send t
      have hsend : ∀ g (x : State), ActsOn n x (send g x) := by
        intro g x
        dsimp only [send]
        cases x.upPort g with
        | some p => exact queueControl_actsOn ..
        | none => exact .refl n x
      have ht : ActsOn n s t := (hsend 0 s).trans (hsend 1 _)
      exact ht.trans ⟨.of_parts, rfl, fun _ _ => rfl, fun _ h => h⟩

theorem freezePulses_actsOn (n : Nat) (s : State) : ActsOn n s (freezePulses n s) := by
  refine .forEach (fun o t => ?_) _ s
  dsimp only
  split
  · exact ⟨.of_parts, rfl, fun _ _ => rfl, fun e h => List.mem_append_left _ h⟩
  · exact .refl n t

theorem fill_actsOn (n : Nat) (nt first : Int) (flag : Nat) (hs : List Hit) (s : State) : ActsOn n s (fill n nt first flag hs s) := by
  have told : ∀ (c : Prop) [Decidable c] (x : State), ActsOn n x (if c then announce n x else x) := by
    intro c _ x
    split
    · exact announce_actsOn ..
    · exact .refl n x
  have done : ∀ (c : Prop) [Decidable c] (x : State), ActsOn n x (if c then freeze n 0 0 x else x) := by
    intro c _ x
    split
    · exact freeze_actsOn ..
    · exact .refl n x
  unfold fill
  cases lowest hs with
  | none => exact .refl n s
  | some h =>
    exact ((((setWin_actsOn ..).trans (freezePulses_actsOn ..)).trans (sketchEvent_actsOn ..)).trans (told _ _)).trans (done _ _)

theorem joinCause_actsOn (n : Nat) (hits : List Hit) (s : State) : ActsOn n s (joinCause n hits s) := setWin_actsOn ..

theorem misses_actsOn (n reason : Nat) (hits : List Hit) (s : State) : ActsOn n s (forEach hits (miss n reason) s) :=
  .forEach (fun h t => miss_actsOn n reason h t) hits s

theorem judge_actsOn (n : Nat) (hits : List Hit) (s : State) : ActsOn n s (judge n hits s) := by
  unfold judge
  extract_lets w here nt hits' t no
  split
  · exact .refl n s
  split
  · exact misses_actsOn ..
  split
  · exact (joinCause_actsOn ..).trans (misses_actsOn ..)
  split
  · exact misses_actsOn ..
  split
  · exact misses_actsOn ..
  refine ActsOn.trans (misses_actsOn n 3 _ s : ActsOn n s t) ?_
  split
  · exact misses_actsOn ..
  split
  · exact fill_actsOn ..
  split
  · exact fill_actsOn ..
  split
  · exact fill_actsOn ..
  · exact misses_actsOn ..

theorem decideWindow_actsOn (n : Nat) (s : State) : ActsOn n s (decideWindow n s) :=
  ((setWin_actsOn ..).trans (judge_actsOn ..)).trans (setWin_actsOn ..)

/-! ## All windows -/

/-- `t` is `s` but for what decisions on any windows may change. -/
structure Captures (s t : State) : Prop where
  keeps : Keeps [.hcp, .cap, .upl] s t
  memory : t.cap.memory = s.cap.memory
  emitted : ∀ e ∈ s.emitted, e ∈ t.emitted

theorem Captures.refl (s : State) : Captures s s := ⟨.refl _ s, rfl, fun _ h => h⟩

theorem Captures.trans {s t u : State} (h : Captures s t) (k : Captures t u) : Captures s u :=
  ⟨h.keeps.trans k.keeps, k.memory.trans h.memory, fun e he => k.emitted e (h.emitted e he)⟩

theorem ActsOn.captures {n : Nat} {s t : State} (h : ActsOn n s t) : Captures s t := ⟨h.keeps, h.memory, h.emitted⟩

theorem Captures.forEach {α : Type} {f : α → State → State} (h : ∀ x s, Captures s (f x s)) :
    ∀ (xs : List α) (s : State), Captures s (forEach xs f s)
  | [], s => .refl s
  | x :: xs, s => (h x s).trans (Captures.forEach h xs (f x s))

/-- One window's part of a freeze of all. -/
def freezeOne (cause n : Nat) (t : State) : State :=
  if ((decideWindow n t).win n).writes then freeze n cause 4 (decideWindow n t) else decideWindow n t

theorem freezeAll_eq (cause : Nat) (s : State) : freezeAll cause s = forEach (s.cap.windows.map (·.1)) (freezeOne cause) s := rfl

theorem freezeOne_actsOn (cause n : Nat) (s : State) : ActsOn n s (freezeOne cause n s) := by
  unfold freezeOne
  split
  · exact (decideWindow_actsOn ..).trans (freeze_actsOn ..)
  · exact decideWindow_actsOn ..

theorem freezeAll_captures (cause : Nat) (s : State) : Captures s (freezeAll cause s) := by
  rw [freezeAll_eq]
  exact .forEach (fun n t => (freezeOne_actsOn cause n t).captures) _ s

/-! ## A window that fills, or that a cause has frozen -/

/-- Window `n` has the same state and cause. -/
def SameEnd (n : Nat) (s t : State) : Prop := (t.win n).state = (s.win n).state ∧ (t.win n).cause = (s.win n).cause

theorem SameEnd.trans {n : Nat} {s t u : State} (h : SameEnd n s t) (k : SameEnd n t u) : SameEnd n s u :=
  ⟨k.1.trans h.1, k.2.trans h.2⟩

theorem SameEnd.of_win {n : Nat} {s t : State} (h : t.win n = s.win n) : SameEnd n s t := ⟨by rw [h], by rw [h]⟩

theorem SameEnd.of_setWin {n : Nat} {w : Window} {s : State} (h : w.state = (s.win n).state) (hc : w.cause = (s.win n).cause) :
    SameEnd n s (s.setWin n w) := ⟨by rw [win_setWin_self]; exact h, by rw [win_setWin_self]; exact hc⟩

theorem SameEnd.forEach {α : Type} {n : Nat} {f : α → State → State} (h : ∀ x s, SameEnd n s (f x s)) :
    ∀ (xs : List α) (s : State), SameEnd n s (forEach xs f s)
  | [], _ => ⟨rfl, rfl⟩
  | x :: xs, s => (h x s).trans (SameEnd.forEach h xs (f x s))

theorem notify_win (o : Nat) (p : Bytes) (s : State) (k : Nat) : (notify o p s).win k = s.win k :=
  congrArg (fun c : Cap => tget ({} : Window) c.windows k) (notify_hcp o p s).cap

theorem miss_sameEnd (n reason : Nat) (h : Hit) (s : State) : SameEnd n s (miss n reason h s) := by
  unfold miss
  extract_lets w e t
  have ht : SameEnd n s t := .of_setWin rfl rfl
  split
  · exact ht
  · exact ht.trans (.of_win (notify_win ..))

theorem joinCause_sameEnd (n : Nat) (hits : List Hit) (s : State) : SameEnd n s (joinCause n hits s) := .of_setWin rfl rfl

/-- No hit ends a sketch that fills or stands frozen. -/
theorem judge_sameEnd {n : Nat} {hits : List Hit} {s : State} (h : (s.win n).state = .filling ∨ (s.win n).state = .frozen) :
    SameEnd n s (judge n hits s) := by
  have misses : ∀ r xs (x : State), SameEnd n x (forEach xs (miss n r) x) :=
    fun r xs x => .forEach (fun y t => miss_sameEnd n r y t) xs x
  unfold judge
  extract_lets w here nt hits' t no
  split
  · exact ⟨rfl, rfl⟩
  split
  · exact misses ..
  split
  · exact (joinCause_sameEnd ..).trans (misses ..)
  split
  · exact misses ..
  case isFalse hf =>
    rw [if_pos]
    · exact misses ..
    · unfold Window.frozenOrDumping
      rw [(h.resolve_left hf : w.state = .frozen)]
      rfl

theorem decideWindow_sameEnd {n : Nat} {s : State} (h : (s.win n).state = .filling ∨ (s.win n).state = .frozen) :
    SameEnd n s (decideWindow n s) := by
  unfold decideWindow
  extract_lets w t
  have h1 : SameEnd n s (s.setWin n { w with cycle := [] }) := .of_setWin rfl rfl
  exact (h1.trans (judge_sameEnd (by rw [h1.1]; exact h))).trans (.of_setWin rfl rfl)

/-- A sketch that fills, or that the cause has frozen, is frozen by the cause. -/
def EndsBy (cause n : Nat) (s : State) : Prop :=
  (s.win n).state = .filling ∨ (s.win n).state = .frozen ∧ (s.win n).cause = cause

theorem freeze_win (n cause flags : Nat) (s : State) :
    ((freeze n cause flags s).win n).state = .frozen ∧ ((freeze n cause flags s).win n).cause = cause := by
  unfold freeze sketchEvent
  rw [notify_win, win_setWin_self]
  exact ⟨rfl, rfl⟩

theorem freezeOne_self {cause n : Nat} {s : State} (h : EndsBy cause n s) :
    ((freezeOne cause n s).win n).state = .frozen ∧ ((freezeOne cause n s).win n).cause = cause := by
  obtain ⟨hs, hc⟩ := decideWindow_sameEnd (n := n) (s := s) (h.imp id And.left)
  unfold freezeOne
  split
  case isTrue => exact freeze_win ..
  case isFalse hw =>
    rcases h with h | ⟨h, hcause⟩
    · refine absurd ?_ hw
      unfold Window.writes
      rw [hs, h]
      rfl
    · exact ⟨hs.trans h, hc.trans hcause⟩

theorem freezeAll_win {cause n : Nat} {s : State} (h : (s.win n).state = .filling) :
    ((freezeAll cause s).win n).state = .frozen ∧ ((freezeAll cause s).win n).cause = cause := by
  have key : ∀ (ks : List Nat) (t : State), EndsBy cause n t → (n ∈ ks ∨ (t.win n).state = .frozen) →
      ((forEach ks (freezeOne cause) t).win n).state = .frozen ∧ ((forEach ks (freezeOne cause) t).win n).cause = cause := by
    intro ks
    induction ks with
    | nil =>
      intro t hE hn
      have hz := hn.resolve_left (by simp)
      rcases hE with hE | hE
      · exact nomatch hE.symm.trans hz
      · exact hE
    | cons k ks ih =>
      intro t hE hn
      by_cases hk : k = n
      · subst hk
        have hself := freezeOne_self hE
        exact ih _ (.inr hself) (.inr hself.1)
      · have hw := (freezeOne_actsOn cause k t).others n (Ne.symm hk)
        refine ih _ ?_ (hn.imp (fun hm => (List.mem_cons.mp hm).resolve_left (Ne.symm hk)) fun hz => ?_)
        · unfold EndsBy
          rw [hw]
          exact hE
        · rw [hw]
          exact hz
  rw [freezeAll_eq]
  refine key _ s (.inl h) (.inl ?_)
  have listed : ∀ t : Tbl Window, (tget {} t n).state = .filling → n ∈ t.map (·.1) := by
    intro t ht
    induction t with
    | nil => exact nomatch ht
    | cons p t ih =>
      by_cases hp : p.1 = n
      · exact List.mem_map.mpr ⟨p, List.mem_cons_self, hp⟩
      · rw [List.map_cons]
        unfold tget at ht
        rw [if_neg hp] at ht
        exact List.mem_cons_of_mem _ (ih ht)
  exact listed _ h

end Sys2Proof.Machine
end

