-- ==== Sys2Proof/Proofs/ChipResets.lean ====
section
/-! SUPPORT. Power and chip resets (16_power_boot, Table BOOT-2): what a reset of the core region leaves. -/

namespace Sys2Proof.Machine

set_option Elab.async false

/-! ## What a chip reset leaves -/

/-- The state after a chip reset, with what it leaves of the capture controller and the emissions so far. -/
def resetState (c : Cap) (es : List Emission) (s : State) : State :=
  { chip := s.chip.afterReset s.tick (s.time.quality == .locked), boot := s.boot.afterReset
    hcp := { msixTable := s.hcp.msixTable, captured := s.hcp.captured, capturedQ := s.hcp.capturedQ }
    time := s.time.afterReset, xfer := s.xfer.afterReset, cap := c, strm := { seqs := s.strm.seqs }
    flt := s.flt.afterReset, island := s.island.afterReset, tick := s.tick, freeCount := s.freeCount, emitted := es
    pending := s.pending }

/-- Before it clears anything, a chip reset freezes the windows. -/
theorem chipReset_eq (s : State) : chipReset s = resetState (freezeAll 5 s).cap.afterReset (freezeAll 5 s).emitted s := by
  have K := (freezeAll_captures 5 s).keeps
  have hchip : (freezeAll 5 s).chip = s.chip := K .chip (by simp)
  have hboot : (freezeAll 5 s).boot = s.boot := K .boot (by simp)
  have hports : (freezeAll 5 s).hcp.ports = s.hcp.ports := K .ports (by simp)
  have htime : (freezeAll 5 s).time = s.time := K .time (by simp)
  have hxfer : (freezeAll 5 s).xfer = s.xfer := K .xfer (by simp)
  have hstrm : (freezeAll 5 s).strm = s.strm := K .strm (by simp)
  have hflt : (freezeAll 5 s).flt = s.flt := K .flt (by simp)
  have hisland : (freezeAll 5 s).island = s.island := K .island (by simp)
  have htick : (freezeAll 5 s).tick = s.tick := K .tick (by simp)
  have hfree : (freezeAll 5 s).freeCount = s.freeCount := K .free (by simp)
  have hqueue : (freezeAll 5 s).pending = s.pending := K .queue (by simp)
  have hhcp : (freezeAll 5 s).hcp.afterReset =
      { msixTable := s.hcp.msixTable, captured := s.hcp.captured, capturedQ := s.hcp.capturedQ } := by
    have hm : (freezeAll 5 s).hcp.msixTable = s.hcp.msixTable := (congrArg Hcp.msixTable hports :)
    have hc : (freezeAll 5 s).hcp.captured = s.hcp.captured := (congrArg Hcp.captured hports :)
    have hq : (freezeAll 5 s).hcp.capturedQ = s.hcp.capturedQ := (congrArg Hcp.capturedQ hports :)
    unfold Hcp.afterReset
    rw [hm, hc, hq]
  unfold chipReset
  dsimp only
  rw [hchip, hboot, hhcp, htime, hxfer, hstrm, hflt, hisland, htick, hfree, hqueue]
  rfl

theorem chipReset_memory (s : State) : (freezeAll 5 s).cap.afterReset.memory = s.cap.memory :=
  (freezeAll_captures 5 s).memory

theorem coreCleared_resetState (c : Cap) (es : List Emission) (s : State) : CoreCleared (resetState c es s) := by
  constructor <;> rfl

theorem resetState_resets (s : State) {c : Cap} (hc : c.memory = s.cap.memory) (es : List Emission) :
    ChipReset s (resetState c es s) where
  core := coreCleared_resetState c es s
  time := rfl
  phase := rfl
  since := rfl
  owed := rfl
  stopped := rfl
  straps := rfl
  testMode := rfl
  tries := rfl
  flash := ⟨rfl, rfl, rfl, rfl, rfl, rfl, rfl⟩
  lost := ⟨rfl, rfl, rfl, rfl, rfl⟩
  role := ⟨rfl, rfl, rfl⟩
  blocks := rfl
  memory := hc
  sequences := rfl

/-! ## From the effect of a reset to the next state -/

theorem CoreCleared.follows {s x t : State} (h : CoreCleared x) (F : Follows s x t) : CoreCleared t where
  hcp := by rw [F.hcp, h.hcp]
  cal := F.cal.trans h.cal
  lanes := F.lanes.trans h.lanes
  bgls := F.bgls.trans h.bgls
  dclks := F.dclks.trans h.dclks
  srefs := F.srefs.trans h.srefs
  jesds := F.jesds.trans h.jesds
  bglIns := F.bglIns.trans h.bglIns
  scps := F.scps.trans h.scps
  channels := F.channels.trans h.channels
  pipes := F.pipes.trans h.pipes
  profiles := F.profiles.trans h.profiles
  ledger := F.ledger.trans h.ledger
  comp := F.comp.trans h.comp
  upl := F.upl.trans h.upl

theorem ChipReset.follows {s x t : State} (h : ChipReset s x) (F : Follows s x t) : ChipReset s t where
  core := h.core.follows F
  time := by rw [F.time, h.time]; rfl
  phase := by rw [F.chip]; exact h.phase
  since := by rw [F.chip]; exact h.since
  owed := by rw [F.chip]; exact h.owed
  stopped := by rw [F.chip]; exact h.stopped
  straps := by rw [F.chip]; exact h.straps
  testMode := by rw [F.chip]; exact h.testMode
  tries := by rw [F.boot]; exact h.tries
  flash := by rw [F.boot]; exact h.flash
  lost := by rw [F.boot]; exact h.lost
  role := by rw [F.xfer]; exact h.role
  blocks := by rw [F.flt]; exact h.blocks
  memory := by rw [F.cap]; exact h.memory
  sequences := F.strm.trans h.sequences

theorem keeps_wholeHub {s t : State} (ht : t.tick = s.tick) (hf : t.freeCount = s.freeCount) (hq : t.pending = s.pending) :
    Keeps wholeHub s t := by
  intro p hp
  cases p
  case tick => exact ht
  case free => exact hf
  case queue => exact hq
  all_goals exact absurd (by simp [wholeHub]) hp

/-! ## The rails -/

/-- What the loss of the core region leaves; `es` are the emissions so far. -/
def coreLossState (es : List Emission) (s : State) : State :=
  { pcieDown (resetState {} es s) with
    chip := { (pcieDown (resetState {} es s)).chip with phase := .off, holdRails := false, jtagIr := 0 }, cap := {}
    boot := { (pcieDown (resetState {} es s)).boot with selfFailed := 0 }, flt := { record := s.flt.record } }

theorem coreLoss_eq (s : State) : coreLoss s = coreLossState (freezeAll 5 s).emitted s := by
  unfold coreLoss
  rw [chipReset_eq]
  rfl

/-- Settles O18: the loss of the core region is a chip reset after which the capture controller is lost too. -/
theorem railsSetTheCoreRegion : Obligations.RailsSetTheCoreRegion := by
  unfold Obligations.RailsSetTheCoreRegion
  refine ⟨?_, ?_, ?_, ?_, ?_⟩
  · intro s hInv ha
    have heff : effectOf vddAonUp s = _ := if_neg (by rw [show s.chip.rails.aon = false from ha]; decide)
    unfold aonLoss at heff
    rw [coreLoss_eq] at heff
    refine gives_of_clock_effect rfl heff rfl rfl (keeps_wholeHub rfl rfl rfl) fun t F => ?_
    refine ⟨F.time, congrArg Chip.phase F.chip, congrArg Chip.rails F.chip, F.xfer, F.flt, F.strm, F.cap,
      congrArg Boot.tries F.boot, congrArg Chip.owedHoldover F.chip, CoreCleared.follows ?_ F⟩
    constructor <;> rfl
  · intro s hInv ha
    have heff : effectOf vddAonLoss s = _ := if_neg (by rw [show s.chip.rails.aon = true from ha]; decide)
    unfold aonLoss at heff
    rw [coreLoss_eq] at heff
    refine gives_of_clock_effect rfl heff rfl rfl (keeps_wholeHub rfl rfl rfl) fun t F => ?_
    refine ⟨F.time, congrArg Chip.phase F.chip, congrArg Chip.rails F.chip, F.xfer, F.flt, F.strm, F.cap,
      congrArg Boot.tries F.boot, congrArg Chip.straps F.chip, CoreCleared.follows ?_ F⟩
    constructor <;> rfl
  · intro s sram hInv hp
    have heff : effectOf (vddCoreLoss sram) s = { coreLossState (freezeAll 5 { s with emitted := [] }).emitted s with
        chip := { (coreLossState [] s).chip with
          rails := if sram then { s.chip.rails with sram := false } else { s.chip.rails with core := false } } } := by
      unfold effectOf vddCoreLoss
      rw [if_neg (by exact hp), coreLoss_eq]
      rfl
    refine gives_of_effect rfl heff rfl (keeps_wholeHub rfl rfl rfl) fun t F => ?_
    refine ⟨congrArg Chip.phase F.chip, F.time, F.cap, F.flt, F.strm, (congrArg Boot.tries F.boot :), CoreCleared.follows ?_ F,
      congrArg Chip.rails F.chip⟩
    constructor <;> rfl
  · intro s sram hInv hp
    have heff : effectOf (vddCoreLoss sram) s = { s with emitted := [], chip := { s.chip with
        rails := if sram then { s.chip.rails with sram := false } else { s.chip.rails with core := false } } } := by
      unfold effectOf vddCoreLoss
      rw [if_pos (by exact hp)]
    exact gives_of_effect rfl heff hInv.acted .of_parts fun t F => F.chip
  · intro s hInv hp ha
    have heff : effectOf coreRailsUp s = _ := if_neg (by
      rw [show s.chip.phase = .off from hp, show s.chip.rails.aon = true from ha]
      decide)
    exact gives_of_effect rfl heff hInv.acted .of_parts fun t F => F.chip

/-! ## Resets that a pin or a rail begins -/

/-- What a chip reset with PCI Express down leaves; `c` and `es` are what the freeze of the windows leaves. -/
def downState (c : Cap) (es : List Emission) (s : State) : State := pcieDown (resetState c es s)

theorem downState_resets (s : State) {c : Cap} (hc : c.memory = s.cap.memory) (es : List Emission) :
    ChipReset s (downState c es s) := by
  have h := resetState_resets s hc es
  exact { h with core := by constructor <;> rfl }

/-- What a reset with PCI Express down leaves, but for the pins, rails and marks that hold it. -/
def heldState (c : Cap) (es : List Emission) (low breach rails_ err : Bool) (rails : Rails) (s : State) : State :=
  { downState c es s with
    chip := { (downState c es s).chip with resetNLow := low, holdBreach := breach, holdRails := rails_, rails := rails }
    boot := { (downState c es s).boot with seqError := err } }

theorem heldState_resets (s : State) {c : Cap} (hc : c.memory = s.cap.memory) (es : List Emission) (low breach rails_ err : Bool)
    (rails : Rails) : ChipReset s (heldState c es low breach rails_ err rails s) := by
  have h := downState_resets s hc es
  exact { h with core := by constructor <;> rfl }

/-- A command whose effect is a reset that something holds. -/
theorem gives_of_held {i : Instr} {s : State} {f : State → State} {low breach rails_ err : Bool} {rails : Rails} {post : State → Prop}
    (hi : exec i s = .next (after f s)) (he : effectOf f s = heldState (freezeAll 5 { s with emitted := [] }).cap.afterReset
      (freezeAll 5 { s with emitted := [] }).emitted low breach rails_ err rails s)
    (hp : ∀ t, ChipReset s t → t.chip.resetNLow = low → t.chip.pcieUp = false → t.chip.holdBreach = breach →
      t.chip.holdRails = rails_ → t.boot.seqError = err → t.chip.rails = rails →
      t.cap = (freezeAll 5 { s with emitted := [] }).cap.afterReset → post t) : Gives i s wholeHub post :=
  gives_of_effect hi he rfl (keeps_wholeHub rfl rfl rfl) fun t F => hp t
    ((heldState_resets s (chipReset_memory { s with emitted := [] }) ..).follows F) (congrArg Chip.resetNLow F.chip) (congrArg Chip.pcieUp F.chip)
    (congrArg Chip.holdBreach F.chip) (congrArg Chip.holdRails F.chip) (congrArg Boot.seqError F.boot)
    (congrArg Chip.rails F.chip) F.cap

theorem resetNAssert_resets {n : Nat} {s : State} (hn : 100 ≤ n) (hp : s.chip.phase ≠ .off) : resetNAssert n s =
    heldState (freezeAll 5 s).cap.afterReset (freezeAll 5 s).emitted true s.chip.holdBreach s.chip.holdRails s.boot.seqError
      s.chip.rails s := by
  unfold resetNAssert
  rw [if_neg (Nat.not_lt.mpr hn), if_neg hp, chipReset_eq]
  rfl

theorem laneIoRailLoss_holds {r : Rail} {s : State} (hp : s.chip.phase ≠ .off)
    (hr : r = .io18 ∨ r = .io33 ∨ (r = .sda ∨ r = .sdh) ∧ s.chip.rails.io18 = false ∧ s.chip.rails.io33 = false) :
    laneIoRailLoss r s = heldState (freezeAll 5 s).cap.afterReset (freezeAll 5 s).emitted s.chip.resetNLow s.chip.holdBreach
      true s.boot.seqError (s.chip.rails.drop r) s := by
  have hg : ¬ railGroup r < 3 := by rcases hr with rfl | rfl | ⟨rfl | rfl, -⟩ <;> decide
  have hb : ¬ (railGroup r = 3 ∧ (s.chip.rails.io18 = true ∨ s.chip.rails.io33 = true)) := by
    rcases hr with rfl | rfl | ⟨-, h18, h33⟩
    · exact fun h => absurd h.1 (by decide)
    · exact fun h => absurd h.1 (by decide)
    · rw [h18, h33]
      simp
  unfold laneIoRailLoss
  rw [if_neg hg, if_neg hp, if_neg hb, chipReset_eq]
  rfl

theorem orderBreach_holds {r : Rail} {s : State} (hp : s.chip.phase ≠ .off) : orderBreach r s =
    heldState (freezeAll 5 s).cap.afterReset (freezeAll 5 s).emitted s.chip.resetNLow true s.chip.holdRails true
      (s.chip.rails.drop r) s := by
  unfold orderBreach
  rw [if_neg hp, chipReset_eq]
  rfl

theorem laneIoRailLoss_breaches {r : Rail} {s : State} (hp : s.chip.phase ≠ .off) (hr : r = .sda ∨ r = .sdh)
    (h4 : s.chip.rails.io18 = true ∨ s.chip.rails.io33 = true) : laneIoRailLoss r s = orderBreach r s := by
  unfold laneIoRailLoss
  rw [if_neg (by rcases hr with rfl | rfl <;> decide), if_neg hp, if_pos ⟨by rcases hr with rfl | rfl <;> rfl, h4⟩]

theorem railOrderBreach_breaches {r : Rail} {s : State} (ha : s.chip.rails.aon = true)
    (hr : r = .sda ∨ r = .sdh ∨ r = .io18 ∨ r = .io33) : railOrderBreach r s = orderBreach r s := by
  unfold railOrderBreach
  rw [if_neg]
  rw [ha]
  rcases hr with rfl | rfl | rfl | rfl <;> simp [railGroup]

/-! ## A window that fills, across a reset -/

theorem tget_filter_value {α : Type} [DecidableEq α] {d : α} {k : Nat} : ∀ {t : Tbl α}, tget d t k ≠ d →
    tget d (t.filter fun x => decide (x.2 ≠ d)) k = tget d t k
  | [], _ => rfl
  | x :: t, h => by
    have ih := tget_filter_value (d := d) (k := k) (t := t)
    by_cases hx : x.1 = k <;> by_cases hv : x.2 = d
    · simp [tget, hx, hv] at h
    · simp [tget, hx, hv]
    · simp [tget, hx] at h
      simpa [tget, hx, hv] using ih h
    · simp [tget, hx] at h
      simpa [tget, hx, hv] using ih h

theorem afterReset_frozen {w : Window} (h : w.state = .frozen) : w.afterReset.state = .frozen ∧ w.afterReset.cause = w.cause := by
  unfold Window.afterReset
  rw [if_pos (.inl h)]
  exact ⟨rfl, rfl⟩

/-- A frozen sketch survives a chip reset, with its cause. -/
theorem capReset_win {n : Nat} {c : Cap} (h : (tget {} c.windows n).state = .frozen) :
    (tget {} c.afterReset.windows n).state = .frozen ∧ (tget {} c.afterReset.windows n).cause = (tget {} c.windows n).cause := by
  have hmap : tget ({} : Window) (c.windows.map fun w => (w.1, w.2.afterReset)) n = (tget {} c.windows n).afterReset :=
    tget_map rfl n c.windows
  have hf := afterReset_frozen h
  unfold Cap.afterReset
  dsimp only
  rw [tget_filter_value (by
    rw [hmap]
    intro hz
    exact nomatch hf.1.symm.trans (congrArg Window.state hz)), hmap]
  exact hf

/-! ## SYS_RESET -/

/-- The answer of a SYS_RESET, as it waits in its mailbox. -/
def resetAnswer (r : Req) (s : State) : Entry :=
  { isNotice := false, hubSeq := (s.mb r.mb.val).hubSeq
    frame := rspFrame (s.mb r.mb.val).version false r.hostSeq (s.mb r.mb.val).hubSeq 0x0104 0 r.tag 0 [] }

theorem sysReset_served {r : Req} {s : State} (h : Accepted opSysReset r s) : effectOf (serveRow opSysReset r) s =
    storeAnswer 0x0104 r ⟨0, 0, []⟩ { s.taking opSysReset r with
      chip := { s.chip with sysResetOwed := true } } := by
  have hv : ∀ b, v2Answer b ⟨0, 0, []⟩ = ⟨0, 0, []⟩ := fun b => by cases b <;> rfl
  have hchip : (s.taking opSysReset r).chip = s.chip := taking_chip ..
  rw [served_eq h]
  refine (if_neg (by decide)).trans ?_
  unfold servedState
  dsimp only
  rw [show opSysReset.effect r (s.taking opSysReset r) = ({ s.taking opSysReset r with
    chip := { (s.taking opSysReset r).chip with sysResetOwed := true } }, ⟨0, 0, []⟩) from rfl, hchip, hv]
  exact releaseFrom_all _ _ (Nat.le_refl _)

theorem storeAnswer_waiting (r : Req) (s : State) : ((storeAnswer 0x0104 r ⟨0, 0, []⟩ s).mb r.mb.val).waiting =
    (s.mb r.mb.val).waiting ++ [resetAnswer r s] := by
  unfold storeAnswer respond
  rw [State.mb_setMb_self, State.mb_setMb_self]
  rfl

theorem storeAnswer_ring (r : Req) (s : State) : ((storeAnswer 0x0104 r ⟨0, 0, []⟩ s).mb r.mb.val).session =
      (s.mb r.mb.val).session ∧ ((storeAnswer 0x0104 r ⟨0, 0, []⟩ s).mb r.mb.val).rspPi = (s.mb r.mb.val).rspPi ∧
    ((storeAnswer 0x0104 r ⟨0, 0, []⟩ s).mb r.mb.val).rspCi = (s.mb r.mb.val).rspCi := by
  unfold storeAnswer respond
  rw [State.mb_setMb_self, State.mb_setMb_self]
  exact ⟨rfl, rfl, rfl⟩

/-- `t` is `s` but for the mailboxes, the pending vectors and the emissions. -/
def WritesOnly (s t : State) : Prop :=
  t = { s with hcp := { s.hcp with mbs := t.hcp.mbs, log := t.hcp.log, pba := t.hcp.pba }, emitted := t.emitted }

theorem WritesOnly.of_mailOnly {s t : State} (h : MailOnly s t) : WritesOnly s t := by
  unfold WritesOnly
  unfold MailOnly at h
  rw [h]

theorem WritesOnly.trans {s t u : State} (h : WritesOnly s t) (k : WritesOnly t u) : WritesOnly s u := by
  unfold WritesOnly at *
  rw [k, h]

theorem ringTakes_writesOnly (m : Nat) (e : Entry) (s : State) : WritesOnly s (ringTakes m e s) := by
  obtain ⟨p, es, h⟩ := ringTakes_eq m e s
  rw [h]
  rfl

/-- The only entry that waits goes out to the ring, and the reset follows. -/
theorem finishReset_resets {m : Nat} {e : Entry} {s : State} (hm : m < 8) (ho : s.chip.sysResetOwed = true)
    (hw : (s.mb m).waiting = [e]) (hs : (s.mb m).session = .opened) (hu : s.chip.pcieUp = true)
    (hr : ((s.mb m).rspPi - (s.mb m).rspCi).toNat < 64) : ∃ t, finishReset m s = chipReset t ∧ WritesOnly s t ∧
      Emission.ringWrite m ((s.mb m).rspPi.toNat % 64) e.frame ∈ t.emitted := by
  have hring := writeEntry_ring (e := e) hm hs hu hr
  have hwrites : WritesOnly s (writeEntry m e s) := by
    rw [hring]
    exact (ringTakes_writesOnly m e s).trans (.of_mailOnly (entryWritten_mailOnly ..))
  have hempty : ((writeEntry m e s).mb m).waiting = [] := by
    obtain ⟨p, es, h⟩ := ringTakes_eq m e s
    rw [hring, entryWritten_mb_self, h]
    unfold State.mb
    dsimp only
    rw [tget_tset_self]
    exact congrArg (List.drop 1) hw
  refine ⟨writeEntry m e s, ?_, hwrites, ?_⟩
  · have hflush : flushMb m [e].length s = writeEntry m e s := by
      show flushMb m 1 s = _
      unfold flushMb
      rw [hw]
      rfl
    unfold finishReset
    rw [ho, hw, hflush]
    dsimp only
    rw [if_neg (by decide), if_pos (by rw [hempty]; rfl)]
  · rw [hring, (entryWritten_mailOnly m e _).emitted]
    exact ringTakes_emitted m e s

/-- The state in which the answer of a SYS_RESET waits. -/
theorem sysReset_state (r : Req) (s : State) : ∃ h, storeAnswer 0x0104 r ⟨0, 0, []⟩ { s.taking opSysReset r with
    chip := { s.chip with sysResetOwed := true } } =
      { s with emitted := [], chip := { s.chip with sysResetOwed := true }, hcp := h } := by
  rw [taking_hcp_only]
  exact ⟨_, rfl⟩

theorem resetAnswer_taking (r : Req) (s : State) (c : Chip) :
    resetAnswer r { s.taking opSysReset r with chip := c } = resetAnswer r s := by
  obtain ⟨a, b, d, h⟩ := taking_mb s opSysReset r r.mb.val
  have h' : ({ s.taking opSysReset r with chip := c } : State).mb r.mb.val = _ := h
  unfold resetAnswer
  rw [h']
  rfl

/-- The reset owed, the mailboxes and the emissions before it are nothing that a chip reset keeps. -/
theorem resetState_sysReset (s : State) (g : Hcp) (before : List Emission) {c : Cap} (hc : c.memory = s.cap.memory)
    (es : List Emission) : ChipReset s (resetState c es { s with
      emitted := before, chip := { s.chip with sysResetOwed := true }, hcp := g }) := by
  have R := resetState_resets { s with emitted := before, chip := { s.chip with sysResetOwed := true }, hcp := g } hc es
  exact ⟨R.core, R.time, R.phase, R.since, R.owed, R.stopped, R.straps, R.testMode, R.tries, R.flash, R.lost, R.role,
    R.blocks, R.memory, R.sequences⟩

/-- Settles O19: every reset freezes the windows first and then leaves the same state but for what holds it; the answer of a
SYS_RESET goes out before. -/
theorem chipResetsBeginAndAreHeld : Obligations.ChipResetsBeginAndAreHeld := by
  unfold Obligations.ChipResetsBeginAndAreHeld
  refine ⟨?_, ?_, ?_, ?_, ?_, ?_, ?_⟩
  · intro s n hInv hn hp
    exact gives_of_held rfl (resetNAssert_resets (s := { s with emitted := [] }) hn hp)
      fun t R hl hu _ _ he _ _ => ⟨R, hl, hu, he⟩
  · intro s n hInv hn
    exact gives_nothing rfl (if_pos hn) hInv.acted fun _ _ => trivial
  · intro s rail hInv hp hr
    exact gives_of_held rfl (laneIoRailLoss_holds (s := { s with emitted := [] }) hp hr)
      fun t R _ hu _ hh he hrl _ => ⟨R, hu, hh, he, hrl⟩
  · intro s rail hInv hp hr h4
    exact gives_of_held rfl ((laneIoRailLoss_breaches (s := { s with emitted := [] }) hp hr h4).trans (orderBreach_holds hp))
      fun t R _ hu hb _ he hrl _ => ⟨R, hu, hb, he, hrl⟩
  · intro s rail hInv ha hp hr
    exact gives_of_held rfl ((railOrderBreach_breaches (s := { s with emitted := [] }) ha hr).trans (orderBreach_holds hp))
      fun t R _ hu hb _ he hrl _ => ⟨R, hu, hb, he, hrl⟩
  · intro s r h hm hu hw
    obtain ⟨ho, hroom⟩ := Bool.and_eq_true_iff.mp h.room
    have hring : ((s.mb r.mb.val).rspPi - (s.mb r.mb.val).rspCi).toNat < 64 := by
      unfold State.responseRoom at hroom
      rw [if_neg (by omega), if_neg (by omega), hw] at hroom
      exact of_decide_eq_true hroom
    obtain ⟨a, b, c, hmb⟩ := taking_mb s opSysReset r r.mb.val
    obtain ⟨g, hy⟩ := sysReset_state r s
    have hwait := storeAnswer_waiting r { s.taking opSysReset r with chip := { s.chip with sysResetOwed := true } }
    obtain ⟨hsess, hpi, hci⟩ := storeAnswer_ring r { s.taking opSysReset r with chip := { s.chip with sysResetOwed := true } }
    have hmb' : ({ s.taking opSysReset r with chip := { s.chip with sysResetOwed := true } } : State).mb r.mb.val = _ := hmb
    rw [resetAnswer_taking, hmb', hw, hy] at hwait
    rw [hmb', hy] at hsess hpi hci
    obtain ⟨t, hf, hwr, hem⟩ := finishReset_resets hm (s := { s with
      emitted := [], chip := { s.chip with sysResetOwed := true }, hcp := g }) rfl hwait
      (hsess.trans (eq_of_beq ho)) hu (by rw [hpi, hci]; exact hring)
    have heff : effectOf (fun t => finishReset r.mb.val (serveRow opSysReset r t)) s = chipReset t := by
      refine Eq.trans ?_ hf
      rw [← hy, ← sysReset_served h]
      rfl
    rw [hpi] at hem
    obtain ⟨g', es, ht⟩ : ∃ g' es, t = { s with emitted := es, chip := { s.chip with sysResetOwed := true }, hcp := g' } :=
      ⟨_, _, hwr⟩
    subst ht
    rw [chipReset_eq] at heff
    exact gives_of_effect rfl heff rfl (keeps_wholeHub rfl rfl rfl) fun u F =>
      ⟨(resetState_sysReset s g' es (by exact chipReset_memory _) _).follows F, (congrArg Chip.pcieUp F.chip).trans hu,
        F.emitted _ ((freezeAll_captures 5 _).emitted _ hem)⟩
  · intro s n hInv hp hw
    refine gives_of_held rfl (resetNAssert_resets (s := { s with emitted := [] }) (Nat.le_refl 100) hp)
      fun t R _ _ _ _ _ _ hc => ?_
    have hwin := freezeAll_win (cause := 5) (s := { s with emitted := [] }) hw
    have hres := capReset_win (c := (freezeAll 5 { s with emitted := [] }).cap) hwin.1
    unfold State.win
    rw [hc]
    exact ⟨hres.1, hres.2.trans hwin.2⟩

end Sys2Proof.Machine
end

