-- ==== Sys2Proof/Proofs/Boot.lean ====
section
/-! SUPPORT. Boot, pushed images, monitors and the memory self-test (16_power_boot). -/

namespace Sys2Proof.Machine

set_option Elab.async false

/-! ## BOOT_COMPLETE where the fault registers of a block stand twice in their table -/

/-- A hub whose firmware has been staged and has started; a notice waits. The table of the fault registers has two entries
of block 15: the first, all at reset, is the one that is read; the second says that unit 0 is in reset. -/
def bootWithTwoEntries : State :=
  { chip := { phase := .boot, bootStatus := 3 }, boot := { loaded := true }
    flt := { blocks := [(15, {}), (15, { inReset := [0] })] }, hcp := { held := [.unsolicited 0x0AC0 []] } }

/-- Clearing the reaction bytes drops the first entry and so uncovers the second: the firmware counts as reset, and the
notice goes on waiting. -/
theorem bootWithTwoEntries_waits : (after (bootComplete true) bootWithTwoEntries).hcp.held ≠ [] := by decide

/-- Refutes O21: BOOT_COMPLETE does not always tell what waited. The invariant lets the table of the fault registers hold two
entries of block 15, and the clearing of the reaction bytes uncovers the second. -/
theorem not_bootLoadsStartsOrFails : ¬ Obligations.BootLoadsStartsOrFails := by
  unfold Obligations.BootLoadsStartsOrFails
  intro h
  obtain ⟨-, -, -, hComplete, -, -⟩ := h
  have hInv : bootWithTwoEntries.Inv := ⟨by unfold TimeSt.ok; decide, rfl⟩
  obtain ⟨t, ht, -, -, -, -, -, hheld, -⟩ := hComplete bootWithTwoEntries hInv rfl rfl rfl (by decide) rfl
  have hrun : exec (.bootComplete true) bootWithTwoEntries = .next (after (bootComplete true) bootWithTwoEntries) := rfl
  rw [← Host.Outcome.next.inj (hrun.symm.trans ht)] at hheld
  exact bootWithTwoEntries_waits hheld

/-! ## Pushed images -/

theorem loaderCheck_other {code : Nat} {img : Bytes} {s : State} (h : code ≠ 7) : loaderCheck code img s = s :=
  if_neg fun hc => h hc.1

theorem pushOpen_begins {s : State} (h : s.pushOpen = true) : s.chip.bootStatus ≠ 5 := by
  intro h5
  unfold State.pushOpen at h
  rw [h5] at h
  simp at h

theorem beginPush_begun {s : State} (h : s.chip.bootStatus = 5) : beginPush s = s := if_pos h

theorem beginPush_begins {s : State} (h : s.chip.bootStatus ≠ 5) : beginPush s = { s with
    chip := { s.chip with bootStatus := 5, bootTick := s.tick - s.chip.bootTick }
    boot := { s.boot with pushState := 1, pushReason := 0, pushImage := [], pushEnd := 0, pushGo := false, pushLast := false } } :=
  if_neg h

theorem pushGo_eq {img : Bytes} {s : State} (ho : s.pushOpen = true) (hu : s.chip.pcieUp = true) : pushGo img s =
    { beginPush s with boot := { (beginPush s).boot with
      pushGo := true, pushEnd := s.boot.pushLen.toNat
      pushImage := memWrite [] 0 (img.take (min s.boot.pushLen.toNat imageMax)) } } := by
  unfold pushGo
  rw [ho, hu]
  exact if_neg (by decide)

theorem pushChunkGo_eq {last : Bool} {s : State} (ho : s.pushSeen = true) (hg : s.boot.pushGo = false)
    (hl : s.boot.pushLast = false) (h0 : 0 < s.boot.chunkLen.toNat) (h1 : s.boot.chunkLen.toNat ≤ 61440)
    (hr : s.boot.chunkOff.toNat + s.boot.chunkLen.toNat ≤ 8388608) : pushChunkGo last s =
    { beginPush s with boot := { (beginPush s).boot with
      pushImage := memWrite (beginPush s).boot.pushImage s.boot.chunkOff.toNat
        (memRead (beginPush s).boot.dataWindow 0 s.boot.chunkLen.toNat)
      pushEnd := max (beginPush s).boot.pushEnd (s.boot.chunkOff.toNat + s.boot.chunkLen.toNat), pushLast := last } } := by
  unfold pushChunkGo
  dsimp only
  rw [ho, hg, hl, decide_eq_false (by omega : ¬ s.boot.chunkLen.toNat = 0),
    decide_eq_false (by omega : ¬ 61440 < s.boot.chunkLen.toNat), if_neg (by decide),
    if_pos (show s.boot.chunkOff.toNat + s.boot.chunkLen.toNat ≤ imageMax from hr)]

/-- A push that is complete, its image of a reason that is not unit 3's, leads on with the watchdog's count. -/
theorem pushComplete_eq {s : State} {img : Bytes} {code : Nat} (hp : s.chip.phase = .boot) (hs : s.chip.bootStatus = 5)
    (hg : s.boot.pushGo = true ∨ s.boot.pushLast = true) (he : s.boot.pushEnd ≤ 8388608)
    (himg : memRead s.boot.pushImage 0 s.boot.pushEnd = img) (hcode : imageReason 1 img s = code) (h7 : code ≠ 7) :
    pushComplete s =
      let t : State := { s with
        chip := { s.chip with bootTick := s.tick - s.chip.bootTick }
        boot := { s.boot with
          pushGo := false, pushLast := false, pushReason := code, pushState := if code = 0 then 2 else 3 } }
      if code = 0 then acceptFirmware 0xFF img t else { t with chip := { t.chip with bootStatus := 4 } } := by
  have hdone : (s.boot.pushGo || s.boot.pushLast) = true := by
    rcases hg with h | h
    · rw [h, Bool.true_or]
    · rw [h, Bool.or_true]
  have he' : s.boot.pushEnd ≤ imageMax := he
  unfold pushComplete
  rw [hp, hs, hdone, if_neg (by decide)]
  dsimp only
  rw [if_pos he', himg, if_pos he', hcode, loaderCheck_other h7]

/-- Settles O23: each command on a push by the state of the push. -/
theorem pushedImagesAreStagedAndJudged : Obligations.PushedImagesAreStagedAndJudged := by
  unfold Obligations.PushedImagesAreStagedAndJudged
  refine ⟨?_, ?_, ?_, ?_⟩
  · intro s img hInv ho hu
    have heff := pushGo_eq (img := img) (s := { s with emitted := [] }) ho hu
    rw [beginPush_begins (s := { s with emitted := [] }) (pushOpen_begins ho)] at heff
    exact gives_of_effect rfl heff hInv.acted .of_parts fun t F => ⟨F.chip, F.boot⟩
  · intro s last hInv ho hs hg hl h0 h1 hr
    have heff := pushChunkGo_eq (last := last) (s := { s with emitted := [] }) ho hg hl h0 h1 hr
    rw [beginPush_begun (s := { s with emitted := [] }) hs] at heff
    exact gives_of_effect rfl heff hInv.acted .of_parts fun t F => F.boot
  · intro s last hInv ho hs hg hl h0 h1 hr
    have heff := pushChunkGo_eq (last := last) (s := { s with emitted := [] }) ho hg hl h0 h1 hr
    rw [beginPush_begins (s := { s with emitted := [] }) hs] at heff
    refine gives_of_effect rfl heff hInv.acted .of_parts fun t F => ⟨F.chip, F.boot.trans ?_⟩
    dsimp only
    rw [Nat.zero_max]
  · intro s hInv hp hs hg he h7
    have heff := pushComplete_eq (s := { s with emitted := [] }) hp hs hg he rfl rfl h7
    by_cases hc : imageReason 1 (memRead s.boot.pushImage 0 s.boot.pushEnd) s = 0
    · have heff' := heff.trans (if_pos hc)
      refine gives_of_effect rfl heff' hInv.acted .of_parts fun t F => ?_
      rw [if_pos hc, F.boot, F.chip]
      exact ⟨rfl, rfl, rfl, rfl, rfl, rfl, rfl, if_pos hc⟩
    · have heff' := heff.trans (if_neg hc)
      refine gives_of_effect rfl heff' hInv.acted .of_parts fun t F => ?_
      rw [if_neg hc, F.boot, F.chip]
      exact ⟨rfl, rfl, rfl, rfl, rfl, if_neg hc⟩

/-! ## Monitors, test port, memory self-test -/

theorem monitors_of {s : State} (ha : s.chip.rails.aon = true) (hi : s.chip.rails.io33 = true) : s.monitors = true := by
  unfold State.monitors
  rw [ha, hi]
  rfl

/-- The bank under test ends its test. -/
theorem selftestBankDone_eq {bank : Nat} {passed : Bool} {s : State} (hp : s.chip.phase = .serving ∨ s.chip.phase = .safe)
    (hu : s.underTest = some bank) : selftestBankDone bank passed s =
      if passed then { s with boot := { s.boot with
        selfTesting := BitVec.ofNat 24 (2 ^ ((bank + 1) % 24))
        selfFailed := s.boot.selfFailed &&& ~~~(BitVec.ofNat 24 (2 ^ bank)), selfPasses := s.boot.selfPasses + 1
        selfLast := s.now } }
      else raise 14 5 0 { s with boot := { s.boot with
        selfTesting := BitVec.ofNat 24 (2 ^ ((bank + 1) % 24))
        selfFailed := s.boot.selfFailed ||| BitVec.ofNat 24 (2 ^ bank) } } := by
  unfold selftestBankDone
  rw [hu]
  refine if_neg ?_
  rcases hp with h | h
  · rw [h]
    simp
  · rw [h]
    simp

/-- Settles O24: each by the state of the monitors, of the chip, or of the bank under test. -/
theorem monitorsTestPortAndSelfTestLatch : Obligations.MonitorsTestPortAndSelfTestLatch := by
  unfold Obligations.MonitorsTestPortAndSelfTestLatch
  refine ⟨?_, ?_, ?_, ?_, ?_, ?_, ?_, ?_⟩
  · intro s on hInv ha hi
    exact gives_of_effect rfl (if_pos (monitors_of (s := { s with emitted := [] }) ha hi)) hInv.acted .of_parts fun t F => F.chip
  · intro s hInv ha hi
    exact gives_of_effect rfl (if_pos (monitors_of (s := { s with emitted := [] }) ha hi)) hInv.acted .of_parts fun t F => F.chip
  · intro s hInv hp
    exact gives_of_effect rfl (if_pos hp) hInv.acted .of_parts fun t F => F.chip
  · intro s hInv hp
    exact gives_nothing rfl (if_neg hp) hInv.acted fun _ _ => trivial
  · intro s ir drives hInv hd
    exact gives_of_effect rfl (if_neg fun h => h.2 (hd h.1)) hInv.acted .of_parts fun t F => F.chip
  · intro s ir hInv hp
    exact gives_nothing rfl (if_pos ⟨rfl, hp⟩) hInv.acted fun _ _ => trivial
  · intro s bank hInv hp hu
    have heff := (selftestBankDone_eq (passed := true) (s := { s with emitted := [] }) hp hu).trans (if_pos rfl)
    exact gives_of_effect rfl heff hInv.acted .of_parts fun t F => F.boot
  · intro s bank hInv hp hu hQuiet
    have heff := (selftestBankDone_eq (passed := false) (s := { s with emitted := [] }) hp hu).trans (if_neg (by decide))
    exact gives_of_raise rfl heff hQuiet hInv.acted rfl rfl rfl .of_parts fun t F N _ => ⟨F.boot, N⟩

end Sys2Proof.Machine
end

