-- ==== Sys2Proof/Proofs/Firmware.lean ====
section
/-! SUPPORT. The firmware opcodes (16_power_boot, Table BOOT-10). -/

namespace Sys2Proof.Machine

set_option Elab.async false

/-! ## FW_IMAGE_CHECK of mailbox 8 without a peer, with the notice log full -/

/-- Mailbox 8 is open and has no peer; 1,536 entries of the notice log wait to be written, and no slot keeps them. -/
def peerlessHub : State :=
  { chip := { phase := .serving, fwRunning := true }
    hcp := { mbs := [(8, { enable := true, session := .opened })], log := List.replicate 1536 ⟨0, 0, [], none, true⟩ } }

/-- FW_IMAGE_CHECK of slot A, whose header fails, over mailbox 8. -/
def checkSlotA : Req := { mb := 8, flags := 0, hostSeq := 3, tag := 7, time := zeros 10, payload := zeros 4 }

theorem peerless_accepted : Accepted opFwImageCheck checkSlotA peerlessHub :=
  ⟨by decide, by decide, by decide, by decide +kernel, fun _ => ⟨by decide, by decide +kernel⟩⟩

/-- For want of a peer the completion's slot returns at once, and its entry is the only one of the full log that does not wait:
it is evicted. -/
theorem peerless_log :
    ((after (serveRow opFwImageCheck checkSlotA) peerlessHub).hcp.log.all fun x => x.mb == 0) = true := by
  decide +kernel

/-- Refutes O25: the notice of a FW_IMAGE_CHECK that fails is not always in the log. Over mailbox 8 without a peer its slot returns
at once, and a full log evicts its entry. -/
theorem not_firmwareOpcodesReadWriteAndCheckImages : ¬ Obligations.FirmwareOpcodesReadWriteAndCheckImages := by
  unfold Obligations.FirmwareOpcodesReadWriteAndCheckImages
  intro h
  obtain ⟨-, -, -, -, -, -, -, hFails, -⟩ := h
  obtain ⟨t, ht, -, -, -, x, hx, hmb, -⟩ := hFails peerlessHub checkSlotA peerless_accepted (by decide +kernel)
  have hrun : exec (.fwImageCheck checkSlotA) peerlessHub = .next (after (serveRow opFwImageCheck checkSlotA) peerlessHub) := rfl
  rw [← Host.Outcome.next.inj (hrun.symm.trans ht)] at hx
  have h0 := eq_of_beq (List.all_eq_true.mp peerless_log x hx)
  rw [hmb] at h0
  exact absurd h0 (by decide)

end Sys2Proof.Machine
end

