-- ==== Sys2Proof/Proofs/Quiet.lean ====
section
/-! SUPPORT. Notices to the subscribers of a group, requests that alter no stream's bound; quiet windows and calibration
(16_power_boot R428, R429). -/

namespace Sys2Proof.Machine

set_option Elab.async false

/-! ## Opcodes of frames -/

theorem getU_append (a b : Bytes) (n : Nat) : getU (a ++ b) a.length n = getU b 0 n := by
  have := getU_drop (a ++ b) a.length 0 n
  rw [List.drop_left, Nat.add_zero] at this
  exact this.symm

theorem getU_le_append (n : Nat) {v : Nat} (rest : Bytes) (h : v < 256 ^ n) : getU (le n v ++ rest) 0 n = v := by
  have ht : ((le n v ++ rest).drop 0).take n = le n v := by
    rw [List.drop_zero, List.take_left' (length_le n v)]
  unfold getU sub
  dsimp only
  rw [ht, length_le, Nat.sub_self]
  exact (congrArg ofLe (List.append_nil _)).trans (ofLe_le n v h)

/-- Bytes 12 and 13 of a response or notice are its opcode (Table HCP-9). -/
theorem rspFrame_opcode (v : Nat) (rp : Bool) (h q : W32) {o : Nat} (st : Nat) (tag : W32) (d : Nat) (p : Bytes) (ho : o < 256 ^ 2) :
    getU (rspFrame v rp h q o st tag d p) 0x0C 2 = o := by
  unfold rspFrame sealFrame
  simp only [List.append_assoc]
  rw [← List.append_assoc, ← List.append_assoc, ← List.append_assoc, ← List.append_assoc]
  rw [show (12 : Nat) = (le 2 0x4843 ++ le 1 v ++ le 1 (b2n rp) ++ le 4 h.toNat ++ le 4 q.toNat).length by
    simp [length_le], getU_append, getU_le_append 2 _ ho]

/-! ## Notices that find room -/

theorem logRoom_of_unslotted {l : List LogEntry} (h : unslotted l < freeLogEntries) : logRoom l = true := by
  unfold logRoom
  rw [decide_eq_true h]
  rfl

theorem notifyOne_log {o m : Nat} {p : Bytes} {s : State} (h : unslotted s.hcp.log < freeLogEntries) :
    (notifyOne o p m s).hcp.log = s.hcp.log ++
      [⟨m, (s.mb m).hubSeq, rspFrame (s.mb m).version false 0xFFFFFFFF (s.mb m).hubSeq o 0 0 0 p, none, s.deliverable m⟩] := by
  rw [notifyOne_room (logRoom_of_unslotted h)]
  exact congrArg (· ++ _) (if_pos h)

theorem unslotted_append (l k : List LogEntry) : unslotted (l ++ k) = unslotted l + unslotted k := by
  unfold unslotted
  rw [List.filter_append, List.length_append]

/-- While the log has room for all, each mailbox of a list gets its notice, and no entry leaves. -/
theorem forEach_notifyOne_log {o : Nat} (p : Bytes) (ho : o < 256 ^ 2) : ∀ (ms : List Nat) (s : State),
    unslotted s.hcp.log + ms.length ≤ freeLogEntries →
    (∀ x ∈ s.hcp.log, x ∈ (forEach ms (notifyOne o p) s).hcp.log) ∧
      ∀ m ∈ ms, ∃ x ∈ (forEach ms (notifyOne o p) s).hcp.log, x.mb = m ∧ getU x.frame 0x0C 2 = o
  | [], s, _ => ⟨fun _ h => h, fun _ h => absurd h List.not_mem_nil⟩
  | m :: ms, s, hr => by
    rw [List.length_cons] at hr
    have hl := notifyOne_log (o := o) (m := m) (p := p) (s := s) (by omega)
    have hu : unslotted (notifyOne o p m s).hcp.log = unslotted s.hcp.log + 1 := by
      rw [hl, unslotted_append]
      rfl
    obtain ⟨hkeep, hall⟩ := forEach_notifyOne_log p ho ms (notifyOne o p m s) (by omega)
    rw [hl] at hkeep
    refine ⟨fun x hx => hkeep x (List.mem_append_left _ hx), fun k hk => ?_⟩
    rcases List.mem_cons.mp hk with rfl | hk
    · exact ⟨_, hkeep _ (List.mem_append_right _ List.mem_cons_self), rfl, rspFrame_opcode _ _ _ _ _ _ _ _ ho⟩
    · exact hall k hk

theorem subscribers_length (s : State) (g : Nat) : (s.subscribers g).length ≤ 10 :=
  (List.length_filter_le _ _).trans (by simp)

/-- Every subscriber of an opcode's group gets its notice. -/
theorem notify_log {o : Nat} (p : Bytes) {s : State} (ho : o < 256 ^ 2) (hf : s.fwRuns = true)
    (hr : unslotted s.hcp.log + 10 ≤ freeLogEntries) :
    ∀ m ∈ s.subscribers (o / 256), ∃ x ∈ (notify o p s).hcp.log, x.mb = m ∧ getU x.frame 0x0C 2 = o := by
  unfold notify
  rw [if_pos hf]
  exact (forEach_notifyOne_log p ho _ s (by have := subscribers_length s (o / 256); omega)).2

theorem notify_held {o : Nat} (p : Bytes) {s : State} (hf : s.fwRuns = true) : (notify o p s).hcp.held = s.hcp.held := by
  unfold notify
  rw [if_pos hf]
  generalize s.subscribers (o / 256) = ms
  induction ms generalizing s with
  | nil => rfl
  | cons m ms ih =>
    have h1 := (notifyOne_noticesOnly o p m s)
    have hf' : (notifyOne o p m s).fwRuns = true := by rw [h1]; exact hf
    refine (ih hf').trans ?_
    unfold notifyOne
    dsimp only
    split <;> rfl

/-! ## Requests that alter no stream's bound -/

/-- What the bounds of the streams follow from is the same in two states. -/
structure SameStreams (s t : State) : Prop where
  strm : t.strm = s.strm
  pipes : t.pipes = s.pipes
  channels : t.channels = s.channels
  profiles : t.profiles = s.profiles
  jesds : t.jesds = s.jesds
  bglIns : t.bglIns = s.bglIns
  scps : t.scps = s.scps
  comp : t.comp = s.comp
  upl : t.upl = s.upl

theorem SameStreams.bound {s t : State} (h : SameStreams s t) (n : Nat) : t.bound n = s.bound n := by
  obtain ⟨h1, h2, h3, h4, h5, h6, h7, h8, h9⟩ := h
  cases s
  cases t
  dsimp only at h1 h2 h3 h4 h5 h6 h7 h8 h9
  subst h1 h2 h3 h4 h5 h6 h7 h8 h9
  rfl

theorem SameStreams.charged {s t : State} (h : SameStreams s t) : t.charged = s.charged := by
  unfold State.charged
  rw [h.strm]

theorem SameStreams.trans {s t u : State} (h : SameStreams s t) (k : SameStreams t u) : SameStreams s u :=
  ⟨k.strm.trans h.strm, k.pipes.trans h.pipes, k.channels.trans h.channels, k.profiles.trans h.profiles, k.jesds.trans h.jesds,
   k.bglIns.trans h.bglIns, k.scps.trans h.scps, k.comp.trans h.comp, k.upl.trans h.upl⟩

theorem SameStreams.of_hcp {s t u : State} (h : SameStreams s t) (k : HcpOnly t u) : SameStreams s u :=
  h.trans ⟨k.strm, k.pipes, k.channels, k.profiles, k.jesds, k.bglIns, k.scps, k.comp, k.upl⟩

theorem notePeaks_sameStreams (s : State) : SameStreams s (notePeaks s) := by
  rw [notePeaks_eq]
  exact ⟨rfl, rfl, rfl, rfl, rfl, rfl, rfl, rfl, rfl⟩

theorem changedBounds_same {s t : State} (h : SameStreams s t) : changedBounds s t = [] := by
  unfold changedBounds State.betaGamma
  rw [h.charged, h.strm]
  simp only [h.bound]
  simp only [List.append_eq_nil_iff, List.filter_eq_nil_iff, List.mem_map]
  refine ⟨fun n _ => by simp, ?_⟩
  rintro n ⟨p, hp, rfl⟩
  rw [List.contains_iff_mem.mpr (List.mem_map_of_mem hp)]
  exact Bool.false_ne_true

theorem tellBounds_same (n : Nat) (i : Option Nat) {s t : State} (h : SameStreams s t) : tellBounds n i s t = t := by
  unfold tellBounds
  rw [changedBounds_same h]
  rfl

/-- Where no bound changes, a request leaves the notice log as its effect has made it. -/
theorem request_log {op : Op} {r : Req} {s x : State} (h : Accepted op r s) (he : (op.effect r (s.taking op r)).1 = x)
    (hq : x.flt.detected = []) (hh : x.hcp.held.length ≤ (s.taking op r).hcp.held.length) (hb : SameStreams (s.taking op r) x) :
    (after (serveRow op r) s).hcp.log = x.hcp.log := by
  have hd : (effectOf (serveRow op r) s).flt.detected = [] := by rw [served_flt h, he]; exact hq
  refine ((congrArg Hcp.log (after_hcp _ _ hd)).trans rfl).trans ?_
  have hstate : servedState op r s = storeAnswer op.code r (v2Answer (s.mb r.mb.val).version2 (op.effect r (s.taking op r)).2)
      (if op.ledger then notePeaks x else x) := by
    unfold servedState
    dsimp only
    rw [he, releaseFrom_all]
    unfold storeAnswer respond State.setMb
    dsimp only
    split
    · rw [notePeaks_hcp]
      exact hh
    · exact hh
  have hsame : SameStreams (s.taking op r) (servedState op r s) := by
    rw [hstate]
    refine SameStreams.of_hcp ?_ (storeAnswer_hcp ..)
    split
    · exact hb.trans (notePeaks_sameStreams x)
    · exact hb
  have hlog : (servedState op r s).hcp.log = x.hcp.log := by
    rw [hstate, storeAnswer_log]
    split
    · rw [notePeaks_hcp]
    · rfl
  rw [served_eq h]
  split
  · rw [tellBounds_same _ _ hsame]
    exact hlog
  · exact hlog

/-- As `gives_of_op`, for an effect that changes no bound and holds no notice back: the statement also speaks of the log. -/
theorem gives_of_op_log {i : Instr} {op : Op} {r : Req} {s x : State} {ch : List Part} {post : State → Prop}
    (hi : exec i s = .next (after (serveRow op r) s)) (h : Accepted op r s) {st d : Nat} {p : Bytes}
    (he : op.effect r { s with emitted := [], hcp := (s.taking op r).hcp } = (x, ⟨st, d, p⟩))
    (hk : Keeps ch { s with emitted := [], hcp := (s.taking op r).hcp } x)
    (hn : x.hcp.held = (s.taking op r).hcp.held) (hb : SameStreams { s with emitted := [], hcp := (s.taking op r).hcp } x)
    (hp : ∀ t, FollowsReq op r s x t → Answered op.code r st d p t → t.hcp.log = x.hcp.log → post t)
    (hv : st ≠ 0x0303 ∧ st ≠ 0x0304 ∧ st ≠ 0x0401 := by decide) (hq : x.flt.detected = [] := by exact h.acted)
    (hh : Part.hcp ∈ ch := by simp) (hl : op.ledger = false ∨ Part.ledger ∈ ch := by first | exact .inl rfl | exact .inr (by simp)) :
    Gives i s ch post := by
  have heff := (congrArg (op.effect r) (taking_hcp_only s op r)).trans he
  have hsame : SameStreams (s.taking op r) x := by
    rw [taking_hcp_only]
    exact hb
  have hlog := request_log h (congrArg Prod.fst heff) hq (by rw [hn]) hsame
  obtain ⟨t, ht, hkeep, F, A⟩ := gives_of_op hi h he hk (fun t F A => (⟨F, A⟩ : FollowsReq op r s x t ∧ _)) hv hq hh hl
  refine ⟨t, ht, hkeep, hp t F A ?_⟩
  rw [← Host.Outcome.next.inj (hi.symm.trans ht)]
  exact hlog

/-! ## Quiet windows -/

theorem addQuiet_eq (id : Nat) (a b : T16) (s : State) : addQuiet id a b s = { s with
    boot := { s.boot with
      quiet := tset ⟨0, 0, false⟩ s.boot.quiet id ⟨a, b, false⟩
      calib := s.boot.calib.map fun c => if c.window = 8 then { c with window := id } else c }
    cal := { s.cal with
      entries := s.cal.entries ++ [{ time := a, cls := 7, ins := s.cal.nextIns, action := .quietOpen id },
        { time := b, cls := 7, ins := s.cal.nextIns + 1, action := .quietClose id }]
      nextIns := s.cal.nextIns + 2 } } := by
  unfold addQuiet insertEntry
  dsimp only
  rw [List.append_assoc]
  cases s.boot.calib with
  | none => rfl
  | some c =>
    dsimp only [Option.map_some]
    split <;> rfl

theorem isQuietOf_not (id : Nat) (e : CalEntry) :
    (!isQuietOf id e) = decide (e.action ≠ .quietOpen id ∧ e.action ≠ .quietClose id) := by
  unfold isQuietOf
  cases e.action
  case quietOpen n => simp [beq_eq_decide]
  case quietClose n => simp [beq_eq_decide]
  all_goals simp

theorem dropQuiet_only (id : Nat) (s : State) : ∃ c, dropQuiet id s =
    { s with boot := { s.boot with quiet := s.boot.quiet.filter (fun x => x.1 ≠ id), calib := c } } := by
  unfold dropQuiet
  dsimp only
  split
  case h_1 c hc =>
    split <;> exact ⟨_, rfl⟩
  case h_2 => exact ⟨_, rfl⟩

/-- The calendar without the entries of a quiet window. -/
def withoutQuiet (id : Nat) (s : State) : State := { s with cal := { s.cal with
  entries := s.cal.entries.filter fun e => e.action ≠ .quietOpen id ∧ e.action ≠ .quietClose id } }

theorem quietDeclare_effect {r : Req} {n : Nat} {s : State} (h : s.freeQuiet = some n) :
    opQuietDeclare.effect r s = (addQuiet n (ofTs80 (r.bytes 0 10)) (quietStop r) s, ⟨0, 0, le 1 n ++ zeros 3⟩) := by
  unfold opQuietDeclare
  dsimp only
  rw [h]
  rfl

theorem quietCancel_effect {r : Req} {q : Quiet} {s : State} (h : s.quietWin (r.u8 0) = some q) :
    opQuietCancel.effect r s = (if q.isOpen = true then closeQuiet (r.u8 0) (withoutQuiet (r.u8 0) s)
      else dropQuiet (r.u8 0) (withoutQuiet (r.u8 0) s), ⟨0, 0, []⟩) := by
  unfold opQuietCancel withoutQuiet
  dsimp only
  rw [h]
  simp only [isQuietOf_not]
  rfl

theorem clkCalibrate_open {r : Req} {w : Nat} {s : State} (h : s.openWindow = some w) : opClkCalibrate.effect r s =
    ({ (takeJob 0x0D09 r s).2 with
      boot := { s.boot with calib := some ⟨BitVec.ofNat 32 (r.u32 0), w, (takeJob 0x0D09 r s).1⟩ } },
     ⟨1, (takeJob 0x0D09 r s).1.slot, []⟩) := by
  unfold opClkCalibrate
  dsimp only
  rw [show (takeJob 0x0D09 r s).2.openWindow = some w from h]
  rfl

theorem clkCalibrate_deferred {r : Req} {w : Nat} {q : Quiet} {s : State} (h : s.openWindow = none) (hw : s.nextQuiet = some w)
    (hq : s.quietWin w = some q) : opClkCalibrate.effect r s =
    ({ (takeJob 0x0D09 r s).2 with
      boot := { s.boot with calib := some ⟨BitVec.ofNat 32 (r.u32 0), w, (takeJob 0x0D09 r s).1⟩ } },
     ⟨2, 0, ts80 q.start ++ zeros 2⟩) := by
  unfold opClkCalibrate
  dsimp only
  rw [show (takeJob 0x0D09 r s).2.openWindow = none from h]
  dsimp only
  rw [show (takeJob 0x0D09 r s).2.nextQuiet = some w from hw]
  dsimp only [Option.getD_some]
  rw [show (takeJob 0x0D09 r s).2.quietWin w = some q from hq]
  rfl

theorem mem_subscribers_taking {s : State} {op : Op} {r : Req} {g m : Nat} (h : m ∈ s.subscribers g) :
    m ∈ (s.taking op r).subscribers g := by
  unfold State.subscribers below State.mbOpen at h ⊢
  obtain ⟨a, b, c, hm⟩ := taking_mb s op r m
  rw [List.mem_filter] at h ⊢
  rw [hm]
  exact h

/-- The quiet window of a number and its entries have left, and the subscribers of the firmware's events are told. -/
structure QuietClosed (id : Nat) (s x : State) : Prop where
  keeps : Keeps [.hcp, .boot, .cal] s x
  quiet : x.boot.quiet = s.boot.quiet.filter fun q => q.1 ≠ id
  cal : x.cal = { s.cal with entries := s.cal.entries.filter fun e => e.action ≠ .quietOpen id ∧ e.action ≠ .quietClose id }
  held : x.hcp.held = s.hcp.held
  streams : SameStreams s x
  told : unslotted s.hcp.log + 10 ≤ freeLogEntries →
    ∀ m ∈ s.subscribers 13, ∃ e ∈ x.hcp.log, e.mb = m ∧ getU e.frame 0x0C 2 = 0x0D80

theorem closeQuiet_closes (id : Nat) {s : State} (hf : s.fwRuns = true) : QuietClosed id s (closeQuiet id (withoutQuiet id s)) := by
  obtain ⟨c, hc⟩ := dropQuiet_only id (withoutQuiet id s)
  unfold closeQuiet maintEvent
  generalize dropQuiet id (withoutQuiet id s) = u at hc ⊢
  have hn := notify_hcp 0x0D80 (le 1 1 ++ le 1 id ++ zeros 2 ++ ts96 u.now) u
  have hfu : u.fwRuns = true := by rw [hc]; exact hf
  have hk : Keeps [.hcp, .boot, .cal] s u := by rw [hc]; exact .of_parts
  have hs : SameStreams s u := by rw [hc]; exact ⟨rfl, rfl, rfl, rfl, rfl, rfl, rfl, rfl, rfl⟩
  exact {
    keeps := hk.trans (hn.keeps.weaken (by simp))
    quiet := by rw [hn.boot, hc]; rfl
    cal := by rw [hn.cal, hc]; rfl
    held := (notify_held _ hfu).trans (by rw [hc]; rfl)
    streams := hs.of_hcp hn
    told := fun hr m hm => notify_log (o := 0x0D80) _ (by decide) hfu (by rw [hc]; exact hr) m (by rw [hc]; exact hm) }

/-- The payload of a calibration's completion: the outputs that were corrected, those that are too far off, the corrections. -/
def calibrationPayload (errors : List Int) (c : Calib) (s : State) : Bytes :=
  let named := fun (n : Nat) => c.mask.getLsbD n && (s.dclk n).running
  let small := fun (n : Nat) => decide ((errors.getD n 0).natAbs ≤ 16)
  le 4 (mask ((List.range 32).map fun n => named n && small n)) ++ le 4 (mask ((List.range 32).map fun n => named n && !small n))
    ++ (List.range 32).flatMap fun n => leI 1 (if named n && small n then -(errors.getD n 0) else 0)

theorem calibrationDone_eq {errors : List Int} {c : Calib} {s : State} (hc : s.boot.calib = some c)
    (ho : s.openWindow = some c.window) : calibrationDone errors s =
      complete c.job 0 0 (calibrationPayload errors c s) { s with boot := { s.boot with calib := none } } := by
  have hsmall : ∀ a b : Bool, (a && !(a && b)) = (a && !b) := by decide
  unfold calibrationDone calibrationPayload
  rw [hc]
  dsimp only
  rw [if_neg (fun hne => hne ho)]
  simp only [hsmall]

/-- Settles O26. -/
theorem quietWindowsAndCalibrations : Obligations.QuietWindowsAndCalibrations := by
  unfold Obligations.QuietWindowsAndCalibrations
  refine ⟨?_, ?_, ?_, ?_, ?_, ?_, ?_⟩
  · intro s r n h hn
    refine gives_of_op rfl h ((quietDeclare_effect (by exact hn)).trans (by rw [addQuiet_eq])) .of_parts fun t F A =>
      ⟨F.boot, F.cal, A⟩
  · intro s r q h hq ho
    obtain ⟨c, hc⟩ := dropQuiet_only (r.u8 0) (withoutQuiet (r.u8 0) { s with emitted := [], hcp := (s.taking opQuietCancel r).hcp })
    refine gives_of_op rfl h ((quietCancel_effect (by exact hq)).trans (by rw [if_neg (by rw [ho]; simp), hc])) .of_parts fun t F A =>
      ⟨by rw [F.boot]; rfl, F.cal, A⟩
  · intro s r q h hq ho
    have hf : s.fwRuns = true := ((Bool.and_eq_true ..).mp h.served).2
    have C := closeQuiet_closes (r.u8 0) (s := { s with emitted := [], hcp := (s.taking opQuietCancel r).hcp }) hf
    refine gives_of_op_log rfl h ((quietCancel_effect (by exact hq)).trans (by rw [if_pos ho])) (C.keeps.weaken (by simp))
      C.held C.streams
      (fun t F A L => ⟨(congrArg Boot.quiet F.boot).trans C.quiet, F.cal.trans C.cal, A, fun hr m hm => ?_⟩)
      (hq := (congrArg Flt.detected (C.keeps .flt (by simp))).trans h.acted)
    rw [L]
    exact C.told ((congrArg (unslotted · + 10 ≤ freeLogEntries) (taking_log s _ r)).mpr hr) m (mem_subscribers_taking hm)
  · intro s r w h hw
    exact gives_of_op rfl h (clkCalibrate_open (by exact hw)) .of_parts fun t F A => ⟨F.boot, A⟩
  · intro s r w q h hn hw hq
    exact gives_of_op rfl h (clkCalibrate_deferred (by exact hn) (by exact hw) (by exact hq)) .of_parts fun t F A => ⟨F.boot, A⟩
  · intro s errors c hInv hc ho hh
    have hdone := complete_hcp c.job 0 0 (calibrationPayload errors c s) { s with emitted := [], boot := { s.boot with calib := none } }
    refine gives_of_effect rfl (calibrationDone_eq (s := { s with emitted := [] }) hc ho) ((congrArg Flt.detected hdone.flt).trans hInv.acted)
      (Keeps.trans (.of_parts) (hdone.keeps.weaken (by simp))) fun t F =>
      ⟨F.boot.trans hdone.boot, ?_⟩
    have hT : Told c.job 0 0 (calibrationPayload errors c s) s t :=
      (complete_told (s := s) (x := { s with emitted := [], boot := { s.boot with calib := none } }) hh rfl rfl 0 0 _).keeps (logKeeps_of_log ((congrArg Hcp.log F.hcp).trans rfl))
    exact hT
  · intro s r h
    exact reports_of_op rfl h rfl

end Sys2Proof.Machine
end

