-- ==== Sys2Proof/Proofs/Network.lean ====
section
/-! SUPPORT. PTP, phase measurement and ESMC (04_time_transfer R107-R113). -/

namespace Sys2Proof.Machine

set_option Elab.async false

/-! ## Messages of the firmware -/

/-- A message that is sent leaves the port's transmitter changed, and its emission. -/
theorem sendMessage_only (p : PtpPort) (n : Nat) (e : Emission) (s : State) :
    sendMessage p n e s = { s with upl := (sendMessage p n e s).upl, emitted := s.emitted ++ [e] } := by
  cases p <;> rfl

theorem sendMessage_firstLane (p : PtpPort) (n : Nat) (e : Emission) (s : State) (k : Nat) :
    ((sendMessage p n e s).port k).firstLane = (s.port k).firstLane := by
  cases p
  case uplink m =>
    unfold sendMessage startSending State.setPort State.port
    dsimp only
    by_cases hk : k = m.val
    · rw [hk, tget_tset_self]
      rfl
    · rw [tget_tset_ne _ _ _ _ _ hk]
      rfl
  all_goals rfl

theorem sendMessage_ptpUnit (p : PtpPort) (n : Nat) (e : Emission) (s : State) : ptpUnit (sendMessage p n e s) p = ptpUnit s p := by
  cases p
  case uplink m => exact sendMessage_firstLane ..
  all_goals rfl

theorem sendMessage_port_other {p : PtpPort} {n : Nat} {e : Emission} {s : State} {m : Fin 48} (h : p ≠ .uplink m) :
    (sendMessage p n e s).port m.val = s.port m.val := by
  cases p
  case uplink k =>
    unfold sendMessage startSending State.setPort State.port
    dsimp only
    rw [tget_tset_ne]
    · rfl
    · exact fun hk => h (by rw [Fin.ext hk])
  all_goals rfl

/-- The firmware's message as it leaves its port (R109). -/
def messageOf (p : PtpPort) (x : T16) (msg : Bytes) (s : State) : Emission :=
  let set := (s.ptp (ptpKey p)).settings
  .ptp p (getU set 3 1) (getU set 10 2 % 4096) ((getU msg 0 1 % 16 == 0 && getU set 4 1 == 1) && getU set 3 1 == 1)
    (ptpOut set msg (adjusted s p 12 x))

/-- The state in which the firmware's message has left the port. -/
def messageSent (p : PtpPort) (x : T16) (msg : Bytes) (s : State) : State :=
  let set := (s.ptp (ptpKey p)).settings
  sendMessage p (messageFrame (getU set 3 1) (getU set 10 2 % 4096) (ptpOut set msg (adjusted s p 12 x)).length)
    (messageOf p x msg s) s

theorem messageSent_only (p : PtpPort) (x : T16) (msg : Bytes) (s : State) : messageSent p x msg s =
    { s with upl := (messageSent p x msg s).upl, emitted := s.emitted ++ [messageOf p x msg s] } := sendMessage_only ..

/-- An event message that is sent two-step: a Delay_Req, or a Sync of a port that is not set to one-step. -/
def TwoStep (msg set : Bytes) : Prop := getU msg 0 1 % 16 = 1 ∨ getU msg 0 1 % 16 = 0 ∧ getU set 4 1 = 0

/-- What a two-step event message leaves behind it is its stamp; any other message leaves nothing. -/
theorem ptpMessageTx_sends {p : PtpPort} {x : T16} {msg : Bytes} {s : State} (h : s.Sends p x msg) : ptpMessageTx p x msg s =
    if ((getU msg 0 1 % 16 == 0 || getU msg 0 1 % 16 == 1) &&
        !(getU msg 0 1 % 16 == 0 && getU (s.ptp (ptpKey p)).settings 4 1 == 1)) = true then
      enterStamp p (adjusted s p 12 x) msg (messageSent p x msg s)
    else messageSent p x msg s := by
  unfold ptpMessageTx
  dsimp only
  rw [if_neg]
  · rfl
  · rintro (hn | ⟨h1, hn⟩)
    · rw [h.on, h.runs, h.room] at hn
      exact Bool.noConfusion hn
    · rw [h.client h1] at hn
      exact Bool.noConfusion hn

theorem ptpMessageTx_twoStep {p : PtpPort} {x : T16} {msg : Bytes} {s : State} (h : s.Sends p x msg)
    (ht : TwoStep msg (s.ptp (ptpKey p)).settings) :
    ptpMessageTx p x msg s = enterStamp p (adjusted s p 12 x) msg (messageSent p x msg s) := by
  rw [ptpMessageTx_sends h, if_pos]
  rcases ht with h1 | ⟨h0, h4⟩
  · rw [h1]; rfl
  · rw [h0, h4]; rfl

theorem messageOf_twoStep {p : PtpPort} {x : T16} {msg : Bytes} {s : State} (ht : TwoStep msg (s.ptp (ptpKey p)).settings) :
    messageOf p x msg s =
      .ptp p (getU (s.ptp (ptpKey p)).settings 3 1) (getU (s.ptp (ptpKey p)).settings 10 2 % 4096) false msg := by
  unfold messageOf ptpOut
  dsimp only
  rcases ht with h1 | ⟨h0, h4⟩
  · rw [h1]; rfl
  · rw [h0, h4]; rfl

/-- A message that leaves no stamp: no event message, or a one-step Sync. -/
theorem ptpMessageTx_unstamped {p : PtpPort} {x : T16} {msg : Bytes} {s : State} (h : s.Sends p x msg)
    (h1 : getU msg 0 1 % 16 ≠ 1) (h0 : getU msg 0 1 % 16 = 0 → getU (s.ptp (ptpKey p)).settings 4 1 = 1) :
    ptpMessageTx p x msg s = messageSent p x msg s := by
  rw [ptpMessageTx_sends h, if_neg]
  by_cases hz : getU msg 0 1 % 16 = 0
  · rw [hz, h0 hz]
    decide
  · rw [beq_false_of_ne hz, beq_false_of_ne h1]
    exact Bool.false_ne_true

theorem messageOf_unstamped {p : PtpPort} {x : T16} {msg : Bytes} {s : State}
    (h0 : getU msg 0 1 % 16 = 0 → getU (s.ptp (ptpKey p)).settings 4 1 = 1) :
    let set := (s.ptp (ptpKey p)).settings
    let stamp := be 6 (adjusted s p 12 x / unitsPerSec) ++ be 4 (adjusted s p 12 x % unitsPerSec / 65536)
    messageOf p x msg s = .ptp p (getU set 3 1) (getU set 10 2 % 4096) (getU msg 0 1 % 16 == 0 && getU set 3 1 == 1)
      (if getU msg 0 1 % 16 = 0 then
        sub msg 0 34 ++ stamp ++ msg.drop 44 ++ (if getU set 3 1 = 2 then checksumFix (sub msg 34 10) stamp else [])
      else msg) := by
  unfold messageOf ptpOut
  dsimp only
  by_cases hz : getU msg 0 1 % 16 = 0
  · rw [hz, h0 hz]; rfl
  · rw [beq_false_of_ne hz, if_neg hz, if_neg (fun hc => hz hc.1)]
    rfl

/-! ## ESMC -/

theorem announcedQl_only (s : State) : ∃ q n, announcedQl s = (q, { s with freeCount := n }) ∧ q < 16 + s.xfer.qlSource ∧
    (s.time.quality = .holdover → q = 0xB) ∧ (s.time.quality = .free ∨ s.time.quality = .unset → q = 0xF) ∧
    (s.time.quality = .locked → s.xfer.network = true → s.xfer.refMode = 1 → s.xfer.qlHeard = true → q = s.xfer.qlSource) := by
  unfold announcedQl State.draw
  cases hq : s.time.quality with
  | locked =>
    dsimp only
    by_cases hc : (s.xfer.network && decide (s.xfer.refMode = 1) && s.xfer.qlHeard) = true
    · rw [if_pos hc]
      exact ⟨_, _, rfl, by omega, by simp, by simp, by simp⟩
    · rw [if_neg hc]
      refine ⟨_, _, rfl, by have := Nat.mod_lt (Config.freeWord s.freeCount).toNat (by decide : 16 > 0); omega, by simp, by simp, ?_⟩
      intro _ h1 h2 h3
      rw [h1, h2, h3] at hc
      exact absurd rfl hc
  | holdover => exact ⟨_, _, rfl, by omega, by simp, by simp, by simp⟩
  | free => exact ⟨_, _, rfl, by omega, by simp, by simp, by simp⟩
  | unset => exact ⟨_, _, rfl, by omega, by simp, by simp, by simp⟩

/-! ## The stamps of received and sent messages -/

theorem ptpFrameRx_stamped {p : PtpPort} {x : T16} {f : PtpFrame} {s : State} (hOn : ptpOn s p = true)
    (hSup : ptpUnsupported s p f = false) (hTy : getU f.msg 0 1 % 16 ≠ 13)
    (hTag : f.tags.headD 0 = getU (s.ptp (ptpKey p)).settings 10 2 % 4096) : ptpFrameRx p x f s =
    s.setPtp (ptpKey p) { s.ptp (ptpKey p) with received := (adjusted s p 8 x, f.msg) :: (s.ptp (ptpKey p)).received } := by
  unfold ptpFrameRx
  dsimp only
  rw [hOn, hSup, if_neg (by simp), if_neg (by simp), if_neg (not_or.mpr ⟨hTy, fun h => h hTag⟩)]

theorem ptpFrameRx_counted {p : PtpPort} {x : T16} {f : PtpFrame} {s : State} (hOn : ptpOn s p = true)
    (hSup : ptpUnsupported s p f = true) : ptpFrameRx p x f s =
    s.setPtp (ptpKey p) { s.ptp (ptpKey p) with errors := (s.ptp (ptpKey p)).errors + 1 } := by
  unfold ptpFrameRx
  dsimp only
  rw [hOn, hSup, if_neg (by simp), if_pos rfl]

theorem ptpFrameRx_ignored {p : PtpPort} {x : T16} {f : PtpFrame} {s : State} (hOn : ptpOn s p = true)
    (hSup : ptpUnsupported s p f = false)
    (hOut : getU f.msg 0 1 % 16 = 13 ∨ f.tags.headD 0 ≠ getU (s.ptp (ptpKey p)).settings 10 2 % 4096) :
    ptpFrameRx p x f s = s := by
  unfold ptpFrameRx
  dsimp only
  rw [hOn, hSup, if_neg (by simp), if_neg (by simp), if_pos hOut]

theorem enterStamp_room {p : PtpPort} {x : T16} {msg : Bytes} {s : State} (h : (s.ptp (ptpKey p)).fifo.length < 16) :
    enterStamp p x msg s = s.setPtp (ptpKey p) { s.ptp (ptpKey p) with
      fifo := (s.ptp (ptpKey p)).fifo ++ [(x, BitVec.ofNat 16 (ofBe (sub msg 30 2)))] } := if_pos h

theorem enterStamp_lost {p : PtpPort} {x : T16} {msg : Bytes} {s : State} (h : 16 ≤ (s.ptp (ptpKey p)).fifo.length) :
    enterStamp p x msg s = raise 2 0 (ptpUnit s p) (s.setPtp (ptpKey p) { s.ptp (ptpKey p) with
      stampsLost := (s.ptp (ptpKey p)).stampsLost + 1 }) := if_neg (by omega)

theorem messageSent_ptp (p : PtpPort) (x : T16) (msg : Bytes) (s : State) (k : Nat) : (messageSent p x msg s).ptp k = s.ptp k := by
  rw [messageSent_only]
  rfl

theorem messageSent_unit (p : PtpPort) (x : T16) (msg : Bytes) (s : State) : ptpUnit (messageSent p x msg s) p = ptpUnit s p :=
  sendMessage_ptpUnit ..

theorem messageSent_port_other {p : PtpPort} {x : T16} {msg : Bytes} {s : State} {n : Fin 48} (h : p ≠ .uplink n) :
    (messageSent p x msg s).port n.val = s.port n.val := sendMessage_port_other h

theorem phaseMeasure_measured {l : Nat} {phase : BitVec 21} {freq : Int} {s : State} (hp : (s.lane l).rxPower = 0)
    (hc : (s.lane l).cdr = true) : phaseMeasure l phase freq false s = s.setPhase12 l { s.phase12 l with
      valid := true, phase := if s.partnerLocked l then phase else phase &&& 0x3FF#21
      time := s.now / (64 * 65536) * (64 * 65536), freq := freq } := by
  unfold phaseMeasure
  dsimp only
  rw [if_neg (not_not.mpr hp), if_neg Bool.false_ne_true, hc]
  rfl

theorem phaseMeasure_slipped {l : Nat} {phase : BitVec 21} {freq : Int} {s : State} (hp : (s.lane l).rxPower = 0) :
    phaseMeasure l phase freq true s = raise 2 1 l (s.setPhase12 l { s.phase12 l with valid := false, slip := true }) := by
  unfold phaseMeasure
  dsimp only
  rw [if_neg (not_not.mpr hp), if_pos rfl]
  rfl

theorem esmcMessage_received {n : Fin 48} {q : Nat} {s : State} (hu : (s.port n).state = .up) (hp : s.chip.phase ≠ .safe)
    (hf : s.fwRuns = true) (hs : getU (s.ptp n).settings 9 1 ≠ 0) : esmcMessage n (some q) s = s.setXfer { s.xfer with
      esmcRx := tset 0 s.xfer.esmcRx n q
      qlSource := if getU (s.ptp n).settings 9 1 % 2 = 1 then q else s.xfer.qlSource
      qlHeard := s.xfer.qlHeard || getU (s.ptp n).settings 9 1 % 2 == 1 } := by
  unfold esmcMessage
  dsimp only
  rw [if_neg (by simp [hu, hp, hf, hs])]
  unfold bit
  rw [Nat.testBit_zero]
  by_cases h : getU (s.ptp n).settings 9 1 % 2 = 1
  · rw [decide_eq_true h, if_pos rfl, if_pos h, h, beq_self_eq_true, Bool.or_true]
    rfl
  · rw [decide_eq_false h, if_neg Bool.false_ne_true, if_neg h, beq_false_of_ne h, Bool.or_false]

theorem esmcMessage_sent {n : Fin 48} {s : State} (hu : (s.port n).state = .up) (hp : s.chip.phase ≠ .safe)
    (hf : s.fwRuns = true) (hs : getU (s.ptp n).settings 9 1 ≠ 0) (hm : s.mayControl n = true) :
    esmcMessage n none s = sendMessage (.uplink n) 64 (.esmc n (announcedQl s).1) (announcedQl s).2 := by
  have hmay : s.maySend (.uplink n) 64 = true := by
    unfold State.maySend
    dsimp only
    rw [hm]
    rfl
  unfold esmcMessage
  dsimp only
  rw [if_neg (by simp [hu, hp, hf, hs]), hmay]
  rfl

/-- Settles O27. -/
theorem networkTimeIsStampedAndMeasured : Obligations.NetworkTimeIsStampedAndMeasured := by
  unfold Obligations.NetworkTimeIsStampedAndMeasured
  refine ⟨?_, ?_, ?_, ?_, ?_, ?_, ?_, ?_, ?_, ?_⟩
  · intro s p x f hInv hOn hSup hTy hTag
    exact gives_of_effect rfl (ptpFrameRx_stamped (s := { s with emitted := [] }) hOn hSup hTy hTag) hInv.acted .of_parts fun t F =>
      F.xfer
  · intro s p x f hInv hOn hSup
    exact gives_of_effect rfl (ptpFrameRx_counted (s := { s with emitted := [] }) hOn hSup) hInv.acted .of_parts fun t F => F.xfer
  · intro s p x f hInv hOn hSup hOut
    exact gives_of_effect rfl (ptpFrameRx_ignored (s := { s with emitted := [] }) hOn hSup hOut) hInv.acted .of_parts fun t F => trivial
  · intro s p x msg hInv hS hT hR
    have hS0 : State.Sends { s with emitted := [] } p x msg := ⟨hS.on, hS.runs, hS.room, hS.client⟩
    have heff := ptpMessageTx_twoStep hS0 hT
    rw [enterStamp_room (by rw [messageSent_ptp]; exact hR), messageSent_ptp, messageSent_only, messageOf_twoStep (by exact hT)] at heff
    refine gives_of_effect rfl heff hInv.acted .of_parts fun t F => ⟨F.xfer, F.emitted _ List.mem_cons_self, fun n hn => ?_⟩
    exact (congrArg (fun u : Upl => tget ({} : Port) u.ports n.val) F.upl).trans (messageSent_port_other (x := x) (msg := msg) hn)
  · intro s p x msg hInv hS hT hR hQ
    have hS0 : State.Sends { s with emitted := [] } p x msg := ⟨hS.on, hS.runs, hS.room, hS.client⟩
    have heff := ptpMessageTx_twoStep hS0 hT
    rw [enterStamp_lost (by rw [messageSent_ptp]; exact hR), messageSent_ptp, messageSent_unit, messageSent_only] at heff
    exact gives_of_raise rfl heff hQ hInv.acted rfl rfl rfl .of_parts fun t F N _ => ⟨F.xfer, N⟩
  · intro s p x msg hInv hS h1 h0
    have hS0 : State.Sends { s with emitted := [] } p x msg := ⟨hS.on, hS.runs, hS.room, hS.client⟩
    have heff := ptpMessageTx_unstamped hS0 h1 h0
    rw [messageSent_only, messageOf_unstamped (by exact h0)] at heff
    exact gives_of_effect rfl heff hInv.acted .of_parts fun t F => F.emitted _ List.mem_cons_self
  · intro s l phase freq hInv hp hc
    exact gives_of_effect rfl (phaseMeasure_measured (s := { s with emitted := [] }) hp hc) hInv.acted .of_parts fun t F => F.xfer
  · intro s l phase freq hInv hp hQ
    exact gives_of_raise rfl (phaseMeasure_slipped (s := { s with emitted := [] }) hp) hQ hInv.acted rfl rfl rfl .of_parts
      fun t F N _ => ⟨F.xfer, N⟩
  · intro s n q hInv hu hp hf hs
    exact gives_of_effect rfl (esmcMessage_received (s := { s with emitted := [] }) hu hp hf hs) hInv.acted .of_parts fun t F => F.xfer
  · intro s n hInv hu hp hf hs hm
    obtain ⟨q, k, ha, hlt, h⟩ := announcedQl_only { s with emitted := [] }
    have heff := esmcMessage_sent (s := { s with emitted := [] }) hu hp hf hs hm
    rw [ha, sendMessage_only] at heff
    exact gives_of_effect rfl heff hInv.acted .of_parts fun t F => ⟨q, hlt, F.emitted _ List.mem_cons_self, h⟩

end Sys2Proof.Machine
end

