-- ==== Sys2Proof/Proofs/Servo.lean ====
section
/-! SUPPORT. The servo of Table XFER-4 on its estimates (04_time_transfer R114-R121). -/

namespace Sys2Proof.Machine

set_option Elab.async false

/-! ## What the servo tells -/

theorem NoticesOnly.hcpOnly {s t : State} (h : NoticesOnly s t) : HcpOnly s t := by
  unfold NoticesOnly at h
  unfold HcpOnly
  rw [h]

/-- A command that changes `s` to `y` and tells what changed of the time transfer: its record, Hub Time and the calendar are those
of `y`. -/
theorem gives_of_told {i : Instr} {s y z : State} {f : State → State} {ch : List Part} {post : State → Prop}
    (hi : exec i s = .next (after f s)) (he : effectOf f s = z) (hn : NoticesOnly y z) (hd : y.flt.detected = []) (hk : Keeps ch s y)
    (hp : ∀ t : State, t.xfer = y.xfer → t.time = { y.time with sec := s.time.sec, ns := s.time.ns, frac40 := s.time.frac40 } →
      t.cal = y.cal → post t) (hh : Part.hcp ∈ ch := by simp) : Gives i s ch post := by
  have hn := hn.hcpOnly
  refine gives_of_effect hi he (by rw [hn.flt]; exact hd) (hk.trans (hn.keeps.weaken ?_)) fun t F =>
    hp t (F.xfer.trans hn.xfer) (by rw [F.time, hn.time]) (F.cal.trans hn.cal)
  rintro p hq
  rw [List.mem_singleton.mp hq]
  exact hh

/-! ## Target rate words -/

theorem clampI_eq {lo hi : Int} (x : Int) (h : lo ≤ hi) : clampI lo hi x = max lo (min hi x) := by
  unfold clampI
  split
  · omega
  · split <;> omega

/-- The target of the servo is the wanted rate, within its limit and 100 ppm where a lane is time-locked. -/
theorem steerRate_steered (wanted : Int) {lim : Int} {s : State} (h0 : 0 ≤ lim) (h1 : lim ≤ 549755813) :
    ∃ c, steerRate wanted lim s = { s with
      time := { s.time with rateTarget := s.steered wanted lim, slewTicks := 0 }, xfer := { s.xfer with clamped := c } } := by
  unfold steerRate
  extract_lets dev dev'
  have hdev : dev = max (-lim) (min lim (wanted - 2 ^ 40)) := clampI_eq _ (by omega)
  have hbound : -549755813 ≤ dev' ∧ dev' ≤ 549755813 ∧ s.steered wanted lim = BitVec.ofNat 48 (2 ^ 40 + dev').toNat := by
    unfold State.steered
    by_cases ht : s.anyTimeLocked = true
    · rw [show dev' = clampI (-109951162) 109951162 dev from if_pos ht, clampI_eq _ (by decide), hdev, if_pos ht]
      refine ⟨by omega, by omega, congrArg (fun d : Int => BitVec.ofNat 48 (2 ^ 40 + d).toNat) ?_⟩
      omega
    · rw [show dev' = dev from if_neg ht, hdev, if_neg ht]
      exact ⟨by omega, by omega, rfl⟩
  obtain ⟨h2, h3, h4⟩ := hbound
  rw [h4]
  exact ⟨_, writeRate_within (by omega) (by omega)⟩

theorem dropLock_held (s : State) : dropLock s = { s with time := { s.time.held with trig := s.time.trig } } := by
  unfold dropLock TimeSt.held
  dsimp only
  split <;> rfl

theorem sourceLost_steered {s : State} (h : s.xfer.servo = .acquire ∨ s.xfer.servo = .steer ∨ s.xfer.servo = .track) :
    ∃ c, sourceLost s = tellTransfer s.xfer { s with
      time := { s.time.held with
        trig := s.time.trig, rateTarget := s.steered (2 ^ 40 + s.xfer.integ) 549755813, slewTicks := 0 }
      xfer := { s.xfer with
        clamped := c, servo := .holdover, holdoverTick := s.tick, lockCount := 0, bigCount := 0, qualCount := 0 } } := by
  obtain ⟨c, hs⟩ := steerRate_steered (2 ^ 40 + s.xfer.integ) (lim := ppm500) (s := s) (by decide) (by decide)
  unfold sourceLost
  dsimp only
  rw [if_pos h, hs, holdIfLocked_eq, dropLock_held]
  exact ⟨c, rfl⟩

/-! ## An estimate that counts -/

/-- The state that has noted an estimate, in which the servo judges it. -/
def noting (e : Int) (x : ServoInput) (s : State) : State := s.setXfer (noteEstimate e x s)

theorem State.Estimates.fresh {s : State} {x : ServoInput} {e : Int} (h : s.Estimates x e) :
    ({ s with emitted := [] } : State).Estimates x e := ⟨h.runs, h.role, h.offset, h.agree⟩

theorem servoEstimate_judges {s : State} {x : ServoInput} {e : Int} (h : s.Estimates x e) :
    servoEstimate x s = tellTransfer s.xfer (servoState e x (noting e x s)) := by
  have hm : (noting e x s).xfer.mismatchCount = 0 := by
    unfold noting noteEstimate
    rw [h.agree]
    rfl
  unfold servoEstimate
  dsimp only
  rw [if_neg (by rw [h.runs]; simp [h.role]), h.offset]
  dsimp only
  rw [show s.setXfer (noteEstimate e x s) = noting e x s from rfl, if_neg (by rw [hm]; decide)]

/-- An estimate whose judgement makes `y` of the state that has noted it. -/
theorem gives_of_estimate {s y : State} {x : ServoInput} {e : Int} {ch : List Part} {post : State → Prop} (hInv : s.Inv)
    (h : s.Estimates x e) (hy : servoState e x (noting e x { s with emitted := [] }) = y) (hd : y.flt = s.flt) (hk : Keeps ch s y)
    (hp : ∀ t : State, t.xfer = y.xfer → t.time = { y.time with sec := s.time.sec, ns := s.time.ns, frac40 := s.time.frac40 } →
      t.cal = y.cal → post t) (hh : Part.hcp ∈ ch := by simp) : Gives (.servoEstimate x) s ch post :=
  gives_of_told rfl ((servoEstimate_judges h.fresh).trans (congrArg (tellTransfer s.xfer) hy))
    (tellTransfer_noticesOnly ..) (by rw [hd]; exact hInv.acted) hk hp hh

theorem servoState_idle {s : State} {x : ServoInput} {e : Int} (h : s.xfer.servo = .idle) : servoState e x s =
    s.setXfer { s.xfer with servo := .acquire, lockCount := 0, bigCount := 0, qualCount := 0 } := by
  unfold servoState
  dsimp only
  rw [h]
  rfl

theorem servoState_holdover {s : State} {x : ServoInput} {e : Int} (h : s.xfer.servo = .holdover) (hq : x.qualified = true) :
    servoState e x s = s.setXfer { s.xfer with servo := .acquire } := by
  unfold servoState
  dsimp only
  rw [h, hq]
  rfl

theorem servoState_waits {s : State} {x : ServoInput} {e : Int} (h : s.xfer.servo = .acquire) (hq : s.xfer.qualCount < 16) :
    servoState e x s = s := by
  unfold servoState
  dsimp only
  rw [h]
  exact if_pos hq

/-- An acquired source: the offset is small, it is stepped as a whole, or its whole seconds are and the rest is steered. -/
theorem servoState_acquired {s : State} {x : ServoInput} {e : Int} (h : s.xfer.servo = .acquire) (hq : 16 ≤ s.xfer.qualCount) :
    servoState e x s = if e.natAbs ≤ 65536000 then setServo .track s
      else if s.anyChannel = true then
        setServo .steer (steerRate (Config.servoRate s.xfer.integ e s.sourceFreq) ppm5
          (if wholeSeconds e = 0 then s else scheduleStep (-(wholeSeconds e * unitsPerSec)) s))
      else setServo .stepPending (scheduleStep (-e) s) := by
  unfold servoState us1
  dsimp only
  rw [h]
  dsimp only
  rw [if_neg (by omega)]
  by_cases hb : e.natAbs ≤ 65536000
  · rw [if_pos hb, decide_eq_false (by omega)]
    rfl
  · rw [if_neg hb, decide_eq_true (by omega)]
    rfl

theorem servoState_steers {s : State} {x : ServoInput} {e : Int} (h : s.xfer.servo = .steer) :
    servoState e x s = if e.natAbs ≤ 65536000
      then setServo .track (steerRate (Config.servoRate s.xfer.integ e s.sourceFreq) ppm500 s)
      else steerRate (Config.servoRate s.xfer.integ e s.sourceFreq) ppm5 s := by
  unfold servoState us1
  dsimp only
  rw [h]
  dsimp only
  by_cases hb : e.natAbs ≤ 65536000
  · rw [if_pos hb, decide_eq_false (by omega), if_neg Bool.false_ne_true]
  · rw [if_neg hb, decide_eq_true (by omega), if_pos rfl]

theorem nextSecond_eq (s : State) : s.nextSecond = (nsOf s.now + 10000 + 999999999) / 1000000000 * unitsPerSec := by
  unfold State.nextSecond cdiv unitsPerSec
  generalize nsOf s.now = n
  congr 1
  omega

theorem noting_qualCount (e : Int) (x : ServoInput) (s : State) :
    (noting e x s).xfer.qualCount = if x.qualified = true then s.xfer.qualCount + 1 else 0 := rfl

theorem noting_qualified {e : Int} {x : ServoInput} {s : State} (hq : x.qualified = true) (h : 15 ≤ s.xfer.qualCount) :
    16 ≤ (noting e x s).xfer.qualCount := by
  rw [noting_qualCount, if_pos hq]
  exact Nat.succ_le_succ h

/-- Whole seconds are scheduled as one step of the firmware's reserve; less than one is left to the rate. -/
theorem scheduleStep_whole {e : Int} {s : State} (h : 65536000 < e.natAbs) (hr : (s.cal.entries.filter (·.fw)).length < 32) :
    (if wholeSeconds e = 0 then s else scheduleStep (-(wholeSeconds e * unitsPerSec)) s) =
      { s with cal := if e.natAbs < unitsPerSec then s.cal else { s.cal with
        entries := s.cal.entries ++ [{
          time := (nsOf s.now + 10000 + 999999999) / 1000000000 * unitsPerSec, cls := 1, ins := s.cal.nextIns
          action := .offsetStep (-(e.sign * (e.natAbs / unitsPerSec : Nat)) * 1000000000) 0, fw := true }]
        nextIns := s.cal.nextIns + 1 } } := by
  have hsign : e.sign ≠ 0 := fun hc => by rw [Int.sign_eq_zero_iff_zero.mp hc] at h; exact absurd h (by decide)
  by_cases hz : e.natAbs < unitsPerSec
  · rw [if_pos hz, if_pos]
    unfold wholeSeconds
    rw [Nat.div_eq_of_lt hz]
    exact Int.zero_mul _
  · have hn : 0 < e.natAbs / unitsPerSec := Nat.div_pos (by omega) (by decide)
    have hw : wholeSeconds e ≠ 0 := by
      unfold wholeSeconds
      exact Int.mul_ne_zero (by omega) hsign
    rw [if_neg hz, if_neg hw, ← Int.neg_mul, scheduleStep_seconds, firmwareEntry_room hr, nextSecond_eq]
    unfold wholeSeconds
    rw [Int.mul_comm (↑(e.natAbs / unitsPerSec)) e.sign]

/-! ## TRACK -/

theorem renewLease_locked {s : State} (h : s.time.quality = .locked) :
    renewLease s = { s with time := { s.time with quality := .locked, lease := 1500000000 } } := by
  unfold renewLease
  rw [if_pos h, ← h]

/-- LOCKED is written, or its lease renewed. -/
theorem locks_again {s : State} (h : s.time.quality ≠ .unset) :
    (if s.time.quality = .locked then renewLease s else writeQuality .locked s) =
      { s with time := { s.time with quality := .locked, lease := 1500000000 } } := by
  split
  case isTrue hl => exact renewLease_locked hl
  case isFalse hl =>
    refine writeQuality_locked ?_
    cases hv : s.time.quality with
    | unset => exact absurd hv h
    | free => exact .inl rfl
    | holdover => exact .inr rfl
    | locked => exact absurd hv hl

theorem servoState_tracks {s : State} {x : ServoInput} {e : Int} (h : s.xfer.servo = .track) :
    servoState e x s = trackEstimate e (Config.servoRate s.xfer.integ e s.sourceFreq) x s := by
  unfold servoState
  dsimp only
  rw [h]

/-- A new master: LOCKED ends, and the servo acquires again. -/
theorem trackEstimate_newMaster {s : State} {x : ServoInput} {e w : Int} (h : x.newMaster.isSome = true) :
    trackEstimate e w x s = { s with
      time := { s.time.held with trig := s.time.trig }
      xfer := { s.xfer with servo := .acquire, lockCount := 0, bigCount := 0, qualCount := 0 } } := by
  unfold trackEstimate
  rw [if_pos h, holdIfLocked_eq, dropLock_held]
  rfl

theorem lockMet_of {s : State} {x : ServoInput} {e : Int} (h : s.LockMet x e) :
    lockMet s.xfer e (s.secondsAgree x) s.keeperLocked = true ∧ lockNeeds s.xfer ≤ s.xfer.lockCount + 1 := by
  have hn : s.xfer.network = decide (s.xfer.roleAct = .standalone ∨ s.xfer.roleAct = .keeper) := by
    unfold Xfer.network
    cases s.xfer.roleAct <;> rfl
  unfold State.LockMet at h
  unfold lockMet lockNeeds
  rw [hn]
  by_cases hr : s.xfer.roleAct = .standalone ∨ s.xfer.roleAct = .keeper
  · rw [if_pos hr] at h
    rw [decide_eq_true hr, if_pos rfl, if_pos rfl]
    by_cases hm : s.xfer.refMode = 0
    · rw [if_pos hm] at h ⊢
      rw [if_pos hm]
      obtain ⟨he, ha, hc⟩ := h
      exact ⟨by rw [decide_eq_true he, ha]; rfl, by omega⟩
    · rw [if_neg hm] at h ⊢
      rw [if_neg hm]
      exact ⟨decide_eq_true h.1, by omega⟩
  · rw [if_neg hr] at h
    rw [decide_eq_false hr, if_neg Bool.false_ne_true, if_neg Bool.false_ne_true]
    exact ⟨by rw [decide_eq_true h.1, h.2]; rfl, by omega⟩

/-- The last estimate that the criterion asks for: LOCKED is written, or its lease renewed. -/
theorem trackEstimate_locks {s : State} {x : ServoInput} {e w : Int} (hm : x.newMaster = none) (he : e.natAbs ≤ 65536000)
    (hl : s.LockMet x e) (hq : s.time.quality ≠ .unset) : ∃ c, trackEstimate e w x s = { s with
      time := { s.time with rateTarget := s.steered w 549755813, slewTicks := 0, quality := .locked, lease := 1500000000 }
      xfer := { s.xfer with clamped := c, bigCount := 0, lockCount := s.xfer.lockCount + 1 } } := by
  obtain ⟨c, hs⟩ := steerRate_steered w (lim := ppm500) (s := s) (by decide) (by decide)
  obtain ⟨hmet, hneeds⟩ := lockMet_of hl
  refine ⟨c, ?_⟩
  unfold trackEstimate
  rw [hm, if_neg (by decide)]
  dsimp only
  rw [hs, if_neg (by unfold us1; omega), if_pos (by exact hmet)]
  exact (if_neg (Nat.not_lt.mpr hneeds)).trans (locks_again (by exact hq))

/-! ## Lost sources -/

/-- A second whose measurements are not there. -/
theorem servoEstimate_empty {s : State} {x : ServoInput} (hf : s.fwRuns = true) (hr : s.xfer.roleAct ≠ .host)
    (ho : s.offsetOf x = none) : servoEstimate x s =
      s.setXfer { s.xfer with lockCount := 0, bigCount := 0, qualCount := 0 } := by
  unfold servoEstimate
  dsimp only
  rw [if_neg (by rw [hf]; simp [hr]), ho]
  rfl

/-- The third mismatch in a row counts as a lost source. -/
theorem servoEstimate_mismatch {s : State} {x : ServoInput} {e : Int} (hf : s.fwRuns = true) (hr : s.xfer.roleAct ≠ .host)
    (ho : s.offsetOf x = some e) (hm : s.crossMismatch x = true) (hc : 2 ≤ s.xfer.mismatchCount) :
    servoEstimate x s = tellTransfer s.xfer (sourceLost (noting e x s)) := by
  have hcount : (noting e x s).xfer.mismatchCount = s.xfer.mismatchCount + 1 := by
    unfold noting noteEstimate
    rw [hm]
    rfl
  unfold servoEstimate
  dsimp only
  rw [if_neg (by rw [hf]; simp [hr]), ho]
  dsimp only
  rw [show s.setXfer (noteEstimate e x s) = noting e x s from rfl, if_pos (by rw [hcount]; omega)]

theorem network_of {s : State} (h : s.xfer.roleAct = .standalone ∨ s.xfer.roleAct = .keeper) : s.xfer.network = true := by
  unfold Xfer.network
  rcases h with h | h <;> rw [h] <;> rfl

theorem announceTimeout_loses {s : State} (hf : s.fwRuns = true) (hr : s.xfer.roleAct = .standalone ∨ s.xfer.roleAct = .keeper) :
    announceTimeout s = sourceLost s := by
  unfold announceTimeout
  rw [hf, network_of hr]
  rfl

theorem holdoverLimitExpiry_free {s : State} (hf : s.fwRuns = true) (hv : s.xfer.servo = .holdover)
    (hl : s.xfer.holdoverLimit ≠ 0) (hq : s.time.quality = .holdover)
    (ht : s.xfer.holdoverTick + s.xfer.holdoverLimit.toNat * 1000000000 ≤ s.tick) :
    holdoverLimitExpiry s = { s with time := { s.time with quality := .free } } := by
  unfold holdoverLimitExpiry
  dsimp only
  rw [hf, hv, decide_eq_true hl, hq, decide_eq_true (show s.xfer.holdoverTick + s.xfer.holdoverLimit.toNat * secTicks ≤ s.tick from ht)]
  exact writeQuality_free hq

/-- Settles O28. -/
theorem servoActsOnItsEstimates : Obligations.ServoActsOnItsEstimates := by
  unfold Obligations.ServoActsOnItsEstimates
  refine ⟨?_, ?_, ?_, ?_, ?_, ?_, ?_, ?_, ?_, ?_, ?_, ?_, ?_⟩
  · intro s x e hInv hE hv
    exact gives_of_estimate hInv hE (servoState_idle (by exact hv)) rfl .of_parts fun t hx _ _ => hx
  · intro s x e hInv hE hv hq
    exact gives_of_estimate hInv hE (servoState_holdover (by exact hv) hq) rfl .of_parts fun t hx _ _ => hx
  · intro s x e hInv hE hv hq
    refine gives_of_estimate hInv hE (servoState_waits (by exact hv) ?_) rfl .of_parts fun t hx _ _ => hx
    rw [noting_qualCount]
    split
    case isTrue h =>
      have : s.xfer.qualCount < 15 := hq.resolve_left (by rw [h]; decide)
      exact Nat.succ_lt_succ this
    case isFalse => decide
  · intro s x e hInv hE hv hq hn he
    have hy := (servoState_acquired (s := noting e x { s with emitted := [] }) (x := x) (e := e) hv (noting_qualified hq hn)).trans
      (if_pos he)
    exact gives_of_estimate hInv hE hy rfl .of_parts fun t hx _ _ => hx
  · intro s x e hInv hE hv hq hn he hc hr
    have hy := (servoState_acquired (s := noting e x { s with emitted := [] }) (x := x) (e := e) hv (noting_qualified hq hn)).trans
      ((if_neg (by omega)).trans (if_neg (Bool.eq_false_iff.mp hc)))
    unfold scheduleStep at hy
    rw [firmwareEntry_room (by exact hr), nextSecond_eq] at hy
    exact gives_of_estimate hInv hE hy rfl .of_parts fun t hx _ hcal => ⟨hx, hcal⟩
  · intro s x e hInv hE hv hq hn he hc hr
    have hy := (servoState_acquired (s := noting e x { s with emitted := [] }) (x := x) (e := e) hv (noting_qualified hq hn)).trans
      ((if_neg (by omega)).trans (if_pos hc))
    obtain ⟨c, hs⟩ := steerRate_steered (Config.servoRate (noting e x { s with emitted := [] }).xfer.integ e s.sourceFreq)
      (lim := ppm5) (s := { noting e x { s with emitted := [] } with cal := if e.natAbs < unitsPerSec then s.cal else { s.cal with
        entries := s.cal.entries ++ [{
          time := (nsOf s.now + 10000 + 999999999) / 1000000000 * unitsPerSec, cls := 1, ins := s.cal.nextIns
          action := .offsetStep (-(e.sign * (e.natAbs / unitsPerSec : Nat)) * 1000000000) 0, fw := true }]
        nextIns := s.cal.nextIns + 1 } }) (by decide) (by decide)
    rw [scheduleStep_whole he (by exact hr)] at hy
    refine gives_of_estimate hInv hE (hy.trans (congrArg (setServo .steer) hs)) rfl .of_parts fun t hx ht hcal => ?_
    rw [hx, ht, hcal]
    exact ⟨rfl, rfl, rfl, rfl⟩
  · intro s x e hInv hE hv
    have hy := servoState_steers (s := noting e x { s with emitted := [] }) (x := x) (e := e) hv
    by_cases he : e.natAbs ≤ 65536000
    · obtain ⟨c, hs⟩ := steerRate_steered (Config.servoRate (noting e x { s with emitted := [] }).xfer.integ e s.sourceFreq)
        (lim := ppm500) (s := noting e x { s with emitted := [] }) (by decide) (by decide)
      refine gives_of_estimate hInv hE (hy.trans ((if_pos he).trans (congrArg (setServo .track) hs))) rfl .of_parts
        fun t hx ht _ => ?_
      rw [hx, ht, if_pos he, if_pos he]
      exact ⟨rfl, rfl, rfl⟩
    · obtain ⟨c, hs⟩ := steerRate_steered (Config.servoRate (noting e x { s with emitted := [] }).xfer.integ e s.sourceFreq)
        (lim := ppm5) (s := noting e x { s with emitted := [] }) (by decide) (by decide)
      refine gives_of_estimate hInv hE (hy.trans ((if_neg he).trans hs)) rfl .of_parts fun t hx ht _ => ?_
      rw [hx, ht, if_neg he, if_neg he]
      exact ⟨rfl, hv, rfl⟩
  · intro s x e hInv hE hv hm he hl hq
    have hy := servoState_tracks (s := noting e x { s with emitted := [] }) (x := x) (e := e) hv
    obtain ⟨c, hs⟩ := trackEstimate_locks (s := noting e x { s with emitted := [] }) (x := x) (e := e)
      (w := Config.servoRate (noting e x { s with emitted := [] }).xfer.integ e s.sourceFreq) hm he hl hq
    refine gives_of_estimate hInv hE (hy.trans hs) rfl .of_parts fun t hx ht _ => ?_
    rw [hx, ht]
    exact ⟨hv, rfl, rfl, rfl⟩
  · intro s x e hInv hE hv hm
    have hy := servoState_tracks (s := noting e x { s with emitted := [] }) (x := x) (e := e) hv
    exact gives_of_estimate hInv hE (hy.trans (trackEstimate_newMaster hm)) rfl .of_parts fun t hx ht _ => ⟨hx, ht⟩
  · intro s x hInv hf hr ho
    exact gives_of_effect rfl (servoEstimate_empty (s := { s with emitted := [] }) hf hr ho) hInv.acted .of_parts fun t F => F.xfer
  · intro s x e hInv hf hr ho hm hc hv
    obtain ⟨c, hs⟩ := sourceLost_steered (s := noting e x { s with emitted := [] }) hv
    have heff := (servoEstimate_mismatch (s := { s with emitted := [] }) hf hr ho hm hc).trans
      (congrArg (tellTransfer s.xfer) hs)
    refine gives_of_told rfl heff ((tellTransfer_noticesOnly ..).trans (tellTransfer_noticesOnly ..)) hInv.acted .of_parts
      fun t hx ht _ => ?_
    rw [hx, ht]
    exact ⟨rfl, hm, rfl, rfl⟩
  · intro s hInv hf hr hv
    obtain ⟨c, hs⟩ := sourceLost_steered (s := { s with emitted := [] }) hv
    refine gives_of_told rfl ((announceTimeout_loses (s := { s with emitted := [] }) hf hr).trans hs) (tellTransfer_noticesOnly ..) hInv.acted .of_parts
      fun t hx ht _ => ?_
    rw [hx, ht]
    exact ⟨rfl, rfl⟩
  · intro s hInv hf hv hl hq ht
    exact gives_of_effect rfl (holdoverLimitExpiry_free (s := { s with emitted := [] }) hf hv hl hq ht) hInv.acted .of_parts
      fun t F => F.time

end Sys2Proof.Machine
end

