-- ==== Sys2Proof/Proofs/Keepers.lean ====
section
/-! SUPPORT. The keeper pair (04_time_transfer R122-R134): heartbeats, missed slots, snapshots, hand-over. -/

namespace Sys2Proof.Machine

set_option Elab.async false

/-! ## Heartbeats -/

/-- `t` is `s` but for its transfer record, in which the last heartbeats and the asymmetry table are as before, and for what a
completion changes of the host interface. -/
structure Hears (s t : State) : Prop where
  only : ∃ x h, t = { s with xfer := x, hcp := h }
  ports : t.hcp.ports = s.hcp.ports
  heard : t.xfer.heard = s.xfer.heard

theorem Hears.refl (s : State) : Hears s s := ⟨⟨_, _, rfl⟩, rfl, rfl⟩

theorem Hears.trans {s t u : State} (h : Hears s t) (k : Hears t u) : Hears s u := by
  obtain ⟨x, y, ht⟩ := h.only
  obtain ⟨x', y', hu⟩ := k.only
  exact ⟨⟨x', y', by rw [hu, ht]⟩, k.ports.trans h.ports, k.heard.trans h.heard⟩

theorem Hears.setXfer {s : State} {x : Xfer} (h : x.heard = s.xfer.heard) : Hears s (s.setXfer x) := ⟨⟨x, s.hcp, rfl⟩, rfl, h⟩

theorem Hears.of_hcp {s t : State} (h : HcpOnly s t) : Hears s t := by
  refine ⟨⟨s.xfer, t.hcp, ?_⟩, h.ports, congrArg Xfer.heard h.xfer⟩
  unfold HcpOnly at h
  rw [h]

theorem follow_hears (s : State) : Hears s (follow s) := by
  unfold follow
  split
  · split
    · exact .refl s
    · exact .setXfer rfl
  · exact .refl s

theorem stepBack_hears (p h : Nat) (s : State) : Hears s (stepBack p h s) := .setXfer rfl

theorem endHandover_hears (r : Nat) (s : State) : Hears s (endHandover r s) := by
  unfold endHandover
  dsimp only
  split
  · exact Hears.trans (t := s.setXfer { s.xfer with handoverTo := none, handoverSlots := 0, handoverJob := none }) (.setXfer rfl)
      (.of_hcp (complete_hcp ..))
  · exact .setXfer rfl

/-- The sender of a heartbeat announces itself as keeper. -/
def announces (f : Bytes) : Bool := beatRole f == 2 && !beatStalled f

/-- The parts of what the firmware makes of a heartbeat: a listening hub has heard a keeper, a hand-over has its partner, the ranks are
compared, the missed slots of the followed keeper end. -/
def beatListened (f : Bytes) (s : State) : State :=
  if s.xfer.listening && announces f then s.setXfer { s.xfer with heardKeeper := true } else s

def beatHandedOver (f : Bytes) (s : State) : State :=
  if announces f && s.xfer.handoverTo == some (BitVec.ofNat 16 (beatHub f)) then endHandover 0 s else s

def beatRanked (f : Bytes) (s : State) : State :=
  if s.xfer.roleAct ≠ .keeper then follow s
  else if announces f && ranksAbove (beatPriority f) (beatHub f) s.xfer.priority.toNat s.chip.hubId.toNat then
    stepBack (beatPriority f) (beatHub f) s
  else if beatRole f == 4 && beatFollowing f && ranksAbove (getU f 5 1) (getU f 6 2) s.xfer.priority.toNat s.chip.hubId.toNat then
    stepBack (getU f 5 1) (getU f 6 2) s
  else s

def beatCounted (f : Bytes) (s : State) : State :=
  if s.xfer.following && s.xfer.hubIdF.toNat == beatHub f && !beatStalled f then s.setXfer { s.xfer with missed := 0 } else s

theorem hearBeat_eq (n : Nat) (s : State) : hearBeat n s =
    beatCounted (s.heardOn n).frame (beatRanked (s.heardOn n).frame
      (beatHandedOver (s.heardOn n).frame (beatListened (s.heardOn n).frame s))) := rfl

theorem hearBeat_hears (n : Nat) (s : State) : Hears s (hearBeat n s) := by
  rw [hearBeat_eq]
  generalize (s.heardOn n).frame = f
  have h1 : ∀ t, Hears t (beatListened f t) := by
    intro t
    unfold beatListened
    split
    · exact .setXfer rfl
    · exact .refl t
  have h2 : ∀ t, Hears t (beatHandedOver f t) := by
    intro t
    unfold beatHandedOver
    split
    · exact endHandover_hears ..
    · exact .refl t
  have h3 : ∀ t, Hears t (beatRanked f t) := by
    intro t
    unfold beatRanked
    split
    · exact follow_hears t
    · split
      · exact stepBack_hears ..
      · split
        · exact stepBack_hears ..
        · exact .refl t
  have h4 : ∀ t, Hears t (beatCounted f t) := by
    intro t
    unfold beatCounted
    split
    · exact .setXfer rfl
    · exact .refl t
  exact (((h1 s).trans (h2 _)).trans (h3 _)).trans (h4 _)

/-- A valid heartbeat is kept as the last one heard on its link. -/
def heardState (n : Nat) (f : Bytes) (x : T16) (s : State) : State :=
  s.setXfer { s.xfer with heard := tset {} s.xfer.heard n {
    frame := f, arrival := ((x : Int) + s.asymField (some (2, n)) 8).toNat, ago := 0 } }

theorem easelHeartbeatRx_valid {n : Nat} {f : Bytes} {x : T16} {s : State} (ho : s.easelOn n = true) (hu : s.easelUp n = true)
    (hl : f.length = 36) (hc : getU f 32 4 = crc32c (sub f 0 32)) : easelHeartbeatRx n f x s =
      if s.fwRuns = true then tellTransfer s.xfer (hearBeat n (heardState n f x s)) else heardState n f x s := by
  unfold easelHeartbeatRx
  dsimp only
  rw [ho, hu, if_neg (by decide), if_neg (not_or.mpr ⟨fun h => h hl, fun h => h hc⟩)]
  rfl

theorem easelHeartbeatRx_invalid {n : Nat} {f : Bytes} {x : T16} {s : State} (ho : s.easelOn n = true) (hu : s.easelUp n = true)
    (h : f.length ≠ 36 ∨ getU f 32 4 ≠ crc32c (sub f 0 32)) : easelHeartbeatRx n f x s = raise 2 3 (s.easelLane n) s := by
  unfold easelHeartbeatRx
  dsimp only
  rw [ho, hu, if_neg (by decide), if_pos h]

theorem heardState_heardOn (n : Nat) (f : Bytes) (x : T16) (s : State) : ((heardState n f x s).heardOn n).frame = f :=
  congrArg EaselHeard.frame (tget_tset_self ..)

/-- A keeper that is outranked by an announcing one steps back and follows it. -/
theorem hearBeat_stepsBack {n : Nat} {f : Bytes} {s : State} (hf : (s.heardOn n).frame = f) (hr : s.xfer.roleAct = .keeper)
    (hl : s.xfer.listening = false) (hh : s.xfer.handoverTo = none) (h2 : beatRole f = 2) (hs : beatStalled f = false)
    (hk : ranksAbove (beatPriority f) (beatHub f) s.xfer.priority.toNat s.chip.hubId.toNat = true) :
    hearBeat n s = stepBack (beatPriority f) (beatHub f) s := by
  have ha : announces f = true := by
    unfold announces
    rw [h2, hs]
    rfl
  have h1 : beatListened f s = s := if_neg (by rw [hl]; simp)
  have h3 : beatHandedOver f s = s := if_neg (by rw [hh]; simp)
  have h4 : beatRanked f s = stepBack (beatPriority f) (beatHub f) s := by
    unfold beatRanked
    rw [if_neg (not_not.mpr hr), if_pos (by rw [ha, hk]; rfl)]
  rw [hearBeat_eq, hf, h1, h3, h4]
  unfold beatCounted
  split <;> rfl

/-! ## Missed slots -/

/-- The best-ranked of some links follows from what has been heard on them. -/
theorem bestOf_heard {s t : State} (h : t.xfer.heard = s.xfer.heard) : ∀ ns : List Nat, bestOf t ns = bestOf s ns
  | [] => rfl
  | n :: ns => by
    unfold bestOf State.heardOn
    rw [bestOf_heard h ns, h]

theorem bestOf_cons_isSome (s : State) (n : Nat) (ns : List Nat) : (bestOf s (n :: ns)).isSome = true := by
  unfold bestOf
  split
  · rfl
  · dsimp only
    split <;> rfl

/-- A slot of the followed keeper has been missed. -/
def missing (s : State) : State := s.setXfer { s.xfer with missed := s.xfer.missed + 1 }

/-- The announcements of other keepers than the one that is followed. -/
def State.others (s : State) : List Nat := s.announcers.filter fun n => beatHub (s.heardOn n).frame ≠ s.xfer.hubIdF.toNat

theorem easelSlotMissed_eq {s : State} (hf : s.fwRuns = true) (hfo : s.xfer.following = true)
    (hr : s.xfer.roleAct = .partner ∨ s.xfer.roleAct = .follower) (hl : s.xfer.listening = false) (hk : s.keeperHeard = false) :
    easelSlotMissed s =
      if s.xfer.missed < 2 then missing s
      else if (bestOf s s.others).isSome then
        tellTransfer s.xfer (follow (s.setXfer { s.xfer with missed := s.xfer.missed + 1, following := false }))
      else if s.xfer.roleAct = .partner then
        tellTransfer s.xfer ((takeKeeper (missing s)).setXfer
          { (takeKeeper (missing s)).xfer with takeovers := (takeKeeper (missing s)).xfer.takeovers + 1 })
      else tellTransfer s.xfer (sourceLost (s.setXfer { s.xfer with following := false, missed := 3 })) := by
  have hrole : (s.xfer.roleAct == .partner || s.xfer.roleAct == .follower) = true := by
    rcases hr with h | h <;> rw [h] <;> rfl
  have hguard : (!(s.fwRuns && s.xfer.following && (s.xfer.roleAct == .partner || s.xfer.roleAct == .follower) && !s.xfer.listening)
      || s.keeperHeard) = false := by
    rw [hf, hfo, hrole, hl, hk]
    rfl
  unfold easelSlotMissed
  refine (if_neg (Bool.eq_false_iff.mp hguard)).trans ?_
  by_cases h2 : s.xfer.missed < 2
  · rw [if_pos h2]
    exact if_pos (Nat.succ_lt_succ h2)
  · rw [if_neg h2]
    exact (if_neg (fun hc => h2 (Nat.lt_of_succ_lt_succ hc))).trans
      (if_congr (iff_of_eq (congrArg (fun o : Option Nat => o.isSome = true) (bestOf_heard (s := s) (t := missing s) rfl s.others))) rfl rfl)

theorem others_none {s : State} (h : s.OnlyItsKeeper) : bestOf s s.others = none := by
  have hn : s.others = [] := List.filter_eq_nil_iff.mpr fun n hn => by simp [h n hn]
  rw [hn]
  rfl

theorem others_some {s : State} (h : ¬ s.OnlyItsKeeper) : (bestOf s s.others).isSome = true := by
  unfold State.OnlyItsKeeper at h
  push Not at h
  obtain ⟨n, hn, hne⟩ := h
  have hmem : n ∈ s.others := List.mem_filter.mpr ⟨hn, by simp [hne]⟩
  cases ho : s.others with
  | nil =>
    rw [ho] at hmem
    exact absurd hmem List.not_mem_nil
  | cons m ms => exact bestOf_cons_isSome ..

/-! ## The keeper role -/

theorem loadAsym_only (es : List Bytes) (s : State) : ∃ a, loadAsym es s = s.setXfer { s.xfer with asym := a } := by
  have key : ∀ (xs : List Bytes) (t : State) (f : Bytes → State → State),
      (∀ e u, ∃ a, f e u = u.setXfer { u.xfer with asym := a }) → ∃ a, forEach xs f t = t.setXfer { t.xfer with asym := a } := by
    intro xs t f hf
    induction xs generalizing t with
    | nil => exact ⟨_, rfl⟩
    | cons e xs ih =>
      obtain ⟨a, ha⟩ := hf e t
      obtain ⟨b, hb⟩ := ih (f e t)
      rw [ha] at hb
      exact ⟨b, (congrArg (forEach xs f) ha).trans hb⟩
  unfold loadAsym
  refine key _ s _ fun e u => ?_
  dsimp only
  split
  · exact ⟨_, rfl⟩
  · split <;> exact ⟨_, rfl⟩

theorem takeKeeper_empty {s : State} (h : s.xfer.snaps = []) : takeKeeper s = { s with
    time := { s.time.held with trig := s.time.trig }
    xfer := { s.xfer with
      roleAct := .keeper, servo := .acquire, e := 0, integ := 0, gmId := 0, gmPort := 0, mismatch := false, mismatchCount := 0
      following := false, missed := 0, lockCount := 0, bigCount := 0, qualCount := 0 } } := by
  unfold takeKeeper
  dsimp only
  split
  case h_1 => rw [holdIfLocked_eq, dropLock_held]; rfl
  case h_2 b bs hs =>
    rw [h] at hs
    cases hs

theorem takeKeeper_newer {s : State} {b : Bytes} {rest : List Bytes} (h : s.xfer.snaps = b :: rest) (hm : s.xfer.refMode = 0)
    (ht : s.anyTimeLocked = false) (h1 : 2 ^ 40 ≤ getU b 0x18 6 + 549755813) (h2 : getU b 0x18 6 ≤ 2 ^ 40 + 549755813) :
    ∃ a, takeKeeper s = { s with
      time := { s.time with rateTarget := BitVec.ofNat 48 (getU b 0x18 6), slewTicks := 0 }
      xfer := { s.xfer with
        asym := a, roleAct := .keeper, servo := servoOf (getU b 5 1), e := getI b 0x20 8, integ := getI b 0x28 8
        gmId := BitVec.ofNat 64 (getU b 0x30 8), gmPort := BitVec.ofNat 16 (getU b 0x38 2)
        following := false, missed := 0, lockCount := 0, bigCount := 0, qualCount := 0 } } := by
  unfold takeKeeper
  dsimp only
  split
  case h_1 hs =>
    rw [h] at hs
    cases hs
  case h_2 b' bs hs =>
    rw [h] at hs
    cases hs
    rw [if_pos hm, writeRate_within h1 h2, holdRate_leaves (.inl (by exact ht))]
    obtain ⟨a, ha⟩ := loadAsym_only (snapAsym b) { s with
      time := { s.time with rateTarget := BitVec.ofNat 48 (getU b 0x18 6), slewTicks := 0 } }
    rw [ha]
    exact ⟨a, rfl⟩

theorem follow_best {s : State} {n : Nat} (hr : s.xfer.roleAct = .partner ∨ s.xfer.roleAct = .follower)
    (hb : bestOf s s.announcers = some n) (hf : s.xfer.following = false) : follow s = s.setXfer { s.xfer with
      following := true, hubIdF := BitVec.ofNat 16 (beatHub (s.heardOn n).frame)
      priorityF := BitVec.ofNat 8 (beatPriority (s.heardOn n).frame), missed := 0 } := by
  unfold follow
  rw [if_pos hr, hb]
  dsimp only
  rw [hf]
  rfl

/-! ## Snapshots -/

theorem forEach_emit {g : Nat → Emission} : ∀ (ns : List Nat) (s : State),
    forEach ns (fun n t => t.emit (g n)) s = { s with emitted := s.emitted ++ ns.map g }
  | [], s => by rw [List.map_nil, List.append_nil]; rfl
  | n :: ns, s => by
    refine (forEach_emit ns (s.emit (g n))).trans ?_
    unfold State.emit
    rw [List.map_cons, List.append_assoc]
    rfl

theorem snapshotTx_sends {s : State} (hf : s.fwRuns = true) (hr : s.xfer.roleAct = .keeper) (hh : s.atHalfSecond = true)
    (ht : s.xfer.snapTime ≠ s.now) : snapshotTx s = sendSnapshot none s := by
  unfold snapshotTx
  rw [hf, hr, hh, decide_eq_true ht]
  rfl

theorem sendSnapshot_eq (m : Option W16) (s : State) : sendSnapshot m s = { s with
    xfer := { s.xfer with snapSeq := s.xfer.snapSeq + 1, snapTime := s.now }
    emitted := s.emitted ++ (s.heardLinks.filter fun n =>
      beatRole (s.heardOn n).frame == 2 || beatRole (s.heardOn n).frame == 3).map fun n =>
        .snapshot n m (messageBlocks 1 (messageBytes 3 (snapshotBytes s (s.xfer.snapSeq + 1) s.now))) } := by
  unfold sendSnapshot
  exact forEach_emit ..

theorem snapshotRx_valid {n : Nat} {mark : Bool} {b : Bytes} {s : State} (ho : s.easelOn n = true) (hu : s.easelUp n = true)
    (hb : snapshotOk b = true) : snapshotRx n mark b s =
      if s.fwRuns = true then
        if s.xfer.roleAct = .partner then
          if mark = true then tellTransfer s.xfer (takeKeeper ((storeSnaps [b] s).setXfer
            { (storeSnaps [b] s).xfer with listening := false })) else storeSnaps [b] s
        else s
      else if s.xfer.roleAct = .partner ∨ s.xfer.roleAct = .keeper then
        s.setXfer { s.xfer with snapsWait := (b :: s.xfer.snapsWait).take 2 }
      else s := by
  unfold snapshotRx
  dsimp only
  rw [ho, hu, hb, if_neg (by decide), if_neg (by decide)]
  cases s.fwRuns with
  | true => rfl
  | false => rfl

theorem snapshotRx_invalid {n : Nat} {mark : Bool} {b : Bytes} {s : State} (ho : s.easelOn n = true) (hu : s.easelUp n = true)
    (hb : snapshotOk b = false) : snapshotRx n mark b s = raise 2 3 (s.easelLane n) s := by
  unfold snapshotRx
  dsimp only
  rw [ho, hu, hb, if_neg (by decide)]
  rfl

/-! ## Listening and hand-over -/

theorem keeperListenEnd_eq {s : State} (hf : s.fwRuns = true) (hl : s.xfer.listening = true)
    (ht : s.xfer.listenTick + 10000000 ≤ s.tick) : keeperListenEnd s = tellTransfer s.xfer
      (if s.xfer.heardKeeper = true then follow (s.setXfer { s.xfer with listening := false })
       else s.setXfer { s.xfer with listening := false, roleAct := .keeper, following := false, missed := 0 }) := by
  unfold keeperListenEnd
  refine (if_neg ?_).trans rfl
  rw [hf, hl, decide_eq_true ht]
  decide

/-- What following the best-ranked keeper leaves as it is. -/
theorem follow_only (s : State) : ∃ a b c d, follow s =
    s.setXfer { s.xfer with following := a, hubIdF := b, priorityF := c, missed := d } := by
  unfold follow
  split
  · split <;> exact ⟨_, _, _, _, rfl⟩
  · exact ⟨_, _, _, _, rfl⟩

theorem endHandover_told {s : State} {f : FireRec} {j : JobRef} (hf : s.xfer.handoverJob = some f) (hj : f.job = some j)
    (r : Nat) : endHandover r s = complete j 0 0 (fireRecord f ++ le 1 r ++ zeros 3)
      (s.setXfer { s.xfer with handoverTo := none, handoverSlots := 0, handoverJob := none }) := by
  unfold endHandover
  dsimp only
  rw [hf]
  dsimp only [Option.bind_some]
  rw [hj]

theorem handoverPartnerAbsent_ends {s : State} (hf : s.fwRuns = true) (hTo : s.xfer.handoverTo.isSome = true)
    (hs : 5 ≤ s.xfer.handoverSlots) : handoverPartnerAbsent s = startListening (endHandover 1 s) := by
  refine if_pos ?_
  rw [hf, hTo, decide_eq_true hs]
  rfl

theorem startListening_same {s t : State} (hx : t.xfer = s.xfer) (ht : t.tick = s.tick) :
    (startListening t).xfer = (startListening s).xfer := by
  unfold startListening State.setXfer
  dsimp only
  rw [hx, ht]

/-- A partner that is handed the role takes it, with the servo of the snapshot (R131). -/
theorem snapshotRx_handover {s : State} {n : Fin 8} {b : Bytes} (hInv : s.Inv) (ho : s.easelOn n = true) (hu : s.easelUp n = true)
    (hb : snapshotOk b = true) (hr : s.xfer.roleAct = .partner) (hf : s.fwRuns = true) (hRef : s.xfer.refMode = 0)
    (hLock : s.anyTimeLocked = false) (h1 : 2 ^ 40 ≤ getU b 0x18 6 + 549755813) (h2 : getU b 0x18 6 ≤ 2 ^ 40 + 549755813) :
    Gives (.snapshotRx n true b) s [.xfer, .hcp, .time] fun t =>
      t.xfer.roleAct = .keeper ∧ t.xfer.listening = false ∧ t.xfer.following = false ∧ t.xfer.servo = servoOf (getU b 5 1) ∧
      t.xfer.e = getI b 0x20 8 ∧ t.xfer.integ = getI b 0x28 8 ∧
      t.time = { s.time with rateTarget := BitVec.ofNat 48 (getU b 0x18 6), slewTicks := 0 } := by
  have heff := (snapshotRx_valid (mark := true) (s := { s with emitted := [] }) ho hu hb).trans
    ((if_pos hf).trans ((if_pos hr).trans (if_pos rfl)))
  obtain ⟨a, ha⟩ := takeKeeper_newer (s := (storeSnaps [b] { s with emitted := [] }).setXfer
    { (storeSnaps [b] { s with emitted := [] }).xfer with listening := false }) (b := b) (rest := s.xfer.snaps.take 1)
    rfl hRef hLock h1 h2
  rw [ha] at heff
  refine gives_of_told rfl heff (tellTransfer_noticesOnly ..) hInv.acted .of_parts fun t hx ht _ => ?_
  rw [hx, ht]
  exact ⟨rfl, rfl, rfl, rfl, rfl, rfl, rfl⟩

/-- A follower that loses its only keeper holds its rate (R128). -/
theorem easelSlotMissed_follower {s : State} (hInv : s.Inv) (hf : s.fwRuns = true) (hfo : s.xfer.following = true)
    (hr : s.xfer.roleAct = .follower) (hl : s.xfer.listening = false) (hk : s.keeperHeard = false) (hm : 2 ≤ s.xfer.missed)
    (hO : s.OnlyItsKeeper) (hs : s.xfer.servo = .track) :
    Gives .easelSlotMissed s [.xfer, .hcp, .time] fun t =>
      t.xfer.servo = .holdover ∧ t.xfer.following = false ∧ t.xfer.roleAct = .follower ∧
      t.time = { s.time.held with
        trig := s.time.trig, rateTarget := s.steered (2 ^ 40 + s.xfer.integ) 549755813, slewTicks := 0 } := by
  have heff := (easelSlotMissed_eq (s := { s with emitted := [] }) hf hfo (.inr hr) hl hk).trans
    ((if_neg (Nat.not_lt.mpr hm)).trans ((if_neg (by rw [others_none (by exact hO)]; simp)).trans
      (if_neg (show ¬ s.xfer.roleAct = .partner by rw [hr]; decide))))
  obtain ⟨c, hc⟩ := sourceLost_steered (s := ({ s with emitted := [] } : State).setXfer { s.xfer with following := false, missed := 3 })
    (.inr (.inr hs))
  rw [hc] at heff
  refine gives_of_told rfl heff ((tellTransfer_noticesOnly ..).trans (tellTransfer_noticesOnly ..)) hInv.acted .of_parts
    fun t hx ht _ => ?_
  rw [hx, ht]
  exact ⟨rfl, rfl, hr, rfl⟩

/-- A hand-over whose partner stays silent ends with PARTNER_ABSENT, and the hub listens as a partner (R132). -/
theorem handoverPartnerAbsent_gives {s : State} {f : FireRec} {j : JobRef} (hInv : s.Inv) (hTo : s.xfer.handoverTo.isSome = true)
    (hSlots : 5 ≤ s.xfer.handoverSlots) (hJob : s.xfer.handoverJob = some f) (hj : f.job = some j) (hh : s.hears j) :
    Gives .handoverPartnerAbsent s [.xfer, .hcp] fun t =>
      t.xfer = { s.xfer with
        handoverTo := none, handoverSlots := 0, handoverJob := none, roleAct := .partner, listening := true
        listenTick := s.tick, heardKeeper := false } ∧
      Told j 0 0 (ts96 f.time ++ le 1 f.outcome ++ le 1 f.cls ++ zeros 2 ++ le 1 1 ++ zeros 3) s t := by
  have heff := (handoverPartnerAbsent_ends (s := { s with emitted := [] }) hh.1 hTo hSlots).trans
    (congrArg startListening (endHandover_told (s := { s with emitted := [] }) hJob hj 1))
  have hcomp := complete_hcp j 0 0 (fireRecord f ++ le 1 1 ++ zeros 3) (({ s with emitted := [] } : State).setXfer { s.xfer with
    handoverTo := none, handoverSlots := 0, handoverJob := none })
  refine gives_of_effect rfl heff ((congrArg Flt.detected hcomp.flt).trans hInv.acted)
    ((Keeps.trans .of_parts (hcomp.keeps.weaken (by simp))).trans .of_parts) fun t F => ⟨?_, ?_⟩
  · exact F.xfer.trans ((startListening_same hcomp.xfer hcomp.tick).trans rfl)
  · have hT : Told j 0 0 (fireRecord f ++ le 1 1 ++ zeros 3) s t :=
      (complete_told (s := s) (x := ({ s with emitted := [] } : State).setXfer { s.xfer with
        handoverTo := none, handoverSlots := 0, handoverJob := none }) hh rfl rfl 0 0 _).keeps
        (logKeeps_of_log ((congrArg Hcp.log F.hcp).trans rfl))
    exact hT

/-- Settles O29. -/
theorem keepersAndPartnersFollowTheTable : Obligations.KeepersAndPartnersFollowTheTable := by
  unfold Obligations.KeepersAndPartnersFollowTheTable
  refine ⟨?_, ?_, ?_, ?_, ?_, ?_, ?_, ?_, ?_, ?_, ?_, ?_, ?_, ?_, ?_, ?_⟩
  · intro s n f x hInv ho hu hl hc
    have heff := easelHeartbeatRx_valid (x := x) (s := { s with emitted := [] }) ho hu hl hc
    cases hf : s.fwRuns with
    | false =>
      refine gives_of_effect rfl (heff.trans (if_neg (Bool.eq_false_iff.mp hf))) hInv.acted .of_parts fun t F => ?_
      rw [F.xfer]
      exact ⟨rfl, fun _ => rfl⟩
    | true =>
      have H := hearBeat_hears n (heardState n f x { s with emitted := [] })
      obtain ⟨y, k, hy⟩ := H.only
      refine gives_of_told rfl (heff.trans (if_pos hf)) (tellTransfer_noticesOnly ..) (by rw [hy]; exact hInv.acted)
        (by rw [hy]; exact .of_parts (ports := .inr ((congrArg Hcp.ports (congrArg State.hcp hy).symm).trans H.ports)))
        fun t hx _ _ => ⟨?_, fun h => absurd h (by decide)⟩
      rw [hx]
      exact H.heard
  · intro s n f x hInv ho hu h hQ
    exact gives_of_raise rfl (easelHeartbeatRx_invalid (s := { s with emitted := [] }) ho hu h) hQ hInv.acted rfl rfl rfl .of_parts
      fun t _ N _ => N
  · intro s n f x hInv ho hu hl hc hf hr hli hh h2 hs hk
    have heff := (easelHeartbeatRx_valid (x := x) (s := { s with emitted := [] }) ho hu hl hc).trans (if_pos hf)
    rw [hearBeat_stepsBack (heardState_heardOn ..) (by exact hr) (by exact hli) (by exact hh) h2 hs (by exact hk)] at heff
    refine gives_of_told rfl heff (tellTransfer_noticesOnly ..) hInv.acted .of_parts fun t hx _ _ => ?_
    rw [hx]
    rfl
  · intro s hInv hf hfo hr hl hk hm
    exact gives_of_effect rfl ((easelSlotMissed_eq (s := { s with emitted := [] }) hf hfo hr hl hk).trans (if_pos hm)) hInv.acted
      .of_parts fun t F => F.xfer
  · intro s hInv hf hfo hr hl hk hm hO hs
    have heff := (easelSlotMissed_eq (s := { s with emitted := [] }) hf hfo (.inl hr) hl hk).trans
      ((if_neg (Nat.not_lt.mpr hm)).trans ((if_neg (by rw [others_none (by exact hO)]; simp)).trans (if_pos hr)))
    rw [takeKeeper_empty (by exact hs)] at heff
    exact gives_of_told rfl heff (tellTransfer_noticesOnly ..) hInv.acted .of_parts fun t hx ht _ => ⟨hx, ht⟩
  · intro s b rest hInv hf hfo hr hl hk hm hO hs hLock h1 h2 hRef
    have heff := (easelSlotMissed_eq (s := { s with emitted := [] }) hf hfo (.inl hr) hl hk).trans
      ((if_neg (Nat.not_lt.mpr hm)).trans ((if_neg (by rw [others_none (by exact hO)]; simp)).trans (if_pos hr)))
    obtain ⟨a, ha⟩ := takeKeeper_newer (s := missing { s with emitted := [] }) hs hRef hLock h1 h2
    rw [ha] at heff
    refine gives_of_told rfl heff (tellTransfer_noticesOnly ..) hInv.acted .of_parts fun t hx ht _ => ?_
    rw [hx, ht]
    exact ⟨rfl, rfl⟩
  · exact fun s hInv hf hfo hr hl hk hm hO hs => easelSlotMissed_follower hInv hf hfo hr hl hk hm hO hs
  · intro s n hInv hf hfo hr hl hk hm hO hb
    have heff := (easelSlotMissed_eq (s := { s with emitted := [] }) hf hfo hr hl hk).trans
      ((if_neg (Nat.not_lt.mpr hm)).trans (if_pos (others_some (by exact hO))))
    rw [follow_best (s := ({ s with emitted := [] } : State).setXfer { s.xfer with missed := s.xfer.missed + 1, following := false })
      (n := n) hr ((bestOf_heard (by rfl) _).trans hb) rfl] at heff
    exact gives_of_told rfl heff (tellTransfer_noticesOnly ..) hInv.acted .of_parts fun t hx _ _ => hx
  · intro s n hInv hf hr hh ht hn hrole
    refine gives_of_effect rfl ((snapshotTx_sends (s := { s with emitted := [] }) hf hr hh ht).trans (sendSnapshot_eq ..)) hInv.acted
      .of_parts fun t F => ⟨F.xfer, F.emitted _ (List.mem_map.mpr ⟨n, List.mem_filter.mpr ⟨hn, ?_⟩, rfl⟩)⟩
    rcases hrole with h | h
    · exact (Bool.or_eq_true ..).mpr (.inl (beq_iff_eq.mpr h))
    · exact (Bool.or_eq_true ..).mpr (.inr (beq_iff_eq.mpr h))
  · intro s n b hInv ho hu hb hr hf
    exact gives_of_effect rfl ((snapshotRx_valid (mark := false) (s := { s with emitted := [] }) ho hu hb).trans
      ((if_pos hf).trans ((if_pos hr).trans (if_neg Bool.false_ne_true)))) hInv.acted .of_parts fun t F => F.xfer
  · exact fun s n b hInv ho hu hb hr hf hRef hLock h1 h2 => snapshotRx_handover hInv ho hu hb hr hf hRef hLock h1 h2
  · intro s n mark b hInv ho hu hb hr hf
    exact gives_of_effect rfl ((snapshotRx_valid (mark := mark) (s := { s with emitted := [] }) ho hu hb).trans
      ((if_neg (Bool.eq_false_iff.mp hf)).trans (if_pos hr))) hInv.acted .of_parts fun t F => F.xfer
  · intro s n mark b hInv ho hu hb hQ
    exact gives_of_raise rfl (snapshotRx_invalid (s := { s with emitted := [] }) ho hu hb) hQ hInv.acted rfl rfl rfl .of_parts
      fun t _ N _ => N
  · intro s hInv hf hl ht hh
    exact gives_of_told rfl ((keeperListenEnd_eq (s := { s with emitted := [] }) hf hl ht).trans
      (congrArg (tellTransfer s.xfer) (if_neg (Bool.eq_false_iff.mp hh)))) (tellTransfer_noticesOnly ..) hInv.acted .of_parts
      fun t hx _ _ => hx
  · intro s hInv hf hl ht hh
    obtain ⟨a, b, c, d, hx⟩ := follow_only (({ s with emitted := [] } : State).setXfer { s.xfer with listening := false })
    refine gives_of_told rfl ((keeperListenEnd_eq (s := { s with emitted := [] }) hf hl ht).trans
      (congrArg (tellTransfer s.xfer) ((if_pos hh).trans hx))) (tellTransfer_noticesOnly ..) hInv.acted .of_parts fun t hx _ _ => ?_
    rw [hx]
    exact ⟨rfl, rfl, rfl⟩
  · exact fun s f j hInv hTo hSlots hJob hj hh => handoverPartnerAbsent_gives hInv hTo hSlots hJob hj hh

end Sys2Proof.Machine
end

