-- ==== Sys2Proof/Proofs/Transfer.lean ====
section
/-! SUPPORT. The time-transfer opcodes (04_time_transfer, Tables XFER-9 to XFER-13). -/

namespace Sys2Proof.Machine

set_option Elab.async false

/-! ## Notices behind a request's effect -/

/-- As `gives_of_op`, for an effect that tells what it has changed. -/
theorem gives_of_op_told {i : Instr} {op : Op} {r : Req} {s y z : State} {ch : List Part} {post : State → Prop}
    (hi : exec i s = .next (after (serveRow op r) s)) (h : Accepted op r s) {st d : Nat} {p : Bytes}
    (he : op.effect r { s with emitted := [], hcp := (s.taking op r).hcp } = (z, ⟨st, d, p⟩)) (hn : HcpOnly y z)
    (hk : Keeps ch { s with emitted := [], hcp := (s.taking op r).hcp } y) (hq : y.flt.detected = [])
    (hp : ∀ t, FollowsReq op r s { y with hcp := z.hcp } t → Answered op.code r st d p t → post t)
    (hv : st ≠ 0x0303 ∧ st ≠ 0x0304 ∧ st ≠ 0x0401 := by decide) (hh : Part.hcp ∈ ch := by simp)
    (hl : op.ledger = false ∨ Part.ledger ∈ ch := by first | exact .inl rfl | exact .inr (by simp)) : Gives i s ch post := by
  have hz : z = { y with hcp := z.hcp } := by
    unfold HcpOnly at hn
    rw [hn]
  refine gives_of_op hi h he (hk.trans (hn.keeps.weaken ?_)) (fun t F A => hp t (by rw [← hz]; exact F) A) hv
    ((congrArg Flt.detected hn.flt).trans hq) hh hl
  rintro q hq'
  rw [List.mem_singleton.mp hq']
  exact hh

/-! ## XFER_CONFIG -/

/-- The transfer record with the settings of an XFER_CONFIG. -/
def configured (r : Req) (x : Xfer) : Xfer := { x with
  roleCfg := roleOf (r.u8 0), refMode := r.u8 1, priority := BitVec.ofNat 8 (r.u8 2), easel := BitVec.ofNat 8 (r.u8 3)
  holdoverLimit := BitVec.ofNat 32 (r.u32 4), domain := BitVec.ofNat 8 (r.u8 8) }

/-- The settings of an XFER_CONFIG and its role, before the heartbeat entry follows. -/
def entered (r : Req) (s : State) : State :=
  if s.xfer.roleCfg = roleOf (r.u8 0) then s.setXfer (configured r s.xfer)
  else enterRole (roleOf (r.u8 0)) (s.setXfer (configured r s.xfer))

theorem xferConfig_effect (r : Req) (s : State) :
    opXferConfig.effect r s = (tellTransfer s.xfer (syncHeartbeat (entered r s)), ⟨0, 0, []⟩) := rfl

/-- Only the heartbeat entry comes and goes. -/
theorem syncHeartbeat_only (s : State) : ∃ c, syncHeartbeat s = { s with cal := c } ∧
    (c.entries.any (·.isBeat) = true → s.xfer.easel ≠ 0) ∧
    (s.xfer.easel ≠ 0 → (s.cal.entries.filter (·.fw)).length < 32 → c.entries.any (·.isBeat) = true) := by
  unfold syncHeartbeat
  dsimp only
  by_cases he : s.xfer.easel = 0
  · rw [decide_eq_false (not_not.mpr he), if_neg (by simp)]
    split
    · refine ⟨_, rfl, fun h => ?_, fun h => absurd he h⟩
      obtain ⟨e, hm, hb⟩ := List.any_eq_true.mp h
      have := (List.mem_filter.mp hm).2
      rw [hb] at this
      exact absurd this (by decide)
    case isFalse hn =>
      refine ⟨s.cal, rfl, fun h => absurd ?_ hn, fun h => absurd he h⟩
      rw [h]
      rfl
  · rw [decide_eq_true he]
    cases hb : s.cal.entries.any (·.isBeat) with
    | true => exact ⟨s.cal, rfl, fun _ => he, fun _ _ => hb⟩
    | false =>
      rw [if_pos (by decide)]
      by_cases hr : (s.cal.entries.filter (·.fw)).length < 32
      · rw [firmwareEntry_room hr]
        exact ⟨_, rfl, fun _ => he, fun _ _ => List.any_eq_true.mpr ⟨_, List.mem_append_right _ List.mem_cons_self, rfl⟩⟩
      · refine ⟨s.cal, ?_, fun _ => he, fun _ h => absurd h hr⟩
        unfold firmwareEntry
        rw [if_neg hr]

/-- What pulls the target in changes no more than the target and the servo's mark, and nothing where no lane is time-locked or the
target lies within 100 ppm. -/
theorem holdRate_only (s : State) : ∃ w k c, holdRate s =
    { s with time := { s.time with rateTarget := w, slewTicks := k }, xfer := { s.xfer with clamped := c } } ∧
    (s.anyTimeLocked = false ∨ ((s.time.rateTarget.toNat : Int) - 2 ^ 40).natAbs ≤ 109951162 →
      w = s.time.rateTarget ∧ k = s.time.slewTicks ∧ c = s.xfer.clamped) := by
  by_cases hs : s.anyTimeLocked = false ∨ ((s.time.rateTarget.toNat : Int) - 2 ^ 40).natAbs ≤ 109951162
  · exact ⟨_, _, _, holdRate_leaves hs, fun _ => ⟨rfl, rfl, rfl⟩⟩
  · unfold holdRate
    dsimp only
    split
    · obtain ⟨w, c, he⟩ := steerRate_eq (wanted := s.time.rateTarget.toNat) (lim := ppm500) (s := s) (by decide) (by decide)
      exact ⟨w, 0, c, he, fun h => absurd h hs⟩
    · exact ⟨_, _, _, rfl, fun h => absurd h hs⟩

theorem enterRole_host (s : State) : ∃ w k c, enterRole .host s = { s with
      time := { s.time with rateTarget := w, slewTicks := k }
      xfer := { s.xfer with
        clamped := c, roleAct := .host, servo := .idle, listening := false, following := false, missed := 0
        lockCount := 0, bigCount := 0, qualCount := 0 } } ∧
    (s.anyTimeLocked = false → w = s.time.rateEff ∧ k = s.time.slewTicks) := by
  obtain ⟨w, k, c, hh, hw⟩ := holdRate_only { s with time := { s.time with rateTarget := s.time.rateEff } }
  refine ⟨w, k, c, ?_, fun hl => ⟨(hw (.inl hl)).1, (hw (.inl hl)).2.1⟩⟩
  unfold enterRole
  dsimp only
  rw [hh]
  rfl

theorem enterRole_keeper (s : State) : ∃ h k, enterRole .keeper s = s.setXfer { s.xfer with
    roleAct := .partner, listening := true, listenTick := k, heardKeeper := h
    servo := if s.xfer.servo = .idle then .acquire else s.xfer.servo, lockCount := 0, bigCount := 0, qualCount := 0 } := by
  refine ⟨false, s.tick, ?_⟩
  unfold enterRole
  dsimp only
  by_cases hv : s.xfer.servo = .idle
  · rw [if_pos hv]
    exact (if_pos hv).trans rfl
  · rw [if_neg hv]
    exact (if_neg hv).trans rfl

/-- Any other role is acted at once. -/
theorem enterRole_acts {role : Role} (h1 : role ≠ .host) (h2 : role ≠ .keeper) (s : State) : ∃ a b c d,
    enterRole role s = s.setXfer { s.xfer with
      roleAct := role, listening := false, servo := if s.xfer.servo = .idle then .acquire else s.xfer.servo
      lockCount := 0, bigCount := 0, qualCount := 0, following := a, hubIdF := b, priorityF := c, missed := d } := by
  have key : ∀ f, ∃ a b c d, follow (s.setXfer { s.xfer with
      roleAct := role, listening := false, missed := 0, following := f
      servo := if s.xfer.servo = .idle then .acquire else s.xfer.servo, lockCount := 0, bigCount := 0, qualCount := 0 }) =
    s.setXfer { s.xfer with
      roleAct := role, listening := false, servo := if s.xfer.servo = .idle then .acquire else s.xfer.servo
      lockCount := 0, bigCount := 0, qualCount := 0, following := a, hubIdF := b, priorityF := c, missed := d } := by
    intro f
    obtain ⟨a, b, c, d, hf⟩ := follow_only (s.setXfer { s.xfer with
      roleAct := role, listening := false, missed := 0, following := f
      servo := if s.xfer.servo = .idle then .acquire else s.xfer.servo, lockCount := 0, bigCount := 0, qualCount := 0 })
    exact ⟨a, b, c, d, hf⟩
  obtain ⟨a, b, c, d, hf⟩ := key (s.xfer.following && role != .standalone)
  refine ⟨a, b, c, d, Eq.trans ?_ hf⟩
  have hserve : (if s.xfer.servo = .idle then setServo .acquire (s.setXfer { s.xfer.anew with
      roleAct := role, listening := false, missed := 0, following := s.xfer.following && role != .standalone })
      else s.setXfer { s.xfer.anew with
        roleAct := role, listening := false, missed := 0, following := s.xfer.following && role != .standalone }) =
      s.setXfer { s.xfer with
        roleAct := role, listening := false, missed := 0, following := s.xfer.following && role != .standalone
        servo := if s.xfer.servo = .idle then .acquire else s.xfer.servo, lockCount := 0, bigCount := 0, qualCount := 0 } := by
    by_cases hv : s.xfer.servo = .idle
    · rw [if_pos hv, if_pos hv]
      rfl
    · rw [if_neg hv, if_neg hv]
      rfl
  cases role
  case host => exact absurd rfl h1
  case keeper => exact absurd rfl h2
  all_goals exact congrArg follow hserve

/-- What the settings and the role of an XFER_CONFIG make of the hub. -/
structure Enters (r : Req) (s u : State) : Prop where
  only : ∃ tm x, u = { s with time := tm, xfer := x }
  ptp : u.xfer.ptp = s.xfer.ptp
  settings : u.xfer.roleCfg = roleOf (r.u8 0) ∧ u.xfer.refMode = r.u8 1 ∧ u.xfer.priority = BitVec.ofNat 8 (r.u8 2) ∧
    u.xfer.easel = BitVec.ofNat 8 (r.u8 3) ∧ u.xfer.holdoverLimit = BitVec.ofNat 32 (r.u32 4) ∧
    u.xfer.domain = BitVec.ofNat 8 (r.u8 8)
  same : s.xfer.roleCfg = roleOf (r.u8 0) → u.xfer.roleAct = s.xfer.roleAct ∧ u.xfer.servo = s.xfer.servo ∧ u.time = s.time
  role : s.xfer.roleCfg ≠ roleOf (r.u8 0) → u.xfer.lockCount = 0 ∧ u.xfer.bigCount = 0 ∧ u.xfer.qualCount = 0 ∧
    u.xfer.roleAct = (if roleOf (r.u8 0) = .keeper then .partner else roleOf (r.u8 0)) ∧
    u.xfer.listening = decide (roleOf (r.u8 0) = .keeper) ∧
    u.xfer.servo = (if roleOf (r.u8 0) = .host then .idle else if s.xfer.servo = .idle then .acquire else s.xfer.servo)
  time : roleOf (r.u8 0) ≠ .host → u.time = s.time
  host : roleOf (r.u8 0) = .host → s.xfer.roleCfg ≠ .host → s.anyTimeLocked = false →
    u.time = { s.time with rateTarget := s.time.rateEff }

theorem entered_enters (r : Req) (s : State) : Enters r s (entered r s) := by
  unfold entered
  by_cases hc : s.xfer.roleCfg = roleOf (r.u8 0)
  · rw [if_pos hc]
    exact {
      only := ⟨_, _, rfl⟩, ptp := rfl, settings := ⟨rfl, rfl, rfl, rfl, rfl, rfl⟩, same := fun _ => ⟨rfl, rfl, rfl⟩
      role := fun h => absurd hc h, time := fun _ => rfl, host := fun h hn => absurd (hc.trans h) hn }
  · rw [if_neg hc]
    rcases eq_or_ne (roleOf (r.u8 0)) .host with hr | h1
    · obtain ⟨w, k, c, he, hw⟩ := enterRole_host (s.setXfer (configured r s.xfer))
      rw [hr, he]
      exact {
        only := ⟨_, _, rfl⟩, ptp := rfl, settings := ⟨rfl, rfl, rfl, rfl, rfl, rfl⟩, same := fun h => absurd h hc
        role := fun _ => by rw [hr]; exact ⟨rfl, rfl, rfl, rfl, rfl, rfl⟩, time := fun h => absurd hr h
        host := fun _ _ hl => by obtain ⟨h1, h2⟩ := hw hl; rw [h1, h2]; rfl }
    rcases eq_or_ne (roleOf (r.u8 0)) .keeper with hr | h2
    · obtain ⟨h, k, he⟩ := enterRole_keeper (s.setXfer (configured r s.xfer))
      rw [hr, he]
      exact {
        only := ⟨_, _, rfl⟩, ptp := rfl, settings := ⟨rfl, rfl, rfl, rfl, rfl, rfl⟩, same := fun h => absurd h hc
        role := fun _ => by rw [hr]; exact ⟨rfl, rfl, rfl, rfl, rfl, rfl⟩, time := fun _ => rfl, host := fun h => absurd h h1 }
    · obtain ⟨a, b, c, d, he⟩ := enterRole_acts h1 h2 (s.setXfer (configured r s.xfer))
      rw [he]
      exact {
        only := ⟨_, _, rfl⟩, ptp := rfl, settings := ⟨rfl, rfl, rfl, rfl, rfl, rfl⟩, same := fun h => absurd h hc
        role := fun _ => by rw [if_neg h2, if_neg h1, decide_eq_false h2]; exact ⟨rfl, rfl, rfl, rfl, rfl, rfl⟩
        time := fun _ => rfl, host := fun h => absurd h h1 }

theorem anyTimeLocked_same {s t : State} (hl : t.lanes = s.lanes) (hb : t.bgls = s.bgls) (hu : t.upl = s.upl)
    (hp : t.xfer.ptp = s.xfer.ptp) : t.anyTimeLocked = s.anyTimeLocked := by
  unfold State.anyTimeLocked State.timeLocked State.txPll State.laneBgl State.lanePort State.syncTx State.lane State.ptp
  rw [hl, hb, hu, hp]

/-! ## The asymmetry table -/

theorem setAsym_entry (i : Nat) (e : Bytes) (s : State) (k : Nat) :
    (s.setAsym i e).asymEntry k = if k = i then e else s.asymEntry k := by
  unfold State.setAsym State.asymEntry State.setXfer
  dsimp only
  split
  case isTrue h => rw [h, tget_tset_self]
  case isFalse h => rw [tget_tset_ne _ _ _ _ _ h]

/-- Entries written one after another from a place on. -/
theorem forEach_setAsym (o : Nat) (f : Nat → Bytes) (s : State) : ∀ n : Nat,
    (∃ a, forEach (List.range n) (fun i t => t.setAsym (o + i) (f i)) s = s.setXfer { s.xfer with asym := a }) ∧
    ∀ k, (forEach (List.range n) (fun i t => t.setAsym (o + i) (f i)) s).asymEntry k =
      if o ≤ k ∧ k < o + n then f (k - o) else s.asymEntry k
  | 0 => ⟨⟨_, rfl⟩, fun k => (if_neg (by omega)).symm⟩
  | n + 1 => by
    have hstep : forEach (List.range (n + 1)) (fun i t => t.setAsym (o + i) (f i)) s =
        (forEach (List.range n) (fun i t => t.setAsym (o + i) (f i)) s).setAsym (o + n) (f n) := by
      unfold forEach
      rw [List.range_succ, List.foldl_append]
      rfl
    obtain ⟨⟨a, ha⟩, hk⟩ := forEach_setAsym o f s n
    refine ⟨⟨tset (zeros 16) a (o + n) (f n), by rw [hstep, ha]; rfl⟩, fun k => ?_⟩
    rw [hstep, setAsym_entry, hk]
    by_cases he : k = o + n
    · rw [if_pos he, if_pos (by omega), he, Nat.add_sub_cancel_left]
    · rw [if_neg he]
      by_cases hin : o ≤ k ∧ k < o + n
      · rw [if_pos hin, if_pos (by omega)]
      · rw [if_neg hin, if_neg (by omega)]

/-- The port that a PTP_PORT_CONFIG names. -/
def portKey (r : Req) : Nat := if r.u8 0 = 0 then r.u8 1 else if r.u8 0 = 1 then 48 else 64 + r.u8 1

/-- Settles O30. -/
theorem transferOpcodesActAndReport : Obligations.TransferOpcodesActAndReport := by
  unfold Obligations.TransferOpcodesActAndReport
  refine ⟨?_, ?_, ?_, ?_, ?_, ?_, ?_⟩
  · intro s r h
    have E := entered_enters r { s with emitted := [], hcp := (s.taking opXferConfig r).hcp }
    obtain ⟨tm, x, hu⟩ := E.only
    obtain ⟨c, hc, hbeat, hbeats⟩ := syncHeartbeat_only (entered r { s with emitted := [], hcp := (s.taking opXferConfig r).hcp })
    have heff := xferConfig_effect r { s with emitted := [], hcp := (s.taking opXferConfig r).hcp }
    generalize entered r { s with emitted := [], hcp := (s.taking opXferConfig r).hcp } = u at *
    have hk : Keeps [.hcp, .xfer, .time, .cal, .ledger] { s with emitted := [], hcp := (s.taking opXferConfig r).hcp } (syncHeartbeat u) := by
      rw [hc, hu]
      exact .of_parts
    have hflt : (syncHeartbeat u).flt = s.flt := by rw [hc, hu]
    have hx : (syncHeartbeat u).xfer = u.xfer := by rw [hc]
    have htm : (syncHeartbeat u).time = u.time := by rw [hc]
    have hcal : (syncHeartbeat u).cal = c := by rw [hc]
    have hlock : ∀ t, FollowsReq opXferConfig r s { syncHeartbeat u with hcp := (tellTransfer s.xfer (syncHeartbeat u)).hcp } t →
        t.anyTimeLocked = s.anyTimeLocked := fun t F =>
      anyTimeLocked_same (F.lanes.trans (by rw [hc, hu])) (F.bgls.trans (by rw [hc, hu])) (F.upl.trans (by rw [hc, hu]))
        ((congrArg Xfer.ptp (F.xfer.trans hx)).trans E.ptp)
    refine gives_of_op_told rfl h heff (tellTransfer_noticesOnly ..).hcpOnly hk (by rw [hflt]; exact h.acted) fun t F A => ?_
    obtain ⟨h1, h2, h3, h4, h5, h6⟩ := E.settings
    have hxt : t.xfer = u.xfer := F.xfer.trans hx
    have htt : t.time = { u.time with sec := s.time.sec, ns := s.time.ns, frac40 := s.time.frac40 } := by
      rw [F.time]
      exact congrArg (fun x : TimeSt => { x with sec := s.time.sec, ns := s.time.ns, frac40 := s.time.frac40 }) htm
    have hct : t.cal = c := F.cal.trans hcal
    rw [hlock t F, hxt, htt, hct]
    refine ⟨h1, h2, h3, h4, h5, h6, A, fun hr => ?_, E.role, fun hr => ?_, fun hr hn hl => ?_, hbeat, fun he hr => hbeats he ?_⟩
    · obtain ⟨ha, hv, ht⟩ := E.same hr
      exact ⟨ha, hv, by rw [ht]⟩
    · rw [E.time hr]
    · rw [E.host hr hn hl]
    · rw [hu]
      exact hr
  · intro s r h
    exact reports_of_op rfl h rfl
  · intro s r h
    obtain ⟨w, k, c, hh, hw⟩ := holdRate_only (({ s with emitted := [], hcp := (s.taking opPtpPortConfig r).hcp } : State).setPtp
      (portKey r) { s.ptp (portKey r) with settings := r.bytes 0 12 })
    refine gives_of_op rfl h (Prod.ext hh rfl) .of_parts fun t F A => ⟨?_, fun h1 h2 => ?_, A⟩
    · rw [F.xfer]
      rfl
    · obtain ⟨h3, h4, h5⟩ := hw (.inr (by
        show ((s.time.rateTarget.toNat : Int) - 2 ^ 40).natAbs ≤ 109951162
        omega))
      rw [F.xfer, F.time, h3, h4, h5]
      exact ⟨rfl, rfl⟩
  · intro s r h
    obtain ⟨⟨a, ha⟩, hk⟩ := forEach_setAsym (r.u8 0) (fun i => r.bytes (4 + 16 * i) 16)
      { s with emitted := [], hcp := (s.taking opAsymWrite r).hcp } (r.u8 1)
    refine gives_of_op rfl h (Prod.ext ha rfl) .of_parts fun t F A => ⟨fun i => Eq.trans ?_ (hk i), by rw [F.xfer], A⟩
    rw [ha]
    exact congrArg (fun x : Xfer => tget (zeros 16) x.asym i) F.xfer
  · intro s r h
    exact reports_of_op rfl h rfl
  · intro s r h
    exact gives_of_op rfl h rfl .of_parts fun t F A => ⟨F.xfer, A⟩
  · intro s r h
    exact gives_of_op rfl h rfl .of_parts fun t F A => ⟨F.cal, A⟩

end Sys2Proof.Machine
end

