-- ==== Sys2Proof/Proofs/Lanes.lean ====
section
/-! SUPPORT. Serial lanes (05_lanes). -/

namespace Sys2Proof.Machine

set_option Elab.async false

/-! ## LANE_REEQ of a port in UP whose fault asks for a chip reset -/

/-- A hub that serves: mailbox 0 is open, uplink port 0 is UP on lane 0, and the reaction byte of its PORT_DOWN (block 12, source 0)
asks for a chip reset. -/
def resettingPort : State :=
  { chip := { phase := .serving, fwRunning := true }
    hcp := { mbs := [(0, { enable := true, session := .opened })] }
    lanes := [(0, { protocol := 3, rate := 10312500, txPower := 0, rxPower := 0, signal := true, cdr := true, aligned := true })]
    upl := { ports := [(0, { state := .up, protocol := 3 })] }
    flt := { blocks := [(12, { react := [(0, 0x20)] })] } }

/-- LANE_REEQ of lane 0. -/
def reeqLane0 : Req := { mb := 0, flags := 0, hostSeq := 3, tag := 7, time := zeros 10, payload := zeros 4 }

theorem resettingPort_accepts : Accepted opLaneReeq reeqLane0 resettingPort :=
  ⟨by decide, by decide, by decide, by decide +kernel, fun _ => ⟨by decide, by decide +kernel⟩⟩

/-- The port's fall resets the chip. -/
theorem resettingPort_resets : (after (serveRow opLaneReeq reeqLane0) resettingPort).chip.phase = .reset := by decide +kernel

/-- Refutes O31: a LANE_REEQ that takes a port out of UP is not always answered. The port's fault may ask for a chip reset. -/
theorem not_lanesAreConfiguredPoweredAndEqualised : ¬ Obligations.LanesAreConfiguredPoweredAndEqualised := by
  unfold Obligations.LanesAreConfiguredPoweredAndEqualised
  intro h
  obtain ⟨-, -, -, -, -, -, -, hUp, -⟩ := h
  obtain ⟨t, ht, hkeeps, -⟩ := hUp resettingPort reeqLane0 0 resettingPort_accepts (by decide) (by decide)
  have hrun : exec (.laneReeq reeqLane0) resettingPort = .next (after (serveRow opLaneReeq reeqLane0) resettingPort) := rfl
  rw [← Host.Outcome.next.inj (hrun.symm.trans ht)] at hkeeps
  have hphase := (congrArg Chip.phase (hkeeps .chip (by decide))).symm.trans resettingPort_resets
  exact absurd hphase (by decide)

end Sys2Proof.Machine
end

