-- ==== Sys2Proof/Proofs/BamgiuskLinks.lean ====
section
/-! SUPPORT. Bamgiusk Links (05_lanes, Table LANE-4). -/

namespace Sys2Proof.Machine

set_option Elab.async false

/-- Fault blocks whose reaction bytes are all 0: no source asks for a reset. -/
def calmBlocks : List (Nat × FaultBlock) :=
  (List.range 17).map fun b => (b, { react := (List.range 64).map fun n => (n, 0) })

/-! ## A link in UP whose converter input is not aligned, with a running channel bound to it -/

/-- A hub that serves: Bamgiusk Link 0 is in UP, its converter input is LOST, and channel 0, bound to it, runs (it substitutes). -/
def lostInput : State :=
  { chip := { phase := .serving, fwRunning := true }
    bgls := [(0, { state := .up, mode := 1, width := 1 })]
    bglIns := [(0, { base := { state := .lost } })]
    channels := [(0, { state := .running, kind := 2, source := 0 })]
    flt := { blocks := calmBlocks } }

theorem lostInput_noResets : lostInput.NoResets := by
  unfold State.NoResets
  decide +kernel

/-- The channel runs on when the link goes down: its input has nothing more to lose. -/
theorem lostInput_runs_on : ((after (bglLinkDown 0) lostInput).chan 0).state = .running := by decide +kernel

/-- Refutes O32: a link's fall does not stop the running channels of an input that was not aligned. Link 0 falls from UP while its
input is LOST, and channel 0, bound to it, stays RUNNING. -/
theorem not_bamgiuskLinksComeUpAndGoDown : ¬ Obligations.BamgiuskLinksComeUpAndGoDown := by
  unfold Obligations.BamgiuskLinksComeUpAndGoDown
  intro h
  obtain ⟨-, -, -, -, -, -, -, -, -, -, -, -, -, -, hDown⟩ := h
  have hInv : lostInput.Inv := ⟨by unfold TimeSt.ok; decide, rfl⟩
  obtain ⟨t, ht, -, -, -, -, hrunning⟩ := hDown lostInput 0 hInv (by decide) lostInput_noResets (by decide)
  have hrun : exec (.bglLinkDown 0) lostInput = .next (after (bglLinkDown 0) lostInput) := rfl
  have hend : t = after (bglLinkDown 0) lostInput := (Host.Outcome.next.inj (hrun.symm.trans ht)).symm
  exact hrunning 0 (by decide) (hend ▸ lostInput_runs_on)

end Sys2Proof.Machine
end

