-- ==== Sys2Proof/Proofs/RawAlignment.lean ====
section
/-! SUPPORT. Bit-slips, raw captures and PRBS checks (05_lanes, Tables LANE-11 and LANE-12). -/

namespace Sys2Proof.Machine

set_option Elab.async false

theorem lane_setLane_self (s : State) (l : Nat) (x : Lane) : (s.setLane l x).lane l = x := tget_tset_self ..

theorem lane_setLane_ne (s : State) {l k : Nat} (x : Lane) (h : k ≠ l) : (s.setLane l x).lane k = s.lane k :=
  tget_tset_ne _ _ _ _ _ h

/-! ## Bit-slips and raw words -/

theorem slipAt_slipBy (kind port n count : Nat) (s : State) :
    (slipBy kind port n count s).slipAt kind port n =
      if kind = 0 then ((s.lane n).slip + count) % 66 else (tget 0 (s.scp port).slip n + count) % 64 := by
  by_cases hk : kind = 0
  · unfold slipBy State.slipAt
    rw [if_pos hk, if_pos hk, if_pos hk, lane_setLane_self]
  · unfold slipBy State.slipAt State.setScp State.scp
    rw [if_neg hk, if_neg hk, if_neg hk, tget_tset_self, tget_tset_self, if_neg (by decide : ¬ (1 : Nat) = 0)]

theorem length_flatMap_le (f : Nat → Nat) : ∀ xs : List Nat, (xs.flatMap fun i => le 4 (f i)).length = 4 * xs.length
  | [] => rfl
  | x :: xs => by
    rw [List.flatMap_cons, List.length_append, length_le, length_flatMap_le f xs, List.length_cons]
    omega

theorem length_padTo {n : Nat} {b : Bytes} (h : b.length ≤ n) : (padTo n b).length = n := by
  unfold padTo zeros
  rw [List.length_append, List.length_replicate]
  omega

/-- A raw capture draws its 36 bytes and changes nothing else. -/
theorem rawWords_only (kind bits : Nat) (s : State) :
    ∃ w k, rawWords kind bits s = (w, { s with freeCount := k }) ∧ w.length = 36 := by
  unfold rawWords
  split
  · exact ⟨_, _, rfl, length_padTo (by rw [length_le]; omega)⟩
  · exact ⟨_, _, rfl, length_padTo (by rw [length_flatMap_le, List.length_range]; omega)⟩

/-- RAW_CAPTURE draws its words; a data line's are compared with the test word. -/
theorem rawCapture_effect {r : Req} {s : State} {w : Bytes} {k : Nat}
    (hw : rawWords (r.u8 0) (s.scp (r.u8 1)).slotBits s = (w, { s with freeCount := k })) :
    opLaneRawCapture.effect r s = ({ s with freeCount := k }, ansDone (le 1 (s.slipAt (r.u8 0) (r.u8 1) (r.u16 2))
      ++ le 1 (if r.u8 0 = 0 then 0 else mask ((List.range 4).map fun i => getU w (4 * i) 4 == (s.scp (r.u8 1)).testWord.toNat))
      ++ zeros 2 ++ w)) := by
  unfold opLaneRawCapture
  dsimp only
  rw [hw]

/-! ## RAW_COMMIT -/

/-- Lane i of a link with the polarity that the marker shows. -/
def fixedLane (first : Nat) (d : Nat) (i : Nat) (t : State) : State :=
  t.setLane (first + i) { t.lane (first + i) with
    signal := true, cdr := true, aligned := true, inverted := bit (Config.freeWord d).toNat i }

theorem fixPolarity_eq (b : Bgl) (s : State) : fixPolarity b s =
    forEach (List.range b.width) (fixedLane b.first s.freeCount) { s with freeCount := s.freeCount + 1 } := rfl

theorem forEach_range_succ {f : Nat → State → State} (n : Nat) (s : State) :
    forEach (List.range (n + 1)) f s = f n (forEach (List.range n) f s) := by
  unfold forEach
  rw [List.range_succ, List.foldl_append]
  rfl

/-- The lanes of the link are aligned with some polarity; nothing else changes. -/
theorem forEach_fixedLane (first d : Nat) (s : State) : ∀ n, ∃ L,
    forEach (List.range n) (fixedLane first d) s = { s with lanes := L } ∧
    ∀ l, tget {} L l = if first ≤ l ∧ l < first + n then
      { s.lane l with signal := true, cdr := true, aligned := true, inverted := (tget ({} : Lane) L l).inverted }
      else s.lane l
  | 0 => ⟨s.lanes, rfl, fun l => by rw [if_neg (by omega)]; rfl⟩
  | n + 1 => by
    obtain ⟨L, hL, hget⟩ := forEach_fixedLane first d s n
    rw [forEach_range_succ, hL]
    refine ⟨_, rfl, fun l => ?_⟩
    by_cases hl : l = first + n
    · subst hl
      have hold : tget {} L (first + n) = s.lane (first + n) := by rw [hget, if_neg (by omega)]
      rw [if_pos (by omega)]
      simp only [State.lane, tget_tset_self]
      rw [hold]
      rfl
    · dsimp only
      rw [tget_tset_ne _ _ _ _ _ hl, hget]
      by_cases hin : first ≤ l ∧ l < first + n
      · rw [if_pos hin, if_pos (by omega)]
      · rw [if_neg hin, if_neg (by omega)]

/-! ## The checker's counts -/

/-- Bringing the counts up to date: the checked bits are those of the line rate, the errors are free while the checker is locked. -/
theorem countPrbs_only (l : Nat) (s : State) : ∃ k L p, countPrbs l s = { s with freeCount := k, lanes := L } ∧
    tget {} L l = { s.lane l with prbs := p } ∧ (∀ j, j ≠ l → tget {} L j = s.lane j) ∧
    p = { (s.lane l).checked s.tick with errors := p.errors } ∧
    ((s.lane l).prbs.locked = false → p.errors = (s.lane l).prbs.errors) := by
  unfold countPrbs Lane.checked Lane.newBits
  by_cases hc : (s.lane l).prbs.locked = true ∧ (s.lane l).reeq = none
  · rw [if_pos ⟨hc.1, by rw [hc.2]; rfl⟩, if_pos hc]
    exact ⟨_, _, _, rfl, tget_tset_self .., fun j hj => tget_tset_ne _ _ _ _ _ hj, rfl,
      fun h => absurd (hc.1.symm.trans h) (by decide)⟩
  · rw [if_neg fun h => hc ⟨h.1, Option.isNone_iff_eq_none.mp h.2⟩, if_neg hc]
    exact ⟨s.freeCount, s.lanes, (s.lane l).prbs, rfl, rfl, fun _ _ => rfl, rfl, fun _ => rfl⟩

theorem checked_fields (x : Lane) (tick : Nat) : (x.checked tick).locked = x.prbs.locked ∧
    (x.checked tick).inverted = x.prbs.inverted ∧ (x.checked tick).losses = x.prbs.losses ∧
    (x.checked tick).since = x.prbs.since ∧ (x.checked tick).rx = x.prbs.rx := by
  unfold Lane.checked
  split
  · exact ⟨rfl, rfl, rfl, rfl, rfl⟩
  · exact ⟨rfl, rfl, rfl, rfl, rfl⟩

theorem checked_of_counting {x : Lane} (tick : Nat) (hl : x.prbs.locked = true) (hr : x.reeq = none) : x.checked tick =
    { x.prbs with bits := x.prbs.bits + BitVec.ofNat 64 (x.newBits tick), countTick := tick } :=
  if_pos ⟨hl, hr⟩

/-- PRBS_CONFIG's new settings of a checker whose counts are up to date. -/
def prbsSet (r : Req) (now : T16) (x : Lane) : Prbs :=
  let same := x.prbs.rx == r.u8 3 && x.rate == r.u32 4
  let p := { x.prbs with tx := r.u8 2, rx := r.u8 3, locked := x.prbs.locked && same, inverted := x.prbs.inverted && same }
  if bit (r.u8 8) 1 then { p with losses := 0, bits := 0, errors := 0, since := now } else p

/-- The state that PRBS_CONFIG writes its lane in: with the flipped bit, where it asks for one. -/
def flipped (r : Req) (s : State) : State :=
  if bit (r.u8 8) 0 ∧ r.u8 2 ≠ 0 ∧ (s.lane (r.u16 0)).txPower = 0 then s.emit (.prbsFlip (r.u16 0)) else s

theorem flipped_only (r : Req) (s : State) : ∃ e, flipped r s = { s with emitted := e } := by
  unfold flipped
  split
  · exact ⟨_, rfl⟩
  · exact ⟨_, rfl⟩

theorem prbsConfig_effect (r : Req) (s : State) : opPrbsConfig.effect r s =
    ((flipped r (countPrbs (r.u16 0) s)).setLane (r.u16 0) { (countPrbs (r.u16 0) s).lane (r.u16 0) with
      rate := r.u32 4, prbs := prbsSet r (flipped r (countPrbs (r.u16 0) s)).now ((countPrbs (r.u16 0) s).lane (r.u16 0)) },
      ansDone []) := rfl

/-- What PRBS_CONFIG makes of a checker: the patterns are taken, its lock stays where pattern and rate do. -/
theorem prbsSet_spec (r : Req) (now : T16) (x : Lane) : (prbsSet r now x).tx = r.u8 2 ∧ (prbsSet r now x).rx = r.u8 3 ∧
    (prbsSet r now x).locked = (x.prbs.locked && decide (x.prbs.rx = r.u8 3 ∧ x.rate = r.u32 4)) ∧
    (prbsSet r now x).inverted = (x.prbs.inverted && decide (x.prbs.rx = r.u8 3 ∧ x.rate = r.u32 4)) ∧
    (if bit (r.u8 8) 1 then (prbsSet r now x).losses = 0 ∧ (prbsSet r now x).bits = 0 ∧ (prbsSet r now x).errors = 0 ∧
        (prbsSet r now x).since = now
      else (prbsSet r now x).losses = x.prbs.losses ∧ (prbsSet r now x).since = x.prbs.since ∧
        (prbsSet r now x).bits = x.prbs.bits) := by
  have hs : (x.prbs.rx == r.u8 3 && x.rate == r.u32 4) = decide (x.prbs.rx = r.u8 3 ∧ x.rate = r.u32 4) := by
    rw [Bool.decide_and]
    rfl
  unfold prbsSet
  rw [hs]
  cases bit (r.u8 8) 1
  · exact ⟨rfl, rfl, rfl, rfl, rfl, rfl, rfl⟩
  · exact ⟨rfl, rfl, rfl, rfl, rfl, rfl, rfl, rfl⟩

/-- PRBS_CONFIG changes its lane and sends the flipped bit. -/
theorem prbsConfig_only (r : Req) (s : State) : ∃ k L e p,
    opPrbsConfig.effect r s = ({ s with freeCount := k, lanes := L, emitted := e }, ansDone []) ∧
    tget {} L (r.u16 0) = { s.lane (r.u16 0) with rate := r.u32 4, prbs := p } ∧
    (∀ j, j ≠ r.u16 0 → tget {} L j = s.lane j) ∧ p.tx = r.u8 2 ∧ p.rx = r.u8 3 ∧
    p.locked = ((s.lane (r.u16 0)).prbs.locked && decide ((s.lane (r.u16 0)).prbs.rx = r.u8 3 ∧ (s.lane (r.u16 0)).rate = r.u32 4)) ∧
    p.inverted = ((s.lane (r.u16 0)).prbs.inverted &&
      decide ((s.lane (r.u16 0)).prbs.rx = r.u8 3 ∧ (s.lane (r.u16 0)).rate = r.u32 4)) ∧
    (if bit (r.u8 8) 1 then p.losses = 0 ∧ p.bits = 0 ∧ p.errors = 0 ∧ p.since = s.now
      else p.losses = (s.lane (r.u16 0)).prbs.losses ∧ p.since = (s.lane (r.u16 0)).prbs.since ∧
        p.bits = ((s.lane (r.u16 0)).checked s.tick).bits) ∧
    (bit (r.u8 8) 0 = true → r.u8 2 ≠ 0 → (s.lane (r.u16 0)).txPower = 0 → Emission.prbsFlip (r.u16 0) ∈ e) := by
  obtain ⟨k, L, p, hc, hself, hne, hp, -⟩ := countPrbs_only (r.u16 0) s
  have heff := prbsConfig_effect r s
  rw [hc] at heff
  obtain ⟨e, he⟩ := flipped_only r { s with freeCount := k, lanes := L }
  have hlane : State.lane { s with freeCount := k, lanes := L } (r.u16 0) = { s.lane (r.u16 0) with prbs := p } := hself
  rw [he, hlane] at heff
  obtain ⟨h1, h2, h3, h4, h5⟩ := prbsSet_spec r s.now { s.lane (r.u16 0) with prbs := p }
  obtain ⟨hlk, hiv, hls, hsn, hrx⟩ := checked_fields (s.lane (r.u16 0)) s.tick
  have hpf : p.locked = ((s.lane (r.u16 0)).checked s.tick).locked ∧ p.inverted = ((s.lane (r.u16 0)).checked s.tick).inverted ∧
      p.losses = ((s.lane (r.u16 0)).checked s.tick).losses ∧ p.since = ((s.lane (r.u16 0)).checked s.tick).since ∧
      p.rx = ((s.lane (r.u16 0)).checked s.tick).rx ∧ p.bits = ((s.lane (r.u16 0)).checked s.tick).bits := by
    rw [hp]
    exact ⟨rfl, rfl, rfl, rfl, rfl, rfl⟩
  obtain ⟨g1, g2, g3, g4, g5, g6⟩ := hpf
  dsimp only at h3 h4 h5
  rw [g1, g5, hlk, hrx] at h3
  rw [g2, g5, hiv, hrx] at h4
  rw [g3, g4, g6, hls, hsn] at h5
  refine ⟨k, _, e, _, heff, tget_tset_self .., fun j hj => ?_, h1, h2, h3, h4, h5, fun a b c => ?_⟩
  · exact (tget_tset_ne _ _ _ _ _ hj).trans (hne j hj)
  · have hx : (flipped r { s with freeCount := k, lanes := L }).emitted = e := by rw [he]
    rw [← hx]
    unfold flipped
    rw [if_pos ⟨a, b, by rw [hlane]; exact c⟩]
    exact emit_mem ..

/-- The bytes of PRBS_READ, from a checker. -/
def prbsBytes (l : Nat) (p : Prbs) : Bytes :=
  le 2 l ++ le 1 (mask [p.locked, p.inverted]) ++ zeros 1 ++ le 4 p.losses.toNat ++ le 8 p.bits.toNat
    ++ le 8 p.errors.toNat ++ ts96 p.since ++ zeros 4

theorem prbsBytes_errors (l : Nat) (p : Prbs) : getU (prbsBytes l p) 16 8 = p.errors.toNat := by
  have hsplit : prbsBytes l p = (le 2 l ++ le 1 (mask [p.locked, p.inverted]) ++ zeros 1 ++ le 4 p.losses.toNat
      ++ le 8 p.bits.toNat) ++ (le 8 p.errors.toNat ++ (ts96 p.since ++ zeros 4)) := by
    unfold prbsBytes
    simp only [List.append_assoc]
  have h16 : (le 2 l ++ le 1 (mask [p.locked, p.inverted]) ++ zeros 1 ++ le 4 p.losses.toNat ++ le 8 p.bits.toNat).length = 16 := by
    simp only [List.length_append, length_le, zeros, List.length_replicate]
  rw [hsplit, ← h16, getU_append]
  exact getU_le_append 8 _ (by rw [show 256 ^ 8 = 2 ^ 64 from rfl]; exact p.errors.isLt)

/-- PRBS_READ reports the counts up to now and clears them where it is asked to. -/
theorem prbsRead_only (r : Req) (s : State) : ∃ k L b,
    opPrbsRead.effect r s = ({ s with freeCount := k, lanes := L }, ansDone b) ∧
    b = le 2 (r.u16 0) ++ le 1 (mask [(s.lane (r.u16 0)).prbs.locked, (s.lane (r.u16 0)).prbs.inverted]) ++ zeros 1
      ++ le 4 (s.lane (r.u16 0)).prbs.losses.toNat ++ le 8 ((s.lane (r.u16 0)).checked s.tick).bits.toNat
      ++ le 8 (getU b 16 8) ++ ts96 (s.lane (r.u16 0)).prbs.since ++ zeros 4 ∧
    ((s.lane (r.u16 0)).prbs.locked = false → getU b 16 8 = (s.lane (r.u16 0)).prbs.errors.toNat) ∧
    (∀ j, j ≠ r.u16 0 → tget {} L j = s.lane j) ∧
    tget {} L (r.u16 0) = (if bit (r.u8 2) 0 then
        { s.lane (r.u16 0) with prbs := { (s.lane (r.u16 0)).checked s.tick with losses := 0, bits := 0, errors := 0, since := s.now } }
      else { s.lane (r.u16 0) with
        prbs := { (s.lane (r.u16 0)).checked s.tick with errors := BitVec.ofNat 64 (getU b 16 8) } }) := by
  obtain ⟨k, L, p, hc, hself, hne, hp, hfree⟩ := countPrbs_only (r.u16 0) s
  have hlane : State.lane { s with freeCount := k, lanes := L } (r.u16 0) = { s.lane (r.u16 0) with prbs := p } := hself
  obtain ⟨hlk, hiv, hls, hsn, hrx⟩ := checked_fields (s.lane (r.u16 0)) s.tick
  have hbytes : prbsBytes (r.u16 0) p = le 2 (r.u16 0)
      ++ le 1 (mask [(s.lane (r.u16 0)).prbs.locked, (s.lane (r.u16 0)).prbs.inverted]) ++ zeros 1
      ++ le 4 (s.lane (r.u16 0)).prbs.losses.toNat ++ le 8 ((s.lane (r.u16 0)).checked s.tick).bits.toNat
      ++ le 8 (getU (prbsBytes (r.u16 0) p) 16 8) ++ ts96 (s.lane (r.u16 0)).prbs.since ++ zeros 4 := by
    rw [prbsBytes_errors, ← hlk, ← hiv, ← hls, ← hsn]
    unfold prbsBytes
    rw [hp]
  have heff : opPrbsRead.effect r s = (if bit (r.u8 2) 0 then ({ s with freeCount := k, lanes := L } : State).setLane (r.u16 0)
      { s.lane (r.u16 0) with prbs := { p with losses := 0, bits := 0, errors := 0, since := s.now } }
      else { s with freeCount := k, lanes := L }, ansDone (prbsBytes (r.u16 0) p)) := by
    unfold opPrbsRead
    dsimp only
    rw [hc, hlane]
    rfl
  have herr : (getU (prbsBytes (r.u16 0) p) 16 8) = p.errors.toNat := prbsBytes_errors ..
  cases hb : bit (r.u8 2) 0
  · rw [hb] at heff
    refine ⟨k, L, _, heff, hbytes, fun h => by rw [herr, hfree h], hne, ?_⟩
    rw [herr, BitVec.ofNat_toNat, BitVec.setWidth_eq, hself]
    exact congrArg (fun q => { s.lane (r.u16 0) with prbs := q }) hp
  · rw [hb] at heff
    refine ⟨k, _, _, heff, hbytes, fun h => by rw [herr, hfree h], fun j hj => ?_, ?_⟩
    · exact (tget_tset_ne _ _ _ _ _ hj).trans (hne j hj)
    · refine (tget_tset_self ..).trans ?_
      rw [hp]
      rfl

theorem prbsLock_locks {l : Nat} {bits : List Bool} {inv : Bool} {s : State} (h8 : (s.lane l).protocol = 8)
    (hp : (s.lane l).rxPower = 0) (hrx : (s.lane l).prbs.rx ≠ 0) (hl : (s.lane l).prbs.locked = false)
    (hh : s.laneHeld l = false) (hs : prbsPredicts (s.lane l).prbs.rx bits = !inv)
    (hi : inv = true → prbsPredicts (s.lane l).prbs.rx (bits.map not) = true) :
    prbsLock l bits s = s.setLane l { s.lane l with
      signal := true, cdr := true, inverted := inv
      prbs := { (s.lane l).prbs with locked := true, inverted := inv, countTick := s.tick } } := by
  have hor : (prbsPredicts (s.lane l).prbs.rx bits || prbsPredicts (s.lane l).prbs.rx (bits.map not)) = true := by
    cases inv
    · rw [hs]; rfl
    · rw [hi rfl, Bool.or_true]
  unfold prbsLock
  refine (if_pos ⟨h8, hp, hrx, by rw [hl]; rfl, by rw [hh]; rfl, hor⟩).trans ?_
  rw [hs, Bool.not_not]

theorem prbsLockLoss_loses {l errors lastErrors : Nat} {s : State} (h8 : (s.lane l).protocol = 8)
    (hl : (s.lane l).prbs.locked = true) (hr : (s.lane l).reeq = none) (he : 256 ≤ lastErrors) :
    prbsLockLoss l errors lastErrors s = s.setLane l { s.lane l with
      prbs := { (s.lane l).checked s.tick with
        locked := false, losses := (s.lane l).prbs.losses + 1
        errors := (s.lane l).prbs.errors + BitVec.ofNat 64 (min ((s.lane l).newBits s.tick) errors) } } := by
  rw [checked_of_counting s.tick hl hr]
  unfold prbsLockLoss
  exact if_pos ⟨h8, hl, by rw [hr]; rfl, he⟩

/-- Settles O33: each opcode by its effect; the counts by what the line rate has brought. -/
theorem rawAlignmentAndPrbsChecks : Obligations.RawAlignmentAndPrbsChecks := by
  unfold Obligations.RawAlignmentAndPrbsChecks
  refine ⟨?_, ?_, ?_, ?_, ?_, ?_, ?_, ?_, ?_⟩
  · intro s r h hk
    refine gives_of_op (x := slipBy (r.u8 0) (r.u8 1) (r.u16 2) (r.u8 4) _) rfl h rfl ?_ ?_ (hq := ?_)
    · rw [hk]; exact .of_parts
    · intro t F A
      rw [slipAt_slipBy, hk] at A
      exact ⟨by rw [F.lanes, hk]; rfl, A⟩
    · rw [hk]; exact h.acted
  · intro s r h hk
    refine gives_of_op (x := slipBy (r.u8 0) (r.u8 1) (r.u16 2) (r.u8 4) _) rfl h rfl ?_ ?_ (hq := ?_)
    · rw [hk]; exact .of_parts
    · intro t F A
      rw [slipAt_slipBy, hk] at A
      exact ⟨by rw [F.scps, hk]; rfl, A⟩
    · rw [hk]; exact h.acted
  · intro s r h hk
    obtain ⟨w, k, hw, hlen⟩ := rawWords_only (r.u8 0) (s.scp (r.u8 1)).slotBits
      { s with emitted := [], hcp := (s.taking opLaneRawCapture r).hcp }
    have heff := rawCapture_effect (s := { s with emitted := [], hcp := (s.taking opLaneRawCapture r).hcp }) hw
    rw [hk] at heff
    exact gives_of_op rfl h heff .of_parts fun t F A => ⟨w, A, hlen⟩
  · intro s r h hk
    obtain ⟨w, k, hw, hlen⟩ := rawWords_only (r.u8 0) (s.scp (r.u8 1)).slotBits
      { s with emitted := [], hcp := (s.taking opLaneRawCapture r).hcp }
    have heff := rawCapture_effect (s := { s with emitted := [], hcp := (s.taking opLaneRawCapture r).hcp }) hw
    rw [hk] at heff
    exact gives_of_op rfl h heff .of_parts fun t F A => ⟨w, A, hlen⟩
  · intro s r h
    obtain ⟨L, hL, hget⟩ := forEach_fixedLane (s.bgl (r.u8 0)).first s.freeCount
      { s with emitted := [], hcp := (s.taking opLaneRawCommit r).hcp, freeCount := s.freeCount + 1 } (s.bgl (r.u8 0)).width
    refine gives_of_op (x := ({ s with
        emitted := [], hcp := (s.taking opLaneRawCommit r).hcp, freeCount := s.freeCount + 1, lanes := L } : State).setBgl
        (r.u8 0) { s.bgl (r.u8 0) with state := .deskew, stateTick := s.tick }) rfl h ?_ .of_parts fun t F A => ⟨F.bgls, fun l => ?_, A⟩
    · exact congrArg (fun u : State => (u.setBgl (r.u8 0) { s.bgl (r.u8 0) with state := .deskew, stateTick := s.tick },
        ansDone [])) hL
    · have hlane : t.lane l = tget {} L l := congrArg (fun T => tget ({} : Lane) T l) F.lanes
      rw [hlane]
      exact hget l
  · intro s r h
    obtain ⟨k, L, e, p, heff, hself, hne, h1, h2, h3, h4, h5, hflip⟩ := prbsConfig_only r
      { s with emitted := [], hcp := (s.taking opPrbsConfig r).hcp }
    refine gives_of_op rfl h heff .of_parts fun t F A => ?_
    have hl : t.lane (r.u16 0) = _ := (congrArg (tget ({} : Lane) · (r.u16 0)) F.lanes).trans hself
    refine ⟨by rw [hl]; rfl, fun j hj => (congrArg (tget ({} : Lane) · j) F.lanes).trans (hne j hj), ?_⟩
    rw [hl]
    exact ⟨h1, h2, h3, h4, h5, fun a b c => F.emitted _ (hflip a b c), A⟩
  · intro s r h
    obtain ⟨k, L, p, heff, hb, hlock, hne, hself⟩ := prbsRead_only r { s with emitted := [], hcp := (s.taking opPrbsRead r).hcp }
    refine gives_of_op rfl h heff .of_parts fun t F A => ⟨p, A, hb, hlock, fun j hj => ?_, ?_⟩
    · exact (congrArg (tget ({} : Lane) · j) F.lanes).trans (hne j hj)
    · exact (congrArg (tget ({} : Lane) · (r.u16 0)) F.lanes).trans hself
  · intro s l bits inv hInv h8 hp hrx hl hh hs hi
    exact gives_of_effect rfl (prbsLock_locks (s := { s with emitted := [] }) h8 hp hrx hl hh hs hi) hInv.acted .of_parts
      fun t F => F.lanes
  · intro s l errors lastErrors hInv h8 hl hr he
    exact gives_of_effect rfl (prbsLockLoss_loses (s := { s with emitted := [] }) h8 hl hr he) hInv.acted .of_parts
      fun t F => F.lanes

end Sys2Proof.Machine
end

