-- ==== Sys2Proof/Proofs/LinkConfigs.lean ====
section
/-! SUPPORT. Device clocks, SYSREF outputs and link configurations (06_inputs, Tables INP-9 to INP-13). -/

namespace Sys2Proof.Machine

set_option Elab.async false

/-! ## SCP_CONFIG of standard 0 on a port whose data line was slipped -/

/-- A hub that serves: mailbox 0 is open, and line 0 of the configured Serial Converter Port 0 has slipped by 5 bits. -/
def slippedPort : State :=
  { chip := { phase := .serving, fwRunning := true }
    hcp := { mbs := [(0, { enable := true, session := .opened })] }
    scps := [(0, { base := { state := .configured }, standard := 1, lines := 1, slots := 1, slotBits := 24, slip := [(0, 5)] })] }

/-- SCP_CONFIG of port 0 with standard 0. -/
def releasePort0 : Req := { mb := 0, flags := 0, hostSeq := 0, tag := 7, time := zeros 10, payload := zeros 32 }

theorem slippedPort_accepts : Accepted opScpConfig releasePort0 slippedPort :=
  ⟨by decide, by decide, by decide, by decide +kernel, fun _ => ⟨by decide, by decide +kernel⟩⟩

/-- The port's bit slips go with its configuration. -/
theorem slippedPort_forgets : ((after (serveRow opScpConfig releasePort0) slippedPort).scp 0).slip = [] := by decide +kernel

/-- Refutes O34: an SCP_CONFIG of standard 0 does not keep the bit slips of the port's lines. Port 0, slipped by 5 bits, ends with
none. -/
theorem not_clocksAndInputLinksTakeTheirConfiguration : ¬ Obligations.ClocksAndInputLinksTakeTheirConfiguration := by
  unfold Obligations.ClocksAndInputLinksTakeTheirConfiguration
  intro h
  obtain ⟨-, -, -, -, -, -, -, -, -, hScp⟩ := h
  obtain ⟨t, ht, -, -, -, hslip, -⟩ := hScp slippedPort releasePort0 slippedPort_accepts
  have hrun : exec (.scpConfig releasePort0) slippedPort = .next (after (serveRow opScpConfig releasePort0) slippedPort) := rfl
  rw [← Host.Outcome.next.inj (hrun.symm.trans ht)] at hslip
  exact absurd (hslip.symm.trans slippedPort_forgets) (by decide)

end Sys2Proof.Machine
end

