-- ==== Sys2Proof/Proofs/Alignment.lean ====
section
/-! SUPPORT. Alignment of input links (06_inputs, Tables INP-6 and INP-7). -/

namespace Sys2Proof.Machine

set_option Elab.async false

/-! ## LINK_ALIGN beside a lost link whose table entry stands twice -/

/-- A configured JESD204B link on SYNC~ output 0. -/
def readyLink (state : LinkState) : Jesd :=
  { base := { state := state }, version := 1, ke := 1, s := 1, fs := 1, sync := 0, dclk := 0, sref := 0 }

/-- A hub that serves: mailbox 0 is open, links 0 and 1 share SYNC~ output 0, and the lost link 1 stands twice in the table. The
statement speaks of every state, also of those whose tables are not in canonical form. -/
def twiceLost : State :=
  { chip := { phase := .serving, fwRunning := true }
    hcp := { mbs := [(0, { enable := true, session := .opened })] }
    dclks := [(0, { enabled := true, freq := 10000000 })]
    srefs := [(0, { pulsed := [0], pulseNo := 1 })]
    jesds := [(0, readyLink .configured), (1, readyLink .lost), (1, readyLink .lost)] }

/-- LINK_ALIGN of JESD link 0. -/
def alignLink0 : Req := { mb := 0, flags := 0, hostSeq := 0, tag := 7, time := zeros 10, payload := [1, 0, 0, 0] }

theorem twiceLost_accepts : Accepted opLinkAlign alignLink0 twiceLost :=
  ⟨by decide, by decide, by decide, by decide +kernel, fun _ => ⟨by decide, by decide +kernel⟩⟩

/-- Link 1 begins to align twice; the second time it is no longer lost. -/
theorem twiceLost_forgets : ((after (serveRow opLinkAlign alignLink0) twiceLost).jesd 1).base.wasLost = false := by
  decide +kernel

/-- Refutes O35: a link that is aligned with the one of the request does not always keep that it was lost. In a table that names lost
link 1 twice, LINK_ALIGN of link 0 takes link 1 with it twice, and its mark that it was lost goes. -/
theorem not_inputLinksAlignAndAreLost : ¬ Obligations.InputLinksAlignAndAreLost := by
  unfold Obligations.InputLinksAlignAndAreLost
  intro h
  obtain ⟨-, -, hJesd, -⟩ := h
  obtain ⟨t, ht, -, hlinks, -⟩ := hJesd twiceLost alignLink0 twiceLost_accepts (by decide)
  have hrun : exec (.linkAlign alignLink0) twiceLost = .next (after (serveRow opLinkAlign alignLink0) twiceLost) := rfl
  have hlost := congrArg (fun j : Jesd => j.base.wasLost) ((hlinks 1).trans (if_pos (.inr (by decide +kernel))))
  rw [← Host.Outcome.next.inj (hrun.symm.trans ht)] at hlost
  exact absurd (hlost.symm.trans twiceLost_forgets) (by decide)

end Sys2Proof.Machine
end

