-- ==== Sys2Proof/Proofs/Admission.lean ====
section
/-! SUPPORT. The admission opcodes (09_admission, Tables ADM-6 and ADM-8). -/

namespace Sys2Proof.Machine

set_option Elab.async false

/-! ## ADM_LIMIT below a stream's bound -/

/-- A hub that serves: mailbox 0 is open, and stream 0 is charged. Its bound is 490 ns. -/
def boundedStream : State :=
  { chip := { phase := .serving, fwRunning := true }
    hcp := { mbs := [(0, { enable := true, session := .opened })] }
    strm := { streams := [(0, { state := .active, placeA := some 0 })] } }

/-- ADM_LIMIT of stream 0 to 1 ns. -/
def limitStream0 : Req := { mb := 0, flags := 0, hostSeq := 0, tag := 7, time := zeros 10, payload := zeros 8 ++ le 8 1 }

theorem boundedStream_accepts : Accepted opAdmLimit limitStream0 boundedStream :=
  ⟨by decide, by decide, by decide, by decide +kernel, fun _ => ⟨by decide, by decide +kernel⟩⟩

/-- The ceiling lies below the bound and is refused: none is set. -/
theorem boundedStream_refuses : (after (serveRow opAdmLimit limitStream0) boundedStream).ledger.ceiling = [] := by decide +kernel

/-- Refutes O41: an ADM_LIMIT that passes its checks does not always set the ceiling. A ceiling of 1 ns lies below the stream's bound
of 490 ns and is answered REFUSED_CAPACITY (R265). -/
theorem not_admissionOpcodesReportLimitAndProbe : ¬ Obligations.AdmissionOpcodesReportLimitAndProbe := by
  unfold Obligations.AdmissionOpcodesReportLimitAndProbe
  intro h
  obtain ⟨-, -, hLimit, -⟩ := h
  obtain ⟨t, ht, -, hceiling, -⟩ := hLimit boundedStream limitStream0 boundedStream_accepts
  have hrun : exec (.admLimit limitStream0) boundedStream = .next (after (serveRow opAdmLimit limitStream0) boundedStream) := rfl
  rw [← Host.Outcome.next.inj (hrun.symm.trans ht)] at hceiling
  exact absurd (hceiling.symm.trans boundedStream_refuses) (by decide)

end Sys2Proof.Machine
end

