-- ==== Sys2Proof/Proofs/PipeSettings.lean ====
section
/-! SUPPORT. What the checks of an accepted request say; retunes, the DC block and the requantiser (07_channel_pipe, Table
PIPE-9). -/

namespace Sys2Proof.Machine

set_option Elab.async false

/-! ## The checks of an accepted request (R52) -/

theorem passed_of_firstBad : ∀ {cs : List Check}, firstBad cs = none → ∀ c ∈ cs, c.1 = true
  | (ok, a) :: cs, h, c, hc => by
    unfold firstBad at h
    split at h
    · next hok =>
      obtain rfl | hc := List.mem_cons.mp hc
      · exact hok
      · exact passed_of_firstBad h c hc
    · exact absurd h (by simp)

/-- The state whose fields, state and held checks an opcode reads. -/
abbrev State.judged (s : State) (op : Op) (r : Req) : State := { s with emitted := [], hcp := (s.taking op r).hcp }

theorem Accepted.passes {op : Op} {r : Req} {s : State} (h : Accepted op r s) {c : Check}
    (hc : c ∈ opChecks op (s.mb r.mb.val).version2 r (s.judged op r)) : c.1 = true := by
  unfold State.judged at hc
  rw [← taking_hcp_only] at hc
  exact passed_of_firstBad h.checks c (List.mem_append_right _ hc)

theorem Accepted.field {op : Op} {r : Req} {s : State} (h : Accepted op r s) {c : Check} (hc : c ∈ op.fields r (s.judged op r)) :
    c.1 = true := h.passes (by unfold opChecks; simp [hc])

theorem Accepted.state {op : Op} {r : Req} {s : State} (h : Accepted op r s) {c : Check} (hc : c ∈ op.state r (s.judged op r)) :
    c.1 = true := h.passes (by unfold opChecks; simp [hc])

theorem Accepted.held {op : Op} {r : Req} {s : State} (h : Accepted op r s) {c : Check} (hc : c ∈ op.hold r (s.judged op r)) :
    c.1 = true := h.passes (by unfold opChecks; simp [hc])

theorem Accepted.length {op : Op} {r : Req} {s : State} (h : Accepted op r s) : op.len r.payload = none := by
  have := h.passes (c := ((op.len r.payload).isNone, ansBadLength ((op.len r.payload).getD 0))) (by unfold opChecks; simp)
  simpa using this

/-! ## PIPE_RETUNE at once (R213) -/

/-- Nothing lies behind an instant that is still ahead: the retunes of the pipe stay. -/
theorem retunePipe_ahead {p : Nat} {t : T16} {w : W48} {ph : Option W32} {s : State} (hs : (s.pipe p).state ≠ .free)
    (hm : (s.pipe p).mixer = true) (ht : nsOf s.now < nsOf t) :
    retunePipe p t w ph s = s.setPipe p { s.pipe p with retunes := placeRetune (t, w, ph) (s.pipe p).retunes } := by
  have hgone : ∀ y : T16 × W48 × Option W32, (decide (t ≤ y.1) && decide (nsOf y.1 ≤ nsOf s.now)) = false := fun y => by
    by_cases h : t ≤ y.1
    · have hlt : ¬ nsOf y.1 ≤ nsOf s.now := by
        have := Nat.div_le_div_right (c := 65536) h
        unfold nsOf at *
        omega
      rw [decide_eq_false hlt, Bool.and_false]
    · rw [decide_eq_false h, Bool.false_and]
  unfold retunePipe
  dsimp only
  rw [if_neg (by rw [hm]; simpa using hs)]
  simp [hgone]

theorem nsOf_lt_us10 (t : T16) : nsOf t < nsOf (t + us10) := by
  unfold nsOf us10
  omega

/-! ## The DC block's answer (R202) -/

theorem autoVarnish_same {s t : State} (hp : t.pipes = s.pipes) (hc : t.channels = s.channels) (hw : t.cap = s.cap) (p : Nat) (k : Int) :
    t.autoVarnish p k = s.autoVarnish p k := by
  unfold State.autoVarnish State.pipe State.chan State.win
  rw [hp, hc, hw]

theorem varnished_same {s t : State} (hp : t.pipes = s.pipes) (hc : t.channels = s.channels) (hw : t.cap = s.cap) (p : Nat) :
    t.varnished p = s.varnished p := by
  unfold State.varnished
  rw [autoVarnish_same hp hc hw]
  unfold State.pipe
  rw [hp]

/-- A DC_CONTROL operation that leaves its pipe as `x`: the estimate and the flags of the answer are those of `x`. -/
theorem dcControl_effect {r : Req} {x : Pipe} {s : State} (h : dcControl r (s.pipe (r.u16 0)) = x) :
    opDcControl.effect r s = (s.setPipe (r.u16 0) x,
      ansDone (leI 8 x.dcM ++ le 1 (mask [x.dcManual, (s.setPipe (r.u16 0) x).varnished (r.u16 0)]) ++ zeros 3)) := by
  have hx : (s.setPipe (r.u16 0) x).pipe (r.u16 0) = x := tget_tset_self ..
  unfold opDcControl dcAnswer
  dsimp only
  rw [h, hx]

theorem dcSet_gives {i : Instr} {s : State} {r : Req} {x : Pipe} (hi : exec i s = .next (after (serveRow opDcControl r) s))
    (h : Accepted opDcControl r s) (hx : dcControl r (s.pipe (r.u16 0)) = x) : Gives i s [.hcp, .pipes] fun t =>
      t.pipes = tset {} s.pipes (r.u16 0) x ∧
      Answered 0x0506 r 0 0 (leI 8 x.dcM ++ le 1 (mask [x.dcManual, t.varnished (r.u16 0)]) ++ zeros 3) t :=
  gives_of_op hi h (dcControl_effect (s := s.judged opDcControl r) hx) .of_parts fun t F A =>
    ⟨F.pipes, by rw [varnished_same F.pipes F.channels F.cap]; exact A⟩

/-- Settles O38: each opcode by its effect; a retune ten microseconds ahead takes none of those that wait. -/
theorem pipeSettingsActAsTheTablesSay : Obligations.PipeSettingsActAsTheTablesSay := by
  unfold Obligations.PipeSettingsActAsTheTablesSay
  refine ⟨?_, ?_, ?_, ?_, ?_, ?_, ?_, ?_⟩
  · intro s r h hs
    have hst := h.state (List.mem_singleton.mpr rfl)
    rw [Bool.and_eq_true, decide_eq_true_eq] at hst
    exact gives_of_op rfl h ((if_neg (by rw [hs]; simp)).trans
      (congrArg (·, ansDone []) (retunePipe_ahead (s := s.judged opPipeRetune r) hst.1 hst.2 (nsOf_lt_us10 _)))) .of_parts
      fun t F A => ⟨F.pipes, A⟩
  · intro s r h hs
    exact gives_of_op rfl h (if_pos hs) .of_parts fun t F A => ⟨F.cal, A⟩
  · intro s r h hk
    exact dcSet_gives rfl h (if_pos hk)
  · intro s r h hk
    obtain ⟨t, he, hkeep, hp, ha⟩ := dcSet_gives (i := .dcVarnish r) rfl h
      (show _ = { s.pipe (r.u16 0) with dcManual := true } by unfold dcControl; simp [hk])
    have hv : t.varnished (r.u16 0) = true := by
      unfold State.varnished State.pipe
      rw [hp, tget_tset_self]
      rfl
    rw [hv] at ha
    exact ⟨t, he, hkeep, hp, ha⟩
  · intro s r h hk
    exact dcSet_gives rfl h (by unfold dcControl; simp [hk])
  · intro s r h hk
    exact dcSet_gives rfl h (by unfold dcControl; simp [hk])
  · intro s r h hk
    obtain ⟨t, he, hkeep, hp, ha⟩ := dcSet_gives (i := .dcRead r) rfl h
      (show _ = s.pipe (r.u16 0) by unfold dcControl; simp [hk])
    have hpipe : t.pipe (r.u16 0) = s.pipe (r.u16 0) := by
      unfold State.pipe
      rw [hp, tget_tset_self]
      rfl
    have hv : t.varnished (r.u16 0) = s.varnished (r.u16 0) := by
      have hc := hkeep .channels (by simp)
      have hw := hkeep .cap (by simp)
      unfold State.varnished State.autoVarnish State.chan State.win
      rw [hpipe, show t.channels = s.channels from hc, show t.cap = s.cap from hw]
    rw [hv] at ha
    exact ⟨t, he, hkeep, hpipe, ha⟩
  · intro s r h
    exact gives_of_op rfl h rfl .of_parts fun t F A => ⟨F.pipes, A⟩

end Sys2Proof.Machine
end

