-- ==== Sys2Proof/Proofs/Palettes.lean ====
section
/-! SUPPORT. Profiles and banks (08_palettes, Tables PAL-9 to PAL-12). -/

namespace Sys2Proof.Machine

set_option Elab.async false

theorem profileCommit_valid {r : Req} {s : State} (h : (commitResult (s.prof (r.u8 0)) (r.u32 4)).1 = 0) :
    opProfileCommit.effect r s = (s.setProf (r.u8 0) { s.prof (r.u8 0) with state := .valid },
      ansDone (le 1 0 ++ zeros 3 ++ le 4 (commitResult (s.prof (r.u8 0)) (r.u32 4)).2)) := by
  unfold opProfileCommit commitProfile
  dsimp only
  rw [if_pos h, h]

theorem profileCommit_empty {r : Req} {s : State} (h : (commitResult (s.prof (r.u8 0)) (r.u32 4)).1 ≠ 0) :
    opProfileCommit.effect r s = (s.setProf (r.u8 0) {}, ansDone (le 1 (commitResult (s.prof (r.u8 0)) (r.u32 4)).1 ++ zeros 3
      ++ le 4 (commitResult (s.prof (r.u8 0)) (r.u32 4)).2)) := by
  unfold opProfileCommit commitProfile
  dsimp only
  rw [if_neg h]

/-- PROFILE_INFO's fields that read 0 where the profile gives them no meaning. -/
theorem profileInfoPayload_eq (s : State) (n : Nat) : profileInfoPayload s n =
    le 1 n ++ le 1 (profCode (s.prof n).state) ++ le 2 (s.refs n) ++ le 4 (s.prof n).stored ++ le 4 (s.prof n).extent ++ zeros 4
      ++ (if (s.prof n).state = .valid then leI 8 (rheR ((s.prof n).gd * 65536)) ++ leI 8 (rheR ((s.prof n).span * 65536))
        else zeros 16)
      ++ (if (s.prof n).state = .empty then zeros 8
        else le 4 ((s.prof n).stages.foldl (fun n g => n * g.d) 1) ++ le 4 ((s.prof n).stages.foldl (fun n g => n * g.u) 1))
      ++ memRead (s.prof n).image 0 0x50 := by
  have h16 : leI 8 0 ++ leI 8 0 = zeros 16 := by decide
  have h8 : le 4 0 ++ le 4 0 = zeros 8 := by decide
  unfold profileInfoPayload
  cases hf : (s.prof n).state <;> simp [hf, ← h16, ← h8, List.append_assoc]

/-- BANK_SWAP of a pipe that runs, or that awaits its start. -/
theorem beginSwap_eq (r : Req) (s : State) : beginSwap r s =
    ((if r.sched then insertEntry {
        time := r.at_, cls := 2, ins := 0, action := .swap (r.u16 0), job := some (takeJob 0x0526 r s).1 } else id)
      ((takeJob 0x0526 r s).2.setPipe (r.u16 0) { s.pipe (r.u16 0) with
        bank := if r.u8 2 = 2 then .preroll else .pending, bRun := 0, fadeDone := 0
        histB := if r.u8 2 = 2 then freshHist (s.profB (r.u16 0)).stages (s.pipe (r.u16 0)).nNext else []
        swap := some {
          mode := r.u8 2, k := r.u8 3, ts := if r.sched then some r.at_ else none, armed := !r.sched
          job := some (takeJob 0x0526 r s).1 } }), ansAccepted (takeJob 0x0526 r s).1.slot) := by
  unfold beginSwap
  cases r.sched <;> simp

/-- BANK_STATUS of a pipe that is bound, but for its landing. -/
theorem bankStatusPayload_bound {s : State} {p : Nat} (h : (s.pipe p).state ≠ .free) : ∃ q, bankStatusPayload s p =
    le 2 p ++ le 2 (s.pipe p).profileA ++ le 2 (if (s.pipe p).bank != .empty then (s.pipe p).profileB else 0xFFFF)
      ++ le 1 (bankCode (s.pipe p).bank) ++ le 1 (s.pipe p).epoch.toNat ++ le 2 (s.profA p).unsettled ++ le 2 (s.uStart p)
      ++ le 2 (if (s.pipe p).bank != .empty then (s.profB p).unsettled else 0) ++ le 2 (s.pipe p).fadeDone
      ++ leI 8 ((s.profA p).gamma (s.fin p)) ++ leI 8 (if (s.pipe p).bank != .empty then (s.profB p).gamma (s.fin p) else 0)
      ++ leI 8 (rheR (s.margin p * 65536)) ++ q := by
  have hb : decide ((s.pipe p).bank ≠ .empty) = ((s.pipe p).bank != .empty) := by cases (s.pipe p).bank <;> rfl
  unfold bankStatusPayload
  dsimp only
  rw [if_neg h, hb]
  simp only [List.append_assoc]
  exact ⟨_, rfl⟩

/-- Settles O40: each opcode by its effect; what a swap waits for is its pipe's. -/
theorem profilesAndBanksChangeAsRequested : Obligations.ProfilesAndBanksChangeAsRequested := by
  unfold Obligations.ProfilesAndBanksChangeAsRequested
  refine ⟨?_, ?_, ?_, ?_, ?_, ?_, ?_, ?_, ?_, ?_, ?_⟩
  · intro s r h
    refine gives_of_op rfl h rfl .of_parts fun t F A => ⟨F.profiles.trans ?_, A⟩
    unfold stage
    rw [List.length_drop]
    rfl
  · intro s r h hc
    exact gives_of_op rfl h (profileCommit_valid (s := s.judged opProfileCommit r) hc) .of_parts
      fun t F A => ⟨F.profiles, _, A⟩
  · intro s r h hc
    exact gives_of_op rfl h (profileCommit_empty (s := s.judged opProfileCommit r) hc) .of_parts fun t F A => ⟨F.profiles, A⟩
  · intro s r h
    exact gives_of_op rfl h rfl .of_parts fun t F A => ⟨F.profiles, A⟩
  · intro s r h
    exact reports_of_op rfl h (congrArg (fun p => (s.judged opProfileInfo r, ansDone p))
      (profileInfoPayload_eq (s.judged opProfileInfo r) (r.u8 0)))
  · intro s r h
    exact gives_of_op rfl h rfl .of_parts fun t F A => ⟨F.pipes, A⟩
  · intro s r h hm hs
    exact gives_of_op rfl h (if_pos ⟨hm, hs⟩) .of_parts fun t F A => ⟨F.pipes, A⟩
  · intro s r h hs
    have hbegin : opBankSwap.effect r (s.judged opBankSwap r) = beginSwap r (s.judged opBankSwap r) :=
      if_neg fun hc => hs.elim (· hc.1) hc.2
    have heff := hbegin.trans (beginSwap_eq r (s.judged opBankSwap r))
    cases hsch : r.sched
    · rw [hsch] at heff
      exact gives_of_op rfl h heff .of_parts fun t F A => ⟨F.pipes, F.cal, A⟩
    · rw [hsch] at heff
      exact gives_of_op rfl h heff .of_parts fun t F A => ⟨F.pipes, F.cal, A⟩
  · intro s r h
    exact gives_of_op rfl h rfl .of_parts fun t F A => ⟨F.pipes, A⟩
  · intro s r h hs
    exact reports_of_op rfl h (congrArg (fun p => (s.judged opBankStatus r, ansDone p)) (if_pos hs))
  · intro s r h hs
    obtain ⟨q, hq⟩ := bankStatusPayload_bound (s := s.judged opBankStatus r) hs
    exact gives_of_op rfl h (congrArg (fun p => (s.judged opBankStatus r, ansDone p)) hq) .of_parts fun t F A => ⟨q, A⟩

end Sys2Proof.Machine
end

