-- ==== Sys2Proof/Proofs/StreamRules.lean ====
section
/-! SUPPORT. What the operations on one stream's queue change (12_streams, credits and queues). -/

namespace Sys2Proof.Machine

set_option Elab.async false

theorem stream_setStream_self (s : State) (n : Nat) (x : Stream) : (s.setStream n x).stream n = x := tget_tset_self ..

theorem stream_setStream_ne (s : State) {n k : Nat} (x : Stream) (h : k ≠ n) : (s.setStream n x).stream k = s.stream k :=
  tget_tset_ne _ _ _ _ _ h

theorem port_setPort_self (s : State) (p : Nat) (x : Port) : (s.setPort p x).port p = x := tget_tset_self ..

theorem port_setPort_ne (s : State) {p k : Nat} (x : Port) (h : k ≠ p) : (s.setPort p x).port k = s.port k :=
  tget_tset_ne _ _ _ _ _ h

/-- `t` is `s` but for stream n and what a notice can change. -/
structure StreamOnly (n : Nat) (s t : State) : Prop where
  only : NoticesOnly { s with strm := { s.strm with streams := t.strm.streams } } t
  others : ∀ m, m ≠ n → t.stream m = s.stream m

theorem StreamOnly.refl (n : Nat) (s : State) : StreamOnly n s s := ⟨rfl, fun _ _ => rfl⟩

theorem StreamOnly.trans {n : Nat} {s t u : State} (h : StreamOnly n s t) (k : StreamOnly n t u) : StreamOnly n s u := by
  refine ⟨?_, fun m hm => (k.others m hm).trans (h.others m hm)⟩
  have h' := h.only
  have k' := k.only
  unfold NoticesOnly at *
  rw [k', h']

theorem StreamOnly.setStream (n : Nat) (s : State) (x : Stream) : StreamOnly n s (s.setStream n x) :=
  ⟨rfl, fun _ hm => stream_setStream_ne s x hm⟩

theorem StreamOnly.of_notices {n : Nat} {s t : State} (h : NoticesOnly s t) : StreamOnly n s t := by
  have hs : t.strm = s.strm := by rw [h]
  exact ⟨by rw [hs]; exact h, fun m _ => by unfold State.stream; rw [hs]⟩

theorem StreamOnly.keeps {n : Nat} {s t : State} (h : StreamOnly n s t) : Keeps [.hcp, .strm] s t := by
  have := h.only
  rw [this]
  exact .of_parts

theorem StreamOnly.emitted {n : Nat} {s t : State} (h : StreamOnly n s t) : t.emitted = s.emitted := by rw [h.only]
theorem StreamOnly.flt {n : Nat} {s t : State} (h : StreamOnly n s t) : t.flt = s.flt := by rw [h.only]
theorem StreamOnly.upl {n : Nat} {s t : State} (h : StreamOnly n s t) : t.upl = s.upl := by rw [h.only]

theorem notify_stream (o : Nat) (p : Bytes) (s : State) (n : Nat) : (notify o p s).stream n = s.stream n := by
  unfold State.stream
  rw [notify_noticesOnly o p s]

theorem streamEvent_notices (n e a b c : Nat) (s : State) : NoticesOnly s (streamEvent n e a b c s) := notify_noticesOnly ..

theorem streamEvent_stream (n e a b c : Nat) (s : State) (m : Nat) : (streamEvent n e a b c s).stream m = s.stream m := notify_stream ..

/-- The credits of a stream change, and with them its peak and its watermarks (R348, R349). -/
theorem setCredits_only (n c : Nat) (s : State) : StreamOnly n s (setCredits n c s) ∧ ∃ k h l, (setCredits n c s).stream n =
    { s.stream n with credits := c, peak := k, hitHigh := h, hitLow := l } := by
  unfold setCredits
  dsimp only
  split
  · exact ⟨(StreamOnly.setStream ..).trans (.of_notices (streamEvent_notices ..)), _, _, _,
      (streamEvent_stream ..).trans (stream_setStream_self ..)⟩
  · exact ⟨.setStream .., _, _, _, stream_setStream_self ..⟩

/-- An EMPTYING stream without packets becomes IDLE, with all its credits (R327). -/
def Stream.emptied (x : Stream) : Stream :=
  if x.state = .emptying ∧ x.queue = [] then { x with state := .idle, credits := x.pages } else x

theorem Stream.emptied_queue (x : Stream) : x.emptied.queue = x.queue := by unfold Stream.emptied; split <;> rfl
theorem Stream.emptied_opened (x : Stream) : x.emptied.opened = x.opened := by unfold Stream.emptied; split <;> rfl

theorem Stream.emptied_state (x : Stream) : x.emptied.state = if x.state = .emptying ∧ x.queue = [] then .idle else x.state := by
  unfold Stream.emptied
  split <;> rfl

theorem Stream.emptied_credits (x : Stream) :
    x.emptied.credits = if x.state = .emptying ∧ x.queue = [] then x.pages else x.credits := by
  unfold Stream.emptied
  split <;> rfl

theorem checkEmpty_only (n : Nat) (s : State) : StreamOnly n s (checkEmpty n s) ∧
    (checkEmpty n s).stream n = (s.stream n).emptied := by
  unfold checkEmpty Stream.emptied
  dsimp only
  by_cases h : (s.stream n).state = .emptying ∧ (s.stream n).queue = []
  · rw [if_pos h, if_pos (by rwa [List.isEmpty_iff])]
    exact ⟨(StreamOnly.setStream ..).trans (.of_notices (streamEvent_notices ..)),
      (streamEvent_stream ..).trans (stream_setStream_self ..)⟩
  · rw [if_neg h, if_neg (by rwa [List.isEmpty_iff])]
    exact ⟨.refl .., rfl⟩

theorem foldl_left (l : List Committed) : ∀ k, l.foldl (fun k c => k + c.left) k = k + (l.map Committed.left).sum := by
  induction l with
  | nil => exact fun _ => rfl
  | cons c l ih =>
    intro k
    rw [List.foldl_cons, ih, List.map_cons, List.sum_cons, Nat.add_assoc]

/-- A stream whose committed packets are changed by `f`: those that still have claims, and the credits that are returned (R329). -/
def Stream.returned (f : Committed → Committed) (x : Stream) : Stream := { x with
  queue := (x.queue.map f).filter fun c => c.left ≠ 0
  credits := x.credits + ((x.queue.map Committed.left).sum - ((x.queue.map f).map Committed.left).sum) }

theorem changeQueue_only (n : Nat) (f : Committed → Committed) (s : State) : StreamOnly n s (changeQueue n f s) ∧
    ∃ k h l, (changeQueue n f s).stream n =
      ({ (s.stream n).returned f with peak := k, hitHigh := h, hitLow := l } : Stream).emptied := by
  have key : ∀ y : State, ∀ k h l, y.stream n = { (s.stream n).returned f with peak := k, hitHigh := h, hitLow := l } →
      StreamOnly n s y → StreamOnly n s (checkEmpty n y) ∧ ∃ k h l, (checkEmpty n y).stream n =
        ({ (s.stream n).returned f with peak := k, hitHigh := h, hitLow := l } : Stream).emptied := by
    intro y k h l hy ho
    exact ⟨ho.trans (checkEmpty_only n y).1, k, h, l, by rw [(checkEmpty_only n y).2, hy]⟩
  unfold changeQueue
  dsimp only
  rw [foldl_left, foldl_left, Nat.zero_add, Nat.zero_add]
  split
  · next hb =>
    refine key _ (s.stream n).peak (s.stream n).hitHigh (s.stream n).hitLow ((stream_setStream_self ..).trans ?_) (.setStream ..)
    unfold Stream.returned
    rw [hb]
    rfl
  · obtain ⟨ho, k, h, l, hc⟩ := setCredits_only n ((s.stream n).credits + (((s.stream n).queue.map Committed.left).sum
        - (((s.stream n).queue.map f).map Committed.left).sum))
      (s.setStream n { s.stream n with queue := ((s.stream n).queue.map f).filter fun c => c.left ≠ 0 })
    rw [stream_setStream_self] at hc
    exact key _ k h l hc ((StreamOnly.setStream ..).trans ho)

end Sys2Proof.Machine
end

