-- ==== Sys2Proof/Proofs/Transmission.lean ====
section
/-! SUPPORT. Frames that a port sends (12_streams, R329; 13_uplinks, R363 and R364). -/

namespace Sys2Proof.Machine

set_option Elab.async false

/-! ## What waits on a port -/

theorem waitingOn_same {s t : State} (h : t.strm.streams = s.strm.streams) (p : Nat) : t.waitingOn p = s.waitingOn p := by
  unfold State.waitingOn State.sentBy State.stream
  rw [h]

theorem dataWaits_same {s t : State} {p : Nat} (h : t.strm.streams = s.strm.streams) (hd : (t.port p).dumps = (s.port p).dumps) :
    t.dataWaits p = s.dataWaits p := by
  unfold State.dataWaits
  rw [waitingOn_same h, hd]

theorem dataWaits_of {s t : State} (hs : t.strm = s.strm) (hu : t.upl = s.upl) (p : Nat) : t.dataWaits p = s.dataWaits p :=
  dataWaits_same (by rw [hs]) (by unfold State.port; rw [hu])

theorem firstCommitted_mem : ∀ {l : List (Nat × Nat × Committed)} {b}, firstCommitted l = some b → b ∈ l
  | x :: xs, b, h => by
    unfold firstCommitted at h
    cases hx : firstCommitted xs with
    | none =>
      rw [hx] at h
      exact List.mem_cons.mpr (.inl (Option.some.inj h).symm)
    | some y =>
      rw [hx] at h
      dsimp only at h
      split at h
      · exact List.mem_cons.mpr (.inl (Option.some.inj h).symm)
      · exact List.mem_cons.mpr (.inr (Option.some.inj h ▸ firstCommitted_mem hx))

theorem firstCommitted_nil : ∀ {l : List (Nat × Nat × Committed)}, firstCommitted l = none → l = []
  | [], _ => rfl
  | x :: xs, h => by
    unfold firstCommitted at h
    cases hx : firstCommitted xs with
    | none => rw [hx] at h; simp at h
    | some y =>
      rw [hx] at h
      dsimp only at h
      split at h <;> simp at h

theorem port_of_upl {s t : State} (h : t.upl = s.upl) (k : Nat) : t.port k = s.port k := by unfold State.port; rw [h]

/-! ## FRAME_TX_START (R364) -/

theorem startSending_self (p : Nat) (f : Sending) (s : State) : (startSending p f s).port p = { s.port p with
    sending := some f, lastControl := match f with
      | .packet .. => (s.port p).lastControl && s.dataWaits p
      | .dump _ => (s.port p).lastControl && s.dataWaits p
      | _ => true } := by
  unfold startSending
  exact port_setPort_self ..

theorem startSending_waits (p : Nat) (f : Sending) (s : State) : (startSending p f s).dataWaits p = s.dataWaits p :=
  dataWaits_same rfl (by rw [startSending_self])

theorem setPort_keeps (p : Nat) (x : Port) (s : State) : Keeps [.upl] s (s.setPort p x) := .of_parts

theorem setStream_keeps (n : Nat) (x : Stream) (s : State) : Keeps [.strm] s (s.setStream n x) := .of_parts

theorem startSending_keeps (p : Nat) (f : Sending) (s : State) : Keeps [.upl] s (startSending p f s) := by
  unfold startSending
  exact .of_parts

theorem startPacket_keeps (p n : Nat) (c : Committed) (s : State) : Keeps [.upl, .strm] s (startPacket p n c s) :=
  ((setStream_keeps n _ s).weaken (by simp)).trans ((startSending_keeps p _ _).weaken (by simp))

theorem startSending_ne {p k : Nat} (f : Sending) (s : State) (h : k ≠ p) : (startSending p f s).port k = s.port k :=
  port_setPort_ne _ _ h

theorem frameTxStart_control {p : Nat} {f : Bytes} {fs : List Bytes} {s : State} (hm : s.mayStart p = true)
    (hc : (s.port p).control = f :: fs) (hw : ((s.port p).lastControl && s.dataWaits p) = false) :
    frameTxStart p s = startSending p (.control f) (s.setPort p { s.port p with control := fs }) := by
  unfold frameTxStart State.mayControl
  rw [hm, hc, hw]
  rfl

/-- No control frame may go: none waits, or the last frame was one and data waits. -/
theorem frameTxStart_data {p : Nat} {s : State} (hm : s.mayStart p = true)
    (hc : (s.port p).control = [] ∨ (s.port p).lastControl = true) (hd : s.dataWaits p = true) :
    frameTxStart p s = startData p s := by
  unfold frameTxStart State.mayControl
  rw [hm]
  cases hq : (s.port p).control with
  | nil => rfl
  | cons f fs =>
    rw [hc.resolve_left (by rw [hq]; simp), hd]
    rfl

theorem frameTxStart_none {p : Nat} {s : State}
    (h : s.mayStart p = false ∨ (s.port p).control = [] ∧ s.dataWaits p = false) : frameTxStart p s = s := by
  unfold frameTxStart
  cases hm : s.mayStart p with
  | false => rfl
  | true =>
    obtain ⟨hc, hd⟩ := h.resolve_left (by rw [hm]; simp)
    unfold State.dataWaits at hd
    rw [Bool.or_eq_false_iff, Bool.not_eq_false', Bool.not_eq_false', List.isEmpty_iff, List.isEmpty_iff] at hd
    unfold startData
    rw [hc, hd.1, hd.2]
    rfl

theorem startData_packet {p o n : Nat} {c : Committed} {s : State} (hb : firstCommitted (s.waitingOn p) = some (o, n, c))
    (hd : ∀ d ∈ (s.port p).dumps.take 1, o < d.1) : startData p s = startPacket p n c s := by
  unfold startData
  rw [hb]
  cases hq : (s.port p).dumps with
  | nil => rfl
  | cons d ds => exact if_pos (hd d (by rw [hq]; exact List.mem_cons_self))

theorem startData_dump {p o : Nat} {d : Bytes} {ds : List (Nat × Bytes)} {s : State} (hq : (s.port p).dumps = (o, d) :: ds)
    (ho : ∀ x ∈ s.waitingOn p, o ≤ x.1) :
    startData p s = startSending p (.dump d) (s.setPort p { s.port p with dumps := ds }) := by
  unfold startData
  rw [hq]
  cases hb : firstCommitted (s.waitingOn p) with
  | none => rfl
  | some b => exact if_neg (Nat.not_lt.mpr (ho b (firstCommitted_mem hb)))

/-! ## FRAME_TX_END (R329) -/

theorem frameTxEnd_frame {p : Nat} {f : Bytes} {s : State}
    (h : (s.port p).sending = some (.control f) ∨ (s.port p).sending = some (.dump f)) : frameTxEnd p s = endFrame p f s := by
  unfold frameTxEnd
  obtain h | h := h <;> rw [h]

/-- The port's side of the end of a packet's page. -/
def pageSent (p n seq left : Nat) (f : Bytes) (s : State) : State :=
  if left ≤ 1 then endFrame p f s else s.setPort p { s.port p with sending := some (.packet n seq (left - 1) f) }

theorem frameTxEnd_packet {p n seq left : Nat} {f : Bytes} {s : State} (h : (s.port p).sending = some (.packet n seq left f)) :
    frameTxEnd p s = pageLeft n (groupOf p) seq (pageSent p n seq left f s) := by
  unfold frameTxEnd
  rw [h]
  rfl

theorem pageSent_only (p n seq left : Nat) (f : Bytes) (s : State) : pageSent p n seq left f s = { s with
    emitted := if left ≤ 1 then s.emitted ++ [.uplinkFrame p f false] else s.emitted
    upl := { s.upl with ports := tset {} s.upl.ports p (if left ≤ 1 then { s.port p with
        sending := none, frames := (s.port p).frames + 1, bytes := (s.port p).bytes + BitVec.ofNat 64 f.length }
      else { s.port p with sending := some (.packet n seq (left - 1) f) }) } } := by
  unfold pageSent
  by_cases h : left ≤ 1
  · simp only [if_pos h]
    rfl
  · simp only [if_neg h]
    rfl

theorem pageSent_stream (p n seq left : Nat) (f : Bytes) (s : State) (m : Nat) :
    (pageSent p n seq left f s).stream m = s.stream m := by
  rw [pageSent_only]
  rfl

theorem pageSent_keeps (p n seq left : Nat) (f : Bytes) (s : State) : Keeps [.upl] s (pageSent p n seq left f s) := by
  rw [pageSent_only]
  exact .of_parts

/-- The end of a packet's page on a port: the frame counts with its last page, the stream's credit returns with the last claim. -/
theorem frameTxEnd_page {s : State} {p : Fin 48} {n seq left : Nat} {f : Bytes} (hInv : s.Inv)
    (h : (s.port p).sending = some (.packet n seq left f)) :
    Gives (.frameTxEnd p) s [.hcp, .upl, .strm] fun t =>
      let x := s.stream n
      let q := x.queue.map fun c => if c.seq = seq then
        (if groupOf p = 0 then { c with leftA := c.leftA - 1 } else { c with leftB := c.leftB - 1 }) else c
      let kept := q.filter fun c => max c.leftA c.leftB ≠ 0
      (left ≤ 1 → .uplinkFrame p f false ∈ t.emitted) ∧
      t.upl = { s.upl with ports := tset {} s.upl.ports p (if left ≤ 1 then { s.port p with
        sending := none, frames := (s.port p).frames + 1, bytes := (s.port p).bytes + BitVec.ofNat 64 f.length }
        else { s.port p with sending := some (.packet n seq (left - 1) f) }) } ∧
      (t.stream n).queue = kept ∧ (t.stream n).opened = x.opened ∧
      (t.stream n).state = (if x.state = .emptying ∧ kept = [] then .idle else x.state) ∧
      (t.stream n).credits = (if x.state = .emptying ∧ kept = [] then x.pages else
        x.credits + ((x.queue.map Committed.left).sum - (q.map Committed.left).sum)) ∧
      (∀ m, m ≠ n → t.stream m = s.stream m) := by
  obtain ⟨ho, k, a, b, hq⟩ := changeQueue_only n (fun c => if c.seq = seq then
    (if groupOf p = 0 then { c with leftA := c.leftA - 1 } else { c with leftB := c.leftB - 1 }) else c)
    (pageSent p n seq left f { s with emitted := [] })
  have hk := ((pageSent_keeps p n seq left f { s with emitted := [] }).weaken (ch' := [.hcp, .upl, .strm]) (by simp)).trans
    (ho.keeps.weaken (by simp))
  have hx := pageSent_only p n seq left f { s with emitted := [] }
  have hstream := fun m => (pageSent_stream p n seq left f { s with emitted := [] } m).trans (show _ = s.stream m from rfl)
  have he := frameTxEnd_packet (s := { s with emitted := [] }) h
  unfold pageLeft at he
  rw [hstream] at hq
  generalize pageSent p n seq left f { s with emitted := [] } = y at he ho hq hk hx hstream
  generalize changeQueue n _ y = z at he ho hq hk
  refine gives_of_effect rfl he (by rw [ho.flt, hx]; exact hInv.acted) hk fun t F => ?_
  have ht : ∀ m, t.stream m = z.stream m := fun m => by
    unfold State.stream
    rw [F.strm]
  have hn := (ht n).trans hq
  refine ⟨fun hl => F.emitted _ ?_, (F.upl.trans ho.upl).trans ((congrArg State.upl hx).trans rfl), ?_, ?_, ?_, ?_, fun m hm => ?_⟩
  · rw [ho.emitted, hx]
    dsimp only
    rw [if_pos hl]
    exact List.mem_append_right _ (List.mem_singleton.mpr rfl)
  · rw [hn, Stream.emptied_queue]
    rfl
  · rw [hn, Stream.emptied_opened]
    rfl
  · rw [hn, Stream.emptied_state]
    rfl
  · rw [hn, Stream.emptied_credits]
    rfl
  · exact (ht m).trans ((ho.others m hm).trans (hstream m))

/-- Settles O47: which frame the transmitter takes, and what its end returns. -/
theorem portsSendControlFramesAndPackets : Obligations.PortsSendControlFramesAndPackets := by
  unfold Obligations.PortsSendControlFramesAndPackets
  refine ⟨?_, ?_, ?_, ?_, ?_, ?_, ?_, ?_, ?_⟩
  · intro s p f hInv hf hu hs hl
    have he : controlFrameTx p f { s with emitted := [] } = ({ s with emitted := [] } : State).setPort p { s.port p with
        control := (s.port p).control ++ [f ++ le 4 (fcs f)] } :=
      (if_pos (show _ from hf)).trans (if_pos ⟨hu, hs, by unfold wireExtra; omega⟩)
    exact gives_of_effect rfl he hInv.acted .of_parts fun t F => F.upl
  · intro s p f hInv hl
    have he : controlFrameTx p f { s with emitted := [] } = { s with emitted := [] } := by
      unfold controlFrameTx queueControl
      rw [if_neg (c := _ ∧ _ ∧ _) fun h => absurd h.2.2 (by unfold wireExtra; omega), ite_self]
    exact gives_nothing (f := controlFrameTx p f) rfl he hInv.acted fun _ _ => trivial
  · intro s p f fs hInv hm hc hw
    refine gives_of_effect rfl (frameTxStart_control (s := { s with emitted := [] }) hm hc hw) hInv.acted ((setPort_keeps _ _ _).trans (startSending_keeps _ _ _))
      fun t F => ⟨?_, fun k hk => ?_⟩
    · rw [port_of_upl F.upl, startSending_self, port_setPort_self]
      rfl
    · rw [port_of_upl F.upl, startSending_ne _ _ hk, port_setPort_ne _ _ hk]
      rfl
  · intro s p o n c hInv hm hc hb hd
    have hw : s.dataWaits p = true := by
      unfold State.dataWaits
      rw [Bool.or_eq_true, Bool.not_eq_true', List.isEmpty_eq_false_iff]
      exact .inl (List.ne_nil_of_mem (firstCommitted_mem hb))
    refine gives_of_effect rfl ((frameTxStart_data (s := { s with emitted := [] }) hm hc hw).trans (startData_packet hb hd))
      hInv.acted (startPacket_keeps _ _ _ _) fun t F => ⟨F.strm, ?_⟩
    rw [dataWaits_of F.strm F.upl, startPacket, startSending_waits]
    exact F.upl
  · intro s p o d ds hInv hm hc hq ho
    have hw : s.dataWaits p = true := by
      unfold State.dataWaits
      rw [hq, Bool.or_eq_true]
      exact .inr rfl
    refine gives_of_effect rfl ((frameTxStart_data (s := { s with emitted := [] }) hm hc hw).trans (startData_dump hq ho))
      hInv.acted ((setPort_keeps _ _ _).trans (startSending_keeps _ _ _)) fun t F => ⟨?_, fun k hk => ?_⟩
    · rw [dataWaits_of F.strm F.upl, startSending_waits, port_of_upl F.upl, startSending_self, port_setPort_self]
      rfl
    · rw [port_of_upl F.upl, startSending_ne _ _ hk, port_setPort_ne _ _ hk]
      rfl
  · intro s p hInv h
    exact gives_nothing rfl (frameTxStart_none (s := { s with emitted := [] }) h) hInv.acted fun _ _ => trivial
  · intro s p f hInv h
    exact gives_of_effect rfl (frameTxEnd_frame (s := { s with emitted := [] }) h) hInv.acted .of_parts fun t F =>
      ⟨F.emitted _ (by simp [endFrame, State.emit]), F.upl⟩
  · intro s p n hInv h
    have he : frameTxEnd p { s with emitted := [] } = countFrame p n { s with emitted := [] } := by
      unfold frameTxEnd
      rw [show (State.port { s with emitted := [] } p).sending = some (.message n) from h]
    exact gives_of_effect rfl he hInv.acted .of_parts fun t F => F.upl
  · intro s p n seq left f hInv h
    exact frameTxEnd_page hInv h

end Sys2Proof.Machine
end

