-- ==== Sys2Proof/Proofs/IslandStates.lean ====
section
/-! SUPPORT. The states of the machine safety island (15_safety, Table SAFE-6). -/

namespace Sys2Proof.Machine

set_option Elab.async false

/-- A command that changes the island alone. -/
theorem gives_of_island {i : Instr} {s : State} {f : State → State} {g : Island → Island} {post : State → Prop}
    (hi : exec i s = .next (after f s)) (he : f { s with emitted := [] } = ({ s with emitted := [] } : State).onIsland g)
    (hInv : s.Inv) (hp : ∀ t, t.island = g s.island → post t) : Gives i s [.island] post :=
  gives_of_effect hi he hInv.acted .of_parts fun t F => hp t F.island

theorem noteDisagree_eq (tick : Nat) (i : Island) : i.noteDisagree tick = { i with disagree := (i.noteDisagree tick).disagree } := rfl

theorem lockout_state (tick : Nat) (i : Island) : (i.lockout tick).state = .lockout := rfl
theorem lockout_fault (tick : Nat) (i : Island) : (i.lockout tick).internalFault = true := rfl
theorem lockout_sout (tick : Nat) (i : Island) : (i.lockout tick).sout = 0 := rfl

/-- A command that locks the island out. -/
theorem gives_lockout {i : Instr} {s : State} {f : State → State} (hi : exec i s = .next (after f s))
    (he : f { s with emitted := [] } = ({ s with emitted := [] } : State).onIsland fun i => i.lockout s.tick) (hInv : s.Inv) :
    Gives i s [.island] fun x => x.island.state = .lockout ∧ x.island.internalFault = true ∧ x.island.sout = 0 :=
  gives_of_island hi he hInv fun t ht => by
    rw [ht]
    exact ⟨lockout_state .., lockout_fault .., lockout_sout ..⟩

theorem bootDone_of_boot {s : State} (h : s.island.state = .boot) (ok : Bool) : safeIslandBootDone ok s =
    if !ok then s.onIsland fun i => i.lockout s.tick
    else if wordOk s.island.swT s.island.swC then
      s.onIsland fun i => { i with
        state := .run, word := i.swT, wordValid := true, cycleTick := s.tick
        soutSince := (List.range 4).foldl (fun t n => tset 0 t n s.tick) [] }.noteDisagree s.tick
    else s.onIsland fun i => { i with state := .configFault, word := i.swT, cfgInvalid := true } :=
  if_neg (not_not_intro h)

/-- Settles O50: each command by the branch of its function that its premises take. -/
theorem islandBootsRunsAndFails : Obligations.IslandBootsRunsAndFails := by
  unfold Obligations.IslandBootsRunsAndFails
  refine ⟨?_, ?_, ?_, ?_, ?_, ?_, ?_, ?_, ?_, ?_, ?_⟩
  · intro s t c hInv ho
    exact gives_of_effect (f := safeIslandPowerUp t c) rfl (if_pos ho) hInv.acted .of_parts fun x F => ⟨F.chip, F.island⟩
  · intro s hInv hb hw
    refine gives_of_island rfl ((bootDone_of_boot (s := { s with emitted := [] }) hb true).trans
      ((if_neg (by decide)).trans (if_pos hw))) hInv fun t ht => ?_
    rw [ht, noteDisagree_eq]
    exact ⟨rfl, rfl, rfl, rfl, rfl, rfl, rfl⟩
  · intro s hInv hb hw
    exact gives_of_island rfl ((bootDone_of_boot (s := { s with emitted := [] }) hb true).trans
      ((if_neg (by decide)).trans (if_neg (Bool.eq_false_iff.mp hw)))) hInv fun _ ht => ht
  · intro s hInv hb
    exact gives_lockout rfl ((bootDone_of_boot (s := { s with emitted := [] }) hb false).trans (if_pos rfl)) hInv
  · intro s hInv hb ht
    exact gives_lockout (f := safeIslandBootTimeout) rfl (if_pos ⟨hb, ht⟩) hInv
  · intro s hInv _ ht
    exact gives_nothing (f := safeIslandBootTimeout) rfl (if_neg fun h => absurd h.2 (Nat.not_le.mpr ht)) hInv.acted
      fun _ _ => trivial
  · intro s hInv
    exact gives_of_effect (f := vddSafeLoss) rfl rfl hInv.acted .of_parts fun x F => ⟨F.chip, F.island⟩
  · intro s t c hInv hr hd
    refine gives_of_island (f := configChange t c) rfl (if_pos ⟨hr, hd⟩) hInv fun x hx => ?_
    rw [hx]
    exact ⟨rfl, rfl, rfl, rfl, rfl, rfl⟩
  · intro s hInv hr
    exact gives_lockout (f := safeDiagFail) rfl (if_pos hr) hInv
  · intro s n hInv hr hn
    exact gives_lockout (f := outputTestPulse n false) rfl (if_pos (by simp [hr, hn])) hInv
  · intro s n seen hInv h
    refine gives_nothing (f := outputTestPulse n seen) rfl (if_neg ?_) hInv.acted fun _ _ => trivial
    obtain rfl | h | h := h
    · simp
    · simp [h]
    · intro hc
      rw [Bool.and_eq_true, Bool.and_eq_true] at hc
      exact absurd (h.symm.trans hc.1.2) (by decide)

end Sys2Proof.Machine
end

