-- ==== Sys2Proof/Proofs/IslandInputs.lean ====
section
/-! SUPPORT. The inputs of the machine safety island: test pulses, levels, discrepancies, the two-hand control and presses
(15_safety, Tables SAFE-2 and SAFE-3). -/

namespace Sys2Proof.Machine

set_option Elab.async false

/-! ## Bits of a set of numbers -/

theorem getLsbD_pow {w n k : Nat} (hk : k < w) : (BitVec.ofNat w (2 ^ n)).getLsbD k = decide (n = k) := by
  rw [BitVec.getLsbD_ofNat, Nat.testBit_two_pow, decide_eq_true hk, Bool.true_and]

/-- The set of some numbers, built up bit by bit. -/
theorem getLsbD_foldl_or {w k : Nat} (hk : k < w) (f : Nat → Nat) : ∀ (l : List Nat) (m : BitVec w),
    ((l.foldl (fun m n => m ||| BitVec.ofNat w (2 ^ f n)) m).getLsbD k = true ↔ m.getLsbD k = true ∨ ∃ n ∈ l, f n = k)
  | [], m => by simp
  | n :: l, m => by
    rw [List.foldl_cons, getLsbD_foldl_or hk f l, BitVec.getLsbD_or, Bool.or_eq_true, getLsbD_pow hk, decide_eq_true_eq]
    simp [or_assoc]

/-! ## Test pulses (R394, R395) -/

theorem noteOpen_eq (i : Island) : i.noteOpen = { i with openSeen := i.noteOpen.openSeen } := rfl

/-- The inputs fed by TPOt that stay high in its pulse, and those that it pulls low and does not feed. -/
def Island.stuckIn (i : Island) (t : Nat) (stuck : W16) : List Nat :=
  below 16 fun n => (n % 8 == t && i.pulsedInput n) && stuck.getLsbD n

def Island.lowIn (i : Island) (t : Nat) (low : W16) : List Nat :=
  below 16 fun n => n % 8 != t && i.pulsedInput n && i.sin.getLsbD n && low.getLsbD n

/-- The pairs of some inputs. -/
def pairBits (ns : List Nat) : Byte := ns.foldl (fun m n => m ||| BitVec.ofNat 8 (2 ^ (n / 2))) 0

theorem pulseSeen_only (i : Island) (t : Nat) (ok : Bool) (stuck low : W16) : ∃ a b c, i.pulseSeen t ok stuck low = { i with
    tpoFault := i.tpoFault || !ok, stuckHigh := i.stuckHigh ||| pairBits (i.stuckIn t stuck)
    crossShort := i.crossShort ||| pairBits (i.lowIn t low), stuckNow := a, crossNow := b, openSeen := c } :=
  ⟨_, _, _, (noteOpen_eq _).trans rfl⟩

theorem mem_pairBits {k : Nat} (hk : k < 8) (ns : List Nat) : (pairBits ns).getLsbD k = true ↔ ∃ n ∈ ns, n / 2 = k := by
  unfold pairBits
  rw [getLsbD_foldl_or hk (· / 2)]
  simp

theorem testPulse_run {s : State} {t : Nat} (ok : Bool) (stuck low : W16) (h : s.island.state = .run) : testPulse t ok stuck low s =
    if !s.island.tpoUsed t then s.onIsland fun i => { i with tpoFault := i.tpoFault || !ok }
    else if !s.island.inPulse t 2500000 s.tick then s
    else (s.onIsland fun i => i.pulseSeen t ok stuck low).emit (.tpoPulse t) := if_neg (not_not_intro h)

theorem testPulse_idle {s : State} {t : Nat} {ok : Bool} {stuck low : W16}
    (h : s.island.state ≠ .run ∨ s.island.tpoUsed t = true ∧ s.island.inPulse t 2500000 s.tick = false) :
    testPulse t ok stuck low s = s := by
  unfold testPulse
  split
  · rfl
  · next hr =>
    obtain ⟨hu, hp⟩ := h.resolve_left hr
    rw [hu, hp]
    rfl

/-! ## Recognised levels (R395, R396) -/

theorem holds_pos (i : Island) (n : Nat) (b : Bool) : 0 < i.holds n b := by
  unfold Island.holds
  split <;> omega

theorem recognised_of_held {i : Island} {n tick : Nat} {samples : List Bool} {b : Bool}
    (h : (i.kept n tick samples).take (i.holds n b) = List.replicate (i.holds n b) b) : i.recognised n tick samples = some b := by
  have hpos := holds_pos i n b
  unfold Island.recognised
  cases hk : i.kept n tick samples with
  | nil =>
    rw [hk, List.take_nil] at h
    exact absurd (congrArg List.length h) (by rw [List.length_replicate, List.length_nil]; omega)
  | cons level rest =>
    rw [hk] at h
    obtain ⟨k, hk'⟩ := Nat.exists_eq_succ_of_ne_zero hpos.ne'
    have hlevel : level = b := by
      rw [hk', List.take_succ_cons, List.replicate_succ] at h
      exact (List.cons.inj h).1
    subst hlevel
    dsimp only
    rw [h]
    exact if_pos ⟨List.length_replicate .., by simp⟩

theorem inputRecognised_level {s : State} {n : Nat} {samples : List Bool} {b : Bool} (h : s.island.state = .run)
    (hr : s.island.recognised n s.tick samples = some b) : inputRecognised n samples s = s.onIsland fun i =>
      ({ i with sin := if b then i.sin ||| BitVec.ofNat 16 (2 ^ n) else i.sin &&& ~~~BitVec.ofNat 16 (2 ^ n) }.noteDisagree
        s.tick).noteOpen := by
  unfold inputRecognised
  rw [h, hr]

theorem inputRecognised_idle {s : State} {n : Nat} {samples : List Bool}
    (h : s.island.state ≠ .run ∨ s.island.recognised n s.tick samples = none) : inputRecognised n samples s = s := by
  unfold inputRecognised
  split
  · next hs hl => exact absurd hs (h.resolve_right (by rw [hl]; simp))
  · rfl

/-- A bit of a word that is set or cleared. -/
theorem getLsbD_setBit (w : W16) {n : Nat} (hn : n < 16) (b : Bool) (k : Nat) :
    (if b then w ||| BitVec.ofNat 16 (2 ^ n) else w &&& ~~~BitVec.ofNat 16 (2 ^ n)).getLsbD k =
      if k = n then b else w.getLsbD k := by
  by_cases hk : k < 16
  · cases b
    · rw [if_neg (by decide), BitVec.getLsbD_and, BitVec.getLsbD_not, getLsbD_pow hk, decide_eq_true hk, Bool.true_and]
      by_cases h : k = n
      · rw [if_pos h, decide_eq_true h.symm, Bool.not_true, Bool.and_false]
      · rw [if_neg h, decide_eq_false (Ne.symm h), Bool.not_false, Bool.and_true]
    · rw [if_pos rfl, BitVec.getLsbD_or, getLsbD_pow hk]
      by_cases h : k = n
      · rw [if_pos h, decide_eq_true h.symm, Bool.or_true]
      · rw [if_neg h, decide_eq_false (Ne.symm h), Bool.or_false]
  · rw [BitVec.getLsbD_of_ge _ _ (by omega), if_neg (by omega), BitVec.getLsbD_of_ge _ _ (by omega)]

/-! ## Discrepancies and presses (R397, R400) -/

theorem discrepancyTimeout_late {s : State} {p : Nat} (h : s.island.state = .run) (h0 : 0 < tget 0 s.island.disagree p)
    (ht : tget 0 s.island.disagree p - 1 + s.island.discrepancyTime < s.tick) : discrepancyTimeout p s = s.onIsland fun i =>
      { i with discrepancy := i.discrepancy ||| BitVec.ofNat 8 (2 ^ p), openSeen := i.openSeen &&& ~~~BitVec.ofNat 8 (2 ^ p) } :=
  if_pos ⟨h, h0, ht⟩

/-- READY and the two-hand control are all that the groups' demands and a valid press move. -/
def Island.ReadyOnly (i j : Island) : Prop :=
  j = { i with readyX := j.readyX, readyY := j.readyY, thStarted := j.thStarted, thReleased := j.thReleased }

theorem Island.ReadyOnly.trans {i j k : Island} (h : i.ReadyOnly j) (h' : j.ReadyOnly k) : i.ReadyOnly k := by
  unfold Island.ReadyOnly at *
  rw [h', h]

theorem setReady_only (i : Island) (y v : Bool) : i.ReadyOnly (i.setReady y v) := by cases y <;> rfl

theorem clearReady_only (y : Bool) (i : Island) : i.ReadyOnly (i.clearReady y) := by
  unfold Island.clearReady
  split
  · exact setReady_only ..
  · rfl

theorem demands_only (i : Island) : i.ReadyOnly i.demands := (clearReady_only ..).trans (clearReady_only ..)

theorem giveReady_only (y : Bool) (i : Island) : i.ReadyOnly (i.giveReady y) := by
  unfold Island.giveReady
  dsimp only
  split
  · split
    · exact (setReady_only i y true).trans rfl
    · exact setReady_only ..
  · rfl

theorem release_none {i : Island} (tick : Nat) (h : i.pressSince = none) : i.release tick = i := by
  unfold Island.release
  rw [h]

theorem release_valid {i : Island} {tick k : Nat} (h : i.pressSince = some k) (h1 : k + 100000000 ≤ tick)
    (h2 : tick < k + 3000000000) : Island.ReadyOnly
      ({ i with pressSince := none, presses := i.presses + 1, resetStuck := false }.clearFaults tick) (i.release tick) := by
  unfold Island.release
  rw [h]
  dsimp only
  rw [if_pos ⟨h1, h2⟩]
  exact ((demands_only _).trans (giveReady_only ..)).trans (giveReady_only ..)

theorem release_invalid {i : Island} {tick k : Nat} (h : i.pressSince = some k) (hk : tick < k + 100000000 ∨ k + 3000000000 ≤ tick) :
    i.release tick = { i with pressSince := none } := by
  unfold Island.release
  rw [h]
  dsimp only
  rw [if_neg (by omega)]

theorem resetStuck_late {s : State} {k : Nat} (h : s.island.state = .run) (hp : s.island.pressSince = some k)
    (hk : k + 3000000000 ≤ s.tick) : resetStuck s = s.onIsland fun i => { i with resetStuck := true } := by
  unfold resetStuck
  rw [hp]
  exact if_pos ⟨h, hk⟩

/-! ## The two-hand control (R398) -/

theorem twoHandTimeout_late {s : State} {k : Nat} (h : s.island.state = .run) (ho : s.island.thOpen = true)
    (hOn : s.island.thOnset = some k) (hk : k + 500000000 < s.tick) (hAll : s.island.allButtons false = true) :
    twoHandTimeout s = s.onIsland fun i => i.twoHandStep s.tick := by
  unfold twoHandTimeout
  dsimp only
  rw [h, ho, hOn, hAll]
  exact if_pos (by simpa using hk)

/-- A second onset that comes too late starts nothing. -/
theorem twoHandStep_late {i : Island} {tick k : Nat} (hOn : i.thOnset = some k) (hk : k + 500000000 < tick)
    (hAll : i.allButtons false = true) (hRest : i.allButtons true = false) (hSt : i.thStarted = false) (ho : i.thOpen = true) :
    i.twoHandStep tick = { i with
      thOpen := false, thReleased := false, thOnset := none, thTimeout := true, thStarted := false } := by
  unfold Island.twoHandStep
  rw [hAll, hRest, hSt, ho, hOn]
  dsimp only [Option.getD_some]
  rw [decide_eq_true hk]
  simp

/-- Settles O51: each command by the branch that its premises take. -/
theorem islandInputsAndPressesAreJudged : Obligations.IslandInputsAndPressesAreJudged := by
  unfold Obligations.IslandInputsAndPressesAreJudged
  refine ⟨?_, ?_, ?_, ?_, ?_, ?_, ?_, ?_, ?_, ?_, ?_, ?_⟩
  · intro s p ok stuck low hInv hr hu hp
    obtain ⟨a, b, c, hseen⟩ := pulseSeen_only s.island p ok stuck low
    have he := (testPulse_run (t := p) (s := { s with emitted := [] }) ok stuck low hr).trans
      ((if_neg (by rw [show Island.tpoUsed _ _ = true from hu]; decide)).trans
        (if_neg (by rw [show Island.inPulse _ _ _ _ = true from hp]; decide)))
    refine gives_of_effect rfl he hInv.acted .of_parts fun t F => ?_
    have ht : t.island = s.island.pulseSeen p ok stuck low := F.island
    rw [ht, hseen]
    refine ⟨F.emitted _ (by simp [State.emit]), fun k hk => ?_, fun k hk => ?_, rfl, rfl, rfl⟩
    · dsimp only
      rw [BitVec.getLsbD_or, Bool.or_eq_true, mem_pairBits hk]
      refine or_congr_right (exists_congr fun n => ?_)
      unfold Island.stuckIn below
      simp only [List.mem_filter, List.mem_range, Bool.and_eq_true, beq_iff_eq]
      tauto
    · dsimp only
      rw [BitVec.getLsbD_or, Bool.or_eq_true, mem_pairBits hk]
      refine or_congr_right (exists_congr fun n => ?_)
      unfold Island.lowIn below
      simp only [List.mem_filter, List.mem_range, Bool.and_eq_true, bne_iff_ne]
      tauto
  · intro s p ok stuck low hInv hr hu
    exact gives_of_island rfl ((testPulse_run (t := p) (s := { s with emitted := [] }) ok stuck low hr).trans
      (if_pos (by rw [show Island.tpoUsed _ _ = false from hu]; rfl))) hInv fun _ ht => ht
  · intro s p ok stuck low hInv h
    exact gives_nothing rfl (testPulse_idle (s := { s with emitted := [] }) h) hInv.acted fun _ _ => trivial
  · intro s n b samples hInv hr hk
    refine gives_of_island rfl (inputRecognised_level (s := { s with emitted := [] }) hr (recognised_of_held hk)) hInv
      fun t ht => ?_
    rw [noteOpen_eq, noteDisagree_eq] at ht
    rw [ht]
    exact ⟨(getLsbD_setBit _ n.isLt b n).trans (if_pos rfl), fun k hk => (getLsbD_setBit _ n.isLt b k).trans (if_neg hk), rfl, rfl⟩
  · intro s n samples hInv h
    exact gives_nothing rfl (inputRecognised_idle (s := { s with emitted := [] }) h) hInv.acted fun _ _ => trivial
  · intro s p hInv hr h0 ht
    refine gives_of_island rfl (discrepancyTimeout_late (s := { s with emitted := [] }) hr h0 ht) hInv fun t h => ?_
    rw [h]
    exact ⟨rfl, rfl, rfl⟩
  · intro s p hInv _ _ ht
    exact gives_nothing (f := discrepancyTimeout p) rfl (if_neg fun h => absurd h.2.2 (Nat.not_lt.mpr ht)) hInv.acted
      fun _ _ => trivial
  · intro s k hInv hr ho hOn hk hAll hRest hSt
    have he : twoHandTimeout { s with emitted := [] } = ({ s with emitted := [] } : State).onIsland fun i => i.twoHandStep s.tick :=
      twoHandTimeout_late (s := { s with emitted := [] }) hr ho hOn hk hAll
    exact gives_of_island rfl he hInv fun t ht => ht.trans (twoHandStep_late hOn hk hAll hRest hSt ho)
  · intro s k hInv hr hp h1 h2
    have hx := release_valid (i := { s.island with srstHighSince := s.island.srstHighSince.or (some s.tick) }) hp h1 h2
    refine gives_of_island (f := resetPressRelease) rfl (if_pos hr) hInv fun t ht => ?_
    unfold Island.ReadyOnly at hx
    rw [ht, hx]
    exact ⟨rfl, rfl, rfl, rfl, rfl, rfl, rfl, rfl⟩
  · intro s k hInv hr hp hk
    refine gives_of_island (f := resetPressRelease) rfl (if_pos hr) hInv fun t ht => ?_
    rw [ht, release_invalid (by exact hp) hk]
    exact ⟨rfl, rfl, rfl, rfl, rfl⟩
  · intro s hInv hr hp
    refine gives_of_island (f := resetPressRelease) rfl (if_pos hr) hInv fun t ht => ?_
    rw [ht, release_none _ (by exact hp)]
    cases s.island.srstHighSince <;> rfl
  · intro s k hInv hr hp hk
    exact gives_of_island rfl (resetStuck_late (s := { s with emitted := [] }) hr hp hk) hInv fun _ ht => ht

end Sys2Proof.Machine
end

