-- ==== Sys2Proof/Proofs/IslandOutputs.lean ====
section
/-! SUPPORT. The outputs of the machine safety island (15_safety, Table SAFE-5). -/

namespace Sys2Proof.Machine

set_option Elab.async false

/-! ## What a step of the island tick leaves -/

/-- The state, the inputs and the readback levels stay. -/
structure Island.Samples (i j : Island) : Prop where
  state : j.state = i.state
  srb : j.srb = i.srb
  sin : j.sin = i.sin

theorem Island.Samples.refl (i : Island) : i.Samples i := ⟨rfl, rfl, rfl⟩

theorem Island.Samples.trans {i j k : Island} (h : i.Samples j) (h' : j.Samples k) : i.Samples k :=
  ⟨h'.state.trans h.state, h'.srb.trans h.srb, h'.sin.trans h.sin⟩

theorem Island.ReadyOnly.samples {i j : Island} (h : i.ReadyOnly j) : i.Samples j := by
  rw [show j = _ from h]
  exact ⟨rfl, rfl, rfl⟩

theorem release_samples (tick : Nat) (i : Island) : i.Samples (i.release tick) := by
  cases hp : i.pressSince with
  | none =>
    rw [release_none tick hp]
    exact .refl i
  | some k =>
    by_cases hk : k + 100000000 ≤ tick ∧ tick < k + 3000000000
    · have hs := (release_valid hp hk.1 hk.2).samples
      exact ⟨hs.state.trans rfl, hs.srb.trans rfl, hs.sin.trans rfl⟩
    · rw [release_invalid hp (by omega)]
      exact ⟨rfl, rfl, rfl⟩

/-- The two-hand control's own registers are all that its step changes. -/
theorem twoHandStep_only (tick : Nat) (i : Island) : ∃ a b c d e, i.twoHandStep tick = { i with
    thStarted := a, thOpen := b, thReleased := c, thOnset := d, thTimeout := e } := by
  unfold Island.twoHandStep
  split
  · exact ⟨_, _, _, _, _, rfl⟩
  · split
    · split
      · exact ⟨_, _, _, _, _, rfl⟩
      · exact ⟨_, _, _, _, _, rfl⟩
    · split
      · exact ⟨_, _, _, _, _, rfl⟩
      · exact ⟨_, _, _, _, _, rfl⟩

theorem twoHandStep_samples (tick : Nat) (i : Island) : i.Samples (i.twoHandStep tick) := by
  obtain ⟨_, _, _, _, _, h⟩ := twoHandStep_only tick i
  rw [h]
  exact ⟨rfl, rfl, rfl⟩

/-! ## The outputs (R402, R403) -/

/-- The island with OUTPUT_FAULT, where an output may not be energised. -/
def Island.breached (tick : Nat) (i : Island) : Island := if i.energiseBreach tick then { i with outputFault := true } else i

theorem settleOutputs_eq (tick : Nat) (i : Island) :
    i.settleOutputs tick = (i.breached tick).drive tick (i.breached tick).levels := rfl

theorem breached_only (tick : Nat) (i : Island) : ∃ a, i.breached tick = { i with outputFault := a } := by
  unfold Island.breached
  split
  · exact ⟨_, rfl⟩
  · exact ⟨_, rfl⟩

theorem settleOutputs_only (tick : Nat) (i : Island) : ∃ a b c, i.settleOutputs tick = { i with
    outputFault := a, sout := b, soutSince := c } := by
  obtain ⟨a, ha⟩ := breached_only tick i
  rw [settleOutputs_eq, ha]
  exact ⟨_, _, _, rfl⟩

theorem settleOutputs_samples (tick : Nat) (i : Island) : i.Samples (i.settleOutputs tick) := by
  obtain ⟨_, _, _, h⟩ := settleOutputs_only tick i
  rw [h]
  exact ⟨rfl, rfl, rfl⟩

theorem levels_wanted {i : Island} {n : Nat} (h : i.levels.getLsbD n = true) : ∃ y, n ∈ i.outputs y ∧ i.wanted y = true := by
  have hn := BitVec.lt_of_getLsbD h
  have step : ∀ (m : BitVec 4) (y : Bool), (if i.wanted y then (i.outputs y).foldl (fun m n => m ||| BitVec.ofNat 4 (2 ^ n)) m
      else m).getLsbD n = true → m.getLsbD n = true ∨ n ∈ i.outputs y ∧ i.wanted y = true := by
    intro m y hm
    split at hm
    · next hw =>
      obtain hm | ⟨k, hk, rfl⟩ := (getLsbD_foldl_or hn id _ _).mp hm
      · exact .inl hm
      · exact .inr ⟨hk, hw⟩
    · exact .inl hm
  unfold Island.levels at h
  rw [List.foldl_cons, List.foldl_cons, List.foldl_nil] at h
  obtain h | h := step _ true h
  · obtain h | h := step _ false h
    · exact absurd h (by simp)
    · exact ⟨_, h⟩
  · exact ⟨_, h⟩

theorem wanted_iff (i : Island) (y : Bool) : i.wanted y = true ↔ i.state = .run ∧ i.ready y = true ∧
    (∀ p ∈ i.followed y, i.enabledAt p = true) ∧ (i.groupTwoHand y = true → i.thStarted = true) ∧
    i.wideFault = false ∧ (i.outputs y).isEmpty = false := by
  unfold Island.wanted
  simp only [Bool.and_eq_true, beq_iff_eq, List.all_eq_true, Bool.or_eq_true, Bool.not_eq_true', and_assoc]
  refine and_congr_right fun _ => and_congr_right fun _ => and_congr_right fun _ => and_congr_left fun _ => ?_
  cases i.groupTwoHand y <;> simp

/-- An output that a settled island energises belongs to a group with READY, no demand, no missing start and no wide fault. -/
theorem settleOutputs_sound {i : Island} {tick n : Nat} (h : (i.settleOutputs tick).sout.getLsbD n = true) :
    let t := i.settleOutputs tick
    ∃ y, n ∈ t.outputs y ∧ t.ready y = true ∧ (∀ p ∈ t.followed y, t.enabledAt p = true) ∧
      (t.groupTwoHand y = true → t.thStarted = true) ∧ t.tpoFault = false ∧ t.cfgChanged = false ∧ t.internalFault = false ∧
      t.outputFault = false := by
  rw [settleOutputs_eq] at h ⊢
  obtain ⟨y, hy, hw⟩ := levels_wanted (i := i.breached tick) h
  obtain ⟨-, hready, hen, hth, hwide, -⟩ := (wanted_iff _ _).mp hw
  unfold Island.wideFault at hwide
  rw [Bool.or_eq_false_iff, Bool.or_eq_false_iff, Bool.or_eq_false_iff] at hwide
  obtain ⟨⟨⟨ho, ht⟩, hc⟩, hi⟩ := hwide
  exact ⟨y, hy, hready, hen, hth, ht, hc, hi, ho⟩

/-! ## The island tick (R406) -/

/-- The island after the levels of a tick, its readback check and the demands of its functions. -/
def Island.judged (tick : Nat) (srb : BitVec 4) (b : Bool) (i : Island) : Island :=
  let i := i.sample tick srb b
  (if i.checked.any (i.readbackBad tick) then { i with outputFault := true } else i).demands

def Island.ticked (tick : Nat) (srb : BitVec 4) (b : Bool) (i : Island) : Island :=
  ((if b then (i.judged tick srb b).release tick else i.judged tick srb b).twoHandStep tick).settleOutputs tick

theorem islandTick_run {srb : BitVec 4} {b : Bool} {s : State} (h : s.island.state = .run) :
    islandTick srb b s = s.onIsland (Island.ticked s.tick srb b) := by
  unfold islandTick
  rw [if_neg (by rw [h]; decide), if_neg (not_not_intro h)]
  rfl

theorem sample_state (tick : Nat) (srb : BitVec 4) (b : Bool) (i : Island) : (i.sample tick srb b).state = i.state ∧
    (i.sample tick srb b).srb = srb ∧ (i.sample tick srb b).sin = i.sin ∧
    (i.sample tick srb b).readyX = i.readyX ∧ (i.sample tick srb b).readyY = i.readyY := by
  unfold Island.sample
  cases b <;> exact ⟨rfl, rfl, rfl, rfl, rfl⟩

theorem sample_press (tick : Nat) (srb : BitVec 4) (i : Island) : (i.sample tick srb true).pressSince = i.pressSince := rfl

theorem judged_state (tick : Nat) (srb : BitVec 4) (b : Bool) (i : Island) : (i.judged tick srb b).state = i.state ∧
    (i.judged tick srb b).srb = srb ∧ (i.judged tick srb b).sin = i.sin := by
  obtain ⟨hst, hsrb, hsin, -⟩ := sample_state tick srb b i
  have hx : ∀ j : Island, j.Samples (if j.checked.any (j.readbackBad tick) then { j with outputFault := true } else j).demands :=
    fun j => Island.Samples.trans (by split <;> exact ⟨rfl, rfl, rfl⟩) (demands_only _).samples
  have hs := hx (i.sample tick srb b)
  exact ⟨hs.state.trans hst, hs.srb.trans hsrb, hs.sin.trans hsin⟩

theorem ticked_samples (tick : Nat) (srb : BitVec 4) (b : Bool) (i : Island) :
    (i.judged tick srb b).Samples (i.ticked tick srb b) := by
  unfold Island.ticked
  have h1 : (i.judged tick srb b).Samples (if b then (i.judged tick srb b).release tick else i.judged tick srb b) := by
    split
    · exact release_samples ..
    · exact .refl _
  exact (h1.trans (twoHandStep_samples ..)).trans (settleOutputs_samples ..)

/-! ## READY without a press (R400) -/

theorem setReady_ready (i : Island) (z y : Bool) (h : i.ready y = false) : (i.setReady z false).ready y = false := by
  cases z
  · cases y
    · rfl
    · exact h
  · cases y
    · exact h
    · rfl

theorem clearReady_ready (z y : Bool) {i : Island} (h : i.ready y = false) : (i.clearReady z).ready y = false := by
  unfold Island.clearReady
  split
  · exact setReady_ready i z y h
  · exact h

theorem demands_ready {i : Island} {y : Bool} (h : i.ready y = false) : i.demands.ready y = false :=
  clearReady_ready _ _ (clearReady_ready _ _ h)

theorem ready_same {i j : Island} (hx : j.readyX = i.readyX) (hy : j.readyY = i.readyY) (y : Bool) : j.ready y = i.ready y := by
  unfold Island.ready
  rw [hx, hy]

theorem ticked_ready {tick : Nat} {srb : BitVec 4} {b y : Bool} {i : Island} (hp : i.pressSince = none)
    (hr : i.ready y = false) : (i.ticked tick srb b).ready y = false := by
  have hj : (i.judged tick srb b).ready y = false := by
    obtain ⟨-, -, -, hX, hY⟩ := sample_state tick srb b i
    unfold Island.judged
    dsimp only
    refine demands_ready ?_
    split
    · exact (ready_same hX hY y).trans hr
    · exact (ready_same hX hY y).trans hr
  have hpress : b = true → (i.judged tick srb b).pressSince = none := by
    rintro rfl
    unfold Island.judged
    dsimp only
    rw [show ∀ j : Island, j.demands = _ from fun j => demands_only j]
    split
    · exact (sample_press tick srb i).trans hp
    · exact (sample_press tick srb i).trans hp
  have hrel : (if b then (i.judged tick srb b).release tick else i.judged tick srb b) = i.judged tick srb b := by
    split
    · next h => exact release_none tick (hpress h)
    · rfl
  unfold Island.ticked
  rw [hrel]
  obtain ⟨_, _, _, _, _, h2⟩ := twoHandStep_only tick (i.judged tick srb b)
  obtain ⟨_, _, _, h3⟩ := settleOutputs_only tick ((i.judged tick srb b).twoHandStep tick)
  rw [h3, h2]
  exact (ready_same rfl rfl y).trans hj

/-- Settles O52: an output is driven only where its group is wanted; without a press READY only falls. -/
theorem outputsFollowReadyAndTheFunctions : Obligations.OutputsFollowReadyAndTheFunctions := by
  unfold Obligations.OutputsFollowReadyAndTheFunctions
  refine ⟨?_, ?_, ?_, ?_, ?_⟩
  · intro s srb b hInv hr
    refine gives_of_island rfl (islandTick_run (s := { s with emitted := [] }) hr) hInv fun t ht => ?_
    have ht : t.island = s.island.ticked s.tick srb b := ht
    obtain ⟨hst, hsrb, hsin⟩ := judged_state s.tick srb b s.island
    have hs := ticked_samples s.tick srb b s.island
    rw [ht]
    exact ⟨(hs.state.trans hst).trans hr, hs.srb.trans hsrb, hs.sin.trans hsin, fun n hn => settleOutputs_sound hn⟩
  · intro s srb b hInv hr
    by_cases ho : s.island.state = .off
    · refine gives_nothing (f := islandTick srb b) rfl (if_pos ho) hInv.acted fun t F => ?_
      rw [if_pos ho]
      exact F.island
    · refine gives_of_island (f := islandTick srb b) rfl ((if_neg ho).trans (if_pos hr)) hInv fun t ht => ?_
      rw [if_neg ho]
      exact ht
  · intro s srb b y hInv hr hp hy
    refine gives_of_island rfl (islandTick_run (s := { s with emitted := [] }) hr) hInv fun t ht => ?_
    rw [ht]
    exact ticked_ready hp hy
  · intro s n hInv hr hn ht hb
    have hbad : s.island.readbackBad s.tick n = true := by
      unfold Island.readbackBad
      rw [hb, decide_eq_true ht, List.contains_iff_mem.mpr hn]
      cases s.island.sout.getLsbD n <;> rfl
    refine gives_of_island (f := readbackTimeout n) rfl (if_pos ?_) hInv fun t h => ?_
    · rw [Bool.and_eq_true]
      exact ⟨beq_iff_eq.mpr hr, hbad⟩
    · rw [h]
      exact ⟨rfl, rfl, hr⟩
  · intro s n hInv hb
    have hgood : s.island.readbackBad s.tick n = false := by
      unfold Island.readbackBad
      rw [hb]
      cases s.island.sout.getLsbD n <;> simp
    refine gives_nothing (f := readbackTimeout n) rfl (if_neg fun h => ?_) hInv.acted fun _ _ => trivial
    rw [Bool.and_eq_true] at h
    exact absurd (h.2.symm.trans hgood) (by decide)

end Sys2Proof.Machine
end

