-- ==== Sys2Proof/Proofs/CaptureHits.lean ====
section
/-! SUPPORT. The hits of capture windows and the decision on them (10_capture, Tables CAP-3 and CAP-5). -/

namespace Sys2Proof.Machine

set_option Elab.async false

/-! ## Hits of SOFTWARE and NETWORK conditions, which no combination names (R276, R277, R281) -/

/-- The conditions differ in the latest hits they keep alone. -/
def SameConds (c d : Tbl Cond) : Prop := ∀ k, ∃ l, tget {} d k = { tget {} c k with lastHit := l }

theorem SameConds.refl (c : Tbl Cond) : SameConds c c := fun _ => ⟨_, rfl⟩

theorem SameConds.trans {c d e : Tbl Cond} (h : SameConds c d) (k : SameConds d e) : SameConds c e := fun i => by
  obtain ⟨l, hl⟩ := h i
  obtain ⟨m, hm⟩ := k i
  exact ⟨m, by rw [hm, hl]⟩

theorem SameConds.kind {c d : Tbl Cond} (h : SameConds c d) (k : Nat) : (tget {} d k).kind = (tget {} c k).kind := by
  obtain ⟨l, hl⟩ := h k
  rw [hl]

theorem SameConds.flags {c d : Tbl Cond} (h : SameConds c d) (k : Nat) : (tget {} d k).flags = (tget {} c k).flags := by
  obtain ⟨l, hl⟩ := h k
  rw [hl]

theorem SameConds.id {c d : Tbl Cond} (h : SameConds c d) (k : Nat) : (tget {} d k).id = (tget {} c k).id := by
  obtain ⟨l, hl⟩ := h k
  rw [hl]

theorem sameConds_hit (c : Tbl Cond) (k : Nat) (l : Option Rat) : SameConds c (tset {} c k { tget {} c k with lastHit := l }) := by
  intro j
  by_cases hj : j = k
  · subst hj
    exact ⟨l, tget_tset_self ..⟩
  · exact ⟨(tget {} c j).lastHit, tget_tset_ne _ _ _ _ _ hj⟩

theorem foldl_fixed {α β : Type} {f : β → α → β} {b : β} (h : ∀ x, f b x = b) : ∀ l : List α, l.foldl f b = b
  | [] => rfl
  | x :: l => by rw [List.foldl_cons, h, foldl_fixed h l]

theorem componentHit_plain {w : Window} {h : Hit} (hk : componentKind (tget {} w.conds h.cond).kind = false) :
    componentHit w h = ({ w with conds := tset {} w.conds h.cond { tget {} w.conds h.cond with lastHit := some h.time } }, []) := by
  unfold componentHit
  refine foldl_fixed (fun k => if_neg ?_) _
  dsimp only
  rw [tget_tset_self]
  dsimp only
  rw [hk]
  simp

/-- The hits of a list whose conditions make a decision of their own. -/
def Window.deciding (w : Window) (hits : List Hit) : List Hit := hits.filter fun h => (tget {} w.conds h.cond).flags.getLsbD 0

/-- One hit joins those taken. -/
def takeHit (acc : Window × List Hit) (h : Hit) : Window × List Hit :=
  let r := componentHit acc.1 h
  (r.1, (if (tget {} acc.1.conds h.cond).flags.getLsbD 0 then acc.2 ++ [h] else acc.2) ++ r.2)

theorem takeHits_eq {n : Nat} {hits : List Hit} {s : State} (he : (s.win n).evaluates = true) (hr : s.inReset 7 0 = false)
    (hh : hits ≠ []) : takeHits n hits s = s.setWin n { (hits.foldl takeHit (s.win n, [])).1 with
      cycle := (hits.foldl takeHit (s.win n, [])).1.cycle ++ (hits.foldl takeHit (s.win n, [])).2 } := by
  unfold takeHits
  refine (if_neg ?_).trans rfl
  rw [List.isEmpty_iff, he, hr]
  simpa using hh

theorem foldl_takeHit {w : Window} : ∀ (hits : List Hit) (acc : Window × List Hit),
    (∀ h ∈ hits, componentKind (tget {} w.conds h.cond).kind = false) → SameConds w.conds acc.1.conds →
    ∃ c, SameConds w.conds c ∧
      hits.foldl takeHit acc = ({ acc.1 with conds := c }, acc.2 ++ w.deciding hits)
  | [], acc, _, hc => ⟨acc.1.conds, hc, by rw [List.foldl_nil]; simp [Window.deciding]⟩
  | h :: hits, acc, hk, hc => by
    have hkind : componentKind (tget {} acc.1.conds h.cond).kind = false := by
      rw [hc.kind]
      exact hk h List.mem_cons_self
    obtain ⟨c, hsame, hf⟩ := foldl_takeHit hits
      ({ acc.1 with conds := tset {} acc.1.conds h.cond { tget {} acc.1.conds h.cond with lastHit := some h.time } },
        if (tget {} acc.1.conds h.cond).flags.getLsbD 0 then acc.2 ++ [h] else acc.2)
      (fun x hx => hk x (List.mem_cons_of_mem _ hx)) (hc.trans (sameConds_hit _ _ _))
    refine ⟨c, hsame, ?_⟩
    have hstep : takeHit acc h =
        ({ acc.1 with conds := tset {} acc.1.conds h.cond { tget {} acc.1.conds h.cond with lastHit := some h.time } },
          if (tget {} acc.1.conds h.cond).flags.getLsbD 0 then acc.2 ++ [h] else acc.2) := by
      unfold takeHit
      rw [componentHit_plain hkind]
      simp
    rw [List.foldl_cons, hstep, hf, hc.flags]
    unfold Window.deciding
    rw [List.filter_cons]
    split <;> simp

/-- What hits of such conditions leave of their window: the latest hits and those that await the decision. -/
theorem takeHits_plain {n : Nat} {hits : List Hit} {s : State} (he : (s.win n).evaluates = true) (hr : s.inReset 7 0 = false)
    (hk : ∀ h ∈ hits, componentKind (tget {} (s.win n).conds h.cond).kind = false) (hh : hits ≠ []) :
    ∃ c, SameConds (s.win n).conds c ∧ takeHits n hits s = s.setWin n { s.win n with
      conds := c, cycle := (s.win n).cycle ++ (s.win n).deciding hits } := by
  obtain ⟨c, hc, hf⟩ := foldl_takeHit hits (s.win n, []) hk (.refl _)
  refine ⟨c, hc, (takeHits_eq he hr hh).trans ?_⟩
  rw [hf]
  rfl

/-! ## The decision on one hit of an armed window (R280, R286) -/

theorem rheR_natCast (n : Nat) : (rheR (n : Rat)).toNat = n := by
  unfold rheR rhe
  rw [Rat.num_natCast, Rat.den_natCast]
  simp

theorem freezePulses_win (n k : Nat) (s : State) : (freezePulses n s).win k = s.win k := by
  have step : ∀ (os : List Nat) (t : State), t.win k = s.win k → (forEach os (fun o t =>
      let x := t.trigOut o
      if x.mode = 1 ∧ x.windows.getLsbD n ∧ t.chip.phase = .serving then
        (t.setTrigOut o { x with pulseEnd := t.tick + x.width }).emit (.trigPulse o t.now x.width)
      else t) t).win k = s.win k := by
    intro os
    induction os with
    | nil => exact fun _ h => h
    | cons o os ih =>
      intro t h
      refine ih _ (Eq.trans ?_ h)
      dsimp only
      split <;> rfl
  exact step _ s rfl

/-- The window that the hit `h` makes FILLING. -/
def Window.filledBy (h : Hit) (nt first : Int) (flag : Nat) (s : State) (w : Window) : Window := { w with
  state := .filling, nTrig := nt, first := first, recFlags := w.recFlags ||| BitVec.ofNat 16 flag, firstCause := h.cond
  causeMask := 0 ||| BitVec.ofNat 8 (2 ^ h.cond), compMask := h.comps, tTrig := (rheR h.time).toNat, tDecide := s.now
  decided := some s.tick, quality0 := s.time.quality }

/-- The hub that has told of a filled window. -/
def filledState (n : Nat) (w : Window) (s : State) : State :=
  sketchEvent n 1 (sketchHeader (freezePulses n (s.setWin n w)) n 4) (freezePulses n (s.setWin n w))

theorem filledState_win (n : Nat) (w : Window) (s : State) : (filledState n w s).win n = w := by
  unfold filledState sketchEvent
  rw [notify_win, freezePulses_win, win_setWin_self]

theorem fill_eq (n : Nat) (nt first : Int) (flag : Nat) (h : Hit) (s : State) : fill n nt first flag [h] s =
    let x := filledState n ((s.win n).filledBy h nt first flag s) s
    let y := if (s.win n).flags.getLsbD 2 && decide ((tget {} (s.win n).conds h.cond).kind ≠ 3) then announce n x else x
    if nt + (s.win n).post - 1 ≤ (y.win n).newest then freeze n 0 0 y else y := rfl

/-- A NETWORK hit fills its window without an announcement; the record is not complete yet. -/
theorem fill_one {n : Nat} {nt first : Int} {flag : Nat} {h : Hit} {s : State} (hk : (tget {} (s.win n).conds h.cond).kind = 3)
    (hn : (s.win n).newest < nt + (s.win n).post - 1) :
    fill n nt first flag [h] s = filledState n ((s.win n).filledBy h nt first flag s) s := by
  have hno : ((s.win n).flags.getLsbD 2 && decide ((tget {} (s.win n).conds h.cond).kind ≠ 3)) = false := by
    rw [hk]
    simp
  rw [fill_eq]
  dsimp only
  rw [hno, if_neg Bool.false_ne_true, filledState_win]
  exact if_neg (Int.not_le.mpr hn)

/-- The first frame of the record, and its flag where the window holds less than the frames before the trigger. -/
def Window.recordFrom (w : Window) (nt : Int) : Int := if w.oldest ≤ nt - w.pre then nt - w.pre else w.oldest
def Window.recordFlag (w : Window) (nt : Int) : Nat := if w.oldest ≤ nt - w.pre then 0 else 2

theorem freezePulses_keeps (n : Nat) (s : State) : Keeps [.cap] s (freezePulses n s) := by
  refine Keeps.forEach (fun o t => ?_) _ s
  dsimp only
  split
  · exact .of_parts
  · exact .refl _ t

theorem setWin_keeps (n : Nat) (w : Window) (s : State) : Keeps [.cap] s (s.setWin n w) := .of_parts

theorem filledState_keeps (n : Nat) (w : Window) (s : State) : Keeps [.hcp, .cap] s (filledState n w s) := by
  have hpulse := (setWin_keeps n w s).trans (freezePulses_keeps n (s.setWin n w))
  have htold : Keeps [.hcp] (freezePulses n (s.setWin n w)) (filledState n w s) := by
    unfold filledState sketchEvent
    exact (notify_hcp _ _ _).keeps
  exact (hpulse.weaken (by simp)).trans (htold.weaken (by simp))

/-- The judgement of one NETWORK hit of an ARMED window whose trigger frame it still holds. -/
theorem judge_one {n : Nat} {h : Hit} {s : State} (hst : (s.win n).state = .armed) (hf : (s.win n).cycleFail = false)
    (hk : (tget {} (s.win n).conds h.cond).kind = 3) (ho : (s.win n).oldest ≤ (s.win n).frameAt h.time)
    (hn : (s.win n).newest < (s.win n).frameAt h.time + (s.win n).post - 1) :
    judge n [h] s = filledState n ((s.win n).filledBy h ((s.win n).frameAt h.time)
      ((s.win n).recordFrom ((s.win n).frameAt h.time)) ((s.win n).recordFlag ((s.win n).frameAt h.time)) s) s := by
  have hev : (s.win n).evaluates = true := by unfold Window.evaluates Window.writes; rw [hst]; rfl
  have hfd : (s.win n).frozenOrDumping = false := by unfold Window.frozenOrDumping; rw [hst]; rfl
  have hhere : [h].filter (fun x => (s.win n).frameAt x.time == (s.win n).frameAt h.time) = [h] := by simp
  have hrest : [h].filter (fun x => (s.win n).frameAt x.time != (s.win n).frameAt h.time) = [] := by simp
  have hfill : ∀ first flag, fill n ((s.win n).frameAt h.time) first flag [h] s =
      filledState n ((s.win n).filledBy h ((s.win n).frameAt h.time) first flag s) s := fun _ _ => fill_one hk hn
  unfold judge
  dsimp only [earliest]
  rw [if_neg (by rw [hev]; simp), if_neg (by rw [hf]; simp), if_neg (by rw [hst, hfd]; simp), if_neg (by rw [hst]; simp),
    if_neg (by rw [hfd]; simp), hhere, hrest]
  unfold Window.recordFrom Window.recordFlag
  refine (if_neg (Int.not_lt.mpr ho)).trans ?_
  by_cases hp : (s.win n).oldest ≤ (s.win n).frameAt h.time - (s.win n).pre
  · rw [if_pos hp, if_pos hp, if_pos hp]
    exact hfill _ _
  · rw [if_neg hp, if_neg hp, if_neg hp]
    exact (if_pos hst).trans (hfill _ _)

theorem decideWindow_one {n : Nat} {h : Hit} {s : State} (hst : (s.win n).state = .armed) (hc : (s.win n).cycle = [h])
    (hf : (s.win n).cycleFail = false) (hk : (tget {} (s.win n).conds h.cond).kind = 3)
    (ho : (s.win n).oldest ≤ (s.win n).frameAt h.time)
    (hn : (s.win n).newest < (s.win n).frameAt h.time + (s.win n).post - 1) :
    (decideWindow n s).win n = { ({ s.win n with cycle := [] } : Window).filledBy h ((s.win n).frameAt h.time)
      ((s.win n).recordFrom ((s.win n).frameAt h.time)) ((s.win n).recordFlag ((s.win n).frameAt h.time)) s with
      cycleFail := false } ∧ Keeps [.hcp, .cap] s (decideWindow n s) := by
  have hy : (s.setWin n { s.win n with cycle := [] }).win n = { s.win n with cycle := [] } := win_setWin_self ..
  have hj := judge_one (n := n) (h := h) (s := s.setWin n { s.win n with cycle := [] }) (by rw [hy]; exact hst)
    (by rw [hy]; exact hf) (by rw [hy]; exact hk) (by rw [hy]; exact ho) (by rw [hy]; exact hn)
  unfold decideWindow
  dsimp only
  rw [hc, hj, filledState_win, win_setWin_self, hy]
  exact ⟨rfl, (((setWin_keeps n _ s).weaken (by simp)).trans (filledState_keeps n _ _)).trans
    ((setWin_keeps n _ _).weaken (by simp))⟩

theorem judge_nil (n : Nat) (s : State) : judge n [] s = s := by
  unfold judge
  exact if_pos (.inl rfl)

/-- With no hit of the present cycle the decision changes nothing but the mark of a failed check. -/
theorem decideWindow_idle {n : Nat} {s : State} (hc : (s.win n).cycle = []) :
    ∃ L, decideWindow n s = { s with cap := { s.cap with windows := L } } ∧
      (decideWindow n s).win n = { s.win n with cycleFail := false } ∧ ∀ k, k ≠ n → (decideWindow n s).win k = s.win k := by
  have hd : decideWindow n s = (s.setWin n { s.win n with cycle := [] }).setWin n { s.win n with cycleFail := false } := by
    unfold decideWindow
    dsimp only
    rw [hc]
    rw [judge_nil, win_setWin_self, ← hc]
  rw [hd]
  exact ⟨_, rfl, win_setWin_self .., fun k hk => (win_setWin_ne _ _ hk).trans (win_setWin_ne _ _ hk)⟩

/-! ## CAP_TRIGGER (R276) -/

/-- The hub after the decision on a CAP_TRIGGER of condition k. -/
def triggered (n k : Nat) (T : T16) (s : State) : State := decideWindow n (takeHits n [{ cond := k, time := (T : Rat) }] s)

/-- The condition is evaluated. -/
def State.heeds (s : State) (n k : Nat) : Bool :=
  (s.win n).evaluates && !s.inReset 7 0 && (tget {} (s.win n).conds k).flags.getLsbD 0

/-- The trigger made the present sketch, or joined its cause. -/
def State.tookTrigger (s : State) (n k : Nat) (nt : Int) (t : State) : Bool :=
  (t.win n).decided == some s.tick && (t.win n).causeMask.getLsbD k && nt == (t.win n).nTrig

theorem capTriggerHit_eq (n k : Nat) (T : T16) (s : State) : capTriggerHit n k T s =
    (le 1 (if !s.heeds n k then 2 else if s.tookTrigger n k ((s.win n).frameAt (T : Rat)) (triggered n k T s) then 0 else 1)
      ++ zeros 3 ++ le 4 (s.win n).sketch.toNat ++ leI 8 (if s.heeds n k then (s.win n).frameAt (T : Rat) else 0),
      triggered n k T s) := rfl

theorem takeHits_actsOn (n : Nat) (hits : List Hit) (s : State) : ActsOn n s (takeHits n hits s) := by
  unfold takeHits
  split
  · exact .refl n s
  · exact setWin_actsOn ..

theorem triggered_actsOn (n k : Nat) (T : T16) (s : State) : ActsOn n s (triggered n k T s) :=
  (takeHits_actsOn ..).trans (decideWindow_actsOn ..)

/-- An immediate CAP_TRIGGER of a window that is ARMED, holds its trigger frame and has not yet the record's last one. -/
theorem triggered_armed {n k : Nat} {T : T16} {s : State} (hst : (s.win n).state = .armed) (hc : (s.win n).cycle = [])
    (hf : (s.win n).cycleFail = false) (hr : s.inReset 7 0 = false) (hfl : (tget {} (s.win n).conds k).flags.getLsbD 0 = true)
    (hk : (tget {} (s.win n).conds k).kind = 3) (ho : (s.win n).oldest ≤ (s.win n).frameAt (T : Rat))
    (hn : (s.win n).newest < (s.win n).frameAt (T : Rat) + (s.win n).post - 1) :
    ∃ c, (triggered n k T s).win n = ({ s.win n with conds := c, cycle := [], cycleFail := false } : Window).filledBy
        { cond := k, time := (T : Rat) } ((s.win n).frameAt (T : Rat)) ((s.win n).recordFrom ((s.win n).frameAt (T : Rat)))
        ((s.win n).recordFlag ((s.win n).frameAt (T : Rat))) s ∧
      Keeps [.hcp, .cap] s (triggered n k T s) := by
  have hev : (s.win n).evaluates = true := by unfold Window.evaluates Window.writes; rw [hst]; rfl
  obtain ⟨c, hsame, ht⟩ := takeHits_plain (hits := [{ cond := k, time := (T : Rat) }]) hev hr
    (fun h hh => by rw [List.mem_singleton.mp hh, hk]; rfl) (by simp)
  have hd : (s.win n).deciding [{ cond := k, time := (T : Rat) }] = [{ cond := k, time := (T : Rat) }] :=
    List.filter_eq_self.mpr fun h hh => by rw [List.mem_singleton.mp hh]; exact hfl
  rw [hd, hc, List.nil_append] at ht
  have hwin : (takeHits n [{ cond := k, time := (T : Rat) }] s).win n = { s.win n with
      conds := c, cycle := [{ cond := k, time := (T : Rat) }] } := by rw [ht, win_setWin_self]
  obtain ⟨hone, hkeep⟩ := decideWindow_one (n := n) (h := { cond := k, time := (T : Rat) })
    (s := takeHits n [{ cond := k, time := (T : Rat) }] s) (by rw [hwin]; exact hst) (by rw [hwin]) (by rw [hwin]; exact hf)
    (by rw [hwin]; exact (hsame.kind k).trans hk) (by rw [hwin]; exact ho) (by rw [hwin]; exact hn)
  rw [hwin] at hone
  refine ⟨c, hone.trans ?_, Keeps.trans ?_ hkeep⟩
  · rw [ht]
    rfl
  · rw [ht]
    exact (setWin_keeps n _ s).weaken (by simp)

/-! ## Network triggers (R281) -/

/-- `t` is `s` but for hits that have joined the cycles of its windows. -/
structure Joins (s t : State) : Prop where
  only : t = { s with cap := { s.cap with windows := t.cap.windows } }
  wins : ∀ k, ∃ c l, SameConds (s.win k).conds c ∧ t.win k = { s.win k with conds := c, cycle := (s.win k).cycle ++ l }

theorem Joins.refl (s : State) : Joins s s := ⟨rfl, fun k => ⟨_, [], .refl _, by rw [List.append_nil]⟩⟩

theorem Joins.trans {s t u : State} (h : Joins s t) (k : Joins t u) : Joins s u := by
  refine ⟨?_, fun i => ?_⟩
  · rw [k.only, h.only]
  · obtain ⟨c, l, hc, hl⟩ := h.wins i
    obtain ⟨d, m, hd, hm⟩ := k.wins i
    rw [hl] at hd
    exact ⟨d, l ++ m, hc.trans hd, by rw [hm, hl, List.append_assoc]⟩

theorem Joins.forEach {α : Type} {f : α → State → State} : ∀ {l : List α} {s : State},
    (∀ x ∈ l, ∀ t, Joins s t → Joins t (f x t)) → Joins s (forEach l f s)
  | [], s, _ => .refl s
  | x :: l, s, h => by
    have h1 := h x List.mem_cons_self s (.refl s)
    exact h1.trans (Joins.forEach fun y hy t ht => h y (List.mem_cons_of_mem _ hy) t (h1.trans ht))

theorem Joins.inReset {s t : State} (h : Joins s t) (b u : Nat) : t.inReset b u = s.inReset b u := by rw [h.only]; rfl

theorem Joins.state {s t : State} (h : Joins s t) (k : Nat) : (t.win k).state = (s.win k).state := by
  obtain ⟨c, l, -, hl⟩ := h.wins k
  rw [hl]

theorem Joins.evaluates {s t : State} (h : Joins s t) (k : Nat) : (t.win k).evaluates = (s.win k).evaluates := by
  obtain ⟨c, l, -, hl⟩ := h.wins k
  rw [hl]
  rfl

theorem Joins.conds {s t : State} (h : Joins s t) (k : Nat) : SameConds (s.win k).conds (t.win k).conds := by
  obtain ⟨c, l, hc, hl⟩ := h.wins k
  rw [hl]
  exact hc

theorem Joins.cycle {s t : State} (h : Joins s t) {k : Nat} {x : Hit} (hx : x ∈ (s.win k).cycle) : x ∈ (t.win k).cycle := by
  obtain ⟨c, l, -, hl⟩ := h.wins k
  rw [hl]
  exact List.mem_append_left _ hx

/-- The NETWORK conditions of a window that a message of identifier `id` hits. -/
def Window.netHits (w : Window) (id : Nat) (T : T16) : List Hit :=
  (below 8 fun k => (tget {} w.conds k).kind == 3 && ((tget {} w.conds k).id == 0xFF || (tget {} w.conds k).id == id)).map
    fun k => { cond := k, time := (T : Rat) }

theorem netHits_kind {w : Window} {id : Nat} {T : T16} {h : Hit} (hh : h ∈ w.netHits id T) :
    (tget {} w.conds h.cond).kind = 3 := by
  unfold Window.netHits below at hh
  obtain ⟨k, hk, rfl⟩ := List.mem_map.mp hh
  have := (List.mem_filter.mp hk).2
  rw [Bool.and_eq_true, beq_iff_eq] at this
  exact this.1

theorem netHits_joins (n id : Nat) (T : T16) (s : State) : Joins s (takeHits n ((s.win n).netHits id T) s) := by
  by_cases hg : (s.win n).netHits id T = [] ∨ (s.win n).evaluates = false ∨ s.inReset 7 0 = true
  · have : takeHits n ((s.win n).netHits id T) s = s := by
      unfold takeHits
      refine if_pos ?_
      rw [List.isEmpty_iff, Bool.not_eq_true']
      exact hg
    rw [this]
    exact .refl s
  · simp only [not_or, Bool.not_eq_false, Bool.not_eq_true] at hg
    obtain ⟨hne, hev, hr⟩ := hg
    obtain ⟨c, hc, ht⟩ := takeHits_plain hev hr (fun h hh => by rw [netHits_kind hh]; rfl) hne
    rw [ht]
    refine ⟨rfl, fun k => ?_⟩
    by_cases hk : k = n
    · subst hk
      exact ⟨c, _, hc, win_setWin_self ..⟩
    · exact ⟨_, [], .refl _, by rw [win_setWin_ne _ _ hk, List.append_nil]⟩

/-- A message that is accepted gives its hits to every window. -/
def netTriggered (id : Nat) (T : T16) (s : State) : State :=
  forEach (s.cap.windows.map (·.1)) (fun n u => takeHits n ((u.win n).netHits id T) u) s

theorem netTriggered_joins (id : Nat) (T : T16) (s : State) : Joins s (netTriggered id T s) :=
  .forEach fun n _ u _ => netHits_joins n id T u

/-- A condition that the message names hits, where its window evaluates it. -/
theorem forEach_netHits {id n k : Nat} {T : T16} {s : State} (hk : k < 8) (hev : (s.win n).evaluates = true)
    (hr : s.inReset 7 0 = false) (hkind : (tget {} (s.win n).conds k).kind = 3)
    (hfl : (tget {} (s.win n).conds k).flags.getLsbD 0 = true)
    (hid : (tget {} (s.win n).conds k).id = 0xFF ∨ (tget {} (s.win n).conds k).id = id) :
    ∀ {l : List Nat}, n ∈ l → ∀ u, Joins s u →
      { cond := k, time := (T : Rat) } ∈ ((forEach l (fun n u => takeHits n ((u.win n).netHits id T) u) u).win n).cycle
  | m :: l, hn, u, hu => by
    by_cases hm : n = m
    · subst hm
      have hconds := hu.conds n
      have hmem : { cond := k, time := (T : Rat) } ∈ (u.win n).netHits id T := by
        unfold Window.netHits below
        refine List.mem_map.mpr ⟨k, List.mem_filter.mpr ⟨List.mem_range.mpr hk, ?_⟩, rfl⟩
        rw [hconds.kind, hconds.id, hkind]
        simpa using hid
      obtain ⟨c, -, ht⟩ := takeHits_plain (hits := (u.win n).netHits id T) ((hu.evaluates n).trans hev) ((hu.inReset 7 0).trans hr)
        (fun h hh => by rw [netHits_kind hh]; rfl) (List.ne_nil_of_mem hmem)
      have hrest := Joins.forEach (l := l) (s := takeHits n ((u.win n).netHits id T) u) fun m _ v _ => netHits_joins m id T v
      refine hrest.cycle ?_
      rw [ht, win_setWin_self]
      refine List.mem_append_right _ (List.mem_filter.mpr ⟨hmem, ?_⟩)
      dsimp only
      rw [hconds.flags]
      exact hfl
    · exact forEach_netHits hk hev hr hkind hfl hid ((List.mem_cons.mp hn).resolve_left hm) _ (hu.trans (netHits_joins m id T u))

theorem Joins.keeps {s t : State} (h : Joins s t) : Keeps [.cap] s t := by
  rw [h.only]
  exact .of_parts

/-- The messages of the last two seconds. -/
def State.netFresh (s : State) : List (W16 × W32 × Nat) := s.cap.netSeen.filter fun x => decide (s.tick < x.2.2 + 2000000000)

/-- What makes a message good (Table CAP-3, R281). -/
def State.netGood (s : State) (m : Bytes) : Bool :=
  decide (0x30 ≤ m.length) && getU m 0 2 == 0x5443 && getU m 2 1 == 1 && getU m 0x2C 4 == crc32c (m.take 0x2C)
    && (getU m 4 2 == 0xFFFF || getU m 4 2 == s.chip.hubId.toNat) && ts80Ok (sub m 0x10 10)
    && !(s.netFresh.any fun x => x.1 == BitVec.ofNat 16 (getU m 6 2) && x.2.1 == BitVec.ofNat 32 (getU m 8 4))
    && decide (ofTs96 (sub m 0x10 12) ≤ s.now + unitsPerSec)

/-- The hub that has noted a good message. -/
def State.heard (s : State) (m : Bytes) : State := { s with cap := { s.cap with
  netSeen := s.netFresh ++ [(BitVec.ofNat 16 (getU m 6 2), BitVec.ofNat 32 (getU m 8 4), s.tick)] } }

theorem networkTriggerRx_eq {port : Nat} {m : Bytes} {s : State} (hf : s.fwRuns = true) (hp : s.chip.phase = .serving)
    (hu : port < 48 → (s.port port).state = .up) : networkTriggerRx port m s =
      if s.netGood m then netTriggered (getU m 12 1) (ofTs96 (sub m 0x10 12)) (s.heard m)
      else { s with cap := { s.cap with
        netSeen := s.netFresh, netErrors := tset 0 s.cap.netErrors port (tget 0 s.cap.netErrors port + 1) } } := by
  unfold networkTriggerRx
  refine (if_neg ?_).trans rfl
  rw [hf, hp]
  simpa using hu

theorem netGood_bad {m : Bytes} {s : State} (h : m.length < 0x30 ∨ getU m 0 2 ≠ 0x5443 ∨ getU m 2 1 ≠ 1) : s.netGood m = false := by
  unfold State.netGood
  obtain h | h | h := h
  · rw [decide_eq_false (Nat.not_le.mpr h)]
    simp
  · rw [beq_false_of_ne h]
    simp
  · rw [beq_false_of_ne h]
    simp

theorem ofLe_lt : ∀ b : Bytes, ofLe b < 256 ^ b.length
  | [] => by simp [ofLe]
  | x :: b => by
    have := ofLe_lt b
    have hx : x.toNat < 256 := x.isLt
    rw [ofLe, List.length_cons, Nat.pow_succ]
    omega

theorem length_sub (b : Bytes) (o n : Nat) : (sub b o n).length = n := by
  have hz : ∀ k, (zeros k).length = k := fun k => List.length_replicate
  unfold sub
  dsimp only
  rw [List.length_append, hz, List.length_take]
  omega

theorem getU_lt (b : Bytes) (o n : Nat) : getU b o n < 256 ^ n := by
  have := ofLe_lt (sub b o n)
  rwa [length_sub] at this

theorem netGood_good {m : Bytes} {s : State} (hl : 0x30 ≤ m.length) (h1 : getU m 0 2 = 0x5443) (h2 : getU m 2 1 = 1)
    (hc : getU m 0x2C 4 = crc32c (m.take 0x2C)) (hh : getU m 4 2 = 0xFFFF ∨ getU m 4 2 = s.chip.hubId.toNat)
    (ht : ts80Ok (sub m 0x10 10) = true)
    (hfresh : ∀ x ∈ s.cap.netSeen, x.1.toNat = getU m 6 2 → x.2.1.toNat = getU m 8 4 → x.2.2 + 2000000000 ≤ s.tick)
    (hT : ofTs96 (sub m 0x10 12) ≤ s.now + unitsPerSec) : s.netGood m = true := by
  have hnew : (s.netFresh.any fun x => x.1 == BitVec.ofNat 16 (getU m 6 2) && x.2.1 == BitVec.ofNat 32 (getU m 8 4)) = false := by
    refine List.any_eq_false.mpr fun x hx hk => ?_
    unfold State.netFresh at hx
    obtain ⟨hmem, hlt⟩ := List.mem_filter.mp hx
    rw [Bool.and_eq_true, beq_iff_eq, beq_iff_eq] at hk
    have h6 : x.1.toNat = getU m 6 2 := by
      rw [hk.1, BitVec.toNat_ofNat]
      exact Nat.mod_eq_of_lt (getU_lt m 6 2)
    have h8 : x.2.1.toNat = getU m 8 4 := by
      rw [hk.2, BitVec.toNat_ofNat]
      exact Nat.mod_eq_of_lt (getU_lt m 8 4)
    exact absurd (of_decide_eq_true hlt) (Nat.not_lt.mpr (hfresh x hmem h6 h8))
  unfold State.netGood
  rw [decide_eq_true hl, h1, h2, hc, ht, hnew, decide_eq_true hT]
  simpa using hh

end Sys2Proof.Machine
end

