-- ==== Sys2Proof/Proofs/CaptureWindows.lean ====
section
/-! SUPPORT. Capture windows: their configuration, arming, disarming and triggering (10_capture, Tables CAP-4, CAP-5 and CAP-13
to CAP-15). -/

namespace Sys2Proof.Machine

set_option Elab.async false

theorem win_of_cap {s t : State} (h : t.cap = s.cap) (k : Nat) : t.win k = s.win k := by unfold State.win; rw [h]

/-! ## CAP_WINDOW_CONFIG (R271) -/

theorem memberKind_same {s t : State} (hc : t.channels = s.channels) (hp : t.pipes = s.pipes) (hf : t.profiles = s.profiles)
    (src m : Nat) : t.memberKind src m = s.memberKind src m := by
  unfold State.memberKind State.fout State.fin State.profA State.chan State.pipe State.prof
  rw [hc, hp, hf]

theorem membersKind_same {s t : State} (hc : t.channels = s.channels) (hp : t.pipes = s.pipes) (hf : t.profiles = s.profiles)
    (src : Nat) (ms : List Nat) : t.membersKind src ms = s.membersKind src ms := by
  unfold State.membersKind
  simp only [memberKind_same hc hp hf]

theorem newWindow_same {s t : State} (hc : t.channels = s.channels) (hp : t.pipes = s.pipes) (hf : t.profiles = s.profiles)
    (hw : t.cap = s.cap) (r : Req) : newWindow t r = newWindow s r := by
  unfold newWindow State.win
  dsimp only
  rw [membersKind_same hc hp hf, hw]

theorem capWindowConfig_gives {s : State} {r : Req} (h : Accepted opCapWindowConfig r s) (hk : r.u8 1 ≠ 0) :
    Gives (.capWindowConfig r) s [.hcp, .cap, .ledger] fun t =>
      t.cap = { s.cap with windows := tset {} s.cap.windows (r.u8 0) (newWindow s r) } ∧ Answered 0x0701 r 0 0 [] t := by
  have he : opCapWindowConfig.effect r (s.judged opCapWindowConfig r) =
      ((s.judged opCapWindowConfig r).setWin (r.u8 0) (newWindow s r), ansDone []) := by
    rw [← newWindow_same (s := s) (t := s.judged opCapWindowConfig r) rfl rfl rfl rfl]
    exact if_neg hk
  exact gives_of_op rfl h he .of_parts fun t F A => ⟨F.cap, A⟩

/-! ## Arming and disarming (R285, R289) -/

theorem capArmEffect_idle {n : Nat} {T : T16} {s : State} (hd : (s.win n).delayArm = some T) (ht : T ≤ s.now)
    (hst : (s.win n).state = .idle) (hp : s.chip.phase = .serving) :
    capArmEffect n s = armWindow n T (s.setWin n { s.win n with delayArm := none }) := by
  unfold capArmEffect
  dsimp only
  rw [hd]
  exact (if_pos ht).trans (if_pos ⟨hst, hp⟩)

theorem capDisarmEffect_due {n : Nat} {T : T16} {b : Bool} {s : State} (hd : (s.win n).delayDisarm = some (T, b))
    (ht : T ≤ s.now) : capDisarmEffect n s = disarmWindow n b (s.setWin n { s.win n with delayDisarm := none }) := by
  unfold capDisarmEffect
  dsimp only
  rw [hd]
  exact if_pos ht

/-- A disarm of a window that has not triggered drops its sketch. -/
theorem disarmWindow_open {n : Nat} {s : State} (b : Bool) (hc : (s.win n).cycle = [])
    (hst : (s.win n).state = .arming ∨ (s.win n).state = .armed) :
    disarmWindow n b s = sketchEvent n 4 [] ((decideWindow n s).setWin n { (s.win n).toIdle with cycleFail := false }) := by
  obtain ⟨L, -, hself, -⟩ := decideWindow_idle hc
  unfold disarmWindow
  dsimp only
  rw [hself]
  exact if_pos hst

/-- An ABORT freezes a window that fills. -/
theorem disarmWindow_abort {n : Nat} {s : State} (hc : (s.win n).cycle = []) (hst : (s.win n).state = .filling) :
    disarmWindow n true s = freeze n 1 4 (decideWindow n s) := by
  obtain ⟨L, -, hself, -⟩ := decideWindow_idle hc
  unfold disarmWindow
  dsimp only
  rw [hself]
  exact (if_neg (by rw [hst]; simp)).trans (if_pos ⟨hst, rfl⟩)

/-- The window that a freeze makes of one that fills. -/
theorem freeze_filling {n cause flags : Nat} {s : State} (hst : (s.win n).state = .filling) :
    ∃ note, (freeze n cause flags s).win n = { s.win n with
      state := .frozen, cause := cause, frozenLast := min ((s.win n).nTrig + (s.win n).post - 1) (s.win n).newest
      recFlags := (s.win n).recFlags ||| BitVec.ofNat 16 flags, tFreeze := s.now, quality1 := s.time.quality
      feeds := [], delayDisarm := none, notes := [note] } := by
  unfold freeze sketchEvent
  dsimp only
  rw [notify_win, win_setWin_self, hst]
  exact ⟨_, rfl⟩

theorem freeze_keeps (n cause flags : Nat) (s : State) : Keeps [.hcp, .cap] s (freeze n cause flags s) := by
  unfold freeze sketchEvent
  exact ((setWin_keeps n _ s).weaken (by simp)).trans ((notify_hcp _ _ _).keeps.weaken (by simp))

/-- The hub whose disarm of window n is due. -/
def dueDisarm (n : Nat) (s : State) : State := s.setWin n { s.win n with delayDisarm := none }

theorem dueDisarm_decided {n : Nat} {s : State} (hc : (s.win n).cycle = []) :
    (decideWindow n (dueDisarm n s)).win n = { s.win n with delayDisarm := none, cycleFail := false } ∧
    (∀ k, k ≠ n → (decideWindow n (dueDisarm n s)).win k = s.win k) ∧ Keeps [.cap] s (decideWindow n (dueDisarm n s)) ∧
    (decideWindow n (dueDisarm n s)).time = s.time := by
  have hwin : (dueDisarm n s).win n = { s.win n with delayDisarm := none } := win_setWin_self ..
  obtain ⟨L, hd, hself, hother⟩ := decideWindow_idle (n := n) (s := dueDisarm n s) (by rw [hwin]; exact hc)
  rw [hwin] at hself
  refine ⟨hself, fun k hk => (hother k hk).trans (win_setWin_ne _ _ hk), ?_, ?_⟩
  · rw [hd]
    exact .of_parts
  · rw [hd]
    rfl

theorem capDisarmEffect_open {n : Nat} {T : T16} {b : Bool} {s : State} (hd : (s.win n).delayDisarm = some (T, b))
    (ht : T ≤ s.now) (hc : (s.win n).cycle = []) (hst : (s.win n).state = .arming ∨ (s.win n).state = .armed) :
    (capDisarmEffect n s).win n = { s.win n with
      state := .idle, feeds := [], events := [], notes := [], delayDisarm := none, cycleFail := false } ∧
    (∀ k, k ≠ n → (capDisarmEffect n s).win k = s.win k) ∧ Keeps [.hcp, .cap] s (capDisarmEffect n s) := by
  have hwin : (dueDisarm n s).win n = { s.win n with delayDisarm := none } := win_setWin_self ..
  obtain ⟨-, hother, hkeep, -⟩ := dueDisarm_decided hc
  have he : capDisarmEffect n s = _ := (capDisarmEffect_due hd ht).trans
    (disarmWindow_open b (s := dueDisarm n s) (by rw [hwin]; exact hc) (by rw [hwin]; exact hst))
  rw [he]
  unfold sketchEvent
  refine ⟨?_, fun k hk => ?_, ?_⟩
  · rw [notify_win, win_setWin_self, hwin]
    unfold Window.toIdle
    rw [← hc]
  · rw [notify_win, win_setWin_ne _ _ hk]
    exact hother k hk
  · exact ((hkeep.trans (setWin_keeps n _ _)).weaken (by simp)).trans ((notify_hcp _ _ _).keeps.weaken (by simp))

theorem capDisarmEffect_abort {n : Nat} {T : T16} {s : State} (hd : (s.win n).delayDisarm = some (T, true))
    (ht : T ≤ s.now) (hc : (s.win n).cycle = []) (hst : (s.win n).state = .filling) :
    (∃ note, (capDisarmEffect n s).win n = { s.win n with
      state := .frozen, cause := 1, frozenLast := min ((s.win n).nTrig + (s.win n).post - 1) (s.win n).newest
      recFlags := (s.win n).recFlags ||| 4, tFreeze := s.now, quality1 := s.time.quality, feeds := []
      delayDisarm := none, cycleFail := false, notes := [note] }) ∧
    (∀ k, k ≠ n → (capDisarmEffect n s).win k = s.win k) ∧ Keeps [.hcp, .cap] s (capDisarmEffect n s) := by
  have hwin : (dueDisarm n s).win n = { s.win n with delayDisarm := none } := win_setWin_self ..
  obtain ⟨hself, hother, hkeep, htime⟩ := dueDisarm_decided hc
  have he : capDisarmEffect n s = _ := (capDisarmEffect_due hd ht).trans
    (disarmWindow_abort (s := dueDisarm n s) (by rw [hwin]; exact hc) (by rw [hwin]; exact hst))
  rw [he]
  obtain ⟨note, hf⟩ := freeze_filling (n := n) (cause := 1) (flags := 4) (s := decideWindow n (dueDisarm n s))
    (by rw [hself]; exact hst)
  refine ⟨⟨note, ?_⟩, fun k hk => ?_, ?_⟩
  · rw [hf, hself, show (decideWindow n (dueDisarm n s)).now = s.now from congrArg TimeSt.now htime, htime]
    rfl
  · exact ((freeze_actsOn n 1 4 _).others k hk).trans (hother k hk)
  · exact (hkeep.weaken (by simp)).trans (freeze_keeps _ _ _ _)

/-! ## CAP_TRIGGER (R276) -/

/-- The trigger time of an immediate CAP_TRIGGER: its own, or the present one. -/
def triggerTime (r : Req) (s : State) : T16 := if isZero r.payload 4 12 then s.now else r.ts96 4

theorem tookTrigger_facts {s t : State} {n k : Nat} {nt : Int} (h : s.tookTrigger n k nt t = true) :
    (t.win n).causeMask.getLsbD k = true ∧ (t.win n).nTrig = nt := by
  unfold State.tookTrigger at h
  rw [Bool.and_eq_true, Bool.and_eq_true, beq_iff_eq, beq_iff_eq] at h
  exact ⟨h.1.2, h.2.symm⟩

/-- The result code of a CAP_TRIGGER: 0 taken, 1 missed, 2 not evaluated (Table CAP-11). -/
def triggerCode (heeded took : Bool) : Nat := if !heeded then 2 else if took then 0 else 1

theorem capTrigger_effect {r : Req} {s : State} {T : T16} (hs : r.sched = false) (hT : triggerTime r s = T) :
    opCapTrigger.effect r s = (triggered (r.u8 0) (r.u8 1) T s, ansDone
      (le 1 (triggerCode (s.heeds (r.u8 0) (r.u8 1)) (s.tookTrigger (r.u8 0) (r.u8 1)
          ((s.win (r.u8 0)).frameAt (T : Rat)) (triggered (r.u8 0) (r.u8 1) T s)))
        ++ zeros 3 ++ le 4 (s.win (r.u8 0)).sketch.toNat
        ++ leI 8 (if s.heeds (r.u8 0) (r.u8 1) then (s.win (r.u8 0)).frameAt (T : Rat) else 0))) := by
  subst hT
  exact if_neg (by rw [hs]; simp)

/-- An immediate CAP_TRIGGER names a SOFTWARE condition. -/
theorem capTrigger_kind {r : Req} {s : State} (h : Accepted opCapTrigger r s) (hs : r.sched = false) :
    (tget {} (s.win (r.u8 0)).conds (r.u8 1)).kind = 3 ∧ r.u8 1 < 8 := by
  have h1 := h.field (List.mem_append_left _ (List.mem_append_left _ (List.mem_cons.mpr (.inl rfl))))
  have h3 := h.field (List.mem_append_left _ (List.mem_append_left _
    (List.mem_cons_of_mem _ (List.mem_cons_of_mem _ (List.mem_cons.mpr (.inl rfl))))))
  have h1 : (decide ((tget {} (s.win (r.u8 0)).conds (r.u8 1)).kind ≠ 3 ∧ (tget {} (s.win (r.u8 0)).conds (r.u8 1)).kind ≠ 4)
    || (r.sched == ((tget {} (s.win (r.u8 0)).conds (r.u8 1)).kind == 4))) = true := h1
  have h3 : (decide (r.u8 1 ≤ 7) && ((tget {} (s.win (r.u8 0)).conds (r.u8 1)).kind == 3
    || (tget {} (s.win (r.u8 0)).conds (r.u8 1)).kind == 4)) = true := h3
  generalize (tget {} (s.win (r.u8 0)).conds (r.u8 1)).kind = k at h1 h3
  rw [hs] at h1
  simp only [Bool.and_eq_true, Bool.or_eq_true, decide_eq_true_eq, beq_iff_eq] at h1 h3
  refine ⟨?_, by omega⟩
  obtain hk | hk := h3.2
  · exact hk
  · rw [hk] at h1
    simp at h1

theorem heeds_armed {s : State} {n k : Nat} (hst : (s.win n).state = .armed) (hr : s.inReset 7 0 = false)
    (hfl : (tget {} (s.win n).conds k).flags.getLsbD 0 = true) : s.heeds n k = true := by
  unfold State.heeds Window.evaluates Window.writes
  rw [hst, hr, hfl]
  rfl

theorem tookTrigger_filled {s t : State} {n flag : Nat} {h : Hit} {w : Window} {nt first : Int} (hk : h.cond < 8)
    (ht : t.win n = w.filledBy h nt first flag s) : s.tookTrigger n h.cond nt t = true := by
  unfold State.tookTrigger
  rw [ht]
  unfold Window.filledBy
  dsimp only
  rw [BitVec.getLsbD_or, getLsbD_pow hk]
  simp

/-- The answer of a trigger that is taken. -/
theorem capTrigger_taken {r : Req} {s : State} {T : T16} (hs : r.sched = false) (hT : triggerTime r s = T)
    (hh : s.heeds (r.u8 0) (r.u8 1) = true)
    (ht : s.tookTrigger (r.u8 0) (r.u8 1) ((s.win (r.u8 0)).frameAt (T : Rat)) (triggered (r.u8 0) (r.u8 1) T s) = true) :
    opCapTrigger.effect r s = (triggered (r.u8 0) (r.u8 1) T s, ansDone (le 1 0 ++ zeros 3
      ++ le 4 (s.win (r.u8 0)).sketch.toNat ++ leI 8 ((s.win (r.u8 0)).frameAt (T : Rat)))) := by
  rw [capTrigger_effect hs hT, hh, ht, if_pos rfl, show triggerCode true true = 0 from rfl]

/-- The answer of a trigger that is evaluated and missed. -/
theorem capTrigger_missed {r : Req} {s : State} {T : T16} (hs : r.sched = false) (hT : triggerTime r s = T)
    (hh : s.heeds (r.u8 0) (r.u8 1) = true)
    (ht : s.tookTrigger (r.u8 0) (r.u8 1) ((s.win (r.u8 0)).frameAt (T : Rat)) (triggered (r.u8 0) (r.u8 1) T s) = false) :
    opCapTrigger.effect r s = (triggered (r.u8 0) (r.u8 1) T s, ansDone (le 1 1 ++ zeros 3
      ++ le 4 (s.win (r.u8 0)).sketch.toNat ++ leI 8 ((s.win (r.u8 0)).frameAt (T : Rat)))) := by
  rw [capTrigger_effect hs hT, hh, ht, if_pos rfl, show triggerCode true false = 1 from rfl]

/-- The answer of a trigger that is not evaluated. -/
theorem capTrigger_unheeded {r : Req} {s : State} {T : T16} (hs : r.sched = false) (hT : triggerTime r s = T)
    (hh : s.heeds (r.u8 0) (r.u8 1) = false) :
    opCapTrigger.effect r s = (triggered (r.u8 0) (r.u8 1) T s, ansDone (le 1 2 ++ zeros 3
      ++ le 4 (s.win (r.u8 0)).sketch.toNat ++ zeros 8)) := by
  rw [capTrigger_effect hs hT, hh, if_neg (c := false = true) Bool.false_ne_true, show leI 8 0 = zeros 8 by decide,
    show ∀ b, triggerCode false b = 2 from fun _ => rfl]

theorem recordFlag_or (w : Window) (nt : Int) : w.recFlags ||| BitVec.ofNat 16 (w.recordFlag nt) =
    if w.oldest ≤ nt - w.pre then w.recFlags else w.recFlags ||| 2 := by
  unfold Window.recordFlag
  split
  · exact BitVec.or_zero
  · rfl

theorem capTrigger_armed {s : State} {r : Req} (h : Accepted opCapTrigger r s) (hs : r.sched = false)
    (hst : (s.win (r.u8 0)).state = .armed) (hfl : (tget {} (s.win (r.u8 0)).conds (r.u8 1)).flags.getLsbD 0 = true)
    (hr : s.inReset 7 0 = false) (hc : (s.win (r.u8 0)).cycle = []) (hf : (s.win (r.u8 0)).cycleFail = false)
    (ho : (s.win (r.u8 0)).oldest ≤ (s.win (r.u8 0)).frameAt ((triggerTime r s : Nat) : Rat))
    (hn : (s.win (r.u8 0)).newest < (s.win (r.u8 0)).frameAt ((triggerTime r s : Nat) : Rat) + (s.win (r.u8 0)).post - 1) :
    Gives (.capTrigger r) s [.hcp, .cap, .ledger] fun t =>
      let w := s.win (r.u8 0)
      let T : T16 := triggerTime r s
      let nt := w.frameAt (T : Rat)
      (t.win (r.u8 0)).state = .filling ∧ (t.win (r.u8 0)).nTrig = nt ∧
      (t.win (r.u8 0)).first = (if w.oldest ≤ nt - w.pre then nt - w.pre else w.oldest) ∧
      (t.win (r.u8 0)).firstCause = r.u8 1 ∧ (t.win (r.u8 0)).causeMask = BitVec.ofNat 8 (2 ^ r.u8 1) ∧
      (t.win (r.u8 0)).tTrig = T ∧ (t.win (r.u8 0)).tDecide = s.now ∧
      (t.win (r.u8 0)).recFlags = (if w.oldest ≤ nt - w.pre then w.recFlags else w.recFlags ||| 2) ∧
      (t.win (r.u8 0)).quality0 = s.time.quality ∧
      Answered 0x0705 r 0 0 (le 1 0 ++ zeros 3 ++ le 4 w.sketch.toNat ++ leI 8 nt) t := by
  obtain ⟨hk, h8⟩ := capTrigger_kind h hs
  obtain ⟨c, hwin, hkeep⟩ := triggered_armed (s := s.judged opCapTrigger r) (T := triggerTime r s) hst hc hf hr hfl hk ho hn
  have hheeds : (s.judged opCapTrigger r).heeds (r.u8 0) (r.u8 1) = true := heeds_armed hst hr hfl
  have htook := tookTrigger_filled (s := s.judged opCapTrigger r) (h := { cond := r.u8 1, time := ((triggerTime r s : Nat) : Rat) })
    h8 hwin
  refine gives_of_op rfl h (capTrigger_taken (s := s.judged opCapTrigger r) (T := triggerTime r s) hs rfl hheeds htook) (hkeep.weaken (by simp))
    (fun t F A => ?_) (hq := (congrArg Flt.detected (hkeep .flt (by simp))).trans h.acted)
  rw [win_of_cap F.cap, show (triggered (r.u8 0) (r.u8 1) (triggerTime r s) (s.judged opCapTrigger r)).win (r.u8 0) = _ from hwin]
  refine ⟨rfl, rfl, rfl, rfl, ?_, rheR_natCast _, rfl, ?_, rfl, A⟩
  · exact BitVec.zero_or
  · exact recordFlag_or _ _

theorem capTrigger_any {s : State} {r : Req} (h : Accepted opCapTrigger r s) (hs : r.sched = false) :
    Gives (.capTrigger r) s [.hcp, .cap, .upl, .ledger] fun t =>
      let w := s.win (r.u8 0)
      let nt := w.frameAt ((triggerTime r s : Nat) : Rat)
      if w.evaluates = true ∧ s.inReset 7 0 = false ∧ (tget {} w.conds (r.u8 1)).flags.getLsbD 0 = true then
        Answered 0x0705 r 0 0 (le 1 0 ++ zeros 3 ++ le 4 w.sketch.toNat ++ leI 8 nt) t ∧ (t.win (r.u8 0)).nTrig = nt ∧
            (t.win (r.u8 0)).causeMask.getLsbD (r.u8 1) = true ∨
          Answered 0x0705 r 0 0 (le 1 1 ++ zeros 3 ++ le 4 w.sketch.toNat ++ leI 8 nt) t
      else Answered 0x0705 r 0 0 (le 1 2 ++ zeros 3 ++ le 4 w.sketch.toNat ++ zeros 8) t := by
  have hkeep := (triggered_actsOn (r.u8 0) (r.u8 1) (triggerTime r s) (s.judged opCapTrigger r)).keeps
  have hq := (congrArg Flt.detected (hkeep .flt (by simp))).trans h.acted
  have hheeds : s.heeds (r.u8 0) (r.u8 1) = true ↔ (s.win (r.u8 0)).evaluates = true ∧ s.inReset 7 0 = false ∧
      (tget {} (s.win (r.u8 0)).conds (r.u8 1)).flags.getLsbD 0 = true := by
    unfold State.heeds
    rw [Bool.and_eq_true, Bool.and_eq_true, Bool.not_eq_true', and_assoc]
  cases hh : s.heeds (r.u8 0) (r.u8 1) with
  | false =>
    refine gives_of_op rfl h (capTrigger_unheeded (s := s.judged opCapTrigger r) (T := triggerTime r s) hs rfl hh) (hkeep.weaken (by simp))
      (fun t F A => ?_) (hq := hq)
    rw [hh] at hheeds
    exact (if_neg (fun hc => absurd (hheeds.mpr hc) Bool.false_ne_true)).mpr A
  | true =>
    have hc := hheeds.mp hh
    cases ht : (s.judged opCapTrigger r).tookTrigger (r.u8 0) (r.u8 1) ((s.win (r.u8 0)).frameAt ((triggerTime r s : Nat) : Rat))
        (triggered (r.u8 0) (r.u8 1) (triggerTime r s) (s.judged opCapTrigger r)) with
    | false =>
      refine gives_of_op rfl h (capTrigger_missed (s := s.judged opCapTrigger r) (T := triggerTime r s) hs rfl hh ht) (hkeep.weaken (by simp))
        (fun t F A => ?_) (hq := hq)
      exact (if_pos hc).mpr (.inr A)
    | true =>
      refine gives_of_op rfl h (capTrigger_taken (s := s.judged opCapTrigger r) (T := triggerTime r s) hs rfl hh ht) (hkeep.weaken (by simp))
        (fun t F A => ?_) (hq := hq)
      obtain ⟨hmask, hnt⟩ := tookTrigger_facts ht
      rw [← win_of_cap F.cap] at hmask hnt
      exact (if_pos hc).mpr (.inl ⟨A, hnt, hmask⟩)

theorem capArmEffect_gives {s : State} {n : Fin 16} {T : T16} (hInv : s.Inv) (hd : (s.win n).delayArm = some T) (ht : T ≤ s.now)
    (hst : (s.win n).state = .idle) (hp : s.chip.phase = .serving) :
    Gives (.capArmEffect n) s [.cap] fun t =>
      (t.win n).state = .arming ∧ (t.win n).sketch = (s.win n).sketch + 1 ∧ (t.win n).armAt = T ∧
      (t.win n).nArm = none ∧ (t.win n).delayArm = none ∧ (t.win n).missedFill = 0 ∧ (t.win n).firstCause = 0xFF ∧
      (t.win n).recFlags = (if s.chip.testMode then 0x800 else 0) ∧ (∀ k, k ≠ n.val → t.win k = s.win k) := by
  refine gives_of_effect rfl (capArmEffect_idle (s := { s with emitted := [] }) hd ht hst hp) hInv.acted .of_parts fun t F => ?_
  have hw := win_of_cap F.cap
  unfold armWindow at hw
  dsimp only at hw
  rw [hw, win_setWin_self, win_setWin_self]
  exact ⟨rfl, rfl, rfl, rfl, rfl, rfl, rfl, rfl, fun k hk => (hw k).trans ((win_setWin_ne _ _ hk).trans (win_setWin_ne _ _ hk))⟩

/-! ## Network triggers (R281) -/

theorem networkTriggerRx_bad {s : State} {p : Fin 49} {m : Bytes} (hInv : s.Inv) (hf : s.fwRuns = true)
    (hp : s.chip.phase = .serving) (hu : p.val < 48 → (s.port p).state = .up)
    (hbad : m.length < 0x30 ∨ getU m 0 2 ≠ 0x5443 ∨ getU m 2 1 ≠ 1) :
    Gives (.networkTriggerRx p m) s [.cap] fun t =>
      t.cap = { s.cap with
        netSeen := t.cap.netSeen, netErrors := tset 0 s.cap.netErrors p (tget 0 s.cap.netErrors p + 1) } ∧
      (∀ x ∈ t.cap.netSeen, x ∈ s.cap.netSeen) := by
  refine gives_of_effect rfl ((networkTriggerRx_eq (s := { s with emitted := [] }) hf hp hu).trans
    (if_neg (by rw [netGood_bad hbad]; simp))) hInv.acted .of_parts fun t F => ⟨?_, fun x hx => ?_⟩
  · rw [F.cap]
  · rw [F.cap] at hx
    exact (List.mem_filter.mp hx).1

theorem networkTriggerRx_good {s : State} {p : Fin 49} {m : Bytes} (hInv : s.Inv) (hf : s.fwRuns = true)
    (hp : s.chip.phase = .serving) (hu : p.val < 48 → (s.port p).state = .up) (hl : 0x30 ≤ m.length)
    (h1 : getU m 0 2 = 0x5443) (h2 : getU m 2 1 = 1) (h3 : getU m 4 2 = 0xFFFF ∨ getU m 4 2 = s.chip.hubId.toNat)
    (h4 : getU m 0x2C 4 = crc32c (m.take 0x2C)) (h5 : ts80Ok (sub m 0x10 10) = true)
    (h6 : ofTs96 (sub m 0x10 12) ≤ s.now + unitsPerSec)
    (hfresh : ∀ x ∈ s.cap.netSeen, x.1.toNat = getU m 6 2 → x.2.1.toNat = getU m 8 4 → x.2.2 + 2000000000 ≤ s.tick)
    (hr : s.inReset 7 0 = false) :
    Gives (.networkTriggerRx p m) s [.cap] fun t =>
      t.cap.netSeen = (s.cap.netSeen.filter fun x => decide (s.tick < x.2.2 + 2000000000)) ++
        [(BitVec.ofNat 16 (getU m 6 2), BitVec.ofNat 32 (getU m 8 4), s.tick)] ∧
      (∀ x ∈ s.cap.windows, ∀ k < 8, (s.win x.1).evaluates = true → (tget {} (s.win x.1).conds k).kind = 3 →
        (tget {} (s.win x.1).conds k).flags.getLsbD 0 = true →
        (tget {} (s.win x.1).conds k).id = 0xFF ∨ (tget {} (s.win x.1).conds k).id = getU m 12 1 →
        (⟨k, (ofTs96 (sub m 0x10 12) : Nat), 0⟩ : Hit) ∈ (t.win x.1).cycle) ∧
      (∀ k, (t.win k).state = (s.win k).state) := by
  have hgood := netGood_good (s := { s with emitted := [] }) hl h1 h2 h4 h3 h5 hfresh h6
  have hj := netTriggered_joins (getU m 12 1) (ofTs96 (sub m 0x10 12)) (({ s with emitted := [] } : State).heard m)
  have hkeep : Keeps [.cap] { s with emitted := [] } (({ s with emitted := [] } : State).heard m) := .of_parts
  have hk := hkeep.trans hj.keeps
  refine gives_of_effect rfl ((networkTriggerRx_eq (s := { s with emitted := [] }) hf hp hu).trans (if_pos hgood))
    ((congrArg Flt.detected (hk .flt (by simp))).trans hInv.acted) hk
    fun t F => ⟨?_, fun x hx k hk he hkind hfl hid => ?_, fun k => ?_⟩
  · have hseen := congrArg (fun u : State => u.cap.netSeen) hj.only
    exact (congrArg Cap.netSeen F.cap).trans hseen
  · rw [win_of_cap F.cap]
    exact forEach_netHits (s := ({ s with emitted := [] } : State).heard m) hk he hr hkind hfl hid
      (List.mem_map.mpr ⟨x, hx, rfl⟩) _ (.refl _)
  · exact (congrArg Window.state (win_of_cap F.cap k)).trans (hj.state k)

/-- Settles O42. -/
theorem windowsAreConfiguredArmedAndTriggered : Obligations.WindowsAreConfiguredArmedAndTriggered := by
  unfold Obligations.WindowsAreConfiguredArmedAndTriggered
  refine ⟨?_, ?_, ?_, ?_, ?_, ?_, ?_, ?_, ?_, ?_, ?_, ?_, ?_, ?_, ?_⟩
  · exact fun s r h hk => capWindowConfig_gives h hk
  · intro s r h hk
    refine gives_of_op rfl h (if_pos hk) .of_parts fun t F A => ?_
    have hw := win_of_cap F.cap
    rw [hw, win_setWin_self]
    exact ⟨rfl, rfl, rfl, fun n hn => (hw n).trans (win_setWin_ne _ _ hn), by rw [F.cap]; rfl, A⟩
  · intro s r h
    exact gives_of_op rfl h rfl .of_parts fun t F A => ⟨F.cap, A⟩
  · intro s r h hs
    exact gives_of_op rfl h (if_neg (by rw [hs]; simp)) .of_parts fun t F A => ⟨F.cap, A⟩
  · intro s r h hs
    exact gives_of_op rfl h (if_pos hs) .of_parts fun t F A => ⟨F.cap, F.cal, A⟩
  · exact fun s n T hInv hd ht hst hp => capArmEffect_gives hInv hd ht hst hp
  · intro s r h hs
    exact gives_of_op rfl h (if_neg (by rw [hs]; simp)) .of_parts fun t F A => ⟨F.cap, A⟩
  · intro s r h hs
    exact gives_of_op rfl h (if_pos hs) .of_parts fun t F A => ⟨F.cap, F.cal, A⟩
  · intro s n T b hInv hd ht hc hst
    obtain ⟨hself, hother, hkeep⟩ := capDisarmEffect_open (s := { s with emitted := [] }) hd ht hc hst
    exact gives_of_effect rfl rfl ((congrArg Flt.detected (hkeep .flt (by simp))).trans hInv.acted) hkeep
      fun t F => ⟨(win_of_cap F.cap n).trans hself, fun k hk => (win_of_cap F.cap k).trans (hother k hk)⟩
  · intro s n T hInv hd ht hc hst
    obtain ⟨⟨note, hself⟩, hother, hkeep⟩ := capDisarmEffect_abort (s := { s with emitted := [] }) hd ht hc hst
    refine gives_of_effect rfl rfl ((congrArg Flt.detected (hkeep .flt (by simp))).trans hInv.acted) hkeep fun t F => ?_
    rw [win_of_cap F.cap n, show (effectOf (capDisarmEffect n) s).win n = _ from hself]
    exact ⟨rfl, rfl, rfl, rfl, rfl, rfl, rfl, fun k hk => (win_of_cap F.cap k).trans (hother k hk)⟩
  · exact fun s r h hs hst hfl hr hc hcf hb => capTrigger_armed h hs hst hfl hr hc hcf hb.1 hb.2
  · intro s r h hs
    exact capTrigger_any h hs
  · intro s r h hs
    exact gives_of_op rfl h (if_pos hs) .of_parts fun t F A => ⟨F.cal, A⟩
  · exact fun s p m hInv hf hp hu hbad => networkTriggerRx_bad hInv hf hp hu hbad
  · exact fun s p m hInv hf hp hu hl h1 h2 h3 h4 h5 h6 hfresh hr =>
      networkTriggerRx_good hInv hf hp hu hl h1 h2 h3 h4 h5 h6 hfresh hr

end Sys2Proof.Machine
end

