-- ==== Sys2Proof/Proofs/CalmFaults.lean ====
section
/-! SUPPORT. Fault events where no reaction asks for a reset: what all the events of a command, and those that they cause in turn, leave
of the state (R373, R376, R384). -/

namespace Sys2Proof.Machine

set_option Elab.async false

/-! ## What a fault event may change -/

/-- An event of a block and a source that exist, and not the unlocking of the DSP PLL, which resets of itself (R16). -/
structure Detected.Calm (d : Detected) : Prop where
  block : d.block < 17
  source : d.source < 64
  plain : ¬ (d.block = 3 ∧ d.source = 3)

/-- The register set of a block without what its events have written. -/
def FaultBlock.standing (f : FaultBlock) : FaultBlock :=
  { f with events := [], firstUnit := 0, firstSrc := 0, firstValid := false, sticky := 0 }

/-- The logs of uncorrectable lines with the line of an event (R384). -/
def Detected.logged (d : Detected) (now : T16) (logs : Tbl (List Uncorr)) : Tbl (List Uncorr) :=
  match d.line with
  | none => logs
  | some l =>
    let log : List Uncorr := tget [] logs l.region.val
    tset [] logs l.region.val ((log ++ [(⟨now, l, false⟩ : Uncorr)]).drop (log.length + 1 - 32))

/-- `t` is `s` but for what fault events write where none asks for a reset: sticky bits, first-fault registers, event logs, the logs of
lines, and notices. -/
structure FaultStep (s t : State) : Prop where
  only : t = { s with flt := t.flt, hcp := { s.hcp with mbs := t.hcp.mbs, log := t.hcp.log, held := t.hcp.held } }
  flt : t.flt = { s.flt with
    blocks := t.flt.blocks, logs := t.flt.logs, ledgerBad := t.flt.ledgerBad, detected := t.flt.detected }
  blocks : ∀ b, (t.blk b).standing = (s.blk b).standing
  grows : ∀ b n, (s.blk b).sticky.getLsbD n = true → (t.blk b).sticky.getLsbD n = true
  log : LogKeeps s t
  lasting : ∀ P, Lasting P → ∀ k, P (s.mb k) → P (t.mb k)

theorem FaultStep.refl (s : State) : FaultStep s s := ⟨rfl, rfl, fun _ => rfl, fun _ _ h => h, .refl s, fun _ _ _ h => h⟩

theorem FaultStep.trans {s t u : State} (h : FaultStep s t) (k : FaultStep t u) : FaultStep s u where
  only := by
    have h' := h.only
    have k' := k.only
    rw [k', h']
  flt := by
    have h' := h.flt
    have k' := k.flt
    rw [k', h']
  blocks b := (k.blocks b).trans (h.blocks b)
  grows b n hb := k.grows b n (h.grows b n hb)
  log := h.log.trans k.log
  lasting P hP j hj := k.lasting P hP j (h.lasting P hP j hj)

/-- A change of the fault registers that leaves the blocks, and of the rest of them no more than an event may change. -/
theorem FaultStep.of_flt {s : State} {x : Flt} (hx : x = { s.flt with logs := x.logs, ledgerBad := x.ledgerBad, detected := x.detected }) :
    FaultStep s { s with flt := x } := by
  have hb : x.blocks = s.flt.blocks := by rw [hx]
  refine ⟨rfl, ?_, fun b => ?_, fun b n h => ?_, fun _ h _ => h, fun _ _ _ h => h⟩
  · rw [hx]
  · unfold State.blk; rw [hb]
  · unfold State.blk at *; rw [hb]; exact h

theorem faultEvent_step (d : Detected) (b : Byte) (s : State) : FaultStep s (faultEvent d b s) := by
  have hn : NoticesOnly s (faultEvent d b s) := notify_noticesOnly _ _ s
  have hf : (faultEvent d b s).flt = s.flt := faultEvent_flt ..
  refine ⟨?_, by rw [hf], fun k => ?_, fun k n h => ?_, notify_logKeeps _ _ s, fun P hP k h => hP.notify _ _ k s h⟩
  · rw [hf]; exact hn
  · unfold State.blk; rw [hf]
  · unfold State.blk at *; rw [hf]; exact h

theorem seen_getLsbD (f : FaultBlock) (now : T16) (n u k : Nat) (hn : n < 64) :
    (f.seen now n u).sticky.getLsbD k = (f.sticky.getLsbD k || decide (k = n)) := by
  unfold FaultBlock.seen
  dsimp only
  rw [BitVec.getLsbD_or, BitVec.getLsbD_ofNat, Nat.testBit_two_pow]
  by_cases hk : k = n
  · subst hk; simp [hn]
  · simp [hk, Ne.symm hk]

theorem setSeen_step (b n u : Nat) (s : State) (hn : n < 64) : FaultStep s (s.setBlk b ((s.blk b).seen s.now n u)) := by
  refine ⟨rfl, rfl, fun k => ?_, fun k j h => ?_, fun _ h _ => h, fun _ _ _ h => h⟩
  · by_cases hk : k = b
    · subst hk; unfold State.blk State.setBlk; rw [tget_tset_self]; rfl
    · unfold State.blk State.setBlk; rw [tget_tset_ne _ _ _ _ _ hk]
  · by_cases hk : k = b
    · subst hk
      have he : (s.setBlk k ((s.blk k).seen s.now n u)).blk k = (s.blk k).seen s.now n u := tget_tset_self ..
      rw [he, seen_getLsbD _ _ _ _ _ hn, h, Bool.true_or]
    · have he : (s.setBlk b ((s.blk b).seen s.now n u)).blk k = s.blk k := tget_tset_ne _ _ _ _ _ hk
      rw [he]; exact h

theorem logLine_step (d : Detected) (s : State) : FaultStep s (logLine d s) := by
  unfold logLine
  split
  · exact .refl s
  · dsimp only
    split
    · exact .of_flt rfl
    · exact .of_flt rfl

/-! ## What depends on the lasting part of the registers alone -/

theorem gated_of_standing {s t : State} (h : ∀ b, (t.blk b).standing = (s.blk b).standing) (b n u : Nat) :
    t.gated b n u = s.gated b n u := by
  have hg' : ∀ k, (t.blk k).standing.gates = (s.blk k).standing.gates := fun k => congrArg FaultBlock.gates (h k)
  have hg : ∀ k, (t.blk k).gates = (s.blk k).gates := hg'
  unfold State.gated
  simp only [hg]

theorem reaction_of_standing {s t : State} (h : ∀ b, (t.blk b).standing = (s.blk b).standing) (b n : Nat) :
    t.reaction b n = s.reaction b n := by
  have hr : (t.blk b).standing.react = (s.blk b).standing.react := congrArg FaultBlock.react (h b)
  have hr : (t.blk b).react = (s.blk b).react := hr
  unfold State.reaction
  rw [hr]

theorem FaultStep.noResets {s t : State} (h : FaultStep s t) (hN : s.NoResets) : t.NoResets :=
  fun b hb n hn => by rw [reaction_of_standing h.blocks]; exact hN b hb n hn

theorem FaultStep.phase {s t : State} (h : FaultStep s t) : t.chip = s.chip := by rw [h.only]

theorem FaultStep.time {s t : State} (h : FaultStep s t) : t.time = s.time := by rw [h.only]

theorem FaultStep.now {s t : State} (h : FaultStep s t) : t.now = s.now := by unfold State.now; rw [h.time]

theorem FaultStep.keeps {s t : State} (h : FaultStep s t) : Keeps [.hcp, .flt] s t := by
  have := h.only
  rw [this]
  exact .of_parts

/-! ## One event -/

/-- The state in which an event's own registers are written: its line is logged, and a ledger that fails its check is marked. -/
def Detected.entered (d : Detected) (s : State) : State :=
  if d.block = 13 ∧ d.source = 0 then { logLine d s with flt := { (logLine d s).flt with ledgerBad := true } } else logLine d s

theorem entered_step (d : Detected) (s : State) : FaultStep s (d.entered s) := by
  unfold Detected.entered
  split
  · exact (logLine_step d s).trans (.of_flt rfl)
  · exact logLine_step d s

theorem entered_detected (d : Detected) (s : State) : ∃ l, (d.entered s).flt.detected = s.flt.detected ++ l ∧
    ∀ x ∈ l, x.Calm ∧ x.line = none := by
  have hl : ∃ l, (logLine d s).flt.detected = s.flt.detected ++ l ∧ ∀ x ∈ l, x.Calm ∧ x.line = none := by
    unfold logLine
    split
    · exact ⟨[], (List.append_nil _).symm, by simp⟩
    · dsimp only
      split
      · refine ⟨_, rfl, fun x hx => ?_⟩
        rw [List.mem_singleton.mp hx]
        exact ⟨⟨(by decide : 14 < 17), (by decide : 4 < 64), by dsimp only; omega⟩, rfl⟩
      · exact ⟨[], (List.append_nil _).symm, by simp⟩
  unfold Detected.entered
  split
  · exact hl
  · exact hl

theorem entered_logs (d : Detected) (s : State) : (d.entered s).flt.logs = d.logged s.now s.flt.logs := by
  have hl : (logLine d s).flt.logs = d.logged s.now s.flt.logs := by
    unfold logLine Detected.logged
    cases d.line with
    | none => rfl
    | some l => dsimp only; split <;> rfl
  unfold Detected.entered
  split
  · exact hl
  · exact hl

/-- What an event does once its line is logged. -/
def Detected.acts (d : Detected) (s : State) : State × Option Byte :=
  if s.gated d.block d.source d.unit then (if d.line.isSome then faultEvent d 0 s else s, none)
  else
    let fresh := !(s.blk d.block).sticky.getLsbD d.source
    let t := s.setBlk d.block ((s.blk d.block).seen s.now d.source d.unit)
    let byte := if fresh then t.reaction d.block d.source else 0
    (if byte.getLsbD 0 || byte.getLsbD 1 || d.line.isSome then faultEvent d byte t else t, if fresh then some byte else none)

theorem setSource_eq (d : Detected) (s : State) : setSource d s = d.acts (d.entered s) := rfl

/-- The event of a gated source is not seen; its line is told. -/
theorem acts_gated {d : Detected} {s : State} (h : s.gated d.block d.source d.unit = true) :
    d.acts s = (if d.line.isSome then faultEvent d 0 s else s, none) := if_pos h

/-- Another event is seen by its block, and may be told. -/
theorem acts_seen {d : Detected} {s : State} (h : s.gated d.block d.source d.unit = false) :
    ∃ byte : Byte, (byte = 0 ∨ byte = s.reaction d.block d.source) ∧ d.acts s =
      (let t := s.setBlk d.block ((s.blk d.block).seen s.now d.source d.unit)
       (if byte.getLsbD 0 || byte.getLsbD 1 || d.line.isSome then faultEvent d byte t else t,
         if !(s.blk d.block).sticky.getLsbD d.source then some byte else none)) := by
  refine ⟨_, ?_, if_neg (by rw [h]; exact Bool.false_ne_true)⟩
  rw [reaction_seen]
  split
  · exact .inr rfl
  · exact .inl rfl

/-- One event where no reaction asks for a reset. -/
structure SeenStep (d : Detected) (s t : State) (byte : Option Byte) : Prop where
  step : FaultStep s t
  logs : t.flt.logs = d.logged s.now s.flt.logs
  seen : s.gated d.block d.source d.unit = false → (t.blk d.block).sticky.getLsbD d.source = true
  noReset : ∀ b ∈ byte, resetField b = 0
  raised : ∃ l, t.flt.detected = s.flt.detected ++ l ∧ ∀ x ∈ l, x.Calm ∧ x.line = none

theorem acts_step (d : Detected) (s : State) (hd : d.Calm) (hN : s.NoResets) :
    FaultStep s (d.acts s).1 ∧ (d.acts s).1.flt.logs = s.flt.logs ∧ (d.acts s).1.flt.detected = s.flt.detected ∧
      (∀ b ∈ (d.acts s).2, resetField b = 0) ∧
      (s.gated d.block d.source d.unit = false → ((d.acts s).1.blk d.block).sticky.getLsbD d.source = true) := by
  have told : ∀ (c : Bool) (byte : Byte) (t : State), FaultStep t (if c then faultEvent d byte t else t) ∧
      (if c then faultEvent d byte t else t).flt = t.flt := by
    intro c byte t
    cases c
    · exact ⟨.refl t, rfl⟩
    · exact ⟨faultEvent_step .., faultEvent_flt ..⟩
  cases h : s.gated d.block d.source d.unit with
  | true =>
    rw [acts_gated h]
    obtain ⟨hs, hf⟩ := told d.line.isSome 0 s
    refine ⟨hs, congrArg Flt.logs hf, congrArg Flt.detected hf, ?_, ?_⟩
    · intro b hb; cases hb
    · intro hg; cases hg
  | false =>
    obtain ⟨byte, hbyte, hset⟩ := acts_seen h
    rw [hset]
    dsimp only
    have hst := setSeen_step d.block d.source d.unit s hd.source
    have hb : (s.setBlk d.block ((s.blk d.block).seen s.now d.source d.unit)).blk d.block =
      (s.blk d.block).seen s.now d.source d.unit := tget_tset_self ..
    obtain ⟨hs, hf⟩ := told (byte.getLsbD 0 || byte.getLsbD 1 || d.line.isSome) byte
      (s.setBlk d.block ((s.blk d.block).seen s.now d.source d.unit))
    refine ⟨hst.trans hs, (congrArg Flt.logs hf).trans rfl, (congrArg Flt.detected hf).trans rfl, ?_, fun _ => hs.grows _ _ ?_⟩
    · intro b hb
      split at hb
      · cases hb
        rcases hbyte with rfl | rfl
        · decide
        · exact hN _ hd.block _ hd.source
      · cases hb
    · rw [hb, seen_getLsbD _ _ _ _ _ hd.source, decide_eq_true rfl, Bool.or_true]

theorem setSource_step (d : Detected) (s : State) (hd : d.Calm) (hN : s.NoResets) :
    SeenStep d s (setSource d s).1 (setSource d s).2 := by
  have he := entered_step d s
  obtain ⟨hs, hl, hx, hr, hb⟩ := acts_step d (d.entered s) hd (he.noResets hN)
  rw [setSource_eq]
  exact {
    step := he.trans hs
    logs := hl.trans (entered_logs d s)
    seen := fun hg => hb ((gated_of_standing he.blocks ..).trans hg)
    noReset := hr
    raised := by rw [hx]; exact entered_detected d s }

/-! ## The events of one cycle, and those that they cause -/

/-- The events of one cycle where no reaction asks for a reset. -/
structure SeenSteps (ds : List Detected) (s t : State) : Prop where
  step : FaultStep s t
  logs : t.flt.logs = ds.foldl (fun l d => d.logged s.now l) s.flt.logs
  seen : ∀ d ∈ ds, s.gated d.block d.source d.unit = false → (t.blk d.block).sticky.getLsbD d.source = true

theorem setSources_step : ∀ (ds : List Detected) (s : State), (∀ d ∈ ds, d.Calm) → s.NoResets →
    SeenSteps ds s (setSources ds s).1 ∧ (∀ r ∈ (setSources ds s).2, resetField r.2 = 0) ∧
      ∃ l, (setSources ds s).1.flt.detected = s.flt.detected ++ l ∧ ∀ x ∈ l, x.Calm ∧ x.line = none
  | [], s, _, _ => ⟨⟨.refl s, rfl, by simp⟩, by simp [setSources], [], (List.append_nil _).symm, by simp⟩
  | d :: ds, s, hc, hN => by
    have hd := setSource_step d s (hc d List.mem_cons_self) hN
    obtain ⟨hs, hr, l, hl, hq⟩ := setSources_step ds (setSource d s).1 (fun x hx => hc x (List.mem_cons_of_mem _ hx))
      (hd.step.noResets hN)
    obtain ⟨k, hk, hp⟩ := hd.raised
    have he : (setSources (d :: ds) s).1 = (setSources ds (setSource d s).1).1 := rfl
    have hrs : (setSources (d :: ds) s).2 = (match (setSource d s).2 with
      | some b => (d, b) :: (setSources ds (setSource d s).1).2
      | none => (setSources ds (setSource d s).1).2) := rfl
    refine ⟨⟨?_, ?_, ?_⟩, ?_, k ++ l, ?_, ?_⟩
    · rw [he]; exact hd.step.trans hs.step
    · rw [he, hs.logs, hd.logs, hd.step.now]; rfl
    · intro x hx hg
      rw [he]
      rcases List.mem_cons.mp hx with rfl | hx
      · exact hs.step.grows _ _ (hd.seen hg)
      · exact hs.seen x hx ((gated_of_standing hd.step.blocks ..).trans hg)
    · rw [hrs]
      cases hb : (setSource d s).2 with
      | none => exact hr
      | some b =>
        rintro x hx
        rcases List.mem_cons.mp hx with rfl | hx
        · exact hd.noReset b hb
        · exact hr x hx
    · rw [he, hl, hk, List.append_assoc]
    · intro x hx
      rcases List.mem_append.mp hx with hx | hx
      · exact hp x hx
      · exact hq x hx

theorem chipAsked_none {rs : List (Detected × Byte)} (h : ∀ r ∈ rs, resetField r.2 = 0) : chipAsked rs = none := by
  unfold chipAsked
  rw [Option.map_eq_none_iff, List.findSome?_eq_none_iff]
  intro b _
  rw [List.find?_eq_none]
  intro r hr
  rw [h r hr]
  simp

theorem filter_reset_nil {rs : List (Detected × Byte)} (h : ∀ r ∈ rs, resetField r.2 = 0) :
    rs.filter (fun r => resetField r.2 == 1) = [] := by
  rw [List.filter_eq_nil_iff]
  intro r hr
  rw [h r hr]
  decide

/-- The fault events of a command, and those that they cause in turn, where no reaction asks for a reset. -/
theorem actFaults_calm (old : State) : ∀ (k : Nat) (s : State), (∀ d ∈ s.flt.detected, d.Calm) → s.NoResets →
    FaultStep s (actFaults old k s) ∧ ((∀ d ∈ s.flt.detected, d.line = none) → (actFaults old k s).flt.logs = s.flt.logs) ∧
      (k ≠ 0 → s.faultsHeld = false → SeenSteps s.flt.detected (acted s) (actFaults old k s))
  | 0, s, _, _ => ⟨.of_flt rfl, fun _ => rfl, fun h => absurd rfl h⟩
  | k + 1, s, hc, hN => by
    have hlogs : ∀ (ds : List Detected) (l : Tbl (List Uncorr)), (∀ d ∈ ds, d.line = none) →
        ds.foldl (fun l d => d.logged (acted s).now l) l = l := by
      intro ds
      induction ds with
      | nil => intros; rfl
      | cons d ds ih =>
        intro l h
        have hd : d.logged (acted s).now l = l := by unfold Detected.logged; rw [h d List.mem_cons_self]
        rw [List.foldl_cons, hd]
        exact ih l fun x hx => h x (List.mem_cons_of_mem _ hx)
    cases hdet : s.flt.detected with
    | nil =>
      rw [actFaults_quiet old (k + 1) s (by omega) hdet]
      exact ⟨.refl s, fun _ => rfl, fun _ _ => ⟨by rw [show acted s = s by unfold acted; rw [← hdet]]; exact .refl s, rfl, by simp⟩⟩
    | cons d ds =>
      rw [← hdet]
      have ha : FaultStep s (acted s) := .of_flt rfl
      have heq : actFaults old (k + 1) s = (if (acted s).faultsHeld then acted s else
          match (if (setSources s.flt.detected (acted s)).1.mayReset then chipAsked (setSources s.flt.detected (acted s)).2 else none) with
          | some d => chipReset (writeRecord (if d.block = 15 ∧ d.source = 2 then 3 else 2) d.block d.source d.unit old
              (setSources s.flt.detected (acted s)).1)
          | none => actFaults old k
            (let u := if (setSources s.flt.detected (acted s)).1.mayReset then
                forEach ((setSources s.flt.detected (acted s)).2.filter fun r => resetField r.2 == 1)
                  (fun r t => beginReset r.1.block r.1.unit t) (setSources s.flt.detected (acted s)).1
              else (setSources s.flt.detected (acted s)).1
             if s.flt.detected.any fun d => d.block == 3 && d.source == 3 then beginDsp u else u)) := by
        rw [actFaults, hdet]
        rfl
      obtain ⟨hs, hr, l, hl, hq⟩ := setSources_step s.flt.detected (acted s) hc (ha.noResets hN)
      have hplain : (s.flt.detected.any fun d => d.block == 3 && d.source == 3) = false := by
        rw [List.any_eq_false]
        intro x hx h
        rw [Bool.and_eq_true, beq_iff_eq, beq_iff_eq] at h
        exact (hc x hx).plain h
      cases hh : s.faultsHeld with
      | true =>
        have hh' : (acted s).faultsHeld = true := hh
        rw [heq, if_pos hh']
        exact ⟨ha, fun _ => rfl, fun _ h => absurd h (by decide)⟩
      | false =>
        have hh' : (acted s).faultsHeld = false := hh
        have hnone : (if (setSources s.flt.detected (acted s)).1.mayReset then chipAsked (setSources s.flt.detected (acted s)).2 else none)
            = none := by
          split
          · exact chipAsked_none hr
          · rfl
        have hend : actFaults old (k + 1) s = actFaults old k (setSources s.flt.detected (acted s)).1 := by
          rw [heq, if_neg (by rw [hh']; exact Bool.false_ne_true), hnone, hplain, filter_reset_nil hr]
          dsimp only [forEach, List.foldl_nil]
          rw [if_neg Bool.false_ne_true, ite_self]
        have hcalm : ∀ x ∈ (setSources s.flt.detected (acted s)).1.flt.detected, x.Calm ∧ x.line = none := by
          rw [hl]; exact hq
        obtain ⟨hstep, hkeep, -⟩ := actFaults_calm old k (setSources s.flt.detected (acted s)).1 (fun x hx => (hcalm x hx).1)
          (hs.step.noResets (ha.noResets hN))
        have hlog := hkeep fun x hx => (hcalm x hx).2
        rw [hend]
        refine ⟨ha.trans (hs.step.trans hstep), fun hn => ?_, fun _ _ => ⟨hs.step.trans hstep, ?_, fun x hx hg => ?_⟩⟩
        · rw [hlog, hs.logs]; exact hlogs _ _ hn
        · rw [hlog, hs.logs]
        · exact hstep.grows _ _ (hs.seen x hx hg)

/-! ## The next state of a command that detects such events -/

/-- `t` is the next state of a command whose effect is `x`, where no reaction to the fault events of `x` asks for a reset; of the
mailboxes and the ledger it says nothing. -/
structure FollowsCalm (s x t : State) : Prop where
  emitted : ∀ e ∈ x.emitted, e ∈ t.emitted
  ports : t.hcp.ports = x.hcp.ports
  time : t.time = { x.time with sec := s.time.sec, ns := s.time.ns, frac40 := s.time.frac40 }
  tick : t.tick = s.tick
  pending : t.pending = s.pending
  chip : t.chip = x.chip
  boot : t.boot = x.boot
  cal : t.cal = x.cal
  xfer : t.xfer = x.xfer
  lanes : t.lanes = x.lanes
  bgls : t.bgls = x.bgls
  dclks : t.dclks = x.dclks
  srefs : t.srefs = x.srefs
  jesds : t.jesds = x.jesds
  bglIns : t.bglIns = x.bglIns
  scps : t.scps = x.scps
  channels : t.channels = x.channels
  pipes : t.pipes = x.pipes
  profiles : t.profiles = x.profiles
  cap : t.cap = x.cap
  comp : t.comp = x.comp
  strm : t.strm = x.strm
  upl : t.upl = x.upl
  island : t.island = x.island
  freeCount : t.freeCount = x.freeCount
  flt : t.flt = { x.flt with blocks := t.flt.blocks, logs := t.flt.logs, ledgerBad := t.flt.ledgerBad, detected := [] }
  blocks : ∀ b, (t.blk b).standing = (x.blk b).standing
  grows : ∀ b n, (x.blk b).sticky.getLsbD n = true → (t.blk b).sticky.getLsbD n = true
  logs : x.faultsHeld = false → t.flt.logs = x.flt.detected.foldl (fun l d => d.logged x.now l) x.flt.logs
  seen : x.faultsHeld = false → ∀ d ∈ x.flt.detected, x.gated d.block d.source d.unit = false →
    (t.blk d.block).sticky.getLsbD d.source = true

theorem noResets_of_blocks {s t : State} (h : t.flt.blocks = s.flt.blocks) (hN : s.NoResets) : t.NoResets := by
  intro b hb n hn
  have hr := hN b hb n hn
  unfold State.reaction State.blk at *
  rw [h]
  exact hr

/-- Fault events that ask for no reset come behind a command's effect. -/
theorem calm_settles (s : State) {e : State} (hN : e.NoResets) (hc : ∀ d ∈ e.flt.detected, d.Calm) :
    ∃ y, actFaults s reactionDepth e = y ∧ FaultStep e y ∧ y.flt.detected = [] ∧
      (e.faultsHeld = false → SeenSteps e.flt.detected (acted e) y) := by
  obtain ⟨hs, -, hd⟩ := actFaults_calm s reactionDepth e hc hN
  exact ⟨_, rfl, hs, actFaults_acted s reactionDepth e, hd (by decide)⟩

/-- A command ends as one whose effect is the state in which its fault events have acted. -/
theorem after_acted {f : State → State} {s y : State} (hy : actFaults s reactionDepth (effectOf f s) = y) (hq : y.flt.detected = []) :
    after f s = after (fun _ => y) s := by
  unfold after settled
  rw [hy, show effectOf (fun _ => y) s = y from rfl, actFaults_quiet s reactionDepth y (by decide) hq]

theorem follows_calm {s e y t : State} (hs : FaultStep e y) (hd : e.faultsHeld = false → SeenSteps e.flt.detected (acted e) y)
    (F : Follows s y t) (hq : y.flt.detected = []) : FollowsCalm s e t where
  emitted x hx := F.emitted x (by rw [hs.only]; exact hx)
  ports := by rw [F.hcp, hs.only]; rfl
  time := F.time.trans (by rw [hs.time])
  tick := F.tick
  pending := F.pending
  chip := F.chip.trans (by rw [hs.only])
  boot := F.boot.trans (by rw [hs.only])
  cal := F.cal.trans (by rw [hs.only])
  xfer := F.xfer.trans (by rw [hs.only])
  lanes := F.lanes.trans (by rw [hs.only])
  bgls := F.bgls.trans (by rw [hs.only])
  dclks := F.dclks.trans (by rw [hs.only])
  srefs := F.srefs.trans (by rw [hs.only])
  jesds := F.jesds.trans (by rw [hs.only])
  bglIns := F.bglIns.trans (by rw [hs.only])
  scps := F.scps.trans (by rw [hs.only])
  channels := F.channels.trans (by rw [hs.only])
  pipes := F.pipes.trans (by rw [hs.only])
  profiles := F.profiles.trans (by rw [hs.only])
  cap := F.cap.trans (by rw [hs.only])
  comp := F.comp.trans (by rw [hs.only])
  strm := F.strm.trans (by rw [hs.only])
  upl := F.upl.trans (by rw [hs.only])
  island := F.island.trans (by rw [hs.only])
  freeCount := F.freeCount.trans (by rw [hs.only])
  flt := by
    have hf := hs.flt
    rw [hq] at hf
    rw [F.flt]
    exact hf
  blocks b := by
    have hb : t.blk b = y.blk b := by unfold State.blk; rw [F.flt]
    rw [hb]; exact hs.blocks b
  grows b n h := by
    have hb : t.blk b = y.blk b := by unfold State.blk; rw [F.flt]
    rw [hb]; exact hs.grows b n h
  logs hh := by rw [F.flt]; exact (hd hh).logs
  seen hh d hx hg := by
    have hb : t.blk d.block = y.blk d.block := by unfold State.blk; rw [F.flt]
    rw [hb]; exact (hd hh).seen d hx hg

theorem FaultStep.after_keeps {f : State → State} {s e y : State} {ch : List Part} (he : effectOf f s = e)
    (hy : actFaults s reactionDepth e = y) (hs : FaultStep e y) (hq : y.flt.detected = []) (hh : Part.hcp ∈ ch) (hf : Part.flt ∈ ch)
    (hk : Keeps ch s e) : Keeps ch s (after f s) := by
  rw [after_acted (by rw [he]; exact hy) hq]
  refine Machine.after_keeps hq (hk.trans (hs.keeps.weaken ?_))
  simp [hh, hf]

/-- A command whose effect detects fault events of which none asks for a reset. -/
theorem gives_of_calm {i : Instr} {s x : State} {f : State → State} {ch : List Part} {post : State → Prop}
    (hi : exec i s = .next (after f s)) (he : effectOf f s = x) (hN : x.NoResets) (hc : ∀ d ∈ x.flt.detected, d.Calm)
    (hk : Keeps ch s x)
    (hp : ∀ t, FollowsCalm s x t → LogKeeps x t → (∀ P, Lasting P → ∀ k, P (x.mb k) → P (t.mb k)) → t.ledger = x.ledger → post t)
    (hh : Part.hcp ∈ ch := by simp) (hf : Part.flt ∈ ch := by simp) : Gives i s ch post := by
  obtain ⟨y, hy, hs, hq, hd⟩ := calm_settles s hN hc
  have F : Follows s y (after f s) := by
    rw [after_acted (by rw [he]; exact hy) hq]
    exact follows_after rfl hq
  refine ⟨_, hi, hs.after_keeps he hy hq hh hf hk, hp _ (follows_calm hs hd F hq) ?_ ?_ ?_⟩
  · exact hs.log.trans (logKeeps_of_log (by rw [F.hcp]))
  · exact fun P hP k h => by rw [F.mb]; exact hs.lasting P hP k h
  · exact F.ledger.trans (by rw [hs.only])

/-- The effect of an accepted request with its answer, but for the mailboxes and the ledger, is its opcode's. -/
theorem FollowsCalm.of_served {op : Op} {r : Req} {s x t : State} (h : Accepted op r s) (hx : (op.effect r (s.taking op r)).1 = x)
    (F : FollowsCalm s (effectOf (serveRow op r) s) t) : FollowsCalm s x t := by
  subst hx
  have hb : ∀ b, (effectOf (serveRow op r) s).blk b = (op.effect r (s.taking op r)).1.blk b := fun b => by
    unfold State.blk; rw [served_flt h]
  have hg : ∀ b n u, (effectOf (serveRow op r) s).gated b n u = (op.effect r (s.taking op r)).1.gated b n u :=
    gated_of_standing fun b => by rw [hb]
  have hheld : (effectOf (serveRow op r) s).faultsHeld = (op.effect r (s.taking op r)).1.faultsHeld := by
    unfold State.faultsHeld; rw [served_chip h]
  have hnow : (effectOf (serveRow op r) s).now = (op.effect r (s.taking op r)).1.now := by unfold State.now; rw [served_time h]
  exact {
    emitted := fun e he => F.emitted e (by rw [served_emitted h]; exact he)
    ports := F.ports.trans (served_ports h)
    time := F.time.trans (by rw [served_time h])
    tick := F.tick
    pending := F.pending
    chip := F.chip.trans (served_chip h)
    boot := F.boot.trans (served_boot h)
    cal := F.cal.trans (served_cal h)
    xfer := F.xfer.trans (served_xfer h)
    lanes := F.lanes.trans (served_lanes h)
    bgls := F.bgls.trans (served_bgls h)
    dclks := F.dclks.trans (served_dclks h)
    srefs := F.srefs.trans (served_srefs h)
    jesds := F.jesds.trans (served_jesds h)
    bglIns := F.bglIns.trans (served_bglIns h)
    scps := F.scps.trans (served_scps h)
    channels := F.channels.trans (served_channels h)
    pipes := F.pipes.trans (served_pipes h)
    profiles := F.profiles.trans (served_profiles h)
    cap := F.cap.trans (served_cap h)
    comp := F.comp.trans (served_comp h)
    strm := F.strm.trans (served_strm h)
    upl := F.upl.trans (served_upl h)
    island := F.island.trans (served_island h)
    freeCount := F.freeCount.trans (served_freeCount h)
    flt := by
      have hf := F.flt
      rw [served_flt h] at hf
      exact hf
    blocks := fun b => by rw [F.blocks, hb]
    grows := fun b n hn => F.grows b n (by rw [hb]; exact hn)
    logs := fun hh => by
      rw [F.logs (hheld.trans hh), served_flt h, hnow]
    seen := fun hh d hd hn => F.seen (hheld.trans hh) d (by rw [served_flt h]; exact hd) (by rw [hg]; exact hn) }

theorem served_keeps {op : Op} {r : Req} {s : State} (h : Accepted op r s) :
    Keeps (if op.ledger then [.hcp, .ledger] else [.hcp]) (op.effect r (s.taking op r)).1 (effectOf (serveRow op r) s) := by
  intro p hp
  have hne : p ≠ .hcp := by rintro rfl; split at hp <;> simp at hp
  cases p
  case hcp => exact absurd rfl hne
  case ledger =>
    refine served_ledger h ?_
    cases hl : op.ledger with
    | false => rfl
    | true => simp [hl] at hp
  case ports => exact served_ports h
  case time => exact served_time h
  case tick => exact served_tick h
  case chip => exact served_chip h
  case boot => exact served_boot h
  case cal => exact served_cal h
  case xfer => exact served_xfer h
  case lanes => exact served_lanes h
  case bgls => exact served_bgls h
  case dclks => exact served_dclks h
  case srefs => exact served_srefs h
  case jesds => exact served_jesds h
  case bglIns => exact served_bglIns h
  case scps => exact served_scps h
  case channels => exact served_channels h
  case pipes => exact served_pipes h
  case profiles => exact served_profiles h
  case cap => exact served_cap h
  case comp => exact served_comp h
  case strm => exact served_strm h
  case upl => exact served_upl h
  case island => exact served_island h
  case flt => exact served_flt h
  case free => exact served_freeCount h
  case queue => exact served_pending h

/-- As `gives_of_op`, for an opcode whose effect detects fault events of which none asks for a reset. -/
theorem gives_of_op_calm {i : Instr} {op : Op} {r : Req} {s x : State} {ch : List Part} {post : State → Prop}
    (hi : exec i s = .next (after (serveRow op r) s)) (h : Accepted op r s) {st d : Nat} {p : Bytes}
    (he : op.effect r (s.judged op r) = (x, ⟨st, d, p⟩)) (hN : x.NoResets) (hc : ∀ d ∈ x.flt.detected, d.Calm)
    (hk : Keeps ch (s.judged op r) x) (hp : ∀ t, FollowsCalm s x t → Answered op.code r st d p t → post t)
    (hv : st ≠ 0x0303 ∧ st ≠ 0x0304 ∧ st ≠ 0x0401 := by decide) (hh : Part.hcp ∈ ch := by simp) (hf : Part.flt ∈ ch := by simp)
    (hl : op.ledger = false ∨ Part.ledger ∈ ch := by first | exact .inl rfl | exact .inr (by simp)) : Gives i s ch post := by
  have heff : op.effect r (s.taking op r) = (x, ⟨st, d, p⟩) := (congrArg (op.effect r) (taking_hcp_only s op r)).trans he
  have e1 : (op.effect r (s.taking op r)).1 = x := by rw [heff]
  have e2 : (op.effect r (s.taking op r)).2 = ⟨st, d, p⟩ := by rw [heff]
  have hflt : (effectOf (serveRow op r) s).flt = x.flt := (served_flt h).trans (by rw [e1])
  obtain ⟨y, hy, hs, hq, hd⟩ := calm_settles s (noResets_of_blocks (congrArg Flt.blocks hflt) hN) (by rw [hflt]; exact hc)
  have F : Follows s y (after (serveRow op r) s) := by
    rw [after_acted hy hq]
    exact follows_after rfl hq
  have hkx : Keeps ch s x := by
    refine Keeps.trans (Keeps.weaken (taking_keeps s op r) (by simp [hh])) ?_
    rw [taking_hcp_only]
    exact hk
  have hke : Keeps ch s (effectOf (serveRow op r) s) := by
    refine hkx.trans (Keeps.weaken (by rw [← e1]; exact served_keeps h) ?_)
    rcases hl with hl | hl
    · simp [hl, hh]
    · split <;> simp [hl, hh]
  refine ⟨_, hi, hs.after_keeps rfl hy hq hh hf hke, hp _ ((follows_calm hs hd F hq).of_served h e1) ?_⟩
  unfold Answered
  rw [F.mb]
  exact hs.lasting _ (lasting_stored _) _ (served_answered h e2 hv)

end Sys2Proof.Machine
end

