-- ==== Sys2Proof/Proofs/PortRules.lean ====
section
/-! SUPPORT. What the operations on an uplink port change, and a port that leaves UP (13_uplinks, R361, R363). -/

namespace Sys2Proof.Machine

set_option Elab.async false

/-! ## One port -/

/-- `t` is `s` but for uplink ports and what has been sent. -/
structure PortsOnly (s t : State) : Prop where
  only : t = { s with upl := { s.upl with ports := t.upl.ports }, emitted := t.emitted }
  sends : ∀ e ∈ s.emitted, e ∈ t.emitted

theorem PortsOnly.refl (s : State) : PortsOnly s s := ⟨rfl, fun _ h => h⟩

theorem PortsOnly.trans {s t u : State} (h : PortsOnly s t) (k : PortsOnly t u) : PortsOnly s u := by
  refine ⟨?_, fun e he => k.sends e (h.sends e he)⟩
  have h' := h.only
  have k' := k.only
  rw [k', h']

theorem PortsOnly.setPort (p : Nat) (x : Port) (s : State) : PortsOnly s (s.setPort p x) := ⟨rfl, fun _ h => h⟩

theorem PortsOnly.forEach {α : Type} {f : α → State → State} (h : ∀ x s, PortsOnly s (f x s)) :
    ∀ (xs : List α) (s : State), PortsOnly s (forEach xs f s)
  | [], s => .refl s
  | x :: xs, s => (h x s).trans (PortsOnly.forEach h xs (f x s))

theorem PortsOnly.keeps {s t : State} (h : PortsOnly s t) : Keeps [.upl] s t := by
  have := h.only
  rw [this]
  exact .of_parts

theorem PortsOnly.flt {s t : State} (h : PortsOnly s t) : t.flt = s.flt := by rw [h.only]
theorem PortsOnly.strm {s t : State} (h : PortsOnly s t) : t.strm = s.strm := by rw [h.only]

theorem PortsOnly.stream {s t : State} (h : PortsOnly s t) (n : Nat) : t.stream n = s.stream n := by
  unfold State.stream; rw [h.strm]

/-- A port's remote fault sequences begin or end (R361). -/
theorem sendRemote_only (p : Nat) (on : Bool) (s : State) : PortsOnly s (sendRemote p on s) ∧
    (sendRemote p on s).port p = { s.port p with remoteTx := on && decide (s.chip.phase ≠ .safe) } ∧
    ∀ k, k ≠ p → (sendRemote p on s).port k = s.port k := by
  unfold sendRemote
  dsimp only
  generalize (on && decide (s.chip.phase ≠ .safe)) = b
  by_cases h : (s.port p).remoteTx = b
  · rw [if_pos h]
    subst h
    exact ⟨.refl s, rfl, fun _ _ => rfl⟩
  · rw [if_neg h]
    exact ⟨⟨rfl, fun e he => List.mem_append_left _ he⟩, port_setPort_self .., fun k hk => port_setPort_ne _ _ hk⟩

theorem abortFrame_none {p : Nat} {s : State} (h : (s.port p).sending = none) : abortFrame p s = s := by
  unfold abortFrame
  dsimp only
  rw [h]

theorem abortFrame_some {p : Nat} {s : State} {f : Sending} (h : (s.port p).sending = some f) : abortFrame p s =
    (s.setPort p { s.port p with sending := none, aborted := (s.port p).aborted + 1 }).emit
      (.uplinkFrame p (corruptFcs f.frame) true) := by
  unfold abortFrame
  dsimp only
  rw [h]

/-- A port whose frame has been aborted. -/
def Port.cut (x : Port) : Port := { x with sending := none, aborted := if x.sending.isSome then x.aborted + 1 else x.aborted }

theorem Port.cut_none {x : Port} (h : x.sending = none) : x.cut = x := by
  unfold Port.cut
  cases x
  cases h
  rfl

theorem Port.cut_some {x : Port} {f : Sending} (h : x.sending = some f) : x.cut = { x with sending := none, aborted := x.aborted + 1 } := by
  unfold Port.cut
  rw [h]
  rfl

/-- The port's frame is aborted (R363). -/
theorem abortFrame_only (p : Nat) (s : State) : PortsOnly s (abortFrame p s) ∧
    (abortFrame p s).port p = (s.port p).cut ∧ (∀ k, k ≠ p → (abortFrame p s).port k = s.port k) ∧
    ∀ f, (s.port p).sending = some f → .uplinkFrame p (corruptFcs f.frame) true ∈ (abortFrame p s).emitted := by
  cases h : (s.port p).sending with
  | none =>
    rw [abortFrame_none h, Port.cut_none h]
    exact ⟨.refl s, rfl, fun _ _ => rfl, fun f hf => by cases hf⟩
  | some f =>
    rw [abortFrame_some h, Port.cut_some h]
    refine ⟨⟨rfl, fun e he => List.mem_append_left _ he⟩, port_setPort_self .., fun k hk => port_setPort_ne _ _ hk, fun g hg => ?_⟩
    cases hg
    exact emit_mem ..

/-! ## Claims of streams -/

/-- `t` is `s` but for streams and what a notice can change. -/
def StreamsOnly (s t : State) : Prop := NoticesOnly { s with strm := { s.strm with streams := t.strm.streams } } t

theorem StreamsOnly.refl (s : State) : StreamsOnly s s := rfl

theorem StreamsOnly.trans {s t u : State} (h : StreamsOnly s t) (k : StreamsOnly t u) : StreamsOnly s u := by
  unfold StreamsOnly NoticesOnly at *
  rw [k, h]

theorem StreamsOnly.of_notices {s t : State} (h : NoticesOnly s t) : StreamsOnly s t := (StreamOnly.of_notices (n := 0) h).only

theorem StreamsOnly.forEach {α : Type} {f : α → State → State} (h : ∀ x s, StreamsOnly s (f x s)) :
    ∀ (xs : List α) (s : State), StreamsOnly s (forEach xs f s)
  | [], s => .refl s
  | x :: xs, s => (h x s).trans (StreamsOnly.forEach h xs (f x s))

theorem StreamsOnly.upl {s t : State} (h : StreamsOnly s t) : t.upl = s.upl := by rw [h]
theorem StreamsOnly.flt {s t : State} (h : StreamsOnly s t) : t.flt = s.flt := by rw [h]
theorem StreamsOnly.emitted {s t : State} (h : StreamsOnly s t) : t.emitted = s.emitted := by rw [h]

theorem StreamsOnly.keeps {s t : State} (h : StreamsOnly s t) : Keeps [.hcp, .strm] s t := by
  rw [h]
  exact .of_parts

/-- Claims of a group on a committed packet's pages (R329). -/
def Committed.unclaimed (g : Nat) (c : Committed) : Committed := if g = 0 then { c with leftA := 0 } else { c with leftB := 0 }

theorem unclaimed_left (g : Nat) (c : Committed) : (c.unclaimed g).leftIn g = 0 := by
  unfold Committed.unclaimed Committed.leftIn
  split <;> rfl

theorem clearClaims_only (n g : Nat) (s : State) : StreamOnly n s (clearClaims n g s) ∧
    ∀ c ∈ ((clearClaims n g s).stream n).queue, c.leftIn g = 0 := by
  obtain ⟨ho, k, h, l, hs⟩ := changeQueue_only n (Committed.unclaimed g) s
  have he : clearClaims n g s = changeQueue n (Committed.unclaimed g) s := rfl
  rw [he]
  refine ⟨ho, fun c hc => ?_⟩
  rw [hs, Stream.emptied_queue] at hc
  obtain ⟨x, -, rfl⟩ := List.mem_map.mp (List.mem_filter.mp hc).1
  exact unclaimed_left g x

/-- The group's claims clear of some streams, and of no other. -/
structure ClaimsCleared (g : Nat) (ns : List Nat) (s t : State) : Prop where
  only : StreamsOnly s t
  others : ∀ m, m ∉ ns → t.stream m = s.stream m
  cleared : ∀ m, m ∈ ns ∨ (∀ c ∈ (s.stream m).queue, c.leftIn g = 0) → ∀ c ∈ (t.stream m).queue, c.leftIn g = 0

theorem forEach_clearClaims (g : Nat) (ns : List Nat) :
    ∀ s, ClaimsCleared g ns s (forEach ns (fun n t => clearClaims n g t) s) := by
  induction ns with
  | nil => exact fun s => ⟨.refl s, fun _ _ => rfl, fun m h => h.resolve_left List.not_mem_nil⟩
  | cons n ns ih =>
    intro s
    obtain ⟨ho, hn⟩ := clearClaims_only n g s
    have hs := ih (clearClaims n g s)
    have he : forEach (n :: ns) (fun n t => clearClaims n g t) s = forEach ns (fun n t => clearClaims n g t) (clearClaims n g s) := rfl
    rw [he]
    refine ⟨StreamsOnly.trans ho.only hs.only, fun m hm => ?_, fun m hm => hs.cleared m ?_⟩
    · exact (hs.others m fun h => hm (List.mem_cons_of_mem _ h)).trans (ho.others m fun h => hm (h ▸ List.mem_cons_self))
    · by_cases hmn : m = n
      · subst hmn; exact .inr hn
      · rcases hm with hm | hm
        · exact .inl (List.mem_of_ne_of_mem hmn hm)
        · exact .inr (by rw [ho.others m hmn]; exact hm)

/-! ## A port leaves UP -/

theorem uplEvent_notices (e p g c : Nat) (s : State) : NoticesOnly s (uplEvent e p g c s) := notify_noticesOnly ..

theorem tellGroup_notices (old : State) (g : Nat) (s : State) : NoticesOnly s (tellGroup old g s) := by
  unfold tellGroup
  split
  · exact uplEvent_notices ..
  · split
    · exact uplEvent_notices ..
    · rfl

theorem sentBy_same {s t : State} (h : t.strm = s.strm) (p : Nat) : t.sentBy p = s.sentBy p := by unfold State.sentBy; rw [h]

/-- `t` is `s` after port p has left UP, as `x` says; its fault event is detected. -/
structure PortLeft (p : Nat) (x : Port) (s t : State) : Prop where
  keeps : Keeps [.hcp, .upl, .strm, .flt] s t
  flt : t.flt = { s.flt with detected := s.flt.detected ++ [⟨12, 0, p, none⟩] }
  chip : t.chip = s.chip
  port : t.port p = x
  others : ∀ k, k ≠ p → t.port k = s.port k
  aborted : ∀ f, (s.port p).sending = some f → .uplinkFrame p (corruptFcs f.frame) true ∈ t.emitted
  claims : ∀ n ∈ s.sentBy p, ∀ c ∈ (t.stream n).queue, c.leftIn (groupOf p) = 0
  streams : ∀ n, n ∉ s.sentBy p → t.stream n = s.stream n

theorem portLeave_left (p cause : Nat) (after : PortState) (s : State) : PortLeft p { (s.port p).cut with
      state := after, downs := (s.port p).downs + 1, changed := s.now, goodTick := s.tick } s (portLeave p cause after s) := by
  obtain ⟨ha, hp, ho, he⟩ := abortFrame_only p s
  generalize hu : (abortFrame p s).setPort p { (abortFrame p s).port p with
    state := after, downs := ((abortFrame p s).port p).downs + 1, changed := (abortFrame p s).now
    goodTick := (abortFrame p s).tick } = u
  have hau : PortsOnly (abortFrame p s) u := by rw [← hu]; exact .setPort ..
  have hsu := ha.trans hau
  have hsent : u.sentBy p = s.sentBy p := sentBy_same hsu.strm p
  obtain ⟨hc, hout, hin⟩ := forEach_clearClaims (groupOf p) (s.sentBy p) u
  generalize hv : forEach (s.sentBy p) (fun n t => clearClaims n (groupOf p) t) u = v at hc hout hin
  have hev : NoticesOnly v (tellGroup s (groupOf p) (uplEvent 0 p (groupOf p) cause v)) :=
    (uplEvent_notices ..).trans (tellGroup_notices ..)
  generalize hw : tellGroup s (groupOf p) (uplEvent 0 p (groupOf p) cause v) = w at hev
  have hut : StreamsOnly u w := hc.trans (.of_notices hev)
  have hwv : w.strm = v.strm := by rw [hev]
  have hstream : ∀ n, w.stream n = v.stream n := fun n => by unfold State.stream; rw [hwv]
  have heq : portLeave p cause after s = raise 12 0 p w := by
    unfold portLeave
    dsimp only
    rw [hu, hsent, hv, hw]
  have hk : Keeps [.hcp, .upl, .strm, .flt] s w :=
    (hsu.keeps.weaken (by simp)).trans (hut.keeps.weaken (by simp))
  have hport : ∀ k, w.port k = u.port k := fun k => port_of_upl hut.upl k
  have hnow : (abortFrame p s).now = s.now := by unfold State.now; rw [ha.only]
  have htick : (abortFrame p s).tick = s.tick := by rw [ha.only]
  rw [heq]
  refine {
    keeps := hk.trans .of_parts
    flt := ?_, chip := ?_, port := ?_, others := fun k hk => ?_, aborted := fun f hf => ?_
    claims := fun n hn => ?_, streams := fun n hn => ?_ }
  · show ({ w.flt with detected := w.flt.detected ++ [⟨12, 0, p, none⟩] } : Flt) = _
    rw [hut.flt, hsu.flt]
  · exact hk .chip (by simp)
  · refine (hport p).trans ?_
    rw [← hu, port_setPort_self, hnow, htick, hp]
    rfl
  · refine (hport k).trans ?_
    rw [← hu, port_setPort_ne _ _ hk, ho k hk]
  · show _ ∈ w.emitted
    rw [hut.emitted]
    exact hau.sends _ (he f hf)
  · show ∀ c ∈ (w.stream n).queue, _
    rw [hstream n]
    exact hin n (.inl hn)
  · exact (hstream n).trans ((hout n hn).trans (hsu.stream n))

end Sys2Proof.Machine
end

