-- ==== Sys2Proof/Proofs/Ports.lean ====
section
/-! SUPPORT. Uplink groups and ports (13_uplinks). -/

namespace Sys2Proof.Machine

set_option Elab.async false

/-! ## The ports of a group -/

/-- Six quads form at most 24 ports. -/
theorem length_formedPorts (s : State) (quads : List Nat) : (formedPorts s quads).length ≤ 4 * quads.length := by
  have hnodup : (below 40 fun q => quads.contains q).Nodup := List.nodup_range.filter _
  have hsub : below 40 (fun q => quads.contains q) ⊆ quads := fun q hq => by
    have h := (List.mem_filter.mp hq).2
    rwa [List.contains_iff_mem] at h
  have hlen : (below 40 fun q => quads.contains q).length ≤ quads.length := (hnodup.subperm hsub).length_le
  have hsum : ∀ l : List Nat, (l.flatMap fun q => if s.quadWide q then [(4 * q, 5)]
      else ((List.range 4).map fun i => (4 * q + i, (s.lane (4 * q + i)).protocol)).filter fun x => x.2 == 3 || x.2 == 4).length
        ≤ 4 * l.length := by
    intro l
    induction l with
    | nil => exact Nat.le_refl 0
    | cons q l ih =>
      rw [List.flatMap_cons, List.length_append, List.length_cons]
      have h4 : (if s.quadWide q then [(4 * q, 5)]
          else ((List.range 4).map fun i => (4 * q + i, (s.lane (4 * q + i)).protocol)).filter
            fun x => x.2 == 3 || x.2 == 4).length ≤ 4 := by
        split
        · exact (by decide : 1 ≤ 4)
        · refine (List.length_filter_le _ _).trans ?_
          rw [List.length_map, List.length_range]
      omega
  exact (hsum _).trans (Nat.mul_le_mul_left 4 hlen)

/-- A port is unformed: its remote fault sequences end. -/
def unform (p : Nat) (s : State) : State := (sendRemote p false s).setPort p {}

theorem unform_only (p : Nat) (s : State) : PortsOnly s (unform p s) ∧ (unform p s).port p = {} ∧
    ∀ k, k ≠ p → (unform p s).port k = s.port k := by
  obtain ⟨h, -, ho⟩ := sendRemote_only p false s
  exact ⟨h.trans (.setPort ..), port_setPort_self .., fun k hk => (port_setPort_ne _ _ hk).trans (ho k hk)⟩

theorem unform_range (b : Nat) (s : State) : ∀ n, PortsOnly s (forEach (List.range n) (fun p u => unform (b + p) u) s) ∧
    ∀ k, (forEach (List.range n) (fun p u => unform (b + p) u) s).port k = if b ≤ k ∧ k < b + n then {} else s.port k := by
  intro n
  induction n with
  | zero => exact ⟨.refl s, fun k => (if_neg (by omega)).symm⟩
  | succ n ih =>
    obtain ⟨hs, hp⟩ := ih
    rw [forEach_range_succ]
    obtain ⟨hu, hself, hother⟩ := unform_only (b + n) (forEach (List.range n) (fun p u => unform (b + p) u) s)
    refine ⟨hs.trans hu, fun k => ?_⟩
    by_cases hk : k = b + n
    · subst hk
      rw [hself, if_pos (by omega)]
    · rw [hother k hk, hp k]
      by_cases hin : b ≤ k ∧ k < b + n
      · rw [if_pos hin, if_pos (by omega)]
      · rw [if_neg hin, if_neg (by omega)]

/-- The ports of a list take their numbers in its order. -/
theorem form_ports {α : Type} (b : Nat) (f : α → Port) (d : α) (l : List α) : ∀ (o : Nat) (s : State),
    PortsOnly s (forEach (l.zipIdx o) (fun x u => u.setPort (b + x.2) (f x.1)) s) ∧
    ∀ k, (forEach (l.zipIdx o) (fun x u => u.setPort (b + x.2) (f x.1)) s).port k =
      if b + o ≤ k ∧ k < b + o + l.length then f (l.getD (k - (b + o)) d) else s.port k := by
  induction l with
  | nil => exact fun o s => ⟨.refl s, fun k => (if_neg (by simp)).symm⟩
  | cons x l ih =>
    intro o s
    obtain ⟨hs, hp⟩ := ih (o + 1) (s.setPort (b + o) (f x))
    have he : forEach ((x :: l).zipIdx o) (fun x u => u.setPort (b + x.2) (f x.1)) s =
      forEach (l.zipIdx (o + 1)) (fun x u => u.setPort (b + x.2) (f x.1)) (s.setPort (b + o) (f x)) := rfl
    rw [he]
    refine ⟨(PortsOnly.setPort ..).trans hs, fun k => (hp k).trans ?_⟩
    rw [List.length_cons]
    by_cases hk : k = b + o
    · subst hk
      rw [if_neg (by omega), if_pos (by omega), Nat.sub_self, port_setPort_self]
      rfl
    · rw [port_setPort_ne _ _ hk]
      by_cases hin : b + (o + 1) ≤ k ∧ k < b + (o + 1) + l.length
      · rw [if_pos hin, if_pos (by omega), show k - (b + o) = (k - (b + (o + 1))) + 1 by omega]
        rfl
      · rw [if_neg hin, if_neg (by omega)]

/-- A deviation beyond 100 ppm is pulled in to them, on its own side. -/
theorem clampI_beyond {d : Int} (h : 109951162 < d.natAbs) :
    clampI (-109951162) 109951162 (clampI (-ppm500) ppm500 d) = 109951162 * d.sign ∧
      109951162 * d.sign ≠ clampI (-ppm500) ppm500 d := by
  have hs : d.sign = 1 ∧ 109951162 < d ∨ d.sign = -1 ∧ d < -109951162 := by
    rcases Int.lt_trichotomy d 0 with hd | hd | hd
    · exact .inr ⟨Int.sign_eq_neg_one_of_neg hd, by omega⟩
    · omega
    · exact .inl ⟨Int.sign_eq_one_of_pos hd, by omega⟩
  unfold clampI ppm500
  rcases hs with ⟨hs, hd⟩ | ⟨hs, hd⟩
  · rw [hs]
    constructor <;> split_ifs <;> omega
  · rw [hs]
    constructor <;> split_ifs <;> omega

/-- Where a lane is time-locked, a target beyond 100 ppm is pulled in to them (R114). -/
theorem holdRate_beyond {s : State} (hl : s.anyTimeLocked = true)
    (hd : 109951162 < ((s.time.rateTarget.toNat : Int) - 2 ^ 40).natAbs) : holdRate s = { s with
      time := { s.time with
        rateTarget := BitVec.ofNat 48 (2 ^ 40 + 109951162 * ((s.time.rateTarget.toNat : Int) - 2 ^ 40).sign).toNat, slewTicks := 0 }
      xfer := { s.xfer with clamped := true } } := by
  obtain ⟨hc, hne⟩ := clampI_beyond hd
  have hsign : ((s.time.rateTarget.toNat : Int) - 2 ^ 40).sign = 1 ∨ ((s.time.rateTarget.toNat : Int) - 2 ^ 40).sign = -1 := by
    rcases Int.lt_trichotomy ((s.time.rateTarget.toNat : Int) - 2 ^ 40) 0 with h | h | h
    · exact .inr (Int.sign_eq_neg_one_of_neg h)
    · rw [h] at hd; exact absurd hd (by decide)
    · exact .inl (Int.sign_eq_one_of_pos h)
  unfold holdRate
  dsimp only
  rw [if_pos ⟨hd, hl⟩]
  unfold steerRate
  simp only [hl, if_true, hc, decide_eq_true hne]
  refine writeRate_within ?_ ?_
  · rcases hsign with h | h <;> rw [h] <;> decide
  · rcases hsign with h | h <;> rw [h] <;> decide

theorem pulledIn_holdRate {s x t : State} (hx : x.time = s.time) (hxf : x.xfer = s.xfer)
    (ht : t.time = { (holdRate x).time with sec := s.time.sec, ns := s.time.ns, frac40 := s.time.frac40 })
    (htx : t.xfer = (holdRate x).xfer) (hl : t.anyTimeLocked = x.anyTimeLocked) : s.PulledIn t := by
  unfold State.PulledIn
  dsimp only
  by_cases h : 109951162 < ((s.time.rateTarget.toNat : Int) - 2 ^ 40).natAbs ∧ t.anyTimeLocked = true
  · rw [if_pos h]
    have hh := holdRate_beyond (hl.symm.trans h.2) (by rw [hx]; exact h.1)
    rw [hh, hx] at ht
    rw [hh, hxf] at htx
    exact ⟨ht, htx⟩
  · rw [if_neg h]
    have hh : holdRate x = x := holdRate_leaves (by
      rw [hx]
      by_cases hb : x.anyTimeLocked = true
      · exact .inr (Nat.le_of_not_lt fun hc => h ⟨hc, hl.trans hb⟩)
      · exact .inl (Bool.eq_false_iff.mpr hb))
    rw [hh] at ht htx
    exact ⟨ht.trans (by rw [hx]), htx.trans hxf⟩

/-- A port that has just been formed of its first lane and protocol. -/
def Port.formed (now : T16) (tick : Nat) (x : Nat × Nat) : Port :=
  { state := .down, protocol := x.2, firstLane := x.1, changed := now, goodTick := tick }

/-- The ports of a group are formed anew, before the target rate word is judged. -/
def formGroup (g : Nat) (quads : List Nat) (s : State) : State :=
  let t := forEach (List.range 24) (fun p u => unform (24 * g + p) u) s
  let t := forEach (formedPorts s quads).zipIdx (fun x u => u.setPort (24 * g + x.2) (.formed s.now s.tick x.1)) t
  { t with upl := if g = 0 then { t.upl with quadsA := quads } else { t.upl with quadsB := quads } }

theorem groupConfig_effect (r : Req) (s : State) : opUplGroupConfig.effect r s =
    (tellGroup s (r.u8 0) (holdRate (formGroup (r.u8 0) ((List.range (r.u8 1)).map fun i => r.u8 (4 + i)) s)),
      ansDone (le 1 (formedPorts s ((List.range (r.u8 1)).map fun i => r.u8 (4 + i))).length ++ zeros 3)) := rfl

theorem formGroup_ports {g : Nat} {quads : List Nat} {s : State} (hlen : (formedPorts s quads).length ≤ 24) :
    (∀ i < 24, (formGroup g quads s).port (24 * g + i) = if i < (formedPorts s quads).length then
      { state := .down, protocol := ((formedPorts s quads).getD i (0, 0)).2, firstLane := ((formedPorts s quads).getD i (0, 0)).1
        changed := s.now, goodTick := s.tick } else {}) ∧
    (∀ p, p < 24 * g ∨ 24 * g + 24 ≤ p → (formGroup g quads s).port p = s.port p) := by
  obtain ⟨-, hun⟩ := unform_range (24 * g) s 24
  obtain ⟨-, hform⟩ := form_ports (24 * g) (Port.formed s.now s.tick) (0, 0) (formedPorts s quads) 0
    (forEach (List.range 24) (fun p u => unform (24 * g + p) u) s)
  have hport : ∀ k, (formGroup g quads s).port k = (forEach (formedPorts s quads).zipIdx (fun x u => u.setPort (24 * g + x.2) (.formed s.now s.tick x.1))
      (forEach (List.range 24) (fun p u => unform (24 * g + p) u) s)).port k := by
    intro k
    unfold formGroup State.port
    dsimp only
    split <;> rfl
  refine ⟨fun i hi => ?_, fun p hp => ?_⟩
  · rw [hport, hform, hun]
    by_cases hin : i < (formedPorts s quads).length
    · rw [if_pos (by omega), if_pos hin, show 24 * g + i - (24 * g + 0) = i by omega]
      rfl
    · rw [if_neg (by omega), if_pos (by omega), if_neg hin]
  · rw [hport, hform, hun, if_neg (by omega), if_neg (by omega)]

/-- Of the uplinks, forming a group changes its ports and its quads. -/
theorem formGroup_only (g : Nat) (quads : List Nat) (s : State) : ∃ ps e, formGroup g quads s = { s with
    upl := (if g = 0 then { s.upl with ports := ps, quadsA := quads } else { s.upl with ports := ps, quadsB := quads }), emitted := e } := by
  have h := (unform_range (24 * g) s 24).1.trans (form_ports (24 * g) (Port.formed s.now s.tick) (0, 0) (formedPorts s quads) 0
    (forEach (List.range 24) (fun p u => unform (24 * g + p) u) s)).1
  unfold formGroup
  dsimp only
  generalize forEach (formedPorts s quads).zipIdx _ _ = u at h
  obtain ⟨ps, e, rfl⟩ : ∃ ps e, u = { s with upl := { s.upl with ports := ps }, emitted := e } := ⟨_, _, h.only⟩
  refine ⟨ps, e, ?_⟩
  split <;> rfl

theorem groupConfig_gives {s : State} {r : Req} (h : Accepted opUplGroupConfig r s) :
    Gives (.uplGroupConfig r) s [.hcp, .upl, .time, .xfer] fun t =>
      let g := r.u8 0
      let quads := (List.range (r.u8 1)).map fun i => r.u8 (4 + i)
      let ports := formedPorts s quads
      (if g = 0 then t.upl.quadsA = quads ∧ t.upl.quadsB = s.upl.quadsB
        else t.upl.quadsB = quads ∧ t.upl.quadsA = s.upl.quadsA) ∧
      (∀ i < 24, t.port (24 * g + i) = if i < ports.length then
        { state := .down, protocol := (ports.getD i (0, 0)).2, firstLane := (ports.getD i (0, 0)).1
          changed := s.now, goodTick := s.tick } else {}) ∧
      (∀ p, p < 24 * g ∨ 24 * g + 24 ≤ p → t.port p = s.port p) ∧ s.PulledIn t ∧
      t.upl.dests = s.upl.dests ∧ t.upl.announce = s.upl.announce ∧
      Answered 0x0A01 r 0 0 (le 1 ports.length ++ zeros 3) t := by
  have hn : r.u8 1 ≤ 6 := of_decide_eq_true (h.field (c := fieldLe 1 (r.u8 1) 6) (by simp [opUplGroupConfig]))
  generalize hg : r.u8 0 = g
  generalize hq : ((List.range (r.u8 1)).map fun i => r.u8 (4 + i)) = quads
  have hlen : (formedPorts s quads).length ≤ 24 := by
    refine (length_formedPorts s quads).trans ?_
    rw [← hq, List.length_map, List.length_range]
    omega
  have hsame : formedPorts (s.judged opUplGroupConfig r) quads = formedPorts s quads := rfl
  have heff := groupConfig_effect r (s.judged opUplGroupConfig r)
  rw [hg, hq, hsame] at heff
  obtain ⟨hin, hout⟩ := formGroup_ports (g := g) (s := s.judged opUplGroupConfig r) (quads := quads) hlen
  obtain ⟨ps, e, hf⟩ := formGroup_only g quads (s.judged opUplGroupConfig r)
  generalize hx : formGroup g quads (s.judged opUplGroupConfig r) = x at heff hin hout hf
  obtain ⟨w, k, c, hh, -⟩ := holdRate_only x
  have hu : (holdRate x).upl = x.upl := by rw [hh]
  have htell := tellGroup_notices (s.judged opUplGroupConfig r) g (holdRate x)
  generalize tellGroup (s.judged opUplGroupConfig r) g (holdRate x) = y at heff htell
  have hyt : y.time = (holdRate x).time := by rw [htell]
  have hyx : y.xfer = (holdRate x).xfer := by rw [htell]
  have hyu : y.upl = x.upl := by rw [htell]; exact hu
  have hyf : y.flt = s.flt := by rw [htell, hh, hf]
  have hk : Keeps [.hcp, .upl, .time, .xfer] (s.judged opUplGroupConfig r) y := by
    rw [htell, hh, hf]
    exact .of_parts
  refine gives_of_op rfl h heff hk (hq := (congrArg Flt.detected hyf).trans h.acted) fun t F A => ⟨?_, fun i hi => ?_, fun p hp => ?_, ?_, ?_, ?_, A⟩
  · rw [F.upl, hyu, hf]
    dsimp only
    split <;> exact ⟨rfl, rfl⟩
  · exact (port_of_upl (F.upl.trans hyu) _).trans (hin i hi)
  · exact (port_of_upl (F.upl.trans hyu) _).trans (hout p hp)
  · refine pulledIn_holdRate (x := x) (by rw [hf]) (by rw [hf]) (F.time.trans (by rw [hyt])) (F.xfer.trans hyx) ?_
    refine anyTimeLocked_same (F.lanes.trans ?_) (F.bgls.trans ?_) (F.upl.trans hyu) ?_
    · rw [htell, hh]
    · rw [htell, hh]
    · rw [F.xfer, hyx, hh]
  · rw [F.upl, hyu, hf]
    dsimp only
    split <;> rfl
  · rw [F.upl, hyu, hf]
    dsimp only
    split <;> rfl

/-! ## Enabling, disabling and losing a port -/

theorem portControl_on {r : Req} (s : State) (h : r.u8 1 = 0) : opUplPortControl.effect r s =
    (if (s.port (r.u8 0)).state = .disabled then s.setPort (r.u8 0) { s.port (r.u8 0) with
      state := .down, changed := s.now, goodTick := s.tick } else s, ansDone []) := if_pos h

theorem portControl_leave {r : Req} {s : State} (h : r.u8 1 = 1) (hu : (s.port (r.u8 0)).state = .up) :
    opUplPortControl.effect r s = (portLeave (r.u8 0) 3 .disabled s, ansDone []) := by
  refine (if_neg (by omega)).trans (if_pos hu)

theorem portControl_off {r : Req} {s : State} (h : r.u8 1 = 1) (hu : (s.port (r.u8 0)).state = .down) :
    opUplPortControl.effect r s = (sendRemote (r.u8 0) false (s.setPort (r.u8 0) { s.port (r.u8 0) with
      state := .disabled, changed := s.now }), ansDone []) := by
  refine (if_neg (by omega)).trans ((if_neg (by rw [hu]; decide)).trans (if_pos hu))

theorem portControl_none {r : Req} {s : State} (h : r.u8 1 = 1) (hu : (s.port (r.u8 0)).state ≠ .up)
    (hd : (s.port (r.u8 0)).state ≠ .down) : opUplPortControl.effect r s = (s, ansDone []) :=
  (if_neg (by omega)).trans ((if_neg hu).trans (if_neg hd))

theorem portEnable_gives {s : State} {r : Req} (h : Accepted opUplPortControl r s) (h0 : r.u8 1 = 0) :
    Gives (.uplPortEnable r) s [.hcp, .upl] fun t =>
      t.upl = (if (s.port (r.u8 0)).state = .disabled then
        { s.upl with ports := tset {} s.upl.ports (r.u8 0) { s.port (r.u8 0) with
          state := .down, changed := s.now, goodTick := s.tick } } else s.upl) ∧ Answered 0x0A05 r 0 0 [] t := by
  by_cases hd : (s.port (r.u8 0)).state = .disabled
  · rw [if_pos hd]
    exact gives_of_op rfl h ((portControl_on (s.judged opUplPortControl r) h0).trans (by rw [if_pos]; rfl; exact hd))
      ((setPort_keeps _ _ _).weaken (by simp)) fun t F A => ⟨F.upl, A⟩
  · rw [if_neg hd]
    exact gives_of_op rfl h ((portControl_on (s.judged opUplPortControl r) h0).trans (by rw [if_neg]; rfl; exact hd))
      (.refl _ _) fun t F A => ⟨F.upl, A⟩

theorem portDisable_gives {s : State} {r : Req} (h : Accepted opUplPortControl r s) (h1 : r.u8 1 = 1)
    (hu : (s.port (r.u8 0)).state ≠ .up) :
    Gives (.uplPortDisable r) s [.hcp, .upl] fun t =>
      t.port (r.u8 0) = (if (s.port (r.u8 0)).state = .down then { s.port (r.u8 0) with
        state := .disabled, changed := s.now, remoteTx := false } else s.port (r.u8 0)) ∧
      (∀ p, p ≠ r.u8 0 → t.port p = s.port p) ∧ Answered 0x0A05 r 0 0 [] t := by
  by_cases hd : (s.port (r.u8 0)).state = .down
  · obtain ⟨hs, hp, ho⟩ := sendRemote_only (r.u8 0) false ((s.judged opUplPortControl r).setPort (r.u8 0) { s.port (r.u8 0) with
      state := .disabled, changed := s.now })
    have hk := (PortsOnly.setPort (r.u8 0) { s.port (r.u8 0) with state := .disabled, changed := s.now }
      (s.judged opUplPortControl r)).trans hs
    refine gives_of_op rfl h (portControl_off h1 hd) (hk.keeps.weaken (by simp))
      (hq := (congrArg Flt.detected hk.flt).trans h.acted) fun t F A => ⟨?_, fun p hp => ?_, A⟩
    · rw [if_pos hd, port_of_upl F.upl]
      exact hp.trans (by rw [port_setPort_self]; rfl)
    · exact (port_of_upl F.upl p).trans ((ho p hp).trans (port_setPort_ne _ _ hp))
  · refine gives_of_op rfl h (portControl_none h1 hu hd) (.refl _ _) fun t F A => ⟨?_, fun p _ => port_of_upl F.upl p, A⟩
    rw [if_neg hd]
    exact port_of_upl F.upl _

theorem portFault_calm {s : State} {p : Nat} (h : s.flt.detected = []) :
    ∀ d ∈ s.flt.detected ++ [(⟨12, 0, p, none⟩ : Detected)], d.Calm := by
  rw [h]
  intro d hd
  rw [List.mem_singleton.mp hd]
  exact ⟨(by decide : 12 < 17), (by decide : 0 < 64), fun h => absurd h.1 (by decide : 12 ≠ 3)⟩

theorem portDisable_up_gives {s : State} {r : Req} (h : Accepted opUplPortControl r s) (h1 : r.u8 1 = 1)
    (hu : (s.port (r.u8 0)).state = .up) (hN : s.NoResets) :
    Gives (.uplPortDisable r) s [.hcp, .upl, .strm, .flt] fun t =>
      let p := r.u8 0
      let x := s.port p
      t.port p = { x with
        state := .disabled, sending := none, aborted := if x.sending.isSome then x.aborted + 1 else x.aborted
        downs := x.downs + 1, changed := s.now, goodTick := s.tick } ∧
      (∀ f, x.sending = some f → .uplinkFrame p (corruptFcs f.frame) true ∈ t.emitted) ∧
      (∀ n ∈ s.sentBy p, ∀ c ∈ (t.stream n).queue, (if groupOf p = 0 then c.leftA else c.leftB) = 0) ∧
      (∀ k, k ≠ p → t.port k = s.port k) ∧ (∀ n, n ∉ s.sentBy p → t.stream n = s.stream n) ∧ Answered 0x0A05 r 0 0 [] t := by
  have L := portLeave_left (r.u8 0) 3 .disabled (s.judged opUplPortControl r)
  have hd : (portLeave (r.u8 0) 3 .disabled (s.judged opUplPortControl r)).flt.detected = s.flt.detected ++ [⟨12, 0, r.u8 0, none⟩] := by
    rw [L.flt]
  refine gives_of_op_calm rfl h (portControl_leave h1 hu) (noResets_of_blocks (by rw [L.flt]) hN) (by rw [hd]; exact portFault_calm h.acted)
    (L.keeps.weaken (by simp)) fun t F A => ⟨?_, fun f hf => ?_, fun n hn => ?_, fun k hk => ?_, fun n hn => ?_, A⟩
  · exact (port_of_upl F.upl _).trans L.port
  · exact F.emitted _ (L.aborted f hf)
  · have hs : t.stream n = (portLeave (r.u8 0) 3 .disabled (s.judged opUplPortControl r)).stream n := by unfold State.stream; rw [F.strm]
    rw [hs]
    exact L.claims n hn
  · exact (port_of_upl F.upl _).trans (L.others k hk)
  · have hs : t.stream n = (portLeave (r.u8 0) 3 .disabled (s.judged opUplPortControl r)).stream n := by unfold State.stream; rw [F.strm]
    exact hs.trans (L.streams n hn)

/-- A fault sequence or a loss of lock is noted in the port (R361). -/
def Port.marked (x : Port) (cause : PortCause) (tick : Nat) : Port := { x with
  goodTick := tick, localFault := x.localFault || cause == .localFault, remoteFault := x.remoteFault || cause == .remoteFault }

theorem portDown_effect {p : Nat} {cause : PortCause} {s : State} (h : (s.port p).state ≠ .unconfigured) :
    ∃ c, effectOf (portDown p cause) s = (if cause = .localFault ∧ (s.port p).state ≠ .disabled then
        sendRemote p true (portDropped p c (({ s with emitted := [] } : State).setPort p ((s.port p).marked cause s.tick)))
      else portDropped p c (({ s with emitted := [] } : State).setPort p ((s.port p).marked cause s.tick))) := ⟨_, if_neg h⟩

theorem portDown_idle {p : Nat} {cause : PortCause} {s : State} (h : (s.port p).state = .unconfigured) : portDown p cause s = s :=
  if_pos h

theorem portDown_up_gives {s : State} {p : Fin 48} {cause : PortCause} (hInv : s.Inv) (hu : (s.port p).state = .up) (hN : s.NoResets) :
    Gives (.portDown p cause) s [.hcp, .upl, .strm, .flt] fun t =>
      let x := s.port p
      t.port p = { x with
        state := .down, localFault := x.localFault || cause == .localFault, remoteFault := x.remoteFault || cause == .remoteFault
        sending := none, aborted := if x.sending.isSome then x.aborted + 1 else x.aborted
        downs := x.downs + 1, changed := s.now, goodTick := s.tick
        remoteTx := if cause = .localFault then decide (s.chip.phase ≠ .safe) else x.remoteTx } ∧
      (∀ f, x.sending = some f → .uplinkFrame p (corruptFcs f.frame) true ∈ t.emitted) ∧
      (∀ n ∈ s.sentBy p, ∀ c ∈ (t.stream n).queue, (if groupOf p = 0 then c.leftA else c.leftB) = 0) ∧
      (∀ k, k ≠ p.val → t.port k = s.port k) ∧ (∀ n, n ∉ s.sentBy p → t.stream n = s.stream n) := by
  obtain ⟨c, heq⟩ := portDown_effect (p := p.val) (cause := cause) (s := s) (by rw [hu]; decide)
  generalize hm : ({ s with emitted := [] } : State).setPort p ((s.port p).marked cause s.tick) = m at heq
  have hmp : m.port p = (s.port p).marked cause s.tick := by rw [← hm]; exact port_setPort_self ..
  have hmo : ∀ k, k ≠ p.val → m.port k = s.port k := fun k hk => by rw [← hm]; exact port_setPort_ne _ _ hk
  have hmf : m.flt = s.flt := by rw [← hm]; rfl
  have L := portLeave_left p c .down m
  have hdrop : portDropped p c m = portLeave p c .down m := if_pos (by rw [hmp]; exact hu)
  generalize hw : portLeave p c .down m = w at L hdrop
  obtain ⟨hs, hself, ho⟩ := sendRemote_only p.val true w
  have hphase : w.chip = s.chip := by rw [L.chip, ← hm]; rfl
  generalize hx : effectOf (portDown p cause) s = x
  have hex : x = if cause = .localFault then sendRemote p true w else w := by
    rw [← hx]
    refine heq.trans ?_
    rw [hdrop]
    by_cases hc : cause = .localFault
    · rw [if_pos hc, if_pos ⟨hc, by rw [hu]; decide⟩]
    · rw [if_neg hc, if_neg fun h => hc h.1]
  have hwx : PortsOnly w x := by rw [hex]; split; exact hs; exact .refl w
  have hxp : x.port p = { w.port p with remoteTx := if cause = .localFault then decide (s.chip.phase ≠ .safe) else (w.port p).remoteTx } := by
    rw [hex]
    split
    · rw [hself, hphase, Bool.true_and]
    · rfl
  have hxo : ∀ k, k ≠ p.val → x.port k = w.port k := fun k hk => by rw [hex]; split; exact ho k hk; rfl
  have hxf : x.flt = { s.flt with detected := s.flt.detected ++ [⟨12, 0, p.val, none⟩] } := by rw [hwx.flt, L.flt, hmf]
  have hk : Keeps [.hcp, .upl, .strm, .flt] s x := by
    have h0 : Keeps [.hcp, .upl, .strm, .flt] s m := by rw [← hm]; exact .of_parts
    exact h0.trans (L.keeps.trans (hwx.keeps.weaken (by simp)))
  have hsent : m.sentBy p = s.sentBy p := by rw [← hm]; rfl
  refine gives_of_calm rfl hx (noResets_of_blocks (by rw [hxf]) hN) (by rw [hxf]; exact portFault_calm hInv.acted) hk
    fun t F _ _ _ => ⟨?_, fun f hf => ?_, fun n hn => ?_, fun k hk => ?_, fun n hn => ?_⟩
  · refine (port_of_upl F.upl _).trans (hxp.trans ?_)
    rw [L.port, hmp, ← hm]
    rfl
  · exact F.emitted _ (hwx.sends _ (L.aborted f (by rw [hmp]; exact hf)))
  · have hst : t.stream n = w.stream n := by unfold State.stream; rw [F.strm, hwx.strm]
    rw [hst]
    exact L.claims n (by rw [hsent]; exact hn)
  · exact (port_of_upl F.upl _).trans ((hxo k hk).trans ((L.others k hk).trans (hmo k hk)))
  · have hst : t.stream n = w.stream n := by unfold State.stream; rw [F.strm, hwx.strm]
    rw [hst, L.streams n (by rw [hsent]; exact hn), ← hm]
    rfl

theorem portDown_gives {s : State} {p : Fin 48} {cause : PortCause} (hInv : s.Inv) (hu : (s.port p).state ≠ .up) :
    Gives (.portDown p cause) s [.upl] fun t =>
      let x := s.port p
      t.port p = (if x.state = .unconfigured then x else { x with
        localFault := x.localFault || cause == .localFault, remoteFault := x.remoteFault || cause == .remoteFault
        goodTick := s.tick
        remoteTx := if cause = .localFault ∧ x.state ≠ .disabled then decide (s.chip.phase ≠ .safe) else x.remoteTx }) ∧
      (∀ k, k ≠ p.val → t.port k = s.port k) := by
  dsimp only
  by_cases hc : (s.port p).state = .unconfigured
  · rw [if_pos hc]
    exact gives_nothing rfl (portDown_idle (s := { s with emitted := [] }) hc) hInv.acted fun t F =>
      ⟨port_of_upl F.upl _, fun k _ => port_of_upl F.upl k⟩
  rw [if_neg hc]
  obtain ⟨c, heq⟩ := portDown_effect (p := p.val) (cause := cause) (s := s) hc
  generalize hm : ({ s with emitted := [] } : State).setPort p ((s.port p).marked cause s.tick) = m at heq
  have hmp : m.port p = (s.port p).marked cause s.tick := by rw [← hm]; exact port_setPort_self ..
  have hmo : ∀ k, k ≠ p.val → m.port k = s.port k := fun k hk => by rw [← hm]; exact port_setPort_ne _ _ hk
  have hdrop : portDropped p c m = m := if_neg (by rw [hmp]; exact hu)
  have hms : PortsOnly { s with emitted := [] } m := by rw [← hm]; exact .setPort ..
  rw [hdrop] at heq
  obtain ⟨hs, hself, ho⟩ := sendRemote_only p.val true m
  generalize hb : (decide (cause = .localFault ∧ (s.port p).state ≠ .disabled)) = b
  have hex : ∀ x, effectOf (portDown p cause) s = x → x = if cause = .localFault ∧ (s.port p).state ≠ .disabled then sendRemote p true m else m :=
    fun x hx => hx.symm.trans heq
  generalize hx : effectOf (portDown p cause) s = x
  have hex := hex x hx
  have hmx : PortsOnly m x := by rw [hex]; split; exact hs; exact .refl m
  have hxp : x.port p = { m.port p with
      remoteTx := if cause = .localFault ∧ (s.port p).state ≠ .disabled then decide (s.chip.phase ≠ .safe) else (m.port p).remoteTx } := by
    rw [hex]
    split
    · rw [hself, Bool.true_and, ← hm]; rfl
    · rfl
  have hxo : ∀ k, k ≠ p.val → x.port k = m.port k := fun k hk => by rw [hex]; split; exact ho k hk; rfl
  have hk : Keeps [.upl] s x := Keeps.trans (t := { s with emitted := [] }) .of_parts (hms.trans hmx).keeps
  refine gives_of_effect rfl hx ((congrArg Flt.detected (hms.trans hmx).flt).trans hInv.acted) hk
    fun t F => ⟨?_, fun k hk => (port_of_upl F.upl k).trans ((hxo k hk).trans (hmo k hk))⟩
  refine (port_of_upl F.upl _).trans (hxp.trans ?_)
  rw [hmp]
  rfl

theorem portUp_gives {s : State} {p : Fin 48} (hInv : s.Inv) (hd : (s.port p).state = .down)
    (hl : ∀ l ∈ (s.port p).lanes, (s.lane l).aligned = true) (hr : s.portReeq p = false) (hi : s.inReset 12 p = false)
    (hg : (s.port p).goodTick + 1000000 ≤ s.tick) :
    Gives (.portUp p) s [.hcp, .upl] fun t =>
      t.port p = { s.port p with state := .up, changed := s.now, localFault := false, remoteFault := false, remoteTx := false } ∧
      (∀ k, k ≠ p.val → t.port k = s.port k) := by
  have hall : ((s.port p).lanes.all fun l => (s.lane l).aligned) = true := List.all_eq_true.mpr hl
  have hcond : ((s.port p).state == .down && ((s.port p).lanes.all fun l => (s.lane l).aligned) && !s.portReeq p && !s.inReset 12 p
      && decide ((s.port p).goodTick + 1000000 ≤ s.tick)) = true := by
    rw [hd, hall, hr, hi, decide_eq_true hg]
    rfl
  obtain ⟨hs, hself, ho⟩ := sendRemote_only p.val false (({ s with emitted := [] } : State).setPort p { s.port p with
    state := .up, changed := s.now, localFault := false, remoteFault := false })
  have hev : NoticesOnly (sendRemote p false (({ s with emitted := [] } : State).setPort p { s.port p with
      state := .up, changed := s.now, localFault := false, remoteFault := false })) (effectOf (portUp p) s) := by
    have heq : effectOf (portUp p) s = tellGroup { s with emitted := [] } (groupOf p) (uplEvent 1 p (groupOf p) 0xFF
      (sendRemote p false (({ s with emitted := [] } : State).setPort p { s.port p with
        state := .up, changed := s.now, localFault := false, remoteFault := false }))) := if_pos hcond
    rw [heq]
    exact (uplEvent_notices ..).trans (tellGroup_notices ..)
  generalize sendRemote p false (({ s with emitted := [] } : State).setPort p { s.port p with
    state := .up, changed := s.now, localFault := false, remoteFault := false }) = y at hs hself ho hev
  generalize hx : effectOf (portUp p) s = x at hev
  have hsy := (PortsOnly.setPort p { s.port p with state := .up, changed := s.now, localFault := false, remoteFault := false }
    { s with emitted := [] }).trans hs
  have hxu : x.upl = y.upl := by rw [hev]
  have hxf : x.flt = s.flt := by rw [hev]; exact hsy.flt
  have hk : Keeps [.hcp, .upl] s x := by
    have h0 : Keeps [.hcp, .upl] s y := Keeps.trans (t := { s with emitted := [] }) .of_parts (hsy.keeps.weaken (by simp))
    refine h0.trans ?_
    rw [hev]
    exact .of_parts
  refine gives_of_effect rfl hx ((congrArg Flt.detected hxf).trans hInv.acted) hk fun t F => ⟨?_, fun k hk => ?_⟩
  · exact (port_of_upl (F.upl.trans hxu) _).trans (hself.trans (by rw [port_setPort_self]; rfl))
  · exact (port_of_upl (F.upl.trans hxu) _).trans ((ho k hk).trans (port_setPort_ne _ _ hk))

/-! ## Received frames -/

theorem rxKind_pause {x : Port} {f : Bytes} (h : ofBe (sub f 12 2) = 0x8808) : rxKind x f = .control := by
  have he : (etherOf f).1 = 0x8808 := by
    unfold etherOf
    dsimp only
    rw [h, if_neg (by decide)]
  unfold rxKind
  generalize etherOf f = e at he
  obtain ⟨et, body⟩ := e
  exact if_pos he

theorem uplinkFrameRx_bad {n : Nat} {f : Bytes} {s : State} (h : (s.port n).state = .up) :
    uplinkFrameRx n false f s = s.setPort n { s.port n with fcs := (s.port n).fcs + 1 } :=
  (if_neg (fun hc => hc h)).trans (if_pos rfl)

/-- A frame with a good frame check sequence on a port in UP (R366). -/
theorem frameRx_effect {n : Nat} {f : Bytes} {s : State} (h : (s.port n).state = .up) :
    effectOf (uplinkFrameRx n true f) s = match rxKind (s.port n) f with
      | .control => ({ s with emitted := [] } : State).setPort n { s.port n with pause := (s.port n).pause + 1 }
      | .other => ({ s with emitted := [] } : State).setPort n { s.port n with other := (s.port n).other + 1 }
      | .firmware => if s.chip.phase = .serving then toFirmware n f { s with emitted := [] } else { s with emitted := [] }
      | .trigger m => if s.chip.phase = .serving then networkTriggerRx n m { s with emitted := [] } else { s with emitted := [] } :=
  (if_neg (fun hc => hc h)).trans (if_neg (by decide))

theorem frameRx_control {n : Nat} {f : Bytes} {s : State} (h : (s.port n).state = .up) (hk : rxKind (s.port n) f = .control) :
    effectOf (uplinkFrameRx n true f) s =
      ({ s with emitted := [] } : State).setPort n { s.port n with pause := (s.port n).pause + 1 } := by
  rw [frameRx_effect h, hk]

theorem frameRx_other {n : Nat} {f : Bytes} {s : State} (h : (s.port n).state = .up) (hk : rxKind (s.port n) f = .other) :
    effectOf (uplinkFrameRx n true f) s =
      ({ s with emitted := [] } : State).setPort n { s.port n with other := (s.port n).other + 1 } := by
  rw [frameRx_effect h, hk]

theorem toFirmware_only (n : Nat) (f : Bytes) (s : State) (hu : (s.port n).state = .up) (hp : s.chip.phase = .serving) :
    PortsOnly s (toFirmware n f s) ∧ (toFirmware n f s).port n = { s.port n with
      inbox := (f :: (s.port n).inbox).take 16
      control := (s.port n).control ++ ((answerTo (s.port n) f).toList.filter fun a => s.fwRuns && decide (a.length ≤ 232)).map
        fun a => a ++ le 4 (fcs a) } ∧ ∀ k, k ≠ n → (toFirmware n f s).port k = s.port k := by
  unfold toFirmware
  dsimp only
  generalize hm : s.setPort n { s.port n with inbox := (f :: (s.port n).inbox).take 16 } = m
  have hmp : m.port n = { s.port n with inbox := (f :: (s.port n).inbox).take 16 } := by rw [← hm]; exact port_setPort_self ..
  have hmo : ∀ k, k ≠ n → m.port k = s.port k := fun k hk => by rw [← hm]; exact port_setPort_ne _ _ hk
  have hms : PortsOnly s m := by rw [← hm]; exact .setPort ..
  have hrun : m.fwRuns = s.fwRuns := by rw [← hm]; rfl
  have hphase : m.chip.phase = .serving := by rw [← hm]; exact hp
  cases answerTo (s.port n) f with
  | none =>
    refine ⟨hms, hmp.trans ?_, hmo⟩
    simp
  | some a =>
    dsimp only
    by_cases hc : (s.fwRuns && decide (a.length ≤ 232)) = true
    · obtain ⟨hf, hl⟩ := Bool.and_eq_true_iff.mp hc
      have hq : controlFrameTx n a m = m.setPort n { m.port n with control := (m.port n).control ++ [a ++ le 4 (fcs a)] } := by
        have h1 : a.length + wireExtra ≤ 256 := by have := of_decide_eq_true hl; unfold wireExtra; omega
        exact (if_pos (hrun.trans hf)).trans (if_pos ⟨by rw [hmp]; exact hu, hphase, h1⟩)
      rw [hq]
      refine ⟨hms.trans (.setPort ..), (port_setPort_self ..).trans ?_, fun k hk => (port_setPort_ne _ _ hk).trans (hmo k hk)⟩
      rw [hmp]
      simp only [Option.toList_some, List.filter_cons, hc, if_true, List.filter_nil, List.map_cons, List.map_nil]
    · have hq : controlFrameTx n a m = m := by
        by_cases hf : s.fwRuns = true
        · have h1 : ¬ a.length + wireExtra ≤ 256 := by
            intro h
            unfold wireExtra at h
            exact hc (by rw [hf, decide_eq_true (by omega : a.length ≤ 232)]; rfl)
          exact (if_pos (hrun.trans hf)).trans (if_neg fun h => h1 h.2.2)
        · exact if_neg (by rw [hrun]; exact hf)
      rw [hq]
      refine ⟨hms, hmp.trans ?_, hmo⟩
      simp only [Option.toList_some, List.filter_cons, if_neg hc, List.filter_nil, List.map_nil, List.append_nil]

theorem takeHits_keeps (n : Nat) (hits : List Hit) (s : State) : Keeps [.cap] s (takeHits n hits s) := by
  unfold takeHits
  split
  · exact .refl _ s
  · exact .of_parts

theorem networkTriggerRx_keeps (port : Nat) (m : Bytes) (s : State) : Keeps [.cap] s (networkTriggerRx port m s) := by
  unfold networkTriggerRx
  split
  · exact .refl _ s
  · dsimp only
    split
    · exact Keeps.trans (t := { s with cap := _ }) .of_parts (.forEach (fun n u => takeHits_keeps _ _ u) _ _)
    · exact .of_parts

theorem after_of_effect {f g : State → State} {s : State} (h : effectOf f s = effectOf g s) : after f s = after g s := by
  unfold after settled
  rw [h]

theorem frameRx_trigger {s : State} {p : Fin 48} {f m : Bytes} (hInv : s.Inv) (hu : (s.port p).state = .up)
    (hk : rxKind (s.port p) f = .trigger m) (hp : s.chip.phase = .serving) :
    Gives (.uplinkFrameRx p true f) s [.hcp, .cap] fun t =>
      exec (.networkTriggerRx (p.castLE (by decide)) m) s = .next t := by
  have he : effectOf (uplinkFrameRx p true f) s = effectOf (networkTriggerRx p m) s := by
    rw [frameRx_effect hu, hk]
    exact if_pos hp
  have hkeep : Keeps [.hcp, .cap] s (effectOf (networkTriggerRx p m) s) :=
    Keeps.trans (t := { s with emitted := [] }) .of_parts ((networkTriggerRx_keeps _ _ _).weaken (by simp))
  refine ⟨_, rfl, ?_, ?_⟩
  · rw [after_of_effect he]
    exact after_keeps ((congrArg Flt.detected (hkeep .flt (by simp))).trans hInv.acted) hkeep
  · rw [after_of_effect he]
    rfl

theorem frameRx_firmware {s : State} {p : Fin 48} {f : Bytes} (hInv : s.Inv) (hu : (s.port p).state = .up)
    (hk : rxKind (s.port p) f = .firmware) (hp : s.chip.phase = .serving) :
    Gives (.uplinkFrameRx p true f) s [.upl] fun t =>
      let x := s.port p
      t.port p = { x with
        inbox := (f :: x.inbox).take 16
        control := x.control ++ ((answerTo x f).toList.filter fun a => s.fwRuns && decide (a.length ≤ 232)).map
          fun a => a ++ le 4 (fcs a) } ∧
      (∀ k, k ≠ p.val → t.port k = s.port k) := by
  obtain ⟨ho, hself, hother⟩ := toFirmware_only p.val f { s with emitted := [] } hu hp
  have he : effectOf (uplinkFrameRx p true f) s = toFirmware p f { s with emitted := [] } := by
    rw [frameRx_effect hu, hk]
    exact if_pos hp
  generalize toFirmware p f { s with emitted := [] } = x at he ho hself hother
  refine gives_of_effect rfl he ((congrArg Flt.detected ho.flt).trans hInv.acted)
    (Keeps.trans (t := { s with emitted := [] }) .of_parts ho.keeps) fun t F => ⟨?_, fun k hk => ?_⟩
  · exact (port_of_upl F.upl _).trans hself
  · exact (port_of_upl F.upl k).trans (hother k hk)

/-- The counters of a port that UPL_PORT_STATUS clears. -/
def Port.cleared (x : Port) : Port := { x with frames := 0, bytes := 0, aborted := 0, downs := 0, pause := 0, fcs := 0, other := 0 }

theorem portStatus_effect (r : Req) (s : State) : opUplPortStatus.effect r s =
    (if bit (r.u8 1) 0 then s.setPort (r.u8 0) (s.port (r.u8 0)).cleared else s, ⟨0, 0, portStatusPayload s (r.u8 0)⟩) := rfl

theorem used_judged (s : State) (op : Op) (r : Req) (i : Nat) : ∀ g < 2, (s.judged op r).used (5 + g) i = s.used (5 + g) i
  | 0, _ => rfl
  | 1, _ => rfl

theorem portStatusPayload_judged (s : State) (op : Op) (r : Req) {p : Nat} (h : p ≤ 47) :
    portStatusPayload (s.judged op r) p = portStatusPayload s p := by
  have hg : groupOf p < 2 := by unfold groupOf; omega
  have hp : (s.judged op r).port p = s.port p := rfl
  have hr : (s.judged op r).portReeq p = s.portReeq p := rfl
  have hs : (s.judged op r).syncTx p = s.syncTx p := rfl
  have hl : (s.judged op r).placedOn p = s.placedOn p := rfl
  unfold portStatusPayload
  dsimp only
  rw [used_judged s op r _ _ hg, hp, hr, hs, hl]

theorem portStatus_gives {s : State} {r : Req} (h : Accepted opUplPortStatus r s) :
    Gives (.uplPortStatus r) s [.hcp, .upl] fun t =>
      t.upl = (if bit (r.u8 1) 0 then { s.upl with ports := tset {} s.upl.ports (r.u8 0) (s.port (r.u8 0)).cleared } else s.upl) ∧
      Answered 0x0A06 r 0 0 (portStatusPayload s (r.u8 0)) t := by
  have he := portStatus_effect r (s.judged opUplPortStatus r)
  have hp : r.u8 0 ≤ 47 := of_decide_eq_true (h.field (c := fieldLe 0 (r.u8 0) 47) (by simp [opUplPortStatus]))
  rw [portStatusPayload_judged s opUplPortStatus r hp] at he
  by_cases hb : bit (r.u8 1) 0 = true
  · rw [if_pos hb] at he
    refine gives_of_op rfl h he ((setPort_keeps _ _ _).weaken (by simp)) fun t F A => ⟨?_, A⟩
    rw [if_pos hb]
    exact F.upl
  · rw [if_neg hb] at he
    refine gives_of_op rfl h he (.refl _ _) fun t F A => ⟨?_, A⟩
    rw [if_neg hb]
    exact F.upl

/-- Settles O46: a group's ports take their numbers in ascending first lane, a port that leaves UP aborts its frame and clears its
group's claims, and a received frame is counted, kept or taken as a trigger. -/
theorem portsAreFormedAddressedAndComeUpOrDown : Obligations.PortsAreFormedAddressedAndComeUpOrDown := by
  unfold Obligations.PortsAreFormedAddressedAndComeUpOrDown
  refine ⟨fun s r h => groupConfig_gives h, ?_, ?_, ?_, fun s r h h0 => portEnable_gives h h0,
    fun s r h h1 hu => portDisable_gives h h1 hu, fun s r h h1 hu hN => portDisable_up_gives h h1 hu hN, fun s r h => portStatus_gives h,
    fun s p hInv hd hl hr hi hg => portUp_gives hInv hd hl hr hi hg, fun s p c hInv hu hN => portDown_up_gives hInv hu hN,
    fun s p c hInv hu => portDown_gives hInv hu, ?_, ?_, ?_, fun s p f hInv hu hk hp => frameRx_firmware hInv hu hk hp,
    fun s p f m hInv hu hk hp => frameRx_trigger hInv hu hk hp⟩
  · exact fun s r h => gives_of_op rfl h rfl .of_parts fun t F A => ⟨F.upl, A⟩
  · exact fun s r h => gives_of_op rfl h rfl .of_parts fun t F A => ⟨F.upl, A⟩
  · exact fun s r h => gives_of_op rfl h rfl .of_parts fun t F A => ⟨F.strm, A⟩
  · intro s p f hInv hu
    exact gives_of_effect rfl (uplinkFrameRx_bad (s := { s with emitted := [] }) hu) hInv.acted .of_parts fun t F => F.upl
  · intro s p f hInv hu hf
    exact gives_of_effect rfl (frameRx_control hu (rxKind_pause hf)) hInv.acted .of_parts fun t F => F.upl
  · intro s p f hInv hu hk
    exact gives_of_effect rfl (frameRx_other hu hk) hInv.acted .of_parts fun t F => F.upl

end Sys2Proof.Machine
end

