-- ==== Sys2Proof/Proofs/Streams.lean ====
section
/-! SUPPORT. Stream queues and packets (12_streams). -/

namespace Sys2Proof.Machine

set_option Elab.async false

theorem stream_of_strm {s t : State} (h : t.strm = s.strm) (n : Nat) : t.stream n = s.stream n := by unfold State.stream; rw [h]

/-! ## Rewinding and flushing -/

theorem rewindStream_none {n : Nat} {s : State} (h : (s.stream n).opened.filter (fun p => !p.eos) = []) : rewindStream n s = s := by
  unfold rewindStream
  dsimp only
  rw [h]
  rfl

theorem forEach_streamEvent {α : Type} (n e a b c : Nat) (l : List α) (s : State) :
    NoticesOnly s (forEach l (fun _ u => streamEvent n e a b c u) s) := .forEach (fun _ u => streamEvent_notices n e a b c u) l s

/-- A rewound stream keeps no uncommitted packet but END_OF_STREAM (R332). -/
theorem rewindStream_only (n : Nat) (s : State) : StreamsOnly { s with strm := { s.strm with coded := (rewindStream n s).strm.coded } }
      (rewindStream n s) ∧ (∀ m, m ≠ n → (rewindStream n s).stream m = s.stream m) ∧
    ∃ c d k h l, (rewindStream n s).stream n = { s.stream n with
      opened := (s.stream n).opened.filter fun p => p.eos, discOwed := d, credits := c, peak := k, hitHigh := h, hitLow := l
      rewinds := (s.stream n).rewinds + BitVec.ofNat 32 ((s.stream n).opened.filter fun p => !p.eos).length } := by
  by_cases hg : (s.stream n).opened.filter (fun p => !p.eos) = []
  · rw [rewindStream_none hg, hg]
    have ho : (s.stream n).opened.filter (fun p => p.eos) = (s.stream n).opened := by
      rw [List.filter_eq_self]
      intro p hp
      rw [List.filter_eq_nil_iff] at hg
      simpa using hg p hp
    refine ⟨rfl, fun _ _ => rfl, (s.stream n).credits, (s.stream n).discOwed, (s.stream n).peak, (s.stream n).hitHigh, (s.stream n).hitLow, ?_⟩
    rw [ho, List.length_nil, BitVec.add_zero]
  · have hne : (((s.stream n).opened.filter fun p => !p.eos).isEmpty) = false := by rwa [List.isEmpty_eq_false_iff]
    generalize hgone : ((s.stream n).opened.filter fun p => !p.eos) = gone at hne
    have hu : rewindStream n s = forEach gone (fun _ u => streamEvent n 3 0 0 0 u)
        (setCredits n ((s.stream n).credits + gone.foldl (fun k p => k + p.pages) 0) (dropCoded n (s.setStream n { s.stream n with
          opened := (s.stream n).opened.filter (·.eos), discOwed := true
          rewinds := (s.stream n).rewinds + BitVec.ofNat 32 gone.length }))) := by
      unfold rewindStream
      dsimp only
      rw [hgone, hne]
      rfl
    generalize hd : dropCoded n (s.setStream n { s.stream n with
      opened := (s.stream n).opened.filter (·.eos), discOwed := true
      rewinds := (s.stream n).rewinds + BitVec.ofNat 32 gone.length }) = d at hu
    have hds : d.stream n = { s.stream n with
        opened := (s.stream n).opened.filter (·.eos), discOwed := true
        rewinds := (s.stream n).rewinds + BitVec.ofNat 32 gone.length } := by rw [← hd]; exact stream_setStream_self ..
    have hdo : ∀ m, m ≠ n → d.stream m = s.stream m := fun m hm => by rw [← hd]; exact stream_setStream_ne _ _ hm
    obtain ⟨hc, k, h, l, hcs⟩ := setCredits_only n ((s.stream n).credits + gone.foldl (fun k p => k + p.pages) 0) d
    generalize setCredits n ((s.stream n).credits + gone.foldl (fun k p => k + p.pages) 0) d = c at hu hc hcs
    have hev := forEach_streamEvent n 3 0 0 0 gone c
    rw [← hu] at hev
    have hst : (rewindStream n s).strm = c.strm := by rw [hev]
    have hcd : c.strm.coded = d.strm.coded := by rw [hc.only]
    refine ⟨?_, fun m hm => ?_, _, _, k, h, l, (stream_of_strm hst n).trans (hcs.trans (by rw [hds]))⟩
    · have h1 : StreamsOnly d (rewindStream n s) := StreamsOnly.trans hc.only (.of_notices hev)
      have h0 : StreamsOnly { s with strm := { s.strm with coded := (rewindStream n s).strm.coded } } d := by
        rw [hst, hcd, ← hd]; rfl
      exact h0.trans h1
    · exact (stream_of_strm hst m).trans ((hc.others m hm).trans (hdo m hm))

theorem rewindStream_keeps (n : Nat) (s : State) : Keeps [.hcp, .strm] s (rewindStream n s) :=
  Keeps.trans (t := { s with strm := { s.strm with coded := (rewindStream n s).strm.coded } }) .of_parts (rewindStream_only n s).1.keeps

/-- Flush-now of a stream (R347). -/
theorem flushNow_only (n : Nat) (s : State) : Keeps [.hcp, .strm] s (flushNow n s) ∧ (flushNow n s).flt = s.flt ∧
    (∀ m, m ≠ n → (flushNow n s).stream m = s.stream m) ∧
    ∃ k h l, (flushNow n s).stream n = { s.stream n with
      opened := (s.stream n).opened.filter fun p => p.eos, queue := [], discOwed := true, credits := (s.stream n).pages
      peak := k, hitHigh := h, hitLow := l
      state := if (s.stream n).state = .emptying then .idle else (s.stream n).state
      rewinds := (s.stream n).rewinds + BitVec.ofNat 32 ((s.stream n).opened.filter fun p => !p.eos).length
      discarded := (s.stream n).discarded + BitVec.ofNat 32 (s.stream n).queue.length } := by
  have hrk := rewindStream_keeps n s
  obtain ⟨-, hro, c0, d0, k0, h0, l0, hrs⟩ := rewindStream_only n s
  unfold flushNow
  dsimp only
  generalize rewindStream n s = r at hrk hro hrs
  generalize hu : r.setStream n { r.stream n with
    queue := [], discarded := (r.stream n).discarded + BitVec.ofNat 32 (r.stream n).queue.length, discOwed := true } = u
  have hus : u.stream n = { r.stream n with
      queue := [], discarded := (r.stream n).discarded + BitVec.ofNat 32 (r.stream n).queue.length, discOwed := true } := by
    rw [← hu]; exact stream_setStream_self ..
  have huo : StreamOnly n r u := by rw [← hu]; exact .setStream ..
  obtain ⟨hc, k, h, l, hcs⟩ := setCredits_only n (r.stream n).pages u
  generalize setCredits n (r.stream n).pages u = c at hc hcs
  generalize streamEvent n 4 _ _ _ c = e, streamEvent_notices n 4 (((r.stream n).queue.head?.map (·.seq)).getD 0)
    (((r.stream n).queue.getLast?.map (·.seq)).getD 0) (r.stream n).queue.length c = hev
  have hes : e.stream n = c.stream n := stream_of_strm (by rw [hev]) n
  obtain ⟨hk, hks⟩ := checkEmpty_only n e
  have hre : StreamOnly n r (checkEmpty n e) := huo.trans (hc.trans ((StreamOnly.of_notices hev).trans hk))
  have hall : Keeps [.hcp, .strm] s (checkEmpty n e) := hrk.trans hre.keeps
  refine ⟨hall, hall .flt (by simp), fun m hm => (hre.others m hm).trans (hro m hm), k, h, l, ?_⟩
  rw [hks, hes, hcs, hus, hrs]
  unfold Stream.emptied
  dsimp only
  by_cases hem : (s.stream n).state = .emptying
  · rw [if_pos ⟨hem, rfl⟩, if_pos hem]
  · rw [if_neg fun hh => hem hh.1, if_neg hem]

/-- The frames of a list of ports are aborted. -/
theorem forEach_abortFrame (ps : List Nat) : ∀ s, PortsOnly s (forEach ps abortFrame s) ∧
    (∀ p, p ∉ ps → (forEach ps abortFrame s).port p = s.port p) ∧
    ∀ p, p ∈ ps ∨ (s.port p).sending = none → ((forEach ps abortFrame s).port p).sending = none := by
  induction ps with
  | nil => exact fun s => ⟨.refl s, fun _ _ => rfl, fun p h => h.resolve_left List.not_mem_nil⟩
  | cons q ps ih =>
    intro s
    obtain ⟨ha, hq, ho, -⟩ := abortFrame_only q s
    obtain ⟨hs, hout, hin⟩ := ih (abortFrame q s)
    have he : forEach (q :: ps) abortFrame s = forEach ps abortFrame (abortFrame q s) := rfl
    rw [he]
    refine ⟨ha.trans hs, fun p hp => ?_, fun p hp => hin p ?_⟩
    · exact (hout p fun h => hp (List.mem_cons_of_mem _ h)).trans (ho p fun h => hp (h ▸ List.mem_cons_self))
    · by_cases hpq : p = q
      · subst hpq; exact .inr (by rw [hq]; rfl)
      · rcases hp with hp | hp
        · exact .inl (List.mem_of_ne_of_mem hpq hp)
        · exact .inr (by rw [ho p hpq]; exact hp)

theorem streamFlushNow_gives {s : State} {r : Req} (h : Accepted opStreamFlush r s) (hb : bit (r.u8 2) 0 = true) :
    Gives (.streamFlushNow r) s [.hcp, .strm, .upl] fun t =>
      let x := s.stream (r.u16 0)
      let y := t.stream (r.u16 0)
      let gone := x.opened.filter fun p => !p.eos
      y.queue = [] ∧ y.opened = x.opened.filter (fun p => p.eos) ∧ y.credits = x.pages ∧ y.discOwed = true ∧
      y.state = (if x.state = .emptying then .idle else x.state) ∧
      y.rewinds = x.rewinds + BitVec.ofNat 32 gone.length ∧
      y.discarded = x.discarded + BitVec.ofNat 32 x.queue.length ∧
      (∀ m, m ≠ r.u16 0 → t.stream m = s.stream m) ∧
      (∀ p ∈ s.sendingOf (r.u16 0), (t.port p).sending = none) ∧
      (∀ p, p ∉ s.sendingOf (r.u16 0) → t.port p = s.port p) ∧ Answered 0x0903 r 0 0 [] t := by
  have he : opStreamFlush.effect r (s.judged opStreamFlush r) =
      (flushNow (r.u16 0) (forEach (s.sendingOf (r.u16 0)) abortFrame (s.judged opStreamFlush r)), ansDone []) := if_pos hb
  obtain ⟨ha, hout, hin⟩ := forEach_abortFrame (s.sendingOf (r.u16 0)) (s.judged opStreamFlush r)
  generalize forEach (s.sendingOf (r.u16 0)) abortFrame (s.judged opStreamFlush r) = a at he ha hout hin
  obtain ⟨hk, hf, hm, k, hh, l, hy⟩ := flushNow_only (r.u16 0) a
  generalize flushNow (r.u16 0) a = x at he hk hf hm hy
  have hsa : ∀ m, a.stream m = s.stream m := fun m => ha.stream m
  have hux : x.upl = a.upl := hk .upl (by simp)
  rw [hsa] at hy
  refine gives_of_op rfl h he ((ha.keeps.weaken (by simp)).trans (hk.weaken (by simp)))
    (hq := (congrArg Flt.detected (hf.trans ha.flt)).trans h.acted) fun t F A => ?_
  have hyt : t.stream (r.u16 0) = x.stream (r.u16 0) := stream_of_strm F.strm _
  dsimp only
  rw [hyt, hy]
  exact ⟨rfl, rfl, rfl, rfl, rfl, rfl, rfl, fun m hne => (stream_of_strm F.strm m).trans ((hm m hne).trans (hsa m)),
    fun p hp => by rw [port_of_upl (F.upl.trans hux)]; exact hin p (.inl hp),
    fun p hp => (port_of_upl (F.upl.trans hux) p).trans (hout p hp), A⟩

/-! ## Commit -/

/-- The payload with which a packet commits. -/
def State.payloadOf (s : State) (n : Nat) (p : Packet) : Bytes :=
  if p.eos then [] else if (s.cstream n).enable then p.moved else packSamples (s.pipe n).format p.samples.reverse

/-- The packet of stream memory that an uncommitted packet becomes. -/
def State.entryFor (s : State) (n : Nat) (p : Packet) : Committed :=
  let pages := if p.eos then 1 else p.pages
  { seq := s.nextSeqNo n
    bytes := packetHeader s n (s.nextSeqNo n) (s.stream n) p (s.payloadOf n p).length ++ s.payloadOf n p
    pages := pages
    leftA := if s.carried (s.stream n).sendA then pages else 0
    leftB := if s.carried (s.stream n).sendB then pages else 0
    order := s.strm.order }

/-- The stream once its oldest packet has become `c`, with `rest` behind it. -/
def Stream.committed (t : Stream) (p : Packet) (rest : List Packet) (c : Committed) : Stream := { t with
  opened := rest, discOwed := false, packets := t.packets + 1, bytes := t.bytes + BitVec.ofNat 64 c.bytes.length
  unsettled := t.unsettled + BitVec.ofNat 64 p.unsettled
  queue := if c.leftA = 0 ∧ c.leftB = 0 then t.queue else t.queue ++ [c] }

/-- The state once a stream's oldest packet has left for its queue: its number is taken (R333). -/
def enterQueue (n : Nat) (p : Packet) (rest : List Packet) (s : State) : State :=
  let u := s.setStream n ((s.stream n).committed p rest (s.entryFor n p))
  { u with strm := { u.strm with seqs := tset 0 s.strm.seqs n ((s.nextSeqNo n + 1) % 2 ^ 48), order := s.strm.order + 1 } }

theorem enterQueue_stream (n : Nat) (p : Packet) (rest : List Packet) (s : State) :
    (enterQueue n p rest s).stream n = (s.stream n).committed p rest (s.entryFor n p) := stream_setStream_self ..

theorem enterQueue_other (n : Nat) (p : Packet) (rest : List Packet) (s : State) {m : Nat} (h : m ≠ n) :
    (enterQueue n p rest s).stream m = s.stream m := stream_setStream_ne s _ h

theorem setNumbers_keeps (q : Tbl Nat) (o : Nat) (s : State) :
    Keeps [.strm] s { s with strm := { s.strm with seqs := q, order := o } } := .of_parts

theorem enterQueue_keeps (n : Nat) (p : Packet) (rest : List Packet) (s : State) : Keeps [.strm] s (enterQueue n p rest s) :=
  (setStream_keeps n _ s).trans (setNumbers_keeps _ _ _)

/-- A packet that is not END_OF_STREAM: credits that nobody claims come back (R329). -/
theorem commitOldest_plain {n : Nat} {p : Packet} {rest : List Packet} {s : State} (h : (s.stream n).opened = p :: rest)
    (he : p.eos = false) : commitOldest n s =
      if (s.entryFor n p).leftA = 0 ∧ (s.entryFor n p).leftB = 0 then
        setCredits n ((s.stream n).credits + p.pages) (enterQueue n p rest s) else enterQueue n p rest s := by
  unfold commitOldest enterQueue State.entryFor State.payloadOf
  dsimp only
  rw [h]
  dsimp only
  rw [he]
  rfl

/-- The END_OF_STREAM packet ends its pipe (R346). -/
theorem commitOldest_eos {n : Nat} {p : Packet} {rest : List Packet} {s : State} (h : (s.stream n).opened = p :: rest)
    (he : p.eos = true) : commitOldest n s =
      (let c := (s.stream n).credits - 1
       let u := setCredits n c (enterQueue n p rest s)
       let u := if (s.entryFor n p).leftA = 0 ∧ (s.entryFor n p).leftB = 0 then setCredits n (c + 1) u else u
       checkEmpty n (ledgerNotice u (streamEvent n 0 0 0 0 (endPipe n (u.setStream n { u.stream n with state := .emptying }))))) := by
  unfold commitOldest enterQueue State.entryFor State.payloadOf
  dsimp only
  rw [h]
  dsimp only
  rw [he]
  rfl

theorem packetCommit_front {n : Nat} {p : Packet} {ps : List Packet} {s : State} (ho : (s.stream n).opened = p :: ps)
    (hr : p.ready (s.cstream n).enable = true) (hl : (s.stream n).live = true) (hi : s.inReset 11 0 = false)
    (hp : s.chip.phase = .serving) : packetCommit n s = commitFront n s := by
  unfold packetCommit
  dsimp only
  rw [ho]
  dsimp only
  rw [hr, hl, hi, decide_eq_true hp]
  rfl

theorem commitFront_plain {n : Nat} {p : Packet} {ps : List Packet} {s : State} (ho : (s.stream n).opened = p :: ps)
    (he : p.eos = false) : commitFront n s = commitOldest n s :=
  if_pos (by rw [ho, List.take_succ_cons, List.take_zero, List.any_cons, he]; rfl)

theorem commitFront_starving {n : Nat} {p : Packet} {ps : List Packet} {s : State} (ho : (s.stream n).opened = p :: ps)
    (he : p.eos = true) (hf : s.fed n = true) (hc : (s.stream n).credits = 0) : commitFront n s =
      streamEvent n 3 0 0 0 ((creditFault n s).setStream n { (creditFault n s).stream n with
        rewinds := ((creditFault n s).stream n).rewinds + 1, discOwed := true }) := by
  refine (if_neg ?_).trans ((if_neg (by rw [hf]; decide)).trans (if_pos hc))
  rw [ho, List.take_succ_cons, List.take_zero, List.any_cons, he]
  decide

theorem commitFront_eos {n : Nat} {p : Packet} {ps : List Packet} {s : State} (ho : (s.stream n).opened = p :: ps)
    (he : p.eos = true) (hf : s.fed n = true) (hc : (s.stream n).credits ≠ 0) :
    commitFront n s = commitOldest n (s.setStream n { s.stream n with starved := false }) := by
  refine (if_neg ?_).trans ((if_neg (by rw [hf]; decide)).trans (if_neg hc))
  rw [ho, List.take_succ_cons, List.take_zero, List.any_cons, he]
  decide

theorem ready_of_coded {p : Packet} {c : Bool} (hc : p.closed = true) (hb : c = true → p.coded = p.count ∧ p.buffers = []) :
    p.ready c = true := by
  unfold Packet.ready
  rw [hc]
  cases c with
  | false => rfl
  | true =>
    obtain ⟨h1, h2⟩ := hb rfl
    rw [h1, h2, beq_self_eq_true]
    simp

theorem carried_claim (s : State) (q : Option Nat) (k : Nat) :
    (if s.carried q then k else 0) = if q.isSome ∧ (s.port (q.getD 0)).state = .up then k else 0 := by
  cases q with
  | none => rfl
  | some p =>
    have hp : s.carried (some p) = ((s.port p).state == .up) := rfl
    rw [hp]
    by_cases hu : (s.port p).state = .up
    · rw [if_pos (by rw [hu]; decide), if_pos ⟨rfl, hu⟩]
    · rw [if_neg (by rwa [beq_iff_eq]), if_neg fun h => hu h.2]

/-- The packet in stream memory that a packet of samples becomes (Table STRM-3). -/
theorem entryFor_plain {n : Nat} {p : Packet} (s : State) (he : p.eos = false) : s.entryFor n p =
    (let comp := (s.cstream n).enable
     let body := if comp then p.moved else packSamples (s.pipe n).format p.samples.reverse
     let seq := tget 0 s.strm.seqs n
     let h := le 1 3 ++ le 1 64
       ++ le 2 (mask [decide (p.unsettled ≠ 0), p.saturated, comp, p.fade, (s.stream n).discOwed, false, p.nominal, s.chip.testMode]
         + qCode p.quality * 256 + b2n (s.stream n).holdover * 1024)
       ++ le 2 s.chip.hubId.toNat ++ le 2 n ++ le 6 seq ++ le 2 p.unsettled ++ ts96I p.time ++ le 2 p.count
       ++ le 1 (s.pipe n).format ++ le 1 p.epoch.toNat ++ le 8 (intervalOf (s.fout n)) ++ leI 4 p.model ++ le 4 p.cal
       ++ le 4 body.length ++ le 2 (if comp then p.blocks else 0) ++ zeros 2
     let claim := fun q : Option Nat => if q.isSome ∧ (s.port (q.getD 0)).state = .up then p.pages else 0
     { seq := seq, bytes := h ++ le 4 (crc32c h) ++ zeros 4 ++ body, pages := p.pages, leftA := claim (s.stream n).sendA
       leftB := claim (s.stream n).sendB, order := s.strm.order }) := by
  have hbody : s.payloadOf n p = if (s.cstream n).enable then p.moved else packSamples (s.pipe n).format p.samples.reverse :=
    if_neg (by rw [he]; decide)
  unfold State.entryFor packetHeader State.nextSeqNo
  dsimp only
  rw [hbody, he, carried_claim, carried_claim, Bool.not_false, Bool.and_true]
  rfl

theorem entryFor_sent (s : State) (n : Nat) (p : Packet) (es : List Emission) :
    ({ s with emitted := es } : State).entryFor n p = s.entryFor n p := by
  have hst : ({ s with emitted := es } : State).stream n = s.stream n := rfl
  have hcs : ({ s with emitted := es } : State).cstream n = s.cstream n := rfl
  have hp : ({ s with emitted := es } : State).pipe n = s.pipe n := rfl
  have hf : ({ s with emitted := es } : State).fout n = s.fout n := rfl
  have hc : ({ s with emitted := es } : State).carried = s.carried := rfl
  unfold State.entryFor State.payloadOf packetHeader State.nextSeqNo
  simp only [hst, hcs, hp, hf, hc]

theorem packetCommit_enters {s : State} {n : Fin 1024} {p : Packet} {ps : List Packet} (hInv : s.Inv)
    (ho : (s.stream n).opened = p :: ps) (hr : p.ready (s.cstream n).enable = true) (he : p.eos = false)
    (hl : (s.stream n).live = true) (hi : s.inReset 11 0 = false) (hp : s.chip.phase = .serving) :
    Gives (.packetCommit n) s [.hcp, .strm] fun t =>
      let x := s.stream n
      let y := t.stream n
      let c := s.entryFor n p
      (y.opened = ps ∧ y.discOwed = false ∧ y.state = x.state) ∧
      (y.packets = x.packets + 1 ∧ y.bytes = x.bytes + BitVec.ofNat 64 c.bytes.length ∧
        y.unsettled = x.unsettled + BitVec.ofNat 64 p.unsettled) ∧
      (if c.leftA = 0 ∧ c.leftB = 0 then y.queue = x.queue ∧ y.credits = x.credits + p.pages
        else y.credits = x.credits ∧ y.queue = x.queue ++ [c]) ∧
      (∀ m, m ≠ n.val → t.stream m = s.stream m) ∧
      t.strm.seqs = tset 0 s.strm.seqs n ((tget 0 s.strm.seqs n + 1) % 2 ^ 48) ∧ t.strm.order = s.strm.order + 1 := by
  have ho' : (({ s with emitted := [] } : State).stream n).opened = p :: ps := ho
  have heff : effectOf (packetCommit n) s = packetCommit n { s with emitted := [] } := rfl
  rw [packetCommit_front ho' hr hl hi hp, commitFront_plain ho' he, commitOldest_plain ho' he] at heff
  have hself := enterQueue_stream n.val p ps { s with emitted := [] }
  have hother := fun m (hm : m ≠ n.val) => enterQueue_other n.val p ps { s with emitted := [] } hm
  have hk : Keeps [.hcp, .strm] s (enterQueue n p ps { s with emitted := [] }) :=
    Keeps.trans (t := { s with emitted := [] }) .of_parts ((enterQueue_keeps _ _ _ _).weaken (by simp))
  have hseq : (enterQueue n p ps { s with emitted := [] }).strm.seqs = tset 0 s.strm.seqs n ((tget 0 s.strm.seqs n + 1) % 2 ^ 48) := rfl
  have hord : (enterQueue n p ps { s with emitted := [] }).strm.order = s.strm.order + 1 := rfl
  have hstr : ({ s with emitted := [] } : State).stream n = s.stream n := rfl
  rw [entryFor_sent, hstr] at hself
  rw [entryFor_sent, hstr] at heff
  generalize enterQueue n p ps { s with emitted := [] } = u at heff hself hother hk hseq hord
  generalize s.entryFor n p = c at heff hself
  by_cases hc : c.leftA = 0 ∧ c.leftB = 0
  · rw [if_pos hc] at heff
    obtain ⟨hs, k, h, l, hcs⟩ := setCredits_only n.val ((s.stream n).credits + p.pages) u
    generalize setCredits n ((s.stream n).credits + p.pages) u = x at heff hs hcs
    refine gives_of_effect rfl heff ((congrArg Flt.detected (hs.flt.trans (hk .flt (by simp)))).trans hInv.acted) (hk.trans hs.keeps)
      fun t F => ?_
    dsimp only
    rw [stream_of_strm F.strm n, hcs, hself, if_pos hc]
    refine ⟨⟨rfl, rfl, rfl⟩, ⟨rfl, rfl, rfl⟩, ⟨if_pos hc, rfl⟩, fun m hm => ?_, ?_, ?_⟩
    · exact (stream_of_strm F.strm m).trans ((hs.others m hm).trans (hother m hm))
    · rw [F.strm, hs.only]; exact hseq
    · rw [F.strm, hs.only]; exact hord
  · rw [if_neg hc] at heff
    refine gives_of_effect rfl heff ((congrArg Flt.detected (hk .flt (by simp))).trans hInv.acted) hk fun t F => ?_
    dsimp only
    rw [stream_of_strm F.strm n, hself, if_neg hc]
    refine ⟨⟨rfl, rfl, rfl⟩, ⟨rfl, rfl, rfl⟩, ⟨rfl, if_neg hc⟩, fun m hm => ?_, ?_, ?_⟩
    · exact (stream_of_strm F.strm m).trans (hother m hm)
    · rw [F.strm]; exact hseq
    · rw [F.strm]; exact hord

theorem raise_keeps (b n u : Nat) (s : State) : Keeps [.flt] s (raise b n u s) := .of_parts

theorem NoticesOnly.keeps {s t : State} (h : NoticesOnly s t) : Keeps [.hcp] s t := by
  rw [h]
  exact .of_parts

/-- END_OF_STREAM without a credit: its word is a credit fault, and it is rewound (R330, R332). -/
theorem packetCommit_starving {s : State} {n : Fin 1024} {p : Packet} (hInv : s.Inv) (ho : (s.stream n).opened = [p])
    (hc : p.closed = true) (he : p.eos = true) (hf : s.fed n = true) (h0 : (s.stream n).credits = 0) (hl : (s.stream n).live = true)
    (hi : s.inReset 11 0 = false) (hp : s.chip.phase = .serving) (hN : s.NoResets) :
    Gives (.packetCommit n) s [.hcp, .strm, .flt] fun t =>
      let y := t.stream n
      y.opened = [p] ∧ y.starved = true ∧ y.creditFault = true ∧ y.discOwed = true ∧
      y.rewinds = (s.stream n).rewinds + 1 ∧ t.strm.seqs = s.strm.seqs := by
  have hr : p.ready (s.cstream n).enable = true := by unfold Packet.ready; rw [hc, he, Bool.or_true]; simp
  have heff : effectOf (packetCommit n) s = streamEvent n 3 0 0 0 ((creditFault n { s with emitted := [] }).setStream n
      { (creditFault n { s with emitted := [] }).stream n with
        rewinds := ((creditFault n { s with emitted := [] }).stream n).rewinds + 1, discOwed := true }) :=
    (packetCommit_front (s := { s with emitted := [] }) ho hr hl hi hp).trans (commitFront_starving ho he hf h0)
  generalize hm : streamEvent n 5 0 0 0 (raise 11 0 n (({ s with emitted := [] } : State).setStream n { s.stream n with
    creditFault := true, starved := true })) = m
  have hmn : NoticesOnly (raise 11 0 n (({ s with emitted := [] } : State).setStream n { s.stream n with
      creditFault := true, starved := true })) m := by rw [← hm]; exact streamEvent_notices ..
  have hms : m.stream n = { s.stream n with creditFault := true, starved := true } := by
    refine (stream_of_strm (s := raise 11 0 n (({ s with emitted := [] } : State).setStream n { s.stream n with
      creditFault := true, starved := true })) (by rw [hmn]) n).trans ?_
    exact tget_tset_self ..
  have hmf : m.flt = { s.flt with detected := s.flt.detected ++ [⟨11, 0, n.val, none⟩] } := by rw [hmn]; rfl
  have hmq : m.strm.seqs = s.strm.seqs := by rw [hmn]; rfl
  have hmk : Keeps [.hcp, .strm, .flt] s m := by
    have h0 : Keeps [.hcp, .strm, .flt] s { s with emitted := [] } := .of_parts
    have h1 := (setStream_keeps n { s.stream n with creditFault := true, starved := true } { s with emitted := [] }).weaken
      (ch' := [.hcp, .strm, .flt]) (by simp)
    exact h0.trans (h1.trans (((raise_keeps _ _ _ _).weaken (by simp)).trans (hmn.keeps.weaken (by simp))))
  have hcf : creditFault n { s with emitted := [] } = m := by
    have h1 : creditFault n { s with emitted := [] } = rewindStream n m := by rw [← hm]; rfl
    rw [h1]
    refine rewindStream_none ?_
    rw [hms]
    dsimp only
    rw [ho, List.filter_cons, he]
    rfl
  rw [hcf] at heff
  generalize hw : m.setStream n { m.stream n with rewinds := (m.stream n).rewinds + 1, discOwed := true } = w at heff
  have hev := streamEvent_notices n.val 3 0 0 0 w
  rw [← heff] at hev
  generalize hx : effectOf (packetCommit n) s = x at hev heff
  have hxs : x.strm = w.strm := by rw [hev]
  have hws : w.stream n = { m.stream n with rewinds := (m.stream n).rewinds + 1, discOwed := true } := by
    rw [← hw]; exact stream_setStream_self ..
  have hxf : x.flt = m.flt := by rw [hev, ← hw]; rfl
  have hk : Keeps [.hcp, .strm, .flt] s x := by
    have h1 : Keeps [.hcp, .strm, .flt] m w := by rw [← hw]; exact (setStream_keeps n _ m).weaken (by simp)
    exact hmk.trans (h1.trans (hev.keeps.weaken (by simp)))
  have hcalm : ∀ d ∈ x.flt.detected, d.Calm := by
    rw [hxf, hmf]
    dsimp only
    rw [hInv.acted]
    intro d hd
    rw [List.mem_singleton.mp hd]
    exact ⟨(by decide : 11 < 17), (by decide : 0 < 64), fun h => absurd h.1 (by decide : 11 ≠ 3)⟩
  refine gives_of_calm rfl hx (noResets_of_blocks (by rw [hxf, hmf]) hN) hcalm hk fun t F _ _ _ => ?_
  dsimp only
  rw [stream_of_strm (F.strm.trans hxs) n, hws, hms]
  refine ⟨ho, rfl, rfl, rfl, rfl, ?_⟩
  rw [F.strm, hxs, ← hw]
  exact hmq

theorem StreamOnly.numbers {n : Nat} {s t : State} (h : StreamOnly n s t) : t.strm.seqs = s.strm.seqs ∧ t.strm.order = s.strm.order := by
  have hs := h.only
  have : t.strm = { s.strm with streams := t.strm.streams } := by rw [hs]
  rw [this]
  exact ⟨rfl, rfl⟩

theorem pipe_setPipe_self (s : State) (n : Nat) (x : Pipe) : (s.setPipe n x).pipe n = x := tget_tset_self ..

theorem pipe_setPipe_ne (s : State) {n k : Nat} (x : Pipe) (h : k ≠ n) : (s.setPipe n x).pipe k = s.pipe k :=
  tget_tset_ne _ _ _ _ _ h

theorem endPipe_only (n : Nat) (s : State) : NoticesOnly (unplaceStream n (s.setPipe n { s.pipe n with
    state := .bound, waiting := false, nLast := none, updates := [] })) (endPipe n s) := notify_noticesOnly ..

theorem setPipe_keeps (n : Nat) (x : Pipe) (s : State) : Keeps [.pipes] s (s.setPipe n x) := .of_parts

theorem unplaceStream_keeps (n : Nat) (s : State) : Keeps [.strm] s (unplaceStream n s) := setStream_keeps n _ s

/-- What follows the commit of a stream's END_OF_STREAM: the stream empties, its pipe is BOUND (R223, R327, R346). -/
def endStream (n : Nat) (s : State) : State :=
  checkEmpty n (ledgerNotice s (streamEvent n 0 0 0 0 (endPipe n (s.setStream n { s.stream n with state := .emptying }))))

theorem endStream_only (n : Nat) (s : State) : Keeps [.hcp, .strm, .pipes] s (endStream n s) ∧
    (endStream n s).stream n =
      ({ s.stream n with state := .emptying, placeA := none, placeB := none, placeC := none } : Stream).emptied ∧
    ((endStream n s).pipe n).state = .bound ∧ ((endStream n s).pipe n).nLast = none ∧
    (endStream n s).strm.seqs = s.strm.seqs ∧ (endStream n s).strm.order = s.strm.order := by
  unfold endStream
  generalize hw : s.setStream n { s.stream n with state := .emptying } = w
  have hws : w.stream n = { s.stream n with state := .emptying } := by rw [← hw]; exact stream_setStream_self ..
  generalize hz : unplaceStream n (w.setPipe n { w.pipe n with state := .bound, waiting := false, nLast := none, updates := [] }) = z
  have hend : NoticesOnly z (endPipe n w) := by rw [← hz]; exact endPipe_only n w
  have hzs : z.stream n = { w.stream n with placeA := none, placeB := none, placeC := none } := by
    rw [← hz]; exact stream_setStream_self ..
  have hzp : z.pipe n = { w.pipe n with state := .bound, waiting := false, nLast := none, updates := [] } := by
    rw [← hz]
    have hp : ∀ u : State, (unplaceStream n u).pipe n = u.pipe n := fun _ => rfl
    rw [hp, pipe_setPipe_self]
  have hzk : Keeps [.hcp, .strm, .pipes] s z := by
    have h1 : Keeps [.strm] s w := by rw [← hw]; exact setStream_keeps n _ s
    have h2 : Keeps [.strm, .pipes] w z := by
      rw [← hz]
      exact ((setPipe_keeps n _ w).weaken (by simp)).trans ((unplaceStream_keeps n _).weaken (by simp))
    exact (h1.weaken (by simp)).trans (h2.weaken (by simp))
  have hzn : z.strm.seqs = s.strm.seqs ∧ z.strm.order = s.strm.order := by rw [← hz, ← hw]; exact ⟨rfl, rfl⟩
  have hlast : HcpOnly z (ledgerNotice s (streamEvent n 0 0 0 0 (endPipe n w))) :=
    (hend.trans (streamEvent_notices n 0 0 0 0 (endPipe n w))).hcpOnly.trans (ledgerNotice_hcp ..)
  generalize ledgerNotice s (streamEvent n 0 0 0 0 (endPipe n w)) = y at hlast
  obtain ⟨hk, hks⟩ := checkEmpty_only n y
  have hpipe : (checkEmpty n y).pipe n = z.pipe n := by
    unfold State.pipe
    rw [hk.only, ← hlast.pipes]
  refine ⟨hzk.trans ((hlast.keeps.weaken (by simp)).trans (hk.keeps.weaken (by simp))), ?_, ?_, ?_, ?_, ?_⟩
  · rw [hks, stream_of_strm hlast.strm, hzs, hws]
  · rw [hpipe, hzp]
  · rw [hpipe, hzp]
  · rw [hk.numbers.1, hlast.strm, hzn.1]
  · rw [hk.numbers.2, hlast.strm, hzn.2]

/-- The END_OF_STREAM packet leaves the stream's credits as its claims say, and ends the stream. -/
theorem commitOldest_ends {n : Nat} {p : Packet} {rest : List Packet} {s : State} (ho : (s.stream n).opened = p :: rest)
    (he : p.eos = true) : ∃ v cr k h l, commitOldest n s = endStream n v ∧ StreamOnly n (enterQueue n p rest s) v ∧
      v.stream n = { (s.stream n).committed p rest (s.entryFor n p) with credits := cr, peak := k, hitHigh := h, hitLow := l } := by
  rw [commitOldest_eos ho he]
  have hself := enterQueue_stream n p rest s
  generalize enterQueue n p rest s = u at hself
  generalize s.entryFor n p = c at hself
  obtain ⟨h1, k1, g1, l1, e1⟩ := setCredits_only n ((s.stream n).credits - 1) u
  rw [hself] at e1
  dsimp only
  by_cases hz : c.leftA = 0 ∧ c.leftB = 0
  · obtain ⟨h2, k2, g2, l2, e2⟩ := setCredits_only n ((s.stream n).credits - 1 + 1) (setCredits n ((s.stream n).credits - 1) u)
    rw [e1] at e2
    rw [if_pos hz]
    exact ⟨_, _, k2, g2, l2, rfl, h1.trans h2, e2⟩
  · rw [if_neg hz]
    exact ⟨_, _, k1, g1, l1, rfl, h1, e1⟩

theorem packetCommit_ends {s : State} {n : Fin 1024} {p : Packet} (hInv : s.Inv) (ho : (s.stream n).opened = [p])
    (hc : p.closed = true) (he : p.eos = true) (hf : s.fed n = true) (h0 : (s.stream n).credits ≠ 0) (hl : (s.stream n).live = true)
    (hi : s.inReset 11 0 = false) (hp : s.chip.phase = .serving) :
    Gives (.packetCommit n) s [.hcp, .strm, .pipes, .ledger] fun t =>
      let y := t.stream n
      (y.opened = [] ∧ y.discOwed = false ∧ y.state = (if y.queue = [] then .idle else .emptying)) ∧
      (y.placeA = none ∧ y.placeB = none ∧ y.placeC = none) ∧
      ((t.pipe n).state = .bound ∧ (t.pipe n).nLast = none) ∧
      t.strm.seqs = tset 0 s.strm.seqs n ((tget 0 s.strm.seqs n + 1) % 2 ^ 48) ∧ t.strm.order = s.strm.order + 1 := by
  have hr : p.ready (s.cstream n).enable = true := by unfold Packet.ready; rw [hc, he, Bool.or_true]; simp
  generalize hm : ({ s with emitted := [] } : State).setStream n { s.stream n with starved := false } = m
  have hmo : (m.stream n).opened = [p] := by rw [← hm, stream_setStream_self]; exact ho
  obtain ⟨v, cr, k, h, l, hv, hvo, hvs⟩ := commitOldest_ends hmo he
  have heff : effectOf (packetCommit n) s = endStream n v := by
    rw [← hv, ← hm]
    exact (packetCommit_front (s := { s with emitted := [] }) ho hr hl hi hp).trans (commitFront_eos ho he hf h0)
  have hq : Keeps [.hcp, .strm, .pipes, .ledger] s (enterQueue n p [] m) := by
    have h1 : Keeps [.hcp, .strm, .pipes, .ledger] s m := by rw [← hm]; exact .of_parts
    exact h1.trans ((enterQueue_keeps _ _ _ _).weaken (by simp))
  have hseq : (enterQueue n p [] m).strm.seqs = tset 0 s.strm.seqs n ((tget 0 s.strm.seqs n + 1) % 2 ^ 48) := by rw [← hm]; rfl
  have hord : (enterQueue n p [] m).strm.order = s.strm.order + 1 := by rw [← hm]; rfl
  obtain ⟨hek, hes, hpb, hpl, hes1, hes2⟩ := endStream_only n.val v
  generalize endStream n v = x at heff hek hes hpb hpl hes1 hes2
  have hall : Keeps [.hcp, .strm, .pipes, .ledger] s x :=
    hq.trans ((hvo.keeps.weaken (by simp)).trans (hek.weaken (by simp)))
  refine gives_of_effect rfl heff ((congrArg Flt.detected (hall .flt (by simp))).trans hInv.acted) hall fun t F => ?_
  dsimp only
  have hpt : t.pipe n = x.pipe n := by unfold State.pipe; rw [F.pipes]
  rw [stream_of_strm F.strm n, hes, hvs, hpt, F.strm, hes1, hes2, hvo.numbers.1, hvo.numbers.2]
  refine ⟨⟨Stream.emptied_opened _, ?_, ?_⟩, ?_, ⟨hpb, hpl⟩, hseq, hord⟩
  · unfold Stream.emptied; split <;> rfl
  · rw [Stream.emptied_state, Stream.emptied_queue]
    simp
  · unfold Stream.emptied; split <;> exact ⟨rfl, rfl, rfl⟩

/-! ## Compressed blocks -/

theorem cstream_setCstream_self (s : State) (n : Nat) (x : CompStream) : (s.setCstream n x).cstream n = x := tget_tset_self ..

/-- The samples of a packet that the next block codes. -/
def Packet.nextSamples (p : Packet) (c : CompStream) : List Smp := (p.samples.reverse.drop p.coded).take c.block

/-- The mode and order of that block. -/
def Packet.nextMode (p : Packet) (c : CompStream) : Nat × Nat :=
  (p.modes[p.coded / c.block]?).getD (if c.mode = 2 then c.active else c.mode, c.order)

/-- That block in format `f`: the predictor of a coded one, and its bytes. -/
def Packet.nextBlock (p : Packet) (c : CompStream) (f : Nat) : Option Nat × Bytes :=
  if (p.nextMode c).1 = 1 then riceBlock f (p.nextMode c).2 (p.nextSamples c)
  else (none, storedBlock f (p.nextSamples c).length (packSamples f (p.nextSamples c)))

/-- What a stream's compressor counts of that block. -/
def CompStream.counting (c : CompStream) (p : Packet) (f tick : Nat) : CompStream :=
  let data := packSamples f (p.nextSamples c)
  let rice := riceBlock f (p.nextMode c).2 (p.nextSamples c)
  { c with
    orig := c.orig + BitVec.ofNat 64 data.length, coded := c.coded + BitVec.ofNat 64 (p.nextBlock c f).2.length
    trial := c.trial + BitVec.ofNat 64 rice.2.length, blocks := c.blocks + 1
    stored := if (p.nextBlock c f).1.isNone then c.stored + 1 else c.stored
    orders := match (p.nextBlock c f).1 with
      | some k => bumpAt k c.orders
      | none => c.orders
    recent := (c.recent.filter fun x => decide (tick < x.1 + 1000000000)) ++ [(tick, data.length, rice.2.length)] }

/-- The packet with that block in its output buffer. -/
def Packet.coding (p q : Packet) (c : CompStream) (f : Nat) : Packet :=
  { q with coded := q.coded + (p.nextSamples c).length, buffers := q.buffers ++ [(p.nextBlock c f).2], blocks := q.blocks + 1 }

theorem codeBlock_some {n i : Nat} {p : Packet} {s : State} (hi : codable (s.cstream n).block 0 (s.stream n).opened = some i)
    (hp : (s.stream n).opened[i]? = some p) : codeBlock n s = some ((p.nextBlock (s.cstream n) (s.pipe n).format).2,
      (s.cstream n).counting p (s.pipe n).format s.tick, s.setStream n { s.stream n with
        opened := setAt (fun q => p.coding q (s.cstream n) (s.pipe n).format) i (s.stream n).opened }) := by
  unfold codeBlock
  dsimp only
  rw [hi]
  dsimp only
  rw [hp]
  rfl

theorem setCstream_keeps (n : Nat) (x : CompStream) (s : State) : Keeps [.comp] s (s.setCstream n x) := .of_parts

/-- A block waits in a compressor's output buffer. -/
def State.pushCoded (s : State) (x : Nat × Nat) : State := { s with strm := { s.strm with coded := s.strm.coded ++ [x] } }

theorem pushCoded_stream (x : Nat × Nat) (s : State) (m : Nat) : (s.pushCoded x).stream m = s.stream m := rfl
theorem pushCoded_cstream (x : Nat × Nat) (s : State) (m : Nat) : (s.pushCoded x).cstream m = s.cstream m := rfl
theorem pushCoded_coded (x : Nat × Nat) (s : State) : (s.pushCoded x).strm.coded = s.strm.coded ++ [x] := rfl
theorem setCstream_stream (n : Nat) (x : CompStream) (s : State) (m : Nat) : (s.setCstream n x).stream m = s.stream m := rfl
theorem setCstream_coded (n : Nat) (x : CompStream) (s : State) : (s.setCstream n x).strm.coded = s.strm.coded := rfl

theorem pushCoded_keeps (x : Nat × Nat) (s : State) : Keeps [.strm] s (s.pushCoded x) := .of_parts

/-- Compressor k has coded the next block of packet i of a stream. -/
def blockCoded (n i k : Nat) (p : Packet) (s : State) : State :=
  ((s.setStream n { s.stream n with opened := setAt (fun q => p.coding q (s.cstream n) (s.pipe n).format) i (s.stream n).opened }).setCstream
    n ((s.cstream n).counting p (s.pipe n).format s.tick)).pushCoded (k, n)

theorem blockCoded_only (n i k : Nat) (p : Packet) (s : State) : Keeps [.strm, .comp] s (blockCoded n i k p s) ∧
    (blockCoded n i k p s).flt = s.flt ∧
    (blockCoded n i k p s).cstream n = (s.cstream n).counting p (s.pipe n).format s.tick ∧
    (blockCoded n i k p s).stream n = { s.stream n with
      opened := setAt (fun q => p.coding q (s.cstream n) (s.pipe n).format) i (s.stream n).opened } ∧
    (∀ m, m ≠ n → (blockCoded n i k p s).stream m = s.stream m) ∧
    (blockCoded n i k p s).strm.coded = s.strm.coded ++ [(k, n)] := by
  unfold blockCoded
  generalize (s.cstream n).counting p (s.pipe n).format s.tick = c
  generalize hu : s.setStream n { s.stream n with
    opened := setAt (fun q => p.coding q (s.cstream n) (s.pipe n).format) i (s.stream n).opened } = u
  have hk : Keeps [.strm, .comp] s u := by rw [← hu]; exact (setStream_keeps n _ s).weaken (by simp)
  have hself := stream_setStream_self s n { s.stream n with
    opened := setAt (fun q => p.coding q (s.cstream n) (s.pipe n).format) i (s.stream n).opened }
  have hcoded : u.strm.coded = s.strm.coded := by rw [← hu]; rfl
  rw [hu] at hself
  have hc := (setCstream_keeps n c u).weaken (ch' := [.strm, .comp]) (by simp)
  have hl := (pushCoded_keeps (k, n) (u.setCstream n c)).weaken (ch' := [.strm, .comp]) (by simp)
  have hall := hk.trans (hc.trans hl)
  refine ⟨hall, hall .flt (by simp), ?_, ?_, fun m hm => ?_, ?_⟩
  · rw [pushCoded_cstream, cstream_setCstream_self]
  · rw [pushCoded_stream, setCstream_stream, hself]
  · rw [pushCoded_stream, setCstream_stream, ← hu, stream_setStream_ne s _ hm]
  · rw [pushCoded_coded, setCstream_coded, hcoded]

theorem compBlockComplete_codes {n i k : Nat} {p : Packet} {s : State} (he : (s.cstream n).enable = true)
    (hi : codable (s.cstream n).block 0 (s.stream n).opened = some i) (hp : (s.stream n).opened[i]? = some p)
    (hk : (s.stream n).placeC = some k) (hr : s.inReset 9 k = false) (hl : (s.stream n).live = true) (hb : s.buffered k < 2) :
    compBlockComplete n s = blockCoded n i k p s := by
  unfold compBlockComplete
  dsimp only
  rw [hk]
  dsimp only
  rw [he, hr, hl, decide_eq_false (Nat.not_le.mpr hb), codeBlock_some hi hp]
  rfl

theorem compBlock_gives {s : State} {n : Fin 1024} {i k : Nat} {p : Packet} (hInv : s.Inv) (he : (s.cstream n).enable = true)
    (hi : codable (s.cstream n).block 0 (s.stream n).opened = some i) (hp : (s.stream n).opened[i]? = some p)
    (hk : (s.stream n).placeC = some k) (hr : s.inReset 9 k = false) (hl : (s.stream n).live = true) (hb : s.buffered k < 2) :
    Gives (.compBlockComplete n) s [.strm, .comp] fun t =>
      let c := s.cstream n
      let xs := (p.samples.reverse.drop p.coded).take c.block
      let data := packSamples (s.pipe n).format xs
      let how := (p.modes[p.coded / c.block]?).getD (if c.mode = 2 then c.active else c.mode, c.order)
      let rice := riceBlock (s.pipe n).format how.2 xs
      let b := if how.1 = 1 then rice else (none, storedBlock (s.pipe n).format xs.length data)
      (t.stream n).opened = setAt (fun q => { q with
        coded := q.coded + xs.length, buffers := q.buffers ++ [b.2], blocks := q.blocks + 1 }) i (s.stream n).opened ∧
      (∀ m, m ≠ n.val → t.stream m = s.stream m) ∧ t.strm.coded = s.strm.coded ++ [(k, n.val)] ∧
      (t.cstream n).blocks = c.blocks + 1 ∧ (t.cstream n).stored = c.stored + (if b.1 = none then 1 else 0) ∧
      (t.cstream n).orig = c.orig + BitVec.ofNat 64 data.length ∧
      (t.cstream n).coded = c.coded + BitVec.ofNat 64 b.2.length ∧
      (t.cstream n).trial = c.trial + BitVec.ofNat 64 rice.2.length ∧
      (s.tick, data.length, rice.2.length) ∈ (t.cstream n).recent := by
  have heff : effectOf (compBlockComplete n) s = blockCoded n i k p { s with emitted := [] } :=
    compBlockComplete_codes (s := { s with emitted := [] }) he hi hp hk hr hl hb
  obtain ⟨hkeep, hflt, hc, hself, hother, hcoded⟩ := blockCoded_only n i k p { s with emitted := [] }
  generalize blockCoded n i k p { s with emitted := [] } = x at heff hkeep hflt hc hself hother hcoded
  refine gives_of_effect rfl heff ((congrArg Flt.detected hflt).trans hInv.acted)
    (Keeps.trans (t := { s with emitted := [] }) .of_parts hkeep) fun t F => ?_
  have htc : t.cstream n = (s.cstream n).counting p (s.pipe n).format s.tick := by
    refine Eq.trans ?_ hc
    unfold State.cstream; rw [F.comp]
  dsimp only
  rw [stream_of_strm F.strm, hself, htc]
  refine ⟨rfl, fun m hm => (stream_of_strm F.strm m).trans (hother m hm), ?_, rfl, ?_, rfl, rfl, rfl,
    List.mem_append_right _ (List.mem_singleton_self _)⟩
  · rw [F.strm]; exact hcoded
  · show (if (p.nextBlock (s.cstream n) (s.pipe n).format).1.isNone then _ else _) = _ + (if (p.nextBlock _ _).1 = none then 1 else 0)
    cases (p.nextBlock (s.cstream n) (s.pipe n).format).1 with
    | none => rfl
    | some k => exact (BitVec.add_zero _).symm

theorem setAt_congr {α : Type} {f g : α → α} : ∀ {i : Nat} {l : List α} {x : α}, l[i]? = some x → f x = g x → setAt f i l = setAt g i l
  | 0, y :: ys, x, h, hx => by
    have : y = x := by simpa using h
    unfold setAt
    rw [this, hx]
  | i + 1, y :: ys, x, h, hx => by
    unfold setAt
    rw [setAt_congr (l := ys) (by simpa using h) hx]

/-- A beat of 256 bytes goes from a block into its packet. -/
def Packet.moving (q : Packet) (part : Bytes) (done : Bool) (want : Nat) : Packet := { q with
  moved := q.moved ++ part, movedHere := if done then 0 else q.movedHere + part.length
  buffers := if done then q.buffers.drop 1 else q.buffers, pages := want }

theorem moveBeat_moves {n beat i : Nat} {p : Packet} {s : State} (hi : waitingPacket (s.stream n).opened = some i)
    (hp : (s.stream n).opened[i]? = some p) (part : Bytes) (hpart : part = ((p.buffers.headD []).drop p.movedHere).take beat)
    (done : Bool) (hd : done = decide ((p.buffers.headD []).length ≤ p.movedHere + part.length)) (want : Nat)
    (hw : want = pagesOf (p.moved.length + part.length)) (hc : want - p.pages ≤ (s.stream n).credits) :
    ∃ u, StreamOnly n s u ∧ (∃ k h l, u.stream n = { s.stream n with
        opened := setAt (fun q => q.moving part done want) i (s.stream n).opened
        credits := (s.stream n).credits - (want - p.pages), peak := k, hitHigh := h, hitLow := l }) ∧
      moveBeat n beat s = if done then { u with strm := { u.strm with coded := u.strm.coded.eraseP fun x => x.2 == n } } else u := by
  subst hpart
  generalize hm : s.setStream n { s.stream n with
    opened := setAt (fun q => q.moving (((p.buffers.headD []).drop p.movedHere).take beat) done want) i (s.stream n).opened } = m
  have hms : m.stream n = { s.stream n with
      opened := setAt (fun q => q.moving (((p.buffers.headD []).drop p.movedHere).take beat) done want) i (s.stream n).opened } := by
    rw [← hm]; exact stream_setStream_self ..
  have hmo : StreamOnly n s m := by rw [← hm]; exact .setStream ..
  have heq : moveBeat n beat s = (let u := if want = p.pages then m else spendPages n (want - p.pages) m
      if done then { u with strm := { u.strm with coded := u.strm.coded.eraseP fun x => x.2 == n } } else u) := by
    unfold moveBeat
    dsimp only
    rw [hi]
    dsimp only
    rw [hp]
    dsimp only
    rw [← hd, ← hw, if_neg (Nat.not_lt.mpr hc), ← hm]
    rfl
  by_cases he : want = p.pages
  · refine ⟨m, hmo, ⟨(s.stream n).peak, (s.stream n).hitHigh, (s.stream n).hitLow, ?_⟩, ?_⟩
    · rw [hms, he, Nat.sub_self]; rfl
    · rw [heq]; dsimp only; rw [if_pos he]
  · obtain ⟨ho, k, h, l, hs⟩ := setCredits_only n ((m.stream n).credits - (want - p.pages)) m
    refine ⟨spendPages n (want - p.pages) m, hmo.trans ho, ⟨k, h, l, ?_⟩, ?_⟩
    · exact hs.trans (by rw [hms])
    · rw [heq]; dsimp only; rw [if_neg he]

theorem packetiserBeat_moves {k n : Nat} {s : State} (hr : s.inReset 11 0 = false) (hp : s.chip.phase = .serving)
    (hk : s.nextCompressor = some k) (hf : s.strm.coded.find? (fun x => x.1 == k) = some (k, n)) :
    packetiserBeat s = moveBeat n 256 { s with strm := { s.strm with served := k } } := by
  unfold packetiserBeat
  rw [hr, decide_eq_false (fun h => h hp), hk]
  dsimp only
  rw [hf]
  rfl

theorem packetiserBeat_idle {s : State} (h : s.strm.coded = []) : packetiserBeat s = s := by
  have hk : s.nextCompressor = none := by
    unfold State.nextCompressor
    rw [h, List.find?_eq_none]
    intro k _
    exact Bool.false_ne_true
  unfold packetiserBeat
  rw [hk, ite_self]

theorem packetiserBeat_gives {s : State} {k n i : Nat} {p : Packet} {b : Bytes} {bs : List Bytes} (hInv : s.Inv)
    (hr : s.inReset 11 0 = false) (hph : s.chip.phase = .serving) (hk : s.nextCompressor = some k)
    (hf : s.strm.coded.find? (fun x => x.1 == k) = some (k, n)) (hi : waitingPacket (s.stream n).opened = some i)
    (hp : (s.stream n).opened[i]? = some p) (hb : p.buffers = b :: bs)
    (hc : (64 + p.moved.length + ((b.drop p.movedHere).take 256).length + 4095) / 4096 ≤ p.pages + (s.stream n).credits) :
    Gives .packetiserBeat s [.hcp, .strm] fun t =>
      let part := (b.drop p.movedHere).take 256
      let want := (64 + p.moved.length + part.length + 4095) / 4096
      let done := decide (b.length ≤ p.movedHere + part.length)
      (t.stream n).opened = setAt (fun q => { q with
        moved := q.moved ++ part, movedHere := if done then 0 else q.movedHere + part.length
        buffers := if done then bs else q.buffers, pages := want }) i (s.stream n).opened ∧
      (t.stream n).credits = (s.stream n).credits - (want - p.pages) ∧
      (∀ m, m ≠ n → t.stream m = s.stream m) ∧ t.strm.served = k ∧
      t.strm.coded = (if done then s.strm.coded.eraseP fun x => x.2 == n else s.strm.coded) := by
  dsimp only
  generalize hpart : (b.drop p.movedHere).take 256 = part at hc
  generalize hwant : (64 + p.moved.length + part.length + 4095) / 4096 = want at hc
  generalize hdone : decide (b.length ≤ p.movedHere + part.length) = done
  have hhead : p.buffers.headD [] = b := by rw [hb]; rfl
  have hpages : want = pagesOf (p.moved.length + part.length) := by
    rw [← hwant]; unfold pagesOf cdiv
    congr 1
    omega
  obtain ⟨u, huo, ⟨pk, hh, hl, hus⟩, hmv⟩ := moveBeat_moves (n := n) (beat := 256) (s := { s with emitted := [], strm := { s.strm with served := k } })
    hi hp part (by rw [hhead, hpart]) done (by rw [hhead, hdone]) want hpages (by
      show want - p.pages ≤ (s.stream n).credits; omega)
  have heff : effectOf packetiserBeat s = _ := (packetiserBeat_moves (s := { s with emitted := [] }) hr hph hk hf).trans hmv
  have hus' : u.strm.served = k ∧ u.strm.coded = s.strm.coded := by rw [huo.only]; exact ⟨rfl, rfl⟩
  have hku : Keeps [.hcp, .strm] s u :=
    Keeps.trans (t := { s with emitted := [], strm := { s.strm with served := k } }) .of_parts huo.keeps
  generalize hx : effectOf packetiserBeat s = x at heff
  have hxk : Keeps [.hcp, .strm] s x := by
    refine hku.trans ?_
    rw [heff]
    split
    · exact .of_parts
    · exact .refl _ _
  have hxs : ∀ m, x.stream m = u.stream m := by intro m; rw [heff]; split <;> rfl
  have hset : setAt (fun q : Packet => q.moving part done want) i (s.stream n).opened = setAt (fun q : Packet => { q with
      moved := q.moved ++ part, movedHere := if done then 0 else q.movedHere + part.length
      buffers := if done then bs else q.buffers, pages := want }) i (s.stream n).opened := by
    refine setAt_congr hp ?_
    unfold Packet.moving
    rw [hb]
    rfl
  refine gives_of_effect rfl hx ((congrArg Flt.detected (hxk .flt (by simp))).trans hInv.acted) hxk fun t F => ?_
  rw [stream_of_strm F.strm, hxs, hus]
  refine ⟨hset, rfl, fun m hm => ?_, ?_, ?_⟩
  · exact (stream_of_strm F.strm m).trans ((hxs m).trans (huo.others m hm))
  · rw [F.strm, heff]
    split
    · exact hus'.1
    · exact hus'.1
  · rw [F.strm, heff]
    cases done with
    | true => exact congrArg _ hus'.2
    | false => exact hus'.2

/-- Settles O45: streams are configured, flushed and report; a closed packet commits with its header and its claims, END_OF_STREAM ends
the pipe, and a beat moves 256 bytes of a block into its packet. -/
theorem streamsQueueFlushAndCommit : Obligations.StreamsQueueFlushAndCommit := by
  unfold Obligations.StreamsQueueFlushAndCommit
  refine ⟨?_, ?_, ?_, ?_, fun s r h hb => streamFlushNow_gives h hb, ?_,
    fun s n p hInv ho hc he hf h0 hl hi hp => packetCommit_ends hInv ho hc he hf h0 hl hi hp,
    fun s n p hInv ho hc he hf h0 hl hi hp hN => packetCommit_starving hInv ho hc he hf h0 hl hi hp hN,
    fun s n i p k hInv he hi hp hk hr hl hb => compBlock_gives hInv he hi hp hk hr hl hb,
    fun s k n i p b bs hInv hr hph hk hf hi hp hb hc => packetiserBeat_gives hInv hr hph hk hf hi hp hb hc,
    fun s hInv h => gives_nothing rfl (packetiserBeat_idle (s := { s with emitted := [] }) h) hInv.acted fun _ _ => trivial⟩
  · intro s r h
    by_cases h0 : r.u16 2 = 0
    · refine gives_of_op rfl h (if_pos h0) .of_parts fun t F A => ⟨F.strm.trans ?_, A⟩
      rw [if_pos h0]
      rfl
    · refine gives_of_op rfl h (if_neg h0) .of_parts fun t F A => ⟨F.strm.trans ?_, A⟩
      rw [if_neg h0]
      rfl
  · exact fun s r h => gives_of_op rfl h rfl .of_parts fun t F A => ⟨F.strm, A⟩
  · exact fun s r h => gives_of_op rfl h rfl .of_parts fun t F A => ⟨F.strm, A⟩
  · intro s r h hb
    exact gives_of_op rfl h (if_neg (by rw [hb]; decide)) .of_parts fun t F A => ⟨F.strm, A⟩
  · intro s n p ps hInv ho hc he hb hl hi hp
    obtain ⟨t, ht, hk, hpost⟩ := packetCommit_enters hInv ho (ready_of_coded hc hb) he hl hi hp
    rw [entryFor_plain s he] at hpost
    exact ⟨t, ht, hk, hpost⟩

end Sys2Proof.Machine
end

