-- ==== Sys2Proof/Proofs/Compression.lean ====
section
/-! SUPPORT. Stream compression settings and compression jobs (R311-R313, R318-R322), which settle O44. -/

namespace Sys2Proof.Machine

set_option Elab.async false

/-! ## The unit and the slot of a new job -/

theorem leastBy_le (f : Nat → Nat) : ∀ {xs : List Nat} {y : Nat}, leastBy f xs = some y → y ∈ xs ∧ ∀ x ∈ xs, f y ≤ f x
  | x :: xs, y, h => by
    unfold leastBy at h
    cases hr : leastBy f xs with
    | none =>
      rw [hr] at h
      cases xs with
      | nil => cases h; simp
      | cons z zs =>
        unfold leastBy at hr
        split at hr
        · cases hr
        · split at hr <;> cases hr
    | some z =>
      rw [hr] at h
      obtain ⟨hz, hle⟩ := leastBy_le f hr
      dsimp only at h
      split at h
      · next hx =>
        cases h
        exact ⟨List.mem_cons_self, fun w hw => (List.mem_cons.mp hw).elim (fun e => e ▸ Nat.le_refl _) fun hw => hx.trans (hle w hw)⟩
      · next hx =>
        cases h
        exact ⟨List.mem_cons_of_mem _ hz, fun w hw => (List.mem_cons.mp hw).elim (fun e => by rw [e]; omega) (hle w)⟩

theorem leastBy_isSome (f : Nat → Nat) : ∀ {xs : List Nat}, xs ≠ [] → (leastBy f xs).isSome = true
  | x :: xs, _ => by
    unfold leastBy
    cases leastBy f xs with
    | none => rfl
    | some y => dsimp only; split <;> rfl

theorem chooseUnit_least (s : State) (n : Nat) :
    s.chooseUnit n = n ∨ n = 255 ∧ s.chooseUnit n < 3 ∧ ∀ v < 3, s.unitLoad (s.chooseUnit n) ≤ s.unitLoad v := by
  unfold State.chooseUnit
  by_cases hn : n = 255
  · rw [if_neg (by simpa using hn)]
    obtain ⟨u, hu⟩ := Option.isSome_iff_exists.mp (leastBy_isSome s.unitLoad (xs := [0, 1, 2]) (by simp))
    rw [hu]
    obtain ⟨hm, hle⟩ := leastBy_le _ hu
    have hlt : u < 3 := by simp at hm; omega
    exact .inr ⟨hn, hlt, fun v hv => hle v (by simp; omega)⟩
  · rw [if_pos hn]
    exact .inl rfl

/-- The lowest free slot is one of the 16 and no job holds it. -/
theorem freeJobSlot_free {s : State} (h : s.freeJobSlot.isSome = true) :
    s.freeJobSlot.getD 0 < 16 ∧ ∀ j ∈ s.jobs, j.slot ≠ s.freeJobSlot.getD 0 := by
  obtain ⟨k, hk⟩ := Option.isSome_iff_exists.mp h
  rw [hk]
  have hmem := List.mem_range.mp (List.mem_of_find?_eq_some hk)
  have hfree := List.find?_some hk
  simp only [Bool.not_eq_true', List.any_eq_false, beq_iff_eq] at hfree
  exact ⟨hmem, hfree⟩

/-! ## COMP_JOB and COMP_JOB_CANCEL -/

theorem jobOf_new {r : Req} (h : bit (r.u8 6) 1 = false) (s : State) : jobOf r s = {
    ref := ⟨0, 0, 0, 0, 0⟩, unit := s.chooseUnit (r.u8 0), op := r.u8 1, mode := r.u8 2, format := r.u8 3, srcKind := r.u8 4
    window := r.u8 5, chain := bit (r.u8 6) 0, block := r.u32 8, src := r.u64 16, srcLen := r.u64 24, dst := r.u64 32
    dstCap := r.u64 40, slot := s.freeJobSlot.getD 0, sketch := (s.win (r.u8 5)).sketch } :=
  if_neg (by rw [show resumes r = false from h]; exact Bool.false_ne_true)

theorem jobOf_resumed {r : Req} {s : State} {j : Job} (h : bit (r.u8 6) 1 = true) (hj : s.tokenJob (r.u32 12) = some j) :
    jobOf r s = { j with unit := 0, dst := r.u64 32, dstCap := r.u64 40, uncorr := 0 } := by
  unfold jobOf
  rw [if_pos (show resumes r = true from h), hj]

/-- A job joins the queue of its unit; a sketch that it reads is being dumped. -/
def queueJob (j : Job) (s : State) : State :=
  let t := s.setJobQueue j.unit (s.jobQueue j.unit ++ [j])
  if j.srcKind = 1 then t.setWin j.window { t.win j.window with state := .dumping } else t

theorem compJob_new {r : Req} {s : State} (h : bit (r.u8 6) 1 = false) : opCompJob.effect r s =
    (queueJob { jobOf r s with ref := (takeJob 0x0803 r s).1 } (takeJob 0x0803 r s).2, ansAccepted (takeJob 0x0803 r s).1.slot) := by
  simp only [opCompJob, show resumes r = false from h]
  rfl

theorem compJob_resumed {r : Req} {s : State} (h : bit (r.u8 6) 1 = true) : opCompJob.effect r s =
    (queueJob { jobOf r s with ref := (takeJob 0x0803 r s).1 } ((takeJob 0x0803 r s).2.setJobStopped (jobOf r s).slot none []),
      ansAccepted (takeJob 0x0803 r s).1.slot) := by
  simp only [opCompJob, show resumes r = true from h]
  rfl

theorem queueJob_eq (j : Job) (s : State) : queueJob j s =
    { s with
      comp := { s.comp with queues := tset [] s.comp.queues j.unit (s.jobQueue j.unit ++ [j]) }
      cap := if j.srcKind = 1 then
        { s.cap with windows := tset {} s.cap.windows j.window { s.win j.window with state := .dumping } } else s.cap } := by
  unfold queueJob
  dsimp only
  split <;> rfl

/-- The end of a dump that does not release its sketch frees the window at most. -/
theorem dumpEnded_kept (n : Nat) (s : State) : ∃ w, dumpEnded n false s = s ∨ dumpEnded n false s = s.setWin n w := by
  unfold dumpEnded
  split
  · exact ⟨{}, .inl rfl⟩
  · exact ⟨_, .inr rfl⟩

/-- A job is completed and, where it reads a sketch, a dump ends. -/
def jobDone (j : Job) (payload : Bytes) (s : State) : State :=
  let s := complete j.ref 0 0 payload s
  if j.srcKind = 1 then dumpEnded j.window false s else s

/-- What the end of a job leaves. -/
structure JobDone (j : Job) (payload : Bytes) (s t : State) : Prop where
  keeps : Keeps [.hcp, .cap] s t
  emitted : t.emitted = s.emitted
  log : t.hcp.log = (complete j.ref 0 0 payload s).hcp.log
  held : t.hcp.held = (complete j.ref 0 0 payload s).hcp.held
  cap : j.srcKind ≠ 1 → t.cap = s.cap

theorem jobDone_done (j : Job) (p : Bytes) (s : State) : JobDone j p s (jobDone j p s) := by
  have hc := complete_hcp j.ref 0 0 p s
  unfold jobDone
  dsimp only
  generalize ht : complete j.ref 0 0 p s = t at hc ⊢
  have hlog : t.hcp.log = (complete j.ref 0 0 p s).hcp.log := by rw [ht]
  have hheld : t.hcp.held = (complete j.ref 0 0 p s).hcp.held := by rw [ht]
  have hk : Keeps [.hcp, .cap] s t := hc.keeps.weaken (by simp)
  split
  · next hs =>
    obtain ⟨w, hw | hw⟩ := dumpEnded_kept j.window t
    · rw [hw]; exact ⟨hk, hc.emitted, hlog, hheld, fun h => absurd hs h⟩
    · rw [hw]; exact ⟨hk.trans ((setWin_keeps _ _ _).weaken (by simp)), hc.emitted, hlog, hheld, fun h => absurd hs h⟩
  · exact ⟨hk, hc.emitted, hlog, hheld, fun _ => hc.cap⟩

theorem JobDone.told {j : Job} {p : Bytes} {s x t : State} (h : JobDone j p x t) (hh : x.hears j.ref)
    (hs : (x.mb j.ref.mb).hubSeq = (s.mb j.ref.mb).hubSeq) (hv : (x.mb j.ref.mb).version = (s.mb j.ref.mb).version) :
    Told j.ref 0 0 p s t := (complete_told hh hs hv 0 0 p).keeps (logKeeps_of_log h.log)

theorem hears_of {j : JobRef} {s x : State} (hf : x.fwRuns = s.fwRuns) (hm : x.hcp.mbs = s.hcp.mbs) (h : s.hears j) : x.hears j := by
  obtain ⟨h1, h2, h3⟩ := h
  refine ⟨hf.trans h1, ?_, h3⟩
  unfold State.mb
  rw [hm]
  exact h2

theorem Told.completed {j : JobRef} {st d : Nat} {p : Bytes} {s t : State} (h : Told j st d p s t) : Completed j st d s t := by
  obtain ⟨x, hx, hm, hq, hp, hf⟩ := h
  exact ⟨x, hx, hm, hp, p, by rw [hq]; exact hf⟩

theorem setJobQueue_keeps (u : Nat) (q : List Job) (s : State) : Keeps [.comp] s (s.setJobQueue u q) := .of_parts

theorem leaveUnit_eq (j : Job) (p : Bytes) (s : State) : leaveUnit j p s = jobDone j p (s.setJobRunning j.unit none) := rfl

theorem cancelQueued_eq (j : Job) (s : State) : cancelQueued j s = jobDone j (jobPayload 3 0 j.unit 0 j.base 0 0 0 0 0 j.uncorr)
    (s.setJobQueue j.unit ((s.jobQueue j.unit).filter fun x => x.ref != j.ref)) := rfl

theorem cancelQueued_effect {r : Req} {s : State} {j : Job} (hc : r.u8 0 ≠ 255)
    (h : (s.comp.queues.flatMap (·.2)).find? (Job.named (r.u8 0) (r.u32 4)) = some j) :
    opCompJobCancel.effect r s = (cancelQueued j s, ansDone []) := by
  refine (if_neg hc).trans ?_
  rw [h]

theorem cancelRunning_effect {r : Req} {s : State} {j : Job} (hc : r.u8 0 ≠ 255)
    (hq : (s.comp.queues.flatMap (·.2)).find? (Job.named (r.u8 0) (r.u32 4)) = none)
    (h : (s.comp.running.filterMap (·.2)).find? (Job.named (r.u8 0) (r.u32 4)) = some j) :
    opCompJobCancel.effect r s = (s.setJobRunning j.unit (some { j with cancelled := true }), ansDone []) := by
  refine (if_neg hc).trans ?_
  rw [hq]
  dsimp only
  rw [h]

/-! ## COMP_JOB_STATUS -/

theorem jobStatus_effect {r : Req} {s t : State} {p : Bytes} (h : jobSoFar s (r.u8 0) (r.u32 4) = some (p, t)) :
    opCompJobStatus.effect r s = (t, ansDone p) := by
  show (match jobSoFar s (r.u8 0) (r.u32 4) with
    | some (p, s) => (s, ansDone p)
    | none => (s, ansState s)) = _
  rw [h]

theorem jobSoFar_queued {s : State} {mb seq : Nat} {j : Job}
    (h : (s.comp.queues.flatMap (·.2)).find? (Job.named mb seq) = some j) :
    jobSoFar s mb seq = some (jobPayload 0xFF 0 j.unit 0 j.base 0 0 0 0 0 j.uncorr, s) := by
  unfold jobSoFar
  rw [h]

theorem jobSoFar_running {s : State} {mb seq : Nat} {j : Job}
    (hq : (s.comp.queues.flatMap (·.2)).find? (Job.named mb seq) = none)
    (h : (s.comp.running.filterMap (·.2)).find? (Job.named mb seq) = some j) :
    jobSoFar s mb seq = some (jobPayload 0xFF 0 j.unit 0 (Config.freeWord s.freeCount).toNat
      (Config.freeWord (s.freeCount + 1)).toNat (Config.freeWord (s.freeCount + 2)).toNat
      (Config.freeWord (s.freeCount + 3)).toNat 0 0 j.uncorr, { s with freeCount := s.freeCount + 4 }) := by
  unfold jobSoFar
  rw [hq]
  dsimp only
  rw [h]
  rfl

theorem jobSoFar_stopped {s : State} {mb seq : Nat} {j : Job}
    (hq : (s.comp.queues.flatMap (·.2) ++ s.comp.running.filterMap (·.2)).find? (Job.named mb seq) = none)
    (h : (s.comp.stopped.filterMap (·.2)).find? (Job.named mb seq) = some j) :
    jobSoFar s mb seq = some (tget [] s.comp.stops j.slot, s) := by
  rw [List.find?_append, Option.or_eq_none_iff] at hq
  unfold jobSoFar
  rw [hq.1]
  dsimp only
  rw [hq.2]
  dsimp only
  rw [h]

theorem jobStart_begins {u : Nat} {s : State} {j : Job} {js : List Job} (hr : s.jobRunning u = none) (hq : s.jobQueue u = j :: js)
    (hi : s.inReset 10 u = false) : jobStart u s = (s.setJobQueue u js).setJobRunning u (some j) := by
  unfold jobStart
  rw [hr, hq]
  exact if_neg (by rw [hi]; exact Bool.false_ne_true)

/-! ## The end of a running job (R320, R321) -/

/-- What reading a record leaves: upsets counted and corrected, and calm fault events. -/
structure LinesMet (s t : State) : Prop where
  only : t = { s with flt := t.flt }
  blocks : t.flt.blocks = s.flt.blocks
  runs : t.fwRuns = s.fwRuns
  calm : (∀ d ∈ s.flt.detected, d.Calm) → ∀ d ∈ t.flt.detected, d.Calm

theorem LinesMet.refl (s : State) : LinesMet s s := ⟨rfl, rfl, rfl, id⟩

theorem LinesMet.trans {s t u : State} (h : LinesMet s t) (k : LinesMet t u) : LinesMet s u where
  only := by
    have h' := h.only
    have k' := k.only
    rw [k', h']
  blocks := k.blocks.trans h.blocks
  runs := k.runs.trans h.runs
  calm hc := k.calm (h.calm hc)

theorem LinesMet.keeps {s t : State} (h : LinesMet s t) : Keeps [.flt] s t := by
  have := h.only
  rw [this]
  exact .of_parts

theorem calm_concat {ds : List Detected} {d : Detected} (hd : d.Calm) (h : ∀ x ∈ ds, x.Calm) : ∀ x ∈ ds ++ [d], x.Calm := by
  intro x hx
  rcases List.mem_append.mp hx with hx | hx
  · exact h x hx
  · rw [List.mem_singleton.mp hx]; exact hd

theorem countCorrected_met (g n : Nat) (s : State) : LinesMet s (countCorrected g n s) := ⟨rfl, rfl, rfl, id⟩

theorem repairLine_met (g a : Nat) (s : State) : LinesMet s (countOuter g (s.setUpset g a {})) := ⟨rfl, rfl, rfl, id⟩

theorem raise_met {b n u : Nat} (hb : b < 17) (hn : n < 64) (hp : ¬ (b = 3 ∧ n = 3)) (s : State) : LinesMet s (raise b n u s) :=
  ⟨rfl, rfl, rfl, calm_concat ⟨hb, hn, hp⟩⟩

theorem raiseLine_met {b n u : Nat} (line : UncorrLine) (hb : b < 17) (hn : n < 64) (hp : ¬ (b = 3 ∧ n = 3)) (s : State) :
    LinesMet s (raiseLine b n u line s) := ⟨rfl, rfl, rfl, calm_concat ⟨hb, hn, hp⟩⟩

/-- A line of the capture memory that a controller reads: its events are the controller's own (R22). -/
theorem meetLine_met (a : Nat) (line : UncorrLine) (s : State) : LinesMet s (meetLine 0 a line s) := by
  have hcount := countCorrected_met 0 (fixedWords (s.upset 0 a) 0) s
  unfold meetLine
  dsimp only
  split
  · exact hcount
  · exact hcount.trans ((repairLine_met 0 a _).trans (raise_met (by decide) (by decide) (by decide) _))
  · exact hcount.trans (raiseLine_met line (by simp [lineSource]) (by simp [lineSource]) (by simp [lineSource]) _)

theorem meetRecord_met (n off len : Nat) (s : State) : LinesMet s (meetRecord n off len s).2 := by
  unfold meetRecord
  dsimp only
  refine List.foldlRecOn _ _ (motive := fun acc : Nat × State => LinesMet s acc.2) (LinesMet.refl s) fun acc h a _ => ?_
  split
  · exact h.trans (meetLine_met ..)
  · exact h

/-- Where no line is upset, reading a record meets none. -/
theorem meetRecord_none (n off len : Nat) {s : State} (h : s.flt.upsets = []) : meetRecord n off len s = (0, s) := by
  unfold meetRecord State.upsetLines
  rw [h]
  rfl

/-- What a job's source gives, and the lines that reading it meets. -/
def jobSource (j : Job) (host : Bytes) (s : State) : Bytes :=
  if j.srcKind = 1 then recordRange s j.window (j.src + j.base) (j.srcLen - j.base) else sub host j.base (j.srcLen - j.base)

def jobMeets (j : Job) (s : State) : Nat × State :=
  if j.srcKind = 1 then meetRecord j.window (j.src + j.base) (j.srcLen - j.base) s else (0, s)

theorem jobMeets_met (j : Job) (s : State) : LinesMet s (jobMeets j s).2 := by
  unfold jobMeets
  split
  · exact meetRecord_met ..
  · exact .refl s

/-- The generation of a state slot's token after a stop. -/
def State.nextGen (s : State) (n : Nat) : Nat := (s.jobGen n + 1) % 2 ^ 28

/-- The completion payload of a job that its source, its destination or an error ends (Table ASC-11). -/
def endPayload (u : Nat) (j : Job) (x : JobRun) (gen : Nat) : Bytes :=
  jobPayload (if x.stop = 1 then 1 else if x.stop = 2 then 2 else 0) (if x.stop = 2 then x.code else 0) u
    (if x.stop = 1 then j.slot + 16 * gen else 0) (j.base + x.consumed) x.out.length x.blocks x.stored
    (if x.stop = 2 then j.base + x.consumed else 0) (if x.stop = 2 then x.bit else 0) j.uncorr

/-- A job's output in host memory. -/
def hostOut (j : Job) (x : JobRun) (s : State) : State := if x.out.isEmpty then s else s.emit (.hostWrite j.dst x.out)

/-- A job that did not reach its end keeps its slot, with a new token (R322). -/
def keepStopped (u : Nat) (j : Job) (x : JobRun) (s : State) : State :=
  if x.stop = 1 then
    ({ s with comp := { s.comp with gens := tset 0 s.comp.gens j.slot (s.nextGen j.slot) } } : State).setJobStopped j.slot
      (some { j with base := j.base + x.consumed, history := x.history }) (endPayload u j x (s.nextGen j.slot))
  else s

theorem hostOut_comp (j : Job) (x : JobRun) (s : State) : (hostOut j x s).comp = s.comp := by unfold hostOut; split <;> rfl

theorem hostOut_hcp (j : Job) (x : JobRun) (s : State) : (hostOut j x s).hcp = s.hcp := by unfold hostOut; split <;> rfl

theorem hostOut_keeps (j : Job) (x : JobRun) (s : State) : Keeps [] s (hostOut j x s) := by
  unfold hostOut
  split
  · exact .refl _ s
  · exact .of_parts

theorem hostOut_emits {j : Job} {x : JobRun} (h : x.out ≠ []) (s : State) : .hostWrite j.dst x.out ∈ (hostOut j x s).emitted := by
  unfold hostOut
  rw [if_neg (by rw [List.isEmpty_iff]; exact h)]
  exact List.mem_append_right _ (List.mem_singleton_self _)

theorem keepStopped_comp (u : Nat) (j : Job) (x : JobRun) (s : State) : (keepStopped u j x s).comp = { s.comp with
    gens := if x.stop = 1 then tset 0 s.comp.gens j.slot (s.nextGen j.slot) else s.comp.gens
    stopped := if x.stop = 1 then tset none s.comp.stopped j.slot (some { j with
      base := j.base + x.consumed, history := x.history }) else s.comp.stopped
    stops := if x.stop = 1 then tset [] s.comp.stops j.slot (endPayload u j x (s.nextGen j.slot)) else s.comp.stops } := by
  unfold keepStopped
  by_cases h : x.stop = 1 <;> simp [h, State.setJobStopped]

theorem keepStopped_keeps (u : Nat) (j : Job) (x : JobRun) (s : State) : Keeps [.comp] s (keepStopped u j x s) := by
  unfold keepStopped
  split
  · exact .of_parts
  · exact .refl _ s

theorem keepStopped_emitted (u : Nat) (j : Job) (x : JobRun) (s : State) : (keepStopped u j x s).emitted = s.emitted := by
  unfold keepStopped; split <;> rfl

theorem hostOut_runs (j : Job) (x : JobRun) (s : State) : (hostOut j x s).fwRuns = s.fwRuns := by unfold hostOut; split <;> rfl

theorem keepStopped_runs (u : Nat) (j : Job) (x : JobRun) (s : State) : (keepStopped u j x s).fwRuns = s.fwRuns := by
  unfold keepStopped; split <;> rfl

theorem keepStopped_hcp (u : Nat) (j : Job) (x : JobRun) (s : State) : (keepStopped u j x s).hcp = s.hcp := by
  unfold keepStopped; split <;> rfl

/-- A job leaves its unit with what its run has given. -/
def finishJob (u : Nat) (j : Job) (x : JobRun) (s : State) : State :=
  let s := hostOut j x s
  let pay := fun (result error token eo eb : Nat) =>
    jobPayload result error u token (j.base + x.consumed) x.out.length x.blocks x.stored eo eb j.uncorr
  if j.cancelled then leaveUnit j (pay 3 0 0 0 0) s
  else if x.stop = 1 then
    let s := { s with comp := { s.comp with gens := tset 0 s.comp.gens j.slot (s.nextGen j.slot) } }
    let p := pay 1 0 (s.tokenOf j.slot) 0 0
    leaveUnit j p (s.setJobStopped j.slot (some { j with base := j.base + x.consumed, history := x.history }) p)
  else if x.stop = 2 then leaveUnit j (pay 2 x.code 0 (j.base + x.consumed) x.bit) s
  else leaveUnit j (pay 0 0 0 0 0) s

theorem finishJob_ends (u : Nat) {j : Job} (x : JobRun) (s : State) (hc : j.cancelled = false) : finishJob u j x s =
    leaveUnit j (endPayload u j x (s.nextGen j.slot)) (keepStopped u j x (hostOut j x s)) := by
  have hgen : (hostOut j x s).nextGen j.slot = s.nextGen j.slot := by unfold State.nextGen State.jobGen; rw [hostOut_comp]
  rw [← hgen]
  unfold finishJob
  generalize hostOut j x s = s
  dsimp only
  rw [if_neg (by rw [hc]; exact Bool.false_ne_true)]
  unfold keepStopped endPayload
  by_cases h1 : x.stop = 1
  · have htok : ({ s with comp := { s.comp with gens := tset 0 s.comp.gens j.slot (s.nextGen j.slot) } } : State).tokenOf j.slot =
        j.slot + 16 * s.nextGen j.slot := by
      unfold State.tokenOf State.jobGen
      rw [tget_tset_self]
    simp only [h1, if_true, htok, (by decide : ¬ ((1 : Nat) = 2)), if_false]
  · by_cases h2 : x.stop = 2
    · simp only [h2, (by decide : ¬ ((2 : Nat) = 1)), if_true, if_false]
    · simp only [h1, h2, if_false]

theorem finishJob_cancelled (u : Nat) {j : Job} (x : JobRun) (s : State) (hc : j.cancelled = true) :
    ∃ p, finishJob u j x s = leaveUnit j p (hostOut j x s) := ⟨_, if_pos hc⟩

/-- The job as it stands when it ends: with the uncorrectable lines that its last read met. -/
def endedJob (j : Job) (s : State) : Job := { j with uncorr := j.uncorr + (jobMeets j s).1 }

/-- What runs of a job that is not cancelled. -/
def endedRun (j : Job) (host : Bytes) (s : State) : JobRun :=
  runJob (endedJob j s) (j.srcLen - j.base + 1) (jobSource j host s)

theorem jobEnd_plain {u : Nat} {j : Job} {host : Bytes} {s : State} (hr : s.jobRunning u = some j) (hi : s.inReset 10 u = false)
    (hp : s.chip.pcieUp = true) (hc : j.cancelled = false) :
    jobEnd u host s = finishJob u (endedJob j s) (endedRun j host s) (jobMeets j s).2 := by
  have hgo : ¬ (s.inReset 10 u = true ∨ (!s.chip.pcieUp) = true) := by simp [hi, hp]
  obtain ⟨ref, unit, op, mode, format, srcKind, window, chain, block, src, srcLen, dst, dstCap, slot, sketch, uncorr, base, history,
    cancelled⟩ := j
  subst hc
  unfold jobEnd
  rw [hr]
  dsimp only
  rw [if_neg hgo]
  rfl

theorem jobEnd_cancelled {u : Nat} {j : Job} {host : Bytes} {s : State} (hr : s.jobRunning u = some j) (hi : s.inReset 10 u = false)
    (hp : s.chip.pcieUp = true) (hc : j.cancelled = true) :
    jobEnd u host s = finishJob u (endedJob j s)
      (runJob (endedJob j s) ((Config.freeWord (jobMeets j s).2.freeCount).toNat % ((endedRun j host s).blocks + 1)) (jobSource j host s))
      { (jobMeets j s).2 with freeCount := (jobMeets j s).2.freeCount + 1 } := by
  have hgo : ¬ (s.inReset 10 u = true ∨ (!s.chip.pcieUp) = true) := by simp [hi, hp]
  obtain ⟨ref, unit, op, mode, format, srcKind, window, chain, block, src, srcLen, dst, dstCap, slot, sketch, uncorr, base, history,
    cancelled⟩ := j
  subst hc
  unfold jobEnd
  rw [hr]
  dsimp only
  rw [if_neg hgo]
  rfl

theorem jobMeets_none (j : Job) {s : State} (h : s.flt.upsets = []) : jobMeets j s = (0, s) := by
  unfold jobMeets
  split
  · exact meetRecord_none _ _ _ h
  · rfl

/-- The end of a job whose source has no upset line. -/
theorem jobEnd_clean {u : Nat} {j : Job} {host : Bytes} {s : State} (hr : s.jobRunning u = some j) (hi : s.inReset 10 u = false)
    (hp : s.chip.pcieUp = true) (hc : j.cancelled = false) (hups : s.flt.upsets = []) {x : JobRun}
    (hx : runJob j (j.srcLen - j.base + 1) (jobSource j host s) = x) :
    jobEnd u host s = leaveUnit j (endPayload u j x (s.nextGen j.slot)) (keepStopped u j x (hostOut j x s)) := by
  have hj : endedJob j s = j := by unfold endedJob; rw [jobMeets_none j hups]; rfl
  rw [jobEnd_plain hr hi hp hc, jobMeets_none j hups, hj, show endedRun j host s = x by unfold endedRun; rw [hj, hx],
    finishJob_ends u x s hc]

/-- What a job that leaves its unit leaves of the hub. -/
structure UnitLeft (j : Job) (p : Bytes) (s t : State) : Prop where
  done : JobDone j p (s.setJobRunning j.unit none) t
  comp : t.comp = { s.comp with running := tset none s.comp.running j.unit none }
  keeps : Keeps [.hcp, .comp, .cap] s t

theorem setJobRunning_keeps (u : Nat) (j : Option Job) (s : State) : Keeps [.comp] s (s.setJobRunning u j) := .of_parts

theorem leaveUnit_left (j : Job) (p : Bytes) (s : State) : UnitLeft j p s (leaveUnit j p s) := by
  have hd := jobDone_done j p (s.setJobRunning j.unit none)
  rw [leaveUnit_eq]
  exact ⟨hd, hd.keeps .comp (by simp),
    ((setJobRunning_keeps _ _ _).weaken (by simp)).trans (hd.keeps.weaken (by simp))⟩

theorem UnitLeft.told {j : Job} {p : Bytes} {s t : State} (h : UnitLeft j p s t) (hh : s.hears j.ref) : Told j.ref 0 0 p s t :=
  h.done.told (hears_of rfl rfl hh) rfl rfl

theorem Told.of_hcp {j : JobRef} {st d : Nat} {p : Bytes} {s x t : State} (h : Told j st d p x t) (hm : x.hcp = s.hcp) :
    Told j st d p s t := by
  unfold Told State.mb at *
  rw [← hm]
  exact h

/-- What the end of a job that is not cancelled leaves of the hub. -/
structure JobEnded (u : Nat) (j : Job) (x : JobRun) (s t : State) : Prop where
  comp : t.comp = { s.comp with
    running := tset none s.comp.running u none
    gens := if x.stop = 1 then tset 0 s.comp.gens j.slot (s.nextGen j.slot) else s.comp.gens
    stopped := if x.stop = 1 then tset none s.comp.stopped j.slot (some { j with
      base := j.base + x.consumed, history := x.history }) else s.comp.stopped
    stops := if x.stop = 1 then tset [] s.comp.stops j.slot (endPayload u j x (s.nextGen j.slot)) else s.comp.stops }
  keeps : Keeps [.hcp, .comp, .cap] s t
  emits : x.out ≠ [] → .hostWrite j.dst x.out ∈ t.emitted
  cap : j.srcKind ≠ 1 → t.cap = s.cap
  told : s.hears j.ref → Told j.ref 0 0 (endPayload u j x (s.nextGen j.slot)) s t

theorem jobEnded_of {u : Nat} {j : Job} (hu : j.unit = u) (x : JobRun) (s : State) :
    JobEnded u j x s (leaveUnit j (endPayload u j x (s.nextGen j.slot)) (keepStopped u j x (hostOut j x s))) := by
  have hl := leaveUnit_left j (endPayload u j x (s.nextGen j.slot)) (keepStopped u j x (hostOut j x s))
  have hgen : (hostOut j x s).nextGen j.slot = s.nextGen j.slot := by unfold State.nextGen State.jobGen; rw [hostOut_comp]
  have hcomp := keepStopped_comp u j x (hostOut j x s)
  have hhcp := (keepStopped_hcp u j x (hostOut j x s)).trans (hostOut_hcp j x s)
  have hruns := (keepStopped_runs u j x (hostOut j x s)).trans (hostOut_runs j x s)
  have hk := ((hostOut_keeps j x s).weaken (ch' := [.comp]) (by simp)).trans (keepStopped_keeps u j x (hostOut j x s))
  have hem := keepStopped_emitted u j x (hostOut j x s)
  generalize leaveUnit j (endPayload u j x (s.nextGen j.slot)) (keepStopped u j x (hostOut j x s)) = t at hl ⊢
  generalize keepStopped u j x (hostOut j x s) = y at hl hcomp hhcp hruns hk hem
  rw [hgen, hostOut_comp] at hcomp
  refine ⟨?_, (hk.weaken (by simp)).trans hl.keeps, fun h => ?_, fun h => ?_, fun h => ?_⟩
  · have hleft := hl.comp
    rw [hu, hcomp] at hleft
    exact hleft
  · rw [hl.done.emitted]
    show _ ∈ y.emitted
    rw [hem]
    exact hostOut_emits h s
  · exact (hl.done.cap h).trans (hk .cap (by simp))
  · exact (hl.told (hears_of hruns (by rw [hhcp]) h)).of_hcp hhcp

/-! ## COMP_AUTO_EVAL (R313) -/

theorem foldl_add_map {α : Type} (f : α → Nat) : ∀ (xs : List α) (k : Nat), xs.foldl (fun k x => k + f x) k = k + (xs.map f).sum
  | [], k => by simp
  | x :: xs, k => by rw [List.foldl_cons, foldl_add_map f xs, List.map_cons, List.sum_cons, Nat.add_assoc]

/-- The original bytes of the blocks of the last second, and those that PRED-RICE has saved, or would have. -/
def lastBlocks (s : State) (n : Nat) : List (Nat × Nat × Nat) :=
  (s.cstream n).recent.filter fun x => decide (s.tick < x.1 + 1000000000)

def lastOrig (s : State) (n : Nat) : Nat := ((lastBlocks s n).map fun x => x.2.1).sum

def lastSaved (s : State) (n : Nat) : Nat := lastOrig s n - ((lastBlocks s n).map fun x => x.2.2).sum

def autoActive (s : State) (n : Nat) : Nat :=
  if lastOrig s n = 0 then (s.cstream n).active
  else if 2 * lastOrig s n ≤ 100 * lastSaved s n then 1 else if 100 * lastSaved s n < lastOrig s n then 0 else (s.cstream n).active

theorem compAutoEval_sets {n : Nat} {s : State} (hf : s.fwRuns = true) (he : (s.cstream n).enable = true)
    (hm : (s.cstream n).mode = 2) :
    NoticesOnly (s.setCstream n { s.cstream n with active := autoActive s n }) (compAutoEval n s) := by
  have heq : ∃ p, compAutoEval n s = if autoActive s n = (s.cstream n).active then
      s.setCstream n { s.cstream n with active := autoActive s n }
      else notify 0x0880 p (s.setCstream n { s.cstream n with active := autoActive s n }) := by
    unfold compAutoEval
    dsimp only
    rw [if_neg (by simp [hf, he, hm]), foldl_add_map, foldl_add_map, Nat.zero_add, Nat.zero_add]
    exact ⟨_, rfl⟩
  obtain ⟨p, hp⟩ := heq
  rw [hp]
  split
  · exact rfl
  · exact notify_noticesOnly ..

/-! ## The obligation -/

/-- Settles O44: the settings and the queues by each opcode's effect, the end of a job by what its run gives. -/
theorem compressionSettingsAndJobsAct : Obligations.CompressionSettingsAndJobsAct := by
  unfold Obligations.CompressionSettingsAndJobsAct
  refine ⟨?_, ?_, ?_, ?_, ?_, ?_, ?_, ?_, ?_, ?_, ?_, ?_, ?_, ?_, ?_⟩
  · intro s r h
    exact gives_of_op rfl h rfl .of_parts fun t F A => ⟨F.comp, A⟩
  · intro s r h
    cases hb : bit (r.u8 2) 0
    · refine gives_of_op rfl h (congrArg (fun x : State => (x, _)) (if_neg (by rw [hb]; exact Bool.false_ne_true))) .of_parts
        fun t F A => ⟨F.comp, A⟩
    · refine gives_of_op rfl h (congrArg (fun x : State => (x, _)) (if_pos hb)) .of_parts fun t F A => ⟨F.comp, A⟩
  · intro s r h hn
    have hslot : (s.judged opCompJob r).freeJobSlot.isSome = true := by
      have hhold := h.held (c := (decide (((s.judged opCompJob r).jobQueue (jobOf r (s.judged opCompJob r)).unit).length < 8) &&
        (resumes r || (s.judged opCompJob r).freeJobSlot.isSome) && ((jobOf r (s.judged opCompJob r)).srcKind != 1 ||
          (s.judged opCompJob r).dumpRoom), ansBusy)) (List.mem_singleton_self _)
      dsimp only at hhold
      rw [show resumes r = false from hn, Bool.false_or, Bool.and_eq_true, Bool.and_eq_true] at hhold
      exact hhold.1.2
    have heff := compJob_new (s := s.judged opCompJob r) hn
    rw [queueJob_eq, jobOf_new hn] at heff
    refine gives_of_op rfl h heff .of_parts fun t F A => ⟨?_, freeJobSlot_free hslot, F.comp, F.cap, A⟩
    exact (chooseUnit_least s (r.u8 0)).imp id id
  · intro s r j h hr hj
    have heff := compJob_resumed (s := s.judged opCompJob r) hr
    rw [queueJob_eq, jobOf_resumed hr (j := j) (by exact hj)] at heff
    exact gives_of_op rfl h heff .of_parts fun t F A => ⟨F.comp, F.cap, A⟩
  · intro s r j h hq
    exact reports_of_op rfl h (jobStatus_effect (s := s.judged opCompJobStatus r) (jobSoFar_queued hq))
  · intro s r j h hq hr
    exact gives_of_op rfl h (jobStatus_effect (s := s.judged opCompJobStatus r) (jobSoFar_running hq hr)) .of_parts fun t F A => A
  · intro s r j h hq hs
    exact reports_of_op rfl h (jobStatus_effect (s := s.judged opCompJobStatus r) (jobSoFar_stopped hq hs))
  · intro s r h hc
    exact gives_of_op rfl h (if_pos hc) .of_parts fun t F A => ⟨F.comp, A⟩
  · intro s r j h hc hq
    have hcomp : (s.taking opCompJobCancel r).comp = s.comp := taking_comp s opCompJobCancel r
    have heff := cancelQueued_effect (s := s.taking opCompJobCancel r) hc (j := j) (by rw [hcomp]; exact hq)
    have hd := jobDone_done j (jobPayload 3 0 j.unit 0 j.base 0 0 0 0 0 j.uncorr)
      ((s.taking opCompJobCancel r).setJobQueue j.unit (((s.taking opCompJobCancel r).jobQueue j.unit).filter fun x => x.ref != j.ref))
    rw [cancelQueued_eq] at heff
    have hk := (((taking_keeps s opCompJobCancel r).weaken (ch' := [.hcp, .comp, .cap]) (by simp)).trans
      ((setJobQueue_keeps j.unit (((s.taking opCompJobCancel r).jobQueue j.unit).filter fun x => x.ref != j.ref) _).weaken
        (by simp))).trans (hd.keeps.weaken (by simp))
    have hrun : s.fwRuns = true := ((Bool.and_eq_true ..).mp h.served).2
    obtain ⟨a, b, c, hm⟩ := taking_mb s opCompJobCancel r j.ref.mb
    refine gives_of_request_told rfl h heff (by decide) ((congrArg Flt.detected (hk .flt (by simp))).trans h.acted) ?_
      (by simp) (fun k => nomatch (show false = true from k)) hk fun t F A L => ⟨?_, fun hh => ?_, fun hs => ?_, A⟩
    · rw [hd.held, complete_held]
      · exact Nat.le_refl _
      · show (s.taking opCompJobCancel r).fwRuns = true
        rw [taking_hcp_only]
        exact hrun
    · refine F.comp.trans ((hd.keeps .comp (by simp)).trans ?_)
      show ({ (s.taking opCompJobCancel r).comp with queues := _ } : Comp) = _
      unfold State.jobQueue
      rw [hcomp]
    · exact (hd.told (s := s) (hears_taking hh ..) ((congrArg Mailbox.hubSeq hm).trans rfl)
        ((congrArg Mailbox.version hm).trans rfl)).keeps L
    · exact F.cap.trans ((hd.cap hs).trans (taking_cap s opCompJobCancel r))
  · intro s r j h hc hq hr
    exact gives_of_op rfl h (cancelRunning_effect (s := s.judged opCompJobCancel r) hc hq hr) .of_parts fun t F A => ⟨F.comp, A⟩
  · intro s u j js hInv hr hq hi
    exact gives_of_effect rfl (jobStart_begins (s := { s with emitted := [] }) hr hq hi) hInv.acted .of_parts fun t F => F.comp
  · intro s u j host hInv hr hu hi hp hc hups
    have hx : runJob j (j.srcLen - j.base + 1) (jobSource j host { s with emitted := [] }) =
        runJob j (j.srcLen - j.base + 1) (if j.srcKind = 1 then recordRange s j.window (j.src + j.base) (j.srcLen - j.base)
          else sub host j.base (j.srcLen - j.base)) := rfl
    have heff := jobEnd_clean (s := { s with emitted := [] }) hr hi hp hc hups hx
    dsimp only
    generalize runJob j (j.srcLen - j.base + 1) (if j.srcKind = 1 then recordRange s j.window (j.src + j.base) (j.srcLen - j.base)
      else sub host j.base (j.srcLen - j.base)) = x at heff ⊢
    have he := jobEnded_of hu x { s with emitted := [] }
    generalize leaveUnit j _ _ = y at heff he
    have hdet : y.flt.detected = [] := (congrArg Flt.detected (he.keeps .flt (by simp))).trans hInv.acted
    exact gives_of_effect rfl heff hdet he.keeps fun t F => ⟨fun h => F.emitted _ (he.emits h), F.comp.trans he.comp,
      fun h => (he.told h).keeps (logKeeps_of_log (by rw [F.hcp])), fun h => F.cap.trans (he.cap h)⟩
  · intro s u j host hInv hr hu hi hp hc hN
    have heff := jobEnd_plain (s := { s with emitted := [] }) (host := host) hr hi hp hc
    have hmet := jobMeets_met j { s with emitted := [] }
    rw [finishJob_ends _ _ _ (j := endedJob j { s with emitted := [] }) hc] at heff
    have he := jobEnded_of (u := u.val) (j := endedJob j { s with emitted := [] }) hu (endedRun j host { s with emitted := [] })
      (jobMeets j { s with emitted := [] }).2
    generalize endedRun j host { s with emitted := [] } = x at heff he
    generalize leaveUnit (endedJob j { s with emitted := [] }) _ _ = y at heff he
    generalize (jobMeets j { s with emitted := [] }).2 = m at hmet he
    have hcm : m.comp = s.comp := (congrArg State.comp hmet.only).trans rfl
    have hhm : m.hcp = s.hcp := (congrArg State.hcp hmet.only).trans rfl
    have hflt : y.flt = m.flt := he.keeps .flt (by simp)
    have hcomp := he.comp
    rw [hcm] at hcomp
    have hrunning : y.comp.running = tset none s.comp.running u none := by rw [hcomp]
    have hcalm : ∀ d ∈ y.flt.detected, d.Calm := by
      rw [hflt]
      exact hmet.calm (by rw [show ({ s with emitted := [] } : State).flt.detected = [] from hInv.acted]; simp)
    refine gives_of_calm rfl heff (noResets_of_blocks (by rw [hflt, hmet.blocks]) hN) hcalm
      ((hmet.keeps.weaken (by simp)).trans (he.keeps.weaken (by simp))) fun t F L _ _ => ⟨?_, ?_, fun v hv => ?_, fun hh => ?_⟩
    · unfold State.jobRunning
      rw [F.comp, hrunning, tget_tset_self]
    · rw [F.comp, hcomp]
    · unfold State.jobRunning
      rw [F.comp, hrunning, tget_tset_ne _ _ _ _ _ hv]
    · have hears : m.hears (endedJob j { s with emitted := [] }).ref := hears_of hmet.runs (by rw [hhm]) hh
      exact (((he.told hears).of_hcp hhm).keeps L).completed
  · intro s u j host hInv hr hu hi hp hc hN
    have heff := jobEnd_cancelled (s := { s with emitted := [] }) (host := host) hr hi hp hc
    have hmet := jobMeets_met j { s with emitted := [] }
    generalize runJob (endedJob j { s with emitted := [] }) _ _ = x at heff
    generalize (jobMeets j { s with emitted := [] }).2 = m at hmet heff
    obtain ⟨p, hfin⟩ := finishJob_cancelled u.val x { m with freeCount := m.freeCount + 1 }
      (j := endedJob j { s with emitted := [] }) hc
    rw [hfin] at heff
    have he := leaveUnit_left (endedJob j { s with emitted := [] }) p
      (hostOut (endedJob j { s with emitted := [] }) x { m with freeCount := m.freeCount + 1 })
    have hk := hostOut_keeps (endedJob j { s with emitted := [] }) x { m with freeCount := m.freeCount + 1 }
    have hrun := hostOut_runs (endedJob j { s with emitted := [] }) x { m with freeCount := m.freeCount + 1 }
    have hhcp := hostOut_hcp (endedJob j { s with emitted := [] }) x { m with freeCount := m.freeCount + 1 }
    generalize leaveUnit (endedJob j { s with emitted := [] }) _ _ = y at heff he
    generalize hostOut (endedJob j { s with emitted := [] }) x _ = w at he hk hrun hhcp
    have hdraw : Keeps [.free] m { m with freeCount := m.freeCount + 1 } := .of_parts
    have hcw : w.comp = s.comp := (hk .comp (by simp)).trans ((congrArg State.comp hmet.only).trans rfl)
    have hhw : w.hcp = s.hcp := hhcp.trans ((congrArg State.hcp hmet.only).trans rfl)
    have hflt : y.flt = m.flt := (he.keeps .flt (by simp)).trans (hk .flt (by simp))
    have hcomp := he.comp
    rw [hcw, show (endedJob j { s with emitted := [] }).unit = u from hu] at hcomp
    have hcalm : ∀ d ∈ y.flt.detected, d.Calm := by
      rw [hflt]
      exact hmet.calm (by rw [show ({ s with emitted := [] } : State).flt.detected = [] from hInv.acted]; simp)
    refine gives_of_calm rfl heff (noResets_of_blocks (by rw [hflt, hmet.blocks]) hN) hcalm
      ((((hmet.keeps.weaken (by simp)).trans (hdraw.weaken (by simp))).trans (hk.weaken (by simp))).trans (he.keeps.weaken (by simp)))
      fun t F L _ _ => ⟨F.comp.trans hcomp, fun hh => ?_⟩
    have hears : w.hears (endedJob j { s with emitted := [] }).ref := hears_of (hrun.trans hmet.runs) (by rw [hhw]) hh
    exact (((he.told hears).of_hcp hhw).keeps L).completed
  · intro s n hInv hf he hm
    have hset := compAutoEval_sets (s := { s with emitted := [] }) (n := n) hf he hm
    refine gives_of_effect rfl rfl ((congrArg Flt.detected (hset.hcpOnly.flt)).trans hInv.acted)
      (((setCstream_keeps _ _ _).weaken (by simp)).trans (hset.keeps.weaken (by simp))) fun t F => F.comp.trans ?_
    exact hset.hcpOnly.comp

end Sys2Proof.Machine
end

