-- ==== Sys2Proof/Proofs/Pipes.lean ====
section
/-! SUPPORT. Pipes: configuration, start, stop and status (R193, R223, R225-R228), which settle O37. -/

namespace Sys2Proof.Machine

set_option Elab.async false

/-! ## Changes that may raise calm fault events -/

/-- `t` is `s` but for the parts listed and for fault events that ask for no reset of themselves. -/
structure Calmly (ch : List Part) (s t : State) : Prop where
  keeps : Keeps (.flt :: ch) s t
  flt : t.flt = { s.flt with detected := t.flt.detected }
  calm : ∀ d ∈ t.flt.detected, d ∈ s.flt.detected ∨ d.Calm

theorem Calmly.refl (ch : List Part) (s : State) : Calmly ch s s := ⟨.refl _ s, rfl, fun _ h => .inl h⟩

theorem Calmly.trans {ch : List Part} {s t u : State} (h : Calmly ch s t) (k : Calmly ch t u) : Calmly ch s u := by
  refine ⟨h.keeps.trans k.keeps, ?_, fun d hd => (k.calm d hd).elim (h.calm d) .inr⟩
  have h' := h.flt
  have k' := k.flt
  rw [k', h']

theorem Calmly.of_keeps {ch : List Part} {s t : State} (h : Keeps ch s t) (hf : Part.flt ∉ ch := by decide) : Calmly ch s t := by
  have hflt : t.flt = s.flt := h .flt hf
  exact ⟨h.weaken fun p hp => List.mem_cons_of_mem _ hp, by rw [hflt], fun d hd => .inl (by rw [hflt] at hd; exact hd)⟩

theorem Calmly.weaken {ch ch' : List Part} {s t : State} (h : Calmly ch s t) (hs : ∀ p ∈ ch, p ∈ ch') : Calmly ch' s t :=
  ⟨h.keeps.weaken fun p hp => (List.mem_cons.mp hp).elim (fun e => e ▸ List.mem_cons_self) fun hp => List.mem_cons_of_mem _ (hs p hp),
    h.flt, h.calm⟩

theorem Calmly.forEach {α : Type} {ch : List Part} {f : α → State → State} (h : ∀ x s, Calmly ch s (f x s)) :
    ∀ (xs : List α) (s : State), Calmly ch s (forEach xs f s)
  | [], s => .refl ch s
  | x :: xs, s => (h x s).trans (Calmly.forEach h xs (f x s))

theorem raise_calmly {b n : Nat} (u : Nat) (hb : b < 17) (hn : n < 64) (hp : ¬ (b = 3 ∧ n = 3)) (s : State) :
    Calmly [] s (raise b n u s) := by
  refine ⟨raise_keeps b n u s, rfl, fun d hd => (List.mem_append.mp hd).imp id fun hd => ?_⟩
  rw [List.mem_singleton.mp hd]
  exact ⟨hb, hn, hp⟩

theorem Calmly.noResets {ch : List Part} {s t : State} (h : Calmly ch s t) (hN : s.NoResets) : t.NoResets :=
  noResets_of_blocks (by rw [h.flt]) hN

/-! ## Commands that act on each of a range of pipes -/

/-- A pipe and its stream stay as they are. -/
def SamePipe (k : Nat) (s t : State) : Prop := t.pipe k = s.pipe k ∧ t.stream k = s.stream k

theorem SamePipe.trans {k : Nat} {s t u : State} (h : SamePipe k s t) (g : SamePipe k t u) : SamePipe k s u :=
  ⟨g.1.trans h.1, g.2.trans h.2⟩

/-- What acts on one object, within a frame R, does so on each of several, where it leaves the others the same. -/
theorem forEach_each {f : Nat → State → State} {R : State → State → Prop} {same own : Nat → State → State → Prop}
    (hrefl : ∀ s, R s s) (htrans : ∀ s t u, R s t → R t u → R s u) (srefl : ∀ k s, same k s s)
    (strans : ∀ k s t u, same k s t → same k t u → same k s u) (hstep : ∀ p s, R s (f p s))
    (hother : ∀ p s k, k ≠ p → same k s (f p s)) (hown : ∀ p s, own p s (f p s))
    (hafter : ∀ p s t u, own p s t → R t u → same p t u → own p s u)
    (hbefore : ∀ p s t u, R s t → same p s t → own p t u → own p s u) :
    ∀ (ps : List Nat) (s : State), ps.Nodup →
      R s (forEach ps f s) ∧ (∀ k, k ∉ ps → same k s (forEach ps f s)) ∧ ∀ p ∈ ps, own p s (forEach ps f s)
  | [], s, _ => ⟨hrefl s, fun k _ => srefl k s, by simp⟩
  | q :: ps, s, hn => by
    obtain ⟨hq, hn⟩ := List.nodup_cons.mp hn
    obtain ⟨hR, hO, hW⟩ := forEach_each hrefl htrans srefl strans hstep hother hown hafter hbefore ps (f q s) hn
    have he : forEach (q :: ps) f s = forEach ps f (f q s) := rfl
    rw [he]
    refine ⟨htrans _ _ _ (hstep q s) hR, fun k hk => ?_, fun p hp => ?_⟩
    · obtain ⟨hkq, hk⟩ := not_or.mp fun h => hk (List.mem_cons.mpr h)
      exact strans _ _ _ _ (hother q s k hkq) (hO k hk)
    · rcases List.mem_cons.mp hp with rfl | hp
      · exact hafter p s _ _ (hown p s) hR (hO p hq)
      · exact hbefore p s _ _ (hstep q s) (hother q s p fun h => hq (h ▸ hp)) (hW p hp)

/-- As `forEach_each`, of pipes with their streams. -/
theorem forEach_pipes {f : Nat → State → State} {R : State → State → Prop} {own : Nat → State → State → Prop}
    (hrefl : ∀ s, R s s) (htrans : ∀ s t u, R s t → R t u → R s u) (hstep : ∀ p s, R s (f p s))
    (hother : ∀ p s k, k ≠ p → SamePipe k s (f p s)) (hown : ∀ p s, own p s (f p s))
    (hafter : ∀ p s t u, own p s t → R t u → SamePipe p t u → own p s u)
    (hbefore : ∀ p s t u, R s t → SamePipe p s t → own p t u → own p s u) (ps : List Nat) (s : State) (hn : ps.Nodup) :
    R s (forEach ps f s) ∧ (∀ k, k ∉ ps → SamePipe k s (forEach ps f s)) ∧ ∀ p ∈ ps, own p s (forEach ps f s) :=
  forEach_each (same := SamePipe) hrefl htrans (fun _ _ => ⟨rfl, rfl⟩) (fun _ _ _ _ => SamePipe.trans) hstep hother hown hafter hbefore ps s hn

theorem rangeOf_nodup (a n : Nat) : (rangeOf a n).Nodup := by
  unfold rangeOf
  exact List.nodup_range.map fun x y h => Nat.add_left_cancel h

theorem mem_rangeOf {a n p : Nat} : p ∈ rangeOf a n ↔ a ≤ p ∧ p < a + n := by
  unfold rangeOf
  rw [List.mem_map]
  constructor
  · rintro ⟨k, hk, rfl⟩
    have := List.mem_range.mp hk
    omega
  · rintro ⟨h1, h2⟩
    exact ⟨p - a, List.mem_range.mpr (by omega), by omega⟩

theorem not_mem_rangeOf {a n p : Nat} (h : p < a ∨ a + n ≤ p) : p ∉ rangeOf a n := by
  rw [mem_rangeOf]
  omega

/-! ## Placing, arming and starting -/

theorem placeStream_other {n k : Nat} (h : k ≠ n) (s : State) : (placeStream n s).stream k = s.stream k :=
  stream_setStream_ne _ _ h

theorem placeStream_pages (n : Nat) (s : State) : ((placeStream n s).stream n).pages = (s.stream n).pages := by
  unfold placeStream
  rw [stream_setStream_self]

theorem placeStreams (ps : List Nat) (s : State) (hn : ps.Nodup) :
    forEach ps placeStream s = { s with strm := (forEach ps placeStream s).strm } ∧
      (∀ k, k ∉ ps → SamePipe k s (forEach ps placeStream s)) ∧
      ∀ p ∈ ps, ((forEach ps placeStream s).stream p).pages = (s.stream p).pages :=
  forEach_pipes (f := placeStream) (R := fun s t => t = { s with strm := t.strm })
    (own := fun p s t => (t.stream p).pages = (s.stream p).pages)
    (fun _ => rfl) (fun _ _ _ h k => by rw [k, h]) (fun _ _ => rfl) (fun p s k hk => ⟨rfl, placeStream_other hk s⟩) placeStream_pages
    (fun p s t u h _ hs => by rw [hs.2]; exact h) (fun p s t u _ hs h => by rw [← hs.2]; exact h) ps s hn

/-- A scheduled start arms a pipe. -/
def armPipe (T : T16) (p : Nat) (s : State) : State := s.setPipe p { s.pipe p with state := .armed, startAt := T }

theorem armPipes (T : T16) (ps : List Nat) (s : State) (hn : ps.Nodup) :
    forEach ps (armPipe T) s = { s with pipes := (forEach ps (armPipe T) s).pipes } ∧
      (∀ k, k ∉ ps → SamePipe k s (forEach ps (armPipe T) s)) ∧
      ∀ p ∈ ps, (forEach ps (armPipe T) s).pipe p = { s.pipe p with state := .armed, startAt := T } :=
  forEach_pipes (f := armPipe T) (R := fun s t => t = { s with pipes := t.pipes })
    (own := fun p s t => t.pipe p = { s.pipe p with state := .armed, startAt := T }) (fun _ => rfl)
    (fun _ _ _ h k => by rw [k, h]) (fun _ _ => rfl) (fun p s k hk => ⟨pipe_setPipe_ne _ _ hk, rfl⟩)
    (fun p s => pipe_setPipe_self ..) (fun p s t u h _ hs => by rw [hs.1]; exact h) (fun p s t u _ hs h => by rw [← hs.1]; exact h)
    ps s hn

/-- A pipe that a start sets RUNNING, before it begins. -/
def Pipe.started (x : Pipe) (T : T16) : Pipe :=
  { x with
    state := .running, startAt := T, waiting := true, restart := false, nLast := none, epoch := 0, orWords := 0
    dcM := x.dcPreset, updates := [], lastM := 0, lastEval := 0 }

/-- The first sample of a pipe that starts at T: the channel's first at or after it. -/
def State.firstSample (s : State) (p : Nat) (T : T16) : Int :=
  max ((s.chan (s.pipe p).channel).indexAt (T : Rat)) (s.chan (s.pipe p).channel).kFirst

/-- What a start makes of a pipe that begins at once. -/
structure Began (p : Nat) (T : T16) (s : State) (x : Pipe) : Prop where
  state : x.state = .running
  waiting : x.waiting = false
  startK : x.startK = s.firstSample p T
  nFirst : x.nFirst = ceilR ((s.firstSample p T : Rat) / ratioOut (s.profA p).stages)
  nNext : x.nNext = x.nFirst
  lineNext : x.lineNext = s.firstSample p T
  line : x.line = []
  hist : x.hist = freshHist (s.profA p).stages x.nNext
  dcM : x.dcM = (s.pipe p).dcPreset

/-- The channel of a pipe delivers, and the engine of the pipes runs. -/
def State.delivers (s : State) (p : Nat) : Prop :=
  ((s.chan (s.pipe p).channel).state = .running ∨ (s.chan (s.pipe p).channel).state = .lost) ∧ s.inReset 6 0 = false

/-- What a start makes of a stream. -/
structure StreamBegan (x y : Stream) : Prop where
  state : y.state = .active
  credits : y.credits = x.pages
  discOwed : y.discOwed = true
  opened : y.opened = []
  queue : y.queue = []

theorem beginPipe_only (p : Nat) (s : State) : ∃ x, NoticesOnly (s.setPipe p x) (beginPipe p s) ∧
    ∀ T, (s.pipe p).startAt = T → (s.pipe p).state = .running → (s.pipe p).dcM = (s.pipe p).dcPreset → Began p T s x := by
  refine ⟨_, notify_noticesOnly _ _ _, ?_⟩
  rintro T rfl hs hd
  exact ⟨hs, rfl, rfl, rfl, rfl, rfl, rfl, rfl, hd⟩

theorem tryBegin_begins {p : Nat} {s : State} (hs : (s.pipe p).state = .running) (hw : (s.pipe p).waiting = true)
    (hd : s.delivers p) : tryBegin p s = beginPipe p s := by
  obtain ⟨hc, hr⟩ := hd
  unfold tryBegin State.pipesRun
  exact if_pos ⟨hs, hw, by rw [hr]; rfl, hc⟩

theorem tryBegin_waits {p : Nat} {s : State} (hd : ¬ s.delivers p) : tryBegin p s = s := by
  unfold tryBegin State.pipesRun
  refine if_neg fun h => hd ⟨h.2.2.2, ?_⟩
  simpa using h.2.2.1

/-- A pipe as a start leaves it before it begins, with its stream ACTIVE. -/
def setStarted (T : T16) (p : Nat) (s : State) : State := activateStream p (s.setPipe p ((s.pipe p).started T))

theorem startPipe_eq (T : T16) (p : Nat) (s : State) : startPipe p T s = tryBegin p (setStarted T p s) := rfl

theorem setStarted_keeps (T : T16) (p : Nat) (s : State) : Keeps [.hcp, .pipes, .strm] s (setStarted T p s) :=
  ((setPipe_keeps p _ s).weaken (by simp)).trans ((setStream_keeps p _ _).weaken (by simp))

theorem setStarted_pipes (T : T16) (p k : Nat) (s : State) :
    (setStarted T p s).pipe k = (s.setPipe p ((s.pipe p).started T)).pipe k := rfl

theorem setStarted_pipe (T : T16) (p : Nat) (s : State) : (setStarted T p s).pipe p = (s.pipe p).started T := by
  rw [setStarted_pipes, pipe_setPipe_self]

theorem setStarted_stream (T : T16) (p : Nat) (s : State) : StreamBegan (s.stream p) ((setStarted T p s).stream p) := by
  have he : (setStarted T p s).stream p = { s.stream p with
      state := .active, credits := (s.stream p).pages, discOwed := true, starved := false, creditFault := false, holdover := false
      opened := [], queue := [], packets := 0, bytes := 0, rewinds := 0, discarded := 0, unsettled := 0 } :=
    stream_setStream_self ..
  rw [he]
  exact ⟨rfl, rfl, rfl, rfl, rfl⟩

theorem setStarted_other {p k : Nat} (h : k ≠ p) (T : T16) (s : State) : SamePipe k s (setStarted T p s) :=
  ⟨by rw [setStarted_pipes, pipe_setPipe_ne _ _ h], stream_setStream_ne _ _ h⟩

theorem setStarted_delivers (T : T16) (p : Nat) (s : State) : (setStarted T p s).delivers p ↔ s.delivers p := by
  unfold State.delivers
  rw [setStarted_pipe]
  exact Iff.rfl

theorem setStarted_first (T : T16) (p : Nat) (s : State) : (setStarted T p s).firstSample p T = s.firstSample p T := by
  unfold State.firstSample
  rw [setStarted_pipe]
  rfl

theorem setStarted_profA (T : T16) (p : Nat) (s : State) : (setStarted T p s).profA p = s.profA p := by
  unfold State.profA
  rw [setStarted_pipe]
  rfl

/-- What a start makes of a pipe and its stream. -/
structure Started (T : T16) (p : Nat) (s t : State) : Prop where
  begun : s.delivers p → Began p T s (t.pipe p)
  waits : ¬ s.delivers p → t.pipe p = (s.pipe p).started T
  stream : StreamBegan (s.stream p) (t.stream p)

theorem Began.of {p : Nat} {T : T16} {s t : State} {x : Pipe} (h : Began p T t x) (hf : t.firstSample p T = s.firstSample p T)
    (hp : t.profA p = s.profA p) (hd : (t.pipe p).dcPreset = (s.pipe p).dcPreset) : Began p T s x := by
  obtain ⟨h1, h2, h3, h4, h5, h6, h7, h8, h9⟩ := h
  rw [hf] at h3 h4 h6
  rw [hp] at h4 h8
  rw [hd] at h9
  exact ⟨h1, h2, h3, h4, h5, h6, h7, h8, h9⟩

theorem startPipe_started (T : T16) (p : Nat) (s : State) : Keeps [.hcp, .pipes, .strm] s (startPipe p T s) ∧
    (∀ k, k ≠ p → SamePipe k s (startPipe p T s)) ∧ Started T p s (startPipe p T s) := by
  have hk := setStarted_keeps T p s
  have hpipe := setStarted_pipe T p s
  have hstream := setStarted_stream T p s
  rw [startPipe_eq]
  by_cases hd : s.delivers p
  · rw [tryBegin_begins (by rw [hpipe]; rfl) (by rw [hpipe]; rfl) ((setStarted_delivers T p s).mpr hd)]
    obtain ⟨x, hx, hb⟩ := beginPipe_only p (setStarted T p s)
    have hbegan := (hb T (by rw [hpipe]; rfl) (by rw [hpipe]; rfl) (by rw [hpipe]; rfl)).of (setStarted_first T p s)
      (setStarted_profA T p s) (by rw [hpipe]; rfl)
    have hpipes : (beginPipe p (setStarted T p s)).pipes = ((setStarted T p s).setPipe p x).pipes := hx.hcpOnly.pipes
    have hstrm : (beginPipe p (setStarted T p s)).strm = (setStarted T p s).strm := hx.hcpOnly.strm
    have hkx := (hk.trans ((setPipe_keeps p x _).weaken (by simp))).trans (hx.keeps.weaken (by simp))
    generalize beginPipe p (setStarted T p s) = t at hpipes hstrm hkx
    have hself : t.pipe p = x := by
      unfold State.pipe
      rw [hpipes]
      exact pipe_setPipe_self ..
    have hst : ∀ k, t.stream k = (setStarted T p s).stream k := fun k => by unfold State.stream; rw [hstrm]
    refine ⟨hkx, fun k hkp => ⟨?_, ?_⟩, ⟨fun _ => by rw [hself]; exact hbegan, fun h => absurd hd h, by rw [hst]; exact hstream⟩⟩
    · unfold State.pipe
      rw [hpipes]
      exact (pipe_setPipe_ne _ _ hkp).trans (setStarted_other hkp T s).1
    · rw [hst]
      exact (setStarted_other hkp T s).2
  · rw [tryBegin_waits fun h => hd ((setStarted_delivers T p s).mp h)]
    exact ⟨hk, fun k hkp => setStarted_other hkp T s, ⟨fun h => absurd h hd, fun _ => hpipe, hstream⟩⟩

/-- What a start looks at of a pipe is the same where the pipe, the channels, the profiles and the resets are. -/
theorem start_same {s t : State} {p : Nat} {T : T16} (hc : t.channels = s.channels) (hf : t.profiles = s.profiles)
    (hr : t.inReset 6 0 = s.inReset 6 0) (hp : t.pipe p = s.pipe p) :
    (t.delivers p ↔ s.delivers p) ∧ t.firstSample p T = s.firstSample p T ∧ t.profA p = s.profA p := by
  unfold State.delivers State.firstSample State.profA State.chan State.prof
  rw [hc, hf, hr, hp]
  exact ⟨Iff.rfl, rfl, rfl⟩

theorem inReset_of_flt {s t : State} (h : t.flt = s.flt) (b u : Nat) : t.inReset b u = s.inReset b u := by
  unfold State.inReset State.blk
  rw [h]

theorem startPipes (T : T16) (ps : List Nat) (s : State) (hn : ps.Nodup) :
    Keeps [.hcp, .pipes, .strm] s (forEach ps (fun p t => startPipe p T t) s) ∧
      (∀ k, k ∉ ps → SamePipe k s (forEach ps (fun p t => startPipe p T t) s)) ∧
      ∀ p ∈ ps, Started T p s (forEach ps (fun p t => startPipe p T t) s) := by
  refine forEach_pipes (R := Keeps [.hcp, .pipes, .strm]) (own := Started T) (.refl _) (fun _ _ _ => Keeps.trans)
    (fun p s => (startPipe_started T p s).1)
    (fun p s k hk => (startPipe_started T p s).2.1 k hk) (fun p s => (startPipe_started T p s).2.2) ?_ ?_ ps s hn
  · intro p s t u h _ hs
    exact ⟨fun hd => by rw [hs.1]; exact h.begun hd, fun hd => by rw [hs.1]; exact h.waits hd, by rw [hs.2]; exact h.stream⟩
  · intro p s t u hk hs h
    obtain ⟨hd, hf, hp⟩ := start_same (T := T) (hk .channels (by simp)) (hk .profiles (by simp))
      (inReset_of_flt (hk .flt (by simp)) 6 0) hs.1
    refine ⟨fun h' => (h.begun (hd.mpr h')).of hf hp (by rw [hs.1]), fun h' => ?_, by rw [← hs.2]; exact h.stream⟩
    rw [h.waits fun h'' => h' (hd.mp h''), hs.1]

/-! ## Stopping -/

theorem mem_tput_ne {α : Type} {x : Nat × α} {k : Nat} (v : α) (h : x.1 ≠ k) : ∀ {t : Tbl α}, x ∈ t → x ∈ tput t k v
  | y :: t, hx => by
    unfold tput
    split
    · exact List.mem_cons_of_mem _ hx
    · split
      · next hk =>
        rcases List.mem_cons.mp hx with rfl | hx
        · exact absurd hk.symm h
        · exact List.mem_cons_of_mem _ hx
      · rcases List.mem_cons.mp hx with rfl | hx
        · exact List.mem_cons_self
        · exact List.mem_cons_of_mem _ (mem_tput_ne v h hx)

/-- Setting an entry of a table leaves those of other keys in it. -/
theorem mem_tset_ne {α : Type} [DecidableEq α] {d v : α} {t : Tbl α} {x : Nat × α} {k : Nat} (h : x.1 ≠ k) (hx : x ∈ t) :
    x ∈ tset d t k v := by
  unfold tset
  split
  · exact List.mem_filter.mpr ⟨hx, by simpa using h⟩
  · exact mem_tput_ne v h hx

theorem mem_setPipe_pipes {s : State} {p : Nat} (y : Pipe) {x : Nat × Pipe} (hp : x.1 ≠ p) (hx : x ∈ s.pipes) :
    x ∈ (s.setPipe p y).pipes := mem_tset_ne hp hx

/-- What the windows make of a member that stops: their decisions, notices and a fault event of each (R290). -/
theorem memberStopped_calmly (source member : Nat) (s : State) : Calmly [.hcp, .cap, .upl] s (memberStopped source member s) := by
  unfold memberStopped
  refine .forEach (fun n t => ?_) _ s
  have hd : Calmly [.hcp, .cap, .upl] t (decideWindow n t) := .of_keeps (decideWindow_actsOn n t).keeps
  generalize decideWindow n t = u at hd
  dsimp only
  split
  · have hr : Calmly [.hcp, .cap, .upl] u (raise 8 1 n u) := (raise_calmly n (by decide) (by decide) (by decide) u).weaken (by simp)
    have hr := hd.trans hr
    split
    · exact hr.trans (.of_keeps ((freeze_keeps n 2 4 _).weaken (by simp)))
    · unfold sketchEvent
      exact hr.trans (.of_keeps (((setWin_keeps n _ _).weaken (by simp)).trans ((notify_hcp _ _ _).keeps.weaken (by simp))))
  · exact hd

/-- A pipe and its stream as a stop goes on with them: nothing of the others changes. -/
structure Stopping (p : Nat) (s t : State) : Prop where
  calm : Calmly [.hcp, .pipes, .strm, .cap, .cal, .upl] s t
  others : ∀ k, k ≠ p → SamePipe k s t
  entries : ∀ x ∈ s.pipes, x.1 ≠ p → x ∈ t.pipes
  state : (t.pipe p).state = (s.pipe p).state
  nNext : (t.pipe p).nNext = (s.pipe p).nNext
  stream : (t.stream p).state = (s.stream p).state

theorem Stopping.refl (p : Nat) (s : State) : Stopping p s s := ⟨.refl _ s, fun _ _ => ⟨rfl, rfl⟩, fun _ h _ => h, rfl, rfl, rfl⟩

theorem Stopping.trans {p : Nat} {s t u : State} (h : Stopping p s t) (k : Stopping p t u) : Stopping p s u :=
  ⟨h.calm.trans k.calm, fun n hn => (h.others n hn).trans (k.others n hn), fun x hx hp => k.entries x (h.entries x hx hp) hp,
    k.state.trans h.state, k.nNext.trans h.nNext, k.stream.trans h.stream⟩

theorem Stopping.of_parts {p : Nat} {s t : State} (h : Calmly [.hcp, .pipes, .strm, .cap, .cal, .upl] s t) (hp : t.pipes = s.pipes)
    (hs : t.strm = s.strm) : Stopping p s t := by
  have hpipe : ∀ k, t.pipe k = s.pipe k := fun k => by unfold State.pipe; rw [hp]
  have hstream : ∀ k, t.stream k = s.stream k := fun k => by unfold State.stream; rw [hs]
  exact ⟨h, fun k _ => ⟨hpipe k, hstream k⟩, fun x hx _ => by rw [hp]; exact hx, by rw [hpipe], by rw [hpipe], by rw [hstream]⟩

theorem Stopping.setPipe {p : Nat} {s : State} {x : Pipe} (hs : x.state = (s.pipe p).state) (hn : x.nNext = (s.pipe p).nNext) :
    Stopping p s (s.setPipe p x) :=
  ⟨.of_keeps ((setPipe_keeps p x s).weaken (by simp)), fun _ hk => ⟨pipe_setPipe_ne s x hk, rfl⟩,
    fun _ hx hp => mem_setPipe_pipes x hp hx, by rw [pipe_setPipe_self]; exact hs, by rw [pipe_setPipe_self]; exact hn, rfl⟩

theorem Stopping.setStream {p : Nat} {s : State} {x : Stream} (hs : x.state = (s.stream p).state) : Stopping p s (s.setStream p x) :=
  ⟨.of_keeps ((setStream_keeps p x s).weaken (by simp)), fun _ hk => ⟨rfl, stream_setStream_ne s x hk⟩,
    fun _ hx _ => hx, rfl, rfl,
    by rw [stream_setStream_self]; exact hs⟩

theorem setPipe_strm (n : Nat) (x : Pipe) (s : State) : (s.setPipe n x).strm = s.strm := rfl

/-- A completion of a job, or the end of its calendar entry. -/
theorem complete_stopping (p : Nat) (j : JobRef) (st d : Nat) (pay : Bytes) (s : State) : Stopping p s (complete j st d pay s) :=
  have h := complete_hcp j st d pay s
  .of_parts (.of_keeps (h.keeps.weaken (by simp))) h.pipes h.strm

theorem setCal_stopping (p : Nat) (c : Calendar) (s : State) : Stopping p s { s with cal := c } :=
  .of_parts (.of_keeps (Keeps.weaken (ch := [.cal]) .of_parts (by simp))) rfl rfl

/-- The end of a pipe's swap leaves where the pipe is and the stop that it has been given. -/
theorem endSwap_stopping (p result : Nat) (s : State) :
    Stopping p s (endSwap p result s) ∧ ((endSwap p result s).pipe p).nLast = (s.pipe p).nLast := by
  unfold endSwap
  dsimp only
  cases (s.pipe p).swap with
  | none => exact ⟨.refl p s, rfl⟩
  | some w =>
    dsimp only
    have h1 : Stopping p s (s.setPipe p { s.pipe p with
      swap := none, bank := .loaded, histB := [], bRun := 0, fadeDone := 0, lastLanding := w.landing.getD (s.pipe p).lastLanding }) :=
      .setPipe rfl rfl
    have h2 := pipe_setPipe_self s p { s.pipe p with
      swap := none, bank := .loaded, histB := [], bRun := 0, fadeDone := 0, lastLanding := w.landing.getD (s.pipe p).lastLanding }
    generalize s.setPipe p { s.pipe p with
      swap := none, bank := .loaded, histB := [], bRun := 0, fadeDone := 0, lastLanding := w.landing.getD (s.pipe p).lastLanding } = y
      at h1 h2 ⊢
    have hlast : (y.pipe p).nLast = (s.pipe p).nLast := by rw [h2]
    have told : ∀ (j : JobRef) (pay : Bytes) (z : State), Stopping p y z → z.pipes = y.pipes →
        Stopping p s (complete j 0 0 pay z) ∧ ((complete j 0 0 pay z).pipe p).nLast = (s.pipe p).nLast := by
      intro j pay z hz hp
      refine ⟨h1.trans (hz.trans (complete_stopping ..)), ?_⟩
      unfold State.pipe at *
      rw [(complete_hcp j 0 0 pay z).pipes, hp]
      exact hlast
    cases w.job with
    | none => exact ⟨h1, hlast⟩
    | some j =>
      cases w.fire with
      | some f => exact told j _ y (.refl p y) rfl
      | none =>
        dsimp only
        split
        · exact told j _ _ (setCal_stopping p _ y) rfl
        · exact told j _ y (.refl p y) rfl

theorem closePacket_stopping (p : Nat) (s : State) : Stopping p s (closePacket p s) := .setStream rfl

theorem appendEos_stopping (p : Nat) (w : OutWord) (s : State) : Stopping p s (appendEos p w s) := .setStream rfl

theorem finishPipe_stopping (p : Nat) (s : State) : Stopping p s (finishPipe p s) ∧ ((finishPipe p s).pipe p).nLast = none := by
  have hclosed : Stopping p s (closePacket p (dropSwap p s)) :=
    (endSwap_stopping p (if (s.pipe p).bank = .fading then 2 else 1) s).1.trans (closePacket_stopping ..)
  unfold finishPipe
  generalize closePacket p (dropSwap p s) = y at hclosed ⊢
  have hended : Stopping p s (if (y.stream p).live then appendEos p (y.wordOf p (y.pipe p).nNext) y else y) := by
    split
    · exact hclosed.trans (appendEos_stopping ..)
    · exact hclosed
  dsimp only
  generalize (if (y.stream p).live then appendEos p (y.wordOf p (y.pipe p).nNext) y else y) = z at hended ⊢
  exact ⟨hended.trans (.setPipe rfl rfl), by rw [pipe_setPipe_self]⟩

/-- The last output whose grid instant lies before T. -/
def State.lastBefore (s : State) (p : Nat) (T : T16) : Int :=
  ceilR (((T : Rat) - (((s.chan (s.pipe p).channel).epoch * unitsPerSec : Nat) : Rat))
    * (((s.chan (s.pipe p).channel).fs : Rat) / ratioOut (s.profA p).stages) / (unitsPerSec : Rat)) - 1

/-- What a stop makes of a RUNNING pipe and its stream. -/
structure Stopped (T : T16) (p : Nat) (s t : State) : Prop where
  state : (t.pipe p).state = .draining
  nNext : (t.pipe p).nNext = (s.pipe p).nNext
  nLast : (t.pipe p).nLast =
    (if (s.pipe p).waiting = true ∨ s.lastBefore p T < (s.pipe p).nNext then none else some (s.lastBefore p T))
  stream : (s.stream p).state = .active → (t.stream p).state = .closing

/-- The output that a stop lets a pipe produce last. -/
def State.stopAt (s : State) (p : Nat) (T : T16) : Int :=
  if (s.pipe p).waiting then (s.pipe p).nNext - 1 else max (s.lastBefore p T) ((s.pipe p).nNext - 1)

theorem finishIfDone_stopping (p : Nat) (s : State) : Stopping p s (finishIfDone p s) ∧
    ∀ l, (s.pipe p).nLast = some l →
      ((finishIfDone p s).pipe p).nLast = if l < (s.pipe p).nNext then none else some l := by
  unfold finishIfDone
  dsimp only
  cases hl : (s.pipe p).nLast with
  | none => exact ⟨.refl p s, fun l h => by cases h⟩
  | some l =>
    dsimp only
    obtain ⟨hf, hn⟩ := finishPipe_stopping p s
    by_cases hlt : l < (s.pipe p).nNext
    · rw [if_pos hlt]
      refine ⟨hf, fun k hk => ?_⟩
      cases hk
      rw [if_pos hlt, hn]
    · rw [if_neg hlt]
      refine ⟨.refl p s, fun k hk => ?_⟩
      cases hk
      rw [if_neg hlt, hl]

/-- The first part of a stop: the pipe is DRAINING, its windows see it, its stream closes. -/
def drainPipe (p : Nat) (T : T16) (s : State) : State :=
  let t := memberStopped 2 p (s.setPipe p { s.pipe p with state := .draining, nLast := some (s.stopAt p T) })
  t.setStream p { t.stream p with state := if (t.stream p).state = .active then .closing else (t.stream p).state }

/-- The second part: a swap whose entry has not fired now ends. -/
def dropOldSwap (w : Option Swap) (p : Nat) (s : State) : State :=
  match w with
  | some w => if w.fire.any (fun f => f.time == s.now) then s else dropSwap p s
  | none => s

theorem stopPipe_eq {p : Nat} {T : T16} {s : State} (h : (s.pipe p).state = .running) :
    stopPipe p T s = finishIfDone p (dropOldSwap (s.pipe p).swap p (drainPipe p T s)) := by
  unfold stopPipe
  dsimp only
  rw [if_neg (by rw [h]; simp)]
  rfl

theorem dropOldSwap_stopping (w : Option Swap) (p : Nat) (s : State) :
    Stopping p s (dropOldSwap w p s) ∧ ((dropOldSwap w p s).pipe p).nLast = (s.pipe p).nLast := by
  unfold dropOldSwap
  cases w with
  | none => exact ⟨.refl p s, rfl⟩
  | some w =>
    dsimp only
    split
    · exact ⟨.refl p s, rfl⟩
    · exact endSwap_stopping ..

/-- The first part of a stop, as the windows see it. -/
theorem drainPipe_drains (p : Nat) (T : T16) (s : State) : Calmly [.hcp, .pipes, .strm, .cap, .cal, .upl] s (drainPipe p T s) ∧
    (∀ k, k ≠ p → SamePipe k s (drainPipe p T s)) ∧ (∀ x ∈ s.pipes, x.1 ≠ p → x ∈ (drainPipe p T s).pipes) ∧
    (drainPipe p T s).pipe p = { s.pipe p with state := .draining, nLast := some (s.stopAt p T) } ∧
    ((s.stream p).state = .active → ((drainPipe p T s).stream p).state = .closing) := by
  have hx := pipe_setPipe_self s p { s.pipe p with state := .draining, nLast := some (s.stopAt p T) }
  have hother := fun k (hk : k ≠ p) => pipe_setPipe_ne s { s.pipe p with state := .draining, nLast := some (s.stopAt p T) } hk
  have hset : Calmly [.hcp, .pipes, .strm, .cap, .cal, .upl] s
      (s.setPipe p { s.pipe p with state := .draining, nLast := some (s.stopAt p T) }) :=
    .of_keeps ((setPipe_keeps p _ s).weaken (by simp))
  have hstrm := setPipe_strm p { s.pipe p with state := .draining, nLast := some (s.stopAt p T) } s
  have hent : ∀ x ∈ s.pipes, x.1 ≠ p → x ∈ (s.setPipe p { s.pipe p with state := .draining, nLast := some (s.stopAt p T) }).pipes :=
    fun x hx hp => mem_setPipe_pipes _ hp hx
  unfold drainPipe
  dsimp only
  generalize s.setPipe p { s.pipe p with state := .draining, nLast := some (s.stopAt p T) } = y at hx hother hset hstrm hent ⊢
  have hm := memberStopped_calmly 2 p y
  generalize memberStopped 2 p y = z at hm ⊢
  have hpipes : z.pipes = y.pipes := hm.keeps .pipes (by simp)
  have hstrm : z.strm = s.strm := (hm.keeps .strm (by simp)).trans hstrm
  have hz : ∀ k, z.pipe k = y.pipe k := fun k => by unfold State.pipe; rw [hpipes]
  have hs : ∀ k, z.stream k = s.stream k := fun k => by unfold State.stream; rw [hstrm]
  refine ⟨(hset.trans (hm.weaken (by simp))).trans (.of_keeps ((setStream_keeps p _ z).weaken (by simp))), fun k hk => ⟨?_, ?_⟩,
    fun x hx hp => ?_, ?_, fun ha => ?_⟩
  · exact (hz k).trans (hother k hk)
  · exact (stream_setStream_ne _ _ hk).trans (hs k)
  · show x ∈ z.pipes
    rw [hpipes]
    exact hent x hx hp
  · exact (hz p).trans hx
  · rw [stream_setStream_self, hs]
    exact if_pos ha

theorem stopAt_last (s : State) (p : Nat) (T : T16) : (if s.stopAt p T < (s.pipe p).nNext then none else some (s.stopAt p T)) =
    (if (s.pipe p).waiting = true ∨ s.lastBefore p T < (s.pipe p).nNext then none else some (s.lastBefore p T)) := by
  unfold State.stopAt
  cases hw : (s.pipe p).waiting with
  | true => rw [if_pos rfl, if_pos (by omega), if_pos (.inl rfl)]
  | false =>
    rw [if_neg Bool.false_ne_true]
    by_cases hl : s.lastBefore p T < (s.pipe p).nNext
    · rw [if_pos (by omega), if_pos (.inr hl)]
    · rw [max_eq_left (by omega), if_neg hl, if_neg (by rintro (h | h); cases h; exact hl h)]

theorem stopPipe_stopped (T : T16) (p : Nat) (s : State) : Calmly [.hcp, .pipes, .strm, .cap, .cal, .upl] s (stopPipe p T s) ∧
    (∀ k, k ≠ p → SamePipe k s (stopPipe p T s)) ∧ (∀ x ∈ s.pipes, x.1 ≠ p → x ∈ (stopPipe p T s).pipes) ∧ ((s.pipe p).state = .running → Stopped T p s (stopPipe p T s)) := by
  by_cases hr : (s.pipe p).state = .running
  · obtain ⟨hc, ho, hent, hp, hs⟩ := drainPipe_drains p T s
    rw [stopPipe_eq hr]
    generalize drainPipe p T s = y at hc ho hent hp hs ⊢
    obtain ⟨hd, hdl⟩ := dropOldSwap_stopping (s.pipe p).swap p y
    generalize dropOldSwap (s.pipe p).swap p y = z at hd hdl ⊢
    obtain ⟨hf, hfl⟩ := finishIfDone_stopping p z
    have hall := hd.trans hf
    refine ⟨hc.trans hall.calm, fun k hk => (ho k hk).trans (hall.others k hk),
      fun x hx hp => hall.entries x (hent x hx hp) hp, fun _ => ⟨?_, ?_, ?_, fun ha => ?_⟩⟩
    · rw [hall.state, hp]
    · rw [hall.nNext, hp]
    · rw [hfl (s.stopAt p T) (by rw [hdl, hp]), hd.nNext, hp]
      exact stopAt_last s p T
    · exact hall.stream.trans (hs ha)
  · have he : stopPipe p T s = s := if_pos hr
    rw [he]
    exact ⟨.refl _ s, fun _ _ => ⟨rfl, rfl⟩, fun _ hx _ => hx, fun h => absurd h hr⟩

theorem stopPipes (T : T16) (ps : List Nat) (s : State) (hn : ps.Nodup) :
    Calmly [.hcp, .pipes, .strm, .cap, .cal, .upl] s (forEach ps (fun p t => stopPipe p T t) s) ∧
      (∀ k, k ∉ ps → SamePipe k s (forEach ps (fun p t => stopPipe p T t) s)) ∧
      ∀ p ∈ ps, (s.pipe p).state = .running → Stopped T p s (forEach ps (fun p t => stopPipe p T t) s) := by
  refine forEach_pipes (R := Calmly [.hcp, .pipes, .strm, .cap, .cal, .upl])
    (own := fun p s t => (s.pipe p).state = .running → Stopped T p s t) (.refl _) (fun _ _ _ => Calmly.trans)
    (fun p s => (stopPipe_stopped T p s).1) (fun p s k hk => (stopPipe_stopped T p s).2.1 k hk)
    (fun p s => (stopPipe_stopped T p s).2.2.2) ?_ ?_ ps s hn
  · intro p s t u h _ hs hr
    obtain ⟨h1, h2, h3, h4⟩ := h hr
    exact ⟨by rw [hs.1]; exact h1, by rw [hs.1]; exact h2, by rw [hs.1]; exact h3, fun ha => by rw [hs.2]; exact h4 ha⟩
  · intro p s t u hk hs h hr
    obtain ⟨h1, h2, h3, h4⟩ := h (by rw [hs.1]; exact hr)
    have hchan : t.channels = s.channels := hk.keeps .channels (by simp)
    have hprof : t.profiles = s.profiles := hk.keeps .profiles (by simp)
    have hlast : t.lastBefore p T = s.lastBefore p T := by
      unfold State.lastBefore State.profA State.chan State.prof
      rw [hs.1, hchan, hprof]
    rw [hs.1] at h2 h3
    rw [hlast] at h3
    exact ⟨h1, h2, h3, fun ha => h4 (by rw [hs.2]; exact ha)⟩

/-! ## The obligation -/

theorem pipe_of_pipes {s t : State} (h : t.pipes = s.pipes) (k : Nat) : t.pipe k = s.pipe k := by unfold State.pipe; rw [h]

theorem pipeStatusPayload_eq (s : State) (p : Nat) : pipeStatusPayload s p =
    le 2 p ++ le 1 (pipeCode (s.pipe p).state)
      ++ le 1 (mask [(s.pipe p).delayRange, s.varnished p, (s.pipe p).dcManual,
        (s.pipe p).state != .free && (s.chan (s.pipe p).channel).expired])
      ++ le 2 (if (s.pipe p).state = .free then 0xFFFF else (s.pipe p).channel) ++ le 2 (s.pipe p).satMask.toNat
      ++ le 4 (if (s.pipe p).state = .free then 0 else s.fout p)
      ++ le 4 (s.pipe p).satCount.toNat ++ leI 8 (s.pipe p).nFirst ++ leI 8 (s.pipe p).nNext ++ le 2 (s.pipe p).d
      ++ le 2 (s.pipe p).phi ++ le 4 (s.pipe p).orWords.toNat ++ leI 8 (s.pipe p).dcM ++ le 8 (s.pipe p).w.toNat
      ++ le 4 (s.pipe p).p.toNat ++ zeros 4 := by
  have hfree : ((s.pipe p).state == .free) = true ↔ (s.pipe p).state = .free := beq_iff_eq
  unfold pipeStatusPayload
  simp only [hfree]
  rfl

/-- Settles O37: the settings by the opcode's effect, a start and a stop pipe by pipe. -/
theorem pipesAreConfiguredStartedAndStopped : Obligations.PipesAreConfiguredStartedAndStopped := by
  unfold Obligations.PipesAreConfiguredStartedAndStopped
  refine ⟨?_, ?_, ?_, ?_, ?_, ?_, ?_⟩
  · intro s r h hc
    exact gives_of_op rfl h (if_neg hc) .of_parts fun t F A => ⟨F.pipes, A⟩
  · intro s r h hc
    refine gives_of_op rfl h (if_pos hc) .of_parts fun t F A => ⟨?_, ?_, fun k hk => ?_, A⟩
    · rw [pipe_of_pipes F.pipes, pipe_setPipe_self]; rfl
    · rw [pipe_of_pipes F.pipes, pipe_setPipe_self]; rfl
    · rw [pipe_of_pipes F.pipes, pipe_setPipe_ne _ _ hk]; rfl
  · intro s r h hs
    have hn := rangeOf_nodup (r.u16 0) (r.u16 2)
    obtain ⟨hplaced, hpo, -⟩ := placeStreams (rangeOf (r.u16 0) (r.u16 2)) (s.judged opPipeStart r) hn
    have heff : opPipeStart.effect r (s.judged opPipeStart r) = schedule 0x0502 6 (.pipeStart (r.u16 0) (r.u16 2)) r
        (forEach (rangeOf (r.u16 0) (r.u16 2)) (armPipe r.at_)
          (forEach (rangeOf (r.u16 0) (r.u16 2)) placeStream (s.judged opPipeStart r))) := if_pos hs
    rw [hplaced] at heff
    generalize (forEach (rangeOf (r.u16 0) (r.u16 2)) placeStream (s.judged opPipeStart r)).strm = a at heff
    obtain ⟨harmed, hao, harm⟩ := armPipes r.at_ (rangeOf (r.u16 0) (r.u16 2)) { s.judged opPipeStart r with strm := a } hn
    rw [harmed] at heff
    have hb : ∀ k, (forEach (rangeOf (r.u16 0) (r.u16 2)) (armPipe r.at_) { s.judged opPipeStart r with strm := a }).pipe k =
      tget {} (forEach (rangeOf (r.u16 0) (r.u16 2)) (armPipe r.at_) { s.judged opPipeStart r with strm := a }).pipes k := fun _ => rfl
    generalize (forEach (rangeOf (r.u16 0) (r.u16 2)) (armPipe r.at_) { s.judged opPipeStart r with strm := a }).pipes = b at heff hb
    refine gives_of_op rfl h heff .of_parts fun t F A => ⟨fun p hp hq => ?_, fun p hp => ?_, F.cal, A⟩
    · exact (pipe_of_pipes F.pipes p).trans ((hb p).symm.trans (harm p (mem_rangeOf.mpr ⟨hp, hq⟩)))
    · exact (pipe_of_pipes F.pipes p).trans ((hb p).symm.trans (hao p (not_mem_rangeOf hp)).1)
  · intro s r h hs
    have hn := rangeOf_nodup (r.u16 0) (r.u16 2)
    obtain ⟨hplaced, hpo, hpages⟩ := placeStreams (rangeOf (r.u16 0) (r.u16 2)) (s.judged opPipeStart r) hn
    have hstart := startPipes (s.now + 655360000) (rangeOf (r.u16 0) (r.u16 2))
      (forEach (rangeOf (r.u16 0) (r.u16 2)) placeStream (s.judged opPipeStart r)) hn
    have heff : opPipeStart.effect r (s.judged opPipeStart r) = (forEach (rangeOf (r.u16 0) (r.u16 2))
        (fun p t => startPipe p ((forEach (rangeOf (r.u16 0) (r.u16 2)) placeStream (s.judged opPipeStart r)).now + us10) t)
          (forEach (rangeOf (r.u16 0) (r.u16 2)) placeStream (s.judged opPipeStart r)), ansDone []) :=
      if_neg (by rw [hs]; exact Bool.false_ne_true)
    have hnow : (forEach (rangeOf (r.u16 0) (r.u16 2)) placeStream (s.judged opPipeStart r)).now + us10 = s.now + 655360000 := by
      rw [hplaced]
      rfl
    rw [hnow] at heff
    generalize forEach (rangeOf (r.u16 0) (r.u16 2)) placeStream (s.judged opPipeStart r) = y at hplaced hpo hpages hstart heff
    have hbase : Keeps [.strm] (s.judged opPipeStart r) y := by rw [hplaced]; exact .of_parts
    have hpipes : ∀ k, y.pipe k = s.pipe k := pipe_of_pipes (hbase .pipes (by simp))
    obtain ⟨hk, ho, hown⟩ := hstart
    generalize forEach (rangeOf (r.u16 0) (r.u16 2)) (fun p t => startPipe p (s.now + 655360000) t) y = z at hk ho hown heff
    have hkz : Keeps [.hcp, .pipes, .strm, .ledger] (s.judged opPipeStart r) z :=
      (hbase.weaken (by simp)).trans (hk.weaken (by simp))
    refine gives_of_op rfl h heff hkz (fun t F A => ⟨fun p hp hq => ?_, fun p hp => ?_, A⟩)
      (hq := (congrArg Flt.detected (hkz .flt (by simp))).trans h.acted)
    · have hmem := mem_rangeOf.mpr ⟨hp, hq⟩
      obtain ⟨hb, hw, hst⟩ := hown p hmem
      obtain ⟨hd, hf, hpa⟩ := start_same (s := s) (T := s.now + 655360000) (p := p) (hbase .channels (by simp))
        (hbase .profiles (by simp)) (inReset_of_flt (hbase .flt (by simp)) 6 0) (hpipes p)
      have hpages := hpages p hmem
      rw [pipe_of_pipes F.pipes, stream_of_strm F.strm]
      refine ⟨?_, hst.state, hst.credits.trans hpages, hst.discOwed, hst.opened, hst.queue⟩
      split
      · next hgo =>
        obtain ⟨h1, h2, h3, h4, h5, h6, h7, h8, h9⟩ := (hb (hd.mpr hgo)).of hf hpa (by rw [hpipes])
        exact ⟨h1, h2, h3, h4, h5, h6, h7, h8, h9⟩
      · next hno =>
        rw [hw fun hgo => hno (hd.mp hgo), hpipes]
        rfl
    · have hout := not_mem_rangeOf hp
      rw [pipe_of_pipes F.pipes, stream_of_strm F.strm]
      exact (hpo p hout).trans (ho p hout)
  · intro s r h hs
    exact gives_of_op rfl h (if_pos hs) .of_parts fun t F A => ⟨F.cal, A⟩
  · intro s r h hs hN
    have hn := rangeOf_nodup (r.u16 0) (r.u16 2)
    have heff : opPipeStop.effect r (s.judged opPipeStop r) = (forEach (rangeOf (r.u16 0) (r.u16 2))
        (fun p t => stopPipe p s.now t) (s.judged opPipeStop r), ansDone []) := if_neg (by rw [hs]; exact Bool.false_ne_true)
    have hrun : ∀ p ∈ rangeOf (r.u16 0) (r.u16 2), (s.pipe p).state = .running := by
      intro p hp
      have hall := List.all_eq_true.mp (h.state (List.mem_singleton_self _)) p hp
      unfold stopsPipe at hall
      rw [hs, Bool.false_and, Bool.false_and, Bool.or_false, beq_iff_eq] at hall
      exact hall
    obtain ⟨hk, ho, hown⟩ := stopPipes s.now (rangeOf (r.u16 0) (r.u16 2)) (s.judged opPipeStop r) hn
    generalize forEach (rangeOf (r.u16 0) (r.u16 2)) (fun p t => stopPipe p s.now t) (s.judged opPipeStop r) = z at hk ho hown heff
    refine gives_of_op_calm rfl h heff (hk.noResets hN) (fun d hd => (hk.calm d hd).resolve_left fun hd' => ?_)
      (hk.keeps.weaken (by simp)) fun t F A => ⟨fun p hp hq => ?_, fun p hp => ?_, A⟩
    · rw [show (s.judged opPipeStop r).flt.detected = [] from h.acted] at hd'
      cases hd'
    · have hmem := mem_rangeOf.mpr ⟨hp, hq⟩
      obtain ⟨h1, h2, h3, h4⟩ := hown p hmem (hrun p hmem)
      rw [pipe_of_pipes F.pipes, stream_of_strm F.strm]
      exact ⟨h1, h2, h3, h4⟩
    · rw [pipe_of_pipes F.pipes, stream_of_strm F.strm]
      exact ho p (not_mem_rangeOf hp)
  · intro s r h
    have hpay : pipeStatusPayload (s.judged opPipeStatus r) (r.u16 0) = pipeStatusPayload s (r.u16 0) := by
      rw [pipeStatusPayload_eq, pipeStatusPayload_eq, varnished_same (t := s.judged opPipeStatus r) (s := s) rfl rfl rfl]
      rfl
    have heff : opPipeStatus.effect r (s.judged opPipeStatus r) = ((s.judged opPipeStatus r).setPipe (r.u16 0)
        (if bit (r.u8 2) 0 then { s.pipe (r.u16 0) with rangeTold := false, delayRange := false, satCount := 0, satMask := 0 }
          else { s.pipe (r.u16 0) with rangeTold := false }), ansDone (pipeStatusPayload (s.judged opPipeStatus r) (r.u16 0))) := rfl
    rw [hpay, pipeStatusPayload_eq] at heff
    exact gives_of_op rfl h heff ((setPipe_keeps _ _ _).weaken (by simp)) fun t F A => ⟨F.pipes, A⟩

end Sys2Proof.Machine
end

