-- ==== Sys2Proof/Proofs/Channels.lean ====
section
/-! SUPPORT. Channels: binding, starting, stopping, the release of words, and the messages of digitisers (R165, R178, R187-R191), which
settle O36. -/

namespace Sys2Proof.Machine

set_option Elab.async false

theorem chan_setChan_self (s : State) (n : Nat) (x : Channel) : (s.setChan n x).chan n = x := tget_tset_self ..

theorem chan_setChan_ne (s : State) {n k : Nat} (x : Channel) (h : k ≠ n) : (s.setChan n x).chan k = s.chan k :=
  tget_tset_ne _ _ _ _ _ h

theorem setChan_keeps (n : Nat) (x : Channel) (s : State) : Keeps [.channels] s (s.setChan n x) := .of_parts

theorem chan_of_channels {s t : State} (h : t.channels = s.channels) (k : Nat) : t.chan k = s.chan k := by unfold State.chan; rw [h]

theorem chanPipes_of_pipes {s t : State} (h : t.pipes = s.pipes) (c : Nat) : t.chanPipes c = s.chanPipes c := by
  unfold State.chanPipes
  rw [h]

/-- As `forEach_each`, of channels. -/
theorem forEach_chans {f : Nat → State → State} {R : State → State → Prop} {own : Nat → State → State → Prop}
    (hrefl : ∀ s, R s s) (htrans : ∀ s t u, R s t → R t u → R s u) (hstep : ∀ p s, R s (f p s))
    (hother : ∀ p s k, k ≠ p → (f p s).chan k = s.chan k) (hown : ∀ p s, own p s (f p s))
    (hafter : ∀ p s t u, own p s t → R t u → u.chan p = t.chan p → own p s u)
    (hbefore : ∀ p s t u, R s t → t.chan p = s.chan p → own p t u → own p s u) (cs : List Nat) (s : State) (hn : cs.Nodup) :
    R s (forEach cs f s) ∧ (∀ k, k ∉ cs → (forEach cs f s).chan k = s.chan k) ∧ ∀ p ∈ cs, own p s (forEach cs f s) :=
  forEach_each (same := fun k s t => t.chan k = s.chan k) hrefl htrans (fun _ _ => rfl) (fun _ _ _ _ h k => k.trans h) hstep hother hown
    hafter hbefore cs s hn

/-! ## Arming and starting -/

/-- A scheduled start arms a channel. -/
def armChannel (T : T16) (c : Nat) (s : State) : State := s.setChan c { s.chan c with state := .armed, startAt := T }

theorem armChannels (T : T16) (cs : List Nat) (s : State) (hn : cs.Nodup) :
    forEach cs (armChannel T) s = { s with channels := (forEach cs (armChannel T) s).channels } ∧
      (∀ k, k ∉ cs → (forEach cs (armChannel T) s).chan k = s.chan k) ∧
      ∀ c ∈ cs, (forEach cs (armChannel T) s).chan c = { s.chan c with state := .armed, startAt := T } :=
  forEach_chans (f := armChannel T) (R := fun s t => t = { s with channels := t.channels })
    (own := fun c s t => t.chan c = { s.chan c with state := .armed, startAt := T }) (fun _ => rfl)
    (fun _ _ _ h k => by rw [k, h]) (fun _ _ => rfl) (fun c s k hk => chan_setChan_ne _ _ hk)
    (fun c s => chan_setChan_self ..) (fun c s t u h _ hs => by rw [hs]; exact h) (fun c s t u _ hs h => by rw [← hs]; exact h) cs s hn

theorem beginPipe_keeps (p : Nat) (s : State) : Keeps [.hcp, .pipes] s (beginPipe p s) := by
  obtain ⟨x, hx, -⟩ := beginPipe_only p s
  exact ((setPipe_keeps p x s).weaken (by simp)).trans (hx.keeps.weaken (by simp))

theorem tryBegin_keeps (p : Nat) (s : State) : Keeps [.hcp, .pipes] s (tryBegin p s) := by
  unfold tryBegin
  dsimp only
  split
  · exact beginPipe_keeps p s
  · exact .refl _ s

/-- A channel that a start sets RUNNING. -/
def Channel.started (c : Channel) (T : T16) : Channel :=
  { c with
    state := .running, startAt := T, kFirst := c.indexAt (T : Rat), kNext := c.indexAt (T : Rat), kLast := none, substituted := 0
    overRange := 0, substituting := false, arrived := [] }

theorem startChannel_starts (T : T16) (n : Nat) (s : State) : Keeps [.hcp, .channels, .pipes] s (startChannel n T s) ∧
    (∀ k, k ≠ n → (startChannel n T s).chan k = s.chan k) ∧
    ((s.chanLink n).state = .aligned → (startChannel n T s).chan n = (s.chan n).started T) := by
  unfold startChannel
  dsimp only
  generalize hx : ({ s.chan n with
    state := if (s.chanLink n).state = .aligned then .running else .lost
    startAt := T, kFirst := (s.chan n).indexAt (T : Rat), kNext := (s.chan n).indexAt (T : Rat), kLast := none, substituted := 0
    overRange := 0, substituting := false, arrived := [] } : Channel) = x
  have hk : Keeps [.hcp, .pipes] (s.setChan n x) (forEach (s.chanPipes n) tryBegin (s.setChan n x)) :=
    .forEach (fun p t => tryBegin_keeps p t) _ _
  have he : forEach ((s.setChan n x).chanPipes n) tryBegin (s.setChan n x) = forEach (s.chanPipes n) tryBegin (s.setChan n x) := rfl
  rw [he]
  generalize forEach (s.chanPipes n) tryBegin (s.setChan n x) = t at hk ⊢
  have hc := chan_of_channels (hk .channels (by simp))
  refine ⟨((setChan_keeps n x s).weaken (by simp)).trans (hk.weaken (by simp)), fun k hkn => ?_, fun ha => ?_⟩
  · rw [hc, chan_setChan_ne _ _ hkn]
  · rw [hc, chan_setChan_self, ← hx, if_pos ha]
    rfl

theorem chanLink_same {ch : List Part} {s t : State} {n : Nat} (hk : Keeps ch s t) (h1 : Part.jesds ∉ ch) (h2 : Part.bglIns ∉ ch)
    (h3 : Part.scps ∉ ch) (hc : t.chan n = s.chan n) : t.chanLink n = s.chanLink n := by
  have hj : t.jesds = s.jesds := hk .jesds h1
  have hb : t.bglIns = s.bglIns := hk .bglIns h2
  have hp : t.scps = s.scps := hk .scps h3
  unfold State.chanLink State.link State.jesd State.bglIn State.scp
  rw [hc, hj, hb, hp]

theorem startChannels (T : T16) (cs : List Nat) (s : State) (hn : cs.Nodup) :
    Keeps [.hcp, .channels, .pipes] s (forEach cs (fun c t => startChannel c T t) s) ∧
      (∀ k, k ∉ cs → (forEach cs (fun c t => startChannel c T t) s).chan k = s.chan k) ∧
      ∀ c ∈ cs, (s.chanLink c).state = .aligned → (forEach cs (fun c t => startChannel c T t) s).chan c = (s.chan c).started T :=
  forEach_chans (R := Keeps [.hcp, .channels, .pipes])
    (own := fun c s t => (s.chanLink c).state = .aligned → t.chan c = (s.chan c).started T) (.refl _) (fun _ _ _ => Keeps.trans)
    (fun c s => (startChannel_starts T c s).1) (fun c s k hk => (startChannel_starts T c s).2.1 k hk)
    (fun c s => (startChannel_starts T c s).2.2) (fun c s t u h _ hs ha => by rw [hs]; exact h ha)
    (fun c s t u hk hs h ha => by
      rw [← hs]
      exact h (by rw [chanLink_same hk (by simp) (by simp) (by simp) hs]; exact ha)) cs s hn

/-! ## Stopping -/

/-- No pipe starts to run, and of a pipe that runs no entry leaves the table. -/
structure Halts (s t : State) : Prop where
  halted : ∀ p, (s.pipe p).state ≠ .running → (t.pipe p).state ≠ .running
  entries : ∀ x ∈ s.pipes, (t.pipe x.1).state = .running → x ∈ t.pipes

theorem Halts.of_pipes {s t : State} (h : t.pipes = s.pipes) : Halts s t :=
  ⟨fun p hp => by rw [pipe_of_pipes h]; exact hp, fun x hx _ => by rw [h]; exact hx⟩

theorem Halts.refl (s : State) : Halts s s := .of_pipes rfl

theorem Halts.trans {s t u : State} (h : Halts s t) (k : Halts t u) : Halts s u := by
  refine ⟨fun p hp => k.halted p (h.halted p hp), fun x hx hr => k.entries x (h.entries x hx ?_) hr⟩
  by_contra hc
  exact k.halted _ hc hr

theorem Halts.forEach {α : Type} {f : α → State → State} (h : ∀ x s, Halts s (f x s)) :
    ∀ (xs : List α) (s : State), Halts s (forEach xs f s)
  | [], s => .refl s
  | x :: xs, s => (h x s).trans (Halts.forEach h xs (f x s))

theorem stopPipe_halts (T : T16) (p : Nat) (s : State) : Halts s (stopPipe p T s) ∧ ((stopPipe p T s).pipe p).state ≠ .running := by
  by_cases hr : (s.pipe p).state = .running
  · obtain ⟨-, ho, he, hs⟩ := stopPipe_stopped T p s
    have hd : ((stopPipe p T s).pipe p).state ≠ .running := by rw [(hs hr).state]; simp
    refine ⟨⟨fun k hk => ?_, fun x hx hx' => ?_⟩, hd⟩
    · by_cases hkp : k = p
      · rw [hkp]; exact hd
      · rw [(ho k hkp).1]; exact hk
    · by_cases hxp : x.1 = p
      · rw [hxp] at hx'
        exact absurd hx' hd
      · exact he x hx hxp
  · have he : stopPipe p T s = s := if_pos hr
    rw [he]
    exact ⟨.refl s, hr⟩

/-- Each of several pipes that a stop names runs no more. -/
theorem stopPipes_halt (T : T16) (ps : List Nat) :
    ∀ s : State, ∀ p ∈ ps, ((forEach ps (fun p t => stopPipe p T t) s).pipe p).state ≠ .running := by
  induction ps with
  | nil => intro s p hp; cases hp
  | cons q ps ih =>
    intro s p hp
    have he : forEach (q :: ps) (fun p t => stopPipe p T t) s = forEach ps (fun p t => stopPipe p T t) (stopPipe q T s) := rfl
    rw [he]
    rcases List.mem_cons.mp hp with rfl | hp
    · exact (Halts.forEach (fun x t => (stopPipe_halts T x t).1) ps _).halted p (stopPipe_halts T p s).2
    · exact ih _ p hp

/-- What a stop of a channel may change. -/
structure ChannelStops (s t : State) : Prop where
  calm : Calmly [.hcp, .channels, .pipes, .strm, .cap, .cal, .upl] s t
  halts : Halts s t

theorem ChannelStops.trans {s t u : State} (h : ChannelStops s t) (k : ChannelStops t u) : ChannelStops s u :=
  ⟨h.calm.trans k.calm, h.halts.trans k.halts⟩

/-- A channel that a stop leaves BOUND, with the last sample before T still to come. -/
def Channel.stopped (c : Channel) (T : T16) : Channel :=
  { c with state := .bound, kLast := if c.indexAt (T : Rat) - 1 < c.kNext then none else some (c.indexAt (T : Rat) - 1) }

/-- The channel delivers, or would if its source were aligned. -/
def Channel.running (c : Channel) : Prop := c.state = .running ∨ c.state = .lost

theorem stopChannel_stops (T : T16) (n : Nat) (s : State) : ChannelStops s (stopChannel n T s) ∧
    (∀ k, k ≠ n → (stopChannel n T s).chan k = s.chan k) ∧
    ((s.chan n).running → (stopChannel n T s).chan n = (s.chan n).stopped T ∧
      ∀ p ∈ s.chanPipes n, ((stopChannel n T s).pipe p).state ≠ .running) := by
  by_cases hr : (s.chan n).running
  · have heff : stopChannel n T s = forEach (s.chanPipes n) (fun p u => stopPipe p T u)
        (memberStopped 1 n (s.setChan n ((s.chan n).stopped T))) := by
      unfold stopChannel
      exact if_neg fun h => hr.elim h.1 h.2
    have hset := setChan_keeps n ((s.chan n).stopped T) s
    have hself := chan_setChan_self s n ((s.chan n).stopped T)
    have hne := fun k (hk : k ≠ n) => chan_setChan_ne s ((s.chan n).stopped T) hk
    generalize s.setChan n ((s.chan n).stopped T) = y at heff hset hself hne
    have hm := memberStopped_calmly 1 n y
    generalize memberStopped 1 n y = z at heff hm
    have hstops : Calmly [.hcp, .pipes, .strm, .cap, .cal, .upl] z (forEach (s.chanPipes n) (fun p u => stopPipe p T u) z) :=
      .forEach (fun p t => (stopPipe_stopped T p t).1) _ _
    have hhalts : Halts z (forEach (s.chanPipes n) (fun p u => stopPipe p T u) z) := .forEach (fun p t => (stopPipe_halts T p t).1) _ _
    have hall := stopPipes_halt T (s.chanPipes n) z
    rw [← heff] at hstops hhalts hall
    have hpipes : z.pipes = s.pipes := (hm.keeps .pipes (by simp)).trans (hset .pipes (by simp))
    have hchan : ∀ k, (stopChannel n T s).chan k = y.chan k := fun k =>
      chan_of_channels ((hstops.keeps .channels (by simp)).trans (hm.keeps .channels (by simp))) k
    refine ⟨⟨?_, (Halts.of_pipes hpipes).trans hhalts⟩, fun k hk => ?_, fun _ => ⟨?_, hall⟩⟩
    · exact ((Calmly.of_keeps (hset.weaken (by simp))).trans (hm.weaken (by simp))).trans (hstops.weaken (by simp))
    · rw [hchan, hne k hk]
    · rw [hchan, hself]
  · have he : stopChannel n T s = s := if_pos (not_or.mp hr)
    rw [he]
    exact ⟨⟨.refl _ s, .refl s⟩, fun _ _ => rfl, fun h => absurd h hr⟩

theorem stopChannels (T : T16) (cs : List Nat) (s : State) (hn : cs.Nodup) :
    ChannelStops s (forEach cs (fun c t => stopChannel c T t) s) ∧
      (∀ k, k ∉ cs → (forEach cs (fun c t => stopChannel c T t) s).chan k = s.chan k) ∧
      ∀ c ∈ cs, Halts s (forEach cs (fun c t => stopChannel c T t) s) ∧
        ((s.chan c).running → (forEach cs (fun c t => stopChannel c T t) s).chan c = (s.chan c).stopped T ∧
          ∀ p ∈ s.chanPipes c, ((forEach cs (fun c t => stopChannel c T t) s).pipe p).state ≠ .running) := by
  refine forEach_chans (R := ChannelStops) (own := fun c s t => Halts s t ∧ ((s.chan c).running → t.chan c = (s.chan c).stopped T ∧
      ∀ p ∈ s.chanPipes c, (t.pipe p).state ≠ .running)) (fun s => ⟨.refl _ s, .refl s⟩) (fun _ _ _ => ChannelStops.trans)
    (fun c s => (stopChannel_stops T c s).1) (fun c s k hk => (stopChannel_stops T c s).2.1 k hk)
    (fun c s => ⟨(stopChannel_stops T c s).1.halts, (stopChannel_stops T c s).2.2⟩) ?_ ?_ cs s hn
  · rintro c s t u ⟨hh, h⟩ hk hs
    refine ⟨hh.trans hk.halts, fun hr => ⟨by rw [hs]; exact (h hr).1, fun p hp => hk.halts.halted p ((h hr).2 p hp)⟩⟩
  · rintro c s t u hk hs ⟨hh, h⟩
    refine ⟨hk.halts.trans hh, fun hr => ?_⟩
    obtain ⟨h1, h2⟩ := h (by rw [hs]; exact hr)
    refine ⟨by rw [← hs]; exact h1, fun p hp => ?_⟩
    by_cases ht : (t.pipe p).state = .running
    · unfold State.chanPipes at hp
      obtain ⟨x, hx, rfl⟩ := List.mem_map.mp hp
      obtain ⟨hx, hf⟩ := List.mem_filter.mp hx
      exact h2 x.1 (List.mem_map.mpr ⟨x, List.mem_filter.mpr ⟨hk.halts.entries x hx ht, hf⟩, rfl⟩)
    · exact hh.halted p ht

/-! ## The release of a word (R165, R190) -/

theorem tput_tput {α : Type} (k : Nat) (a b : α) : ∀ t : Tbl α, tput (tput t k a) k b = tput t k b
  | [] => by simp [tput]
  | y :: t => by
    by_cases h1 : k < y.1
    · simp [tput, h1]
    · by_cases h2 : k = y.1
      · simp [tput, ← h2]
      · simp [tput, h1, h2, tput_tput k a b t]

/-- Two settings of one entry are the second, where the first leaves the entry in the table. -/
theorem tset_tset {α : Type} [DecidableEq α] {d a b : α} (k : Nat) (t : Tbl α) (ha : a ≠ d) (hb : b ≠ d) :
    tset d (tset d t k a) k b = tset d t k b := by
  unfold tset
  rw [if_neg ha, if_neg hb, if_neg hb, tput_tput]

theorem setChan_setChan {s : State} {n : Nat} {x y : Channel} (hx : x.state ≠ .unbound) (hy : y.state ≠ .unbound) :
    ((s.setChan n x).setChan n y).channels = (s.setChan n y).channels :=
  tset_tset n s.channels (fun h => hx (by rw [h])) (fun h => hy (by rw [h]))

theorem releases_bound {c : Channel} (h : c.releases = true) : c.state ≠ .unbound := by
  intro hu
  unfold Channel.releases at h
  rw [hu] at h
  exact Bool.noConfusion h

theorem Keeps.ite {ch : List Part} {s t : State} {c : Prop} [Decidable c] (h : Keeps ch s t) : Keeps ch s (if c then t else s) := by
  split
  · exact h
  · exact .refl _ s

theorem feedWindows_keeps (source member : Nat) (f : Feed) (s : State) : Keeps [.cap] s (feedWindows source member f s) := by
  unfold feedWindows
  exact .forEach (fun n t => .ite (setWin_keeps _ _ _)) _ s

theorem memberEvent_keeps (source member kind count : Nat) (index value : Int) (s : State) :
    Keeps [.cap] s (memberEvent source member kind count index value s) := by
  unfold memberEvent
  exact .forEach (fun n t => .ite (setWin_keeps _ _ _)) _ s

theorem pipeWord_keeps (bits : Nat) (x : InWord) (p : Nat) (s : State) : Keeps [.pipes, .cap] s (pipeWord bits x p s) := by
  have hset : ∀ y, Keeps [.pipes, .cap] s (s.setPipe p y) := fun y => (setPipe_keeps p y s).weaken (by simp)
  unfold pipeWord
  dsimp only
  split
  · exact .refl _ s
  · refine (hset _).trans (.ite (Keeps.weaken (memberEvent_keeps _ _ _ _ _ _ _) ?_))
    simp

theorem changedPipes_keeps (k : Int) (ps : List Nat) (s : State) : Keeps [.pipes] s (forEach ps (fun p t =>
    let pp := t.pipe p
    if (pp.state = .running ∨ pp.state = .draining) ∧ !pp.waiting ∧ pp.lineNext ≤ k then
      t.setPipe p { pp with changes := pp.changes ++ [k] }
    else t) s) := .forEach (fun _ _ => .ite (setPipe_keeps _ _ _)) _ s

/-- What the change between words and substituted words leaves of the channels. -/
theorem toggleSubst_toggles (n : Nat) (zero : Bool) (k : Int) (s : State) :
    Keeps [.channels, .pipes, .hcp] s (toggleSubst n zero k s) ∧ (toggleSubst n zero k s).channels =
      (if (s.chan n).substituting = zero then s.channels else (s.setChan n { s.chan n with substituting := zero }).channels) := by
  unfold toggleSubst
  dsimp only
  by_cases h : (s.chan n).substituting = zero
  · rw [if_pos h, if_pos h]
    exact ⟨.refl _ s, rfl⟩
  · rw [if_neg h, if_neg h]
    have hset := setChan_keeps n { s.chan n with substituting := zero } s
    generalize s.setChan n { s.chan n with substituting := zero } = y at hset ⊢
    have hp := changedPipes_keeps k (y.chanPipes n) y
    generalize forEach (y.chanPipes n) _ y = z at hp ⊢
    have hz : Keeps [.channels, .pipes, .hcp] s z := (hset.weaken (by simp)).trans (hp.weaken (by simp))
    split
    · exact ⟨hz, hp .channels (by simp)⟩
    · have hn := notify_hcp 0x0480 (le 1 (if zero then 3 else 4) ++ le 1 (linkKind (s.chan n).kind) ++ le 1 (s.chan n).source ++ zeros 1
        ++ ts96 z.now ++ linkStatus z (linkKind (s.chan n).kind) (s.chan n).source
          (z.link (linkKind (s.chan n).kind) (s.chan n).source).errors.toNat) z
      exact ⟨hz.trans (hn.keeps.weaken (by simp)), (hn.keeps .channels (by simp)).trans (hp .channels (by simp))⟩

/-- A channel whose next word has been released: a word, or a zero word in its place. -/
def Channel.released (c : Channel) (zero : Bool) (ctl : Nat) : Channel :=
  { c with
    kNext := c.kNext + 1, substituting := zero, arrived := c.arrived.filter fun x => decide (c.kNext < x.1)
    kLast := match c.kLast with
      | some l => if l ≤ c.kNext then none else some l
      | none => none
    substituted := if zero then c.substituted + 1 else c.substituted
    overRange := if ctl ≠ 0 then c.overRange + 1 else c.overRange }

/-- The control bits of the word that is released, if one is. -/
def State.nextControl (s : State) (n : Nat) (w : JesdWord) : Nat :=
  if (s.nextWord n w).isNone then 0
  else controlBits (s.chan n).kind (s.chanBits n).1 (s.chanBits n).2 ((s.nextWord n w).getD 0).toNat

theorem inputWordRelease_releases {n : Nat} {w : JesdWord} {s : State} (hd : s.wordDue n = true) (hp : s.placed n w = true) :
    Keeps [.channels, .pipes, .cap, .hcp] s (inputWordRelease n w s) ∧ (inputWordRelease n w s).channels =
      tset {} s.channels n ((s.chan n).released (s.nextWord n w).isNone (s.nextControl n w)) := by
  have hrel : (s.chan n).state ≠ .unbound := releases_bound ((Bool.and_eq_true ..).mp hd).1
  obtain ⟨htk, htc⟩ := toggleSubst_toggles n (s.nextWord n w).isNone (s.chan n).kNext s
  unfold inputWordRelease
  rw [if_neg (by rw [hd, hp]; exact Bool.false_ne_true)]
  dsimp only
  generalize toggleSubst n (s.nextWord n w).isNone (s.chan n).kNext s = y at htk htc ⊢
  have hchan : y.chan n = { s.chan n with substituting := (s.nextWord n w).isNone } := by
    rw [chan_of_channels (s := if (s.chan n).substituting = (s.nextWord n w).isNone then s
      else s.setChan n { s.chan n with substituting := (s.nextWord n w).isNone }) (htc.trans (by split <;> rfl))]
    split
    · next h => rw [← h]
    · exact chan_setChan_self ..
  rw [hchan]
  have hset : Keeps [.channels, .pipes, .cap, .hcp] y (y.setChan n
      ((s.chan n).released (s.nextWord n w).isNone (s.nextControl n w))) := (setChan_keeps _ _ _).weaken (by simp)
  have hfin : ∀ u, Keeps [.pipes, .cap] (y.setChan n ((s.chan n).released (s.nextWord n w).isNone (s.nextControl n w))) u →
      Keeps [.channels, .pipes, .cap, .hcp] s u ∧ u.channels =
        tset {} s.channels n ((s.chan n).released (s.nextWord n w).isNone (s.nextControl n w)) := by
    intro u hu
    refine ⟨((htk.weaken (by simp)).trans hset).trans (hu.weaken (by simp)), (hu .channels (by simp)).trans ?_⟩
    show tset {} y.channels n _ = _
    rw [htc]
    split
    · rfl
    · exact setChan_setChan (s := s) hrel hrel
  exact hfin _ (((feedWindows_keeps _ _ _ _).weaken (by simp)).trans (.forEach (fun p t => pipeWord_keeps _ _ p t) _ _))

theorem inputWordRelease_waits {n : Nat} {w : JesdWord} {s : State} (h : s.wordDue n = false ∨ s.placed n w = false) :
    inputWordRelease n w s = s := by
  unfold inputWordRelease
  rw [if_pos]
  rcases h with h | h <;> simp [h]

/-! ## Messages of a digitiser (R178) -/

theorem bglMessageRx_bad {n stream : Nat} {bs : List Bytes} {s : State} (hu : (s.bgl n).state = .up)
    (hd : s.discards (s.bgl n).lanes = false) (hb : ∃ x ∈ bs, checkHolds x = false) :
    bglMessageRx n stream bs s = s.setBgl n { s.bgl n with msgBad := (s.bgl n).msgBad + 1 } := by
  have hall : bs.all checkHolds = false := by
    rw [List.all_eq_false]
    obtain ⟨x, hx, hc⟩ := hb
    exact ⟨x, hx, by rw [hc]; exact Bool.false_ne_true⟩
  unfold bglMessageRx
  rw [if_neg (by simp [hu, hd]), hall]
  rfl

theorem bglMessageRx_read {n stream : Nat} {bs : List Bytes} {m : Bytes} {s : State} (hu : (s.bgl n).state = .up)
    (hm : (s.bgl n).mode = 1) (hd : s.discards (s.bgl n).lanes = false) (hb : ∀ x ∈ bs, checkHolds x = true)
    (hr : readMessage stream bs = some m) (ht : getU m 0 1 = 0x11) (hl : m.length = 4 + getU m 2 2) :
    bglMessageRx n stream bs s = if 216 < getU m 2 2 then s.setBgl n { s.bgl n with msgLong := (s.bgl n).msgLong + 1 }
      else notify 0x0481 (le 1 n ++ zeros 1 ++ le 2 (getU m 2 2) ++ padTo (4 * cdiv (getU m 2 2) 4) (sub m 4 (getU m 2 2))) s := by
  have hall : bs.all checkHolds = true := List.all_eq_true.mpr hb
  unfold bglMessageRx
  dsimp only
  rw [if_neg (by simp [hu, hd]), hall, if_neg (by simp), hr]
  dsimp only
  rw [if_neg (by simp [ht, hm, ← hl])]

theorem notify_one {o k : Nat} {p : Bytes} {s : State} (hf : s.fwRuns = true) (hk : s.subscribers (o / 256) = [k])
    (hr : logRoom s.hcp.log = true) : ∃ x ∈ (notify o p s).hcp.log, x.mb = k ∧ x.hubSeq = (s.mb k).hubSeq ∧
      x.frame = rspFrame (s.mb k).version false 0xFFFFFFFF (s.mb k).hubSeq o 0 0 0 p := by
  unfold notify
  rw [if_pos hf, hk]
  show ∃ x ∈ (notifyOne o p k s).hcp.log, _
  rw [notifyOne_room hr]
  exact ⟨_, List.mem_append_right _ (List.mem_singleton_self _), rfl, rfl, rfl⟩

/-! ## The obligation -/

/-- Settles O36: starts and stops channel by channel, a due word by what its release makes of the channel. -/
theorem channelsReleaseWordsOrSubstitute : Obligations.ChannelsReleaseWordsOrSubstitute := by
  unfold Obligations.ChannelsReleaseWordsOrSubstitute
  refine ⟨?_, ?_, ?_, ?_, ?_, ?_, ?_, ?_, ?_, ?_, ?_, ?_, ?_, ?_⟩
  · intro s r h hk
    exact gives_of_op rfl h (if_neg hk) .of_parts fun t F A => ⟨F.channels, A⟩
  · intro s r h hk
    exact gives_of_op rfl h (if_pos hk) .of_parts fun t F A => ⟨F.channels, A⟩
  · intro s r h hs
    have hn := rangeOf_nodup (r.u16 0) (r.u16 2)
    have heff : opChannelStart.effect r (s.judged opChannelStart r) = schedule 0x0409 6 (.chanStart (r.u16 0) (r.u16 2)) r
        (forEach (rangeOf (r.u16 0) (r.u16 2)) (armChannel r.at_) (s.judged opChannelStart r)) := if_pos hs
    obtain ⟨harmed, hao, harm⟩ := armChannels r.at_ (rangeOf (r.u16 0) (r.u16 2)) (s.judged opChannelStart r) hn
    rw [harmed] at heff
    have hb : ∀ k, (forEach (rangeOf (r.u16 0) (r.u16 2)) (armChannel r.at_) (s.judged opChannelStart r)).chan k =
      tget {} (forEach (rangeOf (r.u16 0) (r.u16 2)) (armChannel r.at_) (s.judged opChannelStart r)).channels k := fun _ => rfl
    generalize (forEach (rangeOf (r.u16 0) (r.u16 2)) (armChannel r.at_) (s.judged opChannelStart r)).channels = b at heff hb
    refine gives_of_op rfl h heff .of_parts fun t F A => ⟨fun c hp hq => ?_, fun c hp => ?_, F.cal, A⟩
    · exact (chan_of_channels F.channels c).trans ((hb c).symm.trans (harm c (mem_rangeOf.mpr ⟨hp, hq⟩)))
    · exact (chan_of_channels F.channels c).trans ((hb c).symm.trans (hao c (not_mem_rangeOf hp)))
  · intro s r h hs
    have hn := rangeOf_nodup (r.u16 0) (r.u16 2)
    have heff : opChannelStart.effect r (s.judged opChannelStart r) = (forEach (rangeOf (r.u16 0) (r.u16 2))
        (fun c t => startChannel c (s.now + 655360000) t) (s.judged opChannelStart r), ansDone []) :=
      if_neg (by rw [hs]; exact Bool.false_ne_true)
    have hal : ∀ c ∈ rangeOf (r.u16 0) (r.u16 2), (s.chanLink c).state = .aligned := by
      intro c hc
      have hall := List.all_eq_true.mp (h.state (List.mem_singleton_self _)) c hc
      rw [hs, Bool.false_or, Bool.and_eq_true, Bool.and_eq_true, beq_iff_eq, beq_iff_eq] at hall
      exact hall.1.2
    obtain ⟨hk, ho, hown⟩ := startChannels (s.now + 655360000) (rangeOf (r.u16 0) (r.u16 2)) (s.judged opChannelStart r) hn
    generalize forEach (rangeOf (r.u16 0) (r.u16 2)) (fun c t => startChannel c (s.now + 655360000) t) (s.judged opChannelStart r) = z
      at hk ho hown heff
    have hkz : Keeps [.hcp, .channels, .pipes, .ledger] (s.judged opChannelStart r) z := hk.weaken (by simp)
    refine gives_of_op rfl h heff hkz (fun t F A => ⟨fun c hp hq => ?_, fun c hp => ?_, A⟩)
      (hq := (congrArg Flt.detected (hkz .flt (by simp))).trans h.acted)
    · have hmem := mem_rangeOf.mpr ⟨hp, hq⟩
      exact (chan_of_channels F.channels c).trans (hown c hmem (hal c hmem))
    · exact (chan_of_channels F.channels c).trans (ho c (not_mem_rangeOf hp))
  · intro s r h hs
    exact gives_of_op rfl h (if_pos hs) .of_parts fun t F A => ⟨F.cal, A⟩
  · intro s r h hs hN
    have hn := rangeOf_nodup (r.u16 0) (r.u16 2)
    have heff : opChannelStop.effect r (s.judged opChannelStop r) = (forEach (rangeOf (r.u16 0) (r.u16 2))
        (fun c t => stopChannel c s.now t) (s.judged opChannelStop r), ansDone []) := if_neg (by rw [hs]; exact Bool.false_ne_true)
    have hrun : ∀ c ∈ rangeOf (r.u16 0) (r.u16 2), (s.chan c).running := by
      intro c hc
      have hall := List.all_eq_true.mp (h.state (List.mem_singleton_self _)) c hc
      unfold stopsChannel at hall
      rw [hs, Bool.false_and, Bool.false_and, Bool.or_false, Bool.or_eq_true, beq_iff_eq, beq_iff_eq] at hall
      exact hall
    obtain ⟨hk, ho, hown⟩ := stopChannels s.now (rangeOf (r.u16 0) (r.u16 2)) (s.judged opChannelStop r) hn
    generalize forEach (rangeOf (r.u16 0) (r.u16 2)) (fun c t => stopChannel c s.now t) (s.judged opChannelStop r) = z
      at hk ho hown heff
    refine gives_of_op_calm rfl h heff (hk.calm.noResets hN) (fun d hd => (hk.calm.calm d hd).resolve_left fun hd' => ?_)
      (hk.calm.keeps.weaken (by simp)) fun t F A => ⟨fun c hp hq => ?_, fun c hp => ?_, fun c hp hq p hc => ?_, A⟩
    · rw [show (s.judged opChannelStop r).flt.detected = [] from h.acted] at hd'
      cases hd'
    · have hmem := mem_rangeOf.mpr ⟨hp, hq⟩
      exact (chan_of_channels F.channels c).trans ((hown c hmem).2 (hrun c hmem)).1
    · exact (chan_of_channels F.channels c).trans (ho c (not_mem_rangeOf hp))
    · have hmem := mem_rangeOf.mpr ⟨hp, hq⟩
      rw [pipe_of_pipes F.pipes]
      exact ((hown c hmem).2 (hrun c hmem)).2 p hc
  · intro s r h
    exact reports_of_op rfl h rfl
  · intro s n w x hInv hd hp hx
    obtain ⟨hk, hc⟩ := inputWordRelease_releases (s := { s with emitted := [] }) hd hp
    have hk : Keeps [.channels, .pipes, .cap, .hcp] s (inputWordRelease n w { s with emitted := [] }) := hk
    refine gives_of_effect rfl rfl ((congrArg Flt.detected (hk .flt (by simp))).trans hInv.acted) hk fun t F => F.channels.trans (hc.trans ?_)
    have hw : ({ s with emitted := [] } : State).nextWord n w = some x := hx
    unfold State.nextControl
    rw [hw]
    rfl
  · intro s n w hInv hd hp hx
    obtain ⟨hk, hc⟩ := inputWordRelease_releases (s := { s with emitted := [] }) hd hp
    have hk : Keeps [.channels, .pipes, .cap, .hcp] s (inputWordRelease n w { s with emitted := [] }) := hk
    refine gives_of_effect rfl rfl ((congrArg Flt.detected (hk .flt (by simp))).trans hInv.acted) hk fun t F => F.channels.trans (hc.trans ?_)
    have hw : ({ s with emitted := [] } : State).nextWord n w = none := hx
    unfold State.nextControl
    rw [hw]
    rfl
  · intro s n w hInv hno
    exact gives_nothing rfl (inputWordRelease_waits (s := { s with emitted := [] }) hno) hInv.acted fun _ _ => trivial
  · intro s n b b0 bs hInv hu hd hb
    exact gives_of_effect rfl (bglMessageRx_bad (s := { s with emitted := [] }) hu hd hb) hInv.acted .of_parts fun t F => F.bgls
  · intro s n b b0 bs m hInv hu hm hd hb hr ht hl hlong
    exact gives_of_effect rfl ((bglMessageRx_read (s := { s with emitted := [] }) hu hm hd hb hr ht hl).trans (if_pos hlong)) hInv.acted
      .of_parts fun t F => F.bgls
  · intro s n b b0 bs m k hInv hu hm hd hb hr ht hl hshort hf hk hroom
    have heff := (bglMessageRx_read (s := { s with emitted := [] }) hu hm hd hb hr ht hl).trans (if_neg (by omega))
    have hone := notify_one (o := 0x0481) (p := le 1 n ++ zeros 1 ++ le 2 (getU m 2 2) ++
      padTo (4 * cdiv (getU m 2 2) 4) (sub m 4 (getU m 2 2))) (s := { s with emitted := [] }) hf hk hroom
    have hh := notify_hcp 0x0481 (le 1 n ++ zeros 1 ++ le 2 (getU m 2 2) ++
      padTo (4 * cdiv (getU m 2 2) 4) (sub m 4 (getU m 2 2))) { s with emitted := [] }
    generalize notify 0x0481 _ { s with emitted := [] } = y at heff hone hh
    refine gives_of_effect rfl heff ((congrArg Flt.detected hh.flt).trans hInv.acted) hh.keeps fun t F => ?_
    rw [F.hcp]
    exact hone
  · intro s r h
    have hlen : (r.bytes 4 (r.u16 2)).length = r.u16 2 := length_sub _ _ _
    refine gives_of_op rfl h rfl .of_parts fun t F A => ⟨F.bgls.trans ?_, A⟩
    unfold messageBytes
    rw [hlen]
    rfl

end Sys2Proof.Machine
end

