-- ==== Sys2Proof/Proofs/FaultEvents.lean ====
section
/-! SUPPORT. What goes with a detected fault source beside its sticky bit (R373, R384, Table FLT-4). -/

namespace Sys2Proof.Machine

set_option Elab.async false

/-! ## What the sources do of themselves -/

/-- `t` is `s` but for the parts listed; of the fault registers only the upset lines and the outer corrections change, and the chip
stays in its state. -/
structure SourceActs (ch : List Part) (s t : State) : Prop where
  keeps : Keeps (.flt :: ch) s t
  flt : t.flt = { s.flt with upsets := t.flt.upsets, outer := t.flt.outer }
  phase : t.chip.phase = s.chip.phase

theorem SourceActs.refl (ch : List Part) (s : State) : SourceActs ch s s := ⟨.refl _ s, rfl, rfl⟩

theorem SourceActs.trans {ch : List Part} {s t u : State} (h : SourceActs ch s t) (k : SourceActs ch t u) : SourceActs ch s u := by
  refine ⟨h.keeps.trans k.keeps, ?_, k.phase.trans h.phase⟩
  have h' := h.flt
  have k' := k.flt
  rw [k', h']

theorem SourceActs.of_keeps {ch : List Part} {s t : State} (h : Keeps ch s t) (hf : Part.flt ∉ ch := by decide)
    (hc : Part.chip ∉ ch := by decide) : SourceActs ch s t := by
  have hflt : t.flt = s.flt := h .flt hf
  have hchip : t.chip = s.chip := h .chip hc
  exact ⟨h.weaken fun p hp => List.mem_cons_of_mem _ hp, by rw [hflt], by rw [hchip]⟩

theorem SourceActs.weaken {ch ch' : List Part} {s t : State} (h : SourceActs ch s t) (hs : ∀ p ∈ ch, p ∈ ch') : SourceActs ch' s t :=
  ⟨h.keeps.weaken fun p hp => (List.mem_cons.mp hp).elim (fun e => e ▸ List.mem_cons_self) fun hp => List.mem_cons_of_mem _ (hs p hp),
    h.flt, h.phase⟩

theorem SourceActs.forEach {α : Type} {ch : List Part} {f : α → State → State} (h : ∀ x s, SourceActs ch s (f x s)) :
    ∀ (xs : List α) (s : State), SourceActs ch s (forEach xs f s)
  | [], s => .refl ch s
  | x :: xs, s => (h x s).trans (SourceActs.forEach h xs (f x s))

theorem setUpset_acts (g a : Nat) (u : Upset) (s : State) : SourceActs [] s (s.setUpset g a u) := ⟨.of_parts, rfl, rfl⟩

theorem countOuter_acts (g : Nat) (s : State) : SourceActs [] s (countOuter g s) := ⟨.of_parts, rfl, rfl⟩

theorem clearUpsets_acts (a len : Nat) (s : State) : SourceActs [] s (clearUpsets a len s) := by
  unfold clearUpsets
  split
  · exact .refl _ s
  · exact .forEach (fun l t => setUpset_acts _ _ _ t) _ s

theorem setCap_keeps (c : Cap) (s : State) : Keeps [.cap] s { s with cap := c } := .of_parts

theorem writeFrame_acts (n : Nat) (i : Int) (row : List Feed) (s : State) : SourceActs [.hcp, .cap] s (writeFrame n i row s) := by
  unfold writeFrame
  dsimp only
  generalize (if (s.win n).nArm.isSome then s.win n else _ : Window) = w1
  have hu := (clearUpsets_acts (w1.address i) (packSamples (s.win n).format (row.map (·.value))).length s).weaken
    (ch' := [.hcp, .cap]) (by simp)
  generalize clearUpsets (w1.address i) (packSamples (s.win n).format (row.map (·.value))).length s = y at hu ⊢
  have hm := hu.trans (.of_keeps ((setCap_keeps { y.cap with
    memory := memWrite y.cap.memory (w1.address i) (packSamples (s.win n).format (row.map (·.value))) } y).weaken (by simp)))
  generalize ({ y with cap := { y.cap with
    memory := memWrite y.cap.memory (w1.address i) (packSamples (s.win n).format (row.map (·.value))) } } : State) = z at hm ⊢
  have hset : ∀ w, SourceActs [.hcp, .cap] s (z.setWin n w) := fun w => hm.trans (.of_keeps ((setWin_keeps n w z).weaken (by simp)))
  split
  · unfold sketchEvent
    exact ((hset _).trans (.of_keeps ((setWin_keeps n _ _).weaken (by simp)))).trans
      (.of_keeps ((notify_hcp _ _ _).keeps.weaken (by simp)))
  · split
    · exact (hset _).trans (.of_keeps (freeze_keeps n 0 0 _))
    · exact hset _

theorem overrunFrame_acts (n : Nat) (s : State) : SourceActs [.hcp, .cap] s (overrunFrame n s) := by
  unfold overrunFrame
  dsimp only
  split
  · exact .refl _ s
  · split
    · exact (SourceActs.of_keeps ((setWin_keeps n _ s).weaken (by simp))).trans (writeFrame_acts ..)
    · exact .refl _ s

theorem pageLeft_only (n g seq : Nat) (s : State) : StreamOnly n s (pageLeft n g seq s) := (changeQueue_only n _ s).1

/-- A late frame is aborted, and its pages count as left. -/
theorem underrun_acts (p : Nat) (s : State) : SourceActs [.hcp, .strm, .upl] s (underrun p s) ∧ ((underrun p s).port p).sending = none := by
  obtain ⟨ha, hp, -⟩ := abortFrame_only p s
  have hcut : ((abortFrame p s).port p).sending = none := by rw [hp]; rfl
  unfold underrun
  dsimp only
  generalize abortFrame p s = t at ha hcut
  have hk : SourceActs [.hcp, .strm, .upl] s t := .of_keeps (ha.keeps.weaken (by simp))
  split
  · next n seq left f _ =>
    have hs : Keeps [.hcp, .strm] t (forEach (List.range left) (fun _ u => pageLeft n (groupOf p) seq u) t) :=
      .forEach (fun _ u => (pageLeft_only n (groupOf p) seq u).keeps) _ t
    refine ⟨hk.trans (.of_keeps (hs.weaken (by simp))), ?_⟩
    rw [port_of_upl (hs .upl (by simp))]
    exact hcut
  · exact ⟨hk, hcut⟩

theorem pcieDown_acts (s : State) : SourceActs [.chip, .boot, .ports, .hcp] s (pcieDown s) := ⟨.of_parts, rfl, rfl⟩

/-- What the sources of Table FLT-4 without a line do of themselves. -/
theorem sourceEffect_acts {d : Detected} (hd : d.line = none) (m : MemRead) (s : State) :
    SourceActs [.chip, .boot, .ports, .hcp, .cap, .strm, .upl] s (sourceEffect d m s) := by
  unfold sourceEffect
  rw [hd]
  dsimp only
  split
  · exact (SourceActs.of_keeps (setWin_keeps _ _ s)).weaken (by simp)
  · split
    · exact (overrunFrame_acts _ s).weaken (by simp)
    · split
      · exact (SourceActs.of_keeps (rewindStream_keeps _ s)).weaken (by simp)
      · split
        · exact (underrun_acts _ s).1.weaken (by simp)
        · split
          · exact ((setUpset_acts _ _ _ s).trans (countOuter_acts _ _)).weaken (by simp)
          · split
            · exact (pcieDown_acts s).weaken (by simp)
            · exact .refl _ s

theorem setDump_keeps (d : Nat) (x : Option Dump) (s : State) : Keeps [.cap] s (s.setDump d x) := .of_parts

theorem setComp_keeps (c : Comp) (s : State) : Keeps [.comp] s { s with comp := c } := .of_parts

/-- An uncorrectable line of capture memory tells the record that holds it, and those who read it. -/
theorem sketchLine_keeps (l : UncorrLine) (told : Bool) (s : State) : Keeps [.cap, .comp] s (sketchLine l told s) := by
  unfold sketchLine
  dsimp only
  split
  · exact .refl _ s
  · split
    · exact (setWin_keeps _ _ s).weaken (by simp)
    · refine (Keeps.trans ((setWin_keeps _ _ s).weaken (by simp)) (.forEach (fun d t => ?_) _ _)).trans
        (Keeps.weaken (ch' := [.cap, .comp]) (setComp_keeps _ _) (by simp))
      split
      · exact .ite ((setDump_keeps _ _ t).weaken (by simp))
      · exact .refl _ t

theorem keepUpset_acts (g : Nat) (m : MemRead) (s : State) : SourceActs [.strm, .pipes] s (keepUpset g m s) ∧
    (m.upset ≠ {} → (keepUpset g m s).upset g m.address.toNat = m.upset) := by
  unfold keepUpset
  by_cases hu : m.upset = {}
  · rw [if_pos hu]
    exact ⟨.refl _ s, fun h => absurd hu h⟩
  · rw [if_neg hu]
    dsimp only
    have hset := (setUpset_acts g m.address.toNat m.upset s).weaken (ch' := [.strm, .pipes]) (by simp)
    have hself : (s.setUpset g m.address.toNat m.upset).upset g m.address.toNat = m.upset := tget_tset_self ..
    generalize s.setUpset g m.address.toNat m.upset = y at hset hself ⊢
    have packet : SourceActs [.strm, .pipes] y (spoilPacket m y) := .of_keeps ((setStream_keeps _ _ y).weaken (by simp))
    have line : SourceActs [.strm, .pipes] y (spoilLine m y) := .of_keeps ((setPipe_keeps _ _ y).weaken (by simp))
    split
    · exact ⟨hset.trans packet, fun _ => hself⟩
    · split
      · exact ⟨hset.trans line, fun _ => hself⟩
      · exact ⟨hset, fun _ => hself⟩

/-- The sources that report an uncorrectable line have no other effect of their own. -/
theorem lineRegion_sources {b n : Nat} {g : Fin 6} (h : lineRegion b n = some g) :
    (b, n) ∈ [(14, 0), (14, 1), (6, 1), (6, 0), (15, 1), (9, 2), (10, 0)] := by
  unfold lineRegion at h
  simp only [List.mem_cons, Prod.mk.injEq, List.not_mem_nil, or_false]
  split at h
  · next c => exact .inl c
  · split at h
    · next c => exact .inr (.inl c)
    · split at h
      · next c => exact .inr (.inr (.inl c))
      · split at h
        · next c => exact .inr (.inr (.inr (.inl c)))
        · split at h
          · next c => exact .inr (.inr (.inr (.inr (.inl c))))
          · split at h
            · next c => exact .inr (.inr (.inr (.inr (.inr c))))
            · cases h

/-- The effect of a source that reports a line: on what holds the line. -/
theorem sourceEffect_line {b n u : Nat} {g : Fin 6} (h : lineRegion b n = some g) {l : UncorrLine} (hl : l.region = g) (m : MemRead)
    (s : State) : SourceActs [.cap, .comp, .strm, .pipes] s (sourceEffect ⟨b, n, u, some l⟩ m s) ∧
      (m.upset ≠ {} → (sourceEffect ⟨b, n, u, some l⟩ m s).upset g m.address.toNat = m.upset) := by
  have hsrc := lineRegion_sources h
  have heff : sourceEffect ⟨b, n, u, some l⟩ m s = keepUpset l.region.val m
      (if l.region.val = 0 then sketchLine l (decide (m.upset ≠ {})) s else s) := by
    simp only [List.mem_cons, Prod.mk.injEq, List.not_mem_nil, or_false] at hsrc
    unfold sourceEffect
    dsimp only
    rw [if_neg (by omega), if_neg (by omega), if_neg (by omega), if_neg (by omega), if_neg (by omega), if_neg (by omega)]
  have hsk : SourceActs [.cap, .comp, .strm, .pipes] s (if l.region.val = 0 then sketchLine l (decide (m.upset ≠ {})) s else s) :=
    (SourceActs.of_keeps (.ite (sketchLine_keeps l _ s))).weaken (by simp)
  obtain ⟨hk, hu⟩ := keepUpset_acts l.region.val m (if l.region.val = 0 then sketchLine l (decide (m.upset ≠ {})) s else s)
  rw [heff]
  refine ⟨hsk.trans (hk.weaken (by simp)), fun hm => ?_⟩
  rw [← hl]
  exact hu hm

/-! ## FAULT_DETECT -/

/-- The event that FAULT_DETECT reports, with the line that it concerns. -/
def detectedAt (b n u : Nat) (m : MemRead) : Detected :=
  ⟨b, n, u, (lineRegion b n).map fun r => ⟨r, m.owner, m.address, m.id, m.detail⟩⟩

/-- FAULT_DETECT as the hub runs it. -/
def detectStep (b n u : Nat) (m : MemRead) (s : State) : State :=
  if b = 1 ∧ n = 1 ∧ !s.faultsHeld then entryCheck (faultDetect b n u m s) else faultDetect b n u m s

theorem exec_faultDetect {b : Fin 17} {n : Fin 64} (u : Nat) (m : MemRead) (s : State) (h : sourceExists b n = true) :
    exec (.faultDetect b n u m) s = .next (after (detectStep b n u m) s) := if_pos h

/-- The fault registers with an event that is to act, and its condition where it may go on. -/
def noteDetected (d : Detected) (s : State) : State :=
  { s with flt := { s.flt with
      detected := s.flt.detected ++ [d]
      standing := (s.flt.standing.filter fun x => x != (d.block, d.source, d.unit)) ++
        (if mayPersist d.block d.source then [(d.block, d.source, d.unit)] else []) } }

theorem faultDetect_notes {b n u : Nat} {m : MemRead} {s : State} (hh : s.faultsHeld = false) (h1 : ¬ (b = 11 ∧ n = 0))
    (h2 : b = 3 → n = 3 → s.chip.dspLocked = true) :
    faultDetect b n u m s = noteDetected (detectedAt b n u m) (sourceEffect (detectedAt b n u m) m s) := by
  unfold faultDetect
  dsimp only
  rw [if_neg (by rw [hh]; exact Bool.false_ne_true), if_neg h1, if_neg]
  · rfl
  · rintro ⟨hb, hn, hd⟩
    rw [h2 hb hn] at hd
    cases hd

theorem detectStep_notes {b n u : Nat} {m : MemRead} {s : State} (hh : s.faultsHeld = false) (h0 : ¬ (b = 1 ∧ n = 1))
    (h1 : ¬ (b = 11 ∧ n = 0)) (h2 : b = 3 → n = 3 → s.chip.dspLocked = true) :
    detectStep b n u m s = noteDetected (detectedAt b n u m) (sourceEffect (detectedAt b n u m) m s) := by
  unfold detectStep
  rw [if_neg fun h => h0 ⟨h.1, h.2.1⟩, faultDetect_notes hh h1 h2]

theorem noteDetected_keeps (d : Detected) (s : State) : Keeps [.flt] s (noteDetected d s) := .of_parts

/-- The fault registers of a hub whose only event since `s` is one that has acted of itself. -/
theorem noteDetected_flt {ch : List Part} {d : Detected} {s x : State} (h : SourceActs ch s x) (hq : s.flt.detected = []) :
    (noteDetected d x).flt.detected = [d] ∧ (noteDetected d x).flt.blocks = s.flt.blocks ∧
      (noteDetected d x).flt.logs = s.flt.logs := by
  have hf := h.flt
  unfold noteDetected
  dsimp only
  rw [hf]
  dsimp only
  rw [hq]
  exact ⟨rfl, rfl, rfl⟩

theorem gated_of_blocks {s t : State} (h : t.flt.blocks = s.flt.blocks) (b n u : Nat) : t.gated b n u = s.gated b n u :=
  gated_of_standing (fun k => by unfold State.blk; rw [h]) b n u

theorem faultsHeld_of_phase {s t : State} (h : t.chip.phase = s.chip.phase) : t.faultsHeld = s.faultsHeld := by
  unfold State.faultsHeld
  rw [h]

theorem detectedAt_calm {b : Fin 17} {n : Fin 64} (u : Nat) (m : MemRead) (h : ¬ (b.val = 3 ∧ n.val = 3)) :
    (detectedAt b n u m).Calm := ⟨b.isLt, n.isLt, h⟩

theorem now_of_time {s t : State} (h : t.time = s.time) : t.now = s.now := by unfold State.now; rw [h]

/-- What a detected source leaves where no reaction asks for a reset. -/
structure DetectedCalm (d : Detected) (s x t : State) : Prop where
  follows : FollowsCalm s x t
  logs : t.flt.logs = d.logged s.now s.flt.logs
  seen : s.gated d.block d.source d.unit = false → (t.blk d.block).sticky.getLsbD d.source = true

/-- FAULT_DETECT of a source where no reaction asks for a reset. -/
theorem gives_of_source {b : Fin 17} {n : Fin 64} {u : Nat} {m : MemRead} {s : State} {ch ch' : List Part} {post : State → Prop}
    (hInv : s.Inv) (hs : sourceExists b n = true) (hh : s.faultsHeld = false) (hN : s.NoResets) (h0 : ¬ (b.val = 1 ∧ n.val = 1))
    (h1 : ¬ (b.val = 11 ∧ n.val = 0)) (h3 : ¬ (b.val = 3 ∧ n.val = 3))
    (ha : SourceActs ch' { s with emitted := [] } (sourceEffect (detectedAt b n u m) m { s with emitted := [] }))
    (ht : Part.time ∉ ch') (hk : ∀ p ∈ Part.flt :: ch', p ∈ ch)
    (hp : ∀ t, DetectedCalm (detectedAt b n u m) s
      (noteDetected (detectedAt b n u m) (sourceEffect (detectedAt b n u m) m { s with emitted := [] })) t → post t)
    (hc : Part.hcp ∈ ch := by simp) : Gives (.faultDetect b n u m) s ch post := by
  have heff := detectStep_notes (u := u) (m := m) (s := { s with emitted := [] }) hh h0 h1 fun hb hn => absurd ⟨hb, hn⟩ h3
  generalize sourceEffect (detectedAt b n u m) m { s with emitted := [] } = x at ha heff hp
  obtain ⟨hd, hb, hl⟩ := noteDetected_flt (d := detectedAt b n u m) ha hInv.acted
  have hx : Keeps (.flt :: ch') s x := ha.keeps
  have hkeep : Keeps ch s (noteDetected (detectedAt b n u m) x) :=
    (hx.weaken hk).trans ((noteDetected_keeps _ _).weaken fun p hp => hk p (by rw [List.mem_singleton.mp hp]; exact List.mem_cons_self))
  have hheld : (noteDetected (detectedAt b n u m) x).faultsHeld = false := (faultsHeld_of_phase ha.phase).trans hh
  have hnow : (noteDetected (detectedAt b n u m) x).now = s.now :=
    now_of_time (hx .time fun h => (List.mem_cons.mp h).elim (by simp) ht)
  refine gives_of_calm (exec_faultDetect u m s hs) heff (noResets_of_blocks hb hN)
    (fun d hd' => by rw [hd, List.mem_singleton] at hd'; rw [hd']; exact detectedAt_calm u m h3) hkeep (fun t F _ _ _ => hp t ⟨F, ?_, ?_⟩)
    hc (hk _ List.mem_cons_self)
  · rw [F.logs hheld, hd, hnow, hl]
    rfl
  · intro hg
    exact F.seen hheld _ (by rw [hd]; exact List.mem_singleton_self _) ((gated_of_blocks hb ..).trans hg)

end Sys2Proof.Machine
end

