-- ==== Sys2Proof/Proofs/Faults.lean ====
section
/-! SUPPORT. Faults: detected sources, block resets, chip resets and gates (R373-R386), which settle O48. -/

namespace Sys2Proof.Machine

set_option Elab.async false

/-! ## Sources of their own -/

theorem detectedAt_line {b n u : Nat} {m : MemRead} (h : lineRegion b n = none) : detectedAt b n u m = ⟨b, n, u, none⟩ := by
  unfold detectedAt
  rw [h]
  rfl

/-- A source that Table FLT-4 gives no effect of its own only sets its bit. -/
theorem sourceEffect_none {b n u : Nat} (m : MemRead) (s : State)
    (h : (b, n) ∉ [(1, 1), (7, 0), (8, 0), (11, 0), (11, 1), (12, 1), (14, 2), (16, 0)]) :
    sourceEffect ⟨b, n, u, none⟩ m s = s := by
  simp only [List.mem_cons, Prod.mk.injEq, List.not_mem_nil, or_false, not_or] at h
  obtain ⟨-, h70, h80, -, h111, h121, h142, h160⟩ := h
  unfold sourceEffect
  dsimp only
  rw [if_neg h70, if_neg h80, if_neg h111, if_neg h121, if_neg h142, if_neg h160]

theorem detect_notes (b : Fin 17) (n : Fin 64) (u : Nat) (m : MemRead) (s : State) (hInv : s.Inv) (hs : sourceExists b n = true)
    (hQ : Quietly b n u s) (hl : lineRegion b n = none)
    (hn : (b.val, n.val) ∉ [(1, 1), (7, 0), (8, 0), (11, 0), (11, 1), (12, 1), (14, 2), (16, 0)]) :
    Gives (.faultDetect b n u m) s [.hcp, .flt] fun t =>
      t.flt = { s.flt with
        blocks := tset {} s.flt.blocks b ((s.blk b).seen s.now n u)
        standing := (s.flt.standing.filter fun x => x != (b.val, n.val, u)) ++
          (if mayPersist b n then [(b.val, n.val, u)] else []) } := by
  have h0 : ¬ (b.val = 1 ∧ n.val = 1) := fun h => hn (by rw [h.1, h.2]; decide)
  have h1 : ¬ (b.val = 11 ∧ n.val = 0) := fun h => hn (by rw [h.1, h.2]; decide)
  have heff : effectOf (detectStep b n u m) s = noteDetected ⟨b, n, u, none⟩ { s with emitted := [] } := by
    refine (detectStep_notes (s := { s with emitted := [] }) hQ.live h0 h1 fun hb hn => absurd ⟨hb, hn⟩ hQ.plain.1).trans ?_
    rw [detectedAt_line hl, sourceEffect_none m _ hn]
  refine gives_of_noted (exec_faultDetect u m s hs) heff (congrArg (· ++ [_]) hInv.acted) (hQ.of_same rfl rfl) (by simp) (by simp)
    .of_parts fun t F => ?_
  rw [F.flt]
  dsimp only [noteDetected]
  rw [← hInv.acted]
  rfl

theorem detect_line (b : Fin 17) (n : Fin 64) (u : Nat) (m : MemRead) (g : Fin 6) (s : State) (hInv : s.Inv)
    (hs : sourceExists b n = true) (hh : s.faultsHeld = false) (hN : s.NoResets) (hl : lineRegion b n = some g) :
    Gives (.faultDetect b n u m) s [.hcp, .flt, .cap, .comp, .strm, .pipes] fun t =>
      let log : List Uncorr := tget [] s.flt.logs g
      let e : Uncorr := ⟨s.now, ⟨g, m.owner, m.address, m.id, m.detail⟩, false⟩
      t.flt.logs = tset [] s.flt.logs g ((log ++ [e]).drop (log.length + 1 - 32)) ∧
      (s.gated b n u = false → (t.blk b).sticky.getLsbD n = true) ∧
      (m.upset ≠ {} → t.upset g m.address.toNat = m.upset) := by
  have hd : detectedAt b n u m = ⟨b, n, u, some ⟨g, m.owner, m.address, m.id, m.detail⟩⟩ := by
    unfold detectedAt
    rw [hl]
    rfl
  have hsrc := lineRegion_sources hl
  simp only [List.mem_cons, Prod.mk.injEq, List.not_mem_nil, or_false] at hsrc
  obtain ⟨ha, hu⟩ := sourceEffect_line (u := u) hl (l := ⟨g, m.owner, m.address, m.id, m.detail⟩) rfl m { s with emitted := [] }
  rw [← hd] at ha hu
  refine gives_of_source hInv hs hh hN (by omega) (by omega) (by omega) ha (by simp) (by simp) fun t h => ⟨?_, h.seen, fun hm => ?_⟩
  · rw [h.logs, hd]
    rfl
  · rw [← hu hm]
    unfold State.upset
    rw [h.follows.flt]
    rfl

/-! ## The sources with an effect of their own -/

/-- FAULT_DETECT of a source without a line, by what it does of itself. -/
theorem detect_own {b : Fin 17} {n : Fin 64} {u : Nat} {m : MemRead} {s x : State} {post : State → Prop} (hInv : s.Inv)
    (hs : sourceExists b n = true) (hh : s.faultsHeld = false) (hN : s.NoResets) (hg : s.gated b n u = false)
    (h0 : ¬ (b.val = 1 ∧ n.val = 1)) (h1 : ¬ (b.val = 11 ∧ n.val = 0)) (h3 : ¬ (b.val = 3 ∧ n.val = 3)) (hl : lineRegion b n = none)
    (hx : sourceEffect ⟨b, n, u, none⟩ m { s with emitted := [] } = x)
    (hp : ∀ t, (t.blk b).sticky.getLsbD n = true → t.chip = x.chip → t.cap = x.cap → t.strm = x.strm → t.upl = x.upl →
      t.flt.upsets = x.flt.upsets → t.flt.outer = x.flt.outer → post t) :
    Gives (.faultDetect b n u m) s [.chip, .boot, .ports, .hcp, .flt, .cap, .strm, .upl] post := by
  have hd := detectedAt_line (u := u) (m := m) hl
  rw [← hd] at hx
  have ha : SourceActs [.chip, .boot, .ports, .hcp, .cap, .strm, .upl] { s with emitted := [] } x :=
    hx ▸ sourceEffect_acts (by rw [hd]) m _
  refine gives_of_source hInv hs hh hN h0 h1 h3 (hx.symm ▸ ha) (by simp) (by simp) fun t h => ?_
  rw [hx] at h
  have F := h.follows
  have hf := F.flt
  have hseen := h.seen
  rw [hd] at hseen
  exact hp t (hseen hg) F.chip F.cap F.strm F.upl (by rw [hf]; rfl) (by rw [hf]; rfl)

/-- A credit fault waits for the rewind of its stream (R330). -/
theorem creditFault_calmly (u : Nat) (s : State) : Calmly [.hcp, .strm] s (creditFault u s) ∧
    (creditFault u s).flt.detected = s.flt.detected ++ [⟨11, 0, u, none⟩] ∧
    ((creditFault u s).stream u).opened = ((s.stream u).opened.filter fun p => p.eos) ∧
    ((creditFault u s).stream u).creditFault = true ∧ ((creditFault u s).stream u).starved = true := by
  unfold creditFault
  dsimp only
  have h1 := setStream_keeps u { s.stream u with creditFault := true, starved := true } s
  have hst := stream_setStream_self s u { s.stream u with creditFault := true, starved := true }
  have hfl : (s.setStream u { s.stream u with creditFault := true, starved := true }).flt = s.flt := rfl
  generalize s.setStream u { s.stream u with creditFault := true, starved := true } = y at h1 hst hfl ⊢
  have h2 : Calmly [.hcp, .strm] y (raise 11 0 u y) :=
    (raise_calmly u (by decide) (by decide) (by decide) y).weaken (by simp)
  have hd2 : (raise 11 0 u y).flt.detected = s.flt.detected ++ [⟨11, 0, u, none⟩] := by rw [← hfl]; rfl
  have hs2 : (raise 11 0 u y).stream u = y.stream u := rfl
  generalize raise 11 0 u y = z at h2 hd2 hs2 ⊢
  have h3 := (streamEvent_notices u 5 0 0 0 z).keeps
  have hs3 := streamEvent_stream u 5 0 0 0 z u
  generalize streamEvent u 5 0 0 0 z = w at h3 hs3 ⊢
  have h4 := rewindStream_keeps u w
  obtain ⟨-, -, c, d, k, hi, lo, hr⟩ := rewindStream_only u w
  generalize rewindStream u w = v at h4 hr ⊢
  have hs : w.stream u = { s.stream u with creditFault := true, starved := true } := hs3.trans (hs2.trans hst)
  rw [hs] at hr
  refine ⟨(((Calmly.of_keeps h1).weaken (by simp)).trans h2).trans
    (((Calmly.of_keeps h3).weaken (by simp)).trans (Calmly.of_keeps h4)), ?_, by rw [hr], by rw [hr], by rw [hr]⟩
  rw [show v.flt = w.flt from h4 .flt (by simp), show w.flt = z.flt from h3 .flt (by simp), hd2]

theorem detect_credit (u : Nat) (m : MemRead) (s : State) (hInv : s.Inv) (hh : s.faultsHeld = false) (hN : s.NoResets)
    (hg : s.gated 11 0 u = false) :
    Gives (.faultDetect 11 0 u m) s [.chip, .boot, .ports, .hcp, .flt, .cap, .strm, .upl] fun t =>
      (t.blk 11).sticky.getLsbD 0 = true ∧ (t.stream u).opened = ((s.stream u).opened.filter fun p => p.eos) ∧
        (t.stream u).creditFault = true ∧ (t.stream u).starved = true := by
  have heff : effectOf (detectStep 11 0 u m) s = creditFault u { s with emitted := [] } := by
    have hh' : State.faultsHeld { s with emitted := [] } = false := hh
    unfold effectOf detectStep faultDetect
    rw [if_neg (fun h => absurd h.1 (by decide)), hh']
    rfl
  obtain ⟨hc, hd, ho, hf, hst⟩ := creditFault_calmly u { s with emitted := [] }
  generalize creditFault u { s with emitted := [] } = x at heff hc hd ho hf hst
  have hd' : x.flt.detected = [⟨11, 0, u, none⟩] := by rw [hd, hInv.acted]; rfl
  have hphase : x.chip = s.chip := hc.keeps .chip (by simp)
  refine gives_of_calm (exec_faultDetect (b := 11) (n := 0) u m s rfl) heff (hc.noResets hN) (fun d hd => ?_)
    ((Keeps.weaken (ch' := [.chip, .boot, .ports, .hcp, .flt, .cap, .strm, .upl]) hc.keeps (by simp))) fun t F _ _ _ => ?_
  · rw [hd', List.mem_singleton] at hd
    subst hd
    exact ⟨(by decide : 11 < 17), (by decide : 0 < 64), by simp⟩
  · have hs := stream_of_strm F.strm u
    refine ⟨F.seen ((faultsHeld_of_phase (congrArg Chip.phase hphase)).trans hh) ⟨11, 0, u, none⟩ (by rw [hd']; exact List.mem_singleton_self _)
      ((gated_of_blocks (by rw [hc.flt]) ..).trans hg), ?_, ?_, ?_⟩
    · rw [hs, ho]
      rfl
    · rw [hs, hf]
    · rw [hs, hst]

theorem upset_setUpset (g a : Nat) (w : Upset) (s : State) : (s.setUpset g a w).upset g a = w := tget_tset_self ..

/-- What the sources with an effect of their own leave (Table FLT-4). -/
def OwnEffect (b n u : Nat) (m : MemRead) (s t : State) : Prop :=
  (t.blk b).sticky.getLsbD n = true ∧
  (b = 7 → (t.win u).cycleFail = true) ∧
  (b = 11 → (t.stream u).opened = (s.stream u).opened.filter fun p => p.eos) ∧
  (b = 11 → n = 0 → (t.stream u).creditFault = true ∧ (t.stream u).starved = true) ∧
  (b = 12 → (t.port u).sending = none) ∧
  (b = 14 → tget 0 t.flt.outer u = (tget 0 s.flt.outer u + 1) % 2 ^ 64 ∧ t.upset u m.address.toNat = {}) ∧
  (b = 16 → t.chip.pcieUp = false)

theorem detect_acts (b : Fin 17) (n : Fin 64) (u : Nat) (m : MemRead) (s : State) (hInv : s.Inv) (hh : s.faultsHeld = false)
    (hN : s.NoResets) (hg : s.gated b n u = false)
    (hn : (b.val, n.val) ∈ [(7, 0), (8, 0), (11, 0), (11, 1), (12, 1), (14, 2), (16, 0)]) :
    Gives (.faultDetect b n u m) s [.chip, .boot, .ports, .hcp, .flt, .cap, .strm, .upl] fun t => OwnEffect b n u m s t := by
  obtain ⟨b, hb⟩ := b
  obtain ⟨n, hn'⟩ := n
  simp only [List.mem_cons, Prod.mk.injEq, List.not_mem_nil, or_false] at hn
  rcases hn with ⟨rfl, rfl⟩ | ⟨rfl, rfl⟩ | ⟨rfl, rfl⟩ | ⟨rfl, rfl⟩ | ⟨rfl, rfl⟩ | ⟨rfl, rfl⟩ | ⟨rfl, rfl⟩
  case inl =>
    refine detect_own hInv rfl hh hN hg (by simp) (by simp) (by simp) rfl rfl fun t hs _ hc _ _ _ _ =>
      ⟨hs, fun _ => ?_, nofun, nofun, nofun, nofun, nofun⟩
    rw [win_of_cap hc]
    exact congrArg Window.cycleFail (tget_tset_self ..)
  case inr.inl =>
    exact detect_own hInv rfl hh hN hg (by simp) (by simp) (by simp) rfl rfl fun t hs _ _ _ _ _ _ =>
      ⟨hs, nofun, nofun, nofun, nofun, nofun, nofun⟩
  case inr.inr.inl =>
    obtain ⟨t, hi, hk, hs, ho, hc⟩ := detect_credit u m s hInv hh hN hg
    exact ⟨t, hi, hk, hs, nofun, fun _ => ho, fun _ _ => hc, nofun, nofun, nofun⟩
  case inr.inr.inr.inl =>
    obtain ⟨-, -, c, d, k, hi, lo, hr⟩ := rewindStream_only u { s with emitted := [] }
    refine detect_own hInv rfl hh hN hg (by simp) (by simp) (by simp) rfl
      (show _ = rewindStream u { s with emitted := [] } from rfl) fun t hs _ _ hst _ _ _ =>
      ⟨hs, nofun, fun _ => ?_, nofun, nofun, nofun, nofun⟩
    rw [stream_of_strm hst, hr]
    rfl
  case inr.inr.inr.inr.inl =>
    refine detect_own hInv rfl hh hN hg (by simp) (by simp) (by simp) rfl
      (show _ = underrun u { s with emitted := [] } from rfl) fun t hs _ _ _ hu _ _ =>
      ⟨hs, nofun, nofun, nofun, fun _ => ?_, nofun, nofun⟩
    rw [port_of_upl hu]
    exact (underrun_acts u _).2
  case inr.inr.inr.inr.inr.inl =>
    refine detect_own hInv rfl hh hN hg (by simp) (by simp) (by simp) rfl
      (show _ = countOuter u (State.setUpset { s with emitted := [] } u m.address.toNat {}) from rfl) fun t hs _ _ _ _ hup hou =>
      ⟨hs, nofun, nofun, nofun, nofun, fun _ => ⟨?_, ?_⟩, nofun⟩
    · rw [hou]
      exact tget_tset_self ..
    · unfold State.upset
      rw [hup]
      exact upset_setUpset u m.address.toNat {} { s with emitted := [] }
  case inr.inr.inr.inr.inr.inr =>
    refine detect_own hInv rfl hh hN hg (by simp) (by simp) (by simp) rfl
      (show _ = pcieDown { s with emitted := [] } from rfl) fun t hs hc _ _ _ _ _ =>
      ⟨hs, nofun, nofun, nofun, nofun, nofun, fun _ => ?_⟩
    rw [hc]
    rfl

/-! ## The end of a block reset -/

theorem blockResetEnd_outside {b u : Nat} {s : State} (h : u ∉ (s.blk b).inReset ∨ u = dspUnit) : blockResetEnd b u s = s := by
  unfold blockResetEnd
  refine if_pos ?_
  rw [Bool.or_eq_true, beq_iff_eq, Bool.not_eq_true', ← Bool.not_eq_true, List.contains_iff_mem]
  exact h

theorem end_outside (b : Fin 17) (u : Nat) (s : State) (hInv : s.Inv) (h : u ∉ (s.blk b).inReset ∨ u = dspUnit) :
    Gives (.blockResetEnd b u) s [] fun _ => True :=
  gives_nothing rfl (blockResetEnd_outside (s := { s with emitted := [] }) h) hInv.acted fun _ _ => trivial

theorem setCal_keeps (c : Calendar) (s : State) : Keeps [.cal] s { s with cal := c } := .of_parts

theorem endSwap_keeps (p result : Nat) (s : State) : Keeps [.hcp, .cal, .pipes] s (endSwap p result s) := by
  unfold endSwap
  dsimp only
  cases (s.pipe p).swap with
  | none => exact .refl _ s
  | some w =>
    dsimp only
    have hy : Keeps [.hcp, .cal, .pipes] s (s.setPipe p { s.pipe p with
      swap := none, bank := .loaded, histB := [], bRun := 0, fadeDone := 0
      lastLanding := w.landing.getD (s.pipe p).lastLanding }) := (setPipe_keeps p _ s).weaken (by simp)
    generalize s.setPipe p { s.pipe p with
      swap := none, bank := .loaded, histB := [], bRun := 0, fadeDone := 0
      lastLanding := w.landing.getD (s.pipe p).lastLanding } = y at hy ⊢
    have told : ∀ (j : JobRef) (pay : Bytes) (z : State), Keeps [.hcp, .cal, .pipes] z (complete j 0 0 pay z) :=
      fun j pay z => (complete_hcp j 0 0 pay z).keeps.weaken (by simp)
    cases w.job with
    | none => exact hy
    | some j =>
      cases w.fire with
      | some f => exact hy.trans (told _ _ _)
      | none =>
        dsimp only
        split
        · exact (hy.trans ((setCal_keeps _ _).weaken (by simp))).trans (told _ _ _)
        · exact hy.trans (told _ _ _)

/-- A pipe that was waiting begins again. -/
theorem resumePipe_keeps (p : Nat) (s : State) : Keeps [.hcp, .cal, .pipes] s (resumePipe p s) := by
  unfold resumePipe
  split
  · dsimp only
    have hd : Keeps [.hcp, .cal, .pipes] s (dropSwap p s) := endSwap_keeps p _ s
    generalize dropSwap p s = y at hd ⊢
    have hp : Keeps [.hcp, .cal, .pipes] s (y.setPipe p { y.pipe p with
      dcM := (y.pipe p).dcPreset, startAt := if (y.pipe p).restart then max (y.pipe p).startAt y.now else (y.pipe p).startAt }) :=
      hd.trans ((setPipe_keeps p _ y).weaken (by simp))
    generalize y.setPipe p { y.pipe p with
      dcM := (y.pipe p).dcPreset, startAt := if (y.pipe p).restart then max (y.pipe p).startAt y.now else (y.pipe p).startAt } = z at hp ⊢
    have begins : ∀ x, Keeps [.hcp, .cal, .pipes] s x → Keeps [.hcp, .cal, .pipes] s (tryBegin p x) :=
      fun x hx => hx.trans ((tryBegin_keeps p x).weaken (by simp))
    split
    · exact begins z hp
    · exact begins _ (hp.trans ((notify_hcp _ _ z).keeps.weaken (by simp)))
  · exact .refl _ s

theorem resetWindow_keeps (n : Nat) (s : State) : Keeps [.hcp, .cap, .upl] s (resetWindow n s) := by
  unfold resetWindow
  dsimp only
  have hd : Keeps [.hcp, .cap, .upl] s (decideWindow n s) := (decideWindow_actsOn n s).keeps
  split
  · exact hd.trans ((freeze_keeps n 3 4 _).weaken (by simp))
  · split
    · exact hd.trans ((setWin_keeps n _ _).weaken (by simp))
    · exact hd

theorem releaseHeld_keeps (s : State) : Keeps [.hcp] s (releaseHeld s) := by
  unfold releaseHeld releaseFrom
  refine Keeps.trans (t := { s with hcp := { s.hcp with held := s.hcp.held.take 0 } }) .of_parts (.forEach (fun h t => ?_) _ _)
  cases h with
  | unsolicited o p => exact (notify_hcp o p t).keeps
  | completion j st d p => exact (complete_hcp j st d p t).keeps

theorem setPtp_keeps (k : Nat) (x : PtpCfg) (s : State) : Keeps [.xfer] s (s.setPtp k x) := .of_parts

theorem setXfer_keeps (x : Xfer) (s : State) : Keeps [.xfer] s (s.setXfer x) := .of_parts

/-- What the firmware that runs again makes up for. -/
theorem fwAgain_keeps (s : State) : Keeps [.hcp, .xfer] s (fwAgain s) := by
  have hd : Keeps [.hcp, .xfer] s (drainStamps s) :=
    Keeps.weaken (ch := [.xfer]) (.forEach (fun k t => setPtp_keeps k _ t) _ s) (by simp)
  have hr : Keeps [.hcp, .xfer] (drainStamps s) (releaseHeld (drainStamps s)) := (releaseHeld_keeps _).weaken (by simp)
  have stored : ∀ (new : List Bytes) (y : State), Keeps [.hcp, .xfer] y (storeSnaps new y) := by
    intro new y
    cases new with
    | nil => exact .refl _ y
    | cons b bs => exact (setXfer_keeps _ y).weaken (by simp)
  have hw : ∀ y : State, Keeps [.hcp, .xfer] y (storeWaiting y) := fun y =>
    Keeps.trans ((setXfer_keeps { y.xfer with snapsWait := [] } y).weaken (by simp)) (stored _ _)
  exact (hd.trans hr).trans (hw _)

/-- The parts that a unit that leaves reset may change, beside the fault registers. -/
abbrev leaveParts : List Part := [.hcp, .cap, .cal, .pipes, .upl, .xfer]

/-- What the unit that leaves reset restarts: of the fault registers, only the conditions of PLLs that lock again go. -/
structure Restarts (b u : Nat) (s t : State) : Prop where
  keeps : Keeps (.flt :: leaveParts) s t
  flt : t.flt = { s.flt with standing := t.flt.standing }
  good : b = 12 → (t.port u).goodTick = s.tick

theorem Restarts.of_keeps {b u : Nat} {s t : State} (hb : b ≠ 12) (h : Keeps leaveParts s t) : Restarts b u s t :=
  ⟨h.weaken fun _ hp => List.mem_cons_of_mem _ hp, by rw [show t.flt = s.flt from h .flt (by simp)], fun e => absurd e hb⟩

theorem unitLeaves_restarts (b u : Nat) (s : State) : Restarts b u s (unitLeaves b u s) := by
  have windows : ∀ ws : List Nat, Keeps leaveParts s (forEach ws resetWindow s) := fun ws =>
    Keeps.weaken (ch := [.hcp, .cap, .upl]) (.forEach resetWindow_keeps ws s) (by simp)
  unfold unitLeaves
  split
  · exact .of_keeps (by decide) (windows _)
  · exact .of_keeps (by decide) ((windows _).trans (Keeps.weaken (ch := [.hcp, .cal, .pipes]) (.forEach resumePipe_keeps _ _) (by simp)))
  · exact .of_keeps (by decide) (windows _)
  · exact ⟨.of_parts, rfl, fun _ => by rw [port_setPort_self]⟩
  · exact ⟨.of_parts, rfl, nofun⟩
  · split
    · exact .of_keeps (by decide) ((fwAgain_keeps s).weaken (by simp))
    · exact .of_keeps (by decide) (.refl _ s)
  · exact ⟨.refl _ s, rfl, fun h => absurd h (by assumption)⟩

/-- The registers of a block one of whose units leaves reset. -/
def FaultBlock.released (f : FaultBlock) (k tick : Nat) : FaultBlock :=
  { f with
    inReset := f.inReset.filter (· ≠ k), held := f.held.filter (· ≠ k)
    gates := f.gates.map fun g => if g.unit = k then { g with left := some tick } else g }

/-- The registers of a block one of whose units stays held where its reset ends. -/
def FaultBlock.keptHeld (f : FaultBlock) (k : Nat) : FaultBlock := { f with inReset := f.inReset.filter (· ≠ k) }

theorem leaveReset_eq (b k : Nat) (s : State) :
    leaveReset b k s = unitLeaves b k (raise b 63 k (s.setBlk b ((s.blk b).released k s.tick))) := rfl

theorem blk_of_flt {s t : State} (h : t.flt = s.flt) (b : Nat) : t.blk b = s.blk b := by unfold State.blk; rw [h]

theorem setBlk_keeps (b : Nat) (f : FaultBlock) (s : State) : Keeps [.flt] s (s.setBlk b f) := .of_parts

theorem blk_setBlk_self (s : State) (b : Nat) (f : FaultBlock) : (s.setBlk b f).blk b = f := tget_tset_self ..

theorem blk_setBlk_ne (s : State) {b c : Nat} (f : FaultBlock) (h : c ≠ b) : (s.setBlk b f).blk c = s.blk c := tget_tset_ne _ _ _ _ _ h

/-- A change of a block's registers that leaves the reactions. -/
theorem noResets_setBlk {s : State} {b : Nat} {f : FaultBlock} (hf : f.react = (s.blk b).react) (hN : s.NoResets) :
    (s.setBlk b f).NoResets := by
  intro c hc n hn
  have h := hN c hc n hn
  have hr : ((s.setBlk b f).blk c).react = (s.blk c).react := by
    by_cases hcb : c = b
    · subst hcb; rw [blk_setBlk_self, hf]
    · rw [blk_setBlk_ne _ _ hcb]
  unfold State.reaction at *
  rw [hr]
  exact h

/-- A unit of a hub without waiting fault events leaves reset. -/
structure Released (b k : Nat) (s x : State) : Prop where
  keeps : Keeps (.flt :: leaveParts) s x
  blocks : x.flt.blocks = (s.setBlk b ((s.blk b).released k s.tick)).flt.blocks
  detected : x.flt.detected = [⟨b, 63, k, none⟩]
  good : b = 12 → (x.port k).goodTick = s.tick

theorem leaveReset_released (b k : Nat) (s : State) (hq : s.flt.detected = []) : Released b k s (leaveReset b k s) := by
  rw [leaveReset_eq]
  have h := unitLeaves_restarts b k (raise b 63 k (s.setBlk b ((s.blk b).released k s.tick)))
  generalize unitLeaves b k (raise b 63 k (s.setBlk b ((s.blk b).released k s.tick))) = x at h
  have h0 : Keeps (.flt :: leaveParts) s (raise b 63 k (s.setBlk b ((s.blk b).released k s.tick))) :=
    ((setBlk_keeps b _ s).trans (raise_keeps b 63 k _)).weaken (by simp)
  refine ⟨h0.trans h.keeps, by rw [h.flt]; rfl, ?_, h.good⟩
  rw [h.flt]
  show s.flt.detected ++ [_] = _
  rw [hq]
  rfl

/-- What a unit that leaves reset leaves in its block's registers, once RESET_DONE has acted. -/
structure LeftReset (b k : Nat) (s t : State) : Prop where
  inReset : (t.blk b).inReset = (s.blk b).inReset.filter fun u => u ≠ k
  held : (t.blk b).held = (s.blk b).held.filter fun u => u ≠ k
  gates : (t.blk b).gates = (s.blk b).gates.map fun g => if g.unit = k then { g with left := some s.tick } else g
  done : s.faultsHeld = false → t.gated b 63 k = false → (t.blk b).sticky.getLsbD 63 = true

theorem Released.noResets {b k : Nat} {s x : State} (h : Released b k s x) (hN : s.NoResets) : x.NoResets :=
  noResets_of_blocks h.blocks (noResets_setBlk (f := (s.blk b).released k s.tick) rfl hN)

theorem Released.calm {b k : Nat} {s x : State} (h : Released b k s x) (hb : b < 17) : ∀ d ∈ x.flt.detected, d.Calm := by
  intro d hd
  rw [h.detected, List.mem_singleton] at hd
  rw [hd]
  exact ⟨hb, (by decide : 63 < 64), fun e => absurd e.2 (by simp)⟩

theorem Released.left {b k : Nat} {r s x t : State} (h : Released b k s x) (F : FollowsCalm r x t) : LeftReset b k s t := by
  have hx : x.blk b = (s.blk b).released k s.tick := by
    unfold State.blk
    rw [h.blocks]
    exact blk_setBlk_self ..
  have hs : (t.blk b).standing = ((s.blk b).released k s.tick).standing := by rw [F.blocks, hx]
  exact {
    inReset := (congrArg FaultBlock.inReset hs :)
    held := (congrArg FaultBlock.held hs :)
    gates := (congrArg FaultBlock.gates hs :)
    done := fun hh hg => by
      have hlive : x.faultsHeld = false := (faultsHeld_of_phase (congrArg Chip.phase (h.keeps .chip (by simp)))).trans hh
      refine F.seen hlive ⟨b, 63, k, none⟩ (by rw [h.detected]; exact List.mem_singleton_self _) ?_
      rw [← gated_of_standing F.blocks]
      exact hg }

theorem blockResetEnd_leaves {b u : Nat} {s : State} (hu : u ∈ (s.blk b).inReset) (hd : u ≠ dspUnit) (hh : u ∉ (s.blk b).held) :
    blockResetEnd b u s = leaveReset b u s := by
  unfold blockResetEnd
  dsimp only
  rw [if_neg, if_neg]
  · rw [List.contains_iff_mem]; exact hh
  · rw [Bool.or_eq_true, beq_iff_eq, Bool.not_eq_true', ← Bool.not_eq_true, List.contains_iff_mem]
    exact fun h => h.elim (fun h => h hu) hd

theorem blockResetEnd_holds {b u : Nat} {s : State} (hu : u ∈ (s.blk b).inReset) (hd : u ≠ dspUnit) (hh : u ∈ (s.blk b).held) :
    blockResetEnd b u s = raise b 62 u (s.setBlk b ((s.blk b).keptHeld u)) := by
  unfold blockResetEnd
  dsimp only
  rw [if_neg, if_pos]
  · rfl
  · rw [List.contains_iff_mem]; exact hh
  · rw [Bool.or_eq_true, beq_iff_eq, Bool.not_eq_true', ← Bool.not_eq_true, List.contains_iff_mem]
    exact fun h => h.elim (fun h => h hu) hd

theorem end_leaves (b : Fin 17) (u : Nat) (s : State) (hInv : s.Inv) (hu : u ∈ (s.blk b).inReset) (hd : u ≠ dspUnit)
    (hh : u ∉ (s.blk b).held) (hN : s.NoResets) :
    Gives (.blockResetEnd b u) s [.hcp, .flt, .cap, .cal, .pipes, .upl, .xfer, .ledger] fun t =>
      let f := s.blk b
      (t.blk b).inReset = f.inReset.filter (fun k => k ≠ u) ∧ (t.blk b).held = f.held ∧
      (t.blk b).gates = (f.gates.map fun g => if g.unit = u then { g with left := some s.tick } else g) ∧
      (s.faultsHeld = false → t.gated b 63 u = false → (t.blk b).sticky.getLsbD 63 = true) ∧
      (b.val = 12 → (t.port u).goodTick = s.tick) := by
  have heff : effectOf (blockResetEnd b u) s = leaveReset b u { s with emitted := [] } :=
    blockResetEnd_leaves (s := { s with emitted := [] }) hu hd hh
  have h := leaveReset_released b u { s with emitted := [] } hInv.acted
  generalize leaveReset b u { s with emitted := [] } = x at heff h
  refine gives_of_calm rfl heff (h.noResets hN) (h.calm b.isLt) (Keeps.weaken (ch := .flt :: leaveParts) h.keeps (by simp))
    fun t F _ _ _ => ?_
  have L := h.left F
  refine ⟨L.inReset, L.held.trans (List.filter_eq_self.mpr fun k hk => ?_), L.gates, L.done, fun hb => ?_⟩
  · exact decide_eq_true fun e => hh (e ▸ hk)
  · rw [port_of_upl F.upl]
    exact h.good hb

theorem end_holds (b : Fin 17) (u : Nat) (s : State) (hInv : s.Inv) (hu : u ∈ (s.blk b).inReset) (hd : u ≠ dspUnit)
    (hh : u ∈ (s.blk b).held) (hN : s.NoResets) :
    Gives (.blockResetEnd b u) s [.hcp, .flt] fun t =>
      let f := s.blk b
      (t.blk b).inReset = f.inReset.filter (fun k => k ≠ u) ∧ (t.blk b).held = f.held ∧
      (s.faultsHeld = false → t.gated b 62 u = false → (t.blk b).sticky.getLsbD 62 = true) := by
  have heff : effectOf (blockResetEnd b u) s = _ := blockResetEnd_holds (s := { s with emitted := [] }) hu hd hh
  have hN' : (raise b 62 u (State.setBlk { s with emitted := [] } b ((s.blk b).keptHeld u))).NoResets :=
    noResets_of_blocks (s := s.setBlk b ((s.blk b).keptHeld u)) rfl (noResets_setBlk rfl hN)
  have hdet : (raise b 62 u (State.setBlk { s with emitted := [] } b ((s.blk b).keptHeld u))).flt.detected = [⟨b, 62, u, none⟩] :=
    congrArg (· ++ [_]) hInv.acted
  have hblk : (raise b 62 u (State.setBlk { s with emitted := [] } b ((s.blk b).keptHeld u))).blk b = (s.blk b).keptHeld u :=
    blk_setBlk_self ..
  have hk : Keeps [.hcp, .flt] s (raise b 62 u (State.setBlk { s with emitted := [] } b ((s.blk b).keptHeld u))) :=
    ((setBlk_keeps b _ { s with emitted := [] }).trans (raise_keeps b 62 u _)).weaken (by simp)
  change effectOf _ s = raise b 62 u (State.setBlk { s with emitted := [] } b ((s.blk b).keptHeld u)) at heff
  generalize raise b 62 u (State.setBlk { s with emitted := [] } b ((s.blk b).keptHeld u)) = x at heff hN' hdet hblk hk
  refine gives_of_calm rfl heff hN' (fun d hd => ?_) hk fun t F _ _ _ => ?_
  · rw [hdet, List.mem_singleton] at hd
    rw [hd]
    exact ⟨b.isLt, (by decide : 62 < 64), fun e => absurd e.2 (by simp)⟩
  · have hs : (t.blk b).standing = ((s.blk b).keptHeld u).standing := by rw [F.blocks, hblk]
    refine ⟨(congrArg FaultBlock.inReset hs :), (congrArg FaultBlock.held hs :), fun hlive hg => ?_⟩
    have hheld : x.faultsHeld = false := (faultsHeld_of_phase (congrArg Chip.phase (hk .chip (by simp)))).trans hlive
    refine F.seen hheld ⟨b, 62, u, none⟩ (by rw [hdet]; exact List.mem_singleton_self _) ?_
    rw [← gated_of_standing F.blocks]
    exact hg

/-! ## A first event whose reaction asks for a reset -/

/-- A command ends as its fault events leave it, once none waits. -/
theorem gives_of_settled {i : Instr} {s y : State} {f : State → State} {ch : List Part} {post : State → Prop}
    (hi : exec i s = .next (after f s)) (hy : actFaults s reactionDepth (effectOf f s) = y) (hq : y.flt.detected = []) (hk : Keeps ch s y)
    (hp : ∀ t, Follows s y t → post t) : Gives i s ch post :=
  gives_of_effect (f := fun _ => y) (hi.trans (by rw [after_acted hy hq])) rfl hq hk hp

/-- The first event of a source that is not gated calls for its reaction. -/
theorem acts_first {d : Detected} {s : State} (hg : s.gated d.block d.source d.unit = false)
    (hf : (s.blk d.block).sticky.getLsbD d.source = false) :
    HcpOnly (s.setBlk d.block ((s.blk d.block).seen s.now d.source d.unit)) (d.acts s).1 ∧
      (d.acts s).2 = some (s.reaction d.block d.source) := by
  unfold Detected.acts
  rw [if_neg (by rw [hg]; exact Bool.false_ne_true)]
  dsimp only
  rw [hf]
  refine ⟨?_, congrArg some (reaction_seen ..)⟩
  generalize (if (!false) = true then _ else _ : Byte) = byte
  generalize s.setBlk d.block ((s.blk d.block).seen s.now d.source d.unit) = y
  split
  · exact faultEvent_hcp ..
  · exact .refl _

/-- The event acts in a state of the same blocks and mailboxes: a failed check of the ledger is marked. -/
theorem entered_blocks {d : Detected} (s : State) (hl : d.line = none) :
    Keeps [.flt] s (d.entered s) ∧ (d.entered s).flt = { s.flt with ledgerBad := (d.entered s).flt.ledgerBad } := by
  unfold Detected.entered logLine
  rw [hl]
  dsimp only
  split
  · exact ⟨.of_parts, rfl⟩
  · exact ⟨.refl _ s, rfl⟩

/-- The state in which the first event of a cycle has set its registers. -/
structure FirstSeen (d : Detected) (s z : State) : Prop where
  keeps : Keeps [.hcp, .flt] s z
  ports : z.hcp.ports = s.hcp.ports
  flt : z.flt = { s.flt with
    blocks := tset {} s.flt.blocks d.block ((s.blk d.block).seen s.now d.source d.unit), detected := [], ledgerBad := z.flt.ledgerBad }
  bad : ¬ (d.block = 13 ∧ d.source = 0) → z.flt.ledgerBad = s.flt.ledgerBad

theorem setSource_first {d : Detected} {s : State} (hl : d.line = none) (hg : s.gated d.block d.source d.unit = false)
    (hf : (s.blk d.block).sticky.getLsbD d.source = false) :
    FirstSeen d s (setSource d (acted s)).1 ∧ (setSource d (acted s)).2 = some (s.reaction d.block d.source) := by
  rw [setSource_eq]
  obtain ⟨hk, he⟩ := entered_blocks (acted s) hl
  have hbad : ¬ (d.block = 13 ∧ d.source = 0) → (d.entered (acted s)).flt.ledgerBad = s.flt.ledgerBad := by
    intro h
    unfold Detected.entered logLine
    rw [hl, if_neg h]
    rfl
  generalize d.entered (acted s) = e at hk he hbad
  have hb : ∀ k, e.blk k = s.blk k := fun k => by unfold State.blk; rw [he]; rfl
  have hge : e.gated d.block d.source d.unit = false := (gated_of_standing (fun k => by rw [hb]) _ _ _).trans hg
  obtain ⟨h, hr⟩ := acts_first hge (by rw [hb]; exact hf)
  have hnow : e.now = s.now := now_of_time (hk .time (by simp))
  have hks : Keeps [.flt] s e := Keeps.trans (t := acted s) .of_parts hk
  refine ⟨⟨?_, ?_, ?_, ?_⟩, ?_⟩
  · exact (hks.weaken (by simp)).trans (Keeps.trans (t := e.setBlk d.block ((e.blk d.block).seen e.now d.source d.unit))
      ((setBlk_keeps _ _ e).weaken (by simp)) (h.keeps.weaken (by simp)))
  · exact (h.keeps .ports (by simp)).trans (hks .ports (by simp))
  · rw [h.flt, hb, hnow]
    show Flt.mk .. = _
    rw [he]
    rfl
  · intro hn
    rw [h.flt]
    exact hbad hn
  · rw [hr]
    unfold State.reaction
    rw [hb]

/-- A cycle of the fault events that a hub has detected, where its registers are not held. -/
theorem actFaults_cycle {old x : State} (k : Nat) {d : Detected} {ds : List Detected} (hd : x.flt.detected = d :: ds)
    (hh : x.faultsHeld = false) :
    actFaults old (k + 1) x =
      match (if (setSources x.flt.detected (acted x)).1.mayReset then chipAsked (setSources x.flt.detected (acted x)).2 else none) with
      | some d => chipReset (writeRecord (if d.block = 15 ∧ d.source = 2 then 3 else 2) d.block d.source d.unit old
          (setSources x.flt.detected (acted x)).1)
      | none => actFaults old k
        (let z := if (setSources x.flt.detected (acted x)).1.mayReset then
            forEach ((setSources x.flt.detected (acted x)).2.filter fun r => resetField r.2 == 1)
              (fun r t => beginReset r.1.block r.1.unit t) (setSources x.flt.detected (acted x)).1
          else (setSources x.flt.detected (acted x)).1
         if x.flt.detected.any fun d => d.block == 3 && d.source == 3 then beginDsp z else z) := by
  have hcycle : actFaults old (k + 1) x = (if (acted x).faultsHeld then acted x else
      match (if (setSources x.flt.detected (acted x)).1.mayReset then chipAsked (setSources x.flt.detected (acted x)).2 else none) with
      | some d => chipReset (writeRecord (if d.block = 15 ∧ d.source = 2 then 3 else 2) d.block d.source d.unit old
          (setSources x.flt.detected (acted x)).1)
      | none => actFaults old k
        (let z := if (setSources x.flt.detected (acted x)).1.mayReset then
            forEach ((setSources x.flt.detected (acted x)).2.filter fun r => resetField r.2 == 1)
              (fun r t => beginReset r.1.block r.1.unit t) (setSources x.flt.detected (acted x)).1
          else (setSources x.flt.detected (acted x)).1
         if x.flt.detected.any fun d => d.block == 3 && d.source == 3 then beginDsp z else z)) := by
    rw [actFaults, hd]
    rfl
  rw [hcycle]
  exact if_neg (by rw [show (acted x).faultsHeld = false from hh]; exact Bool.false_ne_true)

theorem setSources_one {d : Detected} {s : State} {r : Byte} (h : (setSource d s).2 = some r) :
    setSources [d] s = ((setSource d s).1, [(d, r)]) := by
  have hs : setSources [d] s = ((setSource d s).1, match (setSource d s).2 with
    | some b => [(d, b)]
    | none => []) := rfl
  rw [hs, h]

theorem actFaults_chip {old x : State} (k : Nat) {d : Detected} {r : Byte} (hd : x.flt.detected = [d]) (hh : x.faultsHeld = false)
    (hb : d.block < 17) (hr : (setSource d (acted x)).2 = some r) (h2 : resetField r = 2)
    (hm : (setSource d (acted x)).1.mayReset = true) :
    actFaults old (k + 1) x = chipReset (writeRecord (if d.block = 15 ∧ d.source = 2 then 3 else 2) d.block d.source d.unit old
      (setSource d (acted x)).1) := by
  have hask : chipAsked [(d, r)] = some d := by
    have hsome : ((List.range 17).findSome? fun b => [(d, r)].find? fun r => r.1.block == b && resetField r.2 == 2).isSome := by
      rw [List.findSome?_isSome_iff]
      exact ⟨d.block, List.mem_range.mpr hb, by simp [h2]⟩
    obtain ⟨a, ha⟩ := Option.isSome_iff_exists.mp hsome
    obtain ⟨c, -, hc⟩ := List.exists_of_findSome?_eq_some ha
    have hd : a = (d, r) := List.mem_singleton.mp (List.mem_of_find?_eq_some hc)
    unfold chipAsked
    rw [ha, hd]
    rfl
  rw [actFaults_cycle k hd hh, hd, setSources_one hr]
  dsimp only
  rw [if_pos hm, hask]

theorem actFaults_block {old x : State} (k : Nat) {d : Detected} {r : Byte} (hd : x.flt.detected = [d]) (hh : x.faultsHeld = false)
    (hp : ¬ (d.block = 3 ∧ d.source = 3)) (hr : (setSource d (acted x)).2 = some r) (h1 : resetField r = 1)
    (hm : (setSource d (acted x)).1.mayReset = true) :
    actFaults old (k + 1) x = actFaults old k (beginReset d.block d.unit (setSource d (acted x)).1) := by
  have hask : chipAsked [(d, r)] = none := by
    unfold chipAsked
    rw [Option.map_eq_none_iff, List.findSome?_eq_none_iff]
    intro b _
    simp [h1]
  rw [actFaults_cycle k hd hh, hd, setSources_one hr]
  dsimp only
  rw [if_pos hm, hask, if_pos hm]
  dsimp only
  rw [if_neg]
  · simp [h1, forEach]
  · simp only [List.any_cons, List.any_nil, Bool.or_false, Bool.and_eq_true, beq_iff_eq]
    exact hp

theorem faultsHeld_of_mayReset {s : State} (h : s.mayReset = true) : s.faultsHeld = false := by
  unfold State.mayReset at h
  unfold State.faultsHeld
  cases hp : s.chip.phase <;> simp [hp] at h ⊢

theorem mayReset_of_phase {s t : State} (h : t.chip.phase = s.chip.phase) : t.mayReset = s.mayReset := by
  unfold State.mayReset
  rw [h]

/-- The registers of a block that is reset as a whole. -/
def FaultBlock.begun (f : FaultBlock) (now : T16) : FaultBlock :=
  let starts := (f.starts.filter fun x => decide (now ≤ x.2 + unitsPerSec)) ++ [(0, now)]
  { f with
    starts := starts, inReset := f.inReset ++ [0]
    held := if 4 ≤ (starts.filter fun x => x.1 == 0).length then f.held ++ [0] else f.held
    gates := (f.gates.filter fun g => g.unit != 0) ++ [{ unit := 0, feeds := [] }] }

/-- The reset of the trigger engine touches no object. -/
theorem beginReset_engine {u : Nat} {s : State} (h : s.inReset 7 u = false) :
    beginReset 7 u s = s.setBlk 7 ((s.blk 7).begun s.now) := by
  have hs : ¬ (scopeOf 7 = .never ∨ s.inReset 7 u = true) := by
    rw [h]
    decide
  unfold beginReset FaultBlock.begun
  dsimp only
  have hu : ∀ y : State, unitEnters 7 0 y = y := fun _ => rfl
  rw [if_neg hs, show resetUnit 7 u = 0 from rfl, hu, if_neg (show ¬ scopeOf 7 = .byUnit by decide)]
  simp only [decide_eq_true_eq]

/-- What stands when the first event of a source without a line has set its registers; `x` is what FAULT_DETECT leaves. -/
structure DetectedFirst (d : Detected) (ch : List Part) (s x z : State) : Prop where
  one : x.flt.detected = [d]
  live : x.faultsHeld = false
  keeps : Keeps (.hcp :: .flt :: ch) s z
  mayReset : z.mayReset = true
  blocks : z.flt.blocks = tset {} s.flt.blocks d.block ((s.blk d.block).seen s.now d.source d.unit)
  acted : z.flt.detected = []
  record : z.flt.record = s.flt.record

theorem detect_first {d : Detected} {y s : State} {ch : List Part} (hl : d.line = none)
    (hq : s.flt.detected = []) (hm : s.mayReset = true) (hg : s.gated d.block d.source d.unit = false)
    (hf : (s.blk d.block).sticky.getLsbD d.source = false) (ha : SourceActs ch s y) (ht : Part.time ∉ ch) :
    DetectedFirst d ch s (noteDetected d y) (setSource d (acted (noteDetected d y))).1 ∧
      (setSource d (acted (noteDetected d y))).2 = some (s.reaction d.block d.source) := by
  obtain ⟨hd, hb, -⟩ := noteDetected_flt (d := d) ha hq
  have hrec : (noteDetected d y).flt.record = s.flt.record := (congrArg Flt.record ha.flt :)
  have hkx : Keeps (.hcp :: .flt :: ch) s (noteDetected d y) := (ha.keeps.weaken fun p hp => List.mem_cons_of_mem _ hp).trans
    ((noteDetected_keeps d y).weaken (by simp))
  have hph : (noteDetected d y).chip.phase = s.chip.phase := ha.phase
  have hnow : (noteDetected d y).now = s.now := now_of_time (ha.keeps .time fun h => (List.mem_cons.mp h).elim (by simp) ht)
  generalize noteDetected d y = x at hd hb hrec hkx hph hnow
  have hblk : ∀ k, x.blk k = s.blk k := fun k => by unfold State.blk; rw [hb]
  obtain ⟨hz, hr⟩ := setSource_first hl ((gated_of_blocks hb ..).trans hg) (by rw [hblk]; exact hf)
  have hzp : (setSource d (acted x)).1.chip.phase = s.chip.phase := (congrArg Chip.phase (hz.keeps .chip (by simp))).trans hph
  have hflt := hz.flt
  refine ⟨{
    one := hd
    live := (faultsHeld_of_phase hph).trans (faultsHeld_of_mayReset hm)
    keeps := hkx.trans (hz.keeps.weaken (by simp))
    mayReset := (mayReset_of_phase hzp).trans hm
    blocks := by rw [hflt]; show tset _ _ _ _ = _; rw [hb, hblk, hnow]
    acted := by rw [hflt]
    record := by rw [hflt]; exact hrec }, ?_⟩
  rw [hr]
  unfold State.reaction
  rw [hblk]

theorem detect_resetsBlock (n : Fin 64) (u : Nat) (m : MemRead) (s : State) (hInv : s.Inv) (hs : sourceExists 7 n = true)
    (hg : s.gated 7 n u = false) (hm : s.mayReset = true) (hf : (s.blk 7).sticky.getLsbD n = false)
    (h1 : resetField (s.reaction 7 n) = 1) (hr : s.inReset 7 0 = false) :
    Gives (.faultDetect 7 n u m) s [.hcp, .flt, .cap] fun t =>
      let f := (s.blk 7).seen s.now n u
      let starts := (f.starts.filter fun x => decide (s.now ≤ x.2 + unitsPerSec)) ++ [(0, s.now)]
      t.blk 7 = { f with
        starts := starts, inReset := f.inReset ++ [0]
        held := if 4 ≤ (starts.filter fun x => x.1 == 0).length then f.held ++ [0] else f.held
        gates := (f.gates.filter fun g => g.unit != 0) ++ [{ unit := 0, feeds := [] }] } ∧
      (∀ k, k ≠ 7 → t.blk k = s.blk k) := by
  have hl : lineRegion 7 n = none := rfl
  have heff : effectOf (detectStep 7 n u m) s = _ := detectStep_notes (u := u) (m := m) (s := { s with emitted := [] })
    (faultsHeld_of_mayReset hm) (by simp) (by simp) (by simp)
  rw [detectedAt_line hl] at heff
  have hk : Keeps [.cap] { s with emitted := [] } (sourceEffect ⟨7, n, u, none⟩ m { s with emitted := [] }) := by
    unfold sourceEffect
    dsimp only
    rw [if_neg (by simp : ¬ (7 = 8 ∧ n.val = 0)), if_neg (by simp : ¬ (7 = 11 ∧ n.val = 1)), if_neg (by simp : ¬ (7 = 12 ∧ n.val = 1)),
      if_neg (by simp : ¬ (7 = 14 ∧ n.val = 2)), if_neg (by simp : ¬ (7 = 16 ∧ n.val = 0))]
    exact .ite (setWin_keeps _ _ _)
  obtain ⟨hz, hr7⟩ := detect_first (d := ⟨7, n, u, none⟩) (s := { s with emitted := [] }) rfl hInv.acted hm hg hf
    (.of_keeps hk) (by simp)
  generalize noteDetected ⟨7, n, u, none⟩ (sourceEffect ⟨7, n, u, none⟩ m { s with emitted := [] }) = x at heff hz hr7
  have hact := actFaults_block (old := s) 127 hz.one hz.live (by simp) hr7 h1 hz.mayReset
  generalize (setSource ⟨7, n, u, none⟩ (acted x)).1 = z at hz hact
  have hbz := hz.blocks
  have hb7 : z.blk 7 = (s.blk 7).seen s.now n u := by
    unfold State.blk
    rw [hbz]
    exact tget_tset_self ..
  have hin : z.inReset 7 u = false := by
    rw [← hr]
    unfold State.inReset
    rw [hb7]
    rfl
  have hnow : z.now = s.now := now_of_time (hz.keeps .time (by simp))
  have hq : (z.setBlk 7 (((s.blk 7).seen s.now n u).begun s.now)).flt.detected = [] := hz.acted
  rw [beginReset_engine hin, hb7, hnow, actFaults_quiet s 127 _ (by decide) hq] at hact
  refine gives_of_settled (exec_faultDetect (b := 7) u m s hs) ((congrArg (actFaults s reactionDepth) heff).trans hact) hq
    (Keeps.trans (ch := [.hcp, .flt, .cap]) hz.keeps ((setBlk_keeps 7 _ z).weaken (by simp))) fun t F => ?_
  have hblk : ∀ k, t.blk k = (z.setBlk 7 (((s.blk 7).seen s.now n u).begun s.now)).blk k := blk_of_flt F.flt
  refine ⟨(hblk 7).trans (blk_setBlk_self ..), fun k hk => ?_⟩
  rw [hblk, blk_setBlk_ne _ _ hk]
  unfold State.blk
  rw [hbz]
  exact tget_tset_ne _ _ _ _ _ hk

theorem detect_resetsChip (b : Fin 17) (n : Fin 64) (u : Nat) (m : MemRead) (s : State) (hInv : s.Inv) (hs : sourceExists b n = true)
    (hl : lineRegion b n = none) (hn : (b.val, n.val) ∉ [(1, 1), (11, 0)]) (h3 : b = 3 → n = 3 → s.chip.dspLocked = true)
    (hg : s.gated b n u = false) (hm : s.mayReset = true) (hf : (s.blk b).sticky.getLsbD n = false)
    (h2 : resetField (s.reaction b n) = 2) :
    Gives (.faultDetect b n u m) s wholeHub fun t =>
      t.chip.phase = .reset ∧ CoreCleared t ∧ t.time = s.time.held ∧
      t.flt.record.cause = (if b = 15 ∧ n = 2 then 3 else 2) ∧ t.flt.record.block = b ∧ t.flt.record.source = n ∧
      t.flt.record.unit = u ∧ t.flt.record.time = s.now ∧ t.flt.record.count = s.flt.record.count + 1 := by
  have h11 : ¬ (b.val = 1 ∧ n.val = 1) := fun h => hn (by rw [h.1, h.2]; decide)
  have h110 : ¬ (b.val = 11 ∧ n.val = 0) := fun h => hn (by rw [h.1, h.2]; decide)
  have heff : effectOf (detectStep b n u m) s = _ := detectStep_notes (u := u) (m := m) (s := { s with emitted := [] })
    (faultsHeld_of_mayReset hm) h11 h110 fun hb hn => h3 (Fin.ext hb) (Fin.ext hn)
  rw [detectedAt_line hl] at heff
  obtain ⟨hz, hr⟩ := detect_first (d := ⟨b, n, u, none⟩) (s := { s with emitted := [] }) rfl hInv.acted hm hg hf
    (sourceEffect_acts (d := ⟨b, n, u, none⟩) rfl m _) (by simp)
  generalize noteDetected ⟨b, n, u, none⟩ (sourceEffect ⟨b, n, u, none⟩ m { s with emitted := [] }) = x at heff hz hr
  have hact := actFaults_chip (old := s) 127 hz.one hz.live b.isLt hr h2 hz.mayReset
  generalize (setSource ⟨b, n, u, none⟩ (acted x)).1 = z at hz hact
  obtain ⟨c, es, hact⟩ : ∃ c es, actFaults s reactionDepth x =
      resetState c es (writeRecord (if b.val = 15 ∧ n.val = 2 then 3 else 2) b n u s z) := ⟨_, _, hact.trans (chipReset_eq _)⟩
  have htime : z.time = s.time := hz.keeps .time (by simp)
  refine gives_of_settled (exec_faultDetect u m s hs) ((congrArg (actFaults s reactionDepth) heff).trans hact) rfl
    (keeps_wholeHub (hz.keeps .tick (by simp)) (hz.keeps .free (by simp)) (hz.keeps .queue (by simp))) fun t F => ?_
  have hrec : t.flt.record = (writeRecord (if b.val = 15 ∧ n.val = 2 then 3 else 2) b n u s z).flt.record := by rw [F.flt]; rfl
  refine ⟨by rw [F.chip]; rfl, (coreCleared_resetState _ _ _).follows F, ?_, ?_, by rw [hrec]; rfl, by rw [hrec]; rfl,
    by rw [hrec]; rfl, ?_, ?_⟩
  · rw [F.time]
    show ({ z.time.afterReset with sec := _, ns := _, frac40 := _ } : TimeSt) = _
    rw [htime]
    rfl
  · rw [hrec]
    have hc : (b = 15 ∧ n = 2) ↔ (b.val = 15 ∧ n.val = 2) := and_congr Fin.ext_iff Fin.ext_iff
    simp only [hc]
    rfl
  · rw [hrec]
    exact now_of_time htime
  · rw [hrec]
    exact congrArg (· + 1) (congrArg FaultRecord.count hz.record)

theorem gate_ends (b : Fin 17) (u : Nat) (s : State) (hInv : s.Inv) :
    Gives (.gateEnd b u) s [.flt] fun t =>
      t.flt = { s.flt with blocks := tset {} s.flt.blocks b { s.blk b with gates := (s.blk b).gates.filter fun g =>
        !(g.unit == u && (match g.left with
          | some k => decide (k + 256 ≤ s.tick)
          | none => false)) } } :=
  gives_of_effect rfl (rfl : effectOf (gateEnd b u) s = gateEnd b u { s with emitted := [] }) hInv.acted .of_parts fun t F => F.flt

end Sys2Proof.Machine
end

