-- ==== Sys2Proof/Proofs/Discards.lean ====
section
/-! SUPPORT. A calendar entry that fails its check (ENTRY_CHECK, R96, R376) is discarded; what a detected fault does is settled here (O48). -/

namespace Sys2Proof.Machine

set_option Elab.async false

/-! ## What an undoing leaves of the calendar -/

/-- The calendar stays as it is but for its entries. -/
def KeepsFires (s t : State) : Prop := t.cal = { s.cal with entries := t.cal.entries }

theorem KeepsFires.refl (s : State) : KeepsFires s s := rfl

theorem KeepsFires.trans {s t u : State} (h : KeepsFires s t) (k : KeepsFires t u) : KeepsFires s u := by
  unfold KeepsFires at *
  rw [k, h]

theorem KeepsFires.of_cal {s t : State} (h : t.cal = s.cal) : KeepsFires s t := by
  unfold KeepsFires
  rw [h]

theorem KeepsFires.forEach {α : Type} {f : α → State → State} (h : ∀ x s, KeepsFires s (f x s)) :
    ∀ (xs : List α) (s : State), KeepsFires s (forEach xs f s)
  | [], s => .refl s
  | x :: xs, s => (h x s).trans (KeepsFires.forEach h xs (f x s))

theorem complete_keepsFires (j : JobRef) (st d : Nat) (p : Bytes) (s : State) : KeepsFires s (complete j st d p s) :=
  .of_cal (complete_hcp j st d p s).cal

theorem setEntries_keepsFires (es : List CalEntry) (s : State) : KeepsFires s { s with cal := { s.cal with entries := es } } := rfl

theorem endSwap_keepsFires (p result : Nat) (s : State) : KeepsFires s (endSwap p result s) := by
  unfold endSwap
  dsimp only
  cases (s.pipe p).swap with
  | none => exact .refl s
  | some w =>
    dsimp only
    have hy : (s.setPipe p { s.pipe p with
      swap := none, bank := .loaded, histB := [], bRun := 0, fadeDone := 0
      lastLanding := w.landing.getD (s.pipe p).lastLanding }).cal = s.cal := rfl
    generalize s.setPipe p { s.pipe p with
      swap := none, bank := .loaded, histB := [], bRun := 0, fadeDone := 0
      lastLanding := w.landing.getD (s.pipe p).lastLanding } = y at hy ⊢
    have hy := KeepsFires.of_cal hy
    cases w.job with
    | none => exact hy
    | some j =>
      cases w.fire with
      | some f => exact hy.trans (complete_keepsFires ..)
      | none =>
        dsimp only
        split
        · exact (hy.trans (setEntries_keepsFires _ y)).trans (complete_keepsFires ..)
        · exact hy.trans (complete_keepsFires ..)

theorem setPipe_keepsFires (p : Nat) (x : Pipe) (s : State) : KeepsFires s (s.setPipe p x) := rfl

theorem unplaceStream_keepsFires (p : Nat) (s : State) : KeepsFires s (unplaceStream p s) := .of_cal rfl

theorem disarmPipe_keepsFires (p : Nat) (s : State) : KeepsFires s (disarmPipe p s) := by
  unfold disarmPipe dropSwap
  split
  · exact ((setPipe_keepsFires p _ s).trans (endSwap_keepsFires p _ _)).trans (unplaceStream_keepsFires p _)
  · exact .refl s

theorem disarmChannel_keepsFires (c : Nat) (s : State) : KeepsFires s (disarmChannel c s) := by
  unfold disarmChannel
  split
  · exact rfl
  · exact .refl s

theorem dropQuiet_keepsFires (id : Nat) (s : State) : KeepsFires s (dropQuiet id s) := by
  unfold dropQuiet
  dsimp only
  cases s.boot.calib with
  | none => exact rfl
  | some c =>
    dsimp only
    split <;> exact rfl

theorem undo_keepsFires (e : CalEntry) (s : State) : KeepsFires s (undo e s).2 := by
  unfold undo
  cases e.action
  case swap p =>
    dsimp only
    cases (s.pipe p).swap with
    | none => exact .refl s
    | some w => exact rfl
  case chanStart first count => exact .forEach disarmChannel_keepsFires _ s
  case pipeStart first count => exact .forEach disarmPipe_keepsFires _ s
  case quietClose id => exact dropQuiet_keepsFires id s
  all_goals exact rfl

/-! ## The entry that is taken -/

theorem placeEntry_mem {x y : CalEntry × Nat} : ∀ {l : List (CalEntry × Nat)}, y ∈ placeEntry x l → y = x ∨ y ∈ l
  | [], h => .inl (List.mem_singleton.mp h)
  | z :: zs, h => by
    unfold placeEntry at h
    split at h
    · exact List.mem_cons.mp h
    · rcases List.mem_cons.mp h with rfl | h
      · exact .inr List.mem_cons_self
      · exact (placeEntry_mem h).imp id (List.mem_cons_of_mem _)

theorem placeEntry_ne_nil (x : CalEntry × Nat) (l : List (CalEntry × Nat)) : placeEntry x l ≠ [] := by
  cases l with
  | nil => exact List.cons_ne_nil _ _
  | cons y ys =>
    unfold placeEntry
    split <;> exact List.cons_ne_nil _ _

theorem foldl_placeEntry_mem {y : CalEntry × Nat} : ∀ {xs l : List (CalEntry × Nat)},
    y ∈ xs.foldl (fun l x => placeEntry x l) l → y ∈ xs ∨ y ∈ l
  | [], _, h => .inr h
  | x :: xs, l, h => by
    rcases foldl_placeEntry_mem (xs := xs) h with h | h
    · exact .inl (List.mem_cons_of_mem _ h)
    · exact (placeEntry_mem h).imp (fun he => by rw [he]; exact List.mem_cons_self) id

theorem firingOrder_ne_nil {xs : List (CalEntry × Nat)} (h : xs ≠ []) : firingOrder xs ≠ [] := by
  have hfold : ∀ (xs l : List (CalEntry × Nat)), l ≠ [] → xs.foldl (fun l x => placeEntry x l) l ≠ [] := by
    intro xs
    induction xs with
    | nil => exact fun l h => h
    | cons x xs ih => exact fun l _ => ih _ (placeEntry_ne_nil x l)
  cases xs with
  | nil => exact absurd rfl h
  | cons x xs => exact hfold xs _ (placeEntry_ne_nil x [])

/-- The due entry is the first in the firing order. -/
theorem firingOrder_due {s : State} {e : CalEntry} (he : e ∈ s.cal.entries) (hd : e.due s = true)
    (h1 : ∀ x ∈ s.cal.entries, x.due s = true → x = e) :
    ∃ l, firingOrder ((s.cal.entries.filter fun e => e.due s).map fun e => (e, 0)) = (e, 0) :: l := by
  have hne : (s.cal.entries.filter fun e => e.due s).map (fun e => (e, 0)) ≠ [] := by
    intro h
    have hmem : e ∈ s.cal.entries.filter fun e => e.due s := List.mem_filter.mpr ⟨he, hd⟩
    rw [List.map_eq_nil_iff.mp h] at hmem
    cases hmem
  have hall : ∀ y ∈ firingOrder ((s.cal.entries.filter fun e => e.due s).map fun e => (e, 0)), y = (e, 0) := by
    intro y hy
    rcases foldl_placeEntry_mem hy with hy | hy
    · obtain ⟨x, hx, rfl⟩ := List.mem_map.mp hy
      obtain ⟨hx, hxd⟩ := List.mem_filter.mp hx
      rw [h1 x hx hxd]
    · cases hy
  cases hf : firingOrder ((s.cal.entries.filter fun e => e.due s).map fun e => (e, 0)) with
  | nil => exact absurd hf (firingOrder_ne_nil hne)
  | cons y l =>
    rw [hf] at hall
    exact ⟨l, by rw [hall y List.mem_cons_self]⟩

/-- The entries of the insertion number of a one-shot entry leave the calendar. -/
theorem retire_oneShot {e : CalEntry} {s : State} (hp : e.period = 0) :
    ∃ l, retire false e s = { s with cal := { s.cal with entries := l } } ∧ ∀ x ∈ l, x ∈ s.cal.entries ∧ x.ins ≠ e.ins := by
  refine ⟨_, rfl, fun x hx => ?_⟩
  obtain ⟨y, hy, hyx⟩ := List.mem_filterMap.mp hx
  by_cases h : y.ins = e.ins
  · rw [if_pos h, hp] at hyx
    simp at hyx
  · rw [if_neg h] at hyx
    cases hyx
    exact ⟨hy, h⟩

/-- The record of an outcome enters a log that has room. -/
theorem logFire_records {e : CalEntry} {o : Nat} {b : Bytes} {s : State} (h : s.cal.fireLog.length < 4096) :
    ∃ l, logFire e o b s = { s with cal := { s.cal with fireLog := l } } ∧ ∃ f ∈ l, f.ins = e.ins ∧ f.outcome = o := by
  have hrec : (fireRec e o b s).ins = e.ins ∧ (fireRec e o b s).outcome = o := ⟨rfl, rfl⟩
  unfold logFire
  have hl := Nat.lt_of_le_of_lt (List.length_filter_le (fun f => f.ins != e.ins) s.cal.fireLog) h
  generalize s.cal.fireLog.filter (fun f => f.ins != e.ins) = log at hl
  cases log with
  | nil => exact ⟨_, rfl, _, List.mem_singleton_self _, hrec⟩
  | cons f fs => exact ⟨_, if_pos hl, _, List.mem_append_right _ (List.mem_singleton_self _), hrec⟩

/-! ## The entry is discarded -/

/-- An entry of the calendar has been discarded with an outcome. -/
structure Discarded (e : CalEntry) (o : Nat) (s x : State) : Prop where
  keeps : Keeps (.flt :: undoParts) s x
  flt : x.flt = { s.flt with detected := s.flt.detected ++ [⟨1, 0, 0, none⟩] }
  entries : ∀ y ∈ x.cal.entries, y ∈ s.cal.entries
  counted : x.cal.discarded = s.cal.discarded + 1
  logged : ∃ f ∈ x.cal.fireLog, f.ins = e.ins ∧ f.outcome = o

theorem discard_discarded {e : CalEntry} {o : Nat} {s : State} (hl : s.cal.fireLog.length < 4096) : Discarded e o s (discard e o s) := by
  have hy : Keeps (.flt :: undoParts) s (raise 1 0 0 { s with cal := { s.cal with discarded := s.cal.discarded + 1 } }) :=
    Keeps.weaken (ch := [.flt, .cal]) .of_parts (by simp)
  have hyf : (raise 1 0 0 { s with cal := { s.cal with discarded := s.cal.discarded + 1 } }).flt =
    { s.flt with detected := s.flt.detected ++ [⟨1, 0, 0, none⟩] } := rfl
  have hyc : (raise 1 0 0 { s with cal := { s.cal with discarded := s.cal.discarded + 1 } }).cal =
    { s.cal with discarded := s.cal.discarded + 1 } := rfl
  unfold discard
  dsimp only
  generalize raise 1 0 0 { s with cal := { s.cal with discarded := s.cal.discarded + 1 } } = y at hy hyf hyc ⊢
  have hu := undo_undoes e y
  have hf := undo_keepsFires e y
  generalize undo e y = p at hu hf ⊢
  have hcal : p.2.cal = { s.cal with discarded := s.cal.discarded + 1, entries := p.2.cal.entries } := by rw [hf, hyc]
  obtain ⟨l, hlog, f, hfl, hfe⟩ := logFire_records (e := e) (o := o) (b := p.1) (s := p.2) (by rw [hcal]; exact hl)
  rw [hlog]
  have hz : Keeps undoParts p.2 { p.2 with cal := { p.2.cal with fireLog := l } } := Keeps.weaken (ch := [.cal]) .of_parts (by simp)
  have hn := ledgerNotice_hcp s { p.2 with cal := { p.2.cal with fireLog := l } }
  have hk : Keeps undoParts y (ledgerNotice s { p.2 with cal := { p.2.cal with fireLog := l } }) :=
    (hu.keeps.trans hz).trans (hn.keeps.weaken (by simp))
  have hc : (ledgerNotice s { p.2 with cal := { p.2.cal with fireLog := l } }).cal = { p.2.cal with fireLog := l } := hn.cal
  refine ⟨hy.trans (hk.weaken fun _ h => List.mem_cons_of_mem _ h), (hk .flt (by simp)).trans hyf, ?_, ?_, f, ?_, hfe⟩
  · rw [hc]
    intro x hx
    have hx := hu.entries x hx
    rw [hyc] at hx
    exact hx
  · rw [hc, hcal]
  · rw [hc]
    exact hfl

theorem entryCheck_discards {s : State} {e : CalEntry} (h : s.OneDue e) :
    ∃ y, entryCheck s = discard e 4 y ∧ Keeps [.cal] s y ∧ y.cal.discarded = s.cal.discarded ∧ y.cal.fireLog = s.cal.fireLog ∧
      ∀ x ∈ y.cal.entries, x ∈ s.cal.entries ∧ x.ins ≠ e.ins := by
  obtain ⟨he, hd, hp, h1, -⟩ := h
  obtain ⟨l, hl⟩ := firingOrder_due he hd fun x hx hxd => h1 x hx (.inl hxd)
  obtain ⟨es, hr, hes⟩ := retire_oneShot (s := s) hp
  refine ⟨retire false e s, ?_, ?_, ?_, ?_, ?_⟩
  · unfold entryCheck
    rw [hl]
  · rw [hr]
    exact .of_parts
  · rw [hr]
  · rw [hr]
  · rw [hr]
    exact hes

theorem detect_entry (e : CalEntry) (m : MemRead) (s : State) (hInv : s.Inv) (hh : s.faultsHeld = false) (hN : s.NoResets)
    (hD : s.OneDue e) :
    Gives (.faultDetect 1 1 0 m) s [.hcp, .flt, .cal, .cap, .channels, .pipes, .strm, .boot, .ledger, .free] fun t =>
      (∀ x ∈ t.cal.entries, x ∈ s.cal.entries ∧ x.ins ≠ e.ins) ∧ t.cal.discarded = s.cal.discarded + 1 ∧
      ∃ f ∈ t.cal.fireLog, f.ins = e.ins ∧ f.outcome = 4 := by
  have hnote : faultDetect 1 1 0 m { s with emitted := [] } = noteDetected ⟨1, 1, 0, none⟩ { s with emitted := [] } :=
    faultDetect_notes (s := { s with emitted := [] }) hh (by simp) (by simp)
  have heff : effectOf (detectStep 1 1 0 m) s = entryCheck (noteDetected ⟨1, 1, 0, none⟩ { s with emitted := [] }) := by
    unfold effectOf detectStep
    rw [if_pos ⟨rfl, rfl, by rw [show State.faultsHeld { s with emitted := [] } = false from hh]; rfl⟩, hnote]
  have hx : Keeps [.flt] s (noteDetected ⟨1, 1, 0, none⟩ { s with emitted := [] }) := .of_parts
  have hxd : (noteDetected ⟨1, 1, 0, none⟩ { s with emitted := [] }).flt.detected = [⟨1, 1, 0, none⟩] := congrArg (· ++ [_]) hInv.acted
  have hxb : (noteDetected ⟨1, 1, 0, none⟩ { s with emitted := [] }).flt.blocks = s.flt.blocks := rfl
  have hxD : (noteDetected ⟨1, 1, 0, none⟩ { s with emitted := [] }).OneDue e := hD
  generalize noteDetected ⟨1, 1, 0, none⟩ { s with emitted := [] } = x at heff hx hxd hxb hxD
  have hxc : x.cal = s.cal := hx .cal (by simp)
  obtain ⟨y, hy, hyk, hyd, hyl, hye⟩ := entryCheck_discards hxD
  have D : Discarded e 4 y (discard e 4 y) := discard_discarded (by rw [hyl, hxc]; exact hD.2.2.2.2)
  rw [hy] at heff
  generalize discard e 4 y = z at heff D
  have hyf : y.flt = x.flt := hyk .flt (by simp)
  have hzd : z.flt.detected = [⟨1, 1, 0, none⟩, ⟨1, 0, 0, none⟩] := by rw [D.flt, hyf, hxd]; rfl
  refine gives_of_calm (exec_faultDetect (b := 1) (n := 1) 0 m s rfl) heff (noResets_of_blocks (by rw [D.flt, hyf]; exact hxb) hN)
    (fun d hd => ?_) ((hx.weaken (by simp)).trans ((hyk.weaken (by simp)).trans (Keeps.weaken D.keeps (by simp)))) fun t F _ _ _ => ?_
  · rw [hzd] at hd
    rcases List.mem_cons.mp hd with rfl | hd
    · exact ⟨(by decide : 1 < 17), (by decide : 1 < 64), by simp⟩
    · rw [List.mem_singleton.mp hd]
      exact ⟨(by decide : 1 < 17), (by decide : 0 < 64), by simp⟩
  · rw [F.cal]
    refine ⟨fun w hw => ?_, ?_, D.logged⟩
    · rw [← hxc]
      exact hye w (D.entries w hw)
    · rw [D.counted, hyd, hxc]

/-- Settles O48: a detected source acts of itself, its bit is set, and its reaction resets its block or the chip. -/
theorem faultsAreNotedAndTheirReactionsAct : Obligations.FaultsAreNotedAndTheirReactionsAct := by
  unfold Obligations.FaultsAreNotedAndTheirReactionsAct
  refine ⟨?_, ?_, ?_, ?_, ?_, ?_, ?_, ?_, ?_, ?_⟩
  · exact fun s b n u m hInv hs hQ hl hn => detect_notes b n u m s hInv hs hQ hl hn
  · exact fun s b n u m g hInv hs hh hN hl => detect_line b n u m g s hInv hs hh hN hl
  · exact fun s b n u m hInv hh hN hg hn => detect_acts b n u m s hInv hh hN hg hn
  · exact fun s e m hInv hh hN hD => detect_entry e m s hInv hh hN hD
  · exact fun s n u m hInv hs _ hg hm hf h1 hr => detect_resetsBlock n u m s hInv hs hg hm hf h1 hr
  · exact fun s b n u m hInv hs hl hn h3 hg hm hf h2 => detect_resetsChip b n u m s hInv hs hl hn h3 hg hm hf h2
  · exact fun s b u hInv hu hd hh hN => end_leaves b u s hInv hu hd hh hN
  · exact fun s b u hInv hu hd hh hN => end_holds b u s hInv hu hd hh hN
  · exact fun s b u hInv h => end_outside b u s hInv h
  · exact fun s b u hInv => gate_ends b u s hInv

end Sys2Proof.Machine
end

