-- ==== Sys2Proof/Proofs/FaultOpcodes.lean ====
section
/-! SUPPORT. The fault opcodes but for FLT_CLEAR where conditions go on (R371, R378-R380, R384-R386, R389; Table FLT-9). -/

namespace Sys2Proof.Machine

set_option Elab.async false

/-! ## An opcode that changes the hub is refused in SAFE (R26, check 9) -/

theorem serving_of_writes {op : Op} {r : Req} {s : State} (h : Accepted op r s) (hr : op.reads r (s.judged op r) = false) :
    s.chip.phase = .serving := by
  have hs := h.served
  have hp := h.passes (c := (decide (s.chip.phase ≠ .safe) || op.reads r (s.judged op r), ansState (s.judged op r)))
    (by unfold opChecks; simp)
  simp only [hr, Bool.or_false, decide_eq_true_eq] at hp
  unfold State.serves at hs
  simp only [Bool.and_eq_true, Bool.or_eq_true, beq_iff_eq, hp, or_false] at hs
  exact hs.1

theorem live_of_writes {op : Op} {r : Req} {s : State} (h : Accepted op r s) (hr : op.reads r (s.judged op r) = false) :
    s.faultsHeld = false := by
  unfold State.faultsHeld
  rw [serving_of_writes h hr]
  rfl

/-! ## Reading and setting -/

theorem fltRead_reports (s : State) (r : Req) (h : Accepted opFltRead r s) :
    Reports (.fltRead r) 0x0B01 r s (le 8 (s.blk (r.u8 0)).sticky.toNat ++ le 8 (s.fltState (r.u8 0))
      ++ (List.range 64).map (s.reaction (r.u8 0))
      ++ padTo 256 ((s.blk (r.u8 0)).events.flatMap fun e => ts96 e.1 ++ le 1 e.2.1 ++ zeros 1 ++ le 2 e.2.2)) :=
  reports_of_op rfl h rfl

theorem fltReactSet_sets (s : State) (r : Req) (h : Accepted opFltReactSet r s) :
    Gives (.fltReactSet r) s [.hcp, .flt] fun t =>
      t.flt = { s.flt with blocks := tset {} s.flt.blocks (r.u8 0) { s.blk (r.u8 0) with
        react := tset (defaultReaction (r.u8 0) (r.u8 1)) (s.blk (r.u8 0)).react (r.u8 1) (BitVec.ofNat 8 (r.u8 2)) } } ∧
      Answered 0x0B03 r 0 0 [] t :=
  gives_of_op rfl h rfl .of_parts fun t F A => ⟨F.flt, A⟩

theorem fltLock_locks (s : State) (r : Req) (h : Accepted opFltLock r s) :
    Gives (.fltLock r) s [.hcp, .flt] fun t => t.flt = { s.flt with locked := true } ∧ Answered 0x0B04 r 0 0 [] t :=
  gives_of_op rfl h rfl .of_parts fun t F A => ⟨F.flt, A⟩

theorem uncorrRead_reads (s : State) (r : Req) (h : Accepted opUncorrRead r s) :
    Gives (.uncorrRead r) s [.hcp, .flt, .free] fun t =>
      let log : List Uncorr := tget [] s.flt.logs (r.u8 0)
      let got := log.take (r.u8 1)
      let log' := if bit (r.u8 2) 0 then (got.map fun e => { e with acked := true }) ++ log.drop (r.u8 1) else log
      t.flt.logs = tset [] s.flt.logs (r.u8 0) log' ∧
      ∃ c, t.flt.corrected = tset 0 s.flt.corrected (r.u8 0) c ∧
        Answered 0x0B06 r 0 0 (le 2 got.length ++ le 2 (log'.filter fun e => !e.acked).length ++ zeros 4 ++ le 8 c
          ++ le 8 (tget 0 s.flt.outer (r.u8 0)) ++ got.flatMap uncorrEntry) t := by
  refine gives_of_op rfl h rfl .of_parts fun t F A => ⟨congrArg Flt.logs F.flt, _, congrArg Flt.corrected F.flt, ?_⟩
  have hc : tget 0 (drawCorrected (r.u8 0) (s.judged opUncorrRead r)).flt.corrected (r.u8 0) =
      (tget 0 s.flt.corrected (r.u8 0) + (Config.freeWord s.freeCount).toNat) % 2 ^ 64 := tget_tset_self ..
  rw [← hc]
  exact A

theorem fltRecordRead_reads (s : State) (r : Req) (h : Accepted opFltRecordRead r s) :
    Gives (.fltRecordRead r) s [.hcp, .flt] fun t =>
      let f := s.flt.record
      t.flt = { s.flt with record := { f with wasRead := true } } ∧
      Answered 0x0B07 r 0 0 (le 2 0x4652 ++ le 1 f.cause ++ le 1 (mask [f.again, f.wasRead, f.testMode]) ++ le 1 f.block
        ++ le 1 f.source ++ le 2 f.unit ++ ts96 f.time ++ le 1 (qCode f.quality) ++ le 1 f.state ++ le 2 f.hubId.toNat
        ++ le 4 f.count.toNat ++ le 4 f.chipState.toNat ++ zeros 32
        ++ (List.range 64).flatMap fun b => le 8 (tget (0, 0) f.copies b).1.toNat ++ le 8 (tget (0, 0) f.copies b).2.toNat) t :=
  gives_of_op rfl h rfl .of_parts fun t F A => ⟨F.flt, A⟩

/-! ## Releasing a held unit (R378) -/

theorem fltBlockRelease_releases (s : State) (r : Req) (h : Accepted opFltBlockRelease r s) (hN : s.NoResets) :
    Gives (.fltBlockRelease r) s [.hcp, .flt, .cap, .cal, .pipes, .upl, .xfer, .ledger] fun t =>
      let f := s.blk (r.u8 0)
      (t.blk (r.u8 0)).held = f.held.filter (fun k => k ≠ r.u16 2) ∧ (t.blk (r.u8 0)).inReset = f.inReset ∧
      (t.blk (r.u8 0)).gates = (f.gates.map fun g => if g.unit = r.u16 2 then { g with left := some s.tick } else g) ∧
      (t.gated (r.u8 0) 63 (r.u16 2) = false → (t.blk (r.u8 0)).sticky.getLsbD 63 = true) ∧
      Answered 0x0B05 r 0 0 [] t := by
  have hb : r.u8 0 ≤ 16 := by
    have := h.field (c := fieldLe 0 (r.u8 0) 16) (by unfold opFltBlockRelease; simp)
    simpa [fieldLe] using this
  have hst := h.state (List.mem_singleton.mpr rfl)
  rw [Bool.and_eq_true, Bool.not_eq_true', ← Bool.not_eq_true] at hst
  have hR := leaveReset_released (r.u8 0) (r.u16 2) (s.judged opFltBlockRelease r) h.acted
  have he : opFltBlockRelease.effect r (s.judged opFltBlockRelease r) =
      (leaveReset (r.u8 0) (r.u16 2) (s.judged opFltBlockRelease r), ansDone []) := rfl
  generalize leaveReset (r.u8 0) (r.u16 2) (s.judged opFltBlockRelease r) = x at hR he
  refine gives_of_op_calm rfl h he (hR.noResets hN) (hR.calm (by omega)) (hR.keeps.weaken (by simp)) fun t F A => ?_
  have L := hR.left F
  have hne : ∀ k ∈ (s.blk (r.u8 0)).inReset, k ≠ r.u16 2 := by
    rintro k hk rfl
    exact hst.2 (List.contains_iff_mem.mpr hk)
  exact ⟨L.held, L.inReset.trans (List.filter_eq_self.mpr fun k hk => decide_eq_true (hne k hk)), L.gates,
    L.done (live_of_writes (s := s) h rfl), A⟩

/-! ## Injecting a fault (R389) -/

/-- As `gives_of_op`, for an opcode whose effect is one event which is only noted. -/
theorem gives_of_op_noted {i : Instr} {op : Op} {r : Req} {s : State} {ch : List Part} {post : State → Prop} {b n u : Nat}
    (hi : exec i s = .next (after (serveRow op r) s)) (h : Accepted op r s) {st d : Nat} {p : Bytes} (hQ : Quietly b n u s)
    (he : op.effect r (s.judged op r) = (raise b n u (s.judged op r), ⟨st, d, p⟩))
    (hp : ∀ t, Noted b n u s t → Answered op.code r st d p t → post t)
    (hv : st ≠ 0x0303 ∧ st ≠ 0x0304 ∧ st ≠ 0x0401 := by decide) (hh : Part.hcp ∈ ch := by simp) (hf : Part.flt ∈ ch := by simp)
    (hl : op.ledger = false := by rfl) : Gives i s ch post := by
  have heff : op.effect r (s.taking op r) = (raise b n u (s.judged op r), ⟨st, d, p⟩) :=
    (congrArg (op.effect r) (taking_hcp_only s op r)).trans he
  have hflt : (effectOf (serveRow op r) s).flt = { s.flt with detected := [⟨b, n, u, none⟩] } := by
    rw [served_flt h, heff]
    show ({ s.flt with detected := s.flt.detected ++ [⟨b, n, u, none⟩] } : Flt) = _
    rw [h.acted]; rfl
  have hk : Keeps ch s (effectOf (serveRow op r) s) := by
    have k1 : Keeps ch s (op.effect r (s.taking op r)).1 := by
      rw [heff]
      refine Keeps.trans (Keeps.weaken (taking_keeps s op r) (by simp [hh])) ?_
      rw [taking_hcp_only]
      exact (raise_keeps b n u _).weaken (by simp [hf])
    exact k1.trans (Keeps.weaken (served_keeps h) (by simp [hl, hh]))
  have hc : (effectOf (serveRow op r) s).chip = s.chip := by rw [served_chip h, heff]; rfl
  have ht : (effectOf (serveRow op r) s).time = s.time := by rw [served_time h, heff]; rfl
  refine gives_of_noted hi rfl (by rw [hflt]) (hQ.of_same (by exact congrArg Chip.phase hc) ?_) hf hh hk fun t F => hp t ?_ ?_
  · exact (congrArg Flt.blocks hflt :)
  · unfold Noted
    rw [F.flt, now_of_time ht]
    simp only [State.blk, hflt]
    rw [← h.acted]
  · exact F.mb _ (lasting_stored _) _ (served_answered h (by rw [heff]) hv)

theorem fltInject_notes (s : State) (r : Req) (h : Accepted opFltInject r s) (hn : r.u8 1 ≠ 0xFF)
    (hQ : Quietly (r.u8 0) (r.u8 1) (r.u16 2) s) :
    Gives (.fltInject r) s [.hcp, .flt] fun t =>
      Noted (r.u8 0) (r.u8 1) (r.u16 2) s t ∧ Answered 0x0B08 r 0 0 [] t :=
  gives_of_op_noted rfl h hQ (congrArg (·, ansDone []) (if_neg hn)) fun t N A => ⟨N, A⟩

/-! ## Entry to SAFE (R26, R385) -/

theorem endDump_stopped_keeps (d : Nat) (s : State) : Keeps [.hcp, .cap] s (endDump d 1 s) := by
  unfold endDump
  split
  · exact .refl _ s
  · next x _ =>
    dsimp only
    rw [show (x.releaseAfter && (1 : Nat) == 0) = false from Bool.and_false _]
    have hc := ((setDump_keeps d none s).weaken (ch' := [.hcp, .cap]) (by simp)).trans
      ((complete_hcp x.job 0 0 (le 1 1 ++ zeros 3 ++ le 4 x.sent ++ le 4 x.uncorr ++ zeros 4) _).keeps.weaken (by simp))
    obtain ⟨w, hw | hw⟩ := dumpEnded_kept x.window
      (complete x.job 0 0 (le 1 1 ++ zeros 3 ++ le 4 x.sent ++ le 4 x.uncorr ++ zeros 4) (s.setDump d none))
    · rw [hw]; exact hc
    · rw [hw]; exact hc.trans ((setWin_keeps _ _ _).weaken (by simp))

theorem stopDumps_keeps (s : State) : Keeps [.hcp, .cap] s (stopDumps s) := by
  refine .forEach (fun d t => ?_) _ s
  split
  · split
    · exact .refl _ t
    · exact endDump_stopped_keeps d t
  · exact .refl _ t

theorem quietTriggers_keeps (s : State) : Keeps [.cap] s (quietTriggers s) := .forEach (fun _ _ => .of_parts) _ s

theorem enterSafe_keeps (s : State) :
    Keeps [.hcp, .cap, .strm, .upl] { s with chip := { s.chip with phase := .safe } } (enterSafe s) := by
  have ports : ∀ x : State, Keeps [.upl] x
      (forEach (x.upl.ports.map (·.1)) (fun p t => sendRemote p false (abortFrame p t)) x) := fun x =>
    .forEach (fun p t => (abortFrame_only p t).1.keeps.trans (sendRemote_only p false _).1.keeps) _ x
  have streams : ∀ x : State, Keeps [.hcp, .strm] x (forEach (x.strm.streams.map (·.1)) rewindStream x) := fun x =>
    .forEach (fun n t => rewindStream_keeps n t) _ x
  unfold enterSafe
  dsimp only
  exact (((((ports _).weaken (by simp)).trans ((freezeAll_captures 4 _).keeps.weaken (by simp))).trans
    ((stopDumps_keeps _).weaken (by simp))).trans ((streams _).weaken (by simp))).trans ((quietTriggers_keeps _).weaken (by simp))

theorem fltInject_entersSafe (s : State) (r : Req) (h : Accepted opFltInject r s) (hn : r.u8 1 = 0xFF) :
    Gives (.fltInject r) s [.chip, .hcp, .cap, .strm, .upl, .comp, .flt, .ledger] fun t =>
      t.chip = { s.chip with phase := .safe } ∧ t.flt.record.cause = 1 ∧ t.flt.record.block = r.u8 0 ∧
      t.flt.record.source = 0xFF ∧ t.flt.record.unit = r.u16 2 ∧ t.flt.record.time = s.now ∧ Answered 0x0B08 r 0 0 [] t := by
  have hserving := serving_of_writes h rfl
  have hm : (s.judged opFltInject r).mayReset = true := by
    show (s.chip.phase == .boot || s.chip.phase == .serving) = true
    rw [hserving]; rfl
  have he : opFltInject.effect r (s.judged opFltInject r) =
      (enterSafe (writeRecord 1 (r.u8 0) 0xFF (r.u16 2) (s.judged opFltInject r) (s.judged opFltInject r)), ansDone []) :=
    congrArg (·, ansDone []) ((if_pos hn).trans (if_pos hm))
  have hk := enterSafe_keeps (writeRecord 1 (r.u8 0) 0xFF (r.u16 2) (s.judged opFltInject r) (s.judged opFltInject r))
  generalize enterSafe (writeRecord 1 (r.u8 0) 0xFF (r.u16 2) (s.judged opFltInject r) (s.judged opFltInject r)) = x at hk he
  have hflt : x.flt = _ := hk .flt (by simp)
  have hchip : x.chip = { s.chip with phase := .safe } := hk .chip (by simp)
  refine gives_of_op rfl h he (Keeps.trans ?_ (hk.weaken (by simp))) (fun t F A => ?_) (hq := by rw [hflt]; exact h.acted)
  · exact .of_parts
  · rw [F.flt, hflt]
    exact ⟨F.chip.trans hchip, rfl, rfl, rfl, rfl, rfl, A⟩

end Sys2Proof.Machine
end

