-- ==== Sys2Proof/Proofs/FaultClears.lean ====
section
/-! SUPPORT. FLT_CLEAR and the conditions that go on (R373; log entry 115), on whose free values the statement of O49 rests. -/

namespace Sys2Proof.Machine

set_option Elab.async false

/-! ## Clearing a block's registers -/

/-- The registers of a block of which some sticky bits are left (Table FLT-2). -/
def FaultBlock.cleared (f : FaultBlock) (left : W64) : FaultBlock :=
  if left = 0 then { f with sticky := left, firstUnit := 0, firstSrc := 0, firstValid := false } else { f with sticky := left }

/-- The bits of a block that FLT_CLEAR leaves. -/
def State.leftOf (s : State) (r : Req) : W64 := (s.blk (r.u8 0)).sticky &&& ~~~(BitVec.ofNat 64 (r.u64 8))

theorem cleared_sticky (f : FaultBlock) (left : W64) : (f.cleared left).sticky = left := by
  unfold FaultBlock.cleared
  split <;> rfl

theorem cleared_react (f : FaultBlock) (left : W64) : (f.cleared left).react = f.react := by
  unfold FaultBlock.cleared
  split <;> rfl

theorem raisePersisting_nothing {s : State} (h : s.NothingPersists) : raisePersisting s = s := by
  obtain ⟨⟨h1, h2, h3⟩, ⟨h4, h5⟩, h6, h7⟩ := h
  unfold raisePersisting
  simp [h1, h2, h3, h4, h5, h6, h7, forEach]

/-- The hub with the request's block cleared: what FLT_CLEAR judges the conditions in. -/
def State.withCleared (s : State) (r : Req) : State :=
  (s.judged opFltClear r).setBlk (r.u8 0) ((s.blk (r.u8 0)).cleared (s.leftOf r))

theorem fltClear_effect (r : Req) (s : State) : opFltClear.effect r (s.judged opFltClear r) =
    (raisePersisting (s.withCleared r), ansDone (le 8 (s.leftOf r).toNat)) := rfl

theorem fltClear_clears (s : State) (r : Req) (h : Accepted opFltClear r s) (hp : s.NothingPersists) :
    Gives (.fltClear r) s [.hcp, .flt] fun t =>
      let f := s.blk (r.u8 0)
      let left := f.sticky &&& ~~~(BitVec.ofNat 64 (r.u64 8))
      t.flt = { s.flt with blocks := tset {} s.flt.blocks (r.u8 0) (
        if left = 0 then { f with sticky := left, firstUnit := 0, firstSrc := 0, firstValid := false }
        else { f with sticky := left }) } ∧ Answered 0x0B02 r 0 0 (le 8 left.toNat) t := by
  have he := fltClear_effect r s
  rw [raisePersisting_nothing (s := s.withCleared r) ⟨hp.time, hp.chip, hp.flt⟩] at he
  exact gives_of_op rfl h he .of_parts fun t F A => ⟨F.flt, A⟩

/-! ## Events of which none resets anything (R376) -/

/-- A calm event, or the unlocking of the DSP PLL (R16). -/
def Detected.Known (d : Detected) : Prop := d.Calm ∨ d = ⟨3, 3, 33, none⟩

/-- An event that resets nothing of itself: the DSP PLL may unlock only where it is unlocked already. -/
def Detected.Mild (s : State) (d : Detected) : Prop := d.Calm ∨ d = ⟨3, 3, 33, none⟩ ∧ s.chip.dspLocked = false

theorem Detected.Mild.known {s : State} {d : Detected} (h : d.Mild s) : d.Known := h.imp_right And.left

theorem setSource_unlock (s : State) (hN : s.NoResets) :
    FaultStep s (setSource ⟨3, 3, 33, none⟩ s).1 ∧ (∀ b ∈ (setSource ⟨3, 3, 33, none⟩ s).2, resetField b = 0) ∧
      (setSource ⟨3, 3, 33, none⟩ s).1.flt.detected = s.flt.detected := by
  obtain ⟨byte, hbyte, hset⟩ := acts_seen (d := ⟨3, 3, 33, none⟩) (s := s) rfl
  have hst := setSeen_step 3 3 33 s (by decide)
  have heq : setSource ⟨3, 3, 33, none⟩ s = Detected.acts ⟨3, 3, 33, none⟩ s := rfl
  rw [heq, hset]
  dsimp only
  refine ⟨?_, fun b hb => ?_, ?_⟩
  · split
    · exact hst.trans (faultEvent_step ..)
    · exact hst
  · split at hb
    · cases hb
      rcases hbyte with rfl | rfl
      · decide
      · exact hN 3 (by decide) 3 (by decide)
    · cases hb
  · split
    · exact (congrArg Flt.detected (faultEvent_flt ..)).trans rfl
    · rfl

theorem setSource_known {d : Detected} {s : State} (hd : d.Known) (hN : s.NoResets) :
    FaultStep s (setSource d s).1 ∧ (∀ b ∈ (setSource d s).2, resetField b = 0) ∧
      ∃ l, (setSource d s).1.flt.detected = s.flt.detected ++ l ∧ ∀ x ∈ l, x.Calm := by
  rcases hd with hd | rfl
  · have h := setSource_step d s hd hN
    obtain ⟨l, hl, hc⟩ := h.raised
    exact ⟨h.step, h.noReset, l, hl, fun x hx => (hc x hx).1⟩
  · obtain ⟨h, hr, hd⟩ := setSource_unlock s hN
    exact ⟨h, hr, [], by rw [hd, List.append_nil], by simp⟩

theorem setSources_known : ∀ (ds : List Detected) (s : State), (∀ d ∈ ds, d.Known) → s.NoResets →
    FaultStep s (setSources ds s).1 ∧ (∀ r ∈ (setSources ds s).2, resetField r.2 = 0) ∧
      ∃ l, (setSources ds s).1.flt.detected = s.flt.detected ++ l ∧ ∀ x ∈ l, x.Calm
  | [], s, _, _ => ⟨.refl s, by simp [setSources], [], (List.append_nil _).symm, by simp⟩
  | d :: ds, s, hc, hN => by
    obtain ⟨hd, hb, k, hk, hp⟩ := setSource_known (hc d List.mem_cons_self) hN
    obtain ⟨hs, hr, l, hl, hq⟩ := setSources_known ds (setSource d s).1 (fun x hx => hc x (List.mem_cons_of_mem _ hx))
      (hd.noResets hN)
    refine ⟨hd.trans hs, fun r h => ?_, k ++ l, ?_, fun x hx => (List.mem_append.mp hx).elim (hp x) (hq x)⟩
    · change r ∈ (match (setSource d s).2 with
        | some b => (d, b) :: (setSources ds (setSource d s).1).2
        | none => (setSources ds (setSource d s).1).2) at h
      cases hbyte : (setSource d s).2 with
      | none => rw [hbyte] at h; exact hr r h
      | some b =>
        rw [hbyte] at h
        rcases List.mem_cons.mp h with rfl | h
        · exact hb b hbyte
        · exact hr r h
    · show (setSources ds (setSource d s).1).1.flt.detected = _
      rw [hl, hk, List.append_assoc]

theorem beginDsp_unlocked {s : State} (h : s.chip.dspLocked = false) : beginDsp s = s := by
  unfold beginDsp
  rw [h]
  rfl

/-- Events of which none resets anything change what fault events write, no more. -/
theorem actFaults_mild (old : State) (k : Nat) (s : State) (hc : ∀ d ∈ s.flt.detected, d.Mild s) (hN : s.NoResets)
    (hlive : s.faultsHeld = false) : FaultStep s (actFaults old (k + 1) s) := by
  cases hdet : s.flt.detected with
  | nil =>
    rw [actFaults_quiet old (k + 1) s (by omega) hdet]
    exact .refl s
  | cons d ds =>
    obtain ⟨hs, hr, l, hl, hq⟩ := setSources_known s.flt.detected (acted s) (fun d hd => (hc d hd).known) hN
    have hz : FaultStep s (setSources s.flt.detected (acted s)).1 := (FaultStep.of_flt rfl : FaultStep s (acted s)).trans hs
    have hcalm : ∀ x ∈ (setSources s.flt.detected (acted s)).1.flt.detected, x.Calm := by
      rw [hl]
      exact hq
    have hrest := (actFaults_calm old k _ hcalm (hz.noResets hN)).1
    rw [actFaults_cycle k hdet hlive, chipAsked_none hr, filter_reset_nil hr]
    dsimp only [forEach, List.foldl_nil]
    rw [ite_self, ite_self]
    dsimp only
    split
    · next h33 =>
      obtain ⟨x, hx, h⟩ := List.any_eq_true.mp h33
      rw [Bool.and_eq_true, beq_iff_eq, beq_iff_eq] at h
      have hun := (hc x hx).elim (fun c => absurd h c.plain) And.right
      rw [beginDsp_unlocked ((congrArg Chip.dspLocked hz.phase).trans hun)]
      exact hz.trans hrest
    · exact hz.trans hrest

/-- As `gives_of_op_calm`, for events of which none resets anything; of the fault registers it says what lasts. -/
theorem gives_of_op_mild {i : Instr} {op : Op} {r : Req} {s x : State} {ch : List Part} {post : State → Prop}
    (hi : exec i s = .next (after (serveRow op r) s)) (h : Accepted op r s) {st d : Nat} {p : Bytes}
    (he : op.effect r (s.judged op r) = (x, ⟨st, d, p⟩)) (hN : x.NoResets) (hc : ∀ d ∈ x.flt.detected, d.Mild x)
    (hlive : x.faultsHeld = false) (hk : Keeps ch (s.judged op r) x)
    (hp : ∀ t, (∀ b n, (x.blk b).sticky.getLsbD n = true → (t.blk b).sticky.getLsbD n = true) →
      Answered op.code r st d p t → post t)
    (hv : st ≠ 0x0303 ∧ st ≠ 0x0304 ∧ st ≠ 0x0401 := by decide) (hh : Part.hcp ∈ ch := by simp) (hf : Part.flt ∈ ch := by simp)
    (hl : op.ledger = false := by rfl) : Gives i s ch post := by
  have heff : op.effect r (s.taking op r) = (x, ⟨st, d, p⟩) := (congrArg (op.effect r) (taking_hcp_only s op r)).trans he
  have hflt : (effectOf (serveRow op r) s).flt = x.flt := (served_flt h).trans (by rw [heff])
  have hchip : (effectOf (serveRow op r) s).chip = x.chip := (served_chip h).trans (by rw [heff])
  have hs : FaultStep _ (actFaults s reactionDepth (effectOf (serveRow op r) s)) := actFaults_mild s 127 (effectOf (serveRow op r) s)
    (by unfold Detected.Mild; rw [hflt, hchip]; exact hc) (noResets_of_blocks (congrArg Flt.blocks hflt) hN)
    ((faultsHeld_of_phase (congrArg Chip.phase hchip)).trans hlive)
  have hq := actFaults_acted s reactionDepth (effectOf (serveRow op r) s)
  have hke : Keeps ch s (effectOf (serveRow op r) s) := by
    have hkt : Keeps ch s (s.judged op r) := by
      rw [State.judged, ← taking_hcp_only]
      exact (taking_keeps s op r).weaken (by simp [hh])
    refine (hkt.trans hk).trans (Keeps.weaken (ch := [.hcp]) ?_ (by simp [hh]))
    have := served_keeps h
    rwa [heff, hl] at this
  have F : Follows s (actFaults s reactionDepth (effectOf (serveRow op r) s)) (after (serveRow op r) s) := by
    rw [after_acted rfl hq]
    exact follows_after rfl hq
  refine ⟨_, hi, hs.after_keeps rfl rfl hq hh hf hke, hp _ (fun b n hb => ?_) ?_⟩
  · rw [blk_of_flt F.flt]
    exact hs.grows b n (by rw [blk_of_flt hflt]; exact hb)
  · unfold Answered
    rw [F.mb]
    exact hs.lasting _ (lasting_stored _) _ (served_answered h (by rw [heff]) hv)

/-! ## Conditions that go on -/

/-- `t` is `s` but for the free values, the conditions that may go on, and events that have been detected. -/
structure Redetects (s t : State) : Prop where
  only : t = { s with freeCount := t.freeCount, flt := { s.flt with detected := t.flt.detected, standing := t.flt.standing } }
  events : ∀ d ∈ t.flt.detected, d ∈ s.flt.detected ∨ d.Mild s

theorem Redetects.refl (s : State) : Redetects s s := ⟨rfl, fun _ h => .inl h⟩

theorem Redetects.chip {s t : State} (h : Redetects s t) : t.chip = s.chip := by rw [h.only]

theorem Redetects.trans {s t u : State} (h : Redetects s t) (k : Redetects t u) : Redetects s u := by
  refine ⟨?_, fun d hd => ?_⟩
  · have h' := h.only
    have k' := k.only
    rw [k', h']
  · rcases k.events d hd with hd | hd
    · exact h.events d hd
    · unfold Detected.Mild at hd ⊢
      rw [h.chip] at hd
      exact .inr hd

theorem Redetects.raise {b n u : Nat} {s : State} (h : Detected.Mild s ⟨b, n, u, none⟩) : Redetects s (raise b n u s) := by
  refine ⟨rfl, fun d hd => (List.mem_append.mp hd).imp id fun hd => ?_⟩
  rw [List.mem_singleton.mp hd]
  exact h

/-- A condition that holds sets its bit again (R373). -/
def setAgain (on : Bool) (b n u : Nat) (s : State) : State := if on && !(s.blk b).sticky.getLsbD n then raise b n u s else s

theorem setAgain_redetects {on : Bool} {b n u : Nat} {s : State} (h : on = true → Detected.Mild s ⟨b, n, u, none⟩) :
    Redetects s (setAgain on b n u s) := by
  unfold setAgain
  split
  · next hc => exact .raise (h (Bool.and_eq_true _ _ ▸ hc).1)
  · exact .refl s

/-- A condition that may go on is a calm event, should any free value say that it does. -/
def MayStand (x : Nat × Nat × Nat) : Prop :=
  (∃ d, (Config.freeWord d).getLsbD 0 = true) → Detected.Calm ⟨x.1, x.2.1, x.2.2, none⟩

theorem standingAgain_redetects {x : Nat × Nat × Nat} (h : MayStand x) (s : State) : Redetects s (standingAgain x s) := by
  unfold standingAgain State.draw
  dsimp only
  split
  · exact .refl s
  · split
    · next hb =>
      exact Redetects.trans (t := { s with freeCount := s.freeCount + 1 }) ⟨rfl, fun _ h => .inl h⟩ (.raise (.inl (h ⟨_, hb⟩)))
    · exact ⟨rfl, fun _ h => .inl h⟩

theorem standing_redetects : ∀ (xs : List (Nat × Nat × Nat)) (s : State), (∀ x ∈ xs, MayStand x) →
    Redetects s (forEach xs standingAgain s)
  | [], s, _ => .refl s
  | x :: xs, s, h => (standingAgain_redetects (h x List.mem_cons_self) s).trans
    (standing_redetects xs (standingAgain x s) fun y hy => h y (List.mem_cons_of_mem _ hy))

theorem setAgain_standing (on : Bool) (b n u : Nat) (s : State) : (setAgain on b n u s).flt.standing = s.flt.standing := by
  unfold setAgain
  split <;> rfl

theorem raisePersisting_redetects {s : State} (h : ∀ x ∈ s.flt.standing, MayStand x) : Redetects s (raisePersisting s) := by
  have calm : ∀ {t : State} {on : Bool} {b n : Nat}, b < 17 → n < 64 → ¬ (b = 3 ∧ n = 3) → Redetects t (setAgain on b n 0 t) :=
    fun hb hn hp => setAgain_redetects fun _ => .inl ⟨hb, hn, hp⟩
  unfold raisePersisting
  extract_lets again s1 s2 s3 s4 s5
  have h3 : Redetects s s3 := ((calm (t := s) (by decide) (by decide) (by decide)).trans
    (calm (t := s1) (by decide) (by decide) (by decide))).trans (calm (t := s2) (by decide) (by decide) (by decide))
  have h4 : Redetects s s4 := h3.trans (setAgain_redetects fun hon => .inr ⟨rfl, by simpa using hon⟩)
  have h5 : Redetects s s5 := h4.trans (calm (by decide) (by decide) (by decide))
  have h6 : Redetects s (setAgain s5.chip.fwStalled 15 3 0 s5) := h5.trans (calm (by decide) (by decide) (by decide))
  have hst : s5.flt.standing = s.flt.standing := by
    show (setAgain _ 13 0 0 (setAgain _ 3 3 33 (setAgain _ 0 5 0 (setAgain _ 0 4 0 (setAgain _ 0 3 0 s))))).flt.standing = _
    simp only [setAgain_standing]
  exact h6.trans (standing_redetects _ _ (hst ▸ h))

theorem fltClear_leaves (s : State) (r : Req) (h : Accepted opFltClear r s) (hN : s.NoResets)
    (hS : ∀ x ∈ s.flt.standing, MayStand x) :
    Gives (.fltClear r) s [.hcp, .flt, .free] fun t =>
      let left := (s.blk (r.u8 0)).sticky &&& ~~~(BitVec.ofNat 64 (r.u64 8))
      (t.blk (r.u8 0)).sticky &&& left = left ∧ Answered 0x0B02 r 0 0 (le 8 left.toNat) t := by
  have hR := raisePersisting_redetects (s := s.withCleared r) hS
  have he := fltClear_effect r s
  generalize raisePersisting (s.withCleared r) = x at hR he
  have hblk : x.flt.blocks = (s.setBlk (r.u8 0) ((s.blk (r.u8 0)).cleared (s.leftOf r))).flt.blocks := by rw [hR.only]; rfl
  have hself : x.blk (r.u8 0) = (s.blk (r.u8 0)).cleared (s.leftOf r) := by
    unfold State.blk
    rw [hblk]
    exact blk_setBlk_self ..
  refine gives_of_op_mild rfl h he (noResets_of_blocks hblk (noResets_setBlk (cleared_react _ _) hN)) (fun d hd => ?_) ?_ ?_
    fun t grows A => ⟨?_, A⟩
  · have hm := (hR.events d hd).resolve_left (by rw [show (s.withCleared r).flt.detected = [] from h.acted]; simp)
    unfold Detected.Mild at hm ⊢
    rwa [hR.chip]
  · exact (faultsHeld_of_phase (congrArg Chip.phase hR.chip)).trans (live_of_writes (s := s) h rfl)
  · have honly := hR.only
    rw [honly]
    exact .of_parts
  · refine BitVec.eq_of_getLsbD_eq fun n _ => ?_
    show ((t.blk (r.u8 0)).sticky &&& s.leftOf r).getLsbD n = (s.leftOf r).getLsbD n
    rw [BitVec.getLsbD_and]
    cases hn : (s.leftOf r).getLsbD n with
    | false => rw [Bool.and_false]
    | true => rw [grows _ _ (by rw [hself, cleared_sticky]; exact hn)]; rfl

/-! ## A hub whose DSP PLL is locked, and whose unlocking is listed among the conditions that may go on -/

/-- A hub that serves: mailbox 0 is open, the DSP PLL is locked, no reaction asks for a reset, and the PLL's unlocking is listed among
the conditions that may go on. The statement speaks of every state, also of those that no command leads to. The next draw is d. -/
def standingUnlock (d : Nat) : State :=
  { chip := { phase := .serving, fwRunning := true }
    hcp := { mbs := [(0, { enable := true, session := .opened })] }
    flt := { blocks := calmBlocks, standing := [(3, 3, 33)] }
    freeCount := d }

/-- FLT_CLEAR of block 0 with an empty mask. -/
def clearNothing : Req := { mb := 0, flags := 0, hostSeq := 0, tag := 7, time := zeros 10, payload := zeros 16 }

theorem standingUnlock_accepts (d : Nat) : Accepted opFltClear clearNothing (standingUnlock d) where
  served := rfl
  room := (by decide : (standingUnlock 0).canTake 0 = true)
  acted := rfl
  checks := (by decide +kernel : firstBad (headerChecks ((standingUnlock 0).mb 0).version2 clearNothing ++
    opChecks opFltClear ((standingUnlock 0).mb 0).version2 clearNothing ((standingUnlock 0).taking opFltClear clearNothing)) = none)
  ledger := nofun

theorem standingUnlock_noResets (d : Nat) : (standingUnlock d).NoResets := by
  have h : (standingUnlock 0).NoResets := by
    unfold State.NoResets
    decide +kernel
  exact h

/-! ## The unlocking of the DSP PLL where there is nothing to reset -/

/-- A hub without links, windows, pipes and streams has nothing that the reset of the DSP domain meets. -/
structure State.Bare (s : State) : Prop where
  jesds : s.jesds = []
  bglIns : s.bglIns = []
  scps : s.scps = []
  pipes : s.pipes = []
  windows : s.cap.windows = []
  streams : s.strm.streams = []

theorem dspEnters_bare {s : State} (h : s.Bare) : dspEnters s = s := by
  obtain ⟨h1, h2, h3, h4, h5, h6⟩ := h
  simp [dspEnters, unitEnters, allWindows, forEach, h1, h2, h3, h4, h5, h6]

/-- Changes of blocks' registers leave the rest. -/
theorem forEach_setBlk (f : Nat → State → FaultBlock) : ∀ (bs : List Nat) (t : State),
    forEach bs (fun b t => t.setBlk b (f b t)) t =
      { t with flt := { t.flt with blocks := (forEach bs (fun b t => t.setBlk b (f b t)) t).flt.blocks } }
  | [], _ => rfl
  | b :: bs, t => forEach_setBlk f bs (t.setBlk b (f b t))

theorem beginDsp_bare {s : State} (h : s.Bare) (hl : s.chip.dspLocked = true) :
    (beginDsp s).chip.dspLocked = false ∧ (beginDsp s).flt.detected = s.flt.detected := by
  obtain ⟨h1, h2, h3, h4, h5, h6⟩ := h
  unfold beginDsp
  rw [hl, if_neg (by decide)]
  dsimp only
  generalize hx : forEach dspBlocks _ _ = x
  have honly := hx.symm.trans (forEach_setBlk _ _ _)
  rw [dspEnters_bare (s := x) (by rw [honly]; exact ⟨h1, h2, h3, h4, h5, h6⟩), honly]
  exact ⟨rfl, rfl⟩

theorem State.Bare.of_keeps {s t : State} (h : s.Bare) (k : Keeps [.hcp, .flt, .free] s t) : t.Bare where
  jesds := (k .jesds (by simp)).trans h.jesds
  bglIns := (k .bglIns (by simp)).trans h.bglIns
  scps := (k .scps (by simp)).trans h.scps
  pipes := (k .pipes (by simp)).trans h.pipes
  windows := (congrArg Cap.windows (k .cap (by simp))).trans h.windows
  streams := (congrArg Strm.streams (k .strm (by simp))).trans h.streams

/-- The unlocking of a locked DSP PLL leaves it unlocked. -/
theorem actFaults_unlock {old e : State} (k : Nat) (hd : e.flt.detected = [⟨3, 3, 33, none⟩]) (hN : e.NoResets)
    (hlive : e.faultsHeld = false) (hB : e.Bare) (hl : e.chip.dspLocked = true) :
    (actFaults old (k + 2) e).chip.dspLocked = false := by
  obtain ⟨hs, -, hq⟩ := setSource_unlock (acted e) hN
  have hr := (setSources_known [⟨3, 3, 33, none⟩] (acted e) (fun d hm => .inr (List.mem_singleton.mp hm)) hN).2.1
  have hz : FaultStep e (setSource ⟨3, 3, 33, none⟩ (acted e)).1 := (FaultStep.of_flt rfl : FaultStep e (acted e)).trans hs
  obtain ⟨hu, hn⟩ := beginDsp_bare (hB.of_keeps (hz.keeps.weaken (by simp))) ((congrArg Chip.dspLocked hz.phase).trans hl)
  rw [actFaults_cycle (k + 1) hd hlive, hd, chipAsked_none hr, filter_reset_nil hr]
  dsimp only [forEach, List.foldl_nil]
  rw [ite_self, ite_self]
  show (actFaults old (k + 1) (beginDsp (setSource ⟨3, 3, 33, none⟩ (acted e)).1)).chip.dspLocked = false
  rw [actFaults_quiet old (k + 1) _ (by omega) (by rw [hn, hq]; rfl)]
  exact hu

/-- No condition stands but one that may go on, and the free value says it does. -/
theorem raisePersisting_stands {x : Nat × Nat × Nat} {s : State}
    (ht : s.time.refLost = false ∧ s.time.tpllUnlock = false ∧ s.time.ppsLost = false)
    (hc : s.chip.dspLocked = true ∧ s.chip.fwStalled = false) (hb : s.flt.ledgerBad = false) (hx : s.flt.standing = [x])
    (hs : (s.blk x.1).sticky.getLsbD x.2.1 = false) (hd : (Config.freeWord s.freeCount).getLsbD 0 = true) :
    raisePersisting s = raise x.1 x.2.1 x.2.2 { s with freeCount := s.freeCount + 1 } := by
  obtain ⟨h1, h2, h3⟩ := ht
  obtain ⟨h4, h5⟩ := hc
  have hstands : standingAgain x s = raise x.1 x.2.1 x.2.2 { s with freeCount := s.freeCount + 1 } := by
    unfold standingAgain State.draw
    rw [hs, if_neg Bool.false_ne_true]
    exact if_pos hd
  unfold raisePersisting
  simp [h1, h2, h3, h4, h5, hb, hx, forEach, hstands]

/-- FLT_CLEAR of another block unlocks the DSP PLL where a free value says that its unlocking goes on. -/
theorem fltClear_unlocks {s : State} {r : Req} (h : Accepted opFltClear r s) (hN : s.NoResets) (hB : s.Bare)
    (ht : s.time.refLost = false ∧ s.time.tpllUnlock = false ∧ s.time.ppsLost = false)
    (hc : s.chip.dspLocked = true ∧ s.chip.fwStalled = false) (hb : s.flt.ledgerBad = false) (hst : s.flt.standing = [(3, 3, 33)])
    (h3 : (s.blk 3).sticky.getLsbD 3 = false) (hr : r.u8 0 ≠ 3) (hd : (Config.freeWord s.freeCount).getLsbD 0 = true) :
    (after (serveRow opFltClear r) s).chip.dspLocked = false := by
  have he : (opFltClear.effect r (s.taking opFltClear r)).1 = raise 3 3 33 { s.withCleared r with freeCount := s.freeCount + 1 } :=
    (congrArg (fun x => (opFltClear.effect r x).1) (taking_hcp_only s opFltClear r)).trans
      (raisePersisting_stands (x := (3, 3, 33)) (s := s.withCleared r) ht hc hb hst
        ((congrArg (fun f : FaultBlock => f.sticky.getLsbD 3) (blk_setBlk_ne _ _ (Ne.symm hr))).trans h3) hd)
  have hx : Keeps [.flt, .free] (s.judged opFltClear r)
      (raise 3 3 33 { s.withCleared r with freeCount := s.freeCount + 1 }) := .of_parts
  have hblocks : (raise 3 3 33 { s.withCleared r with freeCount := s.freeCount + 1 }).flt.blocks =
      (s.setBlk (r.u8 0) ((s.blk (r.u8 0)).cleared (s.leftOf r))).flt.blocks := rfl
  have hdet : (raise 3 3 33 { s.withCleared r with freeCount := s.freeCount + 1 }).flt.detected = [⟨3, 3, 33, none⟩] :=
    congrArg (· ++ [_]) h.acted
  generalize raise 3 3 33 { s.withCleared r with freeCount := s.freeCount + 1 } = x at he hx hblocks hdet
  have hflt := served_flt h
  have hk : Keeps [.hcp, .flt, .free] s (effectOf (serveRow opFltClear r) s) := by
    refine Keeps.trans ?_ (Keeps.weaken (served_keeps h) (by simp [opFltClear]))
    rw [he]
    refine Keeps.trans (Keeps.weaken (taking_keeps s opFltClear r) (by simp)) ?_
    rw [taking_hcp_only]
    exact hx.weaken (by simp)
  rw [he] at hflt
  have hun : (actFaults s reactionDepth (effectOf (serveRow opFltClear r) s)).chip.dspLocked = false := actFaults_unlock 126
    ((congrArg Flt.detected hflt).trans hdet)
    (noResets_of_blocks ((congrArg Flt.blocks hflt).trans hblocks) (noResets_setBlk (cleared_react _ _) hN))
    ((faultsHeld_of_phase (congrArg Chip.phase (hk .chip (by simp)))).trans (live_of_writes h rfl)) (hB.of_keeps hk)
    ((congrArg Chip.dspLocked (hk .chip (by simp))).trans hc.1)
  have hq := actFaults_acted s reactionDepth (effectOf (serveRow opFltClear r) s)
  generalize hy : actFaults s reactionDepth (effectOf (serveRow opFltClear r) s) = y at hun hq
  rw [after_acted hy hq]
  exact (congrArg Chip.dspLocked (follows_after (f := fun _ => y) (s := s) rfl hq).chip).trans hun

theorem standingUnlock_unlocks {d : Nat} (hd : (Config.freeWord d).getLsbD 0 = true) :
    (after (serveRow opFltClear clearNothing) (standingUnlock d)).chip.dspLocked = false :=
  fltClear_unlocks (standingUnlock_accepts d) (standingUnlock_noResets d) ⟨rfl, rfl, rfl, rfl, rfl, rfl⟩ ⟨rfl, rfl, rfl⟩
    ⟨rfl, rfl⟩ rfl rfl (by decide +kernel : ((standingUnlock 0).blk 3).sticky.getLsbD 3 = false) (by decide) hd

/-! ## What O49 rests on -/

/-- O49 stays open. All its clauses but that of FLT_CLEAR under `NoResets` hold; that one holds exactly where no free value ever says
that a listed condition goes on (log entry 115), for the list may hold the unlocking of a locked DSP PLL, which resets the DSP domain
(R16). The free values are constants without a body: no proof can see them. -/
theorem faultOpcodesReadClearSetAndInject_iff :
    Obligations.FaultOpcodesReadClearSetAndInject ↔ ∀ d, (Config.freeWord d).getLsbD 0 = false := by
  unfold Obligations.FaultOpcodesReadClearSetAndInject
  constructor
  · intro h d
    obtain ⟨-, -, hClear, -⟩ := h
    obtain ⟨t, ht, hk, -⟩ := hClear (standingUnlock d) clearNothing (standingUnlock_accepts d) (standingUnlock_noResets d)
    have hrun : exec (.fltClear clearNothing) (standingUnlock d) =
      .next (after (serveRow opFltClear clearNothing) (standingUnlock d)) := rfl
    rw [← Host.Outcome.next.inj (hrun.symm.trans ht)] at hk
    have hlocked := congrArg Chip.dspLocked (hk .chip (by simp))
    refine Bool.eq_false_iff.mpr fun hd => ?_
    exact nomatch (hlocked.symm.trans (standingUnlock_unlocks hd) : true = false)
  · intro hfree
    refine ⟨fltRead_reports, fltClear_clears, fun s r h hN => fltClear_leaves s r h hN fun x _ hx => ?_, fltReactSet_sets,
      fltLock_locks, fltBlockRelease_releases, uncorrRead_reads, fltRecordRead_reads, fltInject_notes, fltInject_entersSafe⟩
    obtain ⟨d, hd⟩ := hx
    exact absurd (hd.symm.trans (hfree d)) (by decide)

end Sys2Proof.Machine
end
